-- ==== Sys2Proof/Word.lean ====
section
/-! DEFINITION. The word types of the SV9 and the plainest shapes the other files share: machine words, rows of a tile,
and a finite table of entries held under natural-number keys. -/

namespace Sys2Proof

/-- A 64-bit register or address (R114). -/
abbrev Word := BitVec 64

/-- An instruction word (R89). -/
abbrev W32 := BitVec 32

/-- The smallest addressable unit. -/
abbrev Byte := BitVec 8

/-- One 2048-bit row of a tile (R221). -/
abbrev Row := BitVec 2048

/-- The number of an x or f register. -/
abbrev Reg := BitVec 5

/-- The number of a tile register m0 to m15. -/
abbrev TileReg := BitVec 4

/-- The number of a mask register k0 to k7. -/
abbrev KReg := BitVec 3

/-- A 256-bit mask register image, or a set of tuples by flat number (R303, R305). -/
abbrev Mask := BitVec 256

/-- Entries under keys, keys rising; a key with no entry has the default that the reader names. -/
abbrev Table (α : Type) := List (Nat × α)

end Sys2Proof
end

