-- ==== Sys2Proof/Syntax.lean ====
section
/-! DEFINITION. The instructions of the SV9: one constructor of Instr per row of the table of operations and events
(spec/opcode_table.json). 118 rows are words of the custom opcodes (R94 to R97); 17 rows group the words of RV64IMAFD,
Zicsr and Zifencei by step; the other rows are steps that have no word: firmware calls, events of the engines, and what
the host and the links do. -/

namespace Sys2Proof

/-! ## Operand forms of the custom words -/

/-- The kind of a coloured fence (R93). Kind 00 is illegal and has no constructor. -/
inductive FenceKind | release | acquire | both
  deriving DecidableEq, Repr, Inhabited

/-- The operation of samo (R93, R135). -/
inductive CaOp | add | swap | and | or | xor | max | min | maxu | minu
  deriving DecidableEq, Repr, Inhabited

/-- An MT operand: a tile, or the pad pair x(n), x(n+1) (R92). -/
inductive MtOperand
  | tile (t : TileReg)
  | pad (r : Reg)
  deriving DecidableEq, Repr, Inhabited

/-- The fields of an MT word (R90). -/
structure MtOps where
  fslot  : BitVec 2
  stream : BitVec 2
  fzi    : Bool
  fzo    : Bool
  a      : MtOperand
  b      : MtOperand
  md     : TileReg
  deriving DecidableEq, Repr, Inhabited

/-- The register that ltag names (R312): a tile, or a mask k1 to k7. -/
inductive TagReg
  | tile (t : TileReg)
  | mask (k : KReg)
  deriving DecidableEq, Repr, Inhabited

/-- The fields of a row prefix (R90, R286). -/
structure Pfx where
  k    : KReg
  zero : Bool
  rm   : BitVec 3
  fzi  : Bool
  fzo  : Bool
  t4   : TileReg
  td   : TileReg
  x4   : Reg
  deriving DecidableEq, Repr, Inhabited

/-! ## The base instruction set (R2, R105) -/

inductive AluOp | add | sub | sll | slt | sltu | xor | srl | sra | or | and
                | mul | mulh | mulhsu | mulhu | div | divu | rem | remu
  deriving DecidableEq, Repr, Inhabited

inductive AluWOp | addw | subw | sllw | srlw | sraw | mulw | divw | divuw | remw | remuw
  deriving DecidableEq, Repr, Inhabited

inductive AluIOp | addi | slti | sltiu | xori | ori | andi
  deriving DecidableEq, Repr, Inhabited

inductive ShiftOp | sll | srl | sra
  deriving DecidableEq, Repr, Inhabited

inductive BrCond | eq | ne | lt | ge | ltu | geu
  deriving DecidableEq, Repr, Inhabited

inductive FmaOp | madd | msub | nmsub | nmadd
  deriving DecidableEq, Repr, Inhabited

inductive FArithOp | add | sub | mul
  deriving DecidableEq, Repr, Inhabited

inductive SgnjOp | sgnj | sgnjn | sgnjx
  deriving DecidableEq, Repr, Inhabited

inductive FCmpOp | le | lt | eq
  deriving DecidableEq, Repr, Inhabited

/-- The integer side of a conversion: w, wu, l, lu. -/
inductive IntTy | w | wu | l | lu
  deriving DecidableEq, Repr, Inhabited

/-- The instructions of the row INTEGER_OP: integer, branch, jump, multiply and divide of RV64IM, and the F and D
instructions other than divide and square root (R117). `d` is true for double precision; immediates are the bits the
word holds. -/
inductive IntOp
  | lui (rd : Reg) (imm : BitVec 20)
  | auipc (rd : Reg) (imm : BitVec 20)
  | jal (rd : Reg) (imm : BitVec 20)
  | jalr (rd rs1 : Reg) (imm : BitVec 12)
  | branch (c : BrCond) (rs1 rs2 : Reg) (imm : BitVec 12)
  | aluI (op : AluIOp) (rd rs1 : Reg) (imm : BitVec 12)
  | shiftI (op : ShiftOp) (rd rs1 : Reg) (sh : BitVec 6)
  | addiw (rd rs1 : Reg) (imm : BitVec 12)
  | shiftIW (op : ShiftOp) (rd rs1 : Reg) (sh : BitVec 5)
  | alu (op : AluOp) (rd rs1 rs2 : Reg)
  | aluW (op : AluWOp) (rd rs1 rs2 : Reg)
  | fma (op : FmaOp) (d : Bool) (rd rs1 rs2 rs3 : Reg) (rm : BitVec 3)
  | fArith (op : FArithOp) (d : Bool) (rd rs1 rs2 : Reg) (rm : BitVec 3)
  | fSgnj (op : SgnjOp) (d : Bool) (rd rs1 rs2 : Reg)
  | fMinMax (max : Bool) (d : Bool) (rd rs1 rs2 : Reg)
  | fCmp (op : FCmpOp) (d : Bool) (rd rs1 rs2 : Reg)
  | fClass (d : Bool) (rd rs1 : Reg)
  | fToInt (ty : IntTy) (d : Bool) (rd rs1 : Reg) (rm : BitVec 3)
  | intToF (ty : IntTy) (d : Bool) (rd rs1 : Reg) (rm : BitVec 3)
  | fToF (toD : Bool) (rd rs1 : Reg) (rm : BitVec 3)
  | fmvToX (d : Bool) (rd rs1 : Reg)
  | fmvToF (d : Bool) (rd rs1 : Reg)
  deriving DecidableEq, Repr, Inhabited

/-- The divide and square-root instructions of F and D (R117). -/
inductive FDivOp
  | fdiv (d : Bool) (rd rs1 rs2 : Reg) (rm : BitVec 3)
  | fsqrt (d : Bool) (rd rs1 : Reg) (rm : BitVec 3)
  deriving DecidableEq, Repr, Inhabited

inductive LoadOp | lb | lh | lw | ld | lbu | lhu | lwu | flw | fld
  deriving DecidableEq, Repr, Inhabited

inductive StoreOp | sb | sh | sw | sd | fsw | fsd
  deriving DecidableEq, Repr, Inhabited

inductive AmoOp | swap | add | xor | and | or | min | max | minu | maxu
  deriving DecidableEq, Repr, Inhabited

inductive CsrOp | rw | rs | rc
  deriving DecidableEq, Repr, Inhabited

/-- A Zicsr instruction without its CSR number: the operation, whether the source is the zero-extended 5-bit field
itself, that field, and rd. -/
structure CsrForm where
  op  : CsrOp
  imm : Bool
  src : BitVec 5
  rd  : Reg
  deriving DecidableEq, Repr, Inhabited

/-! ## What travels between agents -/

/-- A message in flight (R329, R330): its destination word, sender word and 64 bytes. -/
structure Message where
  dest   : Word
  sender : Word
  data   : BitVec 512
  deriving DecidableEq, Repr, Inhabited

/-- The mark of a request to another chip (R404): the issuing task's handle, or the hart's mhartid, and the count. -/
structure Mark where
  who   : Word
  count : BitVec 16
  deriving DecidableEq, Repr, Inhabited

/-- A message of another chip as it reaches its mailbox: the mark of the request, and the message (R404). -/
structure Delivery where
  mark    : Mark
  message : Message
  deriving DecidableEq, Repr, Inhabited

/-- An operation that reaches a future's home (R166). Verdicts are stamps of R153. -/
inductive HomeOp
  | touch (waiter : Word) (eprio : Nat)
  | tanyCheck
  | tanyWait (waiter : Word) (index : Nat) (eprio : Nat)
  | leave (waiter : Word)
  | tpoll
  | resolve (value : Word) (verdict : Nat)
  | cancel
  | poison (word : Word)
  | frel
  deriving DecidableEq, Repr, Inhabited

/-- A future request from another chip, with its mark (R404). -/
structure HomeRequest where
  mark   : Mark
  handle : Word
  op     : HomeOp
  deriving DecidableEq, Repr, Inhabited

/-- What another chip answers to a beat of a `cpyx`: written, refused because its partition is stopped (R360), or a fault of
its command (R197). -/
inductive BeatOutcome
  | written
  | stopped
  | fault (cause sub : Nat)
  deriving DecidableEq, Repr, Inhabited

/-- A beat of a copy at a cluster (R193): of a command of this package; of a `cpyx` of another chip that reaches a
stage here, under the name it is answered by; or the answer to a beat that has left for another chip. -/
inductive CopyBeat
  | own (slot : Nat)
  | arrival (from_ : Word) (stage off : Nat) (data : BitVec 512)
  | answered (slot : Nat) (seq : BitVec 16) (outcome : BeatOutcome)
  deriving DecidableEq, Repr, Inhabited

/-- A gate operation (R340, R342). Payload and threshold travel with it. -/
inductive GateOp
  | gsig (amount : Word)
  | gwait (threshold : Word)
  | gpay (payload : BitVec 512)
  | gtake
  | gopen
  | gclose
  deriving DecidableEq, Repr, Inhabited

/-- A gate request as it reaches the home: the handle, the issuing chip and partition, the mark, the operation and the
hart to answer when it is on this chip. -/
structure GateRequest where
  handle : Word
  chip   : Nat
  part   : Nat
  hart   : Option Nat
  task   : Word
  mark   : Mark
  op     : GateOp
  deriving DecidableEq, Repr, Inhabited

/-- The answer a waiting hart receives: a value (and, for gtake, the payload), the state, value and verdict of a future,
a trap with its stval (R149, R404), or, for `tany`, the outcome of each entry that is terminal. -/
inductive Reply
  | value (v : Word)
  | payload (v : Word) (data : BitVec 512)
  | done (state : Nat) (value : Word) (verdict : Nat)
  | trap (cause sub : Nat) (tval : Word)
  | many (outcomes : List (Option (Nat × Word × Nat)))
  deriving DecidableEq, Repr, Inhabited

/-- A register of the host register block that a plain write may name (R392, R393). `readOnly` stands for every
register whose access code is RO or that is reserved. -/
inductive HostReg
  | saveBase (p : Nat)
  | saveSize (p : Nat)
  | mapAddr (p : Nat)
  | ringBase (r : Nat)
  | harg (i : Nat)
  | vharg (f i : Nat)
  | readOnly (offset : Nat)
  deriving DecidableEq, Repr, Inhabited

/-- How a task ends from outside (R163, R154, R182): cancelled, or faulted with a word. -/
inductive EndKind
  | cancelled
  | faulted (word : Word)
  deriving DecidableEq, Repr, Inhabited

/-- The instructions: one constructor per row of the table. -/
inductive Instr
  -- custom-0: hart, message and gate words (R94)
  | rcommit
  | phase (rd rs1 : Reg)
  | bfx (rd rs1 rs2 : Reg)
  | bfi (rd rs1 rs2 : Reg)
  | xflush (rs1 rs2 : Reg)
  | cfence (mask : BitVec 8) (kind : FenceKind) (scope : BitVec 3)
  | samo (op : CaOp) (scope : BitVec 3) (rd rs1 rs2 : Reg)
  | scas (scope : BitVec 3) (rd rs1 rs2 : Reg)
  | barinit (rs1 rs2 : Reg)
  | barrive (rd rs1 : Reg)
  | barwait (rs1 rs2 : Reg)
  | barsync (rd rs1 : Reg)
  | semv (rs1 rs2 : Reg)
  | semp (rd rs1 rs2 : Reg)
  | msnd (rd rs1 rs2 : Reg)
  | mrcv (rd rs1 rs2 : Reg)
  | mpoll (rd rs1 : Reg)
  | messageArrive (core mbox : Nat) (nb : Bool) (d : Delivery)
  | gsig (rd rs1 rs2 : Reg)
  | gwait (rd rs1 rs2 : Reg)
  | gpay (rd rs1 rs2 : Reg)
  | gtake (rd rs1 rs2 : Reg)
  | gopen (rs1 : Reg)
  | gclose (rs1 : Reg)
  | gateRequestArrive (r : GateRequest)
  | gateTokenAccrue (gate entry : Nat)
  -- custom-1: task, stage and copy words (R95)
  | spawn (rd rs1 rs2 : Reg)
  | touch (rd rs1 : Reg)
  | tpoll (rd rs1 : Reg)
  | tany (rd rs1 rs2 : Reg)
  | promise (rd : Reg)
  | resolve (rd rs1 rs2 : Reg)
  | cancel (rd rs1 : Reg)
  | poison (rd rs1 rs2 : Reg)
  | texit (rs1 : Reg)
  | tyield
  | frel (rs1 : Reg)
  | homeRequestArrive (r : HomeRequest)
  | stdef (rs1 rs2 : Reg)
  | starm (rd rs1 rs2 : Reg)
  | stwait (rd rs1 rs2 : Reg)
  | stgen (rd rs1 : Reg)
  | hoist (rd rs1 : Reg)
  | cpyin (rd rs1 rs2 : Reg)
  | cpyout (rd rs1 rs2 : Reg)
  | cpyx (rd rs1 rs2 : Reg)
  | cpygath (rd rs1 rs2 : Reg)
  | cpybc (rd rs1 rs2 : Reg)
  | cpwait (rd rs1 : Reg)
  | cpqry (rd rs1 : Reg)
  | cpcan (rd rs1 : Reg)
  | copyChannelStart (cluster : Nat)
  | copyBeatWrite (cluster : Nat) (b : CopyBeat)
  -- custom-2: tile-engine words (R96)
  | mma (m : MtOps)
  | mms (m : MtOps)
  | mmz (m : MtOps)
  | mmak (m : MtOps)
  | mmag (m : MtOps)
  | mld (md : TileReg) (pad rs2 : Reg)
  | mst (md : TileReg) (pad : Reg)
  | mzero (md : TileReg) (rs1 : Reg)
  | mcopy (md ms : TileReg)
  | mtrn (md ms : TileReg)
  | mcommit (rd : Reg)
  | mwait (rs1 : Reg)
  | mclrf (mt : TileReg) (rs2 : Reg)
  | mstat (rd : Reg) (mt : TileReg)
  | fmtw (rs1 rs2 : Reg)
  | fmtr (rd rs1 : Reg)
  | fmtwViewApply (pair ctx id : Nat) (entry : Word)
  | tileOpStart (pair : Nat)
  | kStepComplete (pair op : Nat)
  | operandFault (pair op : Nat)
  | tileOpComplete (pair op : Nat)
  | gangRendezvous (cluster gid : Nat)
  | tileEccError (pair tile : Nat) (corrected : Bool)
  -- custom-3: row, lift and prefix words (R97)
  | vadd (td ta tb : TileReg) (xr : Reg)
  | vsub (td ta tb : TileReg) (xr : Reg)
  | vmul (td ta tb : TileReg) (xr : Reg)
  | vdiv (td ta tb : TileReg) (xr : Reg)
  | vfma (td ta tb : TileReg) (xr : Reg)
  | vmin (td ta tb : TileReg) (xr : Reg)
  | vmax (td ta tb : TileReg) (xr : Reg)
  | vsel (td ta tb : TileReg) (xr : Reg)
  | vcmpEq (kd : KReg) (ta tb : TileReg) (xr : Reg)
  | vcmpLt (kd : KReg) (ta tb : TileReg) (xr : Reg)
  | vcmpLe (kd : KReg) (ta tb : TileReg) (xr : Reg)
  | vperm (td ta tb : TileReg) (xr : Reg)
  | vmov (td ta : TileReg) (xr : Reg)
  | vneg (td ta : TileReg) (xr : Reg)
  | vabs (td ta : TileReg) (xr : Reg)
  | vsqrt (td ta : TileReg) (xr : Reg)
  | vrsq (td ta : TileReg) (xr : Reg)
  | vrcp (td ta : TileReg) (xr : Reg)
  | vexp2 (td ta : TileReg) (xr : Reg)
  | vlog2 (td ta : TileReg) (xr : Reg)
  | vtanh (td ta : TileReg) (xr : Reg)
  | viadd (td ta tb : TileReg) (xr : Reg)
  | visub (td ta tb : TileReg) (xr : Reg)
  | vimul (td ta tb : TileReg) (xr : Reg)
  | vand (td ta tb : TileReg) (xr : Reg)
  | vor (td ta tb : TileReg) (xr : Reg)
  | vxor (td ta tb : TileReg) (xr : Reg)
  | vshl (td ta tb : TileReg) (xr : Reg)
  | vsrl (td ta tb : TileReg) (xr : Reg)
  | vsra (td ta tb : TileReg) (xr : Reg)
  | vimin (td ta tb : TileReg) (xr : Reg)
  | vimax (td ta tb : TileReg) (xr : Reg)
  | vadds (tds : TileReg) (rs xr : Reg)
  | vsubs (tds : TileReg) (rs xr : Reg)
  | vmuls (tds : TileReg) (rs xr : Reg)
  | vmaxs (tds : TileReg) (rs xr : Reg)
  | vmins (tds : TileReg) (rs xr : Reg)
  | vbcast (tds : TileReg) (rs xr : Reg)
  | vext (rs : Reg) (tds : TileReg) (xr : Reg)
  | vins (tds : TileReg) (rs xr : Reg)
  | viota (tds : TileReg) (rs xr : Reg)
  | vrsum (rs : Reg) (tds : TileReg) (xr : Reg)
  | vrmax (rs : Reg) (tds : TileReg) (xr : Reg)
  | vrmin (rs : Reg) (tds : TileReg) (xr : Reg)
  | vcvt (td tds : TileReg) (p : BitVec 3) (xr : Reg)
  | vqmx (rs : Reg) (tds : TileReg) (scope : BitVec 3) (xr : Reg)
  | vld (td : TileReg) (rs1 : Reg) (off : BitVec 3) (xr : Reg)
  | vst (td : TileReg) (rs1 : Reg) (off : BitVec 3) (xr : Reg)
  | vpfx (p : Pfx)
  | lift (rd rs1 rs2 : Reg)
  | lret (rs1 : Reg)
  | ltag (r : TagReg) (rs2 : Reg)
  | lred (md ms : TileReg) (rs2 : Reg)
  | laxis (rd rs1 : Reg)
  | lbr (k : KReg) (imm : BitVec 12)
  -- the base instruction set (R105)
  | illegalInstruction (word : W32)
  | baseLoad (op : LoadOp) (rd rs1 : Reg) (imm : BitVec 12)
  | baseStore (op : StoreOp) (rs1 rs2 : Reg) (imm : BitVec 12)
  | amo (op : AmoOp) (d aq rl : Bool) (rd rs1 rs2 : Reg)
  | lr (d aq rl : Bool) (rd rs1 : Reg)
  | sc (d aq rl : Bool) (rd rs1 rs2 : Reg)
  | fence (fm pred succ : BitVec 4) (rs1 rd : Reg)
  | fenceI (imm : BitVec 12) (rs1 rd : Reg)
  | ecall
  | ebreak
  | wfi
  | sret
  | mret
  | sfenceVma (rs1 rs2 : Reg)
  | csrAccess (csr : BitVec 12) (f : CsrForm)
  | integerOp (op : IntOp)
  | fdivFsqrt (op : FDivOp)
  | hartResume (hart : Nat) (r : Option Reply)
  | storeDrainDone (hart : Nat)
  | interruptTake (hart : Nat)
  -- writes of single control registers
  | stcolWrite (f : CsrForm)
  | vrmWrite (f : CsrForm)
  | mfmtWrite (n : BitVec 2) (f : CsrForm)
  | mgangWrite (f : CsrForm)
  | satpWrite (f : CsrForm)
  | errinjLink (arm : Bool)
  | errinjCore (arm : Bool)
  | errinjCopy (arm : Bool)
  | errinjHbm (arm : Bool)
  | errinjVault (arm : Bool)
  | errinjPad (arm : Bool)
  | errinjTmem (arm : Bool)
  | errinjMpad (arm : Bool)
  | scrubctlVault
  | scrubctlTiles
  | scrubctlPad
  | supervisorScrubDone (cluster : Nat)
  | registerWrite (r : HostReg) (v : Word)
  -- firmware calls, made by ecall from S mode (R159)
  | fwSetAreas
  | fwRetryHeld
  | fwRejectHeld
  | fwReadReports
  | fwEndHeldTask
  | fwRequeueLost
  | fwFaultLost
  | fwUnknownCall
  -- front end and launches
  | notifyWrite (fn slot : Nat) (tail : BitVec 16)
  | launchAccept (slot : Nat)
  | launchStart (launch : Nat)
  | completionPost (launch : Nat)
  | launchStall (fn : Nat)
  -- task engines
  | taskIntake (task : Word)
  | taskRingRefill (cluster : Nat)
  | prefetchArm (task : Word) (arg : Nat)
  | taskPrepared (task : Word)
  | prefetchStop (task : Word)
  | taskDispatch (hart : Nat)
  | agePromotion (task : Word)
  | tileReservation (task : Word)
  | taskEndArrive (task : Word) (how : EndKind)
  | taskWake (task : Word) (outcome : Option Reply)
  | homeChipLostTimeout (chip : Nat)
  | remoteReplyTimeout (hart : Nat)
  | stoppedRetry (hart : Nat)
  -- reliability, reports and links
  | coreLoss (core : Nat)
  | reportPost (ring : Nat)
  | ringAck (ring seq : Nat)
  | windrowDrainStart (cluster : Nat)
  | windrowDrainTimeout (cluster : Nat)
  | windrowScanEnd (cluster : Nat) (pass : Bool)
  | flitCrcError (port : Nat)
  | linkPortLost (port : Nat)
  -- context engine
  | ctxStopSavePreempt (part : Nat)
  | ctxStopSaveMigrate (part : Nat)
  | ctxStopSaveDump (part : Nat)
  | ctxStop (part : Nat)
  | ctxResumeInPlace (part : Nat)
  | ctxResumeSave (part : Nat)
  | ctxRestore (part : Nat)
  | ctxTeardown (part : Nat)
  | ctxUnknownCommand (part : Nat) (code : BitVec 8)
  | engineQuiesceDone (part : Nat)
  | stopDeliveryDone (part : Nat)
  | baleWriteDone (part : Nat)
  | saveIncomplete (part : Nat)
  | scrubDone (part : Nat)
  | gateSourceFree (gate : Nat)
  -- host commands, on the argument registers HARG0 to HARG7 (R393); fn is the function whose interface issues a queue command
  | hcmdCreatePartition
  | hcmdAssignClusters
  | hcmdAssignVaults
  | hcmdSetStage2Root
  | hcmdInvalidateStage2
  | hcmdLoadKey
  | hcmdZeroiseKey
  | hcmdWritePermissionTable
  | hcmdCreateGate
  | hcmdSetAccessEntry
  | hcmdFreeGate
  | hcmdCreateQueue (fn : Nat)
  | hcmdDeleteQueue (fn : Nat)
  | hcmdSetRingWeight
  | hcmdDirtyTrackingOn
  | hcmdDirtyReport
  | hcmdDirtyTrackingOff
  | hcmdReleaseHeldLaunch
  | hcmdDiscardHeldLaunch
  | hcmdUnknown (code : BitVec 8)
  -- profiles, resets and what else reaches the package from outside
  | profileWind (v : BitVec 2)
  | profilePower (v : BitVec 2)
  | forecastUpdate (cluster : Nat) (v : BitVec 4)
  | functionLevelReset (fn : Nat)
  | atsInvalidationRequest (fn pasid addr : Nat)
  | bringupDone (steps : BitVec 7)
  | deviceReset
  | mladjaDLoss
  | readyFiguresExchange
  deriving DecidableEq, Repr, Inhabited

end Sys2Proof
end

