-- ==== Sys2Proof/WellFormed.lean ====
section
/-! DEFINITION. Which terms of Instr stand for an instruction of the SV9: for a word, the coded fields hold values the
encoding admits (R91 to R93, R286, R312); for a step without a word, its indices name a unit that exists (R10). -/

namespace Sys2Proof

/-- Rounding-mode fields 101 and 110 are illegal (R93); the base F and D fields reserve the same two values. -/
def rmOk (rm : BitVec 3) : Bool := rm != 5 && rm != 6

/-- A pad pair starts at an even register other than x0 (R92). -/
def padOk (r : Reg) : Bool := r != 0 && r.getLsbD 0 == false

def MtOperand.wf : MtOperand → Bool
  | .tile _ => true
  | .pad r => padOk r

def MtOps.wf (m : MtOps) : Bool := m.a.wf && m.b.wf

/-- k0 in a register field is illegal (R312). -/
def TagReg.wf : TagReg → Bool
  | .tile _ => true
  | .mask k => k != 0

/-- Whether a Zicsr instruction writes its CSR: always for csrrw, and for the other two when the source field is not 0. -/
def CsrForm.writes (f : CsrForm) : Bool :=
  match f.op with
  | .rw => true
  | .rs | .rc => f.src != 0

/-- The CSRs whose writes are rows of their own (STCOL_WRITE, VRM_WRITE, MFMT_WRITE, MGANG_WRITE, SATP_WRITE). -/
def ownWriteRow (csr : BitVec 12) : Bool :=
  csr == 0x800 || csr == 0x801 || csr == 0x804 || csr == 0x805 || csr == 0x806 || csr == 0x807 || csr == 0x808 ||
  csr == 0x180

def IntOp.wf : IntOp → Bool
  | .fma _ _ _ _ _ _ rm | .fArith _ _ _ _ _ rm | .fToInt _ _ _ _ rm | .intToF _ _ _ _ rm | .fToF _ _ _ rm => rmOk rm
  | .lui .. | .auipc .. | .jal .. | .jalr .. | .branch .. | .aluI .. | .shiftI .. | .addiw .. | .shiftIW .. | .alu ..
  | .aluW .. | .fSgnj .. | .fMinMax .. | .fCmp .. | .fClass .. | .fmvToX .. | .fmvToF .. => true

def FDivOp.wf : FDivOp → Bool
  | .fdiv _ _ _ _ rm | .fsqrt _ _ _ rm => rmOk rm

/-- The numbers of units of one package (R10). -/
def dieCount : Nat := 2
def clusterCount : Nat := 128
def coreCount : Nat := 1024
def hartCount : Nat := 8192
def pairCount : Nat := 512

/-- The well-formed instructions and steps. -/
def Instr.wf : Instr → Bool
  | .mma m | .mms m | .mmz m | .mmak m | .mmag m => m.wf
  | .mld _ pad _ | .mst _ pad => padOk pad
  | .vpfx p => rmOk p.rm
  | .ltag r _ => r.wf
  | .csrAccess csr f => !(ownWriteRow csr && f.writes)
  | .stcolWrite f | .vrmWrite f | .mfmtWrite _ f | .mgangWrite f | .satpWrite f => f.writes
  | .integerOp op => op.wf
  | .fdivFsqrt op => op.wf
  | .messageArrive core mbox _ _ => core < coreCount && mbox < 4
  | .copyChannelStart c | .taskRingRefill c | .windrowDrainStart c | .windrowDrainTimeout c | .windrowScanEnd c _
  | .supervisorScrubDone c | .forecastUpdate c _ => c < clusterCount
  | .copyBeatWrite c b => c < clusterCount && match b with
    | .own slot => decide (slot < 256)
    | .arrival _ stage off _ => stage < 64 && off % 64 == 0
    | .answered slot _ _ => decide (slot < 256)
  | .tileOpStart p | .kStepComplete p _ | .operandFault p _ | .tileOpComplete p _ | .fmtwViewApply p _ _ _ =>
      p < pairCount
  | .tileEccError p t _ => p < pairCount && t < 36
  | .gangRendezvous c _ => c < clusterCount
  | .hartResume h _ | .storeDrainDone h | .interruptTake h | .taskDispatch h | .remoteReplyTimeout h | .stoppedRetry h =>
      h < hartCount
  | .coreLoss c => c < coreCount
  | _ => true

end Sys2Proof
end

