-- ==== Sys2Proof/Decode.lean ====
section
/-! DEFINITION. From bytes to instructions (R89 to R99, and the base encodings of the unprivileged specification), and
the encoder from the same tables. Decoding is total: a word that is no instruction is rejected under a name, and every
rejection is the trap of cause 2 that R98 describes. -/

namespace Sys2Proof

/-- Why a word is no instruction. -/
inductive Reject
  /-- Bits 1:0 are not 11 (R89). -/
  | compressed
  /-- Bits 4:2 are 111 (R89). -/
  | longer
  /-- The major opcode is not one of the SV9 (R89). -/
  | majorOpcode
  /-- A fixed or unused field is not zero (R7, R90, R91). -/
  | fixedField
  /-- A coded field holds an illegal value (R91 to R93, R312). -/
  | codedField
  /-- No entry lists this funct value (R98). -/
  | unlisted
  /-- Fewer than four bytes. -/
  | tooShort
  deriving DecidableEq, Repr, Inhabited

/-- The field of `len` bits whose lowest bit is `lo`. -/
def fld (w : W32) (lo len : Nat) : BitVec len := w.extractLsb' lo len

def onlyIf (c : Bool) (r : Reject) (i : Instr) : Except Reject Instr := if c then .ok i else .error r

/-! ## Coded fields -/

def fenceKindOf (b : BitVec 2) : Option FenceKind :=
  match b.toNat with
  | 1 => some .release
  | 2 => some .acquire
  | 3 => some .both
  | _ => none

def FenceKind.bits : FenceKind → BitVec 2
  | .release => 1
  | .acquire => 2
  | .both => 3

def caOpOf (b : BitVec 4) : Option CaOp :=
  match b.toNat with
  | 0 => some .add
  | 1 => some .swap
  | 2 => some .and
  | 3 => some .or
  | 4 => some .xor
  | 5 => some .max
  | 6 => some .min
  | 7 => some .maxu
  | 8 => some .minu
  | _ => none

def CaOp.bits : CaOp → BitVec 4
  | .add => 0
  | .swap => 1
  | .and => 2
  | .or => 3
  | .xor => 4
  | .max => 5
  | .min => 6
  | .maxu => 7
  | .minu => 8

/-- An MT operand from its form bit and field (R92). -/
def mtOperandOf (form : BitVec 1) (b : BitVec 5) : Option MtOperand :=
  if form = 0 then
    if b.getLsbD 4 then none else some (.tile (b.extractLsb' 0 4))
  else if padOk b then some (.pad b) else none

def MtOperand.form : MtOperand → BitVec 1
  | .tile _ => 0
  | .pad _ => 1

def MtOperand.bits : MtOperand → BitVec 5
  | .tile t => (0 : BitVec 1) ++ t
  | .pad r => r

/-- A register field of ltag (R312). -/
def tagRegOf (b : BitVec 5) : Option TagReg :=
  if b.getLsbD 4 then
    if b.getLsbD 3 then none
    else if b.extractLsb' 0 3 = 0 then none else some (.mask (b.extractLsb' 0 3))
  else some (.tile (b.extractLsb' 0 4))

def TagReg.bits : TagReg → BitVec 5
  | .tile t => (0 : BitVec 1) ++ t
  | .mask k => (2 : BitVec 2) ++ k

/-! ## Formats (R90) -/

def opCustom0 : BitVec 7 := 0b0001011
def opCustom1 : BitVec 7 := 0b0101011
def opCustom2 : BitVec 7 := 0b1011011
def opCustom3 : BitVec 7 := 0b1111011

/-- CX, and the R format of the base. -/
def encR (op : BitVec 7) (f3 : BitVec 3) (f7 : BitVec 7) (rs2 rs1 rd : Reg) : W32 := f7 ++ rs2 ++ rs1 ++ f3 ++ rd ++ op
def encCf (mask : BitVec 8) (scope : BitVec 3) (kind : BitVec 2) : W32 :=
  mask ++ scope ++ kind ++ (0 : BitVec 4) ++ (1 : BitVec 3) ++ (0 : BitVec 5) ++ opCustom0
def encCa (op : BitVec 4) (scope : BitVec 3) (rs2 rs1 rd : Reg) : W32 :=
  op ++ scope ++ rs2 ++ rs1 ++ (2 : BitVec 3) ++ rd ++ opCustom0
def encMt (f3 : BitVec 3) (m : MtOps) : W32 :=
  m.fslot ++ m.stream ++ BitVec.ofBool m.fzi ++ BitVec.ofBool m.fzo ++ m.b.form ++ m.b.bits ++ m.a.bits ++ f3 ++ m.md ++
    m.a.form ++ opCustom2
def encTr (f7 : BitVec 7) (rs2 rs1 : Reg) (md : TileReg) : W32 :=
  f7 ++ rs2 ++ rs1 ++ (5 : BitVec 3) ++ md ++ (0 : BitVec 1) ++ opCustom2
def encRowR (f3 : BitVec 3) (f5 : BitVec 5) (tb ta td : TileReg) (xr : Reg) : W32 :=
  f5 ++ tb ++ ta ++ td ++ f3 ++ xr ++ opCustom3
def encRowS (f3 : BitVec 3) (f5 : BitVec 5) (rs : Reg) (tds : TileReg) (sub : BitVec 3) (xr : Reg) : W32 :=
  f5 ++ rs ++ tds ++ sub ++ f3 ++ xr ++ opCustom3
def encVp (p : Pfx) : W32 :=
  p.k ++ BitVec.ofBool p.zero ++ p.rm ++ BitVec.ofBool p.fzi ++ BitVec.ofBool p.fzo ++ p.t4 ++ p.td ++ (7 : BitVec 3) ++
    p.x4 ++ opCustom3
/-- LB; `imm` holds bits 12:1 of the offset. -/
def encLb (k : KReg) (imm : BitVec 12) : W32 :=
  imm.extractLsb' 11 1 ++ imm.extractLsb' 4 6 ++ (0 : BitVec 2) ++ k ++ (0 : BitVec 5) ++ (5 : BitVec 3) ++
    imm.extractLsb' 0 4 ++ imm.extractLsb' 10 1 ++ opCustom3

/-! ## The custom opcodes -/

/-- Custom-0 (R94). -/
def decodeCustom0 (w : W32) : Except Reject Instr :=
  let rd := fld w 7 5
  let rs1 := fld w 15 5
  let rs2 := fld w 20 5
  match (fld w 12 3).toNat, (fld w 25 7).toNat with
  | 0, 0x00 => onlyIf (rd == 0 && rs1 == 0 && rs2 == 0) .fixedField .rcommit
  | 0, 0x02 => onlyIf (rs2 == 0) .fixedField (.phase rd rs1)
  | 0, 0x03 => .ok (.bfx rd rs1 rs2)
  | 0, 0x04 => .ok (.bfi rd rs1 rs2)
  | 0, 0x10 => onlyIf (rd == 0) .fixedField (.xflush rs1 rs2)
  | 1, _ =>
    if fld w 15 4 ≠ 0 ∨ rd ≠ 0 then .error .fixedField
    else match fenceKindOf (fld w 19 2) with
      | some k => .ok (.cfence (fld w 24 8) k (fld w 21 3))
      | none => .error .codedField
  | 2, _ =>
    match caOpOf (fld w 28 4) with
    | some op => .ok (.samo op (fld w 25 3) rd rs1 rs2)
    | none => if fld w 28 4 = 9 then .ok (.scas (fld w 25 3) rd rs1 rs2) else .error .unlisted
  | 3, 0x00 => onlyIf (rd == 0) .fixedField (.barinit rs1 rs2)
  | 3, 0x01 => onlyIf (rs2 == 0) .fixedField (.barrive rd rs1)
  | 3, 0x02 => onlyIf (rd == 0) .fixedField (.barwait rs1 rs2)
  | 3, 0x03 => onlyIf (rs2 == 0) .fixedField (.barsync rd rs1)
  | 3, 0x08 => onlyIf (rd == 0) .fixedField (.semv rs1 rs2)
  | 3, 0x09 => .ok (.semp rd rs1 rs2)
  | 4, 0x00 => .ok (.msnd rd rs1 rs2)
  | 4, 0x01 => .ok (.mrcv rd rs1 rs2)
  | 4, 0x02 => onlyIf (rs2 == 0) .fixedField (.mpoll rd rs1)
  | 5, 0x00 => .ok (.gsig rd rs1 rs2)
  | 5, 0x01 => .ok (.gwait rd rs1 rs2)
  | 5, 0x02 => .ok (.gpay rd rs1 rs2)
  | 5, 0x03 => .ok (.gtake rd rs1 rs2)
  | 5, 0x04 => onlyIf (rd == 0 && rs2 == 0) .fixedField (.gopen rs1)
  | 5, 0x05 => onlyIf (rd == 0 && rs2 == 0) .fixedField (.gclose rs1)
  | _, _ => .error .unlisted

/-- Custom-1 (R95). -/
def decodeCustom1 (w : W32) : Except Reject Instr :=
  let rd := fld w 7 5
  let rs1 := fld w 15 5
  let rs2 := fld w 20 5
  match (fld w 12 3).toNat, (fld w 25 7).toNat with
  | 0, 0x00 => .ok (.spawn rd rs1 rs2)
  | 0, 0x02 => onlyIf (rs2 == 0) .fixedField (.touch rd rs1)
  | 0, 0x03 => onlyIf (rs2 == 0) .fixedField (.tpoll rd rs1)
  | 0, 0x04 => .ok (.tany rd rs1 rs2)
  | 0, 0x05 => onlyIf (rs1 == 0 && rs2 == 0) .fixedField (.promise rd)
  | 0, 0x06 => .ok (.resolve rd rs1 rs2)
  | 0, 0x07 => onlyIf (rs2 == 0) .fixedField (.cancel rd rs1)
  | 0, 0x08 => .ok (.poison rd rs1 rs2)
  | 0, 0x09 => onlyIf (rd == 0 && rs2 == 0) .fixedField (.texit rs1)
  | 0, 0x0A => onlyIf (rd == 0 && rs1 == 0 && rs2 == 0) .fixedField .tyield
  | 0, 0x0B => onlyIf (rd == 0 && rs2 == 0) .fixedField (.frel rs1)
  | 1, 0x00 => onlyIf (rd == 0) .fixedField (.stdef rs1 rs2)
  | 1, 0x01 => .ok (.starm rd rs1 rs2)
  | 1, 0x02 => .ok (.stwait rd rs1 rs2)
  | 1, 0x03 => onlyIf (rs2 == 0) .fixedField (.stgen rd rs1)
  | 1, 0x04 => onlyIf (rs2 == 0) .fixedField (.hoist rd rs1)
  | 2, 0x00 => .ok (.cpyin rd rs1 rs2)
  | 2, 0x01 => .ok (.cpyout rd rs1 rs2)
  | 2, 0x02 => .ok (.cpyx rd rs1 rs2)
  | 2, 0x03 => .ok (.cpygath rd rs1 rs2)
  | 2, 0x04 => .ok (.cpybc rd rs1 rs2)
  | 2, 0x08 => onlyIf (rs2 == 0) .fixedField (.cpwait rd rs1)
  | 2, 0x09 => onlyIf (rs2 == 0) .fixedField (.cpqry rd rs1)
  | 2, 0x0A => onlyIf (rs2 == 0) .fixedField (.cpcan rd rs1)
  | _, _ => .error .unlisted

def decodeMt (w : W32) (mk : MtOps → Instr) : Except Reject Instr :=
  match mtOperandOf (fld w 7 1) (fld w 15 5), mtOperandOf (fld w 25 1) (fld w 20 5) with
  | some a, some b =>
    .ok (mk { fslot := fld w 30 2, stream := fld w 28 2, fzi := w.getLsbD 27, fzo := w.getLsbD 26, a := a, b := b,
              md := fld w 8 4 })
  | _, _ => .error .codedField

/-- Custom-2 (R96). -/
def decodeCustom2 (w : W32) : Except Reject Instr :=
  let rd := fld w 7 5
  let md := fld w 8 4
  let rs1 := fld w 15 5
  let rs2 := fld w 20 5
  let tile := fld w 15 4
  let high := w.getLsbD 19
  let b7 := w.getLsbD 7
  match (fld w 12 3).toNat, (fld w 25 7).toNat with
  | 0, _ => decodeMt w .mma
  | 1, _ => decodeMt w .mms
  | 2, _ => decodeMt w .mmz
  | 3, _ => decodeMt w .mmak
  | 4, _ => decodeMt w .mmag
  | 5, 0x00 => if b7 then .error .fixedField else onlyIf (padOk rs1) .codedField (.mld md rs1 rs2)
  | 5, 0x01 => if b7 || rs2 != 0 then .error .fixedField else onlyIf (padOk rs1) .codedField (.mst md rs1)
  | 5, 0x02 => onlyIf (!b7 && rs2 == 0) .fixedField (.mzero md rs1)
  | 5, 0x03 => onlyIf (!b7 && !high && rs2 == 0) .fixedField (.mcopy md tile)
  | 5, 0x04 => onlyIf (!b7 && !high && rs2 == 0) .fixedField (.mtrn md tile)
  | 6, 0x00 => onlyIf (rs1 == 0 && rs2 == 0) .fixedField (.mcommit rd)
  | 6, 0x01 => onlyIf (rd == 0 && rs2 == 0) .fixedField (.mwait rs1)
  | 6, 0x02 => onlyIf (rd == 0 && !high) .fixedField (.mclrf tile rs2)
  | 6, 0x03 => onlyIf (!high && rs2 == 0) .fixedField (.mstat rd tile)
  | 6, 0x04 => onlyIf (rd == 0) .fixedField (.fmtw rs1 rs2)
  | 6, 0x05 => onlyIf (rs2 == 0) .fixedField (.fmtr rd rs1)
  | _, _ => .error .unlisted

/-- Custom-3 (R97). -/
def decodeCustom3 (w : W32) : Except Reject Instr :=
  let rd := fld w 7 5
  let rs1 := fld w 15 5
  let rs2 := fld w 20 5
  let td := fld w 15 4
  let ta := fld w 19 4
  let tb := fld w 23 4
  let rs := fld w 22 5
  let tds := fld w 18 4
  let sub := fld w 15 3
  match (fld w 12 3).toNat, (fld w 27 5).toNat with
  | 0, 0 => .ok (.vadd td ta tb rd)
  | 0, 1 => .ok (.vsub td ta tb rd)
  | 0, 2 => .ok (.vmul td ta tb rd)
  | 0, 3 => .ok (.vdiv td ta tb rd)
  | 0, 4 => .ok (.vfma td ta tb rd)
  | 0, 5 => .ok (.vmin td ta tb rd)
  | 0, 6 => .ok (.vmax td ta tb rd)
  | 0, 7 => .ok (.vsel td ta tb rd)
  | 0, 8 => onlyIf (!w.getLsbD 18) .fixedField (.vcmpEq sub ta tb rd)
  | 0, 9 => onlyIf (!w.getLsbD 18) .fixedField (.vcmpLt sub ta tb rd)
  | 0, 10 => onlyIf (!w.getLsbD 18) .fixedField (.vcmpLe sub ta tb rd)
  | 0, 11 => .ok (.vperm td ta tb rd)
  | 0, 12 => onlyIf (tb == 0) .fixedField (.vmov td ta rd)
  | 0, 13 => onlyIf (tb == 0) .fixedField (.vneg td ta rd)
  | 0, 14 => onlyIf (tb == 0) .fixedField (.vabs td ta rd)
  | 0, 15 => onlyIf (tb == 0) .fixedField (.vsqrt td ta rd)
  | 0, 16 => onlyIf (tb == 0) .fixedField (.vrsq td ta rd)
  | 0, 17 => onlyIf (tb == 0) .fixedField (.vrcp td ta rd)
  | 0, 18 => onlyIf (tb == 0) .fixedField (.vexp2 td ta rd)
  | 0, 19 => onlyIf (tb == 0) .fixedField (.vlog2 td ta rd)
  | 0, 20 => onlyIf (tb == 0) .fixedField (.vtanh td ta rd)
  | 1, 0 => .ok (.viadd td ta tb rd)
  | 1, 1 => .ok (.visub td ta tb rd)
  | 1, 2 => .ok (.vimul td ta tb rd)
  | 1, 3 => .ok (.vand td ta tb rd)
  | 1, 4 => .ok (.vor td ta tb rd)
  | 1, 5 => .ok (.vxor td ta tb rd)
  | 1, 6 => .ok (.vshl td ta tb rd)
  | 1, 7 => .ok (.vsrl td ta tb rd)
  | 1, 8 => .ok (.vsra td ta tb rd)
  | 1, 9 => .ok (.vimin td ta tb rd)
  | 1, 10 => .ok (.vimax td ta tb rd)
  | 2, 0 =>
    match sub.toNat with
    | 0 => .ok (.vadds tds rs rd)
    | 1 => .ok (.vsubs tds rs rd)
    | 2 => .ok (.vmuls tds rs rd)
    | 3 => .ok (.vmaxs tds rs rd)
    | 4 => .ok (.vmins tds rs rd)
    | _ => .error .codedField
  | 2, 1 => onlyIf (sub == 0) .codedField (.vbcast tds rs rd)
  | 2, 2 => onlyIf (sub == 0) .codedField (.vext rs tds rd)
  | 2, 3 => onlyIf (sub == 0) .codedField (.vins tds rs rd)
  | 2, 4 => onlyIf (sub == 0) .codedField (.viota tds rs rd)
  | 2, 5 => onlyIf (sub == 0) .codedField (.vrsum rs tds rd)
  | 2, 6 => onlyIf (sub == 0) .codedField (.vrmax rs tds rd)
  | 2, 7 => onlyIf (sub == 0) .codedField (.vrmin rs tds rd)
  | 2, 8 => onlyIf (!w.getLsbD 26) .fixedField (.vcvt (fld w 22 4) tds sub rd)
  | 2, 9 => .ok (.vqmx rs tds sub rd)
  | 3, 0 => .ok (.vld tds rs sub rd)
  | 3, 1 => .ok (.vst tds rs sub rd)
  | 4, _ =>
    match (fld w 25 7).toNat with
    | 0x00 => .ok (.lift rd rs1 rs2)
    | 0x01 => onlyIf (rd == 0 && rs2 == 0) .fixedField (.lret rs1)
    | 0x03 =>
      if rd ≠ 0 then .error .fixedField
      else match tagRegOf rs1 with
        | some r => .ok (.ltag r rs2)
        | none => .error .codedField
    | 0x04 => onlyIf (!w.getLsbD 11 && !w.getLsbD 19) .fixedField (.lred (fld w 7 4) (fld w 15 4) rs2)
    | 0x05 => onlyIf (rs2 == 0) .fixedField (.laxis rd rs1)
    | _ => .error .unlisted
  | 5, _ =>
    onlyIf (fld w 23 2 == 0 && rs1 == 0) .fixedField
      (.lbr (fld w 20 3) (fld w 31 1 ++ fld w 7 1 ++ fld w 25 6 ++ fld w 8 4))
  | 7, _ =>
    onlyIf (rmOk (fld w 25 3)) .codedField
      (.vpfx { k := fld w 29 3, zero := w.getLsbD 28, rm := fld w 25 3, fzi := w.getLsbD 24, fzo := w.getLsbD 23,
               t4 := fld w 19 4, td := fld w 15 4, x4 := rd })
  | _, _ => .error .unlisted

/-! ## The base encodings (R2, R105) -/

def opLoad : BitVec 7 := 0b0000011
def opLoadFp : BitVec 7 := 0b0000111
def opMiscMem : BitVec 7 := 0b0001111
def opImm : BitVec 7 := 0b0010011
def opAuipc : BitVec 7 := 0b0010111
def opImm32 : BitVec 7 := 0b0011011
def opStore : BitVec 7 := 0b0100011
def opStoreFp : BitVec 7 := 0b0100111
def opAmo : BitVec 7 := 0b0101111
def opOp : BitVec 7 := 0b0110011
def opLui : BitVec 7 := 0b0110111
def opOp32 : BitVec 7 := 0b0111011
def opMadd : BitVec 7 := 0b1000011
def opMsub : BitVec 7 := 0b1000111
def opNmsub : BitVec 7 := 0b1001011
def opNmadd : BitVec 7 := 0b1001111
def opFp : BitVec 7 := 0b1010011
def opBranch : BitVec 7 := 0b1100011
def opJalr : BitVec 7 := 0b1100111
def opJal : BitVec 7 := 0b1101111
def opSystem : BitVec 7 := 0b1110011

def encI (op : BitVec 7) (f3 : BitVec 3) (imm : BitVec 12) (rs1 rd : Reg) : W32 := imm ++ rs1 ++ f3 ++ rd ++ op
def encS (op : BitVec 7) (f3 : BitVec 3) (imm : BitVec 12) (rs1 rs2 : Reg) : W32 :=
  imm.extractLsb' 5 7 ++ rs2 ++ rs1 ++ f3 ++ imm.extractLsb' 0 5 ++ op
/-- B; `imm` holds bits 12:1 of the offset. -/
def encB (f3 : BitVec 3) (imm : BitVec 12) (rs1 rs2 : Reg) : W32 :=
  imm.extractLsb' 11 1 ++ imm.extractLsb' 4 6 ++ rs2 ++ rs1 ++ f3 ++ imm.extractLsb' 0 4 ++ imm.extractLsb' 10 1 ++ opBranch
def encU (op : BitVec 7) (imm : BitVec 20) (rd : Reg) : W32 := imm ++ rd ++ op
/-- J; `imm` holds bits 20:1 of the offset. -/
def encJ (imm : BitVec 20) (rd : Reg) : W32 :=
  imm.extractLsb' 19 1 ++ imm.extractLsb' 0 10 ++ imm.extractLsb' 10 1 ++ imm.extractLsb' 11 8 ++ rd ++ opJal

def loadOpOf : Nat → Option LoadOp
  | 0 => some .lb
  | 1 => some .lh
  | 2 => some .lw
  | 3 => some .ld
  | 4 => some .lbu
  | 5 => some .lhu
  | 6 => some .lwu
  | _ => none

def aluOpOf (f3 f7 : Nat) : Option AluOp :=
  match f7, f3 with
  | 0x00, 0 => some .add
  | 0x20, 0 => some .sub
  | 0x00, 1 => some .sll
  | 0x00, 2 => some .slt
  | 0x00, 3 => some .sltu
  | 0x00, 4 => some .xor
  | 0x00, 5 => some .srl
  | 0x20, 5 => some .sra
  | 0x00, 6 => some .or
  | 0x00, 7 => some .and
  | 0x01, 0 => some .mul
  | 0x01, 1 => some .mulh
  | 0x01, 2 => some .mulhsu
  | 0x01, 3 => some .mulhu
  | 0x01, 4 => some .div
  | 0x01, 5 => some .divu
  | 0x01, 6 => some .rem
  | 0x01, 7 => some .remu
  | _, _ => none

def AluOp.f3f7 : AluOp → BitVec 3 × BitVec 7
  | .add => (0, 0x00)
  | .sub => (0, 0x20)
  | .sll => (1, 0x00)
  | .slt => (2, 0x00)
  | .sltu => (3, 0x00)
  | .xor => (4, 0x00)
  | .srl => (5, 0x00)
  | .sra => (5, 0x20)
  | .or => (6, 0x00)
  | .and => (7, 0x00)
  | .mul => (0, 0x01)
  | .mulh => (1, 0x01)
  | .mulhsu => (2, 0x01)
  | .mulhu => (3, 0x01)
  | .div => (4, 0x01)
  | .divu => (5, 0x01)
  | .rem => (6, 0x01)
  | .remu => (7, 0x01)

def aluWOpOf (f3 f7 : Nat) : Option AluWOp :=
  match f7, f3 with
  | 0x00, 0 => some .addw
  | 0x20, 0 => some .subw
  | 0x00, 1 => some .sllw
  | 0x00, 5 => some .srlw
  | 0x20, 5 => some .sraw
  | 0x01, 0 => some .mulw
  | 0x01, 4 => some .divw
  | 0x01, 5 => some .divuw
  | 0x01, 6 => some .remw
  | 0x01, 7 => some .remuw
  | _, _ => none

def AluWOp.f3f7 : AluWOp → BitVec 3 × BitVec 7
  | .addw => (0, 0x00)
  | .subw => (0, 0x20)
  | .sllw => (1, 0x00)
  | .srlw => (5, 0x00)
  | .sraw => (5, 0x20)
  | .mulw => (0, 0x01)
  | .divw => (4, 0x01)
  | .divuw => (5, 0x01)
  | .remw => (6, 0x01)
  | .remuw => (7, 0x01)

def brCondOf : Nat → Option BrCond
  | 0 => some .eq
  | 1 => some .ne
  | 4 => some .lt
  | 5 => some .ge
  | 6 => some .ltu
  | 7 => some .geu
  | _ => none

def BrCond.bits : BrCond → BitVec 3
  | .eq => 0
  | .ne => 1
  | .lt => 4
  | .ge => 5
  | .ltu => 6
  | .geu => 7

def amoOpOf : Nat → Option AmoOp
  | 0b00001 => some .swap
  | 0b00000 => some .add
  | 0b00100 => some .xor
  | 0b01100 => some .and
  | 0b01000 => some .or
  | 0b10000 => some .min
  | 0b10100 => some .max
  | 0b11000 => some .minu
  | 0b11100 => some .maxu
  | _ => none

def AmoOp.bits : AmoOp → BitVec 5
  | .swap => 0b00001
  | .add => 0b00000
  | .xor => 0b00100
  | .and => 0b01100
  | .or => 0b01000
  | .min => 0b10000
  | .max => 0b10100
  | .minu => 0b11000
  | .maxu => 0b11100

def intTyOf (b : BitVec 5) : Option IntTy :=
  match b.toNat with
  | 0 => some .w
  | 1 => some .wu
  | 2 => some .l
  | 3 => some .lu
  | _ => none

def IntTy.bits : IntTy → BitVec 5
  | .w => 0
  | .wu => 1
  | .l => 2
  | .lu => 3

/-- OP-IMM and OP-IMM-32. -/
def decodeOpImm (w : W32) : Except Reject Instr :=
  let rd := fld w 7 5
  let rs1 := fld w 15 5
  let imm := fld w 20 12
  match (fld w 12 3).toNat with
  | 0 => .ok (.integerOp (.aluI .addi rd rs1 imm))
  | 1 => onlyIf (fld w 26 6 == 0) .unlisted (.integerOp (.shiftI .sll rd rs1 (fld w 20 6)))
  | 2 => .ok (.integerOp (.aluI .slti rd rs1 imm))
  | 3 => .ok (.integerOp (.aluI .sltiu rd rs1 imm))
  | 4 => .ok (.integerOp (.aluI .xori rd rs1 imm))
  | 5 =>
    if fld w 26 6 = 0 then .ok (.integerOp (.shiftI .srl rd rs1 (fld w 20 6)))
    else onlyIf (fld w 26 6 == 0b010000) .unlisted (.integerOp (.shiftI .sra rd rs1 (fld w 20 6)))
  | 6 => .ok (.integerOp (.aluI .ori rd rs1 imm))
  | _ => .ok (.integerOp (.aluI .andi rd rs1 imm))

def decodeOpImm32 (w : W32) : Except Reject Instr :=
  let rd := fld w 7 5
  let rs1 := fld w 15 5
  let sh := fld w 20 5
  match (fld w 12 3).toNat, (fld w 25 7).toNat with
  | 0, _ => .ok (.integerOp (.addiw rd rs1 (fld w 20 12)))
  | 1, 0 => .ok (.integerOp (.shiftIW .sll rd rs1 sh))
  | 5, 0 => .ok (.integerOp (.shiftIW .srl rd rs1 sh))
  | 5, 0x20 => .ok (.integerOp (.shiftIW .sra rd rs1 sh))
  | _, _ => .error .unlisted

/-- AMO, lr and sc. -/
def decodeAmo (w : W32) : Except Reject Instr :=
  let rd := fld w 7 5
  let rs1 := fld w 15 5
  let rs2 := fld w 20 5
  let aq := w.getLsbD 26
  let rl := w.getLsbD 25
  if fld w 12 3 = 2 ∨ fld w 12 3 = 3 then
    let d := w.getLsbD 12
    if fld w 27 5 = 0b00010 then onlyIf (rs2 == 0) .unlisted (.lr d aq rl rd rs1)
    else if fld w 27 5 = 0b00011 then .ok (.sc d aq rl rd rs1 rs2)
    else match amoOpOf (fld w 27 5).toNat with
      | some op => .ok (.amo op d aq rl rd rs1 rs2)
      | none => .error .unlisted
  else .error .unlisted

/-- OP-FP. Format 00 is single, 01 double. -/
def decodeOpFp (w : W32) : Except Reject Instr :=
  let rd := fld w 7 5
  let rs1 := fld w 15 5
  let rs2 := fld w 20 5
  let rm := fld w 12 3
  let d := w.getLsbD 25
  let okRm := onlyIf (rmOk rm) .codedField
  if w.getLsbD 26 then .error .unlisted
  else match (fld w 27 5).toNat, rm.toNat with
  | 0b00000, _ => okRm (.integerOp (.fArith .add d rd rs1 rs2 rm))
  | 0b00001, _ => okRm (.integerOp (.fArith .sub d rd rs1 rs2 rm))
  | 0b00010, _ => okRm (.integerOp (.fArith .mul d rd rs1 rs2 rm))
  | 0b00011, _ => okRm (.fdivFsqrt (.fdiv d rd rs1 rs2 rm))
  | 0b01011, _ => if rs2 = 0 then okRm (.fdivFsqrt (.fsqrt d rd rs1 rm)) else .error .unlisted
  | 0b00100, 0 => .ok (.integerOp (.fSgnj .sgnj d rd rs1 rs2))
  | 0b00100, 1 => .ok (.integerOp (.fSgnj .sgnjn d rd rs1 rs2))
  | 0b00100, 2 => .ok (.integerOp (.fSgnj .sgnjx d rd rs1 rs2))
  | 0b00101, 0 => .ok (.integerOp (.fMinMax false d rd rs1 rs2))
  | 0b00101, 1 => .ok (.integerOp (.fMinMax true d rd rs1 rs2))
  | 0b01000, _ => if rs2 = (if d then 0 else 1) then okRm (.integerOp (.fToF d rd rs1 rm)) else .error .unlisted
  | 0b10100, 0 => .ok (.integerOp (.fCmp .le d rd rs1 rs2))
  | 0b10100, 1 => .ok (.integerOp (.fCmp .lt d rd rs1 rs2))
  | 0b10100, 2 => .ok (.integerOp (.fCmp .eq d rd rs1 rs2))
  | 0b11000, _ =>
    match intTyOf rs2 with
    | some ty => okRm (.integerOp (.fToInt ty d rd rs1 rm))
    | none => .error .unlisted
  | 0b11010, _ =>
    match intTyOf rs2 with
    | some ty => okRm (.integerOp (.intToF ty d rd rs1 rm))
    | none => .error .unlisted
  | 0b11100, 0 => onlyIf (rs2 == 0) .unlisted (.integerOp (.fmvToX d rd rs1))
  | 0b11100, 1 => onlyIf (rs2 == 0) .unlisted (.integerOp (.fClass d rd rs1))
  | 0b11110, 0 => onlyIf (rs2 == 0) .unlisted (.integerOp (.fmvToF d rd rs1))
  | _, _ => .error .unlisted

def decodeFma (w : W32) (op : FmaOp) : Except Reject Instr :=
  if w.getLsbD 26 then .error .unlisted
  else onlyIf (rmOk (fld w 12 3)) .codedField
    (.integerOp (.fma op (w.getLsbD 25) (fld w 7 5) (fld w 15 5) (fld w 20 5) (fld w 27 5) (fld w 12 3)))

/-- A Zicsr word: the writes of the CSRs of `ownWriteRow` are instructions of their own. -/
def csrInstr (csr : BitVec 12) (f : CsrForm) : Instr :=
  if f.writes then
    if csr = 0x800 then .stcolWrite f
    else if csr = 0x801 then .vrmWrite f
    else if csr = 0x804 then .mfmtWrite 0 f
    else if csr = 0x805 then .mfmtWrite 1 f
    else if csr = 0x806 then .mfmtWrite 2 f
    else if csr = 0x807 then .mfmtWrite 3 f
    else if csr = 0x808 then .mgangWrite f
    else if csr = 0x180 then .satpWrite f
    else .csrAccess csr f
  else .csrAccess csr f

def csrOpOf : Nat → Option (CsrOp × Bool)
  | 1 => some (.rw, false)
  | 2 => some (.rs, false)
  | 3 => some (.rc, false)
  | 5 => some (.rw, true)
  | 6 => some (.rs, true)
  | 7 => some (.rc, true)
  | _ => none

def CsrForm.f3 (f : CsrForm) : BitVec 3 :=
  match f.op, f.imm with
  | .rw, false => 1
  | .rs, false => 2
  | .rc, false => 3
  | .rw, true => 5
  | .rs, true => 6
  | .rc, true => 7

def decodeSystem (w : W32) : Except Reject Instr :=
  match csrOpOf (fld w 12 3).toNat with
  | some (op, imm) => .ok (csrInstr (fld w 20 12) { op := op, imm := imm, src := fld w 15 5, rd := fld w 7 5 })
  | none =>
    if fld w 12 3 = 0 ∧ fld w 7 5 = 0 then
      if fld w 25 7 = 0b0001001 then .ok (.sfenceVma (fld w 15 5) (fld w 20 5))
      else if fld w 15 5 = 0 then
        match (fld w 20 12).toNat with
        | 0x000 => .ok .ecall
        | 0x001 => .ok .ebreak
        | 0x102 => .ok .sret
        | 0x302 => .ok .mret
        | 0x105 => .ok .wfi
        | _ => .error .unlisted
      else .error .unlisted
    else .error .unlisted

def storeOpOf : Nat → Option StoreOp
  | 0 => some .sb
  | 1 => some .sh
  | 2 => some .sw
  | 3 => some .sd
  | _ => none

def decodeBranch (w : W32) : Except Reject Instr :=
  match brCondOf (fld w 12 3).toNat with
  | some c =>
    .ok (.integerOp (.branch c (fld w 15 5) (fld w 20 5) (fld w 31 1 ++ fld w 7 1 ++ fld w 25 6 ++ fld w 8 4)))
  | none => .error .unlisted

/-- The instruction of a 32-bit word. -/
def decodeWord (w : W32) : Except Reject Instr :=
  let rd := fld w 7 5
  let rs1 := fld w 15 5
  let rs2 := fld w 20 5
  let f3 := fld w 12 3
  let sImm : BitVec 12 := fld w 25 7 ++ fld w 7 5
  if fld w 0 2 ≠ 3 then .error .compressed
  else if fld w 2 3 = 7 then .error .longer
  else match (fld w 2 5).toNat with
  | 0b00010 => decodeCustom0 w
  | 0b01010 => decodeCustom1 w
  | 0b10110 => decodeCustom2 w
  | 0b11110 => decodeCustom3 w
  | 0b00000 =>
    match loadOpOf f3.toNat with
    | some op => .ok (.baseLoad op rd rs1 (fld w 20 12))
    | none => .error .unlisted
  | 0b00001 =>
    if f3 = 2 then .ok (.baseLoad .flw rd rs1 (fld w 20 12))
    else onlyIf (f3 == 3) .unlisted (.baseLoad .fld rd rs1 (fld w 20 12))
  | 0b00011 =>
    if f3 = 0 then .ok (.fence (fld w 28 4) (fld w 24 4) (fld w 20 4) rs1 rd)
    else onlyIf (f3 == 1) .unlisted (.fenceI (fld w 20 12) rs1 rd)
  | 0b00100 => decodeOpImm w
  | 0b00101 => .ok (.integerOp (.auipc rd (fld w 12 20)))
  | 0b00110 => decodeOpImm32 w
  | 0b01000 =>
    match storeOpOf f3.toNat with
    | some op => .ok (.baseStore op rs1 rs2 sImm)
    | none => .error .unlisted
  | 0b01001 =>
    if f3 = 2 then .ok (.baseStore .fsw rs1 rs2 sImm)
    else onlyIf (f3 == 3) .unlisted (.baseStore .fsd rs1 rs2 sImm)
  | 0b01011 => decodeAmo w
  | 0b01100 =>
    match aluOpOf f3.toNat (fld w 25 7).toNat with
    | some op => .ok (.integerOp (.alu op rd rs1 rs2))
    | none => .error .unlisted
  | 0b01101 => .ok (.integerOp (.lui rd (fld w 12 20)))
  | 0b01110 =>
    match aluWOpOf f3.toNat (fld w 25 7).toNat with
    | some op => .ok (.integerOp (.aluW op rd rs1 rs2))
    | none => .error .unlisted
  | 0b10000 => decodeFma w .madd
  | 0b10001 => decodeFma w .msub
  | 0b10010 => decodeFma w .nmsub
  | 0b10011 => decodeFma w .nmadd
  | 0b10100 => decodeOpFp w
  | 0b11000 => decodeBranch w
  | 0b11001 => onlyIf (f3 == 0) .unlisted (.integerOp (.jalr rd rs1 (fld w 20 12)))
  | 0b11011 => .ok (.integerOp (.jal rd (fld w 31 1 ++ fld w 12 8 ++ fld w 20 1 ++ fld w 21 10)))
  | 0b11100 => decodeSystem w
  | _ => .error .majorOpcode

/-- The word of four bytes, the first at the lowest address (R3). -/
def wordOfBytes (b0 b1 b2 b3 : Byte) : W32 := b3 ++ b2 ++ b1 ++ b0

/-- The instruction at the head of a list of bytes, and the bytes after it. -/
def decode : List Byte → Except Reject (Instr × List Byte)
  | b0 :: b1 :: b2 :: b3 :: rest =>
    match decodeWord (wordOfBytes b0 b1 b2 b3) with
    | .ok i => .ok (i, rest)
    | .error r => .error r
  | _ => .error .tooShort

/-! ## The encoder -/

def IntOp.encode : IntOp → W32
  | .lui rd imm => encU opLui imm rd
  | .auipc rd imm => encU opAuipc imm rd
  | .jal rd imm => encJ imm rd
  | .jalr rd rs1 imm => encI opJalr 0 imm rs1 rd
  | .branch c rs1 rs2 imm => encB c.bits imm rs1 rs2
  | .aluI op rd rs1 imm =>
    encI opImm (match op with | .addi => 0 | .slti => 2 | .sltiu => 3 | .xori => 4 | .ori => 6 | .andi => 7) imm rs1 rd
  | .shiftI op rd rs1 sh =>
    match op with
    | .sll => encI opImm 1 ((0 : BitVec 6) ++ sh) rs1 rd
    | .srl => encI opImm 5 ((0 : BitVec 6) ++ sh) rs1 rd
    | .sra => encI opImm 5 ((0b010000 : BitVec 6) ++ sh) rs1 rd
  | .addiw rd rs1 imm => encI opImm32 0 imm rs1 rd
  | .shiftIW op rd rs1 sh =>
    match op with
    | .sll => encR opImm32 1 0 sh rs1 rd
    | .srl => encR opImm32 5 0 sh rs1 rd
    | .sra => encR opImm32 5 0x20 sh rs1 rd
  | .alu op rd rs1 rs2 => encR opOp op.f3f7.1 op.f3f7.2 rs2 rs1 rd
  | .aluW op rd rs1 rs2 => encR opOp32 op.f3f7.1 op.f3f7.2 rs2 rs1 rd
  | .fma op d rd rs1 rs2 rs3 rm =>
    encR (match op with | .madd => opMadd | .msub => opMsub | .nmsub => opNmsub | .nmadd => opNmadd) rm
      (rs3 ++ (0 : BitVec 1) ++ BitVec.ofBool d) rs2 rs1 rd
  | .fArith op d rd rs1 rs2 rm =>
    encR opFp rm ((match op with | .add => (0 : BitVec 5) | .sub => 1 | .mul => 2) ++ (0 : BitVec 1) ++ BitVec.ofBool d)
      rs2 rs1 rd
  | .fSgnj op d rd rs1 rs2 =>
    encR opFp (match op with | .sgnj => 0 | .sgnjn => 1 | .sgnjx => 2)
      ((0b00100 : BitVec 5) ++ (0 : BitVec 1) ++ BitVec.ofBool d) rs2 rs1 rd
  | .fMinMax mx d rd rs1 rs2 =>
    encR opFp (if mx then 1 else 0) ((0b00101 : BitVec 5) ++ (0 : BitVec 1) ++ BitVec.ofBool d) rs2 rs1 rd
  | .fCmp op d rd rs1 rs2 =>
    encR opFp (match op with | .le => 0 | .lt => 1 | .eq => 2)
      ((0b10100 : BitVec 5) ++ (0 : BitVec 1) ++ BitVec.ofBool d) rs2 rs1 rd
  | .fClass d rd rs1 => encR opFp 1 ((0b11100 : BitVec 5) ++ (0 : BitVec 1) ++ BitVec.ofBool d) 0 rs1 rd
  | .fToInt ty d rd rs1 rm => encR opFp rm ((0b11000 : BitVec 5) ++ (0 : BitVec 1) ++ BitVec.ofBool d) ty.bits rs1 rd
  | .intToF ty d rd rs1 rm => encR opFp rm ((0b11010 : BitVec 5) ++ (0 : BitVec 1) ++ BitVec.ofBool d) ty.bits rs1 rd
  | .fToF toD rd rs1 rm =>
    encR opFp rm ((0b01000 : BitVec 5) ++ (0 : BitVec 1) ++ BitVec.ofBool toD) (if toD then 0 else 1) rs1 rd
  | .fmvToX d rd rs1 => encR opFp 0 ((0b11100 : BitVec 5) ++ (0 : BitVec 1) ++ BitVec.ofBool d) 0 rs1 rd
  | .fmvToF d rd rs1 => encR opFp 0 ((0b11110 : BitVec 5) ++ (0 : BitVec 1) ++ BitVec.ofBool d) 0 rs1 rd

def FDivOp.encode : FDivOp → W32
  | .fdiv d rd rs1 rs2 rm => encR opFp rm ((0b00011 : BitVec 5) ++ (0 : BitVec 1) ++ BitVec.ofBool d) rs2 rs1 rd
  | .fsqrt d rd rs1 rm => encR opFp rm ((0b01011 : BitVec 5) ++ (0 : BitVec 1) ++ BitVec.ofBool d) 0 rs1 rd

def encCsr (csr : BitVec 12) (f : CsrForm) : W32 := csr ++ f.src ++ f.f3 ++ f.rd ++ opSystem

def encLoad (op : LoadOp) (rd rs1 : Reg) (imm : BitVec 12) : W32 :=
  match op with
  | .lb => encI opLoad 0 imm rs1 rd
  | .lh => encI opLoad 1 imm rs1 rd
  | .lw => encI opLoad 2 imm rs1 rd
  | .ld => encI opLoad 3 imm rs1 rd
  | .lbu => encI opLoad 4 imm rs1 rd
  | .lhu => encI opLoad 5 imm rs1 rd
  | .lwu => encI opLoad 6 imm rs1 rd
  | .flw => encI opLoadFp 2 imm rs1 rd
  | .fld => encI opLoadFp 3 imm rs1 rd

def encStore (op : StoreOp) (rs1 rs2 : Reg) (imm : BitVec 12) : W32 :=
  match op with
  | .sb => encS opStore 0 imm rs1 rs2
  | .sh => encS opStore 1 imm rs1 rs2
  | .sw => encS opStore 2 imm rs1 rs2
  | .sd => encS opStore 3 imm rs1 rs2
  | .fsw => encS opStoreFp 2 imm rs1 rs2
  | .fsd => encS opStoreFp 3 imm rs1 rs2

def encAmo (f5 : BitVec 5) (d aq rl : Bool) (rd rs1 rs2 : Reg) : W32 :=
  encR opAmo (if d then 3 else 2) (f5 ++ BitVec.ofBool aq ++ BitVec.ofBool rl) rs2 rs1 rd

/-- The word of an instruction; none for the steps that have no word. -/
def encode : Instr → Option W32
  | .rcommit => some (encR opCustom0 0 0x00 0 0 0)
  | .phase rd rs1 => some (encR opCustom0 0 0x02 0 rs1 rd)
  | .bfx rd rs1 rs2 => some (encR opCustom0 0 0x03 rs2 rs1 rd)
  | .bfi rd rs1 rs2 => some (encR opCustom0 0 0x04 rs2 rs1 rd)
  | .xflush rs1 rs2 => some (encR opCustom0 0 0x10 rs2 rs1 0)
  | .cfence mask kind scope => some (encCf mask scope kind.bits)
  | .samo op scope rd rs1 rs2 => some (encCa op.bits scope rs2 rs1 rd)
  | .scas scope rd rs1 rs2 => some (encCa 9 scope rs2 rs1 rd)
  | .barinit rs1 rs2 => some (encR opCustom0 3 0x00 rs2 rs1 0)
  | .barrive rd rs1 => some (encR opCustom0 3 0x01 0 rs1 rd)
  | .barwait rs1 rs2 => some (encR opCustom0 3 0x02 rs2 rs1 0)
  | .barsync rd rs1 => some (encR opCustom0 3 0x03 0 rs1 rd)
  | .semv rs1 rs2 => some (encR opCustom0 3 0x08 rs2 rs1 0)
  | .semp rd rs1 rs2 => some (encR opCustom0 3 0x09 rs2 rs1 rd)
  | .msnd rd rs1 rs2 => some (encR opCustom0 4 0x00 rs2 rs1 rd)
  | .mrcv rd rs1 rs2 => some (encR opCustom0 4 0x01 rs2 rs1 rd)
  | .mpoll rd rs1 => some (encR opCustom0 4 0x02 0 rs1 rd)
  | .gsig rd rs1 rs2 => some (encR opCustom0 5 0x00 rs2 rs1 rd)
  | .gwait rd rs1 rs2 => some (encR opCustom0 5 0x01 rs2 rs1 rd)
  | .gpay rd rs1 rs2 => some (encR opCustom0 5 0x02 rs2 rs1 rd)
  | .gtake rd rs1 rs2 => some (encR opCustom0 5 0x03 rs2 rs1 rd)
  | .gopen rs1 => some (encR opCustom0 5 0x04 0 rs1 0)
  | .gclose rs1 => some (encR opCustom0 5 0x05 0 rs1 0)
  | .spawn rd rs1 rs2 => some (encR opCustom1 0 0x00 rs2 rs1 rd)
  | .touch rd rs1 => some (encR opCustom1 0 0x02 0 rs1 rd)
  | .tpoll rd rs1 => some (encR opCustom1 0 0x03 0 rs1 rd)
  | .tany rd rs1 rs2 => some (encR opCustom1 0 0x04 rs2 rs1 rd)
  | .promise rd => some (encR opCustom1 0 0x05 0 0 rd)
  | .resolve rd rs1 rs2 => some (encR opCustom1 0 0x06 rs2 rs1 rd)
  | .cancel rd rs1 => some (encR opCustom1 0 0x07 0 rs1 rd)
  | .poison rd rs1 rs2 => some (encR opCustom1 0 0x08 rs2 rs1 rd)
  | .texit rs1 => some (encR opCustom1 0 0x09 0 rs1 0)
  | .tyield => some (encR opCustom1 0 0x0A 0 0 0)
  | .frel rs1 => some (encR opCustom1 0 0x0B 0 rs1 0)
  | .stdef rs1 rs2 => some (encR opCustom1 1 0x00 rs2 rs1 0)
  | .starm rd rs1 rs2 => some (encR opCustom1 1 0x01 rs2 rs1 rd)
  | .stwait rd rs1 rs2 => some (encR opCustom1 1 0x02 rs2 rs1 rd)
  | .stgen rd rs1 => some (encR opCustom1 1 0x03 0 rs1 rd)
  | .hoist rd rs1 => some (encR opCustom1 1 0x04 0 rs1 rd)
  | .cpyin rd rs1 rs2 => some (encR opCustom1 2 0x00 rs2 rs1 rd)
  | .cpyout rd rs1 rs2 => some (encR opCustom1 2 0x01 rs2 rs1 rd)
  | .cpyx rd rs1 rs2 => some (encR opCustom1 2 0x02 rs2 rs1 rd)
  | .cpygath rd rs1 rs2 => some (encR opCustom1 2 0x03 rs2 rs1 rd)
  | .cpybc rd rs1 rs2 => some (encR opCustom1 2 0x04 rs2 rs1 rd)
  | .cpwait rd rs1 => some (encR opCustom1 2 0x08 0 rs1 rd)
  | .cpqry rd rs1 => some (encR opCustom1 2 0x09 0 rs1 rd)
  | .cpcan rd rs1 => some (encR opCustom1 2 0x0A 0 rs1 rd)
  | .mma m => some (encMt 0 m)
  | .mms m => some (encMt 1 m)
  | .mmz m => some (encMt 2 m)
  | .mmak m => some (encMt 3 m)
  | .mmag m => some (encMt 4 m)
  | .mld md pad rs2 => some (encTr 0x00 rs2 pad md)
  | .mst md pad => some (encTr 0x01 0 pad md)
  | .mzero md rs1 => some (encTr 0x02 0 rs1 md)
  | .mcopy md ms => some (encTr 0x03 0 ((0 : BitVec 1) ++ ms) md)
  | .mtrn md ms => some (encTr 0x04 0 ((0 : BitVec 1) ++ ms) md)
  | .mcommit rd => some (encR opCustom2 6 0x00 0 0 rd)
  | .mwait rs1 => some (encR opCustom2 6 0x01 0 rs1 0)
  | .mclrf mt rs2 => some (encR opCustom2 6 0x02 rs2 ((0 : BitVec 1) ++ mt) 0)
  | .mstat rd mt => some (encR opCustom2 6 0x03 0 ((0 : BitVec 1) ++ mt) rd)
  | .fmtw rs1 rs2 => some (encR opCustom2 6 0x04 rs2 rs1 0)
  | .fmtr rd rs1 => some (encR opCustom2 6 0x05 0 rs1 rd)
  | .vadd td ta tb xr => some (encRowR 0 0 tb ta td xr)
  | .vsub td ta tb xr => some (encRowR 0 1 tb ta td xr)
  | .vmul td ta tb xr => some (encRowR 0 2 tb ta td xr)
  | .vdiv td ta tb xr => some (encRowR 0 3 tb ta td xr)
  | .vfma td ta tb xr => some (encRowR 0 4 tb ta td xr)
  | .vmin td ta tb xr => some (encRowR 0 5 tb ta td xr)
  | .vmax td ta tb xr => some (encRowR 0 6 tb ta td xr)
  | .vsel td ta tb xr => some (encRowR 0 7 tb ta td xr)
  | .vcmpEq kd ta tb xr => some (encRowR 0 8 tb ta ((0 : BitVec 1) ++ kd) xr)
  | .vcmpLt kd ta tb xr => some (encRowR 0 9 tb ta ((0 : BitVec 1) ++ kd) xr)
  | .vcmpLe kd ta tb xr => some (encRowR 0 10 tb ta ((0 : BitVec 1) ++ kd) xr)
  | .vperm td ta tb xr => some (encRowR 0 11 tb ta td xr)
  | .vmov td ta xr => some (encRowR 0 12 0 ta td xr)
  | .vneg td ta xr => some (encRowR 0 13 0 ta td xr)
  | .vabs td ta xr => some (encRowR 0 14 0 ta td xr)
  | .vsqrt td ta xr => some (encRowR 0 15 0 ta td xr)
  | .vrsq td ta xr => some (encRowR 0 16 0 ta td xr)
  | .vrcp td ta xr => some (encRowR 0 17 0 ta td xr)
  | .vexp2 td ta xr => some (encRowR 0 18 0 ta td xr)
  | .vlog2 td ta xr => some (encRowR 0 19 0 ta td xr)
  | .vtanh td ta xr => some (encRowR 0 20 0 ta td xr)
  | .viadd td ta tb xr => some (encRowR 1 0 tb ta td xr)
  | .visub td ta tb xr => some (encRowR 1 1 tb ta td xr)
  | .vimul td ta tb xr => some (encRowR 1 2 tb ta td xr)
  | .vand td ta tb xr => some (encRowR 1 3 tb ta td xr)
  | .vor td ta tb xr => some (encRowR 1 4 tb ta td xr)
  | .vxor td ta tb xr => some (encRowR 1 5 tb ta td xr)
  | .vshl td ta tb xr => some (encRowR 1 6 tb ta td xr)
  | .vsrl td ta tb xr => some (encRowR 1 7 tb ta td xr)
  | .vsra td ta tb xr => some (encRowR 1 8 tb ta td xr)
  | .vimin td ta tb xr => some (encRowR 1 9 tb ta td xr)
  | .vimax td ta tb xr => some (encRowR 1 10 tb ta td xr)
  | .vadds tds rs xr => some (encRowS 2 0 rs tds 0 xr)
  | .vsubs tds rs xr => some (encRowS 2 0 rs tds 1 xr)
  | .vmuls tds rs xr => some (encRowS 2 0 rs tds 2 xr)
  | .vmaxs tds rs xr => some (encRowS 2 0 rs tds 3 xr)
  | .vmins tds rs xr => some (encRowS 2 0 rs tds 4 xr)
  | .vbcast tds rs xr => some (encRowS 2 1 rs tds 0 xr)
  | .vext rs tds xr => some (encRowS 2 2 rs tds 0 xr)
  | .vins tds rs xr => some (encRowS 2 3 rs tds 0 xr)
  | .viota tds rs xr => some (encRowS 2 4 rs tds 0 xr)
  | .vrsum rs tds xr => some (encRowS 2 5 rs tds 0 xr)
  | .vrmax rs tds xr => some (encRowS 2 6 rs tds 0 xr)
  | .vrmin rs tds xr => some (encRowS 2 7 rs tds 0 xr)
  | .vcvt td tds p xr => some (encRowS 2 8 ((0 : BitVec 1) ++ td) tds p xr)
  | .vqmx rs tds scope xr => some (encRowS 2 9 rs tds scope xr)
  | .vld td rs1 off xr => some (encRowS 3 0 rs1 td off xr)
  | .vst td rs1 off xr => some (encRowS 3 1 rs1 td off xr)
  | .vpfx p => some (encVp p)
  | .lift rd rs1 rs2 => some (encR opCustom3 4 0x00 rs2 rs1 rd)
  | .lret rs1 => some (encR opCustom3 4 0x01 0 rs1 0)
  | .ltag r rs2 => some (encR opCustom3 4 0x03 rs2 r.bits 0)
  | .lred md ms rs2 => some (encR opCustom3 4 0x04 rs2 ((0 : BitVec 1) ++ ms) ((0 : BitVec 1) ++ md))
  | .laxis rd rs1 => some (encR opCustom3 4 0x05 0 rs1 rd)
  | .lbr k imm => some (encLb k imm)
  | .baseLoad op rd rs1 imm => some (encLoad op rd rs1 imm)
  | .baseStore op rs1 rs2 imm => some (encStore op rs1 rs2 imm)
  | .amo op d aq rl rd rs1 rs2 => some (encAmo op.bits d aq rl rd rs1 rs2)
  | .lr d aq rl rd rs1 => some (encAmo 0b00010 d aq rl rd rs1 0)
  | .sc d aq rl rd rs1 rs2 => some (encAmo 0b00011 d aq rl rd rs1 rs2)
  | .fence fm p q rs1 rd => some (fm ++ p ++ q ++ rs1 ++ (0 : BitVec 3) ++ rd ++ opMiscMem)
  | .fenceI imm rs1 rd => some (encI opMiscMem 1 imm rs1 rd)
  | .ecall => some (encI opSystem 0 0x000 0 0)
  | .ebreak => some (encI opSystem 0 0x001 0 0)
  | .wfi => some (encI opSystem 0 0x105 0 0)
  | .sret => some (encI opSystem 0 0x102 0 0)
  | .mret => some (encI opSystem 0 0x302 0 0)
  | .sfenceVma rs1 rs2 => some (encR opSystem 0 0b0001001 rs2 rs1 0)
  | .csrAccess csr f => some (encCsr csr f)
  | .stcolWrite f => some (encCsr 0x800 f)
  | .vrmWrite f => some (encCsr 0x801 f)
  | .mfmtWrite n f => some (encCsr ((0x201 : BitVec 10) ++ n) f)
  | .mgangWrite f => some (encCsr 0x808 f)
  | .satpWrite f => some (encCsr 0x180 f)
  | .integerOp op => some op.encode
  | .fdivFsqrt op => some op.encode
  | _ => none

/-- The bytes of a word, the lowest address first (R3). -/
def bytesOfWord (w : W32) : List Byte := [fld w 0 8, fld w 8 8, fld w 16 8, fld w 24 8]

/-- The instruction of a row of the opcode table, whose bits are `w` with bit 0 the least significant of the first
word: every instruction is one 32-bit word (R89), laid out least significant byte first (R3). -/
def decodeTableWord (nbits w : Nat) : Option Instr :=
  match decode (bytesOfWord (BitVec.ofNat 32 (w % 2 ^ nbits))) with
  | .ok (i, _) => some i
  | .error _ => none

end Sys2Proof
end

