-- ==== Sys2Proof/Config.lean ====
section
/-! DEFINITION. What an implementation fixes and the manual leaves open. A constant without a body is a free value: no
proof can see what it is, so a claim about the model holds whatever it is. -/

namespace Sys2Proof.Config

/-- The pc after reset: the manual gives no reset vector. DESIGN CHOICE (log 1), unsafe. -/
def resetVector : Word := 0

/-- What a byte of HBM or of host memory that nothing has written reads as. Scratchpads and vaults are zero-filled at
bring-up (R398); for HBM and host memory zero is a DESIGN CHOICE (log 2), unsafe. -/
def unwrittenByte : Byte := 0

/-- The number of core-clock cycles that have passed at the model's step count: a free value, since no step has a fixed
length (R105, log 6). -/
opaque cyclesAt : Nat → Word

/-- The 100 MHz time at the model's step count: a free value (R105, log 6). -/
opaque timeAt : Nat → Word

/-- A byte the manual calls unspecified: a load from a held spill stage (R307). Free value (log 4). -/
opaque freeByte : Nat → Byte

/-- What a 64-byte unit written under one key, as data, reads as under another: XTS decryption under the second of the
encryption under the first, at this unit (R59). The model keeps the data and not the cipher text, so the result is free
(log 24). -/
opaque rekeyed : (old new : BitVec 512) → (unit : Nat) → (data : BitVec 512) → BitVec 512

/-- A 64-bit word the manual leaves open. Free value (log 4). -/
opaque freeWord : Nat → Word

/-- Whether a value half way between zero and the least normal number of an entry without subnormals rounds up to the
normal number under RNE (R252: both codes are even). Free value (log 4). -/
opaque tieAwayFromZero : Nat → Bool

/-- The code an entry of spec 0 without fraction bits holds for a NaN result (R244: it has no NaN code). Free value (log 4). -/
opaque nanWithoutFraction : Nat → Nat

/-- The code a conversion of zero or of a negative value into a scale entry writes (R250 gives none). Free value (log 4). -/
opaque scaleOfNonPositive : Nat → Nat

/-- Which free slot a task engine takes (R155 leaves it to the engine): counted among the free ones. Free value (log 4). -/
opaque freeSlot : Nat → Nat

/-- One less than the number of reports a fault ring in host memory holds: the manual gives rings no size. Free value
(log 4). -/
opaque ringRoom : Nat

/-- The firmware version of this device (R126, R361). Free value (log 4). -/
opaque firmwareVersion : BitVec 16

end Sys2Proof.Config
end

