-- ==== Sys2Proof/Machine/State.lean ====
section
/-! DEFINITION. The state of the package: everything the manual gives the machine, as plain data, and the state after
reset. Sparse collections are tables under natural-number keys; an entry that is absent stands for its reset value. -/

namespace Sys2Proof.Machine

/-! ## Harts -/

/-- The privilege modes (R118). -/
inductive Mode | u | s | m
  deriving DecidableEq, Repr, Inhabited

/-- The registers of a hart that the region checkpoint holds (R40, R114). -/
structure Ctx where
  x     : Vector Word 32
  f     : Vector Word 32
  fcsr  : BitVec 8
  stcol : BitVec 3
  vrm   : BitVec 3
  mfmt  : Vector (BitVec 18) 4
  mgang : BitVec 18
  deriving DecidableEq, Repr, Inhabited

/-- The S-mode and M-mode CSRs and the counters (R402, R105). `sstatus`, `sie`, `sip`, `cycle` and `instret` are views. -/
structure SysCsrs where
  mstatus       : Word
  mepc          : Word
  mcause        : Word
  mtval         : Word
  mscratch      : Word
  mtvec         : Word
  mie           : Word
  mip           : Word
  medeleg       : Word
  mideleg       : Word
  mcounteren    : BitVec 32
  menvcfg       : Word
  mcountinhibit : BitVec 32
  mcycle        : Word
  minstret      : Word
  sepc          : Word
  scause        : Word
  stval         : Word
  sscratch      : Word
  stvec         : Word
  satp          : Word
  scounteren    : BitVec 32
  senvcfg       : Word
  pmpcfg        : Vector Word 8
  pmpaddr       : Vector Word 64
  deriving DecidableEq, Repr, Inhabited

/-- The reservation of `lr` (R403): the physical 64-byte line, the address and the width. -/
structure Resv where
  line  : Nat
  addr  : Word
  width : Nat
  deriving DecidableEq, Repr, Inhabited

/-! ## Operations of the tile engine -/

/-- What an operation of the tile engine does. -/
inductive OpKind | mma | mms | mmz | mmak | mmag | mld | mst | mzero | mcopy | mtrn
  deriving DecidableEq, Repr, Inhabited

/-- A format-table entry that an operation captured: the id, the entry and the number of its version (R258, R259). -/
structure Cap where
  id   : Nat
  word : Word
  ver  : Nat
  deriving DecidableEq, Repr, Inhabited

/-- An accepted, incomplete operation (R226 to R232), with what was captured at acceptance. -/
structure Op where
  id      : Nat
  kind    : OpKind
  task    : Word
  region  : BitVec 16
  group   : BitVec 16
  stream  : BitVec 2
  word    : W32
  /-- The destination (for `mst` the source) and its image. -/
  md      : TileReg
  img     : Nat
  a       : MtOperand
  b       : MtOperand
  aImg    : Nat
  bImg    : Nat
  aPad    : Word × Word
  bPad    : Word × Word
  /-- The task whose tiles an A operand names: for a member of a gang, the leader's (R236). -/
  aTask   : Word
  /-- The byte offset that a lift adds to the pad of `mld` and `mst` (R309). -/
  offset  : Word
  /-- The context of its entries and the versions captured, with the ids of A, B and the destination (R258). -/
  ctx     : Nat
  caps    : List Cap
  af      : Nat
  bf      : Nat
  cf      : Nat
  rm      : Nat
  fzi     : Bool
  fzo     : Bool
  gang    : BitVec 18
  started : Bool
  /-- K-steps done, their number, and the last checkpoint step (R228); the row block of `mmag`. -/
  steps   : Nat
  total   : Nat
  saved   : Nat
  block   : Nat
  /-- The operation shadow, the operand faults met, the stages pinned. -/
  shadow  : Option Nat
  faults  : Nat
  pins    : List Nat
  deriving DecidableEq, Repr, Inhabited

/-- A fault of an operation that waits for its delivery (R232, R236, R272): the tiles the operation names, its destination
and group; whether the region aborts, else the trap. -/
structure OpFault where
  tiles  : List Nat
  dest   : Nat
  group  : BitVec 16
  region : BitVec 16
  aborts : Bool
  cause  : Nat
  sub    : Nat
  word   : Word
  deriving DecidableEq, Repr, Inhabited

/-- An image in spill whose shadow holds spill space (R306): a tile, or 16 more than the number of a mask; its tag set and
flat number; the stage and the granules. -/
structure Spilled where
  reg      : Nat
  tags     : BitVec 4
  flat     : Nat
  stage    : Nat
  granules : Nat
  deriving DecidableEq, Repr, Inhabited

/-! ## Waits -/

/-- What a hart that is out of rotation waits for (R117). -/
inductive WaitKind
  /-- A short wait: the condition is tested again at each of the hart's slots. -/
  | short
  /-- A short wait of a region-closing instruction that has made no effect yet: a stop abandons it (R128, R183, R301). -/
  | late
  /-- A flush whose entries are removed: the regions, by task, sequence and restarts, that hold stores made through a
  removed entry (R61, R146). -/
  | flushing (regions : List (Word × BitVec 16 × BitVec 8))
  /-- A long wait without a place anywhere: tested again, abandoned by an interrupt (R120). -/
  | long
  /-- The wait of a `cpygath` for a slot or a prefetch hold, with the list it has read (R214, R215): abandoned as `long` is. -/
  | listed (entries : List (Word × Nat))
  /-- A long wait with a place in the queue of a semaphore, a mailbox or a stage (R145, R195, R332, R333). -/
  | queued
  /-- `barsync` after its arrival at this instance in this phase (R140). -/
  | arrived (key : Nat) (phase : BitVec 16)
  /-- The request has left for another chip, whose reply is awaited (R404), with the handles that `tany` has read. -/
  | sent (handles : List Word)
  /-- The request is held by exhaustion (R160): the subcode of cause 25, whether it has been rejected, and what the
  instruction has read: the bytes of a descriptor (R175), or the handles of `tany` (R179). -/
  | held (sub : Nat) (rejected : Bool) (desc : List Byte) (handles : List Word)
  /-- `tany` in S or M mode, with the handles it has read (R172). -/
  | anyOf (handles : List Word)
  /-- An S-mode or M-mode access held on a stage-2 page that is not present (R401): the ring and sequence of its report. -/
  | page (ring seq : Nat)
  /-- An MT or TR word whose first `done` executions are accepted; `op` holds what was captured (R226, R326). -/
  | accepting (done : Nat) (op : Op)
  /-- `fmtw` whose write is on its way to the views (R259). -/
  | applied
  deriving DecidableEq, Repr, Inhabited

def WaitKind.isLong : WaitKind → Bool
  | .short | .late | .flushing _ | .accepting _ _ | .applied => false
  | .long | .listed _ | .queued | .arrived _ _ | .sent _ | .held _ _ _ _ | .anyOf _ | .page _ _ => true

/-- A short wait that a stop abandons (R128). -/
def WaitKind.isLate : WaitKind → Bool
  | .late => true
  | .short | .flushing _ | .long | .listed _ | .queued | .arrived _ _ | .sent _ | .held _ _ _ _ | .anyOf _ | .page _ _ | .accepting _ _
  | .applied => false

/-- An instruction in its wait, and the reply that has arrived for it. -/
structure Wait where
  instr : Instr
  kind  : WaitKind
  reply : Option Reply
  deriving DecidableEq, Repr, Inhabited

structure Hart where
  pc          : Word
  ctx         : Ctx
  mode        : Mode
  sys         : SysCsrs
  /-- The future handle of the task that runs here or is held at the trap boundary (R118). -/
  task        : Option Word
  /-- The next `sret` frees the hart (R352, R182). -/
  freeOnSret  : Bool
  /-- The row prefix that waits for its row word (R100). -/
  pfx         : Option Pfx
  /-- The pc was reached by a control transfer (R100). -/
  jumped      : Bool
  resv        : Option Resv
  waiting     : Option Wait
  /-- The remote request count of a hart with no task (R404). -/
  remoteCount : BitVec 16
  inService   : Bool
  /-- Stopped by step 2 of R358. -/
  stopped     : Bool
  deriving DecidableEq, Repr, Inhabited

/-! ## Lift axis state (R302 to R306, R318) -/

structure Axis where
  extent : Nat
  stride : Word
  spill  : Nat
  entry  : Word
  deriving DecidableEq, Repr, Inhabited

/-- A mask register: its tag set and its images by flat number over that set; image 0 of an untagged one. -/
structure MaskReg where
  tags   : BitVec 4
  images : Table Mask
  deriving DecidableEq, Repr, Inhabited

structure StackEntry where
  target : Word
  set    : Mask
  depth  : Nat
  deriving DecidableEq, Repr, Inhabited

/-- `images` holds the images other than image 0 of tagged tiles, by tile number and flat number: their rows. -/
structure Lift where
  axes   : List Axis
  active : Mask
  stack  : List StackEntry
  masks  : Vector MaskReg 8
  images : Table (Table (Table Row))
  deriving DecidableEq, Repr, Inhabited

/-! ## Regions (R38 to R44, R122, R124) -/

/-- An entry of the region store buffer or a store-log record (R122); `pa` and `gpa` are where the store goes,
translated when it was made. -/
inductive Entry
  | store (size : Nat) (colour : BitVec 3) (addr : Word) (data : Word) (pa gpa : Nat)
  | release (mask : BitVec 8)
  deriving DecidableEq, Repr, Inhabited

/-- The checkpoint (R40): the restart pc, the registers, the lift axis state and the next commit-group counter. -/
structure Checkpoint where
  pc    : Word
  ctx   : Ctx
  lift  : Lift
  group : BitVec 16
  deriving DecidableEq, Repr, Inhabited

structure Region where
  /-- Buffer entries, oldest first (at most 512). -/
  buf       : List Entry
  /-- Log records, oldest first. -/
  log       : List Entry
  /-- Committed entries that have not been performed yet, oldest first. -/
  undrained : List Entry
  ckpt      : Checkpoint
  /-- Tile number to the physical tile that shadows it (R40, R221). -/
  shadows   : Table Nat
  /-- The tiles whose shadow is taken and not copied yet (R230). -/
  uncopied  : List Nat
  /-- Images in spill written in the region (R306). -/
  imgShadow : List Spilled
  close     : BitVec 2
  rst       : BitVec 8
  rseq      : BitVec 16
  deriving DecidableEq, Repr, Inhabited

/-! ## Tasks (R34, R155 to R170) -/

/-- A stage argument of a descriptor (R34). -/
structure StageArg where
  source : Word
  stage  : BitVec 6
  valid  : Bool
  length : Nat
  deriving DecidableEq, Repr, Inhabited

/-- An operand extent of a descriptor (R34). -/
structure Extent where
  base  : Word
  len   : BitVec 32
  read  : Bool
  write : Bool
  deriving DecidableEq, Repr, Inhabited

/-- A task descriptor (R34); for a root task, what the launch record gives in its place. -/
structure Desc where
  entry   : Word
  prio    : BitVec 2
  once    : Bool
  tree    : Bool
  tiles   : Nat
  kind    : BitVec 3
  hint    : BitVec 32
  args    : List StageArg
  extents : List Extent
  logAddr : Word
  logSize : BitVec 32
  raw     : List Byte
  deriving DecidableEq, Repr, Inhabited

/-- A physically contiguous run of an extent table (R37): virtual base, length in bytes, physical base, and the
guest-physical pages it covers, by which a stage-2 invalidation finds it (R61). -/
structure Run where
  va    : Word
  len   : Nat
  pa    : Nat
  read  : Bool
  write : Bool
  asid  : BitVec 16
  gpages : List Nat
  deriving DecidableEq, Repr, Inhabited

/-- Task states (R169); `flying` is on its way to its target cluster (R155); `paged` is held on a report that awaits acknowledgement (R357), `lost` by core loss (R381),
`stopping` has ended and waits for the stop of its prefetches or for its operations, which hold its tiles (R163). -/
inductive TaskState | flying | ring | preparing | ready | running | parked | paged | lost | stopping
  deriving DecidableEq, Repr, Inhabited

/-- Where a root task may run (R28). -/
inductive Pin
  | any
  | hart (h : Nat)
  | core (c : Nat)
  | pair (p : Nat)
  deriving DecidableEq, Repr, Inhabited

/-- The progress of one stage-argument prefetch (R158), or the fault that ended it (R155). -/
inductive Prefetch | waiting | copying (slot : Nat) | done | failed (cause sub : Nat)
  deriving DecidableEq, Repr, Inhabited

/-- How a parked task resumes: with the outcome of its touch and the launch that it comes from (R378), by selecting again, or
after the loss of the home. -/
inductive Wake
  | outcome (state : Nat) (value : Word) (verdict : Nat) (free : Bool) (source : Option Nat)
  | select
  | lost (handle : Word)
  deriving DecidableEq, Repr, Inhabited

structure Task where
  desc        : Desc
  arg         : Word
  flat        : Word
  state       : TaskState
  cluster     : Nat
  root        : Bool
  pin         : Pin
  launch      : Nat
  parent      : Word
  lid         : List Word
  lcnt        : List Word
  /-- Arrival order in the ring or in its ready queue. -/
  order       : Nat
  /-- Microseconds spent ready since the last level of promotion, in the model's agePromotion events. -/
  promo       : BitVec 2
  passedOver  : Bool
  dispatched  : Bool
  /-- The package pair index that holds the tiles, and the physical tiles of m0, m1, … -/
  pair        : Option Nat
  tiles       : List Nat
  /-- Tiles and tags that await new physical tiles after the loss of a core (R237). -/
  moved       : Bool
  runs        : List Run
  logRuns     : List Run
  translated  : Bool
  prefetch    : List Prefetch
  verdict     : BitVec 2
  lossCount   : Nat
  /-- The addresses of uncorrectable errors met in the open region (R380). -/
  eccAt       : List Word
  remoteCount : BitVec 16
  /-- The instruction a parked task is in, and what woke it. -/
  parkedIn    : Option Instr
  wake        : Option Wake
  /-- The wait of a task whose core was lost after the effect had begun elsewhere: an arrival that stays, or an answer that
  had come (R128, R142). -/
  resume      : Option Wait
  /-- The handles of the touch or `tany` it is parked in, null entries included. -/
  waitsOn     : List Word
  /-- It ends at its next commit point (R163, R154). -/
  ending      : Option EndKind
  /-- The page its region is held on (R357): the sequence and ring of the report. -/
  heldOn      : Option (Nat × Nat)
  /-- Faults of operations to deliver, oldest first (R232, R236, R272). -/
  opFaults    : List OpFault
  region      : Region
  lift        : Lift
  group       : BitVec 16
  /-- Closed groups that are not complete. -/
  openGroups  : List (BitVec 16)
  deriving DecidableEq, Repr, Inhabited

/-! ## Futures (R147 to R153, R168) -/

structure Future where
  gen        : BitVec 23
  state      : Nat
  value      : Word
  verdict    : BitVec 2
  once       : Bool
  tree       : Bool
  prio       : BitVec 2
  hasTask    : Bool
  parent     : Word
  launch     : Nat
  /-- Order of allocation, and order of resolution. -/
  born       : Nat
  resolvedAt : Nat
  /-- The tasks whose woken touches are still to complete, and whether a touch has completed (R152, R166). -/
  touchers   : List Word
  touched    : Bool
  /-- The home that its handle names: chip × 128 + die × 64 + cluster (R147, R170). -/
  home       : Nat
  deriving DecidableEq, Repr, Inhabited

/-- A waiter record (R161, R162). -/
structure Waiter where
  future : Word
  task   : Word
  seq    : BitVec 32
  any    : Bool
  index  : Nat
  eprio  : Nat
  /-- The record's index in the spill region when it is held there (R162). -/
  spill  : Option Nat
  deriving DecidableEq, Repr, Inhabited

/-! ## Cores, pairs and clusters -/

/-- A TLB entry (R61): both stages of the translation of one 4 KiB page. `bare` is true when stage 1 was off; `part` is
0 without a partition, else its number plus 1; `f1` and `f2` are the low bits of the leaf entries of the two stages, `span1` and `span2` the 4 KiB pages that the
leaves cover. -/
structure Tlb where
  vpn   : Nat
  asid  : BitVec 16
  bare  : Bool
  part  : Nat
  gppn  : Nat
  ppn   : Nat
  f1    : BitVec 8
  f2    : BitVec 8
  span1 : Nat
  span2 : Nat
  deriving DecidableEq, Repr, Inhabited

/-- A barrier instance (R138). -/
structure Barrier where
  count    : BitVec 16
  arrivals : BitVec 16
  phase    : BitVec 16
  deriving DecidableEq, Repr, Inhabited

/-- Who waits for room in a mailbox: a hart of this package, or a request of another chip by its mark (R404). -/
inductive Sender
  | hart (h : Nat)
  | chip (mark : Mark)
  deriving DecidableEq, Repr, Inhabited

/-- A mailbox (R329): the messages, the senders that wait for room with theirs, and the harts in its receiver queue. -/
structure Mailbox where
  msgs      : List Message
  senders   : List (Sender × Message)
  receivers : List Nat
  deriving DecidableEq, Repr, Inhabited

/-- A stage-table entry (R54) with its holds (R158, R307). -/
structure Stage where
  gen      : BitVec 16
  pins     : Nat
  armed    : Bool
  cur      : Bool
  defined  : Bool
  size     : Nat
  base     : Nat
  count    : BitVec 32
  target   : BitVec 32
  prefetch : Bool
  /-- The open lift axes of tasks that spill here. -/
  lifts    : Nat
  due      : Bool
  /-- The harts in `hoist` that wait for the last pin (R195). -/
  hoisters : List Nat
  deriving DecidableEq, Repr, Inhabited

/-- Kinds of copies (R204). -/
inductive CopyKind | cpyin | cpyout | cpyx | gather | broadcast | fetch
  deriving DecidableEq, Repr, Inhabited

/-- A copy command slot (R188 to R190). -/
structure CopySlot where
  seq      : BitVec 16
  state    : Nat
  cause    : Nat
  sub      : Nat
  done     : Nat
  total    : Nat
  kind     : CopyKind
  task     : Word
  hart     : Nat
  /-- The copy word (R212), and the context the command acts under. -/
  word     : Word
  satp     : Word
  mode     : Mode
  /-- x[rs1]: the other address. -/
  addr     : Word
  gather   : List (Word × Nat)
  /-- Destination clusters of this package; a `cpyx` to another chip has none. -/
  targets  : List Nat
  /-- A beat is on its way to another chip and not answered yet. -/
  out      : Bool
  /-- The ring and sequence of the report that a held command waits on (R190). -/
  heldOn   : Option (Nat × Nat)
  deriving DecidableEq, Repr, Inhabited

/-- A tile (R221 to R223): rows, format tag, axis tags and the flags of the status word. -/
structure Tile where
  rows  : Table Row
  fmt   : BitVec 5
  axes  : BitVec 4
  flags : BitVec 8
  owner : Option Word
  deriving DecidableEq, Repr, Inhabited

/-- `state` is 0 in service, 1 out of service after a failed scan (R375). -/
structure Pair where
  tiles   : Table Tile
  ops     : List Op
  sems    : Table (BitVec 32)
  semQ    : Table (List Nat)
  /-- Entries of the view that a write of the table has not reached yet (R259), with their versions, under the keys of `fmts`. -/
  views   : Table (Word × Nat)
  state   : Nat
  errMpad : Bool
  errTmem : Bool
  deriving DecidableEq, Repr, Inhabited

/-- An entry of the rendezvous table (R236): the gang id, the members that its arrivals name, and the arrivals by pair with
their op ids. `bad` is true once members have disagreed, and `seen` holds the pairs whose operations it has discarded. `lead` is
the leader's operation once all have met, and `rows` the rows of its A operand that stream for the current row block. -/
structure Gang where
  gid      : BitVec 8
  mask     : Nat
  arrivals : List (Nat × Nat)
  started  : Bool
  bad      : Bool
  seen     : List Nat
  lead     : Option Op
  rows     : Option (List Row)
  deriving DecidableEq, Repr, Inhabited

/-- A fault report (R353). -/
structure Report where
  seq    : Nat
  source : Nat
  cause  : Nat
  sub    : Nat
  stage  : Nat
  access : Nat
  part   : Nat
  origin : Nat
  va     : Word
  gpa    : Word
  task   : Word
  info   : Word
  time   : Word
  loc    : BitVec 32
  deriving DecidableEq, Repr, Inhabited

/-- A remote entry of the permission table (R328). -/
structure RemotePerm where
  chip  : BitVec 12
  valid : Bool
  mask  : BitVec 128
  deriving DecidableEq, Repr, Inhabited

/-- The mark of the last request applied of a remote task, and its reply (R404). -/
structure MarkRec where
  mark  : Mark
  reply : Reply
  deriving DecidableEq, Repr, Inhabited

/-- `drain` is the pair that drains (R374) with its phase: 0 up to the timeout, 1 after it; `nextPair` the next of the
rotation. -/
structure Cluster where
  stages      : Table Stage
  slots       : Table CopySlot
  copyQueue   : List Nat
  channels    : List Nat
  tlb1        : Table (List Tlb)
  tlb2        : List Tlb
  part        : Option Nat
  permLocal   : BitVec 128
  permRemote  : Table RemotePerm
  spillBase   : Word
  spillSize   : Word
  ringBase    : Word
  ringSize    : Word
  areaHart    : Nat
  ringHead    : Nat
  ringTail    : Nat
  waiters     : List Waiter
  waiterSeq   : BitVec 32
  heldReqs    : List Nat
  /-- The requests of other chips that are held by exhaustion (R160). -/
  heldRemote  : List HomeRequest
  figures     : Nat
  reserve     : List (Nat × Word)
  reports     : List Report
  unread      : Nat
  overwritten : Nat
  scrubBusy   : BitVec 3
  sealedCores : BitVec 8
  lostCores   : BitVec 8
  /-- A core loss that the supervisor has not disposed of yet (R118, R382). -/
  lossNote    : Bool
  errCore     : BitVec 8
  errinj      : BitVec 64
  gangs       : List Gang
  nextPair    : Nat
  drain       : Option (Nat × Nat)
  marks       : Table MarkRec
  forecast    : BitVec 4
  deriving DecidableEq, Repr, Inhabited

/-! ## Partitions, gates, rings, queues and launches -/

/-- `stopStep` is the step of R358 in progress, 0 outside a stop, and `command` the context command that runs, 0 for none.
`released` is true when the clusters may be reassigned after a save (R366). The `saved` tables hold what the chip keeps of
a saved partition and the bale has no field for (log 17); `waits` are the gate waits abandoned in a stop (R344), and
`damaged` the save areas and clusters whose tiles met an uncorrectable error while they were saved (R372). `acks` are the rings
and sequences of acknowledgements that came after step 1 of a stop and are kept (R372). -/
structure Part where
  present    : Bool
  fn         : Nat
  root2      : Word
  key        : Nat
  clusters   : BitVec 128
  vaults     : BitVec 128
  clamps     : BitVec 64
  sect       : BitVec 16
  code       : BitVec 8
  state      : Nat
  scrubProg  : Word
  saveBase   : Word
  saveSize   : Word
  mapAddr    : Word
  tracking   : Bool
  dirty      : List Nat
  stopStep   : Nat
  command    : Nat
  baleAt     : Nat
  kind       : Nat
  released   : Bool
  savedMask  : BitVec 128
  savedTasks : Table Task
  savedFuts  : Table Future
  savedHomes : Table Cluster
  ctxs       : List Nat
  waits      : List (Nat × Word × Word)
  damaged    : List (Word × Nat)
  acks       : List (Nat × Nat)
  deriving DecidableEq, Repr, Inhabited

/-- An access-list entry of a gate (R336, R338). -/
structure Access where
  chip   : BitVec 12
  part   : Nat
  rights : BitVec 8
  rate   : Nat
  burst  : Nat
  policy : Bool
  tokens : Nat
  valid  : Bool
  deriving DecidableEq, Repr, Inhabited

structure Gate where
  present  : Bool
  gen      : Nat
  owner    : Nat
  opened   : Bool
  base     : Word
  size     : Word
  key      : Nat
  access   : List Access
  counter  : Word
  payload  : BitVec 512
  paySeq   : Word
  waiters  : List GateRequest
  stalled  : List GateRequest
  frozen   : Bool
  queue    : List GateRequest
  moved    : Option Word
  deriving DecidableEq, Repr, Inhabited

/-- `held` are reports not posted, `posted` those posted and not acknowledged, `used` those posted in this round (R355). -/
structure Ring where
  base   : Word
  weight : Nat
  used   : Nat
  next   : Nat
  held   : List Report
  posted : List Report
  deriving DecidableEq, Repr, Inhabited

/-- A queue control block (R386); `deleted` marks a slot that a lookup passes. `next` is how many entries the queue has
consumed, `tail` how many it has been handed. -/
structure Queue where
  deleted  : Bool
  fn       : Nat
  pasid    : Nat
  number   : Nat
  base     : Word
  log2     : Nat
  prio     : Nat
  vector   : Nat
  next     : Nat
  tail     : Nat
  /-- The node read last, which governs the record that follows (R387), and whether it was rejected. -/
  node     : Option (List Byte × Bool)
  /-- When it was created: the launches that it has consumed have later numbers. -/
  born     : Nat
  deriving DecidableEq, Repr, Inhabited

/-- Where a launch stands (R388 to R391). `written` is false for a posted launch whose record could not be written (R405). -/
inductive LaunchState
  | waiting
  | held
  | running
  | posting (status reason : Nat)
  | posted (status reason : Nat) (written : Bool)
  deriving DecidableEq, Repr, Inhabited

/-- A prerequisite (R387): the sequence that names it, the launch once its queue has consumed it, and whether the deletion of
that queue makes it count as posted. -/
structure Prereq where
  seq    : Word
  launch : Option Nat
  gone   : Bool
  deriving DecidableEq, Repr, Inhabited

structure Launch where
  fn         : Nat
  pasid      : Nat
  part       : Nat
  slot       : Nat
  seq        : Word
  vector     : Nat
  qprio      : Nat
  record     : List Byte
  prereqs    : List Prereq
  predicate  : Option Word
  /-- The predicate as read when the last prerequisite's completion became visible (R388). -/
  sampled    : Option Word
  /-- The launch of the same queue that must post first (R389). -/
  after      : Option Nat
  released   : Bool
  state      : LaunchState
  roots      : Nat
  rootsLive  : Nat
  rootsBad   : Nat
  ended      : Nat
  corrected  : Bool
  tainted    : Bool
  /-- The verdict has been final (R376): it never changes again. -/
  final      : Bool
  /-- Pairs with a use that no scan has covered (R376). -/
  uses       : List Nat
  sources    : List Nat
  anySource  : Bool
  /-- The status word as last written, for amendments (R391). -/
  status     : Word
  /-- The cluster whose supervisor's `satp` the record is written under (R406). -/
  home       : Nat
  /-- The completion address was among those that reason 6 refused (R405). -/
  refused    : Bool
  /-- Futures of the launch that are spilled (R152, R160), and which of them have a task (R174). -/
  spilled    : List Word
  spillTasks : List Word
  /-- The report on whose page the completion record is held (R405). -/
  heldOn     : Option (Nat × Nat)
  deriving DecidableEq, Repr, Inhabited

/-- A request that has left for another chip and is not answered (R404). -/
structure Outgoing where
  mark : Mark
  hart : Nat
  task : Word
  /-- What the hart gets when no answer comes within the limit. -/
  timeout : Reply
  deriving DecidableEq, Repr, Inhabited

/-- A translated host address that a die caches: the function, the PASID of a queue's request, and the page (R385). -/
structure AtsEntry where
  die   : Nat
  fn    : Nat
  pasid : Option Nat
  page  : Nat
  deriving DecidableEq, Repr, Inhabited

/-- What has left the package over its links and asks for no reply: a wake for a task of another chip (R161); a beat of
a `cpyx`, under the name it is answered by, with its chip, cluster, stage and offset there (R191); and the answer to one that
came from another chip. -/
inductive Departure
  | wake (task : Word) (how : Wake)
  | beat (from_ : Word) (chip cluster stage off : Nat) (data : BitVec 512)
  | answer (dest : Word) (outcome : BeatOutcome)
  deriving DecidableEq, Repr, Inhabited

/-- Who moves next: the oldest event in flight under this number, or a hart's slot. MODEL (log 3). -/
inductive Turn
  | event (n : Nat)
  | hart (h : Nat)
  deriving DecidableEq, Repr, Inhabited

/-- Memory: cells above which nothing is listed, addresses strictly rising, no cell at its unlisted value. -/
abbrev Memory := List Host.Cell

/-- The state of the package. -/
structure State where
  harts     : Table Hart
  mem       : Memory
  tasks     : Table Task
  futures   : Table Future
  clusters  : Table Cluster
  pairs     : Table Pair
  barriers  : Table Barrier
  mailboxes : Table Mailbox
  parts     : Table Part
  gates     : Table Gate
  rings     : Table Ring
  queues    : Table Queue
  launches  : Table Launch
  /-- The format tables of the contexts, by context number times 32 plus id (R241, R259). -/
  fmts      : Table Word
  /-- How many times each entry has been written: the number of its current version (R259). -/
  fmtVers   : Table Nat
  /-- The last request of each remote task that a gate of this chip applied (R404). -/
  gateMarks : Table MarkRec
  keys      : Table (BitVec 512)
  /-- The 64-byte units of HBM that were last written under a loaded key, with that key (R59, log 24). -/
  unitKeys  : Table (BitVec 512)
  hargs     : Vector Word 8
  hstat     : Word
  /-- The regions whose stores a stage-2 invalidation of the host still waits for (R61, R393). -/
  hwait     : List (Word × BitVec 16 × BitVec 8)
  /-- The queue command interfaces of the VFs (R396): arguments and HSTAT. -/
  vfArgs    : Table (Vector Word 8)
  vfStat    : Table Word
  drops     : Table Word
  msix      : List (Nat × Nat)
  /-- The caches of translated host addresses of the two dies, newest first (R385). -/
  ats       : List AtsEntry
  chip      : BitVec 12
  /-- DEVREADY (R398). -/
  ready     : Word
  profile   : BitVec 4
  ports     : BitVec 18
  outgoing  : List Outgoing
  /-- Traffic that has left the package, oldest first (R161, R191). -/
  departed  : List Departure
  /-- Homes that a restore has mapped to other clusters: chip × 128 + cluster, and the cluster here (R170). -/
  forwards  : List (Nat × Nat)
  /-- Clusters that a migrated partition has left (R371). -/
  former    : List Nat
  /-- The package has lost Mladja-D and stands still until a device reset (R397). -/
  halted    : Bool
  /-- MODEL: a counter that orders allocations, resolutions and arrivals. -/
  serial    : Nat
  /-- MODEL: events in flight, oldest first (log 3). -/
  pending   : List Instr
  /-- MODEL: the schedule; when empty the default policy of `step` holds (log 3). -/
  turns     : List Turn
  /-- MODEL: the hart that acts (log 3). -/
  cur       : Nat
  /-- MODEL: the number of steps taken, the argument of the free cycle and time values (log 6). -/
  clock     : Nat
  /-- MODEL: the argument of the next free value (log 4). -/
  fresh     : Nat
  deriving DecidableEq, Repr, Inhabited

/-- Why the machine stops. -/
inductive Fault
  /-- Raised by `step` after MLADJA_D_LOSS: the package does nothing until it is reset (R397). Safe: the manual stops it. -/
  | packageStopped
  deriving DecidableEq, Repr, Inhabited

/-- Why an instruction is refused. -/
inductive Refusal
  /-- Raised by an arm of `exec` that has no meaning yet. Safe: nothing is claimed of the instruction. -/
  | notModelled (mnemonic : String)
  deriving DecidableEq, Repr, Inhabited

/-! ## Reset -/

/-- Registers at reset, and at the first instruction of a task (R32). Values of x and f: DESIGN CHOICE 0 (log 1). -/
def Ctx.zero : Ctx :=
  { x := Vector.replicate 32 0, f := Vector.replicate 32 0, fcsr := 0, stcol := 0, vrm := 0,
    mfmt := Vector.replicate 4 0, mgang := 0 }

/-- The reset values of R402: 0 wherever the privileged specification leaves the value open. -/
def SysCsrs.zero : SysCsrs :=
  { mstatus := 0, mepc := 0, mcause := 0, mtval := 0, mscratch := 0, mtvec := 0, mie := 0, mip := 0, medeleg := 0,
    mideleg := 0, mcounteren := 0, menvcfg := 0, mcountinhibit := 0, mcycle := 0, minstret := 0, sepc := 0, scause := 0,
    stval := 0, sscratch := 0, stvec := 0, satp := 0, scounteren := 0, senvcfg := 0, pmpcfg := Vector.replicate 8 0,
    pmpaddr := Vector.replicate 64 0 }

/-- A hart after reset: M mode (privileged specification), no task; the pc is log 1. -/
def Hart.zero : Hart :=
  { pc := Config.resetVector, ctx := Ctx.zero, mode := .m, sys := SysCsrs.zero, task := none, freeOnSret := false,
    pfx := none, jumped := false, resv := none, waiting := none, remoteCount := 0, inService := true, stopped := false }

/-- No axis open: the active set holds the one empty tuple (R32, R304). -/
def Lift.zero : Lift :=
  { axes := [], active := 1, stack := [], masks := Vector.replicate 8 { tags := 0, images := [] }, images := [] }

/-- The region state of a task that has run nothing: `rgnst` reads close 3, all else 0 (R124). -/
def Region.zero : Region :=
  { buf := [], log := [], undrained := [], ckpt := { pc := 0, ctx := Ctx.zero, lift := Lift.zero, group := 0 },
    shadows := [], uncopied := [], imgShadow := [], close := 3, rst := 0, rseq := 0 }

def Cluster.zero : Cluster :=
  { stages := [], slots := [], copyQueue := [], channels := [], tlb1 := [], tlb2 := [], part := none, permLocal := 0,
    permRemote := [], spillBase := 0, spillSize := 0, ringBase := 0, ringSize := 0, areaHart := 0, ringHead := 0, ringTail := 0, waiters := [],
    waiterSeq := 0, heldReqs := [], heldRemote := [], figures := 0, reserve := [], reports := [], unread := 0, overwritten := 0,
    scrubBusy := 0, sealedCores := 0, lostCores := 0, lossNote := false, errCore := 0, errinj := 0, gangs := [],
    nextPair := 0, drain := none, marks := [], forecast := 0 }

def Pair.zero : Pair :=
  { tiles := [], ops := [], sems := [], semQ := [], views := [], state := 0, errMpad := false, errTmem := false }

/-- The package right after reset. -/
def State.reset : State :=
  { harts := [], mem := [], tasks := [], futures := [], clusters := [], pairs := [], barriers := [], mailboxes := [],
    parts := [], gates := [], rings := [], queues := [], launches := [], fmts := [], fmtVers := [], gateMarks := [], keys := [], unitKeys := [],
    hargs := Vector.replicate 8 0, hstat := 0, hwait := [], vfArgs := [], vfStat := [], drops := [], msix := [], ats := [], chip := 0, ready := 0, profile := 4,
    ports := 0, outgoing := [], departed := [], forwards := [], former := [], halted := false, serial := 0, pending := [], turns := [], cur := 0,
    clock := 0, fresh := 0 }

end Sys2Proof.Machine
end

