-- ==== Sys2Proof/Machine/Tables.lean ====
section
/-! DEFINITION. Tables of entries under natural-number keys, and memory in its canonical form: addresses rising, and no
cell that holds what an unlisted address reads as. -/

namespace Sys2Proof

/-- The entry under a key. -/
def Table.find {α : Type} : Table α → Nat → Option α
  | [], _ => none
  | (j, v) :: t, k => if j = k then some v else Table.find t k

/-- The entry under a key, or a default. -/
def Table.get {α : Type} (t : Table α) (k : Nat) (d : α) : α := (Table.find t k).getD d

/-- Write an entry, keeping the keys in rising order. -/
def Table.put {α : Type} : Table α → Nat → α → Table α
  | [], k, v => [(k, v)]
  | (j, w) :: t, k, v =>
    if k < j then (k, v) :: (j, w) :: t
    else if k = j then (k, v) :: t
    else (j, w) :: Table.put t k v

/-- Remove the entry under a key. -/
def Table.drop {α : Type} : Table α → Nat → Table α
  | [], _ => []
  | (j, w) :: t, k => if j = k then Table.drop t k else (j, w) :: Table.drop t k

/-- Change every entry. -/
def Table.mapVal {α : Type} (t : Table α) (f : Nat → α → α) : Table α := t.map fun e => (e.1, f e.1 e.2)

namespace Machine

/-- The value of a byte of memory; `d` is what an unlisted address reads as. -/
def cellRead : List Host.Cell → Nat → Byte → Byte
  | [], _, d => d
  | (b, v) :: t, a, d => if b = a then v else cellRead t a d

/-- Write a byte of memory in canonical form: the default value is not listed. -/
def cellWrite : List Host.Cell → Nat → Byte → Byte → List Host.Cell
  | [], a, v, d => if v = d then [] else [(a, v)]
  | (b, w) :: t, a, v, d =>
    if a < b then (if v = d then (b, w) :: t else (a, v) :: (b, w) :: t)
    else if a = b then (if v = d then t else (a, v) :: t)
    else (b, w) :: cellWrite t a v d

/-- Every address of the list lies above `lo`, addresses rise, and no cell holds the default. -/
def cellsAbove (d : Byte) : Nat → List Host.Cell → Bool
  | _, [] => true
  | lo, (b, w) :: t => decide (lo < b + 1) && (w != d) && cellsAbove d (b + 1) t

/-- The canonical form of memory. -/
def cellsWf (m : List Host.Cell) (d : Byte) : Bool := cellsAbove d 0 m

end Machine

end Sys2Proof
end

