-- ==== Sys2Proof/Machine/Ops.lean ====
section
/-! DEFINITION. The named operations over the state: units by number, registers, memory, and taking a trap and
returning from one. -/

namespace Sys2Proof.Machine

/-! ## Positions (R10, R11, R115) -/

def clusterOf (h : Nat) : Nat := h / 64
def coreOf (h : Nat) : Nat := h / 8
def pairOf (h : Nat) : Nat := h / 16
def dieOf (h : Nat) : Nat := h / 4096
def clusterOfPair (p : Nat) : Nat := p / 4
def clusterOfCore (c : Nat) : Nat := c / 8
/-- The meadow of a cluster, numbered over the package. -/
def meadowOf (c : Nat) : Nat := c / 8
/-- Bit 0 of the core number: true on a compute core (R30). -/
def isCompute (h : Nat) : Bool := coreOf h % 2 == 1
/-- The compute core of a pair. -/
def computeCore (p : Nat) : Nat := 2 * p + 1

/-! ## Bit fields -/

def bits (w : Word) (lo len : Nat) : Nat := (w.toNat >>> lo) % 2 ^ len

def setBits (w : Word) (lo len v : Nat) : Word :=
  let m : Nat := (2 ^ len - 1) <<< lo
  (w &&& ~~~(BitVec.ofNat 64 m)) ||| BitVec.ofNat 64 ((v % 2 ^ len) <<< lo)

def wordOf (n : Nat) : Word := BitVec.ofNat 64 n

/-- The little-endian number of a list of bytes (R3). -/
def leNat : List Byte → Nat
  | [] => 0
  | b :: t => b.toNat + 256 * leNat t

/-- The `n` bytes of a number, the lowest address first (R3). -/
def leBytes : Nat → Nat → List Byte
  | 0, _ => []
  | n + 1, v => BitVec.ofNat 8 v :: leBytes n (v / 256)

/-! ## Units -/

def State.hart (s : State) (h : Nat) : Hart := s.harts.get h Hart.zero
def State.setHart (s : State) (h : Nat) (x : Hart) : State := { s with harts := s.harts.put h x }
def State.modHart (s : State) (h : Nat) (f : Hart → Hart) : State := s.setHart h (f (s.hart h))
/-- The hart that acts. -/
def State.me (s : State) : Hart := s.hart s.cur
def State.modMe (s : State) (f : Hart → Hart) : State := s.modHart s.cur f
def State.cluster (s : State) (c : Nat) : Cluster := s.clusters.get c Cluster.zero
def State.setCluster (s : State) (c : Nat) (x : Cluster) : State := { s with clusters := s.clusters.put c x }
def State.modCluster (s : State) (c : Nat) (f : Cluster → Cluster) : State := s.setCluster c (f (s.cluster c))
/-- A flit of the cluster leaves over the links: an armed link detector lets its CRC fail once, which nothing shows, and is
disarmed (R380, R383; log 53). -/
def State.sendFlit (s : State) (c : Nat) : State := s.modCluster c fun k => { k with errinj := setBits k.errinj 7 1 0 }
def State.myCluster (s : State) : Cluster := s.cluster (clusterOf s.cur)
def State.pair (s : State) (p : Nat) : Pair := s.pairs.get p Pair.zero
def State.setPair (s : State) (p : Nat) (x : Pair) : State := { s with pairs := s.pairs.put p x }
def State.modPair (s : State) (p : Nat) (f : Pair → Pair) : State := s.setPair p (f (s.pair p))
def State.task? (s : State) (h : Word) : Option Task := s.tasks.find h.toNat
def State.setTask (s : State) (h : Word) (t : Task) : State := { s with tasks := s.tasks.put h.toNat t }
def State.modTask (s : State) (h : Word) (f : Task → Task) : State :=
  match s.task? h with
  | some t => s.setTask h (f t)
  | none => s
def State.dropTask (s : State) (h : Word) : State := { s with tasks := s.tasks.drop h.toNat }
/-- The task that the hart runs or holds. -/
def State.taskOf (s : State) (h : Nat) : Option Task := (s.hart h).task.bind s.task?
def State.myTask (s : State) : Option Task := s.taskOf s.cur
def State.modTaskOf (s : State) (h : Nat) (f : Task → Task) : State :=
  match (s.hart h).task with
  | some t => s.modTask t f
  | none => s
/-- The partition of a cluster. -/
def State.partOf (s : State) (c : Nat) : Option Nat := (s.cluster c).part
def State.modPart (s : State) (p : Nat) (f : Part → Part) : State :=
  match s.parts.find p with
  | some x => { s with parts := s.parts.put p (f x) }
  | none => s
/-- A new number of the ordering counter. -/
def State.tick (s : State) : State := { s with serial := s.serial + 1 }
/-- Append an event in flight. -/
def State.post (s : State) (i : Instr) : State := { s with pending := s.pending ++ [i] }
/-- Take an event back that has not come. -/
def State.unpost (s : State) (i : Instr) : State := { s with pending := s.pending.filter fun j => j != i }
/-- Use one free value (log 4). -/
def State.useFresh (s : State) : State := { s with fresh := s.fresh + 1 }

/-! ## Registers (R91, R114) -/

/-- x0 reads as zero (R91). -/
def Ctx.xreg (c : Ctx) (r : Reg) : Word := if r = 0 then 0 else c.x[r.toNat]
/-- A write to x0 is discarded (R91). -/
def Ctx.setXreg (c : Ctx) (r : Reg) (v : Word) : Ctx := if r = 0 then c else { c with x := c.x.set r.toNat v }
def Ctx.freg (c : Ctx) (r : Reg) : Word := c.f[r.toNat]
def Ctx.setFreg (c : Ctx) (r : Reg) (v : Word) : Ctx := { c with f := c.f.set r.toNat v }

/-- x[r] of the acting hart. -/
def State.x (s : State) (r : Reg) : Word := s.me.ctx.xreg r
def State.setX (s : State) (r : Reg) (v : Word) : State := s.modMe fun h => { h with ctx := h.ctx.setXreg r v }
def State.setXOf (s : State) (h : Nat) (r : Reg) (v : Word) : State :=
  s.modHart h fun x => { x with ctx := x.ctx.setXreg r v }
def State.f (s : State) (r : Reg) : Word := s.me.ctx.freg r

/-- mstatus.FS (R402). -/
def fsOf (mstatus : Word) : Nat := bits mstatus 13 2
/-- mstatus with FS Dirty, and SD set with it. -/
def fsDirty (mstatus : Word) : Word := setBits (setBits mstatus 13 2 3) 63 1 1

/-- Write an f register; FS becomes Dirty (R402). -/
def State.setF (s : State) (r : Reg) (v : Word) : State :=
  s.modMe fun h => { h with ctx := h.ctx.setFreg r v, sys := { h.sys with mstatus := fsDirty h.sys.mstatus } }

/-- Write fcsr; FS becomes Dirty (R402). -/
def State.setFcsr (s : State) (v : BitVec 8) : State :=
  s.modMe fun h => { h with ctx := { h.ctx with fcsr := v }, sys := { h.sys with mstatus := fsDirty h.sys.mstatus } }

def State.setPc (s : State) (v : Word) : State := s.modMe fun h => { h with pc := v, jumped := false }
/-- A control transfer (R100). -/
def State.jumpTo (s : State) (v : Word) : State := s.modMe fun h => { h with pc := v, jumped := true }

/-! ## Memory (R48, R50, R54, R58, R59): one number space for everything that bytes lie in -/

def vaultBase : Nat := 2 ^ 40
def padBase : Nat := 2 ^ 41
def hostBase : Nat := 2 ^ 100
def hbmSize : Nat := 2 ^ 39
def padSize : Nat := 2 ^ 22
def vaultSize : Nat := 2 ^ 24

def padAddr (cluster off : Nat) : Nat := padBase + cluster * padSize + off
def vaultAddr (vault off : Nat) : Nat := vaultBase + vault * vaultSize + off
/-- A byte of host memory as a function and PASID see it (R385). -/
def hostAddr (fn : Nat) (pasid : Option Nat) (a : Nat) : Nat :=
  hostBase + (fn * 2 ^ 21 + (match pasid with | none => 0 | some p => p + 1)) * 2 ^ 64 + a

/-- The canonical form of the memory of a state. -/
def Memory.wf (m : Memory) : Bool := cellsWf m Config.unwrittenByte

def State.byte (s : State) (a : Nat) : Byte := cellRead s.mem a Config.unwrittenByte
def State.setByte (s : State) (a : Nat) (v : Byte) : State :=
  { s with mem := cellWrite s.mem a v Config.unwrittenByte }

/-- `n` bytes from an address upward. -/
def State.bytes (s : State) (a : Nat) : Nat → List Byte
  | 0 => []
  | n + 1 => s.byte a :: s.bytes (a + 1) n

def State.readNat (s : State) (a n : Nat) : Nat := leNat (s.bytes a n)

/-- Write bytes from an address upward, without further effect. -/
def State.setBytes (s : State) (a : Nat) : List Byte → State
  | [] => s
  | b :: t => (s.setByte a b).setBytes (a + 1) t

/-- Clear the reservations that a write by `agent` to the line of `a` clears (R403). -/
def State.clearResv (s : State) (agent : Option Nat) (line : Nat) : State :=
  { s with harts := s.harts.mapVal fun h x =>
      match x.resv with
      | some r => if r.line = line ∧ some h ≠ agent then { x with resv := none } else x
      | none => x }

/-- The guest-physical address of an access that stage 2 does not translate, above every guest page (log 8). -/
def noGuest : Nat := 2 ^ 57

/-- Record a guest-physical page that a write performs into (R369). -/
def State.markDirty (s : State) (part : Option Nat) (gpa : Nat) : State :=
  match part with
  | none => s
  | some p => s.modPart p fun x =>
      if x.tracking && decide (gpa < noGuest) && !(x.dirty.contains (gpa / 4096)) then { x with dirty := x.dirty ++ [gpa / 4096] } else x

/-! ### Keys (R59) -/

/-- The key of an HBM access: that of the gate whose window holds the address, in whole pages, else the partition's; none while
its slot has not been loaded. -/
def State.keyAt (s : State) (part : Option Nat) (a : Nat) : Option (BitVec 512) :=
  if s.keys.isEmpty then none
  else match s.gates.find? fun e => e.2.present && decide (e.2.base.toNat / 4096 ≤ a / 4096) &&
      decide (a / 4096 < e.2.base.toNat / 4096 + e.2.size.toNat) with
    | some (_, g) => s.keys.find g.key
    | none => (part.bind s.parts.find).bind fun p => s.keys.find p.key

/-- A 64-byte unit of HBM was last written under this key. -/
def State.keyUnit (s : State) (u : Nat) (k : BitVec 512) : State := { s with unitKeys := s.unitKeys.put u k }

/-- A unit of HBM holds this data, written under this key. -/
def State.setUnit (s : State) (u : Nat) (d : BitVec 512) (k : BitVec 512) : State :=
  (s.setBytes (64 * u) (leBytes 64 d.toNat)).keyUnit u k

/-- The unit of the address as data under the key of this access; a unit that no loaded key has written is data under
every key (log 24). -/
def State.rekey (s : State) (part : Option Nat) (a : Nat) : State :=
  if hbmSize ≤ a then s
  else match s.unitKeys.find (a / 64) with
    | none => s
    | some old =>
      let new := (s.keyAt part a).getD 0
      if new = old then s
      else
        s.setUnit (a / 64) (Config.rekeyed old new (a / 64) (BitVec.ofNat 512 (s.readNat (64 * (a / 64)) 64))) new

/-- Note the key that a write uses. -/
def State.noteKey (s : State) (part : Option Nat) (a : Nat) : State :=
  if hbmSize ≤ a then s
  else match s.keyAt part a with
    | none => s
    | some k => s.keyUnit (a / 64) k

/-- The bytes that a read of at most one 64-byte unit returns. -/
def State.readAs (s : State) (part : Option Nat) (a n : Nat) : List Byte := (s.rekey part a).bytes a n

/-- The byte that a read finds at an address. -/
def State.byteAs (s : State) (part : Option Nat) (a : Nat) : Byte := (s.rekey part a).byte a

/-- A write that is performed (R69), of at most one 64-byte unit: the bytes, under the key of the access, and the
reservations it clears. Every write of the package to memory goes through here or through `perform`. -/
def State.write (s : State) (agent part : Option Nat) (a : Nat) (bs : List Byte) : State :=
  (((s.rekey part a).noteKey part a).setBytes a bs).clearResv agent (a / 64)

/-- A write that also marks its guest-physical page dirty (R369). -/
def State.perform (s : State) (agent : Option Nat) (part : Option Nat) (a gpa : Nat) (bs : List Byte) : State :=
  let s := s.write agent part a bs
  if a < hbmSize then s.markDirty part gpa else s

/-! ## Traps (R119, R350) -/

/-- What ends an instruction before its effect. -/
inductive Exc
  /-- A trap with its subcode and stval. -/
  | trap (cause sub : Nat) (tval : Word)
  /-- A trap after an effect that stands: the state it is taken in. -/
  | trapAfter (s : State) (cause sub : Nat) (tval : Word)
  /-- Cause 2 with the faulting word (R98). -/
  | illegal
  /-- Another trap whose stval is the instruction word (R351). -/
  | trapWord (cause sub : Nat)
  /-- A translation fault (R62, R401): stage, whether a permission was denied, access code of R353, addresses. -/
  | xlate (stage : Nat) (denied : Bool) (access : Nat) (va : Word) (gpa : Nat)
  /-- The instruction waits. -/
  | wait (k : WaitKind)
  /-- The instruction waits, and has left its place in this state: an arrival, a queue, a request sent. -/
  | hold (s : State) (k : WaitKind)
  /-- The task ends here (R163, R182). -/
  | ends
  /-- The task ends here, in this state. -/
  | endsAfter (s : State)
  /-- An operand fault is delivered (R232). -/
  | opFault (f : OpFault)
  /-- A hart load met an uncorrectable error, reported by the armed detector of this bit of `errinj` (R380, R383). -/
  | ecc (bit : Nat) (va : Word)
  /-- The region closes automatically first (R43); the instruction is then made again. -/
  | autoClose (code : BitVec 2)
  deriving DecidableEq, Repr, Inhabited

/-- The code that mcause and scause hold (R350). -/
def causeWord (intr : Bool) (code sub : Nat) : Word :=
  wordOf ((if intr then 2 ^ 63 else 0) + sub % 256 * 256 + code % 256)

/-- The address of the handler: the base, or for an interrupt in vectored mode four bytes more for each code. -/
def vectorOf (tvec : Word) (intr : Bool) (code : Nat) : Word :=
  let base := tvec &&& ~~~(3 : Word)
  if intr && bits tvec 0 2 == 1 then base + wordOf (4 * code) else base

/-- Whether a trap taken in this mode goes to S mode (medeleg, mideleg). -/
def delegated (x : Hart) (intr : Bool) (code : Nat) : Bool :=
  x.mode != .m && (if intr then x.sys.mideleg else x.sys.medeleg).getLsbD code

def Mode.code : Mode → Nat
  | .u => 0
  | .s => 1
  | .m => 3

def Mode.ofCode : Nat → Mode
  | 0 => .u
  | 1 => .s
  | _ => .m

/-- A hart taking a trap: pc, cause and value saved, interrupts off, the mode raised, the pc at the handler. The
reservation is cleared (R403) and a prefix or a wait of the hart is gone (R101, R120). -/
def Hart.enterTrap (x : Hart) (intr : Bool) (code sub : Nat) (tval epc : Word) : Hart :=
  let y := { x with resv := none, pfx := none, waiting := none, jumped := true }
  if delegated x intr code then
    let m := x.sys.mstatus
    let m := setBits (setBits (setBits m 5 1 (bits m 1 1)) 1 1 0) 8 1 (if x.mode = .s then 1 else 0)
    { y with mode := .s, pc := vectorOf x.sys.stvec intr code,
             sys := { x.sys with mstatus := m, sepc := epc, scause := causeWord intr code sub, stval := tval } }
  else
    let m := x.sys.mstatus
    let m := setBits (setBits (setBits m 7 1 (bits m 3 1)) 3 1 0) 11 2 x.mode.code
    { y with mode := .m, pc := vectorOf x.sys.mtvec intr code,
             sys := { x.sys with mstatus := m, mepc := epc, mcause := causeWord intr code sub, mtval := tval } }

/-- `sret`: the mode and the interrupt enable come back from the status, and the pc from sepc. -/
def Hart.sret (x : Hart) : Hart :=
  let m := x.sys.mstatus
  let dst := if bits m 8 1 = 1 then Mode.s else Mode.u
  let m := setBits (setBits (setBits m 1 1 (bits m 5 1)) 5 1 1) 8 1 0
  { x with mode := dst, pc := x.sys.sepc, resv := none, jumped := true,
           sys := { x.sys with mstatus := setBits m 17 1 0 } }

/-- `mret`, in the same way from mepc; MPRV is cleared when the mode returned to is less privileged than M. -/
def Hart.mret (x : Hart) : Hart :=
  let m := x.sys.mstatus
  let dst := Mode.ofCode (bits m 11 2)
  let m := setBits (setBits (setBits m 3 1 (bits m 7 1)) 7 1 1) 11 2 0
  let m := if dst = .m then m else setBits m 17 1 0
  { x with mode := dst, pc := x.sys.mepc, resv := none, jumped := true, sys := { x.sys with mstatus := m } }

def State.enterTrap (s : State) (h : Nat) (intr : Bool) (code sub : Nat) (tval epc : Word) : State :=
  s.modHart h fun x => x.enterTrap intr code sub tval epc

/-- The word that a trap of this instruction reports (R98, R351). -/
def wordOfInstr : Instr → Word
  | .illegalInstruction w => w.setWidth 64
  | i => match encode i with
    | some w => w.setWidth 64
    | none => 0

/-- The address a trap or an interrupt saves: that of the prefix when the hart is between the two words (R101). -/
def Hart.epc (x : Hart) : Word := if x.pfx.isSome then x.pc - 4 else x.pc

end Sys2Proof.Machine
end

