-- ==== Sys2Proof/Machine/Translate.lean ====
section
/-! DEFINITION. Where an address leads (R48 to R64, R401): canonical form, alignment, the device windows, the extent
runs, the two levels of TLB and the two-stage walk. A wide access is resolved whole before any byte moves. -/

namespace Sys2Proof.Machine

/-- Kinds of access. -/
inductive Acc | fetch | load | store | rmw
  deriving DecidableEq, Repr, Inhabited

/-- The access code of a report (R353). -/
def Acc.code : Acc → Nat
  | .load => 0
  | .store => 1
  | .fetch => 2
  | .rmw => 3

/-- The access-fault cause (R48, R51). -/
def Acc.faultCause : Acc → Nat
  | .fetch => 1
  | .load => 5
  | .store | .rmw => 7

/-- The misalignment cause (R49). -/
def Acc.alignCause : Acc → Nat
  | .fetch => 0
  | .load => 4
  | .store | .rmw => 6

def Acc.writes : Acc → Bool
  | .store | .rmw => true
  | .fetch | .load => false

/-- The page-fault cause by access code (R62, R401). -/
def pageCause (access : Nat) : Nat := if access = 2 then 12 else if access = 0 then 13 else 15

/-- The context in which an address is translated: of a hart, or of the task for which an engine acts. -/
structure View where
  mode    : Mode
  satp    : Word
  sum     : Bool
  mxr     : Bool
  part    : Option Nat
  cluster : Nat
  core    : Nat
  runs    : List Run
  /-- The PMP registers of the hart whose access it is; none for an engine. -/
  pmp     : Option (Vector Word 8 × Vector Word 64)
  deriving DecidableEq, Repr, Inhabited

/-! ## Physical memory protection (R105: the privileged specification; log 14) -/

def trailingOnes : Nat → Nat → Nat
  | 0, _ => 0
  | n + 1, a => if a % 2 = 1 then trailingOnes n (a / 2) + 1 else 0

/-- The bytes that an entry covers; `prev` is the address of the entry before it. -/
def pmpRange (cfg addr prev : Nat) : Option (Nat × Nat) :=
  match cfg / 8 % 4 with
  | 0 => none
  | 1 => some (4 * prev, 4 * addr)
  | 2 => some (4 * addr, 4 * addr + 4)
  | _ =>
    let n := 2 ^ (trailingOnes 54 addr + 1)
    some (addr / n * n * 4, addr / n * n * 4 + 4 * n)

/-- The entry's R, W and X bits permit the access. -/
def pmpPermits (cfg : Nat) (acc : Acc) : Bool :=
  match acc with
  | .load => cfg % 2 == 1
  | .store => cfg / 2 % 2 == 1
  | .rmw => cfg % 4 == 3
  | .fetch => cfg / 4 % 2 == 1

/-- The lowest-numbered entry that covers a byte of the access decides: it must cover all of it, and its permissions bind S
and U mode, and M mode when it is locked. The entries are numbered from `i`. -/
def pmpFind (cfg : Vector Word 8) (addr : Vector Word 64) (mode : Mode) (acc : Acc) (pa n : Nat) : Nat → List (Fin 64) → Bool
  | _, [] => mode == .m
  | prev, i :: r =>
    let c := bits (cfg.toList.getD (i.val / 8) 0) (8 * (i.val % 8)) 8
    let a := bits addr[i] 0 54
    match pmpRange c a prev with
    | some (lo, hi) =>
      if pa < hi ∧ lo < pa + n then
        decide (lo ≤ pa ∧ pa + n ≤ hi) && ((mode == .m && c / 128 == 0) || pmpPermits c acc)
      else pmpFind cfg addr mode acc pa n a r
    | none => pmpFind cfg addr mode acc pa n a r

/-- The PMP entries of the hart permit an access of `n` bytes. While no entry is on, every access passes (DESIGN CHOICE,
log 14). -/
def View.pmpAllows (v : View) (mode : Mode) (acc : Acc) (pa n : Nat) : Bool :=
  match v.pmp with
  | none => true
  | some (cfg, addr) =>
    (cfg.toList.all fun c => c &&& 0x1818181818181818 == 0) || pmpFind cfg addr mode acc pa n 0 (List.finRange 64)

/-- Where one unit of an access lies. `window` is true in a device window, whose stores are immediate (R41); `free` is
true for a load from a held stage, whose bytes are unspecified (R307). -/
structure Loc where
  pa     : Nat
  gpa    : Nat
  window : Bool
  free   : Bool
  deriving DecidableEq, Repr, Inhabited

/-- Bits 63:57 equal bit 56 (R48). -/
def canonical (a : Word) : Bool := bits a 56 8 == 0 || bits a 56 8 == 255

/-- The range of `len` bytes stays canonical (R48). -/
def canonicalRange (a : Word) (len : Nat) : Bool :=
  canonical a &&
    (if bits a 56 1 = 0 then decide (a.toNat + len ≤ 2 ^ 56) else decide (a.toNat + len ≤ 2 ^ 64))

def windowLo : Nat := 0x7C0000000000
def windowHi : Nat := 0x800000000000
/-- The address lies in the device window region (R50). -/
def inWindows (a : Word) : Bool := decide (windowLo ≤ a.toNat) && decide (a.toNat < windowHi)

/-! ## Stages (R52, R54, R55) -/

def State.stage (s : State) (c n : Nat) : Stage := (s.cluster c).stages.get n default
def State.setStage (s : State) (c n : Nat) (x : Stage) : State :=
  s.modCluster c fun k => { k with stages := k.stages.put n x }
def State.modStage (s : State) (c n : Nat) (f : Stage → Stage) : State := s.setStage c n (f (s.stage c n))

/-- The physical byte of offset `o` of the current half, and of the shadow half. -/
def Stage.current (t : Stage) (c o : Nat) : Nat := padAddr c (t.base + (if t.cur then t.size else 0) + o)
def Stage.shadow (t : Stage) (c o : Nat) : Nat := padAddr c (t.base + (if t.cur then 0 else t.size) + o)

/-- The stage of a cluster that a remote offset falls in (R52). -/
def State.stageAt (s : State) (c o : Nat) : Option (Nat × Stage) :=
  (s.cluster c).stages.find? fun e => e.2.defined && decide (e.2.base ≤ o) && decide (o < e.2.base + e.2.size)

/-- A store to a held stage traps; a load returns unspecified bytes (R307). -/
def stageLoc (t : Stage) (c o : Nat) (acc : Acc) (va : Word) : Except Exc Loc :=
  if t.lifts > 0 ∧ acc.writes then .error (.trap 31 0x09 va)
  else .ok { pa := t.current c o, gpa := 0, window := true, free := decide (t.lifts > 0) }

/-- The scratchpad byte lies in one of the two halves of a held stage (R307). -/
def State.heldByte (s : State) (c o : Nat) : Bool :=
  (s.cluster c).stages.any fun e => e.2.defined && decide (e.2.lifts > 0) && decide (e.2.base ≤ o) &&
    decide (o < e.2.base + 2 * e.2.size)

/-- A window address, one unit of at most 8 bytes (R50, R51). -/
def resolveWindow (s : State) (v : View) (acc : Acc) (va : Word) : Except Exc Loc :=
  let a := va.toNat
  let fault : Except Exc Loc := .error (.trap acc.faultCause 0 va)
  if acc = .fetch then fault
  else if 0x7F4000000000 ≤ a ∧ a < 0x7F4000000000 + 64 * 2 ^ 20 then
    let o := a - 0x7F4000000000
    let t := s.stage v.cluster (o / 2 ^ 20)
    if !t.defined then .error (.trap 31 0x01 va)
    else if o % 2 ^ 20 ≥ t.size then .error (.trap 31 0x02 va)
    else stageLoc t v.cluster (o % 2 ^ 20) acc va
  else if 0x7F0000000000 ≤ a ∧ a < 0x7F0000000000 + padSize then
    if v.mode = .u then fault
    else
      let held := s.heldByte v.cluster (a - 0x7F0000000000)
      if held ∧ acc.writes then .error (.trap 31 0x09 va)
      else .ok { pa := padAddr v.cluster (a - 0x7F0000000000), gpa := 0, window := true, free := held }
  else if 0x7E0000000000 ≤ a ∧ a < 0x7E0000000000 + 128 * padSize then
    let o := a - 0x7E0000000000
    let c := o / padSize
    if c ≠ v.cluster ∧ (s.cluster v.cluster).permLocal.getLsbD c = false then fault
    else match s.stageAt c (o % padSize) with
      | some (_, t) => stageLoc t c (o % padSize - t.base) acc va
      | none => .error (.trap 31 0x03 va)
  else if 0x7C0000000000 ≤ a ∧ a < 0x7C0000000000 + 128 * vaultSize then
    let o := a - 0x7C0000000000
    let assigned := match v.part.bind s.parts.find with
      | some p => p.vaults.getLsbD (o / vaultSize)
      | none => false
    if assigned then .ok { pa := vaultAddr (o / vaultSize) (o % vaultSize), gpa := 0, window := true, free := false }
    else fault
  else fault

/-! ## The walk (R60) -/

/-- A leaf entry reached: the 4 KiB page number it gives for the address, its entry, and where the entry lies: the
physical address, and the address that the tables name it by; `span` is how many 4 KiB pages the leaf covers. -/
structure Leaf where
  ppn   : Nat
  entry : Nat
  at_   : Nat
  named : Nat
  span  : Nat
  deriving DecidableEq, Repr, Inhabited

def pteBit (e n : Nat) : Bool := e / 2 ^ n % 2 == 1

def pteLeaf (e : Nat) : Bool := pteBit e 1 || pteBit e 3

/-- An entry that is no valid entry of the privileged specification: V clear, W without R, or a reserved bit set, among
them U, A and D of an entry that is no leaf. -/
def pteBad (e : Nat) : Bool :=
  !pteBit e 0 || (pteBit e 2 && !pteBit e 1) || e / 2 ^ 54 % 2 ^ 9 != 0 ||
    (!pteLeaf e && (pteBit e 4 || pteBit e 6 || pteBit e 7))

def ptePpn (e : Nat) : Nat := e / 2 ^ 10 % 2 ^ 44

/-- The page number that a leaf at `level` gives for page `vpn`: only 4 KiB, 64 KiB, 2 MiB and 1 GiB leaves are valid. -/
def leafPpn (e level vpn : Nat) : Option Nat :=
  let n := pteBit e 63
  if level = 0 then
    if n then (if ptePpn e % 16 = 8 then some (ptePpn e / 16 * 16 + vpn % 16) else none) else some (ptePpn e)
  else if n ∨ level > 2 then none
  else if ptePpn e % 512 ^ level = 0 then some (ptePpn e + vpn % 512 ^ level) else none

/-- The 4 KiB pages that a valid leaf at `level` covers. -/
def leafSpan (e level : Nat) : Nat := if pteBit e 63 then 16 else 512 ^ level

/-- Walk down from `level`, the levels below it counted by the first argument. `tr` gives the physical address of a
table entry, which is read under the key of `part`. `none` is an invalid entry. -/
def walk (part : Option Nat) (tr : State → Nat → Except Exc (State × Nat)) (vpn : Nat) :
    Nat → State → Nat → Except Exc (State × Option Leaf)
  | 0, s, _ => .ok (s, none)
  | level + 1, s, table => do
    let (s, a) ← tr s (table + 8 * (vpn / 512 ^ level % 512))
    let e := leNat (s.readAs part a 8)
    if pteBad e then .ok (s, none)
    else if pteLeaf e then
      match leafPpn e level vpn with
      | some p => .ok (s, some { ppn := p, entry := e, at_ := a, named := table + 8 * (vpn / 512 ^ level % 512),
                                   span := leafSpan e level })
      | none => .ok (s, none)
    else if pteBit e 63 then .ok (s, none)
    else walk part tr vpn level s (ptePpn e * 4096)

/-- Set A, and D for a write, in the leaf entry (R60), under the key of `part`. For an entry of stage 1 `dirt` is the
partition whose page is written (R369); the tables of stage 2 lie on no guest page. -/
def setAD (s : State) (part dirt : Option Nat) (l : Leaf) (write : Bool) : State :=
  let e1 := if pteBit l.entry 6 then l.entry else l.entry + 64
  let e2 := if write && !pteBit l.entry 7 then e1 + 128 else e1
  if e2 = l.entry then s else (s.write none part l.at_ (leBytes 8 e2)).markDirty dirt l.named

/-- Stage 2 permits the access: U must be 1 (R60). -/
def permits2 (e : Nat) (acc : Acc) : Bool :=
  pteBit e 4 && (match acc with
    | .load => pteBit e 1
    | .fetch => pteBit e 3
    | .store => pteBit e 2
    | .rmw => pteBit e 1 && pteBit e 2)

/-- Stage 1 permits the access in this mode. -/
def permits1 (v : View) (e : Nat) (acc : Acc) : Bool :=
  let u := pteBit e 4
  let modeOk := match v.mode with
    | .u => u
    | _ => !u || (v.sum && acc != .fetch)
  let r := pteBit e 1 || (v.mxr && pteBit e 3)
  modeOk && (match acc with
    | .load => r
    | .fetch => pteBit e 3
    | .store => pteBit e 2
    | .rmw => r && pteBit e 2)

/-- A table entry lies in HBM: one that an address above it names is an access fault (log 8). -/
def tableAt (orig : Acc) (va : Word) (s : State) (a : Nat) : Except Exc (State × Nat) :=
  if a < hbmSize then .ok (s, a) else .error (.trap orig.faultCause 0 va)

/-- Guest-physical to physical: the walk of stage 2 (R60), with the flag bits of the leaf and the 4 KiB pages it covers.
Without a partition the addresses are equal (log 8). The access and the virtual address are those of the access on whose
behalf the walk is made. -/
def stage2 (s : State) (part : Option Nat) (acc orig : Acc) (va : Word) (gpa : Nat) :
    Except Exc (State × Nat × BitVec 8 × Nat) :=
  match part.bind s.parts.find with
  | none => .ok (s, gpa, 0xDF, 1)
  | some p =>
    match walk part (tableAt orig va) (gpa / 4096) 5 s (p.root2.toNat / 4096 * 4096) with
    | .error e => .error e
    | .ok (_, none) => .error (.xlate 2 false orig.code va gpa)
    | .ok (s, some l) =>
      if permits2 l.entry acc then
        .ok (setAD s part none l acc.writes, l.ppn * 4096 + gpa % 4096, BitVec.ofNat 8 l.entry, l.span)
      else .error (.xlate 2 true orig.code va gpa)

/-- A is still to be set in an entry, or D for a write. -/
def adStale (e : Nat) (write : Bool) : Bool := !pteBit e 6 || (write && !pteBit e 7)

/-- Set A and D in a leaf of stage 1: a page-table access, which stage 2 translates as a write (R60). -/
def setAD1 (s : State) (v : View) (acc : Acc) (va : Word) (l : Leaf) : Except Exc State :=
  if adStale l.entry acc.writes then
    match stage2 s v.part .store acc va l.named with
    | .ok (s, pa, _) =>
      if v.pmpAllows .s .store pa 8 then .ok (setAD s v.part v.part l acc.writes) else .error (.trap acc.faultCause 0 va)
    | .error e => .error e
  else .ok s

/-- Stage 1 is on: never in M mode (privileged specification), and otherwise by the mode field of `satp`. -/
def View.paged (v : View) : Bool := v.mode != .m && bits v.satp 60 4 == 10

/-- The physical address of a table entry of stage 1, which stage 2 translates as a read. -/
def tableOf (v : View) (acc : Acc) (va : Word) (s : State) (g : Nat) : Except Exc (State × Nat) :=
  match stage2 s v.part .load acc va g with
  | .error e => .error e
  | .ok (s, pa, _) =>
    if pa < hbmSize ∧ v.pmpAllows .s .load pa 8 then .ok (s, pa) else .error (.trap acc.faultCause 0 va)

/-- Both stages for one page: guest page, physical page, the flag bits of the two leaves, and the pages they cover. -/
def translatePage (s : State) (v : View) (acc : Acc) (va : Word) : Except Exc (State × Tlb) := do
  let tag := match v.part with | some p => p + 1 | none => 0
  let vpn := va.toNat % 2 ^ 57 / 4096
  if v.paged then
    let (s, r) ← walk v.part (tableOf v acc va) vpn 5 s (bits v.satp 0 44 * 4096)
    match r with
    | none => .error (.xlate 1 false acc.code va 0)
    | some l =>
      if permits1 v l.entry acc then
        let s ← setAD1 s v acc va l
        let (s, pa, f2, n2) ← stage2 s v.part acc acc va (l.ppn * 4096 + va.toNat % 4096)
        let f1 := BitVec.ofNat 8 l.entry ||| 0x40 ||| (if acc.writes then 0x80 else 0)
        .ok (s, { vpn := vpn, asid := BitVec.ofNat 16 (bits v.satp 44 16), bare := false, part := tag, gppn := l.ppn,
                  ppn := pa / 4096, f1 := f1, f2 := f2 ||| 0x40 ||| (if acc.writes then 0x80 else 0),
                  span1 := l.span, span2 := n2 })
      else .error (.xlate 1 true acc.code va 0)
  else
    let (s, pa, f2, n2) ← stage2 s v.part acc acc va (va.toNat % 2 ^ 57)
    .ok (s, { vpn := vpn, asid := 0, bare := true, part := tag, gppn := vpn, ppn := pa / 4096, f1 := 0xFF,
              f2 := f2 ||| 0x40 ||| (if acc.writes then 0x80 else 0), span1 := 1, span2 := n2 })

/-! ## The TLBs (R61) -/

/-- The entry serves this access without a walk: it matches, and no D bit is still to be set. -/
def Tlb.serves (t : Tlb) (v : View) (acc : Acc) (vpn : Nat) : Bool :=
  t.vpn == vpn && t.part == (match v.part with | some p => p + 1 | none => 0) &&
    t.bare == !v.paged &&
    (t.bare || t.f1.getLsbD 5 || t.asid == BitVec.ofNat 16 (bits v.satp 44 16)) &&
    (!acc.writes || (t.f1.getLsbD 7 && t.f2.getLsbD 7))

/-- Put an entry first and keep at most `n` (replacement is first in, first out: DESIGN CHOICE, log 9). -/
def tlbFill (l : List Tlb) (t : Tlb) (n : Nat) : List Tlb := (t :: l.erase t).take n

def tlb1Size : Nat := 512
def tlb2Size : Nat := 4096

def State.fillTlbs (s : State) (v : View) (t : Tlb) : State :=
  s.modCluster v.cluster fun k =>
    { k with tlb1 := k.tlb1.put (v.core % 8) (tlbFill (k.tlb1.get (v.core % 8) []) t tlb1Size),
             tlb2 := tlbFill k.tlb2 t tlb2Size }

/-- The translation of one page through the TLBs, then by a walk. Permissions are checked at every use. -/
def lookupPage (s : State) (v : View) (acc : Acc) (va : Word) : Except Exc (State × Tlb) :=
  let vpn := va.toNat % 2 ^ 57 / 4096
  let k := s.cluster v.cluster
  match ((k.tlb1.get (v.core % 8) []) ++ k.tlb2).find? fun t => t.serves v acc vpn with
  | some t =>
    if !t.bare && !permits1 v t.f1.toNat acc then .error (.xlate 1 true acc.code va 0)
    else if v.part.isSome && !permits2 t.f2.toNat acc then
      .error (.xlate 2 true acc.code va (t.gppn * 4096 + va.toNat % 4096))
    else .ok (s.fillTlbs v t, t)
  | none =>
    match translatePage s v acc va with
    | .ok (s, t) => .ok (s.fillTlbs v t, t)
    | .error e => .error e

/-- The run of the extent table that serves an access (R37, R61): only one of an extent that declares the access. An access
of a kind that its extent does not declare goes through the TLBs, which R37 and R61 do not say (DESIGN CHOICE, log 61). -/
def findRun (runs : List Run) (acc : Acc) (va : Word) : Option Run :=
  runs.find? fun r =>
    decide (r.va.toNat ≤ va.toNat) && decide (va.toNat < r.va.toNat + r.len) &&
      (match acc with
        | .fetch => false
        | .load => r.read
        | .store => r.write
        | .rmw => r.read && r.write)

/-- A physical address outside HBM is an access fault (log 8). -/
def hbmLoc (acc : Acc) (va : Word) (pa gpa : Nat) : Except Exc Loc :=
  if pa < hbmSize then .ok { pa := pa, gpa := gpa, window := false, free := false }
  else .error (.trap acc.faultCause 0 va)

/-- The guest-physical address of a byte of a run. -/
def Run.gpa (r : Run) (va : Word) : Nat :=
  r.gpages.getD (va.toNat / 4096 - r.va.toNat / 4096) 0 * 4096 + va.toNat % 4096

/-- One unit of at most 8 bytes that does not cross a multiple of 8. -/
def resolveUnit (s : State) (v : View) (acc : Acc) (va : Word) : Except Exc (State × Loc) :=
  if !canonical va then .error (.trap acc.faultCause 0 va)
  else if inWindows va then (resolveWindow s v acc va).map fun l => (s, l)
  else if v.mode = .m ∧ v.part = none then (hbmLoc acc va va.toNat noGuest).map fun l => (s, l)
  else match (if v.mode = .u then findRun v.runs acc va else none) with
    | some r => (hbmLoc acc va (r.pa + (va.toNat - r.va.toNat)) (r.gpa va)).map fun l => (s, l)
    | none =>
      match lookupPage s v acc va with
      | .ok (s, t) =>
        (hbmLoc acc va (t.ppn * 4096 + va.toNat % 4096) (t.gppn * 4096 + va.toNat % 4096)).map fun l => (s, l)
      | .error e => .error e

/-- The units of a range, each with the bytes it covers: up to the next multiple of 8. -/
def resolveUnits (v : View) (acc : Acc) : Nat → State → Word → Nat → Except Exc (State × List (Loc × Nat))
  | 0, s, _, _ => .ok (s, [])
  | n + 1, s, va, len =>
    if len = 0 then .ok (s, [])
    else
      let k := min len (8 - va.toNat % 8)
      match resolveUnit s v acc va with
      | .error e => .error e
      | .ok (s, l) =>
        if !l.window && !v.pmpAllows v.mode acc l.pa k then .error (.trap acc.faultCause 0 va)
        else match resolveUnits v acc n s (va + wordOf k) (len - k) with
        | .error e => .error e
        | .ok (s, ls) => .ok (s, (l, k) :: ls)

/-- An access of `len` bytes aligned to `align`: non-canonical first, then misaligned, then a range that runs past the
canonical addresses, then windows and translation, and nothing moves unless all of it is permitted (R48, R49, R134). -/
def resolve (s : State) (v : View) (acc : Acc) (va : Word) (len align : Nat) : Except Exc (State × List (Loc × Nat)) :=
  if !canonical va then .error (.trap acc.faultCause 0 va)
  else if va.toNat % align ≠ 0 then .error (.trap acc.alignCause 0 va)
  else if !canonicalRange va len then .error (.trap acc.faultCause 0 va)
  else resolveUnits v acc (len / 8 + 2) s va len

/-! ## Views -/

/-- The view of a hart's own accesses; MPRV gives loads and stores the mode in MPP (privileged specification). -/
def State.viewOf (s : State) (h : Nat) (acc : Acc) : View :=
  let x := s.hart h
  let m := x.sys.mstatus
  let mode := if acc ≠ .fetch ∧ x.mode = .m ∧ bits m 17 1 = 1 then Mode.ofCode (bits m 11 2) else x.mode
  { mode := mode, satp := x.sys.satp, sum := bits m 18 1 == 1, mxr := bits m 19 1 == 1,
    part := s.partOf (clusterOf h), cluster := clusterOf h, core := coreOf h,
    runs := if x.mode = .u then (match s.taskOf h with | some t => t.runs | none => []) else [],
    pmp := some (x.sys.pmpcfg, x.sys.pmpaddr) }

def State.view (s : State) (acc : Acc) : View := s.viewOf s.cur acc

end Sys2Proof.Machine
end

