-- ==== Sys2Proof/Machine/Stages.lean ====
section
/-! DEFINITION. The stage table of a cluster and its arrival words (R54, R55, R158, R193 to R196), and the free command
slots of its copy engine (R188 to R190). -/

namespace Sys2Proof.Machine

/-- Word 0 of a stage-table entry (R54). -/
def Stage.word0 (t : Stage) : Word :=
  wordOf (t.gen.toNat * 2 ^ 48 + t.pins * 2 ^ 40 + (if t.armed then 2 ^ 39 else 0) + (if t.cur then 2 ^ 38 else 0) +
    (if t.defined then 2 ^ 37 else 0) + t.size / 64 * 2 ^ 22 + t.base / 64 * 2 ^ 6)

/-- Word 1 of a stage-table entry (R54). -/
def Stage.word1 (t : Stage) : Word := wordOf (t.count.toNat * 2 ^ 32 + t.target.toNat)

/-! ## Prefetches that wait on a stage (R158) -/

/-- Try again every prefetch of the cluster that waits: for its stage, or for a command slot. -/
def State.retryPrefetches (s : State) (c : Nat) : State :=
  s.tasks.foldl (fun s e =>
    if e.2.cluster = c ∧ e.2.state = .preparing then
      e.2.prefetch.zipIdx.foldl (fun s p => if p.1 = Prefetch.waiting then s.post (.prefetchArm (wordOf e.1) p.2) else s) s
    else s) s

/-- The prefetches of a preparing task that copy into stage `n` have hoisted. -/
def Task.prefetchHoisted (t : Task) (n : Nat) : Task :=
  { t with prefetch := (t.prefetch.zip t.desc.args).map fun e => match e.1 with
      | .copying k => if e.2.stage.toNat = n then .done else .copying k
      | p => p }

def Task.prefetchesInto (t : Task) (c n : Nat) : Bool :=
  t.cluster == c && t.state == .preparing && (t.prefetch.zip t.desc.args).any fun e => match e.1 with
    | .copying _ => e.2.stage.toNat == n
    | _ => false

/-- Mark the arguments that a hoist of stage `n` has published; their tasks may have become ready. -/
def State.prefetchesHoisted (s : State) (c n : Nat) : State :=
  s.tasks.foldl (fun s e =>
    if e.2.prefetchesInto c n then
      { s with tasks := s.tasks.put e.1 (e.2.prefetchHoisted n) }.post (.taskPrepared (wordOf e.1))
    else s) s

/-! ## Hoists and arrivals -/

/-- The step of R194. -/
def Stage.hoist (t : Stage) : Stage :=
  { t with cur := !t.cur, gen := t.gen + 1, count := 0, armed := false, due := false }

/-- A hoist of a stage; one that ends a prefetch hold publishes the argument (R158). -/
def State.hoistStage (s : State) (c n : Nat) : State :=
  let held := (s.stage c n).prefetch
  let s := s.modStage c n fun t => { t.hoist with prefetch := false }
  (if held then s.prefetchesHoisted c n else s).retryPrefetches c

/-- A hoist that is due takes place once no pin is held (R194). -/
def State.hoistIfDue (s : State) (c n : Nat) : State :=
  if (s.stage c n).due ∧ (s.stage c n).pins = 0 then s.hoistStage c n else s

/-- The hoist of an armed stage whose count equals its target falls due (R194). -/
def State.matchStage (s : State) (c n : Nat) : State :=
  let t := s.stage c n
  if t.armed ∧ t.count = t.target then (s.modStage c n fun t => { t with due := true }).hoistIfDue c n else s

/-- Arm a stage (R195). -/
def State.armStage (s : State) (c n : Nat) (target : BitVec 32) : State :=
  (s.modStage c n fun t => { t with target := target, armed := true }).matchStage c n

/-- The arm is cleared without a hoist (R163). -/
def State.disarmStage (s : State) (c n : Nat) : State :=
  (s.modStage c n fun t => { t with armed := false, count := 0, prefetch := false, due := false }).retryPrefetches c

/-- The end of a wait in a queue has come for a hart. -/
def State.answer (s : State) (h : Nat) (r : Reply) : State :=
  s.modHart h fun x => match x.waiting with
    | some w => if w.kind = .queued ∧ w.reply = none then { x with waiting := some { w with reply := some r } } else x
    | none => x

/-- The hoists that wait take place, in the order in which their harts came (R195, R199). -/
def serveHoists (c n : Nat) : List Nat → State → State
  | [], s => s
  | h :: r, s =>
    let s := s.hoistStage c n
    serveHoists c n r (s.answer h (.value ((s.stage c n).gen.setWidth 64)))

/-- Release one pin; at the last, a due hoist takes place, and then those that wait (R81, R195). A stage held for spill takes
no manual hoist (R307). -/
def State.releasePin (s : State) (c n : Nat) : State :=
  let s := (s.modStage c n fun t => { t with pins := t.pins - 1 }).hoistIfDue c n
  let t := s.stage c n
  if t.pins = 0 ∧ t.lifts = 0 then serveHoists c n t.hoisters (s.setStage c n { t with hoisters := [] }) else s

/-- A beat of 64 bytes arrives at a stage (R193, R194, R197): the state with the bytes in the shadow half and counted, or
the fault of its command. -/
def State.arrive (s : State) (c n off : Nat) (bs : List Byte) : Except (Nat × Nat) State :=
  let t := s.stage c n
  if !t.defined then .error (31, 0x01)
  else if off + 64 > t.size then .error (31, 0x02)
  else if t.lifts > 0 then .error (31, 0x09)
  else if t.armed ∧ t.count.toNat + 64 > t.target.toNat then .error (31, 0x04)
  else
    let s := s.perform none none (t.shadow c off) 0 bs
    let s := s.modStage c n fun t => { t with count := BitVec.ofNat 32 (min (t.count.toNat + 64) (2 ^ 32 - 1)) }
    .ok (s.matchStage c n)

/-! ## Command slots -/

def State.slot (s : State) (c n : Nat) : CopySlot := (s.cluster c).slots.get n default
def State.setSlot (s : State) (c n : Nat) (x : CopySlot) : State :=
  s.modCluster c fun k => { k with slots := k.slots.put n x }

/-- A slot may be allocated: it holds no command, or one that is done (R190). -/
def CopySlot.isFree (x : CopySlot) : Bool := x.state == 0 || x.state == 4

def freeSlots (k : Cluster) : List Nat := (List.range 256).filter fun n => (k.slots.get n default).isFree

/-- Take a command out of the queue and off its channel, in this state; an idle channel takes the next command. -/
def State.stopSlot (s : State) (c n : Nat) (state : Nat) : State :=
  let s := s.modCluster c fun k =>
    { k with slots := k.slots.put n { k.slots.get n default with state := state },
             copyQueue := k.copyQueue.filter fun m => m != n, channels := k.channels.filter fun m => m != n }
  s.post (.copyChannelStart c)

/-- Put a slot back among the free ones; its sequence stays (R189). -/
def State.freeSlot (s : State) (c n : Nat) : State :=
  ((s.stopSlot c n 0).setSlot c n { (s.slot c n) with state := 0, done := 0 }).retryPrefetches c

/-- A queued, active or held command. -/
def CopySlot.unfinished (x : CopySlot) : Bool := x.state == 1 || x.state == 2 || x.state == 3

/-- The stage number and the byte offset of a copy word (R212). -/
def copyStage (w : Word) : Nat := bits w 0 6
def copyOff (w : Word) : Nat := bits w 8 14 * 64

/-- The destination of a `cpyx` (R212). -/
def copyDcl (w : Word) : Nat := bits w 45 7
def copyChip (w : Word) : Nat := bits w 52 12

/-- An unfinished command of cluster `c` names stage `n` of cluster `d` as a destination. -/
def CopySlot.fills (x : CopySlot) (c d n : Nat) : Bool :=
  x.unfinished && match x.kind with
    | .cpyin | .gather | .fetch => c == d && copyStage x.word == n
    | .cpyx | .broadcast => x.targets.contains d && copyStage x.word == n
    | .cpyout => false

/-- A stage is busy in the sense of R196. -/
def State.stageBusy (s : State) (d n : Nat) : Bool :=
  let t := s.stage d n
  t.armed || t.prefetch || t.pins != 0 ||
    s.clusters.any fun k => k.2.slots.any fun x => x.2.fills k.1 d n

/-! ## Stages held for spill (R307) -/

/-- Release the holds that a task's open axes have on their spill stages (R307, R314); a prefetch that waits for the stage
may go on (R158). -/
def dropLifts (s : State) (c : Nat) : List Axis → State
  | [] => s
  | a :: r =>
    let s := s.modStage c a.spill fun t => { t with lifts := t.lifts - 1 }
    dropLifts (if (s.stage c a.spill).lifts = 0 then s.retryPrefetches c else s) c r

/-- Take the holds of open axes. -/
def holdLifts (s : State) (c : Nat) : List Axis → State
  | [] => s
  | a :: r => holdLifts (s.modStage c a.spill fun t => { t with lifts := t.lifts + 1 }) c r

end Sys2Proof.Machine
end

