-- ==== Sys2Proof/Machine/Region.lean ====
section
/-! DEFINITION. Regions (R38 to R47, R122 to R124, R127, R128): the store buffer and log, the commit point and the
drain, the checkpoint, the abort, and the loads and stores of a hart. -/

namespace Sys2Proof.Machine

/-- A region is open on the hart: a task runs in U mode (R119). -/
def State.inRegion (s : State) (h : Nat) : Bool := (s.hart h).mode == .u && (s.taskOf h).isSome

/-! ## Tiles of a task (R221, R222, R230) -/

def State.tile (s : State) (p t : Nat) : Tile := (s.pair p).tiles.get t default
def State.setTile (s : State) (p t : Nat) (x : Tile) : State := s.modPair p fun k => { k with tiles := k.tiles.put t x }

/-- Give a physical tile back. -/
def State.freeTile (s : State) (p t : Nat) : State := s.modPair p fun k => { k with tiles := k.tiles.drop t }

/-- The physical tile of m`n` of a task. -/
def Task.phys (t : Task) (n : Nat) : Nat := t.tiles.getD n 0

def freeShadows (s : State) (p : Nat) : List (Nat × Nat) → State
  | [] => s
  | (_, q) :: r => freeShadows (s.freeTile p q) p r

/-- Copy every shadow that was taken back to its tile (R44). -/
def restoreShadows (s : State) (p : Nat) (t : Task) : List (Nat × Nat) → State
  | [] => s
  | (n, q) :: r =>
    let s := if t.region.uncopied.contains n then s
      else s.setTile p (t.phys n) { s.tile p q with owner := (s.tile p (t.phys n)).owner }
    restoreShadows s p t r

def releasePins (s : State) (c : Nat) : List Nat → State
  | [] => s
  | n :: r => releasePins (s.releasePin c n) c r

/-- Take the arrival of an operation back: a gang whose rows have not begun to stream waits again, and one without arrivals
is gone, but for one that still awaits members to discard (R236). -/
def withdraw (id : Nat) (gs : List Gang) : List Gang :=
  let gs := gs.map fun g =>
    if (g.arrivals.any fun a => a.2 == id) then
      { g with arrivals := g.arrivals.filter fun a => a.2 != id, started := g.started && g.rows.isSome,
               lead := if g.rows.isSome then g.lead else none }
    else g
  gs.filter fun g => !g.arrivals.isEmpty || g.bad

/-- Let every gang of a cluster with an operation in its engines meet again. -/
def State.retryGangs (s : State) (c : Nat) : State :=
  ((List.range 4).flatMap fun i => (s.pair (c * 4 + i)).ops).foldl
    (fun s o => if o.kind = .mmag then s.post (.gangRendezvous c (o.gang.extractLsb' 10 8).toNat) else s) s

def freeTiles (s : State) (p : Nat) : List Nat → State
  | [] => s
  | t :: r => freeTiles (s.freeTile p t) p r

/-- The tiles of a task that ended are free, and with them its hold on spill stages, once its last operation has completed
(R163). -/
def State.leaveTiles (s : State) (h : Word) : State :=
  match s.task? h with
  | none => s
  | some t => match t.state, t.pair with
    | .stopping, some p =>
      if (s.pair p).ops.any fun o => o.task == h then s
      else (dropLifts (freeTiles s p t.tiles) t.cluster t.lift.axes).dropTask h
    | _, _ => s

/-- Take an operation out of its engine: pins and operation shadow freed, its arrival at a gang withdrawn (R236, R238);
what waits for it may start. -/
def State.removeOp (s : State) (p : Nat) (o : Op) : State :=
  let s := s.modPair p fun k => { k with ops := k.ops.filter fun q => q.id != o.id }
  let s := match o.shadow with | some q => s.freeTile p q | none => s
  let s := s.modCluster (clusterOfPair p) fun k => { k with gangs := withdraw o.id k.gangs }
  let s := releasePins s (clusterOfPair p) o.pins
  ((if o.kind = .mmag then s.retryGangs (clusterOfPair p) else s).post (.tileOpStart p)).leaveTiles o.task

def removeOps (s : State) (p : Nat) : List Op → State
  | [] => s
  | o :: r => removeOps (s.removeOp p o) p r

/-! ## The commit point (R42, R79) -/

/-- Perform committed entries in program order. A release fence orders what the program order already orders. -/
def drain (s : State) (h : Nat) : List Entry → State
  | [] => s
  | .store size _ _ data pa gpa :: r =>
    drain (s.perform (some h) (s.partOf (clusterOf h)) pa gpa (leBytes size data.toNat)) h r
  | .release _ :: r => drain s h r

/-- All committed stores of the task on the hart are performed (STORE_DRAIN_DONE). -/
def State.drainTask (s : State) (h : Nat) : State :=
  match s.taskOf h with
  | none => s
  | some t =>
    (drain s h t.region.undrained).modTaskOf h fun t => { t with region := { t.region with undrained := [] } }

/-- The region shadows of the hart's task are freed. -/
def State.dropShadows (s : State) (h : Nat) : State :=
  match s.taskOf h with
  | some t => match t.pair with | some p => freeShadows s p t.region.shadows | none => s
  | none => s

/-- The checkpoint of the region that opens at `pc` (R40): the tiles as the effect of the closing instruction left them, so no
shadow of that effect stays. -/
def State.checkpoint (s : State) (h : Nat) (pc : Word) : State :=
  (s.dropShadows h).modTaskOf h fun t =>
    { t with region := { t.region with ckpt := { pc := pc, ctx := (s.hart h).ctx, lift := t.lift, group := t.group },
                                       shadows := [], uncopied := [], imgShadow := [] } }

/-- Commit the open region: its stores can no longer be undone, its shadows are freed, and the region state counts the
commit point (R42, R124). -/
def State.commit (s : State) (h : Nat) (code : BitVec 2) : State :=
  (s.dropShadows h).modTaskOf h fun t => { t with eccAt := [], region :=
    { t.region with undrained := t.region.undrained ++ t.region.buf ++ t.region.log, buf := [], log := [],
                    shadows := [], uncopied := [], imgShadow := [], close := code, rst := 0,
                    rseq := t.region.rseq + 1 } }

/-- Close the open region of a hart and open the next at `pc`: commit, drain, checkpoint (R38, R43). A close clears the
reservation except where `sc` closes (R403). Without an open region nothing happens (R127). -/
def State.closeRegion (s : State) (h : Nat) (code : BitVec 2) (pc : Word) (keepResv : Bool) : State :=
  if s.inRegion h then
    let s := ((s.commit h code).drainTask h).checkpoint h pc
    if keepResv then s else s.modHart h fun x => { x with resv := none }
  else s

/-! ## The abort (R44) -/

/-- Groups closed in the region that aborts are discarded. -/
def keepGroups (t : Task) : List (BitVec 16) :=
  t.openGroups.filter fun g => decide ((t.group - t.region.ckpt.group).toNat ≤ (g - t.region.ckpt.group).toNat)

/-- The stages that hold spill for the open axes of a task, as they become those of its checkpoint. -/
def State.rewindLifts (s : State) (t : Task) : State :=
  dropLifts (holdLifts s t.cluster t.region.ckpt.lift.axes) t.cluster t.lift.axes

/-- The registers that a task goes on with at its restart point when no region is open (R121): the axis state and the group
counter of its last commit point. -/
def State.rewind (s : State) (h : Word) : State :=
  match s.task? h with
  | none => s
  | some t => (s.rewindLifts t).setTask h { t with lift := t.region.ckpt.lift, group := t.region.ckpt.group }

/-- Abort the open region of a task: shadowed tiles back, stores dropped, incomplete operations of the region discarded,
the registers and the axis state those of the checkpoint. -/
def State.abortTask (s : State) (h : Word) : State :=
  match s.task? h with
  | none => s
  | some t =>
    let s := match t.pair with
      | none => s
      | some p =>
        let s := removeOps s p ((s.pair p).ops.filter fun o => o.task == h && o.region == t.region.rseq)
        freeShadows (restoreShadows s p t t.region.shadows) p t.region.shadows
    (s.rewindLifts t).setTask h { t with
      resume := none, opFaults := t.opFaults.filter fun f => f.region != t.region.rseq,
      lift := t.region.ckpt.lift, group := t.region.ckpt.group, openGroups := keepGroups t,
      region := { t.region with buf := [], log := [], shadows := [], uncopied := [], imgShadow := [],
                                rst := if t.region.rst = 255 then 255 else t.region.rst + 1 } }

/-- Free a hart: no task, U mode, and nothing of an instruction left. The S-mode and M-mode CSRs stay (R402). -/
def State.freeHart (s : State) (h : Nat) : State :=
  s.modHart h fun x =>
    { x with mode := .u, task := none, freeOnSret := false, pfx := none, resv := none, waiting := none, jumped := false }

/-! ## The store log (R122, R123) -/

def runsLen : List Run → Nat
  | [] => 0
  | r :: t => r.len + runsLen t

/-- The physical address of a byte of the log. -/
def logPa : List Run → Nat → Nat
  | [], _ => 0
  | r :: t, o => if o < r.len then r.pa + o else logPa t (o - r.len)

def log2Size (n : Nat) : Nat := if n = 1 then 0 else if n = 2 then 1 else if n = 4 then 2 else 3

/-- The two words of a log record. -/
def Entry.record : Entry → Nat × Nat
  | .store size colour addr data _ _ => (log2Size size * 2 ^ 60 + colour.toNat * 2 ^ 57 + addr.toNat % 2 ^ 57, data.toNat)
  | .release mask => (2 ^ 62, mask.toNat)

/-- Put an entry into the buffer, or into the log when the buffer is full, or ask for the automatic close (R43, R122). -/
def State.appendEntry (s : State) (h : Nat) (e : Entry) : Except Exc State :=
  match s.taskOf h with
  | none => .ok s
  | some t =>
    if t.region.buf.length < 512 then
      .ok (s.modTaskOf h fun t => { t with region := { t.region with buf := t.region.buf ++ [e] } })
    else if (t.region.log.length + 1) * 16 ≤ runsLen t.logRuns then
      let a := logPa t.logRuns (t.region.log.length * 16)
      let s := s.write none (s.partOf (clusterOf h)) a (leBytes 8 e.record.1 ++ leBytes 8 e.record.2)
      .ok (s.modTaskOf h fun t => { t with region := { t.region with log := t.region.log ++ [e] } })
    else .error (.autoClose 1)

/-! ## Loads and stores of a hart (R41, R76, R122) -/

/-- The byte that a store entry of the region gives a byte of HBM (R65: whatever address named it). -/
def Entry.byteAt (a : Nat) : Entry → Option Byte
  | .store size _ _ data pa _ =>
    if pa ≤ a ∧ a < pa + size then some (BitVec.ofNat 8 (data.toNat >>> (8 * (a - pa)))) else none
  | .release _ => none

/-- The youngest entry that holds the byte, the list running from the oldest. -/
def youngest (a : Nat) : List Entry → Option Byte
  | [] => none
  | e :: t => match youngest a t with
    | some b => some b
    | none => e.byteAt a

/-- The stores of the hart's open region, oldest first. -/
def State.buffered (s : State) (h : Nat) : List Entry :=
  if s.inRegion h then
    match s.taskOf h with
    | some t => t.region.undrained ++ t.region.buf ++ t.region.log
    | none => []
  else []

/-- The bytes of one unit as memory holds them, or unspecified ones (R307, log 4). -/
def unitBytes (s : State) (part : Option Nat) (l : Loc) (n : Nat) : List Byte :=
  if l.free then (List.range n).map fun i => Config.freeByte (s.fresh * 256 + i) else s.readAs part l.pa n

/-- The bytes of resolved units, with the hart's own buffered stores in front of memory for global ones. -/
def loadUnits (s : State) (part : Option Nat) (es : List Entry) : List (Loc × Nat) → List Byte
  | [] => []
  | (l, n) :: r =>
    let m := unitBytes s part l n
    let bs := if l.window then m else (m.zipIdx).map fun e => (youngest (l.pa + e.2) es).getD e.1
    bs ++ loadUnits s part es r

/-! ## Verdicts (R153, R377) -/

def State.modLaunch (s : State) (l : Nat) (f : Launch → Launch) : State :=
  match s.launches.find l with
  | some x => { s with launches := s.launches.put l (f x) }
  | none => s

/-- A use of a pair by a launch (R376). -/
def State.useBy (s : State) (l p : Nat) : State :=
  s.modLaunch l fun x => if x.uses.contains p then x else { x with uses := x.uses ++ [p] }

/-- Raise a task's verdict; a corrected task makes its launch corrected (R376). -/
def State.raiseVerdict (s : State) (h : Word) (v : Nat) : State :=
  match s.task? h with
  | none => s
  | some t =>
    if t.verdict.toNat < v then
      (s.setTask h { t with verdict := BitVec.ofNat 2 v }).modLaunch t.launch fun l => { l with corrected := true }
    else s

/-- A task becomes corrected (R377), and with it its launch (R376). -/
def State.correct (s : State) (h : Word) : State := s.raiseVerdict h 1

/-! ### Detectors (R380, R383) -/

/-- The bit of `errinj` whose detector checks a read of this place by a hart of the cluster. -/
def detectorBit (cluster : Nat) (va : Word) (l : Loc) : Option Nat :=
  if !l.window then some 4
  else if vaultBase ≤ l.pa ∧ l.pa < padBase then some 3
  else if l.pa / padSize = padBase / padSize + cluster ∧ 0x7F0000000000 ≤ va.toNat then some 2
  else none

/-- One read consumes at most one armed detector: a corrected error makes the task corrected, an uncorrectable one ends
the read. -/
def State.detect (s : State) (h : Nat) (va : Word) (ls : List (Loc × Nat)) : Except Exc State :=
  match ls.head?.bind fun e => detectorBit (clusterOf h) va e.1 with
  | none => .ok s
  | some b =>
    let k := s.cluster (clusterOf h)
    if k.errinj.getLsbD b then
      if k.errinj.getLsbD 8 then
        let s := s.setCluster (clusterOf h) { k with errinj := k.errinj &&& ~~~(wordOf (2 ^ b)) }
        .ok (match (s.hart h).task with | some t => s.correct t | none => s)
      else .error (.ecc b va)
    else .ok s

/-- A load of `len` bytes by a hart. All units of a wide load are read in one step: R66 makes no unit larger than 8 bytes
atomic, and the model's order of writes puts none between the units (DESIGN CHOICE, log 62). -/
def State.loadOf (s : State) (h : Nat) (va : Word) (len align : Nat) : Except Exc (State × List Byte) := do
  let (s, ls) ← resolve s (s.viewOf h .load) .load va len align
  let s ← s.detect h va ls
  let bs := loadUnits s (s.partOf (clusterOf h)) (s.buffered h) ls
  pure (if ls.any fun e => e.1.free then s.useFresh else s, bs)

def State.load (s : State) (va : Word) (len align : Nat) : Except Exc (State × List Byte) := s.loadOf s.cur va len align

/-- One unit of a store: at once through a window or with no region open, else into the buffer. -/
def storeUnit (s : State) (h : Nat) (va : Word) (l : Loc) (bs : List Byte) : Except Exc State :=
  if l.window ∨ s.inRegion h = false then
    .ok (s.perform (some h) (s.partOf (clusterOf h)) l.pa l.gpa bs)
  else s.appendEntry h (.store bs.length (s.hart h).ctx.stcol va (wordOf (leNat bs)) l.pa l.gpa)

def storeUnits (s : State) (h : Nat) (va : Word) : List (Loc × Nat) → List Byte → Except Exc State
  | [], _ => .ok s
  | (l, n) :: r, bs => do
    let s ← storeUnit s h va l (bs.take n)
    storeUnits s h (va + wordOf n) r (bs.drop n)

/-- A store by a hart. -/
def State.store (s : State) (va : Word) (bs : List Byte) (align : Nat) : Except Exc State := do
  let (s, ls) ← resolve s (s.view .store) .store va bs.length align
  storeUnits s s.cur va ls bs

/-- Perform bytes at resolved units at once: the writes of instructions that act after their region has closed. -/
def performUnits (s : State) (agent : Option Nat) (part : Option Nat) : List (Loc × Nat) → List Byte → State
  | [], _ => s
  | (l, n) :: r, bs => performUnits (s.perform agent part l.pa l.gpa (bs.take n)) agent part r (bs.drop n)

/-- Bytes that the device itself writes at resolved units, which R369 does not record. -/
def writeUnits (s : State) (part : Option Nat) : List (Loc × Nat) → List Byte → State
  | [], _ => s
  | (l, n) :: r, bs => writeUnits (s.write none part l.pa (bs.take n)) part r (bs.drop n)

/-- The read and the write of one location as one indivisible step (R74): `f` gives the new bytes from the old. -/
def State.rmw (s : State) (va : Word) (len : Nat) (f : List Byte → List Byte) : Except Exc (State × List Byte) := do
  let (s, ls) ← resolve s (s.view .rmw) .rmw va len len
  let s ← s.detect s.cur va ls
  let old := loadUnits s (s.partOf (clusterOf s.cur)) (s.buffered s.cur) ls
  pure (performUnits s (some s.cur) (s.partOf (clusterOf s.cur)) ls (f old), old)

/-! ## Scopes (R27, R63, R64) -/

/-- The launch scope of the hart's task; without a task no launch lowers a scope. -/
def State.launchScope (s : State) (h : Nat) : Nat :=
  match s.taskOf h with
  | none => 6
  | some t => match s.launches.find t.launch with
    | none => 6
    | some l => (l.record.getD 0x20 0).toNat / 8 % 8

/-- A scope code clamped to the launch scope and then to partition (R127). -/
def State.clampScopeOf (s : State) (h scope : Nat) : Nat := min (min scope (s.launchScope h)) 6
def State.clampScope (s : State) (scope : Nat) : Nat := s.clampScopeOf s.cur scope

/-- Count an execution that names scope 7 (R64); the counter saturates. -/
def State.countClamp (s : State) (scope : Nat) : State :=
  if scope = 7 then
    match s.partOf (clusterOf s.cur) with
    | none => s
    | some p => s.modPart p fun x => { x with clamps := if x.clamps = -1 then x.clamps else x.clamps + 1 }
  else s

end Sys2Proof.Machine
end

