-- ==== Sys2Proof/Machine/Reports.lean ====
section
/-! DEFINITION. Fault reports and their rings (R353 to R356), and the supervisor's memory. -/

namespace Sys2Proof.Machine

/-- The rings: 0 terminal, 1 retryable, 2 + f the ring of function f (R354, R394). -/
def ringTerminal : Nat := 0
def ringRetryable : Nat := 1
def ringOfFn (f : Nat) : Nat := 2 + f

/-- A ring that the host has not set: the weights are 8, 4 and 1 (R355). -/
def Ring.zero (r : Nat) : Ring :=
  { base := 0, weight := if r = 0 then 8 else if r = 1 then 4 else 1, used := 0, next := 1, held := [], posted := [] }

def State.ring (s : State) (r : Nat) : Ring := s.rings.get r (Ring.zero r)

/-- The position of a hart as `hartloc` gives it (R115). -/
def hartloc (chip : BitVec 12) (h : Nat) : Word := wordOf (chip.toNat * 2 ^ 13 + h)

/-- A report from a hart or an engine of a cluster, not yet numbered (R353). -/
def mkReport (s : State) (source cause sub : Nat) (cluster : Nat) (task : Word) : Report :=
  { seq := 0, source := source, cause := cause, sub := sub, stage := 0, access := 0,
    part := (s.partOf cluster).getD 0, origin := cluster, va := 0, gpa := 0, task := task, info := 0,
    time := Config.timeAt s.clock, loc := 0 }

/-- Detect a fault: the report takes the next sequence of its ring and waits there to be posted (R353, R355). The
context engine copies the terminal reports that concern a task of the cluster, at most 32 (R356). Answers the sequence. -/
def State.report (s : State) (r : Nat) (x : Report) : State × Nat :=
  let k := s.ring r
  let x := { x with seq := k.next }
  let s := { s with rings := s.rings.put r { k with next := k.next + 1, held := k.held ++ [x] } }
  let s := if r = ringTerminal ∧ x.task ≠ 0 then
    s.modCluster x.origin fun c =>
      if c.reports.length < 32 then { c with reports := c.reports ++ [x], unread := c.unread + 1 }
      else { c with reports := c.reports.drop 1 ++ [x],
                    overwritten := if c.unread ≥ 32 then c.overwritten + 1 else c.overwritten,
                    unread := if c.unread ≥ 32 then 32 else c.unread + 1 }
    else s
  (s.post (.reportPost r), k.next)

/-- The die of the cluster holds 512 reports for the ring that are not posted: a further fault of that ring holds the work
that meets it, which is tried again (R355; log 44). -/
def State.ringFull (s : State) (r cluster : Nat) : Bool :=
  decide (((s.ring r).held.filter fun x => x.origin / 64 == cluster / 64).length ≥ 512)

/-- The ring of a page that is not present: retryable for stage 2, the ring of the partition's function for stage 1
(R62, R354). -/
def pageRing (s : State) (cluster stage : Nat) : Nat :=
  if stage = 2 then ringRetryable
  else match (s.partOf cluster).bind s.parts.find with
    | some p => ringOfFn p.fn
    | none => ringOfFn 0

/-- The report of a translation fault (R62, R353). -/
def xlateReport (s : State) (source cluster : Nat) (task : Word) (stage access : Nat) (va : Word) (gpa : Nat) : Report :=
  { mkReport s source (pageCause access) stage cluster task with
    stage := stage, access := access, va := va, gpa := wordOf gpa }

/-! ## Stopped partitions (R358 to R360) -/

/-- The partition is stopped: nothing of it moves until it is resumed or restored. -/
def Part.isStopped (p : Part) : Bool := p.state ≥ 2 && p.state ≤ 7

/-- The cluster belongs to a partition that is stopped, or whose engines quiesce. -/
def State.still (s : State) (c : Nat) : Bool :=
  match (s.partOf c).bind s.parts.find with
  | some p => p.isStopped || p.stopStep ≥ 3
  | none => false

/-- The cluster belongs to a partition in any step of a stop: its task engine prepares and dispatches nothing, and its open
prefetches quiesce (R166, R358). -/
def State.halting (s : State) (c : Nat) : Bool :=
  match (s.partOf c).bind s.parts.find with
  | some p => p.isStopped || p.stopStep ≥ 1
  | none => false

/-- Traffic of another chip for the cluster is refused with a "stopped" reply (R360). -/
def State.refuses (s : State) (c : Nat) : Bool :=
  match (s.partOf c).bind s.parts.find with
  | some p => p.isStopped
  | none => false

/-! ## Memory of the supervisor (R159) -/

/-- The view of a cluster's supervisor: S mode under the `satp` of the hart that gave the areas. -/
def State.superView (s : State) (c : Nat) : View :=
  { mode := .s, satp := (s.hart (s.cluster c).areaHart).sys.satp, sum := true, mxr := false, part := s.partOf c,
    cluster := c, core := coreOf (s.cluster c).areaHart, runs := [], pmp := none }

/-- Read bytes under a view, or nothing where a byte is refused. -/
def State.peek (s : State) (v : View) (va : Word) (n : Nat) : Option (List Byte) :=
  match resolve s v .load va n 1 with
  | .ok (s, ls) => some (loadUnits s v.part [] ls)
  | .error _ => none

/-- Write bytes under a view where the whole range may be written. -/
def State.pokeVia (s : State) (v : View) (va : Word) (bs : List Byte) : Option State :=
  match resolve s v .store va bs.length 1 with
  | .ok (s, ls) => some (writeUnits s v.part ls bs)
  | .error _ => none

/-! ## The supervisor hart (R118, R381) -/

/-- Hart 0 of the lowest-numbered core of the cluster in service. -/
def State.superHart (s : State) (c : Nat) : Nat :=
  match (List.range 8).find? fun k => !(s.cluster c).lostCores.getLsbD k &&
      (s.pairs.get (c * 4 + k / 2) Pair.zero).state == 0 with
  | some k => c * 64 + k * 8
  | none => c * 64

end Sys2Proof.Machine
end

