-- ==== Sys2Proof/Machine/Verdicts.lean ====
section
/-! DEFINITION. Verdicts of tasks and launches and their sources (R376 to R379), and the completion record with its
amendments (R391, R405, R406). -/

namespace Sys2Proof.Machine

/-! ## Verdicts (R376, R378) -/

/-- The verdict of a launch (R376). -/
def Launch.verdict (l : Launch) : Nat :=
  if l.tainted then 3 else if !l.uses.isEmpty then 2 else if l.corrected then 1 else 0

/-- The verdict a task reads and a future reports: raised to tainted with its launch (R377). -/
def State.seenVerdict (s : State) (launch v : Nat) : Nat :=
  match s.launches.find launch with
  | some l => if l.tainted then 3 else v
  | none => v

/-- The launch has a source that is tainted (R378). -/
def State.sourceTainted (s : State) (l : Launch) : Bool :=
  s.launches.any fun e =>
    e.2.tainted && (l.sources.contains e.1 || (l.anySource && e.2.part == l.part))

/-- Taint passes on until nothing changes; each round taints one launch more, so as many rounds as launches suffice. A
verdict that has been final stays (R376). -/
def spreadTaint : Nat → State → State
  | 0, s => s
  | n + 1, s =>
    match s.launches.find? fun e => !e.2.tainted && !e.2.final && s.sourceTainted e.2 with
    | some e => spreadTaint n (s.modLaunch e.1 fun l => { l with tainted := true })
    | none => s

/-- A launch that this one depends on in the launch graph is tainted. -/
def State.prereqTainted (s : State) (l : Launch) : Bool :=
  l.prereqs.any fun p => (p.launch.bind s.launches.find).any fun x => x.tainted

/-- Every launch that waits on a tainted one is held until the host releases or discards it (R379, R388). -/
def State.holdTainted (s : State) : State :=
  { s with launches := s.launches.mapVal fun _ l =>
      if l.state = .waiting ∧ !l.released ∧ s.prereqTainted l then { l with state := .held } else l }

def State.spread (s : State) : State := (spreadTaint s.launches.length s).holdTainted

/-! ## Finality (R376) -/

def Launch.isPosted (l : Launch) : Bool :=
  match l.state with
  | .posted _ _ _ => true
  | _ => false

/-- Final, given the launches known to be final. -/
def State.finalGiven (s : State) (known : List Nat) (k : Nat) (l : Launch) : Bool :=
  l.tainted || l.final || (l.isPosted && l.uses.isEmpty && l.sources.all known.contains &&
    (!l.anySource || s.launches.all fun e => e.1 == k || e.2.part != l.part || known.contains e.1))

/-- Grow the set of final launches; each round adds those whose sources are in it. -/
def State.finals (s : State) : Nat → List Nat
  | 0 => []
  | n + 1 =>
    let known := s.finals n
    (s.launches.filter fun e => s.finalGiven known e.1 e.2).map fun e => e.1

def State.isFinal (s : State) (l : Nat) : Bool := (s.finals (s.launches.length + 1)).contains l

/-- Keep in mind which verdicts are final. -/
def State.settleVerdicts (s : State) : State :=
  { s with launches := s.launches.mapVal fun k l => if s.isFinal k then { l with final := true } else l }

/-! ## The completion record (R391, R405, R406) -/

/-- The view under which a launch's record is written: a U-mode access under the `satp` that R406 names. -/
def State.launchView (s : State) (home : Nat) (part : Nat) : View :=
  { mode := .u, satp := (s.hart (s.superHart home)).sys.satp, sum := false, mxr := false,
    part := if (s.parts.find part).isSome then some part else none, cluster := home, core := coreOf (s.superHart home),
    runs := [], pmp := none }

def Launch.completion (l : Launch) : Word := wordOf (leNat ((l.record.drop 0x18).take 8))
def Launch.interrupts (l : Launch) : Bool := (l.record.getD 4 0).toNat / 2 % 2 == 1

/-- The status word of R391. -/
def statusWord (amend : Nat) (final : Bool) (verdict reason status : Nat) : Word :=
  wordOf (min amend 65535 * 2 ^ 48 + (if final then 2 ^ 18 else 0) + verdict * 2 ^ 16 + reason * 2 ^ 8 + status)

/-- Signal the queue's vector when the completion interrupt flag is set (R391). -/
def State.signal (s : State) (l : Launch) : State :=
  if l.interrupts then { s with msix := s.msix ++ [(l.fn, l.vector)] } else s

/-- Rewrite the status word of a posted launch whose verdict or finality has changed (R379). -/
def State.amendOne (s : State) (k : Nat) (l : Launch) : State :=
  match l.state with
  | .posted status reason true =>
    let w := statusWord (bits l.status 48 16 + 1) (s.isFinal k) l.verdict reason status
    if w.toNat % 2 ^ 48 = l.status.toNat % 2 ^ 48 then s
    else match resolve s (s.launchView l.home l.part) .store l.completion 8 8 with
      | .ok (s, ls) =>
        let s := writeUnits s (some l.part) ls (leBytes 8 w.toNat)
        (s.modLaunch k fun l => { l with status := w }).signal l
      | .error _ => s
  | _ => s

def amendEach : List (Nat × Launch) → State → State
  | [], s => s
  | (k, l) :: r, s => amendEach r (s.amendOne k l)

/-- Every posted launch whose verdict has changed is amended. -/
def State.amend (s : State) : State := amendEach s.launches s.settleVerdicts

/-! ## Source sets (R378) -/

/-- Add a launch to the source set of another (R378); a 33rd entry makes it every launch of the partition. -/
def State.addSource (s : State) (l src : Nat) : State :=
  if l = src then s
  else State.spread <| s.modLaunch l fun x =>
    if x.anySource || x.sources.contains src then x
    else if x.sources.length ≥ 32 then { x with anySource := true }
    else { x with sources := x.sources ++ [src] }

end Sys2Proof.Machine
end

