-- ==== Sys2Proof/Machine/Futures.lean ====
section
/-! DEFINITION. Futures at their home (R147 to R166, R171 to R174): handles, status words, the spill region, waiter
records and wakes, and the end of tasks and launches. -/

namespace Sys2Proof.Machine

/-! ## Handles (R147) -/

/-- One bit of the CRC-8 with polynomial 0x07. -/
def crc8Bits : Nat → Nat → Nat
  | 0, c => c
  | n + 1, c => crc8Bits n (if c / 128 % 2 = 1 then Nat.xor (c * 2 % 256) 7 else c * 2 % 256)

/-- CRC-8 of bytes, the first byte first; initial value 0. -/
def crc8 : Nat → List Nat → Nat
  | c, [] => c
  | c, b :: t => crc8 (crc8Bits 8 (Nat.xor c b)) t

/-- The CRC of bits 63:8 of a handle, most significant byte first. -/
def handleCrc (h : Word) : Nat :=
  crc8 0 [bits h 56 8, bits h 48 8, bits h 40 8, bits h 32 8, bits h 24 8, bits h 16 8, bits h 8 8]

/-- The handle of a slot of cluster `c` (die × 64 + cluster) with this generation. -/
def mkHandle (chip : BitVec 12) (c slot : Nat) (gen : BitVec 23) : Word :=
  let h := wordOf (2 * 2 ^ 62 + chip.toNat * 2 ^ 50 + c * 2 ^ 43 + slot * 2 ^ 31 + gen.toNat * 2 ^ 8)
  h + wordOf (handleCrc h)

/-- The handle of the future under a key of the table: its home is the one it was allocated with (R170). -/
def Future.handle (f : Future) (key : Nat) : Word :=
  mkHandle (BitVec.ofNat 12 (f.home / 128)) (f.home % 128) (key % 4096) f.gen

def handleChip (h : Word) : BitVec 12 := BitVec.ofNat 12 (bits h 50 12)
def handleCluster (h : Word) : Nat := bits h 43 7
def handleSlot (h : Word) : Nat := bits h 31 12
def handleGen (h : Word) : BitVec 23 := BitVec.ofNat 23 (bits h 8 23)
def handleSane (h : Word) : Bool := bits h 62 2 == 2 && bits h 0 8 == handleCrc h

/-- The home that a handle names: chip × 128 + die × 64 + cluster (R147). -/
def handleHome (h : Word) : Nat := bits h 43 19

/-- The cluster that serves a home; traffic for a home that a restore mapped elsewhere is redirected (R170). -/
def State.homeOf (s : State) (h : Word) : Nat :=
  match s.forwards.find? fun e => e.1 == handleHome h with
  | some e => e.2
  | none => handleCluster h

/-- The home is in this package: its own, or one that a restore has brought here (R170, R371). -/
def State.isHere (s : State) (h : Word) : Bool :=
  handleChip h == s.chip || s.forwards.any fun e => e.1 == handleHome h

def State.futKey (s : State) (h : Word) : Nat := s.homeOf h * 4096 + handleSlot h

/-- The future that a handle names, when the handle is current (R148). -/
def State.fut? (s : State) (h : Word) : Option Future :=
  if s.isHere h then
    match s.futures.find (s.futKey h) with
    | some f => if f.state ≠ 0 ∧ f.gen = handleGen h then some f else none
    | none => none
  else none

def State.setFut (s : State) (h : Word) (f : Future) : State := { s with futures := s.futures.put (s.futKey h) f }

/-- The permission of an issuing cluster for a home (R149 check 3, R328, R404). -/
def State.permits (s : State) (cluster : Nat) (chip : BitVec 12) (home : Nat) : Bool :=
  if chip = s.chip then cluster == home || (s.cluster cluster).permLocal.getLsbD home
  else (s.cluster cluster).permRemote.any fun e => e.2.valid && e.2.chip == chip && e.2.mask.getLsbD home

/-- Checks 1 to 3 of R149, made at the issuing hart. -/
def State.checkHandle (s : State) (cluster : Nat) (h : Word) : Except Exc Unit :=
  if h = 0 then .error (.trap 48 0x02 h)
  else if !handleSane h then .error (.trap 48 0x01 h)
  else if !s.permits cluster (handleChip h) (handleCluster h) then .error (.trap 51 0 h)
  else .ok ()

/-! ## Spill records (R159, R168) -/

/-- The number of 32-byte records of a cluster's spill region. -/
def Cluster.spillCount (k : Cluster) : Nat := k.spillSize.toNat / 32

def spillIndex (k : Cluster) (h : Word) (i : Nat) : Nat := (handleSlot h + (handleGen h).toNat + i) % k.spillCount

def spillVa (k : Cluster) (i : Nat) : Word := k.spillBase + wordOf (32 * i)

/-- The first doubleword of a record: 0 when it is empty. -/
def State.spillWord (s : State) (c i o : Nat) : Word :=
  match s.peek (s.superView c) (spillVa (s.cluster c) i + wordOf o) 8 with
  | some b => wordOf (leNat b)
  | none => 0

/-- The index of the future's record among the eight probes. -/
def State.findSpill (s : State) (h : Word) : Option Nat :=
  let c := s.homeOf h
  let k := s.cluster c
  if k.spillCount = 0 ∨ s.isHere h = false then none
  else ((List.range 8).map fun i => spillIndex k h i).find? fun i => s.spillWord c i 0 == h

/-- The first empty record among `probes` indices. -/
def State.emptySpill (s : State) (c : Nat) (h : Word) (probes : Nat) : Option Nat :=
  let k := s.cluster c
  if k.spillCount = 0 then none
  else ((List.range probes).map fun i => spillIndex k h i).find? fun i => s.spillWord c i 0 == 0

def State.writeSpill (s : State) (c i : Nat) (bs : List Byte) : State :=
  (s.pokeVia (s.superView c) (spillVa (s.cluster c) i) bs).getD s

def State.clearSpill (s : State) (c i : Nat) : State := s.writeSpill c i (leBytes 32 0)

/-! ## Priorities (R157, R388) -/

/-- The root priority in a launch record (R23). -/
def Launch.rootPrio (l : Launch) : Nat := (l.record.getD 5 0).toNat % 4

def Launch.unfinished (l : Launch) : Bool :=
  match l.state with
  | .posted _ _ _ => false
  | _ => true

/-- What the launches that wait for launch `l` pass on to its roots, to a depth of four (R388). -/
def launchRaise : Nat → State → Nat → Nat
  | 0, _, _ => 0
  | n + 1, s, k =>
    s.launches.foldl (fun m e =>
      let waits := match e.2.state with
        | .waiting | .held => e.2.prereqs.any fun p => p.launch == some k && !p.gone
        | _ => false
      if waits then max m (max e.2.rootPrio (launchRaise n s e.1)) else m) 0

/-- The effective priority of a task: its own, its age promotion, and what its waiters pass on to a depth of four. -/
def eprioOf : Nat → State → Word → Nat
  | n, s, h =>
    match s.task? h with
    | none => 0
    | some t =>
      if t.state = .stopping then 0
      else
      let own := max t.desc.prio.toNat t.promo.toNat
      let own := if t.root then max own (launchRaise 4 s t.launch) else own
      match n with
      | 0 => own
      | n + 1 => ((s.cluster (s.homeOf h)).waiters.filter fun w => w.future == h).foldl
          (fun m w => max m (max w.eprio (eprioOf n s w.task))) own

def State.eprio (s : State) (h : Word) : Nat := eprioOf 4 s h

/-! ## Status words (R151) -/

def State.waitersOf (s : State) (h : Word) : List Waiter := (s.cluster (s.homeOf h)).waiters.filter fun w => w.future == h

/-- The status word of a future in this state, with these waiters and effective priority. -/
def Future.status (f : Future) (state waiters eprio verdict : Nat) : Word :=
  wordOf (state + (if state = 3 ∨ state = 6 then 8 else 0) + verdict * 16 + (if f.once then 64 else 0) +
    (if f.tree then 128 else 0) + f.prio.toNat * 256 + eprio * 1024 + min waiters 65535 * 65536)

def State.statusOf (s : State) (h : Word) (f : Future) : Word :=
  f.status f.state (s.waitersOf h).length (if f.hasTask then s.eprio h else 0) (s.seenVerdict f.launch f.verdict.toNat)

/-- The future is terminal, or gone. -/
def State.isTerminal (s : State) (h : Word) : Bool :=
  match s.fut? h with
  | some f => decide (f.state ≥ 3)
  | none => true

/-! ## Freeing and waking -/

/-- Free a slot: its generation rises by one (R148). -/
def State.freeFut (s : State) (h : Word) (f : Future) : State :=
  s.setFut h { (default : Future) with gen := f.gen + 1 }

/-- A touch of a touch-once future completes, of this task where it was woken: the future is freed once no woken touch is
still to complete (R152, R166). -/
def State.touchDone (s : State) (h : Word) (woken : Option Word) : State :=
  match s.fut? h with
  | some f =>
    if f.once then
      let left := match woken with | some t => f.touchers.erase t | none => f.touchers
      if left.isEmpty then s.freeFut h f else s.setFut h { f with touchers := left, touched := true }
    else s
  | none =>
    match s.findSpill h with
    | some i => if bits (s.spillWord (s.homeOf h) i 16) 6 1 = 1 then
        s.clearSpill (s.homeOf h) i else s
    | none => s

/-- Remove a waiter record, on chip or in the spill region (R162). -/
def State.dropWaiters (s : State) (c : Nat) (p : Waiter → Bool) : State :=
  let gone := (s.cluster c).waiters.filter p
  let s := s.modCluster c fun k => { k with waiters := k.waiters.filter fun w => !p w }
  gone.foldl (fun s w => match w.spill with | some i => s.clearSpill c i | none => s) s

/-- Remove every waiter record of a task, at every home (R163, R179). -/
def State.leaveWaits (s : State) (task : Word) : State :=
  s.clusters.foldl (fun s e => if e.2.waiters.any fun w => w.task == task
    then s.dropWaiters e.1 fun w => w.task == task else s) s

/-- Send a wake to a waiting task (R161); the wake arrives by TASK_WAKE, and that of a task of another chip leaves the
package. The first wake stands. -/
def State.sendWake (s : State) (task : Word) (w : Wake) : State :=
  match s.task? task with
  | some t => if t.wake.isNone then (s.setTask task { t with wake := some w }).post (.taskWake task none) else s
  | none => if s.isHere task then s else { s with departed := s.departed ++ [.wake task w] }

def wakeAll (s : State) (st : Nat) (value : Word) (verdict : Nat) (once : Bool) (source : Nat) : List Waiter → State
  | [] => s
  | w :: r =>
    let s := if w.any then (s.leaveWaits w.task).sendWake w.task .select
      else s.sendWake w.task (.outcome st value verdict once (some source))
    wakeAll s st value verdict once source r

/-- The tasks of this package whose touches a resolved touch-once future wakes: those of another chip complete when their
wake leaves (R166, log 32). -/
def State.touchersOf (s : State) (ws : List Waiter) : List Word :=
  (ws.filter fun w => !w.any && s.isHere w.task).map fun w => w.task

/-- A future becomes terminal and its waiters are woken in order of arrival (R150, R161, R162, R166). -/
def State.makeTerminal (s : State) (h : Word) (st : Nat) (value : Word) (verdict : Nat) : State :=
  match s.fut? h with
  | none => s
  | some f =>
    let ws := s.waitersOf h
    let s := s.tick
    let touchers := if st = 3 ∧ f.once then s.touchersOf ws else []
    let s := s.setFut h { f with state := st, value := value, verdict := if st = 3 then BitVec.ofNat 2 verdict else f.verdict,
                                 resolvedAt := s.serial, touchers := touchers, touched := false }
    let s := s.dropWaiters (s.homeOf h) fun w => w.future == h
    let s := wakeAll s st value (s.seenVerdict f.launch verdict) (f.once && st == 3) f.launch ws
    if st = 3 ∧ f.once ∧ (ws.any fun w => !w.any && !s.isHere w.task) then s.touchDone h none else s

/-- A task that leaves has no touch to complete any more (log 32). -/
def State.dropToucher (s : State) (task : Word) : State :=
  s.futures.foldl (fun s e => if e.2.touchers.contains task then
    let f := { e.2 with touchers := e.2.touchers.erase task }
    if f.touched ∧ f.touchers.isEmpty then { s with futures := s.futures.put e.1 { (default : Future) with gen := f.gen + 1 } }
    else { s with futures := s.futures.put e.1 f }
    else s) s

/-! ## Placeholders of gate waits (R345): entries of a waiter list that name a task and no hart -/

def isPlace (chip : BitVec 12) (r : GateRequest) : Bool := r.hart.isNone && r.chip == chip.toNat

/-- A placeholder goes when its task ends, or closes a region by anything else than that wait. -/
def State.dropPlaces (s : State) (task : Word) : State :=
  { s with gates := s.gates.mapVal fun _ g =>
      { g with waiters := g.waiters.filter fun r => !(isPlace s.chip r && r.task == task) } }

/-! ## The end of a task (R154, R163, R164) -/

/-- The fault word (R152). -/
def faultWord (cause sub origin : Nat) (poisoned : Bool) : Word :=
  wordOf (cause + sub % 256 * 256 + (if poisoned then 65536 else 0) + origin * 2 ^ 17)

def endState : EndKind → Nat
  | .cancelled => 4
  | .faulted _ => 5

def endValue : EndKind → Word
  | .cancelled => 0
  | .faulted w => w

/-- The slot still runs the prefetch of this task. -/
def State.runsPrefetch (s : State) (c n : Nat) (h : Word) : Bool :=
  (s.slot c n).kind == .fetch && (s.slot c n).task == h && (s.slot c n).unfinished

/-- From the cancel or the fault on, no beat of an open prefetch hoists: its stages are disarmed, and the holds stay until the
stop arrives (R163, R166). -/
def quietPrefetches (s : State) (c : Nat) : List (StageArg × Prefetch) → State
  | [] => s
  | (a, .copying _) :: r => quietPrefetches (s.modStage c a.stage.toNat fun t => { t with armed := false, due := false }) c r
  | _ :: r => quietPrefetches s c r

/-- Stop the open prefetches of a task: arm and count cleared, the hold released, no hoist, the slot free (R158, R163). -/
def stopPrefetches (s : State) (c : Nat) (h : Word) : List (StageArg × Prefetch) → State
  | [] => s
  | (a, .copying n) :: r =>
    let s := if s.runsPrefetch c n h then s.freeSlot c n else s
    stopPrefetches (s.disarmStage c a.stage.toNat) c h r
  | _ :: r => stopPrefetches s c h r

/-- Faulted and cancelled commands of a task that ends give their slots back (R190). -/
def freeReported (s : State) (c : Nat) (h : Word) : State :=
  ((s.cluster c).slots.filter fun e => e.2.task == h && (e.2.state == 5 || e.2.state == 6)).foldl
    (fun s e => s.freeSlot c e.1) s

/-- Free the harts of a task. A hart that holds it in a higher mode is freed by its next `sret` (R182, R352). -/
def State.releaseHarts (s : State) (h : Word) : State :=
  { s with harts := s.harts.mapVal fun _ x =>
      if x.task = some h then
        if x.mode = .u then { x with task := none, freeOnSret := false, pfx := none, resv := none, waiting := none,
                                     jumped := false }
        else { x with task := none, freeOnSret := true }
      else x }

/-- Insert by a key, earlier keys first. -/
def insertBy {α : Type} (key : α → Nat) (x : α) : List α → List α
  | [] => [x]
  | y :: r => if key x < key y then x :: y :: r else y :: insertBy key x r

def sortBy {α : Type} (key : α → Nat) : List α → List α
  | [] => []
  | x :: r => insertBy key x (sortBy key r)

/-- The descriptors of the task ring, oldest first. -/
def State.ringTasks (s : State) (c : Nat) : List Task :=
  sortBy (fun t => t.order) ((s.tasks.filter fun e => e.2.cluster == c && e.2.state == .ring).map fun e => e.2)

def writeSlots (v : View) (base : Word) (n : Nat) : Nat → List Task → State → State
  | _, [], s => s
  | i, t :: r, s => writeSlots v base n (i + 1) r ((s.pokeVia v (base + wordOf (128 * (i % n))) t.desc.raw).getD s)

/-- The ring holds the copies of the tasks that wait in it, in the order of arrival, one after another (R159). -/
def State.packRing (s : State) (c : Nat) : State :=
  let k := s.cluster c
  let ts := s.ringTasks c
  (writeSlots (s.superView c) k.ringBase (k.ringSize.toNat / 128) k.ringHead ts s).modCluster c fun k =>
    { k with ringTail := k.ringHead + ts.length }

/-- Take a task out of the machine: its waiter records removed, its hart freed, its tiles and holds released, and the oldest
ring entry may move up (R155, R163, R183, R222). A woken touch that it has not completed counts no more (DESIGN CHOICE, log
32). Tiles that operations in flight hold are freed when these have completed, and the stop of open prefetches arrives by
PREFETCH_STOP. -/
def State.removeTask (s : State) (h : Word) : State :=
  match s.task? h with
  | none => s
  | some t =>
    let s := match t.pair with | some p => freeShadows s p t.region.shadows | none => s
    let s := freeReported s t.cluster h
    let s := ((((s.dropPlaces h).leaveWaits h).dropToucher h).releaseHarts h).modCluster t.cluster fun k =>
      { k with reserve := k.reserve.filter fun e => e.2 != h }
    let s := match t.pair with
      | some _ => (s.setTask h { t with state := .stopping, region := { t.region with shadows := [], uncopied := [] } }).leaveTiles h
      | none =>
        if t.state = TaskState.preparing then
          (quietPrefetches (s.setTask h { t with state := .stopping }) t.cluster (t.desc.args.zip t.prefetch)).post
            (.prefetchStop h)
        else (dropLifts s t.cluster t.lift.axes).dropTask h
    if t.state = TaskState.ring then s.packRing t.cluster else s.post (.taskRingRefill t.cluster)

/-- Count a root task as exited (R154). -/
def State.countRoot (s : State) (t : Task) (bad : Bool) : State :=
  if t.root then s.modLaunch t.launch fun l =>
    { l with rootsLive := l.rootsLive - 1, rootsBad := if bad then l.rootsBad + 1 else l.rootsBad }
  else s

/-- The live tasks of a launch. -/
def State.launchTasks (s : State) (l : Nat) : List Word :=
  (s.tasks.filter fun e => e.2.launch == l && e.2.state != .stopping).map fun e => wordOf e.1

/-- Promises of a launch that are still pending (R154). -/
def State.launchPromises (s : State) (l : Nat) : List Word :=
  (s.futures.filter fun e => e.2.launch == l && !e.2.hasTask && e.2.state == 1).map
    fun e => e.2.handle e.1

/-- Children that are not terminal, in the order of spawning (R164). -/
def State.childrenOf (s : State) (h : Word) : List Word :=
  let cs := s.futures.filter fun e => e.2.parent == h && e.2.hasTask && (e.2.state == 1 || e.2.state == 2)
  (sortBy (fun e => e.2.born) cs).map fun e => e.2.handle e.1

/-- The hart that runs or holds a task. -/
def State.hartOf (s : State) (h : Word) : Option Nat := (s.harts.find? fun e => e.2.task == some h).map fun e => e.1

/-- A task on a hart that is not in a long wait in U mode: it ends at its next commit point (R163). -/
def State.runsOn (s : State) (h : Word) : Bool :=
  match s.hartOf h with
  | none => false
  | some n => match (s.hart n).waiting with
    | some w => !(w.kind.isLong && w.reply.isNone && (s.hart n).mode == .u)
    | none => true

/-- The amount that a hart in `semp` waits to take (R144). -/
def Hart.semTake (x : Hart) : Nat :=
  match x.waiting with
  | some { instr := .semp _ _ rs2, .. } => if rs2 = 0 then 1 else (x.ctx.xreg rs2).toNat
  | _ => 0

/-- The waiters of a semaphore whose amount is met take it in the order of arrival, at most as many as the first argument
says (R144, R145). -/
def serveSem (p i : Nat) : Nat → State → State
  | 0, s => s
  | n + 1, s =>
    match (s.pair p).semQ.get i [] with
    | [] => s
    | h :: r =>
      let c := ((s.pair p).sems.get i 0).toNat
      let a := (s.hart h).semTake
      if a ≤ c then
        serveSem p i n ((s.modPair p fun k =>
          { k with sems := k.sems.put i (BitVec.ofNat 32 (c - a)), semQ := k.semQ.put i r }).answer h (.value (wordOf (c - a))))
      else s

/-- A pair has 16 harts, and so a queue at most 16 waiters. -/
def State.serveSem (s : State) (p i : Nat) : State := Sys2Proof.Machine.serveSem p i 16 s

/-- Withdraw what a wait left elsewhere: a `barsync` arrival in a phase that is not complete, a place in a queue, a held
request (R120, R141, R145, R160, R332). -/
def State.withdrawWait (s : State) (h : Nat) : State :=
  match (s.hart h).waiting with
  | none => s
  | some w =>
    let s := s.modHart h fun x => { x with waiting := none }
    match w.kind with
    | .arrived key phase =>
      match s.barriers.find key with
      | some b => if b.phase = phase then { s with barriers := s.barriers.put key { b with arrivals := b.arrivals - 1 } } else s
      | none => s
    | .queued =>
      (List.range 16).foldl (fun s i => s.serveSem (pairOf h) i) { s with
          pairs := s.pairs.mapVal fun _ p => { p with semQ := p.semQ.mapVal fun _ q => q.filter fun x => x != h },
          mailboxes := s.mailboxes.mapVal fun _ m =>
            { m with senders := m.senders.filter fun x => x.1 != .hart h, receivers := m.receivers.filter fun x => x != h },
          clusters := s.clusters.mapVal fun _ k => { k with stages := k.stages.mapVal fun _ t =>
            { t with hoisters := t.hoisters.filter fun x => x != h } },
          gates := s.gates.mapVal fun _ g =>
            { g with waiters := g.waiters.filter fun x => x.hart != some h, stalled := g.stalled.filter fun x => x.hart != some h } }
    | .held _ _ _ _ =>
      { s with clusters := s.clusters.mapVal fun _ k => { k with heldReqs := k.heldReqs.filter fun x => x != h } }
    | .short | .late | .listed _ | .flushing _ | .long | .sent _ | .anyOf _ | .page _ _ | .accepting _ _ | .applied => s

/-- What follows when a task has left: its children when it carried the tree flag and did not exit, and every other task
and promise of its launch when it was the last live root (R154, R164). -/
def State.afterEnd (s : State) (h : Word) (t : Task) (tree : Bool) : State × List (Word × EndKind) :=
  let kids := if tree then (s.childrenOf h).map fun c => (c, EndKind.cancelled) else []
  let last := t.root && (match s.launches.find t.launch with | some l => l.rootsLive == 0 | none => false)
  let tasks := s.launchTasks t.launch
  let s := if last then s.modLaunch t.launch fun l => { l with ended := l.ended + tasks.length } else s
  let rest := if last then (tasks ++ s.launchPromises t.launch).map fun c => (c, EndKind.cancelled) else []
  let isOver := tasks.isEmpty && (match s.launches.find t.launch with | some l => l.rootsLive == 0 | none => false)
  (if isOver then s.post (.completionPost t.launch) else s, kids ++ rest)

/-- End a task now: its future terminal unless it is already, its waiters woken, the task gone. Answers what ends with
it. -/
def State.endTaskNow (s : State) (h : Word) (how : EndKind) : State × List (Word × EndKind) :=
  match s.task? h with
  | none => (s, [])
  | some t =>
    let tree := match s.fut? h with | some f => f.tree | none => false
    let s : State := match s.hartOf h with
      | some n => if (s.hart n).mode = Mode.u then s.withdrawWait n else s
      | none => s
    let s := if s.isTerminal h then s else s.makeTerminal h (endState how) (endValue how) 0
    ((s.removeTask h).countRoot t true).afterEnd h t tree

/-- An end applied at the home (R163): a promise and a future whose task has not been dispatched become terminal at once;
the task is marked, and the end reaches the cluster that holds it by TASK_END_ARRIVE. The first end stands. -/
def State.endOne (s : State) (h : Word) (how : EndKind) : State :=
  match s.fut? h with
  | none => s
  | some f =>
    if f.state ≥ 3 then s
    else
      let s := if f.state = 1 ∨ (s.task? h).isNone then s.makeTerminal h (endState how) (endValue how) 0 else s
      match s.task? h with
      | none => s
      | some t =>
        let how := t.ending.getD how
        let s := if t.state = .preparing then quietPrefetches s t.cluster (t.desc.args.zip t.prefetch) else s
        (s.setTask h { t with ending := some how }).post (.taskEndArrive h how)

def State.endMany (s : State) (l : List (Word × EndKind)) : State := l.foldl (fun s e => s.endOne e.1 e.2) s

/-- End a task where it stands, with all that follows. -/
def State.endTask (s : State) (h : Word) (how : EndKind) : State :=
  let r := s.endTaskNow h how
  r.1.endMany r.2

/-- TASK_END_ARRIVE (R163): a task on a hart goes on to its next commit point, any other task ends. -/
def State.endArrives (s : State) (h : Word) (how : EndKind) : State :=
  match s.task? h with
  | none => s
  | some t =>
    let how := t.ending.getD how
    if t.state = .running ∧ s.runsOn h then s.setTask h { t with ending := some how } else s.endTask h how

/-- `texit` steps 2 to 4 (R183): the tiles are released, the future resolved unless it is terminal, the task gone. -/
def State.exitTask (s : State) (h : Word) (value : Word) : State :=
  match s.task? h with
  | none => s
  | some t =>
    let s := if s.isTerminal h then s else s.makeTerminal h 3 value (s.seenVerdict t.launch t.verdict.toNat)
    let r := ((s.removeTask h).countRoot t false).afterEnd h t false
    r.1.endMany r.2

/-! ## Operations at the home (R166, R177 to R185) -/

/-- The chip's room for waiter records (R161). -/
def waiterRoom : Nat := 8192

/-- Add a waiter record: on chip, or in the spill region (R162); none when no record is empty (R160). -/
def State.addWaiter (s : State) (h task : Word) (any : Bool) (index eprio : Nat) : Option State :=
  let c := s.homeOf h
  let k := s.cluster c
  let w : Waiter := { future := h, task := task, seq := k.waiterSeq, any := any, index := index, eprio := eprio, spill := none }
  let put := fun (s : State) (w : Waiter) =>
    s.modCluster c fun k => { k with waiters := k.waiters ++ [w], waiterSeq := k.waiterSeq + 1 }
  if (k.waiters.filter fun w => w.spill.isNone).length < waiterRoom then some (put s w)
  else match s.emptySpill c h 64 with
    | none => none
    | some i =>
      let rec_ := leBytes 8 (h.toNat % 2 ^ 62 + 3 * 2 ^ 62) ++ leBytes 8 task.toNat ++ leBytes 4 k.waiterSeq.toNat ++
        leBytes 2 ((if any then 1 else 0) + index * 256) ++ leBytes 10 0
      some (put (s.writeSpill c i rec_) { w with spill := some i })

/-- The launch of a spilled future. -/
def State.spillLaunch (s : State) (h : Word) : Option Nat := (s.launches.find? fun e => e.2.spilled.contains h).map fun e => e.1

/-- The status word of a spilled future: its verdict is raised to tainted with its launch (R168, R377). -/
def State.spillStatus (s : State) (h : Word) (i : Nat) : Word :=
  let w := s.spillWord (s.homeOf h) i 16
  match s.spillLaunch h with
  | some l => setBits w 4 2 (s.seenVerdict l (bits w 4 2))
  | none => w

/-- A touch, or the record of a `tany`, on a future (R177, R179): a terminal or spilled future answers its outcome, any
other takes a waiter record and answers nothing. Exhaustion answers cause 25 (R160). -/
def State.homeTouch (s : State) (h task : Word) (any : Bool) (index eprio : Nat) : State × Option Reply :=
  match s.fut? h with
  | some f =>
    if f.state ≥ 3 then (s, some (.done f.state f.value (s.seenVerdict f.launch f.verdict.toNat)))
    else match s.addWaiter h task any index eprio with
      | some s => (s, none)
      | none => (s, some (.trap 25 0x03 0))
  | none =>
    match s.findSpill h with
    | some i => (s, some (.done 6 (s.spillWord (s.homeOf h) i 8) (bits (s.spillStatus h i) 4 2)))
    | none => (s, some (.trap 48 0x04 h))

/-- One operation on one future, as it reaches the home (R166). -/
def State.homeApply (s : State) (h : Word) (op : HomeOp) : State × Option Reply :=
  let gone : State × Option Reply := (s, some (.trap 48 0x04 h))
  match op with
  | .touch task eprio => s.homeTouch h task false 0 eprio
  | .tanyWait task index eprio => s.homeTouch h task true index eprio
  | .leave task => (s.dropWaiters (s.homeOf h) fun w => w.future == h && w.task == task, some (.value 0))
  | .tanyCheck =>
    match s.fut? h with
    | some f => (s, some (.done f.state f.value (s.seenVerdict f.launch f.verdict.toNat)))
    | none => match s.findSpill h with
      | some i => (s, some (.done 6 (s.spillWord (s.homeOf h) i 8) (bits (s.spillStatus h i) 4 2)))
      | none => gone
  | .tpoll =>
    match s.fut? h with
    | some f => (s, some (.value (s.statusOf h f)))
    | none => match s.findSpill h with
      | some i => (s, some (.value (s.spillStatus h i)))
      | none => gone
  | .resolve v verdict =>
    match s.fut? h with
    | some f =>
      if f.hasTask then (s, some (.trap 48 0x06 h))
      else if f.state ≥ 3 then (s, some (.value 0))
      else (s.makeTerminal h 3 v verdict, some (.value 1))
    | none => if (s.findSpill h).isSome then
        (s, some (if s.launches.any fun e => e.2.spillTasks.contains h then .trap 48 0x06 h else .value 0)) else gone
  | .cancel =>
    match s.fut? h with
    | some f => if f.state ≥ 3 then (s, some (.value 0)) else (s.endOne h .cancelled, some (.value 1))
    | none => if (s.findSpill h).isSome then (s, some (.value 0)) else gone
  | .poison word =>
    match s.fut? h with
    | some f => if f.state ≥ 3 then (s, some (.value 0)) else (s.endOne h (.faulted word), some (.value 1))
    | none => if (s.findSpill h).isSome then (s, some (.value 0)) else gone
  | .frel =>
    match s.fut? h with
    | some f => if f.state ≥ 3 then (s.freeFut h f, some (.value 0)) else (s, some (.trap 48 0x07 h))
    | none => match s.findSpill h with
      | some i => (s.clearSpill (s.homeOf h) i, some (.value 0))
      | none => gone

/-- The launch that a future of this package belongs to. -/
def State.sourceOf (s : State) (h : Word) : Option Nat :=
  match s.fut? h with
  | some f => some f.launch
  | none => if s.isHere h then s.spillLaunch h else none

/-- The launch of a future joins the source set of the launch of a task that takes its outcome (R378). -/
def State.takesFrom (s : State) (task : Word) (source : Option Nat) : State :=
  match source, s.task? task with
  | some l, some t => (s.addSource t.launch l).amend
  | _, _ => s

/-- A touch that completes (R153, R166, R173, R378): the toucher's verdict is raised, the launch of the future is a source of
its launch, and a touch-once future is freed when no woken touch of it is still to complete. -/
def State.completeTouch (s : State) (task h : Word) (verdict : Nat) (woken : Bool) (source : Option Nat) : State :=
  ((s.raiseVerdict task verdict).takesFrom task source).touchDone h (if woken then some task else none)

/-! ## The dispatch queues -/

/-- A task joins the tail of the ready queue of its effective priority; its age promotion starts from 0 (R157, R357). -/
def State.makeReady (s : State) (h : Word) : State :=
  let s := s.tick
  s.modTask h fun t => { t with state := .ready, order := s.serial, promo := 0, passedOver := false }

/-- Put the task of a hart aside at its restart point, in this state (R44, R161, R184), and free the hart. -/
def State.setAside (s : State) (h : Nat) (st : TaskState) : State :=
  match (s.hart h).task with
  | none => s
  | some t => (s.modTask t fun x => { x with state := st }).freeHart h

end Sys2Proof.Machine
end

