-- ==== Sys2Proof/Machine/Finish.lean ====
section
/-! DEFINITION. How an instruction ends: completion, trap entry, translation faults, waits, automatic closes and the end
of a task at its commit point (R38, R43, R62, R98, R119, R128, R163, R232, R357, R380, R401). Every meaning of an
instruction word is one of the runners below, applied to the instruction's own effect. -/

namespace Sys2Proof.Machine

abbrev Result := Host.Outcome State Fault Refusal

/-- The end of the hart's task that takes effect at its commit point (R163, R154). -/
def State.ending? (s : State) (h : Nat) : Option EndKind :=
  if s.inRegion h then (s.taskOf h).bind fun t => t.ending else none

/-- The task that a hart runs ends here (R163). -/
def State.endHere (s : State) (h : Nat) : State :=
  match (s.hart h).task with
  | none => s
  | some t => match (s.taskOf h).bind fun t => t.ending with
    | some how => s.endTask t how
    | none => s

/-- The region of the hart closes by something else than a gate wait (R345). -/
def State.closesOther (s : State) (h : Nat) : State :=
  if s.inRegion h then s.dropPlaces (((s.hart h).task).getD 0) else s

/-- The instruction is a wait that a placeholder stands for. -/
def isGateWait : Instr → Bool
  | .gwait .. | .gtake .. => true
  | _ => false

/-- A trap taken by a hart: the entry into the higher mode is a commit point of the open region (R119), at which a task
whose end is due ends. The instruction's address, or that of its prefix, is saved (R101). -/
def State.takeTrap (s : State) (h : Nat) (intr : Bool) (code sub : Nat) (tval : Word) : State :=
  let pc := (s.hart h).epc
  let s := (s.closesOther h).closeRegion h 0 pc false
  match s.ending? h with
  | some _ => s.endHere h
  | none => s.enterTrap h intr code sub tval pc

/-- Make the hart's task faulted by the device, with a terminal report (R62, R357, R380). -/
def State.faultTask (s : State) (h : Nat) (x : Report) : State :=
  match (s.hart h).task with
  | none => s
  | some t =>
    let (s, _) := s.report ringTerminal { x with task := t, loc := (hartloc s.chip h).setWidth 32 }
    (s.abortTask t).endTask t (.faulted (faultWord x.cause x.sub (clusterOf h) false))

/-- The same for a task wherever it is. -/
def State.faultTaskOf (s : State) (t : Word) (x : Report) : State :=
  match s.hartOf t with
  | some h => s.faultTask h x
  | none =>
    let (s, _) := s.report ringTerminal { x with task := t }
    (s.abortTask t).endTask t (.faulted (faultWord x.cause x.sub x.origin false))

/-- The region of the task on the hart aborts and the task is re-queued at once (R44, R357). -/
def State.restartTask (s : State) (h : Nat) : State :=
  match (s.hart h).task with
  | none => s
  | some t => ((s.abortTask t).setAside h .ready).makeReady t

/-- The ring that a translation fault of the hart goes to, if any (R62, R401). -/
def State.faultRing (s : State) (h stage : Nat) (denied : Bool) : Option Nat :=
  if s.inRegion h then some (if denied then ringTerminal else pageRing s (clusterOf h) stage)
  else if stage = 1 then none
  else some (if denied then ringTerminal else ringRetryable)

/-- The hart makes its access again, for its fault finds no room on the die (R355). -/
def State.holdFault (s : State) (h : Nat) (i : Instr) (access : Nat) : State :=
  if access = 2 then s
  else s.modHart h fun x => { x with waiting := some { instr := i, kind := .late, reply := none } }

/-- A translation fault of an access of the hart (R62 in a region, R401 in S and M mode). -/
def State.translationFault (s : State) (h : Nat) (i : Instr) (stage : Nat) (denied : Bool) (access : Nat) (va : Word)
    (gpa : Nat) : State :=
  let c := clusterOf h
  if (s.faultRing h stage denied).any fun r => s.ringFull r c then s.holdFault h i access else
  let task := ((s.hart h).task).getD 0
  let x := { xlateReport s 0 c task stage access va gpa with loc := (hartloc s.chip h).setWidth 32 }
  if s.inRegion h then
    if denied then s.faultTask h x
    else
      let r := pageRing s c stage
      let (s, n) := s.report r x
      ((s.abortTask task).modTask task fun t => { t with heldOn := some (r, n) }).setAside h .paged
  else if stage = 1 then s.takeTrap h false (pageCause access) 0 va
  else if denied then
    let (s, _) := s.report ringTerminal x
    s.takeTrap h false (if access = 2 then 1 else if access = 0 then 5 else 7) 0 va
  else
    let (s, n) := s.report ringRetryable x
    s.modHart h fun y => { y with waiting := some { instr := i, kind := .page ringRetryable n, reply := none } }

/-- A persisted operand fault is delivered (R232): the region aborts, and `pois` is set in the destination. The third
successive attempt of one region makes the future faulted. -/
def State.deliverOpFault (s : State) (h : Nat) (f : OpFault) : State :=
  match (s.hart h).task, s.taskOf h with
  | some n, some t =>
    if t.region.rst.toNat ≥ 2 then
      s.faultTask h { mkReport s 3 28 0x21 (clusterOf h) n with info := 0 }
    else
      let s := (s.restartTask h).modTask n fun t => { t with opFaults := t.opFaults.erase f }
      match t.pair with
      | some p => s.setTile p (t.phys f.dest) { s.tile p (t.phys f.dest) with flags := (s.tile p (t.phys f.dest)).flags ||| 0x80 }
      | none => s
  | _, _ => s

/-- A hart load met an uncorrectable error (R380): the region aborts and is re-queued; a second failure at the address in
one region makes the future faulted. The detector that reported it disarms (R383). -/
def State.eccError (s : State) (h : Nat) (bit : Nat) (va : Word) : State :=
  let s := s.modCluster (clusterOf h) fun k => { k with errinj := k.errinj &&& ~~~(wordOf (2 ^ bit)) }
  match (s.hart h).task, s.taskOf h with
  | some n, some t =>
    if s.inRegion h then
      if t.eccAt.contains va then s.faultTask h { mkReport s 0 5 0x03 (clusterOf h) n with va := va }
      else (s.restartTask h).modTask n fun t => { t with eccAt := va :: t.eccAt }
    else s.takeTrap h false 5 0 va
  | _, _ => s.takeTrap h false 5 0 va

/-! ### The remote request count (R404) -/

/-- The count advances when an instruction that was answered by another chip completes or traps. -/
def State.countRemote (s : State) (h : Nat) : State :=
  match (s.hart h).waiting with
  | some { kind := .sent _, reply := some _, .. } =>
    match (s.hart h).task with
    | some t => s.modTask t fun t => { t with remoteCount := t.remoteCount + 1 }
    | none => s.modHart h fun x => { x with remoteCount := x.remoteCount + 1 }
  | _ => s

/-- What an instruction that did not complete leaves behind. After an automatic close the instruction is made again in the
hart's next slot, so that an interrupt that has come finds the close done (R121). A task whose end is due ends at a long wait (R163). -/
def State.leave (s : State) (i : Instr) : Exc → State
  | .trap cause sub tval => s.takeTrap s.cur false cause sub tval
  | .trapAfter t cause sub tval => (t.countRemote t.cur).takeTrap t.cur false cause sub tval
  | .illegal => s.takeTrap s.cur false 2 0 (wordOfInstr i)
  | .trapWord cause sub =>
    let w := match cause, s.me.pfx with
      | 29, some p => wordOfInstr (.vpfx p)
      | _, _ => wordOfInstr i
    s.takeTrap s.cur false cause sub w
  | .xlate stage denied access va gpa => s.translationFault s.cur i stage denied access va gpa
  | .wait k => if k.isLong && (s.ending? s.cur).isSome then s.endHere s.cur
    else s.modMe fun x => { x with waiting := some { instr := i, kind := k, reply := none } }
  | .hold t k => if k.isLong && (s.ending? s.cur).isSome then s.endHere s.cur
    else t.modMe fun x => { x with waiting := some { instr := i, kind := k, reply := none } }
  | .ends => s.endHere s.cur
  | .opFault f => s.deliverOpFault s.cur f
  | .endsAfter t => t.endHere t.cur
  | .ecc bit va => s.eccError s.cur bit va
  | .autoClose _ => s

/-- The same, with the remote request counted when the instruction traps (R404), and with its place in a queue given up
when it traps or faults. -/
def State.finishExc (s : State) (i : Instr) (e : Exc) : State :=
  match e with
  | .trap .. | .illegal | .trapWord .. => ((s.countRemote s.cur).withdrawWait s.cur).leave i e
  | .xlate .. => (s.withdrawWait s.cur).leave i e
  | _ => s.leave i e

/-- `n` more words have retired (R105). -/
def SysCsrs.retire (y : SysCsrs) (n : Nat) : SysCsrs :=
  if y.mcountinhibit.getLsbD 2 then y else { y with minstret := y.minstret + wordOf n }

/-- The words of the instruction: a pair retires as two (R101). -/
def Hart.words (x : Hart) : Nat := if x.pfx.isSome then 2 else 1

def State.retire (s : State) : State :=
  (s.countRemote s.cur).modMe fun x => { x with waiting := none, pfx := none, sys := x.sys.retire x.words }

/-- The instruction completes and the pc moves to the next word. -/
def State.complete (s : State) : State :=
  (s.countRemote s.cur).modMe fun x => { x with waiting := none, pfx := none, jumped := false, pc := x.pc + 4, sys := x.sys.retire x.words }

/-- Close the region automatically before the instruction (R43). -/
def State.autoClose (s : State) (code : BitVec 2) : State :=
  (s.closesOther s.cur).closeRegion s.cur code s.me.epc false

/-- Make an effect, or close the region first where it asks for it (R43); the second part is the state in which an effect
that did not complete ends. -/
def State.attempt (s : State) (body : State → Except Exc State) : State × Except Exc State :=
  match body s with
  | .error (.autoClose code) =>
    let s' := s.autoClose code
    if (s'.ending? s'.cur).isSome then (s', .error .ends) else (s', .error (.autoClose code))
  | r => (s, r)

/-- An instruction that leaves the region open and moves on to the next word. -/
def runOpen (i : Instr) (s : State) (body : State → Except Exc State) : Result :=
  match s.attempt body with
  | (_, .ok t) => .next t.complete
  | (s', .error e) => .next (s'.finishExc i e)

/-- A control transfer: the effect sets the pc. -/
def runJump (i : Instr) (s : State) (body : State → Except Exc State) : Result :=
  match s.attempt body with
  | (_, .ok t) => .next t.retire
  | (s', .error e) => .next (s'.finishExc i e)

/-- A region-closing instruction (R38, R127, R128): close, unless it closed when it began the wait it is in; then the
effect; then the checkpoint of the next region. An effect that takes the task off the hart has done the rest itself. -/
def runClosing (keepResv : Bool) (i : Instr) (s : State) (body : State → Except Exc State) : Result :=
  let s1 := if s.me.waiting.isSome then s
    else (if isGateWait i then s else s.closesOther s.cur).closeRegion s.cur 0 s.me.epc keepResv
  if (s1.ending? s1.cur).isSome then .next (s1.endHere s1.cur)
  else match body s1 with
    | .ok t =>
      if t.me.task = s1.me.task ∨ t.me.mode ≠ .u then
        let t := t.complete
        .next (if t.inRegion t.cur then t.checkpoint t.cur t.me.pc else t)
      else .next t
    | .error (.autoClose _) => .next (s1.finishExc i (.wait .late))
    | .error e => .next (s1.finishExc i e)

end Sys2Proof.Machine
end

