-- ==== Sys2Proof/Machine/Operands.lean ====
section
/-! DEFINITION. Operand forms of the hart's instructions: immediates, NaN-boxed f registers, sized memory values, and
the operands of CSR writes. -/

namespace Sys2Proof.Machine

/-- A 12-bit immediate, sign-extended. -/
def imm12 (i : BitVec 12) : Word := i.signExtend 64
/-- A branch offset from bits 12:1. -/
def immB (i : BitVec 12) : Word := i.signExtend 64 <<< 1
/-- A jump offset from bits 20:1. -/
def immJ (i : BitVec 20) : Word := i.signExtend 64 <<< 1
/-- An upper immediate. -/
def immU (i : BitVec 20) : Word := i.signExtend 64 <<< 12

/-- x[rs1] plus a 12-bit immediate as the address of an access. An address past either end of the address space is not formed
by wrapping: the access is refused as a whole (R48, log 64). -/
def State.baseAddr (s : State) (acc : Acc) (rs1 : Reg) (i : BitVec 12) : Except Exc Word :=
  let a := (s.x rs1).toNat + i.toInt
  if 0 ≤ a ∧ a < 2 ^ 64 then .ok (s.x rs1 + imm12 i) else .error (.trap acc.faultCause 0 (s.x rs1 + imm12 i))

/-- The low 32 bits of a word, sign-extended. -/
def sext32 (w : Word) : Word := (w.setWidth 32).signExtend 64

/-- A single-precision value in an f register (NaN-boxed, R105). -/
def boxS (v : BitVec 32) : Word := (0xFFFFFFFF : BitVec 32) ++ v
/-- The single-precision value an f register holds: the canonical NaN when it is not boxed. -/
def unboxS (w : Word) : BitVec 32 := if w.extractLsb' 32 32 = 0xFFFFFFFF then w.setWidth 32 else 0x7FC00000

/-- F and D instructions and accesses to fcsr are illegal while FS is Off (R402). -/
def State.needFs (s : State) : Except Exc Unit :=
  if fsOf s.me.sys.mstatus = 0 then .error .illegal else .ok ()

def LoadOp_size : LoadOp → Nat
  | .lb | .lbu => 1
  | .lh | .lhu => 2
  | .lw | .lwu | .flw => 4
  | .ld | .fld => 8

def StoreOp_size : StoreOp → Nat
  | .sb => 1
  | .sh => 2
  | .sw | .fsw => 4
  | .sd | .fsd => 8

/-- The register value of a loaded number. -/
def extendLoad (op : LoadOp) (n : Nat) : Word :=
  match op with
  | .lb => (BitVec.ofNat 8 n).signExtend 64
  | .lh => (BitVec.ofNat 16 n).signExtend 64
  | .lw => (BitVec.ofNat 32 n).signExtend 64
  | .lbu | .lhu | .lwu | .ld | .fld => wordOf n
  | .flw => boxS (BitVec.ofNat 32 n)

/-- The source of a Zicsr instruction: a register, or the 5-bit field zero-extended. -/
def State.csrSrc (s : State) (f : CsrForm) : Word := if f.imm then f.src.setWidth 64 else s.x f.src

/-- The new value that a Zicsr instruction writes, from the old. -/
def csrNew (f : CsrForm) (old src : Word) : Word :=
  match f.op with
  | .rw => src
  | .rs => old ||| src
  | .rc => old &&& ~~~src

/-- The larger and the smaller of two words as signed numbers. -/
def smax (a b : Word) : Word := if a.slt b then b else a
def smin (a b : Word) : Word := if a.slt b then a else b
def umax (a b : Word) : Word := if a < b then b else a
def umin (a b : Word) : Word := if a < b then a else b

/-- The new value of a base AMO on words of the operand's width, sign-extended (R74). -/
def amoNew (op : AmoOp) (old v : Word) : Word :=
  match op with
  | .swap => v
  | .add => old + v
  | .xor => old ^^^ v
  | .and => old &&& v
  | .or => old ||| v
  | .min => smin old v
  | .max => smax old v
  | .minu => umin old v
  | .maxu => umax old v

end Sys2Proof.Machine
end

