-- ==== Sys2Proof/Machine/Base.lean ====
section
/-! DEFINITION. The base instructions that reach memory or the privileged state (R2, R72, R78, R105, R119, R401, R403):
loads, stores, atomics, fences, returns and flushes. -/

namespace Sys2Proof.Machine

/-- Illegal instruction (R98): the step of a word that is no listed encoding. -/
def execIllegalInstruction (w : W32) (s : State) : Result :=
  runOpen (.illegalInstruction w) s fun _ => .error .illegal

/-! ## Loads and stores -/

/-- A base load (R69): the hart's own buffered stores first. -/
def execBaseLoad (op : LoadOp) (rd rs1 : Reg) (imm : BitVec 12) (s : State) : Result :=
  runOpen (.baseLoad op rd rs1 imm) s fun s => do
    match op with
    | .flw | .fld => s.needFs
    | _ => pure ()
    let a ← s.baseAddr .load rs1 imm
    let (s, bs) ← s.load a (LoadOp_size op) (LoadOp_size op)
    match op with
    | .flw | .fld => pure (s.setF rd (extendLoad op (leNat bs)))
    | _ => pure (s.setX rd (extendLoad op (leNat bs)))

/-- A base store (R41): buffered in the region, at once through a window. -/
def execBaseStore (op : StoreOp) (rs1 rs2 : Reg) (imm : BitVec 12) (s : State) : Result :=
  runOpen (.baseStore op rs1 rs2 imm) s fun s => do
    match op with
    | .fsw | .fsd => s.needFs
    | _ => pure ()
    let v := match op with
      | .fsw | .fsd => s.f rs2
      | _ => s.x rs2
    let a ← s.baseAddr .store rs1 imm
    s.store a (leBytes (StoreOp_size op) v.toNat) (StoreOp_size op)

/-! ## Atomics -/

/-- The operand of the width: 32-bit operands are sign-extended for the comparison and the result. -/
def amoWord (d : Bool) (w : Word) : Word := if d then w else sext32 w

/-- A base AMO: closes the region; the read and the write are one indivisible step (R74). -/
def execAmo (op : AmoOp) (d aq rl : Bool) (rd rs1 rs2 : Reg) (s : State) : Result :=
  runClosing false (.amo op d aq rl rd rs1 rs2) s fun s => do
    let n := if d then 8 else 4
    let (s, old) ← s.rmw (s.x rs1) n fun old =>
      leBytes n (amoNew op (amoWord d (wordOf (leNat old))) (amoWord d (s.x rs2))).toNat
    pure (s.setX rd (amoWord d (wordOf (leNat old))))

/-- `lr` reserves the naturally aligned 64 bytes that hold its address; windows fault (R51, R403). -/
def execLr (d aq rl : Bool) (rd rs1 : Reg) (s : State) : Result :=
  runOpen (.lr d aq rl rd rs1) s fun s => do
    let n := if d then 8 else 4
    let a := s.x rs1
    if canonical a && a.toNat % n == 0 && inWindows a then .error (.trap 5 0 a)
    else
      let (s, bs) ← s.load a n n
      let (s, ls) ← resolve s (s.view .load) .load a n n
      let line := (ls.headD (default, 0)).1.pa / 64
      let s := s.modMe fun x => { x with resv := some { line := line, addr := a, width := n } }
      pure (s.setX rd (amoWord d (wordOf (leNat bs))))

/-- `sc` closes the region without clearing the reservation, tests it, and writes on success (R403). -/
def execSc (d aq rl : Bool) (rd rs1 rs2 : Reg) (s : State) : Result :=
  runClosing true (.sc d aq rl rd rs1 rs2) s fun s => do
    let n := if d then 8 else 4
    let a := s.x rs1
    if canonical a && a.toNat % n == 0 && inWindows a then .error (.trap 7 0 a)
    else
      let (s, ls) ← resolve s (s.view .store) .store a n n
      let won := match s.me.resv with
        | some r => r.addr == a && r.width == n
        | none => false
      let v := s.x rs2
      let s := if won then performUnits s (some s.cur) (s.partOf (clusterOf s.cur)) ls (leBytes n v.toNat) else s
      let s := s.modMe fun x => { x with resv := none }
      pure (s.setX rd (if won then 0 else 1))

/-! ## Fences (R77, R78, R132, R133) -/

/-- The effect of a coloured fence: in a region a release-kind fence joins the store buffer; elsewhere every earlier
store is performed already and only ordering remains, which this model's single order of writes gives (log 5). -/
def State.fenceEffect (s : State) (mask : BitVec 8) (kind : FenceKind) : Except Exc State :=
  match kind with
  | .acquire => .ok s
  | .release | .both => if s.inRegion s.cur then s.appendEntry s.cur (.release mask) else .ok s

/-- `fence` executes as `cfence 0xFF, both, partition` (R78). -/
def execFence (fm p q : BitVec 4) (rs1 rd : Reg) (s : State) : Result :=
  runOpen (.fence fm p q rs1 rd) s fun s => s.fenceEffect 0xFF .both

/-- `fence.i` orders no data access (R78); every fetch of this model sees the hart's own stores (R69, log 63). -/
def execFenceI (imm : BitVec 12) (rs1 rd : Reg) (s : State) : Result :=
  runOpen (.fenceI imm rs1 rd) s fun s => .ok s

/-! ## Traps and returns -/

/-- `ebreak` raises breakpoint, cause 3 (R105); the value is the pc (log 10). -/
def execEbreak (s : State) : Result := runOpen .ebreak s fun s => .error (.trap 3 0 s.me.pc)

/-- Interrupts pending and enabled one by one, whatever the mode (privileged specification). -/
def State.supervisorEvent (s : State) (h : Nat) : Bool :=
  let c := clusterOf h
  let k := s.cluster c
  s.superHart c == h &&
    (decide (k.unread > 0) || !k.heldReqs.isEmpty || !k.heldRemote.isEmpty || k.lossNote || s.tasks.any fun e => e.2.state == .lost && e.2.cluster == c)

/-- mip with SEIP as the supervisor external interrupt gives it (R118, R120). -/
def State.mipOf (s : State) (h : Nat) : Word :=
  (s.hart h).sys.mip ||| (if s.supervisorEvent h then 0x200 else 0)

/-- `wfi` (R105): illegal in U mode, and in S mode under TW, whose time limit the model takes as 0 (DESIGN CHOICE, log 57: it
traps at once, an interrupt pending or not); otherwise it ends when an interrupt is pending. -/
def execWfi (s : State) : Result :=
  runOpen .wfi s fun s =>
    if s.me.mode = .u ∨ (s.me.mode = .s ∧ bits s.me.sys.mstatus 21 1 = 1) then .error .illegal
    else if s.mipOf s.cur &&& s.me.sys.mie = 0 then .error (.wait .long) else .ok s

/-- After a return to U mode a new region opens with its checkpoint (R119). -/
def State.openAtReturn (s : State) : State := if s.inRegion s.cur then s.checkpoint s.cur s.me.pc else s

/-- `sret`: illegal in U mode, and in S mode under TSR. It frees the hart when the held task has ended (R352). -/
def execSret (s : State) : Result :=
  runJump .sret s fun s =>
    if s.me.mode = .u ∨ (s.me.mode = .s ∧ bits s.me.sys.mstatus 22 1 = 1) then .error .illegal
    else
      let s := s.modMe fun x => x.sret
      if s.me.freeOnSret then .ok (s.freeHart s.cur) else .ok s.openAtReturn

/-- `mret`: M mode only. -/
def execMret (s : State) : Result :=
  runJump .mret s fun s =>
    if s.me.mode ≠ .m then .error .illegal else .ok (s.modMe fun x => x.mret).openAtReturn

/-! ## Flushes (R61, R146) -/

/-- What a flush matches: one page or all addresses, one address-space id or all. -/
structure Flush where
  page   : Option Nat
  asid   : Option (BitVec 16)
  global : Bool
  deriving DecidableEq, Repr, Inhabited

/-- A page matches the whole leaf that holds it (R60, R61). An entry made without stage 1 has no address-space id, and a flush
by id leaves it (DESIGN CHOICE, log 65). -/
def Flush.hitsTlb (f : Flush) (t : Tlb) : Bool :=
  (match f.page with | none => true | some p => t.vpn / t.span1 == p / t.span1) &&
  (match f.asid with | none => true | some a => !t.bare && t.asid == a && (f.global || !t.f1.getLsbD 5))

def Flush.hitsRun (f : Flush) (r : Run) : Bool :=
  (match f.page with
    | none => true
    | some p => decide (r.va.toNat % 2 ^ 57 / 4096 ≤ p) && decide (p ≤ (r.va.toNat % 2 ^ 57 + r.len - 1) / 4096)) &&
  (match f.asid with | none => true | some a => r.asid == a)

/-- Remove the matching entries of one cluster: TLBs and the extent runs of its live tasks. -/
def State.flushCluster (s : State) (c : Nat) (f : Flush) : State :=
  let s := s.modCluster c fun k =>
    { k with tlb1 := k.tlb1.mapVal fun _ l => l.filter fun t => !f.hitsTlb t,
             tlb2 := k.tlb2.filter fun t => !f.hitsTlb t }
  { s with tasks := s.tasks.mapVal fun _ t =>
      if t.cluster = c then { t with runs := t.runs.filter fun r => !f.hitsRun r } else t }

def flushClusters (s : State) (f : Flush) : List Nat → State
  | [] => s
  | c :: r => flushClusters (s.flushCluster c f) f r

/-- A store of a region that was made through a removed entry: one of these of the TLBs, or these runs of its task. -/
def Entry.through (ts : List Tlb) (rs : List Run) : Entry → Bool
  | .store _ _ addr _ pa _ =>
    (ts.any fun t => t.vpn == addr.toNat % 2 ^ 57 / 4096 && t.ppn == pa / 4096) ||
      rs.any fun r => decide (r.va.toNat ≤ addr.toNat) && decide (addr.toNat < r.va.toNat + r.len)
  | .release _ => false

/-- A region of a task, by its task, its sequence and its restarts. -/
def regionMark (h : Nat) (t : Task) : Word × BitVec 16 × BitVec 8 := (wordOf h, t.region.rseq, t.region.rst)

/-- The stores of a region that are not performed yet. -/
def Region.stores (r : Region) : List Entry := r.undrained ++ r.buf ++ r.log

/-- The regions of a cluster that hold stores made through entries that these tests remove (R61, R146). -/
def State.regionsThrough (s : State) (c : Nat) (hitT : Tlb → Bool) (hitR : Task → Run → Bool) :
    List (Word × BitVec 16 × BitVec 8) :=
  let k := s.cluster c
  let ts := ((k.tlb1.flatMap fun e => e.2) ++ k.tlb2).filter hitT
  (s.tasks.filter fun e => e.2.cluster == c &&
    e.2.region.stores.any fun x => x.through ts (e.2.runs.filter (hitR e.2))).map fun e => regionMark e.1 e.2

/-- Some of these regions still hold stores. -/
def State.regionsOpen (s : State) (l : List (Word × BitVec 16 × BitVec 8)) : Bool :=
  l.any fun m => match s.task? m.1 with
    | some t => regionMark m.1.toNat t == m && !t.region.stores.isEmpty
    | none => false

/-- A flush is complete only when every access that used a removed entry is (R61): the hart leaves rotation until then. -/
def State.flushWait (s : State) (f : Flush) (cs : List Nat) (flush : State → State) : Except Exc State :=
  match s.me.waiting with
  | some { kind := .flushing l, .. } => if s.regionsOpen l then .error (.wait (.flushing l)) else .ok s
  | _ =>
    let l := cs.flatMap fun c => s.regionsThrough c f.hitsTlb fun _ r => f.hitsRun r
    if l.isEmpty then .ok (flush s) else .error (.hold (flush s) (.flushing l))

/-- The clusters of a partition. -/
def State.clustersOf (s : State) (p : Nat) : List Nat :=
  (List.range 128).filter fun c => s.partOf c == some p

/-- `sfence.vma` reaches every cluster of the partition (R61); illegal in U mode, and in S mode under TVM. -/
def execSfenceVma (rs1 rs2 : Reg) (s : State) : Result :=
  runOpen (.sfenceVma rs1 rs2) s fun s =>
    if s.me.mode = .u ∨ (s.me.mode = .s ∧ bits s.me.sys.mstatus 20 1 = 1) then .error .illegal
    else
      let f : Flush :=
        { page := if rs1 = 0 then none else some ((s.x rs1).toNat % 2 ^ 57 / 4096),
          asid := if rs2 = 0 then none else some ((s.x rs2).setWidth 16), global := false }
      let cs := match s.partOf (clusterOf s.cur) with
        | some p => s.clustersOf p
        | none => [clusterOf s.cur]
      s.flushWait f cs fun s => flushClusters s f cs

end Sys2Proof.Machine
end

