-- ==== Sys2Proof/Machine/Copy.lean ====
section
/-! DEFINITION. The copy engine (R188 to R198): commands on channels, one 64-byte beat at a time. -/

namespace Sys2Proof.Machine

/-- The status word of a command (R190). -/
def CopySlot.status (x : CopySlot) : Word :=
  wordOf (x.done * 2 ^ 32 + (if x.state = 5 then x.sub * 2 ^ 24 + x.cause * 2 ^ 16 else 0) + (if x.state = 0 then 4 else x.state))

/-- The ticket of a slot (R189). -/
def CopySlot.ticket (x : CopySlot) (n : Nat) : Word := wordOf (2 ^ 31 + x.seq.toNat * 256 + n)

/-- Allocate a slot: one of the free ones, its sequence one higher, the command queued (R188, R189). Which one is left
open (log 4). -/
def State.allocSlot (s : State) (c : Nat) (x : CopySlot) : Option (State × Nat) :=
  match freeSlots (s.cluster c) with
  | [] => none
  | n :: r =>
    let n := (n :: r).getD (Config.freeSlot s.fresh % (r.length + 1)) n
    let s := s.useFresh.setSlot c n { x with seq := (s.slot c n).seq + 1, state := 1 }
    let s := s.modCluster c fun k => { k with copyQueue := k.copyQueue ++ [n] }
    some (s.post (.copyChannelStart c), n)

/-- An idle channel takes the oldest queued command (R188). -/
def State.startCopy (s : State) (c : Nat) : State :=
  let k := s.cluster c
  match k.copyQueue with
  | n :: r =>
    if k.channels.length < 16 ∧ !s.still c ∧ !((s.slot c n).kind == .fetch && s.halting c) then
      let s := s.setCluster c { k with copyQueue := r, channels := k.channels ++ [n] }
      let s := s.setSlot c n { s.slot c n with state := 2 }
      (s.post (.copyBeatWrite c (.own n))).post (.copyChannelStart c)
    else s
  | [] => s

/-- COPY_CHANNEL_START. -/
def execCopyChannelStart (c : Nat) (s : State) : Result := .next (s.startCopy c)

/-! ## Beats -/

/-- The view under which a command's global addresses are translated (R191). -/
def State.copyView (s : State) (c : Nat) (x : CopySlot) : View :=
  { mode := x.mode, satp := x.satp, sum := true, mxr := false, part := s.partOf c, cluster := c, core := coreOf x.hart,
    runs := if x.mode = .u then (match s.task? x.task with | some t => t.runs | none => []) else [], pmp := none }

/-- Why a beat does not go through: a fault, a page that is not present, or an uncorrectable error. -/
inductive BeatFault
  | fault (cause sub : Nat)
  | absent (stage access : Nat) (va : Word) (gpa : Nat)
  deriving DecidableEq, Repr, Inhabited

/-- What the failure of a translation means to a command (R62, R190, R197). -/
def beatFault (va : Word) : Exc → BeatFault
  | .xlate stage false access _ gpa => .absent stage access va gpa
  | .xlate _ true _ _ _ => .fault 50 0x03
  | _ => if inWindows va then .fault 50 0x04 else .fault 50 0x03

/-- Where byte `off` of a gathered command comes from. -/
def gatherAddr : List (Word × Nat) → Nat → Word
  | [], _ => 0
  | (a, n) :: r, off => if off < n then a + wordOf off else gatherAddr r (off - n)

def inStageWindow (a : Word) : Bool := decide (0x7F4000000000 ≤ a.toNat) && decide (a.toNat < 0x7F4000000000 + 64 * 2 ^ 20)
def inVaultWindow (a : Word) : Bool :=
  decide (0x7C0000000000 ≤ a.toNat) && decide (a.toNat < 0x7C0000000000 + 128 * vaultSize)

/-- The source of the next beat: a stage and offset of the cluster, or an address. -/
def CopySlot.source (x : CopySlot) : (Nat × Nat) ⊕ Word :=
  match x.kind with
  | .cpyout => .inl (copyStage x.word, copyOff x.word + x.done)
  | .gather => .inr (gatherAddr x.gather x.done)
  | .cpyin | .cpyx | .broadcast | .fetch =>
    if inStageWindow x.addr then
      let o := x.addr.toNat - 0x7F4000000000
      .inl (o / 2 ^ 20, o % 2 ^ 20 + x.done)
    else .inr (x.addr + wordOf x.done)

/-- Which armed detector reports on a source beat, and in what way (R383): the copy detector for any source, then that of
the memory read. -/
def copyDetector (k : Cluster) (vault global : Bool) : Option Nat :=
  if k.errinj.getLsbD 5 then some 5
  else if vault && k.errinj.getLsbD 3 then some 3
  else if global && k.errinj.getLsbD 4 then some 4
  else none

/-- A source beat meets an armed detector: a corrected error corrects the task, any other faults the command. -/
def State.copyDetect (s : State) (c : Nat) (task : Word) (vault global : Bool) : State × Bool :=
  let k := s.cluster c
  match copyDetector k vault global with
  | none => (s, false)
  | some b =>
    let s := s.setCluster c { k with errinj := k.errinj &&& ~~~(wordOf (2 ^ b)) }
    if k.errinj.getLsbD 8 then (s.correct task, false) else (s, true)

/-! ### Gather lists (R214) -/

/-- A list entry: its address and length, or check 1 or 2 failed. -/
def gatherEntry (bs : List Byte) : Except Nat (Word × Nat) :=
  let a := wordOf (leNat (bs.take 8))
  let n := leNat ((bs.drop 8).take 4)
  if leNat ((bs.drop 12).take 4) ≠ 0 ∨ n = 0 ∨ (inWindows a ∧ !inVaultWindow a) then .error 0x06
  else if !canonicalRange a n ∨ a.toNat % 64 ≠ 0 ∨ n % 64 ≠ 0 then .error 0x02
  else .ok (a, n)

def gatherEntries : Nat → List Byte → List (Except Nat (Word × Nat))
  | 0, _ => []
  | n + 1, bs => gatherEntry (bs.take 16) :: gatherEntries n (bs.drop 16)

/-- The list once every entry has passed; check 1 on any entry comes before check 2 on any. -/
def gatherList (es : List (Except Nat (Word × Nat))) : Except Nat (List (Word × Nat)) :=
  let bad := fun n => es.any fun e => match e with | .error m => m == n | .ok _ => false
  if bad 0x06 then .error 0x06
  else if bad 0x02 then .error 0x02
  else .ok (es.filterMap fun e => match e with | .ok p => some p | .error _ => none)

def copyLen (w : Word) : Nat := bits w 22 15

/-- The entries of a list, up to this total length. -/
def gatherRead (v : View) : Nat → State → Word → Nat → Except BeatFault (State × List (Word × Nat))
  | 0, s, _, _ => .ok (s, [])
  | m + 1, s, a, left =>
    if left = 0 then .ok (s, [])
    else match resolve s v .load a 16 16 with
      | .error e => .error (beatFault a e)
      | .ok (s, ls) => match gatherEntry (loadUnits s v.part [] ls) with
        | .error sub => .error (.fault 50 sub)
        | .ok e => match gatherRead v m s (a + 16) (left - e.2) with
          | .error f => .error f
          | .ok (s, r) => .ok (s, e :: r)

/-- The list of a gathered command. One that a restore has brought from another chip reads it again, for its record holds
the address of the list alone (R202, R203; log 49). -/
def State.gatherIn (s : State) (c n : Nat) (x : CopySlot) : State × Except BeatFault CopySlot :=
  if x.kind = .gather ∧ x.gather.isEmpty then
    match gatherRead (s.copyView c x) 256 s x.addr x.total with
    | .error f => (s, .error f)
    | .ok (s, l) => (s.setSlot c n { x with gather := l }, .ok { x with gather := l })
  else (s, .ok x)

/-- Read the 64 bytes of a source beat. -/
def State.readBeat (s : State) (c : Nat) (x : CopySlot) : State × Except BeatFault (List Byte) :=
  match x.source with
  | .inl (n, off) =>
    let t := s.stage c n
    if !t.defined then (s, .error (.fault 31 0x01))
    else if off + 64 > t.size then (s, .error (.fault 31 0x02))
    else
      let (s, bad) := s.copyDetect c x.task false false
      (s, if bad then .error (.fault 50 0x05) else .ok (s.bytes (t.current c off) 64))
  | .inr a =>
    match resolve s (s.copyView c x) .load a 64 64 with
    | .error e => (s, .error (beatFault a e))
    | .ok (s, ls) =>
      let (s, bad) := s.copyDetect c x.task (inWindows a) (!inWindows a)
      (s, if bad then .error (.fault 50 0x05) else .ok (loadUnits s (s.partOf c) [] ls))

/-- Deliver a beat to the stage of each destination cluster. -/
def arriveAll (s : State) (n off : Nat) (bs : List Byte) : List Nat → State × Except BeatFault Unit
  | [] => (s, .ok ())
  | d :: r => match s.arrive d n off bs with
    | .ok s => arriveAll s n off bs r
    | .error f => (s, .error (.fault f.1 f.2))

/-- Write a beat at its destination (R191, R193). -/
def State.writeBeat (s : State) (c : Nat) (x : CopySlot) (bs : List Byte) : State × Except BeatFault Unit :=
  let n := copyStage x.word
  let off := copyOff x.word + x.done
  match x.kind with
  | .cpyin | .gather | .fetch => arriveAll s n off bs [c]
  | .cpyx | .broadcast => arriveAll s n off bs x.targets
  | .cpyout =>
    let a := x.addr + wordOf x.done
    match resolve s (s.copyView c x) .store a 64 64 with
    | .error e => (s, .error (beatFault a e))
    | .ok (s, ls) => (performUnits s none (s.partOf c) ls bs, .ok ())

/-- The argument of a prefetch faults (R155): recorded, and the task looked at again. -/
def State.prefetchFails (s : State) (h : Word) (slot cause sub : Nat) : State :=
  (s.modTask h fun t =>
    { t with prefetch := t.prefetch.map fun p => if p = .copying slot then .failed cause sub else p }).post (.taskPrepared h)

/-- A command faults at a beat (R197, R198). The slot of a prefetch is freed at once (R158). -/
def State.copyFaults (s : State) (c n cause sub : Nat) : State :=
  let x := s.slot c n
  if x.kind = .fetch then
    let s := (s.freeSlot c n).disarmStage c (copyStage x.word)
    s.prefetchFails x.task n cause sub
  else
    let s := s.stopSlot c n 5
    let s := s.setSlot c n { s.slot c n with cause := cause, sub := sub }
    (s.report ringTerminal { mkReport s 2 cause sub c x.task with info := x.ticket n }).1

/-- A command is held on a page that is not present (R190). -/
def State.copyHolds (s : State) (c n stage access : Nat) (va : Word) (gpa : Nat) : State :=
  let x := s.slot c n
  let r := pageRing s c stage
  let (s, m) := s.report r { xlateReport s 2 c x.task stage access va gpa with info := x.ticket n }
  s.setSlot c n { x with state := 3, heldOn := some (r, m) }

/-- The ring that the failure of a beat goes to: the fault of a prefetch is reported by its task (R155). -/
def State.beatRing (s : State) (c n : Nat) : BeatFault → Option Nat
  | .fault _ _ => if (s.slot c n).kind = .fetch then none else some ringTerminal
  | .absent stage _ _ _ => some (pageRing s c stage)

/-- A beat fails; where its report finds no room, the beat is tried again (R355). -/
def State.beatFails (s : State) (c n : Nat) (f : BeatFault) : State :=
  if (s.beatRing c n f).any fun r => s.ringFull r c then s.post (.copyBeatWrite c (.own n))
  else match f with
    | .fault cause sub => s.copyFaults c n cause sub
    | .absent stage access va gpa => s.copyHolds c n stage access va gpa

/-- The task of a prefetch is in preparation and no end of it has been applied (R163). -/
def State.preparing (s : State) (h : Word) : Bool :=
  (s.task? h).any fun t => t.state == .preparing && t.ending.isNone

/-- A command is done: its slot is free at once, its channel idle (R190). The argument of a prefetch whose stage hoisted
before the last beat is published (R158). -/
def State.copyDone (s : State) (c n : Nat) : State :=
  let x := s.slot c n
  let s := (s.stopSlot c n 4).retryPrefetches c
  if x.kind = .fetch ∧ s.preparing x.task ∧ !(s.stage c (copyStage x.word)).due then
    let st := copyStage x.word
    ((s.modStage c st fun t => { t with prefetch := false }).prefetchesHoisted c st).retryPrefetches c
  else s

/-- A beat is written: the command goes on to the next, or is done. -/
def State.beatDone (s : State) (c n : Nat) : State :=
  let x := s.slot c n
  let s := s.setSlot c n { x with done := x.done + 64 }
  if x.state ≠ 2 then s
  else if x.done + 64 ≥ x.total then s.copyDone c n else s.post (.copyBeatWrite c (.own n))

/-- The command's beats go to another chip. -/
def CopySlot.leaves (x : CopySlot) (chip : BitVec 12) : Bool := x.kind == .cpyx && copyChip x.word != chip.toNat

/-- The name of a beat that leaves: the chip, the cluster, and the ticket of its command. -/
def beatName (chip : BitVec 12) (c : Nat) (ticket : Word) : Word := wordOf (chip.toNat * 2 ^ 40 + c * 2 ^ 32 + ticket.toNat)

/-- A beat of a `cpyx` leaves for the other chip, which looks up the stage (R191, R192). -/
def State.sendBeat (s : State) (c n : Nat) (x : CopySlot) (bs : List Byte) : State :=
  { (s.setSlot c n { x with out := true }).sendFlit c with departed := s.departed ++ [.beat (beatName s.chip c (x.ticket n)) (copyChip x.word)
      (copyDcl x.word) (copyStage x.word) (copyOff x.word + x.done) (BitVec.ofNat 512 (leNat bs))] }

/-- The next beat of an active command (R193); an engine that quiesces or stands still reads none (R200), nor does
a prefetch from step 1 of a stop on (R166). A beat is read and
written in one step, as all its units are (DESIGN CHOICE, log 62), so that none is read ahead. -/
def State.copyBeat (s : State) (c n : Nat) : State :=
  let x := s.slot c n
  if x.state ≠ 2 ∨ x.out ∨ s.still c ∨ (x.kind = .fetch ∧ s.halting c) then s
  else
    match s.gatherIn c n x with
    | (s, .error f) => s.beatFails c n f
    | (s, .ok x) =>
      match s.readBeat c x with
      | (s, .error f) => s.beatFails c n f
      | (s, .ok bs) =>
        if x.leaves s.chip then s.sendBeat c n x bs
        else match s.writeBeat c x bs with
          | (s, .error f) => s.beatFails c n f
          | (s, .ok ()) => s.beatDone c n

/-- A beat of another chip reaches a stage of this one (R192, R193, R360). -/
def State.beatArrives (s : State) (from_ : Word) (c n off : Nat) (data : BitVec 512) : State :=
  let r : State × BeatOutcome :=
    if s.refuses c then (s, .stopped)
    else match s.arrive c n off (leBytes 64 data.toNat) with
      | .ok s => (s, .written)
      | .error f => (s, .fault f.1 f.2)
  { r.1.sendFlit c with departed := r.1.departed ++ [.answer from_ r.2] }

/-- The answer to a beat that left: written, sent again to a partition that is stopped (R360), or the fault of the command. -/
def State.beatAnswered (s : State) (c n : Nat) (seq : BitVec 16) (o : BeatOutcome) : State :=
  let x := s.slot c n
  let full := match o with
    | .fault _ _ => s.ringFull ringTerminal c
    | .written | .stopped => false
  if x.seq ≠ seq ∨ !x.out then s
  else if full then s.post (.copyBeatWrite c (.answered n seq o))
  else
    let s := s.setSlot c n { x with out := false }
    match o with
    | .written => s.beatDone c n
    | .stopped => s.post (.copyBeatWrite c (.own n))
    | .fault cause sub => if x.state = 2 then s.copyFaults c n cause sub else s

/-- COPY_BEAT_WRITE. -/
def execCopyBeatWrite (c : Nat) (b : CopyBeat) (s : State) : Result :=
  .next (match b with
    | .own n => s.copyBeat c n
    | .arrival from_ n off data => s.beatArrives from_ c n off data
    | .answered n seq o => s.beatAnswered c n seq o)

end Sys2Proof.Machine
end

