-- ==== Sys2Proof/Machine/CopyOps.lean ====
section
/-! DEFINITION. The stage and copy instructions (R204 to R218). -/

namespace Sys2Proof.Machine

/-! ## Stages -/

/-- The cluster of the acting hart. -/
def State.here (s : State) : Nat := clusterOf s.cur

def stageNo (w : Word) : Nat := bits w 0 6

/-- A stage fault reports the register that named the stage (R206). -/
def stageTrap (sub : Nat) (w : Word) : Exc := .trap 31 sub w

/-- A hart of the cluster waits on the stage in `stwait` (R207). -/
def State.stwaiter (s : State) (c n : Nat) : Bool :=
  s.harts.any fun e => clusterOf e.1 == c && match e.2.waiting with
    | some { instr := .stwait _ rs1 _, .. } => stageNo (e.2.ctx.xreg rs1) == n
    | _ => false

/-- Footprints of two stages overlap (R207). -/
def overlaps (b1 n1 b2 n2 : Nat) : Bool := decide (b1 < b2 + n2) && decide (b2 < b1 + n1)

/-- A stage as `stdef` leaves it (R196, R207). -/
def newStage (size base : Nat) : Stage := { (default : Stage) with defined := decide (size ≠ 0), size := size, base := base }

/-- The geometry word of `stdef` is refused by check 1 (R207). -/
def badGeometry (g : Word) : Bool :=
  let size := bits g 32 32
  let base := bits g 0 22
  bits g 22 10 != 0 ||
    (size != 0 && (base % 64 != 0 || size % 64 != 0 || decide (size > 2 ^ 20) || decide (base + 2 * size > 2 ^ 22)))

def execStdef (rs1 rs2 : Reg) (s : State) : Result :=
  runClosing false (.stdef rs1 rs2) s fun s =>
    let a := s.x rs1
    let n := stageNo a
    let g := s.x rs2
    let size := bits g 32 32
    let base := bits g 0 22
    let c := s.here
    if badGeometry g then .error (stageTrap 0x08 a)
    else if (s.stage c n).lifts > 0 then .error (stageTrap 0x09 a)
    else if s.stageBusy c n || s.stwaiter c n then .error (stageTrap 0x06 a)
    else if size ≠ 0 ∧ (s.cluster c).stages.any fun e =>
        e.1 != n && e.2.defined && overlaps base (2 * size) e.2.base (2 * e.2.size) then .error (stageTrap 0x07 a)
    else .ok (s.setStage c n (if size = 0 then newStage 0 0 else newStage size base))

def execStarm (rd rs1 rs2 : Reg) (s : State) : Result :=
  runClosing false (.starm rd rs1 rs2) s fun s =>
    let a := s.x rs1
    let n := stageNo a
    let c := s.here
    let t := s.stage c n
    let v := s.x rs2
    if !t.defined then .error (stageTrap 0x01 a)
    else if t.lifts > 0 then .error (stageTrap 0x09 a)
    else if t.armed || t.prefetch then .error (.wait .long)
    else if v = 0 ∨ v.toNat % 64 ≠ 0 ∨ v.toNat > t.size then .error (stageTrap 0x05 a)
    else if t.count.toNat > v.toNat then .error (stageTrap 0x04 a)
    else .ok ((s.setX rd (t.gen.setWidth 64)).armStage c n (v.setWidth 32))

def execStwait (rd rs1 rs2 : Reg) (s : State) : Result :=
  runOpen (.stwait rd rs1 rs2) s fun s =>
    let a := s.x rs1
    let t := s.stage s.here (stageNo a)
    if !t.defined then .error (stageTrap 0x01 a)
    else if t.gen = (s.x rs2).setWidth 16 then .error (.wait .long)
    else .ok (s.setX rd (t.gen.setWidth 64))

/-- `stgen` reads word 1 when bit 8 of x[rs1] is set, else word 0 (R210). -/
def execStgen (rd rs1 : Reg) (s : State) : Result :=
  runOpen (.stgen rd rs1) s fun s =>
    let a := s.x rs1
    let t := s.stage s.here (stageNo a)
    .ok (s.setX rd (if a.getLsbD 8 then t.word1 else t.word0))

/-- `hoist` with a pin held waits, and takes place at the instant the last pin is released (R195). -/
def execHoist (rd rs1 : Reg) (s : State) : Result :=
  runClosing false (.hoist rd rs1) s fun s =>
    match s.me.waiting with
    | some { kind := .queued, reply := some (.value v), .. } => .ok (s.setX rd v)
    | _ =>
    let a := s.x rs1
    let n := stageNo a
    let c := s.here
    let t := s.stage c n
    if !t.defined then .error (stageTrap 0x01 a)
    else if t.lifts > 0 then .error (stageTrap 0x09 a)
    else if t.pins > 0 then
      .error (.hold (s.modStage c n fun t =>
        { t with hoisters := if t.hoisters.contains s.cur then t.hoisters else t.hoisters ++ [s.cur] }) .queued)
    else
      let s := (s.modStage c n fun t => { t.hoist with hoisters := t.hoisters.erase s.cur }).retryPrefetches c
      .ok (s.setX rd ((s.stage c n).gen.setWidth 64))

/-! ## Issue of copies (R212 to R215) -/

def copyMask (w : Word) : Nat := bits w 37 8

/-- Check 1 on the fields of the copy word. -/
def badFields (k : CopyKind) (w : Word) : Bool :=
  bits w 6 2 != 0 || (k != .cpyx && bits w 45 19 != 0) || (k != .broadcast && copyMask w != 0) ||
    (k == .broadcast && copyMask w == 0) || copyLen w == 0 ||
    (if k = .gather then decide (copyLen w > 256) else decide (copyLen w > 16384))

/-- Check 1 on an address: in the device windows, only in one that R213 permits. -/
def badWindow (k : CopyKind) (a : Word) : Bool :=
  inWindows a && !(match k with
    | .cpyx | .broadcast => inVaultWindow a || inStageWindow a
    | .gather => false
    | .cpyin | .cpyout | .fetch => inVaultWindow a)

/-- The clusters of a broadcast mask (R212). -/
def maskClusters (c mask : Nat) : List Nat :=
  ((List.range 8).filter fun i => mask / 2 ^ i % 2 == 1).map fun i => meadowOf c * 8 + i

/-- Check 3 (R192): the destination clusters of this package, or the refusal. -/
def State.copyTargets (s : State) (c : Nat) (k : CopyKind) (w : Word) : Option (List Nat) :=
  match k with
  | .cpyx =>
    let chip : BitVec 12 := BitVec.ofNat 12 (copyChip w)
    if s.permits c chip (copyDcl w) then some (if chip = s.chip then [copyDcl w] else []) else none
  | .broadcast =>
    let ds := maskClusters c (copyMask w)
    let inPart := match (s.partOf c).bind s.parts.find with
      | some p => ds.all fun d => p.clusters.getLsbD d
      | none => ds.all fun d => d == c
    if inPart && ds.all fun d => s.permits c s.chip d then some ds else none
  | .cpyin | .cpyout | .gather | .fetch => some []

def sumLens : List (Word × Nat) → Nat
  | [] => 0
  | e :: r => e.2 + sumLens r

/-- The destination of the command is, or is among others, a numbered stage of the issuing cluster. -/
def localDest (s : State) (c : Nat) (k : CopyKind) (w : Word) : Bool :=
  match k with
  | .cpyin | .gather | .fetch => true
  | .cpyx => copyChip w == s.chip.toNat && copyDcl w == c
  | .broadcast => (maskClusters c (copyMask w)).contains c
  | .cpyout => false

/-- Check 4 (R213, R215): the subcode of cause 31. -/
def State.copyStageFault (s : State) (c : Nat) (k : CopyKind) (w a : Word) (total : Nat) : Option Nat :=
  let t := s.stage c (copyStage w)
  let dst := localDest s c k w
  if (dst || k == .cpyout) && !t.defined then some 0x01
  else if dst && t.lifts > 0 then some 0x09
  else if (dst || k == .cpyout) && decide (copyOff w + total > t.size) then some 0x02
  else if inStageWindow a then
    let o := a.toNat - 0x7F4000000000
    let t := s.stage c (o / 2 ^ 20)
    if !t.defined then some 0x01 else if o % 2 ^ 20 + total > t.size then some 0x02 else none
  else none

/-- The command that an instruction issues. -/
def State.copyCommand (s : State) (k : CopyKind) (w a : Word) (gather : List (Word × Nat)) (targets : List Nat)
    (total : Nat) : CopySlot :=
  { seq := 0, state := 1, cause := 0, sub := 0, done := 0, total := total, kind := k, task := s.me.task.getD 0,
    hart := s.cur, word := w, satp := s.me.sys.satp, mode := s.me.mode, addr := a, gather := gather, targets := targets,
    out := false, heldOn := none }

/-- The list of a `cpygath`, read once: an instruction that waits goes on with what it has read (R214). -/
def State.readList (s : State) (w a : Word) : Except Exc (State × List (Word × Nat)) :=
  match s.me.waiting with
  | some { kind := .listed l, .. } => .ok (s, l)
  | _ => do
    let (s, bs) ← s.load a (copyLen w * 16) 16
    match gatherList (gatherEntries (copyLen w) bs) with
    | .error sub => throw (.trap 50 sub w)
    | .ok l => pure (s, l)

/-- How a copy instruction waits for a slot or a hold (R215). -/
def CopyKind.waits (k : CopyKind) (list : List (Word × Nat)) : WaitKind := if k = .gather then .listed list else .long

/-- Issue a copy: the checks of R215 in order, then the command queued and its ticket in rd. -/
def State.issueCopy (s : State) (k : CopyKind) (rd rs1 rs2 : Reg) : Except Exc State := do
  let a := s.x rs1
  let w := s.x rs2
  let c := s.here
  let refuse := fun (sub : Nat) => (Exc.trap 50 sub w)
  if badFields k w || badWindow k a then throw (refuse 0x06)
  if k ≠ .gather ∧ (!canonicalRange a (copyLen w * 64) ∨ a.toNat % 64 ≠ 0) then throw (refuse 0x02)
  if k = .gather ∧ (!canonicalRange a (copyLen w * 16) ∨ a.toNat % 16 ≠ 0) then throw (refuse 0x02)
  let (s, list) ← if k = .gather then s.readList w a else pure (s, [])
  let total := if k = .gather then sumLens list else copyLen w * 64
  match s.copyTargets c k w with
  | none => throw (refuse 0x01)
  | some ds =>
    if ds.any s.former.contains then throw (refuse 0x08)
    match s.copyStageFault c k w a total with
    | some sub => throw (Exc.trap 31 sub w)
    | none =>
      if localDest s c k w && (s.stage c (copyStage w)).prefetch && !(freeSlots (s.cluster c)).isEmpty then throw (.wait (k.waits list))
      match s.allocSlot c (s.copyCommand k w a list ds total) with
      | none => throw (.wait (k.waits list))
      | some (s, n) => pure (s.setX rd ((s.slot c n).ticket n))

def execCpyin (rd rs1 rs2 : Reg) (s : State) : Result :=
  runClosing false (.cpyin rd rs1 rs2) s fun s => s.issueCopy .cpyin rd rs1 rs2
def execCpyout (rd rs1 rs2 : Reg) (s : State) : Result :=
  runClosing false (.cpyout rd rs1 rs2) s fun s => s.issueCopy .cpyout rd rs1 rs2
def execCpyx (rd rs1 rs2 : Reg) (s : State) : Result :=
  runClosing false (.cpyx rd rs1 rs2) s fun s => s.issueCopy .cpyx rd rs1 rs2
def execCpygath (rd rs1 rs2 : Reg) (s : State) : Result :=
  runClosing false (.cpygath rd rs1 rs2) s fun s => s.issueCopy .gather rd rs1 rs2
def execCpybc (rd rs1 rs2 : Reg) (s : State) : Result :=
  runClosing false (.cpybc rd rs1 rs2) s fun s => s.issueCopy .broadcast rd rs1 rs2

/-! ## Following a command (R216, R217) -/

/-- The command a ticket names: its slot number, or none when it was reclaimed; the trap of R216. -/
def State.ticket (s : State) (t : Word) : Except Exc (Option Nat) :=
  if t.getLsbD 31 = false ∨ bits t 32 32 ≠ 0 ∨ bits t 24 7 ≠ 0 then .error (.trap 50 0x07 t)
  else
    let n := bits t 0 8
    if (s.slot s.here n).seq.toNat = bits t 8 16 then .ok (some n) else .ok none

/-- The status word of a reclaimed command (R190, R216). -/
def doneStatus : Word := 4

def execCpwait (rd rs1 : Reg) (s : State) : Result :=
  runOpen (.cpwait rd rs1) s fun s => do
    match ← s.ticket (s.x rs1) with
    | none => pure (s.setX rd doneStatus)
    | some n =>
      let x := s.slot s.here n
      match x.state with
      | 5 => throw (.trapAfter (s.freeSlot s.here n) x.cause x.sub (s.x rs1))
      | 6 => pure ((s.freeSlot s.here n).setX rd x.status)
      | 1 | 2 | 3 => throw (.wait .long)
      | _ => pure (s.setX rd x.status)

def execCpqry (rd rs1 : Reg) (s : State) : Result :=
  runOpen (.cpqry rd rs1) s fun s => do
    match ← s.ticket (s.x rs1) with
    | none => pure (s.setX rd doneStatus)
    | some n =>
      let x := s.slot s.here n
      let t := if x.state = 5 ∨ x.state = 6 then s.freeSlot s.here n else s
      pure (t.setX rd x.status)

def execCpcan (rd rs1 : Reg) (s : State) : Result :=
  runClosing false (.cpcan rd rs1) s fun s => do
    match ← s.ticket (s.x rs1) with
    | none => pure (s.setX rd 0)
    | some n =>
      let x := s.slot s.here n
      if x.unfinished then pure ((s.stopSlot s.here n 6).setX rd 1)
      else
        let t := if x.state = 5 ∨ x.state = 6 then s.freeSlot s.here n else s
        pure (t.setX rd 0)

end Sys2Proof.Machine
end

