-- ==== Sys2Proof/Machine/Csr.lean ====
section
/-! DEFINITION. The CSRs (R5, R6, R102 to R105, R115, R124, R235, R348, R377, R383, R402, and the privileged
specification): what each reads, what a write leaves, and the Zicsr instructions. -/

namespace Sys2Proof.Machine

/-! ## Views of single registers -/

/-- UXL and SXL are 2 in a machine whose only width is 64 bits (log 11). -/
def xlFields : Word := 0xA00000000
/-- The writable bits of mstatus: SIE, MIE, SPIE, MPIE, SPP, MPP, FS, MPRV, SUM, MXR, TVM, TW, TSR. -/
def mstatusMask : Word := 0x7E79AA
/-- The bits of sstatus among them: SIE, SPIE, SPP, FS, SUM, MXR. -/
def sstatusMask : Word := 0xC6122

/-- mstatus after a write: reserved MPP values keep the old field, and SD follows FS. -/
def mstatusWrite (old v : Word) : Word :=
  let n := (old &&& ~~~mstatusMask) ||| (v &&& mstatusMask)
  let n := if bits n 11 2 = 2 then setBits n 11 2 (bits old 11 2) else n
  setBits n 63 1 (if fsOf n = 3 then 1 else 0)

def sstatusRead (m : Word) : Word := (m &&& (sstatusMask ||| 0x8000000000000000)) ||| 0x200000000

def mieMask : Word := 0xAAA
def mipMask : Word := 0x222
def midelegMask : Word := 0x222
/-- The causes that can be delegated: the standard ones but for the environment call from M mode, and the device causes. -/
def medelegMask : Word := 0x1F0000FF00B3FF
/-- The cause registers keep bit 63 and bits 15:0 (R350). -/
def causeMask : Word := 0x800000000000FFFF

/-- A pmpcfg register after a write: locked entries keep their byte (privileged specification). -/
def pmpcfgWrite (old v : Word) : Nat → Word
  | 0 => 0
  | n + 1 =>
    let b := if bits old (8 * n + 7) 1 = 1 then bits old (8 * n) 8 else bits v (8 * n) 8 % 128 % 32 + bits v (8 * n) 8 / 128 * 128
    pmpcfgWrite old v n ||| wordOf (b <<< (8 * n))

def SysCsrs.pmpByte (y : SysCsrs) (i : Nat) : Nat :=
  if h : i / 8 < 8 then bits y.pmpcfg[i / 8] (8 * (i % 8)) 8 else 0

/-- pmpaddr i is locked by its own entry, or by a locked top-of-range entry after it. -/
def SysCsrs.pmpLocked (y : SysCsrs) (i : Nat) : Bool :=
  y.pmpByte i / 128 == 1 || (y.pmpByte (i + 1) / 128 == 1 && y.pmpByte (i + 1) / 8 % 4 == 1)

/-- The cycle counter: the free count of core clocks, shifted by what software wrote, or held while inhibited (R105). -/
def State.cycleOf (s : State) (h : Nat) : Word :=
  let y := (s.hart h).sys
  if y.mcountinhibit.getLsbD 0 then y.mcycle else Config.cyclesAt s.clock + y.mcycle

def SysCsrs.setCycle (y : SysCsrs) (clock : Nat) (v : Word) : SysCsrs :=
  { y with mcycle := if y.mcountinhibit.getLsbD 0 then v else v - Config.cyclesAt clock }

/-- `rgnst` (R124). -/
def Region.rgnst (r : Region) : Word :=
  wordOf (r.rseq.toNat + r.rst.toNat * 2 ^ 16 + r.close.toNat * 2 ^ 24 + r.buf.length * 2 ^ 26 + r.log.length * 2 ^ 36)

/-- `verdict` (R377): tainted with the launch. -/
def State.verdictCsr (s : State) (t : Task) : Word :=
  wordOf (s.seenVerdict t.launch t.verdict.toNat + min t.lossCount 2 * 256)

/-- `errinj` as it reads: the latches that serve the hart's core, pair and cluster (R383). -/
def State.errinjRead (s : State) : Word :=
  let k := s.myCluster
  let p := s.pair (pairOf s.cur)
  wordOf (k.errinj.toNat % 512 / 128 * 128 + (if k.errCore.getLsbD (coreOf s.cur % 8) then 64 else 0) +
    k.errinj.toNat % 64 / 4 * 4 + (if p.errTmem then 2 else 0) + (if p.errMpad then 1 else 0))

/-- `scrubctl` as it reads (R348). -/
def State.scrubctlRead (s : State) : Word :=
  let b := s.myCluster.scrubBusy
  b.setWidth 64 ||| (if b = 0 then 0 else 0x100)

/-! ## Writes of errinj and scrubctl, bit by bit -/

def State.armCluster (s : State) (bit : Nat) (arm : Bool) : State :=
  s.modCluster (clusterOf s.cur) fun k => { k with errinj := setBits k.errinj bit 1 (if arm then 1 else 0) }

def State.armLink (s : State) (arm : Bool) : State := s.armCluster 7 arm
/-- An armed core detector reports at its next check: core loss is then an event in flight, which a disarm takes back (R381,
R383). -/
def State.armCore (s : State) (arm : Bool) : State :=
  let k := coreOf s.cur % 8
  let s := (s.modCluster (clusterOf s.cur) fun c =>
    { c with errCore := if arm then c.errCore ||| BitVec.ofNat 8 (2 ^ k) else c.errCore &&& ~~~(BitVec.ofNat 8 (2 ^ k)) }).unpost
      (.coreLoss (coreOf s.cur))
  if arm then s.post (.coreLoss (coreOf s.cur)) else s
def State.armCopy (s : State) (arm : Bool) : State := s.armCluster 5 arm
def State.armHbm (s : State) (arm : Bool) : State := s.armCluster 4 arm
def State.armVault (s : State) (arm : Bool) : State := s.armCluster 3 arm
def State.armPad (s : State) (arm : Bool) : State := s.armCluster 2 arm
/-- The tile-memory detector reports one corrected error at its next check (R234). -/
def State.armTmem (s : State) (arm : Bool) : State := s.modPair (pairOf s.cur) fun p => { p with errTmem := arm }
def State.armMpad (s : State) (arm : Bool) : State := s.modPair (pairOf s.cur) fun p => { p with errMpad := arm }

def State.errinjWrite (s : State) (v : Word) : State :=
  let s := (((s.armCluster 8 (v.getLsbD 8)).armLink (v.getLsbD 7)).armCopy (v.getLsbD 5)).armHbm (v.getLsbD 4)
  let s := (((s.armVault (v.getLsbD 3)).armPad (v.getLsbD 2)).armTmem (v.getLsbD 1)).armMpad (v.getLsbD 0)
  s.armCore (v.getLsbD 6)

/-- Start a scrub of the named units; a write while busy is ignored (R348). -/
def State.scrubStart (s : State) (units : BitVec 3) : State :=
  if s.myCluster.scrubBusy ≠ 0 ∨ units = 0 then s
  else (s.modCluster (clusterOf s.cur) fun k => { k with scrubBusy := units }).post (.supervisorScrubDone (clusterOf s.cur))

/-! ## Reading -/

/-- A counter may be read in this mode (R402): mcounteren below M mode, scounteren below S mode. -/
def Hart.counterOk (x : Hart) (n : Nat) : Bool :=
  match x.mode with
  | .m => true
  | .s => x.sys.mcounteren.getLsbD n
  | .u => x.sys.mcounteren.getLsbD n && x.sys.scounteren.getLsbD n

/-- The value of a CSR in S or U range, or none. -/
def State.csrLow (s : State) (n : Nat) : Option Word :=
  let x := s.me
  let y := x.sys
  let t := s.myTask
  if n = 0x001 then some ((x.ctx.fcsr.extractLsb' 0 5).setWidth 64)
  else if n = 0x002 then some ((x.ctx.fcsr.extractLsb' 5 3).setWidth 64)
  else if n = 0x003 then some (x.ctx.fcsr.setWidth 64)
  else if n = 0x100 then some (sstatusRead y.mstatus)
  else if n = 0x104 then some (y.mie &&& y.mideleg)
  else if n = 0x105 then some y.stvec
  else if n = 0x106 then some (y.scounteren.setWidth 64)
  else if n = 0x10A then some y.senvcfg
  else if n = 0x140 then some y.sscratch
  else if n = 0x141 then some y.sepc
  else if n = 0x142 then some y.scause
  else if n = 0x143 then some y.stval
  else if n = 0x144 then some (s.mipOf s.cur &&& y.mideleg)
  else if n = 0x180 then some y.satp
  else if n = 0x800 then some (x.ctx.stcol.setWidth 64)
  else if n = 0x801 then some (x.ctx.vrm.setWidth 64)
  else if h : 0x804 ≤ n ∧ n < 0x808 then some (x.ctx.mfmt[n - 0x804].setWidth 64)
  else if n = 0x808 then some (x.ctx.mgang.setWidth 64)
  else if n = 0x810 then some (match t with | some t => t.region.rgnst | none => Region.zero.rgnst)
  else if n = 0x5C0 then some s.errinjRead
  else if n = 0x5C1 then some s.scrubctlRead
  else if 0xCC0 ≤ n ∧ n < 0xCC8 then some (match t with | some t => t.lid.getD (n - 0xCC0) 0 | none => 0)
  else if 0xCC8 ≤ n ∧ n < 0xCD0 then some (match t with | some t => t.lcnt.getD (n - 0xCC8) 1 | none => 1)
  else if n = 0xCD0 then some (x.task.getD 0)
  else if n = 0xCD1 then some (hartloc s.chip s.cur)
  else if n = 0xCD2 then some (if isCompute s.cur then 1 else 0)
  else if n = 0xCD3 then some (match t with | some t => s.verdictCsr t | none => 0)
  else if 0xC00 ≤ n ∧ n < 0xC20 then
    if !x.counterOk (n - 0xC00) then none
    else if n = 0xC00 then some (s.cycleOf s.cur)
    else if n = 0xC01 then some (Config.timeAt s.clock)
    else if n = 0xC02 then some y.minstret
    else some 0
  else none

/-- The value of an M-mode CSR, or none. -/
def State.csrHigh (s : State) (n : Nat) : Option Word :=
  let y := s.me.sys
  if n = 0x300 then some (y.mstatus ||| xlFields)
  else if n = 0x301 then some 0x8000000000141129
  else if n = 0x302 then some y.medeleg
  else if n = 0x303 then some y.mideleg
  else if n = 0x304 then some y.mie
  else if n = 0x305 then some y.mtvec
  else if n = 0x306 then some (y.mcounteren.setWidth 64)
  else if n = 0x30A then some y.menvcfg
  else if n = 0x320 then some (y.mcountinhibit.setWidth 64)
  else if 0x323 ≤ n ∧ n < 0x340 then some 0
  else if n = 0x340 then some y.mscratch
  else if n = 0x341 then some y.mepc
  else if n = 0x342 then some y.mcause
  else if n = 0x343 then some y.mtval
  else if n = 0x344 then some (s.mipOf s.cur)
  else if h : 0x3A0 ≤ n ∧ n < 0x3B0 then
    if n % 2 = 0 then some y.pmpcfg[(n - 0x3A0) / 2] else none
  else if h : 0x3B0 ≤ n ∧ n < 0x3F0 then some y.pmpaddr[n - 0x3B0]
  else if n = 0xB00 then some (s.cycleOf s.cur)
  else if n = 0xB02 then some y.minstret
  else if 0xB03 ≤ n ∧ n < 0xB20 then some 0
  else if n = 0xF11 ∨ n = 0xF12 ∨ n = 0xF13 ∨ n = 0xF15 then some 0
  else if n = 0xF14 then some (wordOf s.cur)
  else none

/-- The lowest mode of a CSR, from bits 9:8 of its number (R6). -/
def csrLevel (n : Nat) : Nat := n / 256 % 4
/-- Bits 11:10 are 11: read-only as a whole (R6). -/
def csrReadOnly (n : Nat) : Bool := n / 1024 == 3

/-- Read a CSR, or raise the illegal instruction that R6, R102 and R402 give. -/
def State.csrRead (s : State) (n : Nat) : Except Exc Word := do
  if s.me.mode.code < csrLevel n then .error .illegal
  if n = 0x001 ∨ n = 0x002 ∨ n = 0x003 then s.needFs
  if n = 0x180 ∧ s.me.mode = .s ∧ bits s.me.sys.mstatus 20 1 = 1 then .error .illegal
  match (if csrLevel n = 3 then s.csrHigh n else s.csrLow n) with
  | some v => .ok v
  | none => .error .illegal

/-! ## Writing -/

/-- `satp` accepts mode 0 and mode 10; a write of another mode leaves it (R105). -/
def satpWrite (old v : Word) : Word := if bits v 60 4 = 0 ∨ bits v 60 4 = 10 then v else old

/-- `vrm`: an illegal value leaves the field (R103). -/
def vrmWrite (old : BitVec 3) (v : Word) : BitVec 3 := if bits v 0 3 ≤ 4 then v.setWidth 3 else old

/-- `mfmtN`: rm values 101 and 110 leave that field and write the others (R104). -/
def mfmtWrite (old : BitVec 18) (v : Word) : BitVec 18 :=
  if bits v 15 3 = 5 ∨ bits v 15 3 = 6 then old.extractLsb' 15 3 ++ v.extractLsb' 0 15 else v.setWidth 18

/-- `mgang`: bits 6:4 are reserved and read zero (R235). -/
def mgangWrite (v : Word) : BitVec 18 := (v &&& 0x3FF8F).setWidth 18

def State.modSys (s : State) (f : SysCsrs → SysCsrs) : State := s.modMe fun x => { x with sys := f x.sys }
def State.modCtx (s : State) (f : Ctx → Ctx) : State := s.modMe fun x => { x with ctx := f x.ctx }

/-- A write to a CSR of the S or U range. Reserved and read-only fields are left (R5). -/
def State.csrSetLow (s : State) (n : Nat) (v : Word) : State :=
  let c := s.me.ctx.fcsr
  if n = 0x001 then s.setFcsr (c.extractLsb' 5 3 ++ v.extractLsb' 0 5)
  else if n = 0x002 then s.setFcsr (v.extractLsb' 0 3 ++ c.extractLsb' 0 5)
  else if n = 0x003 then s.setFcsr (v.setWidth 8)
  else if n = 0x100 then s.modSys fun y =>
    { y with mstatus := mstatusWrite y.mstatus ((y.mstatus &&& ~~~sstatusMask) ||| (v &&& sstatusMask)) }
  else if n = 0x104 then s.modSys fun y => { y with mie := (y.mie &&& ~~~y.mideleg) ||| (v &&& y.mideleg) }
  else if n = 0x105 then s.modSys fun y => { y with stvec := v &&& ~~~(2 : Word) }
  else if n = 0x106 then s.modSys fun y => { y with scounteren := v.setWidth 32 }
  else if n = 0x10A then s.modSys fun y => { y with senvcfg := v &&& 1 }
  else if n = 0x140 then s.modSys fun y => { y with sscratch := v }
  else if n = 0x141 then s.modSys fun y => { y with sepc := v &&& ~~~(3 : Word) }
  else if n = 0x142 then s.modSys fun y => { y with scause := v &&& causeMask }
  else if n = 0x143 then s.modSys fun y => { y with stval := v }
  else if n = 0x144 then s.modSys fun y => { y with mip := (y.mip &&& ~~~(y.mideleg &&& 2)) ||| (v &&& y.mideleg &&& 2) }
  else if n = 0x180 then s.modSys fun y => { y with satp := satpWrite y.satp v }
  else if n = 0x800 then s.modCtx fun c => { c with stcol := v.setWidth 3 }
  else if n = 0x801 then s.modCtx fun c => { c with vrm := vrmWrite c.vrm v }
  else if h : 0x804 ≤ n ∧ n < 0x808 then
    s.modCtx fun c => { c with mfmt := c.mfmt.set (n - 0x804) (mfmtWrite c.mfmt[n - 0x804] v) }
  else if n = 0x808 then s.modCtx fun c => { c with mgang := mgangWrite v }
  else if n = 0x5C0 then s.errinjWrite v
  else if n = 0x5C1 then s.scrubStart (v.setWidth 3)
  else s

/-- A write to an M-mode CSR. -/
def State.csrSetHigh (s : State) (n : Nat) (v : Word) : State :=
  if n = 0x300 then s.modSys fun y => { y with mstatus := mstatusWrite y.mstatus v }
  else if n = 0x302 then s.modSys fun y => { y with medeleg := v &&& medelegMask }
  else if n = 0x303 then s.modSys fun y => { y with mideleg := v &&& midelegMask }
  else if n = 0x304 then s.modSys fun y => { y with mie := v &&& mieMask }
  else if n = 0x305 then s.modSys fun y => { y with mtvec := v &&& ~~~(2 : Word) }
  else if n = 0x306 then s.modSys fun y => { y with mcounteren := v.setWidth 32 }
  else if n = 0x30A then s.modSys fun y => { y with menvcfg := v &&& 1 }
  else if n = 0x320 then
    let c := s.cycleOf s.cur
    s.modSys fun y => ({ y with mcountinhibit := (v &&& 5).setWidth 32 } : SysCsrs).setCycle s.clock c
  else if n = 0x340 then s.modSys fun y => { y with mscratch := v }
  else if n = 0x341 then s.modSys fun y => { y with mepc := v &&& ~~~(3 : Word) }
  else if n = 0x342 then s.modSys fun y => { y with mcause := v &&& causeMask }
  else if n = 0x343 then s.modSys fun y => { y with mtval := v }
  else if n = 0x344 then s.modSys fun y => { y with mip := (y.mip &&& ~~~mipMask) ||| (v &&& mipMask) }
  else if h : 0x3A0 ≤ n ∧ n < 0x3B0 then
    s.modSys fun y => { y with pmpcfg := y.pmpcfg.set ((n - 0x3A0) / 2) (pmpcfgWrite y.pmpcfg[(n - 0x3A0) / 2] v 8) }
  else if h : 0x3B0 ≤ n ∧ n < 0x3F0 then
    s.modSys fun y => if y.pmpLocked (n - 0x3B0) then y
      else { y with pmpaddr := y.pmpaddr.set (n - 0x3B0) (v &&& 0x3FFFFFFFFFFFFF) }
  else if n = 0xB00 then s.modSys fun y => y.setCycle s.clock v
  else if n = 0xB02 then s.modSys fun y =>
    { y with minstret := if y.mcountinhibit.getLsbD 2 then v else v - 1 }
  else s

def State.csrSet (s : State) (n : Nat) (v : Word) : State :=
  if csrLevel n = 3 then s.csrSetHigh n v else s.csrSetLow n v

/-- The value that a set or clear form works on: of `mip` the bits that software wrote, without the external signal
(privileged specification, 3.1.9). -/
def State.csrBase (s : State) (n : Nat) (old : Word) : Word := if n = 0x344 then s.me.sys.mip else old

/-- The effect of a Zicsr instruction: the old value to rd, the new value to the CSR when the form writes (R6). -/
def State.csrEffect (s : State) (csr : BitVec 12) (f : CsrForm) : Except Exc State := do
  let n := csr.toNat
  let old ← s.csrRead n
  if f.writes && csrReadOnly n then .error .illegal
  let src := s.csrSrc f
  let s := if f.writes then s.csrSet n (csrNew f (s.csrBase n old) src) else s
  pure (s.setX f.rd old)

/-! ## The instructions -/

/-- A Zicsr instruction (R6). -/
def execCsrAccess (csr : BitVec 12) (f : CsrForm) (s : State) : Result :=
  runOpen (.csrAccess csr f) s fun s => s.csrEffect csr f

/-- A write of the store colour (R75), applying from the next store (R76). -/
def execStcolWrite (f : CsrForm) (s : State) : Result := runOpen (.stcolWrite f) s fun s => s.csrEffect 0x800 f

/-- A write of `vrm` (R103). -/
def execVrmWrite (f : CsrForm) (s : State) : Result := runOpen (.vrmWrite f) s fun s => s.csrEffect 0x801 f

/-- A write of `mfmtN` (R104). -/
def execMfmtWrite (n : BitVec 2) (f : CsrForm) (s : State) : Result :=
  runOpen (.mfmtWrite n f) s fun s => s.csrEffect ((0x201 : BitVec 10) ++ n) f

/-- A write of `mgang` (R235). -/
def execMgangWrite (f : CsrForm) (s : State) : Result := runOpen (.mgangWrite f) s fun s => s.csrEffect 0x808 f

/-- A write of `satp` (R105). -/
def execSatpWrite (f : CsrForm) (s : State) : Result := runOpen (.satpWrite f) s fun s => s.csrEffect 0x180 f

/-! The writes of single bits of `errinj` and `scrubctl` (R348, R383): the effect that a write of the register by the
acting hart, in S or M mode, has on that bit. -/

def execErrinjLink (arm : Bool) (s : State) : Result := .next (s.armLink arm)
def execErrinjCore (arm : Bool) (s : State) : Result := .next (s.armCore arm)
def execErrinjCopy (arm : Bool) (s : State) : Result := .next (s.armCopy arm)
def execErrinjHbm (arm : Bool) (s : State) : Result := .next (s.armHbm arm)
def execErrinjVault (arm : Bool) (s : State) : Result := .next (s.armVault arm)
def execErrinjPad (arm : Bool) (s : State) : Result := .next (s.armPad arm)
def execErrinjTmem (arm : Bool) (s : State) : Result := .next (s.armTmem arm)
def execErrinjMpad (arm : Bool) (s : State) : Result := .next (s.armMpad arm)
def execScrubctlVault (s : State) : Result := .next (s.scrubStart 4)
def execScrubctlTiles (s : State) : Result := .next (s.scrubStart 2)
def execScrubctlPad (s : State) : Result := .next (s.scrubStart 1)

end Sys2Proof.Machine
end

