-- ==== Sys2Proof/Machine/HartOps.lean ====
section
/-! DEFINITION. The hart instructions of custom-0 (R127 to R146): region control, schedule selection, bit fields, the
coloured fence, scoped atomics, barriers, semaphores and the translation flush. -/

namespace Sys2Proof.Machine

/-- `rcommit` closes the region and has no effect of its own (R129). -/
def execRcommit (s : State) : Result := runClosing false .rcommit s fun s => .ok s

/-! ## phase (R33, R130) -/

/-- A doubleword of a launch record. -/
def recWord (r : List Byte) (o : Nat) : Word := wordOf (leNat ((r.drop o).take 8))

/-- The bound and entry of each valid schedule variant, in order (R23). -/
def variants (r : List Byte) : List (Word × Word) :=
  (List.range (r.getD 3 0).toNat).map fun i => (recWord r (0x60 + 16 * i), recWord r (0x68 + 16 * i))

/-- The better of two variants for a size: a bound that suffices before one that does not; the smallest that suffices,
else the largest; the lower index on equal bounds. -/
def betterVariant (size : Word) (a b : Word × Word) : Word × Word :=
  if size ≤ a.1 then (if size ≤ b.1 ∧ b.1 < a.1 then b else a)
  else if size ≤ b.1 then b
  else if a.1 < b.1 then b else a

/-- The entry that R33 chooses. -/
def chooseVariant (r : List Byte) (size : Word) : Word :=
  match variants r with
  | [] => recWord r 8
  | v :: vs => (vs.foldl (betterVariant size) v).2

/-- `phase` (R130): 0 without a task. -/
def execPhase (rd rs1 : Reg) (s : State) : Result :=
  runOpen (.phase rd rs1) s fun s =>
    let v := match s.myTask.bind fun t => s.launches.find t.launch with
      | some l => chooseVariant l.record (s.x rs1)
      | none => 0
    .ok (s.setX rd v)

/-! ## Bit fields (R131) -/

/-- The effective width: a field never passes bit 63. -/
def fieldWidth (d : Word) : Nat := min (bits d 8 7) (64 - bits d 0 6)

def bfxVal (a d : Word) : Word :=
  let p := bits d 0 6
  let we := fieldWidth d
  if we = 0 then 0
  else
    let v := bits a p we
    if bits d 15 1 = 1 ∧ v / 2 ^ (we - 1) = 1 then wordOf (v + (2 ^ 64 - 2 ^ we)) else wordOf v

def bfiVal (old a d : Word) : Word :=
  let we := fieldWidth d
  if we = 0 then old else setBits old (bits d 0 6) we (bits a 0 we)

def execBfx (rd rs1 rs2 : Reg) (s : State) : Result :=
  runOpen (.bfx rd rs1 rs2) s fun s => .ok (s.setX rd (bfxVal (s.x rs1) (s.x rs2)))

def execBfi (rd rs1 rs2 : Reg) (s : State) : Result :=
  runOpen (.bfi rd rs1 rs2) s fun s => .ok (s.setX rd (bfiVal (s.x rd) (s.x rs1) (s.x rs2)))

/-! ## cfence, samo, scas -/

/-- `cfence` (R77, R132, R133). A release-kind fence that names scope 7 in a region is counted (R64) when its entry joins the
buffer, also where the region then aborts and drops the entry (DESIGN CHOICE, log 66). -/
def execCfence (mask : BitVec 8) (kind : FenceKind) (scope : BitVec 3) (s : State) : Result :=
  runOpen (.cfence mask kind scope) s fun s => do
    let s ← s.fenceEffect mask kind
    pure (s.countClamp scope.toNat)

/-- The new doubleword of `samo` (R135). -/
def caNew (op : CaOp) (old v : Word) : Word :=
  match op with
  | .add => old + v
  | .swap => v
  | .and => old &&& v
  | .or => old ||| v
  | .xor => old ^^^ v
  | .max => smax old v
  | .min => smin old v
  | .maxu => umax old v
  | .minu => umin old v

/-- One indivisible read-modify-write of the doubleword at x[rs1]; after it the reservation is clear (R135, R403). -/
def State.rmw64 (s : State) (rd rs1 : Reg) (scope : BitVec 3) (f : Word → Word) : Except Exc State := do
  let (s, old) ← s.rmw (s.x rs1) 8 fun old => leBytes 8 (f (wordOf (leNat old))).toNat
  let s := s.modMe fun x => { x with resv := none }
  pure ((s.setX rd (wordOf (leNat old))).countClamp scope.toNat)

def execSamo (op : CaOp) (scope : BitVec 3) (rd rs1 rs2 : Reg) (s : State) : Result :=
  runClosing false (.samo op scope rd rs1 rs2) s fun s => s.rmw64 rd rs1 scope fun old => caNew op old (s.x rs2)

/-- `scas`: an unsuccessful one writes the value it read (R135, R136). -/
def execScas (scope : BitVec 3) (rd rs1 rs2 : Reg) (s : State) : Result :=
  runClosing false (.scas scope rd rs1 rs2) s fun s =>
    s.rmw64 rd rs1 scope fun old => if old = s.x rd then s.x rs2 else old

/-! ## Named barriers (R137 to R142) -/

/-- The instance that a selector names for a hart: its scope after the clamp, and its key; or the fault subcode. -/
def State.barrierKey (s : State) (h : Nat) (sel : Word) : Except Nat Nat :=
  let id := bits sel 0 6
  let scope := s.clampScopeOf h (bits sel 8 3)
  if id ≥ 48 then .error 0x01
  else
    let unit : Option Nat := match scope with
      | 1 => some (coreOf h)
      | 2 => some (pairOf h)
      | 3 => some (clusterOf h)
      | 4 => some (meadowOf (clusterOf h))
      | _ => none
    match unit with
    | none => .error 0x02
    | some u =>
      let part := if scope = 4 then (match s.partOf (clusterOf h) with | some p => p + 1 | none => 0) else 0
      .ok (((scope * 1024 + u) * 128 + part) * 64 + id)

def State.barrier (s : State) (k : Nat) : Barrier := s.barriers.get k { count := 0, arrivals := 0, phase := 0 }
def State.setBarrier (s : State) (k : Nat) (b : Barrier) : State := { s with barriers := s.barriers.put k b }

/-- The instance of an instruction's selector, or the trap of R139. -/
def State.myBarrier (s : State) (rs1 : Reg) : Except Exc Nat :=
  match s.barrierKey s.cur (s.x rs1) with
  | .ok k => .ok k
  | .error sub => .error (.trap 52 sub (s.x rs1))

/-- One arrival (R138, R140): the one that brings arrivals to count completes the phase. -/
def Barrier.arrive (b : Barrier) : Barrier :=
  if b.arrivals + 1 = b.count then { b with arrivals := 0, phase := b.phase + 1 } else { b with arrivals := b.arrivals + 1 }

/-- The hart waits in `barwait` on the instance, which no completion has released yet. -/
def State.inBarwait (s : State) (h : Nat) (x : Hart) (k : Nat) : Bool :=
  match x.waiting with
  | some { instr := .barwait rs1 _, reply := none, .. } => (s.barrierKey h (x.ctx.xreg rs1)).toOption == some k
  | _ => false

/-- Every hart that waits on a phase of the instance is released (R138, R141). -/
def State.releaseBarrier (s : State) (k : Nat) (phase : BitVec 16) : State :=
  { s with harts := s.harts.mapVal fun h x => match x.waiting with
      | some w => if (w.kind = .arrived k phase ∧ w.reply = none) ∨ s.inBarwait h x k then
          { x with waiting := some { w with reply := some (.value (phase.setWidth 64)) } } else x
      | none => x }

/-- An arrival at an instance (R138): the last one of a phase releases those that wait on it. -/
def State.arriveAt (s : State) (k : Nat) : State :=
  let b := s.barrier k
  let s := s.setBarrier k b.arrive
  if b.arrivals + 1 = b.count then s.releaseBarrier k b.phase else s

/-- Some hart waits in `barwait` on the instance's phase (R139). -/
def State.barrierWaiter (s : State) (k : Nat) : Bool := s.harts.any fun e => s.inBarwait e.1 e.2 k

def execBarinit (rs1 rs2 : Reg) (s : State) : Result :=
  runClosing false (.barinit rs1 rs2) s fun s => do
    let k ← s.myBarrier rs1
    let n : BitVec 16 := (s.x rs2).setWidth 16
    let b := s.barrier k
    if n = 0 then .error (.trap 52 0x03 (s.x rs1))
    else if b.arrivals ≠ 0 ∨ s.barrierWaiter k then .error (.trap 52 0x04 (s.x rs1))
    else pure ((s.setBarrier k { b with count := n, arrivals := 0 }).countClamp (bits (s.x rs1) 8 3))

def execBarrive (rd rs1 : Reg) (s : State) : Result :=
  runClosing false (.barrive rd rs1) s fun s => do
    let k ← s.myBarrier rs1
    let b := s.barrier k
    if b.count = 0 then .error (.trap 52 0x05 (s.x rs1))
    else pure (((s.arriveAt k).countClamp (bits (s.x rs1) 8 3)).setX rd (b.phase.setWidth 64))

/-- `barwait` returns once the phase differs from the one it names (R140): at once, or after the completion that released it. -/
def execBarwait (rs1 rs2 : Reg) (s : State) : Result :=
  runOpen (.barwait rs1 rs2) s fun s => do
    if s.me.waiting.any fun w => w.reply.isSome then return s.countClamp (bits (s.x rs1) 8 3)
    let k ← s.myBarrier rs1
    let b := s.barrier k
    if b.count = 0 then .error (.trap 52 0x05 (s.x rs1))
    else if b.phase = (s.x rs2).setWidth 16 then .error (.wait .long)
    else pure (s.countClamp (bits (s.x rs1) 8 3))

/-- `barsync`: one arrival, then the wait for that phase to complete (R140, R141). -/
def execBarsync (rd rs1 : Reg) (s : State) : Result :=
  runClosing false (.barsync rd rs1) s fun s =>
    match s.me.waiting with
    | some { kind := .arrived k p, reply := none, .. } =>
      if (s.barrier k).phase = p then .error (.wait (.arrived k p))
      else .ok ((s.countClamp (bits (s.x rs1) 8 3)).setX rd (p.setWidth 64))
    | some { kind := .arrived _ p, reply := some _, .. } => .ok ((s.countClamp (bits (s.x rs1) 8 3)).setX rd (p.setWidth 64))
    | _ => do
      let k ← s.myBarrier rs1
      let b := s.barrier k
      if b.count = 0 then .error (.trap 52 0x05 (s.x rs1))
      else
        let t := s.arriveAt k
        if (t.barrier k).phase = b.phase then .error (.hold t (.arrived k b.phase))
        else pure ((t.countClamp (bits (s.x rs1) 8 3)).setX rd (b.phase.setWidth 64))

/-! ## Pair semaphores (R143 to R145) -/

def State.sem (s : State) (i : Nat) : BitVec 32 := (s.pair (pairOf s.cur)).sems.get i 0
def State.setSem (s : State) (i : Nat) (v : BitVec 32) : State :=
  s.modPair (pairOf s.cur) fun p => { p with sems := p.sems.put i v }
def State.semQueue (s : State) (i : Nat) : List Nat := (s.pair (pairOf s.cur)).semQ.get i []
def State.setSemQueue (s : State) (i : Nat) (q : List Nat) : State :=
  s.modPair (pairOf s.cur) fun p => { p with semQ := p.semQ.put i q }

/-- The amount: 1 when the rs2 field is x0. -/
def State.semAmount (s : State) (rs2 : Reg) : Nat := if rs2 = 0 then 1 else (s.x rs2).toNat

/-- Index and amount checked in the order 0x11, 0x13 (R144). -/
def State.semOperands (s : State) (rs1 rs2 : Reg) : Except Exc (Nat × Nat) :=
  if (s.x rs1).toNat ≥ 16 then .error (.trap 52 0x11 (s.x rs1))
  else if s.semAmount rs2 = 0 ∨ s.semAmount rs2 ≥ 2 ^ 32 then .error (.trap 52 0x13 (s.x rs1))
  else .ok ((s.x rs1).toNat, s.semAmount rs2)

def execSemv (rs1 rs2 : Reg) (s : State) : Result :=
  runClosing false (.semv rs1 rs2) s fun s => do
    let (i, n) ← s.semOperands rs1 rs2
    if (s.sem i).toNat + n > 2 ^ 32 - 1 then .error (.trap 52 0x12 (s.x rs1))
    else pure ((s.setSem i (BitVec.ofNat 32 ((s.sem i).toNat + n))).serveSem (pairOf s.cur) i)

/-- `semp` takes where nobody waits before it and the count suffices; else it joins the queue, and completes once the
semaphore has served it (R144, R145). -/
def execSemp (rd rs1 rs2 : Reg) (s : State) : Result :=
  runClosing false (.semp rd rs1 rs2) s fun s =>
    match s.me.waiting with
    | some { kind := .queued, reply := some (.value v), .. } => .ok (s.setX rd v)
    | some { kind := .queued, reply := none, .. } => .error (.wait .queued)
    | _ => do
      let (i, n) ← s.semOperands rs1 rs2
      let q := s.semQueue i
      if q = [] ∧ n ≤ (s.sem i).toNat then
        let left := BitVec.ofNat 32 ((s.sem i).toNat - n)
        pure ((s.setSem i left).setX rd (left.setWidth 64))
      else .error (.hold (s.setSemQueue i (q ++ [s.cur])) .queued)

/-! ## xflush (R146) -/

def execXflush (rs1 rs2 : Reg) (s : State) : Result :=
  if s.me.mode = .u then .next (s.finishExc (.xflush rs1 rs2) .illegal)
  else runClosing false (.xflush rs1 rs2) s fun s =>
    let d := s.x rs2
    let all := bits d 17 1 == 1
    let f : Flush :=
      { page := if all then none else some ((s.x rs1).toNat % 2 ^ 57 / 4096),
        asid := if bits d 16 1 = 1 then none else some (d.setWidth 16), global := true }
    -- a non-canonical address matches nothing
    if all || canonical (s.x rs1) then s.flushWait f [clusterOf s.cur] fun s => s.flushCluster (clusterOf s.cur) f else .ok s

end Sys2Proof.Machine
end

