-- ==== Sys2Proof/Machine/Remote.lean ====
section
/-! DEFINITION. Requests of harts to homes and destinations on other chips (R149, R404): marks, the long wait for the
reply, its limit; and requests held by exhaustion (R160). -/

namespace Sys2Proof.Machine

/-- The mark of the request a hart makes now (R404): its task's handle and count, or its `mhartid` and own count. -/
def State.markOf (s : State) (h : Nat) : Mark :=
  match (s.hart h).task, s.taskOf h with
  | some t, some x => { who := t, count := x.remoteCount }
  | _, _ => { who := wordOf h, count := (s.hart h).remoteCount }

/-- Send a request once for each mark: a re-execution sends the same mark and does not restart its limit. -/
def State.sendOut (s : State) (timeout : Reply) : State :=
  let s := s.sendFlit (clusterOf s.cur)
  let m := s.markOf s.cur
  let x : Outgoing := { mark := m, hart := s.cur, task := s.me.task.getD 0, timeout := timeout }
  let old := s.outgoing.any fun o => o.mark == m
  { s with outgoing := if old then s.outgoing.map fun o => if o.mark = m then { o with hart := s.cur } else o
                       else s.outgoing ++ [x] }

/-- The reply of another chip: the hart sends its request and waits, keeping the handles it has read, or the reply is
here. -/
def State.remoteWith (s : State) (timeout : Reply) (handles : List Word) : Except Exc (State × Reply) :=
  match s.me.waiting with
  | some { kind := .sent _, reply := some (.trap cause sub tval), .. } => .error (.trap cause sub tval)
  | some { kind := .sent _, reply := some r, .. } => .ok (s, r)
  | some { kind := .sent l, reply := none, .. } => .error (.wait (.sent l))
  | _ => .error (.hold (s.sendOut timeout) (.sent handles))

def State.remote (s : State) (timeout : Reply) : Except Exc (State × Reply) := s.remoteWith timeout []

/-- The hart waits for the reply of another chip. -/
def Wait.awaits (w : Wait) : Bool :=
  match w.kind with
  | .sent _ => w.reply.isNone
  | _ => false

/-- The request of the hart has left: its checks were made at acceptance and are not made again (R328, R332). -/
def State.hasSent (s : State) : Bool := s.me.waiting.any fun w => match w.kind with | .sent _ => true | _ => false

/-- HART_RESUME with a reply: it reaches the hart that waits for it, and the request is answered. -/
def State.deliverReply (s : State) (h : Nat) (r : Reply) : State :=
  let m := s.markOf h
  let s := { s with outgoing := s.outgoing.filter fun o => o.mark != m }
  s.modHart h fun x => match x.waiting with
    | some w => if w.awaits then { x with waiting := some { w with reply := some r } } else x
    | none => x

/-- REMOTE_REPLY_TIMEOUT: a request unanswered for 10 ms traps with the subcode of its rule (R404). -/
def execRemoteReplyTimeout (h : Nat) (s : State) : Result :=
  let m := s.markOf h
  match (s.outgoing.find? fun o => o.mark == m), (s.hart h).waiting with
  | some o, some w => if w.awaits then .next (s.deliverReply h o.timeout) else .next s
  | _, _ => .next s

/-! ## Requests held by exhaustion (R160) -/

/-- Hold the request of the acting hart at a home, with what its instruction has read: the supervisor of that cluster is
asked. -/
def State.holdAt (s : State) (c sub : Nat) (desc : List Byte) (handles : List Word) : Exc :=
  .hold (s.modCluster c fun k =>
    { k with heldReqs := if k.heldReqs.contains s.cur then k.heldReqs else k.heldReqs ++ [s.cur] })
    (.held sub false desc handles)

/-- A held request goes on only after a retry, and traps after a reject. -/
def State.heldGate (s : State) : Except Exc Unit :=
  match s.me.waiting with
  | some { kind := .held sub rejected desc handles, .. } =>
    if rejected then .error (.trap 25 sub 0)
    else if s.clusters.any fun k => k.2.heldReqs.contains s.cur then .error (.wait (.held sub false desc handles))
    else .ok ()
  | _ => .ok ()

/-- Checks 1 to 3 of R149 of a request, made at its acceptance and not again when it has left or was held (R160, R328). -/
def State.acceptHandle (s : State) (h : Word) : Except Exc Unit :=
  match s.me.waiting with
  | some { kind := .sent _, .. } => .ok ()
  | some { kind := .held _ _ _ _, .. } => .ok ()
  | _ => s.checkHandle (clusterOf s.cur) h

/-! ### Requests of other chips (R404) -/

/-- Keep the mark and the reply of a request that has been applied. -/
def State.keepReply (s : State) (c : Nat) (m : Mark) (r : Reply) : State :=
  s.modCluster c fun k => { k with marks := k.marks.put m.who.toNat { mark := m, reply := r } }

/-- Apply a request and keep its mark and reply; one that meets exhaustion is held (R160). The touch of another chip that is
answered with the value of a touch-once future completes there (R152, log 32). -/
def State.applyRequest (s : State) (c : Nat) (r : HomeRequest) : State :=
  match s.homeApply r.handle r.op with
  | (_, some (.trap 25 _ _)) => s.modCluster c fun k => { k with heldRemote := k.heldRemote ++ [r] }
  | (s, o) =>
    let s := match r.op, o with
      | .touch _ _, some (.done st _ _) => if st = 3 ∨ st = 6 then s.touchDone r.handle none else s
      | _, _ => s
    s.keepReply c r.mark (o.getD (.value 0))

/-- HOME_REQUEST_ARRIVE: applied once for each mark; the reply is kept for a request that comes again. -/
def State.homeRequest (s : State) (r : HomeRequest) : State :=
  let c := s.homeOf r.handle
  if s.refuses c ∨ ((s.cluster c).heldRemote.any fun q => q.mark == r.mark) then s
  else match (s.cluster c).marks.find r.mark.who.toNat with
    | some m => if m.mark = r.mark then s else s.applyRequest c r
    | none => s.applyRequest c r

/-- Retry the held requests of a cluster; answers how many. -/
def State.retryHeld (s : State) (c : Nat) : State × Nat :=
  let l := (s.cluster c).heldReqs
  let q := (s.cluster c).heldRemote
  (q.foldl (fun s r => s.applyRequest c r) (s.modCluster c fun k => { k with heldReqs := [], heldRemote := [] }),
    l.length + q.length)

/-- Reject the held requests of a cluster: their harts trap with cause 25. -/
def State.rejectHeld (s : State) (c : Nat) : State × Nat :=
  let l := (s.cluster c).heldReqs
  let q := (s.cluster c).heldRemote
  let s := l.foldl (fun s h => s.modHart h fun x => match x.waiting with
    | some w => match w.kind with
      | .held sub _ desc handles => { x with waiting := some { w with kind := .held sub true desc handles } }
      | _ => x
    | none => x) s
  let s := q.foldl (fun s r => s.keepReply c r.mark (.trap 25 0x03 0)) s
  (s.modCluster c fun k => { k with heldReqs := [], heldRemote := [] }, l.length + q.length)

/-! ## Operations on one future from a hart -/

/-- Ask a future's home (R149, R166): at once on this chip, else by a request that waits for its reply. -/
def State.ask (s : State) (h : Word) (op : HomeOp) : Except Exc (State × Reply) :=
  if s.isHere h then
    match s.homeApply h op with
    | (_, some (.trap cause sub tval)) => .error (.trap cause sub tval)
    | (s, some r) => .ok (s, r)
    | (s, none) => .ok (s, .value 0)
  else s.remote (.trap 48 0x05 h)

/-- The word a reply carries. -/
def replyWord : Reply → Word
  | .value v => v
  | .payload v _ => v
  | .done _ v _ => v
  | .trap _ _ _ | .many _ => 0

end Sys2Proof.Machine
end

