-- ==== Sys2Proof/Machine/Messages.lean ====
section
/-! DEFINITION. Messages and mailboxes (R329 to R335). -/

namespace Sys2Proof.Machine

/-! ## Destination words (R330) and mailboxes (R329) -/

def destChip (w : Word) : BitVec 12 := w.extractLsb' 36 12
/-- The destination cluster, numbered over the package. -/
def destCluster (w : Word) : Nat := bits w 29 7
def destCore (w : Word) : Nat := bits w 26 10
def destMbox (w : Word) : Nat := bits w 24 2
def destNb (w : Word) : Bool := bits w 2 1 == 1
def destRmb (w : Word) : Nat := bits w 0 2
def destZeros (w : Word) : Bool := bits w 48 16 == 0 && bits w 3 21 == 0

def mailKey (core mbox : Nat) : Nat := core * 4 + mbox
def State.mailbox (s : State) (k : Nat) : Mailbox := s.mailboxes.get k { msgs := [], senders := [], receivers := [] }
def State.setMailbox (s : State) (k : Nat) (m : Mailbox) : State := { s with mailboxes := s.mailboxes.put k m }

/-- A lost core that has not passed the windrow since (R335). -/
def State.sealed (s : State) (core : Nat) : Bool := (s.cluster (clusterOfCore core)).sealedCores.getLsbD (core % 8)

/-- The outcome of a send: to the hart that waits, or kept with the mark for another chip (R404). -/
def State.sent (s : State) (core : Nat) (who : Sender) (v : Nat) : State :=
  match who with
  | .hart h => s.answer h (.value (wordOf v))
  | .chip m => s.keepReply (clusterOfCore core) m (.value (wordOf v))

/-- Free slots go to the head of the sender queue (R333). -/
def grantSlots (k : Nat) : Nat → State → State
  | 0, s => s
  | n + 1, s =>
    let m := s.mailbox k
    match m.senders with
    | [] => s
    | (h, x) :: r =>
      if m.msgs.length ≥ 8 then s
      else
        let s := s.setMailbox k { m with msgs := m.msgs ++ [x], senders := r }
        grantSlots k n (s.sent (k / 4) h 1)

/-- An error message in place of one that a sealed core did not take: to mailbox rmb of the sender's core, which may be
full; a sender on another chip is outside the package (R335). -/
def State.sendError (s : State) (m : Message) : State :=
  if (m.sender.extractLsb' 13 12) = s.chip then
    let k := mailKey (bits m.sender 3 10) (destRmb m.dest)
    let e : Message := { dest := m.dest, sender := m.sender ||| wordOf (2 ^ 63), data := m.dest.setWidth 512 }
    let b := s.mailbox k
    if s.sealed (bits m.sender 3 10) then s else s.setMailbox k { b with msgs := b.msgs ++ [e] }
  else s

def sendErrors : List Message → State → State
  | [], s => s
  | m :: r, s => sendErrors r (s.sendError m)

/-- A message at its mailbox (R332): sealed 2, delivered 1, full 0, or no outcome yet: it waits in the sender queue. -/
def State.deliver (s : State) (core mbox : Nat) (nb : Bool) (h : Sender) (m : Message) : State × Option Nat :=
  let k := mailKey core mbox
  let b := s.mailbox k
  if s.sealed core then (s.sendError m, some 2)
  else if b.msgs.length < 8 ∧ b.senders = [] then (s.setMailbox k { b with msgs := b.msgs ++ [m] }, some 1)
  else if nb then (s, some 0)
  else (s.setMailbox k { b with senders := b.senders ++ [(h, m)] }, none)

/-- Seal the four mailboxes of a lost core (R335); the harts of the core receive no more. -/
def sealBox (s : State) (k : Nat) : State :=
  let b := s.mailbox k
  let s := s.setMailbox k { msgs := [], senders := [], receivers := [] }
  let s := b.senders.foldl (fun s e => s.sent (k / 4) e.1 2) s
  sendErrors ((b.msgs.filter fun m => bits m.sender 63 1 == 0) ++ b.senders.map fun e => e.2) s

def State.sealCore (s : State) (core : Nat) : State :=
  let s := s.modCluster (clusterOfCore core) fun k => { k with sealedCores := k.sealedCores ||| BitVec.ofNat 8 (2 ^ (core % 8)) }
  [0, 1, 2, 3].foldl (fun s i => sealBox s (mailKey core i)) s

/-! ## The instructions -/

/-- Window places that an operand may name: `vault` adds the vault window (R332, R333). -/
def placeOk (vault : Bool) (a : Word) : Bool :=
  !inWindows a || (decide (0x7F4000000000 ≤ a.toNat) && decide (a.toNat < 0x7F4000000000 + 64 * 2 ^ 20)) ||
    (vault && decide (a.toNat < 0x7C0000000000 + 128 * vaultSize))

/-- The checks of an operand of 64 bytes, translation last: what a permission check comes before (R332). -/
def State.operand64 (s : State) (acc : Acc) (a : Word) (vault : Bool) : Except Exc (Except Exc (State × List (Loc × Nat))) :=
  if canonicalRange a 64 && a.toNat % 64 == 0 && !placeOk vault a then .error (.trap acc.faultCause 0 a)
  else match resolve s (s.view acc) acc a 64 64 with
    | .error (.trap cause sub tval) => .error (.trap cause sub tval)
    | r => .ok r

/-- The 64 bytes that an instruction reads. -/
def State.read64 (s : State) (va : Word) (ls : List (Loc × Nat)) : Except Exc (State × BitVec 512) := do
  let s ← s.detect s.cur va ls
  let bs := loadUnits s (s.partOf (clusterOf s.cur)) (s.buffered s.cur) ls
  pure (if ls.any fun e => e.1.free then s.useFresh else s, BitVec.ofNat 512 (leNat bs))

def State.senderWord (s : State) : Word := hartloc s.chip s.cur

/-- The outcome of a `msnd` that has been sent: it waits in its sender queue, or for the reply of another chip, and what was
checked and read before it was sent is not checked or read again (R328, R332). -/
def State.msndReply (s : State) : Option (Except Exc Word) :=
  match s.me.waiting with
  | some { kind := .queued, reply := some (.value v), .. } => some (.ok v)
  | some { kind := .queued, reply := none, .. } => some (.error (.wait .queued))
  | some { kind := .sent _, reply := some (.trap cause sub tval), .. } => some (.error (.trap cause sub tval))
  | some { kind := .sent _, reply := some r, .. } => some (.ok (replyWord r))
  | some { kind := .sent l, reply := none, .. } => some (.error (.wait (.sent l)))
  | _ => none

def execMsnd (rd rs1 rs2 : Reg) (s : State) : Result :=
  runClosing false (.msnd rd rs1 rs2) s fun s => do
    match s.msndReply with
    | some (.error e) => .error e
    | some (.ok v) => pure (s.setX rd v)
    | none =>
      let a := s.x rs1
      let w := s.x rs2
      if !destZeros w then .error (.trap 51 0x01 w)
      let r ← s.operand64 .load a true
      if !s.permits (clusterOf s.cur) (destChip w) (destCluster w) then .error (.trap 51 0x02 w)
      let (s, ls) ← r
      if destChip w = s.chip ∧ s.former.contains (destCluster w) then .error (.trap 51 0x04 w)
      let (s, data) ← s.read64 a ls
      if destChip w = s.chip then
        let m : Message := { dest := w, sender := s.senderWord, data := data }
        match s.deliver (destCore w) (destMbox w) (destNb w) (.hart s.cur) m with
        | (s, some v) => pure (s.setX rd (wordOf v))
        | (s, none) => .error (.hold s .queued)
      else
        let (s, v) ← s.remote (.trap 51 0x03 w)
        pure (s.setX rd (replyWord v))

/-- `mrcv`: in the order of arrival, the oldest message for the oldest receiver (R333). -/
def execMrcv (rd rs1 rs2 : Reg) (s : State) : Result :=
  runClosing false (.mrcv rd rs1 rs2) s fun s => do
    let k := mailKey (coreOf s.cur) (bits (s.x rs1) 0 2)
    let a := s.x rs2
    let r ← s.operand64 .store a false
    let (s, ls) ← r
    let b := s.mailbox k
    let q := if b.receivers.contains s.cur then b.receivers else b.receivers ++ [s.cur]
    match b.msgs, q.head? == some s.cur with
    | m :: rest, true =>
      let s := grantSlots k 8 (s.setMailbox k { b with msgs := rest, receivers := q.drop 1 })
      let s := performUnits s (some s.cur) (s.partOf (clusterOf s.cur)) ls (leBytes 64 m.data.toNat)
      pure (s.setX rd m.sender)
    | _, _ => .error (.hold (s.setMailbox k { b with receivers := q }) .queued)

def execMpoll (rd rs1 : Reg) (s : State) : Result :=
  runOpen (.mpoll rd rs1) s fun s =>
    let k := mailKey (coreOf s.cur) (bits (s.x rs1) 0 2)
    .ok (s.setX rd (if s.sealed (coreOf s.cur) then 0 else wordOf (min 8 (s.mailbox k).msgs.length)))

/-- The request of another chip with this mark has been applied, or waits in a sender queue of the core (R404). -/
def State.arrivedBefore (s : State) (core : Nat) (mark : Mark) : Bool :=
  ((s.cluster (clusterOfCore core)).marks.find mark.who.toNat).any (fun m => m.mark == mark) ||
    [0, 1, 2, 3].any fun i => (s.mailbox (mailKey core i)).senders.any fun e => e.1 == .chip mark

/-- MESSAGE_ARRIVE: a message of another chip at its mailbox, applied once for each mark; its outcome is kept with the mark and
goes back over the link (R404). A stopped partition refuses it (R360). -/
def execMessageArrive (core mbox : Nat) (nb : Bool) (d : Delivery) (s : State) : Result :=
  .next (if s.refuses (clusterOfCore core) || s.arrivedBefore core d.mark then s
    else match s.deliver core mbox nb (.chip d.mark) d.message with
      | (s, some v) => s.keepReply (clusterOfCore core) d.mark (.value (wordOf v))
      | (s, none) => s)

end Sys2Proof.Machine
end

