-- ==== Sys2Proof/Machine/Gates.lean ====
section
/-! DEFINITION. Gates (R336 to R345): the table of the package, the checks at the home, token buckets, freezing, and the
six gate instructions. -/

namespace Sys2Proof.Machine

def gateChip (h : Word) : BitVec 12 := h.extractLsb' 10 12
def gateNum (h : Word) : Nat := bits h 0 10
def gateHandle (chip : BitVec 12) (g : Nat) : Word := wordOf (chip.toNat * 1024 + g)

def State.setGate (s : State) (g : Nat) (x : Gate) : State := { s with gates := s.gates.put g x }
/-- The gate that a handle names here. -/
def State.gate? (s : State) (h : Word) : Option Gate :=
  match s.gates.find (gateNum h) with
  | some g => if g.present ∧ h.toNat < 2 ^ 22 then some g else none
  | none => none

/-- The number that stands for the partition of a hart without one: it owns nothing and is in no access list. -/
def noPart : Nat := 64
def State.partNum (s : State) (c : Nat) : Nat := (s.partOf c).getD noPart

/-! ## Rights and tokens (R336 to R338) -/

def Access.isFor (a : Access) (r : GateRequest) : Bool := a.valid && a.chip.toNat == r.chip && a.part == r.part
def Gate.ownedBy (g : Gate) (home : BitVec 12) (r : GateRequest) : Bool := g.owner == r.part && r.chip == home.toNat

def signals : GateOp → Bool
  | .gsig _ | .gpay _ => true
  | _ => false

def administers : GateOp → Bool
  | .gopen | .gclose => true
  | _ => false

/-- The right that an operation needs (R337 check 3). -/
def Gate.allows (g : Gate) (home : BitVec 12) (r : GateRequest) : Bool :=
  if g.ownedBy home r then true
  else if administers r.op then false
  else match g.access.find? fun a => a.isFor r with
    | none => false
    | some a => a.rights.getLsbD (if signals r.op then 0 else 1)

/-- The bucket that limits a request: none for the owner, and for what takes no token. -/
def Gate.bucket (g : Gate) (home : BitVec 12) (r : GateRequest) : Option Access :=
  if g.ownedBy home r || !signals r.op then none else g.access.find? fun a => a.isFor r

/-- One token of the first entry that is for the requester. -/
def takeOne (r : GateRequest) : List Access → List Access
  | [] => []
  | a :: t => if a.isFor r then { a with tokens := a.tokens - 1 } :: t else a :: takeOne r t

def Gate.takeToken (g : Gate) (home : BitVec 12) (r : GateRequest) : Gate :=
  match g.bucket home r with
  | none => g
  | some _ => { g with access := takeOne r g.access }

/-! ## Replies -/

/-- A request that waited is answered: a hart of this chip, or by a reply that the home keeps with the mark (R404). -/
def State.answerGate (s : State) (r : GateRequest) (y : Reply) : State :=
  match r.hart with
  | some h => s.answer h y
  | none => { s with gateMarks := s.gateMarks.put r.mark.who.toNat { mark := r.mark, reply := y } }

def answerGates (y : Reply) : List GateRequest → State → State
  | [], s => s
  | r :: t, s => answerGates y t (s.answerGate r y)

def gateTrap (sub : Nat) (v : Word) : Reply := .trap 30 sub v

/-! ## Effects at the home (R340, R342, R343) -/

def addSat (a b : Word) : Word := if a.toNat + b.toNat ≥ 2 ^ 64 then -1 else a + b

def metBy (counter : Word) (r : GateRequest) : Bool :=
  match r.op with
  | .gwait t => decide (t.toNat ≤ counter.toNat)
  | _ => false

/-- Wake each `gwait` whose threshold is met. -/
def State.wakeGate (s : State) (n : Nat) : State :=
  match s.gates.find n with
  | none => s
  | some g =>
    let met := fun r => metBy g.counter r && !isPlace s.chip r
    let s := s.setGate n { g with waiters := g.waiters.filter fun r => !met r }
    answerGates (.value g.counter) (g.waiters.filter met) s

/-- A waiter joins at the end, or in the place held for its task (R345). -/
def joinWaiters (chip : BitVec 12) (r : GateRequest) (l : List GateRequest) : List GateRequest :=
  if l.any fun q => isPlace chip q && q.task == r.task then
    l.map fun q => if isPlace chip q && q.task == r.task then r else q
  else l ++ [r]

/-- The effect of an operation that has passed every check; nothing for one that waits. -/
def State.gateEffect (s : State) (n : Nat) (g : Gate) (r : GateRequest) : State × Option Reply :=
  match r.op with
  | .gsig v =>
    if g.frozen then (s.setGate n { g with queue := g.queue ++ [r] }, some (.value 0))
    else
      let c := addSat g.counter v
      ((s.setGate n { g with counter := c }).wakeGate n, some (.value c))
  | .gwait t =>
    if !g.frozen ∧ t.toNat ≤ g.counter.toNat then (s, some (.value g.counter))
    else (s.setGate n { g with waiters := joinWaiters s.chip r g.waiters }, none)
  | .gpay d => (s.setGate n { g with payload := d, paySeq := g.paySeq + 1 }, some (.value (g.paySeq + 1)))
  | .gtake =>
    (s.setGate n { g with waiters := g.waiters.filter fun q => !(isPlace s.chip q && q.task == r.task) },
      some (.payload g.paySeq g.payload))
  | .gopen => (s.setGate n { g with opened := true }, some (.value 0))
  | .gclose =>
    if g.opened then
      let s := s.setGate n { g with opened := false, waiters := g.waiters.filter fun q => isPlace s.chip q, stalled := [] }
      (((g.waiters.filter fun q => !isPlace s.chip q) ++ g.stalled).foldl
        (fun s q => s.answerGate q (gateTrap 0x03 q.handle)) s, some (.value 0))
    else (s, some (.value 0))

/-- On a frozen gate all but signals and `gwait` wait for the resume (R343). -/
def waitsFrozen : GateOp → Bool
  | .gpay _ | .gtake | .gopen | .gclose => true
  | _ => false

def refusedOperand : GateOp → Bool
  | .gsig v => v == 0
  | _ => false

/-- The first check of R337 that a request fails. -/
def State.gateFault (s : State) (r : GateRequest) : Option (Nat × Word) :=
  match s.gate? r.handle with
  | none => some (0x06, r.handle)
  | some g =>
    match g.moved with
    | some h => some (0x05, h)
    | none =>
      if !g.allows s.chip r then some (0x01, r.handle)
      else if !g.opened && !administers r.op then some (0x03, r.handle)
      else if refusedOperand r.op then some (0x08, r.handle)
      else match g.bucket s.chip r with
        | some a =>
          if a.tokens = 0 ∧ a.policy then some (0x02, r.handle)
          else if g.frozen ∧ g.queue.length ≥ 16 ∧ !waitsFrozen r.op then some (0x04, r.handle) else none
        | none =>
          match r.op with
          | .gsig _ => if g.frozen ∧ g.queue.length ≥ 16 then some (0x04, r.handle) else none
          | _ => none

/-- Apply a request at its home in the order of arrival (R337, R338, R343). -/
def State.gateApply (s : State) (r : GateRequest) : State × Option Reply :=
  match s.gateFault r with
  | some (sub, v) => (s, some (gateTrap sub v))
  | none =>
    match s.gate? r.handle with
    | none => (s, none)
    | some g =>
      let n := gateNum r.handle
      let dry := match g.bucket s.chip r with | some a => a.tokens == 0 | none => false
      if dry || (g.frozen && waitsFrozen r.op) then (s.setGate n { g with stalled := g.stalled ++ [r] }, none)
      else s.gateEffect n (g.takeToken s.chip r) r

/-- Apply again what waited, oldest first: after a token, or after the resume. -/
def reapply : List GateRequest → State → State
  | [], s => s
  | r :: t, s =>
    match s.gateApply r with
    | (s, some y) => reapply t (s.answerGate r y)
    | (s, none) => reapply t s

/-- GATE_TOKEN_ACCRUE: a token, up to the burst; the oldest stalled operation of the entry goes on (R338). -/
def execGateTokenAccrue (n i : Nat) (s : State) : Result :=
  match s.gates.find n with
  | none => .next s
  | some g =>
    match g.access[i]? with
    | none => .next s
    | some a =>
      let g := { g with access := g.access.set i { a with tokens := min a.burst (a.tokens + 1) }, stalled := [] }
      .next (reapply ((s.gates.find n).map (fun g => g.stalled) |>.getD []) (s.setGate n g))

/-! ## Requests of other chips (R404) -/

def State.applyGateRequest (s : State) (r : GateRequest) : State :=
  match s.gateApply r with
  | (s, some y) => s.answerGate r y
  | (s, none) => s

/-- GATE_REQUEST_ARRIVE: applied once for each mark. -/
def execGateRequestArrive (r : GateRequest) (s : State) : Result :=
  let again := (match s.gateMarks.find r.mark.who.toNat with | some m => m.mark == r.mark | none => false) ||
    (match s.gate? r.handle with
      | some g => (g.waiters ++ g.stalled).any fun q => q.hart.isNone && q.mark == r.mark
      | none => false)
  .next (if again then s else s.applyGateRequest { r with hart := none })

/-! ## The instructions (R339, R340, R342) -/

/-- The request of the acting hart is at its gate, or on its way to another chip: its operand has been read. -/
def State.hasAsked (s : State) : Bool := s.hasSent || s.me.waiting.any fun w => w.kind == .queued

/-- The wait of a restored task, which has taken its place at its gate, leaves those at others (R345). -/
def State.leavePlaces (s : State) (op : GateOp) (task : Word) : State :=
  match op with
  | .gwait _ | .gtake => s.dropPlaces task
  | _ => s

/-- The reply of a request of the acting hart: applied at once on this chip, or waiting at the gate, or sent out. -/
def State.gateWord (s : State) (h : Word) (op : GateOp) : Except Exc (State × Reply) :=
  if gateChip h = s.chip then
    match s.me.waiting with
    | some { kind := .queued, reply := some (.trap cause sub v), .. } => .error (.trap cause sub v)
    | some { kind := .queued, reply := some y, .. } => .ok (s, y)
    | some { kind := .queued, reply := none, .. } => .error (.wait .queued)
    | _ =>
      let r : GateRequest := { handle := h, chip := s.chip.toNat, part := s.partNum (clusterOf s.cur), hart := some s.cur,
                               task := s.me.task.getD 0, mark := s.markOf s.cur, op := op }
      match s.gateApply r with
      | (_, some (.trap cause sub v)) => .error (.trap cause sub v)
      | (s, some y) => .ok (s.leavePlaces op r.task, y)
      | (s, none) => .error (.hold (s.leavePlaces op r.task) .queued)
  else (s.leavePlaces op (s.me.task.getD 0)).remote (.trap 30 0x07 h)

def execGsig (rd rs1 rs2 : Reg) (s : State) : Result :=
  runClosing false (.gsig rd rs1 rs2) s fun s => do
    let (s, y) ← s.gateWord (s.x rs1) (.gsig (s.x rs2))
    pure (s.setX rd (replyWord y))

def execGwait (rd rs1 rs2 : Reg) (s : State) : Result :=
  runClosing false (.gwait rd rs1 rs2) s fun s => do
    let (s, y) ← s.gateWord (s.x rs1) (.gwait (s.x rs2))
    pure (s.setX rd (replyWord y))

def execGpay (rd rs1 rs2 : Reg) (s : State) : Result :=
  runClosing false (.gpay rd rs1 rs2) s fun s => do
    let a := s.x rs2
    let (s, bs) ← if s.hasAsked then pure (s, []) else s.load a 64 64
    let (s, y) ← s.gateWord (s.x rs1) (.gpay (BitVec.ofNat 512 (leNat bs)))
    pure (s.setX rd (replyWord y))

/-- `gtake` checks its address before it goes to the gate, and writes what the gate gives. -/
def execGtake (rd rs1 rs2 : Reg) (s : State) : Result :=
  runClosing false (.gtake rd rs1 rs2) s fun s => do
    let a := s.x rs2
    let r ← s.operand64 .store a false
    let (s, ls) ← r
    let (s, y) ← s.gateWord (s.x rs1) .gtake
    let data : BitVec 512 := match y with
      | .payload _ d => d
      | _ => 0
    let s := performUnits s (some s.cur) (s.partOf (clusterOf s.cur)) ls (leBytes 64 data.toNat)
    pure (s.setX rd (replyWord y))

/-- `gopen` and `gclose`: in U mode illegal before anything closes (R94, R99). -/
def execGopen (rs1 : Reg) (s : State) : Result :=
  if s.me.mode = .u then .next (s.finishExc (.gopen rs1) .illegal)
  else runClosing false (.gopen rs1) s fun s => do
    let (s, _) ← s.gateWord (s.x rs1) .gopen
    pure s

def execGclose (rs1 : Reg) (s : State) : Result :=
  if s.me.mode = .u then .next (s.finishExc (.gclose rs1) .illegal)
  else runClosing false (.gclose rs1) s fun s => do
    let (s, _) ← s.gateWord (s.x rs1) .gclose
    pure s

/-! ## Freezing, resuming, freeing (R343, R345, R346) -/

/-- The gates a partition owns. -/
def State.gatesOf (s : State) (p : Nat) : List Nat := (s.gates.filter fun e => e.2.present && e.2.owner == p).map fun e => e.1

def State.modGates (s : State) (p : Nat) (f : Gate → Gate) : State :=
  { s with gates := s.gates.mapVal fun _ g => if g.present && g.owner == p then f g else g }

def State.freezeGates (s : State) (p : Nat) : State := s.modGates p fun g => { g with frozen := true }

/-- The queued signals apply in order, thresholds are tested, and what waited goes on. -/
def State.resumeGate (s : State) (n : Nat) : State :=
  match s.gates.find n with
  | none => s
  | some g =>
    let c := g.queue.foldl (fun c r => match r.op with | .gsig v => addSat c v | _ => c) g.counter
    let s := (s.setGate n { g with frozen := false, counter := c, queue := [], stalled := [] }).wakeGate n
    reapply g.stalled s

def resumeGates : List Nat → State → State
  | [], s => s
  | n :: r, s => resumeGates r (s.resumeGate n)

/-- Free a gate: its waiters are woken with 30, 0x06. -/
def State.freeGate (s : State) (n : Nat) : State :=
  match s.gates.find n with
  | none => s
  | some g =>
    let s := { s with gates := s.gates.drop n }
    ((g.waiters.filter fun q => !isPlace s.chip q) ++ g.stalled).foldl (fun s q => s.answerGate q (gateTrap 0x06 q.handle)) s

def freeGates : List Nat → State → State
  | [], s => s
  | n :: r, s => freeGates r (s.freeGate n)

/-- A waiter of a partition of this chip. -/
def requestOf (chip : BitVec 12) (p : Nat) (r : GateRequest) : Bool := r.chip == chip.toNat && r.part == p

/-- Take a partition of this chip out of the access list and the waiters of every other gate (R346). -/
def State.forgetPart (s : State) (p : Nat) : State :=
  { s with gates := s.gates.mapVal fun _ g =>
      { g with access := g.access.map fun a => if a.chip = s.chip ∧ a.part = p then { a with valid := false } else a,
               waiters := g.waiters.filter fun r => !requestOf s.chip p r,
               stalled := g.stalled.filter fun r => !requestOf s.chip p r } }

/-- The source entry of a gate that has moved (R345): its waiters trap with the new handle. -/
def State.moveGate (s : State) (n : Nat) (new : Word) : State :=
  match s.gates.find n with
  | none => s
  | some g =>
    let s := s.setGate n { g with moved := some new, waiters := [], stalled := [] }
    answerGates (gateTrap 0x05 new) ((g.waiters.filter fun q => !isPlace s.chip q) ++ g.stalled) s

end Sys2Proof.Machine
end

