-- ==== Sys2Proof/Machine/TaskEngine.lean ====
section
/-! DEFINITION. The task engine (R34 to R37, R155 to R163, R187): allocation, intake, preparation, readiness, dispatch and
wakes. -/

namespace Sys2Proof.Machine

/-! ## Descriptors (R34 to R36) -/

def byteAt (bs : List Byte) (o : Nat) : Nat := (bs.getD o 0).toNat
def natAt (bs : List Byte) (o n : Nat) : Nat := leNat ((bs.drop o).take n)
def wordAt (bs : List Byte) (o : Nat) : Word := wordOf (natAt bs o 8)

def stageArgAt (bs : List Byte) (o : Nat) : StageArg :=
  { source := wordAt bs o, stage := BitVec.ofNat 6 (byteAt bs (o + 8)), valid := decide (byteAt bs (o + 8) ≥ 128),
    length := natAt bs (o + 12) 4 }

def extentAt (bs : List Byte) (o : Nat) : Extent :=
  { base := wordAt bs o, len := BitVec.ofNat 32 (natAt bs (o + 8) 4), read := byteAt bs (o + 12) % 2 == 1,
    write := byteAt bs (o + 12) / 2 % 2 == 1 }

/-- The descriptor in 128 bytes (R34). -/
def descOf (bs : List Byte) : Desc :=
  { entry := wordAt bs 0, prio := BitVec.ofNat 2 (byteAt bs 8), once := byteAt bs 9 % 2 == 1,
    tree := byteAt bs 9 / 2 % 2 == 1, tiles := byteAt bs 0x0A, kind := BitVec.ofNat 3 (byteAt bs 0x0B),
    hint := BitVec.ofNat 32 (natAt bs 0x0C 4), args := [stageArgAt bs 0x10, stageArgAt bs 0x20],
    extents := [extentAt bs 0x30, extentAt bs 0x40, extentAt bs 0x50, extentAt bs 0x60], logAddr := wordAt bs 0x70,
    logSize := BitVec.ofNat 32 (natAt bs 0x78 4), raw := bs }

/-- The hint bits that a placement kind does not use are zero (R35). -/
def hintOk (kind hint : Nat) : Bool :=
  match kind with
  | 2 => decide (hint < 128)
  | 3 => decide (hint < 16)
  | 4 => decide (hint < 2)
  | _ => hint == 0

/-- Subcode 0x10: every field shown as zero is zero, the kind is not reserved, at most 16 tiles. -/
def descZeroOk (bs : List Byte) : Bool :=
  decide (byteAt bs 8 < 4) && decide (byteAt bs 9 < 4) && decide (byteAt bs 0x0A ≤ 16) && decide (byteAt bs 0x0B ≤ 4) &&
    hintOk (byteAt bs 0x0B) (natAt bs 0x0C 4) &&
    ([0x10, 0x20].all fun o => byteAt bs (o + 8) / 64 % 2 == 0 && natAt bs (o + 9) 3 == 0) &&
    ([0x30, 0x40, 0x50, 0x60].all fun o => decide (natAt bs (o + 12) 2 < 4) && natAt bs (o + 14) 2 == 0) &&
    natAt bs 0x7C 4 == 0

/-- The clusters of a partition, in rising order. -/
def State.partClusters (s : State) (part : Option Nat) : List Nat :=
  match part.bind s.parts.find with
  | some p => (List.range 128).filter fun c => p.clusters.getLsbD c
  | none => []

/-- The clusters that a placement names (R35). -/
def placeClusters (part : List Nat) (here kind hint : Nat) : List Nat :=
  match kind with
  | 1 => [here]
  | 2 => [hint]
  | 3 => (List.range 8).map fun i => hint * 8 + i
  | 4 => (List.range 64).map fun i => hint * 64 + i
  | _ => part

/-- A range touches the device window region (R50). -/
def meetsWindows (a : Word) (len : Nat) : Bool := decide (a.toNat < windowHi) && decide (windowLo < a.toNat + len)

/-- Subcode 0x14 (R36). -/
def extentBad (e : Extent) : Bool :=
  e.len != 0 && (e.base.toNat % 64 != 0 || !canonicalRange e.base (e.len.toNat * 64) ||
    meetsWindows e.base (e.len.toNat * 64) || !(e.read || e.write))

/-- Subcode 0x15 (R36); a range that leaves the canonical addresses is refused with it (R48). -/
def logBad (a : Word) (n : Nat) : Bool :=
  n % 4096 != 0 || (n != 0 && (a.toNat % 4096 != 0 || !canonicalRange a n || inWindows a))

def argBad (a : StageArg) : Bool := a.valid && (a.length < 64 || a.length % 64 != 0 || a.length > 2 ^ 20)

/-- The lowest subcode of the checks of R36 that a descriptor fails. R36 gives no order where several fail: the order is a
DESIGN CHOICE (log 68). -/
def descFault (part : List Nat) (here : Nat) (bs : List Byte) : Option Nat :=
  let d := descOf bs
  if !descZeroOk bs then some 0x10
  else if !canonical d.entry || d.entry.toNat % 4 != 0 then some 0x11
  else if !(placeClusters part here d.kind.toNat d.hint.toNat).all part.contains then some 0x12
  else if d.args.any argBad then some 0x13
  else if d.extents.any extentBad then some 0x14
  else if logBad d.logAddr d.logSize.toNat then some 0x15
  else none

/-! ## Allocation (R155 step 1, R160) -/

/-- The free slots of a future table. -/
def State.freeFuts (s : State) (c : Nat) : List Nat :=
  (List.range 4096).filter fun n => (s.futures.get (c * 4096 + n) default).state == 0

/-- The resolved future without waiters whose resolution is oldest. -/
def State.oldestResolved (s : State) (c : Nat) : Option (Nat × Future) :=
  (s.futures.filter fun e => e.1 / 4096 == c && e.2.state == 3 &&
      (s.waitersOf (e.2.handle e.1)).isEmpty).foldl
    (fun b e => match b with
      | some x => if e.2.resolvedAt < x.2.resolvedAt then some e else b
      | none => some e) none

/-- A future record (R168). -/
def futRecord (h value status parent : Word) : List Byte :=
  leBytes 8 h.toNat ++ leBytes 8 value.toNat ++ leBytes 8 status.toNat ++ leBytes 8 parent.toNat

/-- Spill one future and free its slot (R160); none on exhaustion. -/
def State.spillOne (s : State) (c : Nat) : Option State :=
  match s.oldestResolved c with
  | none => none
  | some (key, f) =>
    let h := f.handle key
    match s.emptySpill c h 8 with
    | none => none
    | some i =>
      let st := f.status 6 0 0 (s.seenVerdict f.launch f.verdict.toNat)
      some (((s.writeSpill c i (futRecord h f.value st f.parent)).freeFut h f).modLaunch f.launch fun l =>
        { l with spilled := l.spilled ++ [h], spillTasks := if f.hasTask then l.spillTasks ++ [h] else l.spillTasks })

/-- Take a free slot of cluster `c` for a future: which one is left open (R155, log 4). -/
def State.takeSlot (s : State) (c : Nat) (f : Future) : Option (State × Word) :=
  match s.freeFuts c with
  | [] => none
  | n :: r =>
    let n := (n :: r).getD (Config.freeSlot s.fresh % (r.length + 1)) n
    let gen := (s.futures.get (c * 4096 + n) default).gen
    let s := s.useFresh.tick
    some ({ s with futures := s.futures.put (c * 4096 + n) { f with gen := gen, state := 1, born := s.serial, home := s.chip.toNat * 128 + c } },
      mkHandle s.chip c n gen)

/-- Allocate a future, spilling one when no slot is free; none on exhaustion (R160). -/
def State.allocFuture (s : State) (c : Nat) (f : Future) : Option (State × Word) :=
  match s.takeSlot c f with
  | some r => some r
  | none => (s.spillOne c).bind fun s => s.takeSlot c f

/-! ## Placement (R156) -/

/-- Ready tasks of a cluster. -/
def State.readyCount (s : State) (c : Nat) : Nat := (s.tasks.filter fun e => e.2.cluster == c && e.2.state == .ready).length

/-- The cluster with the fewest ready tasks by the figures last exchanged; the lowest of equals. -/
def State.fewestReady (s : State) : List Nat → Nat
  | [] => 0
  | c :: r => r.foldl (fun b d => if (s.cluster d).figures < (s.cluster b).figures then d else b) c

def State.chooseCluster (s : State) (here : Nat) (d : Desc) : Nat :=
  match d.kind.toNat with
  | 1 => here
  | 2 => d.hint.toNat
  | k =>
    let dom := placeClusters (s.partClusters (s.partOf here)) here k d.hint.toNat
    if dom.contains here && decide (s.readyCount here < 64) then here else s.fewestReady dom

/-- READY_FIGURES_EXCHANGE (R156). -/
def execReadyFiguresExchange (s : State) : Result :=
  .next { s with clusters := s.clusters.mapVal fun c k => { k with figures := s.readyCount c } }

/-! ## Task entries (R155) -/

/-- Entries of a cluster's task table in use. -/
def State.tableUsed (s : State) (c : Nat) : Nat :=
  (s.tasks.filter fun e => e.2.cluster == c && (match e.2.state with
    | .flying | .ring | .stopping => false
    | _ => true)).length

/-- Descriptors that wait in the task ring. -/
def State.ringUsed (s : State) (c : Nat) : Nat :=
  (s.tasks.filter fun e => e.2.cluster == c && e.2.state == .ring).length

/-- The target has room for one more descriptor: in its table, or in its task ring. -/
def State.taskRoom (s : State) (c : Nat) : Bool :=
  decide ((s.tasks.filter fun e => e.2.cluster == c && e.2.state != .stopping).length <
    1024 + (s.cluster c).ringSize.toNat / 128)

/-- A task as it is created (R32, R34): its first region starts at its entry. -/
def newTask (d : Desc) (arg flat : Word) (launch : Nat) (parent : Word) (lid lcnt : List Word) (cluster : Nat)
    (root : Bool) (pin : Pin) (order : Nat) : Task :=
  let ctx := (Ctx.zero.setXreg 10 arg).setXreg 11 flat
  { desc := d, arg := arg, flat := flat, state := .flying, cluster := cluster, root := root, pin := pin, launch := launch,
    parent := parent, lid := lid, lcnt := lcnt, order := order, promo := 0, passedOver := false, dispatched := false,
    pair := none, tiles := [], moved := false, runs := [], logRuns := [], translated := false, prefetch := [],
    verdict := 0, lossCount := 0, eccAt := [], remoteCount := 0, parkedIn := none, wake := none, resume := none, waitsOn := [],
    ending := none, heldOn := none, opFaults := [],
    region := { Region.zero with ckpt := { pc := d.entry, ctx := ctx, lift := Lift.zero, group := 0 } },
    lift := Lift.zero, group := 0, openGroups := [] }

/-- Step 3 of R155: preparation starts. -/
def State.startPrep (s : State) (h : Word) : State :=
  let s := s.tick
  match s.task? h with
  | none => s
  | some t =>
    let s := s.setTask h { t with state := .preparing, order := s.serial, translated := false,
                                  prefetch := t.desc.args.map fun a => if a.valid then .waiting else .done }
    (s.post (.taskPrepared h)).retryPrefetches t.cluster

/-- TASK_INTAKE (R155 step 2): into the table, or to the task ring with a copy of the descriptor. -/
def State.intake (s : State) (h : Word) : State :=
  match s.task? h with
  | none => s
  | some t =>
    if t.state ≠ .flying then s
    else if s.tableUsed t.cluster < 1024 then s.startPrep h
    else
      let s := s.tick
      let k := s.cluster t.cluster
      let n := k.ringSize.toNat / 128
      let s := (s.pokeVia (s.superView t.cluster) (k.ringBase + wordOf (128 * (k.ringTail % n))) t.desc.raw).getD s
      let s := s.modCluster t.cluster fun k => { k with ringTail := k.ringTail + 1 }
      s.setTask h { t with state := .ring, order := s.serial }

def execTaskIntake (h : Word) (s : State) : Result := .next (s.intake h)

/-- The entry of the task ring that came first. -/
def State.ringHeadOf (s : State) (c : Nat) : Option Word :=
  ((s.tasks.filter fun e => e.2.cluster == c && e.2.state == .ring).foldl
    (fun (b : Option (Nat × Task)) e => match b with
      | some x => if e.2.order < x.2.order then some e else b
      | none => some e) none).map fun e => wordOf e.1

/-- TASK_RING_REFILL (R155 step 2). -/
def execTaskRingRefill (c : Nat) (s : State) : Result :=
  match s.ringHeadOf c with
  | some h =>
    if s.tableUsed c < 1024 then
      .next (((s.modCluster c fun k => { k with ringHead := k.ringHead + 1 }).startPrep h).post (.taskRingRefill c))
    else .next s
  | none => .next s

/-! ## Preparation (R37, R123, R155, R158, R187) -/

/-- The view of a task that is not on a hart: the `satp` of its hart, or of its cluster's supervisor hart (log 12). -/
def State.taskView (s : State) (h : Word) (c : Nat) : View :=
  let n := (s.hartOf h).getD (s.superHart c)
  { mode := .u, satp := (s.hart n).sys.satp, sum := false, mxr := false, part := s.partOf c, cluster := c,
    core := coreOf n, runs := [], pmp := none }

/-- Add a page to runs kept latest first: it extends the last run, or starts one while fewer than `most` are held. A part
that begins inside a page continues the last guest page. -/
def addPage (most : Nat) (r w : Bool) (asid : BitVec 16) (va : Word) (len pa gpage : Nat) : List Run → List Run
  | [] => if most = 0 then [] else [{ va := va, len := len, pa := pa, read := r, write := w, asid := asid, gpages := [gpage] }]
  | x :: t =>
    if x.va + wordOf x.len = va ∧ x.pa + x.len = pa ∧ x.read = r ∧ x.write = w then
      { x with len := x.len + len, gpages := if va.toNat % 4096 = 0 then x.gpages ++ [gpage] else x.gpages } :: t
    else if t.length + 1 < most then
      { va := va, len := len, pa := pa, read := r, write := w, asid := asid, gpages := [gpage] } :: x :: t
    else x :: t

/-- Why a dispatch fails: the cause and subcode of its fault word (R187, R155), and the stage, access and addresses that
its report carries (R353). -/
structure PrepFault where
  cause  : Nat
  sub    : Nat
  stage  : Nat
  access : Nat
  va     : Word
  gpa    : Nat
  deriving DecidableEq, Repr, Inhabited

/-- The failure of a declared access to a page, or the page's physical address and its guest page. A page of the device
windows, which are never translated (R50), or past the canonical addresses fails in stage 1 (DESIGN CHOICE, log 67). -/
def State.declaredPage (s : State) (v : View) (r w : Bool) (va : Word) : Except PrepFault (State × Nat × Nat) :=
  let try1 := fun (s : State) (acc : Acc) =>
    let bad := fun (stage gpa : Nat) => (Except.error
      { cause := 0, sub := 0, stage := stage, access := acc.code, va := va, gpa := gpa } :
      Except PrepFault (State × Nat × Nat))
    if !canonical va || inWindows va then bad 1 0
    else match translatePage s v acc va with
    | .error (.xlate stage _ _ _ gpa) => bad stage gpa
    | .error _ => bad 2 0
    | .ok (s, t) =>
      if t.ppn * 4096 < hbmSize then .ok (s, t.ppn * 4096 + va.toNat % 4096, t.gppn)
      else bad 2 (t.gppn * 4096 + va.toNat % 4096)
  match r, w with
  | true, true => match try1 s .load with
    | .error e => .error e
    | .ok (s, _) => try1 s .store
  | false, true => try1 s .store
  | _, false => try1 s .load

/-- Translate a declared range page by page. -/
def declaredRange (v : View) (r w : Bool) (most : Nat) : Nat → State → Word → Nat → List Run → Except PrepFault (State × List Run)
  | 0, s, _, _, rs => .ok (s, rs)
  | n + 1, s, va, len, rs =>
    if len = 0 then .ok (s, rs)
    else
      let k := min len (4096 - va.toNat % 4096)
      match s.declaredPage v r w va with
      | .error e => .error e
      | .ok (s, pa, gpage) =>
        declaredRange v r w most n s (va + wordOf k) (len - k)
          (addPage most r w (BitVec.ofNat 16 (bits v.satp 44 16)) va k pa gpage rs)

/-- The declared extents in order, then the store log; the fault word's cause and subcode when one fails (R187). -/
def declaredAll (v : View) : List (Nat × Extent) → State → List Run → Except PrepFault (State × List Run)
  | [], s, rs => .ok (s, rs)
  | (i, e) :: r, s, rs =>
    if e.len = 0 then declaredAll v r s rs
    else
      match declaredRange v e.read e.write 32 (e.len.toNat * 64 / 4096 + 2) s e.base (e.len.toNat * 64) rs with
      | .ok (s, rs) => declaredAll v r s rs
      | .error f => .error { f with cause := if e.write then 15 else 13, sub := (if f.stage = 1 then 0x10 else 0x20) + i }

/-- The physical extent table and the run table of the store log. -/
def State.prepareRuns (s : State) (h : Word) (t : Task) : Except PrepFault (State × List Run × List Run) :=
  let v := s.taskView h t.cluster
  match declaredAll v (t.desc.extents.zipIdx.map fun e => (e.2, e.1)) s [] with
  | .error f => .error f
  | .ok (s, rs) =>
    let n := t.desc.logSize.toNat
    match declaredRange v false true 8 (n / 4096) s t.desc.logAddr n [] with
    | .error f => .error { f with cause := 15, sub := if f.stage = 1 then 0x30 else 0x40 }
    | .ok (s, ls) => .ok (s, rs.reverse, ls.reverse)

/-- Preparation fails (R155): a terminal report, the future faulted, the task gone. -/
def State.prepFails (s : State) (h : Word) (c : Nat) (f : PrepFault) : State :=
  let (s, _) := s.report ringTerminal
    { mkReport s 1 f.cause f.sub c h with stage := f.stage, access := f.access, va := f.va, gpa := wordOf f.gpa }
  s.endTask h (.faulted (faultWord f.cause f.sub c false))

/-- The failure of the first argument that failed. -/
def firstFailure : List Prefetch → Option PrepFault
  | [] => none
  | .failed cause sub :: _ => some { cause := cause, sub := sub, stage := 0, access := 0, va := 0, gpa := 0 }
  | _ :: r => firstFailure r

/-- TASK_PREPARED: translation, once; then the first failure by the order of R155, or readiness once every argument has
hoisted. A failure whose report finds no room is tried again (R355). -/
def State.prepared (s : State) (h : Word) : State :=
  match s.task? h with
  | none => s
  | some t =>
    if t.state ≠ .preparing then s
    else
      let r : Except PrepFault State :=
        if t.translated then .ok s
        else match s.prepareRuns h t with
          | .error f => .error f
          | .ok (s, rs, ls) => .ok (s.modTask h fun t => { t with translated := true, runs := rs, logRuns := ls })
      let fails := fun (s : State) (f : PrepFault) =>
        if s.ringFull ringTerminal t.cluster then s.post (.taskPrepared h) else s.prepFails h t.cluster f
      match r with
      | .error f => fails s f
      | .ok s => match firstFailure t.prefetch with
        | some f => fails s f
        | none => if t.prefetch.all fun p => p == .done then s.makeReady h else s

def execTaskPrepared (h : Word) (s : State) : Result := .next (s.prepared h)

def State.setPrefetch (s : State) (h : Word) (i : Nat) (p : Prefetch) : State :=
  (s.modTask h fun t => { t with prefetch := t.prefetch.set i p }).post (.taskPrepared h)

/-- Another prefetch for the stage came first (R158). -/
def State.prefetchBefore (s : State) (c n order i : Nat) : Bool :=
  s.tasks.any fun e => e.2.cluster == c && e.2.state == .preparing &&
    (e.2.prefetch.zip e.2.desc.args).zipIdx.any fun p =>
      p.1.1 == .waiting && p.1.2.stage.toNat == n && (decide (e.2.order < order) || (e.2.order == order && decide (p.2 < i)))

/-- The copy word of a prefetch. -/
def prefetchWord (a : StageArg) : Word := wordOf (a.length / 64 * 2 ^ 22 + a.stage.toNat)

/-- PREFETCH_ARM (R158): the argument is resident, or waits for its stage and a slot, or is armed and copied. A stage held
as spill space counts as armed (log 13). -/
def State.armPrefetch (s : State) (h : Word) (i : Nat) : State :=
  match s.task? h with
  | none => s
  | some t =>
    let c := t.cluster
    let a := t.desc.args.getD i default
    let n := a.stage.toNat
    let g := s.stage c n
    if t.state ≠ .preparing ∨ t.prefetch.getD i .done ≠ .waiting ∨ s.halting c ∨ t.ending.isSome then s
    else if !g.defined then s.setPrefetch h i (.failed 31 0x01)
    else if a.length > g.size then s.setPrefetch h i (.failed 31 0x02)
    else if a.source.toNat = 0x7F4000000000 + n * 2 ^ 20 then s.setPrefetch h i .done
    else if g.armed || g.prefetch || g.lifts > 0 || s.prefetchBefore c n t.order i then s
    else if g.count.toNat > a.length then s.setPrefetch h i (.failed 31 0x04)
    else
      let v := s.taskView h c
      let x : CopySlot :=
        { seq := 0, state := 1, cause := 0, sub := 0, done := 0, total := a.length, kind := .fetch, task := h,
          hart := s.superHart c, word := prefetchWord a, satp := v.satp, mode := .u, addr := a.source, gather := [],
          targets := [], out := false, heldOn := none }
      match s.allocSlot c x with
      | none => s
      | some (s, k) =>
        let s := s.modTask h fun t => { t with prefetch := t.prefetch.set i (.copying k) }
        (s.modStage c n fun t => { t with prefetch := true }).armStage c n (BitVec.ofNat 32 a.length)

def execPrefetchArm (h : Word) (i : Nat) (s : State) : Result := .next (s.armPrefetch h i)

/-- PREFETCH_STOP (R163): the prefetches of a removed task stop without a hoist. -/
def execPrefetchStop (h : Word) (s : State) : Result :=
  match s.task? h with
  | some t =>
    if t.state = .stopping then
      .next (((stopPrefetches s t.cluster h (t.desc.args.zip t.prefetch)).dropTask h).post (.taskRingRefill t.cluster))
    else .next s
  | none => .next s

/-! ## Ready queues and dispatch (R157) -/

/-- AGE_PROMOTION: 50 µs ready without dispatch. -/
def execAgePromotion (h : Word) (s : State) : Result :=
  match s.task? h with
  | some t => if t.state = .ready ∧ t.promo ≠ 3 ∧ !s.still t.cluster then .next (s.setTask h { t with promo := t.promo + 1 }) else .next s
  | none => .next s

/-- The free architectural tiles of a pair (R221). -/
def State.freeTilesOf (s : State) (p : Nat) : List Nat :=
  (List.range 16).filter fun t => (s.tile p t).owner.isNone

/-- The pair takes no new task: it drains, or is out of service (R373 to R375). -/
def State.pairClosed (s : State) (p : Nat) : Bool :=
  (s.pair p).state != 0 || (match (s.cluster (clusterOfPair p)).drain with | some d => d.1 == p | none => false)

/-- The task that a pair is reserved for. -/
def State.reservedFor (s : State) (p : Nat) : Option Word :=
  ((s.cluster (clusterOfPair p)).reserve.find? fun e => e.1 == p).map fun e => e.2

/-- The pair has the tiles for a task that holds none. -/
def State.tilesFor (s : State) (p : Nat) (h : Word) (n : Nat) : Bool :=
  decide (n ≤ (s.freeTilesOf p).length) && (match s.reservedFor p with | some o => o == h | none => true)

/-- The pin of a root task admits the hart (R28, R157). -/
def Pin.admits : Pin → Nat → Bool
  | .any, _ => true
  | .hart n, h => n == h
  | .core c, h => coreOf h == c
  | .pair p, h => pairOf h == p

/-- The hart is free: in service, in U mode without a task, nothing pending in it. -/
def State.hartFree (s : State) (h : Nat) : Bool :=
  let x := s.hart h
  x.mode == .u && x.task.isNone && x.inService && !x.stopped && x.pfx.isNone && !s.pairClosed (pairOf h)

/-- A ready task may be dispatched on a hart (R157). -/
def State.canRun (s : State) (h : Nat) (task : Word) (t : Task) : Bool :=
  t.state == .ready && t.ending.isNone && t.cluster == clusterOf h && t.pin.admits h &&
    (t.desc.tiles == 0 || (isCompute h && (match t.pair with
      | some p => p == pairOf h || (t.moved && s.tilesFor (pairOf h) task t.desc.tiles &&
          !((s.pair p).ops.any fun o => o.task == task))
      | none => s.tilesFor (pairOf h) task t.desc.tiles)))

/-- The task comes before another on this hart: the higher queue, a root pinned here first, the older. -/
def taskBefore (h : Nat) (a b : Nat × Nat × Task) : Bool :=
  let key := fun (x : Nat × Nat × Task) => (if x.2.2.pin = Pin.hart h then 0 else 1, x.2.2.order)
  decide (a.1 > b.1) || (a.1 == b.1 && (decide ((key a).1 < (key b).1) ||
    ((key a).1 == (key b).1 && decide ((key a).2 < (key b).2))))

/-- The ready tasks of the hart's cluster with their effective priorities. -/
def State.readyOf (s : State) (c : Nat) : List (Nat × Nat × Task) :=
  (s.tasks.filter fun e => e.2.cluster == c && e.2.state == .ready).map fun e => (s.eprio (wordOf e.1), e.1, e.2)

/-- The task a hart takes: the oldest of the highest queue that it can run. -/
def State.candidate (s : State) (h : Nat) : Option (Nat × Nat × Task) :=
  ((s.readyOf (clusterOf h)).filter fun e => s.canRun h (wordOf e.2.1) e.2.2).foldl
    (fun b e => match b with
      | some x => if taskBefore h e x then some e else b
      | none => some e) none

/-- The tasks that a core runs. -/
def State.coreLoad (s : State) (core : Nat) : Nat :=
  ((List.range 8).filter fun i => (s.hart (core * 8 + i)).task.isSome).length

/-- The hart that the engine takes for a task: its core runs the fewest tasks; the lowest core, then the lowest hart. -/
def State.bestHart (s : State) (task : Word) (t : Task) : Option Nat :=
  (((List.range 64).map fun i => t.cluster * 64 + i).filter fun h => s.hartFree h && s.canRun h task t).foldl
    (fun b h => match b with
      | some x => if s.coreLoad (coreOf h) < s.coreLoad (coreOf x) then some h else b
      | none => some h) none

/-- A tile as a task receives it: zero, format tag 0, no tags, a clear status word (R32). -/
def freshTile (task : Word) : Tile := { rows := [], fmt := 0, axes := 0, flags := 0, owner := some task }

def giveTiles (s : State) (p : Nat) (task : Word) : List Nat → State
  | [] => s
  | t :: r => giveTiles (s.setTile p t (freshTile task)) p task r

/-- Move tiles with their contents, tags and status words from one pair to another (R237). -/
def moveTiles (s : State) (p q : Nat) : List (Nat × Nat) → State
  | [] => s
  | (a, b) :: r => moveTiles ((s.setTile q b (s.tile p a)).freeTile p a) p q r

/-- The tiles of a task go to free tiles of another pair (R237, R375). -/
def State.rebindTiles (s : State) (h : Nat) (task : Word) (t : Task) (p : Nat) : State :=
  let q := pairOf h
  if p = q then s.modTask task fun t => { t with moved := false }
  else
    let ts := (s.freeTilesOf q).take t.desc.tiles
    let s := (moveTiles s p q (t.tiles.zip ts)).modCluster t.cluster fun k =>
      { k with reserve := k.reserve.filter fun e => e.2 != task }
    s.modTask task fun t => { t with pair := some q, tiles := ts, moved := false }

/-- Bind the tiles of a task that has none yet, or move those of one whose pair is lost. -/
def State.bindTiles (s : State) (h : Nat) (task : Word) (t : Task) : State :=
  if t.desc.tiles = 0 then s
  else if t.pair.isSome then
    (if t.moved then s.rebindTiles h task t (t.pair.getD 0) else s)
  else
    let p := pairOf h
    let ts := (s.freeTilesOf p).take t.desc.tiles
    let s := (giveTiles s p task ts).modCluster t.cluster fun k => { k with reserve := k.reserve.filter fun e => e.2 != task }
    s.modTask task fun t => { t with pair := some p, tiles := ts }

/-- Mark the ready tasks that were passed over for lack of tiles (R157). -/
def State.markPassed (s : State) (c : Nat) : State :=
  { s with tasks := s.tasks.mapVal fun k t =>
      if t.cluster = c ∧ t.state = .ready ∧ t.desc.tiles ≠ 0 ∧ t.pair = none ∧
          !((List.range 4).any fun i => s.tilesFor (c * 4 + i) (wordOf k) t.desc.tiles) then
        { t with passedOver := true }
      else t }

/-- Put a task on a hart (R32, R157, R402): registers and pc of its restart point, the future running. A woken task goes on
in the instruction it parked in, and one whose core was lost in the wait that it keeps (R142). -/
def State.place (s : State) (h : Nat) (task : Word) : State :=
  match s.task? task with
  | none => s
  | some t =>
    let s := s.bindTiles h task t
    let reply : Option Reply := match t.wake with
      | some (.outcome st v vd _ _) => some (.done st v vd)
      | some (.lost hd) => some (.trap 48 0x05 hd)
      | some .select | none => none
    let away := t.waitsOn.any fun w => w != 0 && !s.isHere w
    let wait : Option Wait := match t.parkedIn, t.wake with
      | some i, some _ => some { instr := i, kind := if away && reply.isSome then .sent t.waitsOn else .short, reply := reply }
      | _, _ => t.resume
    let s := s.modHart h fun x => { x with
      task := some task, pc := t.region.ckpt.pc, ctx := t.region.ckpt.ctx, mode := .u, jumped := true, waiting := wait,
      resv := none, pfx := none, freeOnSret := false }
    let s := s.useBy t.launch (pairOf h)
    let s := s.modTask task fun t => { t with state := .running, promo := 0, passedOver := false, dispatched := true,
                                              parkedIn := none, resume := none }
    match s.fut? task with
    | some f => if f.state = 1 then s.setFut task { f with state := 2 } else s
    | none => s

/-- TASK_DISPATCH. -/
def execTaskDispatch (h : Nat) (s : State) : Result :=
  if s.hartFree h then
    match s.candidate h with
    | none => .next (s.markPassed (clusterOf h))
    | some (_, k, t) =>
      if s.bestHart (wordOf k) t = some h then .next ((s.place h (wordOf k)).markPassed (clusterOf h)) else .next s
  else .next s

/-- TILE_RESERVATION (R157): a task that has stood at priority 3 for 50 µs and has been passed over for lack of tiles
reserves the unreserved compute pair with the most free tiles. -/
def State.reservePair (s : State) (h : Word) : State :=
  match s.task? h with
  | none => s
  | some t =>
    let c := t.cluster
    let k := s.cluster c
    if t.state = .ready ∧ s.eprio h = 3 ∧ t.passedOver ∧ t.pair = none ∧ !(k.reserve.any fun e => e.2 == h) then
      let ps := ((List.range 4).map fun i => c * 4 + i).filter fun p => (s.reservedFor p).isNone && !s.pairClosed p
      match ps with
      | [] => s
      | p :: r =>
        let best := r.foldl (fun b p => if (s.freeTilesOf p).length > (s.freeTilesOf b).length then p else b) p
        s.setCluster c { k with reserve := k.reserve ++ [(best, h)] }
    else s

def execTileReservation (h : Word) (s : State) : Result := .next (s.reservePair h)

/-! ## Wakes (R161) -/

/-- TASK_WAKE: the parked task leaves every other waiter list and becomes ready with the outcome. -/
def State.wake (s : State) (h : Word) (o : Option Reply) : State :=
  match s.task? h with
  | none => s
  | some t =>
    if t.state ≠ .parked then s
    else
      let w : Option Wake := match o with
        | some (.done st v vd) => some (.outcome st v vd false none)
        | some _ => some .select
        | none => t.wake
      match w with
      | none => s
      | some w => ((s.leaveWaits h).setTask h { t with wake := some w }).makeReady h

def execTaskWake (h : Word) (o : Option Reply) (s : State) : Result := .next (s.wake h o)

/-- The task waits, in its touch or `tany`, on a future of this chip id; the handle that its trap reports. -/
def Task.waitsAt (t : Task) (chip : BitVec 12) : Option Word :=
  if t.state = .parked then t.waitsOn.find? fun w => w != 0 && handleChip w == chip else none

/-- HOME_CHIP_LOST_TIMEOUT: 10 ms after the loss of a home chip its parked waiters become ready with 48, 0x05. -/
def execHomeChipLostTimeout (chip : Nat) (s : State) : Result :=
  let ts := s.tasks.filterMap fun e => (e.2.waitsAt (BitVec.ofNat 12 chip)).map fun w => (wordOf e.1, w)
  .next (ts.foldl (fun s e =>
    ((s.leaveWaits e.1).modTask e.1 fun t => { t with wake := some (.lost e.2) }).makeReady e.1) s)

/-- TASK_END_ARRIVE (R163). -/
def execTaskEndArrive (h : Word) (how : EndKind) (s : State) : Result := .next (s.endArrives h how)

end Sys2Proof.Machine
end

