-- ==== Sys2Proof/Machine/Services.lean ====
section
/-! DEFINITION. Environment calls (R119) and the firmware calls of the supervisor (R159, R160, R352, R356, R382); the ends
of a drain of stores and of a supervisor's scrub (R42, R348). -/

namespace Sys2Proof.Machine

/-- a0, a1, a6 and a7 by number. -/
def a0 : Reg := 10
def a1 : Reg := 11
def a2 : Reg := 12
def a3 : Reg := 13
def a6 : Reg := 16
def a7 : Reg := 17

/-- The firmware call that an `ecall` of the acting hart makes now, from S mode: its number with a7 = 0x0053_5600, and 0
with any a7 that the firmware does not serve (R159, log 22). -/
def State.fwNumber (s : State) : Option Nat :=
  if s.me.mode = .s then some (if s.x a7 = 0x00535600 then (s.x a6).toNat else 0) else none

/-- The effect of a call, where the hart makes it; the hart goes on after its `ecall`. -/
def State.fwStep (s : State) (n : Nat) (f : State → State) : Result :=
  if s.fwNumber = some n then .next (f s).complete else .next s

/-! ## Call 1: set areas (R159) -/

/-- The area is given whole in pages that the supervisor may write. -/
def pagesMapped (v : View) : Nat → State → Word → Bool
  | 0, _, _ => true
  | n + 1, s, va => match resolve s v .store va 1 1 with
    | .ok (s, _) => pagesMapped v n s (va + 4096)
    | .error _ => false

def areaOk (s : State) (base size : Word) : Bool :=
  base.toNat % 4096 == 0 && size.toNat % 4096 == 0 &&
    (size == 0 || (canonicalRange base size.toNat && pagesMapped (s.view .store) (size.toNat / 4096) s base))

/-- The records that the spill region holds: their 32 bytes. -/
def State.spilledRecords (s : State) (c : Nat) : List (Nat × List Byte) :=
  (List.range (s.cluster c).spillCount).filterMap fun i =>
    match s.peek (s.superView c) (spillVa (s.cluster c) i) 32 with
    | some bs => if leNat (bs.take 8) = 0 then none else some (i, bs)
    | none => none

/-- Put one record into the new region: among 8 indices for a future, among 64 for a waiter (R159, R162). -/
def State.placeRecord (s : State) (c : Nat) (was : Nat) (bs : List Byte) : Option State :=
  let w := wordOf (leNat (bs.take 8))
  let waiter := bits w 62 2 == 3
  let h := if waiter then wordOf (w.toNat % 2 ^ 62 + 2 * 2 ^ 62) else w
  match s.emptySpill c h (if waiter then 64 else 8) with
  | none => none
  | some i =>
    let s := s.writeSpill c i bs
    some (s.modCluster c fun k => { k with waiters := k.waiters.map fun x =>
      if waiter && x.spill == (some was) && x.seq.toNat == leNat ((bs.drop 16).take 4) then { x with spill := some i } else x })

def placeRecords (c : Nat) : List (Nat × List Byte) → State → Option State
  | [], s => some s
  | (i, bs) :: r, s => (s.placeRecord c i bs).bind (placeRecords c r)

/-- Write zero over an area of the supervisor, page by page. -/
def clearArea (v : View) : Nat → Word → State → State
  | 0, _, s => s
  | n + 1, va, s => clearArea v n (va + 4096) ((s.pokeVia v va (List.replicate 4096 0)).getD s)

def writeRing (v : View) : List Task → Word → State → State
  | [], _, s => s
  | t :: r, a, s => writeRing v r (a + 128) ((s.pokeVia v a t.desc.raw).getD s)

/-- Give the engine its areas and move what is held into them; a0 of the call. -/
def State.setAreas (s : State) (c : Nat) (sb ss rb rs : Word) : State × Nat :=
  if !areaOk s sb ss || !areaOk s rb rs then (s, 1)
  else
    let recs := s.spilledRecords c
    let ring := s.ringTasks c
    let t := s.modCluster c fun k =>
      { k with spillBase := sb, spillSize := ss, ringBase := rb, ringSize := rs, areaHart := s.cur, ringHead := 0,
               ringTail := ring.length }
    let t := clearArea (t.superView c) (ss.toNat / 4096) sb t
    if ring.length * 128 > rs.toNat then (s, 2)
    else match placeRecords c recs t with
      | none => (s, 2)
      | some t => (writeRing (t.superView c) ring rb t, 0)

def State.fwSetAreas (s : State) : State :=
  let r := s.setAreas (clusterOf s.cur) (s.x a0) (s.x a1) (s.x a2) (s.x a3)
  r.1.setX a0 (wordOf r.2)

/-! ## Calls 2 to 4 (R160, R356) -/

def State.fwRetryHeld (s : State) : State :=
  let r := s.retryHeld (clusterOf s.cur)
  r.1.setX a0 (wordOf r.2)

def State.fwRejectHeld (s : State) : State :=
  let r := s.rejectHeld (clusterOf s.cur)
  r.1.setX a0 (wordOf r.2)

/-- The 64 bytes of a fault report (R353). -/
def Report.bytes (r : Report) : List Byte :=
  leBytes 8 r.seq ++ leBytes 1 r.source ++ leBytes 1 r.cause ++ leBytes 1 r.sub ++ leBytes 1 (r.stage + 4 * r.access) ++
    leBytes 1 r.part ++ leBytes 1 0 ++ leBytes 2 r.origin ++ leBytes 8 r.va.toNat ++ leBytes 8 r.gpa.toNat ++
    leBytes 8 r.task.toNat ++ leBytes 8 r.info.toNat ++ leBytes 8 r.time.toNat ++ leBytes 4 r.loc.toNat ++ leBytes 4 0

/-- The oldest unread report of a cluster. -/
def Cluster.oldestUnread (k : Cluster) : Option Report := (k.reports.drop (k.reports.length - k.unread)).head?

def State.fwReadReports (s : State) : State :=
  let c := clusterOf s.cur
  let k := s.cluster c
  let a := s.x a0
  let s := (s.modCluster c fun k => { k with overwritten := 0 }).setX a1 (wordOf k.overwritten)
  if a.toNat % 64 ≠ 0 then s.setX a0 2
  else match resolve s (s.view .store) .store a 64 64 with
    | .error _ => s.setX a0 2
    | .ok (s, ls) => match k.oldestUnread with
      | none => s.setX a0 0
      | some r =>
        let s := performUnits s (some s.cur) (s.partOf c) ls r.bytes
        (s.modCluster c fun k => { k with unread := k.unread - 1 }).setX a0 1

/-! ## Call 5: end the held task (R352) -/

/-- The held task's future becomes faulted with the cause that the hart holds; the next `sret` frees the hart. -/
def State.fwEndHeld (s : State) : State :=
  match s.me.task with
  | none => s.setX a0 1
  | some t =>
    let w := s.me.sys.scause
    let cause := bits w 0 8
    let sub := bits w 8 8
    let c := clusterOf s.cur
    let (s, _) := s.report ringTerminal { mkReport s 0 cause sub c t with loc := (hartloc s.chip s.cur).setWidth 32 }
    (s.endTask t (.faulted (faultWord cause sub c false))).setX a0 0

/-! ## Calls 6 and 7: lost tasks (R382) -/

/-- The fault word of a task that core loss ends. -/
def lossWord (c : Nat) : Word := faultWord 24 0x10 c false

def State.lostTasks (s : State) (c : Nat) : List Word :=
  (s.tasks.filter fun e => e.2.cluster == c && e.2.state == .lost).map fun e => wordOf e.1

/-- Re-queue one lost task at its last commit point; answers whether it was re-queued. A third loss ends it. -/
def State.requeueLost (s : State) (c : Nat) (h : Word) : State × Bool :=
  match s.task? h with
  | none => (s, false)
  | some t =>
    if t.lossCount ≥ 2 then (s.endTask h (.faulted (lossWord c)), false)
    else ((((s.correct h).modTask h fun t => { t with lossCount := t.lossCount + 1, moved := t.pair.isSome })).makeReady h, true)

def requeueAll (c : Nat) : List Word → State × Nat → State × Nat
  | [], r => r
  | h :: t, (s, n) =>
    let r := s.requeueLost c h
    requeueAll c t (r.1, if r.2 then n + 1 else n)

def State.fwRequeueLost (s : State) : State :=
  let c := clusterOf s.cur
  let r := requeueAll c (s.lostTasks c) (s.modCluster c fun k => { k with lossNote := false }, 0)
  r.1.setX a0 (wordOf r.2)

def State.fwFaultLost (s : State) : State :=
  let c := clusterOf s.cur
  let l := s.lostTasks c
  (l.foldl (fun s h => s.endTask h (.faulted (lossWord c))) (s.modCluster c fun k => { k with lossNote := false })).setX a0 (wordOf l.length)

/-- A call that has no number of R159: all ones, and nothing else. -/
def State.fwUnknown (s : State) : State := s.setX a0 (-1)

/-! ## The instructions -/

/-- The effect of the firmware call with this number. -/
def State.fwCall (s : State) (n : Nat) : State :=
  match n with
  | 1 => s.fwSetAreas
  | 2 => s.fwRetryHeld
  | 3 => s.fwRejectHeld
  | 4 => s.fwReadReports
  | 5 => s.fwEndHeld
  | 6 => s.fwRequeueLost
  | 7 => s.fwFaultLost
  | _ => s.fwUnknown

/-- The cause of an environment call by mode (privileged specification). -/
def ecallCause : Mode → Nat
  | .u => 8
  | .s => 9
  | .m => 11

/-- `ecall` (R119): a firmware call of R159 from S mode; else a trap, in U mode at the commit point of the region. -/
def execEcall (s : State) : Result :=
  runOpen .ecall s fun s =>
    match s.fwNumber with
    | some n => .ok (s.fwCall n)
    | none => .error (.trap (ecallCause s.me.mode) 0 0)

def execFwSetAreas (s : State) : Result := s.fwStep 1 State.fwSetAreas
def execFwRetryHeld (s : State) : Result := s.fwStep 2 State.fwRetryHeld
def execFwRejectHeld (s : State) : Result := s.fwStep 3 State.fwRejectHeld
def execFwReadReports (s : State) : Result := s.fwStep 4 State.fwReadReports
def execFwEndHeldTask (s : State) : Result := s.fwStep 5 State.fwEndHeld
def execFwRequeueLost (s : State) : Result := s.fwStep 6 State.fwRequeueLost
def execFwFaultLost (s : State) : Result := s.fwStep 7 State.fwFaultLost

/-- FW_UNKNOWN_CALL: an a6 that names no call (R159). -/
def execFwUnknownCall (s : State) : Result :=
  match s.fwNumber with
  | some n => if n = 0 ∨ n > 7 then .next s.fwUnknown.complete else .next s
  | none => .next s

/-! ## Ends of drains and scrubs -/

/-- STORE_DRAIN_DONE (R42): every committed store of the hart's task is performed, and the checkpoint of the region that
follows is taken. -/
def execStoreDrainDone (h : Nat) (s : State) : Result :=
  match s.taskOf h with
  | some t => if t.region.undrained.isEmpty then .next s else .next ((s.drainTask h).checkpoint h (s.hart h).pc)
  | none => .next s

/-- The bytes of a cluster's scratchpad that lie inside no defined stage. -/
def State.padFree (s : State) (c a : Nat) : Bool :=
  padAddr c 0 ≤ a && a < padAddr c padSize &&
    !((s.cluster c).stages.any fun e => e.2.defined && decide (e.2.base ≤ a - padAddr c 0) &&
      decide (a - padAddr c 0 < e.2.base + 2 * e.2.size))

/-- Write zero over the bytes of memory that a test picks. -/
def State.zeroWhere (s : State) (p : Nat → Bool) : State :=
  { s with mem := s.mem.filter (fun (e : Host.Cell) => !p e.1), unitKeys := s.unitKeys.filter (fun (e : Nat × BitVec 512) => !p (e.1 * 64)) }

/-- What a scrub started by `scrubctl` zeroes (R348): free scratchpad, free architectural tiles, the vault beneath. -/
def State.scrubUnits (s : State) (c : Nat) (u : BitVec 3) : State :=
  let s := if u.getLsbD 0 then s.zeroWhere (s.padFree c) else s
  let s := if u.getLsbD 1 then
      { s with pairs := s.pairs.mapVal fun p x =>
          if clusterOfPair p = c then { x with tiles := x.tiles.filter fun e => e.2.owner.isSome || e.1 ≥ 16 } else x }
    else s
  let owns := match (s.partOf c).bind s.parts.find with
    | some p => p.vaults.getLsbD c
    | none => false
  if u.getLsbD 2 && owns then s.zeroWhere fun a => vaultAddr c 0 ≤ a && a < vaultAddr c vaultSize else s

/-- SUPERVISOR_SCRUB_DONE: the units are zero and busy clears. -/
def execSupervisorScrubDone (c : Nat) (s : State) : Result :=
  .next ((s.scrubUnits c (s.cluster c).scrubBusy).modCluster c fun k => { k with scrubBusy := 0 })

end Sys2Proof.Machine
end

