-- ==== Sys2Proof/Machine/Rings.lean ====
section
/-! DEFINITION. Posting fault reports to the host and their acknowledgement (R353 to R355). -/

namespace Sys2Proof.Machine

def State.setRing (s : State) (r : Nat) (x : Ring) : State := { s with rings := s.rings.put r x }

/-- The function whose host memory holds a ring. -/
def ringFn (r : Nat) : Nat := r - 2

/-- A translated host address enters the cache of the die that asked for it: 1,024 entries, the oldest leaving first (R385;
log 60). -/
def State.fillAts (s : State) (die fn : Nat) (pasid : Option Nat) (page : Nat) : State :=
  let e : AtsEntry := { die := die, fn := fn, pasid := pasid, page := page }
  if s.ats.contains e then s
  else { s with ats := e :: ((s.ats.filter fun x => x.die == die).take 1023 ++ s.ats.filter fun x => x.die != die) }

/-- The translations of a host access of `n` bytes by a die. -/
def State.hostTranslate (s : State) (die fn : Nat) (pasid : Option Nat) (a : Word) (n : Nat) : State :=
  (List.range ((a.toNat % 4096 + n + 4095) / 4096)).foldl (fun s i => s.fillAts die fn pasid (a.toNat / 4096 + i)) s

/-- Bytes written to host memory by the device. -/
def State.hostWrite (s : State) (fn : Nat) (pasid : Option Nat) (a : Word) (bs : List Byte) : State :=
  s.setBytes (hostAddr fn pasid a.toNat) bs

def State.hostRead (s : State) (fn : Nat) (pasid : Option Nat) (a : Word) (n : Nat) : List Byte :=
  s.bytes (hostAddr fn pasid a.toNat) n

/-- A ring that has a report to post and room for it. -/
def Ring.canPost (x : Ring) : Bool := !x.held.isEmpty && x.posted.length ≤ Config.ringRoom

/-- A round is over for every ring that could still post. -/
def State.roundOver (s : State) : Bool := s.rings.all fun e => !e.2.canPost || e.2.used ≥ e.2.weight

def State.newRound (s : State) : State := { s with rings := s.rings.mapVal fun _ x => { x with used := 0 } }

/-- The oldest report of a ring goes to host memory. -/
def State.postOne (s : State) (r : Nat) : State :=
  let x := s.ring r
  match x.held with
  | [] => s
  | y :: rest =>
    let s := s.hostTranslate (y.origin / 64) (ringFn r) none (x.base + wordOf (64 * ((y.seq - 1) % (Config.ringRoom + 1)))) 64
    let s := s.hostWrite (ringFn r) none (x.base + wordOf (64 * ((y.seq - 1) % (Config.ringRoom + 1)))) y.bytes
    s.setRing r { x with held := rest, posted := x.posted ++ [y], used := x.used + 1 }

/-- REPORT_POST (R355): the oldest report of the ring is posted, when the round lets the ring post and it has room. -/
def execReportPost (r : Nat) (s : State) : Result :=
  if !(s.ring r).canPost then .next s
  else if (s.ring r).used < (s.ring r).weight then .next (s.postOne r)
  else if s.roundOver then .next (s.newRound.postOne r)
  else .next (s.post (.reportPost r))

/-! ## Acknowledgement (R354) -/

/-- Two reports of one ring concern the same page. -/
def samePage (x y : Report) : Bool :=
  x.part == y.part && x.stage == y.stage &&
    (if x.stage = 2 then x.gpa.toNat / 4096 == y.gpa.toNat / 4096 else x.va.toNat / 4096 == y.va.toNat / 4096)

/-- Held on one of these reports of the ring. -/
def heldAmong (r : Nat) (seqs : List Nat) : Option (Nat × Nat) → Bool
  | some (q, n) => q == r && seqs.contains n
  | none => false

/-- Each held task is re-queued at its region start (R44). -/
def releaseTasks (r : Nat) (seqs : List Nat) : List (Nat × Task) → State → State
  | [], s => s
  | (k, t) :: rest, s =>
    releaseTasks r seqs rest
      (if t.state = .paged ∧ heldAmong r seqs t.heldOn then
        (s.modTask (wordOf k) fun t => { t with heldOn := none }).makeReady (wordOf k)
      else s)

/-- Each held command resumes from its done count. -/
def releaseCopies (r : Nat) (seqs : List Nat) (c : Nat) : List (Nat × CopySlot) → State → State
  | [], s => s
  | (n, x) :: rest, s =>
    releaseCopies r seqs c rest
      (if x.state = 3 ∧ heldAmong r seqs x.heldOn then
        (s.setSlot c n { x with state := 2, heldOn := none }).post (.copyBeatWrite c (.own n))
      else s)

/-- Harts in S or M mode that wait on such a page make their access again (R401). -/
def releaseHarts (r : Nat) (seqs : List Nat) (s : State) : State :=
  { s with harts := s.harts.mapVal fun _ x => match x.waiting with
      | some w => match w.kind with
        | .page q n => if q = r ∧ seqs.contains n then { x with waiting := none } else x
        | _ => x
      | none => x }

/-- Completion records held on such a page are written (R405). -/
def releaseLaunches (r : Nat) (seqs : List Nat) : List (Nat × Launch) → State → State
  | [], s => s
  | (k, l) :: rest, s =>
    releaseLaunches r seqs rest
      (if heldAmong r seqs l.heldOn then (s.modLaunch k fun l => { l with heldOn := none }).post (.completionPost k) else s)

def releaseAll (r : Nat) (seqs : List Nat) (s : State) : State :=
  let s := releaseTasks r seqs s.tasks s
  let s := s.clusters.foldl (fun s e => releaseCopies r seqs e.1 e.2.slots s) s
  releaseLaunches r seqs s.launches (releaseHarts r seqs s)

/-- A report is acknowledged; every task and command held on its page is released. -/
def State.applyAck (s : State) (r seq : Nat) : State :=
  let x := s.ring r
  match x.posted.find? fun y => y.seq == seq with
  | none => s
  | some y =>
    let s := (s.setRing r { x with posted := x.posted.filter fun z => z.seq != seq }).post (.reportPost r)
    if r = ringTerminal then s
    else releaseAll r (((x.posted ++ x.held).filter fun z => samePage y z).map fun z => z.seq) s

/-- The partition of the report is past step 1 of a stop: an acknowledgement is kept until it resumes or is restored (R372). -/
def State.ackPart (s : State) (r seq : Nat) : Option Nat :=
  match (s.ring r).posted.find? fun y => y.seq == seq with
  | none => none
  | some y => if s.halting y.origin then s.partOf y.origin else none

/-- RING_ACK. -/
def execRingAck (r seq : Nat) (s : State) : Result :=
  .next (match s.ackPart r seq with
    | some p => s.modPart p fun x => { x with acks := x.acks ++ [(r, seq)] }
    | none => s.applyAck r seq)

/-- The acknowledgements that were kept are applied, in the order of arrival. -/
def State.applyAcks (s : State) (p : Nat) : State :=
  match s.parts.find p with
  | none => s
  | some x => x.acks.foldl (fun s a => s.applyAck a.1 a.2) (s.modPart p fun x => { x with acks := [] })

end Sys2Proof.Machine
end

