-- ==== Sys2Proof/Machine/Launches.lean ====
section
/-! DEFINITION. The front end (R23 to R33, R386 to R391, R396, R405, R406): queues and notifies, launch records and nodes,
acceptance, the launch graph, root tasks and completion. -/

namespace Sys2Proof.Machine

/-! ## Launch records (R23, R24) -/

def recByte (r : List Byte) (o : Nat) : Nat := byteAt r o
def recNat (r : List Byte) (o n : Nat) : Nat := natAt r o n

/-- The number of level and variant entries that are read. -/
def recLevels (r : List Byte) : Nat := min 8 (recByte r 2)
def recVariants (r : List Byte) : Nat := min 8 (recByte r 3)

/-- A level entry (R24). -/
structure Level where
  domain : Nat
  scope  : Nat
  origin : Nat
  extent : Nat
  deriving DecidableEq, Repr, Inhabited

def levelAt (r : List Byte) (i : Nat) : Level :=
  let e := recNat r (0x20 + 8 * i) 8
  { domain := e % 8, scope := e / 8 % 8, origin := e / 2 ^ 16 % 2 ^ 16, extent := e / 2 ^ 32 % 2 ^ 16 }

def levelsOf (r : List Byte) : List Level := (List.range (recLevels r)).map (levelAt r)

/-- Harts of one member of a domain (R10). -/
def domainSize (d : Nat) : Nat := [1, 8, 16, 64, 512, 4096, 8192].getD d 0

/-- The part of the package that a launch may use: the partition of its function. -/
def State.partOfFn (s : State) (fn : Nat) : Option Nat :=
  (s.parts.find? fun e => e.2.present && e.2.fn == fn).map fun e => e.1

/-- The members of a domain that lie wholly within a partition, each by its first hart (R25). -/
def State.topMembers (s : State) (part : Option Nat) (d : Nat) : List Nat :=
  let n := domainSize d
  ((List.range (8192 / n)).map fun k => k * n).filter fun h =>
    (List.range ((n + 63) / 64)).all fun i => part.isSome && s.partOf (h / 64 + i) == part

/-- The members of one group at a level, given the level above (R25, R26). -/
def groupSize (top : Nat) : List Level → List Nat
  | [] => []
  | l :: r => top :: groupSize (domainSize l.domain / domainSize ((r.headD default).domain)) r

/-- Chosen members with their indices, outermost level first (R28): each is its first hart and its `lid`s. -/
def members (tops : List Nat) : List Level → List (Nat × List Nat)
  | [] => []
  | l :: rest =>
    let below := fun (m : List (Nat × List Nat)) (l : Level) =>
      m.flatMap fun e => (List.range l.extent).map fun j =>
        (e.1 + (l.origin + j) * domainSize l.domain, e.2 ++ [j])
    rest.foldl below ((List.range l.extent).map fun j => (tops.getD (l.origin + j) 0, [j]))

/-! ## Acceptance checks (R29, R406) -/

/-- Reason 1: the version, and every field shown as zero. -/
def recZeroOk (r : List Byte) : Bool :=
  recNat r 0 2 == 1 && recByte r 4 < 4 && recByte r 5 < 4 && recByte r 7 == 0 &&
    ((List.range (recLevels r)).all fun i =>
      let e := recNat r (0x20 + 8 * i) 8
      decide (e < 2 ^ 48) && e / 2 ^ 6 % 2 ^ 10 == 0) &&
    ((List.range 8).all fun i => decide (i < recLevels r) || recNat r (0x20 + 8 * i) 8 == 0) &&
    ((List.range 8).all fun i => decide (i < recVariants r) || recNat r (0x60 + 16 * i) 16 == 0) &&
    recNat r 0xEC 20 == 0

def countsOk (r : List Byte) : Bool := recByte r 2 ≥ 1 && recByte r 2 ≤ 8 && recByte r 3 ≤ 8

def decreasing : List Level → Bool
  | a :: b :: r => decide (b.domain < a.domain) && decreasing (b :: r)
  | _ => true

def domainsOk (l : List Level) : Bool := (l.all fun x => decide (x.domain < 7)) && decreasing l

def extentsOk (top : Nat) (l : List Level) : Bool :=
  (l.zip (groupSize top l)).all fun e => e.1.extent != 0 && decide (e.1.origin + e.1.extent ≤ e.2)

def scopesOk : Nat → List Level → Bool
  | _, [] => true
  | above, l :: r => decide (l.domain ≤ l.scope) && decide (l.scope ≤ above) && scopesOk l.scope r

/-- Where stage 1 takes an address: the leaf denies the access, or gives a guest-physical address; a walk that reaches no
valid leaf answers nothing (R406). -/
def stage1Leaf (s : State) (v : View) (acc : Acc) (va : Word) : Option (Bool × Nat) :=
  if v.paged then
    match walk v.part (tableOf v acc va) (va.toNat % 2 ^ 57 / 4096) 5 s (bits v.satp 0 44 * 4096) with
    | .ok (_, some l) => some (!permits1 v l.entry acc, l.ppn * 4096 + va.toNat % 4096)
    | _ => none
  else some (false, va.toNat % 2 ^ 57)

/-- A walk as the tables stand reaches a leaf, of either stage, that denies the launch's own access (R406). An address in the
device window region is never translated (R50). -/
def State.denied (s : State) (v : View) (acc : Acc) (va : Word) : Bool :=
  !inWindows va && match stage1Leaf s v acc va with
    | some (true, _) => true
    | some (false, gpa) => match stage2 s v.part acc acc va gpa with
      | .error (.xlate 2 d _ _ _) => d
      | _ => false
    | none => false

/-- An address that reason 6 refuses. -/
def State.addrBad (s : State) (v : View) (acc : Acc) (align : Nat) (va : Word) : Bool :=
  !canonical va || va.toNat % align != 0 || s.denied v acc va

def recEntry (r : List Byte) : Word := wordAt r 8
def recArg (r : List Byte) : Word := wordAt r 0x10
def recCompletion (r : List Byte) : Word := wordAt r 0x18
def recLogBase (r : List Byte) : Word := wordAt r 0xE0
def recLogSize (r : List Byte) : Nat := recNat r 0xE8 4
def recTiles (r : List Byte) : Nat := recByte r 6

/-- A member at hart or core level lies in a stager core or is one (R29 check 7). -/
def stagerChosen (l : List Level) (ms : List (Nat × List Nat)) : Bool :=
  decide (((l.getLast?).getD default).domain ≤ 1) && ms.any fun m => !isCompute m.1

/-- The cluster of a root task (R28). -/
def State.rootCluster (s : State) (domain member : Nat) : Nat :=
  if domain ≤ 3 then clusterOf member
  else s.fewestReady ((List.range (domainSize domain / 64)).map fun i => member / 64 + i)

/-- What the checks of a record find: the reason, 0 for none; whether the completion address was refused by reason 6; the
home of flat index 0; and the members chosen. -/
structure Verdict29 where
  reason  : Nat
  refused : Bool
  home    : Nat
  members : List (Nat × List Nat)
  deriving DecidableEq, Repr, Inhabited

/-- The cluster whose supervisor writes for a record that places no root: the lowest of the partition. -/
def State.firstCluster (s : State) (part : Option Nat) : Nat :=
  ((List.range 128).find? fun c => part.isSome && s.partOf c == part).getD 0

/-- The checks of R29 in the order of their reasons. Where several fail the lowest reason is given: R29 states no order
(DESIGN CHOICE, log 68). -/
def State.checkRecord (s : State) (part : Option Nat) (r : List Byte) : Verdict29 :=
  let l := levelsOf r
  let no : Verdict29 := { reason := 0, refused := false, home := s.firstCluster part, members := [] }
  if !recZeroOk r then { no with reason := 1 }
  else if !countsOk r then { no with reason := 2 }
  else if !domainsOk l then { no with reason := 3 }
  else
    let tops := s.topMembers part ((l.headD default).domain)
    if !extentsOk tops.length l then { no with reason := 4 }
    else if !scopesOk 7 l then { no with reason := 5 }
    else
      let ms := members tops l
      let home := s.rootCluster ((l.getLast?).getD default).domain ((ms.headD default).1)
      let v := s.launchView home (part.getD 64)
      let bad := s.addrBad v .store 64 (recCompletion r)
      let others := s.addrBad v .fetch 4 (recEntry r) ||
        ((List.range (recVariants r)).any fun i => s.addrBad v .fetch 4 (wordAt r (0x68 + 16 * i))) ||
        (recLogSize r != 0 && (inWindows (recLogBase r) || s.addrBad v .store 4096 (recLogBase r)))
      if bad || others then { reason := 6, refused := bad, home := home, members := [] }
      else if recTiles r > 16 ∨ (recTiles r ≠ 0 ∧ stagerChosen l ms) then { no with reason := 7, home := home }
      else if recLogSize r % 4096 ≠ 0 then { no with reason := 8, home := home }
      else { reason := 0, refused := false, home := home, members := ms }

/-! ## Nodes (R387) -/

def isNode (r : List Byte) : Bool := recNat r 0 2 == 0x8001 || recNat r 0 2 == 0x8002
def isConditional (r : List Byte) : Bool := recNat r 0 2 == 0x8002

/-- The fields of a node keep its layout. -/
def nodeOk (r : List Byte) : Bool :=
  recByte r 2 ≥ 1 && recByte r 2 ≤ 8 && recNat r 3 5 == 0 &&
    (if isConditional r then canonical (wordAt r 8) && recNat r 8 8 % 8 == 0 else recNat r 8 8 == 0) && recNat r 0x50 176 == 0

def nodePrereqs (r : List Byte) : List Word := (List.range (min 8 (recByte r 2))).map fun i => wordAt r (0x10 + 8 * i)

/-! ## Queues (R386, R396) -/

/-- A live queue of the function in this control-block slot. -/
def State.queueAt (s : State) (fn slot : Nat) : Option Queue :=
  match s.queues.find slot with
  | some q => if !q.deleted ∧ q.fn = fn then some q else none
  | none => none

/-- Count a notify that is dropped (R392, R396). -/
def State.countDrop (s : State) (fn : Nat) : State :=
  let n := s.drops.get fn 0
  { s with drops := s.drops.put fn (if n = -1 then n else n + 1) }

/-- NOTIFY_WRITE (R396): the ring's entries up to the tail index are handed over. -/
def execNotifyWrite (fn slot : Nat) (tail : BitVec 16) (s : State) : Result :=
  match s.queueAt fn slot with
  | none => .next (s.countDrop fn)
  | some q =>
    let n := 2 ^ q.log2
    let new := q.tail + (tail.toNat % n + n - q.tail % n) % n
    .next ({ s with queues := s.queues.put slot { q with tail := new } }.post (.launchAccept slot))

/-- Launches of a function that hold an active slot (R390). -/
def State.activeOf (s : State) (fn : Nat) : List (Nat × Launch) := s.launches.filter fun e => e.2.fn == fn && e.2.unfinished

/-- The launch of the same queue consumed before (R389). -/
def State.lastOf (s : State) (q : Queue) (slot : Nat) : Option Nat :=
  (s.launches.filter fun e => e.2.fn == q.fn && e.2.slot == slot && decide (q.born < e.1)).foldl
    (fun b e => match b with
      | none => some e.1
      | some k => if k < e.1 then some e.1 else b) none

/-! ### The launches that sequences name (R386, R387) -/

/-- The live queue of a name. -/
def State.liveQueue (s : State) (fn pasid number : Nat) : Option Queue :=
  (s.queues.find? fun e => !e.2.deleted && e.2.fn == fn && e.2.pasid == pasid && e.2.number == number).map fun e => e.2

/-- The launch that a sequence names for a function and a PASID: one of the live queue of that name, else the last of a queue
that has been deleted. -/
def State.launchOf (s : State) (fn pasid : Nat) (seq : Word) : Option (Nat × Launch) :=
  let born := match s.liveQueue fn pasid (bits seq 48 16) with
    | some q => q.born
    | none => 0
  (s.launches.filter fun e => e.2.fn == fn && e.2.pasid == pasid && e.2.seq == seq && decide (born < e.1)).getLast?

/-- A deleted queue of the name is still recorded in the table. -/
def State.queueGone (s : State) (fn pasid number : Nat) : Bool :=
  s.queues.any fun e => e.2.fn == fn && e.2.pasid == pasid && e.2.number == number && e.2.deleted

/-- A prerequisite as its launch is accepted. One of a queue that has been deleted counts as posted, also where no launch of
that queue had the sequence (DESIGN CHOICE, log 69). -/
def State.prereqOf (s : State) (fn pasid : Nat) (seq : Word) : Prereq :=
  let e := s.launchOf fn pasid seq
  { seq := seq, launch := e.map fun x => x.1,
    gone := (s.liveQueue fn pasid (bits seq 48 16)).isNone && (e.isSome || s.queueGone fn pasid (bits seq 48 16)) }

/-- The prerequisites that wait for the launch just accepted under this number find it. -/
def State.bindPrereqs (s : State) (k : Nat) (l : Launch) : State :=
  { s with launches := s.launches.mapVal fun _ x =>
      if x.fn = l.fn ∧ x.pasid = l.pasid then
        { x with prereqs := x.prereqs.map fun p =>
            if p.seq = l.seq ∧ p.launch = none ∧ !p.gone then { p with launch := some k } else p }
      else x }

/-- The launch that a record becomes: waiting when it passes, else about to post its rejection. -/
def State.newLaunch (s : State) (q : Queue) (slot : Nat) (r : List Byte) : Launch × List Level :=
  let part := s.partOfFn q.fn
  let v := s.checkRecord part r
  let node := match q.node with
    | some (n, bad) => some (n, bad)
    | none => none
  let reason := match node with
    | some (_, true) => 1
    | _ => v.reason
  ({ fn := q.fn, pasid := q.pasid, part := part.getD 64, slot := slot, seq := wordOf (q.number * 2 ^ 48 + q.next),
     vector := q.vector, qprio := q.prio, record := r,
     prereqs := match node with | some (n, false) => (nodePrereqs n).map fun p => s.prereqOf q.fn q.pasid p | _ => [],
     predicate := match node with | some (n, false) => if isConditional n then some (wordAt n 8) else none | _ => none,
     sampled := none, after := if recByte r 4 % 2 = 1 then none else s.lastOf q slot,
     released := false, state := if reason = 0 then .waiting else .posting 2 reason, roots := 0, rootsLive := 0,
     rootsBad := 0, ended := 0, corrected := false, tainted := false, final := false, uses := [], sources := [], anySource := false,
     status := 0, home := v.home, refused := reason == 6 && v.refused, spilled := [],
     spillTasks := [], heldOn := none },
    if reason = 0 then levelsOf r else [])

/-- An accepted launch with a level of scope 7 is counted (R64). -/
def State.countLevels (s : State) (part : Nat) (l : List Level) : State :=
  if l.any fun x => x.scope == 7 then
    s.modPart part fun x => { x with clamps := if x.clamps = -1 then x.clamps else x.clamps + 1 }
  else s

/-- LAUNCH_ACCEPT: the next entry of a queue is read, when one is handed over and the function has a free slot. -/
def State.acceptEntry (s : State) (slot : Nat) : State :=
  match s.queues.find slot with
  | none => s
  | some q =>
    if q.deleted ∨ q.next ≥ q.tail ∨ (s.activeOf q.fn).length ≥ 64 then s
    else
      let a := q.base + wordOf (256 * (q.next % 2 ^ q.log2))
      let r := s.hostRead q.fn (some q.pasid) a 256
      let s := s.hostTranslate 0 q.fn (some q.pasid) a 256
      if isNode r then
        { s with queues := s.queues.put slot { q with next := q.next + 1, node := some (r, !nodeOk r) } }.post (.launchAccept slot)
      else
        let n := s.newLaunch q slot r
        let s := (s.tick.countLevels n.1.part n.2)
        let k := s.serial
        let s := { s with queues := s.queues.put slot { q with next := q.next + 1, node := none },
                          launches := s.launches.put k n.1 }
        let s := (s.bindPrereqs k n.1).holdTainted
        (s.post (if n.1.state = .waiting then .launchStart k else .completionPost k)).post (.launchAccept slot)

def execLaunchAccept (slot : Nat) (s : State) : Result := .next (s.acceptEntry slot)

/-! ## The launch graph (R388, R389) -/

/-- The prerequisite counts as posted: its queue is deleted, or its launch has posted (R387, R388). -/
def State.prereqDone (s : State) (p : Prereq) : Bool :=
  p.gone || (p.launch.bind s.launches.find).any fun l => l.isPosted

def State.afterDone (s : State) (l : Launch) : Bool :=
  match l.after.bind s.launches.find with
  | some x => x.isPosted
  | none => true

/-- Every condition but taint holds, and the partition runs. -/
def State.unblocked (s : State) (l : Launch) : Bool :=
  (l.state == .waiting || (l.state == .held && l.released)) && s.afterDone l && (l.prereqs.all fun q => s.prereqDone q) &&
    (match s.parts.find l.part with | some p => p.state == 0 | none => false)

/-- The predicate of a conditional node, read under the view of the launch (log 18): a word that no walk reaches is left
open. -/
def State.readPredicate (s : State) (l : Launch) (a : Word) : State × Word :=
  match resolve s (s.launchView l.home l.part) .load a 8 8 with
  | .ok (s, ls) => (s, wordOf (leNat (loadUnits s (s.launchView l.home l.part).part [] ls)))
  | .error _ => (s.useFresh, Config.freeWord s.fresh)

/-- The predicate that decides the launch: as read when its last prerequisite became visible, else, where all had posted
before the launch was accepted, as it stands (DEDUCED, log 18). -/
def State.predicateValue (s : State) (l : Launch) (a : Word) : State × Word :=
  match l.sampled with
  | some v => (s, v)
  | none => s.readPredicate l a

/-- A launch whose prerequisites have all posted reads its predicate, once (R388). -/
def State.samplePredicate (s : State) (k : Nat) : State :=
  match s.launches.find k with
  | some l =>
    match l.predicate with
    | some a =>
      if (l.state = .waiting ∨ l.state = .held) ∧ l.sampled = none ∧ l.prereqs.all (fun p => s.prereqDone p) then
        let (s, v) := s.readPredicate l a
        s.modLaunch k fun l => { l with sampled := some v }
      else s
    | none => s
  | none => s

def State.samplePredicates (s : State) : State := s.launches.foldl (fun s e => s.samplePredicate e.1) s

/-! ## Root tasks (R28, R30 to R32) -/

/-- What stands for the descriptor of a root task, in the layout of R34. -/
def rootDesc (r : List Byte) (flat : Nat) : Desc :=
  let log := recLogBase r + wordOf (flat * recLogSize r)
  descOf (leBytes 8 (recEntry r).toNat ++ leBytes 1 (recByte r 5) ++ leBytes 1 0 ++ leBytes 1 (recTiles r) ++ leBytes 1 0 ++
    leBytes 100 0 ++ leBytes 8 (if recLogSize r = 0 then 0 else log.toNat) ++ leBytes 4 (recLogSize r) ++ leBytes 4 0)

def pinOf (domain member : Nat) : Pin :=
  match domain with
  | 0 => .hart member
  | 1 => .core (coreOf member)
  | 2 => .pair (pairOf member)
  | _ => .any

/-- `lid` and `lcnt` of R30. -/
def lidsOf (js : List Nat) : List Word := (List.range 8).map fun i => wordOf (js.getD i 0)
def lcntsOf (l : List Level) : List Word := (List.range 8).map fun i => wordOf ((l[i]?).map (fun x => x.extent) |>.getD 1)

/-- Create the root tasks; none when the tables have no room for one of them (log 19). -/
def State.makeRoots (s : State) (k : Nat) (r : List Byte) (lv : List Level) : Nat → List (Nat × List Nat) → Option State
  | _, [] => some s
  | flat, m :: rest =>
    let d := rootDesc r flat
    let dom := ((lv.getLast?).getD default).domain
    let c := s.rootCluster dom m.1
    if !s.taskRoom c then none
    else match s.allocFuture c { (default : Future) with prio := d.prio, hasTask := true, launch := k } with
      | none => none
      | some (t, h) =>
        let t := t.setTask h (newTask d (recArg r) (wordOf flat) k 0 (lidsOf m.2) (lcntsOf lv) c true (pinOf dom m.1) t.serial)
        (t.post (.taskIntake h)).makeRoots k r lv (flat + 1) rest

/-- Start a launch: its roots are created, and its prerequisites join its source set (R378). -/
def State.startLaunch (s : State) (k : Nat) (l : Launch) : State :=
  let lv := levelsOf l.record
  let ms := members (s.topMembers (some l.part) ((lv.headD default).domain)) lv
  match s.makeRoots k l.record lv 0 ms with
  | none => s
  | some s =>
    let s := s.modLaunch k fun l => { l with state := .running, roots := ms.length, rootsLive := ms.length }
    (l.prereqs.filterMap fun p => p.launch).foldl (fun s src => s.addSource k src) s

/-- Another startable launch of a higher queue priority is about to start (R389). -/
def State.outranked (s : State) (l : Launch) : Bool :=
  s.pending.any fun i => match i with
    | .launchStart j => match s.launches.find j with
      | some x => decide (x.qprio > l.qprio) && s.unblocked x
      | none => false
    | _ => false

/-- LAUNCH_START (R388): a launch whose conditions hold starts, is skipped by its predicate, or is held by taint. -/
def State.tryStart (s : State) (k : Nat) : State :=
  match s.launches.find k with
  | none => s
  | some l =>
    if !s.unblocked l then s
    else if s.outranked l then s.post (.launchStart k)
    else if s.prereqTainted l && !l.released then s.modLaunch k fun l => { l with state := .held }
    else match l.predicate with
      | none => s.startLaunch k l
      | some a =>
        let (s, v) := s.predicateValue l a
        if v = 0 then (s.modLaunch k fun l => { l with state := .posting 3 0 }).post (.completionPost k)
        else s.startLaunch k l

def execLaunchStart (k : Nat) (s : State) : Result := .next (s.tryStart k)

/-! ## Completion (R154, R379, R391, R405) -/

/-- Free every future of a launch, and its spill records (R152). -/
def State.freeFutures (s : State) (k : Nat) : State :=
  { s with futures := s.futures.mapVal fun _ f =>
      if f.launch = k ∧ f.state ≠ 0 then { (default : Future) with gen := f.gen + 1 } else f }

def clearSpills : List Word → State → State
  | [], s => s
  | h :: r, s => clearSpills r (match s.findSpill h with | some i => s.clearSpill (s.homeOf h) i | none => s)

/-- What may follow a posting: predicates are read, entries that wait unread, launches that wait. -/
def State.afterPosting (s : State) (fn : Nat) : State :=
  let s := s.samplePredicates
  let s := (s.queues.filter fun e => e.2.fn == fn && !e.2.deleted).foldl (fun s e => s.post (.launchAccept e.1)) s
  (s.launches.filter fun e => e.2.state == .waiting || e.2.state == .held).foldl (fun s e => s.post (.launchStart e.1)) s

/-- Forwarding ends when no launch of the partition is unfinished (R170, R371). -/
def State.dropForwards (s : State) (part : Nat) : State :=
  if s.launches.any fun e => e.2.part == part && e.2.unfinished then s
  else { s with forwards := s.forwards.filter fun e => s.partOf e.2 != some part, former := s.former.filter fun c =>
           !(s.forwards.any fun e => e.1 == s.chip.toNat * 128 + c && s.partOf e.2 == some part) }

/-- The launch has posted, with this status word. -/
def State.nowPosted (s : State) (k : Nat) (l : Launch) (status reason : Nat) (written : Bool) (w : Word) : State :=
  let s := s.modLaunch k fun l => { l with state := .posted status reason written, status := w }
  let s := clearSpills l.spilled (s.freeFutures k)
  (((s.signal l).dropForwards l.part).afterPosting l.fn).amend

/-- The 64 bytes of a completion record (R391). -/
def State.completionBytes (s : State) (l : Launch) (w : Word) : List Byte :=
  leBytes 8 w.toNat ++ leBytes 8 l.seq.toNat ++ leBytes 8 (Config.timeAt s.clock).toNat ++ leBytes 4 l.roots ++
    leBytes 4 l.rootsBad ++ leBytes 4 l.ended ++ leBytes 28 0

/-- The report that takes the place of a record that is not written (R405). -/
def State.reportUnwritten (s : State) (l : Launch) : State :=
  (s.report (ringOfFn l.fn) { mkReport s 5 0xFE 0x02 l.home 0 with
    part := l.part, va := l.completion, info := l.seq }).1

/-- Post: write bytes 0x08 to 0x3F, then the status word; or report, or hold on a page that is not present. A report that
finds no room makes it tried again (R355). -/
def State.postLaunch (s : State) (k : Nat) (l : Launch) (status reason : Nat) : State :=
  let posted : Launch := { l with state := .posted status reason true }
  let final := ({ s with launches := s.launches.put k posted }).isFinal k
  let w := statusWord 0 final l.verdict reason status
  let unwritten := if s.ringFull (ringOfFn l.fn) l.home then s.post (.completionPost k)
    else (s.reportUnwritten l).nowPosted k l status reason false w
  if l.refused then unwritten
  else match resolve s (s.launchView l.home l.part) .store l.completion 64 64 with
    | .ok (s, ls) =>
      let bs := s.completionBytes l w
      let s := writeUnits s (some l.part) (ls.drop 1) (bs.drop 8)
      let s := writeUnits s (some l.part) (ls.take 1) (bs.take 8)
      s.nowPosted k l status reason true w
    | .error (.xlate 2 false _ va gpa) =>
      if s.ringFull ringRetryable l.home then s.post (.completionPost k) else
      let (s, n) := s.report ringRetryable { xlateReport s 5 l.home 0 2 1 va gpa with part := l.part, info := l.seq }
      s.modLaunch k fun l => { l with state := .posting status reason, heldOn := some (ringRetryable, n) }
    | .error _ => unwritten

/-- The partition is stopped: nothing is written for it (R358). -/
def State.partStill (s : State) (part : Nat) : Bool := (s.parts.find part).any fun p => p.isStopped

/-- COMPLETION_POST: once every task of the launch has ended, or for a launch that runs none. -/
def State.tryPost (s : State) (k : Nat) : State :=
  match s.launches.find k with
  | none => s
  | some l =>
    if l.heldOn.isSome ∨ s.partStill l.part then s
    else match l.state with
      | .running => if l.rootsLive = 0 ∧ (s.launchTasks k).isEmpty then s.postLaunch k l 1 0 else s
      | .posting status reason => s.postLaunch k l status reason
      | _ => s

def execCompletionPost (k : Nat) (s : State) : Result := .next (s.tryPost k)

/-- LAUNCH_STALL (R390): all 64 slots of the function hold waiting or held launches. -/
def execLaunchStall (fn : Nat) (s : State) : Result :=
  let ls := s.activeOf fn
  let stuck := ls.all fun e => e.2.state == .waiting || e.2.state == .held
  match ls.head? with
  | some (_, l) =>
    if ls.length ≥ 64 ∧ stuck ∧ !(ls.any fun e => s.unblocked e.2 && !s.prereqTainted e.2) then
      .next (s.report (ringOfFn fn) { mkReport s 5 0xFE 0x01 l.home 0 with part := l.part, info := l.seq }).1
    else .next s
  | none => .next s

end Sys2Proof.Machine
end

