-- ==== Sys2Proof/Machine/HostPort.lean ====
section
/-! DEFINITION. What the host does through the register block (R392 to R396, R398, R399): plain register writes, the host
command interface, profiles, resets and bring-up. -/

namespace Sys2Proof.Machine

/-! ## Registers without a row of their own (R5, R392, R393) -/

def State.partReg (s : State) (p : Nat) (f : Part → Part) : State :=
  { s with parts := s.parts.put p (f (s.parts.get p default)) }

/-- REGISTER_WRITE: a writable register takes the value; a write of a read-only register is ignored. -/
def execRegisterWrite (r : HostReg) (v : Word) (s : State) : Result :=
  match r with
  | .saveBase p => .next (if p < 64 then s.partReg p fun x => { x with saveBase := v } else s)
  | .saveSize p => .next (if p < 64 then s.partReg p fun x => { x with saveSize := v } else s)
  | .mapAddr p => .next (if p < 64 then s.partReg p fun x => { x with mapAddr := v } else s)
  | .ringBase r => .next (if r < 66 then s.setRing r { s.ring r with base := v } else s)
  | .harg i => .next (if h : i < 8 then { s with hargs := s.hargs.set i v } else s)
  | .vharg f i => .next (if h : i < 8 then
      { s with vfArgs := s.vfArgs.put f ((s.vfArgs.get f (Vector.replicate 8 0)).set i v) } else s)
  | .readOnly _ => .next s

/-! ## The host command interface (R393) -/

def State.harg (s : State) (i : Nat) : Nat := (s.hargs.toList.getD i 0).toNat

/-- The command ends: its code, status and result in HSTAT, busy clear. -/
def State.hdone (s : State) (cmd status result : Nat) : State :=
  { s with hstat := wordOf (result % 2 ^ 32 * 2 ^ 16 + status * 2 ^ 8 + cmd) }

/-- A command runs: a write to HCMD is ignored. -/
def State.hbusy (s : State) : Bool := s.hstat.getLsbD 63

/-- A command on a partition that exists. -/
def State.withPart (s : State) (cmd : Nat) (f : Nat → Part → Result) : Result :=
  if s.hbusy then .next s else
  match s.parts.find (s.harg 0) with
  | some p => if p.present then f (s.harg 0) p else .next (s.hdone cmd 1 0)
  | none => .next (s.hdone cmd 1 0)

/-- 0x01. -/
def execHcmdCreatePartition (s : State) : Result :=
  if s.hbusy then .next s else
  let p := s.harg 0
  let fn := s.harg 1
  let root := s.harg 2
  let key := s.harg 3
  let x := s.parts.get p default
  if p ≥ 64 ∨ fn ≥ 64 ∨ root % 4096 ≠ 0 ∨ key ≥ 512 then .next (s.hdone 0x01 1 0)
  else if x.present then .next (s.hdone 0x01 4 0)
  else if s.parts.any fun e => e.2.present && (e.2.fn == fn || e.2.key == key) then .next (s.hdone 0x01 2 0)
  else
    .next ({ s with parts := s.parts.put p { (default : Part) with
      present := true, fn := fn, root2 := wordOf root, key := key, saveBase := x.saveBase, saveSize := x.saveSize,
      mapAddr := x.mapAddr, savedMask := x.savedMask, savedTasks := x.savedTasks, savedFuts := x.savedFuts,
      savedHomes := x.savedHomes, ctxs := x.ctxs, waits := x.waits, damaged := x.damaged } }.hdone 0x01 0 0)

/-! ### Clusters and vaults (0x02, 0x03) -/

def maskOf (lo hi : Nat) : BitVec 128 := BitVec.ofNat 128 (lo + 2 ^ 64 * hi)

def maskList (m : BitVec 128) : List Nat := (List.range 128).filter fun i => m.getLsbD i

/-- A cluster may be given to a partition: it is free, its own already, or left by a saved partition (R366). -/
def State.clusterFree (s : State) (p c : Nat) : Bool :=
  match s.partOf c with
  | none => true
  | some q => match s.parts.find q with
    | some x => x.scrubProg.getLsbD 62 == false && (q == p || x.released)
    | none => true

/-- What stays of a cluster when all that a partition held in it is gone: the condition of its hardware. -/
def Cluster.bare (k : Cluster) : Cluster :=
  { Cluster.zero with
      errCore := k.errCore, errinj := k.errinj, lostCores := k.lostCores, lossNote := k.lossNote, nextPair := k.nextPair,
      drain := k.drain, forecast := k.forecast }
def Pair.bare (x : Pair) : Pair := { Pair.zero with state := x.state, errMpad := x.errMpad, errTmem := x.errTmem }

/-- The state that a saved partition leaves in a cluster is gone when the cluster goes to another. Its barrier instances and
mailboxes keep what they hold, while the pairs start with their semaphores at 0: R138 and R329 name only bring-up and the scrub
as what resets them (DESIGN CHOICE, log 72). -/
def State.vacate (s : State) (q c : Nat) : State :=
  let s := s.modPart q fun x => { x with clusters := x.clusters &&& ~~~(BitVec.ofNat 128 (2 ^ c)) }
  { s with
      tasks := s.tasks.filter fun e => e.2.cluster != c,
      futures := (s.futures.filter fun e => e.1 / 4096 == c).foldl
        (fun t e => Table.put t e.1 { (default : Future) with gen := e.2.gen }) s.futures,
      clusters := s.clusters.put c { (s.cluster c).bare with slots := (s.cluster c).slots.mapVal fun _ x =>
        { (default : CopySlot) with seq := x.seq } },
      pairs := s.pairs.mapVal fun p x => if clusterOfPair p = c then x.bare else x,
      harts := s.harts.mapVal fun h x =>
        if clusterOf h = c then { x with mode := .u, task := none, freeOnSret := false, pfx := none, resv := none,
                                         waiting := none, jumped := false, stopped := false } else x }

/-- Give one cluster to a partition. -/
def State.giveCluster (s : State) (p c : Nat) : State :=
  let s := match s.partOf c with
    | some q => if q = p then s else s.vacate q c
    | none => s
  s.modCluster c fun k => { k with part := some p }

def giveClusters (p : Nat) : List Nat → State → State
  | [], s => s
  | c :: r, s => giveClusters p r (s.giveCluster p c)

def execHcmdAssignClusters (s : State) : Result :=
  s.withPart 0x02 fun p _ =>
    let m := maskOf (s.harg 1) (s.harg 2)
    if (maskList m).all (s.clusterFree p) then
      let s := (giveClusters p (maskList m) s).modPart p fun x => { x with clusters := x.clusters ||| m }
      .next (s.hdone 0x02 0 (maskList ((s.parts.get p default).clusters)).length)
    else .next (s.hdone 0x02 2 0)

def execHcmdAssignVaults (s : State) : Result :=
  s.withPart 0x03 fun p x =>
    let m := maskOf (s.harg 1) (s.harg 2)
    if x.scrubProg.getLsbD 62 || s.parts.any fun e => e.1 != p && e.2.present && (e.2.vaults &&& m) != 0 then
      .next (s.hdone 0x03 2 0)
    else
      .next ((s.modPart p fun x => { x with vaults := x.vaults ||| m }).hdone 0x03 0 (maskList (x.vaults ||| m)).length)

/-! ### Stage 2 (0x04, 0x05) -/

/-- The leaf of stage 2 that an entry was made from covers a guest page that a test picks: the pages are those from the first
of the leaf on. -/
def Tlb.guestHit (t : Tlb) (p : Nat) (hit : Nat → Nat → Bool) : Bool :=
  t.part == p + 1 && hit (t.gppn / t.span2 * t.span2) t.span2

/-- Remove the entries and runs of a partition whose guest pages a test picks: a first page and a number of pages (R61). -/
def State.flushStage2 (s : State) (p : Nat) (hit : Nat → Nat → Bool) : State :=
  let out := fun (l : List Tlb) => l.filter fun t => !t.guestHit p hit
  { s with
      clusters := s.clusters.mapVal fun _ k => { k with tlb1 := k.tlb1.mapVal fun _ l => out l, tlb2 := out k.tlb2 },
      tasks := s.tasks.mapVal fun _ t =>
        if s.partOf t.cluster = some p then { t with runs := t.runs.filter fun r => !r.gpages.any fun g => hit g 1 } else t }

/-- The regions of a partition that hold stores made through what an invalidation removes. -/
def State.guestRegions (s : State) (p : Nat) (hit : Nat → Nat → Bool) : List (Word × BitVec 16 × BitVec 8) :=
  (s.clustersOf p).flatMap fun c => s.regionsThrough c (fun t => t.guestHit p hit) fun _ r => r.gpages.any fun g => hit g 1

/-- The command runs until every access that used a removed entry has completed (R61, R393). -/
def State.hwaitFor (s : State) (cmd : Nat) (again : Instr) (l : List (Word × BitVec 16 × BitVec 8)) : State :=
  if s.regionsOpen l then { s with hstat := wordOf (2 ^ 63 + cmd), hwait := l }.post again
  else { s with hwait := [] }.hdone cmd 0 0

/-- The command that runs looks again; any other write to HCMD is ignored meanwhile. -/
def State.hagain (s : State) (cmd : Nat) (again : Instr) (start : Result) : Result :=
  if s.hbusy then .next (if bits s.hstat 0 8 = cmd then s.hwaitFor cmd again s.hwait else s) else start

def execHcmdSetStage2Root (s : State) : Result :=
  s.hagain 0x04 .hcmdSetStage2Root <| s.withPart 0x04 fun p _ =>
    if s.harg 2 % 4096 ≠ 0 then .next (s.hdone 0x04 1 0)
    else
      let hit := fun _ _ => true
      .next (((s.modPart p fun x => { x with root2 := wordOf (s.harg 2) }).flushStage2 p hit).hwaitFor 0x04 .hcmdSetStage2Root
        (s.guestRegions p hit))

def execHcmdInvalidateStage2 (s : State) : Result :=
  s.hagain 0x05 .hcmdInvalidateStage2 <| s.withPart 0x05 fun p _ =>
    let a := s.harg 1
    let n := s.harg 2
    if a % 4096 ≠ 0 then .next (s.hdone 0x05 1 0)
    else
      let hit := fun g m => n == 0 || (decide (a < (g + m) * 4096) && decide (g * 4096 < a + n))
      .next ((s.flushStage2 p hit).hwaitFor 0x05 .hcmdInvalidateStage2 (s.guestRegions p hit))

/-! ### Keys (0x10, 0x11) -/

def execHcmdLoadKey (s : State) : Result :=
  if s.hbusy then .next s else
  let k := s.harg 0
  if k ≥ 512 then .next (s.hdone 0x10 1 0)
  else if (s.parts.any fun e => e.2.present && e.2.key == k) || s.gates.any fun e => e.2.present && e.2.key == k then
    .next (s.hdone 0x10 2 0)
  else
    let v := leNat (s.hostRead 0 none (wordOf (s.harg 1)) 64)
    let s := s.hostTranslate 0 0 none (wordOf (s.harg 1)) 64
    .next ({ s with keys := s.keys.put k (BitVec.ofNat 512 v) }.hdone 0x10 0 0)

def execHcmdZeroiseKey (s : State) : Result :=
  if s.hbusy then .next s else
  if s.harg 0 ≥ 512 then .next (s.hdone 0x11 1 0)
  else .next ({ s with keys := s.keys.drop (s.harg 0) }.hdone 0x11 0 0)

/-! ### Permission tables (0x20, R328) -/

def remoteAt (bs : List Byte) (i : Nat) : RemotePerm :=
  let o := 0x10 + 32 * i
  { chip := BitVec.ofNat 12 (natAt bs o 2), valid := byteAt bs (o + 2) % 2 == 1, mask := BitVec.ofNat 128 (natAt bs (o + 16) 16) }

def execHcmdWritePermissionTable (s : State) : Result :=
  if s.hbusy then .next s else
  let c := s.harg 0
  if c ≥ 128 then .next (s.hdone 0x20 1 0)
  else
    let bs := s.hostRead 0 none (wordOf (s.harg 1)) 528
    let s := s.hostTranslate 0 0 none (wordOf (s.harg 1)) 528
    let m : BitVec 128 := BitVec.ofNat 128 (natAt bs 0 16)
    if (maskList m).all fun d => d == c || ((s.partOf c).isSome && s.partOf d == s.partOf c) then
      .next ((s.modCluster c fun k => { k with permLocal := m, permRemote := (List.range 16).map fun i => (i, remoteAt bs i) }).hdone
        0x20 0 0)
    else .next (s.hdone 0x20 5 0)

/-! ### Gates (0x30 to 0x32) -/

def State.freeGateNum (s : State) (n : Nat) : Option Nat :=
  let free := fun g => match s.gates.find g with | some x => !x.present | none => true
  if n = 0xFFFF then (List.range 1024).find? free else if free n then some n else none

def execHcmdCreateGate (s : State) : Result :=
  if s.hbusy then .next s else
  let base := s.harg 2
  let size := s.harg 3
  let owner := match s.parts.find (s.harg 1) with | some p => p.present | none => false
  if (s.harg 0 ≥ 1024 ∧ s.harg 0 ≠ 0xFFFF) ∨ !owner ∨ base % 4096 ≠ 0 ∨ size = 0 ∨ size > 2 ^ 18 ∨ s.harg 4 ≥ 512 then
    .next (s.hdone 0x30 1 0)
  else match s.freeGateNum (s.harg 0) with
    | none => .next (s.hdone 0x30 3 0)
    | some g =>
      let x : Gate := { (default : Gate) with present := true, owner := s.harg 1, base := wordOf base, size := wordOf size, key := s.harg 4 }
      .next ((s.setGate g x).hdone 0x30 0 (gateHandle s.chip g).toNat)

def execHcmdSetAccessEntry (s : State) : Result :=
  if s.hbusy then .next s else
  let g := s.harg 0
  let i := s.harg 1
  let w := wordOf (s.harg 2)
  let rate := s.harg 3 % 65536
  let burst := s.harg 3 / 65536 % 65536
  match s.gates.find g with
  | none => .next (s.hdone 0x31 1 0)
  | some x =>
    if !x.present ∨ i ≥ 8 ∨ (w.getLsbD 21 ∧ (rate = 0 ∨ burst = 0)) then .next (s.hdone 0x31 1 0)
    else
      let a : Access := { chip := w.setWidth 12, part := bits w 12 6, rights := BitVec.ofNat 8 (bits w 18 2), rate := rate,
                          burst := burst, policy := w.getLsbD 20, tokens := burst, valid := w.getLsbD 21 }
      let l := x.access ++ List.replicate (8 - x.access.length) default
      .next ((s.setGate g { x with access := l.set i a }).hdone 0x31 0 0)

def execHcmdFreeGate (s : State) : Result :=
  if s.hbusy then .next s else .next ((s.freeGate (s.harg 0)).hdone 0x32 0 0)

/-! ### Queues (0x40, 0x41, R386, R396) -/

/-- The arguments of a queue command: the PF's, or those of a VF, which acts for itself. -/
def State.qarg (s : State) (fn i : Nat) : Nat :=
  if fn = 0 then s.harg i else ((s.vfArgs.get fn (Vector.replicate 8 0)).toList.getD i 0).toNat
def State.qfn (s : State) (fn : Nat) : Nat := if fn = 0 then s.harg 0 else fn
def State.qdone (s : State) (fn cmd status result : Nat) : State :=
  if fn = 0 then s.hdone cmd status result
  else { s with vfStat := s.vfStat.put fn (wordOf (result % 2 ^ 32 * 2 ^ 16 + status * 2 ^ 8 + cmd)) }

/-- The eight slots that a queue's name probes. -/
def probes (pasid number : Nat) : List Nat := (List.range 8).map fun i => (pasid + 257 * number + i) % 4096

def execHcmdCreateQueue (fn : Nat) (s : State) : Result :=
  if fn = 0 ∧ s.hbusy then .next s else
  let f := s.qfn fn
  let pasid := s.qarg fn 1
  let number := s.qarg fn 2
  let base := s.qarg fn 3
  let w := s.qarg fn 4
  let log2 := w % 32
  if s.ready.getLsbD 63 = false then .next (s.qdone fn 0x40 4 0)
  else if f ≥ 64 ∨ pasid ≥ 2 ^ 20 ∨ number ≥ 256 ∨ base % 4096 ≠ 0 ∨ log2 < 4 ∨ log2 > 16 then .next (s.qdone fn 0x40 1 0)
  else
    let free := fun n => match s.queues.find n with | some q => q.deleted | none => true
    match (probes pasid number).find? free with
    | none => .next (s.qdone fn 0x40 3 0)
    | some n =>
      let q : Queue := { deleted := false, fn := f, pasid := pasid, number := number, base := wordOf base, log2 := log2,
                         prio := w / 2 ^ 8 % 4, vector := w / 2 ^ 16 % 64, next := 0, tail := 0, node := none, born := s.serial + 1 }
      let s := s.tick
      .next ({ s with queues := s.queues.put n q }.qdone fn 0x40 0 n)

/-- The lookup passes deleted slots and stops at a free one. -/
def findQueue (s : State) (fn pasid number : Nat) : List Nat → Option Nat
  | [] => none
  | n :: r => match s.queues.find n with
    | none => none
    | some q => if !q.deleted ∧ q.fn = fn ∧ q.pasid = pasid ∧ q.number = number then some n else findQueue s fn pasid number r

/-- Every prerequisite that names a launch of a queue counts as posted once the queue is deleted (R387). -/
def State.dropPrereqs (s : State) (fn pasid number : Nat) : State :=
  { s with launches := s.launches.mapVal fun _ l =>
      if l.fn = fn ∧ l.pasid = pasid then
        { l with prereqs := l.prereqs.map fun p => if bits p.seq 48 16 = number then { p with gone := true } else p }
      else l }

def execHcmdDeleteQueue (fn : Nat) (s : State) : Result :=
  if fn = 0 ∧ s.hbusy then .next s else
  let f := s.qfn fn
  let pasid := s.qarg fn 1
  let number := s.qarg fn 2
  match findQueue s f pasid number (probes pasid number) with
  | none => .next (s.qdone fn 0x41 1 0)
  | some n =>
    let s := { s with queues := s.queues.put n { s.queues.get n default with deleted := true } }
    .next (((s.dropPrereqs f pasid number).afterPosting f).qdone fn 0x41 0 0)

/-! ### Rings, dirty tracking, held launches (0x50 to 0x71) -/

def execHcmdSetRingWeight (s : State) : Result :=
  if s.hbusy then .next s else
  let r := s.harg 0
  let w := s.harg 1
  if r ≥ 66 ∨ w = 0 ∨ w > 16 then .next (s.hdone 0x50 1 0)
  else .next ((s.setRing r { s.ring r with weight := w }).hdone 0x50 0 0)

def execHcmdDirtyTrackingOn (s : State) : Result :=
  s.withPart 0x60 fun p _ => .next ((s.modPart p fun x => { x with tracking := true, dirty := [] }).hdone 0x60 0 0)

def execHcmdDirtyTrackingOff (s : State) : Result :=
  s.withPart 0x62 fun p _ => .next ((s.modPart p fun x => { x with tracking := false, dirty := [] }).hdone 0x62 0 0)

/-- The leaves of stage-2 tables: guest page, physical page and number of pages of each. -/
def tableLeaves (s : State) (part : Nat) : Nat → Nat → Nat → List (Nat × Nat × Nat)
  | 0, _, _ => []
  | level + 1, table, g =>
    (List.range 512).flatMap fun i =>
      let e := leNat (s.readAs (some part) (table + 8 * i) 8)
      let at_ := g + i * 512 ^ level
      if pteBad e || decide (hbmSize ≤ table + 8 * i) then []
      else if pteLeaf e then
        match leafPpn e level at_ with
        | some p => [(at_, p, 512 ^ level)]
        | none => []
      else if pteBit e 63 then []
      else tableLeaves s part level (ptePpn e * 4096) at_

def State.leavesOf (s : State) (n : Nat) (p : Part) : List (Nat × Nat × Nat) := tableLeaves s n 5 (p.root2.toNat / 4096 * 4096) 0

/-- One past the highest guest page that stage 2 maps. -/
def guestTop : List (Nat × Nat × Nat) → Nat
  | [] => 0
  | (g, _, n) :: r => max (g + n) (guestTop r)

/-- The bitmap of dirty pages (R369). -/
def bitmap (dirty : List Nat) (size : Nat) : List Byte :=
  (List.range size).map fun i => BitVec.ofNat 8 ((List.range 8).foldl (fun v j =>
    if dirty.contains (8 * i + j) then v + 2 ^ j else v) 0)

def execHcmdDirtyReport (s : State) : Result :=
  s.withPart 0x61 fun p x =>
    let size := s.harg 2
    if !x.tracking then .next (s.hdone 0x61 4 0)
    else if size * 8 < guestTop (s.leavesOf p x) then .next (s.hdone 0x61 1 0)
    else
      let now := x.dirty.filter fun g => decide (g < size * 8)
      let s := (s.hostTranslate 0 0 none (wordOf (s.harg 1)) size).hostWrite 0 none (wordOf (s.harg 1)) (bitmap now size)
      .next ((s.modPart p fun x => { x with dirty := x.dirty.filter fun g => !decide (g < size * 8) }).hdone 0x61 0 now.length)

/-- A held launch by function, PASID and sequence. -/
def State.heldLaunch (s : State) : Option (Nat × Launch) :=
  match s.launchOf (s.harg 0) (s.harg 1) (wordOf (s.harg 2)) with
  | some (k, l) => if l.state = .held then some (k, l) else none
  | none => none

def execHcmdReleaseHeldLaunch (s : State) : Result :=
  if s.hbusy then .next s else
  match s.heldLaunch with
  | some (k, _) => .next (((s.modLaunch k fun l => { l with released := true, state := .waiting }).post (.launchStart k)).hdone 0x70 0 0)
  | none => .next (s.hdone 0x70 1 0)

def execHcmdDiscardHeldLaunch (s : State) : Result :=
  if s.hbusy then .next s else
  match s.heldLaunch with
  | some (k, _) => .next (((s.modLaunch k fun l => { l with state := .posting 4 0 }).post (.completionPost k)).hdone 0x71 0 0)
  | none => .next (s.hdone 0x71 1 0)

/-- An unknown code: status 1, no effect. -/
def execHcmdUnknown (code : BitVec 8) (s : State) : Result :=
  if s.hbusy then .next s else .next (s.hdone code.toNat 1 0)

/-! ## Profiles and forecasts (R399) -/

/-- A field of PROFILE takes a value other than 3. -/
def execProfileWind (v : BitVec 2) (s : State) : Result :=
  .next (if v = 3 then s else { s with profile := v ++ s.profile.setWidth 2 })

def execProfilePower (v : BitVec 2) (s : State) : Result :=
  .next (if v = 3 then s else { s with profile := s.profile.extractLsb' 2 2 ++ v })

def execForecastUpdate (c : Nat) (v : BitVec 4) (s : State) : Result :=
  .next (s.modCluster c fun k => { k with forecast := v })

/-! ## Function-level reset (R392) and ATS (R385) -/

/-- A task of a discarded launch is gone at once. -/
def State.discardTask (s : State) (h : Word) : State :=
  let s := match s.hartOf h with
    | some n => if (s.hart n).mode = Mode.u then s.withdrawWait n else s
    | none => s
  (s.abortTask h).removeTask h

def discardTasks : List Word → State → State
  | [], s => s
  | h :: r, s => discardTasks r (s.discardTask h)

/-- A launch is discarded: its tasks and futures are gone, and no record is written. -/
def State.discardLaunch (s : State) (k : Nat) (l : Launch) : State :=
  let s := discardTasks (s.launchTasks k) s
  let s := clearSpills l.spilled (s.freeFutures k)
  s.modLaunch k fun l => { l with state := .posted 4 0 false, heldOn := none }

def discardLaunches : List (Nat × Launch) → State → State
  | [], s => s
  | (k, l) :: r, s => discardLaunches r (s.discardLaunch k l)

def execFunctionLevelReset (fn : Nat) (s : State) : Result :=
  let s := { s with queues := s.queues.filter fun e => e.2.fn != fn, ats := s.ats.filter fun e => e.fn != fn }
  .next (discardLaunches (s.activeOf fn) s)

def execAtsInvalidationRequest (fn pasid addr : Nat) (s : State) : Result :=
  .next { s with ats := s.ats.filter fun e => !(e.fn == fn && (e.pasid == some pasid || e.pasid == none) && e.page == addr / 4096) }

/-! ## Bring-up and reset (R397, R398) -/

/-- BRINGUP_DONE with the steps that passed: ready when all have, else err. -/
def execBringupDone (steps : BitVec 7) (s : State) : Result :=
  if bits s.ready 62 2 ≠ 0 then .next s
  else .next { s with ready := steps.setWidth 64 ||| (if steps = 127 then 0x8000000000000000 else 0x4000000000000000) }

/-- A scrub that the reset interrupts starts again at its first step (R346, R347). -/
def restartScrub (p : Part) : Part :=
  { (default : Part) with
      present := true, key := p.key, clusters := p.clusters, vaults := p.vaults, root2 := p.root2, state := p.state,
      scrubProg := setBits (setBits (setBits p.scrubProg 59 3 3) 0 48 0) 48 8 (min 255 (bits p.scrubProg 48 8 + 1)) }

/-- DEVICE_RESET: every register as after reset; HBM and host memory keep their bytes (log 20). -/
def State.resetDevice (s : State) : State :=
  let parts : Table Part := (s.parts.filter fun e => e.2.scrubProg.getLsbD 62).map fun e => (e.1, restartScrub e.2)
  let cs := s.clusters.filterMap fun e => match e.2.part with
    | some p => if (Table.find parts p).isSome then some (e.1, { Cluster.zero with part := some p }) else none
    | none => none
  { State.reset with
      mem := s.mem.filter fun e => decide (e.1 < hbmSize) || decide (hostBase ≤ e.1), parts := parts, clusters := cs, unitKeys := s.unitKeys,
      chip := s.chip, serial := s.serial, clock := s.clock, fresh := s.fresh,
      pending := parts.map fun e => .scrubDone e.1 }

def execDeviceReset (s : State) : Result := .next s.resetDevice

/-- MLADJA_D_LOSS: both dies stop, and every partition reads state 7. -/
def execMladjaDLoss (s : State) : Result :=
  .next { s with halted := true, parts := s.parts.mapVal fun _ p => if p.present then { p with state := 7 } else p }

end Sys2Proof.Machine
end

