-- ==== Sys2Proof/Machine/Halt.lean ====
section
/-! DEFINITION. Harts that are brought to a halt at an instruction boundary: by the stop of their partition (R358, R359)
and by the end of a windrow drain (R374). -/

namespace Sys2Proof.Machine

/-- The hart is at a boundary, where interrupts are taken: not between the words of a pair, not in a short wait, and not in a long wait whose end has
come (R120, R141, R280). -/
def Hart.atBoundary (x : Hart) : Bool :=
  x.pfx.isNone && (match x.waiting with | some w => w.kind.isLong && w.reply.isNone | none => true)

/-- The hart may halt: at a boundary, or in a wait that a stop abandons before its effect (R128). -/
def Hart.mayHalt (x : Hart) : Bool := x.atBoundary || x.waiting.any fun w => w.kind.isLate

/-! ## Step 2 of a stop (R358) -/

/-- The partition of a hart whose harts are stopping. -/
def State.stoppingPart (s : State) (h : Nat) : Option Nat :=
  match s.partOf (clusterOf h) with
  | some p => match s.parts.find p with
    | some x => if x.stopStep = 2 then some p else none
    | none => none
  | none => none

/-- The gate waits of tasks that the stop of a migration abandons on gates of the same partition, each gate's in the order of
joining, remembered for section 0x1602 (R344). -/
def State.ownWaits (s : State) (p : Nat) : List (Nat × Word × Word) :=
  s.gates.flatMap fun e =>
    if e.2.owner = p then ((e.2.waiters ++ e.2.stalled).filter fun r => r.hart.isSome && r.task != 0 && r.part == p).filterMap fun r =>
      match r.op with
      | .gwait t => some (e.1, r.task, t)
      | .gtake => some (e.1, r.task, 0)
      | _ => none
    else []

/-- A hart stops: a long wait is abandoned, its open region aborts and the hart stands at its checkpoint; in S or M mode
it stands where it is, a `wfi` in its wait. -/
def State.stopHart (s : State) (h : Nat) : State :=
  match (s.hart h).task with
  | some t =>
    if s.inRegion h then
      let s := (s.withdrawWait h).abortTask t
      match s.task? t with
      | some x => s.modHart h fun y =>
          { y with pc := x.region.ckpt.pc, ctx := x.region.ckpt.ctx, jumped := true, resv := none, stopped := true }
      | none => s.modHart h fun y => { y with stopped := true }
    else ((if (s.hart h).waiting.any fun w => w.instr == .wfi then s else s.withdrawWait h)).modHart h fun y =>
      { y with stopped := true }
  | none =>
    ((if (s.hart h).waiting.any fun w => w.instr == .wfi then s else s.withdrawWait h)).modHart h fun y =>
      { y with stopped := true }

/-- The harts of a partition. -/
def State.hartsOf (s : State) (p : Nat) : List Nat :=
  ((List.range 128).filter fun c => s.partOf c == some p).flatMap fun c => (List.range 64).map fun i => c * 64 + i

/-- When the last hart has stopped, the engines quiesce. -/
def State.stopIfLast (s : State) (p : Nat) : State :=
  if (s.hartsOf p).all fun h => (s.hart h).stopped || !(s.hart h).inService then
    (s.modPart p fun x => { x with stopStep := 3 }).post (.engineQuiesceDone p)
  else s

/-! ## The end of a drain (R374) -/

/-- The pair of the hart is in its scan, and the hart still runs a region of a task. -/
def State.drainsOut (s : State) (h : Nat) : Bool :=
  s.inRegion h && !(s.hart h).stopped &&
    (s.cluster (clusterOf h)).drain == some (pairOf h, 1)

/-- The region of the hart aborts, and its task joins the tail of its ready queue. -/
def State.drainHart (s : State) (h : Nat) : State := (s.withdrawWait h).restartTask h

/-- What halts a hart that may halt. -/
def State.haltAt (s : State) (h : Nat) : Option State :=
  if !(s.hart h).mayHalt || (s.hart h).stopped || !(s.hart h).inService then none
  else match s.stoppingPart h with
    | some p => some ((s.stopHart h).stopIfLast p)
    | none => if s.drainsOut h then some (s.drainHart h) else none

/-- Halt each hart of a list that is at its boundary; the others follow in their slots. -/
def haltAll : List Nat → State → State
  | [], s => s
  | h :: r, s => haltAll r ((s.haltAt h).getD s)

end Sys2Proof.Machine
end

