-- ==== Sys2Proof/Machine/Fetch.lean ====
section
/-! DEFINITION. Fetching (R99 to R101, R318) and the choice of what moves next: an event in flight or the slot of a hart
(R116, R117, R120; the schedule is plain data of the state, log 3). -/

namespace Sys2Proof.Machine

/-! ## Interrupts (R119, R120) -/

/-- Interrupt codes by falling priority (privileged specification). -/
def interruptOrder : List Nat := [11, 3, 7, 9, 1, 5]

/-- An interrupt of this code may be taken in the hart's mode. -/
def Hart.takes (x : Hart) (code : Nat) : Bool :=
  if x.sys.mideleg.getLsbD code then x.mode == .u || (x.mode == .s && x.sys.mstatus.getLsbD 1)
  else x.mode != .m || x.sys.mstatus.getLsbD 3

/-- The interrupt a hart takes next: one that M mode takes comes before one delegated to S mode. -/
def State.interruptFor (s : State) (h : Nat) : Option Nat :=
  let x := s.hart h
  let on := s.mipOf h &&& x.sys.mie
  let ok := interruptOrder.filter fun c => on.getLsbD c && x.takes c
  match ok.find? fun c => !x.sys.mideleg.getLsbD c with
  | some c => some c
  | none => ok.head?

/-- The hart is at a boundary at which an interrupt is taken (R120). -/
def Hart.interruptible (x : Hart) : Bool := x.atBoundary

/-- INTERRUPT_TAKE: a waiting instruction is abandoned without an effect of its own, and the trap is taken (R120). -/
def execInterruptTake (h : Nat) (s : State) : Result :=
  match s.interruptFor h with
  | some c =>
    let x := s.hart h
    if x.interruptible && !x.stopped && x.inService then .next ((s.withdrawWait h).takeTrap h true c 0 0) else .next s
  | none => .next s

/-! ## Fetch -/

/-- Row words: what may follow a prefix (R100). -/
def isRowWord (w : W32) : Bool := w.extractLsb' 0 7 == 0x7B && w.extractLsb' 14 1 == 0

/-- A prefix word, by its opcode and funct3 (R90). -/
def isPfxWord (w : W32) : Bool := w.extractLsb' 0 7 == 0x7B && w.extractLsb' 12 3 == 7

/-- Waiting tuples whose target the pc has reached join the active set (R318). -/
def rejoin (pc : Word) : List StackEntry → Mask → List StackEntry × Mask
  | [], a => ([], a)
  | e :: r, a => if e.target = pc then rejoin pc r (a ||| e.set) else (e :: r, a)

def State.popStack (s : State) : State :=
  if s.inRegion s.cur then
    s.modTaskOf s.cur fun t =>
      let p := rejoin s.me.pc t.lift.stack t.lift.active
      { t with lift := { t.lift with stack := p.1, active := p.2 } }
  else s

/-- The bytes of resolved units as the acting hart reads them: its own buffered stores first (R69). A fetch sees them at
once, and so also after `fence.i`, which only asks for it (R78; log 63). -/
def State.ownUnits (s : State) (ls : List (Loc × Nat)) : List Byte :=
  loadUnits s (s.partOf (clusterOf s.cur)) (s.buffered s.cur) ls

/-- The word at the pc, with the physical address it was read from. -/
def State.fetchWord (s : State) : Except Exc (State × W32 × Nat) :=
  match resolve s (s.view .fetch) .fetch s.me.pc 4 4 with
  | .error e => .error e
  | .ok (s, ls) =>
    .ok (s, BitVec.ofNat 32 (leNat (s.ownUnits ls)), (ls.headD (default, 0)).1.pa)

/-- The instruction that a fetched word stands for; a rejected word, and a row word that a control transfer reached past
its prefix, are the illegal instruction (R98, R100). -/
def State.instrOf (s : State) (w : W32) (a : Nat) : Instr :=
  match decodeWord w with
  | .error _ => .illegalInstruction w
  | .ok i =>
    if s.me.jumped && isRowWord w && s.me.pc.toNat % 64 != 0 &&
        isPfxWord (BitVec.ofNat 32 (leNat (s.ownUnits [({ pa := a - 4, gpa := 0, window := false, free := false }, 4)]))) then
      .illegalInstruction w
    else i

/-! ## What moves next (R116, log 3) -/

/-- What the step runs: an event, the instruction of the acting hart's slot, or nothing. -/
inductive Move
  | event (i : Instr)
  | slot (i : Instr)
  | idle
  deriving DecidableEq, Repr, Inhabited

/-- The slot of the acting hart. -/
def State.slotMove (s : State) : State × Move :=
  let x := s.me
  if x.stopped || !x.inService then (s, .idle)
  else if let some t := s.haltAt s.cur then (t, .idle)
  else if x.interruptible && (s.interruptFor s.cur).isSome then (s, .slot (.interruptTake s.cur))
  else match x.waiting with
    | some w =>
      match w.kind with
      | .page _ _ => (s, .idle)
      | _ => (s, .slot w.instr)
    | none =>
      if x.mode = .u ∧ x.task = none then (s, .slot (.taskDispatch s.cur))
      else
        let s := s.popStack
        match s.fetchWord with
        | .ok (s, w, a) => (s, .slot (s.instrOf w a))
        | .error e => (s.finishExc (.illegalInstruction 0) e, .idle)

/-- Take the event under a number out of those in flight. -/
def State.takeEvent (s : State) (n : Nat) : Option (State × Instr) :=
  match s.pending[n]? with
  | some i => some ({ s with pending := s.pending.eraseIdx n }, i)
  | none => none

/-- The hart stands between the words of a pair, the second of which has not been tried yet (R101). -/
def Hart.midPair (x : Hart) : Bool := x.pfx.isSome && x.waiting.isNone

/-- The move of this step: the second word of a pair first, then what the schedule names; without a schedule the oldest event
in flight at every other step, and else the slot of the acting hart (log 3). -/
def State.nextMove (s : State) : State × Move :=
  if s.me.midPair then s.slotMove
  else match s.turns with
    | .event n :: r =>
      match { s with turns := r }.takeEvent n with
      | some (t, i) => (t, .event i)
      | none => ({ s with turns := r }, .idle)
    | .hart h :: r => { s with turns := r, cur := h % 8192 }.slotMove
    | [] =>
      match (if s.clock % 2 = 0 then s.takeEvent 0 else none) with
      | some (t, i) => (t, .event i)
      | none => s.slotMove

/-- The next hart acts; a pair of words is not divided (R101). -/
def State.advance (s : State) : State :=
  if s.me.midPair then s else { s with cur := (s.cur + 1) % 8192 }

/-- One step has passed (log 6). -/
def State.clockTick (s : State) : State := { s with clock := s.clock + 1 }

/-! ## Placing an instruction (the host's interface) -/

/-- The address the acting hart fetches from, in physical terms. -/
def State.fetchPa (s : State) : Option Nat :=
  match s.fetchWord with
  | .ok (_, _, a) => some a
  | .error _ => none

/-- The acting hart ready to fetch: in service, in rotation, with something to run and no interrupt to take. -/
def Hart.readyToFetch (x : Hart) : Hart :=
  { x with inService := true, stopped := false, waiting := none, pfx := none, jumped := false,
           mode := if x.mode = .u ∧ x.task = none then .m else x.mode,
           sys := { x.sys with mie := 0 } }

def State.readyToFetch (s : State) : State :=
  { s with halted := false, turns := [], pending := [] }.modMe Hart.readyToFetch

/-- Four bytes of memory as data under the key that reads them, with no buffered store of the acting hart before them. -/
def State.putWord (s : State) (a w : Nat) : State :=
  let s := s.modTaskOf s.cur fun t => { t with region := { t.region with
    buf := t.region.buf.filter fun e => ((List.range 4).all fun i => (e.byteAt (a + i)).isNone)
    log := t.region.log.filter fun e => ((List.range 4).all fun i => (e.byteAt (a + i)).isNone)
    undrained := t.region.undrained.filter fun e => ((List.range 4).all fun i => (e.byteAt (a + i)).isNone) } }
  { s with unitKeys := s.unitKeys.drop (a / 64) }.setBytes a (leBytes 4 w)

/-- The word placed where the acting hart fetches next; a pc that leads nowhere becomes the M-mode pc 0, with neither a
partition nor PMP entries in its way. -/
def State.placeWord (s : State) (w : Nat) : State :=
  let s := s.readyToFetch
  match s.fetchPa with
  | some a => s.putWord a w
  | none =>
    let s := s.modMe fun x => { x with mode := .m, pc := 0, sys := { x.sys with pmpcfg := Vector.replicate 8 0 } }
    (s.modCluster (clusterOf s.cur) fun k => { k with part := none }).putWord 0 w

end Sys2Proof.Machine
end

