-- ==== Sys2Proof/Machine/Num.lean ====
section
/-! DEFINITION. Exact numbers, their sums, products, quotients and roots, and one rounding into a format entry
(R242 to R244, R250, R252 to R254). -/

namespace Sys2Proof.Machine

/-- A decoded value: a NaN (signalling or not), an infinity, or (−1)^neg × m × 2^e. A quotient or a root is held with
more bits than any entry has and a last bit that stands for everything below it, so it rounds as the exact value does. -/
inductive Num
  | nan (signalling : Bool)
  | inf (neg : Bool)
  | fin (neg : Bool) (m : Nat) (e : Int)
  deriving DecidableEq, Repr, Inhabited

/-! ## Flags (R223, R254) -/

def flagNv : Nat := 1
def flagDz : Nat := 2
def flagOf : Nat := 4
def flagUf : Nat := 8
def flagNx : Nat := 16
def flagSat : Nat := 32
def orFlags (a b : Nat) : Nat := Nat.lor a b

/-! ## Entries (R241) -/

/-- A format-table entry, field by field. -/
structure Fmt where
  kind   : Nat
  sign   : Bool
  exp    : Nat
  frac   : Nat
  bias   : Int
  spec   : Nat
  sub    : Bool
  elem   : Nat
  scale  : Nat
  bsz    : Nat
  layout : Nat
  deriving DecidableEq, Repr, Inhabited

def fmtOfWord (w : Word) : Fmt :=
  { kind := bits w 0 3, sign := bits w 3 1 == 1, exp := bits w 4 4, frac := bits w 8 6,
    bias := (w.extractLsb' 14 12).toInt, spec := bits w 26 3, sub := bits w 29 1 == 1, elem := bits w 30 5,
    scale := bits w 35 5, bsz := bits w 40 2, layout := bits w 42 2 }

/-- The storage width of a non-block entry (R242). -/
def Fmt.width (f : Fmt) : Nat :=
  match f.kind with
  | 1 | 4 => (if f.sign then 1 else 0) + f.exp + f.frac
  | 2 | 3 => (if f.sign then 1 else 0) + f.frac
  | _ => 0

/-- The exponent of the least normal value. -/
def Fmt.emin (f : Fmt) : Int := 1 - f.bias

/-- The exponent field and the fraction of the largest finite value of a float entry (R244). -/
def Fmt.maxFields (f : Fmt) : Nat × Nat :=
  match f.spec with
  | 0 => (2 ^ f.exp - 2, 2 ^ f.frac - 1)
  | 1 => if f.frac = 0 then (2 ^ f.exp - 2, 0) else (2 ^ f.exp - 1, 2 ^ f.frac - 2)
  | _ => (2 ^ f.exp - 1, 2 ^ f.frac - 1)

/-- The largest finite magnitude as a multiple of a power of two. -/
def Fmt.maxFin (f : Fmt) : Nat × Int :=
  match f.kind with
  | 1 =>
    let (e, m) := f.maxFields
    if e = 0 then (if f.sub then m else 0, f.emin - f.frac) else (2 ^ f.frac + m, e - f.bias - f.frac)
  | 2 => (2 ^ (f.width - 1), 0)
  | 3 => (2 ^ f.width - 1, 0)
  | _ => (1, (if f.spec = 1 then 2 ^ f.exp - 2 else 2 ^ f.exp - 1 : Nat) - f.bias)

/-- The value of a code of a non-block entry (R243, R244). -/
def Fmt.decode (f : Fmt) (c : Nat) : Num :=
  match f.kind with
  | 1 =>
    let m := c % 2 ^ f.frac
    let e := c / 2 ^ f.frac % 2 ^ f.exp
    let neg := f.sign && c / 2 ^ (f.frac + f.exp) % 2 == 1
    let ones := e == 2 ^ f.exp - 1
    if f.spec = 0 ∧ ones then
      if m = 0 then .inf neg else .nan (m / 2 ^ (f.frac - 1) % 2 == 0)
    else if f.spec = 1 ∧ ones ∧ m = 2 ^ f.frac - 1 then .nan false
    else if e = 0 then .fin neg (if f.sub then m else 0) (f.emin - f.frac)
    else .fin neg (2 ^ f.frac + m) (e - f.bias - f.frac)
  | 2 =>
    let n := c % 2 ^ f.width
    if n ≥ 2 ^ (f.width - 1) then .fin true (2 ^ f.width - n) 0 else .fin false n 0
  | 3 => .fin false (c % 2 ^ f.width) 0
  | 4 =>
    let e := c % 2 ^ f.exp
    if f.spec = 1 ∧ e = 2 ^ f.exp - 1 then .nan false else .fin false 1 (e - f.bias)
  | _ => .nan false

/-- A finite value below the least normal magnitude and not zero, in an entry with subnormals (R253). -/
def Fmt.isSubnormal (f : Fmt) : Num → Bool
  | .fin _ m e => f.kind == 1 && f.sub && m != 0 && decide ((m.log2 : Int) + e < f.emin)
  | _ => false

/-- FZI: a subnormal is read as zero of the same sign (R253). -/
def Fmt.flushIn (f : Fmt) (fzi : Bool) (x : Num) : Num :=
  if fzi && f.isSubnormal x then (match x with | .fin neg _ e => .fin neg 0 e | y => y) else x

/-! ## Rounding to a multiple of a power of two (R252) -/

/-- The rounding modes by code: 0 RNE, 1 RTZ, 2 RDN, 3 RUP, 4 RNA (R93). Whether the magnitude goes up, from the kept
part, the rest and the unit of the rest. -/
def roundsUp (rm : Nat) (neg : Bool) (kept rest unit : Nat) : Bool :=
  if rest = 0 then false
  else match rm with
    | 0 => decide (2 * rest > unit) || (decide (2 * rest = unit) && kept % 2 == 1)
    | 1 => false
    | 2 => neg
    | 3 => !neg
    | _ => decide (2 * rest ≥ unit)

/-- m × 2^e as a multiple of 2^q, rounded, and whether that was inexact. -/
def roundTo (rm : Nat) (neg : Bool) (m : Nat) (e q : Int) : Nat × Bool :=
  if q ≤ e then (m * 2 ^ (e - q).toNat, false)
  else
    let u := 2 ^ (q - e).toNat
    let kept := m / u
    let rest := m % u
    (if roundsUp rm neg kept rest u then kept + 1 else kept, rest != 0)

/-- Compare m × 2^e with n × 2^f. -/
def magLe (m : Nat) (e : Int) (n : Nat) (f : Int) : Bool :=
  if e ≤ f then decide (m ≤ n * 2 ^ (f - e).toNat) else decide (m * 2 ^ (e - f).toNat ≤ n)

/-! ## Codes -/

def Fmt.signBit (f : Fmt) (neg : Bool) : Nat := if f.sign && neg then 2 ^ (f.exp + f.frac) else 0
def Fmt.zeroCode (f : Fmt) (neg : Bool) : Nat := f.signBit neg
def Fmt.maxCode (f : Fmt) (neg : Bool) : Nat := f.signBit neg + f.maxFields.1 * 2 ^ f.frac + f.maxFields.2
def Fmt.infCode (f : Fmt) (neg : Bool) : Nat := f.signBit neg + (2 ^ f.exp - 1) * 2 ^ f.frac

/-- The NaN code of an entry that has one: the canonical quiet NaN of spec 0, or all ones (R244, R255). Spec 0 without
fraction bits has no NaN code: a free value (log 4). -/
def Fmt.nanCode (f : Fmt) (neg : Bool) (fresh : Nat) : Nat :=
  match f.spec with
  | 0 => if f.frac = 0 then Config.nanWithoutFraction fresh % 2 ^ f.width
         else (2 ^ f.exp - 1) * 2 ^ f.frac + 2 ^ (f.frac - 1)
  | _ => f.signBit neg + 2 ^ (f.exp + f.frac) - 1

/-- The code of n × 2^q, a value of the entry's grid no larger than its largest. -/
def Fmt.gridCode (f : Fmt) (neg : Bool) (n : Nat) (q : Int) : Nat :=
  if n = 0 then f.zeroCode neg
  else if n < 2 ^ f.frac then f.signBit neg + n
  else if n = 2 ^ (f.frac + 1) then f.signBit neg + (q + 1 + f.frac + f.bias).toNat * 2 ^ f.frac
  else f.signBit neg + (q + f.frac + f.bias).toNat * 2 ^ f.frac + (n - 2 ^ f.frac)

/-- The two's complement code of an integer entry. -/
def Fmt.intCode (f : Fmt) (x : Int) : Nat := (x % 2 ^ f.width).toNat

def Fmt.intMin (f : Fmt) : Int := if f.kind = 2 then -(2 ^ (f.width - 1) : Nat) else 0
def Fmt.intMax (f : Fmt) : Int := (if f.kind = 2 then 2 ^ (f.width - 1) else 2 ^ f.width : Nat) - 1

/-! ## Rounding into an entry (R250) -/

/-- What a NaN becomes, with its flags. -/
def Fmt.ofNan (f : Fmt) (signalling : Bool) (fresh : Nat) : Nat × Nat :=
  let nv := if signalling then flagNv else 0
  match f.kind, f.spec with
  | 1, 0 | 1, 1 => (f.nanCode false fresh, nv)
  | 4, 1 => (2 ^ f.exp - 1, nv)
  | 4, _ => (Config.scaleOfNonPositive fresh % 2 ^ f.exp, flagNv)
  | _, _ => (0, flagNv)

/-- An overflow of a float entry: to the infinity side or to the largest value, by mode (R250). -/
def overflowsToInf (rm : Nat) (neg : Bool) : Bool :=
  match rm with
  | 0 | 4 => true
  | 1 => false
  | 2 => neg
  | _ => !neg

def Fmt.overflow (f : Fmt) (rm : Nat) (neg : Bool) (fresh : Nat) : Nat × Nat :=
  match f.spec with
  | 0 => (if overflowsToInf rm neg then f.infCode neg else f.maxCode neg, flagOf + flagNx)
  | 1 => (if overflowsToInf rm neg then f.nanCode neg fresh else f.maxCode neg, flagOf + flagNx)
  | 2 => (f.maxCode neg, flagSat + flagNx)
  | _ => (f.maxCode neg, flagOf + flagNx)

/-- Round into a float entry. The grid is that of the entry's precision, and of its subnormals at the low end; an entry
without subnormals has only zero and its least normal value there (R252). Where zero is the only finite value, every other one
overflows (R250). -/
def Fmt.roundFloat (f : Fmt) (rm : Nat) (fzo : Bool) (fresh : Nat) (neg : Bool) (m : Nat) (e : Int) : Nat × Nat :=
  if m = 0 then (f.zeroCode neg, 0)
  else if neg && !f.sign then f.ofNan true fresh
  else if f.maxFin.1 = 0 then f.overflow rm neg fresh
  else
    let top : Int := (m.log2 : Int) + e
    -- tininess after rounding: the value rounded with an unbounded exponent lies below the least normal
    let free := roundTo rm neg m e (top - f.frac)
    let tiny := decide (top < f.emin) && !(decide (top + 1 = f.emin) && free.1 == 2 ^ (f.frac + 1))
    if top < f.emin ∧ !f.sub then
      let up := if rm = 0 ∧ magLe m (e + 1) 1 f.emin ∧ magLe 1 f.emin m (e + 1) then Config.tieAwayFromZero fresh
        else (roundTo rm neg m e f.emin).1 == 1
      (if up then f.signBit neg + 2 ^ f.frac else f.zeroCode neg, flagNx + (if tiny then flagUf else 0))
    else
      let q := if top < f.emin then f.emin - f.frac else top - f.frac
      let (n, inexact) := roundTo rm neg m e q
      let (mx, me) := f.maxFin
      if !magLe n q mx me then f.overflow rm neg fresh
      else
        let nx := if inexact then flagNx + (if tiny then flagUf else 0) else 0
        if fzo && n != 0 && f.isSubnormal (.fin neg n q) then (f.zeroCode neg, flagUf + flagNx)
        else (f.gridCode neg n q, nx)

/-- Round into an integer entry; the wrap of spec 4 sets no flag (R250, R254). -/
def Fmt.roundInt (f : Fmt) (rm : Nat) (neg : Bool) (m : Nat) (e : Int) : Nat × Nat :=
  let (n, inexact) := roundTo rm neg m e 0
  let x : Int := if neg then -(n : Int) else n
  let nx := if inexact then flagNx else 0
  if f.spec = 4 then (f.intCode x, if f.intMin ≤ x ∧ x ≤ f.intMax then nx else 0)
  else if x < f.intMin then (f.intCode f.intMin, nx + flagSat)
  else if f.intMax < x then (f.intCode f.intMax, nx + flagSat)
  else (f.intCode x, nx)

/-- Round into a scale entry: a power of two, the least one below the range. A value that is zero or negative has no
code that the manual names: a free value (log 4). -/
def Fmt.roundScale (f : Fmt) (rm : Nat) (fresh : Nat) (neg : Bool) (m : Nat) (e : Int) : Nat × Nat :=
  if m = 0 ∨ neg then (Config.scaleOfNonPositive fresh % 2 ^ f.exp, flagNv)
  else
    let top : Int := (m.log2 : Int) + e
    let (n, inexact) := roundTo rm false m e top
    let x := if n = 2 then top + 1 else top
    let hi : Int := (if f.spec = 1 then 2 ^ f.exp - 2 else 2 ^ f.exp - 1 : Nat)
    if x + f.bias < 0 then (0, flagUf + flagNx)
    else if hi < x + f.bias then
      (if f.spec = 1 ∧ overflowsToInf rm false then 2 ^ f.exp - 1 else hi.toNat, flagOf + flagNx)
    else ((x + f.bias).toNat, if inexact then flagNx else 0)

/-- An infinity coming in (R250). -/
def Fmt.ofInf (f : Fmt) (neg : Bool) (fresh : Nat) : Nat × Nat :=
  match f.kind with
  | 1 =>
    if neg && !f.sign then f.ofNan true fresh
    else match f.spec with
      | 0 => (f.infCode neg, 0)
      | 1 => (f.nanCode neg fresh, flagNv)
      | 2 => (f.maxCode neg, flagSat)
      | _ => (f.maxCode neg, flagOf)
  | 4 => if f.spec = 1 then (2 ^ f.exp - 1, flagNv) else (2 ^ f.exp - 1, flagOf)
  | _ => if f.spec = 4 then (0, flagNv) else (f.intCode (if neg then f.intMin else f.intMax), flagSat)

/-- Round(entry, x, rm): the code, and the flags that result (R8, R250, R254). -/
def Fmt.round (f : Fmt) (rm : Nat) (fzo : Bool) (fresh : Nat) : Num → Nat × Nat
  | .nan sg => f.ofNan sg fresh
  | .inf neg => f.ofInf neg fresh
  | .fin neg m e =>
    match f.kind with
    | 1 => f.roundFloat rm fzo fresh neg m e
    | 4 => f.roundScale rm fresh neg m e
    | _ => f.roundInt rm neg m e

/-! ## Exact arithmetic -/

def Num.neg : Num → Num
  | .nan s => .nan s
  | .inf n => .inf (!n)
  | .fin n m e => .fin (!n) m e

def Num.abs : Num → Num
  | .nan s => .nan s
  | .inf _ => .inf false
  | .fin _ m e => .fin false m e

def Num.isZero : Num → Bool
  | .fin _ 0 _ => true
  | _ => false

def Num.isNan : Num → Bool
  | .nan _ => true
  | _ => false

def Num.isSnan : Num → Bool
  | .nan s => s
  | _ => false

/-- The sign of a number; a NaN has none. -/
def Num.sign : Num → Bool
  | .nan _ => false
  | .inf n => n
  | .fin n _ _ => n

/-- m × 2^e as an integer multiple of 2^q, for q ≤ e. -/
def toGrid (neg : Bool) (m : Nat) (e q : Int) : Int :=
  let n : Int := (m * 2 ^ (e - q).toNat : Nat)
  if neg then -n else n

/-- A result with the invalid flag when it arose from no NaN. -/
abbrev NumF := Num × Nat

/-- A NaN result of NaN inputs: nv when one of them signals (R254). -/
def nanOf (sig : Bool) : NumF := (.nan false, if sig then flagNv else 0)

/-- The exact sum (R252 for zeros, R255 for special values). -/
def Num.add (rm : Nat) (a b : Num) : NumF :=
  match a, b with
  | .nan s, y => nanOf (s || y.isSnan)
  | x, .nan s => nanOf (s || x.isSnan)
  | .inf n, .inf k => if n = k then (.inf n, 0) else (.nan false, flagNv)
  | .inf n, _ => (.inf n, 0)
  | _, .inf n => (.inf n, 0)
  | .fin n m e, .fin k l f =>
    let q := min e f
    let t := toGrid n m e q + toGrid k l f q
    if t = 0 then
      if m = 0 ∧ l = 0 ∧ n = k then (.fin n 0 q, 0) else (.fin (rm == 2) 0 q, 0)
    else (.fin (decide (t < 0)) t.natAbs q, 0)

def Num.mul (a b : Num) : NumF :=
  match a, b with
  | .nan s, y => nanOf (s || y.isSnan)
  | x, .nan s => nanOf (s || x.isSnan)
  | .inf n, y => if y.isZero then (.nan false, flagNv) else (.inf (n != y.sign), 0)
  | x, .inf n => if x.isZero then (.nan false, flagNv) else (.inf (n != x.sign), 0)
  | .fin n m e, .fin k l f => (.fin (n != k) (m * l) (e + f), 0)

/-- Fused multiply-add: one exact value. The invalid product comes before the sum, NaNs before both (R255). -/
def Num.fma (rm : Nat) (a b c : Num) : NumF :=
  let (p, f1) := a.mul b
  let (r, f2) := p.add rm c
  (r, orFlags f1 f2)

/-- Bits kept in a quotient or a root beyond the last one of any entry. -/
def extraBits : Nat := 70

/-- a / b; division of a finite nonzero number by zero sets dz (R254). -/
def Num.div (a b : Num) : NumF :=
  match a, b with
  | .nan s, y => nanOf (s || y.isSnan)
  | x, .nan s => nanOf (s || x.isSnan)
  | .inf _, .inf _ => (.nan false, flagNv)
  | .inf n, y => (.inf (n != y.sign), 0)
  | x, .inf n => (.fin (x.sign != n) 0 0, 0)
  | .fin n m e, .fin k l f =>
    if l = 0 then (if m = 0 then (.nan false, flagNv) else (.inf (n != k), flagDz))
    else
      let sh := l.log2 + extraBits
      let t := m * 2 ^ sh
      (.fin (n != k) (t / l * 2 + (if t % l = 0 then 0 else 1)) (e - f - sh - 1), 0)

/-- Integer square root by Newton's iteration from above; `n` rounds. -/
def isqrtGo : Nat → Nat → Nat → Nat
  | 0, _, x => x
  | n + 1, v, x =>
    let y := (x + v / x) / 2
    if y < x then isqrtGo n v y else x

def isqrt (v : Nat) : Nat := if v = 0 then 0 else isqrtGo (v.log2 + 2) v (2 ^ (v.log2 / 2 + 1))

/-- The square root; negative numbers but −0 are invalid. -/
def Num.sqrt : Num → NumF
  | .nan s => nanOf s
  | .inf true => (.nan false, flagNv)
  | .inf false => (.inf false, 0)
  | .fin n m e =>
    if m = 0 then (.fin n 0 0, 0)
    else if n then (.nan false, flagNv)
    else
      let odd := e % 2 = 1
      let t := (if odd then 2 * m else m) * 2 ^ (2 * extraBits)
      let r := isqrt t
      (.fin false (r * 2 + (if r * r = t then 0 else 1)) ((if odd then e - 1 else e) / 2 - extraBits - 1), 0)

/-- Compare as real numbers; `none` with a NaN. −0 equals +0 here. -/
def Num.cmp (a b : Num) : Option Ordering :=
  match a, b with
  | .nan _, _ | _, .nan _ => none
  | .inf n, .inf k => some (if n = k then .eq else if n then .lt else .gt)
  | .inf n, _ => some (if n then .lt else .gt)
  | _, .inf n => some (if n then .gt else .lt)
  | .fin n m e, .fin k l f =>
    let q := min e f
    some (compare (toGrid n m e q) (toGrid k l f q))

/-- The sum of many values at once, exact, with R252 for zeros and R255 for special values. -/
def sumFin (q : Int) : List Num → Int
  | [] => 0
  | .fin n m e :: r => toGrid n m e q + sumFin q r
  | _ :: r => sumFin q r

def minExp : List Num → Int
  | [] => 0
  | [.fin _ _ e] => e
  | .fin _ _ e :: r => min e (minExp r)
  | _ :: r => minExp r

def sumAll (rm : Nat) (l : List Num) : NumF :=
  if l.any Num.isNan then nanOf (l.any Num.isSnan)
  else
    let pos := l.any fun x => x == .inf false
    let neg := l.any fun x => x == .inf true
    if pos && neg then (.nan false, flagNv)
    else if pos then (.inf false, 0)
    else if neg then (.inf true, 0)
    else
      let q := minExp l
      let t := sumFin q l
      if t = 0 then
        let allNegZero := l.all fun x => x.isZero && x.sign
        let allPosZero := l.all fun x => x.isZero && !x.sign
        (.fin (!l.isEmpty && allNegZero || (!allPosZero && rm == 2)) 0 q, 0)
      else (.fin (decide (t < 0)) t.natAbs q, 0)

end Sys2Proof.Machine
end

