-- ==== Sys2Proof/Machine/Formats.lean ====
section
/-! DEFINITION. The format table and its layouts (R241 to R251): the fixed entries, the checks of an entry and of a pair
of entries, where the elements of a row lie, and conversions. -/

namespace Sys2Proof.Machine

/-! ## The fixed entries (R245) -/

def fixedEntries : List Word :=
  [0x0000000020FFF4B9, 0x00000000201FD789, 0x000000002003CA59, 0x00000000201FC789,
   0x000000002401C349, 0x000000002003C259, 0x000000002C00C239, 0x000000002C004329,
   0x000000002C004129, 0x00000000041FC084, 0x000000001400070A, 0x000000001400030A,
   0x0000000014001F0A, 0x0000000014000803, 0x0000054A00000005, 0x0000054900000005]

def fp64 : Fmt := fmtOfWord 0x0000000020FFF4B9
def fp32 : Fmt := fmtOfWord 0x00000000201FD789

/-! ## Windows and exact-capable entries (R242) -/

/-- The exponent of the unit of a non-block entry. -/
def Fmt.unitExp (f : Fmt) : Int := if f.kind = 1 then f.emin - f.frac else 0

/-- The largest finite magnitude in units. -/
def Fmt.maxUnits (f : Fmt) : Nat := f.maxFin.1 * 2 ^ (f.maxFin.2 - f.unitExp).toNat

/-- The magnitude window W: the smallest with 2^W − 1 ≥ M/u. -/
def Fmt.window (f : Fmt) : Nat := if f.maxUnits = 0 then 0 else f.maxUnits.log2 + 1

def Fmt.exact (f : Fmt) : Bool :=
  (f.kind == 1 || f.kind == 2 || f.kind == 3) && decide (f.width ≤ 8) && decide (f.window ≤ 23)

/-! ## The checks of `fmtw` (R247) -/

def specOk (kind spec : Nat) : Bool :=
  match kind with
  | 1 => decide (spec ≤ 3)
  | 2 | 3 => spec == 4 || spec == 5
  | 4 => spec == 1 || spec == 3
  | _ => true

def fieldsBad (w : Word) : Bool :=
  let k := bits w 0 3
  decide (k > 5) || bits w 44 20 != 0 || (k == 0 && w != 0) || (k != 5 && bits w 30 14 != 0) || (k == 5 && bits w 3 27 != 0)

def rangeBad (f : Fmt) : Bool :=
  match f.kind with
  | 1 => f.exp == 0 || (f.exp == 1 && f.spec == 0) || decide (f.emin - f.frac < -1074) ||
      decide ((f.maxFields.1 : Int) - f.bias > 1023)
  | 2 | 3 => f.exp != 0 || f.bias != 0
  | 4 => f.sign || f.frac != 0 || f.width != 8 || decide (f.bias < -128) || decide (f.bias > 255)
  | _ => false

def elemBad (e : Fmt) : Bool := !(e.kind == 1 || e.kind == 2 || e.kind == 3) || decide (e.width > 8)

/-- The first check of R247 that writing entry `w` to `id` fails; `look` is the table as it stands. -/
def entryFault (look : Nat → Word) (id : Nat) (w : Word) : Option Nat :=
  let f := fmtOfWord w
  let block := f.kind == 5
  if fieldsBad w then some 0x01
  else if !block && f.kind != 0 && (f.width == 0 || decide (f.width > 64)) then some 0x02
  else if rangeBad f then some 0x03
  else if !specOk f.kind f.spec || (f.sub && f.kind != 1) then some 0x04
  else if block && elemBad (fmtOfWord (look f.elem)) then some 0x05
  else if block && ((fmtOfWord (look f.scale)).kind != 4 || f.bsz == 3 || f.layout == 3) then some 0x06
  else if id < 16 then some 0x07
  else if ((List.range 16).map fun i => i + 16).any fun i =>
      let g := if i = id then f else fmtOfWord (look i)
      g.kind == 5 && ((g.elem == id && elemBad f) || (g.scale == id && f.kind != 4)) then some 0x08
  else none

/-! ## Layouts (R246) -/

/-- An entry with what it names: the entry of its elements, and for a block the scale entry, block size and layout. -/
structure Lay where
  f      : Fmt
  scale  : Option Fmt
  b      : Nat
  layout : Nat
  kind   : Nat
  deriving DecidableEq, Repr, Inhabited

def layOf (look : Nat → Word) (id : Nat) : Lay :=
  let f := fmtOfWord (look id)
  if f.kind = 5 then
    { f := fmtOfWord (look f.elem), scale := some (fmtOfWord (look f.scale)), b := 16 * 2 ^ f.bsz, layout := f.layout, kind := 5 }
  else { f := f, scale := none, b := 0, layout := 0, kind := f.kind }

def Lay.isBlock (l : Lay) : Bool := l.scale.isSome

def roundUp64 (n : Nat) : Nat := (n + 63) / 64 * 64

/-- The planes of a code of width w, widest first (R246). -/
def planeWidths (w : Nat) : List Nat := [8, 4, 2, 1].filter fun p => w / p % 2 == 1

/-- The byte at which each plane of a run of n blocks starts, and where the scale plane starts. -/
def planeStarts (n b : Nat) : List Nat → Nat → List (Nat × Nat) × Nat
  | [], at_ => ([], at_)
  | p :: r, at_ =>
    let t := planeStarts n b r (roundUp64 (at_ + n * b * p / 8))
    ((p, at_) :: t.1, t.2)

/-- The bytes a run of n blocks takes. -/
def Lay.runBytes (l : Lay) (n : Nat) : Nat :=
  match l.layout with
  | 1 => n * (1 + l.b * l.f.width / 8)
  | 2 => (planeStarts n l.b (planeWidths l.f.width) 0).2 + n
  | _ => roundUp64 (n * l.b * l.f.width / 8) + n

/-- The most blocks that fit in a row. -/
def mostBlocks (l : Lay) : Nat → Nat
  | 0 => 0
  | n + 1 => if l.runBytes (n + 1) ≤ 256 then n + 1 else mostBlocks l n

def Lay.blocks (l : Lay) : Nat := if l.isBlock then mostBlocks l 128 else 0

/-- The whole elements of a row (R246, R264, R281). -/
def Lay.count (l : Lay) : Nat := if l.isBlock then l.blocks * l.b else if l.f.width = 0 then 0 else 2048 / l.f.width

/-- The places of element j's code, its most significant part first: bit and width. -/
def Lay.parts (l : Lay) (j : Nat) : List (Nat × Nat) :=
  let w := l.f.width
  if l.isBlock then
    match l.layout with
    | 1 => [((j / l.b * (1 + l.b * w / 8) + 1) * 8 + j % l.b * w, w)]
    | 2 => (planeStarts l.blocks l.b (planeWidths w) 0).1.map fun p => (p.2 * 8 + j * p.1, p.1)
    | _ => [(j * w, w)]
  else [(j * w, w)]

/-- The bit at which the scale of block k starts. -/
def Lay.scaleBit (l : Lay) (k : Nat) : Nat :=
  match l.layout with
  | 1 => k * (1 + l.b * l.f.width / 8) * 8
  | 2 => ((planeStarts l.blocks l.b (planeWidths l.f.width) 0).2 + k) * 8
  | _ => (roundUp64 (l.blocks * l.b * l.f.width / 8) + k) * 8

def getField (row : Nat) (p w : Nat) : Nat := (row >>> p) % 2 ^ w
def setField (row : Nat) (p w v : Nat) : Nat := row - getField row p w * 2 ^ p + v % 2 ^ w * 2 ^ p

/-- The code of element j of a row. -/
def Lay.code (l : Lay) (row j : Nat) : Nat := (l.parts j).foldl (fun c p => c * 2 ^ p.2 + getField row p.1 p.2) 0

def setParts (row c : Nat) : List (Nat × Nat) → Nat
  | [] => row
  | p :: r =>
    let low := r.foldl (fun n q => n + q.2) 0
    setParts (setField row p.1 p.2 (c / 2 ^ low)) c r

def Lay.setCode (l : Lay) (row j c : Nat) : Nat := setParts row c (l.parts j)
def Lay.scaleCode (l : Lay) (row k : Nat) : Nat := getField row (l.scaleBit k) 8
def Lay.setScale (l : Lay) (row k c : Nat) : Nat := setField row (l.scaleBit k) 8 c

/-- A scale times an element (R243). A NaN element stays as it is, so that a signalling one is still known. -/
def Num.scaled (x g : Num) : Num := if x.isNan then x else (x.mul g).1

/-- The value of element j of a row (R243): for a block, the scale times the element. With FZI a subnormal element is
read as zero; scales are not flushed (R253). -/
def Lay.valueIn (l : Lay) (fzi : Bool) (row j : Nat) : Num :=
  let x := l.f.flushIn fzi (l.f.decode (l.code row j))
  match l.scale with
  | none => x
  | some g => x.scaled (g.decode (l.scaleCode row (j / l.b)))

/-- A row with its bits beyond the last whole element zero (R246). -/
def Lay.trim (l : Lay) (row : Nat) : Nat := if l.isBlock then row else row % 2 ^ (l.count * l.f.width)

/-! ## The pair checks (R248) -/

def Lay.exact (l : Lay) : Bool := l.f.exact

/-- Both operands are exact-capable: the exact path (R256). -/
def exactPath (a b : Lay) : Bool := a.exact && b.exact

/-- The length of a chunk (R256) or a group (R257). -/
def stepLen (a b : Lay) : Nat :=
  if exactPath a b then
    match a.isBlock, b.isBlock with
    | true, true => min a.b b.b
    | true, false => a.b
    | false, true => b.b
    | false, false => 32
  else
    let w := max a.f.width b.f.width
    if w ≤ 8 then 8 else if w ≤ 16 then 4 else if w ≤ 32 then 2 else 1

def isIntKind (l : Lay) : Bool := l.kind == 2 || l.kind == 3

/-- The first check of R248 that the entries of a slot fail. -/
def pairFault (look : Nat → Word) (af bf cf : Nat) : Option Nat :=
  let a := layOf look af
  let b := layOf look bf
  let bad := fun (l : Lay) => l.kind == 0 || l.kind == 4
  let is64 := fun (id : Nat) => fmtOfWord (look id) == fp64
  if bad a || bad b then some 0x01
  else if !(cf == 0 || cf == 1 || cf == 2 || cf == 3 || cf == 12) then some 0x02
  else if (is64 cf && !(is64 af && is64 bf)) || ((is64 af || is64 bf) && !is64 cf) then some 0x03
  else if (cf == 12 && !(isIntKind a && isIntKind b)) || (isIntKind a && isIntKind b && cf != 12) then some 0x04
  else if exactPath a b &&
      decide (stepLen a b * (2 ^ a.f.window - 1) * (2 ^ b.f.window - 1) > 2 ^ 47 - 2 ^ 15) then some 0x05
  else none

/-! ## The lattice (R249) -/

def Fmt.hasInf (f : Fmt) : Bool := f.kind == 1 && f.spec == 0
def Fmt.hasNan (f : Fmt) : Bool := f.kind == 1 && ((f.spec == 0 && f.frac != 0) || f.spec == 1)

/-- Float entry `a` lies below float entry `b`. -/
def Fmt.below (a b : Fmt) : Bool :=
  let low : Int := if a.sub then a.emin - a.frac else a.emin
  (!a.sign || b.sign) && decide (a.frac ≤ b.frac) && magLe a.maxFin.1 a.maxFin.2 b.maxFin.1 b.maxFin.2 &&
    (if b.sub then decide (b.emin - b.frac ≤ a.emin - a.frac) else decide (b.emin ≤ low)) &&
    (!a.hasInf || b.hasInf) && (!a.hasNan || b.hasNan)

/-- The exponents of a scale entry's finite codes. -/
def Fmt.scaleMin (g : Fmt) : Int := -g.bias
def Fmt.scaleMax (g : Fmt) : Int := (if g.spec = 1 then 2 ^ g.exp - 2 else 2 ^ g.exp - 1 : Nat) - g.bias

/-- A block entry of float elements lies below a float entry: its elements do under the least and under the greatest scale,
and a NaN scale has its NaN there. -/
def Fmt.blockBelow (a g b : Fmt) : Bool :=
  Fmt.below { a with bias := a.bias - g.scaleMin } b && Fmt.below { a with bias := a.bias - g.scaleMax } b &&
    (g.spec != 1 || b.hasNan)

/-- The conversion of a signalling NaN, which only float elements have, goes up the lattice, and so sets no flag. -/
def upLattice (a b : Lay) : Bool :=
  !b.isBlock && a.f.kind == 1 && b.kind == 1 &&
    (match a.scale with
      | some g => a.f.blockBelow g b.f
      | none => a.f.below b.f)

/-- Convert one value into a non-block destination (R249, R250). -/
def convert (a b : Lay) (rm : Nat) (fzo : Bool) (fresh : Nat) (x : Num) : Nat × Nat :=
  b.f.round rm fzo fresh (if upLattice a b then (match x with | .nan _ => .nan false | y => y) else x)

/-! ## Conversion into a block (R251) -/

def Num.isFinite : Num → Bool
  | .fin _ _ _ => true
  | _ => false

/-- floor(log2) of the largest finite magnitude, when there is one that is not zero. -/
def topExp : List Num → Option Int
  | [] => none
  | .fin _ m e :: r =>
    if m = 0 then topExp r
    else match topExp r with
      | some t => some (max t ((m.log2 : Int) + e))
      | none => some ((m.log2 : Int) + e)
  | _ :: r => topExp r

def Num.shift (x : Num) (k : Int) : Num :=
  match x with
  | .fin n m e => .fin n m (e + k)
  | y => y

/-- The largest finite value of an element entry as the table of R245 gives it: 127 for INT8 (log 21). -/
def Fmt.top (f : Fmt) : Nat × Int := if f.kind = 2 then (2 ^ (f.width - 1) - 1, 0) else f.maxFin

/-- The scale code, the element codes and the flags of a block. -/
def blockCodes (f g : Fmt) (rm : Nat) (fzo : Bool) (fresh : Nat) (xs : List Num) : Nat × List Nat × Nat :=
  if xs.any Num.isNan then
    ((if g.spec = 1 then 2 ^ g.exp - 1 else 2 ^ g.exp - 1), xs.map fun _ => 0, flagNv)
  else
    let x : Int := match topExp xs with
      | none => g.scaleMin
      | some a => max g.scaleMin (min g.scaleMax (a - ((f.top.1.log2 : Int) + f.top.2)))
    let rs := xs.zipIdx.map fun e => f.round rm fzo (fresh + e.2) (e.1.shift (-x))
    ((x + g.bias).toNat, rs.map fun r => r.1, rs.foldl (fun n r => orFlags n r.2) 0)

end Sys2Proof.Machine
end

