-- ==== Sys2Proof/Machine/RowArith.lean ====
section
/-! DEFINITION. The arithmetic of single elements in the row-vector unit (R287 to R298): selection by value, roots and
reciprocals, the printed algorithms of vexp2, vlog2 and vtanh, and the elements of a row under a mask. -/

namespace Sys2Proof.Machine

/-! ## Selection by value (R287, R297) -/

/-- The order of two numbers that are no NaN, −0 below +0. -/
def Num.below (a b : Num) : Bool :=
  match a.cmp b with
  | some .lt => true
  | some .eq => a.isZero && b.isZero && a.sign && !b.sign
  | _ => false

/-- The larger (or smaller) of two values; a NaN gives the canonical NaN, nv only for a signalling one. -/
def Num.pick (max : Bool) (a b : Num) : NumF :=
  if a.isNan || b.isNan then nanOf (a.isSnan || b.isSnan)
  else if max then (if a.below b then b else a, 0) else (if b.below a then b else a, 0)

/-- The largest or smallest of a list that is not empty. -/
def Num.pickAll (max : Bool) : List Num → NumF
  | [] => (.nan false, 0)
  | [x] => if x.isNan then nanOf x.isSnan else (x, 0)
  | x :: r =>
    let (y, f) := Num.pickAll max r
    let (z, g) := x.pick max y
    (z, orFlags f g)

/-- What vrmax and vrmin give with no active element (R297). -/
def Fmt.farthest (f : Fmt) (max : Bool) : Nat :=
  if f.kind = 1 then
    if max && !f.sign then f.zeroCode false
    else if f.hasInf then f.infCode max else f.maxCode max
  else f.intCode (if max then f.intMin else f.intMax)

/-! ## Roots and reciprocals (R287) -/

def Num.one : Num := .fin false 1 0

/-- 1/√a, held with bits beyond any entry. -/
def Num.rsqrt : Num → NumF
  | .nan s => nanOf s
  | .inf true => (.nan false, flagNv)
  | .inf false => (.fin false 0 0, 0)
  | .fin n m e =>
    if m = 0 then (.inf n, flagDz)
    else if n then (.nan false, flagNv)
    else
      let odd := e % 2 = 1
      let m := if odd then 2 * m else m
      let k := m.log2 + extraBits
      let r := isqrt (2 ^ (2 * k) / m)
      (.fin false (r * 2 + (if r * r * m = 2 ^ (2 * k) then 0 else 1)) (-((if odd then e - 1 else e) / 2) - k - 1), 0)

/-! ## FP32 steps (R291 to R293) -/

/-- Round(FP32, x, RNE), setting no flag. -/
def r32 (x : NumF) : Num := fp32.decode (fp32.round 0 false 0 x.1).1
/-- An FP32 constant by its code. -/
def k32 (c : Nat) : Num := fp32.decode c

/-- Round(p × z + c) for each constant. -/
def horner (z : Num) : List Nat → Num → Num
  | [], p => p
  | c :: r, p => horner z r (r32 (p.fma 0 z (k32 c)))

/-- The integer nearest x, ties to even. -/
def Num.nearest : Num → Int
  | .fin n m e => let k := (roundTo 0 n m e 0).1; if n then -(k : Int) else k
  | _ => 0

def Num.ofInt (x : Int) : Num := .fin (decide (x < 0)) x.natAbs 0

def geNum (a b : Num) : Bool := (a.cmp b == some .gt) || (a.cmp b == some .eq)
def ltNum (a b : Num) : Bool := a.cmp b == some .lt

/-- `vexp2` (R291): the FP32 code and flags for an FP32 value. -/
def exp2Of (rm : Nat) (fzo : Bool) (x : Num) : Nat × Nat :=
  match x with
  | .nan s => fp32.round rm fzo 0 (.nan s)
  | .inf false => (fp32.infCode false, 0)
  | .inf true => (0, 0)
  | _ =>
    if geNum x (Num.ofInt 128) then fp32.overflow rm false 0
    else if ltNum x (Num.ofInt (-150)) then (0, flagUf + flagNx)
    else
      let n := x.nearest
      let f := (x.add 0 (Num.ofInt (-n))).1
      let p := horner f [0x3aaec3ff, 0x3c1d955b, 0x3d635847, 0x3e75fdf0, 0x3f317218, 0x3f800000] (k32 0x39218489)
      let y := fp32.round rm fzo 0 (p.shift n)
      (y.1, orFlags y.2 (if f.isZero then 0 else flagNx))

/-- x = m × 2^e with 1 ≤ m < 2, for a positive number. -/
def Num.split : Num → Num × Int
  | .fin _ m e => (.fin false m (-(m.log2 : Int)), e + m.log2)
  | x => (x, 0)

/-- `vlog2` (R292). -/
def log2Of (rm : Nat) (fzo : Bool) (x : Num) : Nat × Nat :=
  match x with
  | .nan s => fp32.round rm fzo 0 (.nan s)
  | .inf false => (fp32.infCode false, 0)
  | .inf true => fp32.round rm fzo 0 (.nan true)
  | .fin neg _ _ =>
    if x.isZero then (fp32.infCode true, flagDz)
    else if neg then fp32.round rm fzo 0 (.nan true)
    else
      let (m0, e0) := x.split
      let big := ltNum (k32 0x3fb504f3) m0
      let m := if big then m0.shift (-1) else m0
      let e := if big then e0 + 1 else e0
      let t := (m.add 0 (Num.ofInt (-1))).1
      let s := r32 (t.div (t.add 0 (Num.ofInt 2)).1)
      let z := r32 (s.mul s)
      let q := horner z [0x3ed30bb1, 0x3f13bb63, 0x3f76384f, 0x4038aa3b] (k32 0x3ea4258a)
      let y := fp32.round rm fzo 0 (s.fma rm q (Num.ofInt e)).1
      (y.1, orFlags y.2 (if t.isZero then 0 else flagNx))

/-- The mode of vtanh's work on |x|. -/
def mirrorRm (rm : Nat) : Nat := if rm = 2 then 3 else if rm = 3 then 2 else rm

/-- The magnitude of `vtanh` for a positive value (R293). -/
def tanhMag (rm : Nat) (fzo : Bool) (a : Num) : Nat × Nat :=
  if a = .inf false then (0x3f800000, 0)
  else if geNum a (Num.ofInt 9) then (0x3f800000, flagNx)
  else if ltNum a (.fin false 1 (-12)) then
    let y := fp32.round rm fzo 0 a
    (y.1, orFlags y.2 flagNx)
  else if ltNum a (.fin false 1 (-2)) then
    let z := r32 (a.mul a)
    let q := horner z [0x3cb327a4, 0xbd5d0dd1, 0x3e088889, 0xbeaaaaab] (k32 0xbc11371b)
    let w := r32 (a.mul z)
    let y := fp32.round rm fzo 0 (w.fma rm q a).1
    (y.1, orFlags y.2 flagNx)
  else
    let u := k32 (exp2Of 0 false (r32 (a.mul (k32 0xc038aa3b)))).1
    let num := r32 (Num.one.add 0 u.neg)
    let den := r32 (Num.one.add 0 u)
    let y := fp32.round rm fzo 0 (num.div den).1
    (y.1, orFlags y.2 flagNx)

/-- `vtanh` (R293). -/
def tanhOf (rm : Nat) (fzo : Bool) (x : Num) : Nat × Nat :=
  match x with
  | .nan s => fp32.round rm fzo 0 (.nan s)
  | y =>
    if y.isZero then (fp32.zeroCode y.sign, 0)
    else
      let r := tanhMag (if y.sign then mirrorRm rm else rm) fzo y.abs
      (r.1 + fp32.signBit y.sign, r.2)

/-! ## The elements of a row (R281, R282) -/

/-- How many elements one mask bit governs. -/
def maskRun (n : Nat) : Nat := (n + 255) / 256

/-- Element i of a row of n is active. -/
def elemActive (mask : Mask) (n i : Nat) : Bool := mask.getLsbD (i / max 1 (maskRun n))

/-- Write the elements of a row: `f` gives code and flags of an active one; an inactive one keeps its code or becomes 0. -/
def mapElems (l : Lay) (act : Nat → Bool) (zero : Bool) (f : Nat → Nat × Nat) (old : Nat) : Nat × Nat :=
  let r := (List.range l.count).foldl (fun (r : Nat × Nat) i =>
    if act i then
      let c := f i
      (l.setCode r.1 i c.1, orFlags r.2 c.2)
    else (if zero then l.setCode r.1 i 0 else r.1, r.2)) (old, 0)
  (l.trim r.1, r.2)

/-- The values of the active elements. -/
def activeValues (l : Lay) (fzi : Bool) (act : Nat → Bool) (row : Nat) : List Num :=
  ((List.range l.count).filter act).map fun i => l.valueIn fzi row i

/-- The register value of a code: sign-extended for kind 2 (R296, R297). -/
def Fmt.toReg (f : Fmt) (c : Nat) : Word :=
  if f.kind = 2 ∧ c / 2 ^ (f.width - 1) % 2 = 1 then BitVec.ofInt 64 ((c : Int) - 2 ^ f.width) else wordOf c

/-- An operation on integer codes of the same width (R294). -/
inductive CodeOp | and | or | xor | shl | srl | sra | min | max
  deriving DecidableEq, Repr

def Fmt.codeOp (f : Fmt) (op : CodeOp) (a b : Nat) : Nat :=
  let w := f.width
  let top := a / 2 ^ (w - 1) % 2
  match op with
  | .and => Nat.land a b
  | .or => Nat.lor a b
  | .xor => Nat.xor a b
  | .shl => if b ≥ w then 0 else a * 2 ^ b % 2 ^ w
  | .srl => if b ≥ w then 0 else a / 2 ^ b
  | .sra =>
    let s := min b w
    (if s = w then 0 else a / 2 ^ s) + (if top = 1 then 2 ^ w - 2 ^ (w - s) else 0)
  | .min => if (f.decode b).below (f.decode a) then b else a
  | .max => if (f.decode a).below (f.decode b) then b else a

/-! ## vcvt (R298) -/

/-- The pairs of destination and source elements. -/
def cvtPairs (ns nd p : Nat) : List (Nat × Nat) :=
  if ns ≥ nd then ((List.range nd).map fun i => (i, p * nd + i)).filter fun e => decide (e.2 < ns)
  else ((List.range ns).map fun i => (p * ns + i, i)).filter fun e => decide (e.1 < nd)

/-- The elements named make up whole blocks of `b`. -/
def wholeBlocks (b : Nat) (ps : List (Nat × Nat)) : Bool :=
  ps.all fun e => (List.range b).all fun i => ps.any fun q => q.1 == e.1 / b * b + i

/-- Convert the named elements of a row into a non-block destination. -/
def cvtElems (src dst : Lay) (rm : Nat) (fzi fzo zero : Bool) (fresh : Nat) (act : Nat → Bool) (row : Nat) :
    List (Nat × Nat) → Nat × Nat → Nat × Nat
  | [], r => r
  | (d, j) :: ps, r =>
    let r := if act d then
        let c := convert src dst rm fzo (fresh + d) (src.valueIn fzi row j)
        (dst.setCode r.1 d c.1, orFlags r.2 c.2)
      else (if zero then dst.setCode r.1 d 0 else r.1, r.2)
    cvtElems src dst rm fzi fzo zero fresh act row ps r

/-- Write one block of the destination (R251). -/
def cvtBlock (dst : Lay) (g : Fmt) (rm : Nat) (fzo : Bool) (fresh k : Nat) (xs : List Num) (r : Nat × Nat) : Nat × Nat :=
  let (sc, cs, f) := blockCodes dst.f g rm fzo (fresh + k * dst.b) xs
  let row := cs.zipIdx.foldl (fun row e => dst.setCode row (k * dst.b + e.2) e.1) (dst.setScale r.1 k sc)
  (row, orFlags r.2 f)

/-- Convert the named elements of a row into a block destination, one block at a time. -/
def cvtBlocks (src dst : Lay) (g : Fmt) (rm : Nat) (fzi fzo : Bool) (fresh row : Nat) (ps : List (Nat × Nat))
    (r : Nat × Nat) : Nat × Nat :=
  (List.range dst.blocks).foldl (fun r k =>
    let mine := ps.filter fun e => e.1 / dst.b == k
    if mine.isEmpty then r
    else cvtBlock dst g rm fzo fresh k (mine.map fun e => src.valueIn fzi row e.2) r) r

end Sys2Proof.Machine
end

