-- ==== Sys2Proof/Machine/Tiles.lean ====
section
/-! DEFINITION. The tiles of a task as its instructions see them (R221 to R232, R302 to R311): format entries by the
context, index tuples, images and their spill storage, region shadows, the scoreboard, and the set a word executes over. -/

namespace Sys2Proof.Machine

/-! ## Format entries (R241, R258, R259) -/

/-- The number of the context that a hart's `satp` names: its partition and the root and identifier of the guest (R60). -/
def State.ctxOf (s : State) (h : Nat) : Nat :=
  (match s.partOf (clusterOf h) with | none => 0 | some p => p + 1) * 2 ^ 64 + (s.hart h).sys.satp.toNat

/-- The current version of an entry in the view of a pair, and its number. -/
def State.versionAt (s : State) (p ctx id : Nat) : Word × Nat :=
  if id < 16 then (fixedEntries.getD id 0, 0)
  else ((s.pair p).views.find (ctx * 32 + id)).getD (s.fmts.get (ctx * 32 + id) 0, s.fmtVers.get (ctx * 32 + id) 0)
def State.entryAt (s : State) (p ctx id : Nat) : Word := (s.versionAt p ctx id).1

/-- The entries as the acting hart's pair holds them for its context. -/
def State.look (s : State) (id : Nat) : Word := s.entryAt (pairOf s.cur) (s.ctxOf s.cur) id
def State.lay (s : State) (id : Nat) : Lay := layOf s.look id

/-! ## Index tuples (R303, R304) -/

/-- One index for each open axis; 0 for an axis outside the set that the tuple is over. -/
abbrev Tup := List Nat

def Lift.exts (l : Lift) : List Nat := l.axes.map fun a => a.extent

/-- The flat number of a tuple over a tag set, from axis `i` on. -/
def flatFrom (tags : BitVec 4) : Nat → List Nat → Tup → Nat → Nat
  | i, e :: es, x :: xs, n => flatFrom tags (i + 1) es xs (if tags.getLsbD i then n * e + x else n)
  | _, _, _, n => n
def Lift.flat (l : Lift) (tags : BitVec 4) (u : Tup) : Nat := flatFrom tags 0 l.exts u 0

/-- The tuples over a tag set in ascending flat number, from axis `i` on. -/
def tuplesFrom (tags : BitVec 4) : Nat → List Nat → List Tup
  | _, [] => [[]]
  | i, e :: r => (if tags.getLsbD i then List.range e else [0]).flatMap fun x => (tuplesFrom tags (i + 1) r).map fun u => x :: u
def Lift.tuples (l : Lift) (tags : BitVec 4) : List Tup := tuplesFrom tags 0 l.exts

/-- All open axes as a tag set. -/
def Lift.all (l : Lift) : BitVec 4 := BitVec.ofNat 4 (2 ^ l.axes.length - 1)
def Lift.count (l : Lift) (tags : BitVec 4) : Nat := (l.tuples tags).length
/-- The active set holds every tuple. -/
def Lift.full (l : Lift) : Bool := l.active == BitVec.ofNat 256 (2 ^ l.count l.all - 1)
def Lift.isActive (l : Lift) (u : Tup) : Bool := l.active.getLsbD (l.flat l.all u)

/-- What a tuple adds to a memory address (R309). -/
def Lift.offset (l : Lift) (u : Tup) : Word :=
  ((l.axes.zip u).map fun e => wordOf e.2 * e.1.stride).foldl (fun a b => a + b) 0

/-- The same sum without wrapping, the strides signed. -/
def Lift.offsetSum (l : Lift) (u : Tup) : Int :=
  ((l.axes.zip u).map fun e => (e.2 : Int) * e.1.stride.toInt).foldl (fun a b => a + b) 0

/-! ## Images (R305, R306) -/

def putRow (rows : Table Row) (r : Nat) (v : Row) : Table Row := if v = 0 then rows.drop r else rows.put r v

/-- The rows of an image of m`n`. -/
def State.image (s : State) (h : Word) (n img : Nat) : Table Row :=
  match s.task? h with
  | none => []
  | some t =>
    if img = 0 then (match t.pair with | some p => (s.tile p (t.phys n)).rows | none => [])
    else (t.lift.images.get n []).get img []

/-- Write an image. `ckpt` is true for a write that precedes the open region: the checkpoint's copy changes with it (R230). -/
def State.setImage (s : State) (h : Word) (n img : Nat) (rows : Table Row) (ckpt : Bool) : State :=
  match s.task? h with
  | none => s
  | some t =>
    if img = 0 then
      match t.pair with
      | some p => s.setTile p (t.phys n) { s.tile p (t.phys n) with rows := rows }
      | none => s
    else
      let put := fun (l : Lift) => { l with images := l.images.put n ((l.images.get n []).put img rows) }
      let old := ((t.region.ckpt.lift.images.get n []).find img).isSome
      s.setTask h { t with
        lift := put t.lift
        region := if ckpt && old then { t.region with ckpt := { t.region.ckpt with lift := put t.region.ckpt.lift } }
                  else t.region }

/-- Change the status of the tile that holds image 0 of m`n`. -/
def State.modStatus (s : State) (h : Word) (n : Nat) (f : Tile → Tile) : State :=
  match (s.task? h).bind fun t => t.pair.map fun p => (p, t.phys n) with
  | some (p, q) => s.setTile p q (f (s.tile p q))
  | none => s

def orTileFlags (flags : Nat) (t : Tile) : Tile := { t with flags := t.flags ||| BitVec.ofNat 8 flags }

/-- The tag set of m`n` of the acting hart's task; a number at or above its tile count has none. -/
def State.tagsOf (s : State) (n : Nat) : BitVec 4 :=
  match s.myTask.bind fun t => t.pair.map fun p => if n < t.tiles.length then (s.tile p (t.phys n)).axes else 0 with
  | some a => a
  | none => 0

/-- The tag set of a mask; k0 has none. -/
def Lift.maskTags (l : Lift) (k : KReg) : BitVec 4 := if k = 0 then 0 else l.masks[k.toNat].tags
/-- The image of a mask for a tuple; k0 is all ones. -/
def Lift.mask (l : Lift) (k : KReg) (u : Tup) : Mask :=
  if k = 0 then BitVec.allOnes 256 else l.masks[k.toNat].images.get (l.flat l.masks[k.toNat].tags u) 0
def Lift.setMask (l : Lift) (k : KReg) (u : Tup) (v : Mask) : Lift :=
  if k = 0 then l
  else
    let m := l.masks[k.toNat]
    { l with masks := l.masks.set k.toNat { m with images := m.images.put (l.flat m.tags u) v } }

def State.myLift (s : State) : Lift := match s.myTask with | some t => t.lift | none => Lift.zero
def State.modLift (s : State) (f : Lift → Lift) : State := s.modTaskOf s.cur fun t => { t with lift := f t.lift }

/-- The images of a register under a new tag set: those that share its indices, index 0 along an axis it loses (R315). -/
def retag {α : Type} (l : Lift) (new old : BitVec 4) (image : Nat → α) : Table α :=
  (l.tuples new).foldl (fun t u => t.put (l.flat new u) (image (l.flat old u))) []

/-- Give m`n` of the acting hart's task a tag set. -/
def State.retagTile (s : State) (n : Nat) (new : BitVec 4) : State :=
  match s.me.task with
  | none => s
  | some h =>
    let old := s.tagsOf n
    if old = new then s
    else
      let imgs := ((retag s.myLift new old) (fun i => s.image h n i)).drop 0
      (s.modLift fun l => { l with images := if imgs.isEmpty then l.images.drop n else l.images.put n imgs }).modStatus h n
        fun t => { t with axes := new }

def Lift.retagMask (l : Lift) (k : KReg) (new : BitVec 4) : Lift :=
  if k = 0 then l
  else
    let m := l.masks[k.toNat]
    if m.tags = new then l
    else { l with masks := l.masks.set k.toNat { tags := new, images := (retag l new m.tags) (fun i => m.images.get i 0) } }

/-! ## Spill storage (R306) -/

/-- The highest axis of a tag set. -/
def topAxis (tags : BitVec 4) : Nat :=
  if tags.getLsbD 3 then 3 else if tags.getLsbD 2 then 2 else if tags.getLsbD 1 then 1 else 0

/-- The spill stage of a register with this tag set. -/
def Lift.spillOf (l : Lift) (tags : BitVec 4) : Nat := ((l.axes[topAxis tags]?).map fun a => a.spill).getD 0

/-- The granules that a task holds in each spill stage. -/
def State.spillUse (s : State) (t : Task) : List (Nat × Nat) :=
  let l := t.lift
  let tiles := match t.pair with
    | some p => t.tiles.map fun q => (s.tile p q).axes
    | none => []
  tiles.map (fun a => (l.spillOf a, (l.count a - 1) * 256)) ++
  l.masks.toList.map (fun m => (l.spillOf m.tags, l.count m.tags - 1)) ++
  l.stack.map (fun e => (((l.axes[e.depth - 1]?).map fun a => a.spill).getD 0, 1)) ++
  t.region.imgShadow.map (fun x => (x.stage, x.granules))

def sumFor (n : Nat) : List (Nat × Nat) → Nat
  | [] => 0
  | e :: r => (if e.1 = n then e.2 else 0) + sumFor n r

/-- The granules held in a spill stage of a cluster, by every task that spills there. -/
def State.spillUsed (s : State) (c n : Nat) : Nat :=
  s.tasks.foldl (fun k e => if e.2.cluster = c then k + sumFor n (s.spillUse e.2) else k) 0

/-- Every spill stage of the task has room for what it holds. -/
def State.spillFits (s : State) : Bool :=
  match s.myTask with
  | none => true
  | some t => t.lift.axes.all fun a => decide (s.spillUsed t.cluster a.spill ≤ 2 * (s.stage t.cluster a.spill).size / 64)

/-- Accept an allocation made from `before`: when it does not fit, the region closes first if it holds shadows there, else
the instruction traps (R306). -/
def State.spillCheck (s before : State) : Except Exc State :=
  if s.spillFits then .ok s
  else match before.myTask with
    | some t => if t.region.imgShadow.isEmpty then .error (.trapWord 29 0x04) else .error (.autoClose 2)
    | none => .error (.trapWord 29 0x04)

/-- Take the shadows of the images of a register that are about to be written (R306). -/
def State.shadowImages (s : State) (reg : Nat) (tags : BitVec 4) (granules : Nat) (us : List Tup) : State :=
  if s.inRegion s.cur then
    let l := s.myLift
    us.foldl (fun s u =>
      let x : Spilled := { reg := reg, tags := tags, flat := l.flat tags u, stage := l.spillOf tags, granules := granules }
      if x.flat = 0 then s
      else s.modTaskOf s.cur fun t =>
        if t.region.imgShadow.contains x then t
        else { t with region := { t.region with imgShadow := t.region.imgShadow ++ [x] } }) s
  else s

/-! ## Operations and the scoreboard (R227, R230, R265) -/

def tileNum : MtOperand → List Nat
  | .tile t => [t.toNat]
  | .pad _ => []

/-- The row blocks of `mmag` minus one (R235). -/
def gangRb (g : BitVec 18) : Nat := (g.extractLsb' 7 3).toNat
def gangId (g : BitVec 18) : Nat := (g.extractLsb' 10 8).toNat
def gangMembers (g : BitVec 18) : Nat := (g.extractLsb' 0 4).toNat

/-- The tiles an operation writes. -/
def Op.writes (o : Op) : List Nat :=
  match o.kind with
  | .mst => []
  | .mmag => (List.range (gangRb o.gang + 1)).map fun i => o.md.toNat + i
  | _ => [o.md.toNat]

/-- The tiles in the tile fields of the operation's word. -/
def Op.fields (o : Op) : List Nat := o.md.toNat :: (tileNum o.a ++ tileNum o.b)

/-- The tiles an operation names, the row blocks of `mmag` among them. -/
def Op.names (o : Op) : List Nat := o.md.toNat :: (o.writes ++ tileNum o.a ++ tileNum o.b)

/-- The row blocks of an operation minus one. -/
def Op.lastBlock (o : Op) : Nat := if o.kind = .mmag then gangRb o.gang else 0
/-- All K-steps of the current row block are done, and of the last one: the operation has made its last read. -/
def Op.blockDone (o : Op) : Bool := o.steps == o.total
def Op.computed (o : Op) : Bool := o.block == o.lastBlock && o.blockDone

def State.opsOf (s : State) (h : Word) : List Op :=
  match (s.task? h).bind fun t => t.pair with
  | some p => (s.pair p).ops.filter fun o => o.task == h
  | none => []

/-- The accepted, incomplete operations of the acting hart's task. -/
def State.myOps (s : State) : List Op := match s.me.task with | some h => s.opsOf h | none => []

/-- An incomplete operation writes the tile. -/
def State.writer (s : State) (n : Nat) : Bool := s.myOps.any fun o => o.writes.contains n
/-- An incomplete operation writes the tile, or has not made its last read of it (R227). -/
def State.user (s : State) (n : Nat) : Bool :=
  s.myOps.any fun o => o.writes.contains n || (o.names.contains n && !(o.started && o.computed))

/-- The pending tag of m`n` (R265). -/
def State.pendingTag (s : State) (n : Nat) : Nat :=
  match (s.myOps.filter fun o => o.writes.contains n).getLast? with
  | some o => o.cf
  | none => match s.myTask.bind fun t => t.pair.map fun p => (s.tile p (t.phys n)).fmt with
    | some f => f.toNat
    | none => 0

/-- The lowest-numbered free tile of a pool (R221). -/
def State.freeOf (s : State) (p lo n : Nat) : Option Nat :=
  ((List.range n).map fun i => lo + i).find? fun q => (s.tile p q).owner.isNone

/-- Take the region shadow of m`n` at its first write in the open region (R40, R230). -/
def State.shadowTile (s : State) (n : Nat) : Except Exc State :=
  match s.inRegion s.cur, s.me.task, s.myTask with
  | true, some h, some t =>
    match t.pair with
    | none => .ok s
    | some p =>
      if (t.region.shadows.find n).isSome then .ok s
      else match s.freeOf p 16 16 with
        | none => .error (.autoClose 2)
        | some q =>
          let busy := s.myOps.any fun o => o.region != t.region.rseq && o.writes.contains n
          let x : Tile := if busy then { (default : Tile) with owner := some h } else { s.tile p (t.phys n) with owner := some h }
          .ok ((s.setTile p q x).modTask h fun t => { t with region :=
            { t.region with shadows := t.region.shadows.put n q,
                            uncopied := if busy then n :: t.region.uncopied else t.region.uncopied } })
  | _, _, _ => .ok s

def State.shadowTiles (s : State) : List Nat → Except Exc State
  | [] => .ok s
  | n :: r => match s.shadowTile n with
    | .ok s => s.shadowTiles r
    | .error e => .error e

/-- Copy the shadows that waited for writers of earlier regions, once these have completed (R230). -/
def copyShadows (h : Word) (p : Nat) : List Nat → State → State
  | [], s => s
  | n :: r, s =>
    let s := match s.task? h with
      | none => s
      | some t =>
        if (s.opsOf h).any fun o => o.region != t.region.rseq && o.writes.contains n then s
        else match t.region.shadows.find n with
          | none => s
          | some q => (s.setTile p q { s.tile p (t.phys n) with owner := some h }).modTask h fun t =>
              { t with region := { t.region with uncopied := t.region.uncopied.filter fun m => m != n } }
    copyShadows h p r s

/-! ## Checks that every tile word makes -/

/-- A fault of an operation that waits for the task is delivered here (R232, R261, R272). In S and M mode no region is open for a
poisoned operation to abort: the instruction traps with cause 28 and the fault still waits for the task (DESIGN CHOICE, log
70). -/
def State.opFaultAt (s : State) (hit : OpFault → Bool) : Except Exc Unit :=
  match s.me.task, s.myTask with
  | some h, some t => match t.opFaults.find? hit with
    | none => .ok ()
    | some f =>
      if !f.aborts then .error (.trapAfter (s.modTask h fun t => { t with opFaults := t.opFaults.erase f }) f.cause f.sub f.word)
      else if s.inRegion s.cur then .error (.opFault f)
      else .error (.trap f.cause f.sub 0)
  | _, _ => .ok ()

def State.opFaultOn (s : State) (tiles : List Nat) : Except Exc Unit :=
  s.opFaultAt fun f => f.tiles.any fun n => tiles.contains n

/-- A closing instruction at which such a fault is due does not execute, and its region has not closed. -/
def State.faultFirst (s : State) (i : Instr) (hit : OpFault → Bool) (run : Result) : Result :=
  match (if s.me.waiting.isNone then s.opFaultAt hit else .ok ()) with
  | .ok _ => run
  | .error e => .next (s.finishExc i e)

/-- The tile count of the task the hart runs or holds; 0 without one (R261). -/
def State.tileCount (s : State) : Nat := match s.myTask with | some t => t.desc.tiles | none => 0

def State.tilesBelow (s : State) (tiles : List Nat) : Except Exc Unit :=
  if tiles.all fun n => decide (n < s.tileCount) then .ok () else .error (.trapWord 28 0x01)

/-- The union of the tag sets of tiles and masks. -/
def State.unionTags (s : State) (tiles : List Nat) (masks : List KReg) : BitVec 4 :=
  let a := tiles.foldl (fun a n => a ||| s.tagsOf n) (0 : BitVec 4)
  masks.foldl (fun a k => a ||| s.myLift.maskTags k) a

/-- The set T of a word (R308, R311). -/
def State.liftSet (s : State) (tiles : List Nat) (masks : List KReg) : Except Exc (BitVec 4) :=
  let u := s.unionTags tiles masks
  if s.inRegion s.cur then .ok (if s.myLift.full then u else s.myLift.all)
  else if u = 0 then .ok 0 else .error (.trapWord 29 0x0A)

/-- The same for a word that never widens (R310): T must be empty. -/
def State.liftNone (s : State) (tiles : List Nat) (masks : List KReg) (sub : Nat) : Except Exc Unit :=
  if s.unionTags tiles masks = 0 then .ok ()
  else .error (.trapWord 29 (if s.inRegion s.cur then sub else 0x0A))

/-- The executions of a word over T (R308): outside a region the axis state is frozen and there is one. -/
def State.executions (s : State) (T : BitVec 4) : List Tup :=
  let l := s.myLift
  if s.inRegion s.cur then
    if l.full then l.tuples T else (l.tuples l.all).filter l.isActive
  else [l.axes.map fun _ => 0]

/-- Prepare the tile that a word writes: its region shadow, its tag set widened, the shadows of the images written. -/
def State.prepareTile (s : State) (n : Nat) (T : BitVec 4) (us : List Tup) : Except Exc State :=
  match s.shadowTile n with
  | .error e => .error e
  | .ok s =>
    let new := s.tagsOf n ||| T
    .ok ((s.retagTile n new).shadowImages n new 256 us)

/-- The same for a mask. -/
def State.prepareMask (s : State) (k : KReg) (T : BitVec 4) (us : List Tup) : State :=
  if k = 0 then s
  else
    let new := s.myLift.maskTags k ||| T
    (s.modLift fun l => l.retagMask k new).shadowImages (16 + k.toNat) new 1 us

end Sys2Proof.Machine
end

