-- ==== Sys2Proof/Machine/Rows.lean ====
section
/-! DEFINITION. The row instructions (R281 to R301) and their prefix (R100, R286). -/

namespace Sys2Proof.Machine

/-! ## What every row word does -/

/-- The prefix that governs a row word, its rounding mode resolved; without one, mask k0, merging and `vrm` (R100). -/
def State.mods (s : State) : Pfx :=
  match s.me.pfx with
  | some p => if p.rm = 7 then { p with rm := s.me.ctx.vrm } else p
  | none => { k := 0, zero := false, rm := s.me.ctx.vrm, fzi := false, fzo := false, t4 := 0, td := 0, x4 := 0 }

def State.rm (s : State) : Nat := s.mods.rm.toNat

/-- The destination of a row word (R286). -/
def State.rowTd (s : State) (td : TileReg) : TileReg := if s.mods.td = 0 then td else s.mods.td

/-- A number for the free values of this instruction (log 4). -/
def State.freshBase (s : State) : Nat := s.fresh * 2 ^ 20

/-- The row that a row register names. -/
def State.rowIdx (s : State) (xr : Reg) : Nat := bits (s.x xr) 0 6

/-- Row r of m`n` in the image of a tuple. -/
def State.row (s : State) (n : TileReg) (u : Tup) (r : Nat) : Nat :=
  match s.me.task with
  | some h => ((s.image h n.toNat (s.myLift.flat (s.tagsOf n.toNat) u)).get r 0).toNat
  | none => 0

/-- Write row r of m`n` in the image of a tuple, and OR flags into its status word (R283, R305). -/
def State.setRow (s : State) (n : TileReg) (u : Tup) (r v flags : Nat) : State :=
  match s.me.task with
  | some h =>
    let img := s.myLift.flat (s.tagsOf n.toNat) u
    (s.setImage h n.toNat img (putRow (s.image h n.toNat img) r (BitVec.ofNat 2048 v)) false).modStatus h n.toNat
      (orTileFlags flags)
  | none => s

def State.orFlagsOf (s : State) (n : TileReg) (flags : Nat) : State :=
  match s.me.task with
  | some h => s.modStatus h n.toNat (orTileFlags flags)
  | none => s

/-- What a row word writes: rows of a tile, only the flags of its first source, such flags before the next region opens, a
mask with such flags, or no tile. -/
inductive RowDst
  | rows (n : TileReg)
  | flags (n : TileReg)
  | closing (n : TileReg)
  | mask (k : KReg) (n : TileReg)
  | nothing
  deriving DecidableEq, Repr

def RowDst.tile : RowDst → Option TileReg
  | .rows n | .flags n | .closing n | .mask _ n => some n
  | .nothing => none

/-- The tile whose rows are written, for which the word waits until the last read of it (R227). -/
def RowDst.written : RowDst → Option TileReg
  | .rows n => some n
  | .flags _ | .closing _ | .mask _ _ | .nothing => none

/-- The wait for a tile: a stop abandons that of a closing instruction, which has made no effect yet (R301). -/
def RowDst.wait : RowDst → WaitKind
  | .closing _ => .late
  | .rows _ | .flags _ | .mask _ _ | .nothing => .short

def RowDst.masks : RowDst → List KReg
  | .mask k _ => [k]
  | _ => []

/-- Shadows and widening before the executions of a row word (R284, R308). -/
def State.prepareRow (s : State) (d : RowDst) (T : BitVec 4) (us : List Tup) : Except Exc State :=
  match d with
  | .rows n => s.prepareTile n.toNat T us
  | .flags n => s.shadowTile n.toNat
  | .mask k n => (s.shadowTile n.toNat).map fun s => s.prepareMask k T us
  | .closing _ | .nothing => .ok s

/-- A trap in a later execution leaves what the earlier ones wrote (R308). -/
def Exc.after (s : State) : Exc → Exc
  | .trap cause sub tval => .trapAfter s cause sub tval
  | e => e

/-- The executions after the first: an automatic close falls between two of them (R43, R308). -/
def runRest (one : State → Tup → Except Exc State) : List Tup → State → Except Exc State
  | [], s => .ok s
  | u :: r, s =>
    match one s u with
    | .ok s => runRest one r s
    | .error (.autoClose code) =>
      let t := s.autoClose code
      if (t.ending? t.cur).isSome then .error (.endsAfter t)
      else match one t u with
        | .ok s => runRest one r s
        | .error e => .error (e.after t)
    | .error e => .error (e.after s)

def runAll (one : State → Tup → Except Exc State) (us : List Tup) (s : State) : Except Exc State :=
  match us with
  | [] => .ok s
  | u :: r => match one s u with
    | .ok s => runRest one r s
    | .error e => .error e

/-- An armed detector of tile memory reports one corrected error at its next check (R233, R234). -/
def State.checkTmem (s : State) : State :=
  if (s.pair (pairOf s.cur)).errTmem then
    let s := s.modPair (pairOf s.cur) fun k => { k with errTmem := false }
    match s.me.task with
    | some h => s.correct h
    | none => s
  else s

/-- A row word (R284, R285, R308): a fault that waits for its tiles, its tile numbers, its tags, the lift, the scoreboard,
then shadows and widening and one execution for each tuple. `scalar` marks a word that never widens (R310). -/
def State.rowWord (s : State) (reads : List TileReg) (d : RowDst) (scalar tagsOk : Bool)
    (one : State → Tup → Except Exc State) : Except Exc State := do
  let named := (reads ++ d.tile.toList).map fun n => n.toNat
  let masks := s.mods.k :: d.masks
  s.opFaultOn named
  s.tilesBelow named
  if !tagsOk then .error (.trapWord 28 0x04)
  if scalar then s.liftNone named masks 0x05
  let T ← if scalar then .ok (0 : BitVec 4) else s.liftSet named masks
  if named.any s.writer || (d.written.any fun n => s.user n.toNat) then .error (.wait d.wait)
  let us := if scalar then [s.myLift.axes.map fun _ => 0] else s.executions T
  let t ← s.prepareRow d T us
  let t ← t.spillCheck s
  let t ← runAll one us t
  pure t.checkTmem.useFresh

/-- The tag of a tile as a row word sees it. -/
def State.tag (s : State) (n : TileReg) : Nat := s.pendingTag n.toNat
def State.tileLay (s : State) (n : TileReg) : Lay := s.lay (s.tag n)
def State.sameTags (s : State) : List TileReg → Bool
  | [] => true
  | n :: r => r.all fun m => s.tag m == s.tag n

/-- The mask of an execution as the test for an active element of a row of n. -/
def State.active (s : State) (u : Tup) (n : Nat) : Nat → Bool := elemActive (s.myLift.mask s.mods.k u) n

/-- An element-wise word: the destination row, from the codes of the source rows at each element. -/
def State.rowCodes (s : State) (td : TileReg) (srcs : List (TileReg × Nat)) (r : Nat) (tagsOk : Bool)
    (f : Lay → Nat → List Nat → Nat × Nat) : Except Exc State :=
  s.rowWord (srcs.map fun e => e.1) (.rows td) false tagsOk fun s u =>
    let l := s.tileLay td
    let rows := srcs.map fun e => s.row e.1 u e.2
    let v := mapElems l (s.active u l.count) s.mods.zero (fun i => f l i (rows.map fun w => l.code w i)) (s.row td u r)
    .ok (s.setRow td u r v.1 v.2)

/-- An element-wise word over decoded values, rounded once into the tag (R283, R287). -/
def State.rowNums (s : State) (td : TileReg) (srcs : List (TileReg × Nat)) (r : Nat) (tagsOk : Bool)
    (f : List Num → NumF) : Except Exc State :=
  s.rowCodes td srcs r tagsOk fun l i cs =>
    let x := f (cs.map fun c => l.f.flushIn s.mods.fzi (l.f.decode c))
    let y := l.f.round s.rm s.mods.fzo (s.freshBase + i) x.1
    (y.1, orFlags x.2 y.2)

/-- The same for words that select one of their inputs: never flushed by FZO (R287). -/
def State.rowPick (s : State) (td : TileReg) (srcs : List (TileReg × Nat)) (r : Nat) (tagsOk : Bool)
    (f : List Num → NumF) : Except Exc State :=
  s.rowCodes td srcs r tagsOk fun l i cs =>
    let x := f (cs.map fun c => l.f.flushIn s.mods.fzi (l.f.decode c))
    let y := l.f.round s.rm false (s.freshBase + i) x.1
    (y.1, orFlags x.2 y.2)

def Lay.isFloat (l : Lay) : Bool := !l.isBlock && l.kind == 1
def Lay.isInt (l : Lay) : Bool := !l.isBlock && (l.kind == 2 || l.kind == 3)
def Lay.isNumber (l : Lay) : Bool := l.isFloat || l.isInt

def at1 (l : List Num) : Num := l.getD 0 (.nan false)
def at2 (l : List Num) : Num := l.getD 1 (.nan false)
def at3 (l : List Num) : Num := l.getD 2 (.nan false)

/-! ## Floating-point elements (R287) -/

/-- A binary word on tags of kind 1. -/
def State.floatTwo (s : State) (td ta tb : TileReg) (xr : Reg) (f : Nat → Num → Num → NumF) : Except Exc State :=
  let d := s.rowTd td
  let r := s.rowIdx xr
  s.rowNums d [(ta, r), (tb, r)] r (s.sameTags [d, ta, tb] && (s.tileLay d).isFloat) fun l => f s.rm (at1 l) (at2 l)

def State.floatPick (s : State) (td ta tb : TileReg) (xr : Reg) (max : Bool) : Except Exc State :=
  let d := s.rowTd td
  let r := s.rowIdx xr
  s.rowPick d [(ta, r), (tb, r)] r (s.sameTags [d, ta, tb] && (s.tileLay d).isFloat) fun l => (at1 l).pick max (at2 l)

/-- A unary word on tags of kind 1. -/
def State.floatOne (s : State) (td ta : TileReg) (xr : Reg) (f : Num → NumF) : Except Exc State :=
  let d := s.rowTd td
  let r := s.rowIdx xr
  s.rowNums d [(ta, r)] r (s.sameTags [d, ta] && (s.tileLay d).isFloat) fun l => f (at1 l)

/-- A word of R291 to R293: both tags FP32. -/
def State.floatTable (s : State) (td ta : TileReg) (xr : Reg) (f : Nat → Bool → Num → Nat × Nat) : Except Exc State :=
  let d := s.rowTd td
  let r := s.rowIdx xr
  s.rowCodes d [(ta, r)] r (s.tag d == 1 && s.tag ta == 1) fun l _ cs =>
    f s.rm s.mods.fzo (l.f.flushIn s.mods.fzi (l.f.decode (cs.headD 0)))

def execVadd (td ta tb : TileReg) (xr : Reg) (s : State) : Result :=
  runOpen (.vadd td ta tb xr) s fun s => s.floatTwo td ta tb xr fun rm a b => a.add rm b
def execVsub (td ta tb : TileReg) (xr : Reg) (s : State) : Result :=
  runOpen (.vsub td ta tb xr) s fun s => s.floatTwo td ta tb xr fun rm a b => a.add rm b.neg
def execVmul (td ta tb : TileReg) (xr : Reg) (s : State) : Result :=
  runOpen (.vmul td ta tb xr) s fun s => s.floatTwo td ta tb xr fun _ a b => a.mul b
def execVdiv (td ta tb : TileReg) (xr : Reg) (s : State) : Result :=
  runOpen (.vdiv td ta tb xr) s fun s => s.floatTwo td ta tb xr fun _ a b => a.div b
/-- `vfma`: the addend is the destination row, or the row that the prefix names (R286). -/
def execVfma (td ta tb : TileReg) (xr : Reg) (s : State) : Result :=
  runOpen (.vfma td ta tb xr) s fun s =>
    let d := s.rowTd td
    let r := s.rowIdx xr
    let c : TileReg × Nat := if s.mods.t4 = 0 then (d, r) else (s.mods.t4, s.rowIdx s.mods.x4)
    s.rowNums d [(ta, r), (tb, r), c] r (s.sameTags [d, ta, tb, c.1] && (s.tileLay d).isFloat) fun l =>
      (at1 l).fma s.rm (at2 l) (at3 l)
def execVmin (td ta tb : TileReg) (xr : Reg) (s : State) : Result :=
  runOpen (.vmin td ta tb xr) s fun s => s.floatPick td ta tb xr false
def execVmax (td ta tb : TileReg) (xr : Reg) (s : State) : Result :=
  runOpen (.vmax td ta tb xr) s fun s => s.floatPick td ta tb xr true
def execVsqrt (td ta : TileReg) (xr : Reg) (s : State) : Result :=
  runOpen (.vsqrt td ta xr) s fun s => s.floatOne td ta xr Num.sqrt
def execVrsq (td ta : TileReg) (xr : Reg) (s : State) : Result :=
  runOpen (.vrsq td ta xr) s fun s => s.floatOne td ta xr Num.rsqrt
def execVrcp (td ta : TileReg) (xr : Reg) (s : State) : Result :=
  runOpen (.vrcp td ta xr) s fun s => s.floatOne td ta xr fun a => Num.one.div a
def execVexp2 (td ta : TileReg) (xr : Reg) (s : State) : Result :=
  runOpen (.vexp2 td ta xr) s fun s => s.floatTable td ta xr exp2Of
def execVlog2 (td ta : TileReg) (xr : Reg) (s : State) : Result :=
  runOpen (.vlog2 td ta xr) s fun s => s.floatTable td ta xr log2Of
def execVtanh (td ta : TileReg) (xr : Reg) (s : State) : Result :=
  runOpen (.vtanh td ta xr) s fun s => s.floatTable td ta xr tanhOf

/-! ## Moves, selection, comparison (R288 to R290) -/

/-- `vmov` (R288): a block tag only under k0, its row copied whole. -/
def execVmov (td ta : TileReg) (xr : Reg) (s : State) : Result :=
  runOpen (.vmov td ta xr) s fun s =>
    let d := s.rowTd td
    let r := s.rowIdx xr
    let ok := s.sameTags [d, ta] && (!(s.tileLay d).isBlock || s.mods.k == 0)
    if (s.tileLay d).isBlock then
      s.rowWord [ta] (.rows d) false ok fun s u => .ok (s.setRow d u r (s.row ta u r) 0)
    else s.rowCodes d [(ta, r)] r ok fun _ _ cs => (cs.headD 0, 0)

def signPlace (f : Fmt) : Nat := 2 ^ (f.width - 1)

/-- A word on the sign bits of the codes (R288). -/
def State.signWord (s : State) (td ta : TileReg) (xr : Reg) (f : Nat → Nat → Nat) : Except Exc State :=
  let d := s.rowTd td
  let r := s.rowIdx xr
  s.rowCodes d [(ta, r)] r (s.sameTags [d, ta] && (s.tileLay d).isFloat && (s.tileLay d).f.sign) fun l _ cs =>
    (f (signPlace l.f) (cs.headD 0), 0)

def execVneg (td ta : TileReg) (xr : Reg) (s : State) : Result :=
  runOpen (.vneg td ta xr) s fun s => s.signWord td ta xr fun b c => if c < b then c + b else c - b
def execVabs (td ta : TileReg) (xr : Reg) (s : State) : Result :=
  runOpen (.vabs td ta xr) s fun s => s.signWord td ta xr fun b c => c % b

/-- `vperm` (R288): ta's row is read whole before a write. -/
def execVperm (td ta tb : TileReg) (xr : Reg) (s : State) : Result :=
  runOpen (.vperm td ta tb xr) s fun s =>
    let d := s.rowTd td
    let r := s.rowIdx xr
    let ok := s.sameTags [d, ta] && !(s.tileLay d).isBlock && (s.tileLay tb).isInt &&
      decide ((s.tileLay d).count ≤ (s.tileLay tb).count)
    s.rowWord [ta, tb] (.rows d) false ok fun s u =>
      let l := s.tileLay d
      let lb := s.tileLay tb
      let src := s.row ta u r
      let idx := s.row tb u r
      let f := fun i => match lb.f.decode (lb.code idx i) with
        | .fin neg m _ => (if m = 0 ∨ (!neg ∧ m < l.count) then l.code src m else 0, 0)
        | _ => (0, 0)
      let v := mapElems l (s.active u l.count) s.mods.zero f (s.row d u r)
      .ok (s.setRow d u r v.1 v.2)

/-- `vsel` (R289): the mask selects, and every element is written. -/
def execVsel (td ta tb : TileReg) (xr : Reg) (s : State) : Result :=
  runOpen (.vsel td ta tb xr) s fun s =>
    let d := s.rowTd td
    let r := s.rowIdx xr
    s.rowWord [ta, tb] (.rows d) false (s.sameTags [d, ta, tb] && !(s.tileLay d).isBlock) fun s u =>
      let l := s.tileLay d
      let act := s.active u l.count
      let a := s.row ta u r
      let b := s.row tb u r
      let v := mapElems l (fun _ => true) false (fun i => (if act i then l.code a i else l.code b i, 0)) (s.row d u r)
      .ok (s.setRow d u r v.1 0)

/-- The bits and flags of a comparison (R290). -/
def cmpMask (n : Nat) (act : Nat → Bool) (zero : Bool) (old : Mask) (f : Nat → Bool × Nat) : Mask × Nat :=
  (List.range 256).foldl (fun (r : Mask × Nat) i =>
    let bit := fun (v : Bool) => (r.1 &&& ~~~(BitVec.ofNat 256 (2 ^ i))) ||| (if v then BitVec.ofNat 256 (2 ^ i) else 0)
    if i ≥ n then (bit false, r.2)
    else if act i then (bit (f i).1, orFlags r.2 (f i).2)
    else if zero then (bit false, r.2)
    else r) (old, 0)

/-- A comparison into mask kd: the flags go to ta. `quiet` is true where only a signalling NaN sets nv. -/
def State.compare (s : State) (kd : KReg) (ta tb : TileReg) (xr : Reg) (quiet : Bool) (f : Ordering → Bool) :
    Except Exc State :=
  let r := s.rowIdx xr
  let ok := s.sameTags [ta, tb] && (s.tileLay ta).isNumber && decide ((s.tileLay ta).count ≤ 256)
  s.rowWord [ta, tb] (.mask kd ta) false ok fun s u =>
    let l := s.tileLay ta
    let a := s.row ta u r
    let b := s.row tb u r
    let one := fun i =>
      let x := l.valueIn s.mods.fzi a i
      let y := l.valueIn s.mods.fzi b i
      match x.cmp y with
      | some o => (f o, 0)
      | none => (false, if !quiet || x.isSnan || y.isSnan then flagNv else 0)
    let v := cmpMask l.count (s.active u l.count) s.mods.zero (s.myLift.mask kd u) one
    .ok ((s.modLift fun k => k.setMask kd u v.1).orFlagsOf ta v.2)

def execVcmpEq (kd : KReg) (ta tb : TileReg) (xr : Reg) (s : State) : Result :=
  runOpen (.vcmpEq kd ta tb xr) s fun s => s.compare kd ta tb xr true fun o => o == .eq
def execVcmpLt (kd : KReg) (ta tb : TileReg) (xr : Reg) (s : State) : Result :=
  runOpen (.vcmpLt kd ta tb xr) s fun s => s.compare kd ta tb xr false fun o => o == .lt
def execVcmpLe (kd : KReg) (ta tb : TileReg) (xr : Reg) (s : State) : Result :=
  runOpen (.vcmpLe kd ta tb xr) s fun s => s.compare kd ta tb xr false fun o => o != .gt

/-! ## Integer elements (R294) -/

def State.intOk (s : State) (d ta tb : TileReg) : Bool := s.sameTags [d, ta, tb] && (s.tileLay d).isInt

def State.intTwo (s : State) (td ta tb : TileReg) (xr : Reg) (f : Num → Num → NumF) : Except Exc State :=
  let d := s.rowTd td
  let r := s.rowIdx xr
  s.rowNums d [(ta, r), (tb, r)] r (s.intOk d ta tb) fun l => f (at1 l) (at2 l)

def State.intCodes (s : State) (td ta tb : TileReg) (xr : Reg) (op : CodeOp) : Except Exc State :=
  let d := s.rowTd td
  let r := s.rowIdx xr
  s.rowCodes d [(ta, r), (tb, r)] r (s.intOk d ta tb) fun l _ cs => (l.f.codeOp op (cs.getD 0 0) (cs.getD 1 0), 0)

def execViadd (td ta tb : TileReg) (xr : Reg) (s : State) : Result :=
  runOpen (.viadd td ta tb xr) s fun s => s.intTwo td ta tb xr fun a b => a.add 0 b
def execVisub (td ta tb : TileReg) (xr : Reg) (s : State) : Result :=
  runOpen (.visub td ta tb xr) s fun s => s.intTwo td ta tb xr fun a b => a.add 0 b.neg
def execVimul (td ta tb : TileReg) (xr : Reg) (s : State) : Result :=
  runOpen (.vimul td ta tb xr) s fun s => s.intTwo td ta tb xr Num.mul
def execVand (td ta tb : TileReg) (xr : Reg) (s : State) : Result :=
  runOpen (.vand td ta tb xr) s fun s => s.intCodes td ta tb xr .and
def execVor (td ta tb : TileReg) (xr : Reg) (s : State) : Result :=
  runOpen (.vor td ta tb xr) s fun s => s.intCodes td ta tb xr .or
def execVxor (td ta tb : TileReg) (xr : Reg) (s : State) : Result :=
  runOpen (.vxor td ta tb xr) s fun s => s.intCodes td ta tb xr .xor
def execVshl (td ta tb : TileReg) (xr : Reg) (s : State) : Result :=
  runOpen (.vshl td ta tb xr) s fun s => s.intCodes td ta tb xr .shl
def execVsrl (td ta tb : TileReg) (xr : Reg) (s : State) : Result :=
  runOpen (.vsrl td ta tb xr) s fun s => s.intCodes td ta tb xr .srl
def execVsra (td ta tb : TileReg) (xr : Reg) (s : State) : Result :=
  runOpen (.vsra td ta tb xr) s fun s => s.intCodes td ta tb xr .sra
def execVimin (td ta tb : TileReg) (xr : Reg) (s : State) : Result :=
  runOpen (.vimin td ta tb xr) s fun s => s.intCodes td ta tb xr .min
def execVimax (td ta tb : TileReg) (xr : Reg) (s : State) : Result :=
  runOpen (.vimax td ta tb xr) s fun s => s.intCodes td ta tb xr .max

/-! ## Scalar and element words (R295, R296) -/

/-- The scalar of x[rs] under an entry: the low w bits. -/
def Fmt.scalar (f : Fmt) (v : Word) : Nat := v.toNat % 2 ^ f.width

/-- A scalar form: element op scalar, from tds into tds or td′. -/
def State.scalarWord (s : State) (tds : TileReg) (rs xr : Reg) (f : Nat → Num → Num → NumF) : Except Exc State :=
  let d := s.rowTd tds
  let r := s.rowIdx xr
  let v := s.x rs
  s.rowCodes d [(tds, r)] r (s.sameTags [d, tds] && (s.tileLay d).isNumber) fun l i cs =>
    let dec := fun c => l.f.flushIn s.mods.fzi (l.f.decode c)
    let x := f s.rm (dec (cs.headD 0)) (dec (l.f.scalar v))
    let y := l.f.round s.rm s.mods.fzo (s.freshBase + i) x.1
    (y.1, orFlags x.2 y.2)

/-- vmaxs and vmins: a selected input, not flushed by FZO; for integers no flag. -/
def State.scalarPick (s : State) (tds : TileReg) (rs xr : Reg) (max : Bool) : Except Exc State :=
  let d := s.rowTd tds
  let r := s.rowIdx xr
  let v := s.x rs
  s.rowCodes d [(tds, r)] r (s.sameTags [d, tds] && (s.tileLay d).isNumber) fun l i cs =>
    let dec := fun c => l.f.flushIn s.mods.fzi (l.f.decode c)
    let x := (dec (cs.headD 0)).pick max (dec (l.f.scalar v))
    let y := l.f.round s.rm false (s.freshBase + i) x.1
    (y.1, orFlags x.2 y.2)

def execVadds (tds : TileReg) (rs xr : Reg) (s : State) : Result :=
  runOpen (.vadds tds rs xr) s fun s => s.scalarWord tds rs xr fun rm a b => a.add rm b
def execVsubs (tds : TileReg) (rs xr : Reg) (s : State) : Result :=
  runOpen (.vsubs tds rs xr) s fun s => s.scalarWord tds rs xr fun rm a b => a.add rm b.neg
def execVmuls (tds : TileReg) (rs xr : Reg) (s : State) : Result :=
  runOpen (.vmuls tds rs xr) s fun s => s.scalarWord tds rs xr fun _ a b => a.mul b
def execVmaxs (tds : TileReg) (rs xr : Reg) (s : State) : Result :=
  runOpen (.vmaxs tds rs xr) s fun s => s.scalarPick tds rs xr true
def execVmins (tds : TileReg) (rs xr : Reg) (s : State) : Result :=
  runOpen (.vmins tds rs xr) s fun s => s.scalarPick tds rs xr false

def execVbcast (tds : TileReg) (rs xr : Reg) (s : State) : Result :=
  runOpen (.vbcast tds rs xr) s fun s =>
    let d := s.rowTd tds
    s.rowCodes d [] (s.rowIdx xr) (!(s.tileLay d).isBlock) fun l _ _ => (l.f.scalar (s.x rs), 0)

/-- `viota`: x[rs] as a signed number plus the element's index, rounded. -/
def execViota (tds : TileReg) (rs xr : Reg) (s : State) : Result :=
  runOpen (.viota tds rs xr) s fun s =>
    let d := s.rowTd tds
    s.rowCodes d [] (s.rowIdx xr) (s.tileLay d).isNumber fun l i _ =>
      l.f.round s.rm s.mods.fzo (s.freshBase + i) (Num.ofInt ((s.x rs).toInt + i))

/-- The element that a row register of vext and vins names (R296). -/
def State.elemIdx (s : State) (xr : Reg) : Nat := bits (s.x xr) 8 8

/-- A row instruction's tuple when it never widens. -/
def State.noTuple (s : State) : Tup := s.myLift.axes.map fun _ => 0

def execVext (rs : Reg) (tds : TileReg) (xr : Reg) (s : State) : Result :=
  runOpen (.vext rs tds xr) s fun s =>
    s.rowWord [tds] .nothing true (!(s.tileLay tds).isBlock) fun s u =>
      let l := s.tileLay tds
      let j := s.elemIdx xr
      .ok (s.setX rs (if j < l.count then l.f.toReg (l.code (s.row tds u (s.rowIdx xr)) j) else 0))

def execVins (tds : TileReg) (rs xr : Reg) (s : State) : Result :=
  runOpen (.vins tds rs xr) s fun s =>
    let d := s.rowTd tds
    let r := s.rowIdx xr
    s.rowWord [] (.rows d) false (!(s.tileLay d).isBlock) fun s u =>
      let l := s.tileLay d
      let j := s.elemIdx xr
      if j < l.count then .ok (s.setRow d u r (l.trim (l.setCode (s.row d u r) j (l.f.scalar (s.x rs)))) 0) else .ok s

/-! ## Reductions (R297) -/

/-- A reduction of the active elements into x[rs], its flags into tds. -/
def State.reduce (s : State) (rs : Reg) (tds : TileReg) (xr : Reg) (f : Lay → List Num → Nat × Nat) : Except Exc State :=
  s.rowWord [tds] (.flags tds) true (s.tileLay tds).isNumber fun s u =>
    let l := s.tileLay tds
    let v := f l (activeValues l s.mods.fzi (s.active u l.count) (s.row tds u (s.rowIdx xr)))
    .ok ((s.setX rs (l.f.toReg v.1)).orFlagsOf tds v.2)

/-- The sum, rounded once. -/
def sumCode (f : Fmt) (rm : Nat) (fzo : Bool) (fresh : Nat) (xs : List Num) : Nat × Nat :=
  let x := sumAll rm xs
  let y := f.round rm fzo fresh x.1
  (y.1, orFlags x.2 y.2)

/-- The largest or smallest value, exact. -/
def pickCode (f : Fmt) (max : Bool) (fresh : Nat) (xs : List Num) : Nat × Nat :=
  if xs.isEmpty then (f.farthest max, 0)
  else
    let x := Num.pickAll max xs
    let y := f.round 0 false fresh x.1
    (y.1, orFlags x.2 y.2)

def execVrsum (rs : Reg) (tds : TileReg) (xr : Reg) (s : State) : Result :=
  runOpen (.vrsum rs tds xr) s fun s => s.reduce rs tds xr fun l xs => sumCode l.f s.rm s.mods.fzo s.freshBase xs
def execVrmax (rs : Reg) (tds : TileReg) (xr : Reg) (s : State) : Result :=
  runOpen (.vrmax rs tds xr) s fun s => s.reduce rs tds xr fun l xs => pickCode l.f true s.freshBase xs
def execVrmin (rs : Reg) (tds : TileReg) (xr : Reg) (s : State) : Result :=
  runOpen (.vrmin rs tds xr) s fun s => s.reduce rs tds xr fun l xs => pickCode l.f false s.freshBase xs

/-! ## vcvt (R298) -/

def execVcvt (td tds : TileReg) (p : BitVec 3) (xr : Reg) (s : State) : Result :=
  runOpen (.vcvt td tds p xr) s fun s =>
    let d := s.rowTd td
    let r := s.rowIdx xr
    let src := s.tileLay tds
    let dst := s.tileLay d
    let ps := cvtPairs src.count dst.count p.toNat
    let ok := src.kind != 4 && dst.kind != 4 && (!dst.isBlock || (s.mods.k == 0 && wholeBlocks dst.b ps))
    s.rowWord [tds] (.rows d) false ok fun s u =>
      let row := s.row tds u r
      let v := match dst.scale with
        | some g => cvtBlocks src dst g s.rm s.mods.fzi s.mods.fzo s.freshBase row ps (s.row d u r, 0)
        | none => cvtElems src dst s.rm s.mods.fzi s.mods.fzo s.mods.zero s.freshBase (s.active u dst.count) row ps
            (s.row d u r, 0)
      .ok (s.setRow d u r (dst.trim v.1) v.2)

/-! ## Memory addresses (R285) -/

/-- An address fault of a row word reports the row word (R285); a stage fault reports the address (R351). -/
def Exc.ofRow {α : Type} (word : Word) : Except Exc α → Except Exc α
  | .error (.trap cause sub tval) => .error (.trap cause sub (if 4 ≤ cause ∧ cause ≤ 7 then word else tval))
  | r => r

/-! ## vqmx (R299) -/

/-- The new code of the location: the old one when no element is active, else the larger by value. -/
def qmxCode (f : Fmt) (fresh : Nat) (xs : List Num) (old : Nat) : Nat × Nat :=
  if xs.isEmpty then (old, 0)
  else
    let m := Num.pickAll true xs
    let x := (f.decode old).pick true m.1
    let y := f.round 0 false fresh x.1
    (y.1, orFlags m.2 (orFlags x.2 y.2))

def execVqmx (rs : Reg) (tds : TileReg) (scope : BitVec 3) (xr : Reg) (s : State) : Result :=
  s.faultFirst (.vqmx rs tds scope xr) (fun f => f.tiles.contains tds.toNat) <|
  runClosing false (.vqmx rs tds scope xr) s fun s =>
    let l := s.tileLay tds
    let w := l.f.width
    let ok := l.isNumber && (w == 8 || w == 16 || w == 32 || w == 64)
    s.rowWord [tds] (.closing tds) true ok fun s u => do
      let xs := activeValues l s.mods.fzi (s.active u l.count) (s.row tds u (s.rowIdx xr))
      let (t, old) ← Exc.ofRow (wordOfInstr (.vqmx rs tds scope xr)) <| s.rmw (s.x rs) (w / 8) fun old => leBytes (w / 8) (qmxCode l.f s.freshBase xs (leNat old)).1
      let v := qmxCode l.f s.freshBase xs (leNat old)
      let t := t.modMe fun x => { x with resv := none }
      pure (((t.setX rs (wordOf v.1)).orFlagsOf tds v.2).countClamp scope.toNat)

/-! ## vld, vst (R300, R309) -/

def rowOffset (off : BitVec 3) : Word := wordOf (256 * off.toNat)

/-- The address of one execution. -/
def State.rowAddr (s : State) (rs1 : Reg) (off : BitVec 3) (u : Tup) : Word :=
  s.x rs1 + rowOffset off + s.myLift.offset u

/-- The same sum without wrapping, which must lie in the address space (R48, log 64). -/
def State.rowSum (s : State) (rs1 : Reg) (off : BitVec 3) (u : Tup) : Int :=
  ((s.x rs1).toNat : Int) + (256 * off.toNat : Nat) + s.myLift.offsetSum u

def State.rowPlace (s : State) (word : Word) (acc : Acc) (rs1 : Reg) (off : BitVec 3) (u : Tup) : Except Exc Word :=
  let a := s.rowSum rs1 off u
  if 0 ≤ a ∧ a < 2 ^ 64 then .ok (s.rowAddr rs1 off u) else .error (.trap acc.faultCause 0 word)

def execVld (td : TileReg) (rs1 : Reg) (off : BitVec 3) (xr : Reg) (s : State) : Result :=
  runOpen (.vld td rs1 off xr) s fun s =>
    let d := s.rowTd td
    let r := s.rowIdx xr
    s.rowWord [] (.rows d) false (!(s.tileLay d).isBlock || s.mods.k == 0) fun s u => do
      let word := wordOfInstr (.vld td rs1 off xr)
      let a ← s.rowPlace word .load rs1 off u
      let (t, bs) ← Exc.ofRow word (s.load a 256 64)
      let l := t.tileLay d
      let new := leNat bs
      let v := if l.isBlock then new
        else (mapElems l (t.active u l.count) t.mods.zero (fun i => (l.code new i, 0)) (t.row d u r)).1
      pure (t.setRow d u r v 0)

/-- The units that a merging `vst` stores: byte offset and bytes of each (R300). -/
def mergeUnits (l : Lay) (act : Nat → Bool) (row : Nat) : List (Nat × List Byte) :=
  let n := l.f.width / 8
  ((List.range l.count).filter act).flatMap fun i =>
    let bs := leBytes n (l.code row i)
    if n = 1 ∨ n = 2 ∨ n = 4 ∨ n = 8 then [(i * n, bs)]
    else bs.zipIdx.map fun b => (i * n + b.2, [b.1])

def storeParts (ls : List (Loc × Nat)) (h : Nat) (a : Word) : List (Nat × List Byte) → State → Except Exc State
  | [], s => .ok s
  | (o, bs) :: r, s =>
    let l := (ls.getD (o / 8) (default, 0)).1
    match storeUnit s h (a + wordOf o) { l with pa := l.pa + o % 8, gpa := l.gpa + o % 8 } bs with
    | .ok s => storeParts ls h a r s
    | .error e => .error e

def execVst (td : TileReg) (rs1 : Reg) (off : BitVec 3) (xr : Reg) (s : State) : Result :=
  runOpen (.vst td rs1 off xr) s fun s =>
    let r := s.rowIdx xr
    let lay := s.tileLay td
    s.rowWord [td] .nothing false (s.mods.k == 0 || (!lay.isBlock && lay.f.width % 8 == 0)) fun s u => do
      let word := wordOfInstr (.vst td rs1 off xr)
      let a ← s.rowPlace word .store rs1 off u
      let (t, ls) ← Exc.ofRow word (resolve s (s.view .store) .store a 256 64)
      let l := t.tileLay td
      let act := t.active u l.count
      let row := t.row td u r
      if t.mods.k = 0 then storeUnits t t.cur a ls (leBytes 256 row)
      else if t.mods.zero then
        let v := (mapElems l act true (fun i => (l.code row i, 0)) row).1
        storeUnits t t.cur a ls (leBytes 256 v)
      else storeParts ls t.cur a (mergeUnits l act row) t

/-! ## vpfx (R100, R101, R286) -/

/-- The row word does not take a destination from its prefix. -/
def refusesTd : Instr → Bool
  | .vcmpEq .. | .vcmpLt .. | .vcmpLe .. | .vext .. | .vrsum .. | .vrmax .. | .vrmin .. | .vqmx .. | .vst .. => true
  | _ => false

/-- The prefix fits the word that follows it. -/
def pfxFits (p : Pfx) (w : W32) : Bool :=
  isRowWord w &&
    match decodeWord w with
    | .ok (.vfma ..) => p.t4 != 0 || p.x4 == 0
    | .ok i => p.t4 == 0 && p.x4 == 0 && !(refusesTd i && p.td != 0)
    | .error _ => true

/-- The word after the one at the pc, in the same fetch block. -/
def State.nextWord (s : State) : W32 :=
  match s.fetchWord with
  | .ok (t, _, a) =>
    BitVec.ofNat 32 (leNat (t.ownUnits [({ pa := a + 4, gpa := 0, window := false, free := false }, 4)]))
  | .error _ => 0

/-- The prefix waits in the hart for its row word, and has retired as an instruction. -/
def execVpfx (p : Pfx) (s : State) : Result :=
  if s.me.pc.toNat % 64 = 60 ∨ !(pfxFits p s.nextWord) then .next (s.finishExc (.vpfx p) .illegal)
  else .next (s.modMe fun x => { x with pfx := some p, jumped := false, pc := x.pc + 4 })

end Sys2Proof.Machine
end

