-- ==== Sys2Proof/Machine/TileMath.lean ====
section
/-! DEFINITION. The arithmetic of the tile engine's K-steps (R253 to R257, R264, R267, R273): shapes, one chunk or group of
one element, and the blockwise transpose. -/

namespace Sys2Proof.Machine

/-! ## Shapes (R264) -/

/-- The entries an operation captured. -/
def Op.look (o : Op) (id : Nat) : Word := ((o.caps.find? fun e => e.id == id).map fun e => e.word).getD 0
def Op.la (o : Op) : Lay := layOf o.look o.af
def Op.lb (o : Op) : Lay := layOf o.look o.bf
def Op.lc (o : Op) : Lay := layOf o.look o.cf

/-- N (R264). -/
def columns (cf : Nat) : Nat := if cf = 0 then 32 else 64
/-- K of one macro step. -/
def Op.depth (o : Op) : Nat := min o.la.count o.lb.count
/-- K-steps of one macro step. -/
def Op.perMacro (o : Op) : Nat := (o.depth + stepLen o.la o.lb - 1) / stepLen o.la o.lb
/-- The macro steps of `mmak` (R269). -/
def Op.macros (o : Op) : Nat := if o.kind = .mmak then bits o.aPad.2 40 8 else 1

def OpKind.isMatrix : OpKind → Bool
  | .mma | .mms | .mmz | .mmak | .mmag => true
  | .mld | .mst | .mzero | .mcopy | .mtrn => false

/-- The K-steps of an operation, for `mmag` of one row block (R228). -/
def Op.steps? (o : Op) : Nat := if o.kind.isMatrix then o.macros * o.perMacro else 64

/-! ## Pad operands (R262, R263) -/

def padStage (d : Word × Word) : Nat := bits d.1 48 6
def padPitch (d : Word × Word) : Nat := bits d.1 32 16
def padOff (d : Word × Word) : Nat := bits d.1 0 32
def padRot (d : Word × Word) : Nat := bits d.2 32 5
def padTpitch (d : Word × Word) : Nat := bits d.2 0 32

/-- The byte offset of row t at macro step q, with what a lift adds. -/
def padRow (d : Word × Word) (t q : Nat) (lift : Word) : Int :=
  (padOff d + t * padPitch d + q * padTpitch d : Nat) + lift.toInt

/-- A row of a pad operand in the current half of its stage. -/
def State.padRead (s : State) (c : Nat) (d : Word × Word) (t q : Nat) (lift : Word) : Nat :=
  s.readNat ((s.stage c (padStage d)).current c (padRow d t q lift).toNat) 256

/-- The rows of an operand: a tile's, or those of a pad. -/
def State.operandRows (s : State) (c : Nat) (o : MtOperand) (img : Nat) (task : Word) (d : Word × Word) (first n q : Nat) :
    List Nat :=
  match o with
  | .tile t => (List.range n).map fun i => ((s.image task t.toNat img).get i 0).toNat
  | .pad _ => (List.range n).map fun i => s.padRead c d (first + i) q 0

/-! ## One step of one element (R255 to R257) -/

/-- acc plus the products of a chunk or group, exact, with the special values of R255. On the exact path the products are
summed first, and their sum is one addend (R256). -/
def stepSum (rm : Nat) (minus exact : Bool) (acc : Num) (xs : List (Num × Num)) : NumF :=
  let ins := acc :: xs.flatMap fun e => [e.1, e.2]
  if ins.any Num.isNan then nanOf (ins.any Num.isSnan)
  else
    let ps := xs.map fun e => if minus then (e.1.mul e.2).1.neg else (e.1.mul e.2).1
    if ps.any Num.isNan then (.nan false, flagNv)
    else if exact then
      let v := sumAll 0 ps
      let r := sumAll rm [acc, if v.1.isZero then .fin false 0 0 else v.1]
      (r.1, orFlags v.2 r.2)
    else sumAll rm (acc :: ps)

/-- The range of K that step c of a macro step covers. -/
def Op.range (o : Op) (c : Nat) : List Nat :=
  let n := stepLen o.la o.lb
  (List.range (min n (o.depth - c * n))).map fun i => c * n + i

/-- The accumulator element as the step reads it. -/
def Op.accIn (o : Op) (c : Nat) (code : Nat) : Num :=
  if o.kind = .mmz ∧ o.steps = 0 then .fin false 0 0
  else o.lc.f.flushIn (o.fzi && c == 0) (o.lc.f.decode code)

/-- One element of the result of a step, with its flags. -/
def Op.element (o : Op) (c fresh : Nat) (a b : List Num) (code : Nat) : Nat × Nat :=
  let x := stepSum o.rm (o.kind == .mms) (exactPath o.la o.lb) (o.accIn c code) (a.zip b)
  let y := o.lc.f.round o.rm o.fzo fresh x.1
  (y.1, orFlags x.2 y.2)

/-- One row of the result: the elements from N on are +0 (R264). -/
def Op.rowStep (o : Op) (c fresh : Nat) (a : Nat) (bs : List (List Num)) (old : Nat) : Nat × Nat :=
  let xs := (o.range c).map fun k => o.la.valueIn o.fzi a k
  bs.zipIdx.foldl (fun (r : Nat × Nat) e =>
    let v := o.element c (fresh + e.2) xs e.1 (o.lc.code old e.2)
    (o.lc.setCode r.1 e.2 v.1, orFlags r.2 v.2)) (0, 0)

/-- All rows of a step. -/
def Op.matrixStep (o : Op) (c fresh : Nat) (as bs : List Nat) (old : Table Row) : Table Row × Nat :=
  let cols := bs.map fun b => (o.range c).map fun k => o.lb.valueIn o.fzi b k
  as.zipIdx.foldl (fun (r : Table Row × Nat) e =>
    let v := o.rowStep c (fresh + e.2 * 64) e.1 cols (old.get e.2 0).toNat
    (putRow r.1 e.2 (BitVec.ofNat 2048 v.1), orFlags r.2 v.2)) (old, 0)

/-! ## mtrn (R273) -/

/-- Element c of row r of the transpose of blocks of width w: where it comes from. -/
def transposeFrom (w r c : Nat) : Nat × Nat :=
  if w = 64 then (r / 32 * 32 + c, r % 32) else (c % 64, c / 64 * 64 + r)

def transposeRow (w : Nat) (src : Table Row) (r : Nat) : Nat :=
  (List.range (2048 / w)).foldl (fun row c =>
    let (i, j) := transposeFrom w r c
    row + getField ((src.get i 0).toNat) (j * w) w * 2 ^ (c * w)) 0

def transposeRows (w : Nat) (src : Table Row) : Table Row :=
  (List.range 64).foldl (fun t r => putRow t r (BitVec.ofNat 2048 (transposeRow w src r))) []

end Sys2Proof.Machine
end

