-- ==== Sys2Proof/Machine/MatOps.lean ====
section
/-! DEFINITION. The words of the tile engine (R261 to R278): acceptance of MT and TR words, commit groups, tile status and
the format table. -/

namespace Sys2Proof.Machine

/-! ## Pad descriptors (R262, R263, R265) -/

def State.padOf (s : State) : MtOperand → Word × Word
  | .pad r => (s.x r, s.x (r + 1))
  | .tile _ => (0, 0)

/-- A pad descriptor that is refused (28, 0x05). `long` is true for `mmak`. -/
def padBad (long : Bool) (d : Word × Word) : Bool :=
  bits d.1 54 10 != 0 || bits d.2 48 16 != 0 || bits d.2 37 3 != 0 || padPitch d % 64 != 0 || padOff d % 64 != 0 ||
    (long && padTpitch d % 64 != 0)

/-- The stage and range checks of a pad (31): the first that fails. `to` is true for a write (R307). -/
def State.padFault (s : State) (d : Word × Word) (rows macros : Nat) (lift : Word) (write : Bool) : Option Nat :=
  let t := s.stage (clusterOf s.cur) (padStage d)
  let low := padRow d 0 0 lift
  let high := padRow d (rows - 1) (macros - 1) lift + 255
  if !t.defined then some 0x01
  else if write && t.lifts > 0 then some 0x09
  else if low < 0 ∨ high ≥ t.size then some 0x02
  else none

/-! ## Acceptance (R226, R265) -/

/-- The entries an id needs, with those of its elements and scale (R258). -/
def State.capture (s : State) (ids : List Nat) : List Cap :=
  (ids.flatMap fun id =>
    let f := fmtOfWord (s.look id)
    if f.kind = 5 then [id, f.elem, f.scale] else [id]).map fun id =>
      let v := s.versionAt (pairOf s.cur) (s.ctxOf s.cur) id
      { id := id, word := v.1, ver := v.2 }

/-- The region number of an operation accepted now: outside a region it belongs to the one that has committed. -/
def State.opRegion (s : State) : BitVec 16 :=
  match s.myTask with
  | some t => if s.inRegion s.cur then t.region.rseq else t.region.rseq - 1
  | none => 0

/-- An operation with nothing special. -/
def State.baseOp (s : State) (kind : OpKind) (w : W32) (md : TileReg) : Op :=
  { (default : Op) with
    kind := kind, task := (s.me.task).getD 0, aTask := (s.me.task).getD 0, region := s.opRegion, word := w, md := md,
    group := (match s.myTask with | some t => t.group | none => 0), ctx := s.ctxOf s.cur, a := .pad 0, b := .pad 0 }

/-- The operation of one execution: its images and, for `mld` and `mst`, its pad offset. -/
def State.opFor (s : State) (o : Op) (u : Tup) : Op :=
  let l := s.myLift
  let img := fun (x : MtOperand) => match x with
    | .tile t => l.flat (s.tagsOf t.toNat) u
    | .pad _ => 0
  { o with
    img := l.flat (s.tagsOf o.md.toNat) u, aImg := img o.a, bImg := img o.b,
    offset := if o.kind = .mld ∨ o.kind = .mst then l.offset u else 0 }

/-- The stages an operation pins: the leader of a gang alone pins A's (R236, R270). -/
def Op.stages (o : Op) (leader : Bool) : List Nat :=
  let st := fun (x : MtOperand) (d : Word × Word) => match x with
    | .tile _ => []
    | .pad r => if r = 0 then [] else [padStage d]
  ((if leader then st o.a o.aPad else []) ++ st o.b o.bPad).eraseDups

/-- The pair is the lowest-numbered member. -/
def gangLeads (g : BitVec 18) (pair : Nat) : Bool :=
  (List.range 4).find? (fun i => (gangMembers g).testBit i) == some (pair % 4)

/-- The operation stands alone: no gang, or a gang of one pair. -/
def Op.alone (o : Op) (pair : Nat) : Bool := o.kind != .mmag || gangMembers o.gang == 2 ^ (pair % 4)

def Op.leads (o : Op) (pair : Nat) : Bool := o.kind != .mmag || gangLeads o.gang pair

def takePins (s : State) (c : Nat) : List Nat → State
  | [] => s
  | n :: r => takePins (s.modStage c n fun t => { t with pins := t.pins + 1 }) c r

/-- Put an operation into its stream (R226); its engine looks for what may start. -/
def State.enqueue (s : State) (o : Op) : State :=
  let p := pairOf s.cur
  let pins := o.stages (o.leads p)
  let s := takePins s (clusterOf s.cur) pins
  let s := (s.modPair p fun k => { k with ops := k.ops ++ [{ o with id := s.serial, total := o.steps?, pins := pins }] }).tick
  (if o.alone p then s else s.post (.gangRendezvous (clusterOfPair p) (gangId o.gang))).post (.tileOpStart p)

/-- The stream's queue is full, or a stage holds 255 pins (R81, R226). -/
def State.mustWait (s : State) (o : Op) : Bool :=
  decide ((s.myOps.filter fun q => q.stream == o.stream).length ≥ 16) ||
    (o.stages (o.leads (pairOf s.cur))).any fun n => decide ((s.stage (clusterOf s.cur) n).pins ≥ 255)

/-- Accept the executions of a word from the one numbered `done` on; the hart waits where a place is missing (R326). -/
def acceptFrom (o : Op) : List Tup → Nat → State → Except Exc State
  | [], _, s => .ok s
  | u :: r, done, s =>
    if s.mustWait o then .error (if done = 0 then .wait .short else .hold s (.accepting done o))
    else acceptFrom o r (done + 1) (s.enqueue (s.opFor o u))

/-- The tiles that a word names. -/
def State.wordTiles (o : Op) : List Nat := o.names.eraseDups

/-- Check 8 of R265, made first: T, and the space that widening takes. -/
def State.checkLift (s : State) (o : Op) : Except Exc (BitVec 4) := do
  let T ← if o.kind = .mmag then do
      s.liftNone o.names [] 0x0A
      if s.inRegion s.cur && !s.myLift.full && s.myLift.all != 0 then .error (.trapWord 29 0x0A)
      pure (0 : BitVec 4)
    else s.liftSet o.names []
  if s.inRegion s.cur && o.kind != .mst && decide (o.md.toNat < s.tileCount) then do
    let new := s.tagsOf o.md.toNat ||| T
    let _ ← ((s.retagTile o.md.toNat new).shadowImages o.md.toNat new 256 (s.executions T)).spillCheck s
    pure T
  else pure T

/-- Take the region shadows and widen the destination, then accept every execution (R230, R306, R326). A destination that
gains axes waits for the operations that use it. -/
def State.acceptAll (s : State) (o : Op) (T : BitVec 4) : Except Exc State := do
  let us := s.executions T
  let n := o.md.toNat
  let t ← if o.kind = .mst then pure s
    else if s.tagsOf n ||| T ≠ s.tagsOf n ∧ s.user n then .error (.wait .short)
    else do
      let t ← s.prepareTile n T us
      let t ← t.shadowTiles o.writes
      t.spillCheck s
  acceptFrom o us 0 t

/-- The rest of a word that waits with some executions accepted. -/
def State.resumeAccept (s : State) (done : Nat) (o : Op) : Except Exc State := do
  let T ← if o.kind = .mmag then pure 0 else s.liftSet o.names []
  acceptFrom o ((s.executions T).drop done) done s

/-- A stager core issues no MT word (R99, R225). -/
def State.needCompute (s : State) : Except Exc Unit :=
  if isCompute s.cur then .ok () else .error (.trapWord 49 0)

/-- Checks 1 to 7 of R265 for an MT word. -/
def State.checkMt (s : State) (o : Op) : Except Exc Unit := do
  let rb := gangRb o.gang
  let long := o.kind == .mmak
  let isPad := fun (x : MtOperand) => match x with | .pad _ => true | .tile _ => false
  let tiles := tileNum o.a ++ tileNum o.b
  s.tilesBelow (o.md.toNat :: tiles)
  if o.kind = .mmag ∧ o.md.toNat + rb ≥ s.tileCount then .error (.trapWord 28 0x02)
  if tiles.contains o.md.toNat then .error (.trapWord 28 0x08)
  if (isPad o.a && padBad long o.aPad) || (isPad o.b && padBad long o.bPad) then .error (.trapWord 28 0x05)
  if long && (!isPad o.a || !isPad o.b || bits o.aPad.2 40 8 == 0) then .error (.trapWord 28 0x05)
  if o.kind = .mmag ∧ rb > 0 ∧ isPad o.a = false then .error (.trapWord 28 0x05)
  let rows := if o.kind = .mmag then 64 * (rb + 1) else 64
  match (if isPad o.a then s.padFault o.aPad rows o.macros 0 false else none) with
  | some sub => .error (.trapWord 31 sub)
  | none => pure ()
  match (if isPad o.b then s.padFault o.bPad (columns o.cf) o.macros 0 false else none) with
  | some sub => .error (.trapWord 31 sub)
  | none => pure ()
  match pairFault s.look o.af o.bf o.cf with
  | some sub => .error (.trapWord 27 sub)
  | none => pure ()
  let bad := fun (x : MtOperand) (f : Nat) => match x with
    | .tile t => s.pendingTag t.toNat != f
    | .pad _ => false
  if bad o.a o.af || bad o.b o.bf || (o.kind != .mmz && s.pendingTag o.md.toNat != o.cf) then .error (.trapWord 28 0x04)
  if o.kind = .mmag ∧ (gangMembers o.gang).testBit (pairOf s.cur % 4) = false then .error (.trapWord 28 0x02)

/-- The operation that an MT word asks for, with its slot captured (R104, R267). -/
def State.mtOp (s : State) (kind : OpKind) (w : W32) (m : MtOps) : Op :=
  let slot := s.me.ctx.mfmt[m.fslot.toNat]
  let af := (slot.extractLsb' 0 5).toNat
  let bf := (slot.extractLsb' 5 5).toNat
  let cf := (slot.extractLsb' 10 5).toNat
  let rm := (slot.extractLsb' 15 3).toNat
  { s.baseOp kind w m.md with
    stream := m.stream, a := m.a, b := m.b, aPad := s.padOf m.a, bPad := s.padOf m.b, af := af, bf := bf, cf := cf,
    caps := s.capture [af, bf, cf], rm := if rm = 7 then s.me.ctx.vrm.toNat else rm, fzi := m.fzi, fzo := m.fzo,
    gang := if kind = .mmag then s.me.ctx.mgang else 0 }

/-- An MT word (R265). -/
def State.matrixWord (s : State) (kind : OpKind) (i : Instr) (m : MtOps) : Except Exc State :=
  match s.me.waiting with
  | some { kind := .accepting done o, .. } => s.resumeAccept done o
  | _ => do
    s.needCompute
    let o := s.mtOp kind ((encode i).getD 0) m
    s.opFaultOn o.fields
    let T ← s.checkLift o
    s.checkMt o
    s.acceptAll o T

def execMma (m : MtOps) (s : State) : Result := runOpen (.mma m) s fun s => s.matrixWord .mma (.mma m) m
def execMms (m : MtOps) (s : State) : Result := runOpen (.mms m) s fun s => s.matrixWord .mms (.mms m) m
def execMmz (m : MtOps) (s : State) : Result := runOpen (.mmz m) s fun s => s.matrixWord .mmz (.mmz m) m
def execMmak (m : MtOps) (s : State) : Result := runOpen (.mmak m) s fun s => s.matrixWord .mmak (.mmak m) m
def execMmag (m : MtOps) (s : State) : Result := runOpen (.mmag m) s fun s => s.matrixWord .mmag (.mmag m) m

/-! ## Tile-data words (R271 to R273) -/

/-- A format id that a tile-data operation refuses. -/
def State.idBad (s : State) (id : Nat) : Bool :=
  let k := (fmtOfWord (s.look id)).kind
  k == 0 || k == 4

/-- What `mtrn` refuses: a block-scaled tag, or a width outside its table. -/
def State.trnBad (s : State) (tag : Nat) : Bool :=
  let l := s.lay tag
  l.isBlock || !(l.f.width == 4 || l.f.width == 8 || l.f.width == 16 || l.f.width == 32 || l.f.width == 64)

/-- The pad of every execution in range (check 4). -/
def State.checkPads (s : State) (o : Op) (write : Bool) : List Tup → Except Exc Unit
  | [] => .ok ()
  | u :: r => match s.padFault o.bPad 64 1 (s.myLift.offset u) write with
    | some sub => .error (.trapWord 31 sub)
    | none => s.checkPads o write r

/-- A TR word: its own checks come between check 1 and the acceptance. -/
def State.dataWord (s : State) (o : Op) (checks : BitVec 4 → Except Exc Unit) : Except Exc State :=
  match s.me.waiting with
  | some { kind := .accepting done o, .. } => s.resumeAccept done o
  | _ => do
    s.opFaultOn o.fields
    let T ← s.checkLift o
    s.tilesBelow o.names
    checks T
    s.acceptAll o T

def execMld (md : TileReg) (pad rs2 : Reg) (s : State) : Result :=
  runOpen (.mld md pad rs2) s fun s =>
    let id := bits (s.x rs2) 0 5
    let d := s.padOf (.pad pad)
    let o := { s.baseOp .mld ((encode (.mld md pad rs2)).getD 0) md with
      b := .pad pad, bPad := d, cf := id, caps := s.capture [id] }
    s.dataWord o fun T => do
      if padBad false d then .error (.trapWord 28 0x05)
      s.checkPads o false (s.executions T)
      if s.idBad id then .error (.trapWord 28 0x06)

def execMst (md : TileReg) (pad : Reg) (s : State) : Result :=
  runOpen (.mst md pad) s fun s =>
    let d := s.padOf (.pad pad)
    let o := { s.baseOp .mst ((encode (.mst md pad)).getD 0) md with b := .pad pad, bPad := d }
    s.dataWord o fun T => do
      if padBad false d || padPitch d < 256 then .error (.trapWord 28 0x05)
      s.checkPads o true (s.executions T)

def execMzero (md : TileReg) (rs1 : Reg) (s : State) : Result :=
  runOpen (.mzero md rs1) s fun s =>
    let id := bits (s.x rs1) 0 5
    let o := { s.baseOp .mzero ((encode (.mzero md rs1)).getD 0) md with cf := id, caps := s.capture [id] }
    s.dataWord o fun _ => if s.idBad id then .error (.trapWord 28 0x06) else .ok ()

def execMcopy (md ms : TileReg) (s : State) : Result :=
  runOpen (.mcopy md ms) s fun s =>
    let id := s.pendingTag ms.toNat
    let o := { s.baseOp .mcopy ((encode (.mcopy md ms)).getD 0) md with a := .tile ms, cf := id, caps := s.capture [id] }
    s.dataWord o fun _ => .ok ()

def execMtrn (md ms : TileReg) (s : State) : Result :=
  runOpen (.mtrn md ms) s fun s =>
    let id := s.pendingTag ms.toNat
    let o := { s.baseOp .mtrn ((encode (.mtrn md ms)).getD 0) md with a := .tile ms, cf := id, caps := s.capture [id] }
    s.dataWord o fun _ => if s.trnBad id then .error (.trapWord 28 0x06) else .ok ()

/-! ## Commit groups (R229, R266, R274, R275) -/

/-- The closed groups of a task that are not complete. -/
def liveGroups (t : Task) (ops : List Op) : List (BitVec 16) :=
  t.openGroups.filter fun g => ops.any fun o => o.group == g

def execMcommit (rd : Reg) (s : State) : Result :=
  runOpen (.mcommit rd) s fun s =>
    match s.me.task, s.myTask with
    | some h, some t =>
      let live := liveGroups t s.myOps
      if live.length ≥ 16 then .error (.wait .short)
      else
        let more := if s.myOps.any fun o => o.group == t.group then [t.group] else []
        .ok ((s.modTask h fun t => { t with group := t.group + 1, openGroups := live ++ more }).setX rd
          (t.group.setWidth 64))
    | _, _ => .ok (s.setX rd 0)

/-- How long ago a group was closed; 0 for the open one. -/
def groupAge (t : Task) (g : BitVec 16) : Nat := (t.group - g).toNat

def execMwait (rs1 : Reg) (s : State) : Result :=
  runOpen (.mwait rs1) s fun s =>
    match s.myTask with
    | none => .error (.trapWord 28 0x07)
    | some t => do
      let d := groupAge t ((s.x rs1).setWidth 16)
      if d = 0 ∨ d ≥ 2 ^ 15 then .error (.trapWord 28 0x07)
      if s.myOps.any fun o => decide (d ≤ groupAge t o.group) then .error (.wait .long)
      s.opFaultAt fun f => decide (d ≤ groupAge t f.group)
      pure s

/-! ## Tile status (R223, R276) -/

def Tile.status (t : Tile) : Word := wordOf (t.axes.toNat * 2 ^ 20 + t.fmt.toNat * 2 ^ 13 + t.flags.toNat)

/-- The checks that both status words make; then they wait for writers. -/
def State.statusCheck (s : State) (mt : TileReg) : Except Exc Unit := do
  s.opFaultOn [mt.toNat]
  s.tilesBelow [mt.toNat]
  if !s.inRegion s.cur then s.liftNone [mt.toNat] [] 0x0A
  if s.writer mt.toNat then .error (.wait .short)

def execMclrf (mt : TileReg) (rs2 : Reg) (s : State) : Result :=
  runOpen (.mclrf mt rs2) s fun s => do
    s.statusCheck mt
    let clear : BitVec 8 := if rs2 = 0 then 0xFF else (s.x rs2).setWidth 8
    let t ← s.shadowTile mt.toNat
    match t.me.task with
    | some h => pure (t.modStatus h mt.toNat fun x => { x with flags := x.flags &&& ~~~clear })
    | none => pure t

def execMstat (rd : Reg) (mt : TileReg) (s : State) : Result :=
  runOpen (.mstat rd mt) s fun s => do
    s.statusCheck mt
    match s.myTask.bind fun t => t.pair.map fun p => s.tile p (t.phys mt.toNat) with
    | some x => pure (s.setX rd x.status)
    | none => pure s

/-! ## The format table (R247, R259, R277, R278) -/

/-- The pairs that hold a view of a context: a hart or an operation there works in it. -/
def State.viewPairs (s : State) (ctx : Nat) : List Nat :=
  let byHart := (s.harts.filter fun e => s.ctxOf e.1 == ctx).map fun e => pairOf e.1
  let byOp := (s.pairs.filter fun e => e.2.ops.any fun o => o.ctx == ctx).map fun e => e.1
  (byHart ++ byOp).eraseDups

/-- A write of this key is on its way to some view. -/
def State.viewStale (s : State) (key : Nat) : Bool := s.pairs.any fun e => (e.2.views.find key).isSome

/-- The operations at a pair, and the words whose last executions have not entered their streams (R326). -/
def State.captors (s : State) (p : Nat) : List Op :=
  (s.pair p).ops ++ (List.range 16).filterMap fun i => match (s.hart (p * 16 + i)).waiting with
    | some { kind := .accepting _ o, .. } => some o
    | _ => none

/-- An operation at the pair still holds an older version. -/
def State.holdsOld (s : State) (p ctx id : Nat) : Bool :=
  (s.captors p).any fun o => o.ctx == ctx && o.caps.any fun e => e.id == id && e.ver != (s.versionAt p ctx id).2

/-- The write leaves for the views: each keeps its entry until the write arrives. -/
def sendViews (ctx id : Nat) (old : Word × Nat) (new : Word) : List Nat → State → State
  | [], s => s
  | p :: r, s =>
    sendViews ctx id old new r
      ((s.modPair p fun k => { k with views := k.views.put (ctx * 32 + id) old }).post (.fmtwViewApply p ctx id new))

def satpOn (satp : Word) : Bool := bits satp 60 4 != 0

def execFmtw (rs1 rs2 : Reg) (s : State) : Result :=
  runClosing false (.fmtw rs1 rs2) s fun s =>
    let id := bits (s.x rs1) 0 5
    let w := s.x rs2
    let ctx := s.ctxOf s.cur
    let key := ctx * 32 + id
    if !satpOn s.me.sys.satp then .error .illegal
    else match s.me.waiting with
      | some { kind := .applied, .. } => if s.viewStale key then .error (.wait .applied) else .ok s
      | _ =>
        match entryFault s.look id w with
        | some sub => .error (.trap 26 sub w)
        | none =>
          let ps := s.viewPairs ctx
          if ps.any fun p => s.holdsOld p ctx id then .error (.wait .long)
          else if s.viewStale key then .error (.wait .late)
          else
            let old := (s.fmts.get key 0, s.fmtVers.get key 0)
            .error (.hold (sendViews ctx id old w ps
              { s with fmts := s.fmts.put key w, fmtVers := s.fmtVers.put key (old.2 + 1) }) .applied)

/-- FMTW_VIEW_APPLY (R259): the write arrives at the view of a pair. -/
def execFmtwViewApply (p ctx id : Nat) (_entry : Word) (s : State) : Result :=
  .next (s.modPair p fun k => { k with views := k.views.drop (ctx * 32 + id) })

def execFmtr (rd rs1 : Reg) (s : State) : Result :=
  runOpen (.fmtr rd rs1) s fun s =>
    if !satpOn s.me.sys.satp then .error .illegal
    else .ok (s.setX rd (s.look (bits (s.x rs1) 0 5)))

end Sys2Proof.Machine
end

