-- ==== Sys2Proof/Machine/TileEngine.lean ====
section
/-! DEFINITION. The tile engine at work (R226 to R238): starting operations, their K-steps, checkpoints and replay,
completion, gangs, and errors of tile memory. -/

namespace Sys2Proof.Machine

def State.op? (s : State) (p id : Nat) : Option Op := (s.pair p).ops.find? fun o => o.id == id

def State.setOp (s : State) (p : Nat) (o : Op) : State :=
  s.modPair p fun k => { k with ops := k.ops.map fun q => if q.id = o.id then o else q }

/-- The tile that the operation writes now. -/
def Op.dest (o : Op) : Nat := o.md.toNat + o.block

/-- The operation reads pad operands at this pair (R228); only the leader of a gang reads its A (R236). -/
def Op.readsPad (o : Op) (pair : Nat) : Bool :=
  match o.kind with
  | .mld => true
  | .mst | .mzero | .mcopy | .mtrn => false
  | .mma | .mms | .mmz | .mmak | .mmag =>
    (o.leads pair && match o.a with | .pad _ => true | .tile _ => false) || match o.b with | .pad _ => true | .tile _ => false

/-- The operation takes an operation shadow: it reads pads, or its row blocks are replayed with those of its gang (R228,
R236). -/
def Op.shadowed (o : Op) (pair : Nat) : Bool := o.readsPad pair || !o.alone pair

/-! ## Operation shadows (R228, R231) -/

/-- The destination of an operation as a tile: the rows of its image with tag and status word. -/
def State.destTile (s : State) (o : Op) : Tile :=
  match (s.task? o.task).bind fun t => t.pair.map fun p => s.tile p (t.phys o.dest) with
  | some t => { t with rows := s.image o.task o.dest o.img, owner := some o.task }
  | none => default

/-- Copy the destination into the operation shadow: a checkpoint step. -/
def State.saveShadow (s : State) (p : Nat) (o : Op) : State :=
  match o.shadow with
  | some q => (s.setTile p q (s.destTile o)).setOp p { o with saved := o.steps }
  | none => s

/-- An operation of an earlier region writes what the checkpoint holds, too (R230). -/
def State.beforeRegion (s : State) (o : Op) : Bool :=
  match s.task? o.task with
  | some t => t.region.rseq != o.region
  | none => false

/-- Restore the destination, with tag and status word, from the operation shadow, and go back to the checkpoint step. -/
def State.restoreShadow (s : State) (p : Nat) (o : Op) : State :=
  match o.shadow with
  | some q =>
    let x := s.tile p q
    let s := (s.setImage o.task o.dest o.img x.rows (s.beforeRegion o)).modStatus o.task o.dest
      fun t => { t with fmt := x.fmt, flags := x.flags }
    s.setOp p { o with steps := o.saved }
  | none => s

/-! ## Starting (R226 to R228, R230, R236) -/

/-- Earlier in its stream, an incomplete operation shares a tile, where either writes it. -/
def clashesBefore (o : Op) : List Op → Bool
  | [] => false
  | q :: r =>
    if q.id = o.id then false
    else (q.task == o.task && q.stream == o.stream &&
      (q.names.any fun n => o.names.contains n && (q.writes.contains n || o.writes.contains n))) || clashesBefore o r

/-- No earlier operation of the stream waits to start. -/
def isHead (o : Op) : List Op → Bool
  | [] => true
  | q :: r => if q.id = o.id then true else !(q.task == o.task && q.stream == o.stream && !q.started) && isHead o r

/-- An operation of another stream in progress shares a tile. -/
def excluded (o : Op) (ops : List Op) : Bool :=
  ops.any fun q => q.started && q.task == o.task && q.stream != o.stream && q.names.any fun n => o.names.contains n

/-- The gang in which an operation has met the others. -/
def State.gangOf (s : State) (c id : Nat) : Option Gang :=
  (s.cluster c).gangs.find? fun g => g.started && g.arrivals.any fun a => a.2 == id

def State.modGang (s : State) (c id : Nat) (f : Gang → Gang) : State :=
  s.modCluster c fun k => { k with gangs := k.gangs.map fun g => if g.started && g.arrivals.any fun a => a.2 == id then f g else g }

/-- The operation of a gang has met the others, and the leader's rows stream, or it is the leader. -/
def State.met (s : State) (p : Nat) (o : Op) : Bool :=
  o.alone p || (s.gangOf (clusterOfPair p) o.id).any fun g => g.rows.isSome || o.leads p

def State.canStart (s : State) (p : Nat) (o : Op) : Bool :=
  let ops := (s.pair p).ops
  let uncopied := match s.task? o.task with
    | some t => t.region.rseq == o.region && o.writes.any fun n => t.region.uncopied.contains n
    | none => false
  !o.started && isHead o ops && !clashesBefore o ops && !excluded o ops && !uncopied && s.met p o &&
    decide ((ops.filter fun q => q.started).length < 4) && (!o.shadowed p || (s.freeOf p 32 4).isSome)

/-- The operation whose K-step comes next: one in its compute phase, else the oldest that has started. -/
def computing (ops : List Op) : Option Op :=
  match ops.find? fun o => o.started && o.steps != 0 && !o.blockDone with
  | some o => some o
  | none => ops.find? fun o => o.started && !o.blockDone

/-- A K-step of the engine has been asked for. -/
def State.stepPending (s : State) (p : Nat) : Bool :=
  s.pending.any fun i => match i with
    | .kStepComplete q _ => q == p
    | _ => false

/-- Ask for the next K-step of the engine, unless one has been asked for. -/
def State.nextStep (s : State) (p : Nat) : State :=
  match computing (s.pair p).ops with
  | some o => if s.stepPending p then s else s.post (.kStepComplete p o.id)
  | none => s

/-- The rows of the leader's A operand for a row block, which stream to every member once (R236). -/
def State.streamRows (s : State) (c : Nat) (lead : Op) (block : Nat) : List Row :=
  (s.operandRows c lead.a lead.aImg lead.task lead.aPad (64 * block) 64 0).map fun r => BitVec.ofNat 2048 r

/-- The leader of a gang has started: its first row block streams, and the members may start. -/
def State.startGang (s : State) (p : Nat) (o : Op) : State :=
  let c := clusterOfPair p
  if o.alone p || !o.leads p then s
  else match s.gangOf c o.id with
    | none => s
    | some g =>
      let s := s.modGang c o.id fun g => { g with rows := some (s.streamRows c o 0) }
      g.arrivals.foldl (fun s a => s.post (.tileOpStart a.1)) s

/-- The launch of an operation uses the pair that runs it (R376). -/
def State.useOp (s : State) (p : Nat) (o : Op) : State :=
  match s.task? o.task with
  | some t => s.useBy t.launch p
  | none => s

/-- TILE_OP_START: the oldest head that is free to start enters the array, with an operation shadow if it reads pads. -/
def execTileOpStart (p : Nat) (s : State) : Result :=
  match (s.pair p).ops.find? fun o => s.canStart p o with
  | none => .next s
  | some o =>
    let o := { o with started := true, shadow := if o.shadowed p then s.freeOf p 32 4 else none }
    let s := (((s.useOp p o).setOp p o).saveShadow p o).startGang p o
    .next ((s.nextStep p).post (.tileOpStart p))

/-! ## K-steps (R228, R267, R272) -/

/-- A fault of an operation waits for its task. -/
def State.addFault (s : State) (o : Op) (aborts : Bool) (cause sub : Nat) : State :=
  s.modTask o.task fun t => { t with opFaults := t.opFaults ++
    [{ tiles := o.names, dest := o.dest, group := o.group, region := o.region, aborts := aborts, cause := cause, sub := sub,
       word := o.word.setWidth 64 }] }

/-- The beats of one row of `mst`, counted one at a time; the first that does not fit ends the operation (R272). -/
def mstBeats (c n off : Nat) : List (List Byte) → State → Except (Nat × Nat × State) State
  | [], s => .ok s
  | b :: r, s => match s.arrive c n off b with
    | .ok s => mstBeats c n (off + 64) r s
    | .error (cause, sub) => .error (cause, sub, s)

def cut64 : Nat → List Byte → List (List Byte)
  | 0, _ => []
  | n + 1, bs => bs.take 64 :: cut64 n (bs.drop 64)

/-- Write rows into the destination and OR the flags. -/
def State.writeDest (s : State) (o : Op) (rows : Table Row) (flags : Nat) : State :=
  (s.setImage o.task o.dest o.img rows (s.beforeRegion o)).modStatus o.task o.dest (orTileFlags flags)

/-- The flags of the source of `mcopy` and `mtrn`, which its last step brings (R271). -/
def State.sourceFlags (s : State) (o : Op) (t : TileReg) : Nat :=
  if o.steps = 63 then
    match (s.task? o.task).bind fun k => k.pair.map fun p => (s.tile p (k.phys t.toNat)).flags with
    | some f => f.toNat
    | none => 0
  else 0

/-- The rows of A that a matrix operation reads: those that its gang streams, or its own operand. -/
def State.rowsOfA (s : State) (p : Nat) (o : Op) (q : Nat) : List Nat :=
  match (if o.alone p then none else (s.gangOf (clusterOfPair p) o.id).bind fun g => g.rows) with
  | some rows => rows.map fun r => r.toNat
  | none => s.operandRows (clusterOfPair p) o.a o.aImg o.aTask o.aPad (64 * o.block) 64 q

/-- What one K-step does to the machine: the state, and for `mst` whether the operation has ended. All pad bytes that one
step reads are read at one instant: R80 decides for each 8-byte unit whether a write after the issue is seen, and the order of
the writes of the model puts none between the units (DESIGN CHOICE, log 62). -/
def State.opStep (s : State) (p : Nat) (o : Op) : State × Bool :=
  let c := clusterOfPair p
  let old := s.image o.task o.dest o.img
  match o.kind with
  | .mld =>
    let t := (2 * padRot o.bPad + o.steps) % 64
    (s.writeDest o (putRow old t (BitVec.ofNat 2048 (o.lc.trim (s.padRead c o.bPad t 0 o.offset)))) 0, false)
  | .mst =>
    let off := (padRow o.bPad o.steps 0 o.offset).toNat
    match mstBeats c (padStage o.bPad) off (cut64 4 (leBytes 256 (old.get o.steps 0).toNat)) s with
    | .ok s => (s, false)
    | .error (cause, sub, s) => (s.addFault o false cause sub, true)
  | .mzero => (s.writeDest o (old.drop o.steps) 0, false)
  | .mcopy =>
    match o.a with
    | .tile t => (s.writeDest o (putRow old o.steps ((s.image o.task t.toNat o.aImg).get o.steps 0)) (s.sourceFlags o t), false)
    | .pad _ => (s, false)
  | .mtrn =>
    match o.a with
    | .tile t =>
      if o.steps = 63 then
        (s.writeDest o (transposeRows o.lc.f.width (s.image o.task t.toNat o.aImg)) (s.sourceFlags o t), false)
      else (s, false)
    | .pad _ => (s, false)
  | .mma | .mms | .mmz | .mmak | .mmag =>
    let q := o.steps / o.perMacro
    let as := s.rowsOfA p o q
    let bs := s.operandRows c o.b o.bImg o.task o.bPad 0 (columns o.cf) q
    let v := o.matrixStep (o.steps % o.perMacro) s.freshBase as bs old
    ((s.writeDest o v.1 v.2).useFresh, false)

/-- The operation goes on to its next row block, with an operation shadow of its own (R236). -/
def State.nextBlock (s : State) (p : Nat) (o : Op) : State :=
  let o := { o with steps := 0, saved := 0, faults := 0, block := o.block + 1 }
  (s.setOp p o).saveShadow p o

/-- After a K-step: a checkpoint at multiples of 16; after the last of a row block the write-back, or the next row block, which
the members of a gang begin together. -/
def State.afterStep (s : State) (p : Nat) (o : Op) : State :=
  let o := { o with steps := o.steps + 1 }
  let s := s.setOp p o
  let s := if o.steps % 16 = 0 then s.saveShadow p o else s
  let o := if o.steps % 16 = 0 ∧ o.shadow.isSome then { o with saved := o.steps } else o
  if o.blockDone then
    if o.block = o.lastBlock then s.post (.tileOpComplete p o.id)
    else if o.alone p then s.nextBlock p o
    else s.post (.gangRendezvous (clusterOfPair p) (gangId o.gang))
  else s

/-! ## Operand faults (R231, R232) -/

/-- The operations of a rendezvous that are in progress (R236), all at one row block. -/
def State.gangOps (s : State) (p : Nat) (o : Op) : List (Nat × Op) :=
  match s.gangOf (clusterOfPair p) o.id with
  | none => [(p, o)]
  | some g => g.arrivals.filterMap fun a => match s.op? a.1 a.2 with
    | some q => if q.started then some (a.1, q) else none
    | none => none

/-- The first fault: restored, to be replayed from the checkpoint step, `repl` set, the task corrected. -/
def State.replayOp (s : State) (p : Nat) (o : Op) : State :=
  let s := s.restoreShadow p o
  ((s.setOp p { o with steps := o.saved, faults := o.faults + 1 }).modStatus o.task o.dest (orTileFlags 0x40)).correct o.task

def replayAll : List (Nat × Op) → State → State
  | [], s => s
  | (p, o) :: r, s => replayAll r ((s.replayOp p o).nextStep p)

/-- The operation and every later one of its stream. -/
def laterOps (o : Op) (ops : List Op) : List Op :=
  (ops.dropWhile fun q => q.id != o.id).filter fun q => q.task == o.task && q.stream == o.stream

def restoreAll (p : Nat) : List Op → State → State
  | [], s => s
  | o :: r, s => restoreAll p r (s.restoreShadow p o)

/-- The end of an `mwait` has come once its groups are complete: no interrupt abandons it any more (R280). -/
def State.endMwait (s : State) (h : Word) : State :=
  match s.hartOf h, s.task? h with
  | some n, some t =>
    let x := s.hart n
    match x.waiting with
    | some { instr := .mwait rs1, kind := .long, reply := none } =>
      let d := groupAge t ((x.ctx.xreg rs1).setWidth 16)
      if (s.opsOf h).any fun o => decide (d ≤ groupAge t o.group) then s
      else s.setHart n { x with waiting := some { instr := .mwait rs1, kind := .long, reply := some (.value 0) } }
    | _ => s
  | _, _ => s

/-- A discarded or completed operation may complete groups, and may free region shadows to be copied (R229, R230). -/
def State.settle (s : State) (p : Nat) (h : Word) : State :=
  match s.task? h with
  | none => s
  | some t =>
    let s := s.setTask h { t with openGroups := liveGroups t (s.opsOf h) }
    ((copyShadows h p t.region.uncopied s).endMwait h).post (.tileOpStart p)

/-- The fault persists: restored again, poisoned, the stream discarded, and the fault waits for the task. -/
def State.persistFault (s : State) (p : Nat) (o : Op) : State :=
  let later := laterOps o (s.pair p).ops
  let s := restoreAll p later s
  let s := (s.modStatus o.task o.dest (orTileFlags 0x80)).addFault o true 28 0
  ((removeOps s p later).settle p o.task).nextStep p

/-- OPERAND_FAULT: a pad read of an operation in progress meets a fault. -/
def State.operandFault (s : State) (p : Nat) (o : Op) : State :=
  if o.faults = 0 then replayAll (s.gangOps p o) s else s.persistFault p o

def execOperandFault (p id : Nat) (s : State) : Result :=
  match s.op? p id with
  | some o => .next (if o.started && o.readsPad p && !o.blockDone then (s.operandFault p o).nextStep p else s)
  | none => .next s

/-- K_STEP_COMPLETE. An armed detector reports first (R234): the pad-read detector one operand fault, that of tile memory
one corrected error. -/
def execKStepComplete (p id : Nat) (s : State) : Result :=
  match s.op? p id with
  | none => .next s
  | some o =>
    if (computing (s.pair p).ops).map (fun q => q.id) = some id then
      if (s.pair p).errMpad && o.readsPad p then
        .next (((s.modPair p fun k => { k with errMpad := false }).operandFault p o).nextStep p)
      else
        let s := if (s.pair p).errTmem then (s.modPair p fun k => { k with errTmem := false }).correct o.task else s
        let (s, ended) := s.opStep p o
        if ended then .next (((s.setOp p { o with steps := o.total }).post (.tileOpComplete p id)).nextStep p)
        else .next ((s.afterStep p o).nextStep p)
    else .next (s.nextStep p)

/-! ## Completion (R229, R236) -/

/-- The format tag of the result in every tile written (R224). -/
def State.writeTags (s : State) (o : Op) : State :=
  o.writes.foldl (fun s n => s.modStatus o.task n fun t => { t with fmt := BitVec.ofNat 5 o.cf }) s

/-- TILE_OP_COMPLETE: the destination is written back, pins and shadow are free, and its group may be complete. -/
def execTileOpComplete (p id : Nat) (s : State) : Result :=
  match s.op? p id with
  | none => .next s
  | some o =>
    if o.started && o.computed then .next ((((s.writeTags o).removeOp p o).settle p o.task).nextStep p)
    else .next s

/-! ## Gangs (R236) -/

/-- The first `mmag` of a gang in a pair that has not arrived. -/
def State.unarrived (s : State) (c gid p : Nat) : Option Op :=
  (s.pair p).ops.find? fun o => !o.alone p && o.kind == .mmag && gangId o.gang == gid &&
    !((s.cluster c).gangs.any fun g => g.arrivals.any fun a => a.2 == o.id)

/-- The pairs that have come to an entry of the table. -/
def Gang.pairs (g : Gang) : List Nat := (g.arrivals.map fun a => a.1) ++ g.seen

/-- An entry that waits takes the arrival of a pair: the gang id is its own, the pair has not come to it, and the pair is
among the members named there, or names one that has come. -/
def Gang.takes (g : Gang) (gid p mask : Nat) : Bool :=
  g.gid.toNat == gid && !g.started && !g.pairs.contains p &&
    (g.mask.testBit (p % 4) || g.pairs.any fun q => mask.testBit (q % 4))

/-- Every member that the entry names has come to it. -/
def Gang.full (g : Gang) (c : Nat) : Bool :=
  (List.range 4).all fun i => !g.mask.testBit i || g.pairs.contains (c * 4 + i)

/-- Put an entry of the table in the place of another. -/
def State.putGang (s : State) (c : Nat) (old new : Gang) : State :=
  s.modCluster c fun k => { k with gangs := k.gangs.map fun g => if g = old then new else g }

/-- Discard the operations that have arrived at a gang whose members disagree. -/
def discardArrivals : List (Nat × Nat) → State → State
  | [], s => s
  | a :: r, s =>
    match s.op? a.1 a.2 with
    | some o => discardArrivals r (((s.addFault o false 28 0x03).removeOp a.1 o).settle a.1 o.task)
    | none => discardArrivals r s

/-- The arrival of the lowest-numbered pair: the leader's. -/
def leadArrival (l : List (Nat × Nat)) : Option (Nat × Nat) :=
  l.foldl (fun m b => match m with | none => some b | some x => if b.1 < x.1 then some b else some x) none

/-- An operation comes to an entry: it waits there, or it is the last and all have met, or the members disagree and all are
discarded, those that come later too (DESIGN CHOICE, log 71). -/
def State.meet (s : State) (c : Nat) (g : Gang) (p : Nat) (o : Op) : State :=
  let mask := gangMembers o.gang
  let all := g.arrivals ++ [(p, o.id)]
  let agrees := !g.bad && g.mask == mask && g.arrivals.all fun a => (s.op? a.1 a.2).any fun q => gangRb q.gang == gangRb o.gang
  if agrees then
    let g' := { g with arrivals := all }
    if g'.full c then
      let lead := (leadArrival all).bind fun b => s.op? b.1 b.2
      all.foldl (fun s a => s.post (.tileOpStart a.1)) (s.putGang c g { g' with started := true, lead := lead })
    else s.putGang c g g'
  else
    let g' := { g with mask := g.mask ||| mask, bad := true, arrivals := [], seen := g.pairs ++ [p] }
    let s := discardArrivals all (s.putGang c g g')
    if g'.full c then s.modCluster c fun k => { k with gangs := k.gangs.filter fun x => x != g' } else s

/-- A new entry of the table with its first arrival. -/
def openGang (gid mask : Nat) (a : Nat × Nat) : Gang :=
  { gid := BitVec.ofNat 8 gid, mask := mask, arrivals := [a], started := false, bad := false, seen := [], lead := none,
    rows := none }

/-- The next operation of a gang at a pair arrives; none from a pair whose drain has ended, and a ninth gang waits to enter
(R236). -/
def State.arriveGang (s : State) (c gid p : Nat) : State :=
  match s.unarrived c gid p with
  | none => s
  | some o =>
    let gs := (s.cluster c).gangs
    if (s.cluster c).drain = some (p, 1) then s
    else match gs.find? fun g => g.takes gid p (gangMembers o.gang) with
      | some g => s.meet c g p o
      | none =>
        if gs.length ≥ 8 then s
        else s.modCluster c fun k => { k with gangs := k.gangs ++ [openGang gid (gangMembers o.gang) (p, o.id)] }

/-- The members of a gang begin their next row block once each has done the one before (R236). -/
def State.advanceGang (s : State) (c : Nat) (g : Gang) : State :=
  let ms := g.arrivals.filterMap fun a => (s.op? a.1 a.2).map fun o => (a.1, o)
  match ms.head?, g.lead with
  | some m, some lead =>
    if g.started && (ms.all fun e => e.2.started && e.2.blockDone) && m.2.block != m.2.lastBlock then
      let s := s.modGang c m.2.id fun g => { g with rows := some (s.streamRows c lead (m.2.block + 1)) }
      ms.foldl (fun s e => (s.nextBlock e.1 e.2).nextStep e.1) s
    else s
  | _, _ => s

/-- GANG_RENDEZVOUS: gangs of this id go on to their next row block, and the members' next operations arrive; when all have,
they start, and when they disagree, they are discarded. -/
def execGangRendezvous (c gid : Nat) (s : State) : Result :=
  let s := ((s.cluster c).gangs.filter fun g => g.gid.toNat == gid).foldl (fun s g => s.advanceGang c g) s
  .next (((List.range 4).map fun i => c * 4 + i).foldl (fun s p => s.arriveGang c gid p) s)

/-! ## Errors of tile memory (R233) -/

/-- The task's tile whose physical place this is has a live region shadow. -/
def shadowed (t : Task) (q : Nat) : Bool := t.region.shadows.any fun e => t.phys e.1 == q

/-- An uncorrectable error met while the tile is saved (R372): a report, and the restore of that image fails. -/
def State.saveError (s : State) (n c : Nat) (h : Word) : State :=
  (s.report ringTerminal (mkReport s 5 28 0x20 c h)).1.modPart n fun x => { x with damaged := (x.saveBase, c) :: x.damaged }

/-- The partition that the cluster serves is being saved. -/
def State.savingPart (s : State) (c : Nat) : Option Nat :=
  (s.partOf c).filter fun n => (s.parts.get n default).state == 3

/-- TILE_ECC_ERROR at a physical tile; in a stopped partition nothing but a save reads it. -/
def execTileEccError (p q : Nat) (corrected : Bool) (s : State) : Result :=
  match (s.tile p q).owner with
  | none => .next s
  | some h =>
    if corrected then .next (s.correct h)
    else if s.refuses (clusterOfPair p) then
      match s.savingPart (clusterOfPair p) with
      | some n => .next (s.saveError n (clusterOfPair p) h)
      | none => .next s
    else match s.task? h with
      | none => .next s
      | some t =>
        match shadowed t q, s.hartOf h with
        | true, some n => .next (s.restartTask n)
        | _, _ => .next (s.faultTaskOf h (mkReport s 3 28 0x20 t.cluster h))

end Sys2Proof.Machine
end

