-- ==== Sys2Proof/Machine/Windrow.lean ====
section
/-! DEFINITION. The windrow (R373 to R376), core loss (R381), and errors of links (R380, R397). -/

namespace Sys2Proof.Machine

/-! ## Drains (R373, R374) -/

/-- The pair has lost a core. -/
def State.pairLost (s : State) (c i : Nat) : Bool :=
  (s.cluster c).lostCores.getLsbD (2 * i) || (s.cluster c).lostCores.getLsbD (2 * i + 1)

/-- The pair that drains next: one with a lost core before the rotation (R381); a pair that failed its scan is passed. -/
def State.nextDrain (s : State) (c : Nat) : Option Nat :=
  let open_ := fun i => (s.pair (c * 4 + i)).state == 0
  match (List.range 4).find? fun i => open_ i && s.pairLost c i with
  | some i => some i
  | none => ((List.range 4).map fun j => ((s.cluster c).nextPair + j) % 4).find? open_

/-- WINDROW_DRAIN_START: dispatch and tile allocation stop on the next pair. -/
def execWindrowDrainStart (c : Nat) (s : State) : Result :=
  match (s.cluster c).drain, s.nextDrain c with
  | none, some i =>
    .next (s.modCluster c fun k => { k with
      drain := some (c * 4 + i, 0), nextPair := if s.pairLost c i then k.nextPair else (i + 1) % 4 })
  | _, _ => .next s

def hartsOfPair (p : Nat) : List Nat := (List.range 16).map fun i => p * 16 + i

/-- Gang members of the pair that still wait withdraw their arrivals (R236). -/
def State.withdrawPair (s : State) (p : Nat) : State :=
  ((s.pair p).ops.filter fun o => !o.started).foldl
    (fun s o => s.modCluster (clusterOfPair p) fun k => { k with gangs := withdraw o.id k.gangs }) s

/-- WINDROW_DRAIN_TIMEOUT: every region still open on the pair aborts. -/
def execWindrowDrainTimeout (c : Nat) (s : State) : Result :=
  match (s.cluster c).drain with
  | some (p, 0) =>
    .next (haltAll (hartsOfPair p) ((s.modCluster c fun k => { k with drain := some (p, 1) }).withdrawPair p))
  | _ => .next s

/-! ## Scans (R375) -/

/-- The state of the hart has been saved with its partition (R359, R384). -/
def State.isSaved (s : State) (h : Nat) : Bool :=
  match (s.partOf (clusterOf h)).bind s.parts.find with
  | some x => x.state == 4
  | none => false

/-- No region runs on the pair, and its engine has nothing to do; the tasks of a stopped partition have been saved (R384). -/
def State.scanReady (s : State) (p : Nat) : Bool :=
  ((hartsOfPair p).all fun h => !s.inRegion h || s.isSaved h) && (s.pair p).ops.all fun o => !o.started && !s.canStart p o

/-- A launch still holds a hart of the pair, in S or M mode or in a stop: its use has not ended. -/
def State.holdsPair (s : State) (l p : Nat) : Bool :=
  (hartsOfPair p).any fun h => match s.taskOf h with
    | some t => t.launch == l
    | none => false

/-- The pass covers every use that has ended. -/
def State.cover (s : State) (p : Nat) : State :=
  { s with launches := s.launches.mapVal fun k l =>
      if s.holdsPair k p then l else { l with uses := l.uses.filter fun q => q != p } }

/-- The lost cores of a pair return to service; their mailboxes reopen empty (R335). -/
def State.returnCores (s : State) (c i : Nat) : State :=
  let m : BitVec 8 := BitVec.ofNat 8 (3 * 4 ^ i)
  let back := fun h : Nat => clusterOf h = c && (s.cluster c).lostCores.getLsbD (coreOf h % 8) && coreOf h % 8 / 2 = i
  let s := { s with harts := s.harts.mapVal fun h x => if back h then { x with inService := true } else x }
  s.modCluster c fun k => { k with lostCores := k.lostCores &&& ~~~m, sealedCores := k.sealedCores &&& ~~~m }

/-- Every launch with a use that no scan has covered since becomes tainted. -/
def State.taintUses (s : State) (p : Nat) : State :=
  State.spread { s with launches := s.launches.mapVal fun _ l => if l.uses.contains p then { l with tainted := true } else l }

/-- What a hart of a failed pair still holds is re-queued at its restart point, and the hart leaves service. -/
def retireHarts : List Nat → State → State
  | [], s => s
  | h :: r, s =>
    let s := match (s.hart h).task with
      | some t => ((s.withdrawWait h).setAside h .ready).makeReady t
      | none => (s.withdrawWait h).freeHart h
    retireHarts r (s.modHart h fun x => { x with inService := false })

/-- Tasks bound to the tiles of a pair move with them at their next dispatch. -/
def State.moveBound (s : State) (p : Nat) : State :=
  { s with tasks := s.tasks.mapVal fun _ t => if t.pair = some p then { t with moved := true } else t }

/-- A failed scan: taint, the pair out of service, its tasks moved, a terminal report. -/
def State.scanFails (s : State) (c p : Nat) : State :=
  let s := (retireHarts (hartsOfPair p) (s.taintUses p)).moveBound p
  let s := (removeOps s p (s.pair p).ops).modPair p fun k => { k with state := 1 }
  (s.report ringTerminal (mkReport s 5 28 0x23 c 0)).1

/-- WINDROW_SCAN_END, with a pass or a fail. -/
def execWindrowScanEnd (c : Nat) (pass : Bool) (s : State) : Result :=
  match (s.cluster c).drain with
  | some (p, 1) =>
    if s.scanReady p then
      let s := s.modCluster c fun k => { k with drain := none }
      let s := if pass then (s.cover p).returnCores c (p % 4) else s.scanFails c p
      .next ((s.amend.post (.tileOpStart p)).retryGangs c)
    else .next s
  | _ => .next s

/-! ## Core loss (R381) -/

/-- The effect of the instruction in this wait has been made elsewhere: an arrival has been applied, or the answer has come
(R128, R142). -/
def Wait.applied (w : Wait) : Bool :=
  match w.kind with
  | .arrived _ _ => true
  | _ => w.reply.isSome

/-- A hart of a lost core: its region aborts, or in S and M mode its task goes back to its last commit point (R121); the task
is lost, or ends where an end was due. A wait whose effect has been made goes with the task. -/
def State.loseHart (s : State) (h : Nat) : State :=
  let s := match (s.hart h).task with
    | none => (s.withdrawWait h).freeHart h
    | some t =>
      let keep := if s.inRegion h then (s.hart h).waiting.filter Wait.applied else none
      let s := match keep with
        | some _ => s
        | none => s.withdrawWait h
      let s := ((if s.inRegion h then s.abortTask t else s.rewind t).modTask t fun x => { x with resume := keep }).setAside h .lost
      match (s.task? t).bind fun x => x.ending with
      | some how => s.endTask t how
      | none => s
  s.modHart h fun x => { x with inService := false, stopped := false }

def loseHarts : List Nat → State → State
  | [], s => s
  | h :: r, s => loseHarts r (s.loseHart h)

/-- CORE_LOSS. -/
def execCoreLoss (core : Nat) (s : State) : Result :=
  let c := clusterOfCore core
  let m : BitVec 8 := BitVec.ofNat 8 (2 ^ (core % 8))
  if (s.cluster c).lostCores.getLsbD (core % 8) then .next s
  else
    let s := loseHarts ((List.range 8).map fun i => core * 8 + i) s
    let s := ((s.unpost (.coreLoss core)).modCluster c fun k =>
      { k with lostCores := k.lostCores ||| m, lossNote := true, errCore := k.errCore &&& ~~~m }).sealCore core
    .next (match s.stoppingPart (core * 8) with | some p => s.stopIfLast p | none => s)

/-! ## Links (R380, R397) -/

/-- FLIT_CRC_ERROR: the flit is replayed and nothing is visible (R380). -/
def execFlitCrcError (_port : Nat) (s : State) : Result := .next s

/-- LINK_PORT_LOST: the port is out, its traffic takes the others, and a terminal report is posted. -/
def execLinkPortLost (port : Nat) (s : State) : Result :=
  if s.ports.getLsbD port then .next s
  else
    let s := { s with ports := s.ports ||| BitVec.ofNat 18 (2 ^ port) }
    .next (s.report ringTerminal (mkReport s 5 51 0x06 0 0)).1

end Sys2Proof.Machine
end

