-- ==== Sys2Proof/Machine/Bale.lean ====
section
/-! DEFINITION. The saved image of a partition, byte by byte (R361 to R365 with R125, R167 to R169, R201, R202, R239, R320,
R344): its sections, directory and header. -/

namespace Sys2Proof.Machine

/-! ## CRC-32C (R361) -/

def crc32Bits : Nat → Nat → Nat
  | 0, c => c
  | n + 1, c => crc32Bits n (if c % 2 = 1 then Nat.xor (c / 2) 0x82F63B78 else c / 2)

def crc32Go : List Byte → Nat → Nat
  | [], c => c
  | b :: r, c => crc32Go r (crc32Bits 8 (Nat.xor c b.toNat))

/-- The CRC-32C of RFC 3720. -/
def crc32c (bs : List Byte) : Nat := Nat.xor (crc32Go bs 0xFFFFFFFF) 0xFFFFFFFF

/-! ## Sections (R362, R363) -/

/-- A section: its type, its instance, the number of its records, and its bytes. -/
structure Sect where
  type  : Nat
  inst  : Nat
  count : Nat
  bytes : List Byte
  deriving DecidableEq, Repr, Inhabited

def noInstance : Nat := 0xFFFF

def sectOf (type inst : Nat) (recs : List (List Byte)) : Sect :=
  { type := type, inst := inst, count := recs.length, bytes := recs.flatten }

def zeros (n : Nat) : List Byte := List.replicate n 0
def word8 (w : Word) : List Byte := leBytes 8 w.toNat

/-- The clusters that a bale holds. -/
def Part.saved (p : Part) : List Nat := maskList p.clusters

/-! ### Partition and launches (R365) -/

/-- The launches of a partition that have posted and whose accepted record has a level of scope 7 (R64); what the field of R365
counts is DEDUCED (log 74). -/
def State.clampsPosted (s : State) (n : Nat) : Nat :=
  (s.launches.filter fun e => e.2.part == n && !e.2.unfinished && (levelsOf e.2.record).any fun v => v.scope == 7).length

def partRecord (s : State) (n : Nat) (p : Part) : List Byte :=
  leBytes 1 n ++ zeros 7 ++ leBytes 16 p.clusters.toNat ++ leBytes 16 p.vaults.toNat ++ leBytes 8 p.clamps.toNat ++
    leBytes 8 (if p.kind = 3 then s.clampsPosted n else 0) ++ zeros 200

def launchRecord (l : Launch) : List Byte :=
  word8 l.seq ++ word8 l.completion ++ leBytes 4 l.rootsLive ++ leBytes 1 l.verdict ++ leBytes 1 (l.record.getD 4 0).toNat ++
    zeros 42

def State.partLaunches (s : State) (n : Nat) : List Launch :=
  (s.launches.filter fun e => e.2.part == n && e.2.unfinished).map fun e => e.2


def State.fmtRecord (s : State) (ctx : Nat) : List Byte :=
  (List.range 32).flatMap fun id => word8 (if id < 16 then fixedEntries.getD id 0 else s.fmts.get (ctx * 32 + id) 0)

/-! ### Harts (R125) -/

/-- The record of a hart. Its `mip` word holds the bits that software writes, without the external signal that the `sip` word
includes (DESIGN CHOICE, log 75: the manual does not say whether the saved word holds the signal). -/
def hartRecord (s : State) (h : Nat) : List Byte :=
  let x := s.hart h
  let y := x.sys
  let t := s.taskOf h
  let r := match t with | some t => t.region | none => Region.zero
  let wfi := x.waiting.any fun w => w.instr == .wfi
  let xs := (0 :: (x.ctx.x.toList.drop 1)).flatMap word8
  word8 (hartloc s.chip h) ++ word8 (x.task.getD 0) ++ word8 x.pc ++
    leBytes 8 (x.mode.code + (if wfi then 4 else 0) + r.rst.toNat * 2 ^ 8 + r.rseq.toNat * 2 ^ 16) ++
    leBytes 8 x.ctx.fcsr.toNat ++ leBytes 8 x.ctx.stcol.toNat ++ leBytes 8 x.ctx.vrm.toNat ++ leBytes 8 x.ctx.mgang.toNat ++
    (x.ctx.mfmt.toList.flatMap fun v => leBytes 8 v.toNat) ++
    leBytes 2 ((t.map fun t => t.group.toNat).getD 0) ++
    leBytes 2 ((t.map fun t => t.remoteCount.toNat).getD x.remoteCount.toNat) ++ zeros 28 ++ xs ++
    (x.ctx.f.toList.flatMap word8) ++
    ([sstatusRead y.mstatus, y.sepc, y.scause, y.stval, y.sscratch, y.stvec, y.mie &&& y.mideleg, y.satp].flatMap word8) ++
    ([s.mipOf h &&& y.mideleg, y.scounteren.setWidth 64, y.senvcfg].flatMap word8) ++ zeros 40 ++
    ([y.mstatus ||| xlFields, y.mepc, y.mcause, y.mtval, y.mscratch, y.mtvec, y.mie, y.mip, y.medeleg, y.mideleg,
      y.mcounteren.setWidth 64, y.menvcfg].flatMap word8) ++ zeros 160

/-- The harts of a cluster that have a record. -/
def State.hartsSaved (s : State) (c : Nat) : List Nat :=
  ((List.range 64).map fun i => c * 64 + i).filter fun h => (s.hart h).task.isSome || (s.hart h).mode != .u

/-- The contexts of a partition: those its saved harts run in and those with entries of their own, in rising order (R239,
R241). -/
def State.contextsOf (s : State) (n : Nat) (cs : List Nat) : List Nat :=
  sortBy id ((((s.fmts.map fun e => e.1 / 32).filter fun c => c / 2 ^ 64 == n + 1) ++
    (cs.flatMap s.hartsSaved).map s.ctxOf).eraseDups)

/-! ### Barriers and mailboxes (R364) -/

def barrierBase (scope unit part : Nat) : Nat := ((scope * 1024 + unit) * 128 + part) * 64

def barrierRecord (s : State) (scope unit part : Nat) : List Byte :=
  leBytes 1 scope ++ zeros 3 ++ leBytes 4 unit ++ zeros 8 ++
    (List.range 48).flatMap fun i =>
      let b := s.barrier (barrierBase scope unit part + i)
      leBytes 2 b.count.toNat ++ leBytes 2 b.arrivals.toNat ++ leBytes 2 b.phase.toNat ++ zeros 2

/-- The cluster is the lowest saved one of its meadow. -/
def lowestOfMeadow (cs : List Nat) (c : Nat) : Bool := !(cs.any fun d => d / 8 == c / 8 && decide (d < c))

def barrierRecords (s : State) (n : Nat) (cs : List Nat) (c : Nat) : List (List Byte) :=
  ((List.range 8).map fun i => barrierRecord s 1 (c * 8 + i) 0) ++ ((List.range 4).map fun i => barrierRecord s 2 (c * 4 + i) 0) ++
    [barrierRecord s 3 c 0] ++ (if lowestOfMeadow cs c then [barrierRecord s 4 (c / 8) (n + 1)] else [])

def mailSlot (m : Option Message) : List Byte :=
  match m with
  | some m => word8 m.sender ++ leBytes 64 m.data.toNat
  | none => zeros 72

def mailRecord (s : State) (core : Nat) : List Byte :=
  let boxes := (List.range 4).map fun b => (s.mailbox (mailKey core b)).msgs
  leBytes 4 core ++ leBytes 1 (if s.sealed core then 1 else 0) ++ (boxes.flatMap fun b => leBytes 1 b.length) ++ zeros 7 ++
    boxes.flatMap fun b => (List.range 8).flatMap fun i => mailSlot b[i]?

/-! ### Task engine (R167 to R169) -/

def State.futuresOf (s : State) (c : Nat) : List (Nat × Future) :=
  s.futures.filter fun e => e.1 / 4096 == c && e.2.state != 0

def futureRecord (s : State) (key : Nat) (f : Future) : List Byte :=
  futRecord (f.handle key) f.value (s.statusOf (f.handle key) f) f.parent

/-- The generations of all slots of a cluster. -/
def State.genTable (s : State) (c : Nat) : List Byte :=
  (List.range 4096).flatMap fun n => leBytes 4 (s.futures.get (c * 4096 + n) default).gen.toNat

def futureSect (s : State) (c : Nat) : Sect :=
  let fs := s.futuresOf c
  { type := 0x0801, inst := c, count := fs.length, bytes := (fs.flatMap fun e => futureRecord s e.1 e.2) ++ s.genTable c }

/-- The state code of a task that is not on a hart; none for one that is on its way or gone. -/
def taskCode : TaskState → Option Nat
  | .ring => some 0
  | .preparing => some 1
  | .ready | .paged | .lost => some 2
  | .parked => some 4
  | .flying | .running | .stopping => none

/-- How long a task has stood ready: no step of the model has a length (log 6). -/
def readyMicros (h : Nat) : Nat := (Config.freeWord (h + 2 ^ 64)).toNat % 2 ^ 16

/-- The stage arguments that have hoisted; one that is not valid has not. -/
def doneMask (args : List StageArg) (ps : List Prefetch) : Nat :=
  (args.zip ps).zipIdx.foldl (fun v e => if e.1.1.valid ∧ e.1.2 = Prefetch.done then v + 2 ^ e.2 else v) 0

def taskRecord (s : State) (h : Nat) (t : Task) : List Byte :=
  let code := (taskCode t.state).getD 2
  leBytes 8 h ++ leBytes 1 code ++ leBytes 1 (s.eprio (wordOf h) + 4 * t.promo.toNat) ++
    leBytes 2 (if code = 2 then readyMicros h else 0) ++
    leBytes 1 ((t.pair.map fun p => p % 4).getD 0xFF) ++ leBytes 1 (doneMask t.desc.args t.prefetch) ++
    leBytes 2 (if t.dispatched then t.group.toNat else 0) ++ leBytes 8 (if t.dispatched then t.region.ckpt.pc.toNat else 0) ++
    leBytes 2 t.remoteCount.toNat ++ zeros 38 ++ t.desc.raw ++ zeros (128 - t.desc.raw.length) ++ zeros 64

/-- The tasks of section 0x0802 in their order: by level from 3 down and by age, the ring last. -/
def State.tasksSaved (s : State) (c : Nat) : List (Nat × Task) :=
  let ts := s.tasks.filter fun e => e.2.cluster == c && (taskCode e.2.state).isSome
  let table := ts.filter fun e => e.2.state != .ring
  let aged := sortBy (fun e => (3 - s.eprio (wordOf e.1)) * 2 ^ 64 + e.2.order) table
  aged ++ sortBy (fun e => e.2.order) (ts.filter fun e => e.2.state == .ring)

def waiterRecord (w : Waiter) : List Byte := word8 w.future ++ word8 w.task

def areasRecord (s : State) (c : Nat) : List Byte :=
  let k := s.cluster c
  word8 k.spillBase ++ word8 k.spillSize ++ word8 k.ringBase ++ word8 k.ringSize ++ leBytes 8 k.ringHead ++ leBytes 8 k.ringTail ++
    leBytes 8 (crc32c (s.genTable c)) ++ zeros 8

/-! ### Copy engine (R201, R202) -/

def kindCode : CopyKind → Nat
  | .cpyin => 0
  | .cpyout => 1
  | .cpyx => 2
  | .gather => 3
  | .broadcast => 4
  | .fetch => 5

def stageWindow (n off : Nat) : Nat := 0x7F4000000000 + n * 2 ^ 20 + off

def commandRecord (s : State) (c n : Nat) (x : CopySlot) : List Byte :=
  let out := x.kind == .cpyout
  let dst := if x.kind = .cpyx then copyChip x.word * 2 ^ 20 + copyDcl x.word else s.chip.toNat * 2 ^ 20 + c
  word8 (x.ticket n) ++ word8 x.task ++ leBytes 1 (kindCode x.kind) ++ leBytes 1 x.state ++
    leBytes 1 (if out then 0 else copyStage x.word) ++ leBytes 1 (if x.kind = .broadcast then copyMask x.word else 0) ++
    leBytes 4 dst ++ (if out then leBytes 8 (stageWindow (copyStage x.word) (copyOff x.word)) else word8 x.addr) ++
    (if out then word8 x.addr else leBytes 8 (copyOff x.word)) ++ leBytes 4 x.total ++ leBytes 4 x.done ++ word8 x.status ++ zeros 8

/-- Quiesced commands in queue order, then those that ended and are not reported. -/
def State.commandsSaved (s : State) (c : Nat) : List Nat :=
  (s.cluster c).copyQueue ++ ((s.cluster c).slots.filter fun e => e.2.state == 5 || e.2.state == 6).map fun e => e.1

def stageRecord (t : Stage) : List Byte := word8 { t with pins := 0 }.word0 ++ word8 t.word1

def rowsBytes (rows : Table Row) : List Byte := (List.range 64).flatMap fun i => leBytes 256 (rows.get i 0).toNat

/-- The tile images that stand in a spill stage of a cluster: the task, its pair, the register and the flat number. -/
def State.spillTiles (s : State) (c n : Nat) : List (Nat × Nat × Nat) :=
  (s.tasks.filter fun e => e.2.cluster == c).flatMap fun e =>
    match e.2.pair with
    | none => []
    | some p => e.2.tiles.zipIdx.flatMap fun x =>
      let a := (s.tile p x.1).axes
      if a ≠ 0 ∧ e.2.lift.spillOf a = n then (List.range (e.2.lift.count a)).drop 1 |>.map fun i => (e.1, x.2, i) else []

/-- A granule with a mask image or a stack entry: its task, its kind, and where it belongs. -/
def granule (h kind reg at_ : Nat) (target : Word) (set : Mask) : List Byte :=
  leBytes 8 h ++ leBytes 1 kind ++ leBytes 1 reg ++ leBytes 1 at_ ++ zeros 5 ++ word8 target ++ zeros 8 ++ leBytes 32 set.toNat

/-- The granules with mask images and stack entries that stand in a spill stage of a cluster. -/
def State.spillGranules (s : State) (c n : Nat) : List (List Byte) :=
  (s.tasks.filter fun e => e.2.cluster == c).flatMap fun e =>
    let l := e.2.lift
    (l.masks.toList.zipIdx.flatMap fun m =>
      if m.1.tags ≠ 0 ∧ l.spillOf m.1.tags = n then
        (List.range (l.count m.1.tags)).drop 1 |>.map fun i => granule e.1 1 m.2 i 0 (m.1.images.get i 0)
      else []) ++
    (l.stack.zipIdx.filter fun x => ((l.axes[x.1.depth - 1]?).map fun a => a.spill) == some n).map fun x =>
      granule e.1 2 x.2 x.1.depth x.1.target x.1.set

/-- The footprint of a spill stage: granules from its start, tile images down from its end (R306, R320; the placement is a
DESIGN CHOICE, log 76). -/
def State.spillBytes (s : State) (c n size : Nat) : List Byte :=
  let small := (s.spillGranules c n).flatten
  let tiles := s.spillTiles c n
  small ++ zeros (size - small.length - 16384 * tiles.length) ++
    tiles.reverse.flatMap fun x => rowsBytes (s.image (wordOf x.1) x.2.1 x.2.2)

def stageData (s : State) (c : Nat) : List (List Byte) :=
  (List.range 64).filterMap fun n =>
    let t := s.stage c n
    if t.defined then
      some (if t.lifts > 0 then s.spillBytes c n (2 * t.size) else s.bytes (padAddr c t.base) (2 * t.size))
    else none

/-! ### Tile engines (R239, R320) -/

def pairRecord (s : State) (p : Nat) : List Byte :=
  let free := (List.range 16).foldl (fun v t => if (s.tile p t).owner.isNone then v + 2 ^ t else v) 0
  leBytes 4 p ++ leBytes 2 free ++ zeros 58 ++
    (List.range 16).flatMap fun i => leBytes 4 ((s.pair p).sems.get i 0).toNat

def tileRecord (s : State) (p t : Nat) : List Byte :=
  let x := s.tile p t
  leBytes 4 p ++ leBytes 1 t ++ zeros 3 ++ word8 (x.owner.getD 0) ++ word8 x.status ++ zeros 40 ++ rowsBytes x.rows

def State.tilesSaved (s : State) (p : Nat) : List (List Byte) :=
  (List.range 16).filterMap fun t => if (s.tile p t).owner.isSome then some (tileRecord s p t) else none

def axisRecord (a : Option Axis) : List Byte :=
  match a with
  | some a => leBytes 1 a.extent ++ leBytes 1 a.spill ++ zeros 2 ++ leBytes 4 (a.entry.toNat / 4 * 4) ++ word8 a.stride
  | none => zeros 16

def liftRecord (l : Lift) : List Byte :=
  let tags := (List.range 7).foldl (fun v i => v + ((l.masks.toList.getD (i + 1) default).tags.toNat) * 2 ^ (4 * i)) 0
  leBytes 1 l.axes.length ++ leBytes 1 l.stack.length ++ zeros 2 ++ leBytes 4 tags ++ zeros 8 ++
    ((List.range 4).flatMap fun i => axisRecord l.axes[i]?) ++ leBytes 32 l.active.toNat ++ zeros 144

def mapRecord (h : Nat) (p : Nat) (t : Task) : List Byte :=
  leBytes 8 h ++ leBytes 1 (p % 4) ++ leBytes 1 t.tiles.length ++ zeros 6 ++
    ((List.range 16).flatMap fun i => leBytes 1 (t.tiles.getD i 0xFF)) ++
    ((List.range 7).flatMap fun i => leBytes 32 (((t.lift.masks.toList.getD (i + 1) default).images.get 0 0).toNat)) ++
    liftRecord t.lift

def State.mapsSaved (s : State) (p : Nat) : List (List Byte) :=
  (s.tasks.filter fun e => e.2.pair == some p && e.2.tiles != []).map fun e => mapRecord e.1 p e.2

/-! ### Gates (R344) -/

def accessRecord (a : Access) : List Byte :=
  leBytes 2 a.chip.toNat ++ leBytes 1 a.part ++ leBytes 1 a.rights.toNat ++ leBytes 1 (if a.policy then 1 else 0) ++ zeros 1 ++
    leBytes 2 a.rate ++ leBytes 2 a.burst ++ leBytes 2 a.tokens ++ zeros 4

def queuedRecord (r : GateRequest) : List Byte :=
  let amount := match r.op with | .gsig v => v.toNat | _ => 0
  leBytes 2 r.chip ++ leBytes 1 r.part ++ zeros 5 ++ leBytes 8 amount

def gateRecord (chip : BitVec 12) (n : Nat) (g : Gate) : List Byte :=
  let live := g.access.filter fun a => a.valid
  word8 (gateHandle chip n) ++ leBytes 1 g.owner ++ leBytes 1 ((if g.opened then 1 else 0) + if g.frozen then 2 else 0) ++
    leBytes 1 g.queue.length ++ leBytes 1 live.length ++ zeros 4 ++ word8 g.counter ++ word8 g.paySeq ++ word8 g.base ++
    leBytes 4 g.size.toNat ++ leBytes 2 g.key ++ zeros 18 ++ leBytes 64 g.payload.toNat ++
    (live.flatMap accessRecord) ++ zeros (128 - 16 * live.length) ++ (g.queue.flatMap queuedRecord) ++
    zeros (256 - 16 * g.queue.length)

def gateRecords (s : State) (n : Nat) : List (List Byte) :=
  (s.gates.filter fun e => e.2.present && e.2.owner == n).map fun e => gateRecord s.chip e.1 e.2

def gateWaits (p : Part) : List (List Byte) := p.waits.map fun w => word8 w.2.1 ++ word8 w.2.2

/-! ## The whole image (R361 to R363) -/

def clusterSects (s : State) (n : Nat) (cs : List Nat) (c : Nat) : List Sect :=
  let ps := (List.range 4).map fun i => c * 4 + i
  [ sectOf 0x0101 c ((s.hartsSaved c).map (hartRecord s)),
    sectOf 0x0701 c (barrierRecords s n cs c),
    futureSect s c,
    sectOf 0x0802 c ((s.tasksSaved c).map fun e => taskRecord s e.1 e.2),
    sectOf 0x0803 c (((s.cluster c).waiters.filter fun w => w.spill.isNone).map waiterRecord),
    sectOf 0x0804 c [areasRecord s c],
    sectOf 0x0B01 c ((List.range 64).map fun i => stageRecord (s.stage c i)),
    sectOf 0x0B02 c ((s.commandsSaved c).map fun i => commandRecord s c i (s.slot c i)),
    sectOf 0x0B03 c (stageData s c),
    sectOf 0x0E01 c (ps.map (pairRecord s)),
    sectOf 0x0E02 c (ps.flatMap s.tilesSaved),
    sectOf 0x0E03 c (ps.flatMap s.mapsSaved),
    sectOf 0x1703 c ((List.range 8).map fun i => mailRecord s (c * 8 + i)) ]

/-- The sections in the order of R363. -/
def baleSects (s : State) (n : Nat) (p : Part) : List Sect :=
  [ sectOf 0x1701 noInstance [partRecord s n p],
    sectOf 0x1704 noInstance ((s.partLaunches n).map launchRecord),
    sectOf 0x0E04 noInstance ((s.contextsOf n p.saved).map s.fmtRecord) ] ++
  (p.saved.flatMap fun c => clusterSects s n p.saved c) ++
  [ sectOf 0x1601 noInstance (gateRecords s n), sectOf 0x1602 noInstance (gateWaits p) ]

def align64 (n : Nat) : Nat := (n + 63) / 64 * 64

/-- Each section with its offset from the header. -/
def placeSects : Nat → List Sect → List (Nat × Sect)
  | _, [] => []
  | o, x :: r => (align64 o, x) :: placeSects (align64 o + x.bytes.length) r

def placed (l : List Sect) : List (Nat × Sect) := placeSects (64 + 32 * l.length) l

def baleEnd : Nat → List (Nat × Sect) → Nat
  | n, [] => n
  | _, (o, x) :: r => baleEnd (o + x.bytes.length) r

def dirEntry (e : Nat × Sect) : List Byte :=
  leBytes 2 e.2.type ++ leBytes 2 e.2.inst ++ leBytes 4 e.2.count ++ leBytes 8 e.1 ++ leBytes 8 e.2.bytes.length ++
    leBytes 4 (crc32c e.2.bytes) ++ zeros 4

/-- The header (R361): `stop` is none for a complete bale, else the section index and offset where writing stopped. -/
def baleHeader (s : State) (n kind len count : Nat) (stop : Option (Nat × Nat)) : List Byte :=
  let h := [0x42, 0x41, 0x4C, 0x45] ++ leBytes 2 1 ++ leBytes 2 kind ++ leBytes 8 len ++ leBytes 4 count ++
    leBytes 4 (if stop.isSome then 2 else 1) ++ leBytes 1 n ++ zeros 1 ++ leBytes 2 Config.firmwareVersion.toNat ++
    leBytes 2 s.chip.toNat ++ zeros 2 ++ leBytes 4 ((stop.map fun x => x.1).getD 0) ++ zeros 4 ++
    leBytes 8 ((stop.map fun x => x.2).getD 0) ++ leBytes 8 64
  h ++ leBytes 4 (crc32c h) ++ zeros 4

/-- Bytes of the directory and of the sections, with the padding between. -/
def baleBody : Nat → List (Nat × Sect) → List Byte
  | _, [] => []
  | n, (o, x) :: r => zeros (o - n) ++ x.bytes ++ baleBody (o + x.bytes.length) r

/-- All bytes after the header. -/
def baleTail (l : List Sect) : List Byte :=
  let ps := placed l
  (ps.flatMap dirEntry) ++ baleBody (64 + 32 * l.length) ps

/-- The section, and the offset in it, of a byte of the image. -/
def baleSpot : Nat → Nat → List (Nat × Sect) → Nat × Nat
  | _, i, [] => (i, 0)
  | at_, i, (o, x) :: r => if at_ < o + x.bytes.length then (i, at_ - o) else baleSpot at_ (i + 1) r

end Sys2Proof.Machine
end

