-- ==== Sys2Proof/Machine/Context.lean ====
section
/-! DEFINITION. The context engine (R346, R347, R358 to R360, R366, R367, R371, R372, R395): stopping a partition, saving
it, resuming it, and tearing it down. Restoring is in its own file. -/

namespace Sys2Proof.Machine

/-! ## Commands (R359, R395) -/

/-- A command of the partition runs. -/
def Part.busy (x : Part) : Bool := x.command != 0 || x.scrubProg.getLsbD 62

def State.setCode (s : State) (p code : Nat) : State := s.partReg p fun x => { x with code := BitVec.ofNat 8 code }

/-- A command word for partition `p`: refused with 5 while a command runs, with 4 where it is not allowed. -/
def State.ctxCommand (s : State) (p : Nat) (allowed : Part → Bool) (f : Part → State) : Result :=
  let x := s.parts.get p default
  if x.busy then .next (s.setCode p 5)
  else if x.present && allowed x then .next (f x) else .next (s.setCode p 4)

/-- The command ends in this state with this code. -/
def State.ctxEnd (s : State) (p state code : Nat) : State :=
  s.modPart p fun x => { x with state := state, code := BitVec.ofNat 8 code, command := 0, stopStep := 0, sect := 0 }

/-! ## Stopping (R358) -/

/-- Steps 1 and 2: dispatch stops, and every hart at its boundary stops. -/
def State.beginStop (s : State) (p command kind : Nat) : State :=
  let s := s.modPart p fun x =>
    { x with state := 1, stopStep := 2, command := command, kind := kind,
             waits := if command = 2 then s.ownWaits p else [], damaged := x.damaged.filter fun e => e.1 != x.saveBase }
  let s := haltAll (s.hartsOf p) s
  match s.parts.find p with
  | some x => if x.stopStep = 2 then s.stopIfLast p else s
  | none => s

/-- A stop command; one that comes during a stop joins it (R372). -/
def State.stopCommand (s : State) (p command kind : Nat) (allowed : Part → Bool) : Result :=
  if (s.parts.get p default).state = 1 then .next s
  else s.ctxCommand p allowed fun x =>
    if x.state = 2 then
      (s.modPart p fun x => { x with
        state := 3, command := command, kind := kind, baleAt := 0,
        damaged := x.damaged.filter fun e => e.1 != x.saveBase }).post (.baleWriteDone p)
    else s.beginStop p command kind

def execCtxStopSavePreempt (p : Nat) (s : State) : Result := s.stopCommand p 1 1 fun x => x.state == 0
def execCtxStopSaveMigrate (p : Nat) (s : State) : Result := s.stopCommand p 2 2 fun x => x.state == 0
def execCtxStopSaveDump (p : Nat) (s : State) : Result := s.stopCommand p 3 3 fun x => x.state == 0 || x.state == 2
def execCtxStop (p : Nat) (s : State) : Result := s.stopCommand p 4 0 fun x => x.state == 0

/-- The pairs of a partition. -/
def State.pairsOf (s : State) (p : Nat) : List Nat := (s.clustersOf p).flatMap fun c => (List.range 4).map fun i => c * 4 + i

/-- The operation waits in the rendezvous table for its gang. -/
def State.waitsMet (s : State) (p : Nat) (o : Op) : Bool :=
  !o.started && (s.cluster (clusterOfPair p)).gangs.any fun g => !g.started && g.arrivals.any fun a => a.2 == o.id

/-- Gang operations that wait for members which cannot come any more are withdrawn (R236, R238): those in the table, and
where there are none those that wait to enter it. -/
def dropWaitingGangs (ps : List Nat) (s : State) : State :=
  let inTable := ps.any fun p => (s.pair p).ops.any (s.waitsMet p)
  ps.foldl (fun s p => removeOps s p ((s.pair p).ops.filter fun o =>
    o.kind == .mmag && !o.started && (!inTable || s.waitsMet p o))) s

/-- Every unfinished command is quiesced: queued with its done count, the active ones first in slot order (R200, R201). -/
def Cluster.quiesce (k : Cluster) : Cluster :=
  { k with copyQueue := sortBy id k.channels ++ k.copyQueue, channels := [],
           slots := k.slots.mapVal fun _ x => if x.unfinished then { x with state := 1, heldOn := none } else x }

def quiesceAll : List Nat → State → State
  | [], s => s
  | c :: r, s => quiesceAll r (s.modCluster c Cluster.quiesce)

/-- The event is work of these pairs' tile engines. -/
def engineWork (ps : List Nat) : Instr → Bool
  | .tileOpStart p | .kStepComplete p _ | .tileOpComplete p _ => ps.contains p
  | .gangRendezvous c _ => ps.any fun p => clusterOfPair p == c
  | _ => false

/-- An operation of the pair runs, or is free to start. -/
def State.pairWorks (s : State) (p : Nat) : Bool := (s.pair p).ops.any fun o => o.started || s.canStart p o

/-- The pair's engine goes on with what it has. -/
def State.drivePair (s : State) (p : Nat) : State := (s.post (.tileOpStart p)).nextStep p

/-- ENGINE_QUIESCE_DONE: step 3 has ended, and delivery begins. It waits for the operations of committed regions (R238), and
for the answer to a beat that has left (R200); gang operations whose members can no longer meet are withdrawn (log 51). -/
def execEngineQuiesceDone (p : Nat) (s : State) : Result :=
  match s.parts.find p with
  | none => .next s
  | some x =>
    if x.stopStep ≠ 3 then .next s
    else
      let ps := s.pairsOf p
      if (s.pending.any (engineWork ps)) || (s.clustersOf p).any (fun c => (s.cluster c).slots.any fun e => e.2.out) then
        .next (s.post (.engineQuiesceDone p))
      else if ps.all fun q => (s.pair q).ops.isEmpty then
        .next (((quiesceAll (s.clustersOf p) s).modPart p fun x => { x with stopStep := 4 }).post (.stopDeliveryDone p))
      else if ps.any s.pairWorks then .next ((ps.foldl State.drivePair s).post (.engineQuiesceDone p))
      else .next ((dropWaitingGangs ps s).post (.engineQuiesceDone p))

/-- The task that an event in flight carries traffic for. -/
def trafficOf : Instr → Option Word
  | .taskIntake h | .taskPrepared h | .prefetchStop h | .taskEndArrive h _ | .taskWake h _ => some h
  | _ => none

/-- Traffic of the partition is still inside the chip. -/
def State.inFlight (s : State) (p : Nat) : Bool :=
  s.pending.any fun i => match (trafficOf i).bind s.task? with
    | some t => s.partOf t.cluster == some p
    | none => false

/-- STOP_DELIVERY_DONE: the traffic has been delivered; for a migration the gates freeze; PSTAT reads stopped. -/
def execStopDeliveryDone (p : Nat) (s : State) : Result :=
  match s.parts.find p with
  | none => .next s
  | some x =>
    if x.stopStep ≠ 4 then .next s
    else if s.inFlight p then .next (s.post (.stopDeliveryDone p))
    else
      let s := if x.command = 2 then s.freezeGates p else s
      if x.command = 4 then .next (s.ctxEnd p 2 0)
      else .next ((s.modPart p fun x => { x with state := 2, stopStep := 0, baleAt := 0 }).post (.baleWriteDone p))

/-! ## Saving (R366, R367) -/

/-- Write bytes at a position of the save area, unit by unit through stage 2, as far as they can be written: the position of
the first byte that cannot, and whether stage 2 stopped it. These are no writes that R369 records. -/
def writeArea (p base size : Nat) : Nat → Nat → List Byte → State → State × Option (Nat × Bool)
  | 0, _, _, s => (s, none)
  | n + 1, pos, bs, s =>
    match bs with
    | [] => (s, none)
    | b :: r =>
      if pos ≥ size then (s, some (pos, false))
      else
        let k := min (min (r.length + 1) (64 - (base + pos) % 64)) (size - pos)
        match stage2 s (some p) .store .store 0 (base + pos) with
        | .error _ => (s, some (pos, true))
        | .ok (s, pa, _) =>
          if pa ≥ hbmSize then (s, some (pos, true))
          else writeArea p base size n (pos + k) ((b :: r).drop k) (s.write none (some p) pa ((b :: r).take k))

/-- Write the bytes of the bale from a position on, then the header. -/
def State.writeBale (s : State) (p : Nat) (x : Part) : State × Option (Nat × Bool) :=
  let l := baleSects s p x
  let ps := placed l
  let len := baleEnd (64 + 32 * l.length) ps
  let base := x.saveBase.toNat
  let size := x.saveSize.toNat
  let dir := ps.flatMap dirEntry
  let body := baleTail l
  let pos := max 64 x.baleAt
  let fuel := len / 64 + 3
  let (s, stop) := writeArea p base size fuel pos (body.drop (pos - 64)) s
  let spot := stop.map fun e => baleSpot e.1 0 ps
  let (s, stop2) := writeArea p base size fuel 0 (baleHeader s p x.kind len l.length spot ++ dir) s
  (s, match stop with
    | some e => some e
    | none => stop2)

/-- What the chip keeps of a saved partition (log 17). -/
def State.keepSaved (s : State) (p : Nat) : State :=
  let cs := s.clustersOf p
  s.modPart p fun x =>
    { x with savedTasks := s.tasks.filter fun e => cs.contains e.2.cluster,
             savedFuts := (s.futures.filter fun e => cs.contains (e.1 / 4096) && e.2.state != 0).map fun e =>
               ((e.2.handle e.1).toNat, e.2),
             savedHomes := s.clusters.filter fun e => cs.contains e.1, ctxs := s.contextsOf p (maskList x.clusters), savedMask := x.clusters }

/-- BALE_WRITE_DONE: the bale is written whole and the partition saved; for kinds 1 and 2 its clusters are released. A save
that meets a fault goes on to SAVE_INCOMPLETE. -/
def execBaleWriteDone (p : Nat) (s : State) : Result :=
  match s.parts.find p with
  | none => .next s
  | some x =>
    if x.state = 2 ∧ x.command ≠ 0 then .next ((s.modPart p fun x => { x with state := 3 }).post (.baleWriteDone p))
    else if x.state ≠ 3 then .next s
    else match s.writeBale p x with
      | (t, none) =>
        .next (((t.keepSaved p).ctxEnd p 4 0).modPart p fun x => { x with released := x.kind != 3, baleAt := 0 })
      | (_, some _) => .next (s.post (.saveIncomplete p))

/-- SAVE_INCOMPLETE: the header is marked, a report posted, and PSTAT reads state 5. -/
def execSaveIncomplete (p : Nat) (s : State) : Result :=
  match s.parts.find p with
  | none => .next s
  | some x =>
    if x.state ≠ 3 then .next s
    else match s.writeBale p x with
      | (_, none) => .next (s.post (.baleWriteDone p))
      | (t, some (pos, fault)) =>
        let l := baleSects s p x
        let spot := baleSpot pos 0 (placed l)
        let type := ((l[spot.1]?).map fun y => y.type).getD 0
        let c := (s.clustersOf p).headD 0
        let (t, _) := t.report ringTerminal { mkReport t 5 15 0x02 c 0 with
          part := p, stage := 2, access := 1, gpa := wordOf (x.saveBase.toNat + pos), info := wordOf (type + spot.2 * 2 ^ 16) }
        .next ((t.ctxEnd p 5 (if fault then 1 else 2)).modPart p fun x =>
          { x with sect := BitVec.ofNat 16 spot.1, baleAt := pos })

/-- Command 0x06: write on from the recorded place. -/
def execCtxResumeSave (p : Nat) (s : State) : Result :=
  s.ctxCommand p (fun x => x.state == 5) fun x =>
    (s.modPart p fun y => { y with state := 3, command := 6, kind := x.kind }).post (.baleWriteDone p)

/-! ## Resuming (R366) -/

/-- What waits for a launch of the partition is asked for again. -/
def State.kickLaunch (s : State) (k : Nat) (l : Launch) : State :=
  match l.state with
  | .waiting | .held => s.post (.launchStart k)
  | .posting _ _ => s.post (.completionPost k)
  | .running => if l.rootsLive = 0 then s.post (.completionPost k) else s
  | .posted _ _ _ => s

/-- What waited for the partition goes on. -/
def State.kick (s : State) (p : Nat) : State :=
  let s := (s.clustersOf p).foldl (fun s c =>
    (((s.post (.copyChannelStart c)).retryPrefetches c).post (.taskRingRefill c))) s
  let s := s.tasks.foldl (fun s e =>
    if e.2.state = .preparing ∧ s.partOf e.2.cluster = some p then s.post (.taskPrepared (wordOf e.1)) else s) s
  (s.launches.filter fun e => e.2.part == p).foldl (fun s e => s.kickLaunch e.1 e.2) s

def State.startHarts (s : State) (p : Nat) : State :=
  { s with harts := s.harts.mapVal fun h x => if s.partOf (clusterOf h) = some p then { x with stopped := false } else x }

/-- Command 0x05: the partition goes on from its stop, when no cluster of it has been reassigned. -/
def execCtxResumeInPlace (p : Nat) (s : State) : Result :=
  s.ctxCommand p (fun x => x.state == 2 || (x.state == 4 && x.clusters == x.savedMask)) fun x =>
    let s := (s.startHarts p).ctxEnd p 0 0
    let s := s.modPart p fun x => { x with released := false, waits := [] }
    let s := if x.kind = 2 then resumeGates (s.gatesOf p) s else s
    (s.applyAcks p).kick p

/-! ## Teardown (R346, R347) -/

/-- Free the gates of a partition and forget it in every other. -/
def State.dropGates (s : State) (p : Nat) : State := (freeGates (s.gatesOf p) s).forgetPart p

def State.stopHarts (s : State) (p : Nat) : State :=
  { s with harts := s.harts.mapVal fun h x => if s.partOf (clusterOf h) = some p then { x with stopped := true } else x }

/-- Command 0x08: the partition stops where it is, and the teardown begins with step 1 (log 73). -/
def execCtxTeardown (p : Nat) (s : State) : Result :=
  s.ctxCommand p (fun x => x.state != 6) fun _ =>
    ((s.stopHarts p).modPart p fun y => { y with scrubProg := setBits (setBits (setBits y.scrubProg 63 1 0) 59 4 9) 0 48 0 }).post
      (.scrubDone p)

/-- The window of a gate that belongs to another partition is not part of the partition's HBM (R327, R336). -/
def State.inForeignGate (s : State) (p a : Nat) : Bool :=
  s.gates.any fun e => e.2.present && e.2.owner != p && decide (e.2.base.toNat ≤ a) &&
    decide (a < e.2.base.toNat + e.2.size.toNat * 4096)

/-- The HBM bytes that the scrub of a partition zeroes. -/
def State.scrubsHbm (s : State) (p : Nat) (leaves : List (Nat × Nat × Nat)) (a : Nat) : Bool :=
  decide (a < hbmSize) && (leaves.any fun e => decide (e.2.1 * 4096 ≤ a) && decide (a < (e.2.1 + e.2.2) * 4096)) &&
    !s.inForeignGate p a

/-- The vault bytes that it zeroes. -/
def scrubsVault (x : Part) (a : Nat) : Bool :=
  decide (vaultBase ≤ a) && decide (a < padBase) && (maskList x.vaults).contains ((a - vaultBase) / vaultSize)

/-- The scratchpad bytes that it zeroes. -/
def scrubsPad (cs : List Nat) (a : Nat) : Bool :=
  decide (padBase ≤ a) && decide (a < padBase + 128 * padSize) && cs.contains ((a - padBase) / padSize)

/-- The state of a cluster as a scrub leaves it. -/
def State.scrubCluster (s : State) (c : Nat) : State :=
  { s with
      tasks := s.tasks.filter fun e => e.2.cluster != c,
      futures := s.futures.filter fun e => e.1 / 4096 != c,
      clusters := s.clusters.put c (s.cluster c).bare,
      pairs := s.pairs.mapVal fun p x => if clusterOfPair p = c then x.bare else x,
      mailboxes := s.mailboxes.filter fun e => clusterOfCore (e.1 / 4) != c,
      barriers := s.barriers.filter fun e =>
        let unit := e.1 / (64 * 128) % 1024
        !(match e.1 / (64 * 128 * 1024) with
          | 1 => clusterOfCore unit == c
          | 2 => clusterOfPair unit == c
          | 3 => unit == c
          | _ => false),
      harts := s.harts.mapVal fun h x =>
        if clusterOf h = c then { x with mode := .u, task := none, freeOnSret := false, pfx := none, resv := none,
                                         waiting := none, jumped := false, stopped := false } else x }

def scrubClusters : List Nat → State → State
  | [], s => s
  | c :: r, s => scrubClusters r (s.scrubCluster c)

/-- Launches of a partition that is gone: nothing of them is left to post or to amend. -/
def Launch.forsaken (l : Launch) : Launch :=
  { l with heldOn := none, state := match l.state with
      | .posted status reason _ => .posted status reason false
      | _ => .posted 4 0 false }

def State.dropLaunches (s : State) (p : Nat) : State :=
  { s with launches := s.launches.mapVal fun _ l => if l.part = p then l.forsaken else l }

/-- The physical tiles of a cluster take 16 KiB each. -/
def tileUnits : Nat := 4 * 36 * 4

/-- The work of a step of the teardown, and the 4 KiB units that it scrubs (R346, R347). -/
def State.scrubStep (s : State) (p : Nat) (x : Part) (step : Nat) : State × Nat :=
  let cs := s.clustersOf p
  match step with
  | 1 => ({ s with keys := s.keys.drop x.key }, 0)
  | 2 => (s.dropGates p, 0)
  | 3 =>
    let leaves := s.leavesOf p x
    (s.zeroWhere (s.scrubsHbm p leaves), leaves.foldl (fun n e => n + e.2.2) 0)
  | 4 => (s.zeroWhere (scrubsVault x), (maskList x.vaults).length * (vaultSize / 4096))
  | 5 => (s.zeroWhere (scrubsPad cs), cs.length * (padSize / 4096))
  | 6 => ({ s with pairs := s.pairs.mapVal fun q k => if cs.contains (clusterOfPair q) then { k with tiles := [] } else k },
      cs.length * tileUnits)
  | _ =>
    let s := s.applyAcks p
    let s := { s with barriers := s.barriers.filter fun e => !(e.1 / (64 * 128 * 1024) == 4 && e.1 / 64 % 128 == p + 1),
                      fmts := s.fmts.filter fun e => e.1 / 32 / 2 ^ 64 != p + 1 }
    ((scrubClusters cs s).dropLaunches p, 0)

/-- The clusters are free, and SCRUBPROG reads done. -/
def State.scrubEnds (s : State) (p : Nat) : State :=
  s.modPart p fun y => { y with
    present := false, state := 8, code := 0, command := 0, stopStep := 0, clusters := 0, vaults := 0, clamps := 0,
    released := false, tracking := false, dirty := [], waits := [],
    scrubProg := setBits (setBits (setBits y.scrubProg 59 4 0) 63 1 1) 0 48 0 }

/-- The next step of the teardown begins. -/
def State.scrubNext (s : State) (p step : Nat) : State :=
  if step = 7 then s.scrubEnds p
  else (s.modPart p fun y => { y with scrubProg := setBits (setBits y.scrubProg 59 3 (step + 1)) 0 48 0 }).post (.scrubDone p)

/-- SCRUB_DONE: a step of the teardown has done its work, its units are counted and the next begins; after the last everything
the partition held reads zero, and its clusters are free (log 73). -/
def execScrubDone (p : Nat) (s : State) : Result :=
  match s.parts.find p with
  | none => .next s
  | some x =>
    let step := bits x.scrubProg 59 3
    if x.scrubProg.getLsbD 62 = false then .next s
    else if bits x.scrubProg 0 48 ≠ 0 then .next (s.scrubNext p step)
    else
      let r := s.scrubStep p x step
      if r.2 = 0 then .next (r.1.scrubNext p step)
      else .next ((r.1.modPart p fun y => { y with scrubProg := setBits y.scrubProg 0 48 r.2 }).post (.scrubDone p))

/-! ## Other commands -/

/-- An unknown code: 5 while a command runs, else 4. -/
def execCtxUnknownCommand (p : Nat) (_code : BitVec 8) (s : State) : Result := s.ctxCommand p (fun _ => false) fun _ => s

/-- GATE_SOURCE_FREE: 10 s after the resume, the moved entry is freed (R345). -/
def execGateSourceFree (n : Nat) (s : State) : Result :=
  match s.gates.find n with
  | some g => if g.moved.isSome then .next { s with gates := s.gates.drop n } else .next s
  | none => .next s

end Sys2Proof.Machine
end

