-- ==== Sys2Proof/Machine/Flags.lean ====
section
/-! DEFINITION. The base F and D arithmetic as it shows in registers and flags (R105, the unprivileged specification):
fcsr accrual, rounding-mode selection, comparisons, conversions and classes. Tile flags are computed with the results
(`Fmt.round`, R254). -/

namespace Sys2Proof.Machine

/-- The single and double entries (ids 1 and 0 of R245). -/
def fmtS : Fmt := { kind := 1, sign := true, exp := 8, frac := 23, bias := 127, spec := 0, sub := true, elem := 0, scale := 0, bsz := 0, layout := 0 }
def fmtD : Fmt := { kind := 1, sign := true, exp := 11, frac := 52, bias := 1023, spec := 0, sub := true, elem := 0, scale := 0, bsz := 0, layout := 0 }
def fmtOf (d : Bool) : Fmt := if d then fmtD else fmtS

/-- Tile-order flags in the order of fflags: NX, UF, OF, DZ, NV from bit 0. -/
def fflagsOf (f : Nat) : BitVec 5 :=
  BitVec.ofBool (f % 2 == 1) ++ BitVec.ofBool (f / 2 % 2 == 1) ++ BitVec.ofBool (f / 4 % 2 == 1) ++
    BitVec.ofBool (f / 8 % 2 == 1) ++ BitVec.ofBool (f / 16 % 2 == 1)

/-- OR flags into fcsr. -/
def State.accrue (s : State) (f : BitVec 5) : State :=
  if f = 0 then s else s.setFcsr (s.me.ctx.fcsr ||| f.setWidth 8)

/-- The rounding mode of a base instruction: its field, or frm for the dynamic one, which is illegal above 4. -/
def State.baseRm (s : State) (rm : BitVec 3) : Except Exc Nat :=
  let r := if rm = 7 then (s.me.ctx.fcsr.extractLsb' 5 3).toNat else rm.toNat
  if r ≤ 4 then .ok r else .error .illegal

/-- The code an f register holds in this precision. -/
def State.fcode (s : State) (d : Bool) (r : Reg) : Nat := if d then (s.f r).toNat else (unboxS (s.f r)).toNat
def State.fval (s : State) (d : Bool) (r : Reg) : Num := (fmtOf d).decode (s.fcode d r)
def State.setFcode (s : State) (d : Bool) (r : Reg) (c : Nat) : State :=
  s.setF r (if d then wordOf c else boxS (BitVec.ofNat 32 c))

/-- Round an exact result into an f register, accruing flags. -/
def State.setFnum (s : State) (d : Bool) (r : Reg) (rm : Nat) (x : NumF) : State :=
  let (c, fl) := (fmtOf d).round rm false 0 x.1
  (s.setFcode d r c).accrue (fflagsOf (orFlags x.2 fl))

def canonNan (d : Bool) : Nat := (fmtOf d).nanCode false 0

/-- fmin and fmax: a NaN loses against a number, −0 lies below +0, signalling NaNs set NV. -/
def fMinMax (mx d : Bool) (a b : Nat) : Nat × Nat :=
  let x := (fmtOf d).decode a
  let y := (fmtOf d).decode b
  let fl := if x.isSnan || y.isSnan then flagNv else 0
  let less := match x.cmp y with
    | some .lt => true
    | some .eq => x.sign && !y.sign
    | _ => false
  let c := if x.isNan && y.isNan then canonNan d
    else if x.isNan then b
    else if y.isNan then a
    else if less != mx then a else b
  (c, fl)

/-- Comparisons: fle and flt signal every NaN, feq only signalling ones. -/
def fCompare (op : FCmpOp) (x y : Num) : Bool × Nat :=
  match x.cmp y, op with
  | none, .eq => (false, if x.isSnan || y.isSnan then flagNv else 0)
  | none, _ => (false, flagNv)
  | some o, .eq => (o == .eq, 0)
  | some o, .lt => (o == .lt, 0)
  | some o, .le => (o != .gt, 0)

/-- fclass. -/
def fClassOf (d : Bool) (c : Nat) : Nat :=
  let f := fmtOf d
  match f.decode c with
  | .nan true => 2 ^ 8
  | .nan false => 2 ^ 9
  | .inf true => 1
  | .inf false => 2 ^ 7
  | .fin n m e =>
    if m = 0 then (if n then 2 ^ 3 else 2 ^ 4)
    else if f.isSubnormal (.fin n m e) then (if n then 2 ^ 2 else 2 ^ 5)
    else if n then 2 else 2 ^ 6

/-- The range of an integer type. -/
def intRange : IntTy → Int × Int
  | .w => (-2147483648, 2147483647)
  | .wu => (0, 4294967295)
  | .l => (-9223372036854775808, 9223372036854775807)
  | .lu => (0, 18446744073709551615)

/-- Conversion to an integer: out of range and NaN give the nearest bound, NaN the upper one, with NV. -/
def fToIntVal (ty : IntTy) (rm : Nat) (x : Num) : Int × Nat :=
  let (lo, hi) := intRange ty
  match x with
  | .nan _ => (hi, flagNv)
  | .inf n => (if n then lo else hi, flagNv)
  | .fin n m e =>
    let (k, inexact) := roundTo rm n m e 0
    let v : Int := if n then -(k : Int) else k
    if v < lo then (lo, flagNv) else if hi < v then (hi, flagNv) else (v, if inexact then flagNx else 0)

/-- 32-bit results are sign-extended, unsigned ones too. -/
def intResult (ty : IntTy) (v : Int) : Word :=
  match ty with
  | .w | .wu => (BitVec.ofInt 32 v).signExtend 64
  | .l | .lu => BitVec.ofInt 64 v

/-- The integer an x register holds for a conversion to floating point. -/
def intSource (ty : IntTy) (w : Word) : Int :=
  match ty with
  | .w => (w.setWidth 32).toInt
  | .wu => (w.setWidth 32).toNat
  | .l => w.toInt
  | .lu => w.toNat

def numOfInt (v : Int) : Num := .fin (decide (v < 0)) v.natAbs 0

end Sys2Proof.Machine
end

