-- ==== Sys2Proof/Machine/IntOps.lean ====
section
/-! DEFINITION. The base instructions that complete within the turn, and the divides and square roots of F and D
(R105, R117; the unprivileged specification). -/

namespace Sys2Proof.Machine

/-- Integer arithmetic on two 64-bit operands. -/
def aluVal (op : AluOp) (a b : Word) : Word :=
  match op with
  | .add => a + b
  | .sub => a - b
  | .sll => a <<< (b.toNat % 64)
  | .slt => if a.slt b then 1 else 0
  | .sltu => if a < b then 1 else 0
  | .xor => a ^^^ b
  | .srl => a >>> (b.toNat % 64)
  | .sra => a.sshiftRight (b.toNat % 64)
  | .or => a ||| b
  | .and => a &&& b
  | .mul => a * b
  | .mulh => BitVec.ofInt 64 (a.toInt * b.toInt / 2 ^ 64)
  | .mulhsu => BitVec.ofInt 64 (a.toInt * b.toNat / 2 ^ 64)
  | .mulhu => wordOf (a.toNat * b.toNat / 2 ^ 64)
  | .div => if b = 0 then -1 else a.sdiv b
  | .divu => if b = 0 then -1 else a / b
  | .rem => if b = 0 then a else a.srem b
  | .remu => if b = 0 then a else a % b

/-- Integer arithmetic on the low 32 bits, the result sign-extended. -/
def aluWVal (op : AluWOp) (x y : Word) : Word :=
  let a : BitVec 32 := x.setWidth 32
  let b : BitVec 32 := y.setWidth 32
  let r : BitVec 32 := match op with
    | .addw => a + b
    | .subw => a - b
    | .sllw => a <<< (b.toNat % 32)
    | .srlw => a >>> (b.toNat % 32)
    | .sraw => a.sshiftRight (b.toNat % 32)
    | .mulw => a * b
    | .divw => if b = 0 then -1 else a.sdiv b
    | .divuw => if b = 0 then -1 else a / b
    | .remw => if b = 0 then a else a.srem b
    | .remuw => if b = 0 then a else a % b
  r.signExtend 64

def aluIVal (op : AluIOp) (a b : Word) : Word :=
  match op with
  | .addi => a + b
  | .slti => if a.slt b then 1 else 0
  | .sltiu => if a < b then 1 else 0
  | .xori => a ^^^ b
  | .ori => a ||| b
  | .andi => a &&& b

def shiftVal (op : ShiftOp) (a : Word) (n : Nat) : Word :=
  match op with
  | .sll => a <<< n
  | .srl => a >>> n
  | .sra => a.sshiftRight n

def shiftWVal (op : ShiftOp) (w : Word) (n : Nat) : Word :=
  let a : BitVec 32 := w.setWidth 32
  (match op with
    | .sll => a <<< n
    | .srl => a >>> n
    | .sra => a.sshiftRight n : BitVec 32).signExtend 64

def branchTaken (c : BrCond) (a b : Word) : Bool :=
  match c with
  | .eq => a == b
  | .ne => a != b
  | .lt => a.slt b
  | .ge => !a.slt b
  | .ltu => decide (a < b)
  | .geu => !decide (a < b)

/-- A taken transfer to a target that is not 4-byte aligned traps with cause 0 at the transfer. -/
def State.transfer (s : State) (target : Word) : Except Exc State :=
  if target.toNat % 4 ≠ 0 then .error (.trap 0 0 target) else .ok (s.jumpTo target)

/-- The fused forms: (±a × b) ± c. -/
def fmaVal (op : FmaOp) (rm : Nat) (a b c : Num) : NumF :=
  match op with
  | .madd => Num.fma rm a b c
  | .msub => Num.fma rm a b c.neg
  | .nmsub => Num.fma rm a.neg b c
  | .nmadd => Num.fma rm a.neg b c.neg

def fArithVal (op : FArithOp) (rm : Nat) (a b : Num) : NumF :=
  match op with
  | .add => Num.add rm a b
  | .sub => Num.add rm a b.neg
  | .mul => Num.mul a b

def sgnjCode (op : SgnjOp) (d : Bool) (a b : Nat) : Nat :=
  let t := if d then 2 ^ 63 else 2 ^ 31
  let sa := a / t % 2
  let sb := b / t % 2
  let sg := match op with
    | .sgnj => sb
    | .sgnjn => 1 - sb
    | .sgnjx => (sa + sb) % 2
  a % t + sg * t

/-- Whether the effect of an instruction sets the pc itself. -/
def intOpJumps : IntOp → Bool
  | .jal _ _ | .jalr _ _ _ | .branch _ _ _ _ => true
  | _ => false

def State.intEffect (s : State) : IntOp → Except Exc State
  | .lui rd imm => .ok (s.setX rd (immU imm))
  | .auipc rd imm => .ok (s.setX rd (s.me.pc + immU imm))
  | .jal rd imm => do
    let t ← s.transfer (s.me.pc + immJ imm)
    pure (t.setX rd (s.me.pc + 4))
  | .jalr rd rs1 imm => do
    let t ← s.transfer ((s.x rs1 + imm12 imm) &&& ~~~(1 : Word))
    pure (t.setX rd (s.me.pc + 4))
  | .branch c rs1 rs2 imm =>
    if branchTaken c (s.x rs1) (s.x rs2) then s.transfer (s.me.pc + immB imm) else .ok (s.setPc (s.me.pc + 4))
  | .aluI op rd rs1 imm => .ok (s.setX rd (aluIVal op (s.x rs1) (imm12 imm)))
  | .shiftI op rd rs1 sh => .ok (s.setX rd (shiftVal op (s.x rs1) sh.toNat))
  | .addiw rd rs1 imm => .ok (s.setX rd (sext32 (s.x rs1 + imm12 imm)))
  | .shiftIW op rd rs1 sh => .ok (s.setX rd (shiftWVal op (s.x rs1) sh.toNat))
  | .alu op rd rs1 rs2 => .ok (s.setX rd (aluVal op (s.x rs1) (s.x rs2)))
  | .aluW op rd rs1 rs2 => .ok (s.setX rd (aluWVal op (s.x rs1) (s.x rs2)))
  | .fma op d rd rs1 rs2 rs3 rm => do
    s.needFs
    let rm ← s.baseRm rm
    pure (s.setFnum d rd rm (fmaVal op rm (s.fval d rs1) (s.fval d rs2) (s.fval d rs3)))
  | .fArith op d rd rs1 rs2 rm => do
    s.needFs
    let rm ← s.baseRm rm
    pure (s.setFnum d rd rm (fArithVal op rm (s.fval d rs1) (s.fval d rs2)))
  | .fSgnj op d rd rs1 rs2 => do
    s.needFs
    pure (s.setFcode d rd (sgnjCode op d (s.fcode d rs1) (s.fcode d rs2)))
  | .fMinMax mx d rd rs1 rs2 => do
    s.needFs
    let (c, fl) := fMinMax mx d (s.fcode d rs1) (s.fcode d rs2)
    pure ((s.setFcode d rd c).accrue (fflagsOf fl))
  | .fCmp op d rd rs1 rs2 => do
    s.needFs
    let (b, fl) := fCompare op (s.fval d rs1) (s.fval d rs2)
    pure ((s.setX rd (if b then 1 else 0)).accrue (fflagsOf fl))
  | .fClass d rd rs1 => do
    s.needFs
    pure (s.setX rd (wordOf (fClassOf d (s.fcode d rs1))))
  | .fToInt ty d rd rs1 rm => do
    s.needFs
    let rm ← s.baseRm rm
    let (v, fl) := fToIntVal ty rm (s.fval d rs1)
    pure ((s.setX rd (intResult ty v)).accrue (fflagsOf fl))
  | .intToF ty d rd rs1 rm => do
    s.needFs
    let rm ← s.baseRm rm
    pure (s.setFnum d rd rm (numOfInt (intSource ty (s.x rs1)), 0))
  | .fToF toD rd rs1 rm => do
    s.needFs
    let rm ← s.baseRm rm
    pure (s.setFnum toD rd rm (s.fval (!toD) rs1, 0))
  | .fmvToX d rd rs1 => do
    s.needFs
    pure (s.setX rd (if d then s.f rs1 else sext32 (s.f rs1)))
  | .fmvToF d rd rs1 => do
    s.needFs
    pure (s.setF rd (if d then s.x rs1 else boxS ((s.x rs1).setWidth 32)))

/-- An integer, branch, jump or fixed-latency floating-point instruction (R117). -/
def execIntegerOp (op : IntOp) (s : State) : Result :=
  if intOpJumps op then runJump (.integerOp op) s fun s => s.intEffect op
  else runOpen (.integerOp op) s fun s => s.intEffect op

/-- A divide or square root (R117); its latency is left out (log 6). -/
def execFdivFsqrt (op : FDivOp) (s : State) : Result :=
  runOpen (.fdivFsqrt op) s fun s => do
    s.needFs
    match op with
    | .fdiv d rd rs1 rs2 rm =>
      let rm ← s.baseRm rm
      pure (s.setFnum d rd rm (Num.div (s.fval d rs1) (s.fval d rs2)))
    | .fsqrt d rd rs1 rm =>
      let rm ← s.baseRm rm
      pure (s.setFnum d rd rm (Num.sqrt (s.fval d rs1)))

end Sys2Proof.Machine
end

