-- ==== Sys2Proof/Machine/LiftOps.lean ====
section
/-! DEFINITION. The lift instructions (R302 to R321): opening and closing an axis, tag sets, reductions over an axis, and
the batched branch. -/

namespace Sys2Proof.Machine

/-- Outside a region the axis state is frozen (R311). -/
def State.needRegion (s : State) : Except Exc Unit :=
  if s.inRegion s.cur then .ok () else .error (.trapWord 29 0x0A)

def State.depth (s : State) : Nat := s.myLift.axes.length

/-! ## lift (R302, R313) -/

/-- The fields of a lift descriptor. -/
structure LiftDesc where
  stride : Word
  extent : Nat
  spill  : Nat
  mask   : BitVec 16
  zeros  : Bool
  deriving DecidableEq, Repr, Inhabited

def liftDesc (bs : List Byte) : LiftDesc :=
  let at_ := fun (i n : Nat) => leNat ((bs.drop i).take n)
  { stride := wordOf (at_ 0 8), extent := at_ 8 1, spill := at_ 9 1 % 64, mask := BitVec.ofNat 16 (at_ 10 2),
    zeros := at_ 9 1 / 64 == 0 && at_ 12 4 == 0 }

/-- The active set times the full range of a new axis (R304). -/
def widenActive (a : Mask) (e : Nat) : Mask :=
  (List.range 256).foldl (fun (m : Mask) i => if a.getLsbD (i / e) then m ||| BitVec.ofNat 256 (2 ^ i) else m) 0

/-- The projection that removes the innermost axis. -/
def projectActive (a : Mask) (e : Nat) : Mask :=
  (List.range 256).foldl (fun (m : Mask) i =>
    if a.getLsbD i then m ||| BitVec.ofNat 256 (2 ^ (i / e)) else m) 0

def maskedTiles (m : BitVec 16) : List Nat := (List.range 16).filter fun i => m.getLsbD i

/-- A stage may become a spill stage (R307). -/
def Stage.spillable (t : Stage) : Bool := t.defined && !t.armed && !t.prefetch && t.pins == 0

def gainAxis (s : State) (bit : BitVec 4) : List Nat → State
  | [] => s
  | n :: r => gainAxis (s.retagTile n (s.tagsOf n ||| bit)) bit r

/-- The checks on a descriptor, in the order of R313. -/
def State.liftChecks (s : State) (entry : Word) (d : LiftDesc) : Except Exc Unit :=
  let l := s.myLift
  let c := clusterOf s.cur
  if d.extent = 0 ∨ d.extent > 64 then .error (.trapWord 29 0x02)
  else if l.count l.all * d.extent > 256 then .error (.trapWord 29 0x03)
  else if !d.zeros || d.stride.toNat % 64 != 0 then .error (.trapWord 29 0x08)
  else if entry.toInt < -(2 ^ 31) ∨ entry.toInt > 2 ^ 31 - 1 then .error (.trapWord 29 0x08)
  else if !(maskedTiles d.mask).all fun n => decide (n < s.tileCount) then .error (.trapWord 28 0x01)
  else if !(s.stage c d.spill).spillable then
    .error (.trapAfter s.useFresh 31 0x06 (Config.freeWord s.fresh))
  else .ok ()

/-- Open the axis: hold the stage, widen the active set. -/
def State.openAxis (s : State) (entry : Word) (d : LiftDesc) : State :=
  let s := s.modStage (clusterOf s.cur) d.spill fun t => { t with lifts := t.lifts + 1 }
  s.modLift fun l =>
    { l with axes := l.axes ++ [{ extent := d.extent, stride := d.stride, spill := d.spill, entry := entry }],
             active := widenActive l.active d.extent }

def execLift (rd rs1 rs2 : Reg) (s : State) : Result :=
  runJump (.lift rd rs1 rs2) s fun s => do
    s.needRegion
    let depth := s.depth
    if depth = 4 then .error (.trapWord 29 0x01)
    let entry := s.x rs1
    let (t, bs) ← s.load (s.x rs2) 16 16
    let d := liftDesc bs
    t.liftChecks entry d
    let tiles := maskedTiles d.mask
    if tiles.any t.user then .error (.wait .short)
    let t ← t.shadowTiles tiles
    let t := gainAxis (t.openAxis entry d) (BitVec.ofNat 4 (2 ^ depth)) tiles
    let t ← t.spillCheck s
    pure ((t.setX rd (t.me.pc + 4)).jumpTo entry)

/-! ## lret (R314) -/

/-- The waiting tuples of the innermost axis rejoin. -/
def rejoinDepth (depth : Nat) (l : Lift) : Lift :=
  { l with active := (l.stack.filter fun e => e.depth == depth).foldl (fun a e => a ||| e.set) l.active,
           stack := l.stack.filter fun e => e.depth != depth }

/-- Clear a tile with every image. -/
def clearTiles (h : Word) : List Nat → State → State
  | [], s => s
  | n :: r, s =>
    let s := (s.modLift fun l => { l with images := l.images.drop n }).modStatus h n
      fun t => { t with rows := [], fmt := 0, axes := 0, flags := 0 }
    clearTiles h r s

/-- Close the innermost axis in the axis state. -/
def Lift.close (l : Lift) : Lift :=
  match l.axes.getLast? with
  | none => l
  | some a =>
    let bit := l.axes.length - 1
    { l with axes := l.axes.dropLast, active := projectActive l.active a.extent,
             masks := l.masks.map fun m => if m.tags.getLsbD bit then { tags := 0, images := [] } else m }

def execLret (rs1 : Reg) (s : State) : Result :=
  runJump (.lret rs1) s fun s => do
    s.needRegion
    match s.myLift.axes.getLast?, s.me.task with
    | some a, some h =>
      let bit := s.depth - 1
      let tiles := (List.range s.tileCount).filter fun n => (s.tagsOf n).getLsbD bit
      if tiles.any s.user then .error (.wait .short)
      let target := s.x rs1
      let t ← s.shadowTiles tiles
      let t := clearTiles h tiles (t.modLift (rejoinDepth t.depth))
      let t := t.modLift Lift.close
      let t := t.modTaskOf t.cur fun x =>
        { x with region := { x.region with imgShadow := x.region.imgShadow.filter fun y => !y.tags.getLsbD bit } }
      pure ((dropLifts t (clusterOf t.cur) [a]).jumpTo target)
    | _, _ => .error (.trapWord 29 0x09)

/-! ## ltag (R315) -/

def execLtag (r : TagReg) (rs2 : Reg) (s : State) : Result :=
  runOpen (.ltag r rs2) s fun s => do
    s.needRegion
    let new : BitVec 4 := (s.x rs2).setWidth 4
    let l := s.myLift
    match r with
    | .tile n =>
      s.opFaultOn [n.toNat]
      s.tilesBelow [n.toNat]
      if new &&& l.all != new then .error (.trapWord 29 0x09)
      if s.user n.toNat then .error (.wait .short)
      let old := s.tagsOf n.toNat
      let t ← s.shadowTile n.toNat
      let t := (t.shadowImages n.toNat old 256 (l.tuples old)).retagTile n.toNat new
      t.spillCheck s
    | .mask k =>
      if new &&& l.all != new then .error (.trapWord 29 0x09)
      let old := l.maskTags k
      let t := (s.shadowImages (16 + k.toNat) old 1 (l.tuples old)).modLift fun l => l.retagMask k new
      t.spillCheck s

/-! ## lred (R316) -/

/-- The reduced code of the values of one element, with its flags. -/
def reduceCodes (f : Fmt) (op rm fresh : Nat) (xs : List Num) : Nat × Nat :=
  match op with
  | 0 => sumCode f rm false fresh xs
  | 1 => pickCode f true fresh xs
  | _ => pickCode f false fresh xs

/-- Tuple `u` with index `i` along an axis. -/
def withIndex (u : Tup) (axis i : Nat) : Tup := u.set axis i

/-- One row of the result, from the rows of the images that extend the tuple. -/
def reduceRow (l : Lay) (op idx rm fresh : Nat) (rows : List Nat) : Nat × Nat :=
  if op = 3 then (rows.getD idx 0, 0)
  else mapElems l (fun _ => true) false
    (fun i => reduceCodes l.f op rm (fresh + i) (rows.map fun w => l.f.decode (l.code w i))) 0

/-- The 64 rows of one image of the result. -/
def reduceImage (l : Lay) (op idx rm fresh : Nat) (imgs : List (Table Row)) : Table Row × Nat :=
  (List.range 64).foldl (fun (r : Table Row × Nat) i =>
    let v := reduceRow l op idx rm (fresh + i * 4096) (imgs.map fun t => (t.get i 0).toNat)
    (putRow r.1 i (BitVec.ofNat 2048 v.1), orFlags r.2 v.2)) ([], 0)

def writeImages (h : Word) (n : Nat) (l : Lift) (tags : BitVec 4) : List (Tup × Table Row × Nat) → State → State
  | [], s => s
  | (u, rows, flags) :: r, s =>
    writeImages h n l tags r ((s.setImage h n (l.flat tags u) rows false).modStatus h n (orTileFlags flags))

def execLred (md ms : TileReg) (rs2 : Reg) (s : State) : Result :=
  runOpen (.lred md ms rs2) s fun s => do
    s.needRegion
    s.opFaultOn [md.toNat, ms.toNat]
    s.tilesBelow [md.toNat, ms.toNat]
    if s.writer ms.toNat || s.user md.toNat then .error (.wait .short)
    let v := s.x rs2
    let axis := bits v 0 2
    let op := bits v 4 2
    let idx := bits v 8 8
    let l := s.myLift
    let old := s.tagsOf ms.toNat
    let lay := s.tileLay ms
    let extent := l.exts.getD axis 0
    if axis ≥ s.depth ∨ old.getLsbD axis = false then .error (.trapWord 29 0x09)
    if !l.full then .error (.trapWord 29 0x0A)
    if op ≠ 3 ∧ lay.isNumber = false then .error (.trapWord 29 0x0A)
    if op = 3 ∧ idx ≥ extent then .error (.trapWord 29 0x0A)
    match s.me.task with
    | none => .error (.trapWord 29 0x09)
    | some h =>
      let new := old &&& ~~~(BitVec.ofNat 4 (2 ^ axis))
      let tag := s.tag ms
      let res := (l.tuples new).map fun u =>
        (u, reduceImage lay op idx s.me.ctx.vrm.toNat s.freshBase
          ((List.range extent).map fun i => s.image h ms.toNat (l.flat old (withIndex u axis i))))
      let oldD := s.tagsOf md.toNat
      let t ← s.shadowTile md.toNat
      let t := (t.shadowImages md.toNat oldD 256 (l.tuples oldD)).retagTile md.toNat new
      let t ← (t.shadowImages md.toNat new 256 (l.tuples new)).spillCheck s
      let t := writeImages h md.toNat l new res t
      pure (t.modStatus h md.toNat fun x => { x with fmt := BitVec.ofNat 5 tag }).useFresh

/-! ## laxis (R317) -/

def laxisWord (l : Lift) (axis : Nat) : Word :=
  wordOf ((if l.full then 0 else 2 ^ 31) + l.stack.length * 2 ^ 16 + l.axes.length * 2 ^ 8 + l.exts.getD axis 0)

def execLaxis (rd rs1 : Reg) (s : State) : Result :=
  runOpen (.laxis rd rs1) s fun s => .ok (s.setX rd (laxisWord s.myLift (bits (s.x rs1) 0 2)))

/-! ## lbr (R318) -/

def insertEntry (e : StackEntry) : List StackEntry → List StackEntry
  | [] => [e]
  | x :: r => if e.target.toNat < x.target.toNat then e :: x :: r else x :: insertEntry e r

/-- Insert(x, S). -/
def Lift.insert (l : Lift) (target : Word) (set : Mask) : Except Exc Lift :=
  let depth := l.axes.length
  if l.stack.any fun e => e.depth == depth && e.target == target then
    .ok { l with stack := l.stack.map fun e =>
      if e.depth = depth ∧ e.target = target then { e with set := e.set ||| set } else e }
  else if l.stack.length = 8 then .error (.trapWord 29 0x06)
  else .ok { l with stack := insertEntry { target := target, set := set, depth := depth } l.stack }

/-- The active tuples whose image of k is not zero. -/
def Lift.takers (l : Lift) (k : KReg) : Mask :=
  (l.tuples l.all).foldl (fun (m : Mask) u =>
    if l.isActive u && l.mask k u != 0 then m ||| BitVec.ofNat 256 (2 ^ l.flat l.all u) else m) 0

/-- The axis state and the pc after a batched branch. -/
def Lift.branch (l : Lift) (k : KReg) (pc target : Word) : Except Exc (Lift × Word) :=
  let forward := decide (pc.toNat < target.toNat)
  let tk := l.takers k
  let n := l.active &&& ~~~tk
  if tk = 0 then .ok (l, pc + 4)
  else if n = 0 then
    match forward, l.stack with
    | true, top :: _ =>
      if top.target.toNat < target.toNat then
        (l.insert target tk).map fun m => ({ m with active := top.set, stack := m.stack.tail }, top.target)
      else .ok (l, target)
    | _, _ => .ok (l, target)
  else if forward then (l.insert target tk).map fun m => ({ m with active := n }, pc + 4)
  else (l.insert (pc + 4) n).map fun m => ({ m with active := tk }, target)

def execLbr (k : KReg) (imm : BitVec 12) (s : State) : Result :=
  runJump (.lbr k imm) s fun s =>
    let pc := s.me.pc
    let target := pc + immB imm
    let l := s.myLift
    match (if s.inRegion s.cur then l.axes.getLast? else none) with
    | none =>
      let img := l.mask k (l.axes.map fun _ => 0)
      .ok (if img != 0 then s.jumpTo target else s.setPc (pc + 4))
    | some a =>
      if target.toNat < a.entry.toNat then .error (.trapWord 29 0x07)
      else match l.branch k pc target with
        | .error e => .error e
        | .ok (m, p) =>
          let t := s.modLift fun _ => m
          match t.spillCheck s with
          | .error e => .error e
          | .ok t => .ok (if p = pc + 4 then t.setPc p else t.jumpTo p)

end Sys2Proof.Machine
end

