-- ==== Sys2Proof/Machine/Restore.lean ====
section
/-! DEFINITION. Restoring a partition from its saved image (R126, R170, R219, R220, R240, R345, R368, R371, R395): the image
is read and checked section by section, its records go to the mapped clusters, and no task becomes ready before all of them
are applied. -/

namespace Sys2Proof.Machine

/-- What a restore knows: the partition, its record before the restore, the cluster map, the header's kind, firmware
version and chip, the contexts of its format tables, and the gate waits of section 0x1602. -/
structure Restore where
  p       : Nat
  old     : Part
  map     : Table Nat
  kind    : Nat
  version : Nat
  chip    : Nat
  ctxs    : List Nat
  waits   : List (Word × Word)
  deriving DecidableEq, Repr, Inhabited

/-- A section as read: its directory entry, and its bytes unless some could not be read. -/
structure SectIn where
  type  : Nat
  inst  : Nat
  count : Nat
  crc   : Nat
  bytes : Option (List Byte)
  deriving DecidableEq, Repr, Inhabited

/-- The cluster a saved cluster goes to. -/
def Restore.target (k : Restore) (c : Nat) : Nat := k.map.get c c
def Restore.targets (k : Restore) : List Nat := k.map.map fun e => e.2
def Restore.has (k : Restore) (c : Nat) : Bool := (k.map.find c).isSome
def Restore.targetHart (k : Restore) (h : Nat) : Nat := k.target (h / 64) * 64 + h % 64

def damaged : Nat := 3
def imageRefused : Nat := 4
def mapRefused : Nat := 6

/-- Bytes cut into records of `size`. -/
def chunks (size : Nat) : Nat → List Byte → List (List Byte)
  | 0, _ => []
  | n + 1, bs => bs.take size :: chunks size n (bs.drop size)

def foldE {α : Type} (f : State → α → Except Nat State) : List α → State → Except Nat State
  | [], s => .ok s
  | x :: r, s => match f s x with
    | .ok s => foldE f r s
    | .error e => .error e

/-- Values of a task that no section of a bale holds: left open (log 17). -/
def openWord (h : Word) (i : Nat) : Word := Config.freeWord (h.toNat * 128 + i + 2 ^ 72)

/-- Registers that no section of a bale holds. -/
def openCtx (h : Word) : Ctx :=
  { x := Vector.ofFn fun i => if i.val = 0 then 0 else openWord h i.val, f := Vector.ofFn fun i => openWord h (32 + i.val),
    fcsr := (openWord h 64).setWidth 8, stcol := (openWord h 65).setWidth 3, vrm := (openWord h 66).setWidth 3,
    mfmt := Vector.ofFn fun i => (openWord h (67 + i.val)).setWidth 18, mgang := (openWord h 71).setWidth 18 }

/-- A task as another chip knows it: what its bale does not hold is left open. -/
def strangeTask (h : Word) (c : Nat) : Task :=
  let t := newTask (descOf (zeros 128)) 0 0 0 0 ((List.range 8).map fun i => openWord h (72 + i))
    ((List.range 8).map fun i => openWord h (80 + i)) c false .any 0
  { t with region := { t.region with
      close := (openWord h 88).setWidth 2, rst := (openWord h 89).setWidth 8, rseq := (openWord h 90).setWidth 16,
      ckpt := { t.region.ckpt with ctx := openCtx h } } }

/-- The chip has kept the task (log 17). -/
def Restore.knows (k : Restore) (h : Word) : Bool := (k.old.savedTasks.find h.toNat).isSome

/-- A handle's restored task, from what the chip has kept of it. -/
def Restore.base (k : Restore) (h : Word) (c : Nat) : Task := k.old.savedTasks.get h.toNat (strangeTask h c)

/-- The pin of a root, in the mapped cluster (R219). -/
def Restore.pin (k : Restore) : Pin → Pin
  | .any => .any
  | .hart h => .hart (k.targetHart h)
  | .core c => .core (k.target (c / 8) * 8 + c % 8)
  | .pair p => .pair (k.target (p / 4) * 4 + p % 4)

/-- A restored task at the start of its region, with the region counters as kept (R124). What an instruction had gained
before the stop is kept where its hart's core stays the same. -/
def Restore.task (k : Restore) (h : Word) (c : Nat) (pc : Word) (ctx : Ctx) (group remote : Nat) (order : Nat) : Task :=
  let t := k.base h c
  { t with
      state := .ready, cluster := k.target c, pin := k.pin t.pin, order := order, group := BitVec.ofNat 16 group,
      remoteCount := BitVec.ofNat 16 remote, pair := none, tiles := [], moved := false, runs := [], logRuns := [],
      translated := false, eccAt := [], parkedIn := none, wake := none,
      resume := if k.target c = c then t.resume else none, waitsOn := [], heldOn := none, opFaults := [],
      region := { Region.zero with
        close := t.region.close, rst := t.region.rst, rseq := t.region.rseq,
        ckpt := { pc := pc, ctx := ctx, lift := t.region.ckpt.lift, group := BitVec.ofNat 16 group } },
      lift := t.region.ckpt.lift, openGroups := [] }

/-! ## Partition-wide sections (R239, R365) -/

def Restore.partRecord (k : Restore) (s : State) (r : List Byte) : State :=
  s.modPart k.p fun x => { x with clamps := BitVec.ofNat 64 (natAt r 0x28 8) }

/-- The format entries of one context. -/
def Restore.formats (s : State) (e : List Byte × Nat) : State :=
  (List.range 16).foldl (fun s i =>
    { s with fmts := s.fmts.put (e.2 * 32 + 16 + i) (wordAt e.1 (8 * (16 + i))) }) s

/-- The part of a launch record that section 0x1704 holds: the flags and the completion address. -/
def launchBytes (r : List Byte) : List Byte := zeros 4 ++ [r.getD 21 0] ++ zeros 19 ++ (r.drop 8).take 8 ++ zeros 224

/-- An active launch (R365): one that this chip has not, runs on here with what its record holds. The rest of it is left
open (log 50); a verdict of provisional stands for uses of pairs of the other chip. -/
def Restore.launch (k : Restore) (s : State) (r : List Byte) : State :=
  let seq := wordAt r 0
  if s.launches.any fun e => e.2.part == k.p && e.2.unfinished && e.2.seq == seq && e.2.completion == wordAt r 8 then s
  else
    let s := s.tick
    let fn := (s.parts.get k.p default).fn
    let q := ((s.queues.find? fun e => !e.2.deleted && e.2.fn == fn && e.2.number == seq.toNat / 2 ^ 48)).getD (0, default)
    let v := byteAt r 20
    let n := fun i => (Config.freeWord (s.fresh + i)).toNat % 2 ^ 32
    let l : Launch := { (default : Launch) with
      fn := fn, pasid := q.2.pasid, part := k.p, slot := q.1, seq := seq, vector := q.2.vector, qprio := q.2.prio,
      record := launchBytes r, state := .running, roots := n 0, rootsLive := natAt r 16 4, rootsBad := n 1, ended := n 2,
      corrected := v == 1, tainted := v == 3, final := v == 3, uses := if v = 2 then [512] else [],
      home := s.firstCluster (some k.p) }
    { s.useFresh.useFresh.useFresh with launches := s.launches.put s.serial l }

/-! ## Harts (R125, R126) -/

def ctxAt (r : List Byte) : Ctx :=
  { x := Vector.ofFn fun i => if i.val = 0 then 0 else wordAt r (0x80 + 8 * i.val), f := Vector.ofFn fun i => wordAt r (0x180 + 8 * i.val),
    fcsr := BitVec.ofNat 8 (byteAt r 0x20), stcol := BitVec.ofNat 3 (byteAt r 0x28), vrm := BitVec.ofNat 3 (byteAt r 0x30),
    mfmt := Vector.ofFn fun i => BitVec.ofNat 18 (natAt r (0x40 + 8 * i.val) 8), mgang := BitVec.ofNat 18 (natAt r 0x38 8) }

/-- The S-mode and M-mode words of a record; what is not saved stays as it is. -/
def sysAt (y : SysCsrs) (r : List Byte) : SysCsrs :=
  { y with
      mstatus := wordAt r 0x300 &&& ~~~xlFields, mepc := wordAt r 0x308, mcause := wordAt r 0x310, mtval := wordAt r 0x318,
      mscratch := wordAt r 0x320, mtvec := wordAt r 0x328, mie := wordAt r 0x330, mip := wordAt r 0x338,
      medeleg := wordAt r 0x340, mideleg := wordAt r 0x348, mcounteren := BitVec.ofNat 32 (natAt r 0x350 4),
      menvcfg := wordAt r 0x358, sepc := wordAt r 0x288, scause := wordAt r 0x290, stval := wordAt r 0x298,
      sscratch := wordAt r 0x2A0, stvec := wordAt r 0x2A8, satp := wordAt r 0x2B8,
      scounteren := BitVec.ofNat 32 (natAt r 0x2C8 4), senvcfg := wordAt r 0x2D0 }

/-- One hart record: the S-mode and M-mode words go to the hart of the same numbers; a running task becomes ready; a hart in
S or M mode goes on there, with the task it holds. -/
def Restore.hart (k : Restore) (c : Nat) (s : State) (r : List Byte) : Except Nat State :=
  let h := natAt r 0 8 % 8192
  let n := k.targetHart h
  let t := wordAt r 8
  let pc := wordAt r 0x10
  let w := natAt r 0x18 8
  let mode := Mode.ofCode (w % 4)
  if h / 64 ≠ c ∨ w % 4 = 2 ∨ (w % 4 = 3 ∧ k.version ≠ Config.firmwareVersion.toNat) then .error damaged
  else
    let s := s.tick.modHart n fun x => { x with sys := sysAt x.sys r, remoteCount := BitVec.ofNat 16 (if t = 0 then natAt r 0x62 2 else x.remoteCount.toNat) }
    let x := k.task t c pc (ctxAt r) (natAt r 0x60 2) (natAt r 0x62 2) s.serial
    let x := { x with dispatched := true, region := { x.region with rst := BitVec.ofNat 8 (w / 2 ^ 8), rseq := BitVec.ofNat 16 (w / 2 ^ 16) } }
    let s := if t = 0 then s else s.setTask t { x with state := if mode = .u then .ready else .running }
    .ok (if mode = .u then s
      else s.modHart n fun y => { y with
        mode := mode, pc := pc, ctx := ctxAt r, task := if t = 0 then none else some t, jumped := true, pfx := none,
        waiting := if w / 4 % 2 = 1 then some { instr := .wfi, kind := .long, reply := none } else none })

/-! ## Barrier instances (R364) -/

/-- The domain of a record in the mapped cluster: its scope, unit and partition field; nothing where the index is not one
of the section's cluster. -/
def Restore.domain (k : Restore) (c : Nat) (r : List Byte) : Option (Nat × Nat × Nat) :=
  let d := natAt r 4 4
  match byteAt r 0 with
  | 1 => if d / 8 = c then some (1, k.target c * 8 + d % 8, 0) else none
  | 2 => if d / 4 = c then some (2, k.target c * 4 + d % 4, 0) else none
  | 3 => if d = c then some (3, k.target c, 0) else none
  | 4 => if d = c / 8 then some (4, k.target c / 8, k.p + 1) else none
  | _ => none

def Restore.barriers (k : Restore) (c : Nat) (s : State) (r : List Byte) : Except Nat State :=
  match k.domain c r with
  | none => .error damaged
  | some (scope, unit, part) =>
    .ok ((List.range 48).foldl (fun s i =>
      let o := 16 + 8 * i
      let b : Barrier := { count := BitVec.ofNat 16 (natAt r o 2), arrivals := BitVec.ofNat 16 (natAt r (o + 2) 2),
                           phase := BitVec.ofNat 16 (natAt r (o + 4) 2) }
      s.setBarrier (barrierBase scope unit part + i) b) s)

/-! ## Futures, tasks and waiters (R168 to R170) -/

/-- A future record: its slot, generation and home are those of its handle. -/
def Restore.future (k : Restore) (c : Nat) (s : State) (r : List Byte) : State :=
  let h := wordAt r 0
  let w := wordAt r 0x10
  let b := k.old.savedFuts.get h.toNat { (default : Future) with hasTask := wordAt r 0x18 != 0 }
  let f : Future := { b with
    gen := handleGen h, state := bits w 0 3, value := wordAt r 8, verdict := BitVec.ofNat 2 (bits w 4 2), once := w.getLsbD 6,
    tree := w.getLsbD 7, prio := BitVec.ofNat 2 (bits w 8 2), parent := wordAt r 0x18, home := handleHome h }
  { s with futures := s.futures.put (k.target c * 4096 + handleSlot h) f }

/-- The generations of the free slots. -/
def Restore.generations (k : Restore) (c : Nat) (s : State) (bs : List Byte) : State :=
  (chunks 4 4096 bs).zipIdx.foldl (fun s e =>
    let key := k.target c * 4096 + e.2
    match s.futures.find key with
    | some _ => s
    | none => if leNat e.1 = 0 then s
      else { s with futures := s.futures.put key { (default : Future) with gen := BitVec.ofNat 23 (leNat e.1) } }) s

/-- The progress of the stage arguments: what had hoisted stays so. -/
def maskPrefetch (args : List StageArg) (mask : Nat) : List Prefetch :=
  args.zipIdx.map fun e => if !e.1.valid || mask / 2 ^ e.2 % 2 == 1 then .done else .waiting

/-- A task record. A parked task whose instruction the chip has not kept makes it again from its restart point. -/
def Restore.taskRecord (k : Restore) (c : Nat) (s : State) (r : List Byte) : Except Nat State :=
  let h := wordAt r 0
  let code := byteAt r 8
  let b := k.base h c
  let s := s.tick
  let dispatched := natAt r 0x10 8 != 0
  let d := descOf ((r.drop 0x40).take 128)
  let desc := if b.root then b.desc else d
  let pc := if dispatched then wordAt r 0x10 else desc.entry
  let ctx := b.region.ckpt.ctx
  let x := k.task h c pc ctx (natAt r 0x0E 2) (natAt r 0x18 2) s.serial
  let x := { x with desc := desc, dispatched := dispatched, promo := BitVec.ofNat 2 (byteAt r 9 / 4),
                    prefetch := maskPrefetch desc.args (byteAt r 0x0D) }
  match code with
  | 0 => .ok (s.setTask h { x with state := .ring })
  | 1 => .ok (s.setTask h { x with state := .preparing })
  | 2 | 5 => .ok (s.setTask h { x with parkedIn := b.parkedIn, wake := b.wake, waitsOn := b.waitsOn, prefetch := x.prefetch.map fun _ => .done })
  | 4 => .ok (s.setTask h { x with
      state := .parked, parkedIn := b.parkedIn, waitsOn := b.waitsOn, prefetch := x.prefetch.map fun _ => .done })
  | _ => .error damaged

/-- A waiter record, with what the chip has kept of it. -/
def Restore.waiter (k : Restore) (c : Nat) (s : State) (r : List Byte) : State :=
  let f := wordAt r 0
  let t := wordAt r 8
  let g := k.target c
  let w := match ((k.old.savedHomes.get c Cluster.zero).waiters.find? fun w => w.future == f && w.task == t && w.spill.isNone) with
    | some w => w
    | none => { future := f, task := t, seq := (s.cluster g).waiterSeq, any := false, index := 0, eprio := 0, spill := none }
  let s := s.modCluster g fun x => { x with waiters := x.waiters ++ [w], waiterSeq := x.waiterSeq + 1 }
  s.modTask t fun x => if x.state = .parked ∧ x.waitsOn = [] then { x with waitsOn := [f] } else x

/-- The areas, with the records that stand in the spill region. -/
def Restore.areas (k : Restore) (c : Nat) (s : State) (r : List Byte) : State :=
  let b := k.old.savedHomes.get c Cluster.zero
  s.modCluster (k.target c) fun x => { x with
    spillBase := wordAt r 0, spillSize := wordAt r 8, ringBase := wordAt r 0x10, ringSize := wordAt r 0x18,
    ringHead := natAt r 0x20 8, ringTail := natAt r 0x28 8, areaHart := k.target c * 64 + b.areaHart % 64,
    waiters := sortBy (fun w => w.seq.toNat) (x.waiters ++ b.waiters.filter fun w => w.spill.isSome),
    waiterSeq := if b.waiterSeq.toNat > x.waiterSeq.toNat then b.waiterSeq else x.waiterSeq, marks := b.marks }

/-! ## Stages and commands (R201, R202, R219, R220) -/

def stageOf (w0 w1 : Word) : Stage :=
  { gen := BitVec.ofNat 16 (bits w0 48 16), pins := 0, armed := w0.getLsbD 39, cur := w0.getLsbD 38, defined := w0.getLsbD 37,
    size := bits w0 22 15 * 64, base := bits w0 6 16 * 64, count := BitVec.ofNat 32 (bits w1 32 32),
    target := BitVec.ofNat 32 (bits w1 0 32), prefetch := false, lifts := 0, due := false, hoisters := [] }

def Restore.stage (k : Restore) (c : Nat) (s : State) (e : List Byte × Nat) : State :=
  s.setStage (k.target c) e.2 (stageOf (wordAt e.1 0) (wordAt e.1 8))

/-- The first argument that waits for a stage is the one that a prefetch into it serves. -/
def markCopying (stage n : Nat) : List Prefetch → List StageArg → List Prefetch
  | p :: ps, a :: as =>
    if p = .waiting ∧ a.valid ∧ a.stage.toNat = stage then .copying n :: ps else p :: markCopying stage n ps as
  | ps, _ => ps

def kindOf : Nat → Option CopyKind
  | 0 => some .cpyin
  | 1 => some .cpyout
  | 2 => some .cpyx
  | 3 => some .gather
  | 4 => some .broadcast
  | 5 => some .fetch
  | _ => none

/-- The copy word of a command record: stage, offset, mask, and for `cpyx` the destination, mapped when it is a saved
cluster of the saving chip. -/
def Restore.copyWord (k : Restore) (s : State) (kind : CopyKind) (r : List Byte) : Word :=
  let dst := natAt r 0x14 4
  let there := decide (dst / 2 ^ 20 = k.chip) && k.has (dst % 128)
  let chip := if there then s.chip.toNat else dst / 2 ^ 20
  let cl := if there then k.target (dst % 128) else dst % 128
  let src := natAt r 0x18 8
  let stage := if kind = .cpyout then (src - 0x7F4000000000) / 2 ^ 20 else byteAt r 0x12
  let off := if kind = .cpyout then (src - 0x7F4000000000) % 2 ^ 20 else natAt r 0x20 8
  wordOf (stage + off / 64 * 2 ^ 8 + byteAt r 0x13 * 2 ^ 37 + (if kind = .cpyx then cl * 2 ^ 45 + chip * 2 ^ 52 else 0))

/-- A command record: the same slot and sequence in the mapped cluster. -/
def Restore.command (k : Restore) (c : Nat) (s : State) (r : List Byte) : Except Nat State :=
  let t := natAt r 0 8
  let n := t % 256
  let g := k.target c
  let b := (k.old.savedHomes.get c Cluster.zero).slots.get n default
  let same := b.ticket n == wordOf t && b.task == wordAt r 8
  let st := byteAt r 0x11
  let w := wordAt r 0x30
  match kindOf (byteAt r 0x10) with
  | none => .error damaged
  | some kind =>
    if t / 2 ^ 31 ≠ 1 ∨ !(st == 1 || st == 5 || st == 6) then .error damaged
    else
      let word := k.copyWord s kind r
      let targets := if kind = .cpyx then (if copyChip word = s.chip.toNat then [copyDcl word] else [])
        else if kind = .broadcast then (maskClusters c (copyMask word)).map k.target else []
      let h := s.superHart g
      let x : CopySlot := { (if same then b else default) with
        seq := BitVec.ofNat 16 (t / 256), state := st, cause := bits w 16 8, sub := bits w 24 8, done := natAt r 0x2C 4,
        total := natAt r 0x28 4, kind := kind, task := wordAt r 8, hart := if same then k.targetHart b.hart else h,
        word := word ||| wordOf ((if same then copyLen b.word else natAt r 0x28 4 / 64 % 2 ^ 15) * 2 ^ 22),
        satp := if same then b.satp else (s.hart h).sys.satp, mode := if same then b.mode else .u,
        addr := if kind = .cpyout then wordAt r 0x20 else wordAt r 0x18, targets := targets, out := false, heldOn := none }
      let s := s.setSlot g n x
      let s := if st = 1 then s.modCluster g fun y => { y with copyQueue := y.copyQueue ++ [n] } else s
      if kind = .fetch ∧ st = 1 then
        .ok ((s.modStage g (copyStage word) fun y => { y with prefetch := true }).modTask x.task fun y =>
          { y with prefetch := markCopying (copyStage word) n y.prefetch y.desc.args })
      else .ok s

/-- The halves of the defined stages, in ascending order. -/
def restoreStages (g : Nat) : List Nat → List Byte → State → State
  | [], _, s => s
  | n :: r, bs, s =>
    let t := s.stage g n
    if t.defined then restoreStages g r (bs.drop (2 * t.size)) (s.perform none none (padAddr g t.base) 0 (bs.take (2 * t.size)))
    else restoreStages g r bs s

/-! ## Tile engines (R239, R240, R320) -/

/-- The mapped pair that a record's pair id names, within its section. -/
def Restore.pair (k : Restore) (c : Nat) (r : List Byte) : Option Nat :=
  let p := natAt r 0 4
  if p / 4 = c then some (k.target c * 4 + p % 4) else none

def Restore.pairRecord (k : Restore) (c : Nat) (s : State) (r : List Byte) : Except Nat State :=
  match k.pair c r with
  | none => .error damaged
  | some q => .ok (s.modPair q fun x => { x with sems := (List.range 16).map fun i => (i, BitVec.ofNat 32 (natAt r (0x40 + 4 * i) 4)) })

/-- Rows that are zero are not listed. -/
def rowsAt (bs : List Byte) : Table Row :=
  (chunks 256 64 bs).zipIdx.filterMap fun e =>
    let v : Row := BitVec.ofNat 2048 (leNat e.1)
    if v = 0 then none else some (e.2, v)

def Restore.tile (k : Restore) (c : Nat) (s : State) (r : List Byte) : Except Nat State :=
  match k.pair c r with
  | none => .error damaged
  | some q =>
    let n := byteAt r 4
    let w := wordAt r 0x10
    if n ≥ 16 then .error damaged
    else .ok (s.setTile q n { rows := rowsAt (r.drop 64), fmt := BitVec.ofNat 5 (bits w 13 5), axes := BitVec.ofNat 4 (bits w 20 4),
                              flags := BitVec.ofNat 8 (bits w 0 8), owner := some (wordAt r 8) })

/-- An entry is kept as 32 bits and comes back sign-extended. -/
def axisAt (r : List Byte) : Axis :=
  { extent := byteAt r 0, stride := wordAt r 8, spill := byteAt r 1, entry := (BitVec.ofNat 32 (natAt r 4 4)).signExtend 64 }

/-- The lift axis state of a record; the images in spill and the stack entries come with the stage data (R320). -/
def liftOf (r : List Byte) : Lift :=
  let l := r.drop 0x100
  let tags := natAt l 4 4
  { axes := (List.range (byteAt l 0)).map fun i => axisAt (l.drop (0x10 + 16 * i)),
    active := BitVec.ofNat 256 (natAt l 0x50 32), stack := List.replicate (byteAt l 1) default,
    masks := Vector.ofFn fun i =>
      if i.val = 0 then { tags := 0, images := [] }
      else { tags := BitVec.ofNat 4 (tags / 2 ^ (4 * (i.val - 1))),
             images := [(0, BitVec.ofNat 256 (natAt r (0x20 + 32 * (i.val - 1)) 32))] },
    images := [] }

/-- The lift axis state of a task that stands at its checkpoint. -/
def State.setLift (s : State) (h : Word) (l : Lift) : State :=
  s.modTask h fun t => { t with lift := l, region := { t.region with ckpt := { t.region.ckpt with lift := l } } }

/-- A task map record. -/
def Restore.mapRecord (k : Restore) (c : Nat) (s : State) (r : List Byte) : Except Nat State :=
  let h := wordAt r 0
  let n := byteAt r 9
  let ts := (List.range n).map fun i => byteAt r (0x10 + i)
  if byteAt r 8 ≥ 4 ∨ n > 16 ∨ (ts.any fun t => decide (t ≥ 16)) ∨ byteAt r 0x100 > 4 ∨ byteAt r 0x101 > 8 then .error damaged
  else
    let g := k.target c
    .ok ((s.modTask h fun t => { t with pair := some (g * 4 + byteAt r 8), tiles := ts }).setLift h (liftOf r))

/-! ## Mailboxes (R364) -/

def mailAt (s : State) (key : Nat) (r : List Byte) : Message :=
  { dest := wordOf (s.chip.toNat * 2 ^ 36 + key * 2 ^ 24), sender := wordAt r 0, data := BitVec.ofNat 512 (natAt r 8 64) }

def Restore.mail (k : Restore) (c : Nat) (s : State) (r : List Byte) : Except Nat State :=
  let core := natAt r 0 4
  if core / 8 ≠ c ∨ (List.range 4).any (fun b => decide (byteAt r (5 + b) > 8)) then .error damaged
  else
    let d := k.target c * 8 + core % 8
    let s := s.modCluster (k.target c) fun x =>
      { x with sealedCores := if byteAt r 4 % 2 = 1 then x.sealedCores ||| BitVec.ofNat 8 (2 ^ (core % 8))
                              else x.sealedCores &&& ~~~(BitVec.ofNat 8 (2 ^ (core % 8))) }
    .ok ((List.range 4).foldl (fun s b =>
      let key := mailKey d b
      let ms := (chunks 72 (byteAt r (5 + b)) (r.drop (16 + 576 * b))).map (mailAt s key)
      s.setMailbox key { msgs := ms, senders := [], receivers := [] }) s)

/-! ## Gates (R344, R345) -/

def accessAt (r : List Byte) : Access :=
  { chip := BitVec.ofNat 12 (natAt r 0 2), part := byteAt r 2, rights := BitVec.ofNat 8 (byteAt r 3), policy := byteAt r 4 % 2 == 1,
    rate := natAt r 6 2, burst := natAt r 8 2, tokens := natAt r 10 2, valid := true }

def queuedAt (h : Word) (r : List Byte) : GateRequest :=
  { handle := h, chip := natAt r 0 2, part := byteAt r 2, hart := none, task := 0, mark := { who := 0, count := 0 },
    op := .gsig (wordAt r 8) }

/-- The places of the waits that the stop abandoned: a record names no gate, so each gate of the partition gets them all, and
those that a task does not take go with its first region close (R345). -/
def Restore.places (k : Restore) (s : State) (h : Word) : List GateRequest :=
  k.waits.map fun w =>
    { handle := h, chip := s.chip.toNat, part := k.p, hart := none, task := w.1, mark := { who := 0, count := 0 },
      op := if w.2 = (0 : Word) then .gtake else .gwait w.2 }

/-- A gate record, applied to the gate that the host has re-created for it; without one the gate goes on where it is. -/
def Restore.gate (k : Restore) (s : State) (e : List Byte × Option Nat) : State :=
  let r := e.1
  let h := wordAt r 0
  let src := gateNum h
  let live := if k.chip = s.chip.toNat then (s.gates.find src).filter fun g => g.present && g.frozen && g.moved.isNone else none
  let q := (chunks 16 (min 16 (byteAt r 0x0A)) (r.drop 0x100)).map (queuedAt h)
  let a := (chunks 16 (min 8 (byteAt r 0x0B)) (r.drop 0x80)).map accessAt
  match e.2 with
  | some n =>
    match s.gates.find n with
    | none => s
    | some g =>
      let new := gateHandle s.chip n
      let s := (s.setGate n { g with
        opened := byteAt r 9 % 2 == 1, counter := wordAt r 0x10, paySeq := wordAt r 0x18, payload := BitVec.ofNat 512 (natAt r 0x40 64),
        access := if g.access.isEmpty then a else g.access, queue := (live.map fun x => x.queue).getD q,
        waiters := k.places s new ++ g.waiters }).resumeGate n
      if live.isSome then s.moveGate src new else s
  | none =>
    match live with
    | some g => (s.setGate src { g with waiters := k.places s h ++ g.waiters }).resumeGate src
    | none => s

/-- The gates that the host has re-created: the partition's own that are not frozen. -/
def State.newGates (s : State) (p : Nat) : List Nat :=
  (s.gates.filter fun e => e.2.present && e.2.owner == p && !e.2.frozen && e.2.moved.isNone).map fun e => e.1

def Restore.gates (k : Restore) (s : State) (rs : List (List Byte)) : State :=
  if k.kind ≠ 2 then s
  else
    let ns := s.newGates k.p
    (rs.zipIdx.map fun e => (e.1, ns[e.2]?)).foldl k.gate s

/-! ## Sections -/

/-- The bytes of a record of each type, and those that follow the records; none for a type that is not known (R363). -/
def recordSize (type : Nat) : Option (Nat × Nat) :=
  match type with
  | 0x1701 => some (256, 0)
  | 0x1704 => some (64, 0)
  | 0x0E04 => some (256, 0)
  | 0x0101 => some (1024, 0)
  | 0x0701 => some (400, 0)
  | 0x0801 => some (32, 16384)
  | 0x0802 => some (256, 0)
  | 0x0803 => some (16, 0)
  | 0x0804 => some (64, 0)
  | 0x0B01 => some (16, 0)
  | 0x0B02 => some (64, 0)
  | 0x0B03 => some (0, 0)
  | 0x0E01 => some (128, 0)
  | 0x0E02 => some (16448, 0)
  | 0x0E03 => some (512, 0)
  | 0x1703 => some (2320, 0)
  | 0x1601 => some (512, 0)
  | 0x1602 => some (16, 0)
  | _ => none

def isClusterSect (type : Nat) : Bool :=
  !(type == 0x1701 || type == 0x1704 || type == 0x0E04 || type == 0x1601 || type == 0x1602)

/-- Apply the records of a section whose bytes have passed their check. -/
def Restore.apply (k : Restore) (x : SectIn) (bs : List Byte) (s : State) : Except Nat State :=
  let (size, extra) := (recordSize x.type).getD (0, 0)
  let rs := chunks size x.count bs
  let c := x.inst
  if isClusterSect x.type && !k.has c then .error damaged
  else if x.type ≠ 0x0B03 ∧ bs.length ≠ size * x.count + extra then .error damaged
  else match x.type with
    | 0x1701 => .ok (rs.foldl k.partRecord s)
    | 0x1704 => .ok (rs.foldl k.launch s)
    | 0x0E04 => .ok ((rs.zip k.ctxs).foldl Restore.formats s)
    | 0x0101 => foldE (k.hart c) rs s
    | 0x0701 => foldE (k.barriers c) rs s
    | 0x0801 => .ok (k.generations c (rs.foldl (k.future c) s) (bs.drop (32 * x.count)))
    | 0x0802 => foldE (k.taskRecord c) rs s
    | 0x0803 => .ok (rs.foldl (k.waiter c) s)
    | 0x0804 => .ok (rs.foldl (k.areas c) s)
    | 0x0B01 => .ok (rs.zipIdx.foldl (k.stage c) s)
    | 0x0B02 => foldE (k.command c) rs s
    | 0x0B03 => .ok (restoreStages (k.target c) (List.range 64) bs s)
    | 0x0E01 => foldE (k.pairRecord c) rs s
    | 0x0E02 => foldE (k.tile c) rs s
    | 0x0E03 => foldE (k.mapRecord c) rs s
    | 0x1703 => foldE (k.mail c) rs s
    | 0x1601 => .ok (k.gates s rs)
    | _ => .ok s

/-- The section was saved with an uncorrectable error (R372). -/
def Restore.erred (k : Restore) (x : SectIn) : Bool := x.type == 0x0E02 && k.old.damaged.contains (k.old.saveBase, x.inst)

/-- Check and apply the sections in order; a failure names its section. -/
def Restore.sections (k : Restore) : Nat → List SectIn → State → Except (Nat × Nat) State
  | _, [], s => .ok s
  | i, x :: r, s =>
    match x.bytes with
    | none => .error (damaged, i)
    | some bs =>
      if crc32c bs ≠ x.crc ∨ k.erred x then .error (damaged, i)
      else match k.apply x bs s with
        | .error e => .error (e, i)
        | .ok s => k.sections (i + 1) r s

/-! ## Reading the image -/

/-- Read bytes of the save area through stage 2, unit by unit. -/
def readArea (p base : Nat) : Nat → Nat → Nat → State → State × Option (List Byte)
  | 0, _, n, s => (s, if n = 0 then some [] else none)
  | m + 1, pos, n, s =>
    if n = 0 then (s, some [])
    else
      let j := min n (64 - (base + pos) % 64)
      match stage2 s (some p) .load .load 0 (base + pos) with
      | .error _ => (s, none)
      | .ok (s, pa, _) =>
        if pa ≥ hbmSize then (s, none)
        else match readArea p base m (pos + j) (n - j) s with
          | (t, some bs) => (t, some (s.readAs (some p) pa j ++ bs))
          | (t, none) => (t, none)

def readPart (p base pos n : Nat) (s : State) : State × Option (List Byte) := readArea p base (n / 64 + 2) pos n s

/-- The sections of a directory, read in its order; after the first that cannot be read nothing more is. -/
def readSects (p base : Nat) : List (List Byte) → State → State × List SectIn
  | [], s => (s, [])
  | d :: r, s =>
    let (s, bs) := readPart p base (natAt d 8 8) (natAt d 16 8) s
    let x : SectIn := { type := natAt d 0 2, inst := natAt d 2 2, count := natAt d 4 4, crc := natAt d 24 4, bytes := bs }
    match bs with
    | none => (s, [x])
    | some _ => let (s, l) := readSects p base r s; (s, x :: l)

/-- The header is one a restore accepts: else the code. -/
def headerCode (h : List Byte) : Option Nat :=
  if h.take 4 ≠ [0x42, 0x41, 0x4C, 0x45] ∨ natAt h 4 2 ≠ 1 ∨ natAt h 6 2 = 0 ∨ natAt h 6 2 > 3 then some imageRefused
  else if crc32c (h.take 0x38) ≠ natAt h 0x38 4 then some damaged
  else if natAt h 0x14 4 ≠ 1 ∨ natAt h 0x10 4 > 65535 then some imageRefused
  else none

/-- The first section whose type or count is refused. -/
def refusedSect (l : List (List Byte)) : Option Nat :=
  (l.zipIdx.find? fun e => (recordSize (natAt e.1 0 2)).isNone || decide (natAt e.1 4 4 > 65535)).map fun e => e.2

/-! ## The cluster map (R219, R366, R395) -/

def mapOf (cs : List Nat) (bytes : List Byte) : Table Nat := cs.map fun c => (c, natAt bytes (2 * c) 2)

/-- Every saved cluster has a target of the partition, and no two the same. -/
def mapOk (s : State) (p : Nat) (m : Table Nat) : Bool :=
  ((m.map fun e => e.2).all fun c => decide (c < 128) && s.partOf c == some p) && ((m.map fun e => e.2).eraseDups).length == m.length

/-- A root of a hart level stays on its die. -/
def diesOk (x : Part) (m : Table Nat) : Bool :=
  x.savedTasks.all fun e => match e.2.pin, m.find e.2.cluster with
    | .hart _, some d => d / 64 == e.2.cluster / 64
    | _, _ => true

/-! ## Before and after (R126, R220, R371) -/

/-- A target cluster as the restore finds it: empty, with what the host has set for it. -/
def State.clearTarget (s : State) (c : Nat) : State :=
  let k := s.cluster c
  let t := s.scrubCluster c
  t.modCluster c fun x => { x with
    part := k.part, permLocal := k.permLocal, permRemote := k.permRemote, sealedCores := k.sealedCores, reports := k.reports,
    unread := k.unread, overwritten := k.overwritten }

def clearTargets : List Nat → State → State
  | [], s => s
  | c :: r, s => clearTargets r (s.clearTarget c)

/-- Translate the declared ranges of the restored tasks again (R37, R170). -/
def retranslate : List Nat → State → State
  | [], s => s
  | h :: r, s =>
    match s.task? (wordOf h) with
    | none => retranslate r s
    | some t =>
      if t.state = .ring ∨ t.state = .preparing then retranslate r s
      else match s.prepareRuns (wordOf h) t with
        | .ok (s, rs, ls) => retranslate r (s.modTask (wordOf h) fun t => { t with translated := true, runs := rs, logRuns := ls })
        | .error f => retranslate r (s.prepFails (wordOf h) t.cluster f)

/-- Homes that a handle of the image names and that another cluster serves now. -/
def Restore.redirects (k : Restore) (s : State) : List (Nat × Nat) :=
  (k.map.filter fun e => e.1 != e.2 || k.chip != s.chip.toNat).map fun e => (k.chip * 128 + e.1, e.2)

/-- The spill records that stand in the region of a cluster that another chip saved (R160, R162): waiters, and futures of the
partition's launch. -/
def spillsOf (c first : Nat) : List (Nat × List Byte) → State → State
  | [], s => s
  | (i, bs) :: r, s =>
    let w := wordAt bs 0
    if bits w 62 2 = 3 then
      let f := wordOf (w.toNat % 2 ^ 62 + 2 * 2 ^ 62)
      let t := wordAt bs 8
      let x : Waiter := { future := f, task := t, seq := BitVec.ofNat 32 (natAt bs 16 4), any := byteAt bs 20 == 1,
                          index := byteAt bs 21, eprio := s.eprio t, spill := some i }
      spillsOf c first r ((s.modCluster c fun k => { k with waiters := k.waiters ++ [x], waiterSeq := x.seq + 1 }).modTask t fun y =>
        if y.state = .parked ∧ y.waitsOn = [] then { y with waitsOn := [f] } else y)
    else spillsOf c first r (s.modLaunch first fun l => { l with
      spilled := l.spilled ++ [w], spillTasks := if wordAt bs 24 = 0 then l.spillTasks else l.spillTasks ++ [w] })

/-- The clusters whose supervisor areas this chip has kept nothing of. -/
def Restore.strangeSpills (k : Restore) (first : Nat) : List (Nat × Nat) → State → State
  | [], s => s
  | (c, g) :: r, s =>
    let s := if (k.old.savedHomes.find c).isSome then s else spillsOf g first (s.spilledRecords g) s
    k.strangeSpills first r s

/-- A task that another chip has saved belongs to the partition's launch; what its future tells of it is known. -/
def Restore.adopt (k : Restore) (first : Nat) (s : State) (h : Nat) : State :=
  let w := wordOf h
  match s.fut? w with
  | none => s
  | some f =>
    let s := s.setFut w { f with hasTask := true, launch := if k.knows w then f.launch else first }
    if k.knows w then s
    else s.modTask w fun t => { t with launch := first, parent := f.parent, root := f.parent == 0, verdict := f.verdict }

/-- Futures of another chip belong to the partition's launch. -/
def Restore.adoptFutures (k : Restore) (first : Nat) (s : State) : State :=
  { s with futures := s.futures.mapVal fun key f =>
      if k.targets.contains (key / 4096) ∧ f.state ≠ 0 ∧ (k.old.savedFuts.find (f.handle key).toNat).isNone then
        { f with launch := first }
      else f }

/-- The spill stages of the open axes of restored tasks are held again (R321). -/
def State.holdAll (s : State) : List Nat → State
  | [] => s
  | h :: r => (match s.task? (wordOf h) with | some t => holdLifts s t.cluster t.lift.axes | none => s).holdAll r

/-- One granule of a spill stage. -/
def takeGranule (s : State) (r : List Byte) : State :=
  let h := wordAt r 0
  match s.task? h with
  | none => s
  | some t =>
    let l := t.lift
    let n := byteAt r 9
    let set : Mask := BitVec.ofNat 256 (natAt r 32 32)
    if byteAt r 8 = 1 then
      s.setLift h { l with masks := Vector.ofFn fun i =>
        if i.val = n then { l.masks[i] with images := l.masks[i].images.put (byteAt r 10) set } else l.masks[i] }
    else s.setLift h { l with stack := l.stack.set n { target := wordAt r 16, set := set, depth := byteAt r 10 } }

/-- One tile image of a spill stage. -/
def takeImage (s : State) (x : Nat × Nat × Nat) (bs : List Byte) : State :=
  match s.task? (wordOf x.1) with
  | none => s
  | some t =>
    s.setLift (wordOf x.1) { t.lift with
      images := t.lift.images.put x.2.1 ((t.lift.images.get x.2.1 []).put x.2.2 (rowsAt bs)) }

/-- What stands in a spill stage goes back to its tasks, as `spillBytes` has placed it (R306, R320). -/
def State.takeSpill (s : State) (g n : Nat) : State :=
  let t := s.stage g n
  if t.lifts = 0 then s
  else
    let size := 2 * t.size
    let bs := s.bytes (padAddr g t.base) size
    let tiles := s.spillTiles g n
    let s := ((chunks 64 ((size - 16384 * tiles.length) / 64) bs).takeWhile fun r => byteAt r 8 != 0).foldl takeGranule s
    tiles.zipIdx.foldl (fun s x => takeImage s x.1 ((bs.drop (size - 16384 * (x.2 + 1))).take 16384)) s

/-- Tasks that harts of the targets hold use those pairs (R376). -/
def State.useHeld (s : State) (ts : List Nat) : State :=
  (s.harts.filter fun e => ts.contains (clusterOf e.1)).foldl (fun s e =>
    match s.taskOf e.1 with
    | some t => s.useBy t.launch (pairOf e.1)
    | none => s) s

/-- The restored tasks are complete: what stands in spill, what other records tell of them, and their declared ranges. -/
def Restore.rebuild (k : Restore) (s : State) : State :=
  let ts := k.targets
  let hs := (s.tasks.filter fun e => ts.contains e.2.cluster).map fun e => e.1
  let first := ((s.launches.find? fun e => e.2.part == k.p && e.2.unfinished).map fun e => e.1).getD 0
  let s := s.holdAll hs
  let s := ts.foldl (fun s g => (List.range 64).foldl (fun s n => s.takeSpill g n) s) s
  let s := hs.foldl (k.adopt first) (k.adoptFutures first s)
  (retranslate hs (k.strangeSpills first k.map s)).useHeld ts

/-- The restore has ended: handles are redirected, the clusters left behind are former ones, and the partition runs. -/
def Restore.finish (k : Restore) (s : State) : State :=
  let ts := k.targets
  let away := if k.kind = 2 ∧ k.chip = s.chip.toNat then (k.map.map fun e => e.1).filter fun c => !ts.contains c else []
  let s := { s with
    forwards := k.redirects s ++ s.forwards.filter (fun (e : Nat × Nat) => !(k.map.any fun m => k.chip * 128 + m.1 == e.1)),
    former := (away ++ s.former.filter fun c => !away.contains c).filter fun c => !ts.contains c }
  let s := (k.rebuild s).ctxEnd k.p 0 0
  let s := s.modPart k.p fun x => { x with released := false, waits := [] }
  (s.applyAcks k.p).kick k.p

/-! ## The command (R368, R395) -/

/-- A partition-wide section as read, with the index that names it: its bytes where they have passed their check. -/
def sectBytes (type : Nat) (xs : List SectIn) : Option (Nat × Except Nat (List Byte)) :=
  (xs.zipIdx.find? fun e => e.1.type == type).map fun e =>
    (e.2, match e.1.bytes with
      | some bs => if crc32c bs = e.1.crc then .ok bs else .error damaged
      | none => .error damaged)

/-- The contexts of a bale's format tables: those that the chip has kept, else those of the saved harts where there are as many
(log 50). -/
def bakedContexts (p : Nat) (x : Part) (xs : List SectIn) : List Nat :=
  if x.ctxs ≠ [] then x.ctxs
  else
    let n := ((xs.find? fun e => e.type == 0x0E04).map fun e => e.count).getD 0
    let cs := sortBy id (((xs.filter fun e => e.type == 0x0101).flatMap fun e =>
      (chunks 1024 e.count (e.bytes.getD [])).map fun r => (p + 1) * 2 ^ 64 + (wordAt r 0x2B8).toNat).eraseDups)
    if cs.length = n then cs else []

/-- The waits of section 0x1602. -/
def bakedWaits (xs : List SectIn) : List (Word × Word) :=
  match sectBytes 0x1602 xs with
  | some (_, .ok bs) => (chunks 16 (bs.length / 16) bs).map fun r => (wordAt r 0, wordAt r 8)
  | _ => []

/-- Apply the sections: a cluster that the partition leaves is as empty as its targets are. -/
def State.applyBale (s : State) (p : Nat) (x : Part) (h : List Byte) (m : Table Nat) (xs : List SectIn) :
    Except (Nat × Nat) State :=
  let k : Restore := { p := p, old := x, map := m, kind := natAt h 6 2, version := natAt h 0x1A 2, chip := natAt h 0x1C 2,
                       ctxs := bakedContexts p x xs, waits := bakedWaits xs }
  let left := if k.chip = s.chip.toNat then (m.map fun e => e.1).filter fun c => !k.targets.contains c && s.partOf c == some p
    else []
  (k.sections 0 xs (clearTargets (left ++ k.targets) s)).map k.finish

/-- The result of a restore: the state after the reads, and what the sections give or the code and section of a failure. -/
def State.restore (s : State) (p : Nat) (x : Part) : State × Except (Nat × Nat) State :=
  let base := x.saveBase.toNat
  match readPart p base 0 64 s with
  | (s, none) => (s, .error (damaged, 0))
  | (s, some h) =>
    match headerCode h with
    | some code => (s, .error (code, 0))
    | none =>
      let n := natAt h 0x10 4
      match readPart p base (natAt h 0x30 8) (32 * n) s with
      | (s, none) => (s, .error (damaged, 0))
      | (s, some dir) =>
        let ds := chunks 32 n dir
        match refusedSect ds with
        | some i => (s, .error (imageRefused, i))
        | none =>
          let (s, xs) := readSects p base ds s
          match sectBytes 0x1701 xs with
          | some (i, .error e) => (s, .error (e, i))
          | some (_, .ok bs) =>
            let m := mapOf (maskList (BitVec.ofNat 128 (natAt bs 8 16))) (s.hostRead 0 none x.mapAddr 256)
            if !mapOk s p m || !diesOk x m then (s, .error (mapRefused, 0)) else (s, s.applyBale p x h m xs)
          | none => (s, s.applyBale p x h [] xs)

/-- The partition runs a task: it has not been stopped and saved. -/
def State.liveTask (s : State) (p : Nat) (x : Part) : Bool :=
  (x.state == 0 || x.state == 2) && s.tasks.any fun e => s.partOf e.2.cluster == some p

/-- The restore that runs reads and applies the bale. -/
def State.runRestore (s : State) (p : Nat) (x : Part) : State :=
  match s.restore p x with
  | (_, .ok s) => s
  | (s, .error (code, sect)) => s.modPart p fun y =>
      { y with state := 7, code := BitVec.ofNat 8 code, sect := BitVec.ofNat 16 sect, command := 0, stopStep := 0 }

/-- Command 0x07: the partition's harts stand still and PSTAT reads restoring (R359); the engine then reads the bale. A
command that comes meanwhile is refused. -/
def execCtxRestore (p : Nat) (s : State) : Result :=
  let x := s.parts.get p default
  if x.state = 6 ∧ x.command = 7 then
    .next (if s.pending.contains (.ctxRestore p) then s.setCode p 5 else s.runRestore p x)
  else if x.busy || s.liveTask p x then .next (s.setCode p 5)
  else s.ctxCommand p (fun x => x.state != 5) fun _ =>
    ((s.stopHarts p).modPart p fun y => { y with state := 6, command := 7 }).post (.ctxRestore p)

end Sys2Proof.Machine
end

