-- ==== Sys2Proof/Machine/TaskOps.lean ====
section
/-! DEFINITION. The task instructions (R171 to R186) and the requests of other chips at a home (R404). -/

namespace Sys2Proof.Machine

/-- The task the hart runs, or in S and M mode holds; without one the instruction is illegal (R172). -/
def State.actingTask (s : State) : Except Exc (Word × Task) :=
  match s.me.task, s.myTask with
  | some h, some t => .ok (h, t)
  | _, _ => .error .illegal

/-- A handle that equals the issuing task's `tself` (R174). -/
def State.notSelf (s : State) (h : Word) : Except Exc Unit :=
  if s.me.task = some h then .error (.trap 48 0x03 h) else .ok ()

/-! ## spawn and promise (R175, R180) -/

/-- A blank future of a task or a promise. -/
def futureFor (d : Option Desc) (parent : Word) (launch : Nat) : Future :=
  { (default : Future) with
    once := (d.map fun d => d.once).getD false, tree := (d.map fun d => d.tree).getD false,
    prio := (d.map fun d => d.prio).getD 0, hasTask := d.isSome, parent := parent, launch := launch }

/-- The descriptor, read and checked once: a request that was held goes on from allocation (R160, R175). -/
def State.readDesc (s : State) (a : Word) : Except Exc (State × List Byte) :=
  match s.me.waiting with
  | some { kind := .held _ _ bs _, .. } => .ok (s, bs)
  | _ => do
    let (s, bs) ← s.load a 128 64
    match descFault (s.partClusters (s.partOf (clusterOf s.cur))) (clusterOf s.cur) bs with
    | some sub => throw (.trap 48 sub a)
    | none => pure (s, bs)

/-- `spawn` (R175): the descriptor read and checked, a future allocated, the child on its way. -/
def State.spawn (s : State) (rd rs1 rs2 : Reg) : Except Exc State := do
  let (me, t) ← s.actingTask
  s.heldGate
  let c := clusterOf s.cur
  let arg := s.x rs2
  let (s, bs) ← s.readDesc (s.x rs1)
  let d := descOf bs
  match s.allocFuture c (futureFor (some d) me t.launch) with
  | none => throw (s.holdAt c 0x01 bs [])
  | some (u, h) =>
    let target := u.chooseCluster c d
    if !u.taskRoom target then throw (s.holdAt c 0x02 bs [])
    let u := u.setTask h (newTask d arg 0 t.launch me t.lid t.lcnt target false .any u.serial)
    pure ((u.post (.taskIntake h)).setX rd h)

def execSpawn (rd rs1 rs2 : Reg) (s : State) : Result :=
  runClosing false (.spawn rd rs1 rs2) s fun s => s.spawn rd rs1 rs2

def execPromise (rd : Reg) (s : State) : Result :=
  runClosing false (.promise rd) s fun s => do
    let (_, t) ← s.actingTask
    s.heldGate
    let c := clusterOf s.cur
    match s.allocFuture c (futureFor none 0 t.launch) with
    | none => throw (s.holdAt c 0x01 [] [])
    | some (u, h) => pure (u.setX rd h)

/-! ## touch (R173, R177) -/

/-- How a touch, or a `tany` that has selected, ends on the outcome of a future (R173): the value, or the trap. -/
def outcomeValue (st : Nat) (v : Word) : Except Exc Word :=
  if st = 4 then .error (.trap 24 0x01 0)
  else if st = 5 then .error (.trap 24 (if v.getLsbD 16 then 0x03 else 0x02) v)
  else .ok v

/-- Park the task (R161): it waits off the hart, in this instruction. -/
def State.park (s : State) (i : Instr) (handles : List Word) : State :=
  match s.me.task with
  | none => s
  | some t => (s.modTask t fun t => { t with parkedIn := some i, wake := none, waitsOn := handles }).setAside s.cur .parked

/-- What a touch does with the answer of the home; `source` is the launch of a future of this package (R378). -/
def State.touchAnswer (s : State) (rd : Reg) (h : Word) (woken : Bool) (source : Option Nat) (i : Instr) :
    Reply → Except Exc State
  | .done st v vd => do
    let v ← outcomeValue st v
    pure ((s.completeTouch (s.me.task.getD 0) h vd woken source).setX rd v)
  | .trap cause sub tval => .error (.trap cause sub tval)
  | _ => if s.me.mode = .u then .ok (s.park i [h]) else .error (.wait (.sent []))

/-- The launch that the outcome which woke the task comes from. -/
def State.wakeSource (s : State) : Option Nat :=
  match s.myTask.bind fun t => t.wake with
  | some (.outcome _ _ _ _ src) => src
  | _ => none

/-- The touch of a future on this chip: in U mode a waiter record and the park, in S and M mode a long wait (R172), which
takes no record: a future that becomes terminal and is freed before the hart's next test is not current, and the touch traps
48, 0x04 (DESIGN CHOICE, log 29). -/
def State.touchHere (s : State) (rd : Reg) (h : Word) (i : Instr) : Except Exc State :=
  if s.me.mode = .u then
    match s.homeTouch h (s.me.task.getD 0) false 0 (s.eprio (s.me.task.getD 0)) with
    | (t, none) => .ok (t.park i [h])
    | (t, some (.trap 25 sub _)) => .error (t.holdAt (t.homeOf h) sub [] [])
    | (t, some r) => t.touchAnswer rd h false (t.sourceOf h) i r
  else
    match s.homeApply h .tanyCheck with
    | (t, some (.done st v vd)) => if st < 3 then .error (.wait .long) else t.touchAnswer rd h false (t.sourceOf h) i (.done st v vd)
    | (t, some r) => t.touchAnswer rd h false none i r
    | (_, none) => .error (.wait .long)

def State.touch (s : State) (rd rs1 : Reg) (i : Instr) : Except Exc State :=
  let h := s.x rs1
  match s.me.waiting with
  | some { kind := .short, reply := some r, .. } => s.touchAnswer rd h true s.wakeSource i r
  | _ => do
    s.heldGate
    s.acceptHandle h
    s.notSelf h
    if s.isHere h then s.touchHere rd h i
    else
      let (s, r) ← s.remote (.trap 48 0x05 h)
      s.touchAnswer rd h false none i r

def execTouch (rd rs1 : Reg) (s : State) : Result :=
  runClosing false (.touch rd rs1) s fun s => s.touch rd rs1 (.touch rd rs1)

/-- `tpoll` leaves the region open and raises nothing (R178). -/
def execTpoll (rd rs1 : Reg) (s : State) : Result :=
  runOpen (.tpoll rd rs1) s fun s => do
    s.acceptHandle (s.x rs1)
    let (s, r) ← s.ask (s.x rs1) .tpoll
    pure (s.setX rd (replyWord r))

/-! ## tany (R179) -/

/-- An entry's outcome when it is terminal: on this chip as it stands, on another as its home has answered. An entry that
has been freed has none. -/
def State.entryOutcome (s : State) (h : Word) (away : Option (Nat × Word × Nat)) : Option (Nat × Word × Nat) :=
  if h = 0 then none
  else if s.isHere h then
    match s.homeApply h .tanyCheck with
    | (_, some (.done st v vd)) => if st ≥ 3 then some (st, v, vd) else none
    | _ => none
  else away

def State.entryOutcomes (s : State) : List Word → List (Option (Nat × Word × Nat)) → List (Option (Nat × Word × Nat))
  | [], _ => []
  | h :: r, away => s.entryOutcome h (away.headD none) :: s.entryOutcomes r away.tail

/-- The lowest-indexed terminal entry. -/
def firstOutcome : Nat → List (Option (Nat × Word × Nat)) → Option (Nat × Nat × Word × Nat)
  | _, [] => none
  | i, some o :: _ => some (i, o)
  | i, none :: r => firstOutcome (i + 1) r

/-- The checks of one entry by R149 and R174; those at the home for an entry of this chip. -/
def State.checkEntry (s : State) (h : Word) : Except Exc Unit :=
  if h = 0 then .ok ()
  else do
    s.checkHandle (clusterOf s.cur) h
    s.notSelf h
    if s.isHere h then
      match s.homeApply h .tanyCheck with
      | (_, some (.trap cause sub tval)) => .error (.trap cause sub tval)
      | _ => .ok ()
    else .ok ()

/-- The checks of the entries in ascending index; those after an entry of another chip wait for its home unless `all`. -/
def State.checkEntries (s : State) (all : Bool) : List Word → Except Exc Unit
  | [] => .ok ()
  | h :: r => do
    s.checkEntry h
    if all || h == 0 || s.isHere h then s.checkEntries all r else .ok ()

/-- A waiter record at every non-null entry of this chip; the subcode of exhaustion with its home otherwise. -/
def State.addRecords (s : State) (task : Word) (eprio : Nat) : Nat → List Word → Except Word State
  | _, [] => .ok s
  | i, h :: r =>
    if h = 0 ∨ !s.isHere h then s.addRecords task eprio (i + 1) r
    else match s.addWaiter h task true i eprio with
      | some s => s.addRecords task eprio (i + 1) r
      | none => .error h

/-- The selection among the entries as they stand: the lowest terminal one ends the instruction; with none, an entry that
has been freed since its check traps by it, and else in U mode the task parks, in S and M mode the hart waits. -/
def State.tanySelect (s : State) (rd : Reg) (hs : List Word) (away : List (Option (Nat × Word × Nat))) (i : Instr) :
    Except Exc State :=
  match firstOutcome 0 (s.entryOutcomes hs away) with
  | some (k, st, v, vd) => do
    let _ ← outcomeValue st v
    let me := s.me.task.getD 0
    pure (((s.raiseVerdict me vd).takesFrom me (s.sourceOf (hs.getD k 0))).setX rd (wordOf k))
  | none => do
    s.checkEntries true hs
    if s.me.mode = .u then
      match s.addRecords (s.me.task.getD 0) (s.eprio (s.me.task.getD 0)) 0 hs with
      | .ok t => pure (t.park i hs)
      | .error h => throw (s.holdAt (s.homeOf h) 0x03 [] hs)
    else throw (.wait (.anyOf hs))

/-- The array of handles: read and checked once, and kept while the instruction waits (R179). -/
def State.tanyHandles (s : State) (rs1 rs2 : Reg) : Except Exc (State × List Word) :=
  match s.me.waiting, s.myTask with
  | some { kind := .anyOf hs, .. }, _ => .ok (s, hs)
  | some { kind := .short, .. }, some t => .ok (s, t.waitsOn)
  | some { kind := .sent hs, .. }, _ => .ok (s, hs)
  | some { kind := .held _ _ _ hs, .. }, _ => .ok (s, hs)
  | _, _ => do
    let n := (s.x rs2).toNat
    if n = 0 ∨ n > 16 then throw (.trap 48 0x08 (s.x rs1))
    let (s, bs) ← s.load (s.x rs1) (8 * n) 8
    let hs := (List.range n).map fun k => wordAt bs (8 * k)
    if hs.all fun h => h == 0 then throw (.trap 48 0x02 (s.x rs1))
    s.checkEntries false hs
    pure (s, hs)

/-- `tany` (R179): with the answers of other chips, the checks of the entries that waited for them come before the
selection. -/
def State.tany (s : State) (rd rs1 rs2 : Reg) (i : Instr) : Except Exc State := do
  s.heldGate
  let (s, hs) ← s.tanyHandles rs1 rs2
  if hs.all fun h => h == 0 || s.isHere h then s.tanySelect rd hs [] i
  else
    let h := (hs.find? fun h => h != 0 && !s.isHere h).getD 0
    let (s, r) ← s.remoteWith (.trap 48 0x05 h) hs
    let away := match r with | .many os => os | _ => []
    s.checkEntries true hs
    s.tanySelect rd hs away i

def execTany (rd rs1 rs2 : Reg) (s : State) : Result :=
  runClosing false (.tany rd rs1 rs2) s fun s => s.tany rd rs1 rs2 (.tany rd rs1 rs2)

/-! ## resolve, cancel, poison, frel (R181, R182, R185) -/

/-- The verdict that `resolve` stamps: that of the resolving task as it reads it (R153, R377); clean without one. -/
def State.myVerdict (s : State) : Nat := match s.myTask with | some t => s.seenVerdict t.launch t.verdict.toNat | none => 0

def execResolve (rd rs1 rs2 : Reg) (s : State) : Result :=
  runClosing false (.resolve rd rs1 rs2) s fun s => do
    let h := s.x rs1
    s.acceptHandle h
    s.notSelf h
    let (s, r) ← s.ask h (.resolve (s.x rs2) s.myVerdict)
    pure (s.setX rd (replyWord r))

/-- The fault word of `poison` (R182). -/
def poisonWord (sub origin : Nat) : Word := faultWord 24 (sub % 256) origin true

/-- `cancel` and `poison`: the issuer's own task ends at once, with rd written only in S and M mode; any other future at
its home. -/
def State.endOther (s : State) (rd : Reg) (h : Word) (how : EndKind) (op : HomeOp) : Except Exc State := do
  s.acceptHandle h
  if s.me.task = some h then
    let t := s.endTask h how
    pure (if s.me.mode = .u then t else t.setX rd 1)
  else
    let (s, r) ← s.ask h op
    pure (s.setX rd (replyWord r))

def execCancel (rd rs1 : Reg) (s : State) : Result :=
  runClosing false (.cancel rd rs1) s fun s => s.endOther rd (s.x rs1) .cancelled .cancel

def execPoison (rd rs1 rs2 : Reg) (s : State) : Result :=
  runClosing false (.poison rd rs1 rs2) s fun s =>
    let w := poisonWord (s.x rs2).toNat (clusterOf s.cur)
    s.endOther rd (s.x rs1) (.faulted w) (.poison w)

def execFrel (rs1 : Reg) (s : State) : Result :=
  runClosing false (.frel rs1) s fun s => do
    let h := s.x rs1
    s.acceptHandle h
    s.notSelf h
    let (s, _) ← s.ask h .frel
    pure s

/-! ## texit and tyield (R183, R184) -/

/-- The matrix, tile-data and commit-group operations of a task have completed. -/
def State.opsDone (s : State) (task : Word) (t : Task) : Bool :=
  t.openGroups.isEmpty && (match t.pair with
    | some p => !((s.pair p).ops.any fun o => o.task == task)
    | none => true)

/-- The word has retired on the hart that leaves its task (R105). -/
def State.retireOn (s : State) (h : Nat) : State := s.modHart h fun x => { x with sys := x.sys.retire 1 }

def execTexit (rs1 : Reg) (s : State) : Result :=
  if s.me.mode ≠ .u then .next (s.finishExc (.texit rs1) .illegal)
  else s.faultFirst (.texit rs1) (fun _ => true) <|
  runClosing false (.texit rs1) s fun s => do
    s.opFaultAt fun _ => true
    let (h, t) ← s.actingTask
    if s.opsDone h t then pure ((s.exitTask h (s.x rs1)).retireOn s.cur) else throw (.wait .late)

def execTyield (s : State) : Result :=
  runClosing false .tyield s fun s => do
    if s.me.mode ≠ .u then throw .illegal
    let (h, _) ← s.actingTask
    let s := s.checkpoint s.cur (s.me.pc + 4)
    pure (((s.setAside s.cur .ready).makeReady h).retireOn s.cur)

/-! ## Requests of other chips (R166, R404) -/

/-- HOME_REQUEST_ARRIVE. -/
def execHomeRequestArrive (r : HomeRequest) (s : State) : Result := .next (s.homeRequest r)

end Sys2Proof.Machine
end

