-- ==== Sys2Proof/Machine/Resume.lean ====
section
/-! DEFINITION. The end of a wait (R117) and the retries of refused traffic (R360). -/

namespace Sys2Proof.Machine

/-- A word that a hart is in, made again by the acting hart. -/
def resumeWord (i : Instr) (s : State) : Result :=
  match i with
  | .rcommit => execRcommit s
  | .phase rd rs1 => execPhase rd rs1 s
  | .bfx rd rs1 rs2 => execBfx rd rs1 rs2 s
  | .bfi rd rs1 rs2 => execBfi rd rs1 rs2 s
  | .xflush rs1 rs2 => execXflush rs1 rs2 s
  | .cfence mask kind scope => execCfence mask kind scope s
  | .samo op scope rd rs1 rs2 => execSamo op scope rd rs1 rs2 s
  | .scas scope rd rs1 rs2 => execScas scope rd rs1 rs2 s
  | .barinit rs1 rs2 => execBarinit rs1 rs2 s
  | .barrive rd rs1 => execBarrive rd rs1 s
  | .barwait rs1 rs2 => execBarwait rs1 rs2 s
  | .barsync rd rs1 => execBarsync rd rs1 s
  | .semv rs1 rs2 => execSemv rs1 rs2 s
  | .semp rd rs1 rs2 => execSemp rd rs1 rs2 s
  | .msnd rd rs1 rs2 => execMsnd rd rs1 rs2 s
  | .mrcv rd rs1 rs2 => execMrcv rd rs1 rs2 s
  | .mpoll rd rs1 => execMpoll rd rs1 s
  | .gsig rd rs1 rs2 => execGsig rd rs1 rs2 s
  | .gwait rd rs1 rs2 => execGwait rd rs1 rs2 s
  | .gpay rd rs1 rs2 => execGpay rd rs1 rs2 s
  | .gtake rd rs1 rs2 => execGtake rd rs1 rs2 s
  | .gopen rs1 => execGopen rs1 s
  | .gclose rs1 => execGclose rs1 s
  | .spawn rd rs1 rs2 => execSpawn rd rs1 rs2 s
  | .touch rd rs1 => execTouch rd rs1 s
  | .tpoll rd rs1 => execTpoll rd rs1 s
  | .tany rd rs1 rs2 => execTany rd rs1 rs2 s
  | .promise rd => execPromise rd s
  | .resolve rd rs1 rs2 => execResolve rd rs1 rs2 s
  | .cancel rd rs1 => execCancel rd rs1 s
  | .poison rd rs1 rs2 => execPoison rd rs1 rs2 s
  | .texit rs1 => execTexit rs1 s
  | .tyield => execTyield s
  | .frel rs1 => execFrel rs1 s
  | .stdef rs1 rs2 => execStdef rs1 rs2 s
  | .starm rd rs1 rs2 => execStarm rd rs1 rs2 s
  | .stwait rd rs1 rs2 => execStwait rd rs1 rs2 s
  | .stgen rd rs1 => execStgen rd rs1 s
  | .hoist rd rs1 => execHoist rd rs1 s
  | .cpyin rd rs1 rs2 => execCpyin rd rs1 rs2 s
  | .cpyout rd rs1 rs2 => execCpyout rd rs1 rs2 s
  | .cpyx rd rs1 rs2 => execCpyx rd rs1 rs2 s
  | .cpygath rd rs1 rs2 => execCpygath rd rs1 rs2 s
  | .cpybc rd rs1 rs2 => execCpybc rd rs1 rs2 s
  | .cpwait rd rs1 => execCpwait rd rs1 s
  | .cpqry rd rs1 => execCpqry rd rs1 s
  | .cpcan rd rs1 => execCpcan rd rs1 s
  | .mma m => execMma m s
  | .mms m => execMms m s
  | .mmz m => execMmz m s
  | .mmak m => execMmak m s
  | .mmag m => execMmag m s
  | .mld md pad rs2 => execMld md pad rs2 s
  | .mst md pad => execMst md pad s
  | .mzero md rs1 => execMzero md rs1 s
  | .mcopy md ms => execMcopy md ms s
  | .mtrn md ms => execMtrn md ms s
  | .mcommit rd => execMcommit rd s
  | .mwait rs1 => execMwait rs1 s
  | .mclrf mt rs2 => execMclrf mt rs2 s
  | .mstat rd mt => execMstat rd mt s
  | .fmtw rs1 rs2 => execFmtw rs1 rs2 s
  | .fmtr rd rs1 => execFmtr rd rs1 s
  | .vadd td ta tb xr => execVadd td ta tb xr s
  | .vsub td ta tb xr => execVsub td ta tb xr s
  | .vmul td ta tb xr => execVmul td ta tb xr s
  | .vdiv td ta tb xr => execVdiv td ta tb xr s
  | .vfma td ta tb xr => execVfma td ta tb xr s
  | .vmin td ta tb xr => execVmin td ta tb xr s
  | .vmax td ta tb xr => execVmax td ta tb xr s
  | .vsel td ta tb xr => execVsel td ta tb xr s
  | .vcmpEq kd ta tb xr => execVcmpEq kd ta tb xr s
  | .vcmpLt kd ta tb xr => execVcmpLt kd ta tb xr s
  | .vcmpLe kd ta tb xr => execVcmpLe kd ta tb xr s
  | .vperm td ta tb xr => execVperm td ta tb xr s
  | .vmov td ta xr => execVmov td ta xr s
  | .vneg td ta xr => execVneg td ta xr s
  | .vabs td ta xr => execVabs td ta xr s
  | .vsqrt td ta xr => execVsqrt td ta xr s
  | .vrsq td ta xr => execVrsq td ta xr s
  | .vrcp td ta xr => execVrcp td ta xr s
  | .vexp2 td ta xr => execVexp2 td ta xr s
  | .vlog2 td ta xr => execVlog2 td ta xr s
  | .vtanh td ta xr => execVtanh td ta xr s
  | .viadd td ta tb xr => execViadd td ta tb xr s
  | .visub td ta tb xr => execVisub td ta tb xr s
  | .vimul td ta tb xr => execVimul td ta tb xr s
  | .vand td ta tb xr => execVand td ta tb xr s
  | .vor td ta tb xr => execVor td ta tb xr s
  | .vxor td ta tb xr => execVxor td ta tb xr s
  | .vshl td ta tb xr => execVshl td ta tb xr s
  | .vsrl td ta tb xr => execVsrl td ta tb xr s
  | .vsra td ta tb xr => execVsra td ta tb xr s
  | .vimin td ta tb xr => execVimin td ta tb xr s
  | .vimax td ta tb xr => execVimax td ta tb xr s
  | .vadds tds rs xr => execVadds tds rs xr s
  | .vsubs tds rs xr => execVsubs tds rs xr s
  | .vmuls tds rs xr => execVmuls tds rs xr s
  | .vmaxs tds rs xr => execVmaxs tds rs xr s
  | .vmins tds rs xr => execVmins tds rs xr s
  | .vbcast tds rs xr => execVbcast tds rs xr s
  | .vext rs tds xr => execVext rs tds xr s
  | .vins tds rs xr => execVins tds rs xr s
  | .viota tds rs xr => execViota tds rs xr s
  | .vrsum rs tds xr => execVrsum rs tds xr s
  | .vrmax rs tds xr => execVrmax rs tds xr s
  | .vrmin rs tds xr => execVrmin rs tds xr s
  | .vcvt td tds p xr => execVcvt td tds p xr s
  | .vqmx rs tds scope xr => execVqmx rs tds scope xr s
  | .vld td rs1 off xr => execVld td rs1 off xr s
  | .vst td rs1 off xr => execVst td rs1 off xr s
  | .vpfx p => execVpfx p s
  | .lift rd rs1 rs2 => execLift rd rs1 rs2 s
  | .lret rs1 => execLret rs1 s
  | .ltag r rs2 => execLtag r rs2 s
  | .lred md ms rs2 => execLred md ms rs2 s
  | .laxis rd rs1 => execLaxis rd rs1 s
  | .lbr k imm => execLbr k imm s
  | .illegalInstruction word => execIllegalInstruction word s
  | .baseLoad op rd rs1 imm => execBaseLoad op rd rs1 imm s
  | .baseStore op rs1 rs2 imm => execBaseStore op rs1 rs2 imm s
  | .amo op d aq rl rd rs1 rs2 => execAmo op d aq rl rd rs1 rs2 s
  | .lr d aq rl rd rs1 => execLr d aq rl rd rs1 s
  | .sc d aq rl rd rs1 rs2 => execSc d aq rl rd rs1 rs2 s
  | .fence fm pred succ rs1 rd => execFence fm pred succ rs1 rd s
  | .fenceI imm rs1 rd => execFenceI imm rs1 rd s
  | .ecall => execEcall s
  | .ebreak => execEbreak s
  | .wfi => execWfi s
  | .sret => execSret s
  | .mret => execMret s
  | .sfenceVma rs1 rs2 => execSfenceVma rs1 rs2 s
  | .csrAccess csr f => execCsrAccess csr f s
  | .integerOp op => execIntegerOp op s
  | .fdivFsqrt op => execFdivFsqrt op s
  | .stcolWrite f => execStcolWrite f s
  | .vrmWrite f => execVrmWrite f s
  | .mfmtWrite n f => execMfmtWrite n f s
  | .mgangWrite f => execMgangWrite f s
  | .satpWrite f => execSatpWrite f s
  | .errinjLink arm => execErrinjLink arm s
  | .errinjCore arm => execErrinjCore arm s
  | .errinjCopy arm => execErrinjCopy arm s
  | .errinjHbm arm => execErrinjHbm arm s
  | .errinjVault arm => execErrinjVault arm s
  | .errinjPad arm => execErrinjPad arm s
  | .errinjTmem arm => execErrinjTmem arm s
  | .errinjMpad arm => execErrinjMpad arm s
  | .scrubctlVault => execScrubctlVault s
  | .scrubctlTiles => execScrubctlTiles s
  | .scrubctlPad => execScrubctlPad s
  | .fwSetAreas => execFwSetAreas s
  | .fwRetryHeld => execFwRetryHeld s
  | .fwRejectHeld => execFwRejectHeld s
  | .fwReadReports => execFwReadReports s
  | .fwEndHeldTask => execFwEndHeldTask s
  | .fwRequeueLost => execFwRequeueLost s
  | .fwFaultLost => execFwFaultLost s
  | .fwUnknownCall => execFwUnknownCall s
  | _ => .next s

/-- HART_RESUME: the reply of another chip, or the condition, has come; the instruction in the wait goes on (R117). A hart
that is out of rotation for another reason, or held on a page, does not move. -/
def execHartResume (h : Nat) (r : Option Reply) (s : State) : Result :=
  let s := match r with
    | some r => s.deliverReply h r
    | none => s
  let x := s.hart h
  match x.waiting with
  | none => .next s
  | some w =>
    match w.kind with
    | .page _ _ => .next s
    | _ =>
      if x.stopped || !x.inService then .next s
      else match resumeWord w.instr { s with cur := h } with
        | .next t => .next { t with cur := s.cur }
        | r => r

/-- STOPPED_RETRY: a request that was refused as stopped is sent again under its mark; the hart stays in its wait, and the
limit of the request does not run meanwhile (R360, R404). -/
def execStoppedRetry (h : Nat) (s : State) : Result :=
  let m := s.markOf h
  .next { s with outgoing := s.outgoing.map fun o => if o.mark = m then { o with hart := h } else o }

end Sys2Proof.Machine
end

