-- ==== Sys2Proof/Machine/Dispatch.lean ====
section
/-! DEFINITION. The meaning of every instruction: one arm per constructor. -/

namespace Sys2Proof.Machine

def exec (i : Instr) (s : State) : Host.Outcome State Fault Refusal :=
  match i with
  | .rcommit => Sys2Proof.Machine.execRcommit s
  | .phase rd rs1 => Sys2Proof.Machine.execPhase rd rs1 s
  | .bfx rd rs1 rs2 => Sys2Proof.Machine.execBfx rd rs1 rs2 s
  | .bfi rd rs1 rs2 => Sys2Proof.Machine.execBfi rd rs1 rs2 s
  | .xflush rs1 rs2 => Sys2Proof.Machine.execXflush rs1 rs2 s
  | .cfence mask kind scope => Sys2Proof.Machine.execCfence mask kind scope s
  | .samo op scope rd rs1 rs2 => Sys2Proof.Machine.execSamo op scope rd rs1 rs2 s
  | .scas scope rd rs1 rs2 => Sys2Proof.Machine.execScas scope rd rs1 rs2 s
  | .barinit rs1 rs2 => Sys2Proof.Machine.execBarinit rs1 rs2 s
  | .barrive rd rs1 => Sys2Proof.Machine.execBarrive rd rs1 s
  | .barwait rs1 rs2 => Sys2Proof.Machine.execBarwait rs1 rs2 s
  | .barsync rd rs1 => Sys2Proof.Machine.execBarsync rd rs1 s
  | .semv rs1 rs2 => Sys2Proof.Machine.execSemv rs1 rs2 s
  | .semp rd rs1 rs2 => Sys2Proof.Machine.execSemp rd rs1 rs2 s
  | .msnd rd rs1 rs2 => Sys2Proof.Machine.execMsnd rd rs1 rs2 s
  | .mrcv rd rs1 rs2 => Sys2Proof.Machine.execMrcv rd rs1 rs2 s
  | .mpoll rd rs1 => Sys2Proof.Machine.execMpoll rd rs1 s
  | .messageArrive core mbox nb d => Sys2Proof.Machine.execMessageArrive core mbox nb d s
  | .gsig rd rs1 rs2 => Sys2Proof.Machine.execGsig rd rs1 rs2 s
  | .gwait rd rs1 rs2 => Sys2Proof.Machine.execGwait rd rs1 rs2 s
  | .gpay rd rs1 rs2 => Sys2Proof.Machine.execGpay rd rs1 rs2 s
  | .gtake rd rs1 rs2 => Sys2Proof.Machine.execGtake rd rs1 rs2 s
  | .gopen rs1 => Sys2Proof.Machine.execGopen rs1 s
  | .gclose rs1 => Sys2Proof.Machine.execGclose rs1 s
  | .gateRequestArrive r => Sys2Proof.Machine.execGateRequestArrive r s
  | .gateTokenAccrue gate entry => Sys2Proof.Machine.execGateTokenAccrue gate entry s
  | .spawn rd rs1 rs2 => Sys2Proof.Machine.execSpawn rd rs1 rs2 s
  | .touch rd rs1 => Sys2Proof.Machine.execTouch rd rs1 s
  | .tpoll rd rs1 => Sys2Proof.Machine.execTpoll rd rs1 s
  | .tany rd rs1 rs2 => Sys2Proof.Machine.execTany rd rs1 rs2 s
  | .promise rd => Sys2Proof.Machine.execPromise rd s
  | .resolve rd rs1 rs2 => Sys2Proof.Machine.execResolve rd rs1 rs2 s
  | .cancel rd rs1 => Sys2Proof.Machine.execCancel rd rs1 s
  | .poison rd rs1 rs2 => Sys2Proof.Machine.execPoison rd rs1 rs2 s
  | .texit rs1 => Sys2Proof.Machine.execTexit rs1 s
  | .tyield => Sys2Proof.Machine.execTyield s
  | .frel rs1 => Sys2Proof.Machine.execFrel rs1 s
  | .homeRequestArrive r => Sys2Proof.Machine.execHomeRequestArrive r s
  | .stdef rs1 rs2 => Sys2Proof.Machine.execStdef rs1 rs2 s
  | .starm rd rs1 rs2 => Sys2Proof.Machine.execStarm rd rs1 rs2 s
  | .stwait rd rs1 rs2 => Sys2Proof.Machine.execStwait rd rs1 rs2 s
  | .stgen rd rs1 => Sys2Proof.Machine.execStgen rd rs1 s
  | .hoist rd rs1 => Sys2Proof.Machine.execHoist rd rs1 s
  | .cpyin rd rs1 rs2 => Sys2Proof.Machine.execCpyin rd rs1 rs2 s
  | .cpyout rd rs1 rs2 => Sys2Proof.Machine.execCpyout rd rs1 rs2 s
  | .cpyx rd rs1 rs2 => Sys2Proof.Machine.execCpyx rd rs1 rs2 s
  | .cpygath rd rs1 rs2 => Sys2Proof.Machine.execCpygath rd rs1 rs2 s
  | .cpybc rd rs1 rs2 => Sys2Proof.Machine.execCpybc rd rs1 rs2 s
  | .cpwait rd rs1 => Sys2Proof.Machine.execCpwait rd rs1 s
  | .cpqry rd rs1 => Sys2Proof.Machine.execCpqry rd rs1 s
  | .cpcan rd rs1 => Sys2Proof.Machine.execCpcan rd rs1 s
  | .copyChannelStart cluster => Sys2Proof.Machine.execCopyChannelStart cluster s
  | .copyBeatWrite cluster b => Sys2Proof.Machine.execCopyBeatWrite cluster b s
  | .mma m => Sys2Proof.Machine.execMma m s
  | .mms m => Sys2Proof.Machine.execMms m s
  | .mmz m => Sys2Proof.Machine.execMmz m s
  | .mmak m => Sys2Proof.Machine.execMmak m s
  | .mmag m => Sys2Proof.Machine.execMmag m s
  | .mld md pad rs2 => Sys2Proof.Machine.execMld md pad rs2 s
  | .mst md pad => Sys2Proof.Machine.execMst md pad s
  | .mzero md rs1 => Sys2Proof.Machine.execMzero md rs1 s
  | .mcopy md ms => Sys2Proof.Machine.execMcopy md ms s
  | .mtrn md ms => Sys2Proof.Machine.execMtrn md ms s
  | .mcommit rd => Sys2Proof.Machine.execMcommit rd s
  | .mwait rs1 => Sys2Proof.Machine.execMwait rs1 s
  | .mclrf mt rs2 => Sys2Proof.Machine.execMclrf mt rs2 s
  | .mstat rd mt => Sys2Proof.Machine.execMstat rd mt s
  | .fmtw rs1 rs2 => Sys2Proof.Machine.execFmtw rs1 rs2 s
  | .fmtr rd rs1 => Sys2Proof.Machine.execFmtr rd rs1 s
  | .fmtwViewApply pair ctx id entry => Sys2Proof.Machine.execFmtwViewApply pair ctx id entry s
  | .tileOpStart pair => Sys2Proof.Machine.execTileOpStart pair s
  | .kStepComplete pair op => Sys2Proof.Machine.execKStepComplete pair op s
  | .operandFault pair op => Sys2Proof.Machine.execOperandFault pair op s
  | .tileOpComplete pair op => Sys2Proof.Machine.execTileOpComplete pair op s
  | .gangRendezvous cluster gid => Sys2Proof.Machine.execGangRendezvous cluster gid s
  | .tileEccError pair tile corrected => Sys2Proof.Machine.execTileEccError pair tile corrected s
  | .vadd td ta tb xr => Sys2Proof.Machine.execVadd td ta tb xr s
  | .vsub td ta tb xr => Sys2Proof.Machine.execVsub td ta tb xr s
  | .vmul td ta tb xr => Sys2Proof.Machine.execVmul td ta tb xr s
  | .vdiv td ta tb xr => Sys2Proof.Machine.execVdiv td ta tb xr s
  | .vfma td ta tb xr => Sys2Proof.Machine.execVfma td ta tb xr s
  | .vmin td ta tb xr => Sys2Proof.Machine.execVmin td ta tb xr s
  | .vmax td ta tb xr => Sys2Proof.Machine.execVmax td ta tb xr s
  | .vsel td ta tb xr => Sys2Proof.Machine.execVsel td ta tb xr s
  | .vcmpEq kd ta tb xr => Sys2Proof.Machine.execVcmpEq kd ta tb xr s
  | .vcmpLt kd ta tb xr => Sys2Proof.Machine.execVcmpLt kd ta tb xr s
  | .vcmpLe kd ta tb xr => Sys2Proof.Machine.execVcmpLe kd ta tb xr s
  | .vperm td ta tb xr => Sys2Proof.Machine.execVperm td ta tb xr s
  | .vmov td ta xr => Sys2Proof.Machine.execVmov td ta xr s
  | .vneg td ta xr => Sys2Proof.Machine.execVneg td ta xr s
  | .vabs td ta xr => Sys2Proof.Machine.execVabs td ta xr s
  | .vsqrt td ta xr => Sys2Proof.Machine.execVsqrt td ta xr s
  | .vrsq td ta xr => Sys2Proof.Machine.execVrsq td ta xr s
  | .vrcp td ta xr => Sys2Proof.Machine.execVrcp td ta xr s
  | .vexp2 td ta xr => Sys2Proof.Machine.execVexp2 td ta xr s
  | .vlog2 td ta xr => Sys2Proof.Machine.execVlog2 td ta xr s
  | .vtanh td ta xr => Sys2Proof.Machine.execVtanh td ta xr s
  | .viadd td ta tb xr => Sys2Proof.Machine.execViadd td ta tb xr s
  | .visub td ta tb xr => Sys2Proof.Machine.execVisub td ta tb xr s
  | .vimul td ta tb xr => Sys2Proof.Machine.execVimul td ta tb xr s
  | .vand td ta tb xr => Sys2Proof.Machine.execVand td ta tb xr s
  | .vor td ta tb xr => Sys2Proof.Machine.execVor td ta tb xr s
  | .vxor td ta tb xr => Sys2Proof.Machine.execVxor td ta tb xr s
  | .vshl td ta tb xr => Sys2Proof.Machine.execVshl td ta tb xr s
  | .vsrl td ta tb xr => Sys2Proof.Machine.execVsrl td ta tb xr s
  | .vsra td ta tb xr => Sys2Proof.Machine.execVsra td ta tb xr s
  | .vimin td ta tb xr => Sys2Proof.Machine.execVimin td ta tb xr s
  | .vimax td ta tb xr => Sys2Proof.Machine.execVimax td ta tb xr s
  | .vadds tds rs xr => Sys2Proof.Machine.execVadds tds rs xr s
  | .vsubs tds rs xr => Sys2Proof.Machine.execVsubs tds rs xr s
  | .vmuls tds rs xr => Sys2Proof.Machine.execVmuls tds rs xr s
  | .vmaxs tds rs xr => Sys2Proof.Machine.execVmaxs tds rs xr s
  | .vmins tds rs xr => Sys2Proof.Machine.execVmins tds rs xr s
  | .vbcast tds rs xr => Sys2Proof.Machine.execVbcast tds rs xr s
  | .vext rs tds xr => Sys2Proof.Machine.execVext rs tds xr s
  | .vins tds rs xr => Sys2Proof.Machine.execVins tds rs xr s
  | .viota tds rs xr => Sys2Proof.Machine.execViota tds rs xr s
  | .vrsum rs tds xr => Sys2Proof.Machine.execVrsum rs tds xr s
  | .vrmax rs tds xr => Sys2Proof.Machine.execVrmax rs tds xr s
  | .vrmin rs tds xr => Sys2Proof.Machine.execVrmin rs tds xr s
  | .vcvt td tds p xr => Sys2Proof.Machine.execVcvt td tds p xr s
  | .vqmx rs tds scope xr => Sys2Proof.Machine.execVqmx rs tds scope xr s
  | .vld td rs1 off xr => Sys2Proof.Machine.execVld td rs1 off xr s
  | .vst td rs1 off xr => Sys2Proof.Machine.execVst td rs1 off xr s
  | .vpfx p => Sys2Proof.Machine.execVpfx p s
  | .lift rd rs1 rs2 => Sys2Proof.Machine.execLift rd rs1 rs2 s
  | .lret rs1 => Sys2Proof.Machine.execLret rs1 s
  | .ltag r rs2 => Sys2Proof.Machine.execLtag r rs2 s
  | .lred md ms rs2 => Sys2Proof.Machine.execLred md ms rs2 s
  | .laxis rd rs1 => Sys2Proof.Machine.execLaxis rd rs1 s
  | .lbr k imm => Sys2Proof.Machine.execLbr k imm s
  | .illegalInstruction word => Sys2Proof.Machine.execIllegalInstruction word s
  | .baseLoad op rd rs1 imm => Sys2Proof.Machine.execBaseLoad op rd rs1 imm s
  | .baseStore op rs1 rs2 imm => Sys2Proof.Machine.execBaseStore op rs1 rs2 imm s
  | .amo op d aq rl rd rs1 rs2 => Sys2Proof.Machine.execAmo op d aq rl rd rs1 rs2 s
  | .lr d aq rl rd rs1 => Sys2Proof.Machine.execLr d aq rl rd rs1 s
  | .sc d aq rl rd rs1 rs2 => Sys2Proof.Machine.execSc d aq rl rd rs1 rs2 s
  | .fence fm pred succ rs1 rd => Sys2Proof.Machine.execFence fm pred succ rs1 rd s
  | .fenceI imm rs1 rd => Sys2Proof.Machine.execFenceI imm rs1 rd s
  | .ecall => Sys2Proof.Machine.execEcall s
  | .ebreak => Sys2Proof.Machine.execEbreak s
  | .wfi => Sys2Proof.Machine.execWfi s
  | .sret => Sys2Proof.Machine.execSret s
  | .mret => Sys2Proof.Machine.execMret s
  | .sfenceVma rs1 rs2 => Sys2Proof.Machine.execSfenceVma rs1 rs2 s
  | .csrAccess csr f => Sys2Proof.Machine.execCsrAccess csr f s
  | .integerOp op => Sys2Proof.Machine.execIntegerOp op s
  | .fdivFsqrt op => Sys2Proof.Machine.execFdivFsqrt op s
  | .hartResume hart r => Sys2Proof.Machine.execHartResume hart r s
  | .storeDrainDone hart => Sys2Proof.Machine.execStoreDrainDone hart s
  | .interruptTake hart => Sys2Proof.Machine.execInterruptTake hart s
  | .stcolWrite f => Sys2Proof.Machine.execStcolWrite f s
  | .vrmWrite f => Sys2Proof.Machine.execVrmWrite f s
  | .mfmtWrite n f => Sys2Proof.Machine.execMfmtWrite n f s
  | .mgangWrite f => Sys2Proof.Machine.execMgangWrite f s
  | .satpWrite f => Sys2Proof.Machine.execSatpWrite f s
  | .errinjLink arm => Sys2Proof.Machine.execErrinjLink arm s
  | .errinjCore arm => Sys2Proof.Machine.execErrinjCore arm s
  | .errinjCopy arm => Sys2Proof.Machine.execErrinjCopy arm s
  | .errinjHbm arm => Sys2Proof.Machine.execErrinjHbm arm s
  | .errinjVault arm => Sys2Proof.Machine.execErrinjVault arm s
  | .errinjPad arm => Sys2Proof.Machine.execErrinjPad arm s
  | .errinjTmem arm => Sys2Proof.Machine.execErrinjTmem arm s
  | .errinjMpad arm => Sys2Proof.Machine.execErrinjMpad arm s
  | .scrubctlVault => Sys2Proof.Machine.execScrubctlVault s
  | .scrubctlTiles => Sys2Proof.Machine.execScrubctlTiles s
  | .scrubctlPad => Sys2Proof.Machine.execScrubctlPad s
  | .supervisorScrubDone cluster => Sys2Proof.Machine.execSupervisorScrubDone cluster s
  | .registerWrite r v => Sys2Proof.Machine.execRegisterWrite r v s
  | .fwSetAreas => Sys2Proof.Machine.execFwSetAreas s
  | .fwRetryHeld => Sys2Proof.Machine.execFwRetryHeld s
  | .fwRejectHeld => Sys2Proof.Machine.execFwRejectHeld s
  | .fwReadReports => Sys2Proof.Machine.execFwReadReports s
  | .fwEndHeldTask => Sys2Proof.Machine.execFwEndHeldTask s
  | .fwRequeueLost => Sys2Proof.Machine.execFwRequeueLost s
  | .fwFaultLost => Sys2Proof.Machine.execFwFaultLost s
  | .fwUnknownCall => Sys2Proof.Machine.execFwUnknownCall s
  | .notifyWrite fn slot tail => Sys2Proof.Machine.execNotifyWrite fn slot tail s
  | .launchAccept slot => Sys2Proof.Machine.execLaunchAccept slot s
  | .launchStart launch => Sys2Proof.Machine.execLaunchStart launch s
  | .completionPost launch => Sys2Proof.Machine.execCompletionPost launch s
  | .launchStall fn => Sys2Proof.Machine.execLaunchStall fn s
  | .taskIntake task => Sys2Proof.Machine.execTaskIntake task s
  | .taskRingRefill cluster => Sys2Proof.Machine.execTaskRingRefill cluster s
  | .prefetchArm task arg => Sys2Proof.Machine.execPrefetchArm task arg s
  | .taskPrepared task => Sys2Proof.Machine.execTaskPrepared task s
  | .prefetchStop task => Sys2Proof.Machine.execPrefetchStop task s
  | .taskDispatch hart => Sys2Proof.Machine.execTaskDispatch hart s
  | .agePromotion task => Sys2Proof.Machine.execAgePromotion task s
  | .tileReservation task => Sys2Proof.Machine.execTileReservation task s
  | .taskEndArrive task how => Sys2Proof.Machine.execTaskEndArrive task how s
  | .taskWake task outcome => Sys2Proof.Machine.execTaskWake task outcome s
  | .homeChipLostTimeout chip => Sys2Proof.Machine.execHomeChipLostTimeout chip s
  | .remoteReplyTimeout hart => Sys2Proof.Machine.execRemoteReplyTimeout hart s
  | .stoppedRetry hart => Sys2Proof.Machine.execStoppedRetry hart s
  | .coreLoss core => Sys2Proof.Machine.execCoreLoss core s
  | .reportPost ring => Sys2Proof.Machine.execReportPost ring s
  | .ringAck ring seq => Sys2Proof.Machine.execRingAck ring seq s
  | .windrowDrainStart cluster => Sys2Proof.Machine.execWindrowDrainStart cluster s
  | .windrowDrainTimeout cluster => Sys2Proof.Machine.execWindrowDrainTimeout cluster s
  | .windrowScanEnd cluster pass => Sys2Proof.Machine.execWindrowScanEnd cluster pass s
  | .flitCrcError port => Sys2Proof.Machine.execFlitCrcError port s
  | .linkPortLost port => Sys2Proof.Machine.execLinkPortLost port s
  | .ctxStopSavePreempt part => Sys2Proof.Machine.execCtxStopSavePreempt part s
  | .ctxStopSaveMigrate part => Sys2Proof.Machine.execCtxStopSaveMigrate part s
  | .ctxStopSaveDump part => Sys2Proof.Machine.execCtxStopSaveDump part s
  | .ctxStop part => Sys2Proof.Machine.execCtxStop part s
  | .ctxResumeInPlace part => Sys2Proof.Machine.execCtxResumeInPlace part s
  | .ctxResumeSave part => Sys2Proof.Machine.execCtxResumeSave part s
  | .ctxRestore part => Sys2Proof.Machine.execCtxRestore part s
  | .ctxTeardown part => Sys2Proof.Machine.execCtxTeardown part s
  | .ctxUnknownCommand part code => Sys2Proof.Machine.execCtxUnknownCommand part code s
  | .engineQuiesceDone part => Sys2Proof.Machine.execEngineQuiesceDone part s
  | .stopDeliveryDone part => Sys2Proof.Machine.execStopDeliveryDone part s
  | .baleWriteDone part => Sys2Proof.Machine.execBaleWriteDone part s
  | .saveIncomplete part => Sys2Proof.Machine.execSaveIncomplete part s
  | .scrubDone part => Sys2Proof.Machine.execScrubDone part s
  | .gateSourceFree gate => Sys2Proof.Machine.execGateSourceFree gate s
  | .hcmdCreatePartition => Sys2Proof.Machine.execHcmdCreatePartition s
  | .hcmdAssignClusters => Sys2Proof.Machine.execHcmdAssignClusters s
  | .hcmdAssignVaults => Sys2Proof.Machine.execHcmdAssignVaults s
  | .hcmdSetStage2Root => Sys2Proof.Machine.execHcmdSetStage2Root s
  | .hcmdInvalidateStage2 => Sys2Proof.Machine.execHcmdInvalidateStage2 s
  | .hcmdLoadKey => Sys2Proof.Machine.execHcmdLoadKey s
  | .hcmdZeroiseKey => Sys2Proof.Machine.execHcmdZeroiseKey s
  | .hcmdWritePermissionTable => Sys2Proof.Machine.execHcmdWritePermissionTable s
  | .hcmdCreateGate => Sys2Proof.Machine.execHcmdCreateGate s
  | .hcmdSetAccessEntry => Sys2Proof.Machine.execHcmdSetAccessEntry s
  | .hcmdFreeGate => Sys2Proof.Machine.execHcmdFreeGate s
  | .hcmdCreateQueue fn => Sys2Proof.Machine.execHcmdCreateQueue fn s
  | .hcmdDeleteQueue fn => Sys2Proof.Machine.execHcmdDeleteQueue fn s
  | .hcmdSetRingWeight => Sys2Proof.Machine.execHcmdSetRingWeight s
  | .hcmdDirtyTrackingOn => Sys2Proof.Machine.execHcmdDirtyTrackingOn s
  | .hcmdDirtyReport => Sys2Proof.Machine.execHcmdDirtyReport s
  | .hcmdDirtyTrackingOff => Sys2Proof.Machine.execHcmdDirtyTrackingOff s
  | .hcmdReleaseHeldLaunch => Sys2Proof.Machine.execHcmdReleaseHeldLaunch s
  | .hcmdDiscardHeldLaunch => Sys2Proof.Machine.execHcmdDiscardHeldLaunch s
  | .hcmdUnknown code => Sys2Proof.Machine.execHcmdUnknown code s
  | .profileWind v => Sys2Proof.Machine.execProfileWind v s
  | .profilePower v => Sys2Proof.Machine.execProfilePower v s
  | .forecastUpdate cluster v => Sys2Proof.Machine.execForecastUpdate cluster v s
  | .functionLevelReset fn => Sys2Proof.Machine.execFunctionLevelReset fn s
  | .atsInvalidationRequest fn pasid addr => Sys2Proof.Machine.execAtsInvalidationRequest fn pasid addr s
  | .bringupDone steps => Sys2Proof.Machine.execBringupDone steps s
  | .deviceReset => Sys2Proof.Machine.execDeviceReset s
  | .mladjaDLoss => Sys2Proof.Machine.execMladjaDLoss s
  | .readyFiguresExchange => Sys2Proof.Machine.execReadyFiguresExchange s

end Sys2Proof.Machine
end

