-- ==== Sys2Proof/Machine/Step.lean ====
section
/-! DEFINITION. One step of the package: one event, or one slot of one hart. -/

namespace Sys2Proof.Machine

/-- The step. After MLADJA_D_LOSS only a device reset moves the package (R397). -/
def step (s : State) : Host.Outcome State Fault Refusal :=
  if s.halted then
    if s.pending.contains .deviceReset then exec .deviceReset { s with pending := s.pending.erase .deviceReset }
    else .fault .packageStopped
  else
    match s.clockTick.nextMove with
    | (t, .event i) => exec i t
    | (t, .slot i) =>
      match exec i t with
      | .next u => .next u.advance
      | .fault f => .fault f
      | .refused r => .refused r
    | (t, .idle) => .next t.advance

/-- The state with an instruction word stored where the acting hart fetches next. -/
def State.withFetchWord (s : State) (_nbits w : Nat) : State := s.placeWord w

end Sys2Proof.Machine
end

