-- ==== Sys2Proof/Safety.lean ====
section
/-! DEFINITION. What counts as a safe step, and the terms in which claims speak of one: where an instruction starts, the
state in which a region-closing instruction makes its effect, and how an instruction goes on after it. -/

namespace Sys2Proof.Machine

/-- The memory of the state is in canonical form. -/
def State.MemOk (s : State) : Prop := Memory.wf s.mem = true

/-- The acting hart starts an instruction: it is in no wait, and not between the two words of a pair (R101, R117). -/
def State.starts (s : State) : Prop := s.me.waiting = none ∧ s.me.pfx = none

/-- The state in which an instruction that closes the region makes its effect: the region committed and drained, the
reservation cleared (R38, R42, R128, R403). Outside a region it is the state itself (R127). -/
def State.closed (s : State) : State := (s.closesOther s.cur).closeRegion s.cur 0 s.me.epc false

/-- The same for `sc`, which keeps the reservation for its test (R403). -/
def State.closedKeeping (s : State) : State := (s.closesOther s.cur).closeRegion s.cur 0 s.me.epc true

/-- No end of the hart's task is due at this commit point (R163). -/
def State.noEnd (s : State) : Prop := s.ending? s.cur = none

/-- How a region-closing instruction goes on after its effect: the next word, and the checkpoint of the next region. -/
def State.goesOn (t : State) : State :=
  if t.complete.inRegion t.complete.cur then t.complete.checkpoint t.complete.cur t.complete.me.pc else t.complete

/-- A hart after a word that completed, with the pc where it goes on: its words are retired, two for a pair (R101), unless
`mcountinhibit` bit 2 holds the counter (R105). -/
def Hart.after (x : Hart) (pc : Word) (jumped : Bool) : Hart :=
  { x with waiting := none, pfx := none, jumped := jumped, pc := pc,
           sys := { x.sys with minstret := if x.sys.mcountinhibit.getLsbD 2 then x.sys.minstret else x.sys.minstret + wordOf x.words } }

/-- The state in which the acting hart is `x` and all else is as before. -/
def State.withMe (s : State) (x : Hart) : State := { s with harts := s.harts.put s.cur x }

/-- The state after a word that writes x[rd] and goes on to the next word: nothing else changes. -/
def State.wrote (s : State) (rd : Reg) (v : Word) : State :=
  s.withMe { s.me.after (s.me.pc + 4) false with ctx := s.me.ctx.setXreg rd v }

/-- The state after a control transfer that writes x[rd]. -/
def State.went (s : State) (pc : Word) (jumped : Bool) (rd : Reg) (v : Word) : State :=
  s.withMe { s.me.after pc jumped with ctx := s.me.ctx.setXreg rd v }

/-! ## Row words -/

/-- A row word may execute (R284, R285, R308, R311): no fault waits for its tiles, their numbers are below the tile count,
its lift is allowed, no operation in progress writes one of them or still uses the rows it writes, and the shadows and the widening
it needs fit. `us` are its executions and `u` is the state in which the first of them starts. -/
def State.rowReady (s : State) (reads : List TileReg) (d : RowDst) (us : List Tup) (u : State) : Prop :=
  let named := (reads ++ d.tile.toList).map fun n => n.toNat
  s.opFaultOn named = .ok () ∧ (∀ n ∈ named, n < s.tileCount) ∧
  (named.any s.writer || (d.written.any fun n => s.user n.toNat)) = false ∧ u.spillFits = true ∧
  ∃ T, s.liftSet named (s.mods.k :: d.masks) = .ok T ∧ us = s.executions T ∧ s.prepareRow d T us = .ok u

/-- The same for a word that never widens: its tiles and masks have no tags (R310). -/
def State.rowReadyOnce (s : State) (reads : List TileReg) (d : RowDst) (u : State) : Prop :=
  let named := (reads ++ d.tile.toList).map fun n => n.toNat
  s.opFaultOn named = .ok () ∧ (∀ n ∈ named, n < s.tileCount) ∧
  (named.any s.writer || (d.written.any fun n => s.user n.toNat)) = false ∧ u.spillFits = true ∧
  s.unionTags named (s.mods.k :: d.masks) = 0 ∧ s.prepareRow d 0 [s.noTuple] = .ok u

/-- How a row word ends after its executions. -/
def State.rowEnd (u : State) : State := u.checkTmem.useFresh.complete

/-- One execution for each tuple: row r of the destination with every active element at the code that `f` gives, the flags
ORed into the status word, and inactive elements kept, or zero under a zeroing prefix (R282, R283). -/
def State.rowResult (u : State) (d : TileReg) (r : Nat) (us : List Tup) (f : State → Tup → Lay → Nat → Nat × Nat) : State :=
  (us.foldl (fun t w =>
    let l := t.tileLay d
    let v := mapElems l (t.active w l.count) t.mods.zero (f t w l) (t.row d w r)
    t.setRow d w r v.1 v.2) u).rowEnd

/-- Element j of a row as a value, a subnormal one read as zero under FZI. -/
def Lay.elem (l : Lay) (fzi : Bool) (row j : Nat) : Num := l.f.flushIn fzi (l.f.decode (l.code row j))

/-- A result rounded into the entry, with the flags of both. -/
def Lay.rounded (l : Lay) (rm : Nat) (fzo : Bool) (fresh : Nat) (x : NumF) : Nat × Nat :=
  let y := l.f.round rm fzo fresh x.1
  (y.1, orFlags x.2 y.2)

/-! ## Words of the tile engine -/

/-- A word of the tile engine may be accepted (R226, R230, R265, R306): no fault waits for its tiles, their numbers are below
the tile count, and the shadows and the widening of its destination fit. `us` are its executions and `u` is the state in
which the first of them is accepted. -/
def State.opReady (s : State) (o : Op) (us : List Tup) (u : State) : Prop :=
  let n := o.md.toNat
  s.opFaultOn o.fields = .ok () ∧ (∀ k ∈ o.names, k < s.tileCount) ∧ ∃ T, s.checkLift o = .ok T ∧ us = s.executions T ∧
  (o.kind = .mst ∧ u = s ∨ o.kind ≠ .mst ∧ (s.tagsOf n ||| T = s.tagsOf n ∨ s.user n = false) ∧ u.spillFits = true ∧
    ∃ v, s.prepareTile n T us = .ok v ∧ v.shadowTiles o.writes = .ok u)

/-- Every execution put into the stream of the operation, in order. -/
def State.accepted (u : State) (o : Op) (us : List Tup) : State := us.foldl (fun t w => t.enqueue (t.opFor o w)) u

/-- The stream has a place, and the stages a pin, for each execution when it is reached (R81, R226). -/
def State.placesFor (u : State) (o : Op) (us : List Tup) : Prop :=
  ∀ k, k < us.length → (u.accepted o (us.take k)).mustWait o = false

end Sys2Proof.Machine

namespace Sys2Proof

open Machine

/-- A step that goes on, to a state whose memory is in canonical form. -/
def SafeStep (s : State) : Prop :=
  match step s with
  | .next t => t.MemOk
  | .fault _ | .refused _ => False

end Sys2Proof
end

