-- ==== Sys2Proof/Certificates/Slice0/Obligations.lean ====
section
/-! DEFINITION. The statements for the provers. -/

open Sys2Proof Sys2Proof.Machine


/-! ### The base instruction set -/

/-- R105 (the base integer instructions of RV64IM, register forms): each writes the value of the unprivileged
specification to x[rd], goes on at pc + 4, retires one word, and changes nothing else: no other register, no flag, no
CSR but `minstret`, no byte of memory. Every form of every operand, from every state in which the hart is in no wait. -/
def Obligations.IntegerWordsWriteTheirResult : Prop :=
  ∀ s : State, s.me.waiting = none →
    (∀ op rd rs1 rs2, exec (.integerOp (.alu op rd rs1 rs2)) s = .next (s.wrote rd (aluVal op (s.x rs1) (s.x rs2)))) ∧
    (∀ op rd rs1 rs2, exec (.integerOp (.aluW op rd rs1 rs2)) s = .next (s.wrote rd (aluWVal op (s.x rs1) (s.x rs2)))) ∧
    (∀ op rd rs1 i, exec (.integerOp (.aluI op rd rs1 i)) s = .next (s.wrote rd (aluIVal op (s.x rs1) (imm12 i)))) ∧
    (∀ rd rs1 i, exec (.integerOp (.addiw rd rs1 i)) s = .next (s.wrote rd (sext32 (s.x rs1 + imm12 i)))) ∧
    (∀ op rd rs1 n, exec (.integerOp (.shiftI op rd rs1 n)) s = .next (s.wrote rd (shiftVal op (s.x rs1) n.toNat))) ∧
    (∀ op rd rs1 n, exec (.integerOp (.shiftIW op rd rs1 n)) s = .next (s.wrote rd (shiftWVal op (s.x rs1) n.toNat))) ∧
    (∀ rd i, exec (.integerOp (.lui rd i)) s = .next (s.wrote rd (immU i))) ∧
    (∀ rd i, exec (.integerOp (.auipc rd i)) s = .next (s.wrote rd (s.me.pc + immU i)))

/-- The values behind `IntegerWordsWriteTheirResult` in their corners, by the unprivileged specification (R105): division
by zero, signed overflow of the division, shift amounts of six and five bits, and the high half of the products as exact
products of integers. -/
def Obligations.IntegerCornersAreTheStandardOnes : Prop :=
  (∀ a : Word, aluVal .div a 0 = -1 ∧ aluVal .divu a 0 = -1 ∧ aluVal .rem a 0 = a ∧ aluVal .remu a 0 = a) ∧
  (aluVal .div (BitVec.intMin 64) (-1) = BitVec.intMin 64 ∧ aluVal .rem (BitVec.intMin 64) (-1) = 0) ∧
  (∀ a b : Word, aluVal .sll a b = aluVal .sll a (b &&& 63) ∧ aluVal .sra a b = aluVal .sra a (b &&& 63) ∧
    aluWVal .sllw a b = aluWVal .sllw a (b &&& 31)) ∧
  (∀ a b : Word, (aluVal .mulhu a b).toNat * 2 ^ 64 + (aluVal .mul a b).toNat = a.toNat * b.toNat) ∧
  (∀ a b : Word, (aluVal .mulh a b).toInt * 2 ^ 64 + (aluVal .mul a b).toNat = a.toInt * b.toInt) ∧
  (∀ (op : AluWOp) (a b : Word), (aluWVal op a b).extractLsb' 32 32 =
    if (aluWVal op a b).getLsbD 31 then BitVec.allOnes 32 else 0)

/-- R105, R100: a jump or a branch. A taken transfer to a 4-byte aligned target sets the pc to it, and `jal` and `jalr`
write pc + 4 to x[rd]; a branch not taken goes on at pc + 4; nothing else changes but `minstret`. A taken transfer to any
other target raises the instruction-address-misaligned trap, cause 0, with the target as its value. -/
def Obligations.ControlTransfersReachTheirTarget : Prop :=
  ∀ s : State, s.me.waiting = none →
    (∀ rd i, exec (.integerOp (.jal rd i)) s =
      if (s.me.pc + immJ i).toNat % 4 = 0 then .next (s.went (s.me.pc + immJ i) true rd (s.me.pc + 4))
      else .next (s.takeTrap s.cur false 0 0 (s.me.pc + immJ i))) ∧
    (∀ rd rs1 i, exec (.integerOp (.jalr rd rs1 i)) s =
      if ((s.x rs1 + imm12 i) &&& ~~~(1 : Word)).toNat % 4 = 0 then
        .next (s.went ((s.x rs1 + imm12 i) &&& ~~~(1 : Word)) true rd (s.me.pc + 4))
      else .next (s.takeTrap s.cur false 0 0 ((s.x rs1 + imm12 i) &&& ~~~(1 : Word)))) ∧
    (∀ c rs1 rs2 i, exec (.integerOp (.branch c rs1 rs2 i)) s =
      if branchTaken c (s.x rs1) (s.x rs2) then
        (if (s.me.pc + immB i).toNat % 4 = 0 then .next (s.went (s.me.pc + immB i) true 0 0)
         else .next (s.takeTrap s.cur false 0 0 (s.me.pc + immB i)))
      else .next (s.went (s.me.pc + 4) false 0 0))

/-- R105, R402: the F and D instructions with FS not Off and a legal rounding mode. The arithmetic ones leave the exact
result rounded to the destination precision in f[rd], its flags OR-ed into `fcsr`; the others as named. The hart then goes
on at the next word. -/
def Obligations.FloatingPointWordsRoundTheExactResult : Prop :=
  ∀ (s : State) (d : Bool) (rd rs1 rs2 rs3 : Reg) (rm : BitVec 3) (r : Nat),
    s.me.waiting = none → fsOf s.me.sys.mstatus ≠ 0 → s.baseRm rm = .ok r →
    (∀ op, exec (.integerOp (.fma op d rd rs1 rs2 rs3 rm)) s =
      .next (s.setFnum d rd r (fmaVal op r (s.fval d rs1) (s.fval d rs2) (s.fval d rs3))).complete) ∧
    (∀ op, exec (.integerOp (.fArith op d rd rs1 rs2 rm)) s =
      .next (s.setFnum d rd r (fArithVal op r (s.fval d rs1) (s.fval d rs2))).complete) ∧
    exec (.fdivFsqrt (.fdiv d rd rs1 rs2 rm)) s =
      .next (s.setFnum d rd r (Machine.Num.div (s.fval d rs1) (s.fval d rs2))).complete ∧
    exec (.fdivFsqrt (.fsqrt d rd rs1 rm)) s = .next (s.setFnum d rd r (Machine.Num.sqrt (s.fval d rs1))).complete ∧
    exec (.integerOp (.fToF d rd rs1 rm)) s = .next (s.setFnum d rd r (s.fval (!d) rs1, 0)).complete ∧
    (∀ ty, exec (.integerOp (.intToF ty d rd rs1 rm)) s =
      .next (s.setFnum d rd r (numOfInt (intSource ty (s.x rs1)), 0)).complete) ∧
    (∀ ty, exec (.integerOp (.fToInt ty d rd rs1 rm)) s =
      .next ((s.setX rd (intResult ty (fToIntVal ty r (s.fval d rs1)).1)).accrue
        (fflagsOf (fToIntVal ty r (s.fval d rs1)).2)).complete) ∧
    (∀ op, exec (.integerOp (.fSgnj op d rd rs1 rs2)) s =
      .next (s.setFcode d rd (sgnjCode op d (s.fcode d rs1) (s.fcode d rs2))).complete) ∧
    (∀ mx, exec (.integerOp (.fMinMax mx d rd rs1 rs2)) s =
      .next ((s.setFcode d rd (fMinMax mx d (s.fcode d rs1) (s.fcode d rs2)).1).accrue
        (fflagsOf (fMinMax mx d (s.fcode d rs1) (s.fcode d rs2)).2)).complete) ∧
    (∀ op, exec (.integerOp (.fCmp op d rd rs1 rs2)) s =
      .next ((s.setX rd (if (fCompare op (s.fval d rs1) (s.fval d rs2)).1 then 1 else 0)).accrue
        (fflagsOf (fCompare op (s.fval d rs1) (s.fval d rs2)).2)).complete) ∧
    exec (.integerOp (.fClass d rd rs1)) s = .next (s.setX rd (wordOf (fClassOf d (s.fcode d rs1)))).complete ∧
    exec (.integerOp (.fmvToX d rd rs1)) s = .next (s.setX rd (if d then s.f rs1 else sext32 (s.f rs1))).complete ∧
    exec (.integerOp (.fmvToF d rd rs1)) s =
      .next (s.setF rd (if d then s.x rs1 else boxS ((s.x rs1).setWidth 32))).complete

/-- R402: while FS is Off, every F and D instruction raises the illegal instruction, cause 2, with its word as the value,
and so does every F and D load and store. -/
def Obligations.FloatingPointOffIsIllegal : Prop :=
  ∀ s : State, s.me.waiting = none → fsOf s.me.sys.mstatus = 0 →
    (∀ op, exec (.fdivFsqrt op) s = .next (s.takeTrap s.cur false 2 0 (wordOfInstr (.fdivFsqrt op)))) ∧
    (∀ op d rd rs1 rs2 rs3 rm, exec (.integerOp (.fma op d rd rs1 rs2 rs3 rm)) s =
      .next (s.takeTrap s.cur false 2 0 (wordOfInstr (.integerOp (.fma op d rd rs1 rs2 rs3 rm))))) ∧
    (∀ op d rd rs1 rs2 rm, exec (.integerOp (.fArith op d rd rs1 rs2 rm)) s =
      .next (s.takeTrap s.cur false 2 0 (wordOfInstr (.integerOp (.fArith op d rd rs1 rs2 rm))))) ∧
    (∀ rd rs1 i, exec (.baseLoad .fld rd rs1 i) s = .next (s.takeTrap s.cur false 2 0 (wordOfInstr (.baseLoad .fld rd rs1 i))) ∧
      exec (.baseLoad .flw rd rs1 i) s = .next (s.takeTrap s.cur false 2 0 (wordOfInstr (.baseLoad .flw rd rs1 i)))) ∧
    (∀ rs1 rs2 i, exec (.baseStore .fsd rs1 rs2 i) s = .next (s.takeTrap s.cur false 2 0 (wordOfInstr (.baseStore .fsd rs1 rs2 i))) ∧
      exec (.baseStore .fsw rs1 rs2 i) s = .next (s.takeTrap s.cur false 2 0 (wordOfInstr (.baseStore .fsw rs1 rs2 i))))

/-- R69, R105: a base load whose bytes can be read writes them, extended as its form says, to x[rd] or f[rd]; `lr` also
takes the reservation of the 64-byte line (R403). The hart goes on at the next word. An address x[rs1] + imm past either end
of the address space is refused and not formed by wrapping (R48, log 64). -/
def Obligations.LoadsWriteWhatTheyRead : Prop :=
  ∀ (s : State) (rd rs1 : Reg), s.me.waiting = none →
    (∀ op i a t bs, s.baseAddr .load rs1 i = .ok a → op ≠ .flw → op ≠ .fld →
      s.load a (LoadOp_size op) (LoadOp_size op) = .ok (t, bs) →
      exec (.baseLoad op rd rs1 i) s = .next (t.setX rd (extendLoad op (leNat bs))).complete) ∧
    (∀ op i a t bs, s.baseAddr .load rs1 i = .ok a → op = .flw ∨ op = .fld → fsOf s.me.sys.mstatus ≠ 0 →
      s.load a (LoadOp_size op) (LoadOp_size op) = .ok (t, bs) →
      exec (.baseLoad op rd rs1 i) s = .next (t.setF rd (extendLoad op (leNat bs))).complete) ∧
    (∀ op (i : BitVec 12), (op = .flw ∨ op = .fld → fsOf s.me.sys.mstatus ≠ 0) →
      ¬ (0 ≤ ((s.x rs1).toNat : Int) + i.toInt ∧ ((s.x rs1).toNat : Int) + i.toInt < 2 ^ 64) →
      exec (.baseLoad op rd rs1 i) s = .next (s.takeTrap s.cur false 5 0 (s.x rs1 + imm12 i))) ∧
    (∀ d aq rl t bs u ls, inWindows (s.x rs1) = false →
      s.load (s.x rs1) (if d then 8 else 4) (if d then 8 else 4) = .ok (t, bs) →
      resolve t (t.view .load) .load (s.x rs1) (if d then 8 else 4) (if d then 8 else 4) = .ok (u, ls) →
      exec (.lr d aq rl rd rs1) s =
        .next ((u.modMe fun x => { x with
          resv := some { line := (ls.headD (default, 0)).1.pa / 64, addr := s.x rs1, width := if d then 8 else 4 } }).setX rd (amoWord d (wordOf (leNat bs)))).complete)

/-- R60, R69 in M mode without MPRV in a cluster that no partition holds, where no translation takes part: an aligned base
load from HBM outside the windows that the PMP entries permit reads the bytes of memory at that address and changes nothing
but x[rd], the pc and `minstret`. -/
def Obligations.MachineModeLoadReadsMemory : Prop :=
  ∀ (s : State) (op : LoadOp) (rd rs1 : Reg) (i : BitVec 12) (a : Word), s.baseAddr .load rs1 i = .ok a → s.me.waiting = none → s.me.mode = Mode.m →
    bits s.me.sys.mstatus 17 1 = 0 → (s.cluster (clusterOf s.cur)).errinj.getLsbD 4 = false → op ≠ .flw → op ≠ .fld →
    s.partOf (clusterOf s.cur) = none →
    (s.view .load).pmpAllows .m .load a.toNat (LoadOp_size op) = true →
    a.toNat % LoadOp_size op = 0 → a.toNat + LoadOp_size op ≤ hbmSize →
    exec (.baseLoad op rd rs1 i) s =
      .next (s.wrote rd (extendLoad op (leNat (s.readAs none a.toNat (LoadOp_size op)))))

/-- R41 in M mode without MPRV in a cluster that no partition holds: an aligned base store to HBM outside the windows that
the PMP entries permit is performed at once: its bytes, lowest first, at the address; reservations of other harts on the line
end (R403); every byte of memory outside them reads as before, and no register changes. -/
def Obligations.MachineModeStoreWritesItsBytes : Prop :=
  ∀ (s : State) (op : StoreOp) (rs1 rs2 : Reg) (i : BitVec 12) (a : Word), s.baseAddr .store rs1 i = .ok a → s.me.waiting = none → s.me.mode = Mode.m →
    bits s.me.sys.mstatus 17 1 = 0 → op ≠ .fsw → op ≠ .fsd → s.MemOk → s.partOf (clusterOf s.cur) = none →
    (s.view .store).pmpAllows .m .store a.toNat (StoreOp_size op) = true →
    a.toNat % StoreOp_size op = 0 → a.toNat + StoreOp_size op ≤ hbmSize →
    ∃ t, exec (.baseStore op rs1 rs2 i) s = .next t ∧
      t = ((s.perform (some s.cur) none a.toNat noGuest
        (leBytes (StoreOp_size op) (s.x rs2).toNat)).complete) ∧
      leNat (t.readAs none a.toNat (StoreOp_size op)) = (s.x rs2).toNat % 256 ^ StoreOp_size op ∧
      (∀ b, b < a.toNat ∨ a.toNat + StoreOp_size op ≤ b → t.byteAs none b = s.byteAs none b) ∧
      t.me.ctx = s.me.ctx ∧ t.me.pc = s.me.pc + 4 ∧ t.MemOk

/-- R41, R69: a base store whose range can be written: each of its units is performed at once through a window and outside
a region, and joins the region's store buffer otherwise. The hart goes on at the next word. -/
def Obligations.StoresReachTheBufferOrMemory : Prop :=
  ∀ (s : State) (op : StoreOp) (rs1 rs2 : Reg) (i : BitVec 12) (a : Word) (t u : State) (ls : List (Loc × Nat)),
    s.me.waiting = none → (op = .fsw ∨ op = .fsd → fsOf s.me.sys.mstatus ≠ 0) →
    s.baseAddr .store rs1 i = .ok a →
    resolve s (s.view .store) .store a (StoreOp_size op) (StoreOp_size op) = .ok (t, ls) →
    storeUnits t t.cur a ls
      (leBytes (StoreOp_size op) (if op = .fsw ∨ op = .fsd then s.f rs2 else s.x rs2).toNat) = .ok u →
    exec (.baseStore op rs1 rs2 i) s = .next u.complete

/-- R74, R135, R136: a read-modify-write that is permitted closes the region, reads the old value and writes the new one
in one step, and answers the old value; `samo` and `scas` clear the reservation (R403). -/
def Obligations.AtomicsReadAndWriteInOneStep : Prop :=
  ∀ (s u : State) (rd rs1 rs2 : Reg) (old : List Byte), s.starts → s.closed.noEnd →
    (∀ op d aq rl, s.closed.rmw (s.closed.x rs1) (if d then 8 else 4) (fun old => leBytes (if d then 8 else 4)
        (amoNew op (amoWord d (wordOf (leNat old))) (amoWord d (s.closed.x rs2))).toNat) = .ok (u, old) →
      exec (.amo op d aq rl rd rs1 rs2) s = .next (u.setX rd (amoWord d (wordOf (leNat old)))).goesOn) ∧
    (∀ op scope, s.closed.rmw (s.closed.x rs1) 8 (fun old => leBytes 8
        (caNew op (wordOf (leNat old)) (s.closed.x rs2)).toNat) = .ok (u, old) →
      exec (.samo op scope rd rs1 rs2) s =
        .next (((u.modMe fun x => { x with resv := none }).setX rd (wordOf (leNat old))).countClamp scope.toNat).goesOn) ∧
    (∀ scope, s.closed.rmw (s.closed.x rs1) 8 (fun old => leBytes 8
        (if wordOf (leNat old) = s.closed.x rd then s.closed.x rs2 else wordOf (leNat old)).toNat) = .ok (u, old) →
      exec (.scas scope rd rs1 rs2) s =
        .next (((u.modMe fun x => { x with resv := none }).setX rd (wordOf (leNat old))).countClamp scope.toNat).goesOn)

/-- R403, R71: `sc` closes the region and keeps the reservation for its test. A reservation of this address and width that
still stands is a success: the bytes are written and x[rd] is 0; otherwise nothing is written and x[rd] is 1. The
reservation is gone either way. -/
def Obligations.StoreConditionalTestsTheReservation : Prop :=
  ∀ (s v : State) (d aq rl : Bool) (rd rs1 rs2 : Reg) (ls : List (Loc × Nat)), s.starts → s.closedKeeping.noEnd →
    inWindows (s.closedKeeping.x rs1) = false →
    resolve s.closedKeeping (s.closedKeeping.view .store) .store (s.closedKeeping.x rs1) (if d then 8 else 4)
      (if d then 8 else 4) = .ok (v, ls) →
    ((∃ l, v.me.resv = some { line := l, addr := s.closedKeeping.x rs1, width := if d then 8 else 4 }) →
      exec (.sc d aq rl rd rs1 rs2) s =
        .next (((performUnits v (some v.cur) (v.partOf (clusterOf v.cur)) ls
          (leBytes (if d then 8 else 4) (v.x rs2).toNat)).modMe fun x => { x with resv := none }).setX rd 0).goesOn) ∧
    ((∀ r, v.me.resv = some r → r.addr ≠ s.closedKeeping.x rs1 ∨ r.width ≠ (if d then 8 else 4)) →
      exec (.sc d aq rl rd rs1 rs2) s = .next ((v.modMe fun x => { x with resv := none }).setX rd 1).goesOn)

/-- R77, R78, R132: `fence`, `fence.i` and `cfence`. An acquire-kind fence, `fence.i`, and any fence outside a region only
go on; a release-kind fence inside a region takes its place in the store buffer behind the stores before it (`fence` as
`cfence` with all colours, both kinds, partition scope). `cfence` that names scope 7 counts one clamp (R64). -/
def Obligations.FencesTakeTheirPlace : Prop :=
  ∀ s : State, s.me.waiting = none →
    (∀ imm rs1 rd, exec (.fenceI imm rs1 rd) s = .next s.complete) ∧
    (∀ mask scope, exec (.cfence mask .acquire scope) s = .next (s.countClamp scope.toNat).complete) ∧
    (s.inRegion s.cur = false → ∀ fm p q rs1 rd mask k scope, exec (.fence fm p q rs1 rd) s = .next s.complete ∧
      exec (.cfence mask k scope) s = .next (s.countClamp scope.toNat).complete) ∧
    (∀ t, s.inRegion s.cur = true → s.myTask = some t → t.region.buf.length < 512 →
      (∀ fm p q rs1 rd, exec (.fence fm p q rs1 rd) s =
        .next (s.modTaskOf s.cur fun t =>
          { t with region := { t.region with buf := t.region.buf ++ [.release 0xFF] } }).complete) ∧
      (∀ mask scope k, k ≠ FenceKind.acquire → exec (.cfence mask k scope) s =
        .next ((s.modTaskOf s.cur fun t =>
          { t with region := { t.region with buf := t.region.buf ++ [.release mask] } }).countClamp scope.toNat).complete))

/-- R98, R105, R119, R159: the words whose own effect is a trap, taken in the mode the hart is in: an unlisted word is
cause 2 with the word, `ebreak` cause 3 with the pc, `ecall` cause 8 from U and 11 from M mode. -/
def Obligations.TrappingWordsTakeTheirTrap : Prop :=
  ∀ s : State, s.me.waiting = none →
    (∀ w, exec (.illegalInstruction w) s = .next (s.takeTrap s.cur false 2 0 (w.setWidth 64))) ∧
    exec .ebreak s = .next (s.takeTrap s.cur false 3 0 s.me.pc) ∧
    (s.me.mode = Mode.u → exec .ecall s = .next (s.takeTrap s.cur false 8 0 0)) ∧
    (s.me.mode = Mode.m → exec .ecall s = .next (s.takeTrap s.cur false 11 0 0))

/-- R119, R350, R402: what taking a trap does to the hart. With no end of a task due, from a state with no region open:
a cause that `medeleg` (for an interrupt `mideleg`) delegates goes, below M mode, to S mode with sepc, scause, stval; any
other to M mode with mepc, mcause, mtval. The cause register holds the interrupt bit, the subcode in bits 15:8 and the
cause in bits 7:0; the pc is the handler's; the reservation is gone; the general registers and memory stay. -/
def Obligations.TrapEntrySavesAndRedirects : Prop :=
  ∀ (s : State) (intr : Bool) (code sub : Nat) (tval : Word), s.inRegion s.cur = false →
    let t := s.takeTrap s.cur intr code sub tval
    t.mem = s.mem ∧ t.tasks = s.tasks ∧ t.me.ctx = s.me.ctx ∧ t.me.resv = none ∧ t.me.waiting = none ∧ t.me.pfx = none ∧
    (s.me.mode ≠ Mode.m ∧ (if intr then s.me.sys.mideleg else s.me.sys.medeleg).getLsbD code = true →
      t.me.mode = Mode.s ∧ t.me.sys.sepc = s.me.epc ∧ t.me.sys.scause = causeWord intr code sub ∧
      t.me.sys.stval = tval ∧ t.me.pc = vectorOf s.me.sys.stvec intr code ∧ bits t.me.sys.mstatus 1 1 = 0 ∧
      bits t.me.sys.mstatus 5 1 = bits s.me.sys.mstatus 1 1 ∧
      bits t.me.sys.mstatus 8 1 = (if s.me.mode = Mode.s then 1 else 0) ∧ t.me.sys.mepc = s.me.sys.mepc) ∧
    (s.me.mode = Mode.m ∨ (if intr then s.me.sys.mideleg else s.me.sys.medeleg).getLsbD code = false →
      t.me.mode = Mode.m ∧ t.me.sys.mepc = s.me.epc ∧ t.me.sys.mcause = causeWord intr code sub ∧
      t.me.sys.mtval = tval ∧ t.me.pc = vectorOf s.me.sys.mtvec intr code ∧ bits t.me.sys.mstatus 3 1 = 0 ∧
      bits t.me.sys.mstatus 7 1 = bits s.me.sys.mstatus 3 1 ∧
      bits t.me.sys.mstatus 11 2 = s.me.mode.code ∧ t.me.sys.sepc = s.me.sys.sepc)

/-- R119: a trap from U mode with a region open is a commit point first: its stores are performed, its buffer is empty,
and the region sequence is one higher; then the trap is taken as from a state without a region. `rcommit` is that commit
point by itself (R129): the hart goes on at the next word, in the next region, whose checkpoint is there. -/
def Obligations.TrapClosesTheRegionFirst : Prop :=
  ∀ (s : State) (intr : Bool) (code sub : Nat) (tval : Word),
    s.inRegion s.cur = true → ((s.closesOther s.cur).closeRegion s.cur 0 s.me.epc false).noEnd →
    s.takeTrap s.cur intr code sub tval =
      ((s.closesOther s.cur).closeRegion s.cur 0 s.me.epc false).enterTrap s.cur intr code sub tval s.me.epc ∧
    ∀ t, ((s.closesOther s.cur).closeRegion s.cur 0 s.me.epc false).myTask = some t →
      t.region.buf = [] ∧ t.region.log = [] ∧ t.region.undrained = [] ∧ t.region.close = 0 ∧
      ∀ u, s.myTask = some u → t.region.rseq = u.region.rseq + 1 ∧
        (s.starts → ∃ v w, exec .rcommit s = .next v ∧ v.myTask = some w ∧ v.me.pc = s.me.pc + 4 ∧ v.me.ctx = s.me.ctx ∧
          w.region.buf = [] ∧ w.region.rseq = u.region.rseq + 1 ∧ w.region.ckpt.pc = s.me.pc + 4)

/-- R105, R402 (the privileged specification): `sret` and `mret` where the mode may run them. The mode, the interrupt
enable and the pc come back from the saved registers, the status keeps no old privilege, the reservation is gone; a return
to U mode with a task opens a region with its checkpoint (R119). Below their mode they are illegal. -/
def Obligations.ReturnsRestoreTheSavedState : Prop :=
  ∀ s : State, s.me.waiting = none →
    (s.me.mode = Mode.m ∨ s.me.mode = Mode.s ∧ bits s.me.sys.mstatus 22 1 = 0 → s.me.freeOnSret = false →
      exec .sret s = .next (s.modMe fun x => x.sret).openAtReturn.retire) ∧
    (s.me.mode = Mode.m → exec .mret s = .next (s.modMe fun x => x.mret).openAtReturn.retire) ∧
    (s.me.mode = Mode.u → exec .sret s = .next (s.takeTrap s.cur false 2 0 (wordOfInstr .sret)) ∧
      exec .mret s = .next (s.takeTrap s.cur false 2 0 (wordOfInstr .mret))) ∧
    (s.me.mode = Mode.s → exec .mret s = .next (s.takeTrap s.cur false 2 0 (wordOfInstr .mret))) ∧
    (∀ x : Hart, x.sret.pc = x.sys.sepc ∧ x.mret.pc = x.sys.mepc ∧ x.sret.resv = none ∧ x.mret.resv = none ∧
      x.sret.mode = (if bits x.sys.mstatus 8 1 = 1 then Mode.s else Mode.u) ∧
      x.mret.mode = Mode.ofCode (bits x.sys.mstatus 11 2) ∧
      bits x.sret.sys.mstatus 1 1 = bits x.sys.mstatus 5 1 ∧ bits x.mret.sys.mstatus 3 1 = bits x.sys.mstatus 7 1)

/-- R105: `wfi` outside U mode with an enabled interrupt pending goes on at once, and without one waits at its place;
`sfence.vma` removes the matching translations in every cluster of its partition (R61), `xflush` in its own cluster
(R146). Neither is complete while a region holds stores made through what it removed: its hart waits until then (R61). -/
def Obligations.WaitAndFlushesOfThePrivilegedModes : Prop :=
  let through := fun (s : State) (f : Flush) (cs : List Nat) => cs.flatMap fun c => s.regionsThrough c f.hitsTlb fun _ r => f.hitsRun r
  let holds := fun (i : Instr) (s : State) (l : List (Word × BitVec 16 × BitVec 8)) => (s.modMe fun x => { x with
    waiting := some { instr := i, kind := .flushing l, reply := none } })
  let mayFence := fun s : State => s.me.mode = Mode.m ∨ s.me.mode = Mode.s ∧ bits s.me.sys.mstatus 20 1 = 0
  (∀ s : State, s.starts →
    (s.me.mode = Mode.m ∨ s.me.mode = Mode.s ∧ bits s.me.sys.mstatus 21 1 = 0 →
      (s.mipOf s.cur &&& s.me.sys.mie ≠ 0 → exec .wfi s = .next s.complete) ∧
      (s.mipOf s.cur &&& s.me.sys.mie = 0 → ∃ t, exec .wfi s = .next t ∧ t.me.pc = s.me.pc ∧
        t.me.waiting = some { instr := .wfi, kind := .long, reply := none })) ∧
    (mayFence s → ∀ rs1 rs2,
      let f : Flush := { page := if rs1 = 0 then none else some ((s.x rs1).toNat % 2 ^ 57 / 4096),
                         asid := if rs2 = 0 then none else some ((s.x rs2).setWidth 16), global := false }
      let cs := match s.partOf (clusterOf s.cur) with | some p => s.clustersOf p | none => [clusterOf s.cur]
      (through s f cs = [] → exec (.sfenceVma rs1 rs2) s = .next (flushClusters s f cs).complete) ∧
      (through s f cs ≠ [] → exec (.sfenceVma rs1 rs2) s =
        .next (holds (.sfenceVma rs1 rs2) (flushClusters s f cs) (through s f cs)))) ∧
    (s.me.mode ≠ Mode.u → ∀ rs1 rs2, canonical (s.x rs1) = true ∨ bits (s.x rs2) 17 1 = 1 →
      let f : Flush := { page := if bits (s.x rs2) 17 1 == 1 then none else some ((s.x rs1).toNat % 2 ^ 57 / 4096),
                         asid := if bits (s.x rs2) 16 1 = 1 then none else some ((s.x rs2).setWidth 16), global := true }
      let c := clusterOf s.cur
      (through s f [c] = [] → exec (.xflush rs1 rs2) s = .next (s.flushCluster c f).complete) ∧
      (through s f [c] ≠ [] → exec (.xflush rs1 rs2) s =
        .next (holds (.xflush rs1 rs2) (s.flushCluster c f) (through s f [c])))) ∧
    (s.me.mode ≠ Mode.u → ∀ rs1 rs2, canonical (s.x rs1) = false → bits (s.x rs2) 17 1 = 0 →
      exec (.xflush rs1 rs2) s = .next s.complete) ∧
    (s.me.mode = Mode.u → ∀ rs1 rs2,
      exec (.sfenceVma rs1 rs2) s = .next (s.takeTrap s.cur false 2 0 (wordOfInstr (.sfenceVma rs1 rs2))) ∧
      exec (.xflush rs1 rs2) s = .next (s.takeTrap s.cur false 2 0 (wordOfInstr (.xflush rs1 rs2))))) ∧
  (∀ (s : State) (rs1 rs2 : Reg) (l : List (Word × BitVec 16 × BitVec 8)), mayFence s →
    s.me.waiting = some { instr := .sfenceVma rs1 rs2, kind := .flushing l, reply := none } → s.regionsOpen l = false →
    exec (.sfenceVma rs1 rs2) s = .next s.complete)

/-- R6: a CSR access that the mode and the register permit reads the register, writes the new value where its form writes,
and leaves the old value in x[rd]; so do the writes of `stcol`, `vrm`, `mfmtN`, `mgang` and `satp`, the same words under
the names of their registers. A set or clear of `mip` works on the bits that software wrote, without the external signal
(privileged specification, 3.1.9); of every other register, on what was read. -/
def Obligations.CsrWordsReadAndWriteTheirRegister : Prop :=
  ∀ (s : State) (f : CsrForm) (old : Word), s.me.waiting = none →
    let new := fun (n : Nat) => (if f.writes then s.csrSet n (csrNew f (if n = 0x344 then s.me.sys.mip else old) (s.csrSrc f)) else s).setX f.rd old
    (∀ csr : BitVec 12, s.csrRead csr.toNat = .ok old → (f.writes && csrReadOnly csr.toNat) = false →
      exec (.csrAccess csr f) s = .next (new csr.toNat).complete) ∧
    (s.csrRead 0x800 = .ok old → exec (.stcolWrite f) s = .next (new 0x800).complete) ∧
    (s.csrRead 0x801 = .ok old → exec (.vrmWrite f) s = .next (new 0x801).complete) ∧
    (∀ n : BitVec 2, s.csrRead (0x804 + n.toNat) = .ok old →
      exec (.mfmtWrite n f) s = .next (new (0x804 + n.toNat)).complete) ∧
    (s.csrRead 0x808 = .ok old → exec (.mgangWrite f) s = .next (new 0x808).complete) ∧
    (s.csrRead 0x180 = .ok old → exec (.satpWrite f) s = .next (new 0x180).complete)

/-- R6, R102: an access below the register's lowest mode, to a number that no table lists, or a write to a read-only
number, raises the illegal instruction and leaves the register. -/
def Obligations.CsrAccessIsCheckedFirst : Prop :=
  ∀ (s : State) (csr : BitVec 12) (f : CsrForm), s.me.waiting = none →
    (s.me.mode.code < csrLevel csr.toNat ∨ f.writes = true ∧ csrReadOnly csr.toNat = true ∨
      (if csrLevel csr.toNat = 3 then s.csrHigh csr.toNat else s.csrLow csr.toNat) = none) →
    exec (.csrAccess csr f) s = .next (s.takeTrap s.cur false 2 0 (wordOfInstr (.csrAccess csr f)))

/-- R75, R103, R104, R235, R5, R402: what a write leaves in the registers of the manual's tables: `stcol` keeps three bits,
`vrm` refuses the illegal values, `mfmtN` keeps its rounding field at 101 and 110, `mgang` clears bits 6:4, and `satp`
takes mode 0 and mode 10 only. A write touches no other register of the hart, and no memory. -/
def Obligations.ControlRegisterWritesKeepTheirFields : Prop :=
  ∀ (s : State) (v : Word),
    (s.csrSet 0x800 v).me.ctx = { s.me.ctx with stcol := v.setWidth 3 } ∧
    (s.csrSet 0x801 v).me.ctx = { s.me.ctx with vrm := if bits v 0 3 ≤ 4 then v.setWidth 3 else s.me.ctx.vrm } ∧
    (∀ n : Fin 4, (s.csrSet (0x804 + n.val) v).me.ctx = { s.me.ctx with
      mfmt := s.me.ctx.mfmt.set n.val (if bits v 15 3 = 5 ∨ bits v 15 3 = 6 then
        s.me.ctx.mfmt[n.val].extractLsb' 15 3 ++ v.extractLsb' 0 15 else v.setWidth 18) }) ∧
    (s.csrSet 0x808 v).me.ctx = { s.me.ctx with mgang := (v &&& 0x3FF8F).setWidth 18 } ∧
    (s.csrSet 0x180 v).me.sys = { s.me.sys with
      satp := if bits v 60 4 = 0 ∨ bits v 60 4 = 10 then v else s.me.sys.satp } ∧
    (∀ n, n = 0x800 ∨ n = 0x801 ∨ 0x804 ≤ n ∧ n ≤ 0x808 ∨ n = 0x180 → (s.csrSet n v).mem = s.mem ∧
      (s.csrSet n v).tasks = s.tasks ∧ (s.csrSet n v).me.ctx.x = s.me.ctx.x ∧ (s.csrSet n v).me.pc = s.me.pc)

/-- R348, R383: arming or disarming one detector of `errinj` sets its bit as it reads back, and touches no register of a hart,
no task and no byte of memory; the core detector, once armed, reports by the event it posts, which a disarm takes back. A write of
`scrubctl` that names one unit while no scrub runs makes that unit busy and starts the scrub; a write while busy is ignored;
the end of the scrub clears busy, and after it every byte of the scratchpad outside the defined stages reads as zero where that
unit was named, and so does the vault beneath where it was named and the partition owns it. -/
def Obligations.DetectorsAndScrubActOnTheirUnits : Prop :=
  (∀ (s : State) (arm : Bool), let b := if arm then 1 else 0
    (∃ t, exec (.errinjLink arm) s = .next t ∧ bits t.errinjRead 7 1 = b ∧ t.harts = s.harts ∧ t.mem = s.mem ∧ t.pending = s.pending) ∧
    (∃ t, exec (.errinjCopy arm) s = .next t ∧ bits t.errinjRead 5 1 = b ∧ t.harts = s.harts ∧ t.mem = s.mem ∧ t.pending = s.pending) ∧
    (∃ t, exec (.errinjHbm arm) s = .next t ∧ bits t.errinjRead 4 1 = b ∧ t.harts = s.harts ∧ t.mem = s.mem ∧ t.pending = s.pending) ∧
    (∃ t, exec (.errinjVault arm) s = .next t ∧ bits t.errinjRead 3 1 = b ∧ t.harts = s.harts ∧ t.mem = s.mem ∧ t.pending = s.pending) ∧
    (∃ t, exec (.errinjPad arm) s = .next t ∧ bits t.errinjRead 2 1 = b ∧ t.harts = s.harts ∧ t.mem = s.mem ∧ t.pending = s.pending) ∧
    (∃ t, exec (.errinjMpad arm) s = .next t ∧ bits t.errinjRead 0 1 = b ∧ t.harts = s.harts ∧ t.mem = s.mem ∧ t.pending = s.pending) ∧
    (∃ t, exec (.errinjTmem arm) s = .next t ∧ bits t.errinjRead 1 1 = b ∧ t.harts = s.harts ∧ t.mem = s.mem ∧
      t.pending = s.pending) ∧
    (∃ t, exec (.errinjCore arm) s = .next t ∧ bits t.errinjRead 6 1 = b ∧ t.harts = s.harts ∧ t.mem = s.mem ∧
      t.pending = (s.pending.filter fun i => i != .coreLoss (coreOf s.cur)) ++ (if arm then [.coreLoss (coreOf s.cur)] else []))) ∧
  (∀ s : State,
    (∀ (i : Instr) (u : BitVec 3), (i = .scrubctlPad ∧ u = 1) ∨ (i = .scrubctlTiles ∧ u = 2) ∨ (i = .scrubctlVault ∧ u = 4) →
      (s.myCluster.scrubBusy = 0 → ∃ t, exec i s = .next t ∧ t.myCluster.scrubBusy = u ∧
        t.pending = s.pending ++ [.supervisorScrubDone (clusterOf s.cur)] ∧ t.mem = s.mem ∧ t.harts = s.harts) ∧
      (s.myCluster.scrubBusy ≠ 0 → exec i s = .next s)) ∧
    (∀ c, ∃ t, exec (.supervisorScrubDone c) s = .next t ∧ (t.cluster c).scrubBusy = 0 ∧ t.harts = s.harts ∧
      ((s.cluster c).scrubBusy.getLsbD 0 = true → ∀ a, s.padFree c a = true → t.byte a = Config.unwrittenByte) ∧
      ((s.cluster c).scrubBusy.getLsbD 2 = true → ∀ p, (s.partOf c).bind s.parts.find = some p → p.vaults.getLsbD c = true →
        ∀ a, vaultAddr c 0 ≤ a → a < vaultAddr c vaultSize → t.byte a = Config.unwrittenByte) ∧
      ((s.cluster c).scrubBusy = 0 → ∀ a, t.byte a = s.byte a)))


/-! ### Hart words of custom-0 -/

/-- R129: `rcommit` in U mode closes the region and opens the next, whose checkpoint is taken after the instruction; the
region's stores are performed, its state counts one commit point and reads close 0. In S and M mode it only goes on. -/
def Obligations.RegionCommitPerformsAndCheckpoints : Prop :=
  ∀ s : State, s.starts → s.closed.noEnd →
    exec .rcommit s = .next s.closed.goesOn ∧
    (s.me.mode ≠ Mode.u → exec .rcommit s = .next s.complete) ∧
    (∀ t, s.inRegion s.cur = true → s.myTask = some t → ∃ v u, exec .rcommit s = .next v ∧ v.myTask = some u ∧
      v.me.pc = s.me.pc + 4 ∧ v.me.ctx = s.me.ctx ∧ v.me.mode = s.me.mode ∧ v.inRegion v.cur = true ∧
      u.region.buf = [] ∧ u.region.log = [] ∧ u.region.undrained = [] ∧ u.region.close = 0 ∧
      u.region.rseq = t.region.rseq + 1 ∧ u.region.ckpt.pc = s.me.pc + 4 ∧ u.region.ckpt.ctx = s.me.ctx)

/-- R33, R130: `phase` writes the entry that the launch record's copy gives for the size, and 0 with no task. The entry is
the launch entry with no variant; else that of a variant with the smallest bound that suffices, or with the largest bound
where none suffices, the lowest index on equal bounds. -/
def Obligations.PhaseChoosesTheVariant : Prop :=
  (∀ (s : State) (rd rs1 : Reg), s.me.waiting = none → exec (.phase rd rs1) s = .next (s.wrote rd
    (match s.myTask.bind fun t => s.launches.find t.launch with
      | some l => chooseVariant l.record (s.x rs1)
      | none => 0))) ∧
  (∀ (r : List Byte) (size : Word), variants r = [] → chooseVariant r size = recWord r 8) ∧
  (∀ (r : List Byte) (size : Word), variants r ≠ [] → ∃ (i : Nat) (v : Word × Word),
    (variants r)[i]? = some v ∧ chooseVariant r size = v.2 ∧
    (∀ j w, (variants r)[j]? = some w → j < i → w.1 ≠ v.1) ∧
    ((∃ w ∈ variants r, size ≤ w.1) → size ≤ v.1 ∧ ∀ w ∈ variants r, size ≤ w.1 → v.1 ≤ w.1) ∧
    ((∀ w ∈ variants r, w.1 < size) → ∀ w ∈ variants r, w.1 ≤ v.1))

/-- R131: `bfx` and `bfi` bit by bit, with the effective width we = min(w, 64 - p). Neither traps, and neither changes
anything but x[rd]. -/
def Obligations.BitFieldsMoveTheirBits : Prop :=
  (∀ (s : State) (rd rs1 rs2 : Reg), s.me.waiting = none →
    exec (.bfx rd rs1 rs2) s = .next (s.wrote rd (bfxVal (s.x rs1) (s.x rs2))) ∧
    exec (.bfi rd rs1 rs2) s = .next (s.wrote rd (bfiVal (s.x rd) (s.x rs1) (s.x rs2)))) ∧
  (∀ (old a d : Word) (i : Nat), i < 64 → let p := bits d 0 6; let we := min (bits d 8 7) (64 - p)
    (bfxVal a d).getLsbD i = (if i < we then a.getLsbD (p + i)
      else decide (we ≠ 0) && d.getLsbD 15 && a.getLsbD (p + we - 1)) ∧
    (bfiVal old a d).getLsbD i = (if p ≤ i ∧ i < p + we then a.getLsbD (i - p) else old.getLsbD i))

/-- R138 to R141: the barrier instructions on the instance their selector names. `barinit` sets count and clears
arrivals; an arrival counts, or completes the phase where it is the last of count and releases every `barsync` and `barwait` that waits
on it; `barrive` and a completing `barsync` answer the phase of the arrival; `barwait` returns once the phase differs and
`barsync` once its phase completes, and both wait until then. R64: an execution that names scope 7 counts one clamp. -/
def Obligations.BarriersCountPhases : Prop :=
  ∀ (s : State) (k : Nat), s.closed.noEnd →
    (∀ rs1 rs2, s.starts → s.closed.myBarrier rs1 = .ok k → (s.x rs2).setWidth 16 ≠ (0 : BitVec 16) →
      (s.closed.barrier k).arrivals = 0 → (∀ e ∈ s.closed.harts, s.closed.inBarwait e.1 e.2 k = false) →
      exec (.barinit rs1 rs2) s = .next ((s.closed.setBarrier k
        { s.closed.barrier k with count := (s.x rs2).setWidth 16, arrivals := 0 }).countClamp (bits (s.x rs1) 8 3)).goesOn) ∧
    (∀ rd rs1, s.starts → s.closed.myBarrier rs1 = .ok k → (s.closed.barrier k).count ≠ 0 →
      exec (.barrive rd rs1) s = .next (((s.closed.arriveAt k).countClamp (bits (s.x rs1) 8 3)).setX rd
        ((s.closed.barrier k).phase.setWidth 64)).goesOn) ∧
    (∀ rs1 rs2, s.starts → s.myBarrier rs1 = .ok k → (s.barrier k).count ≠ 0 →
      (∀ p : BitVec 16, (s.x rs2).setWidth 16 = p → (s.barrier k).phase ≠ p →
        exec (.barwait rs1 rs2) s = .next (s.countClamp (bits (s.x rs1) 8 3)).complete) ∧
      ((s.barrier k).phase = (s.x rs2).setWidth 16 → s.noEnd → exec (.barwait rs1 rs2) s = .next
        (s.modMe fun x => { x with waiting := some { instr := .barwait rs1 rs2, kind := .long, reply := none } }))) ∧
    (∀ rd rs1, s.starts → s.closed.myBarrier rs1 = .ok k → (s.closed.barrier k).count ≠ 0 →
      ((s.closed.barrier k).arrivals + 1 = (s.closed.barrier k).count → exec (.barsync rd rs1) s = .next
        (((s.closed.arriveAt k).countClamp (bits (s.x rs1) 8 3)).setX rd ((s.closed.barrier k).phase.setWidth 64)).goesOn) ∧
      ((s.closed.barrier k).arrivals + 1 ≠ (s.closed.barrier k).count → exec (.barsync rd rs1) s = .next
        ((s.closed.arriveAt k).modMe fun x =>
          { x with waiting := some { instr := .barsync rd rs1, kind := .arrived k (s.closed.barrier k).phase, reply := none } }))) ∧
    (∀ rd rs1 p v, s.noEnd → s.me.waiting = some { instr := .barsync rd rs1, kind := .arrived k p, reply := some v } →
      exec (.barsync rd rs1) s = .next ((s.countClamp (bits (s.x rs1) 8 3)).setX rd (p.setWidth 64)).goesOn) ∧
    ((s.barrier k).arrivals + 1 = (s.barrier k).count → ((s.arriveAt k).barrier k = { s.barrier k with
        arrivals := 0, phase := (s.barrier k).phase + 1 }) ∧
      ∀ h w, (s.hart h).waiting = some w → (w.kind = .arrived k (s.barrier k).phase ∧ w.reply = none) ∨
          (∃ rs1 rs2, w.instr = .barwait rs1 rs2 ∧ w.reply = none ∧ s.barrierKey h ((s.hart h).ctx.xreg rs1) = .ok k) →
        ((s.arriveAt k).hart h).waiting = some { w with reply := some (.value ((s.barrier k).phase.setWidth 64)) }) ∧
    (∀ rs1 rs2 v kd, s.noEnd → s.me.waiting = some { instr := .barwait rs1 rs2, kind := kd, reply := some v } →
      exec (.barwait rs1 rs2) s = .next (s.countClamp (bits (s.x rs1) 8 3)).complete) ∧
    ((s.barrier k).arrivals + 1 ≠ (s.barrier k).count →
      s.arriveAt k = s.setBarrier k { s.barrier k with arrivals := (s.barrier k).arrivals + 1 })

/-- R139, R144: the faults of barriers and semaphores: cause 52, the subcode and the value x[rs1], taken after the region
closed and before anything is changed. -/
def Obligations.BarrierFaultsNameTheirCondition : Prop :=
  ∀ (s : State) (rd rs1 rs2 : Reg), s.starts → s.closed.noEnd →
    let trap := fun sub => Host.Outcome.next (s.closed.takeTrap s.closed.cur false 52 sub (s.x rs1))
    (bits (s.x rs1) 0 6 ≥ 48 → exec (.barinit rs1 rs2) s = trap 0x01 ∧ exec (.barrive rd rs1) s = trap 0x01 ∧
      exec (.barsync rd rs1) s = trap 0x01) ∧
    (∀ k, s.closed.myBarrier rs1 = .ok k →
      ((s.x rs2).setWidth 16 = (0 : BitVec 16) → exec (.barinit rs1 rs2) s = trap 0x03) ∧
      ((s.x rs2).setWidth 16 ≠ (0 : BitVec 16) → (s.closed.barrier k).arrivals ≠ 0 → exec (.barinit rs1 rs2) s = trap 0x04) ∧
      ((s.closed.barrier k).count = 0 → exec (.barrive rd rs1) s = trap 0x05 ∧ exec (.barsync rd rs1) s = trap 0x05)) ∧
    ((s.x rs1).toNat ≥ 16 → exec (.semv rs1 rs2) s = trap 0x11 ∧ exec (.semp rd rs1 rs2) s = trap 0x11) ∧
    ((s.x rs1).toNat < 16 → s.closed.semAmount rs2 = 0 ∨ s.closed.semAmount rs2 ≥ 2 ^ 32 →
      exec (.semv rs1 rs2) s = trap 0x13 ∧ exec (.semp rd rs1 rs2) s = trap 0x13) ∧
    ((s.x rs1).toNat < 16 → 0 < s.closed.semAmount rs2 → s.closed.semAmount rs2 < 2 ^ 32 →
      (s.closed.sem (s.x rs1).toNat).toNat + s.closed.semAmount rs2 > 2 ^ 32 - 1 → exec (.semv rs1 rs2) s = trap 0x12)

/-- R143 to R145: `semv` adds its amount to the count, 1 where the rs2 field is x0, and the waiter at the head takes its
amount in the same step where the count now suffices; `semp` with nobody before it and a count that suffices takes its
amount and answers what is left, and otherwise waits in the queue, behind those that came before it, until it is served. -/
def Obligations.SemaphoresAddAndTake : Prop :=
  ∀ (s : State) (rd rs1 rs2 : Reg), s.starts → s.closed.noEnd →
    let i := (s.x rs1).toNat; let n := if rs2 = 0 then 1 else (s.x rs2).toNat
    i < 16 → 0 < n → n < 2 ^ 32 →
    ((s.closed.sem i).toNat + n < 2 ^ 32 →
      let u := s.closed.setSem i (BitVec.ofNat 32 ((s.closed.sem i).toNat + n))
      exec (.semv rs1 rs2) s = .next (u.serveSem (pairOf s.cur) i).goesOn ∧
      (s.closed.semQueue i = [] → exec (.semv rs1 rs2) s = .next u.goesOn) ∧
      (∀ h r, s.closed.semQueue i = h :: r → (s.closed.sem i).toNat + n < (s.closed.hart h).semTake →
        exec (.semv rs1 rs2) s = .next u.goesOn) ∧
      (∀ h, s.closed.semQueue i = [h] → (s.closed.hart h).semTake ≤ (s.closed.sem i).toNat + n →
        let left := (s.closed.sem i).toNat + n - (s.closed.hart h).semTake
        exec (.semv rs1 rs2) s = .next (((u.setSem i (BitVec.ofNat 32 left)).setSemQueue i []).answer h
          (.value (wordOf left))).goesOn)) ∧
    (s.closed.semQueue i = [] → n ≤ (s.closed.sem i).toNat →
      exec (.semp rd rs1 rs2) s = .next ((s.closed.setSem i
        (BitVec.ofNat 32 ((s.closed.sem i).toNat - n))).setX rd (wordOf ((s.closed.sem i).toNat - n))).goesOn) ∧
    (∀ q, s.closed.semQueue i = q → q ≠ [] ∨ (s.closed.sem i).toNat < n →
      exec (.semp rd rs1 rs2) s = .next ((s.closed.setSemQueue i (q ++ [s.cur])).modMe fun x =>
        { x with waiting := some { instr := .semp rd rs1 rs2, kind := .queued, reply := none } }))

/-! ### Messages and gates -/

/-- R332, R335: `msnd` whose checks pass, to a mailbox of this chip. With a free slot and no sender before it the message
is appended, with the sender word, and the answer is 1; a sealed core answers 2; a full mailbox answers 0 under nb and
otherwise the hart joins the sender queue and waits. -/
def Obligations.MessagesReachTheirMailbox : Prop :=
  ∀ (s u v : State) (rd rs1 rs2 : Reg) (ls : List (Loc × Nat)) (data : BitVec 512), s.starts → s.closed.noEnd →
    let w := s.x rs2; let k := mailKey (destCore w) (destMbox w); let b := v.mailbox k
    let m : Message := { dest := w, sender := v.senderWord, data := data }
    destZeros w = true → s.closed.operand64 .load (s.x rs1) true = .ok (.ok (u, ls)) →
    s.closed.permits (clusterOf s.cur) (destChip w) (destCluster w) = true → destChip w = u.chip →
    u.former.contains (destCluster w) = false → u.read64 (s.x rs1) ls = .ok (v, data) → v.chip = u.chip ∧
    (v.sealed (destCore w) = false → b.msgs.length < 8 → b.senders = [] → exec (.msnd rd rs1 rs2) s =
      .next ((v.setMailbox k { b with msgs := b.msgs ++ [m] }).setX rd 1).goesOn) ∧
    (v.sealed (destCore w) = true → exec (.msnd rd rs1 rs2) s = .next ((v.sendError m).setX rd 2).goesOn) ∧
    (v.sealed (destCore w) = false → ¬ (b.msgs.length < 8 ∧ b.senders = []) →
      (destNb w = true → exec (.msnd rd rs1 rs2) s = .next (v.setX rd 0).goesOn) ∧
      (destNb w = false → exec (.msnd rd rs1 rs2) s =
        .next ((v.setMailbox k { b with senders := b.senders ++ [(.hart v.cur, m)] }).modMe fun x =>
          { x with waiting := some { instr := .msnd rd rs1 rs2, kind := .queued, reply := none } })))

/-- R329, R333, R334: `mrcv` with a message there and no receiver before it writes the oldest message's 64 bytes, answers
its sender word and gives the free slot to the head of the sender queue; with none it waits in the receiver queue.
`mpoll` answers the number of messages and takes none. A message of another chip arrives as `msnd` delivers, once for each
mark, and its outcome is kept with the mark (R404); a stopped partition takes none (R360). -/
def Obligations.MessagesAreReceivedInOrder : Prop :=
  ∀ (s u : State) (rd rs1 rs2 : Reg) (ls : List (Loc × Nat)),
    let k := mailKey (coreOf s.cur) (bits (s.x rs1) 0 2)
    (s.starts → s.closed.noEnd → s.closed.operand64 .store (s.x rs2) false = .ok (.ok (u, ls)) →
      (∀ m rest, (u.mailbox k).msgs = m :: rest → (u.mailbox k).receivers = [] → exec (.mrcv rd rs1 rs2) s =
        .next ((performUnits (grantSlots k 8 (u.setMailbox k { u.mailbox k with msgs := rest, receivers := [] }))
          (some s.cur) (u.partOf (clusterOf s.cur)) ls (leBytes 64 m.data.toNat)).setX rd m.sender).goesOn) ∧
      ((u.mailbox k).msgs = [] → (u.mailbox k).receivers.contains s.cur = false → exec (.mrcv rd rs1 rs2) s =
        .next ((u.setMailbox k { u.mailbox k with receivers := (u.mailbox k).receivers ++ [s.cur] }).modMe fun x =>
          { x with waiting := some { instr := .mrcv rd rs1 rs2, kind := .queued, reply := none } }))) ∧
    (s.me.waiting = none → exec (.mpoll rd rs1) s =
      .next (s.wrote rd (if s.sealed (coreOf s.cur) then 0 else wordOf (min 8 (s.mailbox k).msgs.length)))) ∧
    (∀ core mbox nb mark m, let k := mailKey core mbox; let b := s.mailbox k
      (s.refuses (clusterOfCore core) = true ∨ s.arrivedBefore core mark = true →
        exec (.messageArrive core mbox nb ⟨mark, m⟩) s = .next s) ∧
      (s.refuses (clusterOfCore core) = false → s.arrivedBefore core mark = false → s.sealed core = false →
        (b.msgs.length < 8 → b.senders = [] → exec (.messageArrive core mbox nb ⟨mark, m⟩) s =
          .next ((s.setMailbox k { b with msgs := b.msgs ++ [m] }).keepReply (clusterOfCore core) mark (.value 1))) ∧
        (b.msgs.length ≥ 8 → exec (.messageArrive core mbox true ⟨mark, m⟩) s =
            .next (s.keepReply (clusterOfCore core) mark (.value 0)) ∧
          exec (.messageArrive core mbox false ⟨mark, m⟩) s =
            .next (s.setMailbox k { b with senders := b.senders ++ [(.chip mark, m)] }))))

/-- R337: the checks of a gate operation in their order; the first that fails gives the subcode and the gate stays. -/
def Obligations.GateChecksComeInOrder : Prop :=
  ∀ (s : State) (r : GateRequest),
    (s.gate? r.handle = none → s.gateFault r = some (0x06, r.handle)) ∧
    (∀ g, s.gate? r.handle = some g →
      (∀ h, g.moved = some h → s.gateFault r = some (0x05, h)) ∧
      (g.moved = none → g.allows s.chip r = false → s.gateFault r = some (0x01, r.handle)) ∧
      (g.moved = none → g.allows s.chip r = true → g.opened = false → administers r.op = false →
        s.gateFault r = some (0x03, r.handle)) ∧
      (g.moved = none → g.allows s.chip r = true → g.opened = true → r.op = .gsig 0 →
        s.gateFault r = some (0x08, r.handle)) ∧
      (∀ a, g.moved = none → g.allows s.chip r = true → g.opened = true → r.op ≠ .gsig 0 →
        g.bucket s.chip r = some a → a.tokens = 0 → a.policy = true → s.gateFault r = some (0x02, r.handle)) ∧
      (∀ v, g.moved = none → g.allows s.chip r = true → g.opened = true → r.op = .gsig v → v ≠ 0 →
        (∀ a, g.bucket s.chip r = some a → a.tokens ≠ 0 ∨ a.policy = false) → g.frozen = true → 16 ≤ g.queue.length →
        s.gateFault r = some (0x04, r.handle))) ∧
    (∀ sub v, s.gateFault r = some (sub, v) → s.gateApply r = (s, some (.trap 30 sub v)))

/-- R337, R340, R342: a gate word on a gate of this chip that its owner uses, open, not frozen, with nothing stalled:
`gsig` adds, saturating, answers the sum and wakes the `gwait`s it meets; `gwait` whose threshold is met answers the
counter and otherwise joins the waiters; `gpay` replaces the payload and counts the sequence; `gtake` writes the payload
and answers the sequence; `gopen` and `gclose`, outside U mode, open and close. `gwait` and `gtake` keep the places of a
restored wait while they close the region, and leave those that are not their own gate's (R345). -/
def Obligations.GateWordsActAtTheirHome : Prop :=
  ∀ (s : State) (rd rs1 rs2 : Reg) (g : Gate) (n : Nat), s.starts →
    let c := s.closed; let c' := s.closeRegion s.cur 0 s.me.epc false; let me := s.me.task.getD 0
    let own := fun (t : State) => gateChip (s.x rs1) = t.chip ∧ gateNum (s.x rs1) = n ∧ t.gate? (s.x rs1) = some g ∧
      g.moved = none ∧ g.owner = t.partNum (clusterOf s.cur) ∧ g.frozen = false ∧ g.stalled = []
    (own c → c.noEnd → g.opened = true → s.x rs2 ≠ 0 → exec (.gsig rd rs1 rs2) s =
      .next (((c.setGate n { g with counter := addSat g.counter (s.x rs2) }).wakeGate n).setX rd
        (addSat g.counter (s.x rs2))).goesOn) ∧
    (own c' → c'.noEnd → g.opened = true →
      (s.x rs2 ≤ g.counter → exec (.gwait rd rs1 rs2) s =
        .next ((c'.dropPlaces me).setX rd g.counter).goesOn) ∧
      (g.counter < s.x rs2 → ∃ t r, exec (.gwait rd rs1 rs2) s = .next t ∧ r.op = .gwait (s.x rs2) ∧ r.hart = some s.cur ∧
        t.gates = ((c'.setGate n { g with waiters := joinWaiters c'.chip r g.waiters }).dropPlaces me).gates ∧ t.me.pc = s.me.pc ∧
        t.me.waiting = some { instr := .gwait rd rs1 rs2, kind := .queued, reply := none })) ∧
    (∀ u bs, own u → c.noEnd → g.opened = true → c.load (s.x rs2) 64 64 = .ok (u, bs) → exec (.gpay rd rs1 rs2) s =
      .next ((u.setGate n { g with payload := BitVec.ofNat 512 (leNat bs), paySeq := g.paySeq + 1 }).setX rd
        (g.paySeq + 1)).goesOn) ∧
    (∀ u ls, own u → c'.noEnd → g.opened = true → c'.operand64 .store (s.x rs2) false = .ok (.ok (u, ls)) →
      exec (.gtake rd rs1 rs2) s =
        .next ((performUnits ((u.setGate n { g with waiters := g.waiters.filter fun q =>
            !(isPlace u.chip q && q.task == me) }).dropPlaces me)
          (some s.cur) (u.partOf (clusterOf s.cur)) ls (leBytes 64 g.payload.toNat)).setX rd g.paySeq).goesOn) ∧
    (own c → c.noEnd → s.me.mode ≠ Mode.u →
      exec (.gopen rs1) s = .next (c.setGate n { g with opened := true }).complete ∧
      (g.opened = true → g.waiters = [] → exec (.gclose rs1) s =
        .next (c.setGate n { g with opened := false, waiters := [], stalled := [] }).complete)) ∧
    (s.me.mode = Mode.u → exec (.gopen rs1) s = .next (s.takeTrap s.cur false 2 0 (wordOfInstr (.gopen rs1))) ∧
      exec (.gclose rs1) s = .next (s.takeTrap s.cur false 2 0 (wordOfInstr (.gclose rs1))))

/-- R338, R340, R404: `gateTokenAccrue`: a token accrues up to the burst and what stalled is applied again in order.
`gateRequestArrive`: a request of another chip that passes the checks has the effect of its instruction at the gate, takes a token where an access entry limits it, and its
reply is kept with its mark: a `gsig` adds and wakes, a `gwait` whose threshold is met is answered, a `gpay` replaces the
payload, a `gtake` is given it. One that fails a check is answered with its trap, and the same mark a second time changes
nothing. -/
def Obligations.GateEventsApplyOnce : Prop :=
  (∀ (s : State) (n i : Nat) (g : Gate) (a : Access), s.gates.find n = some g → g.access[i]? = some a →
    (exec (.gateTokenAccrue n i) s = .next (reapply g.stalled (s.setGate n
      { g with access := g.access.set i { a with tokens := min a.burst (a.tokens + 1) }, stalled := [] })) ∧
    (g.stalled = [] → ∃ t, exec (.gateTokenAccrue n i) s = .next t ∧ t.harts = s.harts ∧ t.mem = s.mem ∧
      t.gates.find n = some { g with access := g.access.set i { a with tokens := min a.burst (a.tokens + 1) } }))) ∧
  (∀ (s : State) (r : GateRequest) (g : Gate), let n := gateNum r.handle; let q := { r with hart := none }
    let next := fun (u : State) (y : Reply) => exec (.gateRequestArrive r) s =
      .next { u with gateMarks := u.gateMarks.put r.mark.who.toNat { mark := r.mark, reply := y } }
    let h := g.takeToken s.chip q
    (∀ m, s.gateMarks.find r.mark.who.toNat = some m → m.mark ≠ r.mark) → s.gate? r.handle = some g →
    ((g.waiters ++ g.stalled).any fun p => p.hart.isNone && p.mark == r.mark) = false →
    (∀ sub v, s.gateFault q = some (sub, v) → next s (.trap 30 sub v)) ∧
    (s.gateFault q = none → g.frozen = false → (∀ a, g.bucket s.chip q = some a → a.tokens ≠ 0) →
      (∀ v, r.op = .gsig v →
        next ((s.setGate n { h with counter := addSat h.counter v }).wakeGate n) (.value (addSat h.counter v))) ∧
      (∀ v, r.op = .gwait v → v ≤ g.counter → next s (.value g.counter)) ∧
      (∀ v, r.op = .gwait v → g.counter < v → exec (.gateRequestArrive r) s =
        .next (s.setGate n { g with waiters := joinWaiters s.chip q g.waiters })) ∧
      (∀ d, r.op = .gpay d →
        next (s.setGate n { h with payload := d, paySeq := h.paySeq + 1 }) (.value (h.paySeq + 1))) ∧
      (r.op = .gtake → next (s.setGate n { g with waiters := g.waiters.filter fun p => !(isPlace s.chip p && p.task == r.task) })
        (.payload g.paySeq g.payload)))) ∧
  (∀ (s : State) (r : GateRequest) (m : MarkRec), s.gateMarks.find r.mark.who.toNat = some m → m.mark = r.mark →
    exec (.gateRequestArrive r) s = .next s) ∧
  (∀ (s : State) (r : GateRequest), s.gateMarks.find r.mark.who.toNat = none → s.gate? r.handle = none →
    let kept : MarkRec := { mark := r.mark, reply := .trap 30 0x06 r.handle }
    exec (.gateRequestArrive r) s = .next { s with gateMarks := s.gateMarks.put r.mark.who.toNat kept })

/-! ### Tasks and futures -/

/-- R175, R180, R155, R172: `spawn` and `promise` of a task. `spawn` reads its descriptor, allocates a pending future whose
parent is the issuer and hands the child, with a0 = x[rs2] and the spawner's lifted ids, to the engine of its cluster; x[rd]
is the handle. `promise` allocates a future without a task. A descriptor that fails a check of R36 traps, cause 48, with
its address; no task, cause 2. -/
def Obligations.SpawnAndPromiseAllocateTheFuture : Prop :=
  ∀ (s u v : State) (rd rs1 rs2 : Reg) (bs : List Byte) (me h : Word) (t : Task), s.starts → s.closed.noEnd →
    let c := s.closed; let k := clusterOf s.cur
    (c.me.task = some me → c.myTask = some t →
      (c.load (s.x rs1) 128 64 = .ok (u, bs) →
        (descFault (u.partClusters (u.partOf k)) k bs = none →
          u.allocFuture k (futureFor (some (descOf bs)) me t.launch) = some (v, h) →
          v.taskRoom (v.chooseCluster k (descOf bs)) = true → exec (.spawn rd rs1 rs2) s =
            .next (((v.setTask h (newTask (descOf bs) (s.x rs2) 0 t.launch me t.lid t.lcnt
              (v.chooseCluster k (descOf bs)) false .any v.serial)).post (.taskIntake h)).setX rd h).goesOn) ∧
        (∀ sub, descFault (u.partClusters (u.partOf k)) k bs = some sub →
          exec (.spawn rd rs1 rs2) s = .next (c.takeTrap c.cur false 48 sub (s.x rs1)))) ∧
      (c.allocFuture k (futureFor none 0 t.launch) = some (v, h) →
        exec (.promise rd) s = .next (v.setX rd h).goesOn)) ∧
    (s.me.task = none → exec (.spawn rd rs1 rs2) s = .next (c.takeTrap c.cur false 2 0 (wordOfInstr (.spawn rd rs1 rs2))) ∧
      exec (.promise rd) s = .next (c.takeTrap c.cur false 2 0 (wordOfInstr (.promise rd))))

/-- R149, R174: the checks of a handle in their order, and the trap of the first that fails: null, tag or crc, permission,
the issuer's own `tself` where it may not be named, and a handle that its home does not know. -/
def Obligations.HandlesAreCheckedInOrder : Prop :=
  ∀ (s : State) (rd rs1 rs2 : Reg) (h : Word), s.starts → s.closed.noEnd → s.x rs1 = h →
    let c := s.closed; let k := clusterOf s.cur
    let all := fun (cause sub : Nat) =>
      exec (.tpoll rd rs1) s = .next (s.takeTrap s.cur false cause sub h) ∧
      (∀ i, i = Instr.touch rd rs1 ∨ i = .resolve rd rs1 rs2 ∨ i = .cancel rd rs1 ∨ i = .poison rd rs1 rs2 ∨ i = .frel rs1 →
        exec i s = .next (c.takeTrap c.cur false cause sub h))
    (h = 0 → all 48 0x02) ∧
    (h ≠ 0 → handleSane h = false → all 48 0x01) ∧
    (h ≠ 0 → handleSane h = true → s.permits k (handleChip h) (handleCluster h) = false → all 51 0) ∧
    (c.checkHandle k h = .ok () → s.me.task = some h → ∀ i, i = Instr.touch rd rs1 ∨ i = .resolve rd rs1 rs2 ∨ i = .frel rs1 →
      exec i s = .next (c.takeTrap c.cur false 48 0x03 h)) ∧
    (c.checkHandle k h = .ok () → s.me.task ≠ some h → c.isHere h = true → c.fut? h = none → c.findSpill h = none →
      ∀ i, i = Instr.touch rd rs1 ∨ i = .resolve rd rs1 rs2 ∨ i = .cancel rd rs1 ∨ i = .poison rd rs1 rs2 ∨ i = .frel rs1 →
      exec i s = .next (c.takeTrap c.cur false 48 0x04 h))

/-- R173, R177 to R179: `touch` of a resolved future of this chip writes its value, and of a cancelled or faulted one traps,
cause 24; of any other it parks a task in U mode, with its waiter record, and in S and M mode waits. `tpoll` answers the
status word. `tany` answers the lowest index whose future is terminal. -/
def Obligations.TouchEndsByTheOutcome : Prop :=
  ∀ (s : State) (rd rs1 rs2 : Reg) (h : Word) (f : Future), s.starts → s.closed.noEnd → s.x rs1 = h →
    let c := s.closed; let k := clusterOf s.cur; let me := s.me.task.getD 0
    (c.checkHandle k h = .ok () → s.me.task ≠ some h → c.isHere h = true → c.fut? h = some f →
      (f.state = 3 → exec (.touch rd rs1) s =
        .next ((c.completeTouch me h (c.seenVerdict f.launch f.verdict.toNat) false (some f.launch)).setX rd f.value).goesOn) ∧
      (f.state = 4 → exec (.touch rd rs1) s = .next (c.takeTrap c.cur false 24 0x01 0)) ∧
      (f.state = 5 → exec (.touch rd rs1) s =
        .next (c.takeTrap c.cur false 24 (if f.value.getLsbD 16 then 0x03 else 0x02) f.value)) ∧
      (∀ t w, f.state < 3 → s.me.mode = Mode.u → s.me.task = some w → c.addWaiter h w false 0 (c.eprio w) = some t →
        exec (.touch rd rs1) s = .next (t.park (.touch rd rs1) [h])) ∧
      (f.state < 3 → s.me.mode ≠ Mode.u → exec (.touch rd rs1) s = .next (c.modMe fun x =>
        { x with waiting := some { instr := .touch rd rs1, kind := .long, reply := none } }))) ∧
    (s.checkHandle k h = .ok () → s.isHere h = true → s.fut? h = some f →
      exec (.tpoll rd rs1) s = .next (s.wrote rd (s.statusOf h f))) ∧
    (∀ u hs i v vd, c.tanyHandles rs1 rs2 = .ok (u, hs) → (∀ w ∈ hs, w ≠ 0 → u.isHere w = true) →
      (u.entryOutcomes hs [])[i]? = some (some (3, v, vd)) → (∀ j < i, (u.entryOutcomes hs [])[j]? = some none) →
      exec (.tany rd rs1 rs2) s = .next (((u.raiseVerdict me vd).takesFrom me (u.sourceOf (hs.getD i 0))).setX rd (wordOf i)).goesOn)

/-- R150, R153, R161: what a terminal transition leaves: the state and value given, the verdict stamped where the future is
resolved and as it stood otherwise, and no waiter record. A touch of another chip completes with the transition itself, and
may then free a touch-once future (R152, log 32). A terminal state changes no more (R166). -/
def Obligations.TerminalFuturesHoldTheirOutcome : Prop :=
  ∀ (s : State) (h : Word) (f : Future) (st vd : Nat) (v : Word), s.fut? h = some f → 3 ≤ st →
    (s.makeTerminal h st v vd).waitersOf h = [] ∧
    (f.once = false ∨ st ≠ 3 ∨ (∀ w ∈ s.waitersOf h, w.any = true ∨ s.isHere w.task = true) →
      ∃ g, (s.makeTerminal h st v vd).fut? h = some g ∧ g.state = st ∧ g.value = v ∧
        g.verdict = (if st = 3 then BitVec.ofNat 2 vd else f.verdict) ∧ g.gen = f.gen) ∧
    (3 ≤ f.state → ∀ v' w, s.homeApply h (.resolve v' w) = (s, some (if f.hasTask then .trap 48 0x06 h else .value 0)) ∧
      s.homeApply h .cancel = (s, some (.value 0)) ∧ s.homeApply h (.poison v') = (s, some (.value 0)))

/-- R181, R182, R185, on a future of this chip that is not the issuer's own: `resolve` of a pending promise gives it the
value and stamps the resolver's verdict, `cancel` and `poison` of a pending or running future end it, and each answers 1;
of a terminal one they change nothing and answer 0. `resolve` of a future with a task traps 48, 0x06; `frel` frees a
terminal future and traps 48, 0x07 on any other. A request of another chip with a mark seen before is not applied again
(R404). -/
def Obligations.FuturesEndByTheFirstOperation : Prop :=
  ∀ (s : State) (rd rs1 rs2 : Reg) (h : Word) (f : Future), s.starts → s.closed.noEnd → s.x rs1 = h →
    let c := s.closed; let k := clusterOf s.cur
    (c.checkHandle k h = .ok () → s.me.task ≠ some h → c.isHere h = true → c.fut? h = some f →
      (f.hasTask = false → f.state < 3 → exec (.resolve rd rs1 rs2) s =
        .next ((c.makeTerminal h 3 (s.x rs2) c.myVerdict).setX rd 1).goesOn) ∧
      (f.hasTask = true → exec (.resolve rd rs1 rs2) s = .next (c.takeTrap c.cur false 48 0x06 h)) ∧
      (f.state < 3 → exec (.cancel rd rs1) s = .next ((c.endOne h .cancelled).setX rd 1).goesOn ∧
        exec (.poison rd rs1 rs2) s =
          .next ((c.endOne h (.faulted (poisonWord (s.x rs2).toNat k))).setX rd 1).goesOn ∧
        exec (.frel rs1) s = .next (c.takeTrap c.cur false 48 0x07 h)) ∧
      (3 ≤ f.state → (f.hasTask = false → exec (.resolve rd rs1 rs2) s = .next (c.setX rd 0).goesOn) ∧
        exec (.cancel rd rs1) s = .next (c.setX rd 0).goesOn ∧ exec (.poison rd rs1 rs2) s = .next (c.setX rd 0).goesOn ∧
        exec (.frel rs1) s = .next (c.freeFut h f).goesOn)) ∧
    (∀ (r : HomeRequest) (m : MarkRec), (s.cluster (s.homeOf r.handle)).marks.find r.mark.who.toNat = some m →
      m.mark = r.mark → exec (.homeRequestArrive r) s = .next s) ∧
    (∀ (r : HomeRequest), (s.cluster (s.homeOf r.handle)).marks.find r.mark.who.toNat = none →
      s.refuses (s.homeOf r.handle) = false → (∀ q ∈ (s.cluster (s.homeOf r.handle)).heldRemote, q.mark ≠ r.mark) →
      exec (.homeRequestArrive r) s = .next (s.applyRequest (s.homeOf r.handle) r))

/-- R183, R184, R172: `texit` of a task whose operations are complete resolves its future, releases its tiles and frees the
hart; `tyield` checkpoints after itself, puts the task at the tail of its ready queue and frees the hart. Neither goes on
at the next word here; outside U mode both are illegal. -/
def Obligations.ExitAndYieldLeaveTheHart : Prop :=
  ∀ (s : State) (rs1 : Reg) (me : Word) (t : Task), s.starts → s.closed.noEnd →
    let c := s.closed
    (s.me.mode = Mode.u → c.me.task = some me → c.myTask = some t →
      (s.opFaultAt (fun _ => true) = .ok () → c.opFaultAt (fun _ => true) = .ok () → c.opsDone me t = true →
        exec (.texit rs1) s = .next ((c.exitTask me (s.x rs1)).retireOn s.cur) ∧
        ((c.exitTask me (s.x rs1)).retireOn s.cur).me.task = none) ∧
      (exec .tyield s = .next ((((c.checkpoint s.cur (s.me.pc + 4)).setAside s.cur .ready).makeReady me).retireOn s.cur) ∧
        ((((c.checkpoint s.cur (s.me.pc + 4)).setAside s.cur .ready).makeReady me).retireOn s.cur).me.task = none)) ∧
    (s.me.mode ≠ Mode.u →
      exec .tyield s = .next (s.takeTrap s.cur false 2 0 (wordOfInstr .tyield)) ∧
      exec (.texit rs1) s = .next (s.takeTrap s.cur false 2 0 (wordOfInstr (.texit rs1))))

/-! ### Stages and copies -/

/-- R193 to R195: what arming, arrivals and hoists do to a stage of the table. Arming sets the target and the arm; where the
count equals it the hoist is due, and takes place at once with no pin, or when the last pin goes; then too a `hoist` that
waited takes place. A hoist inverts the half, raises the generation by
one and clears count and arm. A beat of 64 bytes is written to the shadow half and counted, and an over-arrival is refused
with 31, 0x04. -/
def Obligations.StagesCountAndHoist : Prop :=
  (∀ (s : State) (c n : Nat) (v : BitVec 32), let t := s.stage c n; let u := (s.armStage c n v).stage c n
    (t.count ≠ v → u = { t with target := v, armed := true }) ∧
    (t.count = v → t.pins ≠ 0 → u = { t with target := v, armed := true, due := true }) ∧
    (t.count = v → t.pins = 0 → u = { t with
      target := v, armed := false, due := false, prefetch := false, cur := !t.cur, gen := t.gen + 1, count := 0 })) ∧
  (∀ (s : State) (c n : Nat), (s.stage c n).due = true → let t := s.stage c n; let u := (s.releasePin c n).stage c n
    (t.pins = 1 → t.hoisters = [] → u = { t with
      pins := 0, armed := false, due := false, prefetch := false, cur := !t.cur, gen := t.gen + 1, count := 0 }) ∧
    (2 ≤ t.pins → u = { t with pins := t.pins - 1 })) ∧
  (∀ (s : State) (c n h : Nat), let t := s.stage c n
    t.due = false → t.pins = 1 → t.lifts = 0 → t.hoisters = [h] →
    (s.releasePin c n).stage c n = { t with
      pins := 0, armed := false, due := false, prefetch := false, cur := !t.cur, gen := t.gen + 1, count := 0, hoisters := [] }) ∧
  (∀ (s : State) (c n off : Nat) (bs : List Byte), let t := s.stage c n
    t.defined = true → off + 64 ≤ t.size → t.lifts = 0 →
    (t.armed = true → t.target.toNat < t.count.toNat + 64 → s.arrive c n off bs = .error (31, 0x04)) ∧
    (t.armed = false → ∃ u, s.arrive c n off bs = .ok u ∧
      (u.stage c n).count = BitVec.ofNat 32 (min (t.count.toNat + 64) (2 ^ 32 - 1)) ∧ (u.stage c n).gen = t.gen ∧
      (bs.length = 64 → s.MemOk → (∀ i, i < 64 → u.byte (t.shadow c off + i) = bs.getD i 0) ∧
        ∀ a, a < t.shadow c off ∨ t.shadow c off + 64 ≤ a → u.byte a = s.byte a)))

/-- R196, R206 to R211: the stage words of a hart on the table of its cluster, where they act and where they wait; a stage
that is not defined traps, cause 31, subcode 0x01, with x[rs1]. `stgen` never traps. -/
def Obligations.StageWordsActOnTheTable : Prop :=
  ∀ (s : State) (rd rs1 rs2 : Reg), s.starts →
    let c := s.closed; let k := clusterOf s.cur; let n := bits (s.x rs1) 0 6; let t := c.stage k n; let g := s.x rs2
    (c.noEnd → badGeometry g = false → t.lifts = 0 → c.stageBusy k n = false → c.stwaiter k n = false →
      (bits g 32 32 = 0 → exec (.stdef rs1 rs2) s = .next (c.setStage k n (newStage 0 0)).goesOn) ∧
      (bits g 32 32 ≠ 0 → ((c.cluster k).stages.any fun e => e.1 != n && e.2.defined &&
          overlaps (bits g 0 22) (2 * bits g 32 32) e.2.base (2 * e.2.size)) = false →
        exec (.stdef rs1 rs2) s = .next (c.setStage k n (newStage (bits g 32 32) (bits g 0 22))).goesOn)) ∧
    (c.noEnd → t.defined = true → t.lifts = 0 →
      (t.armed = false → t.prefetch = false → g ≠ 0 → g.toNat % 64 = 0 → g.toNat ≤ t.size → t.count.toNat ≤ g.toNat →
        exec (.starm rd rs1 rs2) s = .next ((c.setX rd (t.gen.setWidth 64)).armStage k n (g.setWidth 32)).goesOn) ∧
      (t.armed = true ∨ t.prefetch = true → exec (.starm rd rs1 rs2) s = .next (c.modMe fun x =>
        { x with waiting := some { instr := .starm rd rs1 rs2, kind := .long, reply := none } })) ∧
      (t.pins = 0 → exec (.hoist rd rs1) s = .next (((c.modStage k n fun t =>
        { t.hoist with hoisters := t.hoisters.erase s.cur }).retryPrefetches k).setX rd ((t.gen + 1).setWidth 64)).goesOn) ∧
      (0 < t.pins → exec (.hoist rd rs1) s = .next ((c.modStage k n fun t =>
        { t with hoisters := if t.hoisters.contains s.cur then t.hoisters else t.hoisters ++ [s.cur] }).modMe fun x =>
        { x with waiting := some { instr := .hoist rd rs1, kind := .queued, reply := none } }))) ∧
    (∀ v, s.noEnd → s.me.waiting = some { instr := .hoist rd rs1, kind := .queued, reply := some (.value v) } →
      exec (.hoist rd rs1) s = .next (s.setX rd v).goesOn) ∧
    (c.noEnd → t.defined = false → exec (.starm rd rs1 rs2) s = .next (c.takeTrap c.cur false 31 0x01 (s.x rs1)) ∧
      exec (.hoist rd rs1) s = .next (c.takeTrap c.cur false 31 0x01 (s.x rs1))) ∧
    ((s.stage k n).defined = true → (s.stage k n).gen ≠ g.setWidth 16 →
      exec (.stwait rd rs1 rs2) s = .next (s.wrote rd ((s.stage k n).gen.setWidth 64))) ∧
    ((s.stage k n).defined = true → (s.stage k n).gen = g.setWidth 16 → s.noEnd →
      exec (.stwait rd rs1 rs2) s = .next (s.modMe fun x =>
        { x with waiting := some { instr := .stwait rd rs1 rs2, kind := .long, reply := none } })) ∧
    ((s.stage k n).defined = false → exec (.stwait rd rs1 rs2) s = .next (s.takeTrap s.cur false 31 0x01 (s.x rs1))) ∧
    (exec (.stgen rd rs1) s =
      .next (s.wrote rd (if (s.x rs1).getLsbD 8 then (s.stage k n).word1 else (s.stage k n).word0)))

/-- R188, R189, R212 to R215: a copy word whose checks pass queues its command in a free slot and answers its ticket: valid,
the slot's sequence, one higher than before, and the slot's number. The first check that fails traps at issue, cause 50
with the copy word: 0x06 the fields and windows, 0x02 the address. -/
def Obligations.CopiesAreQueuedWithATicket : Prop :=
  (∀ (s u : State) (rd rs1 rs2 : Reg) (i : Instr) (k : CopyKind) (ds : List Nat) (n : Nat), s.starts → s.closed.noEnd →
    i = .cpyin rd rs1 rs2 ∧ k = .cpyin ∨ i = .cpyout rd rs1 rs2 ∧ k = .cpyout ∨ i = .cpyx rd rs1 rs2 ∧ k = .cpyx ∨
      i = .cpybc rd rs1 rs2 ∧ k = .broadcast →
    let c := s.closed; let cl := clusterOf s.cur; let a := s.x rs1; let w := s.x rs2
    (badFields k w = true ∨ badWindow k a = true → exec i s = .next (c.takeTrap c.cur false 50 0x06 w)) ∧
    (badFields k w = false → badWindow k a = false →
      (canonicalRange a (copyLen w * 64) = false ∨ a.toNat % 64 ≠ 0 → exec i s = .next (c.takeTrap c.cur false 50 0x02 w)) ∧
      (canonicalRange a (copyLen w * 64) = true → a.toNat % 64 = 0 →
        (c.copyTargets cl k w = none → exec i s = .next (c.takeTrap c.cur false 50 0x01 w)) ∧
        (c.copyTargets cl k w = some ds → ds.any c.former.contains = false →
          (∀ sub, c.copyStageFault cl k w a (copyLen w * 64) = some sub → exec i s = .next (c.takeTrap c.cur false 31 sub w)) ∧
          (c.copyStageFault cl k w a (copyLen w * 64) = none →
            (localDest c cl k w && (c.stage cl (copyStage w)).prefetch && !(freeSlots (c.cluster cl)).isEmpty) = false →
            c.allocSlot cl (c.copyCommand k w a [] ds (copyLen w * 64)) = some (u, n) →
            exec i s = .next (u.setX rd ((u.slot cl n).ticket n)).goesOn))))) ∧
  (∀ (s u v : State) (rd rs1 rs2 : Reg) (bs : List Byte) (l : List (Word × Nat)) (n : Nat), s.starts → s.closed.noEnd →
    let c := s.closed; let cl := clusterOf s.cur; let a := s.x rs1; let w := s.x rs2
    badFields .gather w = false → badWindow .gather a = false → canonicalRange a (copyLen w * 16) = true → a.toNat % 16 = 0 →
    c.load a (copyLen w * 16) 16 = .ok (u, bs) → gatherList (gatherEntries (copyLen w) bs) = .ok l →
    u.copyStageFault cl .gather w a (sumLens l) = none →
    ((u.stage cl (copyStage w)).prefetch && !(freeSlots (u.cluster cl)).isEmpty) = false →
    u.allocSlot cl (u.copyCommand .gather w a l [] (sumLens l)) = some (v, n) →
    exec (.cpygath rd rs1 rs2) s = .next (v.setX rd ((v.slot cl n).ticket n)).goesOn) ∧
  (∀ (s u : State) (c n : Nat) (x : CopySlot), s.allocSlot c x = some (u, n) →
    (s.slot c n).isFree = true ∧ u.slot c n = { x with seq := (s.slot c n).seq + 1, state := 1 } ∧
    (u.cluster c).copyQueue = (s.cluster c).copyQueue ++ [n] ∧ n < 256 ∧ bits ((u.slot c n).ticket n) 31 1 = 1 ∧
    bits ((u.slot c n).ticket n) 8 16 = ((s.slot c n).seq + 1).toNat ∧ bits ((u.slot c n).ticket n) 0 8 = n)

/-- R190, R198, R216, R217: what follows a command by its ticket. `cpwait` answers the status of one that is done or was
reclaimed, waits on one that is queued, active or held, and of a faulted one frees the slot and traps with its cause;
`cpqry` answers the status word at once; `cpcan` cancels an unfinished command and answers 1, else 0. -/
def Obligations.TicketsFollowTheirCommand : Prop :=
  ∀ (s : State) (rd rs1 : Reg), s.starts →
    let k := clusterOf s.cur; let w := s.x rs1
    (s.ticket w = .ok none → exec (.cpwait rd rs1) s = .next (s.wrote rd 4) ∧ exec (.cpqry rd rs1) s = .next (s.wrote rd 4)) ∧
    (∀ n, s.ticket w = .ok (some n) → let x := s.slot k n
      (x.state = 4 → exec (.cpwait rd rs1) s = .next (s.wrote rd x.status) ∧
        exec (.cpqry rd rs1) s = .next (s.wrote rd x.status)) ∧
      (x.state = 1 ∨ x.state = 2 ∨ x.state = 3 → exec (.cpqry rd rs1) s = .next (s.wrote rd x.status) ∧
        (s.noEnd → exec (.cpwait rd rs1) s = .next (s.modMe fun y =>
          { y with waiting := some { instr := .cpwait rd rs1, kind := .long, reply := none } }))) ∧
      (x.state = 5 → exec (.cpwait rd rs1) s = .next ((s.freeSlot k n).takeTrap s.cur false x.cause x.sub w)) ∧
      (x.state = 5 ∨ x.state = 6 → exec (.cpqry rd rs1) s = .next ((s.freeSlot k n).setX rd x.status).complete)) ∧
    (s.closed.noEnd → (s.closed.ticket w = .ok none → exec (.cpcan rd rs1) s = .next (s.closed.setX rd 0).goesOn) ∧
      (∀ n, s.closed.ticket w = .ok (some n) →
        ((s.closed.slot k n).unfinished = true →
          exec (.cpcan rd rs1) s = .next ((s.closed.stopSlot k n 6).setX rd 1).goesOn) ∧
        ((s.closed.slot k n).state = 4 → exec (.cpcan rd rs1) s = .next (s.closed.setX rd 0).goesOn))) ∧
    (w.getLsbD 31 = false → exec (.cpwait rd rs1) s = .next (s.takeTrap s.cur false 50 0x07 w) ∧
      exec (.cpqry rd rs1) s = .next (s.takeTrap s.cur false 50 0x07 w))

/-- R188, R190, R193, R200: an idle channel takes the oldest queued command; a beat of an active command whose source and
destination go through moves 64 bytes, counts them in `done`, and the last beat completes the command and frees its slot. An
engine that stands still reads no beat. A beat of another chip is written to the shadow half of its stage and answered, or
refused while its partition is stopped (R360); the answer lets a command whose beat left go on. -/
def Obligations.CopyEngineMovesBeats : Prop :=
  (∀ (s : State) (c n : Nat) (r : List Nat), (s.cluster c).copyQueue = n :: r → (s.cluster c).channels.length < 16 →
    s.still c = false → ((s.slot c n).kind = .fetch → s.halting c = false) → ∃ t, exec (.copyChannelStart c) s = .next t ∧ (t.cluster c).copyQueue = r ∧
      (t.cluster c).channels = (s.cluster c).channels ++ [n] ∧ t.slot c n = { s.slot c n with state := 2 } ∧
      t.mem = s.mem ∧ t.harts = s.harts ∧ t.pending = s.pending ++ [.copyBeatWrite c (.own n), .copyChannelStart c]) ∧
  (∀ (s u v : State) (c n : Nat) (bs : List Byte), let x := s.slot c n
    x.state = 2 → x.out = false → s.still c = false → (x.kind = .fetch → s.halting c = false) →
    (x.kind = .gather → x.gather ≠ []) → x.leaves s.chip = false → s.readBeat c x = (u, .ok bs) →
    u.writeBeat c x bs = (v, .ok ()) → let y := v.slot c n; let w := v.setSlot c n { y with done := y.done + 64 }
    (y.state = 2 → y.done + 64 < y.total → exec (.copyBeatWrite c (.own n)) s = .next (w.post (.copyBeatWrite c (.own n)))) ∧
    (y.state = 2 → y.total ≤ y.done + 64 → exec (.copyBeatWrite c (.own n)) s = .next (w.copyDone c n))) ∧
  (∀ (s : State) (c n : Nat), (s.slot c n).state ≠ 2 ∨ (s.slot c n).out = true ∨ s.still c = true →
    exec (.copyBeatWrite c (.own n)) s = .next s) ∧
  (∀ (s : State) (f : Word) (c n off : Nat) (data : BitVec 512),
    let answered := fun (u : State) o => exec (.copyBeatWrite c (.arrival f n off data)) s =
      .next { u.sendFlit c with departed := u.departed ++ [.answer f o] }
    (s.refuses c = true → answered s .stopped) ∧
    (s.refuses c = false → (∀ u, s.arrive c n off (leBytes 64 data.toNat) = .ok u → answered u .written) ∧
      ∀ a b, s.arrive c n off (leBytes 64 data.toNat) = .error (a, b) → answered s (.fault a b))) ∧
  (∀ (s : State) (c n : Nat) (q : BitVec 16), let x := s.slot c n; let u := s.setSlot c n { x with out := false }
    (x.out = true → x.seq = q → exec (.copyBeatWrite c (.answered n q .written)) s = .next (u.beatDone c n) ∧
      exec (.copyBeatWrite c (.answered n q .stopped)) s = .next (u.post (.copyBeatWrite c (.own n)))) ∧
    (x.out = false ∨ x.seq ≠ q → ∀ o, exec (.copyBeatWrite c (.answered n q o)) s = .next s))
/-- R281 to R298: the row words that write a row of a tile. Where the word may execute and its tags fit, the destination row
(td, or the prefix's) takes at every active element the code that the word computes from the same elements of its source
rows, rounded once into the tag, and the status word of the destination takes the flags; inactive elements are kept or
zeroed. A tile number not below the tile count traps, 28, 0x01, and tags that do not fit, 28, 0x04, with the word. -/
def Obligations.RowWordsWriteTheirElements : Prop :=
  ∀ (s u : State) (td ta tb : TileReg) (rs xr : Reg) (us : List Tup) (i : Instr),
    let d := s.rowTd td; let r := s.rowIdx xr; let m := s.mods; let l₀ := s.tileLay d; let v := s.x rs
    let out := fun (l : Lay) (z : Bool) (j : Nat) (x : NumF) => l.rounded s.rm z (s.freshBase + j) x
    (s.rowReady [ta, tb] (.rows d) us u → s.sameTags [d, ta, tb] = true →
      (∀ (f : Machine.Num → Machine.Num → NumF) (z : Bool),
        l₀.isFloat = true ∧ (i = .vadd td ta tb xr ∧ f = (fun a b => a.add s.rm b) ∧ z = m.fzo ∨
          i = .vsub td ta tb xr ∧ f = (fun a b => a.add s.rm b.neg) ∧ z = m.fzo ∨
          i = .vmul td ta tb xr ∧ f = Machine.Num.mul ∧ z = m.fzo ∨ i = .vdiv td ta tb xr ∧ f = Machine.Num.div ∧ z = m.fzo ∨
          i = .vmin td ta tb xr ∧ f = Machine.Num.pick false ∧ z = false ∨ i = .vmax td ta tb xr ∧ f = Machine.Num.pick true ∧ z = false) ∨
        l₀.isInt = true ∧ z = m.fzo ∧ (i = .viadd td ta tb xr ∧ f = (fun a b => a.add 0 b) ∨
          i = .visub td ta tb xr ∧ f = (fun a b => a.add 0 b.neg) ∨ i = .vimul td ta tb xr ∧ f = Machine.Num.mul) →
        exec i s = .next (u.rowResult d r us fun t w l j =>
          out l z j (f (l.elem m.fzi (t.row ta w r) j) (l.elem m.fzi (t.row tb w r) j)))) ∧
      (∀ op, l₀.isInt = true → i = .vand td ta tb xr ∧ op = .and ∨ i = .vor td ta tb xr ∧ op = .or ∨
        i = .vxor td ta tb xr ∧ op = .xor ∨ i = .vshl td ta tb xr ∧ op = .shl ∨ i = .vsrl td ta tb xr ∧ op = .srl ∨
        i = .vsra td ta tb xr ∧ op = .sra ∨ i = .vimin td ta tb xr ∧ op = .min ∨ i = .vimax td ta tb xr ∧ op = .max →
        exec i s = .next (u.rowResult d r us fun t w l j =>
          (l.f.codeOp op (l.code (t.row ta w r) j) (l.code (t.row tb w r) j), 0))) ∧
      (l₀.isBlock = false → exec (.vsel td ta tb xr) s = .next ((us.foldl (fun t w =>
        let l := t.tileLay d
        t.setRow d w r (mapElems l (fun _ => true) false (fun j =>
          (if t.active w l.count j then l.code (t.row ta w r) j else l.code (t.row tb w r) j, 0)) (t.row d w r)).1 0)
        u).rowEnd))) ∧
    (s.rowReady [ta, tb] (.rows d) us u → s.sameTags [d, ta] = true → l₀.isBlock = false → (s.tileLay tb).isInt = true →
      l₀.count ≤ (s.tileLay tb).count → exec (.vperm td ta tb xr) s = .next (u.rowResult d r us fun t w l j =>
        match (t.tileLay tb).f.decode ((t.tileLay tb).code (t.row tb w r) j) with
        | .fin neg n _ => (if n = 0 ∨ (!neg ∧ n < l.count) then l.code (t.row ta w r) n else 0, 0)
        | _ => (0, 0))) ∧
    (let c := if m.t4 = 0 then (d, r) else (m.t4, s.rowIdx m.x4);
      s.rowReady [ta, tb, c.1] (.rows d) us u → s.sameTags [d, ta, tb, c.1] = true → l₀.isFloat = true →
      exec (.vfma td ta tb xr) s = .next (u.rowResult d r us fun t w l j => out l m.fzo j
        ((l.elem m.fzi (t.row ta w r) j).fma s.rm (l.elem m.fzi (t.row tb w r) j) (l.elem m.fzi (t.row c.1 w c.2) j)))) ∧
    (s.rowReady [ta] (.rows d) us u → s.sameTags [d, ta] = true →
      (∀ f : Machine.Num → NumF, l₀.isFloat = true → i = .vsqrt td ta xr ∧ f = Machine.Num.sqrt ∨ i = .vrsq td ta xr ∧ f = Machine.Num.rsqrt ∨
        i = .vrcp td ta xr ∧ f = (fun a => Machine.Num.one.div a) →
        exec i s = .next (u.rowResult d r us fun t w l j => out l m.fzo j (f (l.elem m.fzi (t.row ta w r) j)))) ∧
      (l₀.isFloat = true → l₀.f.sign = true →
        exec (.vneg td ta xr) s = .next (u.rowResult d r us fun t w l j =>
          let c := l.code (t.row ta w r) j
          (if c < signPlace l.f then c + signPlace l.f else c - signPlace l.f, 0)) ∧
        exec (.vabs td ta xr) s = .next (u.rowResult d r us fun t w l j => (l.code (t.row ta w r) j % signPlace l.f, 0))) ∧
      (l₀.isBlock = false →
        exec (.vmov td ta xr) s = .next (u.rowResult d r us fun t w l j => (l.code (t.row ta w r) j, 0))) ∧
      (l₀.isBlock = true → m.k = 0 →
        exec (.vmov td ta xr) s = .next (us.foldl (fun t w => t.setRow d w r (t.row ta w r) 0) u).rowEnd) ∧
      (∀ (f : Machine.Num → Machine.Num → NumF) (z : Bool), l₀.isNumber = true →
        i = .vadds ta rs xr ∧ f = (fun a b => a.add s.rm b) ∧ z = m.fzo ∨
        i = .vsubs ta rs xr ∧ f = (fun a b => a.add s.rm b.neg) ∧ z = m.fzo ∨
        i = .vmuls ta rs xr ∧ f = Machine.Num.mul ∧ z = m.fzo ∨ i = .vmaxs ta rs xr ∧ f = Machine.Num.pick true ∧ z = false ∨
        i = .vmins ta rs xr ∧ f = Machine.Num.pick false ∧ z = false → td = ta →
        exec i s = .next (u.rowResult d r us fun t w l j =>
          out l z j (f (l.elem m.fzi (t.row ta w r) j) (l.f.flushIn m.fzi (l.f.decode (l.f.scalar v))))))) ∧
    (s.rowReady [ta] (.rows d) us u → s.tag d = 1 → s.tag ta = 1 → ∀ f : Nat → Bool → Machine.Num → Nat × Nat,
      i = .vexp2 td ta xr ∧ f = exp2Of ∨ i = .vlog2 td ta xr ∧ f = log2Of ∨ i = .vtanh td ta xr ∧ f = tanhOf →
      exec i s = .next (u.rowResult d r us fun t w l j => f s.rm m.fzo (l.elem m.fzi (t.row ta w r) j))) ∧
    (s.rowReady [] (.rows d) us u →
      (l₀.isBlock = false → exec (.vbcast td rs xr) s = .next (u.rowResult d r us fun _ _ l _ => (l.f.scalar v, 0))) ∧
      (l₀.isNumber = true → exec (.viota td rs xr) s = .next (u.rowResult d r us fun _ _ l j =>
        l.f.round s.rm m.fzo (s.freshBase + j) (Machine.Num.ofInt (v.toInt + j)))) ∧
      (l₀.isBlock = false → exec (.vins td rs xr) s = .next (us.foldl (fun t w =>
        let l := t.tileLay d
        if t.elemIdx xr < l.count then t.setRow d w r (l.trim (l.setCode (t.row d w r) (t.elemIdx xr) (l.f.scalar (t.x rs)))) 0
        else t) u).rowEnd)) ∧
    (∀ p : BitVec 3, let src := s.tileLay ta; let ps := cvtPairs src.count l₀.count p.toNat
      s.rowReady [ta] (.rows d) us u → src.kind ≠ 4 → l₀.kind ≠ 4 →
      (l₀.isBlock = false → exec (.vcvt td ta p xr) s = .next (us.foldl (fun t w =>
        let m := t.mods
        let e := cvtElems src l₀ t.rm m.fzi m.fzo m.zero t.freshBase (t.active w l₀.count) (t.row ta w r) ps (t.row d w r, 0)
        t.setRow d w r (l₀.trim e.1) e.2) u).rowEnd) ∧
      (∀ g, l₀.scale = some g → m.k = 0 → wholeBlocks l₀.b ps = true →
        exec (.vcvt td ta p xr) s = .next (us.foldl (fun t w =>
          let e := cvtBlocks src l₀ g t.rm t.mods.fzi t.mods.fzo t.freshBase (t.row ta w r) ps (t.row d w r, 0)
          t.setRow d w r (l₀.trim e.1) e.2) u).rowEnd)) ∧
    (s.me.waiting = none → s.opFaultOn [ta.toNat, tb.toNat, d.toNat] = .ok () →
      i = .vadd td ta tb xr ∨ i = .vsub td ta tb xr ∨ i = .vmul td ta tb xr ∨ i = .vdiv td ta tb xr ∨ i = .vmin td ta tb xr ∨
      i = .vmax td ta tb xr ∨ i = .vsel td ta tb xr ∨ i = .viadd td ta tb xr ∨ i = .vand td ta tb xr →
      ((∃ n ∈ [ta, tb, d], s.tileCount ≤ n.toNat) →
        exec i s = .next (s.takeTrap s.cur false 28 0x01 (wordOfInstr i))) ∧
      ((∀ n ∈ [ta, tb, d], n.toNat < s.tileCount) → s.sameTags [d, ta, tb] = false →
        exec i s = .next (s.takeTrap s.cur false 28 0x04 (wordOfInstr i))))

/-- R281, R282: what writing a row under a mask does to its elements, for a layout without blocks: an active element takes
its new code, an inactive one is kept, or is zero under a zeroing prefix. One mask bit governs a run of elements where the
row has more than 256. A comparison writes the bits of its mask in the same way, and 0 beyond the last element. -/
def Obligations.MaskedRowsKeepInactiveElements : Prop :=
  (∀ (l : Lay) (act : Nat → Bool) (zero : Bool) (f : Nat → Nat × Nat) (old j : Nat), l.scale = none → j < l.count →
    (∀ i, (f i).1 < 2 ^ l.f.width) →
    l.code (mapElems l act zero f old).1 j = if act j then (f j).1 else if zero then 0 else l.code old j) ∧
  (∀ (mask : Mask) (n j : Nat), (n ≤ 256 → elemActive mask n j = mask.getLsbD j) ∧
    (n = 512 → elemActive mask n j = mask.getLsbD (j / 2)) ∧ (n = 2048 → elemActive mask n j = mask.getLsbD (j / 8))) ∧
  (∀ (n : Nat) (act : Nat → Bool) (zero : Bool) (old : Mask) (f : Nat → Bool × Nat) (j : Nat), j < 256 →
    (cmpMask n act zero old f).1.getLsbD j =
      if n ≤ j then false else if act j then (f j).1 else if zero then false else old.getLsbD j)
/-- R289, R290, R296, R297, R299, R300: the row words that read tiles into masks, integer registers or memory, and those
that load and store a row at x[rs1], the offset and the strides of the open axes; an address fault of these traps with the row word,
and so does a sum outside the address space (R48, log 64). -/
def Obligations.RowWordsReadTilesAndMemory : Prop :=
  ∀ (s u t : State) (td ta tb : TileReg) (kd : KReg) (rs xr : Reg) (us : List Tup) (i : Instr),
    let r := s.rowIdx xr; let m := s.mods
    (∀ (quiet : Bool) (f : Ordering → Bool), s.rowReady [ta, tb] (.mask kd ta) us u → s.sameTags [ta, tb] = true →
      (s.tileLay ta).isNumber = true → (s.tileLay ta).count ≤ 256 →
      i = .vcmpEq kd ta tb xr ∧ quiet = true ∧ f = (fun o => o == .eq) ∨
      i = .vcmpLt kd ta tb xr ∧ quiet = false ∧ f = (fun o => o == .lt) ∨
      i = .vcmpLe kd ta tb xr ∧ quiet = false ∧ f = (fun o => o != .gt) →
      exec i s = .next (us.foldl (fun t w =>
        let l := t.tileLay ta
        let v := cmpMask l.count (t.active w l.count) t.mods.zero (t.myLift.mask kd w) fun j =>
          let x := l.valueIn t.mods.fzi (t.row ta w r) j
          let y := l.valueIn t.mods.fzi (t.row tb w r) j
          match x.cmp y with
          | some o => (f o, 0)
          | none => (false, if !quiet || x.isSnan || y.isSnan then flagNv else 0)
        (t.modLift fun k => k.setMask kd w v.1).orFlagsOf ta v.2) u).rowEnd) ∧
    (s.rowReadyOnce [ta] .nothing u → (s.tileLay ta).isBlock = false → let l := s.tileLay ta
      exec (.vext rs ta xr) s = .next (s.setX rs (if s.elemIdx xr < l.count then
        l.f.toReg (l.code (s.row ta s.noTuple r) (s.elemIdx xr)) else 0)).rowEnd) ∧
    (∀ f : List Machine.Num → Nat × Nat, s.rowReadyOnce [ta] (.flags ta) u → (s.tileLay ta).isNumber = true →
      let l := u.tileLay ta; let v := f (activeValues l u.mods.fzi (u.active s.noTuple l.count) (u.row ta s.noTuple (u.rowIdx xr)))
      i = .vrsum rs ta xr ∧ f = sumCode l.f s.rm m.fzo s.freshBase ∨ i = .vrmax rs ta xr ∧ f = pickCode l.f true s.freshBase ∨
      i = .vrmin rs ta xr ∧ f = pickCode l.f false s.freshBase →
      exec i s = .next ((u.setX rs (l.f.toReg v.1)).orFlagsOf ta v.2).rowEnd) ∧
    (∀ (sc : BitVec 3) (old : List Byte), s.me.waiting = none → s.closed.noEnd →
      s.opFaultAt (fun f => f.tiles.contains ta.toNat) = .ok () → let c := s.closed; let l := c.tileLay ta
      let xs := activeValues l u.mods.fzi (u.active c.noTuple l.count) (u.row ta c.noTuple (u.rowIdx xr))
      let v := fun old : List Byte => qmxCode l.f u.freshBase xs (leNat old)
      c.rowReadyOnce [ta] (.closing ta) u → l.isNumber = true → l.f.width ∈ [8, 16, 32, 64] →
      u.rmw (u.x rs) (l.f.width / 8) (fun old => leBytes (l.f.width / 8) (v old).1) = .ok (t, old) →
      exec (.vqmx rs ta sc xr) s = .next ((((t.modMe fun x => { x with resv := none }).setX rs
        (wordOf (v old).1)).orFlagsOf ta (v old).2).countClamp sc.toNat).checkTmem.useFresh.goesOn) ∧
    (∀ off : BitVec 3, let d := s.rowTd td; s.rowReady [] (.rows d) us u → (s.tileLay d).isBlock = false ∨ m.k = 0 →
      us.foldlM (fun (t : State) w => do
        let a ← t.rowPlace (wordOfInstr (.vld td rs off xr)) .load rs off w
        let (t, bs) ← Exc.ofRow (wordOfInstr (.vld td rs off xr)) (t.load a 256 64)
        let l := t.tileLay d
        let v := if l.isBlock then leNat bs else
          (mapElems l (t.active w l.count) t.mods.zero (fun j => (l.code (leNat bs) j, 0)) (t.row d w r)).1
        pure (t.setRow d w r v 0)) u = Except.ok (ε := Exc) t →
      exec (.vld td rs off xr) s = .next t.rowEnd) ∧
    (∀ (off : BitVec 3) (w : Tup) (r : List Tup), us = w :: r → s.me.waiting = none → let d := s.rowTd td
      s.rowReady [] (.rows d) us u → (s.tileLay d).isBlock = false ∨ m.k = 0 →
      u.rowSum rs off w < 0 ∨ 2 ^ 64 ≤ u.rowSum rs off w →
      exec (.vld td rs off xr) s = .next (s.takeTrap s.cur false 5 0 (wordOfInstr (.vld td rs off xr)))) ∧
    (∀ off : BitVec 3, s.rowReady [td] .nothing us u →
      m.k = 0 ∨ ((s.tileLay td).isBlock = false ∧ (s.tileLay td).f.width % 8 = 0) →
      us.foldlM (fun (t : State) w => do
        let a ← t.rowPlace (wordOfInstr (.vst td rs off xr)) .store rs off w
        let (t, ls) ← Exc.ofRow (wordOfInstr (.vst td rs off xr)) (resolve t (t.view .store) .store a 256 64)
        let l := t.tileLay td; let row := t.row td w r; let act := t.active w l.count
        if t.mods.k = 0 then storeUnits t t.cur a ls (leBytes 256 row)
        else if t.mods.zero then storeUnits t t.cur a ls (leBytes 256 (mapElems l act true (fun j => (l.code row j, 0)) row).1)
        else storeParts ls t.cur a (mergeUnits l act row) t) u = Except.ok (ε := Exc) t →
      exec (.vst td rs off xr) s = .next t.rowEnd) ∧
    (∀ p : Pfx, (s.me.pc.toNat % 64 ≠ 60 → pfxFits p s.nextWord = true → exec (.vpfx p) s = .next (s.withMe
        { s.me with pfx := some p, jumped := false, pc := s.me.pc + 4 })) ∧
      (s.me.waiting = none → s.me.pc.toNat % 64 = 60 ∨ pfxFits p s.nextWord = false →
        exec (.vpfx p) s = .next (s.takeTrap s.cur false 2 0 (wordOfInstr (.vpfx p)))))
/-- R225, R226, R261 to R273: a word of the tile engine whose checks pass is accepted: each of its executions becomes an
operation of its stream, and the hart goes on. An MT word on a stager core traps, cause 49; a tile number not below the
tile count traps, 28, 0x01; an operand that is the destination, 28, 0x08; a bad pad descriptor, 28, 0x05. -/
def Obligations.TileWordsAreAccepted : Prop :=
  (∀ (s u : State) (m : MtOps) (i : Instr) (kind : OpKind) (us : List Tup),
    i = .mma m ∧ kind = .mma ∨ i = .mms m ∧ kind = .mms ∨ i = .mmz m ∧ kind = .mmz ∨ i = .mmak m ∧ kind = .mmak ∨
      i = .mmag m ∧ kind = .mmag → s.starts → let o := s.mtOp kind ((encode i).getD 0) m; let w := wordOfInstr i
    (isCompute s.cur = false → exec i s = .next (s.takeTrap s.cur false 49 0 w)) ∧
    (isCompute s.cur = true → s.opReady o us u → s.checkMt o = .ok () → u.placesFor o us →
      exec i s = .next (u.accepted o us).complete) ∧
    (∀ T, isCompute s.cur = true → s.opFaultOn o.fields = .ok () → s.checkLift o = .ok T →
      ((∃ n ∈ o.md.toNat :: (tileNum o.a ++ tileNum o.b), s.tileCount ≤ n) →
        exec i s = .next (s.takeTrap s.cur false 28 0x01 w)) ∧
      (kind ≠ .mmag → (∀ n ∈ o.md.toNat :: (tileNum o.a ++ tileNum o.b), n < s.tileCount) →
        (o.md.toNat ∈ tileNum o.a ++ tileNum o.b → exec i s = .next (s.takeTrap s.cur false 28 0x08 w)) ∧
        (o.md.toNat ∉ tileNum o.a ++ tileNum o.b → ∀ r, m.b = .pad r → padBad (kind == .mmak) o.bPad = true →
          exec i s = .next (s.takeTrap s.cur false 28 0x05 w))))) ∧
  (∀ (s u : State) (md ms : TileReg) (pad rs : Reg) (us : List Tup), s.starts →
    let base := fun kind i => s.baseOp kind ((encode i).getD 0) md; let id := bits (s.x rs) 0 5; let d := s.padOf (.pad pad)
    (let o := { base .mld (.mld md pad rs) with b := .pad pad, bPad := d, cf := id, caps := s.capture [id] }
     s.opReady o us u → padBad false d = false → (∀ w ∈ us, s.padFault d 64 1 (s.myLift.offset w) false = none) →
      s.idBad id = false → u.placesFor o us → exec (.mld md pad rs) s = .next (u.accepted o us).complete) ∧
    (let o := { base .mst (.mst md pad) with b := .pad pad, bPad := d }
     s.opReady o us u → padBad false d = false → 256 ≤ padPitch d →
      (∀ w ∈ us, s.padFault d 64 1 (s.myLift.offset w) true = none) → u.placesFor o us →
      exec (.mst md pad) s = .next (u.accepted o us).complete) ∧
    (let o := { base .mzero (.mzero md rs) with cf := id, caps := s.capture [id] }
     s.opReady o us u → s.idBad id = false → u.placesFor o us →
      exec (.mzero md rs) s = .next (u.accepted o us).complete) ∧
    (let f := s.pendingTag ms.toNat; let o := { base .mcopy (.mcopy md ms) with a := .tile ms, cf := f, caps := s.capture [f] }
     s.opReady o us u → u.placesFor o us → exec (.mcopy md ms) s = .next (u.accepted o us).complete) ∧
    (let f := s.pendingTag ms.toNat; let o := { base .mtrn (.mtrn md ms) with a := .tile ms, cf := f, caps := s.capture [f] }
     s.opReady o us u → s.trnBad f = false → u.placesFor o us →
      exec (.mtrn md ms) s = .next (u.accepted o us).complete)) ∧
  (∀ (s : State) (o : Op), let p := pairOf s.cur; let t := s.enqueue o
    t.mem = s.mem ∧ t.harts = s.harts ∧ t.tasks = s.tasks ∧ t.serial = s.serial + 1 ∧
    (t.pair p).ops = (s.pair p).ops ++ [{ o with id := s.serial, total := o.steps?, pins := o.stages (o.leads p) }] ∧
    .tileOpStart p ∈ t.pending)

/-- R229, R266, R274 to R278: the words of commit groups, tile status and the format table. `mcommit` closes the open group
and answers its number, waiting while 16 are live; `mwait` of a group that is not closed traps, 28, 0x07, and waits while an
operation of it or an older one is incomplete; `mstat` reads and `mclrf` clears a status word; `fmtw` writes an entry at the
address space's own table and completes when every view has it; `fmtr` reads one. -/
def Obligations.GroupsStatusAndFormatsAreKept : Prop :=
  ∀ (s u : State) (rd rs1 rs2 : Reg) (mt : TileReg) (h : Word) (t : Task), s.starts →
    (s.me.task = none → exec (.mcommit rd) s = .next (s.wrote rd 0)) ∧
    (s.myTask = none → exec (.mwait rs1) s = .next (s.takeTrap s.cur false 28 0x07 (wordOfInstr (.mwait rs1)))) ∧
    (s.me.task = some h → s.myTask = some t → let live := liveGroups t s.myOps
      (live.length < 16 → exec (.mcommit rd) s = .next ((s.setTask h { t with
        group := t.group + 1, openGroups := live ++ if s.myOps.any fun o => o.group == t.group then [t.group] else [] }).setX rd
        (t.group.setWidth 64)).complete) ∧
      (16 ≤ live.length → exec (.mcommit rd) s = .next (s.modMe fun x =>
        { x with waiting := some { instr := .mcommit rd, kind := .short, reply := none } })) ∧
      (let d := groupAge t ((s.x rs1).setWidth 16)
       (d = 0 ∨ 2 ^ 15 ≤ d → exec (.mwait rs1) s = .next (s.takeTrap s.cur false 28 0x07 (wordOfInstr (.mwait rs1)))) ∧
       (d ≠ 0 → d < 2 ^ 15 → ((∀ o ∈ s.myOps, groupAge t o.group < d) →
          s.opFaultAt (fun f => decide (d ≤ groupAge t f.group)) = .ok () → exec (.mwait rs1) s = .next s.complete) ∧
        ((∃ o ∈ s.myOps, d ≤ groupAge t o.group) → s.noEnd → exec (.mwait rs1) s = .next (s.modMe fun x =>
          { x with waiting := some { instr := .mwait rs1, kind := .long, reply := none } })))) ∧
      (∀ p, t.pair = some p → s.opFaultOn [mt.toNat] = .ok () → mt.toNat < s.tileCount → s.tagsOf mt.toNat = 0 →
        s.writer mt.toNat = false → let q := fun v : State => v.tile p (t.phys mt.toNat)
        exec (.mstat rd mt) s = .next (s.wrote rd (wordOf
          ((q s).axes.toNat * 2 ^ 20 + (q s).fmt.toNat * 2 ^ 13 + (q s).flags.toNat))) ∧
        (s.shadowTile mt.toNat = .ok u → exec (.mclrf mt rs2) s = .next (u.setTile p (t.phys mt.toNat) { q u with
          flags := (q u).flags &&& ~~~(if rs2 = 0 then 0xFF else (s.x rs2).setWidth 8) }).complete))) ∧
    (let c := s.closed; let id := bits (s.x rs1) 0 5; let w := s.x rs2; let ctx := c.ctxOf c.cur; let key := ctx * 32 + id
     (satpOn s.me.sys.satp = false → exec (.fmtr rd rs1) s = .next (s.takeTrap s.cur false 2 0 (wordOfInstr (.fmtr rd rs1)))) ∧
     (satpOn s.me.sys.satp = true → exec (.fmtr rd rs1) s = .next (s.wrote rd (s.look id))) ∧
     (c.noEnd → satpOn c.me.sys.satp = false →
      exec (.fmtw rs1 rs2) s = .next (c.takeTrap c.cur false 2 0 (wordOfInstr (.fmtw rs1 rs2)))) ∧
     (c.noEnd → satpOn c.me.sys.satp = true →
      (∀ sub, entryFault c.look id w = some sub → exec (.fmtw rs1 rs2) s = .next (c.takeTrap c.cur false 26 sub w)) ∧
      (entryFault c.look id w = none → (c.viewPairs ctx).any (fun p => c.holdsOld p ctx id) = false → c.viewStale key = false →
        exec (.fmtw rs1 rs2) s = .next ((sendViews ctx id (c.fmts.get key 0, c.fmtVers.get key 0) w (c.viewPairs ctx)
          { c with fmts := c.fmts.put key w, fmtVers := c.fmtVers.put key (c.fmtVers.get key 0 + 1) }).modMe fun x =>
            { x with waiting := some { instr := .fmtw rs1 rs2, kind := .applied, reply := none } }))) ∧
     (∀ r, satpOn s.me.sys.satp = true → let v := s.withMe { s.me with
        waiting := some { instr := .fmtw rs1 rs2, kind := .applied, reply := r } }
      v.viewStale (s.ctxOf s.cur * 32 + id) = false → v.noEnd → exec (.fmtw rs1 rs2) v = .next v.goesOn) ∧
     (∀ p e, 16 ≤ id → ∃ v, exec (.fmtwViewApply p ctx id e) s = .next v ∧ v.entryAt p ctx id = s.fmts.get (ctx * 32 + id) 0 ∧
       v.harts = s.harts ∧ v.mem = s.mem))
/-- R226 to R236, R267, R271 to R273: what the events of a tile engine do; each answers a next state. `tileOpStart`: the
oldest operation that is free to start starts. `kStepComplete`: a K-step of the operation in its compute phase writes its rows
and counts, with a checkpoint at each multiple of 16. `tileOpComplete`: a finished one leaves the engine. `operandFault`: a
first operand fault is replayed from the last checkpoint step, and one that persists poisons the destination and waits for the
task, 28, 0x00. `gangRendezvous`: the arrivals of a gang wait at its entry until all its members have come, start together, and
go on to each row block together. `tileEccError`: an error of a tile that has an owner reaches its task. -/
def Obligations.TileEnginesRunTheirOperations : Prop :=
  (∀ (s : State) (p : Nat),
    ((∀ o ∈ (s.pair p).ops, s.canStart p o = false) → exec (.tileOpStart p) s = .next s) ∧
    (∀ o, (s.pair p).ops.find? (fun o => s.canStart p o) = some o → ∃ t, exec (.tileOpStart p) s = .next t ∧
      t.mem = s.mem ∧ t.harts = s.harts ∧ (t.op? p o.id).map Op.started = some true ∧
      (o.shadowed p = false → t.op? p o.id = some { o with started := true, shadow := none }) ∧ .tileOpStart p ∈ t.pending)) ∧
  (∀ (s : State) (p : Nat) (o : Op), s.op? p o.id = some o → (computing (s.pair p).ops).map (fun q => q.id) = some o.id →
    (s.pair p).errTmem = false → ((s.pair p).errMpad && o.readsPad p) = false →
    let c := clusterOfPair p; let old := s.image o.task o.dest o.img; let e := exec (.kStepComplete p o.id) s
    let wrote := fun rows flags => Host.Outcome.next (((s.writeDest o rows flags).afterStep p o).nextStep p)
    let src := fun n : TileReg => s.image o.task n.toNat o.aImg
    (o.kind = .mzero → e = wrote (old.drop o.steps) 0) ∧
    (o.kind = .mcopy → ∀ n, o.a = .tile n → e = wrote (putRow old o.steps ((src n).get o.steps 0)) (s.sourceFlags o n)) ∧
    (o.kind = .mtrn → o.steps = 63 → ∀ n, o.a = .tile n →
      e = wrote (transposeRows o.lc.f.width (src n)) (s.sourceFlags o n)) ∧
    (o.kind = .mtrn → o.steps ≠ 63 → e = .next ((s.afterStep p o).nextStep p)) ∧
    (o.kind = .mld → let r := (2 * padRot o.bPad + o.steps) % 64
      e = wrote (putRow old r (BitVec.ofNat 2048 (o.lc.trim (s.padRead c o.bPad r 0 o.offset)))) 0) ∧
    (o.kind = .mst → let bs := cut64 4 (leBytes 256 (old.get o.steps 0).toNat)
      let out := mstBeats c (padStage o.bPad) (padRow o.bPad o.steps 0 o.offset).toNat bs s
      (∀ u, out = .ok u → e = .next ((u.afterStep p o).nextStep p)) ∧
      (∀ x b u, out = .error (x, b, u) → e = .next ((((u.addFault o false x b).setOp p { o with steps := o.total }).post
        (.tileOpComplete p o.id)).nextStep p))) ∧
    (o.kind ∈ [.mma, .mms, .mmz, .mmak, .mmag] →
      let v := o.matrixStep (o.steps % o.perMacro) s.freshBase (s.rowsOfA p o (o.steps / o.perMacro))
        (s.operandRows c o.b o.bImg o.task o.bPad 0 (columns o.cf) (o.steps / o.perMacro)) old
      e = .next (((s.writeDest o v.1 v.2).useFresh.afterStep p o).nextStep p))) ∧
  (∀ (s : State) (p : Nat) (o q : Op), s.op? p o.id = some q → let u := s.afterStep p o
    (o.steps + 1 = o.total → o.block = o.lastBlock → .tileOpComplete p o.id ∈ u.pending ∧ ∃ v, u.op? p o.id =
      some { o with steps := o.total, saved := v }) ∧
    (o.steps + 1 ≠ o.total → (o.steps + 1) % 16 ≠ 0 → u = s.setOp p { o with steps := o.steps + 1 }) ∧
    (o.steps + 1 ≠ o.total → (o.steps + 1) % 16 = 0 → u = (s.setOp p { o with steps := o.steps + 1 }).saveShadow p
      { o with steps := o.steps + 1 })) ∧
  (∀ (s : State) (p : Nat) (o : Op), s.op? p o.id = some o →
    (o.started = true → o.computed = true → ∃ t, exec (.tileOpComplete p o.id) s = .next t ∧
      t.op? p o.id = none ∧ t.mem = s.mem ∧ ∀ h, (t.hart h).ctx = (s.hart h).ctx ∧ (t.hart h).pc = (s.hart h).pc) ∧
    (o.computed = false → exec (.tileOpComplete p o.id) s = .next s) ∧
    (o.started = true → o.readsPad p = true → o.blockDone = false →
      (o.faults = 0 → s.gangOps p o = [(p, o)] → exec (.operandFault p o.id) s = .next ((s.replayOp p o).nextStep p)) ∧
      (o.faults ≠ 0 → exec (.operandFault p o.id) s = .next (s.persistFault p o))) ∧
    (o.started = false ∨ o.readsPad p = false ∨ o.blockDone = true → exec (.operandFault p o.id) s = .next s)) ∧
  (∀ (s : State) (c gid : Nat), let gs := (s.cluster c).gangs; let pair := fun i => c * 4 + i
    let goes := fun (t : State) (i : Nat) => (∀ j < 4, i ≤ j → t.unarrived c gid (pair j) = none) →
      exec (.gangRendezvous c gid) s = .next t
    ((∀ g ∈ gs, g.gid.toNat = gid → g.started = false) → goes s 0 ∧
      ∀ i o, i < 4 → (∀ j < i, s.unarrived c gid (pair j) = none) → s.unarrived c gid (pair i) = some o →
        (s.cluster c).drain ≠ some (pair i, 1) → let mask := gangMembers o.gang
        (gs.find? (fun g => g.takes gid (pair i) mask) = none →
          (8 ≤ gs.length → goes s (i + 1)) ∧
          (gs.length < 8 → goes (s.modCluster c fun k => { k with gangs := k.gangs ++ [openGang gid mask (pair i, o.id)] }) (i + 1))) ∧
        (∀ g, gs.find? (fun g => g.takes gid (pair i) mask) = some g → let all := g.arrivals ++ [(pair i, o.id)]
          let agrees := !g.bad && g.mask == mask && g.arrivals.all fun a => (s.op? a.1 a.2).any fun q => gangRb q.gang == gangRb o.gang
          (agrees = true → { g with arrivals := all }.full c = false → goes (s.putGang c g { g with arrivals := all }) (i + 1)) ∧
          (agrees = true → { g with arrivals := all }.full c = true → goes (all.foldl (fun s a => s.post (.tileOpStart a.1))
            (s.putGang c g { g with
              arrivals := all, started := true, lead := (leadArrival all).bind fun b => s.op? b.1 b.2 })) (i + 1)) ∧
          (agrees = false → let h := { g with mask := g.mask ||| mask, bad := true, arrivals := [], seen := g.pairs ++ [pair i] }
            (h.full c = false → goes (discardArrivals all (s.putGang c g h)) (i + 1)) ∧
            (h.full c = true → goes ((discardArrivals all (s.putGang c g h)).modCluster c fun k =>
              { k with gangs := k.gangs.filter fun x => x != h }) (i + 1))))) ∧
    (∀ g lead m r, gs = [g] → g.gid.toNat = gid → g.started = true → g.lead = some lead →
      (g.arrivals.filterMap fun a => (s.op? a.1 a.2).map fun o => (a.1, o)) = m :: r →
      ((∃ e ∈ m :: r, e.2.started = false ∨ e.2.blockDone = false) ∨ m.2.block = m.2.lastBlock → goes s 0) ∧
      ((∀ e ∈ m :: r, e.2.started = true ∧ e.2.blockDone = true) → m.2.block ≠ m.2.lastBlock →
        goes ((m :: r).foldl (fun s e => (s.nextBlock e.1 e.2).nextStep e.1)
          (s.modGang c m.2.id fun g => { g with rows := some (s.streamRows c lead (m.2.block + 1)) })) 0))) ∧
  (∀ (s : State) (p q : Nat) (corrected : Bool),
    ((s.tile p q).owner = none → exec (.tileEccError p q corrected) s = .next s) ∧
    (∀ h, (s.tile p q).owner = some h → (corrected = true → exec (.tileEccError p q corrected) s = .next (s.correct h)) ∧
      (corrected = false → s.refuses (clusterOfPair p) = true →
        (∀ n, s.savingPart (clusterOfPair p) = some n →
          exec (.tileEccError p q corrected) s = .next (s.saveError n (clusterOfPair p) h)) ∧
        (s.savingPart (clusterOfPair p) = none → exec (.tileEccError p q corrected) s = .next s)) ∧
      (∀ t, corrected = false → s.refuses (clusterOfPair p) = false → s.task? h = some t →
        (∀ n, shadowed t q = true → s.hartOf h = some n → exec (.tileEccError p q corrected) s = .next (s.restartTask n)) ∧
        (shadowed t q = false ∨ s.hartOf h = none → exec (.tileEccError p q corrected) s =
          .next (s.faultTaskOf h (mkReport s 3 28 0x20 t.cluster h))))))
/-- R302 to R318: the lift words. Outside a region those that change the axis state trap, 29, 0x0A. `lift` opens an axis, puts
the return address into x[rd] and goes to its entry; a fifth axis traps, 29, 0x01, a bad extent 29, 0x02, and more than 256
tuples 29, 0x03. `lret` closes the innermost axis, 29, 0x09 without one, and may end a stage's last hold (R158). `ltag` gives a register a tag set, `lred` reduces
over an axis, `laxis` answers the axis state and `lbr` splits the active set. -/
def Obligations.LiftWordsKeepTheAxisState : Prop :=
  ∀ (s t u v : State) (rd rs1 rs2 : Reg) (md ms : TileReg) (k : KReg) (tr : TagReg) (imm : BitVec 12) (bs : List Byte) (i : Instr),
    s.starts → let l := s.myLift; let word := fun c b => Host.Outcome.next (s.takeTrap s.cur false c b (wordOfInstr i))
    (s.inRegion s.cur = false → i ∈ [.lift rd rs1 rs2, .lret rs1, .ltag tr rs2, .lred md ms rs2] → exec i s = word 29 0x0A) ∧
    (s.inRegion s.cur = true →
      (i = .lift rd rs1 rs2 → l.axes.length = 4 → exec i s = word 29 0x01) ∧
      (i = .lift rd rs1 rs2 → l.axes.length ≠ 4 → s.load (s.x rs2) 16 16 = .ok (t, bs) →
        let d := liftDesc bs; let ts := maskedTiles d.mask; let bit := BitVec.ofNat 4 (2 ^ l.axes.length)
        (d.extent = 0 ∨ 64 < d.extent → exec i s = word 29 0x02) ∧
        (d.extent ≠ 0 → d.extent ≤ 64 → 256 < t.myLift.count t.myLift.all * d.extent → exec i s = word 29 0x03) ∧
        (t.liftChecks (s.x rs1) d = .ok () → ts.any t.user = false → t.shadowTiles ts = .ok u →
          v = gainAxis (u.openAxis (s.x rs1) d) bit ts → v.spillFits = true →
          exec i s = .next ((v.setX rd (v.me.pc + 4)).jumpTo (s.x rs1)).retire)) ∧
      (i = .lret rs1 → l.axes = [] → exec i s = word 29 0x09) ∧
      (∀ a h, l.axes.getLast? = some a → s.me.task = some h →
        let bit := l.axes.length - 1; let ts := (List.range s.tileCount).filter fun n => (s.tagsOf n).getLsbD bit
        ts.any s.user = false → s.shadowTiles ts = .ok t →
        u = (clearTiles h ts (t.modLift (rejoinDepth t.depth))).modLift Lift.close →
        v = u.modTaskOf u.cur (fun x => { x with region := { x.region with
          imgShadow := x.region.imgShadow.filter fun y => !y.tags.getLsbD bit } }) →
        let c := clusterOf v.cur; let w := v.modStage c a.spill fun g => { g with lifts := g.lifts - 1 }
        exec (.lret rs1) s = .next ((if (w.stage c a.spill).lifts = 0 then w.retryPrefetches c else w).jumpTo (s.x rs1)).retire) ∧
      (let new : BitVec 4 := (s.x rs2).setWidth 4
       (new &&& l.all ≠ new → i = .ltag (.mask k) rs2 → exec i s = word 29 0x09) ∧
       (new &&& l.all = new →
        (t = (s.shadowImages (16 + k.toNat) (l.maskTags k) 1 (l.tuples (l.maskTags k))).modLift (fun l => l.retagMask k new) →
          t.spillFits = true → exec (.ltag (.mask k) rs2) s = .next t.complete) ∧
        (s.opFaultOn [md.toNat] = .ok () → md.toNat < s.tileCount → s.user md.toNat = false →
          s.shadowTile md.toNat = .ok t → let old := s.tagsOf md.toNat
          u = (t.shadowImages md.toNat old 256 (l.tuples old)).retagTile md.toNat new → u.spillFits = true →
          exec (.ltag (.tile md) rs2) s = .next u.complete))) ∧
      (∀ h, let w := s.x rs2; let axis := bits w 0 2; let op := bits w 4 2; let idx := bits w 8 8
        let old := s.tagsOf ms.toNat; let new := old &&& ~~~(BitVec.ofNat 4 (2 ^ axis)); let e := l.exts.getD axis 0
        s.me.task = some h → s.opFaultOn [md.toNat, ms.toNat] = .ok () → md.toNat < s.tileCount → ms.toNat < s.tileCount →
        axis < l.axes.length → old.getLsbD axis = true → l.full = true → (op ≠ 3 → (s.tileLay ms).isNumber = true) →
        (op = 3 → idx < e) → s.writer ms.toNat = false → s.user md.toNat = false → s.shadowTile md.toNat = .ok t →
        let oldD := s.tagsOf md.toNat
        u = ((t.shadowImages md.toNat oldD 256 (l.tuples oldD)).retagTile md.toNat new).shadowImages md.toNat new 256
          (l.tuples new) → u.spillFits = true →
        exec (.lred md ms rs2) s = .next ((writeImages h md.toNat l new ((l.tuples new).map fun w =>
          (w, reduceImage (s.tileLay ms) op idx s.me.ctx.vrm.toNat s.freshBase
            ((List.range e).map fun i => s.image h ms.toNat (l.flat old (withIndex w axis i))))) u).modStatus h md.toNat
          fun x => { x with fmt := BitVec.ofNat 5 (s.tag ms) }).useFresh.complete) ∧
      (∀ a, l.axes.getLast? = some a → let to_ := s.me.pc + immB imm
        (i = .lbr k imm → to_.toNat < a.entry.toNat → exec i s = word 29 0x07) ∧
        (∀ m p, a.entry.toNat ≤ to_.toNat → l.branch k s.me.pc to_ = .ok (m, p) → t = s.modLift (fun _ => m) →
          t.spillFits = true → exec (.lbr k imm) s = .next (if p = s.me.pc + 4 then t.setPc p else t.jumpTo p).retire))) ∧
    (exec (.laxis rd rs1) s = .next (s.wrote rd (wordOf ((if l.full then 0 else 2 ^ 31) + l.stack.length * 2 ^ 16 +
      l.axes.length * 2 ^ 8 + l.exts.getD (bits (s.x rs1) 0 2) 0)))) ∧
    (s.inRegion s.cur = false ∨ l.axes = [] → exec (.lbr k imm) s = .next (if l.mask k (l.axes.map fun _ => 0) ≠ 0
      then s.went (s.me.pc + immB imm) true 0 0 else s.went (s.me.pc + 4) false 0 0)) ∧
    (∀ pc to_ : Word, let tk := l.takers k; let n := l.active &&& ~~~tk
      (tk = 0 → l.branch k pc to_ = .ok (l, pc + 4)) ∧
      (tk ≠ 0 → n = 0 → l.stack = [] ∨ to_.toNat ≤ pc.toNat → l.branch k pc to_ = .ok (l, to_)) ∧
      (tk ≠ 0 → n ≠ 0 → pc.toNat < to_.toNat → l.branch k pc to_ =
        (l.insert to_ tk).map fun m => ({ m with active := n }, pc + 4)) ∧
      (tk ≠ 0 → n ≠ 0 → to_.toNat ≤ pc.toNat → l.branch k pc to_ =
        (l.insert (pc + 4) n).map fun m => ({ m with active := tk }, to_))) ∧
    (∀ (a : Mask) (e j : Nat), 0 < e → j < 256 → (widenActive a e).getLsbD j = a.getLsbD (j / e) ∧
      ((projectActive a e).getLsbD j = true ↔ ∃ i, i < 256 ∧ a.getLsbD i = true ∧ i / e = j))
/-- R42, R117, R119, R120, R159, R160, R352, R356, R382, R392: a firmware call answers in a0 and the hart goes on after its
`ecall`; a resumed hart makes its word again; a drain of stores ends in the checkpoint of the next region; an interrupt
is taken at a boundary; a write of a register of the host's block stores the value. A call that the hart does not make, a
resume of a hart in no wait, and a write of a read-only register change nothing. -/
def Obligations.HartsGoOnAndFirmwareAnswers : Prop :=
  (∀ (s : State) (n : Nat), s.fwNumber = some n → let c := clusterOf s.cur; let done := fun t : State => Host.Outcome.next t.complete
    let lost := s.lostTasks c; let noted := s.modCluster c fun k => { k with lossNote := false }
    (∀ r, n = 1 → s.setAreas c (s.x a0) (s.x a1) (s.x a2) (s.x a3) = r →
      exec .fwSetAreas s = done (r.1.setX a0 (wordOf r.2)) ∧ exec .ecall s = done (r.1.setX a0 (wordOf r.2))) ∧
    (∀ r, n = 2 → s.retryHeld c = r → exec .fwRetryHeld s = done (r.1.setX a0 (wordOf r.2)) ∧
      r.2 = (s.cluster c).heldReqs.length + (s.cluster c).heldRemote.length ∧
      ((s.cluster c).heldRemote = [] → r.1 = s.modCluster c fun k => { k with heldReqs := [], heldRemote := [] }) ∧
      exec .ecall s = done (r.1.setX a0 (wordOf r.2))) ∧
    (∀ r, n = 3 → s.rejectHeld c = r → exec .fwRejectHeld s = done (r.1.setX a0 (wordOf r.2)) ∧
      r.2 = (s.cluster c).heldReqs.length + (s.cluster c).heldRemote.length ∧ exec .ecall s = done (r.1.setX a0 (wordOf r.2))) ∧
    (n = 4 → let k := s.cluster c
      let t := (s.modCluster c fun k => { k with overwritten := 0 }).setX a1 (wordOf k.overwritten)
      ((s.x a0).toNat % 64 ≠ 0 → exec .fwReadReports s = done (t.setX a0 2) ∧ exec .ecall s = done (t.setX a0 2)) ∧
      ((s.x a0).toNat % 64 = 0 → ∀ u ls, resolve t (t.view .store) .store (s.x a0) 64 64 = .ok (u, ls) →
        (k.oldestUnread = none → exec .fwReadReports s = done (u.setX a0 0)) ∧
        (∀ r, k.oldestUnread = some r → exec .fwReadReports s = done (((performUnits u (some u.cur) (u.partOf c) ls
          r.bytes).modCluster c fun k => { k with unread := k.unread - 1 }).setX a0 1)))) ∧
    (n = 5 → (s.me.task = none → exec .fwEndHeldTask s = done (s.setX a0 1) ∧ exec .ecall s = done (s.setX a0 1)) ∧
      (∀ h, s.me.task = some h → let b := bits s.me.sys.scause 8 8; let a := bits s.me.sys.scause 0 8
        let u := (s.report ringTerminal { mkReport s 0 a b c h with loc := (hartloc s.chip s.cur).setWidth 32 }).1
        let t := (u.endTask h (.faulted (faultWord a b c false))).setX a0 0
        exec .fwEndHeldTask s = done t ∧ exec .ecall s = done t)) ∧
    (∀ r, n = 6 → requeueAll c lost (noted, 0) = r →
      exec .fwRequeueLost s = done (r.1.setX a0 (wordOf r.2)) ∧ exec .ecall s = done (r.1.setX a0 (wordOf r.2))) ∧
    (n = 7 → let k := wordOf lost.length
      let t := (lost.foldl (fun s h => s.endTask h (.faulted (faultWord 24 0x10 c false))) noted).setX a0 k
      exec .fwFaultLost s = done t ∧ exec .ecall s = done t) ∧
    (n = 0 ∨ 7 < n → exec .fwUnknownCall s = done (s.setX a0 (-1)) ∧ exec .ecall s = done (s.setX a0 (-1)))) ∧
  (∀ (s : State) (sb ss rb rs : Word) (c : Nat), areaOk s sb ss = false ∨ areaOk s rb rs = false →
    s.setAreas c sb ss rb rs = (s, 1)) ∧
  (∀ (s : State) (i : Instr) (n : Nat), (i = .fwSetAreas ∧ n = 1 ∨ i = .fwRetryHeld ∧ n = 2 ∨ i = .fwRejectHeld ∧ n = 3 ∨
    i = .fwReadReports ∧ n = 4 ∨ i = .fwEndHeldTask ∧ n = 5 ∨ i = .fwRequeueLost ∧ n = 6 ∨ i = .fwFaultLost ∧ n = 7) →
    s.fwNumber ≠ some n → exec i s = .next s) ∧
  (∀ (s t : State) (h : Nat), ((s.hart h).waiting = none → exec (.hartResume h none) s = .next s) ∧
    (∀ w, (s.hart h).waiting = some w → (∀ p q, w.kind ≠ .page p q) → (s.hart h).stopped = false →
      (s.hart h).inService = true → resumeWord w.instr { s with cur := h } = .next t →
      exec (.hartResume h none) s = .next { t with cur := s.cur }) ∧
    (∀ w, (s.hart h).waiting = some w → w.kind = .long → w.instr = .wfi → (s.hart h).stopped = false →
      (s.hart h).inService = true → (s.hart h).mode = .m → s.mipOf h &&& (s.hart h).sys.mie ≠ 0 →
      exec (.hartResume h none) s = .next { State.complete { s with cur := h } with cur := s.cur }) ∧
    ((s.hart h).stopped = true ∨ (s.hart h).inService = false → exec (.hartResume h none) s = .next s)) ∧
  (∀ (s : State) (h : Nat), (∀ t, s.taskOf h = some t →
      (t.region.undrained = [] → exec (.storeDrainDone h) s = .next s) ∧
      (t.region.undrained ≠ [] → exec (.storeDrainDone h) s = .next ((s.drainTask h).checkpoint h (s.hart h).pc))) ∧
    (∀ c, s.interruptFor h = some c → (s.hart h).interruptible = true → (s.hart h).stopped = false →
      (s.hart h).inService = true →
      exec (.interruptTake h) s = .next ((s.withdrawWait h).takeTrap h true c 0 0)) ∧
    (s.interruptFor h = none → exec (.interruptTake h) s = .next s)) ∧
  (∀ (s : State) (v : Word), (∀ p, p < 64 → let was := s.parts.get p default
      (∃ t, exec (.registerWrite (.saveBase p) v) s = .next t ∧ t.parts.get p default = { was with saveBase := v } ∧ t.mem = s.mem) ∧
      (∃ t, exec (.registerWrite (.saveSize p) v) s = .next t ∧ t.parts.get p default = { was with saveSize := v } ∧ t.mem = s.mem) ∧
      (∃ t, exec (.registerWrite (.mapAddr p) v) s = .next t ∧ t.parts.get p default = { was with mapAddr := v } ∧ t.mem = s.mem)) ∧
    (∀ r, r < 66 → ∃ t, exec (.registerWrite (.ringBase r) v) s = .next t ∧ t.ring r = { s.ring r with base := v } ∧
      ∀ q, q ≠ r → t.ring q = s.ring q) ∧
    (∀ i : Fin 8, exec (.registerWrite (.harg i.val) v) s = .next { s with hargs := s.hargs.set i.val v }) ∧
    (∀ f (i : Fin 8), ∃ t, exec (.registerWrite (.vharg f i.val) v) s = .next t ∧
      t.vfArgs.get f (Vector.replicate 8 0) = (s.vfArgs.get f (Vector.replicate 8 0)).set i.val v ∧ t.hargs = s.hargs) ∧
    (∀ o, exec (.registerWrite (.readOnly o) v) s = .next s))
/-- R37, R155 to R158, R161, R163, R187: what the task engine does with a task. Intake puts a descriptor into the table, where its
preparation starts, or into the task ring; preparation ends in readiness or in the fault that comes first; dispatch puts the
task on the hart with the registers and the pc of its restart point; a wake makes a parked task ready with its outcome; an
end reaches a running task at its next commit point and ends any other at once. -/
def Obligations.TaskEngineMovesItsTasks : Prop :=
  (∀ (s : State) (h : Word) (t : Machine.Task), s.task? h = some t → let prep := { t with
      state := .preparing, translated := false, prefetch := t.desc.args.map fun a : StageArg => if a.valid then .waiting else .done }
    (t.state ≠ .flying → exec (.taskIntake h) s = .next s) ∧
    (t.state = .flying → s.tableUsed t.cluster < 1024 → ∃ u, exec (.taskIntake h) s = .next u ∧
      u.task? h = some { prep with order := s.serial + 1 } ∧ .taskPrepared h ∈ u.pending ∧ u.harts = s.harts ∧ u.mem = s.mem) ∧
    (t.state = .flying → 1024 ≤ s.tableUsed t.cluster → ∃ u, exec (.taskIntake h) s = .next u ∧
      u.task? h = some { t with state := .ring, order := s.serial + 1 }) ∧
    (∀ c, s.ringHeadOf c = some h → s.tableUsed c < 1024 → ∃ u, exec (.taskRingRefill c) s = .next u ∧
      u.task? h = some { prep with order := s.serial + 1 } ∧ .taskRingRefill c ∈ u.pending) ∧
    (t.state = .preparing → t.translated = false →
      (∀ f, s.prepareRuns h t = .error f → s.ringFull ringTerminal t.cluster = false →
        exec (.taskPrepared h) s = .next (s.prepFails h t.cluster f)) ∧
      (∀ u rs ls, s.prepareRuns h t = .ok (u, rs, ls) → let v := u.modTask h fun t =>
          { t with translated := true, runs := rs, logRuns := ls }
        (∀ f, firstFailure t.prefetch = some f → v.ringFull ringTerminal t.cluster = false →
          exec (.taskPrepared h) s = .next (v.prepFails h t.cluster f)) ∧
        (firstFailure t.prefetch = none → (∀ p ∈ t.prefetch, p = .done) → exec (.taskPrepared h) s = .next (v.makeReady h)) ∧
        (firstFailure t.prefetch = none → (∃ p ∈ t.prefetch, p ≠ .done) → exec (.taskPrepared h) s = .next v))) ∧
    (t.state = .preparing → t.ending = none → s.halting t.cluster = false → ∀ i, t.prefetch.getD i .done = .waiting →
      let a := t.desc.args.getD i default; let n := a.stage.toNat; let g := s.stage t.cluster n
      let fail := fun b => Host.Outcome.next (s.setPrefetch h i (.failed 31 b))
      (g.defined = false → exec (.prefetchArm h i) s = fail 0x01) ∧
      (g.defined = true → g.size < a.length → exec (.prefetchArm h i) s = fail 0x02) ∧
      (g.defined = true → a.length ≤ g.size → a.source.toNat = 0x7F4000000000 + n * 2 ^ 20 →
        exec (.prefetchArm h i) s = .next (s.setPrefetch h i .done)) ∧
      (g.defined = true → a.length ≤ g.size → a.source.toNat ≠ 0x7F4000000000 + n * 2 ^ 20 →
        (g.armed || g.prefetch || decide (g.lifts > 0) || s.prefetchBefore t.cluster n t.order i) = false →
        (a.length < g.count.toNat → exec (.prefetchArm h i) s = fail 0x04) ∧
        (∀ u k, g.count.toNat ≤ a.length → s.allocSlot t.cluster { (default : CopySlot) with
            state := 1, total := a.length, kind := .fetch, task := h, hart := s.superHart t.cluster, word := prefetchWord a,
            satp := (s.taskView h t.cluster).satp, mode := .u, addr := a.source } = some (u, k) →
          exec (.prefetchArm h i) s = .next (((u.modTask h fun t => { t with prefetch := t.prefetch.set i (.copying k) }).modStage
            t.cluster n fun g => { g with prefetch := true }).armStage t.cluster n (BitVec.ofNat 32 a.length))))) ∧
    (t.state = .stopping → exec (.prefetchStop h) s = .next (((stopPrefetches s t.cluster h
      (t.desc.args.zip t.prefetch)).dropTask h).post (.taskRingRefill t.cluster))) ∧
    (t.state ≠ .stopping → exec (.prefetchStop h) s = .next s) ∧
    (t.state = .ready → t.promo ≠ 3 → s.still t.cluster = false → exec (.agePromotion h) s = .next (s.setTask h { t with promo := t.promo + 1 })) ∧
    (t.state ≠ .ready ∨ t.promo = 3 ∨ s.still t.cluster = true → exec (.agePromotion h) s = .next s) ∧
    (t.state = .ready → s.eprio h = 3 → t.passedOver = true → t.pair = none → let k := s.cluster t.cluster
      (k.reserve.any fun e => e.2 == h) = false → ∀ p r,
      (((List.range 4).map fun i => t.cluster * 4 + i).filter fun p => (s.reservedFor p).isNone && !s.pairClosed p) = p :: r →
      exec (.tileReservation h) s = .next (s.setCluster t.cluster { k with reserve := k.reserve ++ [(r.foldl
        (fun b p => if (s.freeTilesOf p).length > (s.freeTilesOf b).length then p else b) p, h)] })) ∧
    (∀ how, let e := t.ending.getD how
      (t.state = .running → s.runsOn h = true → exec (.taskEndArrive h how) s = .next (s.setTask h { t with ending := some e })) ∧
      (t.state ≠ .running ∨ s.runsOn h = false → exec (.taskEndArrive h how) s = .next (s.endTask h e))) ∧
    (t.state = .parked → ∀ st v vd, exec (.taskWake h (some (.done st v vd))) s = .next (((s.leaveWaits h).setTask h
      { t with wake := some (.outcome st v vd false none) }).makeReady h)) ∧
    (t.state ≠ .parked → ∀ o, exec (.taskWake h o) s = .next s) ∧
    ((s.makeReady h).task? h = some { t with state := .ready, order := s.serial + 1, promo := 0, passedOver := false })) ∧
  (∀ (s : State) (n e k : Nat) (t : Machine.Task), s.hartFree n = true → s.candidate n = some (e, k, t) →
    s.bestHart (wordOf k) t = some n → s.task? (wordOf k) = some t → ∃ u, exec (.taskDispatch n) s = .next u ∧
    (u.hart n).task = some (wordOf k) ∧ (u.hart n).pc = t.region.ckpt.pc ∧ (u.hart n).ctx = t.region.ckpt.ctx ∧
    (u.hart n).mode = .u ∧ (u.hart n).sys = (s.hart n).sys ∧ (∀ m, m ≠ n → u.hart m = s.hart m)) ∧
  (∀ (s : State) (n : Nat), s.hartFree n = false → exec (.taskDispatch n) s = .next s) ∧
  (∀ (s : State) (chip : Nat), exec (.homeChipLostTimeout chip) s = .next ((s.tasks.filterMap fun e =>
    (e.2.waitsAt (BitVec.ofNat 12 chip)).map fun w => (wordOf e.1, w)).foldl (fun s e =>
      ((s.leaveWaits e.1).modTask e.1 fun t => { t with wake := some (.lost e.2) }).makeReady e.1) s)) ∧
  (∀ s : State, ∃ u, exec .readyFiguresExchange s = .next u ∧ u.tasks = s.tasks ∧ u.harts = s.harts ∧
    ∀ c k, s.clusters.find c = some k → u.clusters.find c = some { k with figures := s.readyCount c })
/-- R24, R29, R354, R355, R360, R373 to R376, R380, R381, R386 to R392, R396, R399, R404, R405: the front end, the report
rings, the windrow and the links. A notify hands entries over up to its tail index; an accepted entry becomes a launch or a
node; a launch whose conditions hold starts, is held by taint, or is skipped by its predicate; a completion is posted once.
The oldest report of a ring is posted, and its acknowledgement releases what its page held, or is kept while the partition
is stopped. -/
def Obligations.LaunchesReportsAndUnitsGoOn : Prop :=
  (∀ (s : State) (fn slot : Nat) (tail : BitVec 16), (s.queueAt fn slot = none → ∃ t, exec (.notifyWrite fn slot tail) s = .next t ∧
      t.drops.get fn 0 = (if s.drops.get fn 0 = -1 then -1 else s.drops.get fn 0 + 1) ∧ t.queues = s.queues) ∧
    (∀ q, s.queueAt fn slot = some q → ∃ t n, exec (.notifyWrite fn slot tail) s = .next t ∧
      t.queues.find slot = some { q with tail := n } ∧ n % 2 ^ q.log2 = tail.toNat % 2 ^ q.log2 ∧ q.tail ≤ n ∧
      n < q.tail + 2 ^ q.log2 ∧ t.pending = s.pending ++ [.launchAccept slot])) ∧
  (∀ (s : State) (slot : Nat) (q : Queue), s.queues.find slot = some q →
    (q.deleted = true ∨ q.tail ≤ q.next ∨ 64 ≤ (s.activeOf q.fn).length → exec (.launchAccept slot) s = .next s) ∧
    (q.deleted = false → q.next < q.tail → (s.activeOf q.fn).length < 64 →
      let a := q.base + wordOf (256 * (q.next % 2 ^ q.log2)); let r := s.hostRead q.fn (some q.pasid) a 256
      let u := s.hostTranslate 0 q.fn (some q.pasid) a 256
      (isNode r = true → exec (.launchAccept slot) s = .next ({ u with
        queues := u.queues.put slot { q with next := q.next + 1, node := some (r, !nodeOk r) } }.post (.launchAccept slot))) ∧
      (isNode r = false → let n := u.newLaunch q slot r; ∃ t, exec (.launchAccept slot) s = .next t ∧
        t.queues.find slot = some { q with next := q.next + 1, node := none } ∧
        (∃ x : Launch, t.launches.find (s.serial + 1) = some { n.1 with prereqs := x.prereqs, state := x.state } ∧
          (n.1.state ≠ .waiting → x.state = n.1.state) ∧ (n.1.state = .waiting → x.state = .waiting ∨ x.state = .held)) ∧
        (n.1.state = .waiting → .launchStart (s.serial + 1) ∈ t.pending) ∧
        (n.1.state ≠ .waiting → .completionPost (s.serial + 1) ∈ t.pending)))) ∧
  (∀ (s : State) (k : Nat) (l : Launch), s.launches.find k = some l →
    (s.unblocked l = false → exec (.launchStart k) s = .next s) ∧
    (s.unblocked l = true → s.outranked l = false →
      (s.prereqTainted l = true → l.released = false →
        exec (.launchStart k) s = .next (s.modLaunch k fun l => { l with state := .held })) ∧
      (s.prereqTainted l = false ∨ l.released = true →
        (l.predicate = none → exec (.launchStart k) s = .next (s.startLaunch k l)) ∧
        (∀ a u v, l.predicate = some a → s.predicateValue l a = (u, v) →
          (v = 0 → exec (.launchStart k) s =
            .next ((u.modLaunch k fun l => { l with state := .posting 3 0 }).post (.completionPost k))) ∧
          (v ≠ 0 → exec (.launchStart k) s = .next (u.startLaunch k l))))) ∧
    (l.heldOn = none → s.partStill l.part = false → (l.state = .running → l.rootsLive = 0 → s.launchTasks k = [] →
        exec (.completionPost k) s = .next (s.postLaunch k l 1 0)) ∧
      (l.state = .running → l.rootsLive ≠ 0 → exec (.completionPost k) s = .next s) ∧
      (∀ a b, l.state = .posting a b → exec (.completionPost k) s = .next (s.postLaunch k l a b)))) ∧
  (∀ (s : State) (fn k : Nat) (l : Launch) (r : List (Nat × Launch)), s.activeOf fn = (k, l) :: r → 63 ≤ r.length →
    (∀ e ∈ s.activeOf fn, e.2.state = .waiting ∨ e.2.state = .held) →
    (∀ e ∈ s.activeOf fn, s.unblocked e.2 = false ∨ s.prereqTainted e.2 = true) → exec (.launchStall fn) s =
      .next (s.report (ringOfFn fn) { mkReport s 5 0xFE 0x01 l.home 0 with part := l.part, info := l.seq }).1) ∧
  (∀ (s : State) (r : Nat) (y : Report) (rest : List Report), let x := s.ring r
    (x.held = [] → exec (.reportPost r) s = .next s) ∧
    (x.held = y :: rest → x.posted.length ≤ Config.ringRoom → x.used < x.weight → exec (.reportPost r) s = .next
      (let a := x.base + wordOf (64 * ((y.seq - 1) % (Config.ringRoom + 1)));
        ((s.hostTranslate (y.origin / 64) (r - 2) none a 64).setBytes (hostAddr (r - 2) none a.toNat) y.bytes).setRing r
        { x with held := rest, posted := x.posted ++ [y], used := x.used + 1 })) ∧
    (∀ seq, (x.posted.find? fun z => z.seq == seq) = none → exec (.ringAck r seq) s = .next s) ∧
    (∀ seq p, (x.posted.find? fun z => z.seq == seq) = some y → s.halting y.origin = true → s.partOf y.origin = some p →
      exec (.ringAck r seq) s = .next (s.modPart p fun x => { x with acks := x.acks ++ [(r, seq)] })) ∧
    (∀ seq, (x.posted.find? fun z => z.seq == seq) = some y → s.halting y.origin = false →
      let t := (s.setRing r { x with posted := x.posted.filter fun z => z.seq != seq }).post (.reportPost r)
      (r = ringTerminal → exec (.ringAck r seq) s = .next t) ∧
      (r ≠ ringTerminal → exec (.ringAck r seq) s = .next
        (releaseAll r (((x.posted ++ x.held).filter fun z => samePage y z).map fun z => z.seq) t)))) ∧
  (∀ (s : State) (c i p : Nat), let k := s.cluster c
    (k.drain = none → s.nextDrain c = some i → exec (.windrowDrainStart c) s = .next (s.modCluster c fun k =>
      { k with drain := some (c * 4 + i, 0), nextPair := if s.pairLost c i then k.nextPair else (i + 1) % 4 })) ∧
    (k.drain ≠ none → exec (.windrowDrainStart c) s = .next s) ∧
    (k.drain = some (p, 0) → exec (.windrowDrainTimeout c) s =
      .next (haltAll (hartsOfPair p) ((s.modCluster c fun k => { k with drain := some (p, 1) }).withdrawPair p))) ∧
    (k.drain = none → exec (.windrowDrainTimeout c) s = .next s ∧ ∀ b, exec (.windrowScanEnd c b) s = .next s) ∧
    (k.drain = some (p, 1) → let u := s.modCluster c fun k => { k with drain := none }
      (s.scanReady p = false → ∀ b, exec (.windrowScanEnd c b) s = .next s) ∧
      (s.scanReady p = true → exec (.windrowScanEnd c true) s =
          .next ((((u.cover p).returnCores c (p % 4)).amend.post (.tileOpStart p)).retryGangs c) ∧
        exec (.windrowScanEnd c false) s = .next (((u.scanFails c p).amend.post (.tileOpStart p)).retryGangs c)))) ∧
  (∀ (s : State) (core : Nat), let c := clusterOfCore core; let m : BitVec 8 := BitVec.ofNat 8 (2 ^ (core % 8))
    ((s.cluster c).lostCores.getLsbD (core % 8) = true → exec (.coreLoss core) s = .next s) ∧
    ((s.cluster c).lostCores.getLsbD (core % 8) = false →
      let u := (((loseHarts ((List.range 8).map fun i => core * 8 + i) s).unpost (.coreLoss core)).modCluster c fun k =>
        { k with lostCores := k.lostCores ||| m, lossNote := true, errCore := k.errCore &&& ~~~m }).sealCore core
      u.stoppingPart (core * 8) = none → exec (.coreLoss core) s = .next u)) ∧
  (∀ (s : State) (port h c : Nat) (v : BitVec 2) (w : BitVec 4),
    exec (.flitCrcError port) s = .next s ∧
    (s.ports.getLsbD port = true → exec (.linkPortLost port) s = .next s) ∧
    (s.ports.getLsbD port = false → let u := { s with ports := s.ports ||| BitVec.ofNat 18 (2 ^ port) }
      exec (.linkPortLost port) s = .next (u.report ringTerminal (mkReport u 5 51 0x06 0 0)).1) ∧
    ((s.hart h).waiting = none → exec (.remoteReplyTimeout h) s = .next s) ∧
    (∀ o x, (s.outgoing.find? fun o => o.mark == s.markOf h) = some o → (s.hart h).waiting = some x → (∃ l, x.kind = .sent l) →
      x.reply = none → exec (.remoteReplyTimeout h) s = .next (s.deliverReply h o.timeout)) ∧
    (exec (.stoppedRetry h) s = .next { s with
      outgoing := s.outgoing.map fun o => if o.mark = s.markOf h then { o with hart := h } else o }) ∧
    (v ≠ 3 → exec (.profileWind v) s = .next { s with profile := v ++ s.profile.setWidth 2 } ∧
      exec (.profilePower v) s = .next { s with profile := s.profile.extractLsb' 2 2 ++ v }) ∧
    (exec (.profileWind 3) s = .next s ∧ exec (.profilePower 3) s = .next s) ∧
    (∃ t, exec (.forecastUpdate c w) s = .next t ∧ t.cluster c = { s.cluster c with forecast := w } ∧
      ∀ d, d ≠ c → t.cluster d = s.cluster d))
/-- R345 to R347, R358, R359, R366 to R368, R372, R395: the context engine. A command is refused with code 5 while one runs
and with code 4 where the state does not allow it; a stop that comes during a stop joins it. A stop goes through its steps,
its save ends in state 4 or 5, a restore shows state 6 and ends in state 0 or 7, and the steps of a teardown drop the key and
the gates, leave zeros, and free the clusters. -/
def Obligations.ContextCommandsStopSaveRestoreAndScrub : Prop :=
  (∀ (s : State) (p : Nat), let x := s.parts.get p default
    let stops := [Instr.ctxStopSavePreempt p, .ctxStopSaveMigrate p, .ctxStop p, .ctxStopSaveDump p]
    let refuses := fun (l : List Instr) (n : Nat) => ∀ i ∈ l, exec i s = .next (s.setCode p n)
    (∀ n, (s.setCode p n).parts = s.parts.put p { x with code := BitVec.ofNat 8 n }) ∧
    (x.busy = true → refuses [.ctxResumeInPlace p, .ctxResumeSave p, .ctxTeardown p] 5 ∧
      (x.state ≠ 6 ∨ x.command ≠ 7 ∨ s.pending.contains (.ctxRestore p) = true → refuses [.ctxRestore p] 5) ∧
      (∀ n, exec (.ctxUnknownCommand p n) s = .next (s.setCode p 5)) ∧ (x.state ≠ 1 → refuses stops 5)) ∧
    (x.state = 1 → ∀ i ∈ stops, exec i s = .next s) ∧
    (x.busy = false →
      (∀ n, exec (.ctxUnknownCommand p n) s = .next (s.setCode p 4)) ∧
      (x.present = false ∨ 2 ≤ x.state → x.state ≠ 1 → refuses (stops.take 3) 4) ∧
      (x.present = false ∨ 3 ≤ x.state → x.state ≠ 1 → refuses stops 4) ∧
      (x.present = true → x.state = 0 → exec (.ctxStopSavePreempt p) s = .next (s.beginStop p 1 1) ∧
        exec (.ctxStopSaveMigrate p) s = .next (s.beginStop p 2 2) ∧ exec (.ctxStopSaveDump p) s = .next (s.beginStop p 3 3) ∧
        exec (.ctxStop p) s = .next (s.beginStop p 4 0)) ∧
      (x.present = true → x.state = 2 → exec (.ctxStopSaveDump p) s = .next ((s.modPart p fun x =>
        { x with
          state := 3, command := 3, kind := 3, baleAt := 0,
          damaged := x.damaged.filter fun e => e.1 != x.saveBase }).post (.baleWriteDone p))) ∧
      let may := x.present = true ∧ (x.state = 2 ∨ x.state = 4 ∧ x.clusters = x.savedMask)
      let u := ((s.startHarts p).ctxEnd p 0 0).modPart p fun x => { x with released := false, waits := [] }
      (may → exec (.ctxResumeInPlace p) s =
        .next (((if x.kind = 2 then resumeGates (u.gatesOf p) u else u).applyAcks p).kick p)) ∧
      (¬ may → refuses [.ctxResumeInPlace p] 4) ∧
      (x.present = true → x.state = 5 → exec (.ctxResumeSave p) s =
        .next ((s.modPart p fun y => { y with state := 3, command := 6, kind := x.kind }).post (.baleWriteDone p))) ∧
      (x.present = false ∨ x.state ≠ 5 → refuses [.ctxResumeSave p] 4) ∧
      (x.present = true → x.state ≠ 6 → exec (.ctxTeardown p) s =
        .next (((s.stopHarts p).modPart p fun y =>
          { y with scrubProg := setBits (setBits (setBits y.scrubProg 63 1 0) 59 4 9) 0 48 0 }).post (.scrubDone p))) ∧
      (x.present = false ∨ x.state = 6 → refuses [.ctxTeardown p] 4) ∧
      (s.liveTask p x = true → refuses [.ctxRestore p] 5) ∧
      (s.liveTask p x = false → (x.present = false ∨ x.state = 5 → refuses [.ctxRestore p] 4) ∧
        (x.present = true → x.state ≠ 5 → exec (.ctxRestore p) s = .next (((s.stopHarts p).modPart p fun y =>
          { y with state := 6, command := 7 }).post (.ctxRestore p))))) ∧
    (x.state = 6 → x.command = 7 → s.pending.contains (.ctxRestore p) = false →
      (∀ u t, s.restore p x = (u, .ok t) → exec (.ctxRestore p) s = .next t) ∧
      (∀ u code sect, s.restore p x = (u, .error (code, sect)) → exec (.ctxRestore p) s = .next (u.modPart p fun y =>
        { y with state := 7, code := BitVec.ofNat 8 code, sect := BitVec.ofNat 16 sect, command := 0, stopStep := 0 })))) ∧
  (∀ (s : State) (p : Nat), (s.parts.find p = none → ∀ i ∈ [Instr.engineQuiesceDone p, .stopDeliveryDone p, .baleWriteDone p,
      .saveIncomplete p, .scrubDone p], exec i s = .next s) ∧
    ∀ x, s.parts.find p = some x →
      (x.stopStep ≠ 3 → exec (.engineQuiesceDone p) s = .next s) ∧
      (x.stopStep = 3 → let ps := s.pairsOf p; let again := fun u : State => u.post (.engineQuiesceDone p)
        let works := (s.pending.any (engineWork ps)) ||
          (s.clustersOf p).any (fun c => (s.cluster c).slots.any fun e => e.2.out)
        (works = true → exec (.engineQuiesceDone p) s = .next (again s)) ∧
        (works = false → ((∀ q ∈ ps, (s.pair q).ops = []) → exec (.engineQuiesceDone p) s =
            .next (((quiesceAll (s.clustersOf p) s).modPart p fun x => { x with stopStep := 4 }).post (.stopDeliveryDone p))) ∧
          ((∃ q ∈ ps, (s.pair q).ops ≠ []) →
            ((∃ q ∈ ps, s.pairWorks q = true) → exec (.engineQuiesceDone p) s = .next (again (ps.foldl State.drivePair s))) ∧
            ((∀ q ∈ ps, s.pairWorks q = false) →
              exec (.engineQuiesceDone p) s = .next (again (dropWaitingGangs ps s)))))) ∧
      (x.stopStep ≠ 4 → exec (.stopDeliveryDone p) s = .next s) ∧
      (x.stopStep = 4 → (s.inFlight p = true → exec (.stopDeliveryDone p) s = .next (s.post (.stopDeliveryDone p))) ∧
        (s.inFlight p = false → let stopped := fun (u : State) => (u.modPart p fun x =>
            { x with state := 2, stopStep := 0, baleAt := 0 }).post (.baleWriteDone p)
          (x.command = 4 → exec (.stopDeliveryDone p) s = .next (s.ctxEnd p 2 0)) ∧
          (x.command = 2 → exec (.stopDeliveryDone p) s = .next (stopped (s.freezeGates p))) ∧
          (x.command ≠ 2 → x.command ≠ 4 → exec (.stopDeliveryDone p) s = .next (stopped s)))) ∧
      (x.state = 2 → x.command ≠ 0 → exec (.baleWriteDone p) s =
        .next ((s.modPart p fun x => { x with state := 3 }).post (.baleWriteDone p))) ∧
      (x.state = 3 →
        (∀ t, s.writeBale p x = (t, none) → exec (.baleWriteDone p) s = .next (((t.keepSaved p).ctxEnd p 4 0).modPart p fun x =>
            { x with released := x.kind != 3, baleAt := 0 }) ∧
          exec (.saveIncomplete p) s = .next (s.post (.baleWriteDone p))) ∧
        (∀ t pos fault, s.writeBale p x = (t, some (pos, fault)) → exec (.baleWriteDone p) s = .next (s.post (.saveIncomplete p)) ∧
          let l := baleSects s p x
          let spot := baleSpot pos 0 (placed l)
          let type := ((l[spot.1]?).map fun y => y.type).getD 0
          let a := wordOf (x.saveBase.toNat + pos)
          let at_ := wordOf (type + spot.2 * 2 ^ 16)
          let y := { mkReport t 5 15 0x02 ((s.clustersOf p).headD 0) 0 with part := p, stage := 2, access := 1, gpa := a, info := at_ }
          exec (.saveIncomplete p) s = .next (((t.report ringTerminal y).1.ctxEnd p 5 (if fault then 1 else 2)).modPart p fun x =>
            { x with sect := BitVec.ofNat 16 spot.1, baleAt := pos }))) ∧
      (x.state ≠ 3 → exec (.saveIncomplete p) s = .next s ∧
        (x.state ≠ 2 ∨ x.command = 0 → exec (.baleWriteDone p) s = .next s)) ∧
      (x.scrubProg.getLsbD 62 = false → exec (.scrubDone p) s = .next s) ∧
      (x.scrubProg.getLsbD 62 = true → let step := bits x.scrubProg 59 3; let e := exec (.scrubDone p) s
        let cs := s.clustersOf p; let leaves := s.leavesOf p x
        let begins := fun (u : State) => (u.modPart p fun y =>
          { y with scrubProg := setBits (setBits y.scrubProg 59 3 (step + 1)) 0 48 0 }).post (.scrubDone p)
        let counts := fun (u : State) (n : Nat) => if n = 0 then begins u else
          (u.modPart p fun y => { y with scrubProg := setBits y.scrubProg 0 48 n }).post (.scrubDone p)
        let zeroes := fun (f : Nat → Bool) (n : Nat) => ∃ z, e = .next (counts z n) ∧ z.harts = s.harts ∧
          ∀ a, z.byte a = if f a then Config.unwrittenByte else s.byte a
        (bits x.scrubProg 0 48 ≠ 0 → step ≠ 7 → e = .next (begins s)) ∧
        (bits x.scrubProg 0 48 = 0 →
          (step = 1 → e = .next (begins { s with keys := s.keys.drop x.key })) ∧
          (step = 2 → e = .next (begins (s.dropGates p))) ∧
          (step = 3 → zeroes (s.scrubsHbm p leaves) (leaves.foldl (fun n e => n + e.2.2) 0)) ∧
          (step = 4 → zeroes (scrubsVault x) ((maskList x.vaults).length * (vaultSize / 4096))) ∧
          (step = 5 → zeroes (scrubsPad cs) (cs.length * (padSize / 4096))) ∧
          (step = 6 → ∃ z, e = .next (counts z (cs.length * tileUnits)) ∧ z.harts = s.harts ∧ z.mem = s.mem ∧
            ∀ q t, clusterOfPair q ∈ cs → z.tile q t = default) ∧
          (step = 7 → x.acks = [] → ∃ t, e = .next t ∧ t.mem = s.mem ∧
            (∀ c < 128, s.partOf c = some p → t.partOf c = none ∧ ∀ k y, t.tasks.find k = some y → y.cluster ≠ c) ∧
            t.parts.find p = some { x with
              present := false, state := 8, code := 0, command := 0, stopStep := 0, clusters := 0, vaults := 0, clamps := 0,
              released := false, tracking := false, dirty := [], waits := [],
              scrubProg := setBits (setBits (setBits x.scrubProg 59 4 0) 63 1 1) 0 48 0 })))) ∧
  (∀ (s : State) (n : Nat), (s.gates.find n = none → exec (.gateSourceFree n) s = .next s) ∧
    ∀ g, s.gates.find n = some g → (g.moved = none → exec (.gateSourceFree n) s = .next s) ∧
      (g.moved ≠ none → exec (.gateSourceFree n) s = .next { s with gates := s.gates.drop n }))

/-- R61, R328, R336, R345, R346, R355, R369, R385 to R387, R392 to R394, R396 to R398: the host. A command takes its arguments
from HARG and ends with its code, status and result in HSTAT; an argument it refuses has no effect; while
a command runs, a write to HCMD is ignored. An invalidation of stage 2 runs until the regions that hold stores made through what
it removes have closed. A function-level reset
discards what is the function's, a device reset leaves HBM and host memory, and the loss of Mladja-D stops the package. -/
def Obligations.HostCommandsActAndAnswer : Prop :=
  (∀ s : State, let a := s.harg
    let ends := fun (i : Instr) (u : State) (code status result : Nat) => exec i s = .next (u.hdone code status result)
    let mask := maskOf (a 1) (a 2)
    (∀ code status result, (s.hdone code status result) = { s with hstat := wordOf (result % 2 ^ 32 * 2 ^ 16 + status * 2 ^ 8 + code) }) ∧
    -- a command runs: any other write to HCMD is ignored
    (s.hbusy = true → (∀ i ∈ [Instr.hcmdCreatePartition, .hcmdAssignClusters, .hcmdAssignVaults, .hcmdDirtyTrackingOn, .hcmdDirtyReport,
        .hcmdDirtyTrackingOff, .hcmdLoadKey, .hcmdZeroiseKey, .hcmdWritePermissionTable, .hcmdCreateGate, .hcmdSetAccessEntry, .hcmdFreeGate,
        .hcmdSetRingWeight, .hcmdReleaseHeldLaunch, .hcmdDiscardHeldLaunch, .hcmdCreateQueue 0, .hcmdDeleteQueue 0], exec i s = .next s) ∧
      (∀ code, exec (.hcmdUnknown code) s = .next s) ∧
      exec .hcmdSetStage2Root s = .next (if bits s.hstat 0 8 = 0x04 then s.hwaitFor 0x04 .hcmdSetStage2Root s.hwait else s) ∧
      exec .hcmdInvalidateStage2 s = .next (if bits s.hstat 0 8 = 0x05 then s.hwaitFor 0x05 .hcmdInvalidateStage2 s.hwait else s)) ∧
    (∀ cmd again l, s.hwaitFor cmd again l = if s.regionsOpen l then { s with hstat := wordOf (2 ^ 63 + cmd), hwait := l }.post again
      else { s with hwait := [] }.hdone cmd 0 0) ∧
    (s.hbusy = false → (∀ code : BitVec 8, ends (.hcmdUnknown code) s code.toNat 1 0) ∧
    -- partitions
    (let bad := 64 ≤ a 0 ∨ 64 ≤ a 1 ∨ a 2 % 4096 ≠ 0 ∨ 512 ≤ a 3
     let used := s.parts.any fun e => e.2.present && (e.2.fn == a 1 || e.2.key == a 3)
     (bad → ends .hcmdCreatePartition s 0x01 1 0) ∧
     (¬ bad → (s.parts.get (a 0) default).present = true → ends .hcmdCreatePartition s 0x01 4 0) ∧
     (¬ bad → (s.parts.get (a 0) default).present = false → (used = true → ends .hcmdCreatePartition s 0x01 2 0) ∧
       (used = false → ∃ (t : State) (x : Machine.Part), exec .hcmdCreatePartition s = .next t ∧ t = { s with parts := s.parts.put (a 0) x }.hdone 0x01 0 0 ∧
         x.present = true ∧ x.fn = a 1 ∧ x.root2 = wordOf (a 2) ∧ x.key = a 3 ∧ x.clusters = 0 ∧ x.vaults = 0 ∧ x.state = 0 ∧
         x.scrubProg = 0 ∧ x.clamps = 0 ∧ x.tracking = false))) ∧
    ((s.parts.get (a 0) default).present = false → ends .hcmdAssignClusters s 0x02 1 0 ∧ ends .hcmdAssignVaults s 0x03 1 0 ∧
      ends .hcmdSetStage2Root s 0x04 1 0 ∧ ends .hcmdInvalidateStage2 s 0x05 1 0 ∧ ends .hcmdDirtyTrackingOn s 0x60 1 0 ∧
      ends .hcmdDirtyReport s 0x61 1 0 ∧ ends .hcmdDirtyTrackingOff s 0x62 1 0) ∧
    (∀ x, s.parts.find (a 0) = some x → x.present = true →
      (((maskList mask).all (s.clusterFree (a 0)) = false → ends .hcmdAssignClusters s 0x02 2 0) ∧
       ((maskList mask).all (s.clusterFree (a 0)) = true →
         let t := (giveClusters (a 0) (maskList mask) s).modPart (a 0) fun x => { x with clusters := x.clusters ||| mask }
         ends .hcmdAssignClusters t 0x02 0 (maskList (t.parts.get (a 0) default).clusters).length)) ∧
      (let taken := x.scrubProg.getLsbD 62 || s.parts.any fun e => e.1 != a 0 && e.2.present && (e.2.vaults &&& mask) != 0
       (taken = true → ends .hcmdAssignVaults s 0x03 2 0) ∧
       (taken = false → ends .hcmdAssignVaults { s with parts := s.parts.put (a 0) { x with vaults := x.vaults ||| mask } } 0x03 0
         (maskList (x.vaults ||| mask)).length)) ∧
      (a 2 % 4096 ≠ 0 → ends .hcmdSetStage2Root s 0x04 1 0) ∧
      (a 2 % 4096 = 0 → exec .hcmdSetStage2Root s = .next (({ s with parts := s.parts.put (a 0) { x with root2 := wordOf (a 2) } }.flushStage2
        (a 0) fun _ _ => true).hwaitFor 0x04 .hcmdSetStage2Root (s.guestRegions (a 0) fun _ _ => true))) ∧
      (a 1 % 4096 ≠ 0 → ends .hcmdInvalidateStage2 s 0x05 1 0) ∧
      (a 1 % 4096 = 0 → let hit := fun g m => a 2 == 0 || (decide (a 1 < (g + m) * 4096) && decide (g * 4096 < a 1 + a 2))
        exec .hcmdInvalidateStage2 s = .next ((s.flushStage2 (a 0) hit).hwaitFor 0x05 .hcmdInvalidateStage2 (s.guestRegions (a 0) hit))) ∧
      ends .hcmdDirtyTrackingOn { s with parts := s.parts.put (a 0) { x with tracking := true, dirty := [] } } 0x60 0 0 ∧
      ends .hcmdDirtyTrackingOff { s with parts := s.parts.put (a 0) { x with tracking := false, dirty := [] } } 0x62 0 0 ∧
      (x.tracking = false → ends .hcmdDirtyReport s 0x61 4 0) ∧
      (x.tracking = true → (a 2 * 8 < guestTop (s.leavesOf (a 0) x) → ends .hcmdDirtyReport s 0x61 1 0) ∧
        (guestTop (s.leavesOf (a 0) x) ≤ a 2 * 8 → let now := x.dirty.filter fun g => decide (g < a 2 * 8)
          ends .hcmdDirtyReport (((s.hostTranslate 0 0 none (wordOf (a 1)) (a 2)).hostWrite 0 none (wordOf (a 1)) (bitmap now (a 2))).modPart (a 0) fun x =>
            { x with dirty := x.dirty.filter fun g => !decide (g < a 2 * 8) }) 0x61 0 now.length))) ∧
    -- keys and permission tables
    (let used := (s.parts.any fun e => e.2.present && e.2.key == a 0) || s.gates.any fun e => e.2.present && e.2.key == a 0
     (512 ≤ a 0 → ends .hcmdLoadKey s 0x10 1 0 ∧ ends .hcmdZeroiseKey s 0x11 1 0) ∧
     (a 0 < 512 → (used = true → ends .hcmdLoadKey s 0x10 2 0) ∧
       (used = false → let u := s.hostTranslate 0 0 none (wordOf (a 1)) 64
         ends .hcmdLoadKey { u with keys := u.keys.put (a 0) (BitVec.ofNat 512 (leNat (s.hostRead 0 none (wordOf (a 1)) 64))) }
           0x10 0 0) ∧
       ends .hcmdZeroiseKey { s with keys := s.keys.drop (a 0) } 0x11 0 0)) ∧
    (let bs := s.hostRead 0 none (wordOf (a 1)) 528
     let m : BitVec 128 := BitVec.ofNat 128 (natAt bs 0 16)
     let u := s.hostTranslate 0 0 none (wordOf (a 1)) 528
     let inside := (maskList m).all fun d => d == a 0 || ((u.partOf (a 0)).isSome && u.partOf d == u.partOf (a 0))
     (128 ≤ a 0 → ends .hcmdWritePermissionTable s 0x20 1 0) ∧
     (a 0 < 128 → (inside = false → ends .hcmdWritePermissionTable u 0x20 5 0) ∧
       (inside = true → ends .hcmdWritePermissionTable (u.modCluster (a 0) fun k =>
         { k with permLocal := m, permRemote := (List.range 16).map fun i => (i, remoteAt bs i) }) 0x20 0 0))) ∧
    -- gates
    (let owner := (s.parts.get (a 1) default).present
     let bad := (1024 ≤ a 0 ∧ a 0 ≠ 0xFFFF) ∨ owner = false ∨ a 2 % 4096 ≠ 0 ∨ a 3 = 0 ∨ 2 ^ 18 < a 3 ∨ 512 ≤ a 4
     (bad → ends .hcmdCreateGate s 0x30 1 0) ∧
     (¬ bad → (s.freeGateNum (a 0) = none → ends .hcmdCreateGate s 0x30 3 0) ∧
       (∀ n, s.freeGateNum (a 0) = some n → ∃ g : Gate, ends .hcmdCreateGate (s.setGate n g) 0x30 0 (gateHandle s.chip n).toNat ∧
         g.present = true ∧ g.owner = a 1 ∧ g.base = wordOf (a 2) ∧ g.size = wordOf (a 3) ∧ g.key = a 4 ∧ g.opened = false ∧
         g.counter = 0 ∧ g.access = [] ∧ g.waiters = []))) ∧
    (s.gates.find (a 0) = none → ends .hcmdSetAccessEntry s 0x31 1 0) ∧
    (∀ g, s.gates.find (a 0) = some g → let w := wordOf (a 2)
      let rate := a 3 % 65536
      let burst := a 3 / 65536 % 65536
      let bad := g.present = false ∨ 8 ≤ a 1 ∨ (w.getLsbD 21 = true ∧ (rate = 0 ∨ burst = 0))
      (bad → ends .hcmdSetAccessEntry s 0x31 1 0) ∧
      (¬ bad → let l := g.access ++ List.replicate (8 - g.access.length) default
        ends .hcmdSetAccessEntry (s.setGate (a 0) { g with access := l.set (a 1) {
          chip := w.setWidth 12, part := bits w 12 6, rights := BitVec.ofNat 8 (bits w 18 2), rate := rate,
          burst := burst, policy := w.getLsbD 20, tokens := burst, valid := w.getLsbD 21 } }) 0x31 0 0)) ∧
    ends .hcmdFreeGate (s.freeGate (a 0)) 0x32 0 0 ∧
    -- rings and held launches
    (let bad := 66 ≤ a 0 ∨ a 1 = 0 ∨ 16 < a 1
     (bad → ends .hcmdSetRingWeight s 0x50 1 0) ∧
     (¬ bad → ends .hcmdSetRingWeight (s.setRing (a 0) { s.ring (a 0) with weight := a 1 }) 0x50 0 0)) ∧
    (s.heldLaunch = none → ends .hcmdReleaseHeldLaunch s 0x70 1 0 ∧ ends .hcmdDiscardHeldLaunch s 0x71 1 0) ∧
    (∀ k l, s.heldLaunch = some (k, l) →
      ends .hcmdReleaseHeldLaunch ((s.modLaunch k fun l => { l with released := true, state := .waiting }).post (.launchStart k)) 0x70 0 0 ∧
      ends .hcmdDiscardHeldLaunch ((s.modLaunch k fun l => { l with state := .posting 4 0 }).post (.completionPost k)) 0x71 0 0))) ∧
  -- queues, by the PF or by a VF for itself
  (∀ (s : State) (fn : Nat), let f := s.qfn fn
    let pasid := s.qarg fn 1
    let number := s.qarg fn 2
    let w := s.qarg fn 4
    let ends := fun (i : Instr) (u : State) (code status result : Nat) => exec i s = .next (u.qdone fn code status result)
    let bad := 64 ≤ f ∨ 2 ^ 20 ≤ pasid ∨ 256 ≤ number ∨ s.qarg fn 3 % 4096 ≠ 0 ∨ w % 32 < 4 ∨ 16 < w % 32
    let spot := (probes pasid number).find? fun n => match s.queues.find n with | some q => q.deleted | none => true
    ¬ (fn = 0 ∧ s.hbusy = true) → (s.ready.getLsbD 63 = false → ends (.hcmdCreateQueue fn) s 0x40 4 0) ∧
    (s.ready.getLsbD 63 = true → (bad → ends (.hcmdCreateQueue fn) s 0x40 1 0) ∧
      (¬ bad → (spot = none → ends (.hcmdCreateQueue fn) s 0x40 3 0) ∧
        (∀ n, spot = some n → ends (.hcmdCreateQueue fn) { s.tick with queues := s.queues.put n {
          deleted := false, fn := f, pasid := pasid, number := number, base := wordOf (s.qarg fn 3), log2 := w % 32,
          prio := w / 2 ^ 8 % 4, vector := w / 2 ^ 16 % 64, next := 0, tail := 0, node := none, born := s.serial + 1 } } 0x40 0 n))) ∧
    (findQueue s f pasid number (probes pasid number) = none → ends (.hcmdDeleteQueue fn) s 0x41 1 0) ∧
    (∀ n, findQueue s f pasid number (probes pasid number) = some n →
      ends (.hcmdDeleteQueue fn) (({ s with queues := s.queues.put n { s.queues.get n default with deleted := true } }.dropPrereqs
        f pasid number).afterPosting f) 0x41 0 0)) ∧
  -- resets, bring-up and the loss of the link between the dies
  (∀ (s : State) (fn pasid addr : Nat) (steps : BitVec 7),
    exec (.functionLevelReset fn) s = .next (discardLaunches (s.activeOf fn)
      { s with queues := s.queues.filter fun e => e.2.fn != fn, ats := s.ats.filter fun e => e.fn != fn }) ∧
    exec (.atsInvalidationRequest fn pasid addr) s = .next { s with ats := s.ats.filter fun e =>
      !(e.fn == fn && (e.pasid == some pasid || e.pasid == none) && e.page == addr / 4096) } ∧
    (bits s.ready 62 2 ≠ 0 → exec (.bringupDone steps) s = .next s) ∧
    (bits s.ready 62 2 = 0 → ∃ w, exec (.bringupDone steps) s = .next { s with ready := w } ∧
      w.getLsbD 63 = decide (steps = 127) ∧ w.getLsbD 62 = decide (steps ≠ 127) ∧ w.setWidth 62 = steps.setWidth 62) ∧
    (∃ t, exec .deviceReset s = .next t ∧ t.harts = State.reset.harts ∧ t.tasks = [] ∧ t.futures = [] ∧ t.queues = [] ∧
      t.launches = [] ∧ t.gates = [] ∧ t.keys = [] ∧ t.unitKeys = s.unitKeys ∧ t.ready = State.reset.ready ∧ t.hstat = 0 ∧ t.profile = State.reset.profile ∧ t.chip = s.chip ∧
      (∀ a, a < hbmSize ∨ hostBase ≤ a → t.byte a = s.byte a) ∧
      (∀ a, hbmSize ≤ a → a < hostBase → t.byte a = Config.unwrittenByte) ∧
      (∀ p, (∀ e ∈ s.parts, e.1 = p → e.2.scrubProg.getLsbD 62 = false) → t.parts.find p = none)) ∧
    (∃ t, exec .mladjaDLoss s = .next t ∧ t = { s with halted := true, parts := t.parts } ∧
      ∀ p x, s.parts.find p = some x → x.present = true → t.parts.find p = some { x with state := 7 }))

/-- R54, R75, R103, R104, R138, R143, R223, R235, R347, R355, R359, R393, R398, R399, R402: what reset leaves. The manual
gives every value but those of the last clause, which are the model's choice: the pc, the x and f registers, the bytes of HBM
and host memory (log 1, log 2). -/
def Obligations.ResetLeavesItsValues : Prop :=
  let s := State.reset
  (∀ h, let x := s.hart h
    x.ctx.stcol = 0 ∧ x.ctx.vrm = 0 ∧ (∀ n : Fin 4, x.ctx.mfmt[n] = 0) ∧ x.ctx.mgang = 0 ∧ x.mode = .m ∧ x.sys.satp = 0 ∧
    x.sys.mstatus = 0 ∧ x.sys.mcounteren = 0 ∧ x.sys.scounteren = 0 ∧ x.resv = none ∧ x.task = none ∧ x.waiting = none) ∧
  (∀ c n, (s.stage c n).word0 = 0 ∧ (s.stage c n).word1 = 0) ∧
  (∀ p t, (s.tile p t).status = 0 ∧ ∀ r, (s.tile p t).rows.get r 0 = 0) ∧
  (∀ p i, (s.pair p).sems.get i 0 = 0) ∧ (∀ k, s.barrier k = { count := 0, arrivals := 0, phase := 0 }) ∧
  (∀ k, (s.mailbox k).msgs = []) ∧ (∀ p, let x := s.parts.get p default
    x.sect = 0 ∧ x.code = 0 ∧ x.state = 0 ∧ x.scrubProg = 0 ∧ x.clamps = 0) ∧
  (∀ r, (s.ring r).weight = if r = 0 then 8 else if r = 1 then 4 else 1) ∧
  s.ready = 0 ∧ s.hstat = 0 ∧ s.profile.extractLsb' 2 2 = 1 ∧ s.profile.extractLsb' 0 2 = 0 ∧ s.MemOk ∧
  (∀ a, vaultBase ≤ a → a < padBase + 128 * padSize → s.byte a = 0) ∧
  ((∀ h, (s.hart h).pc = Config.resetVector ∧ ∀ r : Fin 32, (s.hart h).ctx.x[r] = 0 ∧ (s.hart h).ctx.f[r] = 0) ∧
    ∀ a, s.byte a = Config.unwrittenByte)

/-- R98 to R101, R116, R120, R397: the step. A hart that is in rotation and has no word begun runs the word at its pc: the
word's instruction, or the illegal instruction where the word has none or a transfer reached a row word past its prefix. A
hart in a wait tries its instruction again. The oldest event in flight and the slot of the acting hart come in turn. A package
that has lost Mladja-D stands still until a device reset. Which agent moves is the model's own schedule (log 3). -/
def Obligations.StepRunsTheDecodedInstruction : Prop :=
  (∀ s : State, s.halted = false → s.turns = [] → let c := s.clockTick
    let runs := fun (u : State) (i : Instr) => (∀ t, exec i u = .next t → step s = .next t.advance) ∧
      (∀ f, exec i u = .fault f → step s = .fault f) ∧ (∀ r, exec i u = .refused r → step s = .refused r)
    (∀ i r, c.clock % 2 = 0 → s.me.midPair = false → s.pending = i :: r → step s = exec i { c with pending := r }) ∧
    (s.me.midPair = true ∨ s.pending = [] ∨ c.clock % 2 = 1 → s.me.stopped = false → s.me.inService = true → c.haltAt s.cur = none →
      (s.me.interruptible = true → (c.interruptFor s.cur).isSome = true → runs c (.interruptTake s.cur)) ∧
      ((s.me.interruptible = true → c.interruptFor s.cur = none) →
        (∀ w, s.me.waiting = some w → (∀ r q, w.kind ≠ .page r q) → runs c w.instr) ∧
        (s.me.waiting = none → (s.me.mode = .u → s.me.task = none → runs c (.taskDispatch s.cur)) ∧
          (s.me.mode ≠ .u ∨ s.me.task ≠ none → ∀ u w a, c.popStack.fetchWord = .ok (u, w, a) →
            (∀ e, decodeWord w = .error e → runs u (.illegalInstruction w)) ∧
            (∀ i, decodeWord w = .ok i →
              let past := u.me.jumped && isRowWord w && u.me.pc.toNat % 64 != 0 &&
                isPfxWord (BitVec.ofNat 32 (leNat (u.ownUnits [({ pa := a - 4, gpa := 0, window := false, free := false }, 4)])))
              (past = false → runs u i) ∧ (past = true → runs u (.illegalInstruction w)))))))) ∧
  (∀ s : State, s.halted = true → (s.pending.contains .deviceReset = false → step s = .fault .packageStopped) ∧
    (s.pending.contains .deviceReset = true → step s = exec .deviceReset { s with pending := s.pending.erase .deviceReset }))

/-- R90 to R98, with the worked encodings of the manual: words written out from the formats decode to the instructions they
stand for, and words the map does not list are refused. -/
def Obligations.WorkedWordsDecode : Prop :=
  decodeWord 0x02C8100B = .ok (.cfence 0x02 .release 6) ∧
  decodeWord 0xFFD8100B = .ok (.cfence 0xFF .both 6) ∧
  decodeWord 0x1C65228B = .ok (.samo .swap 6 5 10 6) ∧
  decodeWord 0x92C1045B = .ok (.mma { fslot := 2, stream := 1, fzi := false, fzo := false, a := .tile 2, b := .pad 12, md := 4 }) ∧
  decodeWord 0x5300707B = .ok (.vpfx { k := 2, zero := true, rm := 1, fzi := true, fzo := false, t4 := 0, td := 0, x4 := 0 }) ∧
  decodeWord 0x0190857B = .ok (.vadd 1 2 3 10) ∧
  decodeWord 0b00000010101001010000001010101011 = .error .unlisted ∧
  decodeWord 0b10100000011001010010001010001011 = .error .unlisted ∧
  decodeWord 0b00000000000000000111000001011011 = .error .unlisted ∧
  decodeWord 0b00000000000000000001000000001011 = .error .codedField ∧
  decodeWord 0b00000000000000000000000000000001 = .error .compressed ∧
  decodeWord 0b00000000000000000000000000011111 = .error .longer

/-- R90 to R97, R105: no bit of an encoding is dropped. The bytes of the word of a well-formed instruction, with any bytes
after them, decode to that instruction, for every operand. -/
def Obligations.EncodedInstructionsDecode : Prop :=
  ∀ (i : Instr) (w : W32) (rest : List Byte), i.wf = true → encode i = some w → decode (bytesOfWord w ++ rest) = .ok (i, rest)

/-- The model's memory stays in its one canonical form, whatever step the package takes (R48, R67: memory is what the writes
performed so far have left). -/
def Obligations.EveryStepKeepsMemoryCanonical : Prop :=
  ∀ s t : State, s.MemOk → step s = .next t → t.MemOk
end

