-- ==== Sys2Proof/Laws/State.lean ====
section
/-! SUPPORT. What every update of the state leaves alone: one lemma per field per update; and what the registers, the
tables and the units of the state read as after an update. -/

namespace Sys2Proof.Machine

/-! ### setHart -/

@[simp] theorem State.setHart_mem (s : State) (h : Nat) (x : Hart) : (s.setHart h x).mem = s.mem := rfl
@[simp] theorem State.setHart_tasks (s : State) (h : Nat) (x : Hart) : (s.setHart h x).tasks = s.tasks := rfl
@[simp] theorem State.setHart_futures (s : State) (h : Nat) (x : Hart) : (s.setHart h x).futures = s.futures := rfl
@[simp] theorem State.setHart_clusters (s : State) (h : Nat) (x : Hart) : (s.setHart h x).clusters = s.clusters := rfl
@[simp] theorem State.setHart_pairs (s : State) (h : Nat) (x : Hart) : (s.setHart h x).pairs = s.pairs := rfl
@[simp] theorem State.setHart_barriers (s : State) (h : Nat) (x : Hart) : (s.setHart h x).barriers = s.barriers := rfl
@[simp] theorem State.setHart_mailboxes (s : State) (h : Nat) (x : Hart) : (s.setHart h x).mailboxes = s.mailboxes := rfl
@[simp] theorem State.setHart_parts (s : State) (h : Nat) (x : Hart) : (s.setHart h x).parts = s.parts := rfl
@[simp] theorem State.setHart_gates (s : State) (h : Nat) (x : Hart) : (s.setHart h x).gates = s.gates := rfl
@[simp] theorem State.setHart_rings (s : State) (h : Nat) (x : Hart) : (s.setHart h x).rings = s.rings := rfl
@[simp] theorem State.setHart_queues (s : State) (h : Nat) (x : Hart) : (s.setHart h x).queues = s.queues := rfl
@[simp] theorem State.setHart_launches (s : State) (h : Nat) (x : Hart) : (s.setHart h x).launches = s.launches := rfl
@[simp] theorem State.setHart_fmts (s : State) (h : Nat) (x : Hart) : (s.setHart h x).fmts = s.fmts := rfl
@[simp] theorem State.setHart_fmtVers (s : State) (h : Nat) (x : Hart) : (s.setHart h x).fmtVers = s.fmtVers := rfl
@[simp] theorem State.setHart_gateMarks (s : State) (h : Nat) (x : Hart) : (s.setHart h x).gateMarks = s.gateMarks := rfl
@[simp] theorem State.setHart_keys (s : State) (h : Nat) (x : Hart) : (s.setHart h x).keys = s.keys := rfl
@[simp] theorem State.setHart_unitKeys (s : State) (h : Nat) (x : Hart) : (s.setHart h x).unitKeys = s.unitKeys := rfl
@[simp] theorem State.setHart_hargs (s : State) (h : Nat) (x : Hart) : (s.setHart h x).hargs = s.hargs := rfl
@[simp] theorem State.setHart_hstat (s : State) (h : Nat) (x : Hart) : (s.setHart h x).hstat = s.hstat := rfl
@[simp] theorem State.setHart_hwait (s : State) (h : Nat) (x : Hart) : (s.setHart h x).hwait = s.hwait := rfl
@[simp] theorem State.setHart_vfArgs (s : State) (h : Nat) (x : Hart) : (s.setHart h x).vfArgs = s.vfArgs := rfl
@[simp] theorem State.setHart_vfStat (s : State) (h : Nat) (x : Hart) : (s.setHart h x).vfStat = s.vfStat := rfl
@[simp] theorem State.setHart_drops (s : State) (h : Nat) (x : Hart) : (s.setHart h x).drops = s.drops := rfl
@[simp] theorem State.setHart_msix (s : State) (h : Nat) (x : Hart) : (s.setHart h x).msix = s.msix := rfl
@[simp] theorem State.setHart_ats (s : State) (h : Nat) (x : Hart) : (s.setHart h x).ats = s.ats := rfl
@[simp] theorem State.setHart_chip (s : State) (h : Nat) (x : Hart) : (s.setHart h x).chip = s.chip := rfl
@[simp] theorem State.setHart_ready (s : State) (h : Nat) (x : Hart) : (s.setHart h x).ready = s.ready := rfl
@[simp] theorem State.setHart_profile (s : State) (h : Nat) (x : Hart) : (s.setHart h x).profile = s.profile := rfl
@[simp] theorem State.setHart_ports (s : State) (h : Nat) (x : Hart) : (s.setHart h x).ports = s.ports := rfl
@[simp] theorem State.setHart_outgoing (s : State) (h : Nat) (x : Hart) : (s.setHart h x).outgoing = s.outgoing := rfl
@[simp] theorem State.setHart_departed (s : State) (h : Nat) (x : Hart) : (s.setHart h x).departed = s.departed := rfl
@[simp] theorem State.setHart_forwards (s : State) (h : Nat) (x : Hart) : (s.setHart h x).forwards = s.forwards := rfl
@[simp] theorem State.setHart_former (s : State) (h : Nat) (x : Hart) : (s.setHart h x).former = s.former := rfl
@[simp] theorem State.setHart_halted (s : State) (h : Nat) (x : Hart) : (s.setHart h x).halted = s.halted := rfl
@[simp] theorem State.setHart_serial (s : State) (h : Nat) (x : Hart) : (s.setHart h x).serial = s.serial := rfl
@[simp] theorem State.setHart_pending (s : State) (h : Nat) (x : Hart) : (s.setHart h x).pending = s.pending := rfl
@[simp] theorem State.setHart_turns (s : State) (h : Nat) (x : Hart) : (s.setHart h x).turns = s.turns := rfl
@[simp] theorem State.setHart_cur (s : State) (h : Nat) (x : Hart) : (s.setHart h x).cur = s.cur := rfl
@[simp] theorem State.setHart_clock (s : State) (h : Nat) (x : Hart) : (s.setHart h x).clock = s.clock := rfl
@[simp] theorem State.setHart_fresh (s : State) (h : Nat) (x : Hart) : (s.setHart h x).fresh = s.fresh := rfl

/-! ### modHart -/

@[simp] theorem State.modHart_mem (s : State) (h : Nat) (f : Hart → Hart) : (s.modHart h f).mem = s.mem := rfl
@[simp] theorem State.modHart_tasks (s : State) (h : Nat) (f : Hart → Hart) : (s.modHart h f).tasks = s.tasks := rfl
@[simp] theorem State.modHart_futures (s : State) (h : Nat) (f : Hart → Hart) : (s.modHart h f).futures = s.futures := rfl
@[simp] theorem State.modHart_clusters (s : State) (h : Nat) (f : Hart → Hart) : (s.modHart h f).clusters = s.clusters := rfl
@[simp] theorem State.modHart_pairs (s : State) (h : Nat) (f : Hart → Hart) : (s.modHart h f).pairs = s.pairs := rfl
@[simp] theorem State.modHart_barriers (s : State) (h : Nat) (f : Hart → Hart) : (s.modHart h f).barriers = s.barriers := rfl
@[simp] theorem State.modHart_mailboxes (s : State) (h : Nat) (f : Hart → Hart) : (s.modHart h f).mailboxes = s.mailboxes := rfl
@[simp] theorem State.modHart_parts (s : State) (h : Nat) (f : Hart → Hart) : (s.modHart h f).parts = s.parts := rfl
@[simp] theorem State.modHart_gates (s : State) (h : Nat) (f : Hart → Hart) : (s.modHart h f).gates = s.gates := rfl
@[simp] theorem State.modHart_rings (s : State) (h : Nat) (f : Hart → Hart) : (s.modHart h f).rings = s.rings := rfl
@[simp] theorem State.modHart_queues (s : State) (h : Nat) (f : Hart → Hart) : (s.modHart h f).queues = s.queues := rfl
@[simp] theorem State.modHart_launches (s : State) (h : Nat) (f : Hart → Hart) : (s.modHart h f).launches = s.launches := rfl
@[simp] theorem State.modHart_fmts (s : State) (h : Nat) (f : Hart → Hart) : (s.modHart h f).fmts = s.fmts := rfl
@[simp] theorem State.modHart_fmtVers (s : State) (h : Nat) (f : Hart → Hart) : (s.modHart h f).fmtVers = s.fmtVers := rfl
@[simp] theorem State.modHart_gateMarks (s : State) (h : Nat) (f : Hart → Hart) : (s.modHart h f).gateMarks = s.gateMarks := rfl
@[simp] theorem State.modHart_keys (s : State) (h : Nat) (f : Hart → Hart) : (s.modHart h f).keys = s.keys := rfl
@[simp] theorem State.modHart_unitKeys (s : State) (h : Nat) (f : Hart → Hart) : (s.modHart h f).unitKeys = s.unitKeys := rfl
@[simp] theorem State.modHart_hargs (s : State) (h : Nat) (f : Hart → Hart) : (s.modHart h f).hargs = s.hargs := rfl
@[simp] theorem State.modHart_hstat (s : State) (h : Nat) (f : Hart → Hart) : (s.modHart h f).hstat = s.hstat := rfl
@[simp] theorem State.modHart_hwait (s : State) (h : Nat) (f : Hart → Hart) : (s.modHart h f).hwait = s.hwait := rfl
@[simp] theorem State.modHart_vfArgs (s : State) (h : Nat) (f : Hart → Hart) : (s.modHart h f).vfArgs = s.vfArgs := rfl
@[simp] theorem State.modHart_vfStat (s : State) (h : Nat) (f : Hart → Hart) : (s.modHart h f).vfStat = s.vfStat := rfl
@[simp] theorem State.modHart_drops (s : State) (h : Nat) (f : Hart → Hart) : (s.modHart h f).drops = s.drops := rfl
@[simp] theorem State.modHart_msix (s : State) (h : Nat) (f : Hart → Hart) : (s.modHart h f).msix = s.msix := rfl
@[simp] theorem State.modHart_ats (s : State) (h : Nat) (f : Hart → Hart) : (s.modHart h f).ats = s.ats := rfl
@[simp] theorem State.modHart_chip (s : State) (h : Nat) (f : Hart → Hart) : (s.modHart h f).chip = s.chip := rfl
@[simp] theorem State.modHart_ready (s : State) (h : Nat) (f : Hart → Hart) : (s.modHart h f).ready = s.ready := rfl
@[simp] theorem State.modHart_profile (s : State) (h : Nat) (f : Hart → Hart) : (s.modHart h f).profile = s.profile := rfl
@[simp] theorem State.modHart_ports (s : State) (h : Nat) (f : Hart → Hart) : (s.modHart h f).ports = s.ports := rfl
@[simp] theorem State.modHart_outgoing (s : State) (h : Nat) (f : Hart → Hart) : (s.modHart h f).outgoing = s.outgoing := rfl
@[simp] theorem State.modHart_departed (s : State) (h : Nat) (f : Hart → Hart) : (s.modHart h f).departed = s.departed := rfl
@[simp] theorem State.modHart_forwards (s : State) (h : Nat) (f : Hart → Hart) : (s.modHart h f).forwards = s.forwards := rfl
@[simp] theorem State.modHart_former (s : State) (h : Nat) (f : Hart → Hart) : (s.modHart h f).former = s.former := rfl
@[simp] theorem State.modHart_halted (s : State) (h : Nat) (f : Hart → Hart) : (s.modHart h f).halted = s.halted := rfl
@[simp] theorem State.modHart_serial (s : State) (h : Nat) (f : Hart → Hart) : (s.modHart h f).serial = s.serial := rfl
@[simp] theorem State.modHart_pending (s : State) (h : Nat) (f : Hart → Hart) : (s.modHart h f).pending = s.pending := rfl
@[simp] theorem State.modHart_turns (s : State) (h : Nat) (f : Hart → Hart) : (s.modHart h f).turns = s.turns := rfl
@[simp] theorem State.modHart_cur (s : State) (h : Nat) (f : Hart → Hart) : (s.modHart h f).cur = s.cur := rfl
@[simp] theorem State.modHart_clock (s : State) (h : Nat) (f : Hart → Hart) : (s.modHart h f).clock = s.clock := rfl
@[simp] theorem State.modHart_fresh (s : State) (h : Nat) (f : Hart → Hart) : (s.modHart h f).fresh = s.fresh := rfl

/-! ### modMe -/

@[simp] theorem State.modMe_mem (s : State) (f : Hart → Hart) : (s.modMe f).mem = s.mem := rfl
@[simp] theorem State.modMe_tasks (s : State) (f : Hart → Hart) : (s.modMe f).tasks = s.tasks := rfl
@[simp] theorem State.modMe_futures (s : State) (f : Hart → Hart) : (s.modMe f).futures = s.futures := rfl
@[simp] theorem State.modMe_clusters (s : State) (f : Hart → Hart) : (s.modMe f).clusters = s.clusters := rfl
@[simp] theorem State.modMe_pairs (s : State) (f : Hart → Hart) : (s.modMe f).pairs = s.pairs := rfl
@[simp] theorem State.modMe_barriers (s : State) (f : Hart → Hart) : (s.modMe f).barriers = s.barriers := rfl
@[simp] theorem State.modMe_mailboxes (s : State) (f : Hart → Hart) : (s.modMe f).mailboxes = s.mailboxes := rfl
@[simp] theorem State.modMe_parts (s : State) (f : Hart → Hart) : (s.modMe f).parts = s.parts := rfl
@[simp] theorem State.modMe_gates (s : State) (f : Hart → Hart) : (s.modMe f).gates = s.gates := rfl
@[simp] theorem State.modMe_rings (s : State) (f : Hart → Hart) : (s.modMe f).rings = s.rings := rfl
@[simp] theorem State.modMe_queues (s : State) (f : Hart → Hart) : (s.modMe f).queues = s.queues := rfl
@[simp] theorem State.modMe_launches (s : State) (f : Hart → Hart) : (s.modMe f).launches = s.launches := rfl
@[simp] theorem State.modMe_fmts (s : State) (f : Hart → Hart) : (s.modMe f).fmts = s.fmts := rfl
@[simp] theorem State.modMe_fmtVers (s : State) (f : Hart → Hart) : (s.modMe f).fmtVers = s.fmtVers := rfl
@[simp] theorem State.modMe_gateMarks (s : State) (f : Hart → Hart) : (s.modMe f).gateMarks = s.gateMarks := rfl
@[simp] theorem State.modMe_keys (s : State) (f : Hart → Hart) : (s.modMe f).keys = s.keys := rfl
@[simp] theorem State.modMe_unitKeys (s : State) (f : Hart → Hart) : (s.modMe f).unitKeys = s.unitKeys := rfl
@[simp] theorem State.modMe_hargs (s : State) (f : Hart → Hart) : (s.modMe f).hargs = s.hargs := rfl
@[simp] theorem State.modMe_hstat (s : State) (f : Hart → Hart) : (s.modMe f).hstat = s.hstat := rfl
@[simp] theorem State.modMe_hwait (s : State) (f : Hart → Hart) : (s.modMe f).hwait = s.hwait := rfl
@[simp] theorem State.modMe_vfArgs (s : State) (f : Hart → Hart) : (s.modMe f).vfArgs = s.vfArgs := rfl
@[simp] theorem State.modMe_vfStat (s : State) (f : Hart → Hart) : (s.modMe f).vfStat = s.vfStat := rfl
@[simp] theorem State.modMe_drops (s : State) (f : Hart → Hart) : (s.modMe f).drops = s.drops := rfl
@[simp] theorem State.modMe_msix (s : State) (f : Hart → Hart) : (s.modMe f).msix = s.msix := rfl
@[simp] theorem State.modMe_ats (s : State) (f : Hart → Hart) : (s.modMe f).ats = s.ats := rfl
@[simp] theorem State.modMe_chip (s : State) (f : Hart → Hart) : (s.modMe f).chip = s.chip := rfl
@[simp] theorem State.modMe_ready (s : State) (f : Hart → Hart) : (s.modMe f).ready = s.ready := rfl
@[simp] theorem State.modMe_profile (s : State) (f : Hart → Hart) : (s.modMe f).profile = s.profile := rfl
@[simp] theorem State.modMe_ports (s : State) (f : Hart → Hart) : (s.modMe f).ports = s.ports := rfl
@[simp] theorem State.modMe_outgoing (s : State) (f : Hart → Hart) : (s.modMe f).outgoing = s.outgoing := rfl
@[simp] theorem State.modMe_departed (s : State) (f : Hart → Hart) : (s.modMe f).departed = s.departed := rfl
@[simp] theorem State.modMe_forwards (s : State) (f : Hart → Hart) : (s.modMe f).forwards = s.forwards := rfl
@[simp] theorem State.modMe_former (s : State) (f : Hart → Hart) : (s.modMe f).former = s.former := rfl
@[simp] theorem State.modMe_halted (s : State) (f : Hart → Hart) : (s.modMe f).halted = s.halted := rfl
@[simp] theorem State.modMe_serial (s : State) (f : Hart → Hart) : (s.modMe f).serial = s.serial := rfl
@[simp] theorem State.modMe_pending (s : State) (f : Hart → Hart) : (s.modMe f).pending = s.pending := rfl
@[simp] theorem State.modMe_turns (s : State) (f : Hart → Hart) : (s.modMe f).turns = s.turns := rfl
@[simp] theorem State.modMe_cur (s : State) (f : Hart → Hart) : (s.modMe f).cur = s.cur := rfl
@[simp] theorem State.modMe_clock (s : State) (f : Hart → Hart) : (s.modMe f).clock = s.clock := rfl
@[simp] theorem State.modMe_fresh (s : State) (f : Hart → Hart) : (s.modMe f).fresh = s.fresh := rfl

/-! ### setCluster -/

@[simp] theorem State.setCluster_harts (s : State) (c : Nat) (x : Cluster) : (s.setCluster c x).harts = s.harts := rfl
@[simp] theorem State.setCluster_mem (s : State) (c : Nat) (x : Cluster) : (s.setCluster c x).mem = s.mem := rfl
@[simp] theorem State.setCluster_tasks (s : State) (c : Nat) (x : Cluster) : (s.setCluster c x).tasks = s.tasks := rfl
@[simp] theorem State.setCluster_futures (s : State) (c : Nat) (x : Cluster) : (s.setCluster c x).futures = s.futures := rfl
@[simp] theorem State.setCluster_pairs (s : State) (c : Nat) (x : Cluster) : (s.setCluster c x).pairs = s.pairs := rfl
@[simp] theorem State.setCluster_barriers (s : State) (c : Nat) (x : Cluster) : (s.setCluster c x).barriers = s.barriers := rfl
@[simp] theorem State.setCluster_mailboxes (s : State) (c : Nat) (x : Cluster) : (s.setCluster c x).mailboxes = s.mailboxes := rfl
@[simp] theorem State.setCluster_parts (s : State) (c : Nat) (x : Cluster) : (s.setCluster c x).parts = s.parts := rfl
@[simp] theorem State.setCluster_gates (s : State) (c : Nat) (x : Cluster) : (s.setCluster c x).gates = s.gates := rfl
@[simp] theorem State.setCluster_rings (s : State) (c : Nat) (x : Cluster) : (s.setCluster c x).rings = s.rings := rfl
@[simp] theorem State.setCluster_queues (s : State) (c : Nat) (x : Cluster) : (s.setCluster c x).queues = s.queues := rfl
@[simp] theorem State.setCluster_launches (s : State) (c : Nat) (x : Cluster) : (s.setCluster c x).launches = s.launches := rfl
@[simp] theorem State.setCluster_fmts (s : State) (c : Nat) (x : Cluster) : (s.setCluster c x).fmts = s.fmts := rfl
@[simp] theorem State.setCluster_fmtVers (s : State) (c : Nat) (x : Cluster) : (s.setCluster c x).fmtVers = s.fmtVers := rfl
@[simp] theorem State.setCluster_gateMarks (s : State) (c : Nat) (x : Cluster) : (s.setCluster c x).gateMarks = s.gateMarks := rfl
@[simp] theorem State.setCluster_keys (s : State) (c : Nat) (x : Cluster) : (s.setCluster c x).keys = s.keys := rfl
@[simp] theorem State.setCluster_unitKeys (s : State) (c : Nat) (x : Cluster) : (s.setCluster c x).unitKeys = s.unitKeys := rfl
@[simp] theorem State.setCluster_hargs (s : State) (c : Nat) (x : Cluster) : (s.setCluster c x).hargs = s.hargs := rfl
@[simp] theorem State.setCluster_hstat (s : State) (c : Nat) (x : Cluster) : (s.setCluster c x).hstat = s.hstat := rfl
@[simp] theorem State.setCluster_hwait (s : State) (c : Nat) (x : Cluster) : (s.setCluster c x).hwait = s.hwait := rfl
@[simp] theorem State.setCluster_vfArgs (s : State) (c : Nat) (x : Cluster) : (s.setCluster c x).vfArgs = s.vfArgs := rfl
@[simp] theorem State.setCluster_vfStat (s : State) (c : Nat) (x : Cluster) : (s.setCluster c x).vfStat = s.vfStat := rfl
@[simp] theorem State.setCluster_drops (s : State) (c : Nat) (x : Cluster) : (s.setCluster c x).drops = s.drops := rfl
@[simp] theorem State.setCluster_msix (s : State) (c : Nat) (x : Cluster) : (s.setCluster c x).msix = s.msix := rfl
@[simp] theorem State.setCluster_ats (s : State) (c : Nat) (x : Cluster) : (s.setCluster c x).ats = s.ats := rfl
@[simp] theorem State.setCluster_chip (s : State) (c : Nat) (x : Cluster) : (s.setCluster c x).chip = s.chip := rfl
@[simp] theorem State.setCluster_ready (s : State) (c : Nat) (x : Cluster) : (s.setCluster c x).ready = s.ready := rfl
@[simp] theorem State.setCluster_profile (s : State) (c : Nat) (x : Cluster) : (s.setCluster c x).profile = s.profile := rfl
@[simp] theorem State.setCluster_ports (s : State) (c : Nat) (x : Cluster) : (s.setCluster c x).ports = s.ports := rfl
@[simp] theorem State.setCluster_outgoing (s : State) (c : Nat) (x : Cluster) : (s.setCluster c x).outgoing = s.outgoing := rfl
@[simp] theorem State.setCluster_departed (s : State) (c : Nat) (x : Cluster) : (s.setCluster c x).departed = s.departed := rfl
@[simp] theorem State.setCluster_forwards (s : State) (c : Nat) (x : Cluster) : (s.setCluster c x).forwards = s.forwards := rfl
@[simp] theorem State.setCluster_former (s : State) (c : Nat) (x : Cluster) : (s.setCluster c x).former = s.former := rfl
@[simp] theorem State.setCluster_halted (s : State) (c : Nat) (x : Cluster) : (s.setCluster c x).halted = s.halted := rfl
@[simp] theorem State.setCluster_serial (s : State) (c : Nat) (x : Cluster) : (s.setCluster c x).serial = s.serial := rfl
@[simp] theorem State.setCluster_pending (s : State) (c : Nat) (x : Cluster) : (s.setCluster c x).pending = s.pending := rfl
@[simp] theorem State.setCluster_turns (s : State) (c : Nat) (x : Cluster) : (s.setCluster c x).turns = s.turns := rfl
@[simp] theorem State.setCluster_cur (s : State) (c : Nat) (x : Cluster) : (s.setCluster c x).cur = s.cur := rfl
@[simp] theorem State.setCluster_clock (s : State) (c : Nat) (x : Cluster) : (s.setCluster c x).clock = s.clock := rfl
@[simp] theorem State.setCluster_fresh (s : State) (c : Nat) (x : Cluster) : (s.setCluster c x).fresh = s.fresh := rfl

/-! ### modCluster -/

@[simp] theorem State.modCluster_harts (s : State) (c : Nat) (f : Cluster → Cluster) : (s.modCluster c f).harts = s.harts := rfl
@[simp] theorem State.modCluster_mem (s : State) (c : Nat) (f : Cluster → Cluster) : (s.modCluster c f).mem = s.mem := rfl
@[simp] theorem State.modCluster_tasks (s : State) (c : Nat) (f : Cluster → Cluster) : (s.modCluster c f).tasks = s.tasks := rfl
@[simp] theorem State.modCluster_futures (s : State) (c : Nat) (f : Cluster → Cluster) : (s.modCluster c f).futures = s.futures := rfl
@[simp] theorem State.modCluster_pairs (s : State) (c : Nat) (f : Cluster → Cluster) : (s.modCluster c f).pairs = s.pairs := rfl
@[simp] theorem State.modCluster_barriers (s : State) (c : Nat) (f : Cluster → Cluster) : (s.modCluster c f).barriers = s.barriers := rfl
@[simp] theorem State.modCluster_mailboxes (s : State) (c : Nat) (f : Cluster → Cluster) : (s.modCluster c f).mailboxes = s.mailboxes := rfl
@[simp] theorem State.modCluster_parts (s : State) (c : Nat) (f : Cluster → Cluster) : (s.modCluster c f).parts = s.parts := rfl
@[simp] theorem State.modCluster_gates (s : State) (c : Nat) (f : Cluster → Cluster) : (s.modCluster c f).gates = s.gates := rfl
@[simp] theorem State.modCluster_rings (s : State) (c : Nat) (f : Cluster → Cluster) : (s.modCluster c f).rings = s.rings := rfl
@[simp] theorem State.modCluster_queues (s : State) (c : Nat) (f : Cluster → Cluster) : (s.modCluster c f).queues = s.queues := rfl
@[simp] theorem State.modCluster_launches (s : State) (c : Nat) (f : Cluster → Cluster) : (s.modCluster c f).launches = s.launches := rfl
@[simp] theorem State.modCluster_fmts (s : State) (c : Nat) (f : Cluster → Cluster) : (s.modCluster c f).fmts = s.fmts := rfl
@[simp] theorem State.modCluster_fmtVers (s : State) (c : Nat) (f : Cluster → Cluster) : (s.modCluster c f).fmtVers = s.fmtVers := rfl
@[simp] theorem State.modCluster_gateMarks (s : State) (c : Nat) (f : Cluster → Cluster) : (s.modCluster c f).gateMarks = s.gateMarks := rfl
@[simp] theorem State.modCluster_keys (s : State) (c : Nat) (f : Cluster → Cluster) : (s.modCluster c f).keys = s.keys := rfl
@[simp] theorem State.modCluster_unitKeys (s : State) (c : Nat) (f : Cluster → Cluster) : (s.modCluster c f).unitKeys = s.unitKeys := rfl
@[simp] theorem State.modCluster_hargs (s : State) (c : Nat) (f : Cluster → Cluster) : (s.modCluster c f).hargs = s.hargs := rfl
@[simp] theorem State.modCluster_hstat (s : State) (c : Nat) (f : Cluster → Cluster) : (s.modCluster c f).hstat = s.hstat := rfl
@[simp] theorem State.modCluster_hwait (s : State) (c : Nat) (f : Cluster → Cluster) : (s.modCluster c f).hwait = s.hwait := rfl
@[simp] theorem State.modCluster_vfArgs (s : State) (c : Nat) (f : Cluster → Cluster) : (s.modCluster c f).vfArgs = s.vfArgs := rfl
@[simp] theorem State.modCluster_vfStat (s : State) (c : Nat) (f : Cluster → Cluster) : (s.modCluster c f).vfStat = s.vfStat := rfl
@[simp] theorem State.modCluster_drops (s : State) (c : Nat) (f : Cluster → Cluster) : (s.modCluster c f).drops = s.drops := rfl
@[simp] theorem State.modCluster_msix (s : State) (c : Nat) (f : Cluster → Cluster) : (s.modCluster c f).msix = s.msix := rfl
@[simp] theorem State.modCluster_ats (s : State) (c : Nat) (f : Cluster → Cluster) : (s.modCluster c f).ats = s.ats := rfl
@[simp] theorem State.modCluster_chip (s : State) (c : Nat) (f : Cluster → Cluster) : (s.modCluster c f).chip = s.chip := rfl
@[simp] theorem State.modCluster_ready (s : State) (c : Nat) (f : Cluster → Cluster) : (s.modCluster c f).ready = s.ready := rfl
@[simp] theorem State.modCluster_profile (s : State) (c : Nat) (f : Cluster → Cluster) : (s.modCluster c f).profile = s.profile := rfl
@[simp] theorem State.modCluster_ports (s : State) (c : Nat) (f : Cluster → Cluster) : (s.modCluster c f).ports = s.ports := rfl
@[simp] theorem State.modCluster_outgoing (s : State) (c : Nat) (f : Cluster → Cluster) : (s.modCluster c f).outgoing = s.outgoing := rfl
@[simp] theorem State.modCluster_departed (s : State) (c : Nat) (f : Cluster → Cluster) : (s.modCluster c f).departed = s.departed := rfl
@[simp] theorem State.modCluster_forwards (s : State) (c : Nat) (f : Cluster → Cluster) : (s.modCluster c f).forwards = s.forwards := rfl
@[simp] theorem State.modCluster_former (s : State) (c : Nat) (f : Cluster → Cluster) : (s.modCluster c f).former = s.former := rfl
@[simp] theorem State.modCluster_halted (s : State) (c : Nat) (f : Cluster → Cluster) : (s.modCluster c f).halted = s.halted := rfl
@[simp] theorem State.modCluster_serial (s : State) (c : Nat) (f : Cluster → Cluster) : (s.modCluster c f).serial = s.serial := rfl
@[simp] theorem State.modCluster_pending (s : State) (c : Nat) (f : Cluster → Cluster) : (s.modCluster c f).pending = s.pending := rfl
@[simp] theorem State.modCluster_turns (s : State) (c : Nat) (f : Cluster → Cluster) : (s.modCluster c f).turns = s.turns := rfl
@[simp] theorem State.modCluster_cur (s : State) (c : Nat) (f : Cluster → Cluster) : (s.modCluster c f).cur = s.cur := rfl
@[simp] theorem State.modCluster_clock (s : State) (c : Nat) (f : Cluster → Cluster) : (s.modCluster c f).clock = s.clock := rfl
@[simp] theorem State.modCluster_fresh (s : State) (c : Nat) (f : Cluster → Cluster) : (s.modCluster c f).fresh = s.fresh := rfl

/-! ### setPair -/

@[simp] theorem State.setPair_harts (s : State) (p : Nat) (x : Pair) : (s.setPair p x).harts = s.harts := rfl
@[simp] theorem State.setPair_mem (s : State) (p : Nat) (x : Pair) : (s.setPair p x).mem = s.mem := rfl
@[simp] theorem State.setPair_tasks (s : State) (p : Nat) (x : Pair) : (s.setPair p x).tasks = s.tasks := rfl
@[simp] theorem State.setPair_futures (s : State) (p : Nat) (x : Pair) : (s.setPair p x).futures = s.futures := rfl
@[simp] theorem State.setPair_clusters (s : State) (p : Nat) (x : Pair) : (s.setPair p x).clusters = s.clusters := rfl
@[simp] theorem State.setPair_barriers (s : State) (p : Nat) (x : Pair) : (s.setPair p x).barriers = s.barriers := rfl
@[simp] theorem State.setPair_mailboxes (s : State) (p : Nat) (x : Pair) : (s.setPair p x).mailboxes = s.mailboxes := rfl
@[simp] theorem State.setPair_parts (s : State) (p : Nat) (x : Pair) : (s.setPair p x).parts = s.parts := rfl
@[simp] theorem State.setPair_gates (s : State) (p : Nat) (x : Pair) : (s.setPair p x).gates = s.gates := rfl
@[simp] theorem State.setPair_rings (s : State) (p : Nat) (x : Pair) : (s.setPair p x).rings = s.rings := rfl
@[simp] theorem State.setPair_queues (s : State) (p : Nat) (x : Pair) : (s.setPair p x).queues = s.queues := rfl
@[simp] theorem State.setPair_launches (s : State) (p : Nat) (x : Pair) : (s.setPair p x).launches = s.launches := rfl
@[simp] theorem State.setPair_fmts (s : State) (p : Nat) (x : Pair) : (s.setPair p x).fmts = s.fmts := rfl
@[simp] theorem State.setPair_fmtVers (s : State) (p : Nat) (x : Pair) : (s.setPair p x).fmtVers = s.fmtVers := rfl
@[simp] theorem State.setPair_gateMarks (s : State) (p : Nat) (x : Pair) : (s.setPair p x).gateMarks = s.gateMarks := rfl
@[simp] theorem State.setPair_keys (s : State) (p : Nat) (x : Pair) : (s.setPair p x).keys = s.keys := rfl
@[simp] theorem State.setPair_unitKeys (s : State) (p : Nat) (x : Pair) : (s.setPair p x).unitKeys = s.unitKeys := rfl
@[simp] theorem State.setPair_hargs (s : State) (p : Nat) (x : Pair) : (s.setPair p x).hargs = s.hargs := rfl
@[simp] theorem State.setPair_hstat (s : State) (p : Nat) (x : Pair) : (s.setPair p x).hstat = s.hstat := rfl
@[simp] theorem State.setPair_hwait (s : State) (p : Nat) (x : Pair) : (s.setPair p x).hwait = s.hwait := rfl
@[simp] theorem State.setPair_vfArgs (s : State) (p : Nat) (x : Pair) : (s.setPair p x).vfArgs = s.vfArgs := rfl
@[simp] theorem State.setPair_vfStat (s : State) (p : Nat) (x : Pair) : (s.setPair p x).vfStat = s.vfStat := rfl
@[simp] theorem State.setPair_drops (s : State) (p : Nat) (x : Pair) : (s.setPair p x).drops = s.drops := rfl
@[simp] theorem State.setPair_msix (s : State) (p : Nat) (x : Pair) : (s.setPair p x).msix = s.msix := rfl
@[simp] theorem State.setPair_ats (s : State) (p : Nat) (x : Pair) : (s.setPair p x).ats = s.ats := rfl
@[simp] theorem State.setPair_chip (s : State) (p : Nat) (x : Pair) : (s.setPair p x).chip = s.chip := rfl
@[simp] theorem State.setPair_ready (s : State) (p : Nat) (x : Pair) : (s.setPair p x).ready = s.ready := rfl
@[simp] theorem State.setPair_profile (s : State) (p : Nat) (x : Pair) : (s.setPair p x).profile = s.profile := rfl
@[simp] theorem State.setPair_ports (s : State) (p : Nat) (x : Pair) : (s.setPair p x).ports = s.ports := rfl
@[simp] theorem State.setPair_outgoing (s : State) (p : Nat) (x : Pair) : (s.setPair p x).outgoing = s.outgoing := rfl
@[simp] theorem State.setPair_departed (s : State) (p : Nat) (x : Pair) : (s.setPair p x).departed = s.departed := rfl
@[simp] theorem State.setPair_forwards (s : State) (p : Nat) (x : Pair) : (s.setPair p x).forwards = s.forwards := rfl
@[simp] theorem State.setPair_former (s : State) (p : Nat) (x : Pair) : (s.setPair p x).former = s.former := rfl
@[simp] theorem State.setPair_halted (s : State) (p : Nat) (x : Pair) : (s.setPair p x).halted = s.halted := rfl
@[simp] theorem State.setPair_serial (s : State) (p : Nat) (x : Pair) : (s.setPair p x).serial = s.serial := rfl
@[simp] theorem State.setPair_pending (s : State) (p : Nat) (x : Pair) : (s.setPair p x).pending = s.pending := rfl
@[simp] theorem State.setPair_turns (s : State) (p : Nat) (x : Pair) : (s.setPair p x).turns = s.turns := rfl
@[simp] theorem State.setPair_cur (s : State) (p : Nat) (x : Pair) : (s.setPair p x).cur = s.cur := rfl
@[simp] theorem State.setPair_clock (s : State) (p : Nat) (x : Pair) : (s.setPair p x).clock = s.clock := rfl
@[simp] theorem State.setPair_fresh (s : State) (p : Nat) (x : Pair) : (s.setPair p x).fresh = s.fresh := rfl

/-! ### modPair -/

@[simp] theorem State.modPair_harts (s : State) (p : Nat) (f : Pair → Pair) : (s.modPair p f).harts = s.harts := rfl
@[simp] theorem State.modPair_mem (s : State) (p : Nat) (f : Pair → Pair) : (s.modPair p f).mem = s.mem := rfl
@[simp] theorem State.modPair_tasks (s : State) (p : Nat) (f : Pair → Pair) : (s.modPair p f).tasks = s.tasks := rfl
@[simp] theorem State.modPair_futures (s : State) (p : Nat) (f : Pair → Pair) : (s.modPair p f).futures = s.futures := rfl
@[simp] theorem State.modPair_clusters (s : State) (p : Nat) (f : Pair → Pair) : (s.modPair p f).clusters = s.clusters := rfl
@[simp] theorem State.modPair_barriers (s : State) (p : Nat) (f : Pair → Pair) : (s.modPair p f).barriers = s.barriers := rfl
@[simp] theorem State.modPair_mailboxes (s : State) (p : Nat) (f : Pair → Pair) : (s.modPair p f).mailboxes = s.mailboxes := rfl
@[simp] theorem State.modPair_parts (s : State) (p : Nat) (f : Pair → Pair) : (s.modPair p f).parts = s.parts := rfl
@[simp] theorem State.modPair_gates (s : State) (p : Nat) (f : Pair → Pair) : (s.modPair p f).gates = s.gates := rfl
@[simp] theorem State.modPair_rings (s : State) (p : Nat) (f : Pair → Pair) : (s.modPair p f).rings = s.rings := rfl
@[simp] theorem State.modPair_queues (s : State) (p : Nat) (f : Pair → Pair) : (s.modPair p f).queues = s.queues := rfl
@[simp] theorem State.modPair_launches (s : State) (p : Nat) (f : Pair → Pair) : (s.modPair p f).launches = s.launches := rfl
@[simp] theorem State.modPair_fmts (s : State) (p : Nat) (f : Pair → Pair) : (s.modPair p f).fmts = s.fmts := rfl
@[simp] theorem State.modPair_fmtVers (s : State) (p : Nat) (f : Pair → Pair) : (s.modPair p f).fmtVers = s.fmtVers := rfl
@[simp] theorem State.modPair_gateMarks (s : State) (p : Nat) (f : Pair → Pair) : (s.modPair p f).gateMarks = s.gateMarks := rfl
@[simp] theorem State.modPair_keys (s : State) (p : Nat) (f : Pair → Pair) : (s.modPair p f).keys = s.keys := rfl
@[simp] theorem State.modPair_unitKeys (s : State) (p : Nat) (f : Pair → Pair) : (s.modPair p f).unitKeys = s.unitKeys := rfl
@[simp] theorem State.modPair_hargs (s : State) (p : Nat) (f : Pair → Pair) : (s.modPair p f).hargs = s.hargs := rfl
@[simp] theorem State.modPair_hstat (s : State) (p : Nat) (f : Pair → Pair) : (s.modPair p f).hstat = s.hstat := rfl
@[simp] theorem State.modPair_hwait (s : State) (p : Nat) (f : Pair → Pair) : (s.modPair p f).hwait = s.hwait := rfl
@[simp] theorem State.modPair_vfArgs (s : State) (p : Nat) (f : Pair → Pair) : (s.modPair p f).vfArgs = s.vfArgs := rfl
@[simp] theorem State.modPair_vfStat (s : State) (p : Nat) (f : Pair → Pair) : (s.modPair p f).vfStat = s.vfStat := rfl
@[simp] theorem State.modPair_drops (s : State) (p : Nat) (f : Pair → Pair) : (s.modPair p f).drops = s.drops := rfl
@[simp] theorem State.modPair_msix (s : State) (p : Nat) (f : Pair → Pair) : (s.modPair p f).msix = s.msix := rfl
@[simp] theorem State.modPair_ats (s : State) (p : Nat) (f : Pair → Pair) : (s.modPair p f).ats = s.ats := rfl
@[simp] theorem State.modPair_chip (s : State) (p : Nat) (f : Pair → Pair) : (s.modPair p f).chip = s.chip := rfl
@[simp] theorem State.modPair_ready (s : State) (p : Nat) (f : Pair → Pair) : (s.modPair p f).ready = s.ready := rfl
@[simp] theorem State.modPair_profile (s : State) (p : Nat) (f : Pair → Pair) : (s.modPair p f).profile = s.profile := rfl
@[simp] theorem State.modPair_ports (s : State) (p : Nat) (f : Pair → Pair) : (s.modPair p f).ports = s.ports := rfl
@[simp] theorem State.modPair_outgoing (s : State) (p : Nat) (f : Pair → Pair) : (s.modPair p f).outgoing = s.outgoing := rfl
@[simp] theorem State.modPair_departed (s : State) (p : Nat) (f : Pair → Pair) : (s.modPair p f).departed = s.departed := rfl
@[simp] theorem State.modPair_forwards (s : State) (p : Nat) (f : Pair → Pair) : (s.modPair p f).forwards = s.forwards := rfl
@[simp] theorem State.modPair_former (s : State) (p : Nat) (f : Pair → Pair) : (s.modPair p f).former = s.former := rfl
@[simp] theorem State.modPair_halted (s : State) (p : Nat) (f : Pair → Pair) : (s.modPair p f).halted = s.halted := rfl
@[simp] theorem State.modPair_serial (s : State) (p : Nat) (f : Pair → Pair) : (s.modPair p f).serial = s.serial := rfl
@[simp] theorem State.modPair_pending (s : State) (p : Nat) (f : Pair → Pair) : (s.modPair p f).pending = s.pending := rfl
@[simp] theorem State.modPair_turns (s : State) (p : Nat) (f : Pair → Pair) : (s.modPair p f).turns = s.turns := rfl
@[simp] theorem State.modPair_cur (s : State) (p : Nat) (f : Pair → Pair) : (s.modPair p f).cur = s.cur := rfl
@[simp] theorem State.modPair_clock (s : State) (p : Nat) (f : Pair → Pair) : (s.modPair p f).clock = s.clock := rfl
@[simp] theorem State.modPair_fresh (s : State) (p : Nat) (f : Pair → Pair) : (s.modPair p f).fresh = s.fresh := rfl

/-! ### setTask -/

@[simp] theorem State.setTask_harts (s : State) (h : Word) (t : Task) : (s.setTask h t).harts = s.harts := rfl
@[simp] theorem State.setTask_mem (s : State) (h : Word) (t : Task) : (s.setTask h t).mem = s.mem := rfl
@[simp] theorem State.setTask_futures (s : State) (h : Word) (t : Task) : (s.setTask h t).futures = s.futures := rfl
@[simp] theorem State.setTask_clusters (s : State) (h : Word) (t : Task) : (s.setTask h t).clusters = s.clusters := rfl
@[simp] theorem State.setTask_pairs (s : State) (h : Word) (t : Task) : (s.setTask h t).pairs = s.pairs := rfl
@[simp] theorem State.setTask_barriers (s : State) (h : Word) (t : Task) : (s.setTask h t).barriers = s.barriers := rfl
@[simp] theorem State.setTask_mailboxes (s : State) (h : Word) (t : Task) : (s.setTask h t).mailboxes = s.mailboxes := rfl
@[simp] theorem State.setTask_parts (s : State) (h : Word) (t : Task) : (s.setTask h t).parts = s.parts := rfl
@[simp] theorem State.setTask_gates (s : State) (h : Word) (t : Task) : (s.setTask h t).gates = s.gates := rfl
@[simp] theorem State.setTask_rings (s : State) (h : Word) (t : Task) : (s.setTask h t).rings = s.rings := rfl
@[simp] theorem State.setTask_queues (s : State) (h : Word) (t : Task) : (s.setTask h t).queues = s.queues := rfl
@[simp] theorem State.setTask_launches (s : State) (h : Word) (t : Task) : (s.setTask h t).launches = s.launches := rfl
@[simp] theorem State.setTask_fmts (s : State) (h : Word) (t : Task) : (s.setTask h t).fmts = s.fmts := rfl
@[simp] theorem State.setTask_fmtVers (s : State) (h : Word) (t : Task) : (s.setTask h t).fmtVers = s.fmtVers := rfl
@[simp] theorem State.setTask_gateMarks (s : State) (h : Word) (t : Task) : (s.setTask h t).gateMarks = s.gateMarks := rfl
@[simp] theorem State.setTask_keys (s : State) (h : Word) (t : Task) : (s.setTask h t).keys = s.keys := rfl
@[simp] theorem State.setTask_unitKeys (s : State) (h : Word) (t : Task) : (s.setTask h t).unitKeys = s.unitKeys := rfl
@[simp] theorem State.setTask_hargs (s : State) (h : Word) (t : Task) : (s.setTask h t).hargs = s.hargs := rfl
@[simp] theorem State.setTask_hstat (s : State) (h : Word) (t : Task) : (s.setTask h t).hstat = s.hstat := rfl
@[simp] theorem State.setTask_hwait (s : State) (h : Word) (t : Task) : (s.setTask h t).hwait = s.hwait := rfl
@[simp] theorem State.setTask_vfArgs (s : State) (h : Word) (t : Task) : (s.setTask h t).vfArgs = s.vfArgs := rfl
@[simp] theorem State.setTask_vfStat (s : State) (h : Word) (t : Task) : (s.setTask h t).vfStat = s.vfStat := rfl
@[simp] theorem State.setTask_drops (s : State) (h : Word) (t : Task) : (s.setTask h t).drops = s.drops := rfl
@[simp] theorem State.setTask_msix (s : State) (h : Word) (t : Task) : (s.setTask h t).msix = s.msix := rfl
@[simp] theorem State.setTask_ats (s : State) (h : Word) (t : Task) : (s.setTask h t).ats = s.ats := rfl
@[simp] theorem State.setTask_chip (s : State) (h : Word) (t : Task) : (s.setTask h t).chip = s.chip := rfl
@[simp] theorem State.setTask_ready (s : State) (h : Word) (t : Task) : (s.setTask h t).ready = s.ready := rfl
@[simp] theorem State.setTask_profile (s : State) (h : Word) (t : Task) : (s.setTask h t).profile = s.profile := rfl
@[simp] theorem State.setTask_ports (s : State) (h : Word) (t : Task) : (s.setTask h t).ports = s.ports := rfl
@[simp] theorem State.setTask_outgoing (s : State) (h : Word) (t : Task) : (s.setTask h t).outgoing = s.outgoing := rfl
@[simp] theorem State.setTask_departed (s : State) (h : Word) (t : Task) : (s.setTask h t).departed = s.departed := rfl
@[simp] theorem State.setTask_forwards (s : State) (h : Word) (t : Task) : (s.setTask h t).forwards = s.forwards := rfl
@[simp] theorem State.setTask_former (s : State) (h : Word) (t : Task) : (s.setTask h t).former = s.former := rfl
@[simp] theorem State.setTask_halted (s : State) (h : Word) (t : Task) : (s.setTask h t).halted = s.halted := rfl
@[simp] theorem State.setTask_serial (s : State) (h : Word) (t : Task) : (s.setTask h t).serial = s.serial := rfl
@[simp] theorem State.setTask_pending (s : State) (h : Word) (t : Task) : (s.setTask h t).pending = s.pending := rfl
@[simp] theorem State.setTask_turns (s : State) (h : Word) (t : Task) : (s.setTask h t).turns = s.turns := rfl
@[simp] theorem State.setTask_cur (s : State) (h : Word) (t : Task) : (s.setTask h t).cur = s.cur := rfl
@[simp] theorem State.setTask_clock (s : State) (h : Word) (t : Task) : (s.setTask h t).clock = s.clock := rfl
@[simp] theorem State.setTask_fresh (s : State) (h : Word) (t : Task) : (s.setTask h t).fresh = s.fresh := rfl

/-! ### modTask -/

@[simp] theorem State.modTask_harts (s : State) (h : Word) (f : Task → Task) : (s.modTask h f).harts = s.harts := by
  unfold State.modTask; split <;> rfl
@[simp] theorem State.modTask_mem (s : State) (h : Word) (f : Task → Task) : (s.modTask h f).mem = s.mem := by
  unfold State.modTask; split <;> rfl
@[simp] theorem State.modTask_futures (s : State) (h : Word) (f : Task → Task) : (s.modTask h f).futures = s.futures := by
  unfold State.modTask; split <;> rfl
@[simp] theorem State.modTask_clusters (s : State) (h : Word) (f : Task → Task) : (s.modTask h f).clusters = s.clusters := by
  unfold State.modTask; split <;> rfl
@[simp] theorem State.modTask_pairs (s : State) (h : Word) (f : Task → Task) : (s.modTask h f).pairs = s.pairs := by
  unfold State.modTask; split <;> rfl
@[simp] theorem State.modTask_barriers (s : State) (h : Word) (f : Task → Task) : (s.modTask h f).barriers = s.barriers := by
  unfold State.modTask; split <;> rfl
@[simp] theorem State.modTask_mailboxes (s : State) (h : Word) (f : Task → Task) : (s.modTask h f).mailboxes = s.mailboxes := by
  unfold State.modTask; split <;> rfl
@[simp] theorem State.modTask_parts (s : State) (h : Word) (f : Task → Task) : (s.modTask h f).parts = s.parts := by
  unfold State.modTask; split <;> rfl
@[simp] theorem State.modTask_gates (s : State) (h : Word) (f : Task → Task) : (s.modTask h f).gates = s.gates := by
  unfold State.modTask; split <;> rfl
@[simp] theorem State.modTask_rings (s : State) (h : Word) (f : Task → Task) : (s.modTask h f).rings = s.rings := by
  unfold State.modTask; split <;> rfl
@[simp] theorem State.modTask_queues (s : State) (h : Word) (f : Task → Task) : (s.modTask h f).queues = s.queues := by
  unfold State.modTask; split <;> rfl
@[simp] theorem State.modTask_launches (s : State) (h : Word) (f : Task → Task) : (s.modTask h f).launches = s.launches := by
  unfold State.modTask; split <;> rfl
@[simp] theorem State.modTask_fmts (s : State) (h : Word) (f : Task → Task) : (s.modTask h f).fmts = s.fmts := by
  unfold State.modTask; split <;> rfl
@[simp] theorem State.modTask_fmtVers (s : State) (h : Word) (f : Task → Task) : (s.modTask h f).fmtVers = s.fmtVers := by
  unfold State.modTask; split <;> rfl
@[simp] theorem State.modTask_gateMarks (s : State) (h : Word) (f : Task → Task) : (s.modTask h f).gateMarks = s.gateMarks := by
  unfold State.modTask; split <;> rfl
@[simp] theorem State.modTask_keys (s : State) (h : Word) (f : Task → Task) : (s.modTask h f).keys = s.keys := by
  unfold State.modTask; split <;> rfl
@[simp] theorem State.modTask_unitKeys (s : State) (h : Word) (f : Task → Task) : (s.modTask h f).unitKeys = s.unitKeys := by
  unfold State.modTask; split <;> rfl
@[simp] theorem State.modTask_hargs (s : State) (h : Word) (f : Task → Task) : (s.modTask h f).hargs = s.hargs := by
  unfold State.modTask; split <;> rfl
@[simp] theorem State.modTask_hstat (s : State) (h : Word) (f : Task → Task) : (s.modTask h f).hstat = s.hstat := by
  unfold State.modTask; split <;> rfl
@[simp] theorem State.modTask_hwait (s : State) (h : Word) (f : Task → Task) : (s.modTask h f).hwait = s.hwait := by
  unfold State.modTask; split <;> rfl
@[simp] theorem State.modTask_vfArgs (s : State) (h : Word) (f : Task → Task) : (s.modTask h f).vfArgs = s.vfArgs := by
  unfold State.modTask; split <;> rfl
@[simp] theorem State.modTask_vfStat (s : State) (h : Word) (f : Task → Task) : (s.modTask h f).vfStat = s.vfStat := by
  unfold State.modTask; split <;> rfl
@[simp] theorem State.modTask_drops (s : State) (h : Word) (f : Task → Task) : (s.modTask h f).drops = s.drops := by
  unfold State.modTask; split <;> rfl
@[simp] theorem State.modTask_msix (s : State) (h : Word) (f : Task → Task) : (s.modTask h f).msix = s.msix := by
  unfold State.modTask; split <;> rfl
@[simp] theorem State.modTask_ats (s : State) (h : Word) (f : Task → Task) : (s.modTask h f).ats = s.ats := by
  unfold State.modTask; split <;> rfl
@[simp] theorem State.modTask_chip (s : State) (h : Word) (f : Task → Task) : (s.modTask h f).chip = s.chip := by
  unfold State.modTask; split <;> rfl
@[simp] theorem State.modTask_ready (s : State) (h : Word) (f : Task → Task) : (s.modTask h f).ready = s.ready := by
  unfold State.modTask; split <;> rfl
@[simp] theorem State.modTask_profile (s : State) (h : Word) (f : Task → Task) : (s.modTask h f).profile = s.profile := by
  unfold State.modTask; split <;> rfl
@[simp] theorem State.modTask_ports (s : State) (h : Word) (f : Task → Task) : (s.modTask h f).ports = s.ports := by
  unfold State.modTask; split <;> rfl
@[simp] theorem State.modTask_outgoing (s : State) (h : Word) (f : Task → Task) : (s.modTask h f).outgoing = s.outgoing := by
  unfold State.modTask; split <;> rfl
@[simp] theorem State.modTask_departed (s : State) (h : Word) (f : Task → Task) : (s.modTask h f).departed = s.departed := by
  unfold State.modTask; split <;> rfl
@[simp] theorem State.modTask_forwards (s : State) (h : Word) (f : Task → Task) : (s.modTask h f).forwards = s.forwards := by
  unfold State.modTask; split <;> rfl
@[simp] theorem State.modTask_former (s : State) (h : Word) (f : Task → Task) : (s.modTask h f).former = s.former := by
  unfold State.modTask; split <;> rfl
@[simp] theorem State.modTask_halted (s : State) (h : Word) (f : Task → Task) : (s.modTask h f).halted = s.halted := by
  unfold State.modTask; split <;> rfl
@[simp] theorem State.modTask_serial (s : State) (h : Word) (f : Task → Task) : (s.modTask h f).serial = s.serial := by
  unfold State.modTask; split <;> rfl
@[simp] theorem State.modTask_pending (s : State) (h : Word) (f : Task → Task) : (s.modTask h f).pending = s.pending := by
  unfold State.modTask; split <;> rfl
@[simp] theorem State.modTask_turns (s : State) (h : Word) (f : Task → Task) : (s.modTask h f).turns = s.turns := by
  unfold State.modTask; split <;> rfl
@[simp] theorem State.modTask_cur (s : State) (h : Word) (f : Task → Task) : (s.modTask h f).cur = s.cur := by
  unfold State.modTask; split <;> rfl
@[simp] theorem State.modTask_clock (s : State) (h : Word) (f : Task → Task) : (s.modTask h f).clock = s.clock := by
  unfold State.modTask; split <;> rfl
@[simp] theorem State.modTask_fresh (s : State) (h : Word) (f : Task → Task) : (s.modTask h f).fresh = s.fresh := by
  unfold State.modTask; split <;> rfl

/-! ### dropTask -/

@[simp] theorem State.dropTask_harts (s : State) (h : Word) : (s.dropTask h).harts = s.harts := rfl
@[simp] theorem State.dropTask_mem (s : State) (h : Word) : (s.dropTask h).mem = s.mem := rfl
@[simp] theorem State.dropTask_futures (s : State) (h : Word) : (s.dropTask h).futures = s.futures := rfl
@[simp] theorem State.dropTask_clusters (s : State) (h : Word) : (s.dropTask h).clusters = s.clusters := rfl
@[simp] theorem State.dropTask_pairs (s : State) (h : Word) : (s.dropTask h).pairs = s.pairs := rfl
@[simp] theorem State.dropTask_barriers (s : State) (h : Word) : (s.dropTask h).barriers = s.barriers := rfl
@[simp] theorem State.dropTask_mailboxes (s : State) (h : Word) : (s.dropTask h).mailboxes = s.mailboxes := rfl
@[simp] theorem State.dropTask_parts (s : State) (h : Word) : (s.dropTask h).parts = s.parts := rfl
@[simp] theorem State.dropTask_gates (s : State) (h : Word) : (s.dropTask h).gates = s.gates := rfl
@[simp] theorem State.dropTask_rings (s : State) (h : Word) : (s.dropTask h).rings = s.rings := rfl
@[simp] theorem State.dropTask_queues (s : State) (h : Word) : (s.dropTask h).queues = s.queues := rfl
@[simp] theorem State.dropTask_launches (s : State) (h : Word) : (s.dropTask h).launches = s.launches := rfl
@[simp] theorem State.dropTask_fmts (s : State) (h : Word) : (s.dropTask h).fmts = s.fmts := rfl
@[simp] theorem State.dropTask_fmtVers (s : State) (h : Word) : (s.dropTask h).fmtVers = s.fmtVers := rfl
@[simp] theorem State.dropTask_gateMarks (s : State) (h : Word) : (s.dropTask h).gateMarks = s.gateMarks := rfl
@[simp] theorem State.dropTask_keys (s : State) (h : Word) : (s.dropTask h).keys = s.keys := rfl
@[simp] theorem State.dropTask_unitKeys (s : State) (h : Word) : (s.dropTask h).unitKeys = s.unitKeys := rfl
@[simp] theorem State.dropTask_hargs (s : State) (h : Word) : (s.dropTask h).hargs = s.hargs := rfl
@[simp] theorem State.dropTask_hstat (s : State) (h : Word) : (s.dropTask h).hstat = s.hstat := rfl
@[simp] theorem State.dropTask_hwait (s : State) (h : Word) : (s.dropTask h).hwait = s.hwait := rfl
@[simp] theorem State.dropTask_vfArgs (s : State) (h : Word) : (s.dropTask h).vfArgs = s.vfArgs := rfl
@[simp] theorem State.dropTask_vfStat (s : State) (h : Word) : (s.dropTask h).vfStat = s.vfStat := rfl
@[simp] theorem State.dropTask_drops (s : State) (h : Word) : (s.dropTask h).drops = s.drops := rfl
@[simp] theorem State.dropTask_msix (s : State) (h : Word) : (s.dropTask h).msix = s.msix := rfl
@[simp] theorem State.dropTask_ats (s : State) (h : Word) : (s.dropTask h).ats = s.ats := rfl
@[simp] theorem State.dropTask_chip (s : State) (h : Word) : (s.dropTask h).chip = s.chip := rfl
@[simp] theorem State.dropTask_ready (s : State) (h : Word) : (s.dropTask h).ready = s.ready := rfl
@[simp] theorem State.dropTask_profile (s : State) (h : Word) : (s.dropTask h).profile = s.profile := rfl
@[simp] theorem State.dropTask_ports (s : State) (h : Word) : (s.dropTask h).ports = s.ports := rfl
@[simp] theorem State.dropTask_outgoing (s : State) (h : Word) : (s.dropTask h).outgoing = s.outgoing := rfl
@[simp] theorem State.dropTask_departed (s : State) (h : Word) : (s.dropTask h).departed = s.departed := rfl
@[simp] theorem State.dropTask_forwards (s : State) (h : Word) : (s.dropTask h).forwards = s.forwards := rfl
@[simp] theorem State.dropTask_former (s : State) (h : Word) : (s.dropTask h).former = s.former := rfl
@[simp] theorem State.dropTask_halted (s : State) (h : Word) : (s.dropTask h).halted = s.halted := rfl
@[simp] theorem State.dropTask_serial (s : State) (h : Word) : (s.dropTask h).serial = s.serial := rfl
@[simp] theorem State.dropTask_pending (s : State) (h : Word) : (s.dropTask h).pending = s.pending := rfl
@[simp] theorem State.dropTask_turns (s : State) (h : Word) : (s.dropTask h).turns = s.turns := rfl
@[simp] theorem State.dropTask_cur (s : State) (h : Word) : (s.dropTask h).cur = s.cur := rfl
@[simp] theorem State.dropTask_clock (s : State) (h : Word) : (s.dropTask h).clock = s.clock := rfl
@[simp] theorem State.dropTask_fresh (s : State) (h : Word) : (s.dropTask h).fresh = s.fresh := rfl

/-! ### modTaskOf -/

@[simp] theorem State.modTaskOf_harts (s : State) (h : Nat) (f : Task → Task) : (s.modTaskOf h f).harts = s.harts := by
  unfold State.modTaskOf; split <;> simp
@[simp] theorem State.modTaskOf_mem (s : State) (h : Nat) (f : Task → Task) : (s.modTaskOf h f).mem = s.mem := by
  unfold State.modTaskOf; split <;> simp
@[simp] theorem State.modTaskOf_futures (s : State) (h : Nat) (f : Task → Task) : (s.modTaskOf h f).futures = s.futures := by
  unfold State.modTaskOf; split <;> simp
@[simp] theorem State.modTaskOf_clusters (s : State) (h : Nat) (f : Task → Task) : (s.modTaskOf h f).clusters = s.clusters := by
  unfold State.modTaskOf; split <;> simp
@[simp] theorem State.modTaskOf_pairs (s : State) (h : Nat) (f : Task → Task) : (s.modTaskOf h f).pairs = s.pairs := by
  unfold State.modTaskOf; split <;> simp
@[simp] theorem State.modTaskOf_barriers (s : State) (h : Nat) (f : Task → Task) : (s.modTaskOf h f).barriers = s.barriers := by
  unfold State.modTaskOf; split <;> simp
@[simp] theorem State.modTaskOf_mailboxes (s : State) (h : Nat) (f : Task → Task) : (s.modTaskOf h f).mailboxes = s.mailboxes := by
  unfold State.modTaskOf; split <;> simp
@[simp] theorem State.modTaskOf_parts (s : State) (h : Nat) (f : Task → Task) : (s.modTaskOf h f).parts = s.parts := by
  unfold State.modTaskOf; split <;> simp
@[simp] theorem State.modTaskOf_gates (s : State) (h : Nat) (f : Task → Task) : (s.modTaskOf h f).gates = s.gates := by
  unfold State.modTaskOf; split <;> simp
@[simp] theorem State.modTaskOf_rings (s : State) (h : Nat) (f : Task → Task) : (s.modTaskOf h f).rings = s.rings := by
  unfold State.modTaskOf; split <;> simp
@[simp] theorem State.modTaskOf_queues (s : State) (h : Nat) (f : Task → Task) : (s.modTaskOf h f).queues = s.queues := by
  unfold State.modTaskOf; split <;> simp
@[simp] theorem State.modTaskOf_launches (s : State) (h : Nat) (f : Task → Task) : (s.modTaskOf h f).launches = s.launches := by
  unfold State.modTaskOf; split <;> simp
@[simp] theorem State.modTaskOf_fmts (s : State) (h : Nat) (f : Task → Task) : (s.modTaskOf h f).fmts = s.fmts := by
  unfold State.modTaskOf; split <;> simp
@[simp] theorem State.modTaskOf_fmtVers (s : State) (h : Nat) (f : Task → Task) : (s.modTaskOf h f).fmtVers = s.fmtVers := by
  unfold State.modTaskOf; split <;> simp
@[simp] theorem State.modTaskOf_gateMarks (s : State) (h : Nat) (f : Task → Task) : (s.modTaskOf h f).gateMarks = s.gateMarks := by
  unfold State.modTaskOf; split <;> simp
@[simp] theorem State.modTaskOf_keys (s : State) (h : Nat) (f : Task → Task) : (s.modTaskOf h f).keys = s.keys := by
  unfold State.modTaskOf; split <;> simp
@[simp] theorem State.modTaskOf_unitKeys (s : State) (h : Nat) (f : Task → Task) : (s.modTaskOf h f).unitKeys = s.unitKeys := by
  unfold State.modTaskOf; split <;> simp
@[simp] theorem State.modTaskOf_hargs (s : State) (h : Nat) (f : Task → Task) : (s.modTaskOf h f).hargs = s.hargs := by
  unfold State.modTaskOf; split <;> simp
@[simp] theorem State.modTaskOf_hstat (s : State) (h : Nat) (f : Task → Task) : (s.modTaskOf h f).hstat = s.hstat := by
  unfold State.modTaskOf; split <;> simp
@[simp] theorem State.modTaskOf_hwait (s : State) (h : Nat) (f : Task → Task) : (s.modTaskOf h f).hwait = s.hwait := by
  unfold State.modTaskOf; split <;> simp
@[simp] theorem State.modTaskOf_vfArgs (s : State) (h : Nat) (f : Task → Task) : (s.modTaskOf h f).vfArgs = s.vfArgs := by
  unfold State.modTaskOf; split <;> simp
@[simp] theorem State.modTaskOf_vfStat (s : State) (h : Nat) (f : Task → Task) : (s.modTaskOf h f).vfStat = s.vfStat := by
  unfold State.modTaskOf; split <;> simp
@[simp] theorem State.modTaskOf_drops (s : State) (h : Nat) (f : Task → Task) : (s.modTaskOf h f).drops = s.drops := by
  unfold State.modTaskOf; split <;> simp
@[simp] theorem State.modTaskOf_msix (s : State) (h : Nat) (f : Task → Task) : (s.modTaskOf h f).msix = s.msix := by
  unfold State.modTaskOf; split <;> simp
@[simp] theorem State.modTaskOf_ats (s : State) (h : Nat) (f : Task → Task) : (s.modTaskOf h f).ats = s.ats := by
  unfold State.modTaskOf; split <;> simp
@[simp] theorem State.modTaskOf_chip (s : State) (h : Nat) (f : Task → Task) : (s.modTaskOf h f).chip = s.chip := by
  unfold State.modTaskOf; split <;> simp
@[simp] theorem State.modTaskOf_ready (s : State) (h : Nat) (f : Task → Task) : (s.modTaskOf h f).ready = s.ready := by
  unfold State.modTaskOf; split <;> simp
@[simp] theorem State.modTaskOf_profile (s : State) (h : Nat) (f : Task → Task) : (s.modTaskOf h f).profile = s.profile := by
  unfold State.modTaskOf; split <;> simp
@[simp] theorem State.modTaskOf_ports (s : State) (h : Nat) (f : Task → Task) : (s.modTaskOf h f).ports = s.ports := by
  unfold State.modTaskOf; split <;> simp
@[simp] theorem State.modTaskOf_outgoing (s : State) (h : Nat) (f : Task → Task) : (s.modTaskOf h f).outgoing = s.outgoing := by
  unfold State.modTaskOf; split <;> simp
@[simp] theorem State.modTaskOf_departed (s : State) (h : Nat) (f : Task → Task) : (s.modTaskOf h f).departed = s.departed := by
  unfold State.modTaskOf; split <;> simp
@[simp] theorem State.modTaskOf_forwards (s : State) (h : Nat) (f : Task → Task) : (s.modTaskOf h f).forwards = s.forwards := by
  unfold State.modTaskOf; split <;> simp
@[simp] theorem State.modTaskOf_former (s : State) (h : Nat) (f : Task → Task) : (s.modTaskOf h f).former = s.former := by
  unfold State.modTaskOf; split <;> simp
@[simp] theorem State.modTaskOf_halted (s : State) (h : Nat) (f : Task → Task) : (s.modTaskOf h f).halted = s.halted := by
  unfold State.modTaskOf; split <;> simp
@[simp] theorem State.modTaskOf_serial (s : State) (h : Nat) (f : Task → Task) : (s.modTaskOf h f).serial = s.serial := by
  unfold State.modTaskOf; split <;> simp
@[simp] theorem State.modTaskOf_pending (s : State) (h : Nat) (f : Task → Task) : (s.modTaskOf h f).pending = s.pending := by
  unfold State.modTaskOf; split <;> simp
@[simp] theorem State.modTaskOf_turns (s : State) (h : Nat) (f : Task → Task) : (s.modTaskOf h f).turns = s.turns := by
  unfold State.modTaskOf; split <;> simp
@[simp] theorem State.modTaskOf_cur (s : State) (h : Nat) (f : Task → Task) : (s.modTaskOf h f).cur = s.cur := by
  unfold State.modTaskOf; split <;> simp
@[simp] theorem State.modTaskOf_clock (s : State) (h : Nat) (f : Task → Task) : (s.modTaskOf h f).clock = s.clock := by
  unfold State.modTaskOf; split <;> simp
@[simp] theorem State.modTaskOf_fresh (s : State) (h : Nat) (f : Task → Task) : (s.modTaskOf h f).fresh = s.fresh := by
  unfold State.modTaskOf; split <;> simp

/-! ### modPart -/

@[simp] theorem State.modPart_harts (s : State) (p : Nat) (f : Part → Part) : (s.modPart p f).harts = s.harts := by
  unfold State.modPart; split <;> rfl
@[simp] theorem State.modPart_mem (s : State) (p : Nat) (f : Part → Part) : (s.modPart p f).mem = s.mem := by
  unfold State.modPart; split <;> rfl
@[simp] theorem State.modPart_tasks (s : State) (p : Nat) (f : Part → Part) : (s.modPart p f).tasks = s.tasks := by
  unfold State.modPart; split <;> rfl
@[simp] theorem State.modPart_futures (s : State) (p : Nat) (f : Part → Part) : (s.modPart p f).futures = s.futures := by
  unfold State.modPart; split <;> rfl
@[simp] theorem State.modPart_clusters (s : State) (p : Nat) (f : Part → Part) : (s.modPart p f).clusters = s.clusters := by
  unfold State.modPart; split <;> rfl
@[simp] theorem State.modPart_pairs (s : State) (p : Nat) (f : Part → Part) : (s.modPart p f).pairs = s.pairs := by
  unfold State.modPart; split <;> rfl
@[simp] theorem State.modPart_barriers (s : State) (p : Nat) (f : Part → Part) : (s.modPart p f).barriers = s.barriers := by
  unfold State.modPart; split <;> rfl
@[simp] theorem State.modPart_mailboxes (s : State) (p : Nat) (f : Part → Part) : (s.modPart p f).mailboxes = s.mailboxes := by
  unfold State.modPart; split <;> rfl
@[simp] theorem State.modPart_gates (s : State) (p : Nat) (f : Part → Part) : (s.modPart p f).gates = s.gates := by
  unfold State.modPart; split <;> rfl
@[simp] theorem State.modPart_rings (s : State) (p : Nat) (f : Part → Part) : (s.modPart p f).rings = s.rings := by
  unfold State.modPart; split <;> rfl
@[simp] theorem State.modPart_queues (s : State) (p : Nat) (f : Part → Part) : (s.modPart p f).queues = s.queues := by
  unfold State.modPart; split <;> rfl
@[simp] theorem State.modPart_launches (s : State) (p : Nat) (f : Part → Part) : (s.modPart p f).launches = s.launches := by
  unfold State.modPart; split <;> rfl
@[simp] theorem State.modPart_fmts (s : State) (p : Nat) (f : Part → Part) : (s.modPart p f).fmts = s.fmts := by
  unfold State.modPart; split <;> rfl
@[simp] theorem State.modPart_fmtVers (s : State) (p : Nat) (f : Part → Part) : (s.modPart p f).fmtVers = s.fmtVers := by
  unfold State.modPart; split <;> rfl
@[simp] theorem State.modPart_gateMarks (s : State) (p : Nat) (f : Part → Part) : (s.modPart p f).gateMarks = s.gateMarks := by
  unfold State.modPart; split <;> rfl
@[simp] theorem State.modPart_keys (s : State) (p : Nat) (f : Part → Part) : (s.modPart p f).keys = s.keys := by
  unfold State.modPart; split <;> rfl
@[simp] theorem State.modPart_unitKeys (s : State) (p : Nat) (f : Part → Part) : (s.modPart p f).unitKeys = s.unitKeys := by
  unfold State.modPart; split <;> rfl
@[simp] theorem State.modPart_hargs (s : State) (p : Nat) (f : Part → Part) : (s.modPart p f).hargs = s.hargs := by
  unfold State.modPart; split <;> rfl
@[simp] theorem State.modPart_hstat (s : State) (p : Nat) (f : Part → Part) : (s.modPart p f).hstat = s.hstat := by
  unfold State.modPart; split <;> rfl
@[simp] theorem State.modPart_hwait (s : State) (p : Nat) (f : Part → Part) : (s.modPart p f).hwait = s.hwait := by
  unfold State.modPart; split <;> rfl
@[simp] theorem State.modPart_vfArgs (s : State) (p : Nat) (f : Part → Part) : (s.modPart p f).vfArgs = s.vfArgs := by
  unfold State.modPart; split <;> rfl
@[simp] theorem State.modPart_vfStat (s : State) (p : Nat) (f : Part → Part) : (s.modPart p f).vfStat = s.vfStat := by
  unfold State.modPart; split <;> rfl
@[simp] theorem State.modPart_drops (s : State) (p : Nat) (f : Part → Part) : (s.modPart p f).drops = s.drops := by
  unfold State.modPart; split <;> rfl
@[simp] theorem State.modPart_msix (s : State) (p : Nat) (f : Part → Part) : (s.modPart p f).msix = s.msix := by
  unfold State.modPart; split <;> rfl
@[simp] theorem State.modPart_ats (s : State) (p : Nat) (f : Part → Part) : (s.modPart p f).ats = s.ats := by
  unfold State.modPart; split <;> rfl
@[simp] theorem State.modPart_chip (s : State) (p : Nat) (f : Part → Part) : (s.modPart p f).chip = s.chip := by
  unfold State.modPart; split <;> rfl
@[simp] theorem State.modPart_ready (s : State) (p : Nat) (f : Part → Part) : (s.modPart p f).ready = s.ready := by
  unfold State.modPart; split <;> rfl
@[simp] theorem State.modPart_profile (s : State) (p : Nat) (f : Part → Part) : (s.modPart p f).profile = s.profile := by
  unfold State.modPart; split <;> rfl
@[simp] theorem State.modPart_ports (s : State) (p : Nat) (f : Part → Part) : (s.modPart p f).ports = s.ports := by
  unfold State.modPart; split <;> rfl
@[simp] theorem State.modPart_outgoing (s : State) (p : Nat) (f : Part → Part) : (s.modPart p f).outgoing = s.outgoing := by
  unfold State.modPart; split <;> rfl
@[simp] theorem State.modPart_departed (s : State) (p : Nat) (f : Part → Part) : (s.modPart p f).departed = s.departed := by
  unfold State.modPart; split <;> rfl
@[simp] theorem State.modPart_forwards (s : State) (p : Nat) (f : Part → Part) : (s.modPart p f).forwards = s.forwards := by
  unfold State.modPart; split <;> rfl
@[simp] theorem State.modPart_former (s : State) (p : Nat) (f : Part → Part) : (s.modPart p f).former = s.former := by
  unfold State.modPart; split <;> rfl
@[simp] theorem State.modPart_halted (s : State) (p : Nat) (f : Part → Part) : (s.modPart p f).halted = s.halted := by
  unfold State.modPart; split <;> rfl
@[simp] theorem State.modPart_serial (s : State) (p : Nat) (f : Part → Part) : (s.modPart p f).serial = s.serial := by
  unfold State.modPart; split <;> rfl
@[simp] theorem State.modPart_pending (s : State) (p : Nat) (f : Part → Part) : (s.modPart p f).pending = s.pending := by
  unfold State.modPart; split <;> rfl
@[simp] theorem State.modPart_turns (s : State) (p : Nat) (f : Part → Part) : (s.modPart p f).turns = s.turns := by
  unfold State.modPart; split <;> rfl
@[simp] theorem State.modPart_cur (s : State) (p : Nat) (f : Part → Part) : (s.modPart p f).cur = s.cur := by
  unfold State.modPart; split <;> rfl
@[simp] theorem State.modPart_clock (s : State) (p : Nat) (f : Part → Part) : (s.modPart p f).clock = s.clock := by
  unfold State.modPart; split <;> rfl
@[simp] theorem State.modPart_fresh (s : State) (p : Nat) (f : Part → Part) : (s.modPart p f).fresh = s.fresh := by
  unfold State.modPart; split <;> rfl

/-! ### modLaunch -/

@[simp] theorem State.modLaunch_harts (s : State) (l : Nat) (f : Launch → Launch) : (s.modLaunch l f).harts = s.harts := by
  unfold State.modLaunch; split <;> rfl
@[simp] theorem State.modLaunch_mem (s : State) (l : Nat) (f : Launch → Launch) : (s.modLaunch l f).mem = s.mem := by
  unfold State.modLaunch; split <;> rfl
@[simp] theorem State.modLaunch_tasks (s : State) (l : Nat) (f : Launch → Launch) : (s.modLaunch l f).tasks = s.tasks := by
  unfold State.modLaunch; split <;> rfl
@[simp] theorem State.modLaunch_futures (s : State) (l : Nat) (f : Launch → Launch) : (s.modLaunch l f).futures = s.futures := by
  unfold State.modLaunch; split <;> rfl
@[simp] theorem State.modLaunch_clusters (s : State) (l : Nat) (f : Launch → Launch) : (s.modLaunch l f).clusters = s.clusters := by
  unfold State.modLaunch; split <;> rfl
@[simp] theorem State.modLaunch_pairs (s : State) (l : Nat) (f : Launch → Launch) : (s.modLaunch l f).pairs = s.pairs := by
  unfold State.modLaunch; split <;> rfl
@[simp] theorem State.modLaunch_barriers (s : State) (l : Nat) (f : Launch → Launch) : (s.modLaunch l f).barriers = s.barriers := by
  unfold State.modLaunch; split <;> rfl
@[simp] theorem State.modLaunch_mailboxes (s : State) (l : Nat) (f : Launch → Launch) : (s.modLaunch l f).mailboxes = s.mailboxes := by
  unfold State.modLaunch; split <;> rfl
@[simp] theorem State.modLaunch_parts (s : State) (l : Nat) (f : Launch → Launch) : (s.modLaunch l f).parts = s.parts := by
  unfold State.modLaunch; split <;> rfl
@[simp] theorem State.modLaunch_gates (s : State) (l : Nat) (f : Launch → Launch) : (s.modLaunch l f).gates = s.gates := by
  unfold State.modLaunch; split <;> rfl
@[simp] theorem State.modLaunch_rings (s : State) (l : Nat) (f : Launch → Launch) : (s.modLaunch l f).rings = s.rings := by
  unfold State.modLaunch; split <;> rfl
@[simp] theorem State.modLaunch_queues (s : State) (l : Nat) (f : Launch → Launch) : (s.modLaunch l f).queues = s.queues := by
  unfold State.modLaunch; split <;> rfl
@[simp] theorem State.modLaunch_fmts (s : State) (l : Nat) (f : Launch → Launch) : (s.modLaunch l f).fmts = s.fmts := by
  unfold State.modLaunch; split <;> rfl
@[simp] theorem State.modLaunch_fmtVers (s : State) (l : Nat) (f : Launch → Launch) : (s.modLaunch l f).fmtVers = s.fmtVers := by
  unfold State.modLaunch; split <;> rfl
@[simp] theorem State.modLaunch_gateMarks (s : State) (l : Nat) (f : Launch → Launch) : (s.modLaunch l f).gateMarks = s.gateMarks := by
  unfold State.modLaunch; split <;> rfl
@[simp] theorem State.modLaunch_keys (s : State) (l : Nat) (f : Launch → Launch) : (s.modLaunch l f).keys = s.keys := by
  unfold State.modLaunch; split <;> rfl
@[simp] theorem State.modLaunch_unitKeys (s : State) (l : Nat) (f : Launch → Launch) : (s.modLaunch l f).unitKeys = s.unitKeys := by
  unfold State.modLaunch; split <;> rfl
@[simp] theorem State.modLaunch_hargs (s : State) (l : Nat) (f : Launch → Launch) : (s.modLaunch l f).hargs = s.hargs := by
  unfold State.modLaunch; split <;> rfl
@[simp] theorem State.modLaunch_hstat (s : State) (l : Nat) (f : Launch → Launch) : (s.modLaunch l f).hstat = s.hstat := by
  unfold State.modLaunch; split <;> rfl
@[simp] theorem State.modLaunch_hwait (s : State) (l : Nat) (f : Launch → Launch) : (s.modLaunch l f).hwait = s.hwait := by
  unfold State.modLaunch; split <;> rfl
@[simp] theorem State.modLaunch_vfArgs (s : State) (l : Nat) (f : Launch → Launch) : (s.modLaunch l f).vfArgs = s.vfArgs := by
  unfold State.modLaunch; split <;> rfl
@[simp] theorem State.modLaunch_vfStat (s : State) (l : Nat) (f : Launch → Launch) : (s.modLaunch l f).vfStat = s.vfStat := by
  unfold State.modLaunch; split <;> rfl
@[simp] theorem State.modLaunch_drops (s : State) (l : Nat) (f : Launch → Launch) : (s.modLaunch l f).drops = s.drops := by
  unfold State.modLaunch; split <;> rfl
@[simp] theorem State.modLaunch_msix (s : State) (l : Nat) (f : Launch → Launch) : (s.modLaunch l f).msix = s.msix := by
  unfold State.modLaunch; split <;> rfl
@[simp] theorem State.modLaunch_ats (s : State) (l : Nat) (f : Launch → Launch) : (s.modLaunch l f).ats = s.ats := by
  unfold State.modLaunch; split <;> rfl
@[simp] theorem State.modLaunch_chip (s : State) (l : Nat) (f : Launch → Launch) : (s.modLaunch l f).chip = s.chip := by
  unfold State.modLaunch; split <;> rfl
@[simp] theorem State.modLaunch_ready (s : State) (l : Nat) (f : Launch → Launch) : (s.modLaunch l f).ready = s.ready := by
  unfold State.modLaunch; split <;> rfl
@[simp] theorem State.modLaunch_profile (s : State) (l : Nat) (f : Launch → Launch) : (s.modLaunch l f).profile = s.profile := by
  unfold State.modLaunch; split <;> rfl
@[simp] theorem State.modLaunch_ports (s : State) (l : Nat) (f : Launch → Launch) : (s.modLaunch l f).ports = s.ports := by
  unfold State.modLaunch; split <;> rfl
@[simp] theorem State.modLaunch_outgoing (s : State) (l : Nat) (f : Launch → Launch) : (s.modLaunch l f).outgoing = s.outgoing := by
  unfold State.modLaunch; split <;> rfl
@[simp] theorem State.modLaunch_departed (s : State) (l : Nat) (f : Launch → Launch) : (s.modLaunch l f).departed = s.departed := by
  unfold State.modLaunch; split <;> rfl
@[simp] theorem State.modLaunch_forwards (s : State) (l : Nat) (f : Launch → Launch) : (s.modLaunch l f).forwards = s.forwards := by
  unfold State.modLaunch; split <;> rfl
@[simp] theorem State.modLaunch_former (s : State) (l : Nat) (f : Launch → Launch) : (s.modLaunch l f).former = s.former := by
  unfold State.modLaunch; split <;> rfl
@[simp] theorem State.modLaunch_halted (s : State) (l : Nat) (f : Launch → Launch) : (s.modLaunch l f).halted = s.halted := by
  unfold State.modLaunch; split <;> rfl
@[simp] theorem State.modLaunch_serial (s : State) (l : Nat) (f : Launch → Launch) : (s.modLaunch l f).serial = s.serial := by
  unfold State.modLaunch; split <;> rfl
@[simp] theorem State.modLaunch_pending (s : State) (l : Nat) (f : Launch → Launch) : (s.modLaunch l f).pending = s.pending := by
  unfold State.modLaunch; split <;> rfl
@[simp] theorem State.modLaunch_turns (s : State) (l : Nat) (f : Launch → Launch) : (s.modLaunch l f).turns = s.turns := by
  unfold State.modLaunch; split <;> rfl
@[simp] theorem State.modLaunch_cur (s : State) (l : Nat) (f : Launch → Launch) : (s.modLaunch l f).cur = s.cur := by
  unfold State.modLaunch; split <;> rfl
@[simp] theorem State.modLaunch_clock (s : State) (l : Nat) (f : Launch → Launch) : (s.modLaunch l f).clock = s.clock := by
  unfold State.modLaunch; split <;> rfl
@[simp] theorem State.modLaunch_fresh (s : State) (l : Nat) (f : Launch → Launch) : (s.modLaunch l f).fresh = s.fresh := by
  unfold State.modLaunch; split <;> rfl

/-! ### tick -/

@[simp] theorem State.tick_harts (s : State) : (s.tick).harts = s.harts := rfl
@[simp] theorem State.tick_mem (s : State) : (s.tick).mem = s.mem := rfl
@[simp] theorem State.tick_tasks (s : State) : (s.tick).tasks = s.tasks := rfl
@[simp] theorem State.tick_futures (s : State) : (s.tick).futures = s.futures := rfl
@[simp] theorem State.tick_clusters (s : State) : (s.tick).clusters = s.clusters := rfl
@[simp] theorem State.tick_pairs (s : State) : (s.tick).pairs = s.pairs := rfl
@[simp] theorem State.tick_barriers (s : State) : (s.tick).barriers = s.barriers := rfl
@[simp] theorem State.tick_mailboxes (s : State) : (s.tick).mailboxes = s.mailboxes := rfl
@[simp] theorem State.tick_parts (s : State) : (s.tick).parts = s.parts := rfl
@[simp] theorem State.tick_gates (s : State) : (s.tick).gates = s.gates := rfl
@[simp] theorem State.tick_rings (s : State) : (s.tick).rings = s.rings := rfl
@[simp] theorem State.tick_queues (s : State) : (s.tick).queues = s.queues := rfl
@[simp] theorem State.tick_launches (s : State) : (s.tick).launches = s.launches := rfl
@[simp] theorem State.tick_fmts (s : State) : (s.tick).fmts = s.fmts := rfl
@[simp] theorem State.tick_fmtVers (s : State) : (s.tick).fmtVers = s.fmtVers := rfl
@[simp] theorem State.tick_gateMarks (s : State) : (s.tick).gateMarks = s.gateMarks := rfl
@[simp] theorem State.tick_keys (s : State) : (s.tick).keys = s.keys := rfl
@[simp] theorem State.tick_unitKeys (s : State) : (s.tick).unitKeys = s.unitKeys := rfl
@[simp] theorem State.tick_hargs (s : State) : (s.tick).hargs = s.hargs := rfl
@[simp] theorem State.tick_hstat (s : State) : (s.tick).hstat = s.hstat := rfl
@[simp] theorem State.tick_hwait (s : State) : (s.tick).hwait = s.hwait := rfl
@[simp] theorem State.tick_vfArgs (s : State) : (s.tick).vfArgs = s.vfArgs := rfl
@[simp] theorem State.tick_vfStat (s : State) : (s.tick).vfStat = s.vfStat := rfl
@[simp] theorem State.tick_drops (s : State) : (s.tick).drops = s.drops := rfl
@[simp] theorem State.tick_msix (s : State) : (s.tick).msix = s.msix := rfl
@[simp] theorem State.tick_ats (s : State) : (s.tick).ats = s.ats := rfl
@[simp] theorem State.tick_chip (s : State) : (s.tick).chip = s.chip := rfl
@[simp] theorem State.tick_ready (s : State) : (s.tick).ready = s.ready := rfl
@[simp] theorem State.tick_profile (s : State) : (s.tick).profile = s.profile := rfl
@[simp] theorem State.tick_ports (s : State) : (s.tick).ports = s.ports := rfl
@[simp] theorem State.tick_outgoing (s : State) : (s.tick).outgoing = s.outgoing := rfl
@[simp] theorem State.tick_departed (s : State) : (s.tick).departed = s.departed := rfl
@[simp] theorem State.tick_forwards (s : State) : (s.tick).forwards = s.forwards := rfl
@[simp] theorem State.tick_former (s : State) : (s.tick).former = s.former := rfl
@[simp] theorem State.tick_halted (s : State) : (s.tick).halted = s.halted := rfl
@[simp] theorem State.tick_pending (s : State) : (s.tick).pending = s.pending := rfl
@[simp] theorem State.tick_turns (s : State) : (s.tick).turns = s.turns := rfl
@[simp] theorem State.tick_cur (s : State) : (s.tick).cur = s.cur := rfl
@[simp] theorem State.tick_clock (s : State) : (s.tick).clock = s.clock := rfl
@[simp] theorem State.tick_fresh (s : State) : (s.tick).fresh = s.fresh := rfl

/-! ### post -/

@[simp] theorem State.post_harts (s : State) (i : Instr) : (s.post i).harts = s.harts := rfl
@[simp] theorem State.post_mem (s : State) (i : Instr) : (s.post i).mem = s.mem := rfl
@[simp] theorem State.post_tasks (s : State) (i : Instr) : (s.post i).tasks = s.tasks := rfl
@[simp] theorem State.post_futures (s : State) (i : Instr) : (s.post i).futures = s.futures := rfl
@[simp] theorem State.post_clusters (s : State) (i : Instr) : (s.post i).clusters = s.clusters := rfl
@[simp] theorem State.post_pairs (s : State) (i : Instr) : (s.post i).pairs = s.pairs := rfl
@[simp] theorem State.post_barriers (s : State) (i : Instr) : (s.post i).barriers = s.barriers := rfl
@[simp] theorem State.post_mailboxes (s : State) (i : Instr) : (s.post i).mailboxes = s.mailboxes := rfl
@[simp] theorem State.post_parts (s : State) (i : Instr) : (s.post i).parts = s.parts := rfl
@[simp] theorem State.post_gates (s : State) (i : Instr) : (s.post i).gates = s.gates := rfl
@[simp] theorem State.post_rings (s : State) (i : Instr) : (s.post i).rings = s.rings := rfl
@[simp] theorem State.post_queues (s : State) (i : Instr) : (s.post i).queues = s.queues := rfl
@[simp] theorem State.post_launches (s : State) (i : Instr) : (s.post i).launches = s.launches := rfl
@[simp] theorem State.post_fmts (s : State) (i : Instr) : (s.post i).fmts = s.fmts := rfl
@[simp] theorem State.post_fmtVers (s : State) (i : Instr) : (s.post i).fmtVers = s.fmtVers := rfl
@[simp] theorem State.post_gateMarks (s : State) (i : Instr) : (s.post i).gateMarks = s.gateMarks := rfl
@[simp] theorem State.post_keys (s : State) (i : Instr) : (s.post i).keys = s.keys := rfl
@[simp] theorem State.post_unitKeys (s : State) (i : Instr) : (s.post i).unitKeys = s.unitKeys := rfl
@[simp] theorem State.post_hargs (s : State) (i : Instr) : (s.post i).hargs = s.hargs := rfl
@[simp] theorem State.post_hstat (s : State) (i : Instr) : (s.post i).hstat = s.hstat := rfl
@[simp] theorem State.post_hwait (s : State) (i : Instr) : (s.post i).hwait = s.hwait := rfl
@[simp] theorem State.post_vfArgs (s : State) (i : Instr) : (s.post i).vfArgs = s.vfArgs := rfl
@[simp] theorem State.post_vfStat (s : State) (i : Instr) : (s.post i).vfStat = s.vfStat := rfl
@[simp] theorem State.post_drops (s : State) (i : Instr) : (s.post i).drops = s.drops := rfl
@[simp] theorem State.post_msix (s : State) (i : Instr) : (s.post i).msix = s.msix := rfl
@[simp] theorem State.post_ats (s : State) (i : Instr) : (s.post i).ats = s.ats := rfl
@[simp] theorem State.post_chip (s : State) (i : Instr) : (s.post i).chip = s.chip := rfl
@[simp] theorem State.post_ready (s : State) (i : Instr) : (s.post i).ready = s.ready := rfl
@[simp] theorem State.post_profile (s : State) (i : Instr) : (s.post i).profile = s.profile := rfl
@[simp] theorem State.post_ports (s : State) (i : Instr) : (s.post i).ports = s.ports := rfl
@[simp] theorem State.post_outgoing (s : State) (i : Instr) : (s.post i).outgoing = s.outgoing := rfl
@[simp] theorem State.post_departed (s : State) (i : Instr) : (s.post i).departed = s.departed := rfl
@[simp] theorem State.post_forwards (s : State) (i : Instr) : (s.post i).forwards = s.forwards := rfl
@[simp] theorem State.post_former (s : State) (i : Instr) : (s.post i).former = s.former := rfl
@[simp] theorem State.post_halted (s : State) (i : Instr) : (s.post i).halted = s.halted := rfl
@[simp] theorem State.post_serial (s : State) (i : Instr) : (s.post i).serial = s.serial := rfl
@[simp] theorem State.post_turns (s : State) (i : Instr) : (s.post i).turns = s.turns := rfl
@[simp] theorem State.post_cur (s : State) (i : Instr) : (s.post i).cur = s.cur := rfl
@[simp] theorem State.post_clock (s : State) (i : Instr) : (s.post i).clock = s.clock := rfl
@[simp] theorem State.post_fresh (s : State) (i : Instr) : (s.post i).fresh = s.fresh := rfl

/-! ### useFresh -/

@[simp] theorem State.useFresh_harts (s : State) : (s.useFresh).harts = s.harts := rfl
@[simp] theorem State.useFresh_mem (s : State) : (s.useFresh).mem = s.mem := rfl
@[simp] theorem State.useFresh_tasks (s : State) : (s.useFresh).tasks = s.tasks := rfl
@[simp] theorem State.useFresh_futures (s : State) : (s.useFresh).futures = s.futures := rfl
@[simp] theorem State.useFresh_clusters (s : State) : (s.useFresh).clusters = s.clusters := rfl
@[simp] theorem State.useFresh_pairs (s : State) : (s.useFresh).pairs = s.pairs := rfl
@[simp] theorem State.useFresh_barriers (s : State) : (s.useFresh).barriers = s.barriers := rfl
@[simp] theorem State.useFresh_mailboxes (s : State) : (s.useFresh).mailboxes = s.mailboxes := rfl
@[simp] theorem State.useFresh_parts (s : State) : (s.useFresh).parts = s.parts := rfl
@[simp] theorem State.useFresh_gates (s : State) : (s.useFresh).gates = s.gates := rfl
@[simp] theorem State.useFresh_rings (s : State) : (s.useFresh).rings = s.rings := rfl
@[simp] theorem State.useFresh_queues (s : State) : (s.useFresh).queues = s.queues := rfl
@[simp] theorem State.useFresh_launches (s : State) : (s.useFresh).launches = s.launches := rfl
@[simp] theorem State.useFresh_fmts (s : State) : (s.useFresh).fmts = s.fmts := rfl
@[simp] theorem State.useFresh_fmtVers (s : State) : (s.useFresh).fmtVers = s.fmtVers := rfl
@[simp] theorem State.useFresh_gateMarks (s : State) : (s.useFresh).gateMarks = s.gateMarks := rfl
@[simp] theorem State.useFresh_keys (s : State) : (s.useFresh).keys = s.keys := rfl
@[simp] theorem State.useFresh_unitKeys (s : State) : (s.useFresh).unitKeys = s.unitKeys := rfl
@[simp] theorem State.useFresh_hargs (s : State) : (s.useFresh).hargs = s.hargs := rfl
@[simp] theorem State.useFresh_hstat (s : State) : (s.useFresh).hstat = s.hstat := rfl
@[simp] theorem State.useFresh_hwait (s : State) : (s.useFresh).hwait = s.hwait := rfl
@[simp] theorem State.useFresh_vfArgs (s : State) : (s.useFresh).vfArgs = s.vfArgs := rfl
@[simp] theorem State.useFresh_vfStat (s : State) : (s.useFresh).vfStat = s.vfStat := rfl
@[simp] theorem State.useFresh_drops (s : State) : (s.useFresh).drops = s.drops := rfl
@[simp] theorem State.useFresh_msix (s : State) : (s.useFresh).msix = s.msix := rfl
@[simp] theorem State.useFresh_ats (s : State) : (s.useFresh).ats = s.ats := rfl
@[simp] theorem State.useFresh_chip (s : State) : (s.useFresh).chip = s.chip := rfl
@[simp] theorem State.useFresh_ready (s : State) : (s.useFresh).ready = s.ready := rfl
@[simp] theorem State.useFresh_profile (s : State) : (s.useFresh).profile = s.profile := rfl
@[simp] theorem State.useFresh_ports (s : State) : (s.useFresh).ports = s.ports := rfl
@[simp] theorem State.useFresh_outgoing (s : State) : (s.useFresh).outgoing = s.outgoing := rfl
@[simp] theorem State.useFresh_departed (s : State) : (s.useFresh).departed = s.departed := rfl
@[simp] theorem State.useFresh_forwards (s : State) : (s.useFresh).forwards = s.forwards := rfl
@[simp] theorem State.useFresh_former (s : State) : (s.useFresh).former = s.former := rfl
@[simp] theorem State.useFresh_halted (s : State) : (s.useFresh).halted = s.halted := rfl
@[simp] theorem State.useFresh_serial (s : State) : (s.useFresh).serial = s.serial := rfl
@[simp] theorem State.useFresh_pending (s : State) : (s.useFresh).pending = s.pending := rfl
@[simp] theorem State.useFresh_turns (s : State) : (s.useFresh).turns = s.turns := rfl
@[simp] theorem State.useFresh_cur (s : State) : (s.useFresh).cur = s.cur := rfl
@[simp] theorem State.useFresh_clock (s : State) : (s.useFresh).clock = s.clock := rfl

/-! ### setX -/

@[simp] theorem State.setX_mem (s : State) (r : Reg) (v : Word) : (s.setX r v).mem = s.mem := rfl
@[simp] theorem State.setX_tasks (s : State) (r : Reg) (v : Word) : (s.setX r v).tasks = s.tasks := rfl
@[simp] theorem State.setX_futures (s : State) (r : Reg) (v : Word) : (s.setX r v).futures = s.futures := rfl
@[simp] theorem State.setX_clusters (s : State) (r : Reg) (v : Word) : (s.setX r v).clusters = s.clusters := rfl
@[simp] theorem State.setX_pairs (s : State) (r : Reg) (v : Word) : (s.setX r v).pairs = s.pairs := rfl
@[simp] theorem State.setX_barriers (s : State) (r : Reg) (v : Word) : (s.setX r v).barriers = s.barriers := rfl
@[simp] theorem State.setX_mailboxes (s : State) (r : Reg) (v : Word) : (s.setX r v).mailboxes = s.mailboxes := rfl
@[simp] theorem State.setX_parts (s : State) (r : Reg) (v : Word) : (s.setX r v).parts = s.parts := rfl
@[simp] theorem State.setX_gates (s : State) (r : Reg) (v : Word) : (s.setX r v).gates = s.gates := rfl
@[simp] theorem State.setX_rings (s : State) (r : Reg) (v : Word) : (s.setX r v).rings = s.rings := rfl
@[simp] theorem State.setX_queues (s : State) (r : Reg) (v : Word) : (s.setX r v).queues = s.queues := rfl
@[simp] theorem State.setX_launches (s : State) (r : Reg) (v : Word) : (s.setX r v).launches = s.launches := rfl
@[simp] theorem State.setX_fmts (s : State) (r : Reg) (v : Word) : (s.setX r v).fmts = s.fmts := rfl
@[simp] theorem State.setX_fmtVers (s : State) (r : Reg) (v : Word) : (s.setX r v).fmtVers = s.fmtVers := rfl
@[simp] theorem State.setX_gateMarks (s : State) (r : Reg) (v : Word) : (s.setX r v).gateMarks = s.gateMarks := rfl
@[simp] theorem State.setX_keys (s : State) (r : Reg) (v : Word) : (s.setX r v).keys = s.keys := rfl
@[simp] theorem State.setX_unitKeys (s : State) (r : Reg) (v : Word) : (s.setX r v).unitKeys = s.unitKeys := rfl
@[simp] theorem State.setX_hargs (s : State) (r : Reg) (v : Word) : (s.setX r v).hargs = s.hargs := rfl
@[simp] theorem State.setX_hstat (s : State) (r : Reg) (v : Word) : (s.setX r v).hstat = s.hstat := rfl
@[simp] theorem State.setX_hwait (s : State) (r : Reg) (v : Word) : (s.setX r v).hwait = s.hwait := rfl
@[simp] theorem State.setX_vfArgs (s : State) (r : Reg) (v : Word) : (s.setX r v).vfArgs = s.vfArgs := rfl
@[simp] theorem State.setX_vfStat (s : State) (r : Reg) (v : Word) : (s.setX r v).vfStat = s.vfStat := rfl
@[simp] theorem State.setX_drops (s : State) (r : Reg) (v : Word) : (s.setX r v).drops = s.drops := rfl
@[simp] theorem State.setX_msix (s : State) (r : Reg) (v : Word) : (s.setX r v).msix = s.msix := rfl
@[simp] theorem State.setX_ats (s : State) (r : Reg) (v : Word) : (s.setX r v).ats = s.ats := rfl
@[simp] theorem State.setX_chip (s : State) (r : Reg) (v : Word) : (s.setX r v).chip = s.chip := rfl
@[simp] theorem State.setX_ready (s : State) (r : Reg) (v : Word) : (s.setX r v).ready = s.ready := rfl
@[simp] theorem State.setX_profile (s : State) (r : Reg) (v : Word) : (s.setX r v).profile = s.profile := rfl
@[simp] theorem State.setX_ports (s : State) (r : Reg) (v : Word) : (s.setX r v).ports = s.ports := rfl
@[simp] theorem State.setX_outgoing (s : State) (r : Reg) (v : Word) : (s.setX r v).outgoing = s.outgoing := rfl
@[simp] theorem State.setX_departed (s : State) (r : Reg) (v : Word) : (s.setX r v).departed = s.departed := rfl
@[simp] theorem State.setX_forwards (s : State) (r : Reg) (v : Word) : (s.setX r v).forwards = s.forwards := rfl
@[simp] theorem State.setX_former (s : State) (r : Reg) (v : Word) : (s.setX r v).former = s.former := rfl
@[simp] theorem State.setX_halted (s : State) (r : Reg) (v : Word) : (s.setX r v).halted = s.halted := rfl
@[simp] theorem State.setX_serial (s : State) (r : Reg) (v : Word) : (s.setX r v).serial = s.serial := rfl
@[simp] theorem State.setX_pending (s : State) (r : Reg) (v : Word) : (s.setX r v).pending = s.pending := rfl
@[simp] theorem State.setX_turns (s : State) (r : Reg) (v : Word) : (s.setX r v).turns = s.turns := rfl
@[simp] theorem State.setX_cur (s : State) (r : Reg) (v : Word) : (s.setX r v).cur = s.cur := rfl
@[simp] theorem State.setX_clock (s : State) (r : Reg) (v : Word) : (s.setX r v).clock = s.clock := rfl
@[simp] theorem State.setX_fresh (s : State) (r : Reg) (v : Word) : (s.setX r v).fresh = s.fresh := rfl

/-! ### setXOf -/

@[simp] theorem State.setXOf_mem (s : State) (h : Nat) (r : Reg) (v : Word) : (s.setXOf h r v).mem = s.mem := rfl
@[simp] theorem State.setXOf_tasks (s : State) (h : Nat) (r : Reg) (v : Word) : (s.setXOf h r v).tasks = s.tasks := rfl
@[simp] theorem State.setXOf_futures (s : State) (h : Nat) (r : Reg) (v : Word) : (s.setXOf h r v).futures = s.futures := rfl
@[simp] theorem State.setXOf_clusters (s : State) (h : Nat) (r : Reg) (v : Word) : (s.setXOf h r v).clusters = s.clusters := rfl
@[simp] theorem State.setXOf_pairs (s : State) (h : Nat) (r : Reg) (v : Word) : (s.setXOf h r v).pairs = s.pairs := rfl
@[simp] theorem State.setXOf_barriers (s : State) (h : Nat) (r : Reg) (v : Word) : (s.setXOf h r v).barriers = s.barriers := rfl
@[simp] theorem State.setXOf_mailboxes (s : State) (h : Nat) (r : Reg) (v : Word) : (s.setXOf h r v).mailboxes = s.mailboxes := rfl
@[simp] theorem State.setXOf_parts (s : State) (h : Nat) (r : Reg) (v : Word) : (s.setXOf h r v).parts = s.parts := rfl
@[simp] theorem State.setXOf_gates (s : State) (h : Nat) (r : Reg) (v : Word) : (s.setXOf h r v).gates = s.gates := rfl
@[simp] theorem State.setXOf_rings (s : State) (h : Nat) (r : Reg) (v : Word) : (s.setXOf h r v).rings = s.rings := rfl
@[simp] theorem State.setXOf_queues (s : State) (h : Nat) (r : Reg) (v : Word) : (s.setXOf h r v).queues = s.queues := rfl
@[simp] theorem State.setXOf_launches (s : State) (h : Nat) (r : Reg) (v : Word) : (s.setXOf h r v).launches = s.launches := rfl
@[simp] theorem State.setXOf_fmts (s : State) (h : Nat) (r : Reg) (v : Word) : (s.setXOf h r v).fmts = s.fmts := rfl
@[simp] theorem State.setXOf_fmtVers (s : State) (h : Nat) (r : Reg) (v : Word) : (s.setXOf h r v).fmtVers = s.fmtVers := rfl
@[simp] theorem State.setXOf_gateMarks (s : State) (h : Nat) (r : Reg) (v : Word) : (s.setXOf h r v).gateMarks = s.gateMarks := rfl
@[simp] theorem State.setXOf_keys (s : State) (h : Nat) (r : Reg) (v : Word) : (s.setXOf h r v).keys = s.keys := rfl
@[simp] theorem State.setXOf_unitKeys (s : State) (h : Nat) (r : Reg) (v : Word) : (s.setXOf h r v).unitKeys = s.unitKeys := rfl
@[simp] theorem State.setXOf_hargs (s : State) (h : Nat) (r : Reg) (v : Word) : (s.setXOf h r v).hargs = s.hargs := rfl
@[simp] theorem State.setXOf_hstat (s : State) (h : Nat) (r : Reg) (v : Word) : (s.setXOf h r v).hstat = s.hstat := rfl
@[simp] theorem State.setXOf_hwait (s : State) (h : Nat) (r : Reg) (v : Word) : (s.setXOf h r v).hwait = s.hwait := rfl
@[simp] theorem State.setXOf_vfArgs (s : State) (h : Nat) (r : Reg) (v : Word) : (s.setXOf h r v).vfArgs = s.vfArgs := rfl
@[simp] theorem State.setXOf_vfStat (s : State) (h : Nat) (r : Reg) (v : Word) : (s.setXOf h r v).vfStat = s.vfStat := rfl
@[simp] theorem State.setXOf_drops (s : State) (h : Nat) (r : Reg) (v : Word) : (s.setXOf h r v).drops = s.drops := rfl
@[simp] theorem State.setXOf_msix (s : State) (h : Nat) (r : Reg) (v : Word) : (s.setXOf h r v).msix = s.msix := rfl
@[simp] theorem State.setXOf_ats (s : State) (h : Nat) (r : Reg) (v : Word) : (s.setXOf h r v).ats = s.ats := rfl
@[simp] theorem State.setXOf_chip (s : State) (h : Nat) (r : Reg) (v : Word) : (s.setXOf h r v).chip = s.chip := rfl
@[simp] theorem State.setXOf_ready (s : State) (h : Nat) (r : Reg) (v : Word) : (s.setXOf h r v).ready = s.ready := rfl
@[simp] theorem State.setXOf_profile (s : State) (h : Nat) (r : Reg) (v : Word) : (s.setXOf h r v).profile = s.profile := rfl
@[simp] theorem State.setXOf_ports (s : State) (h : Nat) (r : Reg) (v : Word) : (s.setXOf h r v).ports = s.ports := rfl
@[simp] theorem State.setXOf_outgoing (s : State) (h : Nat) (r : Reg) (v : Word) : (s.setXOf h r v).outgoing = s.outgoing := rfl
@[simp] theorem State.setXOf_departed (s : State) (h : Nat) (r : Reg) (v : Word) : (s.setXOf h r v).departed = s.departed := rfl
@[simp] theorem State.setXOf_forwards (s : State) (h : Nat) (r : Reg) (v : Word) : (s.setXOf h r v).forwards = s.forwards := rfl
@[simp] theorem State.setXOf_former (s : State) (h : Nat) (r : Reg) (v : Word) : (s.setXOf h r v).former = s.former := rfl
@[simp] theorem State.setXOf_halted (s : State) (h : Nat) (r : Reg) (v : Word) : (s.setXOf h r v).halted = s.halted := rfl
@[simp] theorem State.setXOf_serial (s : State) (h : Nat) (r : Reg) (v : Word) : (s.setXOf h r v).serial = s.serial := rfl
@[simp] theorem State.setXOf_pending (s : State) (h : Nat) (r : Reg) (v : Word) : (s.setXOf h r v).pending = s.pending := rfl
@[simp] theorem State.setXOf_turns (s : State) (h : Nat) (r : Reg) (v : Word) : (s.setXOf h r v).turns = s.turns := rfl
@[simp] theorem State.setXOf_cur (s : State) (h : Nat) (r : Reg) (v : Word) : (s.setXOf h r v).cur = s.cur := rfl
@[simp] theorem State.setXOf_clock (s : State) (h : Nat) (r : Reg) (v : Word) : (s.setXOf h r v).clock = s.clock := rfl
@[simp] theorem State.setXOf_fresh (s : State) (h : Nat) (r : Reg) (v : Word) : (s.setXOf h r v).fresh = s.fresh := rfl

/-! ### setF -/

@[simp] theorem State.setF_mem (s : State) (r : Reg) (v : Word) : (s.setF r v).mem = s.mem := rfl
@[simp] theorem State.setF_tasks (s : State) (r : Reg) (v : Word) : (s.setF r v).tasks = s.tasks := rfl
@[simp] theorem State.setF_futures (s : State) (r : Reg) (v : Word) : (s.setF r v).futures = s.futures := rfl
@[simp] theorem State.setF_clusters (s : State) (r : Reg) (v : Word) : (s.setF r v).clusters = s.clusters := rfl
@[simp] theorem State.setF_pairs (s : State) (r : Reg) (v : Word) : (s.setF r v).pairs = s.pairs := rfl
@[simp] theorem State.setF_barriers (s : State) (r : Reg) (v : Word) : (s.setF r v).barriers = s.barriers := rfl
@[simp] theorem State.setF_mailboxes (s : State) (r : Reg) (v : Word) : (s.setF r v).mailboxes = s.mailboxes := rfl
@[simp] theorem State.setF_parts (s : State) (r : Reg) (v : Word) : (s.setF r v).parts = s.parts := rfl
@[simp] theorem State.setF_gates (s : State) (r : Reg) (v : Word) : (s.setF r v).gates = s.gates := rfl
@[simp] theorem State.setF_rings (s : State) (r : Reg) (v : Word) : (s.setF r v).rings = s.rings := rfl
@[simp] theorem State.setF_queues (s : State) (r : Reg) (v : Word) : (s.setF r v).queues = s.queues := rfl
@[simp] theorem State.setF_launches (s : State) (r : Reg) (v : Word) : (s.setF r v).launches = s.launches := rfl
@[simp] theorem State.setF_fmts (s : State) (r : Reg) (v : Word) : (s.setF r v).fmts = s.fmts := rfl
@[simp] theorem State.setF_fmtVers (s : State) (r : Reg) (v : Word) : (s.setF r v).fmtVers = s.fmtVers := rfl
@[simp] theorem State.setF_gateMarks (s : State) (r : Reg) (v : Word) : (s.setF r v).gateMarks = s.gateMarks := rfl
@[simp] theorem State.setF_keys (s : State) (r : Reg) (v : Word) : (s.setF r v).keys = s.keys := rfl
@[simp] theorem State.setF_unitKeys (s : State) (r : Reg) (v : Word) : (s.setF r v).unitKeys = s.unitKeys := rfl
@[simp] theorem State.setF_hargs (s : State) (r : Reg) (v : Word) : (s.setF r v).hargs = s.hargs := rfl
@[simp] theorem State.setF_hstat (s : State) (r : Reg) (v : Word) : (s.setF r v).hstat = s.hstat := rfl
@[simp] theorem State.setF_hwait (s : State) (r : Reg) (v : Word) : (s.setF r v).hwait = s.hwait := rfl
@[simp] theorem State.setF_vfArgs (s : State) (r : Reg) (v : Word) : (s.setF r v).vfArgs = s.vfArgs := rfl
@[simp] theorem State.setF_vfStat (s : State) (r : Reg) (v : Word) : (s.setF r v).vfStat = s.vfStat := rfl
@[simp] theorem State.setF_drops (s : State) (r : Reg) (v : Word) : (s.setF r v).drops = s.drops := rfl
@[simp] theorem State.setF_msix (s : State) (r : Reg) (v : Word) : (s.setF r v).msix = s.msix := rfl
@[simp] theorem State.setF_ats (s : State) (r : Reg) (v : Word) : (s.setF r v).ats = s.ats := rfl
@[simp] theorem State.setF_chip (s : State) (r : Reg) (v : Word) : (s.setF r v).chip = s.chip := rfl
@[simp] theorem State.setF_ready (s : State) (r : Reg) (v : Word) : (s.setF r v).ready = s.ready := rfl
@[simp] theorem State.setF_profile (s : State) (r : Reg) (v : Word) : (s.setF r v).profile = s.profile := rfl
@[simp] theorem State.setF_ports (s : State) (r : Reg) (v : Word) : (s.setF r v).ports = s.ports := rfl
@[simp] theorem State.setF_outgoing (s : State) (r : Reg) (v : Word) : (s.setF r v).outgoing = s.outgoing := rfl
@[simp] theorem State.setF_departed (s : State) (r : Reg) (v : Word) : (s.setF r v).departed = s.departed := rfl
@[simp] theorem State.setF_forwards (s : State) (r : Reg) (v : Word) : (s.setF r v).forwards = s.forwards := rfl
@[simp] theorem State.setF_former (s : State) (r : Reg) (v : Word) : (s.setF r v).former = s.former := rfl
@[simp] theorem State.setF_halted (s : State) (r : Reg) (v : Word) : (s.setF r v).halted = s.halted := rfl
@[simp] theorem State.setF_serial (s : State) (r : Reg) (v : Word) : (s.setF r v).serial = s.serial := rfl
@[simp] theorem State.setF_pending (s : State) (r : Reg) (v : Word) : (s.setF r v).pending = s.pending := rfl
@[simp] theorem State.setF_turns (s : State) (r : Reg) (v : Word) : (s.setF r v).turns = s.turns := rfl
@[simp] theorem State.setF_cur (s : State) (r : Reg) (v : Word) : (s.setF r v).cur = s.cur := rfl
@[simp] theorem State.setF_clock (s : State) (r : Reg) (v : Word) : (s.setF r v).clock = s.clock := rfl
@[simp] theorem State.setF_fresh (s : State) (r : Reg) (v : Word) : (s.setF r v).fresh = s.fresh := rfl

/-! ### setFcsr -/

@[simp] theorem State.setFcsr_mem (s : State) (v : BitVec 8) : (s.setFcsr v).mem = s.mem := rfl
@[simp] theorem State.setFcsr_tasks (s : State) (v : BitVec 8) : (s.setFcsr v).tasks = s.tasks := rfl
@[simp] theorem State.setFcsr_futures (s : State) (v : BitVec 8) : (s.setFcsr v).futures = s.futures := rfl
@[simp] theorem State.setFcsr_clusters (s : State) (v : BitVec 8) : (s.setFcsr v).clusters = s.clusters := rfl
@[simp] theorem State.setFcsr_pairs (s : State) (v : BitVec 8) : (s.setFcsr v).pairs = s.pairs := rfl
@[simp] theorem State.setFcsr_barriers (s : State) (v : BitVec 8) : (s.setFcsr v).barriers = s.barriers := rfl
@[simp] theorem State.setFcsr_mailboxes (s : State) (v : BitVec 8) : (s.setFcsr v).mailboxes = s.mailboxes := rfl
@[simp] theorem State.setFcsr_parts (s : State) (v : BitVec 8) : (s.setFcsr v).parts = s.parts := rfl
@[simp] theorem State.setFcsr_gates (s : State) (v : BitVec 8) : (s.setFcsr v).gates = s.gates := rfl
@[simp] theorem State.setFcsr_rings (s : State) (v : BitVec 8) : (s.setFcsr v).rings = s.rings := rfl
@[simp] theorem State.setFcsr_queues (s : State) (v : BitVec 8) : (s.setFcsr v).queues = s.queues := rfl
@[simp] theorem State.setFcsr_launches (s : State) (v : BitVec 8) : (s.setFcsr v).launches = s.launches := rfl
@[simp] theorem State.setFcsr_fmts (s : State) (v : BitVec 8) : (s.setFcsr v).fmts = s.fmts := rfl
@[simp] theorem State.setFcsr_fmtVers (s : State) (v : BitVec 8) : (s.setFcsr v).fmtVers = s.fmtVers := rfl
@[simp] theorem State.setFcsr_gateMarks (s : State) (v : BitVec 8) : (s.setFcsr v).gateMarks = s.gateMarks := rfl
@[simp] theorem State.setFcsr_keys (s : State) (v : BitVec 8) : (s.setFcsr v).keys = s.keys := rfl
@[simp] theorem State.setFcsr_unitKeys (s : State) (v : BitVec 8) : (s.setFcsr v).unitKeys = s.unitKeys := rfl
@[simp] theorem State.setFcsr_hargs (s : State) (v : BitVec 8) : (s.setFcsr v).hargs = s.hargs := rfl
@[simp] theorem State.setFcsr_hstat (s : State) (v : BitVec 8) : (s.setFcsr v).hstat = s.hstat := rfl
@[simp] theorem State.setFcsr_hwait (s : State) (v : BitVec 8) : (s.setFcsr v).hwait = s.hwait := rfl
@[simp] theorem State.setFcsr_vfArgs (s : State) (v : BitVec 8) : (s.setFcsr v).vfArgs = s.vfArgs := rfl
@[simp] theorem State.setFcsr_vfStat (s : State) (v : BitVec 8) : (s.setFcsr v).vfStat = s.vfStat := rfl
@[simp] theorem State.setFcsr_drops (s : State) (v : BitVec 8) : (s.setFcsr v).drops = s.drops := rfl
@[simp] theorem State.setFcsr_msix (s : State) (v : BitVec 8) : (s.setFcsr v).msix = s.msix := rfl
@[simp] theorem State.setFcsr_ats (s : State) (v : BitVec 8) : (s.setFcsr v).ats = s.ats := rfl
@[simp] theorem State.setFcsr_chip (s : State) (v : BitVec 8) : (s.setFcsr v).chip = s.chip := rfl
@[simp] theorem State.setFcsr_ready (s : State) (v : BitVec 8) : (s.setFcsr v).ready = s.ready := rfl
@[simp] theorem State.setFcsr_profile (s : State) (v : BitVec 8) : (s.setFcsr v).profile = s.profile := rfl
@[simp] theorem State.setFcsr_ports (s : State) (v : BitVec 8) : (s.setFcsr v).ports = s.ports := rfl
@[simp] theorem State.setFcsr_outgoing (s : State) (v : BitVec 8) : (s.setFcsr v).outgoing = s.outgoing := rfl
@[simp] theorem State.setFcsr_departed (s : State) (v : BitVec 8) : (s.setFcsr v).departed = s.departed := rfl
@[simp] theorem State.setFcsr_forwards (s : State) (v : BitVec 8) : (s.setFcsr v).forwards = s.forwards := rfl
@[simp] theorem State.setFcsr_former (s : State) (v : BitVec 8) : (s.setFcsr v).former = s.former := rfl
@[simp] theorem State.setFcsr_halted (s : State) (v : BitVec 8) : (s.setFcsr v).halted = s.halted := rfl
@[simp] theorem State.setFcsr_serial (s : State) (v : BitVec 8) : (s.setFcsr v).serial = s.serial := rfl
@[simp] theorem State.setFcsr_pending (s : State) (v : BitVec 8) : (s.setFcsr v).pending = s.pending := rfl
@[simp] theorem State.setFcsr_turns (s : State) (v : BitVec 8) : (s.setFcsr v).turns = s.turns := rfl
@[simp] theorem State.setFcsr_cur (s : State) (v : BitVec 8) : (s.setFcsr v).cur = s.cur := rfl
@[simp] theorem State.setFcsr_clock (s : State) (v : BitVec 8) : (s.setFcsr v).clock = s.clock := rfl
@[simp] theorem State.setFcsr_fresh (s : State) (v : BitVec 8) : (s.setFcsr v).fresh = s.fresh := rfl

/-! ### setPc -/

@[simp] theorem State.setPc_mem (s : State) (v : Word) : (s.setPc v).mem = s.mem := rfl
@[simp] theorem State.setPc_tasks (s : State) (v : Word) : (s.setPc v).tasks = s.tasks := rfl
@[simp] theorem State.setPc_futures (s : State) (v : Word) : (s.setPc v).futures = s.futures := rfl
@[simp] theorem State.setPc_clusters (s : State) (v : Word) : (s.setPc v).clusters = s.clusters := rfl
@[simp] theorem State.setPc_pairs (s : State) (v : Word) : (s.setPc v).pairs = s.pairs := rfl
@[simp] theorem State.setPc_barriers (s : State) (v : Word) : (s.setPc v).barriers = s.barriers := rfl
@[simp] theorem State.setPc_mailboxes (s : State) (v : Word) : (s.setPc v).mailboxes = s.mailboxes := rfl
@[simp] theorem State.setPc_parts (s : State) (v : Word) : (s.setPc v).parts = s.parts := rfl
@[simp] theorem State.setPc_gates (s : State) (v : Word) : (s.setPc v).gates = s.gates := rfl
@[simp] theorem State.setPc_rings (s : State) (v : Word) : (s.setPc v).rings = s.rings := rfl
@[simp] theorem State.setPc_queues (s : State) (v : Word) : (s.setPc v).queues = s.queues := rfl
@[simp] theorem State.setPc_launches (s : State) (v : Word) : (s.setPc v).launches = s.launches := rfl
@[simp] theorem State.setPc_fmts (s : State) (v : Word) : (s.setPc v).fmts = s.fmts := rfl
@[simp] theorem State.setPc_fmtVers (s : State) (v : Word) : (s.setPc v).fmtVers = s.fmtVers := rfl
@[simp] theorem State.setPc_gateMarks (s : State) (v : Word) : (s.setPc v).gateMarks = s.gateMarks := rfl
@[simp] theorem State.setPc_keys (s : State) (v : Word) : (s.setPc v).keys = s.keys := rfl
@[simp] theorem State.setPc_unitKeys (s : State) (v : Word) : (s.setPc v).unitKeys = s.unitKeys := rfl
@[simp] theorem State.setPc_hargs (s : State) (v : Word) : (s.setPc v).hargs = s.hargs := rfl
@[simp] theorem State.setPc_hstat (s : State) (v : Word) : (s.setPc v).hstat = s.hstat := rfl
@[simp] theorem State.setPc_hwait (s : State) (v : Word) : (s.setPc v).hwait = s.hwait := rfl
@[simp] theorem State.setPc_vfArgs (s : State) (v : Word) : (s.setPc v).vfArgs = s.vfArgs := rfl
@[simp] theorem State.setPc_vfStat (s : State) (v : Word) : (s.setPc v).vfStat = s.vfStat := rfl
@[simp] theorem State.setPc_drops (s : State) (v : Word) : (s.setPc v).drops = s.drops := rfl
@[simp] theorem State.setPc_msix (s : State) (v : Word) : (s.setPc v).msix = s.msix := rfl
@[simp] theorem State.setPc_ats (s : State) (v : Word) : (s.setPc v).ats = s.ats := rfl
@[simp] theorem State.setPc_chip (s : State) (v : Word) : (s.setPc v).chip = s.chip := rfl
@[simp] theorem State.setPc_ready (s : State) (v : Word) : (s.setPc v).ready = s.ready := rfl
@[simp] theorem State.setPc_profile (s : State) (v : Word) : (s.setPc v).profile = s.profile := rfl
@[simp] theorem State.setPc_ports (s : State) (v : Word) : (s.setPc v).ports = s.ports := rfl
@[simp] theorem State.setPc_outgoing (s : State) (v : Word) : (s.setPc v).outgoing = s.outgoing := rfl
@[simp] theorem State.setPc_departed (s : State) (v : Word) : (s.setPc v).departed = s.departed := rfl
@[simp] theorem State.setPc_forwards (s : State) (v : Word) : (s.setPc v).forwards = s.forwards := rfl
@[simp] theorem State.setPc_former (s : State) (v : Word) : (s.setPc v).former = s.former := rfl
@[simp] theorem State.setPc_halted (s : State) (v : Word) : (s.setPc v).halted = s.halted := rfl
@[simp] theorem State.setPc_serial (s : State) (v : Word) : (s.setPc v).serial = s.serial := rfl
@[simp] theorem State.setPc_pending (s : State) (v : Word) : (s.setPc v).pending = s.pending := rfl
@[simp] theorem State.setPc_turns (s : State) (v : Word) : (s.setPc v).turns = s.turns := rfl
@[simp] theorem State.setPc_cur (s : State) (v : Word) : (s.setPc v).cur = s.cur := rfl
@[simp] theorem State.setPc_clock (s : State) (v : Word) : (s.setPc v).clock = s.clock := rfl
@[simp] theorem State.setPc_fresh (s : State) (v : Word) : (s.setPc v).fresh = s.fresh := rfl

/-! ### jumpTo -/

@[simp] theorem State.jumpTo_mem (s : State) (v : Word) : (s.jumpTo v).mem = s.mem := rfl
@[simp] theorem State.jumpTo_tasks (s : State) (v : Word) : (s.jumpTo v).tasks = s.tasks := rfl
@[simp] theorem State.jumpTo_futures (s : State) (v : Word) : (s.jumpTo v).futures = s.futures := rfl
@[simp] theorem State.jumpTo_clusters (s : State) (v : Word) : (s.jumpTo v).clusters = s.clusters := rfl
@[simp] theorem State.jumpTo_pairs (s : State) (v : Word) : (s.jumpTo v).pairs = s.pairs := rfl
@[simp] theorem State.jumpTo_barriers (s : State) (v : Word) : (s.jumpTo v).barriers = s.barriers := rfl
@[simp] theorem State.jumpTo_mailboxes (s : State) (v : Word) : (s.jumpTo v).mailboxes = s.mailboxes := rfl
@[simp] theorem State.jumpTo_parts (s : State) (v : Word) : (s.jumpTo v).parts = s.parts := rfl
@[simp] theorem State.jumpTo_gates (s : State) (v : Word) : (s.jumpTo v).gates = s.gates := rfl
@[simp] theorem State.jumpTo_rings (s : State) (v : Word) : (s.jumpTo v).rings = s.rings := rfl
@[simp] theorem State.jumpTo_queues (s : State) (v : Word) : (s.jumpTo v).queues = s.queues := rfl
@[simp] theorem State.jumpTo_launches (s : State) (v : Word) : (s.jumpTo v).launches = s.launches := rfl
@[simp] theorem State.jumpTo_fmts (s : State) (v : Word) : (s.jumpTo v).fmts = s.fmts := rfl
@[simp] theorem State.jumpTo_fmtVers (s : State) (v : Word) : (s.jumpTo v).fmtVers = s.fmtVers := rfl
@[simp] theorem State.jumpTo_gateMarks (s : State) (v : Word) : (s.jumpTo v).gateMarks = s.gateMarks := rfl
@[simp] theorem State.jumpTo_keys (s : State) (v : Word) : (s.jumpTo v).keys = s.keys := rfl
@[simp] theorem State.jumpTo_unitKeys (s : State) (v : Word) : (s.jumpTo v).unitKeys = s.unitKeys := rfl
@[simp] theorem State.jumpTo_hargs (s : State) (v : Word) : (s.jumpTo v).hargs = s.hargs := rfl
@[simp] theorem State.jumpTo_hstat (s : State) (v : Word) : (s.jumpTo v).hstat = s.hstat := rfl
@[simp] theorem State.jumpTo_hwait (s : State) (v : Word) : (s.jumpTo v).hwait = s.hwait := rfl
@[simp] theorem State.jumpTo_vfArgs (s : State) (v : Word) : (s.jumpTo v).vfArgs = s.vfArgs := rfl
@[simp] theorem State.jumpTo_vfStat (s : State) (v : Word) : (s.jumpTo v).vfStat = s.vfStat := rfl
@[simp] theorem State.jumpTo_drops (s : State) (v : Word) : (s.jumpTo v).drops = s.drops := rfl
@[simp] theorem State.jumpTo_msix (s : State) (v : Word) : (s.jumpTo v).msix = s.msix := rfl
@[simp] theorem State.jumpTo_ats (s : State) (v : Word) : (s.jumpTo v).ats = s.ats := rfl
@[simp] theorem State.jumpTo_chip (s : State) (v : Word) : (s.jumpTo v).chip = s.chip := rfl
@[simp] theorem State.jumpTo_ready (s : State) (v : Word) : (s.jumpTo v).ready = s.ready := rfl
@[simp] theorem State.jumpTo_profile (s : State) (v : Word) : (s.jumpTo v).profile = s.profile := rfl
@[simp] theorem State.jumpTo_ports (s : State) (v : Word) : (s.jumpTo v).ports = s.ports := rfl
@[simp] theorem State.jumpTo_outgoing (s : State) (v : Word) : (s.jumpTo v).outgoing = s.outgoing := rfl
@[simp] theorem State.jumpTo_departed (s : State) (v : Word) : (s.jumpTo v).departed = s.departed := rfl
@[simp] theorem State.jumpTo_forwards (s : State) (v : Word) : (s.jumpTo v).forwards = s.forwards := rfl
@[simp] theorem State.jumpTo_former (s : State) (v : Word) : (s.jumpTo v).former = s.former := rfl
@[simp] theorem State.jumpTo_halted (s : State) (v : Word) : (s.jumpTo v).halted = s.halted := rfl
@[simp] theorem State.jumpTo_serial (s : State) (v : Word) : (s.jumpTo v).serial = s.serial := rfl
@[simp] theorem State.jumpTo_pending (s : State) (v : Word) : (s.jumpTo v).pending = s.pending := rfl
@[simp] theorem State.jumpTo_turns (s : State) (v : Word) : (s.jumpTo v).turns = s.turns := rfl
@[simp] theorem State.jumpTo_cur (s : State) (v : Word) : (s.jumpTo v).cur = s.cur := rfl
@[simp] theorem State.jumpTo_clock (s : State) (v : Word) : (s.jumpTo v).clock = s.clock := rfl
@[simp] theorem State.jumpTo_fresh (s : State) (v : Word) : (s.jumpTo v).fresh = s.fresh := rfl

/-! ### enterTrap -/

@[simp] theorem State.enterTrap_mem (s : State) (h : Nat) (intr : Bool) (code sub : Nat) (tval epc : Word) : (s.enterTrap h intr code sub tval epc).mem = s.mem := rfl
@[simp] theorem State.enterTrap_tasks (s : State) (h : Nat) (intr : Bool) (code sub : Nat) (tval epc : Word) : (s.enterTrap h intr code sub tval epc).tasks = s.tasks := rfl
@[simp] theorem State.enterTrap_futures (s : State) (h : Nat) (intr : Bool) (code sub : Nat) (tval epc : Word) : (s.enterTrap h intr code sub tval epc).futures = s.futures := rfl
@[simp] theorem State.enterTrap_clusters (s : State) (h : Nat) (intr : Bool) (code sub : Nat) (tval epc : Word) : (s.enterTrap h intr code sub tval epc).clusters = s.clusters := rfl
@[simp] theorem State.enterTrap_pairs (s : State) (h : Nat) (intr : Bool) (code sub : Nat) (tval epc : Word) : (s.enterTrap h intr code sub tval epc).pairs = s.pairs := rfl
@[simp] theorem State.enterTrap_barriers (s : State) (h : Nat) (intr : Bool) (code sub : Nat) (tval epc : Word) : (s.enterTrap h intr code sub tval epc).barriers = s.barriers := rfl
@[simp] theorem State.enterTrap_mailboxes (s : State) (h : Nat) (intr : Bool) (code sub : Nat) (tval epc : Word) : (s.enterTrap h intr code sub tval epc).mailboxes = s.mailboxes := rfl
@[simp] theorem State.enterTrap_parts (s : State) (h : Nat) (intr : Bool) (code sub : Nat) (tval epc : Word) : (s.enterTrap h intr code sub tval epc).parts = s.parts := rfl
@[simp] theorem State.enterTrap_gates (s : State) (h : Nat) (intr : Bool) (code sub : Nat) (tval epc : Word) : (s.enterTrap h intr code sub tval epc).gates = s.gates := rfl
@[simp] theorem State.enterTrap_rings (s : State) (h : Nat) (intr : Bool) (code sub : Nat) (tval epc : Word) : (s.enterTrap h intr code sub tval epc).rings = s.rings := rfl
@[simp] theorem State.enterTrap_queues (s : State) (h : Nat) (intr : Bool) (code sub : Nat) (tval epc : Word) : (s.enterTrap h intr code sub tval epc).queues = s.queues := rfl
@[simp] theorem State.enterTrap_launches (s : State) (h : Nat) (intr : Bool) (code sub : Nat) (tval epc : Word) : (s.enterTrap h intr code sub tval epc).launches = s.launches := rfl
@[simp] theorem State.enterTrap_fmts (s : State) (h : Nat) (intr : Bool) (code sub : Nat) (tval epc : Word) : (s.enterTrap h intr code sub tval epc).fmts = s.fmts := rfl
@[simp] theorem State.enterTrap_fmtVers (s : State) (h : Nat) (intr : Bool) (code sub : Nat) (tval epc : Word) : (s.enterTrap h intr code sub tval epc).fmtVers = s.fmtVers := rfl
@[simp] theorem State.enterTrap_gateMarks (s : State) (h : Nat) (intr : Bool) (code sub : Nat) (tval epc : Word) : (s.enterTrap h intr code sub tval epc).gateMarks = s.gateMarks := rfl
@[simp] theorem State.enterTrap_keys (s : State) (h : Nat) (intr : Bool) (code sub : Nat) (tval epc : Word) : (s.enterTrap h intr code sub tval epc).keys = s.keys := rfl
@[simp] theorem State.enterTrap_unitKeys (s : State) (h : Nat) (intr : Bool) (code sub : Nat) (tval epc : Word) : (s.enterTrap h intr code sub tval epc).unitKeys = s.unitKeys := rfl
@[simp] theorem State.enterTrap_hargs (s : State) (h : Nat) (intr : Bool) (code sub : Nat) (tval epc : Word) : (s.enterTrap h intr code sub tval epc).hargs = s.hargs := rfl
@[simp] theorem State.enterTrap_hstat (s : State) (h : Nat) (intr : Bool) (code sub : Nat) (tval epc : Word) : (s.enterTrap h intr code sub tval epc).hstat = s.hstat := rfl
@[simp] theorem State.enterTrap_hwait (s : State) (h : Nat) (intr : Bool) (code sub : Nat) (tval epc : Word) : (s.enterTrap h intr code sub tval epc).hwait = s.hwait := rfl
@[simp] theorem State.enterTrap_vfArgs (s : State) (h : Nat) (intr : Bool) (code sub : Nat) (tval epc : Word) : (s.enterTrap h intr code sub tval epc).vfArgs = s.vfArgs := rfl
@[simp] theorem State.enterTrap_vfStat (s : State) (h : Nat) (intr : Bool) (code sub : Nat) (tval epc : Word) : (s.enterTrap h intr code sub tval epc).vfStat = s.vfStat := rfl
@[simp] theorem State.enterTrap_drops (s : State) (h : Nat) (intr : Bool) (code sub : Nat) (tval epc : Word) : (s.enterTrap h intr code sub tval epc).drops = s.drops := rfl
@[simp] theorem State.enterTrap_msix (s : State) (h : Nat) (intr : Bool) (code sub : Nat) (tval epc : Word) : (s.enterTrap h intr code sub tval epc).msix = s.msix := rfl
@[simp] theorem State.enterTrap_ats (s : State) (h : Nat) (intr : Bool) (code sub : Nat) (tval epc : Word) : (s.enterTrap h intr code sub tval epc).ats = s.ats := rfl
@[simp] theorem State.enterTrap_chip (s : State) (h : Nat) (intr : Bool) (code sub : Nat) (tval epc : Word) : (s.enterTrap h intr code sub tval epc).chip = s.chip := rfl
@[simp] theorem State.enterTrap_ready (s : State) (h : Nat) (intr : Bool) (code sub : Nat) (tval epc : Word) : (s.enterTrap h intr code sub tval epc).ready = s.ready := rfl
@[simp] theorem State.enterTrap_profile (s : State) (h : Nat) (intr : Bool) (code sub : Nat) (tval epc : Word) : (s.enterTrap h intr code sub tval epc).profile = s.profile := rfl
@[simp] theorem State.enterTrap_ports (s : State) (h : Nat) (intr : Bool) (code sub : Nat) (tval epc : Word) : (s.enterTrap h intr code sub tval epc).ports = s.ports := rfl
@[simp] theorem State.enterTrap_outgoing (s : State) (h : Nat) (intr : Bool) (code sub : Nat) (tval epc : Word) : (s.enterTrap h intr code sub tval epc).outgoing = s.outgoing := rfl
@[simp] theorem State.enterTrap_departed (s : State) (h : Nat) (intr : Bool) (code sub : Nat) (tval epc : Word) : (s.enterTrap h intr code sub tval epc).departed = s.departed := rfl
@[simp] theorem State.enterTrap_forwards (s : State) (h : Nat) (intr : Bool) (code sub : Nat) (tval epc : Word) : (s.enterTrap h intr code sub tval epc).forwards = s.forwards := rfl
@[simp] theorem State.enterTrap_former (s : State) (h : Nat) (intr : Bool) (code sub : Nat) (tval epc : Word) : (s.enterTrap h intr code sub tval epc).former = s.former := rfl
@[simp] theorem State.enterTrap_halted (s : State) (h : Nat) (intr : Bool) (code sub : Nat) (tval epc : Word) : (s.enterTrap h intr code sub tval epc).halted = s.halted := rfl
@[simp] theorem State.enterTrap_serial (s : State) (h : Nat) (intr : Bool) (code sub : Nat) (tval epc : Word) : (s.enterTrap h intr code sub tval epc).serial = s.serial := rfl
@[simp] theorem State.enterTrap_pending (s : State) (h : Nat) (intr : Bool) (code sub : Nat) (tval epc : Word) : (s.enterTrap h intr code sub tval epc).pending = s.pending := rfl
@[simp] theorem State.enterTrap_turns (s : State) (h : Nat) (intr : Bool) (code sub : Nat) (tval epc : Word) : (s.enterTrap h intr code sub tval epc).turns = s.turns := rfl
@[simp] theorem State.enterTrap_cur (s : State) (h : Nat) (intr : Bool) (code sub : Nat) (tval epc : Word) : (s.enterTrap h intr code sub tval epc).cur = s.cur := rfl
@[simp] theorem State.enterTrap_clock (s : State) (h : Nat) (intr : Bool) (code sub : Nat) (tval epc : Word) : (s.enterTrap h intr code sub tval epc).clock = s.clock := rfl
@[simp] theorem State.enterTrap_fresh (s : State) (h : Nat) (intr : Bool) (code sub : Nat) (tval epc : Word) : (s.enterTrap h intr code sub tval epc).fresh = s.fresh := rfl

/-! ### setByte -/

@[simp] theorem State.setByte_harts (s : State) (a : Nat) (v : Byte) : (s.setByte a v).harts = s.harts := rfl
@[simp] theorem State.setByte_tasks (s : State) (a : Nat) (v : Byte) : (s.setByte a v).tasks = s.tasks := rfl
@[simp] theorem State.setByte_futures (s : State) (a : Nat) (v : Byte) : (s.setByte a v).futures = s.futures := rfl
@[simp] theorem State.setByte_clusters (s : State) (a : Nat) (v : Byte) : (s.setByte a v).clusters = s.clusters := rfl
@[simp] theorem State.setByte_pairs (s : State) (a : Nat) (v : Byte) : (s.setByte a v).pairs = s.pairs := rfl
@[simp] theorem State.setByte_barriers (s : State) (a : Nat) (v : Byte) : (s.setByte a v).barriers = s.barriers := rfl
@[simp] theorem State.setByte_mailboxes (s : State) (a : Nat) (v : Byte) : (s.setByte a v).mailboxes = s.mailboxes := rfl
@[simp] theorem State.setByte_parts (s : State) (a : Nat) (v : Byte) : (s.setByte a v).parts = s.parts := rfl
@[simp] theorem State.setByte_gates (s : State) (a : Nat) (v : Byte) : (s.setByte a v).gates = s.gates := rfl
@[simp] theorem State.setByte_rings (s : State) (a : Nat) (v : Byte) : (s.setByte a v).rings = s.rings := rfl
@[simp] theorem State.setByte_queues (s : State) (a : Nat) (v : Byte) : (s.setByte a v).queues = s.queues := rfl
@[simp] theorem State.setByte_launches (s : State) (a : Nat) (v : Byte) : (s.setByte a v).launches = s.launches := rfl
@[simp] theorem State.setByte_fmts (s : State) (a : Nat) (v : Byte) : (s.setByte a v).fmts = s.fmts := rfl
@[simp] theorem State.setByte_fmtVers (s : State) (a : Nat) (v : Byte) : (s.setByte a v).fmtVers = s.fmtVers := rfl
@[simp] theorem State.setByte_gateMarks (s : State) (a : Nat) (v : Byte) : (s.setByte a v).gateMarks = s.gateMarks := rfl
@[simp] theorem State.setByte_keys (s : State) (a : Nat) (v : Byte) : (s.setByte a v).keys = s.keys := rfl
@[simp] theorem State.setByte_unitKeys (s : State) (a : Nat) (v : Byte) : (s.setByte a v).unitKeys = s.unitKeys := rfl
@[simp] theorem State.setByte_hargs (s : State) (a : Nat) (v : Byte) : (s.setByte a v).hargs = s.hargs := rfl
@[simp] theorem State.setByte_hstat (s : State) (a : Nat) (v : Byte) : (s.setByte a v).hstat = s.hstat := rfl
@[simp] theorem State.setByte_hwait (s : State) (a : Nat) (v : Byte) : (s.setByte a v).hwait = s.hwait := rfl
@[simp] theorem State.setByte_vfArgs (s : State) (a : Nat) (v : Byte) : (s.setByte a v).vfArgs = s.vfArgs := rfl
@[simp] theorem State.setByte_vfStat (s : State) (a : Nat) (v : Byte) : (s.setByte a v).vfStat = s.vfStat := rfl
@[simp] theorem State.setByte_drops (s : State) (a : Nat) (v : Byte) : (s.setByte a v).drops = s.drops := rfl
@[simp] theorem State.setByte_msix (s : State) (a : Nat) (v : Byte) : (s.setByte a v).msix = s.msix := rfl
@[simp] theorem State.setByte_ats (s : State) (a : Nat) (v : Byte) : (s.setByte a v).ats = s.ats := rfl
@[simp] theorem State.setByte_chip (s : State) (a : Nat) (v : Byte) : (s.setByte a v).chip = s.chip := rfl
@[simp] theorem State.setByte_ready (s : State) (a : Nat) (v : Byte) : (s.setByte a v).ready = s.ready := rfl
@[simp] theorem State.setByte_profile (s : State) (a : Nat) (v : Byte) : (s.setByte a v).profile = s.profile := rfl
@[simp] theorem State.setByte_ports (s : State) (a : Nat) (v : Byte) : (s.setByte a v).ports = s.ports := rfl
@[simp] theorem State.setByte_outgoing (s : State) (a : Nat) (v : Byte) : (s.setByte a v).outgoing = s.outgoing := rfl
@[simp] theorem State.setByte_departed (s : State) (a : Nat) (v : Byte) : (s.setByte a v).departed = s.departed := rfl
@[simp] theorem State.setByte_forwards (s : State) (a : Nat) (v : Byte) : (s.setByte a v).forwards = s.forwards := rfl
@[simp] theorem State.setByte_former (s : State) (a : Nat) (v : Byte) : (s.setByte a v).former = s.former := rfl
@[simp] theorem State.setByte_halted (s : State) (a : Nat) (v : Byte) : (s.setByte a v).halted = s.halted := rfl
@[simp] theorem State.setByte_serial (s : State) (a : Nat) (v : Byte) : (s.setByte a v).serial = s.serial := rfl
@[simp] theorem State.setByte_pending (s : State) (a : Nat) (v : Byte) : (s.setByte a v).pending = s.pending := rfl
@[simp] theorem State.setByte_turns (s : State) (a : Nat) (v : Byte) : (s.setByte a v).turns = s.turns := rfl
@[simp] theorem State.setByte_cur (s : State) (a : Nat) (v : Byte) : (s.setByte a v).cur = s.cur := rfl
@[simp] theorem State.setByte_clock (s : State) (a : Nat) (v : Byte) : (s.setByte a v).clock = s.clock := rfl
@[simp] theorem State.setByte_fresh (s : State) (a : Nat) (v : Byte) : (s.setByte a v).fresh = s.fresh := rfl

/-! ### clearResv -/

@[simp] theorem State.clearResv_mem (s : State) (g : Option Nat) (l : Nat) : (s.clearResv g l).mem = s.mem := rfl
@[simp] theorem State.clearResv_tasks (s : State) (g : Option Nat) (l : Nat) : (s.clearResv g l).tasks = s.tasks := rfl
@[simp] theorem State.clearResv_futures (s : State) (g : Option Nat) (l : Nat) : (s.clearResv g l).futures = s.futures := rfl
@[simp] theorem State.clearResv_clusters (s : State) (g : Option Nat) (l : Nat) : (s.clearResv g l).clusters = s.clusters := rfl
@[simp] theorem State.clearResv_pairs (s : State) (g : Option Nat) (l : Nat) : (s.clearResv g l).pairs = s.pairs := rfl
@[simp] theorem State.clearResv_barriers (s : State) (g : Option Nat) (l : Nat) : (s.clearResv g l).barriers = s.barriers := rfl
@[simp] theorem State.clearResv_mailboxes (s : State) (g : Option Nat) (l : Nat) : (s.clearResv g l).mailboxes = s.mailboxes := rfl
@[simp] theorem State.clearResv_parts (s : State) (g : Option Nat) (l : Nat) : (s.clearResv g l).parts = s.parts := rfl
@[simp] theorem State.clearResv_gates (s : State) (g : Option Nat) (l : Nat) : (s.clearResv g l).gates = s.gates := rfl
@[simp] theorem State.clearResv_rings (s : State) (g : Option Nat) (l : Nat) : (s.clearResv g l).rings = s.rings := rfl
@[simp] theorem State.clearResv_queues (s : State) (g : Option Nat) (l : Nat) : (s.clearResv g l).queues = s.queues := rfl
@[simp] theorem State.clearResv_launches (s : State) (g : Option Nat) (l : Nat) : (s.clearResv g l).launches = s.launches := rfl
@[simp] theorem State.clearResv_fmts (s : State) (g : Option Nat) (l : Nat) : (s.clearResv g l).fmts = s.fmts := rfl
@[simp] theorem State.clearResv_fmtVers (s : State) (g : Option Nat) (l : Nat) : (s.clearResv g l).fmtVers = s.fmtVers := rfl
@[simp] theorem State.clearResv_gateMarks (s : State) (g : Option Nat) (l : Nat) : (s.clearResv g l).gateMarks = s.gateMarks := rfl
@[simp] theorem State.clearResv_keys (s : State) (g : Option Nat) (l : Nat) : (s.clearResv g l).keys = s.keys := rfl
@[simp] theorem State.clearResv_unitKeys (s : State) (g : Option Nat) (l : Nat) : (s.clearResv g l).unitKeys = s.unitKeys := rfl
@[simp] theorem State.clearResv_hargs (s : State) (g : Option Nat) (l : Nat) : (s.clearResv g l).hargs = s.hargs := rfl
@[simp] theorem State.clearResv_hstat (s : State) (g : Option Nat) (l : Nat) : (s.clearResv g l).hstat = s.hstat := rfl
@[simp] theorem State.clearResv_hwait (s : State) (g : Option Nat) (l : Nat) : (s.clearResv g l).hwait = s.hwait := rfl
@[simp] theorem State.clearResv_vfArgs (s : State) (g : Option Nat) (l : Nat) : (s.clearResv g l).vfArgs = s.vfArgs := rfl
@[simp] theorem State.clearResv_vfStat (s : State) (g : Option Nat) (l : Nat) : (s.clearResv g l).vfStat = s.vfStat := rfl
@[simp] theorem State.clearResv_drops (s : State) (g : Option Nat) (l : Nat) : (s.clearResv g l).drops = s.drops := rfl
@[simp] theorem State.clearResv_msix (s : State) (g : Option Nat) (l : Nat) : (s.clearResv g l).msix = s.msix := rfl
@[simp] theorem State.clearResv_ats (s : State) (g : Option Nat) (l : Nat) : (s.clearResv g l).ats = s.ats := rfl
@[simp] theorem State.clearResv_chip (s : State) (g : Option Nat) (l : Nat) : (s.clearResv g l).chip = s.chip := rfl
@[simp] theorem State.clearResv_ready (s : State) (g : Option Nat) (l : Nat) : (s.clearResv g l).ready = s.ready := rfl
@[simp] theorem State.clearResv_profile (s : State) (g : Option Nat) (l : Nat) : (s.clearResv g l).profile = s.profile := rfl
@[simp] theorem State.clearResv_ports (s : State) (g : Option Nat) (l : Nat) : (s.clearResv g l).ports = s.ports := rfl
@[simp] theorem State.clearResv_outgoing (s : State) (g : Option Nat) (l : Nat) : (s.clearResv g l).outgoing = s.outgoing := rfl
@[simp] theorem State.clearResv_departed (s : State) (g : Option Nat) (l : Nat) : (s.clearResv g l).departed = s.departed := rfl
@[simp] theorem State.clearResv_forwards (s : State) (g : Option Nat) (l : Nat) : (s.clearResv g l).forwards = s.forwards := rfl
@[simp] theorem State.clearResv_former (s : State) (g : Option Nat) (l : Nat) : (s.clearResv g l).former = s.former := rfl
@[simp] theorem State.clearResv_halted (s : State) (g : Option Nat) (l : Nat) : (s.clearResv g l).halted = s.halted := rfl
@[simp] theorem State.clearResv_serial (s : State) (g : Option Nat) (l : Nat) : (s.clearResv g l).serial = s.serial := rfl
@[simp] theorem State.clearResv_pending (s : State) (g : Option Nat) (l : Nat) : (s.clearResv g l).pending = s.pending := rfl
@[simp] theorem State.clearResv_turns (s : State) (g : Option Nat) (l : Nat) : (s.clearResv g l).turns = s.turns := rfl
@[simp] theorem State.clearResv_cur (s : State) (g : Option Nat) (l : Nat) : (s.clearResv g l).cur = s.cur := rfl
@[simp] theorem State.clearResv_clock (s : State) (g : Option Nat) (l : Nat) : (s.clearResv g l).clock = s.clock := rfl
@[simp] theorem State.clearResv_fresh (s : State) (g : Option Nat) (l : Nat) : (s.clearResv g l).fresh = s.fresh := rfl

/-! ### setStage -/

@[simp] theorem State.setStage_harts (s : State) (c n : Nat) (x : Stage) : (s.setStage c n x).harts = s.harts := rfl
@[simp] theorem State.setStage_mem (s : State) (c n : Nat) (x : Stage) : (s.setStage c n x).mem = s.mem := rfl
@[simp] theorem State.setStage_tasks (s : State) (c n : Nat) (x : Stage) : (s.setStage c n x).tasks = s.tasks := rfl
@[simp] theorem State.setStage_futures (s : State) (c n : Nat) (x : Stage) : (s.setStage c n x).futures = s.futures := rfl
@[simp] theorem State.setStage_pairs (s : State) (c n : Nat) (x : Stage) : (s.setStage c n x).pairs = s.pairs := rfl
@[simp] theorem State.setStage_barriers (s : State) (c n : Nat) (x : Stage) : (s.setStage c n x).barriers = s.barriers := rfl
@[simp] theorem State.setStage_mailboxes (s : State) (c n : Nat) (x : Stage) : (s.setStage c n x).mailboxes = s.mailboxes := rfl
@[simp] theorem State.setStage_parts (s : State) (c n : Nat) (x : Stage) : (s.setStage c n x).parts = s.parts := rfl
@[simp] theorem State.setStage_gates (s : State) (c n : Nat) (x : Stage) : (s.setStage c n x).gates = s.gates := rfl
@[simp] theorem State.setStage_rings (s : State) (c n : Nat) (x : Stage) : (s.setStage c n x).rings = s.rings := rfl
@[simp] theorem State.setStage_queues (s : State) (c n : Nat) (x : Stage) : (s.setStage c n x).queues = s.queues := rfl
@[simp] theorem State.setStage_launches (s : State) (c n : Nat) (x : Stage) : (s.setStage c n x).launches = s.launches := rfl
@[simp] theorem State.setStage_fmts (s : State) (c n : Nat) (x : Stage) : (s.setStage c n x).fmts = s.fmts := rfl
@[simp] theorem State.setStage_fmtVers (s : State) (c n : Nat) (x : Stage) : (s.setStage c n x).fmtVers = s.fmtVers := rfl
@[simp] theorem State.setStage_gateMarks (s : State) (c n : Nat) (x : Stage) : (s.setStage c n x).gateMarks = s.gateMarks := rfl
@[simp] theorem State.setStage_keys (s : State) (c n : Nat) (x : Stage) : (s.setStage c n x).keys = s.keys := rfl
@[simp] theorem State.setStage_unitKeys (s : State) (c n : Nat) (x : Stage) : (s.setStage c n x).unitKeys = s.unitKeys := rfl
@[simp] theorem State.setStage_hargs (s : State) (c n : Nat) (x : Stage) : (s.setStage c n x).hargs = s.hargs := rfl
@[simp] theorem State.setStage_hstat (s : State) (c n : Nat) (x : Stage) : (s.setStage c n x).hstat = s.hstat := rfl
@[simp] theorem State.setStage_hwait (s : State) (c n : Nat) (x : Stage) : (s.setStage c n x).hwait = s.hwait := rfl
@[simp] theorem State.setStage_vfArgs (s : State) (c n : Nat) (x : Stage) : (s.setStage c n x).vfArgs = s.vfArgs := rfl
@[simp] theorem State.setStage_vfStat (s : State) (c n : Nat) (x : Stage) : (s.setStage c n x).vfStat = s.vfStat := rfl
@[simp] theorem State.setStage_drops (s : State) (c n : Nat) (x : Stage) : (s.setStage c n x).drops = s.drops := rfl
@[simp] theorem State.setStage_msix (s : State) (c n : Nat) (x : Stage) : (s.setStage c n x).msix = s.msix := rfl
@[simp] theorem State.setStage_ats (s : State) (c n : Nat) (x : Stage) : (s.setStage c n x).ats = s.ats := rfl
@[simp] theorem State.setStage_chip (s : State) (c n : Nat) (x : Stage) : (s.setStage c n x).chip = s.chip := rfl
@[simp] theorem State.setStage_ready (s : State) (c n : Nat) (x : Stage) : (s.setStage c n x).ready = s.ready := rfl
@[simp] theorem State.setStage_profile (s : State) (c n : Nat) (x : Stage) : (s.setStage c n x).profile = s.profile := rfl
@[simp] theorem State.setStage_ports (s : State) (c n : Nat) (x : Stage) : (s.setStage c n x).ports = s.ports := rfl
@[simp] theorem State.setStage_outgoing (s : State) (c n : Nat) (x : Stage) : (s.setStage c n x).outgoing = s.outgoing := rfl
@[simp] theorem State.setStage_departed (s : State) (c n : Nat) (x : Stage) : (s.setStage c n x).departed = s.departed := rfl
@[simp] theorem State.setStage_forwards (s : State) (c n : Nat) (x : Stage) : (s.setStage c n x).forwards = s.forwards := rfl
@[simp] theorem State.setStage_former (s : State) (c n : Nat) (x : Stage) : (s.setStage c n x).former = s.former := rfl
@[simp] theorem State.setStage_halted (s : State) (c n : Nat) (x : Stage) : (s.setStage c n x).halted = s.halted := rfl
@[simp] theorem State.setStage_serial (s : State) (c n : Nat) (x : Stage) : (s.setStage c n x).serial = s.serial := rfl
@[simp] theorem State.setStage_pending (s : State) (c n : Nat) (x : Stage) : (s.setStage c n x).pending = s.pending := rfl
@[simp] theorem State.setStage_turns (s : State) (c n : Nat) (x : Stage) : (s.setStage c n x).turns = s.turns := rfl
@[simp] theorem State.setStage_cur (s : State) (c n : Nat) (x : Stage) : (s.setStage c n x).cur = s.cur := rfl
@[simp] theorem State.setStage_clock (s : State) (c n : Nat) (x : Stage) : (s.setStage c n x).clock = s.clock := rfl
@[simp] theorem State.setStage_fresh (s : State) (c n : Nat) (x : Stage) : (s.setStage c n x).fresh = s.fresh := rfl

/-! ### modStage -/

@[simp] theorem State.modStage_harts (s : State) (c n : Nat) (f : Stage → Stage) : (s.modStage c n f).harts = s.harts := rfl
@[simp] theorem State.modStage_mem (s : State) (c n : Nat) (f : Stage → Stage) : (s.modStage c n f).mem = s.mem := rfl
@[simp] theorem State.modStage_tasks (s : State) (c n : Nat) (f : Stage → Stage) : (s.modStage c n f).tasks = s.tasks := rfl
@[simp] theorem State.modStage_futures (s : State) (c n : Nat) (f : Stage → Stage) : (s.modStage c n f).futures = s.futures := rfl
@[simp] theorem State.modStage_pairs (s : State) (c n : Nat) (f : Stage → Stage) : (s.modStage c n f).pairs = s.pairs := rfl
@[simp] theorem State.modStage_barriers (s : State) (c n : Nat) (f : Stage → Stage) : (s.modStage c n f).barriers = s.barriers := rfl
@[simp] theorem State.modStage_mailboxes (s : State) (c n : Nat) (f : Stage → Stage) : (s.modStage c n f).mailboxes = s.mailboxes := rfl
@[simp] theorem State.modStage_parts (s : State) (c n : Nat) (f : Stage → Stage) : (s.modStage c n f).parts = s.parts := rfl
@[simp] theorem State.modStage_gates (s : State) (c n : Nat) (f : Stage → Stage) : (s.modStage c n f).gates = s.gates := rfl
@[simp] theorem State.modStage_rings (s : State) (c n : Nat) (f : Stage → Stage) : (s.modStage c n f).rings = s.rings := rfl
@[simp] theorem State.modStage_queues (s : State) (c n : Nat) (f : Stage → Stage) : (s.modStage c n f).queues = s.queues := rfl
@[simp] theorem State.modStage_launches (s : State) (c n : Nat) (f : Stage → Stage) : (s.modStage c n f).launches = s.launches := rfl
@[simp] theorem State.modStage_fmts (s : State) (c n : Nat) (f : Stage → Stage) : (s.modStage c n f).fmts = s.fmts := rfl
@[simp] theorem State.modStage_fmtVers (s : State) (c n : Nat) (f : Stage → Stage) : (s.modStage c n f).fmtVers = s.fmtVers := rfl
@[simp] theorem State.modStage_gateMarks (s : State) (c n : Nat) (f : Stage → Stage) : (s.modStage c n f).gateMarks = s.gateMarks := rfl
@[simp] theorem State.modStage_keys (s : State) (c n : Nat) (f : Stage → Stage) : (s.modStage c n f).keys = s.keys := rfl
@[simp] theorem State.modStage_unitKeys (s : State) (c n : Nat) (f : Stage → Stage) : (s.modStage c n f).unitKeys = s.unitKeys := rfl
@[simp] theorem State.modStage_hargs (s : State) (c n : Nat) (f : Stage → Stage) : (s.modStage c n f).hargs = s.hargs := rfl
@[simp] theorem State.modStage_hstat (s : State) (c n : Nat) (f : Stage → Stage) : (s.modStage c n f).hstat = s.hstat := rfl
@[simp] theorem State.modStage_hwait (s : State) (c n : Nat) (f : Stage → Stage) : (s.modStage c n f).hwait = s.hwait := rfl
@[simp] theorem State.modStage_vfArgs (s : State) (c n : Nat) (f : Stage → Stage) : (s.modStage c n f).vfArgs = s.vfArgs := rfl
@[simp] theorem State.modStage_vfStat (s : State) (c n : Nat) (f : Stage → Stage) : (s.modStage c n f).vfStat = s.vfStat := rfl
@[simp] theorem State.modStage_drops (s : State) (c n : Nat) (f : Stage → Stage) : (s.modStage c n f).drops = s.drops := rfl
@[simp] theorem State.modStage_msix (s : State) (c n : Nat) (f : Stage → Stage) : (s.modStage c n f).msix = s.msix := rfl
@[simp] theorem State.modStage_ats (s : State) (c n : Nat) (f : Stage → Stage) : (s.modStage c n f).ats = s.ats := rfl
@[simp] theorem State.modStage_chip (s : State) (c n : Nat) (f : Stage → Stage) : (s.modStage c n f).chip = s.chip := rfl
@[simp] theorem State.modStage_ready (s : State) (c n : Nat) (f : Stage → Stage) : (s.modStage c n f).ready = s.ready := rfl
@[simp] theorem State.modStage_profile (s : State) (c n : Nat) (f : Stage → Stage) : (s.modStage c n f).profile = s.profile := rfl
@[simp] theorem State.modStage_ports (s : State) (c n : Nat) (f : Stage → Stage) : (s.modStage c n f).ports = s.ports := rfl
@[simp] theorem State.modStage_outgoing (s : State) (c n : Nat) (f : Stage → Stage) : (s.modStage c n f).outgoing = s.outgoing := rfl
@[simp] theorem State.modStage_departed (s : State) (c n : Nat) (f : Stage → Stage) : (s.modStage c n f).departed = s.departed := rfl
@[simp] theorem State.modStage_forwards (s : State) (c n : Nat) (f : Stage → Stage) : (s.modStage c n f).forwards = s.forwards := rfl
@[simp] theorem State.modStage_former (s : State) (c n : Nat) (f : Stage → Stage) : (s.modStage c n f).former = s.former := rfl
@[simp] theorem State.modStage_halted (s : State) (c n : Nat) (f : Stage → Stage) : (s.modStage c n f).halted = s.halted := rfl
@[simp] theorem State.modStage_serial (s : State) (c n : Nat) (f : Stage → Stage) : (s.modStage c n f).serial = s.serial := rfl
@[simp] theorem State.modStage_pending (s : State) (c n : Nat) (f : Stage → Stage) : (s.modStage c n f).pending = s.pending := rfl
@[simp] theorem State.modStage_turns (s : State) (c n : Nat) (f : Stage → Stage) : (s.modStage c n f).turns = s.turns := rfl
@[simp] theorem State.modStage_cur (s : State) (c n : Nat) (f : Stage → Stage) : (s.modStage c n f).cur = s.cur := rfl
@[simp] theorem State.modStage_clock (s : State) (c n : Nat) (f : Stage → Stage) : (s.modStage c n f).clock = s.clock := rfl
@[simp] theorem State.modStage_fresh (s : State) (c n : Nat) (f : Stage → Stage) : (s.modStage c n f).fresh = s.fresh := rfl

/-! ### setSlot -/

@[simp] theorem State.setSlot_harts (s : State) (c n : Nat) (x : CopySlot) : (s.setSlot c n x).harts = s.harts := rfl
@[simp] theorem State.setSlot_mem (s : State) (c n : Nat) (x : CopySlot) : (s.setSlot c n x).mem = s.mem := rfl
@[simp] theorem State.setSlot_tasks (s : State) (c n : Nat) (x : CopySlot) : (s.setSlot c n x).tasks = s.tasks := rfl
@[simp] theorem State.setSlot_futures (s : State) (c n : Nat) (x : CopySlot) : (s.setSlot c n x).futures = s.futures := rfl
@[simp] theorem State.setSlot_pairs (s : State) (c n : Nat) (x : CopySlot) : (s.setSlot c n x).pairs = s.pairs := rfl
@[simp] theorem State.setSlot_barriers (s : State) (c n : Nat) (x : CopySlot) : (s.setSlot c n x).barriers = s.barriers := rfl
@[simp] theorem State.setSlot_mailboxes (s : State) (c n : Nat) (x : CopySlot) : (s.setSlot c n x).mailboxes = s.mailboxes := rfl
@[simp] theorem State.setSlot_parts (s : State) (c n : Nat) (x : CopySlot) : (s.setSlot c n x).parts = s.parts := rfl
@[simp] theorem State.setSlot_gates (s : State) (c n : Nat) (x : CopySlot) : (s.setSlot c n x).gates = s.gates := rfl
@[simp] theorem State.setSlot_rings (s : State) (c n : Nat) (x : CopySlot) : (s.setSlot c n x).rings = s.rings := rfl
@[simp] theorem State.setSlot_queues (s : State) (c n : Nat) (x : CopySlot) : (s.setSlot c n x).queues = s.queues := rfl
@[simp] theorem State.setSlot_launches (s : State) (c n : Nat) (x : CopySlot) : (s.setSlot c n x).launches = s.launches := rfl
@[simp] theorem State.setSlot_fmts (s : State) (c n : Nat) (x : CopySlot) : (s.setSlot c n x).fmts = s.fmts := rfl
@[simp] theorem State.setSlot_fmtVers (s : State) (c n : Nat) (x : CopySlot) : (s.setSlot c n x).fmtVers = s.fmtVers := rfl
@[simp] theorem State.setSlot_gateMarks (s : State) (c n : Nat) (x : CopySlot) : (s.setSlot c n x).gateMarks = s.gateMarks := rfl
@[simp] theorem State.setSlot_keys (s : State) (c n : Nat) (x : CopySlot) : (s.setSlot c n x).keys = s.keys := rfl
@[simp] theorem State.setSlot_unitKeys (s : State) (c n : Nat) (x : CopySlot) : (s.setSlot c n x).unitKeys = s.unitKeys := rfl
@[simp] theorem State.setSlot_hargs (s : State) (c n : Nat) (x : CopySlot) : (s.setSlot c n x).hargs = s.hargs := rfl
@[simp] theorem State.setSlot_hstat (s : State) (c n : Nat) (x : CopySlot) : (s.setSlot c n x).hstat = s.hstat := rfl
@[simp] theorem State.setSlot_hwait (s : State) (c n : Nat) (x : CopySlot) : (s.setSlot c n x).hwait = s.hwait := rfl
@[simp] theorem State.setSlot_vfArgs (s : State) (c n : Nat) (x : CopySlot) : (s.setSlot c n x).vfArgs = s.vfArgs := rfl
@[simp] theorem State.setSlot_vfStat (s : State) (c n : Nat) (x : CopySlot) : (s.setSlot c n x).vfStat = s.vfStat := rfl
@[simp] theorem State.setSlot_drops (s : State) (c n : Nat) (x : CopySlot) : (s.setSlot c n x).drops = s.drops := rfl
@[simp] theorem State.setSlot_msix (s : State) (c n : Nat) (x : CopySlot) : (s.setSlot c n x).msix = s.msix := rfl
@[simp] theorem State.setSlot_ats (s : State) (c n : Nat) (x : CopySlot) : (s.setSlot c n x).ats = s.ats := rfl
@[simp] theorem State.setSlot_chip (s : State) (c n : Nat) (x : CopySlot) : (s.setSlot c n x).chip = s.chip := rfl
@[simp] theorem State.setSlot_ready (s : State) (c n : Nat) (x : CopySlot) : (s.setSlot c n x).ready = s.ready := rfl
@[simp] theorem State.setSlot_profile (s : State) (c n : Nat) (x : CopySlot) : (s.setSlot c n x).profile = s.profile := rfl
@[simp] theorem State.setSlot_ports (s : State) (c n : Nat) (x : CopySlot) : (s.setSlot c n x).ports = s.ports := rfl
@[simp] theorem State.setSlot_outgoing (s : State) (c n : Nat) (x : CopySlot) : (s.setSlot c n x).outgoing = s.outgoing := rfl
@[simp] theorem State.setSlot_departed (s : State) (c n : Nat) (x : CopySlot) : (s.setSlot c n x).departed = s.departed := rfl
@[simp] theorem State.setSlot_forwards (s : State) (c n : Nat) (x : CopySlot) : (s.setSlot c n x).forwards = s.forwards := rfl
@[simp] theorem State.setSlot_former (s : State) (c n : Nat) (x : CopySlot) : (s.setSlot c n x).former = s.former := rfl
@[simp] theorem State.setSlot_halted (s : State) (c n : Nat) (x : CopySlot) : (s.setSlot c n x).halted = s.halted := rfl
@[simp] theorem State.setSlot_serial (s : State) (c n : Nat) (x : CopySlot) : (s.setSlot c n x).serial = s.serial := rfl
@[simp] theorem State.setSlot_pending (s : State) (c n : Nat) (x : CopySlot) : (s.setSlot c n x).pending = s.pending := rfl
@[simp] theorem State.setSlot_turns (s : State) (c n : Nat) (x : CopySlot) : (s.setSlot c n x).turns = s.turns := rfl
@[simp] theorem State.setSlot_cur (s : State) (c n : Nat) (x : CopySlot) : (s.setSlot c n x).cur = s.cur := rfl
@[simp] theorem State.setSlot_clock (s : State) (c n : Nat) (x : CopySlot) : (s.setSlot c n x).clock = s.clock := rfl
@[simp] theorem State.setSlot_fresh (s : State) (c n : Nat) (x : CopySlot) : (s.setSlot c n x).fresh = s.fresh := rfl

/-! ### setTile -/

@[simp] theorem State.setTile_harts (s : State) (p t : Nat) (x : Tile) : (s.setTile p t x).harts = s.harts := rfl
@[simp] theorem State.setTile_mem (s : State) (p t : Nat) (x : Tile) : (s.setTile p t x).mem = s.mem := rfl
@[simp] theorem State.setTile_tasks (s : State) (p t : Nat) (x : Tile) : (s.setTile p t x).tasks = s.tasks := rfl
@[simp] theorem State.setTile_futures (s : State) (p t : Nat) (x : Tile) : (s.setTile p t x).futures = s.futures := rfl
@[simp] theorem State.setTile_clusters (s : State) (p t : Nat) (x : Tile) : (s.setTile p t x).clusters = s.clusters := rfl
@[simp] theorem State.setTile_barriers (s : State) (p t : Nat) (x : Tile) : (s.setTile p t x).barriers = s.barriers := rfl
@[simp] theorem State.setTile_mailboxes (s : State) (p t : Nat) (x : Tile) : (s.setTile p t x).mailboxes = s.mailboxes := rfl
@[simp] theorem State.setTile_parts (s : State) (p t : Nat) (x : Tile) : (s.setTile p t x).parts = s.parts := rfl
@[simp] theorem State.setTile_gates (s : State) (p t : Nat) (x : Tile) : (s.setTile p t x).gates = s.gates := rfl
@[simp] theorem State.setTile_rings (s : State) (p t : Nat) (x : Tile) : (s.setTile p t x).rings = s.rings := rfl
@[simp] theorem State.setTile_queues (s : State) (p t : Nat) (x : Tile) : (s.setTile p t x).queues = s.queues := rfl
@[simp] theorem State.setTile_launches (s : State) (p t : Nat) (x : Tile) : (s.setTile p t x).launches = s.launches := rfl
@[simp] theorem State.setTile_fmts (s : State) (p t : Nat) (x : Tile) : (s.setTile p t x).fmts = s.fmts := rfl
@[simp] theorem State.setTile_fmtVers (s : State) (p t : Nat) (x : Tile) : (s.setTile p t x).fmtVers = s.fmtVers := rfl
@[simp] theorem State.setTile_gateMarks (s : State) (p t : Nat) (x : Tile) : (s.setTile p t x).gateMarks = s.gateMarks := rfl
@[simp] theorem State.setTile_keys (s : State) (p t : Nat) (x : Tile) : (s.setTile p t x).keys = s.keys := rfl
@[simp] theorem State.setTile_unitKeys (s : State) (p t : Nat) (x : Tile) : (s.setTile p t x).unitKeys = s.unitKeys := rfl
@[simp] theorem State.setTile_hargs (s : State) (p t : Nat) (x : Tile) : (s.setTile p t x).hargs = s.hargs := rfl
@[simp] theorem State.setTile_hstat (s : State) (p t : Nat) (x : Tile) : (s.setTile p t x).hstat = s.hstat := rfl
@[simp] theorem State.setTile_hwait (s : State) (p t : Nat) (x : Tile) : (s.setTile p t x).hwait = s.hwait := rfl
@[simp] theorem State.setTile_vfArgs (s : State) (p t : Nat) (x : Tile) : (s.setTile p t x).vfArgs = s.vfArgs := rfl
@[simp] theorem State.setTile_vfStat (s : State) (p t : Nat) (x : Tile) : (s.setTile p t x).vfStat = s.vfStat := rfl
@[simp] theorem State.setTile_drops (s : State) (p t : Nat) (x : Tile) : (s.setTile p t x).drops = s.drops := rfl
@[simp] theorem State.setTile_msix (s : State) (p t : Nat) (x : Tile) : (s.setTile p t x).msix = s.msix := rfl
@[simp] theorem State.setTile_ats (s : State) (p t : Nat) (x : Tile) : (s.setTile p t x).ats = s.ats := rfl
@[simp] theorem State.setTile_chip (s : State) (p t : Nat) (x : Tile) : (s.setTile p t x).chip = s.chip := rfl
@[simp] theorem State.setTile_ready (s : State) (p t : Nat) (x : Tile) : (s.setTile p t x).ready = s.ready := rfl
@[simp] theorem State.setTile_profile (s : State) (p t : Nat) (x : Tile) : (s.setTile p t x).profile = s.profile := rfl
@[simp] theorem State.setTile_ports (s : State) (p t : Nat) (x : Tile) : (s.setTile p t x).ports = s.ports := rfl
@[simp] theorem State.setTile_outgoing (s : State) (p t : Nat) (x : Tile) : (s.setTile p t x).outgoing = s.outgoing := rfl
@[simp] theorem State.setTile_departed (s : State) (p t : Nat) (x : Tile) : (s.setTile p t x).departed = s.departed := rfl
@[simp] theorem State.setTile_forwards (s : State) (p t : Nat) (x : Tile) : (s.setTile p t x).forwards = s.forwards := rfl
@[simp] theorem State.setTile_former (s : State) (p t : Nat) (x : Tile) : (s.setTile p t x).former = s.former := rfl
@[simp] theorem State.setTile_halted (s : State) (p t : Nat) (x : Tile) : (s.setTile p t x).halted = s.halted := rfl
@[simp] theorem State.setTile_serial (s : State) (p t : Nat) (x : Tile) : (s.setTile p t x).serial = s.serial := rfl
@[simp] theorem State.setTile_pending (s : State) (p t : Nat) (x : Tile) : (s.setTile p t x).pending = s.pending := rfl
@[simp] theorem State.setTile_turns (s : State) (p t : Nat) (x : Tile) : (s.setTile p t x).turns = s.turns := rfl
@[simp] theorem State.setTile_cur (s : State) (p t : Nat) (x : Tile) : (s.setTile p t x).cur = s.cur := rfl
@[simp] theorem State.setTile_clock (s : State) (p t : Nat) (x : Tile) : (s.setTile p t x).clock = s.clock := rfl
@[simp] theorem State.setTile_fresh (s : State) (p t : Nat) (x : Tile) : (s.setTile p t x).fresh = s.fresh := rfl

/-! ### freeTile -/

@[simp] theorem State.freeTile_harts (s : State) (p t : Nat) : (s.freeTile p t).harts = s.harts := rfl
@[simp] theorem State.freeTile_mem (s : State) (p t : Nat) : (s.freeTile p t).mem = s.mem := rfl
@[simp] theorem State.freeTile_tasks (s : State) (p t : Nat) : (s.freeTile p t).tasks = s.tasks := rfl
@[simp] theorem State.freeTile_futures (s : State) (p t : Nat) : (s.freeTile p t).futures = s.futures := rfl
@[simp] theorem State.freeTile_clusters (s : State) (p t : Nat) : (s.freeTile p t).clusters = s.clusters := rfl
@[simp] theorem State.freeTile_barriers (s : State) (p t : Nat) : (s.freeTile p t).barriers = s.barriers := rfl
@[simp] theorem State.freeTile_mailboxes (s : State) (p t : Nat) : (s.freeTile p t).mailboxes = s.mailboxes := rfl
@[simp] theorem State.freeTile_parts (s : State) (p t : Nat) : (s.freeTile p t).parts = s.parts := rfl
@[simp] theorem State.freeTile_gates (s : State) (p t : Nat) : (s.freeTile p t).gates = s.gates := rfl
@[simp] theorem State.freeTile_rings (s : State) (p t : Nat) : (s.freeTile p t).rings = s.rings := rfl
@[simp] theorem State.freeTile_queues (s : State) (p t : Nat) : (s.freeTile p t).queues = s.queues := rfl
@[simp] theorem State.freeTile_launches (s : State) (p t : Nat) : (s.freeTile p t).launches = s.launches := rfl
@[simp] theorem State.freeTile_fmts (s : State) (p t : Nat) : (s.freeTile p t).fmts = s.fmts := rfl
@[simp] theorem State.freeTile_fmtVers (s : State) (p t : Nat) : (s.freeTile p t).fmtVers = s.fmtVers := rfl
@[simp] theorem State.freeTile_gateMarks (s : State) (p t : Nat) : (s.freeTile p t).gateMarks = s.gateMarks := rfl
@[simp] theorem State.freeTile_keys (s : State) (p t : Nat) : (s.freeTile p t).keys = s.keys := rfl
@[simp] theorem State.freeTile_unitKeys (s : State) (p t : Nat) : (s.freeTile p t).unitKeys = s.unitKeys := rfl
@[simp] theorem State.freeTile_hargs (s : State) (p t : Nat) : (s.freeTile p t).hargs = s.hargs := rfl
@[simp] theorem State.freeTile_hstat (s : State) (p t : Nat) : (s.freeTile p t).hstat = s.hstat := rfl
@[simp] theorem State.freeTile_hwait (s : State) (p t : Nat) : (s.freeTile p t).hwait = s.hwait := rfl
@[simp] theorem State.freeTile_vfArgs (s : State) (p t : Nat) : (s.freeTile p t).vfArgs = s.vfArgs := rfl
@[simp] theorem State.freeTile_vfStat (s : State) (p t : Nat) : (s.freeTile p t).vfStat = s.vfStat := rfl
@[simp] theorem State.freeTile_drops (s : State) (p t : Nat) : (s.freeTile p t).drops = s.drops := rfl
@[simp] theorem State.freeTile_msix (s : State) (p t : Nat) : (s.freeTile p t).msix = s.msix := rfl
@[simp] theorem State.freeTile_ats (s : State) (p t : Nat) : (s.freeTile p t).ats = s.ats := rfl
@[simp] theorem State.freeTile_chip (s : State) (p t : Nat) : (s.freeTile p t).chip = s.chip := rfl
@[simp] theorem State.freeTile_ready (s : State) (p t : Nat) : (s.freeTile p t).ready = s.ready := rfl
@[simp] theorem State.freeTile_profile (s : State) (p t : Nat) : (s.freeTile p t).profile = s.profile := rfl
@[simp] theorem State.freeTile_ports (s : State) (p t : Nat) : (s.freeTile p t).ports = s.ports := rfl
@[simp] theorem State.freeTile_outgoing (s : State) (p t : Nat) : (s.freeTile p t).outgoing = s.outgoing := rfl
@[simp] theorem State.freeTile_departed (s : State) (p t : Nat) : (s.freeTile p t).departed = s.departed := rfl
@[simp] theorem State.freeTile_forwards (s : State) (p t : Nat) : (s.freeTile p t).forwards = s.forwards := rfl
@[simp] theorem State.freeTile_former (s : State) (p t : Nat) : (s.freeTile p t).former = s.former := rfl
@[simp] theorem State.freeTile_halted (s : State) (p t : Nat) : (s.freeTile p t).halted = s.halted := rfl
@[simp] theorem State.freeTile_serial (s : State) (p t : Nat) : (s.freeTile p t).serial = s.serial := rfl
@[simp] theorem State.freeTile_pending (s : State) (p t : Nat) : (s.freeTile p t).pending = s.pending := rfl
@[simp] theorem State.freeTile_turns (s : State) (p t : Nat) : (s.freeTile p t).turns = s.turns := rfl
@[simp] theorem State.freeTile_cur (s : State) (p t : Nat) : (s.freeTile p t).cur = s.cur := rfl
@[simp] theorem State.freeTile_clock (s : State) (p t : Nat) : (s.freeTile p t).clock = s.clock := rfl
@[simp] theorem State.freeTile_fresh (s : State) (p t : Nat) : (s.freeTile p t).fresh = s.fresh := rfl

/-! ### setBarrier -/

@[simp] theorem State.setBarrier_harts (s : State) (k : Nat) (b : Barrier) : (s.setBarrier k b).harts = s.harts := rfl
@[simp] theorem State.setBarrier_mem (s : State) (k : Nat) (b : Barrier) : (s.setBarrier k b).mem = s.mem := rfl
@[simp] theorem State.setBarrier_tasks (s : State) (k : Nat) (b : Barrier) : (s.setBarrier k b).tasks = s.tasks := rfl
@[simp] theorem State.setBarrier_futures (s : State) (k : Nat) (b : Barrier) : (s.setBarrier k b).futures = s.futures := rfl
@[simp] theorem State.setBarrier_clusters (s : State) (k : Nat) (b : Barrier) : (s.setBarrier k b).clusters = s.clusters := rfl
@[simp] theorem State.setBarrier_pairs (s : State) (k : Nat) (b : Barrier) : (s.setBarrier k b).pairs = s.pairs := rfl
@[simp] theorem State.setBarrier_mailboxes (s : State) (k : Nat) (b : Barrier) : (s.setBarrier k b).mailboxes = s.mailboxes := rfl
@[simp] theorem State.setBarrier_parts (s : State) (k : Nat) (b : Barrier) : (s.setBarrier k b).parts = s.parts := rfl
@[simp] theorem State.setBarrier_gates (s : State) (k : Nat) (b : Barrier) : (s.setBarrier k b).gates = s.gates := rfl
@[simp] theorem State.setBarrier_rings (s : State) (k : Nat) (b : Barrier) : (s.setBarrier k b).rings = s.rings := rfl
@[simp] theorem State.setBarrier_queues (s : State) (k : Nat) (b : Barrier) : (s.setBarrier k b).queues = s.queues := rfl
@[simp] theorem State.setBarrier_launches (s : State) (k : Nat) (b : Barrier) : (s.setBarrier k b).launches = s.launches := rfl
@[simp] theorem State.setBarrier_fmts (s : State) (k : Nat) (b : Barrier) : (s.setBarrier k b).fmts = s.fmts := rfl
@[simp] theorem State.setBarrier_fmtVers (s : State) (k : Nat) (b : Barrier) : (s.setBarrier k b).fmtVers = s.fmtVers := rfl
@[simp] theorem State.setBarrier_gateMarks (s : State) (k : Nat) (b : Barrier) : (s.setBarrier k b).gateMarks = s.gateMarks := rfl
@[simp] theorem State.setBarrier_keys (s : State) (k : Nat) (b : Barrier) : (s.setBarrier k b).keys = s.keys := rfl
@[simp] theorem State.setBarrier_unitKeys (s : State) (k : Nat) (b : Barrier) : (s.setBarrier k b).unitKeys = s.unitKeys := rfl
@[simp] theorem State.setBarrier_hargs (s : State) (k : Nat) (b : Barrier) : (s.setBarrier k b).hargs = s.hargs := rfl
@[simp] theorem State.setBarrier_hstat (s : State) (k : Nat) (b : Barrier) : (s.setBarrier k b).hstat = s.hstat := rfl
@[simp] theorem State.setBarrier_hwait (s : State) (k : Nat) (b : Barrier) : (s.setBarrier k b).hwait = s.hwait := rfl
@[simp] theorem State.setBarrier_vfArgs (s : State) (k : Nat) (b : Barrier) : (s.setBarrier k b).vfArgs = s.vfArgs := rfl
@[simp] theorem State.setBarrier_vfStat (s : State) (k : Nat) (b : Barrier) : (s.setBarrier k b).vfStat = s.vfStat := rfl
@[simp] theorem State.setBarrier_drops (s : State) (k : Nat) (b : Barrier) : (s.setBarrier k b).drops = s.drops := rfl
@[simp] theorem State.setBarrier_msix (s : State) (k : Nat) (b : Barrier) : (s.setBarrier k b).msix = s.msix := rfl
@[simp] theorem State.setBarrier_ats (s : State) (k : Nat) (b : Barrier) : (s.setBarrier k b).ats = s.ats := rfl
@[simp] theorem State.setBarrier_chip (s : State) (k : Nat) (b : Barrier) : (s.setBarrier k b).chip = s.chip := rfl
@[simp] theorem State.setBarrier_ready (s : State) (k : Nat) (b : Barrier) : (s.setBarrier k b).ready = s.ready := rfl
@[simp] theorem State.setBarrier_profile (s : State) (k : Nat) (b : Barrier) : (s.setBarrier k b).profile = s.profile := rfl
@[simp] theorem State.setBarrier_ports (s : State) (k : Nat) (b : Barrier) : (s.setBarrier k b).ports = s.ports := rfl
@[simp] theorem State.setBarrier_outgoing (s : State) (k : Nat) (b : Barrier) : (s.setBarrier k b).outgoing = s.outgoing := rfl
@[simp] theorem State.setBarrier_departed (s : State) (k : Nat) (b : Barrier) : (s.setBarrier k b).departed = s.departed := rfl
@[simp] theorem State.setBarrier_forwards (s : State) (k : Nat) (b : Barrier) : (s.setBarrier k b).forwards = s.forwards := rfl
@[simp] theorem State.setBarrier_former (s : State) (k : Nat) (b : Barrier) : (s.setBarrier k b).former = s.former := rfl
@[simp] theorem State.setBarrier_halted (s : State) (k : Nat) (b : Barrier) : (s.setBarrier k b).halted = s.halted := rfl
@[simp] theorem State.setBarrier_serial (s : State) (k : Nat) (b : Barrier) : (s.setBarrier k b).serial = s.serial := rfl
@[simp] theorem State.setBarrier_pending (s : State) (k : Nat) (b : Barrier) : (s.setBarrier k b).pending = s.pending := rfl
@[simp] theorem State.setBarrier_turns (s : State) (k : Nat) (b : Barrier) : (s.setBarrier k b).turns = s.turns := rfl
@[simp] theorem State.setBarrier_cur (s : State) (k : Nat) (b : Barrier) : (s.setBarrier k b).cur = s.cur := rfl
@[simp] theorem State.setBarrier_clock (s : State) (k : Nat) (b : Barrier) : (s.setBarrier k b).clock = s.clock := rfl
@[simp] theorem State.setBarrier_fresh (s : State) (k : Nat) (b : Barrier) : (s.setBarrier k b).fresh = s.fresh := rfl

/-! ### setSem -/

@[simp] theorem State.setSem_harts (s : State) (i : Nat) (v : BitVec 32) : (s.setSem i v).harts = s.harts := rfl
@[simp] theorem State.setSem_mem (s : State) (i : Nat) (v : BitVec 32) : (s.setSem i v).mem = s.mem := rfl
@[simp] theorem State.setSem_tasks (s : State) (i : Nat) (v : BitVec 32) : (s.setSem i v).tasks = s.tasks := rfl
@[simp] theorem State.setSem_futures (s : State) (i : Nat) (v : BitVec 32) : (s.setSem i v).futures = s.futures := rfl
@[simp] theorem State.setSem_clusters (s : State) (i : Nat) (v : BitVec 32) : (s.setSem i v).clusters = s.clusters := rfl
@[simp] theorem State.setSem_barriers (s : State) (i : Nat) (v : BitVec 32) : (s.setSem i v).barriers = s.barriers := rfl
@[simp] theorem State.setSem_mailboxes (s : State) (i : Nat) (v : BitVec 32) : (s.setSem i v).mailboxes = s.mailboxes := rfl
@[simp] theorem State.setSem_parts (s : State) (i : Nat) (v : BitVec 32) : (s.setSem i v).parts = s.parts := rfl
@[simp] theorem State.setSem_gates (s : State) (i : Nat) (v : BitVec 32) : (s.setSem i v).gates = s.gates := rfl
@[simp] theorem State.setSem_rings (s : State) (i : Nat) (v : BitVec 32) : (s.setSem i v).rings = s.rings := rfl
@[simp] theorem State.setSem_queues (s : State) (i : Nat) (v : BitVec 32) : (s.setSem i v).queues = s.queues := rfl
@[simp] theorem State.setSem_launches (s : State) (i : Nat) (v : BitVec 32) : (s.setSem i v).launches = s.launches := rfl
@[simp] theorem State.setSem_fmts (s : State) (i : Nat) (v : BitVec 32) : (s.setSem i v).fmts = s.fmts := rfl
@[simp] theorem State.setSem_fmtVers (s : State) (i : Nat) (v : BitVec 32) : (s.setSem i v).fmtVers = s.fmtVers := rfl
@[simp] theorem State.setSem_gateMarks (s : State) (i : Nat) (v : BitVec 32) : (s.setSem i v).gateMarks = s.gateMarks := rfl
@[simp] theorem State.setSem_keys (s : State) (i : Nat) (v : BitVec 32) : (s.setSem i v).keys = s.keys := rfl
@[simp] theorem State.setSem_unitKeys (s : State) (i : Nat) (v : BitVec 32) : (s.setSem i v).unitKeys = s.unitKeys := rfl
@[simp] theorem State.setSem_hargs (s : State) (i : Nat) (v : BitVec 32) : (s.setSem i v).hargs = s.hargs := rfl
@[simp] theorem State.setSem_hstat (s : State) (i : Nat) (v : BitVec 32) : (s.setSem i v).hstat = s.hstat := rfl
@[simp] theorem State.setSem_hwait (s : State) (i : Nat) (v : BitVec 32) : (s.setSem i v).hwait = s.hwait := rfl
@[simp] theorem State.setSem_vfArgs (s : State) (i : Nat) (v : BitVec 32) : (s.setSem i v).vfArgs = s.vfArgs := rfl
@[simp] theorem State.setSem_vfStat (s : State) (i : Nat) (v : BitVec 32) : (s.setSem i v).vfStat = s.vfStat := rfl
@[simp] theorem State.setSem_drops (s : State) (i : Nat) (v : BitVec 32) : (s.setSem i v).drops = s.drops := rfl
@[simp] theorem State.setSem_msix (s : State) (i : Nat) (v : BitVec 32) : (s.setSem i v).msix = s.msix := rfl
@[simp] theorem State.setSem_ats (s : State) (i : Nat) (v : BitVec 32) : (s.setSem i v).ats = s.ats := rfl
@[simp] theorem State.setSem_chip (s : State) (i : Nat) (v : BitVec 32) : (s.setSem i v).chip = s.chip := rfl
@[simp] theorem State.setSem_ready (s : State) (i : Nat) (v : BitVec 32) : (s.setSem i v).ready = s.ready := rfl
@[simp] theorem State.setSem_profile (s : State) (i : Nat) (v : BitVec 32) : (s.setSem i v).profile = s.profile := rfl
@[simp] theorem State.setSem_ports (s : State) (i : Nat) (v : BitVec 32) : (s.setSem i v).ports = s.ports := rfl
@[simp] theorem State.setSem_outgoing (s : State) (i : Nat) (v : BitVec 32) : (s.setSem i v).outgoing = s.outgoing := rfl
@[simp] theorem State.setSem_departed (s : State) (i : Nat) (v : BitVec 32) : (s.setSem i v).departed = s.departed := rfl
@[simp] theorem State.setSem_forwards (s : State) (i : Nat) (v : BitVec 32) : (s.setSem i v).forwards = s.forwards := rfl
@[simp] theorem State.setSem_former (s : State) (i : Nat) (v : BitVec 32) : (s.setSem i v).former = s.former := rfl
@[simp] theorem State.setSem_halted (s : State) (i : Nat) (v : BitVec 32) : (s.setSem i v).halted = s.halted := rfl
@[simp] theorem State.setSem_serial (s : State) (i : Nat) (v : BitVec 32) : (s.setSem i v).serial = s.serial := rfl
@[simp] theorem State.setSem_pending (s : State) (i : Nat) (v : BitVec 32) : (s.setSem i v).pending = s.pending := rfl
@[simp] theorem State.setSem_turns (s : State) (i : Nat) (v : BitVec 32) : (s.setSem i v).turns = s.turns := rfl
@[simp] theorem State.setSem_cur (s : State) (i : Nat) (v : BitVec 32) : (s.setSem i v).cur = s.cur := rfl
@[simp] theorem State.setSem_clock (s : State) (i : Nat) (v : BitVec 32) : (s.setSem i v).clock = s.clock := rfl
@[simp] theorem State.setSem_fresh (s : State) (i : Nat) (v : BitVec 32) : (s.setSem i v).fresh = s.fresh := rfl

/-! ### setSemQueue -/

@[simp] theorem State.setSemQueue_harts (s : State) (i : Nat) (q : List Nat) : (s.setSemQueue i q).harts = s.harts := rfl
@[simp] theorem State.setSemQueue_mem (s : State) (i : Nat) (q : List Nat) : (s.setSemQueue i q).mem = s.mem := rfl
@[simp] theorem State.setSemQueue_tasks (s : State) (i : Nat) (q : List Nat) : (s.setSemQueue i q).tasks = s.tasks := rfl
@[simp] theorem State.setSemQueue_futures (s : State) (i : Nat) (q : List Nat) : (s.setSemQueue i q).futures = s.futures := rfl
@[simp] theorem State.setSemQueue_clusters (s : State) (i : Nat) (q : List Nat) : (s.setSemQueue i q).clusters = s.clusters := rfl
@[simp] theorem State.setSemQueue_barriers (s : State) (i : Nat) (q : List Nat) : (s.setSemQueue i q).barriers = s.barriers := rfl
@[simp] theorem State.setSemQueue_mailboxes (s : State) (i : Nat) (q : List Nat) : (s.setSemQueue i q).mailboxes = s.mailboxes := rfl
@[simp] theorem State.setSemQueue_parts (s : State) (i : Nat) (q : List Nat) : (s.setSemQueue i q).parts = s.parts := rfl
@[simp] theorem State.setSemQueue_gates (s : State) (i : Nat) (q : List Nat) : (s.setSemQueue i q).gates = s.gates := rfl
@[simp] theorem State.setSemQueue_rings (s : State) (i : Nat) (q : List Nat) : (s.setSemQueue i q).rings = s.rings := rfl
@[simp] theorem State.setSemQueue_queues (s : State) (i : Nat) (q : List Nat) : (s.setSemQueue i q).queues = s.queues := rfl
@[simp] theorem State.setSemQueue_launches (s : State) (i : Nat) (q : List Nat) : (s.setSemQueue i q).launches = s.launches := rfl
@[simp] theorem State.setSemQueue_fmts (s : State) (i : Nat) (q : List Nat) : (s.setSemQueue i q).fmts = s.fmts := rfl
@[simp] theorem State.setSemQueue_fmtVers (s : State) (i : Nat) (q : List Nat) : (s.setSemQueue i q).fmtVers = s.fmtVers := rfl
@[simp] theorem State.setSemQueue_gateMarks (s : State) (i : Nat) (q : List Nat) : (s.setSemQueue i q).gateMarks = s.gateMarks := rfl
@[simp] theorem State.setSemQueue_keys (s : State) (i : Nat) (q : List Nat) : (s.setSemQueue i q).keys = s.keys := rfl
@[simp] theorem State.setSemQueue_unitKeys (s : State) (i : Nat) (q : List Nat) : (s.setSemQueue i q).unitKeys = s.unitKeys := rfl
@[simp] theorem State.setSemQueue_hargs (s : State) (i : Nat) (q : List Nat) : (s.setSemQueue i q).hargs = s.hargs := rfl
@[simp] theorem State.setSemQueue_hstat (s : State) (i : Nat) (q : List Nat) : (s.setSemQueue i q).hstat = s.hstat := rfl
@[simp] theorem State.setSemQueue_hwait (s : State) (i : Nat) (q : List Nat) : (s.setSemQueue i q).hwait = s.hwait := rfl
@[simp] theorem State.setSemQueue_vfArgs (s : State) (i : Nat) (q : List Nat) : (s.setSemQueue i q).vfArgs = s.vfArgs := rfl
@[simp] theorem State.setSemQueue_vfStat (s : State) (i : Nat) (q : List Nat) : (s.setSemQueue i q).vfStat = s.vfStat := rfl
@[simp] theorem State.setSemQueue_drops (s : State) (i : Nat) (q : List Nat) : (s.setSemQueue i q).drops = s.drops := rfl
@[simp] theorem State.setSemQueue_msix (s : State) (i : Nat) (q : List Nat) : (s.setSemQueue i q).msix = s.msix := rfl
@[simp] theorem State.setSemQueue_ats (s : State) (i : Nat) (q : List Nat) : (s.setSemQueue i q).ats = s.ats := rfl
@[simp] theorem State.setSemQueue_chip (s : State) (i : Nat) (q : List Nat) : (s.setSemQueue i q).chip = s.chip := rfl
@[simp] theorem State.setSemQueue_ready (s : State) (i : Nat) (q : List Nat) : (s.setSemQueue i q).ready = s.ready := rfl
@[simp] theorem State.setSemQueue_profile (s : State) (i : Nat) (q : List Nat) : (s.setSemQueue i q).profile = s.profile := rfl
@[simp] theorem State.setSemQueue_ports (s : State) (i : Nat) (q : List Nat) : (s.setSemQueue i q).ports = s.ports := rfl
@[simp] theorem State.setSemQueue_outgoing (s : State) (i : Nat) (q : List Nat) : (s.setSemQueue i q).outgoing = s.outgoing := rfl
@[simp] theorem State.setSemQueue_departed (s : State) (i : Nat) (q : List Nat) : (s.setSemQueue i q).departed = s.departed := rfl
@[simp] theorem State.setSemQueue_forwards (s : State) (i : Nat) (q : List Nat) : (s.setSemQueue i q).forwards = s.forwards := rfl
@[simp] theorem State.setSemQueue_former (s : State) (i : Nat) (q : List Nat) : (s.setSemQueue i q).former = s.former := rfl
@[simp] theorem State.setSemQueue_halted (s : State) (i : Nat) (q : List Nat) : (s.setSemQueue i q).halted = s.halted := rfl
@[simp] theorem State.setSemQueue_serial (s : State) (i : Nat) (q : List Nat) : (s.setSemQueue i q).serial = s.serial := rfl
@[simp] theorem State.setSemQueue_pending (s : State) (i : Nat) (q : List Nat) : (s.setSemQueue i q).pending = s.pending := rfl
@[simp] theorem State.setSemQueue_turns (s : State) (i : Nat) (q : List Nat) : (s.setSemQueue i q).turns = s.turns := rfl
@[simp] theorem State.setSemQueue_cur (s : State) (i : Nat) (q : List Nat) : (s.setSemQueue i q).cur = s.cur := rfl
@[simp] theorem State.setSemQueue_clock (s : State) (i : Nat) (q : List Nat) : (s.setSemQueue i q).clock = s.clock := rfl
@[simp] theorem State.setSemQueue_fresh (s : State) (i : Nat) (q : List Nat) : (s.setSemQueue i q).fresh = s.fresh := rfl

/-! ### clockTick -/

@[simp] theorem State.clockTick_harts (s : State) : (s.clockTick).harts = s.harts := rfl
@[simp] theorem State.clockTick_mem (s : State) : (s.clockTick).mem = s.mem := rfl
@[simp] theorem State.clockTick_tasks (s : State) : (s.clockTick).tasks = s.tasks := rfl
@[simp] theorem State.clockTick_futures (s : State) : (s.clockTick).futures = s.futures := rfl
@[simp] theorem State.clockTick_clusters (s : State) : (s.clockTick).clusters = s.clusters := rfl
@[simp] theorem State.clockTick_pairs (s : State) : (s.clockTick).pairs = s.pairs := rfl
@[simp] theorem State.clockTick_barriers (s : State) : (s.clockTick).barriers = s.barriers := rfl
@[simp] theorem State.clockTick_mailboxes (s : State) : (s.clockTick).mailboxes = s.mailboxes := rfl
@[simp] theorem State.clockTick_parts (s : State) : (s.clockTick).parts = s.parts := rfl
@[simp] theorem State.clockTick_gates (s : State) : (s.clockTick).gates = s.gates := rfl
@[simp] theorem State.clockTick_rings (s : State) : (s.clockTick).rings = s.rings := rfl
@[simp] theorem State.clockTick_queues (s : State) : (s.clockTick).queues = s.queues := rfl
@[simp] theorem State.clockTick_launches (s : State) : (s.clockTick).launches = s.launches := rfl
@[simp] theorem State.clockTick_fmts (s : State) : (s.clockTick).fmts = s.fmts := rfl
@[simp] theorem State.clockTick_fmtVers (s : State) : (s.clockTick).fmtVers = s.fmtVers := rfl
@[simp] theorem State.clockTick_gateMarks (s : State) : (s.clockTick).gateMarks = s.gateMarks := rfl
@[simp] theorem State.clockTick_keys (s : State) : (s.clockTick).keys = s.keys := rfl
@[simp] theorem State.clockTick_unitKeys (s : State) : (s.clockTick).unitKeys = s.unitKeys := rfl
@[simp] theorem State.clockTick_hargs (s : State) : (s.clockTick).hargs = s.hargs := rfl
@[simp] theorem State.clockTick_hstat (s : State) : (s.clockTick).hstat = s.hstat := rfl
@[simp] theorem State.clockTick_hwait (s : State) : (s.clockTick).hwait = s.hwait := rfl
@[simp] theorem State.clockTick_vfArgs (s : State) : (s.clockTick).vfArgs = s.vfArgs := rfl
@[simp] theorem State.clockTick_vfStat (s : State) : (s.clockTick).vfStat = s.vfStat := rfl
@[simp] theorem State.clockTick_drops (s : State) : (s.clockTick).drops = s.drops := rfl
@[simp] theorem State.clockTick_msix (s : State) : (s.clockTick).msix = s.msix := rfl
@[simp] theorem State.clockTick_ats (s : State) : (s.clockTick).ats = s.ats := rfl
@[simp] theorem State.clockTick_chip (s : State) : (s.clockTick).chip = s.chip := rfl
@[simp] theorem State.clockTick_ready (s : State) : (s.clockTick).ready = s.ready := rfl
@[simp] theorem State.clockTick_profile (s : State) : (s.clockTick).profile = s.profile := rfl
@[simp] theorem State.clockTick_ports (s : State) : (s.clockTick).ports = s.ports := rfl
@[simp] theorem State.clockTick_outgoing (s : State) : (s.clockTick).outgoing = s.outgoing := rfl
@[simp] theorem State.clockTick_departed (s : State) : (s.clockTick).departed = s.departed := rfl
@[simp] theorem State.clockTick_forwards (s : State) : (s.clockTick).forwards = s.forwards := rfl
@[simp] theorem State.clockTick_former (s : State) : (s.clockTick).former = s.former := rfl
@[simp] theorem State.clockTick_halted (s : State) : (s.clockTick).halted = s.halted := rfl
@[simp] theorem State.clockTick_serial (s : State) : (s.clockTick).serial = s.serial := rfl
@[simp] theorem State.clockTick_pending (s : State) : (s.clockTick).pending = s.pending := rfl
@[simp] theorem State.clockTick_turns (s : State) : (s.clockTick).turns = s.turns := rfl
@[simp] theorem State.clockTick_cur (s : State) : (s.clockTick).cur = s.cur := rfl
@[simp] theorem State.clockTick_fresh (s : State) : (s.clockTick).fresh = s.fresh := rfl

end Sys2Proof.Machine
end

