-- ==== Sys2Proof/Laws/Ops.lean ====
section
/-! SUPPORT. What the tables, the registers, the units and the memory read as after an update. -/

namespace Sys2Proof

variable {α : Type}

@[simp] theorem Table.find_put_same (t : Table α) (k : Nat) (v : α) : Table.find (Table.put t k v) k = some v := by
  induction t with
  | nil => simp [Table.put, Table.find]
  | cons e r ih =>
    obtain ⟨j, w⟩ := e
    unfold Table.put
    split
    · simp [Table.find]
    · split
      · simp [Table.find]
      · rename_i h1 h2
        simp only [Table.find, ih]
        rw [if_neg (fun h => h2 h.symm)]

theorem Table.find_put_other (t : Table α) (k j : Nat) (v : α) (h : j ≠ k) :
    Table.find (Table.put t k v) j = Table.find t j := by
  induction t with
  | nil => simp [Table.put, Table.find, Ne.symm h]
  | cons e r ih =>
    obtain ⟨i, w⟩ := e
    unfold Table.put
    split
    · simp [Table.find, Ne.symm h]
    · split
      · rename_i h1 h2
        subst h2
        simp [Table.find, Ne.symm h]
      · simp only [Table.find, ih]

@[simp] theorem Table.get_put_same (t : Table α) (k : Nat) (v d : α) : Table.get (Table.put t k v) k d = v := by
  simp [Table.get]

theorem Table.get_put_other (t : Table α) (k j : Nat) (v d : α) (h : j ≠ k) :
    Table.get (Table.put t k v) j d = Table.get t j d := by
  simp [Table.get, Table.find_put_other t k j v h]

@[simp] theorem Table.find_drop_same (t : Table α) (k : Nat) : Table.find (Table.drop t k) k = none := by
  induction t with
  | nil => rfl
  | cons e r ih =>
    obtain ⟨j, w⟩ := e
    rw [Table.drop]
    split
    · exact ih
    · next h => rw [Table.find, if_neg h, ih]

theorem Table.find_drop_other (t : Table α) {k j : Nat} (h : j ≠ k) : Table.find (Table.drop t k) j = Table.find t j := by
  induction t with
  | nil => rfl
  | cons e r ih =>
    obtain ⟨i, w⟩ := e
    rw [Table.drop]
    split
    · next q => rw [ih, Table.find, if_neg (by omega)]
    · rw [Table.find, Table.find, ih]

@[simp] theorem Table.put_put (t : Table α) (k : Nat) (v w : α) : Table.put (Table.put t k v) k w = Table.put t k w := by
  induction t with
  | nil => simp [Table.put]
  | cons e r ih =>
    obtain ⟨j, x⟩ := e
    by_cases h : k < j
    · simp [Table.put, h]
    · by_cases h2 : k = j
      · simp [Table.put, h2]
      · simp [Table.put, h, h2, ih]

theorem Table.find_mapVal (t : Table α) (f : Nat → α → α) (k : Nat) :
    Table.find (Table.mapVal t f) k = (Table.find t k).map (f k) := by
  induction t with
  | nil => rfl
  | cons e r ih =>
    obtain ⟨j, w⟩ := e
    simp only [Table.mapVal, List.map_cons, Table.find] at ih ⊢
    split
    · rename_i h; subst h; simp
    · exact ih

namespace Machine

/-! ### Units -/

@[simp] theorem State.hart_setHart (s : State) (h : Nat) (x : Hart) : (s.setHart h x).hart h = x := by
  simp [State.hart, State.setHart]

theorem State.hart_setHart_other (s : State) (h k : Nat) (x : Hart) (n : k ≠ h) : (s.setHart h x).hart k = s.hart k := by
  simp [State.hart, State.setHart, Table.get_put_other _ _ _ _ _ n]

@[simp] theorem State.hart_modHart (s : State) (h : Nat) (f : Hart → Hart) : (s.modHart h f).hart h = f (s.hart h) := by
  simp [State.modHart]

theorem State.hart_modHart_other (s : State) (h k : Nat) (f : Hart → Hart) (n : k ≠ h) :
    (s.modHart h f).hart k = s.hart k := by
  simp [State.modHart, State.hart_setHart_other _ _ _ _ n]

@[simp] theorem State.me_modMe (s : State) (f : Hart → Hart) : (s.modMe f).me = f s.me := by
  simp [State.me, State.modMe]

@[simp] theorem State.setHart_setHart (s : State) (h : Nat) (x y : Hart) : (s.setHart h x).setHart h y = s.setHart h y := by
  simp [State.setHart]

@[simp] theorem State.modHart_modHart (s : State) (h : Nat) (f g : Hart → Hart) :
    (s.modHart h f).modHart h g = s.modHart h fun x => g (f x) := by
  simp [State.modHart]

@[simp] theorem State.modMe_modMe (s : State) (f g : Hart → Hart) : (s.modMe f).modMe g = s.modMe fun x => g (f x) := by
  simp [State.modMe]

@[simp] theorem State.cluster_setCluster (s : State) (c : Nat) (x : Cluster) : (s.setCluster c x).cluster c = x := by
  simp [State.cluster, State.setCluster]

theorem State.cluster_setCluster_other (s : State) (c d : Nat) (x : Cluster) (n : d ≠ c) :
    (s.setCluster c x).cluster d = s.cluster d := by
  simp [State.cluster, State.setCluster, Table.get_put_other _ _ _ _ _ n]

@[simp] theorem State.cluster_modCluster (s : State) (c : Nat) (f : Cluster → Cluster) :
    (s.modCluster c f).cluster c = f (s.cluster c) := by
  simp [State.modCluster]

theorem State.cluster_modCluster_other (s : State) (c d : Nat) (f : Cluster → Cluster) (n : d ≠ c) :
    (s.modCluster c f).cluster d = s.cluster d := by
  simp [State.modCluster, State.cluster_setCluster_other _ _ _ _ n]

@[simp] theorem State.pair_setPair (s : State) (p : Nat) (x : Pair) : (s.setPair p x).pair p = x := by
  simp [State.pair, State.setPair]

@[simp] theorem State.pair_modPair (s : State) (p : Nat) (f : Pair → Pair) : (s.modPair p f).pair p = f (s.pair p) := by
  simp [State.modPair]

@[simp] theorem State.task?_setTask (s : State) (h : Word) (t : Task) : (s.setTask h t).task? h = some t := by
  simp [State.task?, State.setTask]

@[simp] theorem State.stage_setStage (s : State) (c n : Nat) (x : Stage) : (s.setStage c n x).stage c n = x := by
  simp [State.stage, State.setStage]

@[simp] theorem State.stage_modStage (s : State) (c n : Nat) (f : Stage → Stage) :
    (s.modStage c n f).stage c n = f (s.stage c n) := by
  simp [State.modStage]

@[simp] theorem State.slot_setSlot (s : State) (c n : Nat) (x : CopySlot) : (s.setSlot c n x).slot c n = x := by
  simp [State.slot, State.setSlot]

@[simp] theorem State.barrier_setBarrier (s : State) (k : Nat) (b : Barrier) : (s.setBarrier k b).barrier k = b := by
  simp [State.barrier, State.setBarrier]

/-! ### What reading a unit depends on -/

theorem State.hart_congr {s t : State} (e : t.harts = s.harts) (h : Nat) : t.hart h = s.hart h := by simp [State.hart, e]
theorem State.me_congr {s t : State} (e : t.harts = s.harts) (c : t.cur = s.cur) : t.me = s.me := by
  simp [State.me, State.hart, e, c]
theorem State.cluster_congr {s t : State} (e : t.clusters = s.clusters) (c : Nat) : t.cluster c = s.cluster c := by
  simp [State.cluster, e]
theorem State.pair_congr {s t : State} (e : t.pairs = s.pairs) (p : Nat) : t.pair p = s.pair p := by simp [State.pair, e]
theorem State.task?_congr {s t : State} (e : t.tasks = s.tasks) (h : Word) : t.task? h = s.task? h := by
  simp [State.task?, e]

/-! ### Registers -/

@[simp] theorem Ctx.xreg_zero (c : Ctx) : c.xreg 0 = 0 := rfl
@[simp] theorem Ctx.setXreg_zero (c : Ctx) (v : Word) : c.setXreg 0 v = c := rfl

theorem Ctx.xreg_setXreg (c : Ctx) (r : Reg) (v : Word) : (c.setXreg r v).xreg r = if r = 0 then 0 else v := by
  unfold Ctx.setXreg Ctx.xreg
  split <;> simp

theorem Ctx.xreg_setXreg_other (c : Ctx) (r q : Reg) (v : Word) (n : q ≠ r) : (c.setXreg r v).xreg q = c.xreg q := by
  unfold Ctx.setXreg Ctx.xreg
  split
  · rfl
  · split
    · rfl
    · have : r.toNat ≠ q.toNat := fun h => n (BitVec.eq_of_toNat_eq h.symm)
      simp [this]

@[simp] theorem State.me_setX (s : State) (r : Reg) (v : Word) :
    (s.setX r v).me = { s.me with ctx := s.me.ctx.setXreg r v } := by
  simp [State.setX]

@[simp] theorem State.x_zero (s : State) : s.x 0 = 0 := rfl

/-! ### Memory -/

/-- Below the addresses of a list nothing is listed. -/
theorem cellRead_below (d : Byte) (m : List Host.Cell) (lo a : Nat) (w : cellsAbove d lo m = true) (h : a < lo) :
    cellRead m a d = d := by
  induction m generalizing lo with
  | nil => rfl
  | cons e r ih =>
    obtain ⟨b, x⟩ := e
    simp only [cellsAbove, Bool.and_eq_true, decide_eq_true_eq] at w
    obtain ⟨⟨h1, _⟩, h3⟩ := w
    simp only [cellRead]
    rw [if_neg (by omega)]
    exact ih (b + 1) h3 (by omega)

/-- A write is read back, and every other byte reads as before. -/
theorem cellRead_cellWrite (d : Byte) (m : List Host.Cell) (lo a b : Nat) (v : Byte) (w : cellsAbove d lo m = true) :
    cellRead (cellWrite m a v d) b d = if b = a then v else cellRead m b d := by
  induction m generalizing lo with
  | nil =>
    unfold cellWrite
    by_cases hv : v = d
    · simp [hv, cellRead]
    · by_cases hb : b = a
      · simp [hv, cellRead, hb]
      · simp [hv, cellRead, hb, Ne.symm hb]
  | cons e r ih =>
    obtain ⟨c, x⟩ := e
    simp only [cellsAbove, Bool.and_eq_true, decide_eq_true_eq] at w
    obtain ⟨⟨h1, h2⟩, h3⟩ := w
    unfold cellWrite
    split
    · rename_i hac
      by_cases hv : v = d
      · by_cases hb : b = a
        · subst hb
          simp only [hv, if_true]
          simp only [cellRead]
          rw [if_neg (by omega)]
          exact cellRead_below d r (c + 1) b h3 (by omega)
        · simp [hv, hb]
      · by_cases hb : b = a
        · simp [hv, hb, cellRead]
        · simp [hv, hb, cellRead, Ne.symm hb]
    · split
      · rename_i hac hae
        subst hae
        by_cases hv : v = d
        · by_cases hb : b = a
          · subst hb
            simp only [hv, if_true]
            exact cellRead_below d r (b + 1) b h3 (by omega)
          · simp [hv, hb, cellRead, Ne.symm hb]
        · by_cases hb : b = a
          · simp [hv, hb, cellRead]
          · simp [hv, hb, cellRead, Ne.symm hb]
      · rename_i hac hae
        by_cases hb : b = a
        · subst hb
          simp only [cellRead, if_neg (Ne.symm hae), if_true]
          simpa using ih (c + 1) h3
        · simp only [cellRead, if_neg hb]
          split
          · rfl
          · rw [ih (c + 1) h3, if_neg hb]

theorem cellsAbove_mono (d : Byte) (m : List Host.Cell) (lo hi : Nat) (w : cellsAbove d hi m = true) (h : lo ≤ hi) :
    cellsAbove d lo m = true := by
  cases m with
  | nil => rfl
  | cons e r =>
    obtain ⟨b, x⟩ := e
    simp only [cellsAbove, Bool.and_eq_true, decide_eq_true_eq] at w ⊢
    exact ⟨⟨by omega, w.1.2⟩, w.2⟩

/-- A write keeps the canonical form. -/
theorem cellsAbove_cellWrite (d : Byte) (m : List Host.Cell) (lo a : Nat) (v : Byte) (w : cellsAbove d lo m = true)
    (h : lo ≤ a) : cellsAbove d lo (cellWrite m a v d) = true := by
  induction m generalizing lo with
  | nil =>
    unfold cellWrite
    split
    · rfl
    · rename_i hv
      simp [cellsAbove, hv]
      omega
  | cons e r ih =>
    obtain ⟨c, x⟩ := e
    have w' := w
    simp only [cellsAbove, Bool.and_eq_true, decide_eq_true_eq] at w
    obtain ⟨⟨h1, h2⟩, h3⟩ := w
    unfold cellWrite
    split
    · split
      · exact w'
      · rename_i hac hv
        simp only [cellsAbove, Bool.and_eq_true, decide_eq_true_eq]
        refine ⟨⟨by omega, by simpa using hv⟩, ⟨by omega, h2⟩, h3⟩
    · split
      · rename_i hac hae
        split
        · exact cellsAbove_mono d r lo (c + 1) h3 (by omega)
        · rename_i hv
          simp only [cellsAbove, Bool.and_eq_true, decide_eq_true_eq]
          subst hae
          exact ⟨⟨by omega, by simpa using hv⟩, h3⟩
      · rename_i hac hae
        simp only [cellsAbove, Bool.and_eq_true, decide_eq_true_eq]
        exact ⟨⟨h1, h2⟩, ih (c + 1) h3 (by omega)⟩

theorem cellsAbove_filter (d : Byte) (m : List Host.Cell) (lo : Nat) (p : Host.Cell → Bool) (w : cellsAbove d lo m = true) :
    cellsAbove d lo (m.filter p) = true := by
  induction m generalizing lo with
  | nil => rfl
  | cons e r ih =>
    obtain ⟨c, x⟩ := e
    simp only [cellsAbove, Bool.and_eq_true, decide_eq_true_eq] at w
    obtain ⟨⟨h1, h2⟩, h3⟩ := w
    simp only [List.filter_cons]
    split
    · simp only [cellsAbove, Bool.and_eq_true, decide_eq_true_eq]
      exact ⟨⟨h1, h2⟩, ih (c + 1) h3⟩
    · exact cellsAbove_mono d _ lo (c + 1) (ih (c + 1) h3) (by omega)

/-- A memory with some addresses taken out reads as unlisted there. -/
theorem cellRead_filter (d : Byte) (m : List Host.Cell) (q : Nat → Bool) (a : Nat) :
    cellRead (m.filter fun e => q e.1) a d = if q a then cellRead m a d else d := by
  induction m with
  | nil => simp [cellRead]
  | cons e r ih =>
    obtain ⟨b, x⟩ := e
    simp only [List.filter_cons]
    by_cases hb : b = a
    · subst hb
      cases hq : q b <;> simp [hq, cellRead, ih]
    · cases hq : q b <;> simp [cellRead, hb, ih]

theorem State.byte_setByte (s : State) (a b : Nat) (v : Byte) (w : Memory.wf s.mem = true) :
    (s.setByte a v).byte b = if b = a then v else s.byte b :=
  cellRead_cellWrite _ s.mem 0 a b v w

theorem State.setByte_wf (s : State) (a : Nat) (v : Byte) (w : Memory.wf s.mem = true) :
    Memory.wf (s.setByte a v).mem = true :=
  cellsAbove_cellWrite _ s.mem 0 a v w (Nat.zero_le a)

theorem State.setBytes_wf (bs : List Byte) (s : State) (a : Nat) (w : Memory.wf s.mem = true) :
    Memory.wf (s.setBytes a bs).mem = true := by
  induction bs generalizing s a with
  | nil => exact w
  | cons b r ih => exact ih _ _ (s.setByte_wf a b w)

theorem State.zeroWhere_wf (s : State) (p : Nat → Bool) (w : Memory.wf s.mem = true) :
    Memory.wf (s.mem.filter fun e => !p e.1) = true := cellsAbove_filter _ s.mem 0 _ w

/-- The bytes outside those written read as before. -/
theorem State.byte_setBytes_other (bs : List Byte) (s : State) (a b : Nat) (w : Memory.wf s.mem = true)
    (h : b < a ∨ a + bs.length ≤ b) : (s.setBytes a bs).byte b = s.byte b := by
  induction bs generalizing s a with
  | nil => rfl
  | cons x r ih =>
    simp only [State.setBytes]
    have hl : (x :: r).length = r.length + 1 := rfl
    rw [ih _ _ (s.setByte_wf a x w) (by omega), s.byte_setByte a b x w, if_neg (by omega)]

/-- The bytes written are read back. -/
theorem State.byte_setBytes (bs : List Byte) (s : State) (a i : Nat) (w : Memory.wf s.mem = true) (h : i < bs.length) :
    (s.setBytes a bs).byte (a + i) = bs[i] := by
  induction bs generalizing s a i with
  | nil => exact absurd h (Nat.not_lt_zero i)
  | cons x r ih =>
    simp only [State.setBytes]
    cases i with
    | zero =>
      rw [State.byte_setBytes_other r _ _ _ (s.setByte_wf a x w) (by omega), s.byte_setByte a _ x w]
      simp
    | succ j =>
      have := ih (s.setByte a x) (a + 1) j (s.setByte_wf a x w) (by simpa using h)
      rw [show a + (j + 1) = a + 1 + j by omega, this]
      rfl

/-- Memory at reset is in canonical form. -/
theorem reset_mem_wf : Memory.wf State.reset.mem = true := rfl

@[simp] theorem State.cluster_post (s : State) (i : Instr) (c : Nat) : (s.post i).cluster c = s.cluster c := rfl
@[simp] theorem State.slot_post (s : State) (i : Instr) (c n : Nat) : (s.post i).slot c n = s.slot c n := rfl
@[simp] theorem State.stage_post (s : State) (i : Instr) (c n : Nat) : (s.post i).stage c n = s.stage c n := rfl
@[simp] theorem State.cluster_setSlot (s : State) (c n : Nat) (x : CopySlot) :
    (s.setSlot c n x).cluster c = { s.cluster c with slots := (s.cluster c).slots.put n x } := by
  unfold State.setSlot
  rw [State.cluster_modCluster]
theorem State.slot_eq (s : State) (c n : Nat) : s.slot c n = (s.cluster c).slots.get n default := rfl

end Machine

end Sys2Proof
end

