-- ==== Sys2Proof/Laws/Run.lean ====
section
/-! SUPPORT. What the runners of an instruction can do: complete, or end in the way its effect names. -/

namespace Sys2Proof.Machine

/-! ### Completion -/

theorem State.countRemote_starts (s : State) (h : Nat) (w : (s.hart h).waiting = none) : s.countRemote h = s := by
  simp [State.countRemote, w]

theorem SysCsrs.retire_eq (y : SysCsrs) (n : Nat) :
    y.retire n = { y with minstret := if y.mcountinhibit.getLsbD 2 then y.minstret else y.minstret + wordOf n } := by
  unfold SysCsrs.retire
  split
  · rfl
  · rfl

theorem State.complete_starts (s : State) (w : s.me.waiting = none) :
    s.complete = s.withMe (s.me.after (s.me.pc + 4) false) := by
  unfold State.complete
  rw [State.countRemote_starts s s.cur w]
  simp only [State.modMe, State.modHart, State.setHart, State.withMe, Hart.after, SysCsrs.retire_eq, State.me]
  rfl

theorem State.retire_starts (s : State) (w : s.me.waiting = none) :
    s.retire = s.withMe (s.me.after s.me.pc s.me.jumped) := by
  unfold State.retire
  rw [State.countRemote_starts s s.cur w]
  simp only [State.modMe, State.modHart, State.setHart, State.withMe, Hart.after, SysCsrs.retire_eq, State.me]
  rfl

/-- Whatever the hart waited for, completion leaves the hart as `Hart.after` says, but for the count of its remote
requests (R404). -/
theorem State.complete_me (s : State) : ∃ n, s.complete.me = { s.me.after (s.me.pc + 4) false with remoteCount := n } := by
  have key : ∀ t : State, t.cur = s.cur → (∃ n, t.hart s.cur = { s.me with remoteCount := n }) →
      ∃ n, (t.modMe fun x => { x with waiting := none, pfx := none, jumped := false, pc := x.pc + 4, sys := x.sys.retire x.words }).me
        = { s.me.after (s.me.pc + 4) false with remoteCount := n } := by
    rintro t hc ⟨n, hn⟩
    refine ⟨n, ?_⟩
    have : t.me = { s.me with remoteCount := n } := by rw [State.me, hc, hn]
    rw [State.me_modMe, this]
    simp only [Hart.after, SysCsrs.retire_eq]
    rfl
  unfold State.complete State.countRemote
  split
  · split
    · exact key _ (by simp) ⟨s.me.remoteCount, by rw [State.hart_congr (s.modTask_harts _ _)]; rfl⟩
    · exact key _ (by simp) ⟨_, by rw [State.hart_modHart]; rfl⟩
  · exact key _ rfl ⟨s.me.remoteCount, rfl⟩

@[simp] theorem State.complete_cur (s : State) : s.complete.cur = s.cur := by
  unfold State.complete State.countRemote
  split
  · split <;> simp
  · simp

@[simp] theorem State.complete_mode (s : State) : s.complete.me.mode = s.me.mode := by
  obtain ⟨n, h⟩ := s.complete_me
  rw [h]; rfl

@[simp] theorem State.complete_task (s : State) : s.complete.me.task = s.me.task := by
  obtain ⟨n, h⟩ := s.complete_me
  rw [h]; rfl

@[simp] theorem State.complete_ctx (s : State) : s.complete.me.ctx = s.me.ctx := by
  obtain ⟨n, h⟩ := s.complete_me
  rw [h]; rfl

@[simp] theorem State.complete_pc (s : State) : s.complete.me.pc = s.me.pc + 4 := by
  obtain ⟨n, h⟩ := s.complete_me
  rw [h]; rfl

/-- No region is open outside U mode. -/
theorem State.inRegion_mode (s : State) (h : Nat) (m : (s.hart h).mode ≠ Mode.u) : s.inRegion h = false := by
  cases hq : (s.hart h).mode <;> simp_all [State.inRegion]

/-- Outside U mode a region-closing instruction only goes on to the next word. -/
theorem State.goesOn_mode (s : State) (m : s.me.mode ≠ Mode.u) : s.goesOn = s.complete := by
  unfold State.goesOn
  rw [State.inRegion_mode]
  · rfl
  · have := s.complete_mode
    rw [State.me, State.complete_cur] at this
    rw [State.complete_cur, this]
    exact m

/-! ### The runners -/

theorem attempt_ok {s t : State} {body : State → Except Exc State} (h : body s = .ok t) :
    s.attempt body = (s, .ok t) := by
  simp [State.attempt, h]

theorem runOpen_ok {i : Instr} {s t : State} {body : State → Except Exc State} (h : body s = .ok t) :
    runOpen i s body = .next t.complete := by
  simp [runOpen, attempt_ok h]

theorem runJump_ok {i : Instr} {s t : State} {body : State → Except Exc State} (h : body s = .ok t) :
    runJump i s body = .next t.retire := by
  simp [runJump, attempt_ok h]

theorem attempt_error {s : State} {e : Exc} {body : State → Except Exc State} (h : body s = .error e)
    (n : ∀ c, e ≠ .autoClose c) : s.attempt body = (s, .error e) := by
  unfold State.attempt
  rw [h]
  cases e <;> first | rfl | exact absurd rfl (n _)

theorem runOpen_error {i : Instr} {s : State} {e : Exc} {body : State → Except Exc State} (h : body s = .error e)
    (n : ∀ c, e ≠ .autoClose c) : runOpen i s body = .next (s.finishExc i e) := by
  simp [runOpen, attempt_error h n]

theorem runJump_error {i : Instr} {s : State} {e : Exc} {body : State → Except Exc State} (h : body s = .error e)
    (n : ∀ c, e ≠ .autoClose c) : runJump i s body = .next (s.finishExc i e) := by
  simp [runJump, attempt_error h n]

/-- Every runner answers a next state. -/
theorem runOpen_next (i : Instr) (s : State) (body : State → Except Exc State) : ∃ t, runOpen i s body = .next t := by
  unfold runOpen
  split <;> exact ⟨_, rfl⟩

theorem runJump_next (i : Instr) (s : State) (body : State → Except Exc State) : ∃ t, runJump i s body = .next t := by
  unfold runJump
  split <;> exact ⟨_, rfl⟩

theorem runClosing_next (k : Bool) (i : Instr) (s : State) (body : State → Except Exc State) :
    ∃ t, runClosing k i s body = .next t := by
  unfold runClosing
  extract_lets s1
  split
  · exact ⟨_, rfl⟩
  · split
    · split
      · extract_lets t
        exact ⟨_, rfl⟩
      · exact ⟨_, rfl⟩
    all_goals exact ⟨_, rfl⟩

/-- A region-closing instruction that starts here: its effect in the closed state, then the next word and checkpoint. -/
theorem runClosing_ok {i : Instr} {s t : State} {body : State → Except Exc State} (w : s.me.waiting = none)
    (g : isGateWait i = false) (e : s.closed.noEnd) (h : body s.closed = .ok t)
    (m : t.me.task = s.closed.me.task ∨ t.me.mode ≠ Mode.u) : runClosing false i s body = .next t.goesOn := by
  unfold runClosing
  have hs : (s.closesOther s.cur).closeRegion s.cur 0 s.me.epc false = s.closed := rfl
  have he : s.closed.ending? s.closed.cur = none := e
  simp only [w, Option.isSome_none, Bool.false_eq_true, if_false, g, hs, he, h, m, if_true]
  rfl

/-- The same for `sc`. -/
theorem runClosing_keep_ok {i : Instr} {s t : State} {body : State → Except Exc State} (w : s.me.waiting = none)
    (g : isGateWait i = false) (e : s.closedKeeping.noEnd) (h : body s.closedKeeping = .ok t)
    (m : t.me.task = s.closedKeeping.me.task ∨ t.me.mode ≠ Mode.u) : runClosing true i s body = .next t.goesOn := by
  unfold runClosing
  have hs : (s.closesOther s.cur).closeRegion s.cur 0 s.me.epc true = s.closedKeeping := rfl
  have he : s.closedKeeping.ending? s.closedKeeping.cur = none := e
  simp only [w, Option.isSome_none, Bool.false_eq_true, if_false, g, hs, he, h, m, if_true]
  rfl

theorem runClosing_error {i : Instr} {s : State} {x : Exc} {body : State → Except Exc State} (w : s.me.waiting = none)
    (g : isGateWait i = false) (e : s.closed.noEnd) (h : body s.closed = .error x) (n : ∀ c, x ≠ .autoClose c) :
    runClosing false i s body = .next (s.closed.finishExc i x) := by
  unfold runClosing
  have hs : (s.closesOther s.cur).closeRegion s.cur 0 s.me.epc false = s.closed := rfl
  have he : s.closed.ending? s.closed.cur = none := e
  simp only [w, Option.isSome_none, Bool.false_eq_true, if_false, g, hs, he, h]

/-- An instruction that begins a wait stays where it is. -/
theorem State.finish_wait (s : State) (i : Instr) (k : WaitKind) (e : k.isLong = false ∨ s.noEnd) :
    s.finishExc i (.wait k) = s.modMe fun x => { x with waiting := some { instr := i, kind := k, reply := none } } := by
  have h : (k.isLong && (s.ending? s.cur).isSome) = false := by
    rcases e with h | h
    · simp [h]
    · rw [show s.ending? s.cur = none from h]; simp
  show (if (k.isLong && (s.ending? s.cur).isSome) = true then _ else _) = _
  rw [h]
  rfl

theorem State.finish_hold (s t : State) (i : Instr) (k : WaitKind) (e : k.isLong = false ∨ s.noEnd) :
    s.finishExc i (.hold t k) = t.modMe fun x => { x with waiting := some { instr := i, kind := k, reply := none } } := by
  have h : (k.isLong && (s.ending? s.cur).isSome) = false := by
    rcases e with h | h
    · simp [h]
    · rw [show s.ending? s.cur = none from h]; simp
  show (if (k.isLong && (s.ending? s.cur).isSome) = true then _ else _) = _
  rw [h]
  rfl

/-- Outside a region nothing closes. -/
theorem State.closed_outside (s : State) (h : s.inRegion s.cur = false) : s.closed = s := by
  simp [State.closed, State.closesOther, State.closeRegion, h]

theorem State.noEnd_outside (s : State) (h : s.inRegion s.cur = false) : s.noEnd := by
  simp [State.noEnd, State.ending?, h]

end Sys2Proof.Machine
end

