-- ==== Sys2Proof/Laws/Memory.lean ====
section
/-! SUPPORT. Where aligned accesses lead, and what loads and stores of M mode do to memory. -/

namespace Sys2Proof.Machine

theorem leNat_leBytes (n v : Nat) : leNat (leBytes n v) = v % 256 ^ n := by
  induction n generalizing v with
  | zero => simp [leBytes, leNat, Nat.mod_one]
  | succ n ih =>
    simp only [leBytes, leNat, ih, BitVec.toNat_ofNat]
    rw [show (256 : Nat) ^ (n + 1) = 256 * 256 ^ n by rw [Nat.pow_succ, Nat.mul_comm], Nat.mod_mul]

@[simp] theorem leBytes_length (n v : Nat) : (leBytes n v).length = n := by
  induction n generalizing v with
  | zero => rfl
  | succ n ih => simp [leBytes, ih]

theorem State.bytes_eq (s : State) (a : Nat) (bs : List Byte) (h : ∀ i, (hi : i < bs.length) → s.byte (a + i) = bs[i]) :
    s.bytes a bs.length = bs := by
  induction bs generalizing a with
  | nil => rfl
  | cons x r ih =>
    simp only [List.length_cons, State.bytes]
    have h0 := h 0 (by simp)
    rw [show s.byte a = x by simpa using h0]
    congr 1
    exact ih (a + 1) fun i hi => by
      have := h (i + 1) (by simpa using hi)
      rw [show a + (i + 1) = a + 1 + i by omega] at this
      simpa using this

theorem State.bytes_setBytes (s : State) (a : Nat) (bs : List Byte) (w : Memory.wf s.mem = true) :
    (s.setBytes a bs).bytes a bs.length = bs :=
  State.bytes_eq _ _ _ fun i hi => s.byte_setBytes bs a i w hi

theorem State.byte_congr {s t : State} (e : t.mem = s.mem) (a : Nat) : t.byte a = s.byte a := by simp [State.byte, e]

theorem State.bytes_congr {s t : State} (e : t.mem = s.mem) (a n : Nat) : t.bytes a n = s.bytes a n := by
  induction n generalizing a with
  | zero => rfl
  | succ n ih => simp [State.bytes, State.byte_congr e, ih]

@[simp] theorem State.markDirty_mem (s : State) (p : Option Nat) (g : Nat) : (s.markDirty p g).mem = s.mem := by
  unfold State.markDirty
  split <;> simp

/-! ### Keys (R59) -/

@[simp] theorem State.keyUnit_mem (s : State) (u : Nat) (k : BitVec 512) : (s.keyUnit u k).mem = s.mem := rfl
@[simp] theorem State.keyUnit_keys (s : State) (u : Nat) (k : BitVec 512) : (s.keyUnit u k).keys = s.keys := rfl
@[simp] theorem State.keyUnit_gates (s : State) (u : Nat) (k : BitVec 512) : (s.keyUnit u k).gates = s.gates := rfl
@[simp] theorem State.keyUnit_parts (s : State) (u : Nat) (k : BitVec 512) : (s.keyUnit u k).parts = s.parts := rfl
@[simp] theorem State.keyUnit_unitKeys (s : State) (u : Nat) (k : BitVec 512) :
    (s.keyUnit u k).unitKeys = s.unitKeys.put u k := rfl

@[simp] theorem State.setBytes_unitKeys (bs : List Byte) (s : State) (a : Nat) : (s.setBytes a bs).unitKeys = s.unitKeys := by
  induction bs generalizing s a with
  | nil => rfl
  | cons x r ih => simp [State.setBytes, ih]

theorem State.setUnit_mem (s : State) (u : Nat) (d k : BitVec 512) :
    (s.setUnit u d k).mem = (s.setBytes (64 * u) (leBytes 64 d.toNat)).mem := by
  unfold State.setUnit
  rw [State.keyUnit_mem]
@[simp] theorem State.setUnit_unitKeys (s : State) (u : Nat) (d k : BitVec 512) :
    (s.setUnit u d k).unitKeys = s.unitKeys.put u k := by
  unfold State.setUnit
  rw [State.keyUnit_unitKeys, State.setBytes_unitKeys]

theorem State.setUnit_byte (s : State) (u : Nat) (d k : BitVec 512) (b : Nat) :
    (s.setUnit u d k).byte b = (s.setBytes (64 * u) (leBytes 64 d.toNat)).byte b := State.byte_congr (s.setUnit_mem u d k) b

theorem State.rekey_wf (s : State) (p : Option Nat) (a : Nat) (w : Memory.wf s.mem = true) :
    Memory.wf (s.rekey p a).mem = true := by
  unfold State.rekey
  split
  · exact w
  · split
    · exact w
    · extract_lets new
      split
      · exact w
      · rw [State.setUnit_mem]
        exact State.setBytes_wf _ _ _ w

@[simp] theorem State.noteKey_mem (s : State) (p : Option Nat) (a : Nat) : (s.noteKey p a).mem = s.mem := by
  unfold State.noteKey
  split
  · rfl
  · split <;> rfl

/-- Keys and the windows of gates decide under which key an access goes, for a whole unit alike. -/
theorem State.keyAt_congr {s t : State} (k : t.keys = s.keys) (g : t.gates = s.gates) (q : t.parts = s.parts)
    (p : Option Nat) {a b : Nat} (u : b / 64 = a / 64) : t.keyAt p b = s.keyAt p a := by
  have h : b / 4096 = a / 4096 := by omega
  simp only [State.keyAt, k, g, q, h]

@[simp] theorem State.setBytes_keys (bs : List Byte) (s : State) (a : Nat) : (s.setBytes a bs).keys = s.keys := by
  induction bs generalizing s a with
  | nil => rfl
  | cons x r ih => simp [State.setBytes, ih]

@[simp] theorem State.setBytes_gates (bs : List Byte) (s : State) (a : Nat) : (s.setBytes a bs).gates = s.gates := by
  induction bs generalizing s a with
  | nil => rfl
  | cons x r ih => simp [State.setBytes, ih]

@[simp] theorem State.setBytes_parts (bs : List Byte) (s : State) (a : Nat) : (s.setBytes a bs).parts = s.parts := by
  induction bs generalizing s a with
  | nil => rfl
  | cons x r ih => simp [State.setBytes, ih]

/-- What `rekey` does: nothing, or the unit's data under the new key. -/
theorem State.rekey_cases (s : State) (p : Option Nat) (a : Nat) :
    (s.rekey p a = s ∧ (hbmSize ≤ a ∨ s.unitKeys.find (a / 64) = none ∨
      s.unitKeys.find (a / 64) = some ((s.keyAt p a).getD 0))) ∨
    (a < hbmSize ∧ ∃ old, s.unitKeys.find (a / 64) = some old ∧ old ≠ (s.keyAt p a).getD 0 ∧
      s.rekey p a = s.setUnit (a / 64) (Config.rekeyed old ((s.keyAt p a).getD 0) (a / 64)
        (BitVec.ofNat 512 (s.readNat (64 * (a / 64)) 64))) ((s.keyAt p a).getD 0)) := by
  unfold State.rekey
  split
  · exact .inl ⟨rfl, .inl ‹_›⟩
  · split
    · exact .inl ⟨rfl, .inr (.inl ‹_›)⟩
    · rename_i old h
      extract_lets new
      split
      · rename_i e
        exact .inl ⟨rfl, .inr (.inr (by rw [h, ← e]))⟩
      · rename_i hb e
        exact .inr ⟨by omega, old, h, fun h => e h.symm, rfl⟩

/-- `rekey` touches one unit. -/
theorem State.rekey_byte_other (s : State) (p : Option Nat) (a b : Nat) (w : Memory.wf s.mem = true) (h : b / 64 ≠ a / 64) :
    (s.rekey p a).byte b = s.byte b := by
  rcases s.rekey_cases p a with ⟨e, -⟩ | ⟨-, old, -, -, e⟩
  · rw [e]
  · rw [e, State.setUnit_byte]
    exact State.byte_setBytes_other _ s _ _ w (by simp only [leBytes_length]; omega)

theorem State.readNat_congr {s t : State} (a n : Nat) (h : ∀ i, i < n → t.byte (a + i) = s.byte (a + i)) :
    t.bytes a n = s.bytes a n := by
  induction n generalizing a with
  | zero => rfl
  | succ n ih =>
    simp only [State.bytes]
    rw [show t.byte a = s.byte a by simpa using h 0 (by omega)]
    congr 1
    exact ih (a + 1) fun i hi => by simpa [Nat.add_assoc, Nat.add_comm 1 i] using h (i + 1) (by omega)

/-- The byte that a read finds is decided by its unit: its bytes, its key, and the key of the access. -/
theorem State.byteAs_congr {s t : State} (p : Option Nat) (a : Nat) (ws : Memory.wf s.mem = true) (wt : Memory.wf t.mem = true)
    (k : t.keyAt p a = s.keyAt p a) (u : t.unitKeys.find (a / 64) = s.unitKeys.find (a / 64))
    (h : ∀ i, i < 64 → t.byte (64 * (a / 64) + i) = s.byte (64 * (a / 64) + i)) : t.byteAs p a = s.byteAs p a := by
  have hb : t.byte a = s.byte a := by
    have := h (a % 64) (by omega)
    rwa [show 64 * (a / 64) + a % 64 = a by omega] at this
  have hr : t.readNat (64 * (a / 64)) 64 = s.readNat (64 * (a / 64)) 64 := by
    unfold State.readNat
    rw [State.readNat_congr _ _ h]
  unfold State.byteAs
  have key : ∀ (r : State) (d k : BitVec 512), Memory.wf r.mem = true →
      (r.setUnit (a / 64) d k).byte a = (leBytes 64 d.toNat).getD (a % 64) 0 := by
    intro r d k w
    rw [State.setUnit_byte]
    have := r.byte_setBytes (leBytes 64 d.toNat) (64 * (a / 64)) (a % 64) w (by rw [leBytes_length]; omega)
    rw [show 64 * (a / 64) + a % 64 = a by omega] at this
    rw [this, List.getD_eq_getElem _ _ (by rw [leBytes_length]; omega)]
  rcases s.rekey_cases p a with ⟨e, c⟩ | ⟨hs, old, c, n, e⟩ <;> rcases t.rekey_cases p a with ⟨e', c'⟩ | ⟨ht, old', c', n', e'⟩
  · rw [e, e', hb]
  · rw [u] at c'
    rw [k] at n'
    rcases c with c | c | c
    · omega
    · rw [c] at c'; cases c'
    · rw [c] at c'; cases c'; exact absurd rfl n'
  · rw [u] at c'
    rw [k] at c'
    rcases c' with c' | c' | c'
    · omega
    · rw [c] at c'; cases c'
    · rw [c] at c'; cases c'; exact absurd rfl n
  · rw [u, c] at c'
    cases c'
    rw [e, e', key _ _ _ ws, key _ _ _ wt, hr, k]

theorem State.noteKey_find (s : State) (p : Option Nat) (a b : Nat) : (s.noteKey p a).unitKeys.find (b / 64) =
    if a < hbmSize ∧ b / 64 = a / 64 then (match s.keyAt p a with | some k => some k | none => s.unitKeys.find (b / 64))
    else s.unitKeys.find (b / 64) := by
  unfold State.noteKey
  split
  · rw [if_neg (by omega)]
  · have ha : a < hbmSize := by omega
    by_cases e : b / 64 = a / 64
    · rw [if_pos ⟨ha, e⟩]
      split <;> simp_all
    · rw [if_neg (fun h => e h.2)]
      split
      · rfl
      · exact Table.find_put_other _ _ _ _ e

@[simp] theorem State.noteKey_keys (s : State) (p : Option Nat) (a : Nat) : (s.noteKey p a).keys = s.keys := by
  unfold State.noteKey
  split
  · rfl
  · split <;> rfl
@[simp] theorem State.noteKey_gates (s : State) (p : Option Nat) (a : Nat) : (s.noteKey p a).gates = s.gates := by
  unfold State.noteKey
  split
  · rfl
  · split <;> rfl
@[simp] theorem State.noteKey_parts (s : State) (p : Option Nat) (a : Nat) : (s.noteKey p a).parts = s.parts := by
  unfold State.noteKey
  split
  · rfl
  · split <;> rfl
@[simp] theorem State.rekey_keys (s : State) (p : Option Nat) (a : Nat) : (s.rekey p a).keys = s.keys := by
  rcases s.rekey_cases p a with ⟨e, -⟩ | ⟨-, old, -, -, e⟩ <;> simp [e, State.setUnit]
@[simp] theorem State.rekey_gates (s : State) (p : Option Nat) (a : Nat) : (s.rekey p a).gates = s.gates := by
  rcases s.rekey_cases p a with ⟨e, -⟩ | ⟨-, old, -, -, e⟩ <;> simp [e, State.setUnit]
@[simp] theorem State.rekey_parts (s : State) (p : Option Nat) (a : Nat) : (s.rekey p a).parts = s.parts := by
  rcases s.rekey_cases p a with ⟨e, -⟩ | ⟨-, old, -, -, e⟩ <;> simp [e, State.setUnit]

theorem State.rekey_find_other (s : State) (p : Option Nat) (a b : Nat) (h : b / 64 ≠ a / 64) :
    (s.rekey p a).unitKeys.find (b / 64) = s.unitKeys.find (b / 64) := by
  rcases s.rekey_cases p a with ⟨e, -⟩ | ⟨-, old, -, -, e⟩
  · rw [e]
  · rw [e, State.setUnit_unitKeys, Table.find_put_other _ _ _ _ h]

theorem State.write_mem (s : State) (g p : Option Nat) (a : Nat) (bs : List Byte) :
    (s.write g p a bs).mem = ((s.rekey p a).setBytes a bs).mem := by
  have : ∀ (bs : List Byte) (a : Nat) (s t : State), s.mem = t.mem → (s.setBytes a bs).mem = (t.setBytes a bs).mem := by
    intro bs
    induction bs with
    | nil => exact fun _ _ _ h => h
    | cons x r ih => exact fun a s t h => ih (a + 1) _ _ (by simp [State.setByte, h])
  exact this bs a _ _ (State.noteKey_mem _ _ _)

theorem State.write_byte (s : State) (g p : Option Nat) (a b : Nat) (bs : List Byte) :
    (s.write g p a bs).byte b = ((s.rekey p a).setBytes a bs).byte b := by simp [State.byte, State.write_mem]

/-- After a write its unit is data under the key of the access. -/
theorem State.write_settled (s : State) (g p : Option Nat) (a b : Nat) (bs : List Byte) (h : b / 64 = a / 64) (l : a % 64 + bs.length ≤ 64) :
    (s.write g p a bs).rekey p b = s.write g p a bs := by
  have hk : (s.write g p a bs).keyAt p b = s.keyAt p a := State.keyAt_congr (by simp [State.write]) (by simp [State.write]) (by simp [State.write]) p h
  have hu : (s.write g p a bs).unitKeys.find (b / 64) = ((s.rekey p a).noteKey p a).unitKeys.find (b / 64) := by
    simp [State.write]
  have hk' : (s.rekey p a).keyAt p a = s.keyAt p a := State.keyAt_congr (by simp) (by simp) (by simp) p rfl
  rcases (s.write g p a bs).rekey_cases p b with ⟨e, -⟩ | ⟨hb, old, c, n, e⟩
  · exact e
  · exfalso
    have ha : a < hbmSize := by
      have : hbmSize = 64 * 8589934592 := rfl
      omega
    rw [hu, State.noteKey_find, if_pos ⟨ha, h⟩, hk'] at c
    rw [hk] at n
    cases q : s.keyAt p a with
    | some k =>
      rw [q] at c n
      simp at c n
      exact n c.symm
    | none =>
      rw [q] at c n
      simp only [Option.getD_none] at c n
      rcases s.rekey_cases p a with ⟨e, d⟩ | ⟨-, old', d, m, e⟩
      · rw [e, h] at c
        rcases d with d | d | d
        · omega
        · rw [d] at c; cases c
        · rw [d, q] at c
          simp at c
          exact n c.symm
      · rw [e, h, q] at c
        simp at c
        exact n c.symm

/-- What a write does, as its own partition reads memory: the bytes at the address, and every other byte as before. -/
theorem State.write_byteAs (s : State) (g p : Option Nat) (a b : Nat) (bs : List Byte) (w : Memory.wf s.mem = true)
    (l : a % 64 + bs.length ≤ 64) (h : b < a ∨ a + bs.length ≤ b) : (s.write g p a bs).byteAs p b = s.byteAs p b := by
  have wr := s.rekey_wf p a w
  by_cases e : b / 64 = a / 64
  · unfold State.byteAs
    rw [State.write_settled s g p a b bs e l, State.write_byte, State.byte_setBytes_other _ _ _ _ wr h]
    have : (s.rekey p a).byte b = (s.rekey p b).byte b := by
      have hk : s.keyAt p b = s.keyAt p a := State.keyAt_congr rfl rfl rfl p e
      have hh : hbmSize = 64 * 8589934592 := rfl
      have hle : (hbmSize ≤ b) = (hbmSize ≤ a) := by
        apply propext
        constructor <;> intro h <;> omega
      unfold State.rekey
      simp only [hk, e, hle]
    exact this
  · have wf : Memory.wf (s.write g p a bs).mem = true := by
      rw [State.write_mem]
      exact State.setBytes_wf bs _ a wr
    refine State.byteAs_congr p b w wf (State.keyAt_congr (by simp [State.write]) (by simp [State.write]) (by simp [State.write]) p rfl) ?_ ?_
    · rw [show (s.write g p a bs).unitKeys = ((s.rekey p a).noteKey p a).unitKeys by simp [State.write], State.noteKey_find,
        if_neg (fun h => e h.2), State.rekey_find_other _ _ _ _ e]
    · intro i hi
      rw [State.write_byte, State.byte_setBytes_other _ _ _ _ wr (by omega), State.rekey_byte_other _ _ _ _ w (by omega)]

theorem State.write_readAs (s : State) (g p : Option Nat) (a : Nat) (bs : List Byte) (w : Memory.wf s.mem = true)
    (l : a % 64 + bs.length ≤ 64) : (s.write g p a bs).readAs p a bs.length = bs := by
  unfold State.readAs
  rw [State.write_settled s g p a a bs rfl l, State.bytes_congr (State.write_mem s g p a bs)]
  exact State.bytes_setBytes _ _ _ (s.rekey_wf p a w)

theorem State.write_wf (s : State) (g p : Option Nat) (a : Nat) (bs : List Byte) (w : Memory.wf s.mem = true) :
    Memory.wf (s.write g p a bs).mem = true := by
  rw [State.write_mem]
  exact State.setBytes_wf bs _ a (s.rekey_wf p a w)

theorem State.perform_mem (s : State) (g p : Option Nat) (a gpa : Nat) (bs : List Byte) :
    (s.perform g p a gpa bs).mem = ((s.rekey p a).setBytes a bs).mem := by
  unfold State.perform
  extract_lets t
  split <;> simp [t, State.write_mem]

theorem State.perform_wf (s : State) (g p : Option Nat) (a gpa : Nat) (bs : List Byte) (w : Memory.wf s.mem = true) :
    Memory.wf (s.perform g p a gpa bs).mem = true := by
  rw [State.perform_mem]
  exact State.setBytes_wf bs _ a (s.rekey_wf p a w)

theorem performUnits_wf (g p : Option Nat) (ls : List (Loc × Nat)) (s : State) (bs : List Byte)
    (w : Memory.wf s.mem = true) : Memory.wf (performUnits s g p ls bs).mem = true := by
  induction ls generalizing s bs with
  | nil => exact w
  | cons e r ih => exact ih _ _ (s.perform_wf g p _ _ _ w)

/-- An aligned access of 1, 2, 4 or 8 bytes to HBM in M mode is one unit at its own address. -/
theorem resolve_machine (s : State) (v : View) (acc : Acc) (va : Word) (n : Nat) (m : v.mode = Mode.m)
    (np : v.part = none) (pm : v.pmpAllows .m acc va.toNat n = true) (hn : n = 1 ∨ n = 2 ∨ n = 4 ∨ n = 8) (al : va.toNat % n = 0) (top : va.toNat + n ≤ hbmSize) :
    resolve s v acc va n n = .ok (s, [({ pa := va.toNat, gpa := noGuest, window := false, free := false }, n)]) := by
  have hh : hbmSize = 2 ^ 39 := rfl
  have hc : canonicalRange va n = true := by
    have h1 : bits va 56 8 = 0 := by
      simp only [bits, Nat.shiftRight_eq_div_pow]
      rw [Nat.div_eq_of_lt (by omega), Nat.zero_mod]
    have h2 : bits va 56 1 = 0 := by
      simp only [bits, Nat.shiftRight_eq_div_pow]
      rw [Nat.div_eq_of_lt (by omega), Nat.zero_mod]
    simp only [canonicalRange, canonical, h1, h2, if_true, BEq.rfl, Bool.true_or, Bool.true_and, decide_eq_true_eq]
    omega
  have hw : inWindows va = false := by
    have h : ¬ windowLo ≤ va.toNat := by
      rw [show windowLo = 136339441844224 from rfl]
      omega
    simp [inWindows, h]
  have hcan : canonical va = true := by
    simp only [canonicalRange, Bool.and_eq_true] at hc
    exact hc.1
  have hk : min n (8 - va.toNat % 8) = n := by
    rcases hn with rfl | rfl | rfl | rfl <;> omega
  have hl : hbmLoc acc va va.toNat noGuest =
      .ok { pa := va.toNat, gpa := noGuest, window := false, free := false } := by
    simp only [hbmLoc]
    rw [if_pos (by omega)]
  have hu : resolveUnit s v acc va =
      .ok (s, { pa := va.toNat, gpa := noGuest, window := false, free := false }) := by
    simp only [resolveUnit, hcan, Bool.not_true, Bool.false_eq_true, if_false, hw, m, np, and_self, if_true, hl]
    rfl
  have h0 : n ≠ 0 := by omega
  have hz : ∀ w, resolveUnits v acc (n / 8 + 1) s w (n - n) = .ok (s, []) := by
    intro w
    simp [resolveUnits]
  simp only [resolve, hcan, hc, Bool.not_true, Bool.false_eq_true, if_false, al, ne_eq, not_true_eq_false]
  rw [show n / 8 + 2 = (n / 8 + 1) + 1 by omega, resolveUnits]
  simp only [h0, if_false, hu, hk, hz, m, pm, Bool.not_true, Bool.and_false, Bool.false_eq_true]

theorem State.viewOf_mode_machine (s : State) (h : Nat) (acc : Acc) (m : (s.hart h).mode = Mode.m)
    (p : bits (s.hart h).sys.mstatus 17 1 = 0) : (s.viewOf h acc).mode = Mode.m := by
  simp [State.viewOf, m, p]

/-- An aligned M-mode load from HBM with no detector armed reads memory and changes nothing. -/
theorem load_machine (s : State) (va : Word) (n : Nat) (m : s.me.mode = Mode.m) (p : bits s.me.sys.mstatus 17 1 = 0)
    (np : s.partOf (clusterOf s.cur) = none) (pm : (s.view .load).pmpAllows .m .load va.toNat n = true)
    (e : (s.cluster (clusterOf s.cur)).errinj.getLsbD 4 = false) (hn : n = 1 ∨ n = 2 ∨ n = 4 ∨ n = 8)
    (al : va.toNat % n = 0) (top : va.toNat + n ≤ hbmSize) : s.load va n n = .ok (s, s.readAs none va.toNat n) := by
  have hv : (s.viewOf s.cur .load).mode = Mode.m := s.viewOf_mode_machine s.cur .load m p
  have hb : s.buffered s.cur = [] := by
    have hm : (s.hart s.cur).mode = Mode.m := m
    simp [State.buffered, State.inRegion, hm]
  have hy : ∀ (va : Nat) (bs : List Byte) (k : Nat),
      (bs.zipIdx k).map (fun e : Byte × Nat => (youngest (va + e.2) []).getD e.1) = bs := by
    intro va bs
    induction bs with
    | nil => intro k; rfl
    | cons x r ih => intro k; simp [List.zipIdx_cons, youngest]
  simp only [State.load, State.loadOf, bind, Except.bind, resolve_machine s _ .load va n hv np pm hn al top]
  simp only [State.detect, List.head?_cons, Option.bind_some, detectorBit, Bool.not_false, if_true, e, Bool.false_eq_true,
    if_false, hb, np, loadUnits, unitBytes, List.append_nil, pure, Except.pure, List.any_cons, List.any_nil, Bool.or_self]
  rw [hy]

end Sys2Proof.Machine
end

