-- ==== Sys2Proof/Laws/Access.lean ====
section
/-! SUPPORT. What resolving an address, loading and a read-modify-write can change: memory (the A and D bits of the leaf
entries, and what is written) and the keys of its units, reservations, TLBs, the pages marked dirty; a load also a detector and a verdict. -/

namespace Sys2Proof.Machine

/-- `t` is `s` but for memory and its keys, reservations, TLBs and dirty pages. -/
structure Touched (s t : State) : Prop where
  rest     : t = { s with harts := t.harts, mem := t.mem, unitKeys := t.unitKeys, clusters := t.clusters, parts := t.parts }
  harts    : ∀ h, ∃ r, t.hart h = { s.hart h with resv := r }
  clusters : ∀ c, ∃ a b, t.cluster c = { s.cluster c with tlb1 := a, tlb2 := b }
  parts    : ∀ p, (t.parts.find p).map (fun x => { x with dirty := [] }) =
    (s.parts.find p).map fun x => { x with dirty := [] }
  wf       : Memory.wf s.mem = true → Memory.wf t.mem = true

theorem Touched.refl (s : State) : Touched s s :=
  ⟨rfl, fun _ => ⟨_, rfl⟩, fun _ => ⟨_, _, rfl⟩, fun _ => rfl, id⟩

theorem Touched.trans {s t u : State} (a : Touched s t) (b : Touched t u) : Touched s u where
  rest := by
    have h := b.rest
    rw [a.rest] at h
    exact h
  harts h := by
    obtain ⟨r, hr⟩ := a.harts h
    obtain ⟨q, hq⟩ := b.harts h
    exact ⟨q, by rw [hq, hr]⟩
  clusters c := by
    obtain ⟨x, y, h⟩ := a.clusters c
    obtain ⟨z, w, k⟩ := b.clusters c
    exact ⟨z, w, by rw [k, h]⟩
  parts p := (b.parts p).trans (a.parts p)
  wf w := b.wf (a.wf w)

theorem State.setByte_touched (s : State) (a : Nat) (v : Byte) : Touched s (s.setByte a v) :=
  ⟨rfl, fun _ => ⟨_, rfl⟩, fun _ => ⟨_, _, rfl⟩, fun _ => rfl, s.setByte_wf a v⟩

theorem State.setBytes_touched (bs : List Byte) (s : State) (a : Nat) : Touched s (s.setBytes a bs) := by
  induction bs generalizing s a with
  | nil => exact Touched.refl s
  | cons b r ih => exact (s.setByte_touched a b).trans (ih _ _)

theorem State.clearResv_touched (s : State) (g : Option Nat) (l : Nat) : Touched s (s.clearResv g l) where
  rest := rfl
  harts h := by
    simp only [State.hart, State.clearResv, Table.get, Table.find_mapVal]
    cases s.harts.find h with
    | none => exact ⟨_, rfl⟩
    | some x =>
      simp only [Option.map_some, Option.getD_some]
      split
      · split
        · exact ⟨none, rfl⟩
        · exact ⟨x.resv, rfl⟩
      · exact ⟨x.resv, rfl⟩
  clusters _ := ⟨_, _, rfl⟩
  parts _ := rfl
  wf := id

theorem State.markDirty_touched (s : State) (p : Option Nat) (g : Nat) : Touched s (s.markDirty p g) := by
  unfold State.markDirty
  split
  · exact Touched.refl s
  · rename_i p
    unfold State.modPart
    split
    · rename_i x hx
      refine ⟨rfl, fun _ => ⟨_, rfl⟩, fun _ => ⟨_, _, rfl⟩, fun q => ?_, id⟩
      by_cases hq : q = p
      · subst hq
        simp only [Table.find_put_same, hx, Option.map_some]
        split <;> rfl
      · simp only [Table.find_put_other _ _ _ _ hq]
    · exact Touched.refl s

theorem State.keyUnit_touched (s : State) (u : Nat) (k : BitVec 512) : Touched s (s.keyUnit u k) :=
  ⟨rfl, fun _ => ⟨_, rfl⟩, fun _ => ⟨_, _, rfl⟩, fun _ => rfl, id⟩

theorem State.noteKey_touched (s : State) (p : Option Nat) (a : Nat) : Touched s (s.noteKey p a) := by
  unfold State.noteKey
  split
  · exact Touched.refl s
  · split
    · exact Touched.refl s
    · exact s.keyUnit_touched _ _

theorem State.rekey_touched (s : State) (p : Option Nat) (a : Nat) : Touched s (s.rekey p a) := by
  rcases s.rekey_cases p a with ⟨e, -⟩ | ⟨-, old, -, -, e⟩
  · rw [e]
    exact Touched.refl s
  · rw [e, State.setUnit]
    exact (s.setBytes_touched _ _).trans (State.keyUnit_touched _ _ _)

theorem State.write_touched (s : State) (g p : Option Nat) (a : Nat) (bs : List Byte) : Touched s (s.write g p a bs) :=
  (((s.rekey_touched p a).trans (State.noteKey_touched _ _ _)).trans (State.setBytes_touched _ _ _)).trans
    (State.clearResv_touched _ _ _)

theorem State.perform_touched (s : State) (g p : Option Nat) (a gpa : Nat) (bs : List Byte) :
    Touched s (s.perform g p a gpa bs) := by
  unfold State.perform
  extract_lets t
  have h : Touched s t := s.write_touched _ _ _ _
  split
  · exact h.trans (State.markDirty_touched _ _ _)
  · exact h

theorem performUnits_touched (g p : Option Nat) (ls : List (Loc × Nat)) (s : State) (bs : List Byte) :
    Touched s (performUnits s g p ls bs) := by
  induction ls generalizing s bs with
  | nil => exact Touched.refl s
  | cons e r ih => exact (s.perform_touched g p _ _ _).trans (ih _ _)

theorem setAD_touched (s : State) (p d : Option Nat) (l : Leaf) (w : Bool) : Touched s (setAD s p d l w) := by
  unfold setAD
  extract_lets e1 e2
  split
  · exact Touched.refl s
  · exact (s.write_touched _ _ _ _).trans (State.markDirty_touched _ _ _)

theorem tableAt_touched (o : Acc) (va : Word) (s : State) (a : Nat) (t : State) (b : Nat)
    (w : tableAt o va s a = .ok (t, b)) : Touched s t := by
  unfold tableAt at w
  split at w
  · simp only [Except.ok.injEq, Prod.mk.injEq] at w
    exact w.1 ▸ Touched.refl s
  · cases w

theorem walk_touched (p : Option Nat) (tr : State → Nat → Except Exc (State × Nat)) (vpn : Nat)
    (h : ∀ s a t b, tr s a = .ok (t, b) → Touched s t) (n : Nat) (s : State) (table : Nat) (t : State) (r : Option Leaf)
    (w : walk p tr vpn n s table = .ok (t, r)) : Touched s t := by
  induction n generalizing s table with
  | zero =>
    simp only [walk, Except.ok.injEq, Prod.mk.injEq] at w
    exact w.1 ▸ Touched.refl s
  | succ n ih =>
    simp only [walk, bind, Except.bind] at w
    split at w
    · cases w
    · rename_i v hv
      have hs := h _ _ _ _ hv
      split at w
      · simp only [Except.ok.injEq, Prod.mk.injEq] at w
        exact w.1 ▸ hs
      · split at w
        · split at w <;>
          · simp only [Except.ok.injEq, Prod.mk.injEq] at w
            exact w.1 ▸ hs
        · split at w
          · simp only [Except.ok.injEq, Prod.mk.injEq] at w
            exact w.1 ▸ hs
          · exact hs.trans (ih _ _ w)

theorem stage2_touched (s : State) (p : Option Nat) (acc orig : Acc) (va : Word) (gpa : Nat) (t : State) (r : Nat × BitVec 8 × Nat)
    (w : stage2 s p acc orig va gpa = .ok (t, r)) : Touched s t := by
  unfold stage2 at w
  split at w
  · simp only [Except.ok.injEq, Prod.mk.injEq] at w
    exact w.1 ▸ Touched.refl s
  · rename_i q hq
    split at w
    · cases w
    · cases w
    · rename_i u l hu
      have h1 : Touched s u := walk_touched _ _ _ (fun s a t b h => tableAt_touched _ _ _ _ _ _ h) _ _ _ _ _ hu
      split at w
      · simp only [Except.ok.injEq, Prod.mk.injEq] at w
        exact w.1 ▸ h1.trans (setAD_touched _ _ _ _ _)
      · cases w

theorem setAD1_touched (s : State) (v : View) (acc : Acc) (va : Word) (l : Leaf) (t : State)
    (w : setAD1 s v acc va l = .ok t) : Touched s t := by
  unfold setAD1 at w
  split at w
  · split at w
    · rename_i u _ hu
      split at w
      · simp only [Except.ok.injEq] at w
        exact w ▸ (stage2_touched _ _ _ _ _ _ _ _ hu).trans (setAD_touched _ _ _ _ _)
      · cases w
    · cases w
  · simp only [Except.ok.injEq] at w
    exact w ▸ Touched.refl s

theorem tableOf_touched (v : View) (acc : Acc) (va : Word) (s : State) (g : Nat) (t : State) (b : Nat)
    (w : tableOf v acc va s g = .ok (t, b)) : Touched s t := by
  unfold tableOf at w
  split at w
  · cases w
  · rename_i hu
    split at w
    · simp only [Except.ok.injEq, Prod.mk.injEq] at w
      exact w.1 ▸ stage2_touched _ _ _ _ _ _ _ _ hu
    · cases w

theorem translatePage_touched (s : State) (v : View) (acc : Acc) (va : Word) (t : State) (e : Tlb)
    (w : translatePage s v acc va = .ok (t, e)) : Touched s t := by
  unfold translatePage at w
  extract_lets tag vpn at w
  split at w
  · simp only [bind, Except.bind] at w
    split at w
    · cases w
    · rename_i u hu
      have h1 : Touched s u.1 := walk_touched _ _ _ (fun s a t b h => tableOf_touched _ _ _ _ _ _ _ h) _ _ _ _ _ hu
      split at w
      · cases w
      · split at w
        · split at w
          · cases w
          · rename_i y hy
            split at w
            · cases w
            · rename_i x hx
              obtain ⟨x1, x2, x3, x4⟩ := x
              simp only [Except.ok.injEq, Prod.mk.injEq] at w
              have h2 := stage2_touched _ _ _ _ _ _ _ _ hx
              exact w.1 ▸ (h1.trans (setAD1_touched _ _ _ _ _ _ hy)).trans h2
        · cases w
  · simp only [bind, Except.bind] at w
    split at w
    · cases w
    · rename_i x hx
      obtain ⟨x1, x2, x3, x4⟩ := x
      simp only [Except.ok.injEq, Prod.mk.injEq] at w
      exact w.1 ▸ stage2_touched _ _ _ _ _ _ _ _ hx

theorem State.fillTlbs_touched (s : State) (v : View) (e : Tlb) : Touched s (s.fillTlbs v e) := by
  unfold State.fillTlbs
  refine ⟨rfl, fun _ => ⟨_, rfl⟩, fun c => ?_, fun _ => rfl, id⟩
  by_cases h : c = v.cluster
  · subst h
    exact ⟨_, _, by rw [State.cluster_modCluster]⟩
  · exact ⟨_, _, State.cluster_modCluster_other _ _ _ _ h⟩

theorem lookupPage_touched (s : State) (v : View) (acc : Acc) (va : Word) (t : State) (e : Tlb)
    (w : lookupPage s v acc va = .ok (t, e)) : Touched s t := by
  unfold lookupPage at w
  extract_lets vpn k at w
  split at w
  · split at w
    · cases w
    · split at w
      · cases w
      · simp only [Except.ok.injEq, Prod.mk.injEq] at w
        exact w.1 ▸ s.fillTlbs_touched v _
  · split at w
    · rename_i u x hx
      simp only [Except.ok.injEq, Prod.mk.injEq] at w
      exact w.1 ▸ (translatePage_touched _ _ _ _ _ _ hx).trans (State.fillTlbs_touched _ _ _)
    · cases w

theorem resolveUnit_touched (s : State) (v : View) (acc : Acc) (va : Word) (t : State) (l : Loc)
    (w : resolveUnit s v acc va = .ok (t, l)) : Touched s t := by
  have hm : ∀ (u : State) (x : Except Exc Loc), (x.map fun l => (u, l)) = .ok (t, l) → u = t := by
    intro u x h
    cases x with
    | error e => cases h
    | ok y =>
      simp only [Except.map, Except.ok.injEq, Prod.mk.injEq] at h
      exact h.1
  unfold resolveUnit at w
  split at w
  · cases w
  · split at w
    · exact hm _ _ w ▸ Touched.refl s
    · split at w
      · exact hm _ _ w ▸ Touched.refl s
      · split at w
        · exact hm _ _ w ▸ Touched.refl s
        · split at w
          · rename_i hu
            exact hm _ _ w ▸ lookupPage_touched _ _ _ _ _ _ hu
          · cases w

theorem resolveUnits_touched (v : View) (acc : Acc) (n : Nat) (s : State) (va : Word) (len : Nat) (t : State)
    (ls : List (Loc × Nat)) (w : resolveUnits v acc n s va len = .ok (t, ls)) : Touched s t := by
  induction n generalizing s va len ls t with
  | zero =>
    simp only [resolveUnits, Except.ok.injEq, Prod.mk.injEq] at w
    exact w.1 ▸ Touched.refl s
  | succ n ih =>
    unfold resolveUnits at w
    split at w
    · simp only [Except.ok.injEq, Prod.mk.injEq] at w
      exact w.1 ▸ Touched.refl s
    · extract_lets k at w
      split at w
      · cases w
      · rename_i u l hu
        split at w
        · cases w
        · split at w
          · cases w
          · rename_i x ls' hx
            simp only [Except.ok.injEq, Prod.mk.injEq] at w
            exact w.1 ▸ (resolveUnit_touched _ _ _ _ _ _ hu).trans (ih _ _ _ _ _ hx)

/-- What resolving a range can change. -/
theorem resolve_touched (s : State) (v : View) (acc : Acc) (va : Word) (len al : Nat) (t : State) (ls : List (Loc × Nat))
    (w : resolve s v acc va len al = .ok (t, ls)) : Touched s t := by
  unfold resolve at w
  split at w
  · cases w
  · split at w
    · cases w
    · split at w
      · cases w
      · exact resolveUnits_touched _ _ _ _ _ _ _ _ w

/-! ### Loads and read-modify-writes -/

/-- The harts are as they were but for reservations, and the same hart acts. -/
structure KeepsHarts (s t : State) : Prop where
  cur   : t.cur = s.cur
  harts : ∀ h, ∃ r, t.hart h = { s.hart h with resv := r }

theorem KeepsHarts.refl (s : State) : KeepsHarts s s := ⟨rfl, fun _ => ⟨_, rfl⟩⟩

theorem KeepsHarts.trans {s t u : State} (a : KeepsHarts s t) (b : KeepsHarts t u) : KeepsHarts s u where
  cur := b.cur.trans a.cur
  harts h := by
    obtain ⟨r, hr⟩ := a.harts h
    obtain ⟨q, hq⟩ := b.harts h
    exact ⟨q, by rw [hq, hr]⟩

theorem Touched.keeps {s t : State} (a : Touched s t) : KeepsHarts s t :=
  ⟨by rw [a.rest], a.harts⟩

theorem KeepsHarts.of_harts {s t : State} (e : t.harts = s.harts) (c : t.cur = s.cur) : KeepsHarts s t :=
  ⟨c, fun h => ⟨(s.hart h).resv, by rw [State.hart_congr e]⟩⟩

theorem KeepsHarts.me {s t : State} (a : KeepsHarts s t) : ∃ r, t.me = { s.me with resv := r } := by
  have := a.harts s.cur
  simpa [State.me, a.cur] using this

theorem KeepsHarts.task {s t : State} (a : KeepsHarts s t) : t.me.task = s.me.task := by
  obtain ⟨r, h⟩ := a.me
  rw [h]

theorem KeepsHarts.waiting {s t : State} (a : KeepsHarts s t) : t.me.waiting = s.me.waiting := by
  obtain ⟨r, h⟩ := a.me
  rw [h]

@[simp] theorem State.raiseVerdict_harts (s : State) (h : Word) (v : Nat) : (s.raiseVerdict h v).harts = s.harts := by
  unfold State.raiseVerdict
  split
  · rfl
  · split <;> simp

@[simp] theorem State.raiseVerdict_cur (s : State) (h : Word) (v : Nat) : (s.raiseVerdict h v).cur = s.cur := by
  unfold State.raiseVerdict
  split
  · rfl
  · split <;> simp

@[simp] theorem State.raiseVerdict_mem (s : State) (h : Word) (v : Nat) : (s.raiseVerdict h v).mem = s.mem := by
  unfold State.raiseVerdict
  split
  · rfl
  · split <;> simp

theorem State.detect_keeps (s : State) (h : Nat) (va : Word) (ls : List (Loc × Nat)) (t : State)
    (w : s.detect h va ls = .ok t) : KeepsHarts s t ∧ t.mem = s.mem := by
  unfold State.detect at w
  split at w
  · cases w
    exact ⟨KeepsHarts.refl s, rfl⟩
  · extract_lets k at w
    split at w
    · split at w
      · cases w
        split
        · exact ⟨KeepsHarts.of_harts ((State.raiseVerdict_harts _ _ _).trans rfl) ((State.raiseVerdict_cur _ _ _).trans rfl),
            (State.raiseVerdict_mem _ _ _).trans rfl⟩
        · exact ⟨KeepsHarts.of_harts rfl rfl, rfl⟩
      · cases w
    · cases w
      exact ⟨KeepsHarts.refl s, rfl⟩

theorem State.load_keeps (s : State) (va : Word) (len al : Nat) (t : State) (bs : List Byte)
    (w : s.load va len al = .ok (t, bs)) : KeepsHarts s t := by
  simp only [State.load, State.loadOf, bind, Except.bind] at w
  split at w
  · cases w
  · rename_i u hu
    split at w
    · cases w
    · rename_i x hx
      simp only [pure, Except.pure, Except.ok.injEq, Prod.mk.injEq] at w
      have h1 := (resolve_touched _ _ _ _ _ _ _ _ hu).keeps
      have h2 := (State.detect_keeps _ _ _ _ _ hx).1
      rw [← w.1]
      split
      · exact h1.trans (h2.trans (KeepsHarts.of_harts rfl rfl))
      · exact h1.trans h2

theorem State.rmw_keeps (s : State) (va : Word) (len : Nat) (f : List Byte → List Byte) (t : State) (bs : List Byte)
    (w : s.rmw va len f = .ok (t, bs)) : KeepsHarts s t := by
  simp only [State.rmw, bind, Except.bind] at w
  split at w
  · cases w
  · rename_i u hu
    split at w
    · cases w
    · rename_i x hx
      simp only [pure, Except.pure, Except.ok.injEq, Prod.mk.injEq] at w
      have h1 := (resolve_touched _ _ _ _ _ _ _ _ hu).keeps
      have h2 := (State.detect_keeps _ _ _ _ _ hx).1
      rw [← w.1]
      exact (h1.trans h2).trans (performUnits_touched _ _ _ _ _).keeps

theorem State.load_wf (s : State) (va : Word) (len al : Nat) (t : State) (bs : List Byte) (m : Memory.wf s.mem = true)
    (w : s.load va len al = .ok (t, bs)) : Memory.wf t.mem = true := by
  simp only [State.load, State.loadOf, bind, Except.bind] at w
  split at w
  · cases w
  · rename_i u hu
    split at w
    · cases w
    · rename_i x hx
      simp only [pure, Except.pure, Except.ok.injEq, Prod.mk.injEq] at w
      have h1 := (resolve_touched _ _ _ _ _ _ _ _ hu).wf m
      have h2 := (State.detect_keeps _ _ _ _ _ hx).2
      rw [← w.1]
      split
      · simpa [h2] using h1
      · simpa [h2] using h1

end Sys2Proof.Machine
end

