-- ==== Sys2Proof/Laws/Exec.lean ====
section
/-! SUPPORT. `exec` of each instruction is its meaning: one lemma per arm, so that no proof unfolds the dispatch. -/

namespace Sys2Proof.Machine

theorem exec_rcommit (s : State) : exec (.rcommit) s = execRcommit s := rfl
theorem exec_phase {rd} {rs1} (s : State) : exec (.phase rd rs1) s = execPhase rd rs1 s := rfl
theorem exec_bfx {rd} {rs1} {rs2} (s : State) : exec (.bfx rd rs1 rs2) s = execBfx rd rs1 rs2 s := rfl
theorem exec_bfi {rd} {rs1} {rs2} (s : State) : exec (.bfi rd rs1 rs2) s = execBfi rd rs1 rs2 s := rfl
theorem exec_xflush {rs1} {rs2} (s : State) : exec (.xflush rs1 rs2) s = execXflush rs1 rs2 s := rfl
theorem exec_cfence {mask} {kind} {scope} (s : State) : exec (.cfence mask kind scope) s = execCfence mask kind scope s := rfl
theorem exec_samo {op} {scope} {rd} {rs1} {rs2} (s : State) : exec (.samo op scope rd rs1 rs2) s = execSamo op scope rd rs1 rs2 s := rfl
theorem exec_scas {scope} {rd} {rs1} {rs2} (s : State) : exec (.scas scope rd rs1 rs2) s = execScas scope rd rs1 rs2 s := rfl
theorem exec_barinit {rs1} {rs2} (s : State) : exec (.barinit rs1 rs2) s = execBarinit rs1 rs2 s := rfl
theorem exec_barrive {rd} {rs1} (s : State) : exec (.barrive rd rs1) s = execBarrive rd rs1 s := rfl
theorem exec_barwait {rs1} {rs2} (s : State) : exec (.barwait rs1 rs2) s = execBarwait rs1 rs2 s := rfl
theorem exec_barsync {rd} {rs1} (s : State) : exec (.barsync rd rs1) s = execBarsync rd rs1 s := rfl
theorem exec_semv {rs1} {rs2} (s : State) : exec (.semv rs1 rs2) s = execSemv rs1 rs2 s := rfl
theorem exec_semp {rd} {rs1} {rs2} (s : State) : exec (.semp rd rs1 rs2) s = execSemp rd rs1 rs2 s := rfl
theorem exec_msnd {rd} {rs1} {rs2} (s : State) : exec (.msnd rd rs1 rs2) s = execMsnd rd rs1 rs2 s := rfl
theorem exec_mrcv {rd} {rs1} {rs2} (s : State) : exec (.mrcv rd rs1 rs2) s = execMrcv rd rs1 rs2 s := rfl
theorem exec_mpoll {rd} {rs1} (s : State) : exec (.mpoll rd rs1) s = execMpoll rd rs1 s := rfl
theorem exec_messageArrive {core} {mbox} {nb} {d} (s : State) : exec (.messageArrive core mbox nb d) s = execMessageArrive core mbox nb d s := rfl
theorem exec_gsig {rd} {rs1} {rs2} (s : State) : exec (.gsig rd rs1 rs2) s = execGsig rd rs1 rs2 s := rfl
theorem exec_gwait {rd} {rs1} {rs2} (s : State) : exec (.gwait rd rs1 rs2) s = execGwait rd rs1 rs2 s := rfl
theorem exec_gpay {rd} {rs1} {rs2} (s : State) : exec (.gpay rd rs1 rs2) s = execGpay rd rs1 rs2 s := rfl
theorem exec_gtake {rd} {rs1} {rs2} (s : State) : exec (.gtake rd rs1 rs2) s = execGtake rd rs1 rs2 s := rfl
theorem exec_gopen {rs1} (s : State) : exec (.gopen rs1) s = execGopen rs1 s := rfl
theorem exec_gclose {rs1} (s : State) : exec (.gclose rs1) s = execGclose rs1 s := rfl
theorem exec_gateRequestArrive {r} (s : State) : exec (.gateRequestArrive r) s = execGateRequestArrive r s := rfl
theorem exec_gateTokenAccrue {gate} {entry} (s : State) : exec (.gateTokenAccrue gate entry) s = execGateTokenAccrue gate entry s := rfl
theorem exec_spawn {rd} {rs1} {rs2} (s : State) : exec (.spawn rd rs1 rs2) s = execSpawn rd rs1 rs2 s := rfl
theorem exec_touch {rd} {rs1} (s : State) : exec (.touch rd rs1) s = execTouch rd rs1 s := rfl
theorem exec_tpoll {rd} {rs1} (s : State) : exec (.tpoll rd rs1) s = execTpoll rd rs1 s := rfl
theorem exec_tany {rd} {rs1} {rs2} (s : State) : exec (.tany rd rs1 rs2) s = execTany rd rs1 rs2 s := rfl
theorem exec_promise {rd} (s : State) : exec (.promise rd) s = execPromise rd s := rfl
theorem exec_resolve {rd} {rs1} {rs2} (s : State) : exec (.resolve rd rs1 rs2) s = execResolve rd rs1 rs2 s := rfl
theorem exec_cancel {rd} {rs1} (s : State) : exec (.cancel rd rs1) s = execCancel rd rs1 s := rfl
theorem exec_poison {rd} {rs1} {rs2} (s : State) : exec (.poison rd rs1 rs2) s = execPoison rd rs1 rs2 s := rfl
theorem exec_texit {rs1} (s : State) : exec (.texit rs1) s = execTexit rs1 s := rfl
theorem exec_tyield (s : State) : exec (.tyield) s = execTyield s := rfl
theorem exec_frel {rs1} (s : State) : exec (.frel rs1) s = execFrel rs1 s := rfl
theorem exec_homeRequestArrive {r} (s : State) : exec (.homeRequestArrive r) s = execHomeRequestArrive r s := rfl
theorem exec_stdef {rs1} {rs2} (s : State) : exec (.stdef rs1 rs2) s = execStdef rs1 rs2 s := rfl
theorem exec_starm {rd} {rs1} {rs2} (s : State) : exec (.starm rd rs1 rs2) s = execStarm rd rs1 rs2 s := rfl
theorem exec_stwait {rd} {rs1} {rs2} (s : State) : exec (.stwait rd rs1 rs2) s = execStwait rd rs1 rs2 s := rfl
theorem exec_stgen {rd} {rs1} (s : State) : exec (.stgen rd rs1) s = execStgen rd rs1 s := rfl
theorem exec_hoist {rd} {rs1} (s : State) : exec (.hoist rd rs1) s = execHoist rd rs1 s := rfl
theorem exec_cpyin {rd} {rs1} {rs2} (s : State) : exec (.cpyin rd rs1 rs2) s = execCpyin rd rs1 rs2 s := rfl
theorem exec_cpyout {rd} {rs1} {rs2} (s : State) : exec (.cpyout rd rs1 rs2) s = execCpyout rd rs1 rs2 s := rfl
theorem exec_cpyx {rd} {rs1} {rs2} (s : State) : exec (.cpyx rd rs1 rs2) s = execCpyx rd rs1 rs2 s := rfl
theorem exec_cpygath {rd} {rs1} {rs2} (s : State) : exec (.cpygath rd rs1 rs2) s = execCpygath rd rs1 rs2 s := rfl
theorem exec_cpybc {rd} {rs1} {rs2} (s : State) : exec (.cpybc rd rs1 rs2) s = execCpybc rd rs1 rs2 s := rfl
theorem exec_cpwait {rd} {rs1} (s : State) : exec (.cpwait rd rs1) s = execCpwait rd rs1 s := rfl
theorem exec_cpqry {rd} {rs1} (s : State) : exec (.cpqry rd rs1) s = execCpqry rd rs1 s := rfl
theorem exec_cpcan {rd} {rs1} (s : State) : exec (.cpcan rd rs1) s = execCpcan rd rs1 s := rfl
theorem exec_copyChannelStart {cluster} (s : State) : exec (.copyChannelStart cluster) s = execCopyChannelStart cluster s := rfl
theorem exec_copyBeatWrite {cluster} {b} (s : State) : exec (.copyBeatWrite cluster b) s = execCopyBeatWrite cluster b s := rfl
theorem exec_mma {m} (s : State) : exec (.mma m) s = execMma m s := rfl
theorem exec_mms {m} (s : State) : exec (.mms m) s = execMms m s := rfl
theorem exec_mmz {m} (s : State) : exec (.mmz m) s = execMmz m s := rfl
theorem exec_mmak {m} (s : State) : exec (.mmak m) s = execMmak m s := rfl
theorem exec_mmag {m} (s : State) : exec (.mmag m) s = execMmag m s := rfl
theorem exec_mld {md} {pad} {rs2} (s : State) : exec (.mld md pad rs2) s = execMld md pad rs2 s := rfl
theorem exec_mst {md} {pad} (s : State) : exec (.mst md pad) s = execMst md pad s := rfl
theorem exec_mzero {md} {rs1} (s : State) : exec (.mzero md rs1) s = execMzero md rs1 s := rfl
theorem exec_mcopy {md} {ms} (s : State) : exec (.mcopy md ms) s = execMcopy md ms s := rfl
theorem exec_mtrn {md} {ms} (s : State) : exec (.mtrn md ms) s = execMtrn md ms s := rfl
theorem exec_mcommit {rd} (s : State) : exec (.mcommit rd) s = execMcommit rd s := rfl
theorem exec_mwait {rs1} (s : State) : exec (.mwait rs1) s = execMwait rs1 s := rfl
theorem exec_mclrf {mt} {rs2} (s : State) : exec (.mclrf mt rs2) s = execMclrf mt rs2 s := rfl
theorem exec_mstat {rd} {mt} (s : State) : exec (.mstat rd mt) s = execMstat rd mt s := rfl
theorem exec_fmtw {rs1} {rs2} (s : State) : exec (.fmtw rs1 rs2) s = execFmtw rs1 rs2 s := rfl
theorem exec_fmtr {rd} {rs1} (s : State) : exec (.fmtr rd rs1) s = execFmtr rd rs1 s := rfl
theorem exec_fmtwViewApply {pair} {ctx} {id} {entry} (s : State) : exec (.fmtwViewApply pair ctx id entry) s = execFmtwViewApply pair ctx id entry s := rfl
theorem exec_tileOpStart {pair} (s : State) : exec (.tileOpStart pair) s = execTileOpStart pair s := rfl
theorem exec_kStepComplete {pair} {op} (s : State) : exec (.kStepComplete pair op) s = execKStepComplete pair op s := rfl
theorem exec_operandFault {pair} {op} (s : State) : exec (.operandFault pair op) s = execOperandFault pair op s := rfl
theorem exec_tileOpComplete {pair} {op} (s : State) : exec (.tileOpComplete pair op) s = execTileOpComplete pair op s := rfl
theorem exec_gangRendezvous {cluster} {gid} (s : State) : exec (.gangRendezvous cluster gid) s = execGangRendezvous cluster gid s := rfl
theorem exec_tileEccError {pair} {tile} {corrected} (s : State) : exec (.tileEccError pair tile corrected) s = execTileEccError pair tile corrected s := rfl
theorem exec_vadd {td} {ta} {tb} {xr} (s : State) : exec (.vadd td ta tb xr) s = execVadd td ta tb xr s := rfl
theorem exec_vsub {td} {ta} {tb} {xr} (s : State) : exec (.vsub td ta tb xr) s = execVsub td ta tb xr s := rfl
theorem exec_vmul {td} {ta} {tb} {xr} (s : State) : exec (.vmul td ta tb xr) s = execVmul td ta tb xr s := rfl
theorem exec_vdiv {td} {ta} {tb} {xr} (s : State) : exec (.vdiv td ta tb xr) s = execVdiv td ta tb xr s := rfl
theorem exec_vfma {td} {ta} {tb} {xr} (s : State) : exec (.vfma td ta tb xr) s = execVfma td ta tb xr s := rfl
theorem exec_vmin {td} {ta} {tb} {xr} (s : State) : exec (.vmin td ta tb xr) s = execVmin td ta tb xr s := rfl
theorem exec_vmax {td} {ta} {tb} {xr} (s : State) : exec (.vmax td ta tb xr) s = execVmax td ta tb xr s := rfl
theorem exec_vsel {td} {ta} {tb} {xr} (s : State) : exec (.vsel td ta tb xr) s = execVsel td ta tb xr s := rfl
theorem exec_vcmpEq {kd} {ta} {tb} {xr} (s : State) : exec (.vcmpEq kd ta tb xr) s = execVcmpEq kd ta tb xr s := rfl
theorem exec_vcmpLt {kd} {ta} {tb} {xr} (s : State) : exec (.vcmpLt kd ta tb xr) s = execVcmpLt kd ta tb xr s := rfl
theorem exec_vcmpLe {kd} {ta} {tb} {xr} (s : State) : exec (.vcmpLe kd ta tb xr) s = execVcmpLe kd ta tb xr s := rfl
theorem exec_vperm {td} {ta} {tb} {xr} (s : State) : exec (.vperm td ta tb xr) s = execVperm td ta tb xr s := rfl
theorem exec_vmov {td} {ta} {xr} (s : State) : exec (.vmov td ta xr) s = execVmov td ta xr s := rfl
theorem exec_vneg {td} {ta} {xr} (s : State) : exec (.vneg td ta xr) s = execVneg td ta xr s := rfl
theorem exec_vabs {td} {ta} {xr} (s : State) : exec (.vabs td ta xr) s = execVabs td ta xr s := rfl
theorem exec_vsqrt {td} {ta} {xr} (s : State) : exec (.vsqrt td ta xr) s = execVsqrt td ta xr s := rfl
theorem exec_vrsq {td} {ta} {xr} (s : State) : exec (.vrsq td ta xr) s = execVrsq td ta xr s := rfl
theorem exec_vrcp {td} {ta} {xr} (s : State) : exec (.vrcp td ta xr) s = execVrcp td ta xr s := rfl
theorem exec_vexp2 {td} {ta} {xr} (s : State) : exec (.vexp2 td ta xr) s = execVexp2 td ta xr s := rfl
theorem exec_vlog2 {td} {ta} {xr} (s : State) : exec (.vlog2 td ta xr) s = execVlog2 td ta xr s := rfl
theorem exec_vtanh {td} {ta} {xr} (s : State) : exec (.vtanh td ta xr) s = execVtanh td ta xr s := rfl
theorem exec_viadd {td} {ta} {tb} {xr} (s : State) : exec (.viadd td ta tb xr) s = execViadd td ta tb xr s := rfl
theorem exec_visub {td} {ta} {tb} {xr} (s : State) : exec (.visub td ta tb xr) s = execVisub td ta tb xr s := rfl
theorem exec_vimul {td} {ta} {tb} {xr} (s : State) : exec (.vimul td ta tb xr) s = execVimul td ta tb xr s := rfl
theorem exec_vand {td} {ta} {tb} {xr} (s : State) : exec (.vand td ta tb xr) s = execVand td ta tb xr s := rfl
theorem exec_vor {td} {ta} {tb} {xr} (s : State) : exec (.vor td ta tb xr) s = execVor td ta tb xr s := rfl
theorem exec_vxor {td} {ta} {tb} {xr} (s : State) : exec (.vxor td ta tb xr) s = execVxor td ta tb xr s := rfl
theorem exec_vshl {td} {ta} {tb} {xr} (s : State) : exec (.vshl td ta tb xr) s = execVshl td ta tb xr s := rfl
theorem exec_vsrl {td} {ta} {tb} {xr} (s : State) : exec (.vsrl td ta tb xr) s = execVsrl td ta tb xr s := rfl
theorem exec_vsra {td} {ta} {tb} {xr} (s : State) : exec (.vsra td ta tb xr) s = execVsra td ta tb xr s := rfl
theorem exec_vimin {td} {ta} {tb} {xr} (s : State) : exec (.vimin td ta tb xr) s = execVimin td ta tb xr s := rfl
theorem exec_vimax {td} {ta} {tb} {xr} (s : State) : exec (.vimax td ta tb xr) s = execVimax td ta tb xr s := rfl
theorem exec_vadds {tds} {rs} {xr} (s : State) : exec (.vadds tds rs xr) s = execVadds tds rs xr s := rfl
theorem exec_vsubs {tds} {rs} {xr} (s : State) : exec (.vsubs tds rs xr) s = execVsubs tds rs xr s := rfl
theorem exec_vmuls {tds} {rs} {xr} (s : State) : exec (.vmuls tds rs xr) s = execVmuls tds rs xr s := rfl
theorem exec_vmaxs {tds} {rs} {xr} (s : State) : exec (.vmaxs tds rs xr) s = execVmaxs tds rs xr s := rfl
theorem exec_vmins {tds} {rs} {xr} (s : State) : exec (.vmins tds rs xr) s = execVmins tds rs xr s := rfl
theorem exec_vbcast {tds} {rs} {xr} (s : State) : exec (.vbcast tds rs xr) s = execVbcast tds rs xr s := rfl
theorem exec_vext {rs} {tds} {xr} (s : State) : exec (.vext rs tds xr) s = execVext rs tds xr s := rfl
theorem exec_vins {tds} {rs} {xr} (s : State) : exec (.vins tds rs xr) s = execVins tds rs xr s := rfl
theorem exec_viota {tds} {rs} {xr} (s : State) : exec (.viota tds rs xr) s = execViota tds rs xr s := rfl
theorem exec_vrsum {rs} {tds} {xr} (s : State) : exec (.vrsum rs tds xr) s = execVrsum rs tds xr s := rfl
theorem exec_vrmax {rs} {tds} {xr} (s : State) : exec (.vrmax rs tds xr) s = execVrmax rs tds xr s := rfl
theorem exec_vrmin {rs} {tds} {xr} (s : State) : exec (.vrmin rs tds xr) s = execVrmin rs tds xr s := rfl
theorem exec_vcvt {td} {tds} {p} {xr} (s : State) : exec (.vcvt td tds p xr) s = execVcvt td tds p xr s := rfl
theorem exec_vqmx {rs} {tds} {scope} {xr} (s : State) : exec (.vqmx rs tds scope xr) s = execVqmx rs tds scope xr s := rfl
theorem exec_vld {td} {rs1} {off} {xr} (s : State) : exec (.vld td rs1 off xr) s = execVld td rs1 off xr s := rfl
theorem exec_vst {td} {rs1} {off} {xr} (s : State) : exec (.vst td rs1 off xr) s = execVst td rs1 off xr s := rfl
theorem exec_vpfx {p} (s : State) : exec (.vpfx p) s = execVpfx p s := rfl
theorem exec_lift {rd} {rs1} {rs2} (s : State) : exec (.lift rd rs1 rs2) s = execLift rd rs1 rs2 s := rfl
theorem exec_lret {rs1} (s : State) : exec (.lret rs1) s = execLret rs1 s := rfl
theorem exec_ltag {r} {rs2} (s : State) : exec (.ltag r rs2) s = execLtag r rs2 s := rfl
theorem exec_lred {md} {ms} {rs2} (s : State) : exec (.lred md ms rs2) s = execLred md ms rs2 s := rfl
theorem exec_laxis {rd} {rs1} (s : State) : exec (.laxis rd rs1) s = execLaxis rd rs1 s := rfl
theorem exec_lbr {k} {imm} (s : State) : exec (.lbr k imm) s = execLbr k imm s := rfl
theorem exec_illegalInstruction {word} (s : State) : exec (.illegalInstruction word) s = execIllegalInstruction word s := rfl
theorem exec_baseLoad {op} {rd} {rs1} {imm} (s : State) : exec (.baseLoad op rd rs1 imm) s = execBaseLoad op rd rs1 imm s := rfl
theorem exec_baseStore {op} {rs1} {rs2} {imm} (s : State) : exec (.baseStore op rs1 rs2 imm) s = execBaseStore op rs1 rs2 imm s := rfl
theorem exec_amo {op} {d} {aq} {rl} {rd} {rs1} {rs2} (s : State) : exec (.amo op d aq rl rd rs1 rs2) s = execAmo op d aq rl rd rs1 rs2 s := rfl
theorem exec_lr {d} {aq} {rl} {rd} {rs1} (s : State) : exec (.lr d aq rl rd rs1) s = execLr d aq rl rd rs1 s := rfl
theorem exec_sc {d} {aq} {rl} {rd} {rs1} {rs2} (s : State) : exec (.sc d aq rl rd rs1 rs2) s = execSc d aq rl rd rs1 rs2 s := rfl
theorem exec_fence {fm} {pred} {succ} {rs1} {rd} (s : State) : exec (.fence fm pred succ rs1 rd) s = execFence fm pred succ rs1 rd s := rfl
theorem exec_fenceI {imm} {rs1} {rd} (s : State) : exec (.fenceI imm rs1 rd) s = execFenceI imm rs1 rd s := rfl
theorem exec_ecall (s : State) : exec (.ecall) s = execEcall s := rfl
theorem exec_ebreak (s : State) : exec (.ebreak) s = execEbreak s := rfl
theorem exec_wfi (s : State) : exec (.wfi) s = execWfi s := rfl
theorem exec_sret (s : State) : exec (.sret) s = execSret s := rfl
theorem exec_mret (s : State) : exec (.mret) s = execMret s := rfl
theorem exec_sfenceVma {rs1} {rs2} (s : State) : exec (.sfenceVma rs1 rs2) s = execSfenceVma rs1 rs2 s := rfl
theorem exec_csrAccess {csr} {f} (s : State) : exec (.csrAccess csr f) s = execCsrAccess csr f s := rfl
theorem exec_integerOp {op} (s : State) : exec (.integerOp op) s = execIntegerOp op s := rfl
theorem exec_fdivFsqrt {op} (s : State) : exec (.fdivFsqrt op) s = execFdivFsqrt op s := rfl
theorem exec_hartResume {hart} {r} (s : State) : exec (.hartResume hart r) s = execHartResume hart r s := rfl
theorem exec_storeDrainDone {hart} (s : State) : exec (.storeDrainDone hart) s = execStoreDrainDone hart s := rfl
theorem exec_interruptTake {hart} (s : State) : exec (.interruptTake hart) s = execInterruptTake hart s := rfl
theorem exec_stcolWrite {f} (s : State) : exec (.stcolWrite f) s = execStcolWrite f s := rfl
theorem exec_vrmWrite {f} (s : State) : exec (.vrmWrite f) s = execVrmWrite f s := rfl
theorem exec_mfmtWrite {n} {f} (s : State) : exec (.mfmtWrite n f) s = execMfmtWrite n f s := rfl
theorem exec_mgangWrite {f} (s : State) : exec (.mgangWrite f) s = execMgangWrite f s := rfl
theorem exec_satpWrite {f} (s : State) : exec (.satpWrite f) s = execSatpWrite f s := rfl
theorem exec_errinjLink {arm} (s : State) : exec (.errinjLink arm) s = execErrinjLink arm s := rfl
theorem exec_errinjCore {arm} (s : State) : exec (.errinjCore arm) s = execErrinjCore arm s := rfl
theorem exec_errinjCopy {arm} (s : State) : exec (.errinjCopy arm) s = execErrinjCopy arm s := rfl
theorem exec_errinjHbm {arm} (s : State) : exec (.errinjHbm arm) s = execErrinjHbm arm s := rfl
theorem exec_errinjVault {arm} (s : State) : exec (.errinjVault arm) s = execErrinjVault arm s := rfl
theorem exec_errinjPad {arm} (s : State) : exec (.errinjPad arm) s = execErrinjPad arm s := rfl
theorem exec_errinjTmem {arm} (s : State) : exec (.errinjTmem arm) s = execErrinjTmem arm s := rfl
theorem exec_errinjMpad {arm} (s : State) : exec (.errinjMpad arm) s = execErrinjMpad arm s := rfl
theorem exec_scrubctlVault (s : State) : exec (.scrubctlVault) s = execScrubctlVault s := rfl
theorem exec_scrubctlTiles (s : State) : exec (.scrubctlTiles) s = execScrubctlTiles s := rfl
theorem exec_scrubctlPad (s : State) : exec (.scrubctlPad) s = execScrubctlPad s := rfl
theorem exec_supervisorScrubDone {cluster} (s : State) : exec (.supervisorScrubDone cluster) s = execSupervisorScrubDone cluster s := rfl
theorem exec_registerWrite {r} {v} (s : State) : exec (.registerWrite r v) s = execRegisterWrite r v s := rfl
theorem exec_fwSetAreas (s : State) : exec (.fwSetAreas) s = execFwSetAreas s := rfl
theorem exec_fwRetryHeld (s : State) : exec (.fwRetryHeld) s = execFwRetryHeld s := rfl
theorem exec_fwRejectHeld (s : State) : exec (.fwRejectHeld) s = execFwRejectHeld s := rfl
theorem exec_fwReadReports (s : State) : exec (.fwReadReports) s = execFwReadReports s := rfl
theorem exec_fwEndHeldTask (s : State) : exec (.fwEndHeldTask) s = execFwEndHeldTask s := rfl
theorem exec_fwRequeueLost (s : State) : exec (.fwRequeueLost) s = execFwRequeueLost s := rfl
theorem exec_fwFaultLost (s : State) : exec (.fwFaultLost) s = execFwFaultLost s := rfl
theorem exec_fwUnknownCall (s : State) : exec (.fwUnknownCall) s = execFwUnknownCall s := rfl
theorem exec_notifyWrite {fn} {slot} {tail} (s : State) : exec (.notifyWrite fn slot tail) s = execNotifyWrite fn slot tail s := rfl
theorem exec_launchAccept {slot} (s : State) : exec (.launchAccept slot) s = execLaunchAccept slot s := rfl
theorem exec_launchStart {launch} (s : State) : exec (.launchStart launch) s = execLaunchStart launch s := rfl
theorem exec_completionPost {launch} (s : State) : exec (.completionPost launch) s = execCompletionPost launch s := rfl
theorem exec_launchStall {fn} (s : State) : exec (.launchStall fn) s = execLaunchStall fn s := rfl
theorem exec_taskIntake {task} (s : State) : exec (.taskIntake task) s = execTaskIntake task s := rfl
theorem exec_taskRingRefill {cluster} (s : State) : exec (.taskRingRefill cluster) s = execTaskRingRefill cluster s := rfl
theorem exec_prefetchArm {task} {arg} (s : State) : exec (.prefetchArm task arg) s = execPrefetchArm task arg s := rfl
theorem exec_taskPrepared {task} (s : State) : exec (.taskPrepared task) s = execTaskPrepared task s := rfl
theorem exec_prefetchStop {task} (s : State) : exec (.prefetchStop task) s = execPrefetchStop task s := rfl
theorem exec_taskDispatch {hart} (s : State) : exec (.taskDispatch hart) s = execTaskDispatch hart s := rfl
theorem exec_agePromotion {task} (s : State) : exec (.agePromotion task) s = execAgePromotion task s := rfl
theorem exec_tileReservation {task} (s : State) : exec (.tileReservation task) s = execTileReservation task s := rfl
theorem exec_taskEndArrive {task} {how} (s : State) : exec (.taskEndArrive task how) s = execTaskEndArrive task how s := rfl
theorem exec_taskWake {task} {outcome} (s : State) : exec (.taskWake task outcome) s = execTaskWake task outcome s := rfl
theorem exec_homeChipLostTimeout {chip} (s : State) : exec (.homeChipLostTimeout chip) s = execHomeChipLostTimeout chip s := rfl
theorem exec_remoteReplyTimeout {hart} (s : State) : exec (.remoteReplyTimeout hart) s = execRemoteReplyTimeout hart s := rfl
theorem exec_stoppedRetry {hart} (s : State) : exec (.stoppedRetry hart) s = execStoppedRetry hart s := rfl
theorem exec_coreLoss {core} (s : State) : exec (.coreLoss core) s = execCoreLoss core s := rfl
theorem exec_reportPost {ring} (s : State) : exec (.reportPost ring) s = execReportPost ring s := rfl
theorem exec_ringAck {ring} {seq} (s : State) : exec (.ringAck ring seq) s = execRingAck ring seq s := rfl
theorem exec_windrowDrainStart {cluster} (s : State) : exec (.windrowDrainStart cluster) s = execWindrowDrainStart cluster s := rfl
theorem exec_windrowDrainTimeout {cluster} (s : State) : exec (.windrowDrainTimeout cluster) s = execWindrowDrainTimeout cluster s := rfl
theorem exec_windrowScanEnd {cluster} {pass} (s : State) : exec (.windrowScanEnd cluster pass) s = execWindrowScanEnd cluster pass s := rfl
theorem exec_flitCrcError {port} (s : State) : exec (.flitCrcError port) s = execFlitCrcError port s := rfl
theorem exec_linkPortLost {port} (s : State) : exec (.linkPortLost port) s = execLinkPortLost port s := rfl
theorem exec_ctxStopSavePreempt {part} (s : State) : exec (.ctxStopSavePreempt part) s = execCtxStopSavePreempt part s := rfl
theorem exec_ctxStopSaveMigrate {part} (s : State) : exec (.ctxStopSaveMigrate part) s = execCtxStopSaveMigrate part s := rfl
theorem exec_ctxStopSaveDump {part} (s : State) : exec (.ctxStopSaveDump part) s = execCtxStopSaveDump part s := rfl
theorem exec_ctxStop {part} (s : State) : exec (.ctxStop part) s = execCtxStop part s := rfl
theorem exec_ctxResumeInPlace {part} (s : State) : exec (.ctxResumeInPlace part) s = execCtxResumeInPlace part s := rfl
theorem exec_ctxResumeSave {part} (s : State) : exec (.ctxResumeSave part) s = execCtxResumeSave part s := rfl
theorem exec_ctxRestore {part} (s : State) : exec (.ctxRestore part) s = execCtxRestore part s := rfl
theorem exec_ctxTeardown {part} (s : State) : exec (.ctxTeardown part) s = execCtxTeardown part s := rfl
theorem exec_ctxUnknownCommand {part} {code} (s : State) : exec (.ctxUnknownCommand part code) s = execCtxUnknownCommand part code s := rfl
theorem exec_engineQuiesceDone {part} (s : State) : exec (.engineQuiesceDone part) s = execEngineQuiesceDone part s := rfl
theorem exec_stopDeliveryDone {part} (s : State) : exec (.stopDeliveryDone part) s = execStopDeliveryDone part s := rfl
theorem exec_baleWriteDone {part} (s : State) : exec (.baleWriteDone part) s = execBaleWriteDone part s := rfl
theorem exec_saveIncomplete {part} (s : State) : exec (.saveIncomplete part) s = execSaveIncomplete part s := rfl
theorem exec_scrubDone {part} (s : State) : exec (.scrubDone part) s = execScrubDone part s := rfl
theorem exec_gateSourceFree {gate} (s : State) : exec (.gateSourceFree gate) s = execGateSourceFree gate s := rfl
theorem exec_hcmdCreatePartition (s : State) : exec (.hcmdCreatePartition) s = execHcmdCreatePartition s := rfl
theorem exec_hcmdAssignClusters (s : State) : exec (.hcmdAssignClusters) s = execHcmdAssignClusters s := rfl
theorem exec_hcmdAssignVaults (s : State) : exec (.hcmdAssignVaults) s = execHcmdAssignVaults s := rfl
theorem exec_hcmdSetStage2Root (s : State) : exec (.hcmdSetStage2Root) s = execHcmdSetStage2Root s := rfl
theorem exec_hcmdInvalidateStage2 (s : State) : exec (.hcmdInvalidateStage2) s = execHcmdInvalidateStage2 s := rfl
theorem exec_hcmdLoadKey (s : State) : exec (.hcmdLoadKey) s = execHcmdLoadKey s := rfl
theorem exec_hcmdZeroiseKey (s : State) : exec (.hcmdZeroiseKey) s = execHcmdZeroiseKey s := rfl
theorem exec_hcmdWritePermissionTable (s : State) : exec (.hcmdWritePermissionTable) s = execHcmdWritePermissionTable s := rfl
theorem exec_hcmdCreateGate (s : State) : exec (.hcmdCreateGate) s = execHcmdCreateGate s := rfl
theorem exec_hcmdSetAccessEntry (s : State) : exec (.hcmdSetAccessEntry) s = execHcmdSetAccessEntry s := rfl
theorem exec_hcmdFreeGate (s : State) : exec (.hcmdFreeGate) s = execHcmdFreeGate s := rfl
theorem exec_hcmdCreateQueue {fn} (s : State) : exec (.hcmdCreateQueue fn) s = execHcmdCreateQueue fn s := rfl
theorem exec_hcmdDeleteQueue {fn} (s : State) : exec (.hcmdDeleteQueue fn) s = execHcmdDeleteQueue fn s := rfl
theorem exec_hcmdSetRingWeight (s : State) : exec (.hcmdSetRingWeight) s = execHcmdSetRingWeight s := rfl
theorem exec_hcmdDirtyTrackingOn (s : State) : exec (.hcmdDirtyTrackingOn) s = execHcmdDirtyTrackingOn s := rfl
theorem exec_hcmdDirtyReport (s : State) : exec (.hcmdDirtyReport) s = execHcmdDirtyReport s := rfl
theorem exec_hcmdDirtyTrackingOff (s : State) : exec (.hcmdDirtyTrackingOff) s = execHcmdDirtyTrackingOff s := rfl
theorem exec_hcmdReleaseHeldLaunch (s : State) : exec (.hcmdReleaseHeldLaunch) s = execHcmdReleaseHeldLaunch s := rfl
theorem exec_hcmdDiscardHeldLaunch (s : State) : exec (.hcmdDiscardHeldLaunch) s = execHcmdDiscardHeldLaunch s := rfl
theorem exec_hcmdUnknown {code} (s : State) : exec (.hcmdUnknown code) s = execHcmdUnknown code s := rfl
theorem exec_profileWind {v} (s : State) : exec (.profileWind v) s = execProfileWind v s := rfl
theorem exec_profilePower {v} (s : State) : exec (.profilePower v) s = execProfilePower v s := rfl
theorem exec_forecastUpdate {cluster} {v} (s : State) : exec (.forecastUpdate cluster v) s = execForecastUpdate cluster v s := rfl
theorem exec_functionLevelReset {fn} (s : State) : exec (.functionLevelReset fn) s = execFunctionLevelReset fn s := rfl
theorem exec_atsInvalidationRequest {fn} {pasid} {addr} (s : State) : exec (.atsInvalidationRequest fn pasid addr) s = execAtsInvalidationRequest fn pasid addr s := rfl
theorem exec_bringupDone {steps} (s : State) : exec (.bringupDone steps) s = execBringupDone steps s := rfl
theorem exec_deviceReset (s : State) : exec (.deviceReset) s = execDeviceReset s := rfl
theorem exec_mladjaDLoss (s : State) : exec (.mladjaDLoss) s = execMladjaDLoss s := rfl
theorem exec_readyFiguresExchange (s : State) : exec (.readyFiguresExchange) s = execReadyFiguresExchange s := rfl

end Sys2Proof.Machine
end

