-- ==== Sys2Proof/Laws/Base.lean ====
section
/-! SUPPORT. How the base words run: their effect, then completion or the trap it names. -/

namespace Sys2Proof.Machine

/-- A word that writes a register and completes. -/
theorem State.wrote_eq (s : State) (w : s.me.waiting = none) (rd : Reg) (v : Word) :
    (s.setX rd v).complete = s.wrote rd v := by
  rw [State.complete_starts _ (by simpa using w)]
  simp only [State.wrote, State.withMe, State.setX, State.modMe, State.modHart, State.setHart, Hart.after, State.me,
    State.hart, Table.get_put_same, Table.put_put]
  rfl

/-- A taken transfer. -/
theorem State.went_eq (s : State) (w : s.me.waiting = none) (pc : Word) (rd : Reg) (v : Word) :
    ((s.jumpTo pc).setX rd v).retire = s.went pc true rd v := by
  rw [State.retire_starts _ (by simpa [State.jumpTo] using w)]
  simp only [State.went, State.withMe, State.setX, State.jumpTo, State.modMe, State.modHart, State.setHart, Hart.after,
    State.me, State.hart, Table.get_put_same, Table.put_put]
  rfl

theorem State.jumped_eq (s : State) (w : s.me.waiting = none) (pc : Word) : (s.jumpTo pc).retire = s.went pc true 0 0 := by
  rw [State.retire_starts _ (by simpa [State.jumpTo] using w)]
  simp only [State.went, State.withMe, State.jumpTo, State.modMe, State.modHart, State.setHart, Hart.after,
    State.me, State.hart, Table.get_put_same, Table.put_put]
  rfl

/-- A branch that is not taken. -/
theorem State.passed_eq (s : State) (w : s.me.waiting = none) (pc : Word) : (s.setPc pc).retire = s.went pc false 0 0 := by
  rw [State.retire_starts _ (by simpa [State.setPc] using w)]
  simp only [State.went, State.withMe, State.setPc, State.modMe, State.modHart, State.setHart, Hart.after,
    State.me, State.hart, Table.get_put_same, Table.put_put]
  rfl

/-- A hart in no wait has left nothing anywhere. -/
theorem State.withdrawWait_none (s : State) (h : Nat) (w : (s.hart h).waiting = none) : s.withdrawWait h = s := by
  unfold State.withdrawWait
  rw [w]

/-- A trap of an instruction that was in no wait. -/
theorem State.finish_trap (s : State) (w : s.me.waiting = none) (i : Instr) (cause sub : Nat) (tval : Word) :
    s.finishExc i (.trap cause sub tval) = s.takeTrap s.cur false cause sub tval := by
  unfold State.finishExc
  simp only []
  rw [State.countRemote_starts s s.cur w, State.withdrawWait_none s s.cur w]
  rfl

theorem State.finish_illegal (s : State) (w : s.me.waiting = none) (i : Instr) :
    s.finishExc i .illegal = s.takeTrap s.cur false 2 0 (wordOfInstr i) := by
  unfold State.finishExc
  simp only []
  rw [State.countRemote_starts s s.cur w, State.withdrawWait_none s s.cur w]
  rfl

theorem exec_intOpen {op : IntOp} {s t : State} (j : intOpJumps op = false) (h : s.intEffect op = .ok t) :
    exec (.integerOp op) s = .next t.complete := by
  rw [exec_integerOp, execIntegerOp, j]
  exact runOpen_ok h

theorem exec_intOpen_illegal {op : IntOp} {s : State} (w : s.me.waiting = none) (j : intOpJumps op = false)
    (h : s.intEffect op = .error .illegal) :
    exec (.integerOp op) s = .next (s.takeTrap s.cur false 2 0 (wordOfInstr (.integerOp op))) := by
  rw [exec_integerOp, execIntegerOp, j, ← State.finish_illegal s w]
  exact runOpen_error h (by simp)

theorem exec_intJump {op : IntOp} {s t : State} (j : intOpJumps op = true) (h : s.intEffect op = .ok t) :
    exec (.integerOp op) s = .next t.retire := by
  rw [exec_integerOp, execIntegerOp, j]
  exact runJump_ok h

theorem exec_intJump_trap {op : IntOp} {s : State} {cause sub : Nat} {tval : Word} (w : s.me.waiting = none)
    (j : intOpJumps op = true) (h : s.intEffect op = .error (.trap cause sub tval)) :
    exec (.integerOp op) s = .next (s.takeTrap s.cur false cause sub tval) := by
  rw [exec_integerOp, execIntegerOp, j, ← State.finish_trap s w (.integerOp op)]
  exact runJump_error h (by simp)

theorem State.needFs_on (s : State) (h : fsOf s.me.sys.mstatus ≠ 0) : s.needFs = .ok () := by simp [State.needFs, h]
theorem State.needFs_off (s : State) (h : fsOf s.me.sys.mstatus = 0) : s.needFs = .error .illegal := by
  simp [State.needFs, h]

theorem State.transfer_aligned (s : State) (a : Word) (h : a.toNat % 4 = 0) : s.transfer a = .ok (s.jumpTo a) := by
  simp only [State.transfer, h, ne_eq, not_true_eq_false, if_false]

theorem State.transfer_misaligned (s : State) (a : Word) (h : a.toNat % 4 ≠ 0) :
    s.transfer a = .error (.trap 0 0 a) := by
  simp only [State.transfer, h, ne_eq, not_false_eq_true, if_true]

@[simp] theorem State.countClamp_harts (s : State) (n : Nat) : (s.countClamp n).harts = s.harts := by
  unfold State.countClamp
  split
  · split <;> simp
  · rfl

@[simp] theorem State.countClamp_cur (s : State) (n : Nat) : (s.countClamp n).cur = s.cur := by
  unfold State.countClamp
  split
  · split <;> simp
  · rfl

@[simp] theorem State.countClamp_mem (s : State) (n : Nat) : (s.countClamp n).mem = s.mem := by
  unfold State.countClamp
  split
  · split <;> simp
  · rfl

@[simp] theorem State.countClamp_me (s : State) (n : Nat) : (s.countClamp n).me = s.me :=
  State.me_congr (s.countClamp_harts n) (s.countClamp_cur n)

@[simp] theorem State.complete_mem (s : State) : s.complete.mem = s.mem := by
  unfold State.complete State.countRemote
  split
  · split <;> simp
  · simp

theorem State.complete_byte (s : State) (a : Nat) : s.complete.byte a = s.byte a := State.byte_congr s.complete_mem a

end Sys2Proof.Machine
end

