-- ==== Sys2Proof/Laws/Bits.lean ====
section
/-! SUPPORT. What a field of a word reads as, and what writing one leaves. -/

namespace Sys2Proof.Machine

theorem bits_testBit (w : Word) (lo len i : Nat) : (bits w lo len).testBit i = (decide (i < len) && w.getLsbD (lo + i)) := by
  simp [bits, Nat.testBit_mod_two_pow, Nat.testBit_shiftRight, BitVec.getLsbD]

theorem setBits_getLsbD (w : Word) (lo len v i : Nat) (h : i < 64) :
    (setBits w lo len v).getLsbD i = if lo ≤ i ∧ i < lo + len then v.testBit (i - lo) else w.getLsbD i := by
  simp only [setBits, BitVec.getLsbD_or, BitVec.getLsbD_and, BitVec.getLsbD_not, BitVec.getLsbD_ofNat, Nat.testBit_shiftLeft,
    Nat.testBit_mod_two_pow, Nat.testBit_two_pow_sub_one, h, decide_true, Bool.true_and]
  by_cases h1 : lo ≤ i
  · by_cases h2 : i < lo + len
    · have : i - lo < len := by omega
      simp [h1, h2, this]
    · have : ¬ i - lo < len := by omega
      simp [h2, this]
  · simp [h1]

/-- A field written reads as the low bits of the value. -/
theorem bits_setBits_same (w : Word) (lo len v : Nat) (h : lo + len ≤ 64) : bits (setBits w lo len v) lo len = v % 2 ^ len := by
  apply Nat.eq_of_testBit_eq
  intro i
  rw [bits_testBit, Nat.testBit_mod_two_pow]
  by_cases hi : i < len
  · rw [setBits_getLsbD _ _ _ _ _ (by omega), if_pos ⟨by omega, by omega⟩]
    simp [hi]
  · simp [hi]

/-- A field apart from the one written reads as before. -/
theorem bits_setBits_other (w : Word) (lo len v a b : Nat) (h : a + b ≤ lo ∨ lo + len ≤ a) :
    bits (setBits w lo len v) a b = bits w a b := by
  apply Nat.eq_of_testBit_eq
  intro i
  rw [bits_testBit, bits_testBit]
  by_cases hi : i < b
  · by_cases hw : a + i < 64
    · rw [setBits_getLsbD _ _ _ _ _ hw, if_neg (by omega)]
    · rw [BitVec.getLsbD_of_ge _ _ (by omega), BitVec.getLsbD_of_ge _ _ (by omega)]
  · simp [hi]

end Sys2Proof.Machine
end

