-- ==== Sys2Proof/Laws/Region.lean ====
section
/-! SUPPORT. What closing a region does to the task of the hart, and what it leaves alone (R38, R42, R124). -/

namespace Sys2Proof.Machine

theorem State.taskOf_congr {s t : State} (e : t.tasks = s.tasks) (h : Nat) (k : (t.hart h).task = (s.hart h).task) :
    t.taskOf h = s.taskOf h := by
  unfold State.taskOf
  rw [k]
  cases (s.hart h).task with
  | none => rfl
  | some w => exact State.task?_congr e w

theorem State.taskOf_modTaskOf (s : State) (h : Nat) (f : Task → Task) :
    (s.modTaskOf h f).taskOf h = (s.taskOf h).map f := by
  unfold State.taskOf
  rw [State.hart_congr (s.modTaskOf_harts h f)]
  unfold State.modTaskOf
  cases ht : (s.hart h).task with
  | none => rfl
  | some w =>
    simp only [Option.bind_some]
    unfold State.modTask
    cases hk : s.task? w with
    | none => simp [hk]
    | some t => simp

theorem freeShadows_rest (p : Nat) (l : List (Nat × Nat)) (s : State) :
    freeShadows s p l = { s with pairs := (freeShadows s p l).pairs } := by
  induction l generalizing s with
  | nil => rfl
  | cons e r ih =>
    obtain ⟨a, b⟩ := e
    simp only [freeShadows]
    rw [ih]
    rfl

theorem drain_touched (h : Nat) (l : List Entry) (s : State) : Touched s (drain s h l) := by
  induction l generalizing s with
  | nil => exact Touched.refl s
  | cons e r ih =>
    cases e with
    | store size c a d pa gpa => exact (s.perform_touched _ _ _ _ _).trans (ih _)
    | release m => exact ih _

theorem Touched.taskOf {s t : State} (a : Touched s t) (h : Nat) : t.taskOf h = s.taskOf h := by
  refine State.taskOf_congr (by rw [a.rest]) h ?_
  obtain ⟨r, hr⟩ := a.harts h
  rw [hr]

theorem Touched.inRegion {s t : State} (a : Touched s t) (h : Nat) : t.inRegion h = s.inRegion h := by
  unfold State.inRegion
  rw [a.taskOf h]
  obtain ⟨r, hr⟩ := a.harts h
  rw [hr]

theorem State.closesOther_rest (s : State) (h : Nat) : s.closesOther h = { s with gates := (s.closesOther h).gates } := by
  unfold State.closesOther
  split <;> rfl

theorem State.setBytes_rest (bs : List Byte) (s : State) (a : Nat) : s.setBytes a bs = { s with mem := (s.setBytes a bs).mem } := by
  induction bs generalizing s a with
  | nil => rfl
  | cons b r ih =>
    simp only [State.setBytes]
    rw [ih]
    rfl

theorem State.setUnit_rest (s : State) (u : Nat) (d k : BitVec 512) :
    s.setUnit u d k = { s with mem := (s.setUnit u d k).mem, unitKeys := (s.setUnit u d k).unitKeys } := by
  unfold State.setUnit
  generalize leBytes 64 d.toNat = bs
  rw [State.setBytes_rest]
  rfl

theorem State.rekey_rest (s : State) (p : Option Nat) (a : Nat) :
    s.rekey p a = { s with mem := (s.rekey p a).mem, unitKeys := (s.rekey p a).unitKeys } := by
  rcases s.rekey_cases p a with ⟨e, -⟩ | ⟨-, old, -, -, e⟩
  · rw [e]
  · rw [e]
    exact State.setUnit_rest _ _ _ _

theorem State.noteKey_rest (s : State) (p : Option Nat) (a : Nat) :
    s.noteKey p a = { s with unitKeys := (s.noteKey p a).unitKeys } := by
  unfold State.noteKey
  split
  · rfl
  · split <;> rfl

/-- A write touches memory, its keys and reservations only. -/
theorem State.write_rest (s : State) (g p : Option Nat) (a : Nat) (bs : List Byte) :
    s.write g p a bs = { s with harts := (s.write g p a bs).harts, mem := (s.write g p a bs).mem,
                                unitKeys := (s.write g p a bs).unitKeys } := by
  unfold State.write
  rw [State.setBytes_rest, State.noteKey_rest, State.rekey_rest]
  rfl

/-- A write that is performed touches memory, its keys, reservations and dirty pages only. -/
theorem State.perform_rest (s : State) (g p : Option Nat) (a gpa : Nat) (bs : List Byte) :
    s.perform g p a gpa bs = { s with
      harts := (s.perform g p a gpa bs).harts, mem := (s.perform g p a gpa bs).mem,
      unitKeys := (s.perform g p a gpa bs).unitKeys, parts := (s.perform g p a gpa bs).parts } := by
  unfold State.perform
  extract_lets t
  have ht : t = { s with harts := t.harts, mem := t.mem, unitKeys := t.unitKeys } := s.write_rest _ _ _ _
  split
  · unfold State.markDirty State.modPart
    split
    · rw [ht]
    · split
      · rw [ht]
      · rw [ht]
  · rw [ht]

theorem drain_rest (h : Nat) (l : List Entry) (s : State) :
    drain s h l = { s with harts := (drain s h l).harts, mem := (drain s h l).mem, unitKeys := (drain s h l).unitKeys,
                           parts := (drain s h l).parts } := by
  induction l generalizing s with
  | nil => rfl
  | cons e r ih =>
    cases e with
    | store size c a d pa gpa =>
      simp only [drain]
      rw [ih, State.perform_rest]
    | release m => exact ih _

theorem State.modTask_rest (s : State) (h : Word) (f : Task → Task) : s.modTask h f = { s with tasks := (s.modTask h f).tasks } := by
  unfold State.modTask
  split <;> rfl

theorem State.modTaskOf_rest (s : State) (h : Nat) (f : Task → Task) :
    s.modTaskOf h f = { s with tasks := (s.modTaskOf h f).tasks } := by
  unfold State.modTaskOf
  split
  · exact State.modTask_rest _ _ _
  · rfl

theorem State.dropShadows_rest (s : State) (h : Nat) : s.dropShadows h = { s with pairs := (s.dropShadows h).pairs } := by
  unfold State.dropShadows
  split
  · split
    · exact freeShadows_rest _ _ _
    · rfl
  · rfl

@[simp] theorem State.dropShadows_hart (s : State) (h k : Nat) : (s.dropShadows h).hart k = s.hart k := by
  rw [State.dropShadows_rest]; rfl
@[simp] theorem State.dropShadows_taskOf (s : State) (h k : Nat) : (s.dropShadows h).taskOf k = s.taskOf k := by
  rw [State.dropShadows_rest]; rfl

theorem State.commit_rest (s : State) (h : Nat) (code : BitVec 2) :
    s.commit h code = { s with tasks := (s.commit h code).tasks, pairs := (s.commit h code).pairs } := by
  unfold State.commit
  rw [State.modTaskOf_rest, State.dropShadows_rest]

theorem State.drainTask_rest (s : State) (h : Nat) : s.drainTask h = { s with
    harts := (s.drainTask h).harts, mem := (s.drainTask h).mem, unitKeys := (s.drainTask h).unitKeys,
    parts := (s.drainTask h).parts, tasks := (s.drainTask h).tasks } := by
  unfold State.drainTask
  split
  · rfl
  · rw [State.modTaskOf_rest, drain_rest]

theorem State.checkpoint_rest (s : State) (h : Nat) (pc : Word) : s.checkpoint h pc = { s with
    tasks := (s.checkpoint h pc).tasks, pairs := (s.checkpoint h pc).pairs } := by
  unfold State.checkpoint
  rw [State.modTaskOf_rest, State.dropShadows_rest]

/-- The task of the hart after its checkpoint is taken. -/
theorem State.checkpoint_taskOf (s : State) (h : Nat) (pc : Word) : (s.checkpoint h pc).taskOf h =
    (s.taskOf h).map fun t => { t with region := { t.region with
      ckpt := { pc := pc, ctx := (s.hart h).ctx, lift := t.lift, group := t.group },
      shadows := [], uncopied := [], imgShadow := [] } } := by
  unfold State.checkpoint
  rw [State.taskOf_modTaskOf, State.dropShadows_taskOf]

/-- What closing a region leaves alone. -/
theorem State.closeRegion_rest (s : State) (h : Nat) (code : BitVec 2) (pc : Word) (k : Bool) :
    s.closeRegion h code pc k = { s with
      harts := (s.closeRegion h code pc k).harts, mem := (s.closeRegion h code pc k).mem,
      unitKeys := (s.closeRegion h code pc k).unitKeys,
      parts := (s.closeRegion h code pc k).parts, tasks := (s.closeRegion h code pc k).tasks,
      pairs := (s.closeRegion h code pc k).pairs } := by
  unfold State.closeRegion
  split
  · have hk : ∀ t : State, t = { s with harts := t.harts, mem := t.mem, unitKeys := t.unitKeys, parts := t.parts, tasks := t.tasks, pairs := t.pairs } →
        (if k = true then t else t.modHart h fun x => { x with resv := none }) =
        { s with
          harts := (if k = true then t else t.modHart h fun x => { x with resv := none }).harts,
          mem := (if k = true then t else t.modHart h fun x => { x with resv := none }).mem,
          unitKeys := (if k = true then t else t.modHart h fun x => { x with resv := none }).unitKeys,
          parts := (if k = true then t else t.modHart h fun x => { x with resv := none }).parts,
          tasks := (if k = true then t else t.modHart h fun x => { x with resv := none }).tasks,
          pairs := (if k = true then t else t.modHart h fun x => { x with resv := none }).pairs } := by
      intro t ht
      split
      · exact ht
      · rw [ht]; rfl
    apply hk
    rw [State.checkpoint_rest, State.drainTask_rest, State.commit_rest]
  · rfl

theorem State.closed_cur (s : State) : s.closed.cur = s.cur := by
  unfold State.closed
  rw [State.closeRegion_rest, State.closesOther_rest]

theorem State.closed_clusters (s : State) : s.closed.clusters = s.clusters := by
  unfold State.closed
  rw [State.closeRegion_rest, State.closesOther_rest]

/-- The task of the hart after its region has committed. -/
theorem State.commit_taskOf (s : State) (h : Nat) (code : BitVec 2) : (s.commit h code).taskOf h =
    (s.taskOf h).map fun t => { t with
      eccAt := [],
      region := { t.region with undrained := t.region.undrained ++ t.region.buf ++ t.region.log, buf := [], log := [],
                                shadows := [], uncopied := [], imgShadow := [], close := code, rst := 0,
                                rseq := t.region.rseq + 1 } } := by
  unfold State.commit
  rw [State.taskOf_modTaskOf, State.dropShadows_taskOf]

theorem State.drainTask_taskOf (s : State) (h : Nat) :
    (s.drainTask h).taskOf h = (s.taskOf h).map fun t => { t with region := { t.region with undrained := [] } } := by
  unfold State.drainTask
  cases ht : s.taskOf h with
  | none => simp [ht]
  | some t =>
    simp only []
    rw [State.taskOf_modTaskOf, (drain_touched _ _ _).taskOf, ht]

/-- The task of the hart after its region has closed, committed and drained, with the checkpoint of the next (R40, R42,
R124). -/
theorem State.closeRegion_taskOf (s : State) (h : Nat) (code : BitVec 2) (pc : Word) (k : Bool) (r : s.inRegion h = true) :
    ∃ c : Task → Checkpoint, (s.closeRegion h code pc k).taskOf h = (s.taskOf h).map fun t => { t with
      eccAt := [],
      region := { t.region with undrained := [], buf := [], log := [], shadows := [], uncopied := [], imgShadow := [],
                                close := code, rst := 0, rseq := t.region.rseq + 1, ckpt := c t } } := by
  have hk : (((s.commit h code).drainTask h).checkpoint h pc).taskOf h = (s.taskOf h).map fun t => { t with
      eccAt := [],
      region := { t.region with
        undrained := [], buf := [], log := [], shadows := [], uncopied := [], imgShadow := [], close := code, rst := 0,
        rseq := t.region.rseq + 1,
        ckpt := { pc := pc, ctx := (((s.commit h code).drainTask h).hart h).ctx, lift := t.lift, group := t.group } } } := by
    rw [State.checkpoint_taskOf, State.drainTask_taskOf, State.commit_taskOf]
    cases s.taskOf h <;> rfl
  refine ⟨fun t => { pc := pc, ctx := (((s.commit h code).drainTask h).hart h).ctx, lift := t.lift, group := t.group }, ?_⟩
  unfold State.closeRegion
  simp only [r, if_true]
  split
  · exact hk
  · rw [← hk]
    exact State.taskOf_congr (State.modHart_tasks _ _ _) h (by rw [State.hart_modHart])

/-- Closing a region changes nothing of any hart but its reservation. -/
theorem State.closeRegion_keeps (s : State) (h : Nat) (code : BitVec 2) (pc : Word) (k : Bool) :
    KeepsHarts s (s.closeRegion h code pc k) := by
  unfold State.closeRegion
  split
  · have a : KeepsHarts s (((s.commit h code).drainTask h).checkpoint h pc) := by
      refine (KeepsHarts.of_harts (t := s.commit h code) ?_ ?_).trans ?_
      · rw [State.commit_rest]
      · rw [State.commit_rest]
      · refine KeepsHarts.trans (t := (s.commit h code).drainTask h) ?_ (KeepsHarts.of_harts ?_ ?_)
        · unfold State.drainTask
          split
          · exact KeepsHarts.refl _
          · exact (drain_touched h _ _).keeps.trans (KeepsHarts.of_harts (State.modTaskOf_harts _ _ _) (by rw [State.modTaskOf_rest]))
        · rw [State.checkpoint_rest]
        · rw [State.checkpoint_rest]
    simp only []
    split
    · exact a
    · refine a.trans ⟨rfl, fun j => ?_⟩
      by_cases e : j = h
      · subst e; exact ⟨none, by rw [State.hart_modHart]⟩
      · exact ⟨_, by rw [State.hart_modHart_other _ _ _ _ e]⟩
  · exact KeepsHarts.refl _

theorem State.closed_keeps (s : State) : KeepsHarts s s.closed :=
  (KeepsHarts.of_harts (by rw [State.closesOther_rest]) (by rw [State.closesOther_rest])).trans (State.closeRegion_keeps _ _ _ _ _)

@[simp] theorem State.closed_waiting (s : State) : s.closed.me.waiting = s.me.waiting := (s.closed_keeps).waiting
@[simp] theorem State.closed_task (s : State) : s.closed.me.task = s.me.task := (s.closed_keeps).task
@[simp] theorem State.closed_mode (s : State) : s.closed.me.mode = s.me.mode := by
  obtain ⟨r, h⟩ := s.closed_keeps.me
  rw [h]
@[simp] theorem State.closed_ctx (s : State) : s.closed.me.ctx = s.me.ctx := by
  obtain ⟨r, h⟩ := s.closed_keeps.me
  rw [h]
@[simp] theorem State.closed_pfx (s : State) : s.closed.me.pfx = s.me.pfx := by
  obtain ⟨r, h⟩ := s.closed_keeps.me
  rw [h]
@[simp] theorem State.closed_pc (s : State) : s.closed.me.pc = s.me.pc := by
  obtain ⟨r, h⟩ := s.closed_keeps.me
  rw [h]
@[simp] theorem State.closed_x (s : State) (r : Reg) : s.closed.x r = s.x r := by
  unfold State.x
  rw [s.closed_ctx]

end Sys2Proof.Machine
end

