-- ==== Sys2Proof/Laws/Closing.lean ====
section
/-! SUPPORT. How an instruction that closes the region runs from its start, and which operations of the mailboxes and gates
leave the hart's task. -/

namespace Sys2Proof.Machine

theorem closing_ok {i : Instr} {s t : State} {body : State → Except Exc State} (w : s.starts)
    (g : isGateWait i = false) (e : s.closed.noEnd) (h : body s.closed = .ok t)
    (m : t.me.task = s.closed.me.task) : runClosing false i s body = .next t.goesOn :=
  runClosing_ok w.1 g e h (.inl m)

theorem closing_trap {i : Instr} {s : State} {body : State → Except Exc State} {c b : Nat} {v : Word} (w : s.starts)
    (g : isGateWait i = false) (e : s.closed.noEnd) (h : body s.closed = .error (.trap c b v)) :
    runClosing false i s body = .next (s.closed.takeTrap s.closed.cur false c b v) := by
  rw [runClosing_error w.1 g e h (by simp), State.finish_trap _ (by simpa using w.1)]

theorem closing_hold {i : Instr} {s t : State} {k : WaitKind} {body : State → Except Exc State} (w : s.starts)
    (g : isGateWait i = false) (e : s.closed.noEnd) (h : body s.closed = .error (.hold t k)) :
    runClosing false i s body = .next (t.modMe fun x => { x with waiting := some { instr := i, kind := k, reply := none } }) := by
  rw [runClosing_error w.1 g e h (by simp), State.finish_hold _ _ _ _ (.inr e)]

theorem closing_illegal {i : Instr} {s : State} {body : State → Except Exc State} (w : s.starts)
    (g : isGateWait i = false) (e : s.closed.noEnd) (h : body s.closed = .error .illegal) :
    runClosing false i s body = .next (s.closed.takeTrap s.closed.cur false 2 0 (wordOfInstr i)) := by
  rw [runClosing_error w.1 g e h (by simp), State.finish_illegal _ (by simpa using w.1)]

theorem closing_wait {i : Instr} {s : State} {k : WaitKind} {body : State → Except Exc State} (w : s.starts)
    (g : isGateWait i = false) (e : s.closed.noEnd) (h : body s.closed = .error (.wait k)) :
    runClosing false i s body = .next (s.closed.modMe fun x => { x with waiting := some { instr := i, kind := k, reply := none } }) := by
  rw [runClosing_error w.1 g e h (by simp), State.finish_wait _ _ _ (.inr e)]

/-- A closing instruction whose effect frees the hart. -/
theorem closing_leaves {i : Instr} {s t : State} {body : State → Except Exc State} (w : s.starts)
    (g : isGateWait i = false) (e : s.closed.noEnd) (h : body s.closed = .ok t)
    (m : t.me.task ≠ s.closed.me.task) (n : t.me.mode = Mode.u) : runClosing false i s body = .next t := by
  unfold runClosing
  have hs : (s.closesOther s.cur).closeRegion s.cur 0 s.me.epc false = s.closed := rfl
  have he : s.closed.ending? s.closed.cur = none := e
  have hm : ¬ (t.me.task = s.closed.me.task ∨ t.me.mode ≠ .u) := by rw [n]; rintro (h | h); exacts [m h, h rfl]
  simp only [w.1, Option.isSome_none, Bool.false_eq_true, if_false, g, hs, he, h, hm]

theorem gclosing_ok {i : Instr} {s t : State} {body : State → Except Exc State} (w : s.starts)
    (g : isGateWait i = true) (e : (s.closeRegion s.cur 0 s.me.epc false).noEnd) (h : body (s.closeRegion s.cur 0 s.me.epc false) = .ok t)
    (m : t.me.task = s.me.task) : runClosing false i s body = .next t.goesOn := by
  have kt := (State.closeRegion_keeps s s.cur 0 s.me.epc false).task
  unfold runClosing
  have he : (s.closeRegion s.cur 0 s.me.epc false).ending? (s.closeRegion s.cur 0 s.me.epc false).cur = none := e
  simp only [w.1, Option.isSome_none, Bool.false_eq_true, if_false, g, if_true, he, h, m, kt, true_or]
  rfl

theorem gclosing_hold {i : Instr} {s t : State} {k : WaitKind} {body : State → Except Exc State} (w : s.starts)
    (g : isGateWait i = true) (e : (s.closeRegion s.cur 0 s.me.epc false).noEnd) (h : body (s.closeRegion s.cur 0 s.me.epc false) = .error (.hold t k)) :
    runClosing false i s body = .next (t.modMe fun x => { x with waiting := some { instr := i, kind := k, reply := none } }) := by
  rw [← State.finish_hold (s.closeRegion s.cur 0 s.me.epc false) _ _ _ (.inr e)]
  unfold runClosing
  have he : (s.closeRegion s.cur 0 s.me.epc false).ending? (s.closeRegion s.cur 0 s.me.epc false).cur = none := e
  simp only [w.1, Option.isSome_none, Bool.false_eq_true, if_false, g, if_true, he, h]

theorem operand64_keeps {s u : State} {acc : Acc} {a : Word} {v : Bool} {ls}
    (h : s.operand64 acc a v = .ok (.ok (u, ls))) : Touched s u := by
  unfold State.operand64 at h
  split at h
  · cases h
  · split at h
    · cases h
    · rename_i r hr
      cases hq : resolve s (s.view acc) acc a 64 64 with
      | error e => rw [hq] at h; simp at h
      | ok p => 
        obtain ⟨p1, p2⟩ := p
        rw [hq] at h; simp at h
        obtain ⟨rfl, rfl⟩ := h
        exact resolve_touched _ _ _ _ _ _ _ _ hq

theorem useFresh_keeps (s : State) : KeepsHarts s s.useFresh := KeepsHarts.of_harts rfl rfl

theorem read64_keeps {s v : State} {a : Word} {ls d} (h : s.read64 a ls = .ok (v, d)) : KeepsHarts s v := by
  unfold State.read64 at h
  simp only [bind, Except.bind, pure, Except.pure] at h
  split at h
  · cases h
  · rename_i q hq
    have := (State.detect_keeps _ _ _ _ _ hq).1
    simp only [Except.ok.injEq, Prod.mk.injEq] at h
    obtain ⟨h, -⟩ := h
    subst h
    split
    · exact this.trans (useFresh_keeps _)
    · exact this

theorem read64_chip {s v : State} {a : Word} {ls d} (h : s.read64 a ls = .ok (v, d)) : v.chip = s.chip := by
  unfold State.read64 at h
  simp only [bind, Except.bind, pure, Except.pure] at h
  split at h
  · cases h
  · rename_i q hq
    have : q.chip = s.chip := by
      unfold State.detect at hq
      split at hq
      · injection hq with hq; rw [hq]
      · simp only [] at hq
        split at hq
        · split at hq
          · injection hq with hq
            rw [← hq]
            split
            · unfold State.correct State.raiseVerdict
              split
              · rfl
              · split
                · unfold State.modLaunch; split <;> rfl
                · rfl
            · rfl
          · cases hq
        · injection hq with hq; rw [hq]
    simp only [Except.ok.injEq, Prod.mk.injEq] at h
    obtain ⟨h, -⟩ := h
    subst h
    split
    · exact this
    · exact this

@[simp] theorem setMailbox_me (s : State) (k : Nat) (m : Mailbox) : (s.setMailbox k m).me = s.me := rfl
@[simp] theorem setMailbox_cur (s : State) (k : Nat) (m : Mailbox) : (s.setMailbox k m).cur = s.cur := rfl

theorem answer_task (s : State) (h : Nat) (r : Reply) (j : Nat) : ((s.answer h r).hart j).task = (s.hart j).task := by
  unfold State.answer
  by_cases e : j = h
  · subst e
    rw [State.hart_modHart]
    split
    · split <;> rfl
    · rfl
  · rw [State.hart_modHart_other _ _ _ _ e]

@[simp] theorem answer_cur (s : State) (h : Nat) (r : Reply) : (s.answer h r).cur = s.cur := rfl

theorem sent_task (s : State) (c : Nat) (w : Sender) (v : Nat) :
    (∀ j, ((s.sent c w v).hart j).task = (s.hart j).task) ∧ (s.sent c w v).cur = s.cur := by
  unfold State.sent
  split
  · exact ⟨fun j => answer_task _ _ _ _, rfl⟩
  · exact ⟨fun _ => rfl, rfl⟩

theorem grantSlots_task (k n : Nat) (s : State) : (∀ j, ((grantSlots k n s).hart j).task = (s.hart j).task) ∧ (grantSlots k n s).cur = s.cur := by
  induction n generalizing s with
  | zero => exact ⟨fun _ => rfl, rfl⟩
  | succ n ih =>
    unfold grantSlots
    simp only []
    split
    · exact ⟨fun _ => rfl, rfl⟩
    · split
      · exact ⟨fun _ => rfl, rfl⟩
      · exact ⟨fun j => ((ih _).1 j).trans ((sent_task _ _ _ _).1 j), (ih _).2.trans (sent_task _ _ _ _).2⟩

theorem performUnits_task (s : State) (g p : Option Nat) (ls : List (Loc × Nat)) (bs : List Byte) : (performUnits s g p ls bs).me.task = s.me.task :=
  ((performUnits_touched g p ls s bs).keeps).task

theorem answerGate_task (s : State) (r : GateRequest) (y : Reply) :
    (∀ j, ((s.answerGate r y).hart j).task = (s.hart j).task) ∧ (s.answerGate r y).cur = s.cur := by
  unfold State.answerGate
  split
  · exact ⟨fun j => answer_task _ _ _ _, rfl⟩
  · exact ⟨fun _ => rfl, rfl⟩

theorem answerGates_task (y : Reply) (l : List GateRequest) (s : State) :
    (∀ j, ((answerGates y l s).hart j).task = (s.hart j).task) ∧ (answerGates y l s).cur = s.cur := by
  induction l generalizing s with
  | nil => exact ⟨fun _ => rfl, rfl⟩
  | cons r t ih => exact ⟨fun j => ((ih _).1 j).trans ((answerGate_task _ _ _).1 j), ((ih _).2).trans (answerGate_task _ _ _).2⟩

theorem wakeGate_task (s : State) (n : Nat) : (s.wakeGate n).me.task = s.me.task := by
  unfold State.wakeGate
  split
  · rfl
  · simp only []
    rw [State.me, (answerGates_task _ _ _).2, (answerGates_task _ _ _).1]
    rfl

theorem own_apply (t : State) (r : GateRequest) (g : Gate) (hg : t.gate? r.handle = some g) (hm : g.moved = none)
    (ho : g.ownedBy t.chip r = true) (hf : g.frozen = false) (hs : g.stalled = [])
    (hop : g.opened = true ∨ administers r.op = true) (hr : refusedOperand r.op = false) :
    t.gateApply r = t.gateEffect (gateNum r.handle) g r := by
  have ha : g.allows t.chip r = true := by simp [Gate.allows, ho]
  have hb : g.bucket t.chip r = none := by simp [Gate.bucket, ho]
  have hfa : t.gateFault r = none := by
    simp only [State.gateFault, hg, hm, ha, hr, hb]
    rcases hop with h | h
    · simp [h, hf]; cases r.op <;> rfl
    · simp [h, hf]; cases r.op <;> rfl
  unfold State.gateApply
  rw [hfa]
  simp only [hg, hb, hs, hf, Bool.false_and, Bool.or_false, Bool.false_eq_true, if_false]
  unfold Gate.takeToken
  simp only [hb]

theorem own_word (t : State) (h : Word) (op : GateOp) (g : Gate) (w : t.me.waiting = none) (hc : gateChip h = t.chip) (hg : t.gate? h = some g) (hm : g.moved = none)
    (ho : g.owner = t.partNum (clusterOf t.cur)) (hf : g.frozen = false) (hs : g.stalled = [])
    (hop : g.opened = true ∨ administers op = true) (hr : refusedOperand op = false) :
    ∃ r : GateRequest, r.handle = h ∧ r.op = op ∧ r.hart = some t.cur ∧ r.task = t.me.task.getD 0 ∧
    t.gateWord h op = (match t.gateEffect (gateNum h) g r with
      | (_, some (.trap cause sub v)) => .error (.trap cause sub v)
      | (s, some y) => .ok (s.leavePlaces op (t.me.task.getD 0), y)
      | (s, none) => .error (.hold (s.leavePlaces op (t.me.task.getD 0)) .queued)) := by
  refine ⟨{ handle := h, chip := t.chip.toNat, part := t.partNum (clusterOf t.cur), hart := some t.cur,
                               task := t.me.task.getD 0, mark := t.markOf t.cur, op := op }, rfl, rfl, rfl, rfl, ?_⟩
  unfold State.gateWord
  rw [if_pos hc, w]
  simp only []
  rw [own_apply t _ g hg hm (by simp [Gate.ownedBy, ho]) hf hs hop hr]
  all_goals
    generalize t.gateEffect _ g _ = z
    rcases z with ⟨a, _ | y⟩
    · rfl
    · cases y <;> rfl

@[simp] theorem setGate_me (s : State) (n : Nat) (g : Gate) : (s.setGate n g).me = s.me := rfl
@[simp] theorem setBarrier_me (s : State) (k : Nat) (b : Barrier) : (s.setBarrier k b).me = s.me := rfl
@[simp] theorem setSem_me (s : State) (i : Nat) (v : BitVec 32) : (s.setSem i v).me = s.me := rfl
@[simp] theorem setSemQueue_me (s : State) (i : Nat) (v : List Nat) : (s.setSemQueue i v).me = s.me := rfl

/-- The commit point of a word that closes the region and has no other effect: the task goes on at the next word in the next
region, whose checkpoint is there. -/
theorem State.goesOn_region {s : State} {t : Task} (w : s.starts) (r : s.inRegion s.cur = true) (ht : s.myTask = some t) :
    ∃ u, s.closed.goesOn.myTask = some u ∧ s.closed.goesOn.me.pc = s.me.pc + 4 ∧ s.closed.goesOn.me.ctx = s.me.ctx ∧
      s.closed.goesOn.me.mode = s.me.mode ∧ s.closed.goesOn.inRegion s.closed.goesOn.cur = true ∧
      u.region.buf = [] ∧ u.region.log = [] ∧ u.region.undrained = [] ∧ u.region.close = 0 ∧
      u.region.rseq = t.region.rseq + 1 ∧ u.region.ckpt.pc = s.me.pc + 4 ∧ u.region.ckpt.ctx = s.me.ctx := by
  obtain ⟨c, hc⟩ := (s.closesOther s.cur).closeRegion_taskOf s.cur 0 s.me.epc false (by rw [State.closesOther_rest]; exact r)
  have hq : (s.closesOther s.cur).taskOf s.cur = some t := by rw [State.closesOther_rest]; exact ht
  rw [hq] at hc
  change s.closed.taskOf s.cur = _ at hc
  have hcomp : s.closed.complete.taskOf s.cur = s.closed.taskOf s.cur := by
    rw [State.complete_starts _ (by simpa using w.1)]
    refine State.taskOf_congr (by rfl) _ ?_
    simp only [State.withMe, s.closed_cur]
    simp [State.hart, Hart.after, State.me, s.closed_cur]
  have hm : s.me.mode = Mode.u := by
    unfold State.inRegion at r; simp at r; exact r.1
  have hcur : s.closed.complete.cur = s.cur := by rw [State.complete_cur, s.closed_cur]
  have hin : s.closed.complete.inRegion s.closed.complete.cur = true := by
    have h2 := s.closed.complete_mode
    rw [State.me, hcur] at h2
    rw [hcur]
    unfold State.inRegion
    rw [hcomp, h2, hc]
    simp [hm]
  have hg : s.closed.goesOn = s.closed.complete.checkpoint s.closed.complete.cur s.closed.complete.me.pc := by
    unfold State.goesOn
    rw [if_pos hin]
  have hh : s.closed.goesOn.cur = s.cur ∧ s.closed.goesOn.harts = s.closed.complete.harts := by
    rw [hg, State.checkpoint_rest]; exact ⟨hcur, rfl⟩
  have hme : s.closed.goesOn.me = s.closed.complete.me := by
    rw [State.me, State.me, State.hart, State.hart, hh.1, hh.2, hcur]
  have ht2 := s.closed.complete.checkpoint_taskOf s.cur s.closed.complete.me.pc
  rw [hcomp, hc] at ht2
  simp only [Option.map_some] at ht2
  have hmy := ht2
  rw [← hcur, ← hg, ← hh.1.trans hcur.symm] at hmy
  refine ⟨_, hmy, ?_, ?_, ?_, ?_, rfl, rfl, rfl, rfl, rfl, ?_, ?_⟩
  · rw [hme]; simp
  · rw [hme]; simp
  · rw [hme]; simp
  · unfold State.inRegion
    rw [hmy]
    have h3 : s.closed.goesOn.me.mode = Mode.u := by rw [hme]; simpa using hm
    rw [State.me] at h3
    simp [h3]
  · simp
  · have h3 := s.closed.complete_ctx
    rw [State.me, hcur, ← hh.1] at h3
    simpa using h3

end Sys2Proof.Machine
end

