-- ==== Sys2Proof/Laws/Encoding.lean ====
section
/-! SUPPORT. What the fields of an encoded word are, format by format (R90). -/

namespace Sys2Proof

/-- A field above the lowest part of a word lies in what stands above that part. -/
theorem fldPeel (m n : Nat) {a : BitVec m} {b : BitVec n} {lo len : Nat} {c : BitVec len} (h : n ≤ lo)
    (k : a.extractLsb' (lo - n) len = c) : (a ++ b).extractLsb' lo len = c := by
  rw [BitVec.extractLsb'_append_eq_of_le h, k]

/-- The lowest part of a word is its lowest field. -/
theorem fldKeep (m n : Nat) {a : BitVec m} {b : BitVec n} : (a ++ b).extractLsb' 0 n = b := by
  rw [BitVec.extractLsb'_append_eq_of_add_le (by omega), BitVec.extractLsb'_eq_self]

theorem fldAll {n : Nat} (a : BitVec n) : a.extractLsb' 0 n = a := BitVec.extractLsb'_eq_self

theorem encR_has (op : BitVec 7) (f3 : BitVec 3) (f7 : BitVec 7) (rs2 rs1 rd : Reg) : ∃ W : W32, encR op f3 f7 rs2 rs1 rd = W ∧
    fld W 0 7 = op ∧ fld W 7 5 = rd ∧ fld W 12 3 = f3 ∧ fld W 15 5 = rs1 ∧ fld W 20 5 = rs2 ∧ fld W 25 7 = f7 := by
  refine ⟨_, rfl, ?_, ?_, ?_, ?_, ?_, ?_⟩
  · exact fldKeep 25 7
  · exact fldPeel 25 7 (by decide) (fldKeep 20 5)
  · exact fldPeel 25 7 (by decide) (fldPeel 20 5 (by decide) (fldKeep 17 3))
  · exact fldPeel 25 7 (by decide) (fldPeel 20 5 (by decide) (fldPeel 17 3 (by decide) (fldKeep 12 5)))
  · exact fldPeel 25 7 (by decide) (fldPeel 20 5 (by decide) (fldPeel 17 3 (by decide) (fldPeel 12 5 (by decide) (fldKeep 7 5))))
  · exact fldPeel 25 7 (by decide) (fldPeel 20 5 (by decide) (fldPeel 17 3 (by decide) (fldPeel 12 5 (by decide) (fldPeel 7 5 (by decide) (fldAll _)))))

theorem encCf_has (mask : BitVec 8) (scope : BitVec 3) (kind : BitVec 2) : ∃ W : W32, encCf mask scope kind = W ∧
    fld W 0 7 = opCustom0 ∧ fld W 7 5 = (0 : BitVec 5) ∧ fld W 12 3 = (1 : BitVec 3) ∧ fld W 15 4 = (0 : BitVec 4) ∧ fld W 19 2 = kind ∧ fld W 21 3 = scope ∧ fld W 24 8 = mask := by
  refine ⟨_, rfl, ?_, ?_, ?_, ?_, ?_, ?_, ?_⟩
  · exact fldKeep 25 7
  · exact fldPeel 25 7 (by decide) (fldKeep 20 5)
  · exact fldPeel 25 7 (by decide) (fldPeel 20 5 (by decide) (fldKeep 17 3))
  · exact fldPeel 25 7 (by decide) (fldPeel 20 5 (by decide) (fldPeel 17 3 (by decide) (fldKeep 13 4)))
  · exact fldPeel 25 7 (by decide) (fldPeel 20 5 (by decide) (fldPeel 17 3 (by decide) (fldPeel 13 4 (by decide) (fldKeep 11 2))))
  · exact fldPeel 25 7 (by decide) (fldPeel 20 5 (by decide) (fldPeel 17 3 (by decide) (fldPeel 13 4 (by decide) (fldPeel 11 2 (by decide) (fldKeep 8 3)))))
  · exact fldPeel 25 7 (by decide) (fldPeel 20 5 (by decide) (fldPeel 17 3 (by decide) (fldPeel 13 4 (by decide) (fldPeel 11 2 (by decide) (fldPeel 8 3 (by decide) (fldAll _))))))

theorem encCa_has (o : BitVec 4) (scope : BitVec 3) (rs2 rs1 rd : Reg) : ∃ W : W32, encCa o scope rs2 rs1 rd = W ∧
    fld W 0 7 = opCustom0 ∧ fld W 7 5 = rd ∧ fld W 12 3 = (2 : BitVec 3) ∧ fld W 15 5 = rs1 ∧ fld W 20 5 = rs2 ∧ fld W 25 3 = scope ∧ fld W 28 4 = o := by
  refine ⟨_, rfl, ?_, ?_, ?_, ?_, ?_, ?_, ?_⟩
  · exact fldKeep 25 7
  · exact fldPeel 25 7 (by decide) (fldKeep 20 5)
  · exact fldPeel 25 7 (by decide) (fldPeel 20 5 (by decide) (fldKeep 17 3))
  · exact fldPeel 25 7 (by decide) (fldPeel 20 5 (by decide) (fldPeel 17 3 (by decide) (fldKeep 12 5)))
  · exact fldPeel 25 7 (by decide) (fldPeel 20 5 (by decide) (fldPeel 17 3 (by decide) (fldPeel 12 5 (by decide) (fldKeep 7 5))))
  · exact fldPeel 25 7 (by decide) (fldPeel 20 5 (by decide) (fldPeel 17 3 (by decide) (fldPeel 12 5 (by decide) (fldPeel 7 5 (by decide) (fldKeep 4 3)))))
  · exact fldPeel 25 7 (by decide) (fldPeel 20 5 (by decide) (fldPeel 17 3 (by decide) (fldPeel 12 5 (by decide) (fldPeel 7 5 (by decide) (fldPeel 4 3 (by decide) (fldAll _))))))

theorem encMt_has (f3 : BitVec 3) (m : MtOps) : ∃ W : W32, encMt f3 m = W ∧
    fld W 0 7 = opCustom2 ∧ fld W 7 1 = m.a.form ∧ fld W 8 4 = m.md ∧ fld W 12 3 = f3 ∧ fld W 15 5 = m.a.bits ∧ fld W 20 5 = m.b.bits ∧ fld W 25 1 = m.b.form ∧ fld W 26 1 = (BitVec.ofBool m.fzo) ∧ fld W 27 1 = (BitVec.ofBool m.fzi) ∧ fld W 28 2 = m.stream ∧ fld W 30 2 = m.fslot := by
  refine ⟨_, rfl, ?_, ?_, ?_, ?_, ?_, ?_, ?_, ?_, ?_, ?_, ?_⟩
  · exact fldKeep 25 7
  · exact fldPeel 25 7 (by decide) (fldKeep 24 1)
  · exact fldPeel 25 7 (by decide) (fldPeel 24 1 (by decide) (fldKeep 20 4))
  · exact fldPeel 25 7 (by decide) (fldPeel 24 1 (by decide) (fldPeel 20 4 (by decide) (fldKeep 17 3)))
  · exact fldPeel 25 7 (by decide) (fldPeel 24 1 (by decide) (fldPeel 20 4 (by decide) (fldPeel 17 3 (by decide) (fldKeep 12 5))))
  · exact fldPeel 25 7 (by decide) (fldPeel 24 1 (by decide) (fldPeel 20 4 (by decide) (fldPeel 17 3 (by decide) (fldPeel 12 5 (by decide) (fldKeep 7 5)))))
  · exact fldPeel 25 7 (by decide) (fldPeel 24 1 (by decide) (fldPeel 20 4 (by decide) (fldPeel 17 3 (by decide) (fldPeel 12 5 (by decide) (fldPeel 7 5 (by decide) (fldKeep 6 1))))))
  · exact fldPeel 25 7 (by decide) (fldPeel 24 1 (by decide) (fldPeel 20 4 (by decide) (fldPeel 17 3 (by decide) (fldPeel 12 5 (by decide) (fldPeel 7 5 (by decide) (fldPeel 6 1 (by decide) (fldKeep 5 1)))))))
  · exact fldPeel 25 7 (by decide) (fldPeel 24 1 (by decide) (fldPeel 20 4 (by decide) (fldPeel 17 3 (by decide) (fldPeel 12 5 (by decide) (fldPeel 7 5 (by decide) (fldPeel 6 1 (by decide) (fldPeel 5 1 (by decide) (fldKeep 4 1))))))))
  · exact fldPeel 25 7 (by decide) (fldPeel 24 1 (by decide) (fldPeel 20 4 (by decide) (fldPeel 17 3 (by decide) (fldPeel 12 5 (by decide) (fldPeel 7 5 (by decide) (fldPeel 6 1 (by decide) (fldPeel 5 1 (by decide) (fldPeel 4 1 (by decide) (fldKeep 2 2)))))))))
  · exact fldPeel 25 7 (by decide) (fldPeel 24 1 (by decide) (fldPeel 20 4 (by decide) (fldPeel 17 3 (by decide) (fldPeel 12 5 (by decide) (fldPeel 7 5 (by decide) (fldPeel 6 1 (by decide) (fldPeel 5 1 (by decide) (fldPeel 4 1 (by decide) (fldPeel 2 2 (by decide) (fldAll _))))))))))

theorem encTr_has (f7 : BitVec 7) (rs2 rs1 : Reg) (md : TileReg) : ∃ W : W32, encTr f7 rs2 rs1 md = W ∧
    fld W 0 7 = opCustom2 ∧ fld W 7 1 = (0 : BitVec 1) ∧ fld W 8 4 = md ∧ fld W 12 3 = (5 : BitVec 3) ∧ fld W 15 5 = rs1 ∧ fld W 20 5 = rs2 ∧ fld W 25 7 = f7 := by
  refine ⟨_, rfl, ?_, ?_, ?_, ?_, ?_, ?_, ?_⟩
  · exact fldKeep 25 7
  · exact fldPeel 25 7 (by decide) (fldKeep 24 1)
  · exact fldPeel 25 7 (by decide) (fldPeel 24 1 (by decide) (fldKeep 20 4))
  · exact fldPeel 25 7 (by decide) (fldPeel 24 1 (by decide) (fldPeel 20 4 (by decide) (fldKeep 17 3)))
  · exact fldPeel 25 7 (by decide) (fldPeel 24 1 (by decide) (fldPeel 20 4 (by decide) (fldPeel 17 3 (by decide) (fldKeep 12 5))))
  · exact fldPeel 25 7 (by decide) (fldPeel 24 1 (by decide) (fldPeel 20 4 (by decide) (fldPeel 17 3 (by decide) (fldPeel 12 5 (by decide) (fldKeep 7 5)))))
  · exact fldPeel 25 7 (by decide) (fldPeel 24 1 (by decide) (fldPeel 20 4 (by decide) (fldPeel 17 3 (by decide) (fldPeel 12 5 (by decide) (fldPeel 7 5 (by decide) (fldAll _))))))

theorem encRowR_has (f3 : BitVec 3) (f5 : BitVec 5) (tb ta td : TileReg) (xr : Reg) : ∃ W : W32, encRowR f3 f5 tb ta td xr = W ∧
    fld W 0 7 = opCustom3 ∧ fld W 7 5 = xr ∧ fld W 12 3 = f3 ∧ fld W 15 4 = td ∧ fld W 19 4 = ta ∧ fld W 23 4 = tb ∧ fld W 27 5 = f5 := by
  refine ⟨_, rfl, ?_, ?_, ?_, ?_, ?_, ?_, ?_⟩
  · exact fldKeep 25 7
  · exact fldPeel 25 7 (by decide) (fldKeep 20 5)
  · exact fldPeel 25 7 (by decide) (fldPeel 20 5 (by decide) (fldKeep 17 3))
  · exact fldPeel 25 7 (by decide) (fldPeel 20 5 (by decide) (fldPeel 17 3 (by decide) (fldKeep 13 4)))
  · exact fldPeel 25 7 (by decide) (fldPeel 20 5 (by decide) (fldPeel 17 3 (by decide) (fldPeel 13 4 (by decide) (fldKeep 9 4))))
  · exact fldPeel 25 7 (by decide) (fldPeel 20 5 (by decide) (fldPeel 17 3 (by decide) (fldPeel 13 4 (by decide) (fldPeel 9 4 (by decide) (fldKeep 5 4)))))
  · exact fldPeel 25 7 (by decide) (fldPeel 20 5 (by decide) (fldPeel 17 3 (by decide) (fldPeel 13 4 (by decide) (fldPeel 9 4 (by decide) (fldPeel 5 4 (by decide) (fldAll _))))))

theorem encRowS_has (f3 : BitVec 3) (f5 : BitVec 5) (rs : Reg) (tds : TileReg) (sub : BitVec 3) (xr : Reg) : ∃ W : W32, encRowS f3 f5 rs tds sub xr = W ∧
    fld W 0 7 = opCustom3 ∧ fld W 7 5 = xr ∧ fld W 12 3 = f3 ∧ fld W 15 3 = sub ∧ fld W 18 4 = tds ∧ fld W 22 5 = rs ∧ fld W 27 5 = f5 := by
  refine ⟨_, rfl, ?_, ?_, ?_, ?_, ?_, ?_, ?_⟩
  · exact fldKeep 25 7
  · exact fldPeel 25 7 (by decide) (fldKeep 20 5)
  · exact fldPeel 25 7 (by decide) (fldPeel 20 5 (by decide) (fldKeep 17 3))
  · exact fldPeel 25 7 (by decide) (fldPeel 20 5 (by decide) (fldPeel 17 3 (by decide) (fldKeep 14 3)))
  · exact fldPeel 25 7 (by decide) (fldPeel 20 5 (by decide) (fldPeel 17 3 (by decide) (fldPeel 14 3 (by decide) (fldKeep 10 4))))
  · exact fldPeel 25 7 (by decide) (fldPeel 20 5 (by decide) (fldPeel 17 3 (by decide) (fldPeel 14 3 (by decide) (fldPeel 10 4 (by decide) (fldKeep 5 5)))))
  · exact fldPeel 25 7 (by decide) (fldPeel 20 5 (by decide) (fldPeel 17 3 (by decide) (fldPeel 14 3 (by decide) (fldPeel 10 4 (by decide) (fldPeel 5 5 (by decide) (fldAll _))))))

theorem encVp_has (p : Pfx) : ∃ W : W32, encVp p = W ∧
    fld W 0 7 = opCustom3 ∧ fld W 7 5 = p.x4 ∧ fld W 12 3 = (7 : BitVec 3) ∧ fld W 15 4 = p.td ∧ fld W 19 4 = p.t4 ∧ fld W 23 1 = (BitVec.ofBool p.fzo) ∧ fld W 24 1 = (BitVec.ofBool p.fzi) ∧ fld W 25 3 = p.rm ∧ fld W 28 1 = (BitVec.ofBool p.zero) ∧ fld W 29 3 = p.k := by
  refine ⟨_, rfl, ?_, ?_, ?_, ?_, ?_, ?_, ?_, ?_, ?_, ?_⟩
  · exact fldKeep 25 7
  · exact fldPeel 25 7 (by decide) (fldKeep 20 5)
  · exact fldPeel 25 7 (by decide) (fldPeel 20 5 (by decide) (fldKeep 17 3))
  · exact fldPeel 25 7 (by decide) (fldPeel 20 5 (by decide) (fldPeel 17 3 (by decide) (fldKeep 13 4)))
  · exact fldPeel 25 7 (by decide) (fldPeel 20 5 (by decide) (fldPeel 17 3 (by decide) (fldPeel 13 4 (by decide) (fldKeep 9 4))))
  · exact fldPeel 25 7 (by decide) (fldPeel 20 5 (by decide) (fldPeel 17 3 (by decide) (fldPeel 13 4 (by decide) (fldPeel 9 4 (by decide) (fldKeep 8 1)))))
  · exact fldPeel 25 7 (by decide) (fldPeel 20 5 (by decide) (fldPeel 17 3 (by decide) (fldPeel 13 4 (by decide) (fldPeel 9 4 (by decide) (fldPeel 8 1 (by decide) (fldKeep 7 1))))))
  · exact fldPeel 25 7 (by decide) (fldPeel 20 5 (by decide) (fldPeel 17 3 (by decide) (fldPeel 13 4 (by decide) (fldPeel 9 4 (by decide) (fldPeel 8 1 (by decide) (fldPeel 7 1 (by decide) (fldKeep 4 3)))))))
  · exact fldPeel 25 7 (by decide) (fldPeel 20 5 (by decide) (fldPeel 17 3 (by decide) (fldPeel 13 4 (by decide) (fldPeel 9 4 (by decide) (fldPeel 8 1 (by decide) (fldPeel 7 1 (by decide) (fldPeel 4 3 (by decide) (fldKeep 3 1))))))))
  · exact fldPeel 25 7 (by decide) (fldPeel 20 5 (by decide) (fldPeel 17 3 (by decide) (fldPeel 13 4 (by decide) (fldPeel 9 4 (by decide) (fldPeel 8 1 (by decide) (fldPeel 7 1 (by decide) (fldPeel 4 3 (by decide) (fldPeel 3 1 (by decide) (fldAll _)))))))))

theorem encLb_has (k : KReg) (imm : BitVec 12) : ∃ W : W32, encLb k imm = W ∧
    fld W 0 7 = opCustom3 ∧ fld W 7 1 = (imm.extractLsb' 10 1) ∧ fld W 8 4 = (imm.extractLsb' 0 4) ∧ fld W 12 3 = (5 : BitVec 3) ∧ fld W 15 5 = (0 : BitVec 5) ∧ fld W 20 3 = k ∧ fld W 23 2 = (0 : BitVec 2) ∧ fld W 25 6 = (imm.extractLsb' 4 6) ∧ fld W 31 1 = (imm.extractLsb' 11 1) := by
  refine ⟨_, rfl, ?_, ?_, ?_, ?_, ?_, ?_, ?_, ?_, ?_⟩
  · exact fldKeep 25 7
  · exact fldPeel 25 7 (by decide) (fldKeep 24 1)
  · exact fldPeel 25 7 (by decide) (fldPeel 24 1 (by decide) (fldKeep 20 4))
  · exact fldPeel 25 7 (by decide) (fldPeel 24 1 (by decide) (fldPeel 20 4 (by decide) (fldKeep 17 3)))
  · exact fldPeel 25 7 (by decide) (fldPeel 24 1 (by decide) (fldPeel 20 4 (by decide) (fldPeel 17 3 (by decide) (fldKeep 12 5))))
  · exact fldPeel 25 7 (by decide) (fldPeel 24 1 (by decide) (fldPeel 20 4 (by decide) (fldPeel 17 3 (by decide) (fldPeel 12 5 (by decide) (fldKeep 9 3)))))
  · exact fldPeel 25 7 (by decide) (fldPeel 24 1 (by decide) (fldPeel 20 4 (by decide) (fldPeel 17 3 (by decide) (fldPeel 12 5 (by decide) (fldPeel 9 3 (by decide) (fldKeep 7 2))))))
  · exact fldPeel 25 7 (by decide) (fldPeel 24 1 (by decide) (fldPeel 20 4 (by decide) (fldPeel 17 3 (by decide) (fldPeel 12 5 (by decide) (fldPeel 9 3 (by decide) (fldPeel 7 2 (by decide) (fldKeep 1 6)))))))
  · exact fldPeel 25 7 (by decide) (fldPeel 24 1 (by decide) (fldPeel 20 4 (by decide) (fldPeel 17 3 (by decide) (fldPeel 12 5 (by decide) (fldPeel 9 3 (by decide) (fldPeel 7 2 (by decide) (fldPeel 1 6 (by decide) (fldAll _))))))))

theorem encI_has (op : BitVec 7) (f3 : BitVec 3) (imm : BitVec 12) (rs1 rd : Reg) : ∃ W : W32, encI op f3 imm rs1 rd = W ∧
    fld W 0 7 = op ∧ fld W 7 5 = rd ∧ fld W 12 3 = f3 ∧ fld W 15 5 = rs1 ∧ fld W 20 12 = imm := by
  refine ⟨_, rfl, ?_, ?_, ?_, ?_, ?_⟩
  · exact fldKeep 25 7
  · exact fldPeel 25 7 (by decide) (fldKeep 20 5)
  · exact fldPeel 25 7 (by decide) (fldPeel 20 5 (by decide) (fldKeep 17 3))
  · exact fldPeel 25 7 (by decide) (fldPeel 20 5 (by decide) (fldPeel 17 3 (by decide) (fldKeep 12 5)))
  · exact fldPeel 25 7 (by decide) (fldPeel 20 5 (by decide) (fldPeel 17 3 (by decide) (fldPeel 12 5 (by decide) (fldAll _))))

theorem encS_has (op : BitVec 7) (f3 : BitVec 3) (imm : BitVec 12) (rs1 rs2 : Reg) : ∃ W : W32, encS op f3 imm rs1 rs2 = W ∧
    fld W 0 7 = op ∧ fld W 7 5 = (imm.extractLsb' 0 5) ∧ fld W 12 3 = f3 ∧ fld W 15 5 = rs1 ∧ fld W 20 5 = rs2 ∧ fld W 25 7 = (imm.extractLsb' 5 7) := by
  refine ⟨_, rfl, ?_, ?_, ?_, ?_, ?_, ?_⟩
  · exact fldKeep 25 7
  · exact fldPeel 25 7 (by decide) (fldKeep 20 5)
  · exact fldPeel 25 7 (by decide) (fldPeel 20 5 (by decide) (fldKeep 17 3))
  · exact fldPeel 25 7 (by decide) (fldPeel 20 5 (by decide) (fldPeel 17 3 (by decide) (fldKeep 12 5)))
  · exact fldPeel 25 7 (by decide) (fldPeel 20 5 (by decide) (fldPeel 17 3 (by decide) (fldPeel 12 5 (by decide) (fldKeep 7 5))))
  · exact fldPeel 25 7 (by decide) (fldPeel 20 5 (by decide) (fldPeel 17 3 (by decide) (fldPeel 12 5 (by decide) (fldPeel 7 5 (by decide) (fldAll _)))))

theorem encB_has (f3 : BitVec 3) (imm : BitVec 12) (rs1 rs2 : Reg) : ∃ W : W32, encB f3 imm rs1 rs2 = W ∧
    fld W 0 7 = opBranch ∧ fld W 7 1 = (imm.extractLsb' 10 1) ∧ fld W 8 4 = (imm.extractLsb' 0 4) ∧ fld W 12 3 = f3 ∧ fld W 15 5 = rs1 ∧ fld W 20 5 = rs2 ∧ fld W 25 6 = (imm.extractLsb' 4 6) ∧ fld W 31 1 = (imm.extractLsb' 11 1) := by
  refine ⟨_, rfl, ?_, ?_, ?_, ?_, ?_, ?_, ?_, ?_⟩
  · exact fldKeep 25 7
  · exact fldPeel 25 7 (by decide) (fldKeep 24 1)
  · exact fldPeel 25 7 (by decide) (fldPeel 24 1 (by decide) (fldKeep 20 4))
  · exact fldPeel 25 7 (by decide) (fldPeel 24 1 (by decide) (fldPeel 20 4 (by decide) (fldKeep 17 3)))
  · exact fldPeel 25 7 (by decide) (fldPeel 24 1 (by decide) (fldPeel 20 4 (by decide) (fldPeel 17 3 (by decide) (fldKeep 12 5))))
  · exact fldPeel 25 7 (by decide) (fldPeel 24 1 (by decide) (fldPeel 20 4 (by decide) (fldPeel 17 3 (by decide) (fldPeel 12 5 (by decide) (fldKeep 7 5)))))
  · exact fldPeel 25 7 (by decide) (fldPeel 24 1 (by decide) (fldPeel 20 4 (by decide) (fldPeel 17 3 (by decide) (fldPeel 12 5 (by decide) (fldPeel 7 5 (by decide) (fldKeep 1 6))))))
  · exact fldPeel 25 7 (by decide) (fldPeel 24 1 (by decide) (fldPeel 20 4 (by decide) (fldPeel 17 3 (by decide) (fldPeel 12 5 (by decide) (fldPeel 7 5 (by decide) (fldPeel 1 6 (by decide) (fldAll _)))))))

theorem encU_has (op : BitVec 7) (imm : BitVec 20) (rd : Reg) : ∃ W : W32, encU op imm rd = W ∧
    fld W 0 7 = op ∧ fld W 7 5 = rd ∧ fld W 12 20 = imm := by
  refine ⟨_, rfl, ?_, ?_, ?_⟩
  · exact fldKeep 25 7
  · exact fldPeel 25 7 (by decide) (fldKeep 20 5)
  · exact fldPeel 25 7 (by decide) (fldPeel 20 5 (by decide) (fldAll _))

theorem encJ_has (imm : BitVec 20) (rd : Reg) : ∃ W : W32, encJ imm rd = W ∧
    fld W 0 7 = opJal ∧ fld W 7 5 = rd ∧ fld W 12 8 = (imm.extractLsb' 11 8) ∧ fld W 20 1 = (imm.extractLsb' 10 1) ∧ fld W 21 10 = (imm.extractLsb' 0 10) ∧ fld W 31 1 = (imm.extractLsb' 19 1) := by
  refine ⟨_, rfl, ?_, ?_, ?_, ?_, ?_, ?_⟩
  · exact fldKeep 25 7
  · exact fldPeel 25 7 (by decide) (fldKeep 20 5)
  · exact fldPeel 25 7 (by decide) (fldPeel 20 5 (by decide) (fldKeep 12 8))
  · exact fldPeel 25 7 (by decide) (fldPeel 20 5 (by decide) (fldPeel 12 8 (by decide) (fldKeep 11 1)))
  · exact fldPeel 25 7 (by decide) (fldPeel 20 5 (by decide) (fldPeel 12 8 (by decide) (fldPeel 11 1 (by decide) (fldKeep 1 10))))
  · exact fldPeel 25 7 (by decide) (fldPeel 20 5 (by decide) (fldPeel 12 8 (by decide) (fldPeel 11 1 (by decide) (fldPeel 1 10 (by decide) (fldAll _)))))

theorem encFence_has (fm p q : BitVec 4) (rs1 rd : Reg) : ∃ W : W32, (fm ++ p ++ q ++ rs1 ++ (0 : BitVec 3) ++ rd ++ opMiscMem : W32) = W ∧
    fld W 0 7 = opMiscMem ∧ fld W 7 5 = rd ∧ fld W 12 3 = (0 : BitVec 3) ∧ fld W 15 5 = rs1 ∧ fld W 20 4 = q ∧ fld W 24 4 = p ∧ fld W 28 4 = fm := by
  refine ⟨_, rfl, ?_, ?_, ?_, ?_, ?_, ?_, ?_⟩
  · exact fldKeep 25 7
  · exact fldPeel 25 7 (by decide) (fldKeep 20 5)
  · exact fldPeel 25 7 (by decide) (fldPeel 20 5 (by decide) (fldKeep 17 3))
  · exact fldPeel 25 7 (by decide) (fldPeel 20 5 (by decide) (fldPeel 17 3 (by decide) (fldKeep 12 5)))
  · exact fldPeel 25 7 (by decide) (fldPeel 20 5 (by decide) (fldPeel 17 3 (by decide) (fldPeel 12 5 (by decide) (fldKeep 8 4))))
  · exact fldPeel 25 7 (by decide) (fldPeel 20 5 (by decide) (fldPeel 17 3 (by decide) (fldPeel 12 5 (by decide) (fldPeel 8 4 (by decide) (fldKeep 4 4)))))
  · exact fldPeel 25 7 (by decide) (fldPeel 20 5 (by decide) (fldPeel 17 3 (by decide) (fldPeel 12 5 (by decide) (fldPeel 8 4 (by decide) (fldPeel 4 4 (by decide) (fldAll _))))))

theorem encCsr_has (csr : BitVec 12) (f : CsrForm) : ∃ W : W32, encCsr csr f = W ∧
    fld W 0 7 = opSystem ∧ fld W 7 5 = f.rd ∧ fld W 12 3 = f.f3 ∧ fld W 15 5 = f.src ∧ fld W 20 12 = csr := by
  refine ⟨_, rfl, ?_, ?_, ?_, ?_, ?_⟩
  · exact fldKeep 25 7
  · exact fldPeel 25 7 (by decide) (fldKeep 20 5)
  · exact fldPeel 25 7 (by decide) (fldPeel 20 5 (by decide) (fldKeep 17 3))
  · exact fldPeel 25 7 (by decide) (fldPeel 20 5 (by decide) (fldPeel 17 3 (by decide) (fldKeep 12 5)))
  · exact fldPeel 25 7 (by decide) (fldPeel 20 5 (by decide) (fldPeel 17 3 (by decide) (fldPeel 12 5 (by decide) (fldAll _))))

theorem fld_fld (w : W32) (lo len a b : Nat) (h : a + b ≤ len) : (fld w lo len).extractLsb' a b = fld w (lo + a) b := by
  apply BitVec.eq_of_getLsbD_eq
  intro i hi
  simp [fld, hi, Nat.add_assoc]
  intro; omega

theorem fld_bit (w : W32) (lo len a : Nat) (h : a < len) : (fld w lo len).getLsbD a = w.getLsbD (lo + a) := by
  simp [fld, h]

theorem decodeWord_of {W : W32} {o : BitVec 7} (h : fld W 0 7 = o) : fld W 0 2 = o.extractLsb' 0 2 ∧ fld W 2 3 = o.extractLsb' 2 3 ∧
    fld W 2 5 = o.extractLsb' 2 5 := by
  subst h
  refine ⟨(fld_fld W 0 7 0 2 (by decide)).symm, (fld_fld W 0 7 2 3 (by decide)).symm, (fld_fld W 0 7 2 5 (by decide)).symm⟩

theorem custom0_of {W : W32} (h : fld W 0 7 = opCustom0) : decodeWord W = decodeCustom0 W := by
  obtain ⟨a, b, c⟩ := decodeWord_of h
  unfold decodeWord; rw [a, b, c]; rfl
theorem custom1_of {W : W32} (h : fld W 0 7 = opCustom1) : decodeWord W = decodeCustom1 W := by
  obtain ⟨a, b, c⟩ := decodeWord_of h
  unfold decodeWord; rw [a, b, c]; rfl
theorem custom2_of {W : W32} (h : fld W 0 7 = opCustom2) : decodeWord W = decodeCustom2 W := by
  obtain ⟨a, b, c⟩ := decodeWord_of h
  unfold decodeWord; rw [a, b, c]; rfl
theorem custom3_of {W : W32} (h : fld W 0 7 = opCustom3) : decodeWord W = decodeCustom3 W := by
  obtain ⟨a, b, c⟩ := decodeWord_of h
  unfold decodeWord; rw [a, b, c]; rfl

end Sys2Proof
end

