-- ==== Sys2Proof/Laws/Home.lean ====
section
/-! SUPPORT. What the operations on futures leave alone: every register of every hart but reservations (R147 to R166). -/

namespace Sys2Proof.Machine

theorem keeps_foldl {α : Type} (f : State → α → State) (h : ∀ s a, KeepsHarts s (f s a)) (l : List α) (s : State) :
    KeepsHarts s (l.foldl f s) := by
  induction l generalizing s with
  | nil => exact KeepsHarts.refl s
  | cons a r ih => exact (h s a).trans (ih _)

theorem State.modCluster_keeps (s : State) (c : Nat) (f : Cluster → Cluster) : KeepsHarts s (s.modCluster c f) :=
  KeepsHarts.of_harts rfl rfl
theorem State.setFut_keeps (s : State) (h : Word) (f : Future) : KeepsHarts s (s.setFut h f) := KeepsHarts.of_harts rfl rfl
theorem State.freeFut_keeps (s : State) (h : Word) (f : Future) : KeepsHarts s (s.freeFut h f) := s.setFut_keeps _ _
theorem State.post_keeps (s : State) (i : Instr) : KeepsHarts s (s.post i) := KeepsHarts.of_harts rfl rfl
theorem State.setTask_keeps (s : State) (h : Word) (t : Task) : KeepsHarts s (s.setTask h t) := KeepsHarts.of_harts rfl rfl

theorem State.modTask_keeps (s : State) (h : Word) (f : Task → Task) : KeepsHarts s (s.modTask h f) := by
  rw [State.modTask_rest]; exact KeepsHarts.of_harts rfl rfl

theorem State.modLaunch_keeps (s : State) (l : Nat) (f : Launch → Launch) : KeepsHarts s (s.modLaunch l f) := by
  unfold State.modLaunch
  split
  · exact KeepsHarts.of_harts rfl rfl
  · exact KeepsHarts.refl s

theorem writeUnits_touched (p : Option Nat) (ls : List (Loc × Nat)) (s : State) (bs : List Byte) :
    Touched s (writeUnits s p ls bs) := by
  induction ls generalizing s bs with
  | nil => exact Touched.refl s
  | cons e r ih => exact (s.write_touched _ _ _ _).trans (ih _ _)

theorem State.writeSpill_keeps (s : State) (c i : Nat) (bs : List Byte) : KeepsHarts s (s.writeSpill c i bs) := by
  unfold State.writeSpill State.pokeVia
  split
  · rename_i t ls h
    exact (resolve_touched _ _ _ _ _ _ _ _ h).keeps.trans (writeUnits_touched _ _ _ _).keeps
  · exact KeepsHarts.refl s

theorem State.clearSpill_keeps (s : State) (c i : Nat) : KeepsHarts s (s.clearSpill c i) := s.writeSpill_keeps _ _ _

theorem State.dropWaiters_keeps (s : State) (c : Nat) (p : Waiter → Bool) : KeepsHarts s (s.dropWaiters c p) := by
  unfold State.dropWaiters
  refine (s.modCluster_keeps c _).trans (keeps_foldl _ ?_ _ _)
  intro s w
  split
  · exact s.clearSpill_keeps _ _
  · exact KeepsHarts.refl s

theorem State.leaveWaits_keeps (s : State) (w : Word) : KeepsHarts s (s.leaveWaits w) := by
  unfold State.leaveWaits
  refine keeps_foldl _ ?_ _ _
  intro s e
  split
  · exact s.dropWaiters_keeps _ _
  · exact KeepsHarts.refl s

theorem State.sendWake_keeps (s : State) (t : Word) (w : Wake) : KeepsHarts s (s.sendWake t w) := by
  unfold State.sendWake
  split
  · split
    · exact KeepsHarts.of_harts rfl rfl
    · exact KeepsHarts.refl s
  · split
    · exact KeepsHarts.refl s
    · exact KeepsHarts.of_harts rfl rfl

theorem wakeAll_keeps (st : Nat) (v : Word) (vd : Nat) (o : Bool) (c : Nat) (l : List Waiter) (s : State) :
    KeepsHarts s (wakeAll s st v vd o c l) := by
  induction l generalizing s with
  | nil => exact KeepsHarts.refl s
  | cons w r ih =>
    unfold wakeAll
    simp only []
    refine KeepsHarts.trans ?_ (ih _)
    split
    · exact (s.leaveWaits_keeps _).trans (State.sendWake_keeps _ _ _)
    · exact s.sendWake_keeps _ _

theorem State.touchDone_keeps (s : State) (h : Word) (w : Option Word) : KeepsHarts s (s.touchDone h w) := by
  unfold State.touchDone
  split
  · split
    · simp only []
      split <;> split <;> first | exact s.freeFut_keeps _ _ | exact s.setFut_keeps _ _
    · exact KeepsHarts.refl s
  · split
    · split
      · exact s.clearSpill_keeps _ _
      · exact KeepsHarts.refl s
    · exact KeepsHarts.refl s

theorem quietPrefetches_keeps (c : Nat) (l : List (StageArg × Prefetch)) (s : State) :
    KeepsHarts s (quietPrefetches s c l) := by
  induction l generalizing s with
  | nil => exact KeepsHarts.refl s
  | cons e r ih =>
    obtain ⟨a, p⟩ := e
    cases p with
    | copying n =>
      rw [quietPrefetches]
      refine KeepsHarts.trans (t := s.modStage c a.stage.toNat _) ?_ (ih _)
      exact KeepsHarts.of_harts rfl rfl
    | _ => rw [quietPrefetches] <;> first | exact ih _ | simp

theorem State.makeTerminal_keeps (s : State) (h : Word) (st : Nat) (v : Word) (vd : Nat) :
    KeepsHarts s (s.makeTerminal h st v vd) := by
  unfold State.makeTerminal
  split
  · exact KeepsHarts.refl s
  · simp only []
    have a (q : State) (f : Future) (p : Waiter → Bool) (vd : Nat) (o : Bool) (c : Nat) (ws : List Waiter) (hq : KeepsHarts s q) :
        KeepsHarts s (wakeAll ((q.setFut h f).dropWaiters (q.homeOf h) p) st v vd o c ws) :=
      ((hq.trans (q.setFut_keeps _ _)).trans (State.dropWaiters_keeps _ _ _)).trans (wakeAll_keeps _ _ _ _ _ _ _)
    have b : KeepsHarts s s.tick := KeepsHarts.of_harts rfl rfl
    have d (q : State) (c : Prop) [Decidable c] (hq : KeepsHarts s q) : KeepsHarts s (if c then q.touchDone h none else q) := by
      split
      · exact hq.trans (State.touchDone_keeps _ _ _)
      · exact hq
    exact d _ _ (a _ _ _ _ _ _ _ b)

theorem State.endOne_keeps (s : State) (h : Word) (how : EndKind) : KeepsHarts s (s.endOne h how) := by
  unfold State.endOne
  split
  · exact KeepsHarts.refl s
  · split
    · exact KeepsHarts.refl s
    · simp only []
      split
      · split
        · exact s.makeTerminal_keeps _ _ _ _
        · exact KeepsHarts.refl s
      · refine KeepsHarts.trans ?_ (State.post_keeps _ _)
        refine KeepsHarts.trans ?_ (State.setTask_keeps _ _ _)
        have a (c : Prop) [Decidable c] (st v vd) : KeepsHarts s (if c then s.makeTerminal h st v vd else s) := by
          split
          · exact s.makeTerminal_keeps _ _ _ _
          · exact KeepsHarts.refl s
        split
        · exact (a _ _ _ _).trans (quietPrefetches_keeps _ _ _)
        · exact a _ _ _ _

theorem State.raiseVerdict_keeps (s : State) (h : Word) (v : Nat) : KeepsHarts s (s.raiseVerdict h v) :=
  KeepsHarts.of_harts (s.raiseVerdict_harts h v) (s.raiseVerdict_cur h v)

theorem spreadTaint_keeps (n : Nat) (s : State) : KeepsHarts s (spreadTaint n s) := by
  induction n generalizing s with
  | zero => exact KeepsHarts.refl s
  | succ n ih =>
    unfold spreadTaint
    split
    · exact (s.modLaunch_keeps _ _).trans (ih _)
    · exact KeepsHarts.refl s

theorem State.addSource_keeps (s : State) (l k : Nat) : KeepsHarts s (s.addSource l k) := by
  unfold State.addSource
  split
  · exact KeepsHarts.refl s
  · exact (s.modLaunch_keeps _ _).trans ((spreadTaint_keeps _ _).trans (KeepsHarts.of_harts rfl rfl))

theorem State.signal_keeps (s : State) (l : Launch) : KeepsHarts s (s.signal l) := by
  unfold State.signal
  split
  · exact KeepsHarts.of_harts rfl rfl
  · exact KeepsHarts.refl s

theorem State.amendOne_keeps (s : State) (k : Nat) (l : Launch) : KeepsHarts s (s.amendOne k l) := by
  unfold State.amendOne
  split
  · simp only []
    split
    · exact KeepsHarts.refl s
    · split
      · rename_i t ls h
        exact (resolve_touched _ _ _ _ _ _ _ _ h).keeps.trans ((writeUnits_touched _ _ _ _).keeps.trans
          ((State.modLaunch_keeps _ _ _).trans (State.signal_keeps _ _)))
      · exact KeepsHarts.refl s
  · exact KeepsHarts.refl s

theorem amendEach_keeps (l : List (Nat × Launch)) (s : State) : KeepsHarts s (amendEach l s) := by
  induction l generalizing s with
  | nil => exact KeepsHarts.refl s
  | cons e r ih => exact (s.amendOne_keeps _ _).trans (ih _)

theorem State.amend_keeps (s : State) : KeepsHarts s s.amend :=
  KeepsHarts.trans (t := s.settleVerdicts) (KeepsHarts.of_harts rfl rfl) (amendEach_keeps _ _)

theorem State.takesFrom_keeps (s : State) (t : Word) (k : Option Nat) : KeepsHarts s (s.takesFrom t k) := by
  unfold State.takesFrom
  split
  · exact (s.addSource_keeps _ _).trans (State.amend_keeps _)
  · exact KeepsHarts.refl s

theorem State.completeTouch_keeps (s : State) (t h : Word) (v : Nat) (w : Bool) (k : Option Nat) :
    KeepsHarts s (s.completeTouch t h v w k) :=
  ((s.raiseVerdict_keeps _ _).trans (State.takesFrom_keeps _ _ _)).trans (State.touchDone_keeps _ _ _)

theorem State.addWaiter_keeps (s t : State) (h k : Word) (any : Bool) (i e : Nat) (a : s.addWaiter h k any i e = some t) :
    KeepsHarts s t := by
  unfold State.addWaiter at a
  simp only [] at a
  split at a
  · injection a with a; rw [← a]; exact KeepsHarts.of_harts rfl rfl
  · split at a
    · cases a
    · injection a with a; rw [← a]; exact (s.writeSpill_keeps _ _ _).trans (KeepsHarts.of_harts rfl rfl)

theorem State.homeTouch_keeps (s : State) (h k : Word) (any : Bool) (i e : Nat) : KeepsHarts s (s.homeTouch h k any i e).1 := by
  unfold State.homeTouch
  split
  · split
    · exact KeepsHarts.refl s
    · split
      · rename_i t ht; exact s.addWaiter_keeps t _ _ _ _ _ ht
      · exact KeepsHarts.refl s
  · split <;> exact KeepsHarts.refl s

/-- An operation at a future's home changes no hart but for reservations. -/
theorem State.homeApply_keeps (s : State) (h : Word) (op : HomeOp) : KeepsHarts s (s.homeApply h op).1 := by
  unfold State.homeApply
  cases op with
  | touch w e => exact s.homeTouch_keeps _ _ _ _ _
  | tanyWait w i e => exact s.homeTouch_keeps _ _ _ _ _
  | leave w => exact s.dropWaiters_keeps _ _
  | tanyCheck => simp only []; split <;> (try split) <;> exact KeepsHarts.refl s
  | tpoll => simp only []; split <;> (try split) <;> exact KeepsHarts.refl s
  | resolve v d =>
    simp only []
    split
    · split
      · exact KeepsHarts.refl s
      · split
        · exact KeepsHarts.refl s
        · exact s.makeTerminal_keeps _ _ _ _
    · split <;> exact KeepsHarts.refl s
  | cancel =>
    simp only []
    split
    · split
      · exact KeepsHarts.refl s
      · exact s.endOne_keeps _ _
    · split <;> exact KeepsHarts.refl s
  | poison w =>
    simp only []
    split
    · split
      · exact KeepsHarts.refl s
      · exact s.endOne_keeps _ _
    · split <;> exact KeepsHarts.refl s
  | frel =>
    simp only []
    split
    · split
      · exact s.freeFut_keeps _ _
      · exact KeepsHarts.refl s
    · split
      · exact s.clearSpill_keeps _ _
      · exact KeepsHarts.refl s

theorem State.takeSlot_keeps (s t : State) (c : Nat) (f : Future) (h : Word) (a : s.takeSlot c f = some (t, h)) : KeepsHarts s t := by
  unfold State.takeSlot at a
  split at a
  · cases a
  · simp only [Option.some.injEq, Prod.mk.injEq] at a
    rw [← a.1]; exact KeepsHarts.of_harts rfl rfl

theorem State.spillOne_keeps (s t : State) (c : Nat) (a : s.spillOne c = some t) : KeepsHarts s t := by
  unfold State.spillOne at a
  split at a
  · cases a
  · simp only [] at a
    split at a
    · cases a
    · injection a with a
      rw [← a]
      exact (s.writeSpill_keeps _ _ _).trans ((State.freeFut_keeps _ _ _).trans (State.modLaunch_keeps _ _ _))

theorem State.allocFuture_keeps (s t : State) (c : Nat) (f : Future) (h : Word) (a : s.allocFuture c f = some (t, h)) :
    KeepsHarts s t := by
  unfold State.allocFuture at a
  split at a
  · rename_i r hr
    rw [a] at hr
    exact s.takeSlot_keeps t c f h hr
  · obtain ⟨q, hq, a'⟩ := Option.bind_eq_some_iff.1 a
    exact (s.spillOne_keeps q c hq).trans (q.takeSlot_keeps t c f h a')

/-- A request that its home answers at once. -/
theorem State.ask_here (s : State) (h : Word) (op : HomeOp) (t : State) (r : Reply) (l : s.isHere h = true)
    (e : s.homeApply h op = (t, some r)) (n : ∀ c b v, r ≠ .trap c b v) : s.ask h op = .ok (t, r) := by
  unfold State.ask
  rw [if_pos l, e]
  cases r with
  | trap c b v => exact absurd rfl (n c b v)
  | _ => rfl

theorem State.ask_trap (s : State) (h : Word) (op : HomeOp) (t : State) (c b : Nat) (v : Word) (l : s.isHere h = true)
    (e : s.homeApply h op = (t, some (.trap c b v))) : s.ask h op = .error (.trap c b v) := by
  unfold State.ask
  rw [if_pos l, e]

end Sys2Proof.Machine
end

