-- ==== Sys2Proof/Laws/Leave.lean ====
section
/-! SUPPORT. What stage, slot and tile bookkeeping leaves alone, and how a task that leaves frees its hart (R163, R183). -/

namespace Sys2Proof.Machine

theorem State.modPair_keeps (s : State) (p : Nat) (f : Pair → Pair) : KeepsHarts s (s.modPair p f) := KeepsHarts.of_harts rfl rfl
theorem State.modStage_keeps (s : State) (c n : Nat) (f : Stage → Stage) : KeepsHarts s (s.modStage c n f) :=
  KeepsHarts.of_harts rfl rfl

theorem State.retryPrefetches_keeps (s : State) (c : Nat) : KeepsHarts s (s.retryPrefetches c) := by
  unfold State.retryPrefetches
  refine keeps_foldl _ ?_ _ _
  intro s e
  split
  · refine keeps_foldl _ ?_ _ _
    intro s p
    split
    · exact s.post_keeps _
    · exact KeepsHarts.refl s
  · exact KeepsHarts.refl s

theorem State.prefetchesHoisted_keeps (s : State) (c n : Nat) : KeepsHarts s (s.prefetchesHoisted c n) := by
  unfold State.prefetchesHoisted
  refine keeps_foldl _ ?_ _ _
  intro s e
  split
  · exact KeepsHarts.of_harts rfl rfl
  · exact KeepsHarts.refl s

theorem State.hoistStage_keeps (s : State) (c n : Nat) : KeepsHarts s (s.hoistStage c n) := by
  unfold State.hoistStage
  simp only []
  refine KeepsHarts.trans ?_ (State.retryPrefetches_keeps _ _)
  split
  · exact (s.modStage_keeps c n _).trans (State.prefetchesHoisted_keeps _ _ _)
  · exact s.modStage_keeps c n _

theorem State.hoistIfDue_keeps (s : State) (c n : Nat) : KeepsHarts s (s.hoistIfDue c n) := by
  unfold State.hoistIfDue
  split
  · exact s.hoistStage_keeps _ _
  · exact KeepsHarts.refl s

theorem State.matchStage_keeps (s : State) (c n : Nat) : KeepsHarts s (s.matchStage c n) := by
  unfold State.matchStage
  simp only []
  split
  · exact (s.modStage_keeps c n _).trans (State.hoistIfDue_keeps _ _ _)
  · exact KeepsHarts.refl s

theorem State.armStage_keeps (s : State) (c n : Nat) (t : BitVec 32) : KeepsHarts s (s.armStage c n t) :=
  (s.modStage_keeps c n _).trans (State.matchStage_keeps _ _ _)

theorem State.disarmStage_keeps (s : State) (c n : Nat) : KeepsHarts s (s.disarmStage c n) :=
  (s.modStage_keeps c n _).trans (State.retryPrefetches_keeps _ _)

theorem freeShadows_keeps (p : Nat) (l : List (Nat × Nat)) (s : State) : KeepsHarts s (freeShadows s p l) := by
  rw [freeShadows_rest]; exact KeepsHarts.of_harts rfl rfl

theorem freeTiles_keeps (p : Nat) (l : List Nat) (s : State) : KeepsHarts s (freeTiles s p l) := by
  induction l generalizing s with
  | nil => exact KeepsHarts.refl s
  | cons t r ih => exact (State.modPair_keeps s p _).trans (ih _)

theorem dropLifts_keeps (c : Nat) (l : List Axis) (s : State) : KeepsHarts s (dropLifts s c l) := by
  induction l generalizing s with
  | nil => exact KeepsHarts.refl s
  | cons a r ih =>
    unfold dropLifts
    extract_lets s1
    have k : KeepsHarts s s1 := s.modStage_keeps c _ _
    refine k.trans (KeepsHarts.trans ?_ (ih _))
    split
    · exact State.retryPrefetches_keeps _ _
    · exact KeepsHarts.refl _

theorem State.dropTask_keeps (s : State) (h : Word) : KeepsHarts s (s.dropTask h) := KeepsHarts.of_harts rfl rfl

theorem State.leaveTiles_keeps (s : State) (h : Word) : KeepsHarts s (s.leaveTiles h) := by
  unfold State.leaveTiles
  split
  · exact KeepsHarts.refl s
  · split
    · split
      · exact KeepsHarts.refl s
      · exact (freeTiles_keeps _ _ _).trans ((dropLifts_keeps _ _ _).trans (State.dropTask_keeps _ _))
    · exact KeepsHarts.refl s

theorem State.pokeVia_keeps (s : State) (v : View) (a : Word) (bs : List Byte) : KeepsHarts s ((s.pokeVia v a bs).getD s) := by
  unfold State.pokeVia
  split
  · rename_i t ls h
    exact (resolve_touched _ _ _ _ _ _ _ _ h).keeps.trans (writeUnits_touched _ _ _ _).keeps
  · exact KeepsHarts.refl s

theorem writeSlots_keeps (v : View) (b : Word) (n : Nat) (l : List Task) (i : Nat) (s : State) : KeepsHarts s (writeSlots v b n i l s) := by
  induction l generalizing i s with
  | nil => exact KeepsHarts.refl s
  | cons t r ih => exact (s.pokeVia_keeps _ _ _).trans (ih _ _)

theorem State.packRing_keeps (s : State) (c : Nat) : KeepsHarts s (s.packRing c) := by
  unfold State.packRing
  exact (writeSlots_keeps _ _ _ _ _ _).trans (State.modCluster_keeps _ _ _)

theorem State.dropToucher_keeps (s : State) (h : Word) : KeepsHarts s (s.dropToucher h) := by
  unfold State.dropToucher
  refine keeps_foldl _ ?_ _ _
  intro s e
  split
  · simp only []
    split <;> exact KeepsHarts.of_harts rfl rfl
  · exact KeepsHarts.refl s

theorem holdLifts_keeps (c : Nat) (l : List Axis) (s : State) : KeepsHarts s (holdLifts s c l) := by
  induction l generalizing s with
  | nil => exact KeepsHarts.refl s
  | cons a r ih => exact (s.modStage_keeps c _ _).trans (ih _)

theorem State.stopSlot_keeps (s : State) (c n k : Nat) : KeepsHarts s (s.stopSlot c n k) := KeepsHarts.of_harts rfl rfl
theorem State.setSlot_keeps (s : State) (c n : Nat) (x : CopySlot) : KeepsHarts s (s.setSlot c n x) := KeepsHarts.of_harts rfl rfl

theorem State.freeSlot_keeps (s : State) (c n : Nat) : KeepsHarts s (s.freeSlot c n) := by
  unfold State.freeSlot
  exact (s.stopSlot_keeps c n 0).trans ((State.setSlot_keeps _ _ _ _).trans (State.retryPrefetches_keeps _ _))

theorem freeReported_keeps (s : State) (c : Nat) (h : Word) : KeepsHarts s (freeReported s c h) := by
  unfold freeReported
  exact keeps_foldl _ (fun s e => s.freeSlot_keeps _ _) _ _

theorem State.dropPlaces_keeps (s : State) (h : Word) : KeepsHarts s (s.dropPlaces h) := KeepsHarts.of_harts rfl rfl

theorem Table.get_mapVal {α : Type} (t : Table α) (f : Nat → α → α) (k : Nat) (d : α) (h : f k d = d) :
    Table.get (Table.mapVal t f) k d = f k (Table.get t k d) := by
  unfold Table.get
  rw [Table.find_mapVal]
  cases Table.find t k with
  | none => simp [h]
  | some x => rfl

/-- A task that is taken out of the machine leaves the hart it ran on free. -/
theorem State.removeTask_me (s : State) (h : Word) (t : Task) (a : s.task? h = some t) (b : s.me.task = some h)
    (m : s.me.mode = Mode.u) : (s.removeTask h).me.task = none ∧ (s.removeTask h).me.mode = Mode.u ∧
      (s.removeTask h).cur = s.cur := by
  have tail : ∀ s1 : State, KeepsHarts s s1 → ∀ u : State,
      KeepsHarts (((((freeReported s1 t.cluster h).dropPlaces h).leaveWaits h).dropToucher h).releaseHarts h) u →
      u.me.task = none ∧ u.me.mode = Mode.u ∧ u.cur = s.cur := by
    intro s1 k1
    have k2 : KeepsHarts s ((((freeReported s1 t.cluster h).dropPlaces h).leaveWaits h).dropToucher h) :=
      k1.trans ((freeReported_keeps _ _ _).trans
        ((State.dropPlaces_keeps _ _).trans ((State.leaveWaits_keeps _ _).trans (State.dropToucher_keeps _ _))))
    generalize ((((freeReported s1 t.cluster h).dropPlaces h).leaveWaits h).dropToucher h) = s2 at k2 ⊢
    intro u ku
    obtain ⟨r, hr⟩ := k2.me
    have ht : s2.me.task = some h := by rw [hr]; exact b
    have hm : s2.me.mode = Mode.u := by rw [hr]; exact m
    have key : (s2.releaseHarts h).me = { s2.me with
        task := none, freeOnSret := false, pfx := none, resv := none, waiting := none, jumped := false } := by
      show (s2.releaseHarts h).hart s2.cur = _
      unfold State.hart State.releaseHarts
      rw [Table.get_mapVal]
      · have e1 : (s2.harts.get s2.cur Hart.zero) = s2.me := rfl
        rw [e1]
        simp only [ht, hm, if_true]
      · have : (Hart.zero).task ≠ some h := by simp [Hart.zero]
        simp only [this, if_false]
    obtain ⟨q, hq⟩ := ku.me
    rw [hq, key]
    exact ⟨rfl, hm, ku.cur.trans k2.cur⟩
  have after : ∀ s1 u : State, KeepsHarts s1 u →
      KeepsHarts s1 (if t.state = TaskState.ring then u.packRing t.cluster else u.post (.taskRingRefill t.cluster)) := by
    intro s1 u k
    split
    · exact k.trans (State.packRing_keeps _ _)
    · exact k.trans (State.post_keeps _ _)
  unfold State.removeTask
  rw [a]
  cases hp : t.pair with
  | none =>
    simp only [hp]
    refine tail s (KeepsHarts.refl s) _ (after _ _ ?_)
    split
    · exact (State.modCluster_keeps _ _ _).trans ((State.setTask_keeps _ _ _).trans ((quietPrefetches_keeps _ _ _).trans (State.post_keeps _ _)))
    · exact (State.modCluster_keeps _ _ _).trans ((dropLifts_keeps _ _ _).trans (State.dropTask_keeps _ _))
  | some p =>
    simp only [hp]
    exact tail _ (freeShadows_keeps _ _ _) _ (after _ _
      ((State.modCluster_keeps _ _ _).trans ((State.setTask_keeps _ _ _).trans (State.leaveTiles_keeps _ _))))

theorem State.countRoot_keeps (s : State) (t : Task) (b : Bool) : KeepsHarts s (s.countRoot t b) := by
  unfold State.countRoot
  split
  · exact s.modLaunch_keeps _ _
  · exact KeepsHarts.refl s

theorem State.afterEnd_keeps (s : State) (h : Word) (t : Task) (b : Bool) : KeepsHarts s (s.afterEnd h t b).1 := by
  unfold State.afterEnd
  extract_lets kids last tasks s1 rest isOver
  have k : KeepsHarts s s1 := by
    simp only [s1]
    split
    · exact s.modLaunch_keeps _ _
    · exact KeepsHarts.refl s
  show KeepsHarts s (if isOver then s1.post _ else s1)
  split
  · exact k.trans (State.post_keeps _ _)
  · exact k

theorem State.endMany_keeps (s : State) (l : List (Word × EndKind)) : KeepsHarts s (s.endMany l) := by
  unfold State.endMany
  exact keeps_foldl _ (fun s e => s.endOne_keeps _ _) _ _

/-- No task is lost. -/
def TasksStay (s t : State) : Prop := ∀ h, (s.task? h).isSome = true → (t.task? h).isSome = true

theorem TasksStay.refl (s : State) : TasksStay s s := fun _ => id
theorem TasksStay.trans {s t u : State} (a : TasksStay s t) (b : TasksStay t u) : TasksStay s u := fun h x => b h (a h x)
theorem TasksStay.of_tasks {s t : State} (e : t.tasks = s.tasks) : TasksStay s t := fun h x => by
  rw [State.task?_congr e]; exact x

theorem stay_foldl {α : Type} (f : State → α → State) (h : ∀ s a, TasksStay s (f s a)) (l : List α) (s : State) :
    TasksStay s (l.foldl f s) := by
  induction l generalizing s with
  | nil => exact TasksStay.refl s
  | cons a r ih => exact (h s a).trans (ih _)

theorem State.setTask_stay (s : State) (h : Word) (t : Task) : TasksStay s (s.setTask h t) := by
  intro k x
  unfold State.task? State.setTask
  by_cases e : k.toNat = h.toNat
  · simp only [e, Table.find_put_same]; rfl
  · rw [Table.find_put_other _ _ _ _ e]; exact x

theorem State.clearSpill_tasks (s : State) (c i : Nat) : (s.clearSpill c i).tasks = s.tasks := by
  unfold State.clearSpill State.writeSpill State.pokeVia
  split
  · rename_i t ls h
    have h1 := (resolve_touched _ _ _ _ _ _ _ _ h).rest
    have h2 := (writeUnits_touched (s.superView c).part ls t (leBytes 32 0)).rest
    show (writeUnits t (s.superView c).part ls (leBytes 32 0)).tasks = _
    rw [h2, h1]
  · rfl

theorem State.dropWaiters_stay (s : State) (c : Nat) (p : Waiter → Bool) : TasksStay s (s.dropWaiters c p) := by
  unfold State.dropWaiters
  refine TasksStay.trans (TasksStay.of_tasks (t := s.modCluster c _) rfl) (stay_foldl _ ?_ _ _)
  intro s w
  split
  · exact TasksStay.of_tasks (s.clearSpill_tasks _ _)
  · exact TasksStay.refl s

theorem State.leaveWaits_stay (s : State) (w : Word) : TasksStay s (s.leaveWaits w) := by
  unfold State.leaveWaits
  refine stay_foldl _ ?_ _ _
  intro s e
  split
  · exact s.dropWaiters_stay _ _
  · exact TasksStay.refl s

theorem State.sendWake_stay (s : State) (t : Word) (w : Wake) : TasksStay s (s.sendWake t w) := by
  unfold State.sendWake
  split
  · split
    · exact (s.setTask_stay _ _).trans (TasksStay.of_tasks rfl)
    · exact TasksStay.refl s
  · split
    · exact TasksStay.refl s
    · exact TasksStay.of_tasks rfl

theorem wakeAll_stay (st : Nat) (v : Word) (vd : Nat) (o : Bool) (c : Nat) (l : List Waiter) (s : State) :
    TasksStay s (wakeAll s st v vd o c l) := by
  induction l generalizing s with
  | nil => exact TasksStay.refl s
  | cons w r ih =>
    unfold wakeAll
    simp only []
    refine TasksStay.trans ?_ (ih _)
    split
    · exact (s.leaveWaits_stay _).trans (State.sendWake_stay _ _ _)
    · exact s.sendWake_stay _ _

theorem State.touchDone_stay (s : State) (h : Word) (w : Option Word) : TasksStay s (s.touchDone h w) := by
  unfold State.touchDone
  split
  · split
    · simp only []
      split <;> split <;> exact TasksStay.of_tasks rfl
    · exact TasksStay.refl s
  · split
    · split
      · exact TasksStay.of_tasks (s.clearSpill_tasks _ _)
      · exact TasksStay.refl s
    · exact TasksStay.refl s

theorem State.makeTerminal_stay (s : State) (h : Word) (st : Nat) (v : Word) (vd : Nat) : TasksStay s (s.makeTerminal h st v vd) := by
  unfold State.makeTerminal
  split
  · exact TasksStay.refl s
  · simp only []
    have a (q : State) (f : Future) (p : Waiter → Bool) (vd : Nat) (o : Bool) (c : Nat) (ws : List Waiter) (hq : TasksStay s q) :
        TasksStay s (wakeAll ((q.setFut h f).dropWaiters (q.homeOf h) p) st v vd o c ws) :=
      ((hq.trans (TasksStay.of_tasks (t := q.setFut h f) rfl)).trans (State.dropWaiters_stay _ _ _)).trans (wakeAll_stay _ _ _ _ _ _ _)
    have b : TasksStay s s.tick := TasksStay.of_tasks rfl
    have d (q : State) (c : Prop) [Decidable c] (hq : TasksStay s q) : TasksStay s (if c then q.touchDone h none else q) := by
      split
      · exact hq.trans (State.touchDone_stay _ _ _)
      · exact hq
    exact d _ _ (a _ _ _ _ _ _ _ b)

/-- `texit` frees its hart (R183). -/
theorem State.exitTask_me (s : State) (h v : Word) (t : Task) (a : s.task? h = some t) (b : s.me.task = some h)
    (m : s.me.mode = Mode.u) : (s.exitTask h v).me.task = none ∧ (s.exitTask h v).me.mode = Mode.u ∧
      (s.exitTask h v).cur = s.cur := by
  unfold State.exitTask
  rw [a]
  simp only []
  generalize hs1 : (if s.isTerminal h then s else s.makeTerminal h 3 v (s.seenVerdict t.launch t.verdict.toNat) : State) = s1
  have k1 : KeepsHarts s s1 := by
    rw [← hs1]
    split
    · exact KeepsHarts.refl s
    · exact s.makeTerminal_keeps _ _ _ _
  have g : ∀ q : State, q.me.task = none ∧ q.me.mode = Mode.u ∧ q.cur = s.cur → ∀ u, KeepsHarts q u →
      u.me.task = none ∧ u.me.mode = Mode.u ∧ u.cur = s.cur := by
    rintro q ⟨q1, q2, q3⟩ u ku
    obtain ⟨r, hr⟩ := ku.me
    exact ⟨by rw [hr]; exact q1, by rw [hr]; exact q2, ku.cur.trans q3⟩
  refine g (s1.removeTask h) ?_ _ ((State.countRoot_keeps _ _ _).trans ((State.afterEnd_keeps _ _ _ _).trans (State.endMany_keeps _ _)))
  cases ht : s1.task? h with
  | none =>
    have st : TasksStay s s1 := by
      rw [← hs1]
      split
      · exact TasksStay.refl s
      · exact s.makeTerminal_stay _ _ _ _
    have := st h (by rw [a]; rfl)
    rw [ht] at this
    cases this
  | some x =>
    have := s1.removeTask_me h x ht (k1.task.trans b) (by obtain ⟨r, hr⟩ := k1.me; rw [hr]; exact m)
    exact ⟨this.1, this.2.1, this.2.2.trans k1.cur⟩

theorem heldGate_ok {s : State} (w : s.me.waiting = none) : s.heldGate = .ok () := by simp [State.heldGate, w]

theorem actingTask_ok {s : State} {h : Word} {t : Task} (a : s.me.task = some h) (b : s.myTask = some t) :
    s.actingTask = .ok (h, t) := by simp [State.actingTask, a, b]

theorem actingTask_none {s : State} (a : s.me.task = none) : s.actingTask = .error .illegal := by simp [State.actingTask, a]

theorem homeApply_gone {s : State} {h : Word} (a : s.fut? h = none) (b : s.findSpill h = none) :
    (∀ w e, s.homeApply h (.touch w e) = (s, some (.trap 48 0x04 h))) ∧ s.homeApply h .tanyCheck = (s, some (.trap 48 0x04 h)) ∧
    (∀ v w, s.homeApply h (.resolve v w) = (s, some (.trap 48 0x04 h))) ∧ s.homeApply h .cancel = (s, some (.trap 48 0x04 h)) ∧
    (∀ v, s.homeApply h (.poison v) = (s, some (.trap 48 0x04 h))) ∧ s.homeApply h .frel = (s, some (.trap 48 0x04 h)) := by
  refine ⟨?_, ?_, ?_, ?_, ?_, ?_⟩ <;> intros <;> simp [State.homeApply, State.homeTouch, a, b]

theorem closed_permits (s : State) (k : Nat) (c : BitVec 12) (n : Nat) : s.closed.permits k c n = s.permits k c n := by
  have h1 : s.closed.clusters = s.clusters := s.closed_clusters
  have h2 : s.closed.chip = s.chip := by
    unfold State.closed; rw [State.closeRegion_rest, State.closesOther_rest]
  unfold State.permits
  rw [h2, State.cluster_congr h1]

theorem firstOutcome_at (os : List (Option (Nat × Word × Nat))) (i k : Nat) (o : Nat × Word × Nat) (h : os[i]? = some (some o))
    (b : ∀ j < i, os[j]? = some none) : firstOutcome k os = some (k + i, o) := by
  induction os generalizing i k with
  | nil => simp at h
  | cons a r ih =>
    cases i with
    | zero => simp at h; subst h; simp [firstOutcome]
    | succ i =>
      have b0 := b 0 (by omega)
      simp at b0
      subst b0
      unfold firstOutcome
      rw [ih i (k + 1) (by simpa using h) (fun j hj => by simpa using b (j + 1) (by omega))]
      congr 2
      omega

theorem tanyHandles_keeps {c u : State} {rs1 rs2 : Reg} {hs : List Word} (wc : c.me.waiting = none)
    (hh : c.tanyHandles rs1 rs2 = .ok (u, hs)) : KeepsHarts c u := by
  unfold State.tanyHandles at hh
  rw [wc] at hh
  cases hl : c.load (c.x rs1) (8 * (c.x rs2).toNat) 8 with
  | error e =>
    simp only [bind, Except.bind, throw, throwThe, MonadExceptOf.throw, hl] at hh
    split at hh <;> cases hh
  | ok p =>
    simp only [bind, Except.bind, throw, throwThe, MonadExceptOf.throw, hl] at hh
    obtain ⟨p1, p2⟩ := p
    have kp := State.load_keeps _ _ _ _ _ _ hl
    split at hh
    · cases hh
    · split at hh
      · cases hh
      · split at hh
        · cases hh
        · injection hh with hh
          injection hh with h1 h2
          rw [← h1]; exact kp

theorem clearSpill_futs (s : State) (c i : Nat) : (s.clearSpill c i).futures = s.futures ∧
    (s.clearSpill c i).forwards = s.forwards ∧ (s.clearSpill c i).chip = s.chip := by
  unfold State.clearSpill State.writeSpill State.pokeVia
  split
  · rename_i t ls h
    have h1 := (resolve_touched _ _ _ _ _ _ _ _ h).rest
    have h2 := (writeUnits_touched (s.superView c).part ls t (leBytes 32 0)).rest
    show (writeUnits t (s.superView c).part ls (leBytes 32 0)).futures = _ ∧
      (writeUnits t (s.superView c).part ls (leBytes 32 0)).forwards = _ ∧
      (writeUnits t (s.superView c).part ls (leBytes 32 0)).chip = _
    rw [h2, h1]
    exact ⟨rfl, rfl, rfl⟩
  · exact ⟨rfl, rfl, rfl⟩

/-- The futures and their homes are the same. -/
def SameFuts (s t : State) : Prop := t.futures = s.futures ∧ t.forwards = s.forwards ∧ t.chip = s.chip
theorem SameFuts.refl (s : State) : SameFuts s s := ⟨rfl, rfl, rfl⟩
theorem SameFuts.trans {s t u : State} (a : SameFuts s t) (b : SameFuts t u) : SameFuts s u :=
  ⟨b.1.trans a.1, b.2.1.trans a.2.1, b.2.2.trans a.2.2⟩
theorem same_foldl {α : Type} (f : State → α → State) (h : ∀ s a, SameFuts s (f s a)) (l : List α) (s : State) :
    SameFuts s (l.foldl f s) := by
  induction l generalizing s with
  | nil => exact SameFuts.refl s
  | cons a r ih => exact (h s a).trans (ih _)

theorem dropWaiters_futs (s : State) (c : Nat) (p : Waiter → Bool) : SameFuts s (s.dropWaiters c p) := by
  unfold State.dropWaiters
  refine SameFuts.trans (t := s.modCluster c _) ⟨rfl, rfl, rfl⟩ (same_foldl _ ?_ _ _)
  intro s w
  split
  · exact clearSpill_futs _ _ _
  · exact SameFuts.refl s

theorem leaveWaits_futs (s : State) (w : Word) : SameFuts s (s.leaveWaits w) := by
  unfold State.leaveWaits
  refine same_foldl _ ?_ _ _
  intro s e
  split
  · exact dropWaiters_futs _ _ _
  · exact SameFuts.refl s

theorem sendWake_futs (s : State) (t : Word) (w : Wake) : SameFuts s (s.sendWake t w) := by
  unfold State.sendWake
  split
  · split
    · exact ⟨rfl, rfl, rfl⟩
    · exact SameFuts.refl s
  · split
    · exact SameFuts.refl s
    · exact ⟨rfl, rfl, rfl⟩

theorem wakeAll_futs (st : Nat) (v : Word) (vd : Nat) (o : Bool) (c : Nat) (l : List Waiter) (s : State) :
    SameFuts s (wakeAll s st v vd o c l) := by
  induction l generalizing s with
  | nil => exact SameFuts.refl s
  | cons w r ih =>
    unfold wakeAll
    simp only []
    refine SameFuts.trans ?_ (ih _)
    split
    · exact (leaveWaits_futs _ _).trans (sendWake_futs _ _ _)
    · exact sendWake_futs _ _ _

/-- waiters only shrink -/
def Fewer (h : Word) (s t : State) : Prop := t.forwards = s.forwards ∧ (s.waitersOf h = [] → t.waitersOf h = [])
theorem Fewer.refl (h : Word) (s : State) : Fewer h s s := ⟨rfl, id⟩
theorem Fewer.trans {h : Word} {s t u : State} (a : Fewer h s t) (b : Fewer h t u) : Fewer h s u := ⟨b.1.trans a.1, b.2 ∘ a.2⟩
theorem homeOf_congr {s t : State} (e : t.forwards = s.forwards) (h : Word) : t.homeOf h = s.homeOf h := by simp [State.homeOf, e]
theorem fewer_of {h : Word} {s t : State} (e : t.clusters = s.clusters) (f : t.forwards = s.forwards) : Fewer h s t :=
  ⟨f, by unfold State.waitersOf; rw [homeOf_congr f, State.cluster_congr e]; exact id⟩
theorem fewer_foldl {h : Word} {α : Type} (f : State → α → State) (k : ∀ s a, Fewer h s (f s a)) (l : List α) (s : State) :
    Fewer h s (l.foldl f s) := by
  induction l generalizing s with
  | nil => exact Fewer.refl h s
  | cons a r ih => exact (k s a).trans (ih _)

theorem clearSpill_waiters (s : State) (c i d : Nat) : ((s.clearSpill c i).cluster d).waiters = (s.cluster d).waiters := by
  unfold State.clearSpill State.writeSpill State.pokeVia
  split
  · rename_i t ls h
    have h1 := (resolve_touched _ _ _ _ _ _ _ _ h)
    have h2 := (writeUnits_touched (s.superView c).part ls t (leBytes 32 0))
    have := (h1.trans h2).clusters d
    show ((writeUnits t (s.superView c).part ls (leBytes 32 0)).cluster d).waiters = _
    obtain ⟨a, b, hab⟩ := this
    rw [hab]
  · rfl

theorem dropWaiters_fewer (h : Word) (s : State) (c : Nat) (p : Waiter → Bool) : Fewer h s (s.dropWaiters c p) := by
  unfold State.dropWaiters
  refine Fewer.trans (t := s.modCluster c fun k => { k with waiters := k.waiters.filter fun w => !p w }) ⟨rfl, ?_⟩ (fewer_foldl _ ?_ _ _)
  · intro e
    unfold State.waitersOf at e ⊢
    rw [List.filter_eq_nil_iff] at e ⊢
    intro w hw
    by_cases hc : s.homeOf h = c
    · subst hc
      have hw' : w ∈ (s.cluster (s.homeOf h)).waiters.filter fun w => !p w := by
        have : (s.modCluster (s.homeOf h) fun k => { k with waiters := k.waiters.filter fun w => !p w }).homeOf h = s.homeOf h := rfl
        rw [this, State.cluster_modCluster] at hw
        exact hw
      exact e w (List.mem_of_mem_filter hw')
    · have : (s.modCluster c fun k => { k with waiters := k.waiters.filter fun w => !p w }).homeOf h = s.homeOf h := rfl
      rw [this, State.cluster_modCluster_other _ _ _ _ hc] at hw
      exact e w hw
  · intro s w
    split
    · exact ⟨(clearSpill_futs _ _ _).2.1, by
        unfold State.waitersOf; rw [homeOf_congr (clearSpill_futs _ _ _).2.1, clearSpill_waiters]; exact id⟩
    · exact Fewer.refl h s

theorem leaveWaits_fewer (h : Word) (s : State) (w : Word) : Fewer h s (s.leaveWaits w) := by
  unfold State.leaveWaits
  refine fewer_foldl _ ?_ _ _
  intro s e
  split
  · exact dropWaiters_fewer _ _ _ _
  · exact Fewer.refl h s

theorem sendWake_fewer (h : Word) (s : State) (t : Word) (w : Wake) : Fewer h s (s.sendWake t w) := by
  unfold State.sendWake
  split
  · split
    · exact fewer_of rfl rfl
    · exact Fewer.refl h s
  · split
    · exact Fewer.refl h s
    · exact fewer_of rfl rfl

theorem wakeAll_fewer (h : Word) (st : Nat) (v : Word) (vd : Nat) (o : Bool) (c : Nat) (l : List Waiter) (s : State) :
    Fewer h s (wakeAll s st v vd o c l) := by
  induction l generalizing s with
  | nil => exact Fewer.refl h s
  | cons w r ih =>
    unfold wakeAll
    simp only []
    refine Fewer.trans ?_ (ih _)
    split
    · exact (leaveWaits_fewer _ _ _).trans (sendWake_fewer _ _ _ _)
    · exact sendWake_fewer _ _ _ _

theorem dropWaiters_none (s : State) (h : Word) : (s.dropWaiters (s.homeOf h) fun w => w.future == h).waitersOf h = [] := by
  have key : (s.modCluster (s.homeOf h) fun k => { k with waiters := k.waiters.filter fun w => !(w.future == h) }).waitersOf h = [] := by
    unfold State.waitersOf
    have : (s.modCluster (s.homeOf h) fun k => { k with waiters := k.waiters.filter fun w => !(w.future == h) }).homeOf h = s.homeOf h := rfl
    rw [this, State.cluster_modCluster, List.filter_filter]
    simp
  unfold State.dropWaiters
  refine (fewer_foldl (h := h) _ ?_ _ _).2 key
  intro s w
  split
  · exact ⟨(clearSpill_futs _ _ _).2.1, by
      unfold State.waitersOf; rw [homeOf_congr (clearSpill_futs _ _ _).2.1, clearSpill_waiters]; exact id⟩
  · exact Fewer.refl h s

theorem fut_congr {s t : State} (e : SameFuts s t) (h : Word) : t.fut? h = s.fut? h := by
  have h2 : t.isHere h = s.isHere h := by unfold State.isHere; rw [e.2.2, e.2.1]
  unfold State.fut? State.futKey
  rw [homeOf_congr e.2.1, e.1, h2]

theorem setAside_me (s : State) (h : Word) (st : TaskState) (a : s.me.task = some h) :
    (s.setAside s.cur st).me.task = none ∧ (s.setAside s.cur st).me.mode = Mode.u ∧ (s.setAside s.cur st).cur = s.cur := by
  unfold State.setAside
  have : (s.hart s.cur).task = some h := a
  rw [this]
  simp only []
  unfold State.freeHart
  have hc : ∀ f, (State.modHart (State.modTask s h fun x => { x with state := st }) s.cur f).cur = s.cur := by
    intro f
    rw [State.modTask_rest]; rfl
  refine ⟨?_, ?_, hc _⟩
  · rw [State.me, hc, State.hart_modHart]
  · rw [State.me, hc, State.hart_modHart]

theorem retireOn_me (s : State) : (s.retireOn s.cur).me.task = s.me.task ∧ (s.retireOn s.cur).me.mode = s.me.mode := by
  unfold State.retireOn
  have : (s.modHart s.cur fun x => { x with sys := x.sys.retire 1 }).cur = s.cur := rfl
  rw [State.me, this, State.hart_modHart]
  exact ⟨rfl, rfl⟩

theorem park_task (s : State) (i : Instr) (l : List Word) (w : Word) (h : s.me.task = some w) : (s.park i l).me.task = none := by
  unfold State.park
  rw [h]
  simp only []
  unfold State.setAside
  have : ((s.modTask w fun t => { t with parkedIn := some i, wake := none, waitsOn := l }).hart s.cur).task = some w := by
    rw [State.hart_congr (s.modTask_harts _ _)]; exact h
  rw [this]
  simp only []
  unfold State.freeHart
  have hc : ∀ f, (State.modHart (State.modTask (State.modTask s w fun t => { t with parkedIn := some i, wake := none, waitsOn := l }) w fun x => { x with state := .parked }) s.cur f).cur = s.cur := by
    intro f
    rw [State.modTask_rest, State.modTask_rest]; rfl
  rw [State.me, hc, State.hart_modHart]

theorem park_mode (s : State) (i : Instr) (l : List Word) (w : Word) (h : s.me.task = some w) : (s.park i l).me.mode = Mode.u := by
  unfold State.park
  rw [h]
  simp only []
  unfold State.setAside
  have : ((s.modTask w fun t => { t with parkedIn := some i, wake := none, waitsOn := l }).hart s.cur).task = some w := by
    rw [State.hart_congr (s.modTask_harts _ _)]; exact h
  rw [this]
  simp only []
  unfold State.freeHart
  have hc : ∀ f, (State.modHart (State.modTask (State.modTask s w fun t => { t with parkedIn := some i, wake := none, waitsOn := l }) w fun x => { x with state := .parked }) s.cur f).cur = s.cur := by
    intro f
    rw [State.modTask_rest, State.modTask_rest]; rfl
  rw [State.me, hc, State.hart_modHart]

end Sys2Proof.Machine
end

