-- ==== Sys2Proof/Laws/Rows.lean ====
section
/-! SUPPORT. Row words: when one executes, and what it writes. -/

namespace Sys2Proof.Machine

theorem State.tilesBelow_ok {s : State} {l : List Nat} (h : ∀ n ∈ l, n < s.tileCount) : s.tilesBelow l = .ok () := by
  simp only [State.tilesBelow, List.all_eq_true, decide_eq_true_eq]
  rw [if_pos h]

theorem State.tilesBelow_bad {s : State} {l : List Nat} (h : ∃ n ∈ l, s.tileCount ≤ n) :
    s.tilesBelow l = .error (.trapWord 28 0x01) := by
  obtain ⟨n, hn, k⟩ := h
  simp only [State.tilesBelow, List.all_eq_true, decide_eq_true_eq]
  rw [if_neg (fun c => absurd (c n hn) (by omega))]

theorem State.spillCheck_ok {s b : State} (h : s.spillFits = true) : s.spillCheck b = .ok s := by simp [State.spillCheck, h]

theorem rowWord_ready {s u t : State} {reads : List TileReg} {d : RowDst} {us : List Tup} {ok : Bool}
    {one : State → Tup → Except Exc State} (h : s.rowReady reads d us u) (k : ok = true) (r : runAll one us u = .ok t) :
    s.rowWord reads d false ok one = .ok t.checkTmem.useFresh := by
  obtain ⟨f, b, w, p, T, l, rfl, e⟩ := h
  simp only [State.rowWord]
  rw [f, State.tilesBelow_ok b]
  simp only [bind, Except.bind, pure, Except.pure, k, Bool.not_true, Bool.false_eq_true, ↓reduceIte, l, w, e,
    State.spillCheck_ok p, r]

theorem rowWord_once {s u t : State} {reads : List TileReg} {d : RowDst} {ok : Bool}
    {one : State → Tup → Except Exc State} (h : s.rowReadyOnce reads d u) (k : ok = true)
    (r : runAll one [s.noTuple] u = .ok t) : s.rowWord reads d true ok one = .ok t.checkTmem.useFresh := by
  obtain ⟨f, b, w, p, g, e⟩ := h
  simp only [State.rowWord]
  rw [f, State.tilesBelow_ok b]
  have e' : s.prepareRow d 0 [s.myLift.axes.map fun _ => 0] = .ok u := e
  have r' : runAll one [s.myLift.axes.map fun _ => 0] u = .ok t := r
  simp only [bind, Except.bind, pure, Except.pure, k, Bool.not_true, Bool.false_eq_true, ↓reduceIte, State.liftNone, g, w, e',
    State.spillCheck_ok p, r']

theorem rowWord_below {s : State} {reads : List TileReg} {d : RowDst} {sc ok : Bool} {one : State → Tup → Except Exc State}
    (f : s.opFaultOn ((reads ++ d.tile.toList).map fun n => n.toNat) = .ok ())
    (h : ∃ n ∈ (reads ++ d.tile.toList).map fun n => n.toNat, s.tileCount ≤ n) :
    s.rowWord reads d sc ok one = .error (.trapWord 28 0x01) := by
  simp only [State.rowWord]
  rw [f, State.tilesBelow_bad h]
  rfl

theorem rowWord_tags {s : State} {reads : List TileReg} {d : RowDst} {sc : Bool} {one : State → Tup → Except Exc State}
    (f : s.opFaultOn ((reads ++ d.tile.toList).map fun n => n.toNat) = .ok ())
    (h : ∀ n ∈ (reads ++ d.tile.toList).map fun n => n.toNat, n < s.tileCount) :
    s.rowWord reads d sc false one = .error (.trapWord 28 0x04) := by
  simp only [State.rowWord]
  rw [f, State.tilesBelow_ok h]
  rfl

/-- Executions that never fail run one after another. -/
theorem runRest_ok (g : State → Tup → State) : ∀ (us : List Tup) (s : State),
    runRest (fun s u => .ok (g s u)) us s = .ok (us.foldl g s)
  | [], _ => rfl
  | u :: r, s => by
    rw [runRest]
    exact runRest_ok g r (g s u)

theorem runAll_ok (g : State → Tup → State) (us : List Tup) (s : State) :
    runAll (fun s u => .ok (g s u)) us s = .ok (us.foldl g s) := by
  cases us with
  | nil => rfl
  | cons u r => exact runRest_ok g r (g s u)

theorem rowWord_fold {s u : State} {reads : List TileReg} {d : RowDst} {us : List Tup} {ok : Bool} {i : Instr}
    {body : State → Except Exc State} (g : State → Tup → State) (h : s.rowReady reads d us u) (k : ok = true)
    (b : body s = s.rowWord reads d false ok fun s u => .ok (g s u)) :
    runOpen i s body = .next (us.foldl g u).rowEnd := by
  refine runOpen_ok (t := (us.foldl g u).checkTmem.useFresh) ?_
  rw [b]
  exact rowWord_ready h k (runAll_ok g us u)

theorem runOpen_trapWord {i : Instr} {s : State} {body : State → Except Exc State} {b : Nat} (w : s.me.waiting = none)
    (h : body s = .error (.trapWord 28 b)) : runOpen i s body = .next (s.takeTrap s.cur false 28 b (wordOfInstr i)) := by
  rw [runOpen_error h (by simp)]
  show Host.Outcome.next (((s.countRemote s.cur).withdrawWait s.cur).leave i (.trapWord 28 b)) = _
  rw [State.countRemote_starts s s.cur w, State.withdrawWait_none s s.cur w]
  rfl

theorem foldlM_runRest (one : State → Tup → Except Exc State) : ∀ (us : List Tup) (s t : State),
    us.foldlM one s = .ok t → runRest one us s = .ok t
  | [], _, _, h => h
  | u :: r, s, t, h => by
    rw [List.foldlM_cons] at h
    rw [runRest]
    match e : one s u with
    | .ok a =>
      rw [e] at h
      exact foldlM_runRest one r a t h
    | .error e' => rw [e] at h; cases h

theorem foldlM_runAll {one : State → Tup → Except Exc State} {us : List Tup} {s t : State}
    (h : us.foldlM one s = .ok t) : runAll one us s = .ok t := by
  cases us with
  | nil => exact h
  | cons u r =>
    rw [List.foldlM_cons] at h
    rw [runAll]
    match e : one s u with
    | .ok a =>
      rw [e] at h
      exact foldlM_runRest one r a t h
    | .error e' => rw [e] at h; cases h

/-! ## What the parts of a row word leave of the harts -/

theorem State.setTile_keeps (s : State) (p t : Nat) (x : Tile) : KeepsHarts s (s.setTile p t x) := State.modPair_keeps _ _ _

theorem State.modStatus_keeps (s : State) (h : Word) (n : Nat) (f : Tile → Tile) : KeepsHarts s (s.modStatus h n f) := by
  unfold State.modStatus
  split
  · exact State.setTile_keeps _ _ _ _
  · exact KeepsHarts.refl s

theorem State.orFlagsOf_keeps (s : State) (n : TileReg) (flags : Nat) : KeepsHarts s (s.orFlagsOf n flags) := by
  unfold State.orFlagsOf
  split
  · exact State.modStatus_keeps _ _ _ _
  · exact KeepsHarts.refl s

theorem State.shadowTile_keeps {s t : State} {n : Nat} (h : s.shadowTile n = .ok t) : KeepsHarts s t := by
  unfold State.shadowTile at h
  split at h
  · split at h
    · cases h; exact KeepsHarts.refl s
    · split at h
      · cases h; exact KeepsHarts.refl s
      · split at h
        · cases h
        · cases h
          exact (State.setTile_keeps _ _ _ _).trans (State.modTask_keeps _ _ _)
  · cases h; exact KeepsHarts.refl s

/-- A region shadow leaves the places of the task's tiles. -/
theorem State.shadowTile_task {s u : State} {n : Nat} {h : Word} {t : Task} (m : s.me.task = some h) (k : s.task? h = some t)
    (e : s.shadowTile n = .ok u) : ∃ r, u.task? h = some { t with region := r } := by
  unfold State.shadowTile at e
  have mt : s.myTask = some t := by
    have : (s.hart s.cur).task = some h := m
    simp [State.myTask, State.taskOf, this, k]
  rw [m, mt] at e
  split at e
  · next a b c =>
    cases b; cases c
    split at e
    · cases e; exact ⟨_, k⟩
    · next p hp =>
      split at e
      · cases e; exact ⟨_, k⟩
      · split at e
        · cases e
        · next q hq =>
          cases e
          have : (s.setTile p q (if (s.myOps.any fun o => o.region != t.region.rseq && o.writes.contains n) = true then
            { (default : Tile) with owner := some h } else { s.tile p (t.phys n) with owner := some h })).task? h = some t := k
          rw [State.modTask, this]
          exact ⟨_, Table.find_put_same _ _ _⟩
  · cases e; exact ⟨_, k⟩

theorem State.checkTmem_keeps (s : State) : KeepsHarts s s.checkTmem := by
  unfold State.checkTmem
  split
  · dsimp only
    split
    · exact (State.modPair_keeps _ _ _).trans (State.raiseVerdict_keeps _ _ _)
    · exact State.modPair_keeps _ _ _
  · exact KeepsHarts.refl s

theorem State.setX_task (s : State) (r : Reg) (v : Word) : (s.setX r v).me.task = s.me.task := by simp

end Sys2Proof.Machine
end

