-- ==== Sys2Proof/Laws/Matrix.lean ====
section
/-! SUPPORT. Words of the tile engine: when one is accepted, and what acceptance does. -/

namespace Sys2Proof.Machine

theorem takePins_eq (c : Nat) : ∀ (l : List Nat) (s : State), ∃ k, takePins s c l = { s with clusters := k }
  | [], s => ⟨_, rfl⟩
  | n :: r, s => by
    obtain ⟨k, e⟩ := takePins_eq c r (s.modStage c n fun t => { t with pins := t.pins + 1 })
    exact ⟨k, e⟩

theorem State.enqueue_eq (s : State) (o : Op) : ∃ cl pd, s.enqueue o = { s with
    clusters := cl, pending := pd, serial := s.serial + 1,
    pairs := s.pairs.put (pairOf s.cur) { s.pair (pairOf s.cur) with ops := (s.pair (pairOf s.cur)).ops ++
      [{ o with id := s.serial, total := o.steps?, pins := o.stages (o.leads (pairOf s.cur)) }] } } ∧
    .tileOpStart (pairOf s.cur) ∈ pd := by
  obtain ⟨k, e⟩ := takePins_eq (clusterOf s.cur) (o.stages (o.leads (pairOf s.cur))) s
  unfold State.enqueue
  dsimp only
  rw [e]
  by_cases b : o.alone (pairOf s.cur)
  · rw [if_pos b]
    exact ⟨_, _, rfl, List.mem_append_right _ (by simp)⟩
  · rw [if_neg b]
    exact ⟨_, _, rfl, List.mem_append_right _ (by simp)⟩

theorem acceptFrom_ok (o : Op) : ∀ (us : List Tup) (n : Nat) (s : State), s.placesFor o us →
    acceptFrom o us n s = .ok (s.accepted o us)
  | [], _, _, _ => rfl
  | u :: r, n, s, h => by
    rw [acceptFrom, if_neg (by
      have := h 0 (by simp)
      simpa [State.accepted] using this)]
    have := acceptFrom_ok o r (n + 1) (s.enqueue (s.opFor o u)) (by
      intro k hk
      have := h (k + 1) (by simpa using hk)
      simpa [State.accepted] using this)
    rw [this]
    rfl

theorem acceptAll_ok {s u : State} {o : Op} {us : List Tup} {T : BitVec 4} (e : us = s.executions T)
    (h : o.kind = .mst ∧ u = s ∨ o.kind ≠ .mst ∧ (s.tagsOf o.md.toNat ||| T = s.tagsOf o.md.toNat ∨ s.user o.md.toNat = false) ∧
      u.spillFits = true ∧ ∃ v, s.prepareTile o.md.toNat T us = .ok v ∧ v.shadowTiles o.writes = .ok u)
    (p : u.placesFor o us) : s.acceptAll o T = .ok (u.accepted o us) := by
  subst e
  unfold State.acceptAll
  rcases h with ⟨k, rfl⟩ | ⟨k, a, b, v, c, d⟩
  · simp only [k, ↓reduceIte, bind, Except.bind, pure, Except.pure]
    exact acceptFrom_ok o _ 0 _ p
  · have : ¬ (s.tagsOf o.md.toNat ||| T ≠ s.tagsOf o.md.toNat ∧ s.user o.md.toNat = true) := by
      rintro ⟨x, y⟩
      rcases a with a | a
      · exact x a
      · rw [a] at y; cases y
    simp only [k, ↓reduceIte, this, bind, Except.bind, c, d, State.spillCheck_ok b]
    exact acceptFrom_ok o _ 0 _ p

/-- A word of tile data whose own checks pass. -/
theorem dataWord_ok {s u : State} {o : Op} {us : List Tup} {checks : BitVec 4 → Except Exc Unit} (w : s.me.waiting = none)
    (h : s.opReady o us u) (c : ∀ T, us = s.executions T → checks T = .ok ()) (p : u.placesFor o us) :
    s.dataWord o checks = .ok (u.accepted o us) := by
  obtain ⟨f, b, T, l, e, q⟩ := h
  unfold State.dataWord
  rw [w]
  simp only [bind, Except.bind, f, l, State.tilesBelow_ok b, c T e]
  exact acceptAll_ok e q p

theorem matrixWord_ok {s u : State} {k : OpKind} {i : Instr} {m : MtOps} {us : List Tup} (w : s.me.waiting = none)
    (n : isCompute s.cur = true) (h : s.opReady (s.mtOp k ((encode i).getD 0) m) us u)
    (c : s.checkMt (s.mtOp k ((encode i).getD 0) m) = .ok ()) (p : u.placesFor (s.mtOp k ((encode i).getD 0) m) us) :
    s.matrixWord k i m = .ok (u.accepted (s.mtOp k ((encode i).getD 0) m) us) := by
  obtain ⟨f, b, T, l, e, q⟩ := h
  unfold State.matrixWord
  rw [w]
  simp only [bind, Except.bind, State.needCompute, n, ↓reduceIte, f, l, c]
  exact acceptAll_ok e q p

theorem matrixWord_stager {s : State} {k : OpKind} {i : Instr} {m : MtOps} (w : s.me.waiting = none)
    (n : isCompute s.cur = false) : s.matrixWord k i m = .error (.trapWord 49 0) := by
  unfold State.matrixWord
  rw [w]
  simp [bind, Except.bind, State.needCompute, n]

theorem matrixWord_bad {s : State} {k : OpKind} {i : Instr} {m : MtOps} {T : BitVec 4} {e : Exc} (w : s.me.waiting = none)
    (n : isCompute s.cur = true) (f : s.opFaultOn (s.mtOp k ((encode i).getD 0) m).fields = .ok ())
    (l : s.checkLift (s.mtOp k ((encode i).getD 0) m) = .ok T)
    (c : s.checkMt (s.mtOp k ((encode i).getD 0) m) = .error e) : s.matrixWord k i m = .error e := by
  unfold State.matrixWord
  rw [w]
  simp only [bind, Except.bind, State.needCompute, n, ↓reduceIte, f, l, c]

theorem checkPads_ok {s : State} {o : Op} {wr : Bool} : ∀ {us : List Tup},
    (∀ w ∈ us, s.padFault o.bPad 64 1 (s.myLift.offset w) wr = none) → s.checkPads o wr us = .ok ()
  | [], _ => rfl
  | u :: r, h => by
    rw [State.checkPads, h u (by simp)]
    exact checkPads_ok fun w hw => h w (by simp [hw])

theorem State.leave_word (s : State) (i : Instr) (c b : Nat) (w : s.me.pfx = none) :
    s.leave i (.trapWord c b) = s.takeTrap s.cur false c b (wordOfInstr i) := by
  have e : s.leave i (.trapWord c b) = s.takeTrap s.cur false c b (match c, s.me.pfx with
      | 29, some p => wordOfInstr (.vpfx p)
      | _, _ => wordOfInstr i) := by
    unfold State.leave
    rfl
  rw [e, w]
  split
  · next h => cases h
  · rfl

theorem State.finish_word (s : State) (i : Instr) (c b : Nat) (w : s.starts) :
    s.finishExc i (.trapWord c b) = s.takeTrap s.cur false c b (wordOfInstr i) := by
  unfold State.finishExc
  simp only []
  rw [State.countRemote_starts s s.cur w.1, State.withdrawWait_none s s.cur w.1, State.leave_word s i c b w.2]

/-- A word that traps with its own encoding. -/
theorem runOpen_word {i : Instr} {s : State} {body : State → Except Exc State} {c b : Nat} (w : s.starts)
    (h : body s = .error (.trapWord c b)) : runOpen i s body = .next (s.takeTrap s.cur false c b (wordOfInstr i)) := by
  rw [runOpen_error h (by simp), State.finish_word s i c b w]

end Sys2Proof.Machine
end

