-- ==== Sys2Proof/Laws/Engine.lean ====
section
/-! SUPPORT. The operations of a tile engine: what finds one, and what its bookkeeping leaves alone. -/

namespace Sys2Proof.Machine

/-- Memory, harts and tile engines are as they were. -/
structure Quiet (s t : State) : Prop where
  mem   : t.mem = s.mem
  harts : t.harts = s.harts
  pairs : t.pairs = s.pairs

theorem Quiet.refl (s : State) : Quiet s s := ⟨rfl, rfl, rfl⟩
theorem Quiet.trans {s t u : State} (a : Quiet s t) (b : Quiet t u) : Quiet s u :=
  ⟨b.mem.trans a.mem, b.harts.trans a.harts, b.pairs.trans a.pairs⟩

theorem quiet_foldl {α : Type} (f : State → α → State) (h : ∀ s a, Quiet s (f s a)) (l : List α) (s : State) :
    Quiet s (l.foldl f s) := by
  induction l generalizing s with
  | nil => exact Quiet.refl s
  | cons a r ih => exact (h s a).trans (ih _)

theorem State.retryPrefetches_quiet (s : State) (c : Nat) : Quiet s (s.retryPrefetches c) := by
  unfold State.retryPrefetches
  refine quiet_foldl _ ?_ _ _
  intro s e
  split
  · refine quiet_foldl _ ?_ _ _
    intro s p
    split
    · exact ⟨rfl, rfl, rfl⟩
    · exact Quiet.refl s
  · exact Quiet.refl s

theorem State.prefetchesHoisted_quiet (s : State) (c n : Nat) : Quiet s (s.prefetchesHoisted c n) := by
  unfold State.prefetchesHoisted
  refine quiet_foldl _ ?_ _ _
  intro s e
  split
  · exact ⟨rfl, rfl, rfl⟩
  · exact Quiet.refl s

theorem State.hoistStage_quiet (s : State) (c n : Nat) : Quiet s (s.hoistStage c n) := by
  unfold State.hoistStage
  simp only []
  refine Quiet.trans ?_ (State.retryPrefetches_quiet _ _)
  split
  · exact Quiet.trans (t := s.modStage c n fun t => { t.hoist with prefetch := false }) ⟨rfl, rfl, rfl⟩
      (State.prefetchesHoisted_quiet _ _ _)
  · exact ⟨rfl, rfl, rfl⟩

theorem State.retryGangs_quiet (s : State) (c : Nat) : Quiet s (s.retryGangs c) := by
  unfold State.retryGangs
  refine quiet_foldl _ ?_ _ _
  intro s o
  split
  · exact ⟨rfl, rfl, rfl⟩
  · exact Quiet.refl s

theorem State.modPair_pair (s : State) (p : Nat) (f : Pair → Pair) : (s.modPair p f).pair p = f (s.pair p) := by
  simp [State.pair, State.modPair, State.setPair]

theorem find_map_op (o q : Op) : ∀ l : List Op, (l.find? fun x => x.id == o.id) = some q →
    ((l.map fun x => if x.id = o.id then o else x).find? fun x => x.id == o.id) = some o
  | [], h => by cases h
  | x :: r, h => by
    by_cases e : x.id = o.id
    · simp [e]
    · have b : (x.id == o.id) = false := by simpa using e
      rw [List.find?_cons, b] at h
      simp only [List.map_cons, e, ↓reduceIte, List.find?_cons, b]
      exact find_map_op o q r h

theorem State.setOp_op {s : State} {p : Nat} {o q : Op} (h : s.op? p o.id = some q) : (s.setOp p o).op? p o.id = some o := by
  unfold State.op? State.setOp at *
  rw [State.modPair_pair]
  exact find_map_op o q _ h

theorem State.modPair_pair_other (s : State) (p q : Nat) (f : Pair → Pair) (e : q ≠ p) : (s.modPair p f).pair q = s.pair q := by
  unfold State.pair State.modPair State.setPair
  exact Table.get_put_other _ _ _ _ _ e

/-- A change of a pair that keeps its operations keeps what finds them. -/
theorem State.modPair_op (s : State) (p : Nat) (f : Pair → Pair) (k : (f (s.pair p)).ops = (s.pair p).ops) (q id : Nat) :
    (s.modPair p f).op? q id = s.op? q id := by
  unfold State.op?
  by_cases e : q = p
  · subst e
    rw [State.modPair_pair, k]
  · rw [State.modPair_pair_other _ _ _ _ e]

theorem State.setTile_op (s : State) (p t : Nat) (x : Tile) (id : Nat) : (s.setTile p t x).op? p id = s.op? p id := by
  unfold State.op? State.setTile
  rw [State.modPair_pair]

theorem Quiet.op {s t : State} (h : Quiet s t) (p id : Nat) : t.op? p id = s.op? p id := by
  unfold State.op? State.pair
  rw [h.pairs]

theorem State.nextStep_quiet (s : State) (p : Nat) : Quiet s (s.nextStep p) := by
  unfold State.nextStep
  split
  · split
    · exact Quiet.refl s
    · exact ⟨rfl, rfl, rfl⟩
  · exact Quiet.refl s

/-! ### What also answers harts that wait, and frees tiles -/

/-- Memory, operations, and the registers and pc of every hart are as they were. -/
structure Calm (s t : State) : Prop where
  mem   : t.mem = s.mem
  ops   : ∀ p id, t.op? p id = s.op? p id
  harts : ∀ h, (t.hart h).ctx = (s.hart h).ctx ∧ (t.hart h).pc = (s.hart h).pc

theorem Calm.refl (s : State) : Calm s s := ⟨rfl, fun _ _ => rfl, fun _ => ⟨rfl, rfl⟩⟩
theorem Calm.trans {s t u : State} (a : Calm s t) (b : Calm t u) : Calm s u :=
  ⟨b.mem.trans a.mem, fun p i => (b.ops p i).trans (a.ops p i),
    fun h => ⟨(b.harts h).1.trans (a.harts h).1, (b.harts h).2.trans (a.harts h).2⟩⟩
theorem Calm.of_harts {s t : State} (m : t.mem = s.mem) (o : ∀ p id, t.op? p id = s.op? p id) (h : t.harts = s.harts) : Calm s t :=
  ⟨m, o, fun k => by rw [State.hart_congr h]; exact ⟨rfl, rfl⟩⟩
theorem Quiet.calm {s t : State} (q : Quiet s t) : Calm s t := Calm.of_harts q.mem q.op q.harts

theorem calm_foldl {α : Type} (f : State → α → State) (h : ∀ s a, Calm s (f s a)) (l : List α) (s : State) : Calm s (l.foldl f s) := by
  induction l generalizing s with
  | nil => exact Calm.refl s
  | cons a r ih => exact (h s a).trans (ih _)

theorem State.modHart_calm (s : State) (h : Nat) (f : Hart → Hart) (k : ∀ x, (f x).ctx = x.ctx ∧ (f x).pc = x.pc) :
    Calm s (s.modHart h f) := by
  refine ⟨rfl, fun _ _ => rfl, fun n => ?_⟩
  by_cases e : n = h
  · subst e
    rw [State.hart_modHart]
    exact k _
  · rw [State.hart_modHart_other _ _ _ _ e]
    exact ⟨rfl, rfl⟩

theorem State.answer_calm (s : State) (h : Nat) (r : Reply) : Calm s (s.answer h r) := by
  refine s.modHart_calm h _ fun x => ?_
  split
  · split <;> exact ⟨rfl, rfl⟩
  · exact ⟨rfl, rfl⟩

theorem serveHoists_calm (c n : Nat) : ∀ (l : List Nat) (s : State), Calm s (serveHoists c n l s)
  | [], s => Calm.refl s
  | _ :: r, s => ((s.hoistStage_quiet c n).calm.trans (State.answer_calm _ _ _)).trans (serveHoists_calm c n r _)

theorem State.releasePin_calm (s : State) (c n : Nat) : Calm s (s.releasePin c n) := by
  unfold State.releasePin
  extract_lets u t
  have k : Calm s u := by
    refine Calm.trans (t := s.modStage c n fun t => { t with pins := t.pins - 1 }) (Calm.of_harts rfl (fun _ _ => rfl) rfl) ?_
    show Calm _ (State.hoistIfDue _ c n)
    unfold State.hoistIfDue
    split
    · exact (State.hoistStage_quiet _ _ _).calm
    · exact Calm.refl _
  split
  · exact k.trans ((Calm.of_harts rfl (fun _ _ => rfl) rfl : Calm u (u.setStage c n { t with hoisters := [] })).trans
      (serveHoists_calm _ _ _ _))
  · exact k

theorem releasePins_calm (c : Nat) : ∀ (l : List Nat) (s : State), Calm s (releasePins s c l)
  | [], s => Calm.refl s
  | n :: r, s => (s.releasePin_calm c n).trans (releasePins_calm c r _)

theorem dropLifts_calm (c : Nat) : ∀ (l : List Axis) (s : State), Calm s (dropLifts s c l)
  | [], s => Calm.refl s
  | a :: r, s => by
    unfold dropLifts
    extract_lets u
    have k : Calm s u := Calm.of_harts rfl (fun _ _ => rfl) rfl
    refine k.trans (Calm.trans ?_ (dropLifts_calm c r _))
    split
    · exact (State.retryPrefetches_quiet _ _).calm
    · exact Calm.refl _

theorem State.freeTile_calm (s : State) (p t : Nat) : Calm s (s.freeTile p t) := by
  unfold State.freeTile
  exact Calm.of_harts rfl (s.modPair_op p _ rfl) rfl

theorem freeTiles_calm (p : Nat) : ∀ (l : List Nat) (s : State), Calm s (freeTiles s p l)
  | [], s => Calm.refl s
  | t :: r, s => (s.freeTile_calm p t).trans (freeTiles_calm p r _)

theorem State.leaveTiles_calm (s : State) (h : Word) : Calm s (s.leaveTiles h) := by
  unfold State.leaveTiles
  split
  · exact Calm.refl s
  · split
    · split
      · exact Calm.refl s
      · exact ((freeTiles_calm _ _ _).trans (dropLifts_calm _ _ _)).trans (Calm.of_harts rfl (fun _ _ => rfl) rfl)
    · exact Calm.refl s

/-- An operation taken out of its engine is there no more; memory and the registers of every hart are as before. -/
theorem State.removeOp_op (s : State) (p : Nat) (o : Op) :
    (s.removeOp p o).op? p o.id = none ∧ (s.removeOp p o).mem = s.mem ∧
    ∀ h, ((s.removeOp p o).hart h).ctx = (s.hart h).ctx ∧ ((s.removeOp p o).hart h).pc = (s.hart h).pc := by
  unfold State.removeOp
  extract_lets s1 s2 s3 s4
  have e1 : s1.op? p o.id = none := by
    simp only [s1, State.op?, State.modPair_pair]
    rw [List.find?_eq_none]
    intro x hx
    have := (List.mem_filter.1 hx).2
    simpa using this
  have c2 : Calm s1 s2 := by
    simp only [s2]
    split
    · exact State.freeTile_calm _ _ _
    · exact Calm.refl _
  have c4 : Calm s3 s4 := releasePins_calm _ _ _
  have c5 : Calm s4 (((if o.kind = OpKind.mmag then s4.retryGangs (clusterOfPair p) else s4).post (.tileOpStart p)).leaveTiles o.task) := by
    refine Calm.trans (Quiet.calm ?_) (State.leaveTiles_calm _ _)
    refine Quiet.trans (t := if o.kind = OpKind.mmag then s4.retryGangs (clusterOfPair p) else s4) ?_ ⟨rfl, rfl, rfl⟩
    split
    · exact State.retryGangs_quiet _ _
    · exact Quiet.refl _
  have c : Calm s1 _ := (c2.trans (Calm.of_harts rfl (fun _ _ => rfl) rfl : Calm s2 s3)).trans (c4.trans c5)
  exact ⟨(c.ops p o.id).trans e1, c.mem, c.harts⟩

/-- Copying region shadows changes no operation. -/
theorem copyShadows_calm (h : Word) (p : Nat) : ∀ (l : List Nat) (s : State), Calm s (copyShadows h p l s)
  | [], s => Calm.refl s
  | n :: r, s => by
    rw [copyShadows]
    refine Calm.trans ?_ (copyShadows_calm h p r _)
    split
    · exact Calm.refl s
    · split
      · exact Calm.refl s
      · split
        · exact Calm.refl s
        · have m : ∀ (u : State) (f : Task → Task), Calm u (u.modTask h f) := by
            intro u f
            unfold State.modTask
            split
            · exact Calm.of_harts rfl (fun _ _ => rfl) rfl
            · exact Calm.refl u
          exact Calm.trans (t := s.setTile p _ _) (Calm.of_harts rfl (s.modPair_op p _ rfl) rfl) (m _ _)

theorem State.endMwait_calm (s : State) (h : Word) : Calm s (s.endMwait h) := by
  unfold State.endMwait
  split
  · simp only []
    split
    · split
      · exact Calm.refl s
      · exact s.modHart_calm _ (fun x => { x with waiting := _ }) fun _ => ⟨rfl, rfl⟩
    · exact Calm.refl s
  · exact Calm.refl s

/-- What follows the end of an operation for its task. -/
theorem State.settle_calm (s : State) (p : Nat) (h : Word) : Calm s (s.settle p h) := by
  unfold State.settle
  split
  · exact Calm.refl s
  · extract_lets u
    have k : Calm s u := Calm.of_harts rfl (fun _ _ => rfl) rfl
    refine k.trans ((copyShadows_calm h p _ _).trans (Calm.trans (State.endMwait_calm _ _) (Calm.of_harts rfl (fun _ _ => rfl) rfl)))

end Sys2Proof.Machine
end

