-- ==== Sys2Proof/Laws/Fields.lean ====
section
/-! SUPPORT. The bit fields of a row, and what a write of a row under a mask does to its elements. -/

namespace Sys2Proof.Machine

theorem getField_testBit (row p w i : Nat) : (getField row p w).testBit i = (decide (i < w) && row.testBit (p + i)) := by
  simp [getField, Nat.testBit_mod_two_pow]

theorem setField_eq (row p w v : Nat) :
    setField row p w v = 2 ^ p * (2 ^ w * (row / 2 ^ (p + w)) + v % 2 ^ w) + row % 2 ^ p := by
  have a : row = 2 ^ p * (row / 2 ^ p) + row % 2 ^ p := (Nat.div_add_mod row (2 ^ p)).symm
  have b : row / 2 ^ p = 2 ^ w * (row / 2 ^ (p + w)) + row / 2 ^ p % 2 ^ w := by
    rw [Nat.pow_add, ← Nat.div_div_eq_div_mul]
    exact (Nat.div_add_mod _ _).symm
  have c : getField row p w * 2 ^ p ≤ row := by
    rw [getField, Nat.shiftRight_eq_div_pow, Nat.mul_comm]
    calc 2 ^ p * (row / 2 ^ p % 2 ^ w) ≤ 2 ^ p * (row / 2 ^ p) := Nat.mul_le_mul_left _ (Nat.mod_le _ _)
      _ ≤ row := Nat.mul_div_le _ _
  have e : row = 2 ^ p * (2 ^ w * (row / 2 ^ (p + w))) + getField row p w * 2 ^ p + row % 2 ^ p := by
    rw [getField, Nat.shiftRight_eq_div_pow]
    conv_lhs => rw [a, b]
    ring
  rw [setField, Nat.mul_add, Nat.mul_comm (v % 2 ^ w)]
  omega

theorem setField_testBit (row p w v i : Nat) : (setField row p w v).testBit i =
    if i < p then row.testBit i else if i < p + w then v.testBit (i - p) else row.testBit i := by
  rw [setField_eq, Nat.testBit_two_pow_mul_add _ (Nat.mod_lt _ (by positivity))]
  split
  · next h => simp [Nat.testBit_mod_two_pow, h]
  · next h =>
    rw [Nat.testBit_two_pow_mul_add _ (Nat.mod_lt _ (by positivity))]
    by_cases k : i < p + w
    · rw [if_pos (by omega), if_pos k, Nat.testBit_mod_two_pow]
      simp [show i - p < w by omega]
    · rw [if_neg (by omega), if_neg k, Nat.testBit_div_two_pow]
      congr 1
      omega

/-- The code of an element of a row without blocks is one field. -/
theorem Lay.code_eq {l : Lay} (h : l.scale = none) (row j : Nat) : l.code row j = getField row (j * l.f.width) l.f.width := by
  simp [Lay.code, Lay.parts, Lay.isBlock, h]

theorem Lay.setCode_eq {l : Lay} (h : l.scale = none) (row j c : Nat) :
    l.setCode row j c = setField row (j * l.f.width) l.f.width c := by
  simp [Lay.setCode, Lay.parts, Lay.isBlock, h, setParts]

theorem Lay.code_setCode {l : Lay} (h : l.scale = none) (row j c : Nat) : l.code (l.setCode row j c) j = c % 2 ^ l.f.width := by
  rw [Lay.code_eq h, Lay.setCode_eq h]
  apply Nat.eq_of_testBit_eq
  intro i
  rw [getField_testBit, setField_testBit, Nat.testBit_mod_two_pow]
  by_cases k : i < l.f.width
  · rw [if_neg (by omega), if_pos (by omega)]
    simp
  · simp [k]

theorem Lay.code_setCode_other {l : Lay} (h : l.scale = none) (row c : Nat) {i j : Nat} (n : i ≠ j) :
    l.code (l.setCode row j c) i = l.code row i := by
  rw [Lay.code_eq h, Lay.code_eq h, Lay.setCode_eq h]
  apply Nat.eq_of_testBit_eq
  intro b
  rw [getField_testBit, getField_testBit, setField_testBit]
  by_cases k : b < l.f.width
  · rcases Nat.lt_or_gt_of_ne n with q | q
    · have : (i + 1) * l.f.width ≤ j * l.f.width := Nat.mul_le_mul_right _ q
      rw [Nat.add_one_mul] at this
      rw [if_pos (by omega)]
    · have : (j + 1) * l.f.width ≤ i * l.f.width := Nat.mul_le_mul_right _ q
      rw [Nat.add_one_mul] at this
      rw [if_neg (by omega), if_neg (by omega)]
  · simp [k]

theorem Lay.code_trim {l : Lay} (h : l.scale = none) (row : Nat) {j : Nat} (n : j < l.count) :
    l.code (l.trim row) j = l.code row j := by
  rw [Lay.code_eq h, Lay.code_eq h]
  apply Nat.eq_of_testBit_eq
  intro b
  rw [getField_testBit, getField_testBit]
  by_cases k : b < l.f.width
  · have : (j + 1) * l.f.width ≤ l.count * l.f.width := Nat.mul_le_mul_right _ n
    rw [Nat.add_one_mul] at this
    simp [Lay.trim, Lay.isBlock, h, Nat.testBit_mod_two_pow, show j * l.f.width + b < l.count * l.f.width by omega]
  · simp [k]

/-- One element of a row written under a mask. -/
def mapOne (l : Lay) (act : Nat → Bool) (zero : Bool) (f : Nat → Nat × Nat) (r : Nat × Nat) (i : Nat) : Nat × Nat :=
  if act i then
    let c := f i
    (l.setCode r.1 i c.1, orFlags r.2 c.2)
  else (if zero then l.setCode r.1 i 0 else r.1, r.2)

theorem mapOne_other {l : Lay} (h : l.scale = none) (act : Nat → Bool) (zero : Bool) (f : Nat → Nat × Nat) (r : Nat × Nat)
    {i j : Nat} (n : j ≠ i) : l.code (mapOne l act zero f r i).1 j = l.code r.1 j := by
  unfold mapOne
  split
  · exact Lay.code_setCode_other h _ _ n
  · dsimp only
    split
    · exact Lay.code_setCode_other h _ _ n
    · rfl

theorem mapOne_same {l : Lay} (h : l.scale = none) (act : Nat → Bool) (zero : Bool) (f : Nat → Nat × Nat) (r : Nat × Nat)
    (j : Nat) : l.code (mapOne l act zero f r j).1 j =
      if act j then (f j).1 % 2 ^ l.f.width else if zero then 0 else l.code r.1 j := by
  unfold mapOne
  split
  · exact Lay.code_setCode h _ _ _
  · dsimp only
    split
    · simpa using Lay.code_setCode h r.1 j 0
    · rfl

theorem mapFold_code {l : Lay} (h : l.scale = none) (act : Nat → Bool) (zero : Bool) (f : Nat → Nat × Nat) (old : Nat × Nat) :
    ∀ n j, l.code ((List.range n).foldl (mapOne l act zero f) old).1 j =
      if j < n then (if act j then (f j).1 % 2 ^ l.f.width else if zero then 0 else l.code old.1 j) else l.code old.1 j
  | 0, j => by simp
  | n + 1, j => by
    rw [List.range_succ, List.foldl_append, List.foldl_cons, List.foldl_nil]
    by_cases k : j = n
    · subst k
      rw [mapOne_same h, mapFold_code h act zero f old j j]
      simp
    · rw [mapOne_other h _ _ _ _ k, mapFold_code h act zero f old n j]
      by_cases q : j < n
      · simp [q, show j < n + 1 by omega]
      · simp [q, show ¬ j < n + 1 by omega]

/-- The elements of a row written under a mask (R282). -/
theorem mapElems_code {l : Lay} (h : l.scale = none) (act : Nat → Bool) (zero : Bool) (f : Nat → Nat × Nat) (old : Nat) {j : Nat}
    (n : j < l.count) : l.code (mapElems l act zero f old).1 j =
      if act j then (f j).1 % 2 ^ l.f.width else if zero then 0 else l.code old j := by
  have := mapFold_code h act zero f (old, 0) l.count j
  rw [if_pos n] at this
  rw [← this, mapElems]
  exact Lay.code_trim h _ n

/-! ## Masks -/

/-- One bit of a mask that a comparison writes. -/
def cmpOne (n : Nat) (act : Nat → Bool) (zero : Bool) (f : Nat → Bool × Nat) (r : Mask × Nat) (i : Nat) : Mask × Nat :=
  let bit := fun (v : Bool) => (r.1 &&& ~~~(BitVec.ofNat 256 (2 ^ i))) ||| (if v then BitVec.ofNat 256 (2 ^ i) else 0)
  if i ≥ n then (bit false, r.2)
  else if act i then (bit (f i).1, orFlags r.2 (f i).2)
  else if zero then (bit false, r.2)
  else r

theorem bit256 (i j : Nat) (h : j < 256) : (BitVec.ofNat 256 (2 ^ i)).getLsbD j = decide (i = j) := by
  rw [BitVec.getLsbD_ofNat, Nat.testBit_two_pow]
  simp [h]

theorem cmpBit (r : Mask) (i j : Nat) (v : Bool) (h : j < 256) :
    ((r &&& ~~~(BitVec.ofNat 256 (2 ^ i))) ||| (if v then BitVec.ofNat 256 (2 ^ i) else 0)).getLsbD j =
      if i = j then v else r.getLsbD j := by
  rw [BitVec.getLsbD_or, BitVec.getLsbD_and, BitVec.getLsbD_not, bit256 i j h]
  cases v
  · by_cases q : i = j <;> simp [q, h]
  · simp only [↓reduceIte, bit256 i j h]
    by_cases q : i = j <;> simp [q, h]

theorem cmpFold (n : Nat) (act : Nat → Bool) (zero : Bool) (f : Nat → Bool × Nat) (old : Mask × Nat) (j : Nat) (h : j < 256) :
    ∀ k, ((List.range k).foldl (cmpOne n act zero f) old).1.getLsbD j =
      if j < k then (if n ≤ j then false else if act j then (f j).1 else if zero then false else old.1.getLsbD j)
      else old.1.getLsbD j
  | 0 => by simp
  | k + 1 => by
    rw [List.range_succ, List.foldl_append, List.foldl_cons, List.foldl_nil]
    have ih := cmpFold n act zero f old j h k
    generalize (List.range k).foldl (cmpOne n act zero f) old = r at *
    unfold cmpOne
    by_cases q : k = j
    · subst q
      simp only [lt_irrefl, ↓reduceIte] at ih
      simp only [Nat.lt_succ_self, ↓reduceIte]
      split
      · next g => rw [cmpBit _ _ _ _ h]; simp
      · next g =>
        split
        · rw [cmpBit _ _ _ _ h]; simp
        · split
          · rw [cmpBit _ _ _ _ h]; simp
          · exact ih
    · have e : (if j < k + 1 then (if n ≤ j then false else if act j then (f j).1 else if zero then false else old.1.getLsbD j)
          else old.1.getLsbD j) = r.1.getLsbD j := by
        rw [ih]
        by_cases p : j < k
        · rw [if_pos p, if_pos (by omega)]
        · rw [if_neg p, if_neg (by omega)]
      rw [e]
      split
      · next g => rw [cmpBit _ _ _ _ h]; simp [q]
      · split
        · rw [cmpBit _ _ _ _ h]; simp [q]
        · split
          · rw [cmpBit _ _ _ _ h]; simp [q]
          · rfl

theorem cmpMask_bit (n : Nat) (act : Nat → Bool) (zero : Bool) (old : Mask) (f : Nat → Bool × Nat) (j : Nat) (h : j < 256) :
    (cmpMask n act zero old f).1.getLsbD j =
      if n ≤ j then false else if act j then (f j).1 else if zero then false else old.getLsbD j := by
  have := cmpFold n act zero f (old, 0) j h 256
  rw [if_pos h] at this
  exact this

end Sys2Proof.Machine
end

