-- ==== Sys2Proof/Laws/Words.lean ====
section
/-! SUPPORT. Each constructor's word decodes to it (R90 to R97, R105). -/

namespace Sys2Proof

set_option linter.unusedSimpArgs false
set_option Elab.async false

theorem low4 (x : BitVec 4) : (0#1 ++ x : BitVec 5).extractLsb' 0 4 = x := by revert x; decide
theorem bit4 (x : BitVec 4) : (0#1 ++ x : BitVec 5)[4] = false := by revert x; decide
theorem low3 (x : BitVec 3) : (0#1 ++ x : BitVec 4).extractLsb' 0 3 = x := by revert x; decide
theorem bit3 (x : BitVec 3) : (0#1 ++ x : BitVec 4)[3] = false := by revert x; decide

theorem onlyIf_true {c : Bool} {r : Reject} {i : Instr} (h : c = true) : onlyIf c r i = .ok i := by rw [onlyIf, if_pos h]

theorem rt_rcommit  : decodeWord (encR opCustom0 0 0x00 0 0 0) = .ok (.rcommit ) := by
  obtain ⟨W, hW, h0, h1, h2, h3, h4, h5⟩ := encR_has opCustom0 0 0x00 0 0 0
  rw [hW, custom0_of h0]
  simp [decodeCustom0, onlyIf, low4, bit4, low3, bit3, h1, h2, h3, h4, h5]

theorem rt_phase (rd : Reg) (rs1 : Reg) : decodeWord (encR opCustom0 0 0x02 0 rs1 rd) = .ok (.phase rd rs1) := by
  obtain ⟨W, hW, h0, h1, h2, h3, h4, h5⟩ := encR_has opCustom0 0 0x02 0 rs1 rd
  rw [hW, custom0_of h0]
  simp [decodeCustom0, onlyIf, low4, bit4, low3, bit3, h1, h2, h3, h4, h5]

theorem rt_bfx (rd : Reg) (rs1 : Reg) (rs2 : Reg) : decodeWord (encR opCustom0 0 0x03 rs2 rs1 rd) = .ok (.bfx rd rs1 rs2) := by
  obtain ⟨W, hW, h0, h1, h2, h3, h4, h5⟩ := encR_has opCustom0 0 0x03 rs2 rs1 rd
  rw [hW, custom0_of h0]
  simp [decodeCustom0, onlyIf, low4, bit4, low3, bit3, h1, h2, h3, h4, h5]

theorem rt_bfi (rd : Reg) (rs1 : Reg) (rs2 : Reg) : decodeWord (encR opCustom0 0 0x04 rs2 rs1 rd) = .ok (.bfi rd rs1 rs2) := by
  obtain ⟨W, hW, h0, h1, h2, h3, h4, h5⟩ := encR_has opCustom0 0 0x04 rs2 rs1 rd
  rw [hW, custom0_of h0]
  simp [decodeCustom0, onlyIf, low4, bit4, low3, bit3, h1, h2, h3, h4, h5]

theorem rt_xflush (rs1 : Reg) (rs2 : Reg) : decodeWord (encR opCustom0 0 0x10 rs2 rs1 0) = .ok (.xflush rs1 rs2) := by
  obtain ⟨W, hW, h0, h1, h2, h3, h4, h5⟩ := encR_has opCustom0 0 0x10 rs2 rs1 0
  rw [hW, custom0_of h0]
  simp [decodeCustom0, onlyIf, low4, bit4, low3, bit3, h1, h2, h3, h4, h5]

theorem rt_barinit (rs1 : Reg) (rs2 : Reg) : decodeWord (encR opCustom0 3 0x00 rs2 rs1 0) = .ok (.barinit rs1 rs2) := by
  obtain ⟨W, hW, h0, h1, h2, h3, h4, h5⟩ := encR_has opCustom0 3 0x00 rs2 rs1 0
  rw [hW, custom0_of h0]
  simp [decodeCustom0, onlyIf, low4, bit4, low3, bit3, h1, h2, h3, h4, h5]

theorem rt_barrive (rd : Reg) (rs1 : Reg) : decodeWord (encR opCustom0 3 0x01 0 rs1 rd) = .ok (.barrive rd rs1) := by
  obtain ⟨W, hW, h0, h1, h2, h3, h4, h5⟩ := encR_has opCustom0 3 0x01 0 rs1 rd
  rw [hW, custom0_of h0]
  simp [decodeCustom0, onlyIf, low4, bit4, low3, bit3, h1, h2, h3, h4, h5]

theorem rt_barwait (rs1 : Reg) (rs2 : Reg) : decodeWord (encR opCustom0 3 0x02 rs2 rs1 0) = .ok (.barwait rs1 rs2) := by
  obtain ⟨W, hW, h0, h1, h2, h3, h4, h5⟩ := encR_has opCustom0 3 0x02 rs2 rs1 0
  rw [hW, custom0_of h0]
  simp [decodeCustom0, onlyIf, low4, bit4, low3, bit3, h1, h2, h3, h4, h5]

theorem rt_barsync (rd : Reg) (rs1 : Reg) : decodeWord (encR opCustom0 3 0x03 0 rs1 rd) = .ok (.barsync rd rs1) := by
  obtain ⟨W, hW, h0, h1, h2, h3, h4, h5⟩ := encR_has opCustom0 3 0x03 0 rs1 rd
  rw [hW, custom0_of h0]
  simp [decodeCustom0, onlyIf, low4, bit4, low3, bit3, h1, h2, h3, h4, h5]

theorem rt_semv (rs1 : Reg) (rs2 : Reg) : decodeWord (encR opCustom0 3 0x08 rs2 rs1 0) = .ok (.semv rs1 rs2) := by
  obtain ⟨W, hW, h0, h1, h2, h3, h4, h5⟩ := encR_has opCustom0 3 0x08 rs2 rs1 0
  rw [hW, custom0_of h0]
  simp [decodeCustom0, onlyIf, low4, bit4, low3, bit3, h1, h2, h3, h4, h5]

theorem rt_semp (rd : Reg) (rs1 : Reg) (rs2 : Reg) : decodeWord (encR opCustom0 3 0x09 rs2 rs1 rd) = .ok (.semp rd rs1 rs2) := by
  obtain ⟨W, hW, h0, h1, h2, h3, h4, h5⟩ := encR_has opCustom0 3 0x09 rs2 rs1 rd
  rw [hW, custom0_of h0]
  simp [decodeCustom0, onlyIf, low4, bit4, low3, bit3, h1, h2, h3, h4, h5]

theorem rt_msnd (rd : Reg) (rs1 : Reg) (rs2 : Reg) : decodeWord (encR opCustom0 4 0x00 rs2 rs1 rd) = .ok (.msnd rd rs1 rs2) := by
  obtain ⟨W, hW, h0, h1, h2, h3, h4, h5⟩ := encR_has opCustom0 4 0x00 rs2 rs1 rd
  rw [hW, custom0_of h0]
  simp [decodeCustom0, onlyIf, low4, bit4, low3, bit3, h1, h2, h3, h4, h5]

theorem rt_mrcv (rd : Reg) (rs1 : Reg) (rs2 : Reg) : decodeWord (encR opCustom0 4 0x01 rs2 rs1 rd) = .ok (.mrcv rd rs1 rs2) := by
  obtain ⟨W, hW, h0, h1, h2, h3, h4, h5⟩ := encR_has opCustom0 4 0x01 rs2 rs1 rd
  rw [hW, custom0_of h0]
  simp [decodeCustom0, onlyIf, low4, bit4, low3, bit3, h1, h2, h3, h4, h5]

theorem rt_mpoll (rd : Reg) (rs1 : Reg) : decodeWord (encR opCustom0 4 0x02 0 rs1 rd) = .ok (.mpoll rd rs1) := by
  obtain ⟨W, hW, h0, h1, h2, h3, h4, h5⟩ := encR_has opCustom0 4 0x02 0 rs1 rd
  rw [hW, custom0_of h0]
  simp [decodeCustom0, onlyIf, low4, bit4, low3, bit3, h1, h2, h3, h4, h5]

theorem rt_gsig (rd : Reg) (rs1 : Reg) (rs2 : Reg) : decodeWord (encR opCustom0 5 0x00 rs2 rs1 rd) = .ok (.gsig rd rs1 rs2) := by
  obtain ⟨W, hW, h0, h1, h2, h3, h4, h5⟩ := encR_has opCustom0 5 0x00 rs2 rs1 rd
  rw [hW, custom0_of h0]
  simp [decodeCustom0, onlyIf, low4, bit4, low3, bit3, h1, h2, h3, h4, h5]

theorem rt_gwait (rd : Reg) (rs1 : Reg) (rs2 : Reg) : decodeWord (encR opCustom0 5 0x01 rs2 rs1 rd) = .ok (.gwait rd rs1 rs2) := by
  obtain ⟨W, hW, h0, h1, h2, h3, h4, h5⟩ := encR_has opCustom0 5 0x01 rs2 rs1 rd
  rw [hW, custom0_of h0]
  simp [decodeCustom0, onlyIf, low4, bit4, low3, bit3, h1, h2, h3, h4, h5]

theorem rt_gpay (rd : Reg) (rs1 : Reg) (rs2 : Reg) : decodeWord (encR opCustom0 5 0x02 rs2 rs1 rd) = .ok (.gpay rd rs1 rs2) := by
  obtain ⟨W, hW, h0, h1, h2, h3, h4, h5⟩ := encR_has opCustom0 5 0x02 rs2 rs1 rd
  rw [hW, custom0_of h0]
  simp [decodeCustom0, onlyIf, low4, bit4, low3, bit3, h1, h2, h3, h4, h5]

theorem rt_gtake (rd : Reg) (rs1 : Reg) (rs2 : Reg) : decodeWord (encR opCustom0 5 0x03 rs2 rs1 rd) = .ok (.gtake rd rs1 rs2) := by
  obtain ⟨W, hW, h0, h1, h2, h3, h4, h5⟩ := encR_has opCustom0 5 0x03 rs2 rs1 rd
  rw [hW, custom0_of h0]
  simp [decodeCustom0, onlyIf, low4, bit4, low3, bit3, h1, h2, h3, h4, h5]

theorem rt_gopen (rs1 : Reg) : decodeWord (encR opCustom0 5 0x04 0 rs1 0) = .ok (.gopen rs1) := by
  obtain ⟨W, hW, h0, h1, h2, h3, h4, h5⟩ := encR_has opCustom0 5 0x04 0 rs1 0
  rw [hW, custom0_of h0]
  simp [decodeCustom0, onlyIf, low4, bit4, low3, bit3, h1, h2, h3, h4, h5]

theorem rt_gclose (rs1 : Reg) : decodeWord (encR opCustom0 5 0x05 0 rs1 0) = .ok (.gclose rs1) := by
  obtain ⟨W, hW, h0, h1, h2, h3, h4, h5⟩ := encR_has opCustom0 5 0x05 0 rs1 0
  rw [hW, custom0_of h0]
  simp [decodeCustom0, onlyIf, low4, bit4, low3, bit3, h1, h2, h3, h4, h5]

theorem rt_spawn (rd : Reg) (rs1 : Reg) (rs2 : Reg) : decodeWord (encR opCustom1 0 0x00 rs2 rs1 rd) = .ok (.spawn rd rs1 rs2) := by
  obtain ⟨W, hW, h0, h1, h2, h3, h4, h5⟩ := encR_has opCustom1 0 0x00 rs2 rs1 rd
  rw [hW, custom1_of h0]
  simp [decodeCustom1, onlyIf, low4, bit4, low3, bit3, h1, h2, h3, h4, h5]

theorem rt_touch (rd : Reg) (rs1 : Reg) : decodeWord (encR opCustom1 0 0x02 0 rs1 rd) = .ok (.touch rd rs1) := by
  obtain ⟨W, hW, h0, h1, h2, h3, h4, h5⟩ := encR_has opCustom1 0 0x02 0 rs1 rd
  rw [hW, custom1_of h0]
  simp [decodeCustom1, onlyIf, low4, bit4, low3, bit3, h1, h2, h3, h4, h5]

theorem rt_tpoll (rd : Reg) (rs1 : Reg) : decodeWord (encR opCustom1 0 0x03 0 rs1 rd) = .ok (.tpoll rd rs1) := by
  obtain ⟨W, hW, h0, h1, h2, h3, h4, h5⟩ := encR_has opCustom1 0 0x03 0 rs1 rd
  rw [hW, custom1_of h0]
  simp [decodeCustom1, onlyIf, low4, bit4, low3, bit3, h1, h2, h3, h4, h5]

theorem rt_tany (rd : Reg) (rs1 : Reg) (rs2 : Reg) : decodeWord (encR opCustom1 0 0x04 rs2 rs1 rd) = .ok (.tany rd rs1 rs2) := by
  obtain ⟨W, hW, h0, h1, h2, h3, h4, h5⟩ := encR_has opCustom1 0 0x04 rs2 rs1 rd
  rw [hW, custom1_of h0]
  simp [decodeCustom1, onlyIf, low4, bit4, low3, bit3, h1, h2, h3, h4, h5]

theorem rt_promise (rd : Reg) : decodeWord (encR opCustom1 0 0x05 0 0 rd) = .ok (.promise rd) := by
  obtain ⟨W, hW, h0, h1, h2, h3, h4, h5⟩ := encR_has opCustom1 0 0x05 0 0 rd
  rw [hW, custom1_of h0]
  simp [decodeCustom1, onlyIf, low4, bit4, low3, bit3, h1, h2, h3, h4, h5]

theorem rt_resolve (rd : Reg) (rs1 : Reg) (rs2 : Reg) : decodeWord (encR opCustom1 0 0x06 rs2 rs1 rd) = .ok (.resolve rd rs1 rs2) := by
  obtain ⟨W, hW, h0, h1, h2, h3, h4, h5⟩ := encR_has opCustom1 0 0x06 rs2 rs1 rd
  rw [hW, custom1_of h0]
  simp [decodeCustom1, onlyIf, low4, bit4, low3, bit3, h1, h2, h3, h4, h5]

theorem rt_cancel (rd : Reg) (rs1 : Reg) : decodeWord (encR opCustom1 0 0x07 0 rs1 rd) = .ok (.cancel rd rs1) := by
  obtain ⟨W, hW, h0, h1, h2, h3, h4, h5⟩ := encR_has opCustom1 0 0x07 0 rs1 rd
  rw [hW, custom1_of h0]
  simp [decodeCustom1, onlyIf, low4, bit4, low3, bit3, h1, h2, h3, h4, h5]

theorem rt_poison (rd : Reg) (rs1 : Reg) (rs2 : Reg) : decodeWord (encR opCustom1 0 0x08 rs2 rs1 rd) = .ok (.poison rd rs1 rs2) := by
  obtain ⟨W, hW, h0, h1, h2, h3, h4, h5⟩ := encR_has opCustom1 0 0x08 rs2 rs1 rd
  rw [hW, custom1_of h0]
  simp [decodeCustom1, onlyIf, low4, bit4, low3, bit3, h1, h2, h3, h4, h5]

theorem rt_texit (rs1 : Reg) : decodeWord (encR opCustom1 0 0x09 0 rs1 0) = .ok (.texit rs1) := by
  obtain ⟨W, hW, h0, h1, h2, h3, h4, h5⟩ := encR_has opCustom1 0 0x09 0 rs1 0
  rw [hW, custom1_of h0]
  simp [decodeCustom1, onlyIf, low4, bit4, low3, bit3, h1, h2, h3, h4, h5]

theorem rt_tyield  : decodeWord (encR opCustom1 0 0x0A 0 0 0) = .ok (.tyield ) := by
  obtain ⟨W, hW, h0, h1, h2, h3, h4, h5⟩ := encR_has opCustom1 0 0x0A 0 0 0
  rw [hW, custom1_of h0]
  simp [decodeCustom1, onlyIf, low4, bit4, low3, bit3, h1, h2, h3, h4, h5]

theorem rt_frel (rs1 : Reg) : decodeWord (encR opCustom1 0 0x0B 0 rs1 0) = .ok (.frel rs1) := by
  obtain ⟨W, hW, h0, h1, h2, h3, h4, h5⟩ := encR_has opCustom1 0 0x0B 0 rs1 0
  rw [hW, custom1_of h0]
  simp [decodeCustom1, onlyIf, low4, bit4, low3, bit3, h1, h2, h3, h4, h5]

theorem rt_stdef (rs1 : Reg) (rs2 : Reg) : decodeWord (encR opCustom1 1 0x00 rs2 rs1 0) = .ok (.stdef rs1 rs2) := by
  obtain ⟨W, hW, h0, h1, h2, h3, h4, h5⟩ := encR_has opCustom1 1 0x00 rs2 rs1 0
  rw [hW, custom1_of h0]
  simp [decodeCustom1, onlyIf, low4, bit4, low3, bit3, h1, h2, h3, h4, h5]

theorem rt_starm (rd : Reg) (rs1 : Reg) (rs2 : Reg) : decodeWord (encR opCustom1 1 0x01 rs2 rs1 rd) = .ok (.starm rd rs1 rs2) := by
  obtain ⟨W, hW, h0, h1, h2, h3, h4, h5⟩ := encR_has opCustom1 1 0x01 rs2 rs1 rd
  rw [hW, custom1_of h0]
  simp [decodeCustom1, onlyIf, low4, bit4, low3, bit3, h1, h2, h3, h4, h5]

theorem rt_stwait (rd : Reg) (rs1 : Reg) (rs2 : Reg) : decodeWord (encR opCustom1 1 0x02 rs2 rs1 rd) = .ok (.stwait rd rs1 rs2) := by
  obtain ⟨W, hW, h0, h1, h2, h3, h4, h5⟩ := encR_has opCustom1 1 0x02 rs2 rs1 rd
  rw [hW, custom1_of h0]
  simp [decodeCustom1, onlyIf, low4, bit4, low3, bit3, h1, h2, h3, h4, h5]

theorem rt_stgen (rd : Reg) (rs1 : Reg) : decodeWord (encR opCustom1 1 0x03 0 rs1 rd) = .ok (.stgen rd rs1) := by
  obtain ⟨W, hW, h0, h1, h2, h3, h4, h5⟩ := encR_has opCustom1 1 0x03 0 rs1 rd
  rw [hW, custom1_of h0]
  simp [decodeCustom1, onlyIf, low4, bit4, low3, bit3, h1, h2, h3, h4, h5]

theorem rt_hoist (rd : Reg) (rs1 : Reg) : decodeWord (encR opCustom1 1 0x04 0 rs1 rd) = .ok (.hoist rd rs1) := by
  obtain ⟨W, hW, h0, h1, h2, h3, h4, h5⟩ := encR_has opCustom1 1 0x04 0 rs1 rd
  rw [hW, custom1_of h0]
  simp [decodeCustom1, onlyIf, low4, bit4, low3, bit3, h1, h2, h3, h4, h5]

theorem rt_cpyin (rd : Reg) (rs1 : Reg) (rs2 : Reg) : decodeWord (encR opCustom1 2 0x00 rs2 rs1 rd) = .ok (.cpyin rd rs1 rs2) := by
  obtain ⟨W, hW, h0, h1, h2, h3, h4, h5⟩ := encR_has opCustom1 2 0x00 rs2 rs1 rd
  rw [hW, custom1_of h0]
  simp [decodeCustom1, onlyIf, low4, bit4, low3, bit3, h1, h2, h3, h4, h5]

theorem rt_cpyout (rd : Reg) (rs1 : Reg) (rs2 : Reg) : decodeWord (encR opCustom1 2 0x01 rs2 rs1 rd) = .ok (.cpyout rd rs1 rs2) := by
  obtain ⟨W, hW, h0, h1, h2, h3, h4, h5⟩ := encR_has opCustom1 2 0x01 rs2 rs1 rd
  rw [hW, custom1_of h0]
  simp [decodeCustom1, onlyIf, low4, bit4, low3, bit3, h1, h2, h3, h4, h5]

theorem rt_cpyx (rd : Reg) (rs1 : Reg) (rs2 : Reg) : decodeWord (encR opCustom1 2 0x02 rs2 rs1 rd) = .ok (.cpyx rd rs1 rs2) := by
  obtain ⟨W, hW, h0, h1, h2, h3, h4, h5⟩ := encR_has opCustom1 2 0x02 rs2 rs1 rd
  rw [hW, custom1_of h0]
  simp [decodeCustom1, onlyIf, low4, bit4, low3, bit3, h1, h2, h3, h4, h5]

theorem rt_cpygath (rd : Reg) (rs1 : Reg) (rs2 : Reg) : decodeWord (encR opCustom1 2 0x03 rs2 rs1 rd) = .ok (.cpygath rd rs1 rs2) := by
  obtain ⟨W, hW, h0, h1, h2, h3, h4, h5⟩ := encR_has opCustom1 2 0x03 rs2 rs1 rd
  rw [hW, custom1_of h0]
  simp [decodeCustom1, onlyIf, low4, bit4, low3, bit3, h1, h2, h3, h4, h5]

theorem rt_cpybc (rd : Reg) (rs1 : Reg) (rs2 : Reg) : decodeWord (encR opCustom1 2 0x04 rs2 rs1 rd) = .ok (.cpybc rd rs1 rs2) := by
  obtain ⟨W, hW, h0, h1, h2, h3, h4, h5⟩ := encR_has opCustom1 2 0x04 rs2 rs1 rd
  rw [hW, custom1_of h0]
  simp [decodeCustom1, onlyIf, low4, bit4, low3, bit3, h1, h2, h3, h4, h5]

theorem rt_cpwait (rd : Reg) (rs1 : Reg) : decodeWord (encR opCustom1 2 0x08 0 rs1 rd) = .ok (.cpwait rd rs1) := by
  obtain ⟨W, hW, h0, h1, h2, h3, h4, h5⟩ := encR_has opCustom1 2 0x08 0 rs1 rd
  rw [hW, custom1_of h0]
  simp [decodeCustom1, onlyIf, low4, bit4, low3, bit3, h1, h2, h3, h4, h5]

theorem rt_cpqry (rd : Reg) (rs1 : Reg) : decodeWord (encR opCustom1 2 0x09 0 rs1 rd) = .ok (.cpqry rd rs1) := by
  obtain ⟨W, hW, h0, h1, h2, h3, h4, h5⟩ := encR_has opCustom1 2 0x09 0 rs1 rd
  rw [hW, custom1_of h0]
  simp [decodeCustom1, onlyIf, low4, bit4, low3, bit3, h1, h2, h3, h4, h5]

theorem rt_cpcan (rd : Reg) (rs1 : Reg) : decodeWord (encR opCustom1 2 0x0A 0 rs1 rd) = .ok (.cpcan rd rs1) := by
  obtain ⟨W, hW, h0, h1, h2, h3, h4, h5⟩ := encR_has opCustom1 2 0x0A 0 rs1 rd
  rw [hW, custom1_of h0]
  simp [decodeCustom1, onlyIf, low4, bit4, low3, bit3, h1, h2, h3, h4, h5]

theorem rt_mld (md : TileReg) (pad : Reg) (rs2 : Reg) (hp : padOk pad = true) : decodeWord (encTr 0x00 rs2 pad md) = .ok (.mld md pad rs2) := by
  obtain ⟨W, hW, h0, h1, h2, h3, h4, h5, h6⟩ := encTr_has 0x00 rs2 pad md
  rw [hW, custom2_of h0]
  have d1 : fld W 15 4 = (fld W 15 5).extractLsb' 0 4 := (fld_fld W 15 5 0 4 (by decide)).symm
  have d2 : W[19] = (fld W 15 5)[4] := (BitVec.getLsbD_eq_getElem (by decide)).symm.trans ((fld_bit W 15 5 4 (by decide)).symm.trans (BitVec.getLsbD_eq_getElem (by decide)))
  have d3 : W[7] = (fld W 7 1)[0] := (BitVec.getLsbD_eq_getElem (by decide)).symm.trans ((fld_bit W 7 1 0 (by decide)).symm.trans (BitVec.getLsbD_eq_getElem (by decide)))
  simp [decodeCustom2, onlyIf, low4, bit4, low3, bit3, h1, h2, h3, h4, h5, h6, d1, d2, d3, hp]

theorem rt_mst (md : TileReg) (pad : Reg) (hp : padOk pad = true) : decodeWord (encTr 0x01 0 pad md) = .ok (.mst md pad) := by
  obtain ⟨W, hW, h0, h1, h2, h3, h4, h5, h6⟩ := encTr_has 0x01 0 pad md
  rw [hW, custom2_of h0]
  have d1 : fld W 15 4 = (fld W 15 5).extractLsb' 0 4 := (fld_fld W 15 5 0 4 (by decide)).symm
  have d2 : W[19] = (fld W 15 5)[4] := (BitVec.getLsbD_eq_getElem (by decide)).symm.trans ((fld_bit W 15 5 4 (by decide)).symm.trans (BitVec.getLsbD_eq_getElem (by decide)))
  have d3 : W[7] = (fld W 7 1)[0] := (BitVec.getLsbD_eq_getElem (by decide)).symm.trans ((fld_bit W 7 1 0 (by decide)).symm.trans (BitVec.getLsbD_eq_getElem (by decide)))
  simp [decodeCustom2, onlyIf, low4, bit4, low3, bit3, h1, h2, h3, h4, h5, h6, d1, d2, d3, hp]

theorem rt_mzero (md : TileReg) (rs1 : Reg) : decodeWord (encTr 0x02 0 rs1 md) = .ok (.mzero md rs1) := by
  obtain ⟨W, hW, h0, h1, h2, h3, h4, h5, h6⟩ := encTr_has 0x02 0 rs1 md
  rw [hW, custom2_of h0]
  have d1 : fld W 15 4 = (fld W 15 5).extractLsb' 0 4 := (fld_fld W 15 5 0 4 (by decide)).symm
  have d2 : W[19] = (fld W 15 5)[4] := (BitVec.getLsbD_eq_getElem (by decide)).symm.trans ((fld_bit W 15 5 4 (by decide)).symm.trans (BitVec.getLsbD_eq_getElem (by decide)))
  have d3 : W[7] = (fld W 7 1)[0] := (BitVec.getLsbD_eq_getElem (by decide)).symm.trans ((fld_bit W 7 1 0 (by decide)).symm.trans (BitVec.getLsbD_eq_getElem (by decide)))
  simp [decodeCustom2, onlyIf, low4, bit4, low3, bit3, h1, h2, h3, h4, h5, h6, d1, d2, d3]

theorem rt_mcopy (md : TileReg) (ms : TileReg) : decodeWord (encTr 0x03 0 ((0 : BitVec 1) ++ ms) md) = .ok (.mcopy md ms) := by
  obtain ⟨W, hW, h0, h1, h2, h3, h4, h5, h6⟩ := encTr_has 0x03 0 ((0 : BitVec 1) ++ ms) md
  rw [hW, custom2_of h0]
  have d1 : fld W 15 4 = (fld W 15 5).extractLsb' 0 4 := (fld_fld W 15 5 0 4 (by decide)).symm
  have d2 : W[19] = (fld W 15 5)[4] := (BitVec.getLsbD_eq_getElem (by decide)).symm.trans ((fld_bit W 15 5 4 (by decide)).symm.trans (BitVec.getLsbD_eq_getElem (by decide)))
  have d3 : W[7] = (fld W 7 1)[0] := (BitVec.getLsbD_eq_getElem (by decide)).symm.trans ((fld_bit W 7 1 0 (by decide)).symm.trans (BitVec.getLsbD_eq_getElem (by decide)))
  simp [decodeCustom2, onlyIf, low4, bit4, low3, bit3, h1, h2, h3, h4, h5, h6, d1, d2, d3]

theorem rt_mtrn (md : TileReg) (ms : TileReg) : decodeWord (encTr 0x04 0 ((0 : BitVec 1) ++ ms) md) = .ok (.mtrn md ms) := by
  obtain ⟨W, hW, h0, h1, h2, h3, h4, h5, h6⟩ := encTr_has 0x04 0 ((0 : BitVec 1) ++ ms) md
  rw [hW, custom2_of h0]
  have d1 : fld W 15 4 = (fld W 15 5).extractLsb' 0 4 := (fld_fld W 15 5 0 4 (by decide)).symm
  have d2 : W[19] = (fld W 15 5)[4] := (BitVec.getLsbD_eq_getElem (by decide)).symm.trans ((fld_bit W 15 5 4 (by decide)).symm.trans (BitVec.getLsbD_eq_getElem (by decide)))
  have d3 : W[7] = (fld W 7 1)[0] := (BitVec.getLsbD_eq_getElem (by decide)).symm.trans ((fld_bit W 7 1 0 (by decide)).symm.trans (BitVec.getLsbD_eq_getElem (by decide)))
  simp [decodeCustom2, onlyIf, low4, bit4, low3, bit3, h1, h2, h3, h4, h5, h6, d1, d2, d3]

theorem rt_mcommit (rd : Reg) : decodeWord (encR opCustom2 6 0x00 0 0 rd) = .ok (.mcommit rd) := by
  obtain ⟨W, hW, h0, h1, h2, h3, h4, h5⟩ := encR_has opCustom2 6 0x00 0 0 rd
  rw [hW, custom2_of h0]
  have d1 : fld W 15 4 = (fld W 15 5).extractLsb' 0 4 := (fld_fld W 15 5 0 4 (by decide)).symm
  have d2 : W[19] = (fld W 15 5)[4] := (BitVec.getLsbD_eq_getElem (by decide)).symm.trans ((fld_bit W 15 5 4 (by decide)).symm.trans (BitVec.getLsbD_eq_getElem (by decide)))
  have d3 : W[7] = (fld W 7 5)[0] := (BitVec.getLsbD_eq_getElem (by decide)).symm.trans ((fld_bit W 7 5 0 (by decide)).symm.trans (BitVec.getLsbD_eq_getElem (by decide)))
  simp [decodeCustom2, onlyIf, low4, bit4, low3, bit3, h1, h2, h3, h4, h5, d1, d2]

theorem rt_mwait (rs1 : Reg) : decodeWord (encR opCustom2 6 0x01 0 rs1 0) = .ok (.mwait rs1) := by
  obtain ⟨W, hW, h0, h1, h2, h3, h4, h5⟩ := encR_has opCustom2 6 0x01 0 rs1 0
  rw [hW, custom2_of h0]
  have d1 : fld W 15 4 = (fld W 15 5).extractLsb' 0 4 := (fld_fld W 15 5 0 4 (by decide)).symm
  have d2 : W[19] = (fld W 15 5)[4] := (BitVec.getLsbD_eq_getElem (by decide)).symm.trans ((fld_bit W 15 5 4 (by decide)).symm.trans (BitVec.getLsbD_eq_getElem (by decide)))
  have d3 : W[7] = (fld W 7 5)[0] := (BitVec.getLsbD_eq_getElem (by decide)).symm.trans ((fld_bit W 7 5 0 (by decide)).symm.trans (BitVec.getLsbD_eq_getElem (by decide)))
  simp [decodeCustom2, onlyIf, low4, bit4, low3, bit3, h1, h2, h3, h4, h5, d1, d2]

theorem rt_mclrf (mt : TileReg) (rs2 : Reg) : decodeWord (encR opCustom2 6 0x02 rs2 ((0 : BitVec 1) ++ mt) 0) = .ok (.mclrf mt rs2) := by
  obtain ⟨W, hW, h0, h1, h2, h3, h4, h5⟩ := encR_has opCustom2 6 0x02 rs2 ((0 : BitVec 1) ++ mt) 0
  rw [hW, custom2_of h0]
  have d1 : fld W 15 4 = (fld W 15 5).extractLsb' 0 4 := (fld_fld W 15 5 0 4 (by decide)).symm
  have d2 : W[19] = (fld W 15 5)[4] := (BitVec.getLsbD_eq_getElem (by decide)).symm.trans ((fld_bit W 15 5 4 (by decide)).symm.trans (BitVec.getLsbD_eq_getElem (by decide)))
  have d3 : W[7] = (fld W 7 5)[0] := (BitVec.getLsbD_eq_getElem (by decide)).symm.trans ((fld_bit W 7 5 0 (by decide)).symm.trans (BitVec.getLsbD_eq_getElem (by decide)))
  simp [decodeCustom2, onlyIf, low4, bit4, low3, bit3, h1, h2, h3, h4, h5, d1, d2]

theorem rt_mstat (rd : Reg) (mt : TileReg) : decodeWord (encR opCustom2 6 0x03 0 ((0 : BitVec 1) ++ mt) rd) = .ok (.mstat rd mt) := by
  obtain ⟨W, hW, h0, h1, h2, h3, h4, h5⟩ := encR_has opCustom2 6 0x03 0 ((0 : BitVec 1) ++ mt) rd
  rw [hW, custom2_of h0]
  have d1 : fld W 15 4 = (fld W 15 5).extractLsb' 0 4 := (fld_fld W 15 5 0 4 (by decide)).symm
  have d2 : W[19] = (fld W 15 5)[4] := (BitVec.getLsbD_eq_getElem (by decide)).symm.trans ((fld_bit W 15 5 4 (by decide)).symm.trans (BitVec.getLsbD_eq_getElem (by decide)))
  have d3 : W[7] = (fld W 7 5)[0] := (BitVec.getLsbD_eq_getElem (by decide)).symm.trans ((fld_bit W 7 5 0 (by decide)).symm.trans (BitVec.getLsbD_eq_getElem (by decide)))
  simp [decodeCustom2, onlyIf, low4, bit4, low3, bit3, h1, h2, h3, h4, h5, d1, d2]

theorem rt_fmtw (rs1 : Reg) (rs2 : Reg) : decodeWord (encR opCustom2 6 0x04 rs2 rs1 0) = .ok (.fmtw rs1 rs2) := by
  obtain ⟨W, hW, h0, h1, h2, h3, h4, h5⟩ := encR_has opCustom2 6 0x04 rs2 rs1 0
  rw [hW, custom2_of h0]
  have d1 : fld W 15 4 = (fld W 15 5).extractLsb' 0 4 := (fld_fld W 15 5 0 4 (by decide)).symm
  have d2 : W[19] = (fld W 15 5)[4] := (BitVec.getLsbD_eq_getElem (by decide)).symm.trans ((fld_bit W 15 5 4 (by decide)).symm.trans (BitVec.getLsbD_eq_getElem (by decide)))
  have d3 : W[7] = (fld W 7 5)[0] := (BitVec.getLsbD_eq_getElem (by decide)).symm.trans ((fld_bit W 7 5 0 (by decide)).symm.trans (BitVec.getLsbD_eq_getElem (by decide)))
  simp [decodeCustom2, onlyIf, low4, bit4, low3, bit3, h1, h2, h3, h4, h5, d1, d2]

theorem rt_fmtr (rd : Reg) (rs1 : Reg) : decodeWord (encR opCustom2 6 0x05 0 rs1 rd) = .ok (.fmtr rd rs1) := by
  obtain ⟨W, hW, h0, h1, h2, h3, h4, h5⟩ := encR_has opCustom2 6 0x05 0 rs1 rd
  rw [hW, custom2_of h0]
  have d1 : fld W 15 4 = (fld W 15 5).extractLsb' 0 4 := (fld_fld W 15 5 0 4 (by decide)).symm
  have d2 : W[19] = (fld W 15 5)[4] := (BitVec.getLsbD_eq_getElem (by decide)).symm.trans ((fld_bit W 15 5 4 (by decide)).symm.trans (BitVec.getLsbD_eq_getElem (by decide)))
  have d3 : W[7] = (fld W 7 5)[0] := (BitVec.getLsbD_eq_getElem (by decide)).symm.trans ((fld_bit W 7 5 0 (by decide)).symm.trans (BitVec.getLsbD_eq_getElem (by decide)))
  simp [decodeCustom2, onlyIf, low4, bit4, low3, bit3, h1, h2, h3, h4, h5, d1, d2]

theorem rt_vadd (td : TileReg) (ta : TileReg) (tb : TileReg) (xr : Reg) : decodeWord (encRowR 0 0 tb ta td xr) = .ok (.vadd td ta tb xr) := by
  obtain ⟨W, hW, h0, h1, h2, h3, h4, h5, h6⟩ := encRowR_has 0 0 tb ta td xr
  rw [hW, custom3_of h0]
  simp [decodeCustom3, onlyIf, low4, bit4, low3, bit3, h1, h2, h3, h4, h5, h6]

theorem rt_vsub (td : TileReg) (ta : TileReg) (tb : TileReg) (xr : Reg) : decodeWord (encRowR 0 1 tb ta td xr) = .ok (.vsub td ta tb xr) := by
  obtain ⟨W, hW, h0, h1, h2, h3, h4, h5, h6⟩ := encRowR_has 0 1 tb ta td xr
  rw [hW, custom3_of h0]
  simp [decodeCustom3, onlyIf, low4, bit4, low3, bit3, h1, h2, h3, h4, h5, h6]

theorem rt_vmul (td : TileReg) (ta : TileReg) (tb : TileReg) (xr : Reg) : decodeWord (encRowR 0 2 tb ta td xr) = .ok (.vmul td ta tb xr) := by
  obtain ⟨W, hW, h0, h1, h2, h3, h4, h5, h6⟩ := encRowR_has 0 2 tb ta td xr
  rw [hW, custom3_of h0]
  simp [decodeCustom3, onlyIf, low4, bit4, low3, bit3, h1, h2, h3, h4, h5, h6]

theorem rt_vdiv (td : TileReg) (ta : TileReg) (tb : TileReg) (xr : Reg) : decodeWord (encRowR 0 3 tb ta td xr) = .ok (.vdiv td ta tb xr) := by
  obtain ⟨W, hW, h0, h1, h2, h3, h4, h5, h6⟩ := encRowR_has 0 3 tb ta td xr
  rw [hW, custom3_of h0]
  simp [decodeCustom3, onlyIf, low4, bit4, low3, bit3, h1, h2, h3, h4, h5, h6]

theorem rt_vfma (td : TileReg) (ta : TileReg) (tb : TileReg) (xr : Reg) : decodeWord (encRowR 0 4 tb ta td xr) = .ok (.vfma td ta tb xr) := by
  obtain ⟨W, hW, h0, h1, h2, h3, h4, h5, h6⟩ := encRowR_has 0 4 tb ta td xr
  rw [hW, custom3_of h0]
  simp [decodeCustom3, onlyIf, low4, bit4, low3, bit3, h1, h2, h3, h4, h5, h6]

theorem rt_vmin (td : TileReg) (ta : TileReg) (tb : TileReg) (xr : Reg) : decodeWord (encRowR 0 5 tb ta td xr) = .ok (.vmin td ta tb xr) := by
  obtain ⟨W, hW, h0, h1, h2, h3, h4, h5, h6⟩ := encRowR_has 0 5 tb ta td xr
  rw [hW, custom3_of h0]
  simp [decodeCustom3, onlyIf, low4, bit4, low3, bit3, h1, h2, h3, h4, h5, h6]

theorem rt_vmax (td : TileReg) (ta : TileReg) (tb : TileReg) (xr : Reg) : decodeWord (encRowR 0 6 tb ta td xr) = .ok (.vmax td ta tb xr) := by
  obtain ⟨W, hW, h0, h1, h2, h3, h4, h5, h6⟩ := encRowR_has 0 6 tb ta td xr
  rw [hW, custom3_of h0]
  simp [decodeCustom3, onlyIf, low4, bit4, low3, bit3, h1, h2, h3, h4, h5, h6]

theorem rt_vsel (td : TileReg) (ta : TileReg) (tb : TileReg) (xr : Reg) : decodeWord (encRowR 0 7 tb ta td xr) = .ok (.vsel td ta tb xr) := by
  obtain ⟨W, hW, h0, h1, h2, h3, h4, h5, h6⟩ := encRowR_has 0 7 tb ta td xr
  rw [hW, custom3_of h0]
  simp [decodeCustom3, onlyIf, low4, bit4, low3, bit3, h1, h2, h3, h4, h5, h6]

theorem rt_vcmpEq (kd : KReg) (ta : TileReg) (tb : TileReg) (xr : Reg) : decodeWord (encRowR 0 8 tb ta ((0 : BitVec 1) ++ kd) xr) = .ok (.vcmpEq kd ta tb xr) := by
  obtain ⟨W, hW, h0, h1, h2, h3, h4, h5, h6⟩ := encRowR_has 0 8 tb ta ((0 : BitVec 1) ++ kd) xr
  rw [hW, custom3_of h0]
  have d1 : fld W 15 3 = (fld W 15 4).extractLsb' 0 3 := (fld_fld W 15 4 0 3 (by decide)).symm
  have d2 : W[18] = (fld W 15 4)[3] := (BitVec.getLsbD_eq_getElem (by decide)).symm.trans ((fld_bit W 15 4 3 (by decide)).symm.trans (BitVec.getLsbD_eq_getElem (by decide)))
  simp [decodeCustom3, onlyIf, low4, bit4, low3, bit3, h1, h2, h3, h4, h5, h6, d1, d2]

theorem rt_vcmpLt (kd : KReg) (ta : TileReg) (tb : TileReg) (xr : Reg) : decodeWord (encRowR 0 9 tb ta ((0 : BitVec 1) ++ kd) xr) = .ok (.vcmpLt kd ta tb xr) := by
  obtain ⟨W, hW, h0, h1, h2, h3, h4, h5, h6⟩ := encRowR_has 0 9 tb ta ((0 : BitVec 1) ++ kd) xr
  rw [hW, custom3_of h0]
  have d1 : fld W 15 3 = (fld W 15 4).extractLsb' 0 3 := (fld_fld W 15 4 0 3 (by decide)).symm
  have d2 : W[18] = (fld W 15 4)[3] := (BitVec.getLsbD_eq_getElem (by decide)).symm.trans ((fld_bit W 15 4 3 (by decide)).symm.trans (BitVec.getLsbD_eq_getElem (by decide)))
  simp [decodeCustom3, onlyIf, low4, bit4, low3, bit3, h1, h2, h3, h4, h5, h6, d1, d2]

theorem rt_vcmpLe (kd : KReg) (ta : TileReg) (tb : TileReg) (xr : Reg) : decodeWord (encRowR 0 10 tb ta ((0 : BitVec 1) ++ kd) xr) = .ok (.vcmpLe kd ta tb xr) := by
  obtain ⟨W, hW, h0, h1, h2, h3, h4, h5, h6⟩ := encRowR_has 0 10 tb ta ((0 : BitVec 1) ++ kd) xr
  rw [hW, custom3_of h0]
  have d1 : fld W 15 3 = (fld W 15 4).extractLsb' 0 3 := (fld_fld W 15 4 0 3 (by decide)).symm
  have d2 : W[18] = (fld W 15 4)[3] := (BitVec.getLsbD_eq_getElem (by decide)).symm.trans ((fld_bit W 15 4 3 (by decide)).symm.trans (BitVec.getLsbD_eq_getElem (by decide)))
  simp [decodeCustom3, onlyIf, low4, bit4, low3, bit3, h1, h2, h3, h4, h5, h6, d1, d2]

theorem rt_vperm (td : TileReg) (ta : TileReg) (tb : TileReg) (xr : Reg) : decodeWord (encRowR 0 11 tb ta td xr) = .ok (.vperm td ta tb xr) := by
  obtain ⟨W, hW, h0, h1, h2, h3, h4, h5, h6⟩ := encRowR_has 0 11 tb ta td xr
  rw [hW, custom3_of h0]
  simp [decodeCustom3, onlyIf, low4, bit4, low3, bit3, h1, h2, h3, h4, h5, h6]

theorem rt_vmov (td : TileReg) (ta : TileReg) (xr : Reg) : decodeWord (encRowR 0 12 0 ta td xr) = .ok (.vmov td ta xr) := by
  obtain ⟨W, hW, h0, h1, h2, h3, h4, h5, h6⟩ := encRowR_has 0 12 0 ta td xr
  rw [hW, custom3_of h0]
  simp [decodeCustom3, onlyIf, low4, bit4, low3, bit3, h1, h2, h3, h4, h5, h6]

theorem rt_vneg (td : TileReg) (ta : TileReg) (xr : Reg) : decodeWord (encRowR 0 13 0 ta td xr) = .ok (.vneg td ta xr) := by
  obtain ⟨W, hW, h0, h1, h2, h3, h4, h5, h6⟩ := encRowR_has 0 13 0 ta td xr
  rw [hW, custom3_of h0]
  simp [decodeCustom3, onlyIf, low4, bit4, low3, bit3, h1, h2, h3, h4, h5, h6]

theorem rt_vabs (td : TileReg) (ta : TileReg) (xr : Reg) : decodeWord (encRowR 0 14 0 ta td xr) = .ok (.vabs td ta xr) := by
  obtain ⟨W, hW, h0, h1, h2, h3, h4, h5, h6⟩ := encRowR_has 0 14 0 ta td xr
  rw [hW, custom3_of h0]
  simp [decodeCustom3, onlyIf, low4, bit4, low3, bit3, h1, h2, h3, h4, h5, h6]

theorem rt_vsqrt (td : TileReg) (ta : TileReg) (xr : Reg) : decodeWord (encRowR 0 15 0 ta td xr) = .ok (.vsqrt td ta xr) := by
  obtain ⟨W, hW, h0, h1, h2, h3, h4, h5, h6⟩ := encRowR_has 0 15 0 ta td xr
  rw [hW, custom3_of h0]
  simp [decodeCustom3, onlyIf, low4, bit4, low3, bit3, h1, h2, h3, h4, h5, h6]

theorem rt_vrsq (td : TileReg) (ta : TileReg) (xr : Reg) : decodeWord (encRowR 0 16 0 ta td xr) = .ok (.vrsq td ta xr) := by
  obtain ⟨W, hW, h0, h1, h2, h3, h4, h5, h6⟩ := encRowR_has 0 16 0 ta td xr
  rw [hW, custom3_of h0]
  simp [decodeCustom3, onlyIf, low4, bit4, low3, bit3, h1, h2, h3, h4, h5, h6]

theorem rt_vrcp (td : TileReg) (ta : TileReg) (xr : Reg) : decodeWord (encRowR 0 17 0 ta td xr) = .ok (.vrcp td ta xr) := by
  obtain ⟨W, hW, h0, h1, h2, h3, h4, h5, h6⟩ := encRowR_has 0 17 0 ta td xr
  rw [hW, custom3_of h0]
  simp [decodeCustom3, onlyIf, low4, bit4, low3, bit3, h1, h2, h3, h4, h5, h6]

theorem rt_vexp2 (td : TileReg) (ta : TileReg) (xr : Reg) : decodeWord (encRowR 0 18 0 ta td xr) = .ok (.vexp2 td ta xr) := by
  obtain ⟨W, hW, h0, h1, h2, h3, h4, h5, h6⟩ := encRowR_has 0 18 0 ta td xr
  rw [hW, custom3_of h0]
  simp [decodeCustom3, onlyIf, low4, bit4, low3, bit3, h1, h2, h3, h4, h5, h6]

theorem rt_vlog2 (td : TileReg) (ta : TileReg) (xr : Reg) : decodeWord (encRowR 0 19 0 ta td xr) = .ok (.vlog2 td ta xr) := by
  obtain ⟨W, hW, h0, h1, h2, h3, h4, h5, h6⟩ := encRowR_has 0 19 0 ta td xr
  rw [hW, custom3_of h0]
  simp [decodeCustom3, onlyIf, low4, bit4, low3, bit3, h1, h2, h3, h4, h5, h6]

theorem rt_vtanh (td : TileReg) (ta : TileReg) (xr : Reg) : decodeWord (encRowR 0 20 0 ta td xr) = .ok (.vtanh td ta xr) := by
  obtain ⟨W, hW, h0, h1, h2, h3, h4, h5, h6⟩ := encRowR_has 0 20 0 ta td xr
  rw [hW, custom3_of h0]
  simp [decodeCustom3, onlyIf, low4, bit4, low3, bit3, h1, h2, h3, h4, h5, h6]

theorem rt_viadd (td : TileReg) (ta : TileReg) (tb : TileReg) (xr : Reg) : decodeWord (encRowR 1 0 tb ta td xr) = .ok (.viadd td ta tb xr) := by
  obtain ⟨W, hW, h0, h1, h2, h3, h4, h5, h6⟩ := encRowR_has 1 0 tb ta td xr
  rw [hW, custom3_of h0]
  simp [decodeCustom3, onlyIf, low4, bit4, low3, bit3, h1, h2, h3, h4, h5, h6]

theorem rt_visub (td : TileReg) (ta : TileReg) (tb : TileReg) (xr : Reg) : decodeWord (encRowR 1 1 tb ta td xr) = .ok (.visub td ta tb xr) := by
  obtain ⟨W, hW, h0, h1, h2, h3, h4, h5, h6⟩ := encRowR_has 1 1 tb ta td xr
  rw [hW, custom3_of h0]
  simp [decodeCustom3, onlyIf, low4, bit4, low3, bit3, h1, h2, h3, h4, h5, h6]

theorem rt_vimul (td : TileReg) (ta : TileReg) (tb : TileReg) (xr : Reg) : decodeWord (encRowR 1 2 tb ta td xr) = .ok (.vimul td ta tb xr) := by
  obtain ⟨W, hW, h0, h1, h2, h3, h4, h5, h6⟩ := encRowR_has 1 2 tb ta td xr
  rw [hW, custom3_of h0]
  simp [decodeCustom3, onlyIf, low4, bit4, low3, bit3, h1, h2, h3, h4, h5, h6]

theorem rt_vand (td : TileReg) (ta : TileReg) (tb : TileReg) (xr : Reg) : decodeWord (encRowR 1 3 tb ta td xr) = .ok (.vand td ta tb xr) := by
  obtain ⟨W, hW, h0, h1, h2, h3, h4, h5, h6⟩ := encRowR_has 1 3 tb ta td xr
  rw [hW, custom3_of h0]
  simp [decodeCustom3, onlyIf, low4, bit4, low3, bit3, h1, h2, h3, h4, h5, h6]

theorem rt_vor (td : TileReg) (ta : TileReg) (tb : TileReg) (xr : Reg) : decodeWord (encRowR 1 4 tb ta td xr) = .ok (.vor td ta tb xr) := by
  obtain ⟨W, hW, h0, h1, h2, h3, h4, h5, h6⟩ := encRowR_has 1 4 tb ta td xr
  rw [hW, custom3_of h0]
  simp [decodeCustom3, onlyIf, low4, bit4, low3, bit3, h1, h2, h3, h4, h5, h6]

theorem rt_vxor (td : TileReg) (ta : TileReg) (tb : TileReg) (xr : Reg) : decodeWord (encRowR 1 5 tb ta td xr) = .ok (.vxor td ta tb xr) := by
  obtain ⟨W, hW, h0, h1, h2, h3, h4, h5, h6⟩ := encRowR_has 1 5 tb ta td xr
  rw [hW, custom3_of h0]
  simp [decodeCustom3, onlyIf, low4, bit4, low3, bit3, h1, h2, h3, h4, h5, h6]

theorem rt_vshl (td : TileReg) (ta : TileReg) (tb : TileReg) (xr : Reg) : decodeWord (encRowR 1 6 tb ta td xr) = .ok (.vshl td ta tb xr) := by
  obtain ⟨W, hW, h0, h1, h2, h3, h4, h5, h6⟩ := encRowR_has 1 6 tb ta td xr
  rw [hW, custom3_of h0]
  simp [decodeCustom3, onlyIf, low4, bit4, low3, bit3, h1, h2, h3, h4, h5, h6]

theorem rt_vsrl (td : TileReg) (ta : TileReg) (tb : TileReg) (xr : Reg) : decodeWord (encRowR 1 7 tb ta td xr) = .ok (.vsrl td ta tb xr) := by
  obtain ⟨W, hW, h0, h1, h2, h3, h4, h5, h6⟩ := encRowR_has 1 7 tb ta td xr
  rw [hW, custom3_of h0]
  simp [decodeCustom3, onlyIf, low4, bit4, low3, bit3, h1, h2, h3, h4, h5, h6]

theorem rt_vsra (td : TileReg) (ta : TileReg) (tb : TileReg) (xr : Reg) : decodeWord (encRowR 1 8 tb ta td xr) = .ok (.vsra td ta tb xr) := by
  obtain ⟨W, hW, h0, h1, h2, h3, h4, h5, h6⟩ := encRowR_has 1 8 tb ta td xr
  rw [hW, custom3_of h0]
  simp [decodeCustom3, onlyIf, low4, bit4, low3, bit3, h1, h2, h3, h4, h5, h6]

theorem rt_vimin (td : TileReg) (ta : TileReg) (tb : TileReg) (xr : Reg) : decodeWord (encRowR 1 9 tb ta td xr) = .ok (.vimin td ta tb xr) := by
  obtain ⟨W, hW, h0, h1, h2, h3, h4, h5, h6⟩ := encRowR_has 1 9 tb ta td xr
  rw [hW, custom3_of h0]
  simp [decodeCustom3, onlyIf, low4, bit4, low3, bit3, h1, h2, h3, h4, h5, h6]

theorem rt_vimax (td : TileReg) (ta : TileReg) (tb : TileReg) (xr : Reg) : decodeWord (encRowR 1 10 tb ta td xr) = .ok (.vimax td ta tb xr) := by
  obtain ⟨W, hW, h0, h1, h2, h3, h4, h5, h6⟩ := encRowR_has 1 10 tb ta td xr
  rw [hW, custom3_of h0]
  simp [decodeCustom3, onlyIf, low4, bit4, low3, bit3, h1, h2, h3, h4, h5, h6]

theorem rt_vadds (tds : TileReg) (rs : Reg) (xr : Reg) : decodeWord (encRowS 2 0 rs tds 0 xr) = .ok (.vadds tds rs xr) := by
  obtain ⟨W, hW, h0, h1, h2, h3, h4, h5, h6⟩ := encRowS_has 2 0 rs tds 0 xr
  rw [hW, custom3_of h0]
  simp [decodeCustom3, onlyIf, low4, bit4, low3, bit3, h1, h2, h3, h4, h5, h6]

theorem rt_vsubs (tds : TileReg) (rs : Reg) (xr : Reg) : decodeWord (encRowS 2 0 rs tds 1 xr) = .ok (.vsubs tds rs xr) := by
  obtain ⟨W, hW, h0, h1, h2, h3, h4, h5, h6⟩ := encRowS_has 2 0 rs tds 1 xr
  rw [hW, custom3_of h0]
  simp [decodeCustom3, onlyIf, low4, bit4, low3, bit3, h1, h2, h3, h4, h5, h6]

theorem rt_vmuls (tds : TileReg) (rs : Reg) (xr : Reg) : decodeWord (encRowS 2 0 rs tds 2 xr) = .ok (.vmuls tds rs xr) := by
  obtain ⟨W, hW, h0, h1, h2, h3, h4, h5, h6⟩ := encRowS_has 2 0 rs tds 2 xr
  rw [hW, custom3_of h0]
  simp [decodeCustom3, onlyIf, low4, bit4, low3, bit3, h1, h2, h3, h4, h5, h6]

theorem rt_vmaxs (tds : TileReg) (rs : Reg) (xr : Reg) : decodeWord (encRowS 2 0 rs tds 3 xr) = .ok (.vmaxs tds rs xr) := by
  obtain ⟨W, hW, h0, h1, h2, h3, h4, h5, h6⟩ := encRowS_has 2 0 rs tds 3 xr
  rw [hW, custom3_of h0]
  simp [decodeCustom3, onlyIf, low4, bit4, low3, bit3, h1, h2, h3, h4, h5, h6]

theorem rt_vmins (tds : TileReg) (rs : Reg) (xr : Reg) : decodeWord (encRowS 2 0 rs tds 4 xr) = .ok (.vmins tds rs xr) := by
  obtain ⟨W, hW, h0, h1, h2, h3, h4, h5, h6⟩ := encRowS_has 2 0 rs tds 4 xr
  rw [hW, custom3_of h0]
  simp [decodeCustom3, onlyIf, low4, bit4, low3, bit3, h1, h2, h3, h4, h5, h6]

theorem rt_vbcast (tds : TileReg) (rs : Reg) (xr : Reg) : decodeWord (encRowS 2 1 rs tds 0 xr) = .ok (.vbcast tds rs xr) := by
  obtain ⟨W, hW, h0, h1, h2, h3, h4, h5, h6⟩ := encRowS_has 2 1 rs tds 0 xr
  rw [hW, custom3_of h0]
  simp [decodeCustom3, onlyIf, low4, bit4, low3, bit3, h1, h2, h3, h4, h5, h6]

theorem rt_vext (rs : Reg) (tds : TileReg) (xr : Reg) : decodeWord (encRowS 2 2 rs tds 0 xr) = .ok (.vext rs tds xr) := by
  obtain ⟨W, hW, h0, h1, h2, h3, h4, h5, h6⟩ := encRowS_has 2 2 rs tds 0 xr
  rw [hW, custom3_of h0]
  simp [decodeCustom3, onlyIf, low4, bit4, low3, bit3, h1, h2, h3, h4, h5, h6]

theorem rt_vins (tds : TileReg) (rs : Reg) (xr : Reg) : decodeWord (encRowS 2 3 rs tds 0 xr) = .ok (.vins tds rs xr) := by
  obtain ⟨W, hW, h0, h1, h2, h3, h4, h5, h6⟩ := encRowS_has 2 3 rs tds 0 xr
  rw [hW, custom3_of h0]
  simp [decodeCustom3, onlyIf, low4, bit4, low3, bit3, h1, h2, h3, h4, h5, h6]

theorem rt_viota (tds : TileReg) (rs : Reg) (xr : Reg) : decodeWord (encRowS 2 4 rs tds 0 xr) = .ok (.viota tds rs xr) := by
  obtain ⟨W, hW, h0, h1, h2, h3, h4, h5, h6⟩ := encRowS_has 2 4 rs tds 0 xr
  rw [hW, custom3_of h0]
  simp [decodeCustom3, onlyIf, low4, bit4, low3, bit3, h1, h2, h3, h4, h5, h6]

theorem rt_vrsum (rs : Reg) (tds : TileReg) (xr : Reg) : decodeWord (encRowS 2 5 rs tds 0 xr) = .ok (.vrsum rs tds xr) := by
  obtain ⟨W, hW, h0, h1, h2, h3, h4, h5, h6⟩ := encRowS_has 2 5 rs tds 0 xr
  rw [hW, custom3_of h0]
  simp [decodeCustom3, onlyIf, low4, bit4, low3, bit3, h1, h2, h3, h4, h5, h6]

theorem rt_vrmax (rs : Reg) (tds : TileReg) (xr : Reg) : decodeWord (encRowS 2 6 rs tds 0 xr) = .ok (.vrmax rs tds xr) := by
  obtain ⟨W, hW, h0, h1, h2, h3, h4, h5, h6⟩ := encRowS_has 2 6 rs tds 0 xr
  rw [hW, custom3_of h0]
  simp [decodeCustom3, onlyIf, low4, bit4, low3, bit3, h1, h2, h3, h4, h5, h6]

theorem rt_vrmin (rs : Reg) (tds : TileReg) (xr : Reg) : decodeWord (encRowS 2 7 rs tds 0 xr) = .ok (.vrmin rs tds xr) := by
  obtain ⟨W, hW, h0, h1, h2, h3, h4, h5, h6⟩ := encRowS_has 2 7 rs tds 0 xr
  rw [hW, custom3_of h0]
  simp [decodeCustom3, onlyIf, low4, bit4, low3, bit3, h1, h2, h3, h4, h5, h6]

theorem rt_vcvt (td : TileReg) (tds : TileReg) (p : BitVec 3) (xr : Reg) : decodeWord (encRowS 2 8 ((0 : BitVec 1) ++ td) tds p xr) = .ok (.vcvt td tds p xr) := by
  obtain ⟨W, hW, h0, h1, h2, h3, h4, h5, h6⟩ := encRowS_has 2 8 ((0 : BitVec 1) ++ td) tds p xr
  rw [hW, custom3_of h0]
  have d1 : fld W 22 4 = (fld W 22 5).extractLsb' 0 4 := (fld_fld W 22 5 0 4 (by decide)).symm
  have d2 : W[26] = (fld W 22 5)[4] := (BitVec.getLsbD_eq_getElem (by decide)).symm.trans ((fld_bit W 22 5 4 (by decide)).symm.trans (BitVec.getLsbD_eq_getElem (by decide)))
  simp [decodeCustom3, onlyIf, low4, bit4, low3, bit3, h1, h2, h3, h4, h5, h6, d1, d2]

theorem rt_vqmx (rs : Reg) (tds : TileReg) (scope : BitVec 3) (xr : Reg) : decodeWord (encRowS 2 9 rs tds scope xr) = .ok (.vqmx rs tds scope xr) := by
  obtain ⟨W, hW, h0, h1, h2, h3, h4, h5, h6⟩ := encRowS_has 2 9 rs tds scope xr
  rw [hW, custom3_of h0]
  simp [decodeCustom3, onlyIf, low4, bit4, low3, bit3, h1, h2, h3, h4, h5, h6]

theorem rt_vld (td : TileReg) (rs1 : Reg) (off : BitVec 3) (xr : Reg) : decodeWord (encRowS 3 0 rs1 td off xr) = .ok (.vld td rs1 off xr) := by
  obtain ⟨W, hW, h0, h1, h2, h3, h4, h5, h6⟩ := encRowS_has 3 0 rs1 td off xr
  rw [hW, custom3_of h0]
  simp [decodeCustom3, onlyIf, low4, bit4, low3, bit3, h1, h2, h3, h4, h5, h6]

theorem rt_vst (td : TileReg) (rs1 : Reg) (off : BitVec 3) (xr : Reg) : decodeWord (encRowS 3 1 rs1 td off xr) = .ok (.vst td rs1 off xr) := by
  obtain ⟨W, hW, h0, h1, h2, h3, h4, h5, h6⟩ := encRowS_has 3 1 rs1 td off xr
  rw [hW, custom3_of h0]
  simp [decodeCustom3, onlyIf, low4, bit4, low3, bit3, h1, h2, h3, h4, h5, h6]

theorem rt_lift (rd : Reg) (rs1 : Reg) (rs2 : Reg) : decodeWord (encR opCustom3 4 0x00 rs2 rs1 rd) = .ok (.lift rd rs1 rs2) := by
  obtain ⟨W, hW, h0, h1, h2, h3, h4, h5⟩ := encR_has opCustom3 4 0x00 rs2 rs1 rd
  rw [hW, custom3_of h0]
  have d1 : fld W 15 4 = (fld W 15 5).extractLsb' 0 4 := (fld_fld W 15 5 0 4 (by decide)).symm
  have d2 : W[19] = (fld W 15 5)[4] := (BitVec.getLsbD_eq_getElem (by decide)).symm.trans ((fld_bit W 15 5 4 (by decide)).symm.trans (BitVec.getLsbD_eq_getElem (by decide)))
  have d4 : fld W 7 4 = (fld W 7 5).extractLsb' 0 4 := (fld_fld W 7 5 0 4 (by decide)).symm
  have d5 : W[11] = (fld W 7 5)[4] := (BitVec.getLsbD_eq_getElem (by decide)).symm.trans ((fld_bit W 7 5 4 (by decide)).symm.trans (BitVec.getLsbD_eq_getElem (by decide)))
  have d6 : fld W 27 5 = (fld W 25 7).extractLsb' 2 5 := (fld_fld W 25 7 2 5 (by decide)).symm
  simp [decodeCustom3, onlyIf, low4, bit4, low3, bit3, h1, h2, h3, h4, h5, d1, d2, d4, d5, d6]

theorem rt_lret (rs1 : Reg) : decodeWord (encR opCustom3 4 0x01 0 rs1 0) = .ok (.lret rs1) := by
  obtain ⟨W, hW, h0, h1, h2, h3, h4, h5⟩ := encR_has opCustom3 4 0x01 0 rs1 0
  rw [hW, custom3_of h0]
  have d1 : fld W 15 4 = (fld W 15 5).extractLsb' 0 4 := (fld_fld W 15 5 0 4 (by decide)).symm
  have d2 : W[19] = (fld W 15 5)[4] := (BitVec.getLsbD_eq_getElem (by decide)).symm.trans ((fld_bit W 15 5 4 (by decide)).symm.trans (BitVec.getLsbD_eq_getElem (by decide)))
  have d4 : fld W 7 4 = (fld W 7 5).extractLsb' 0 4 := (fld_fld W 7 5 0 4 (by decide)).symm
  have d5 : W[11] = (fld W 7 5)[4] := (BitVec.getLsbD_eq_getElem (by decide)).symm.trans ((fld_bit W 7 5 4 (by decide)).symm.trans (BitVec.getLsbD_eq_getElem (by decide)))
  have d6 : fld W 27 5 = (fld W 25 7).extractLsb' 2 5 := (fld_fld W 25 7 2 5 (by decide)).symm
  simp [decodeCustom3, onlyIf, low4, bit4, low3, bit3, h1, h2, h3, h4, h5, d1, d2, d4, d5, d6]

theorem rt_lred (md : TileReg) (ms : TileReg) (rs2 : Reg) : decodeWord (encR opCustom3 4 0x04 rs2 ((0 : BitVec 1) ++ ms) ((0 : BitVec 1) ++ md)) = .ok (.lred md ms rs2) := by
  obtain ⟨W, hW, h0, h1, h2, h3, h4, h5⟩ := encR_has opCustom3 4 0x04 rs2 ((0 : BitVec 1) ++ ms) ((0 : BitVec 1) ++ md)
  rw [hW, custom3_of h0]
  have d1 : fld W 15 4 = (fld W 15 5).extractLsb' 0 4 := (fld_fld W 15 5 0 4 (by decide)).symm
  have d2 : W[19] = (fld W 15 5)[4] := (BitVec.getLsbD_eq_getElem (by decide)).symm.trans ((fld_bit W 15 5 4 (by decide)).symm.trans (BitVec.getLsbD_eq_getElem (by decide)))
  have d4 : fld W 7 4 = (fld W 7 5).extractLsb' 0 4 := (fld_fld W 7 5 0 4 (by decide)).symm
  have d5 : W[11] = (fld W 7 5)[4] := (BitVec.getLsbD_eq_getElem (by decide)).symm.trans ((fld_bit W 7 5 4 (by decide)).symm.trans (BitVec.getLsbD_eq_getElem (by decide)))
  have d6 : fld W 27 5 = (fld W 25 7).extractLsb' 2 5 := (fld_fld W 25 7 2 5 (by decide)).symm
  simp [decodeCustom3, onlyIf, low4, bit4, low3, bit3, h1, h2, h3, h4, h5, d1, d2, d4, d5, d6]

theorem rt_laxis (rd : Reg) (rs1 : Reg) : decodeWord (encR opCustom3 4 0x05 0 rs1 rd) = .ok (.laxis rd rs1) := by
  obtain ⟨W, hW, h0, h1, h2, h3, h4, h5⟩ := encR_has opCustom3 4 0x05 0 rs1 rd
  rw [hW, custom3_of h0]
  have d1 : fld W 15 4 = (fld W 15 5).extractLsb' 0 4 := (fld_fld W 15 5 0 4 (by decide)).symm
  have d2 : W[19] = (fld W 15 5)[4] := (BitVec.getLsbD_eq_getElem (by decide)).symm.trans ((fld_bit W 15 5 4 (by decide)).symm.trans (BitVec.getLsbD_eq_getElem (by decide)))
  have d4 : fld W 7 4 = (fld W 7 5).extractLsb' 0 4 := (fld_fld W 7 5 0 4 (by decide)).symm
  have d5 : W[11] = (fld W 7 5)[4] := (BitVec.getLsbD_eq_getElem (by decide)).symm.trans ((fld_bit W 7 5 4 (by decide)).symm.trans (BitVec.getLsbD_eq_getElem (by decide)))
  have d6 : fld W 27 5 = (fld W 25 7).extractLsb' 2 5 := (fld_fld W 25 7 2 5 (by decide)).symm
  simp [decodeCustom3, onlyIf, low4, bit4, low3, bit3, h1, h2, h3, h4, h5, d1, d2, d4, d5, d6]
theorem joinExt {n : Nat} (x : BitVec n) (s a b : Nat) : x.extractLsb' (s + b) a ++ x.extractLsb' s b = x.extractLsb' s (a + b) := by
  apply BitVec.eq_of_getLsbD_eq
  intro i hi
  rw [BitVec.getLsbD_append]
  split
  · next h => simp [h, hi]
  · next h =>
    have e : s + b + (i - b) = s + i := by omega
    have k : i - b < a := by omega
    simp [hi, e, k]

theorem branch_pieces (imm : BitVec 12) : imm.extractLsb' 11 1 ++ imm.extractLsb' 10 1 ++ imm.extractLsb' 4 6 ++ imm.extractLsb' 0 4 = imm := by
  have a : imm.extractLsb' 11 1 ++ imm.extractLsb' 10 1 = imm.extractLsb' 10 2 := joinExt imm 10 1 1
  have b : imm.extractLsb' 10 2 ++ imm.extractLsb' 4 6 = imm.extractLsb' 4 8 := joinExt imm 4 2 6
  have c : imm.extractLsb' 4 8 ++ imm.extractLsb' 0 4 = imm.extractLsb' 0 12 := joinExt imm 0 8 4
  rw [a, b, c]
  exact fldAll imm

theorem jump_pieces (imm : BitVec 20) : imm.extractLsb' 19 1 ++ imm.extractLsb' 11 8 ++ imm.extractLsb' 10 1 ++ imm.extractLsb' 0 10 = imm := by
  have a : imm.extractLsb' 19 1 ++ imm.extractLsb' 11 8 = imm.extractLsb' 11 9 := joinExt imm 11 1 8
  have b : imm.extractLsb' 11 9 ++ imm.extractLsb' 10 1 = imm.extractLsb' 10 10 := joinExt imm 10 9 1
  have c : imm.extractLsb' 10 10 ++ imm.extractLsb' 0 10 = imm.extractLsb' 0 20 := joinExt imm 0 10 10
  rw [a, b, c]
  exact fldAll imm

theorem rt_cfence (mask : BitVec 8) (kind : FenceKind) (scope : BitVec 3) :
    decodeWord (encCf mask scope kind.bits) = .ok (.cfence mask kind scope) := by
  obtain ⟨W, hW, h0, h1, h2, h3, h4, h5, h6⟩ := encCf_has mask scope kind.bits
  rw [hW, custom0_of h0]
  cases kind <;> simp [decodeCustom0, h1, h2, h3, h4, h5, h6, FenceKind.bits, fenceKindOf]

theorem rt_samo (op : CaOp) (scope : BitVec 3) (rd rs1 rs2 : Reg) :
    decodeWord (encCa op.bits scope rs2 rs1 rd) = .ok (.samo op scope rd rs1 rs2) := by
  obtain ⟨W, hW, h0, h1, h2, h3, h4, h5, h6⟩ := encCa_has op.bits scope rs2 rs1 rd
  rw [hW, custom0_of h0]
  cases op <;> simp [decodeCustom0, h1, h2, h3, h4, h5, h6, CaOp.bits, caOpOf]

theorem rt_scas (scope : BitVec 3) (rd rs1 rs2 : Reg) :
    decodeWord (encCa 9 scope rs2 rs1 rd) = .ok (.scas scope rd rs1 rs2) := by
  obtain ⟨W, hW, h0, h1, h2, h3, h4, h5, h6⟩ := encCa_has 9 scope rs2 rs1 rd
  rw [hW, custom0_of h0]
  simp [decodeCustom0, h1, h2, h3, h4, h5, h6, caOpOf]

theorem mtOperand_rt (o : MtOperand) (h : o.wf = true) : mtOperandOf o.form o.bits = some o := by
  cases o with
  | tile t => revert t; decide
  | pad r => simp [MtOperand.wf] at h; simp [MtOperand.form, MtOperand.bits, mtOperandOf, h]

theorem rt_mt (f3 : BitVec 3) (m : MtOps) (h : m.wf = true) (mk : MtOps → Instr) (k : ∀ W : W32, fld W 12 3 = f3 → decodeCustom2 W = decodeMt W mk) :
    decodeWord (encMt f3 m) = .ok (mk m) := by
  obtain ⟨W, hW, h0, h1, h2, h3, h4, h5, h6, h7, h8, h9, h10⟩ := encMt_has f3 m
  rw [hW, custom2_of h0, k W h3]
  simp only [MtOps.wf, Bool.and_eq_true] at h
  have a : W.getLsbD 26 = m.fzo := by
    have := fld_bit W 26 1 0 (by decide)
    rw [h7] at this
    rw [← this]; cases m.fzo <;> rfl
  have b : W.getLsbD 27 = m.fzi := by
    have := fld_bit W 27 1 0 (by decide)
    rw [h8] at this
    rw [← this]; cases m.fzi <;> rfl
  unfold decodeMt
  rw [h1, h4, h6, h5, mtOperand_rt _ h.1, mtOperand_rt _ h.2, h10, h9, h2, a, b]

theorem rt_vpfx (p : Pfx) (h : rmOk p.rm = true) : decodeWord (encVp p) = .ok (.vpfx p) := by
  obtain ⟨W, hW, h0, h1, h2, h3, h4, h5, h6, h7, h8, h9⟩ := encVp_has p
  rw [hW, custom3_of h0]
  have a : W.getLsbD 23 = p.fzo := by
    have := fld_bit W 23 1 0 (by decide)
    rw [h5] at this
    rw [← this]; cases p.fzo <;> rfl
  have b : W.getLsbD 24 = p.fzi := by
    have := fld_bit W 24 1 0 (by decide)
    rw [h6] at this
    rw [← this]; cases p.fzi <;> rfl
  have c : W.getLsbD 28 = p.zero := by
    have := fld_bit W 28 1 0 (by decide)
    rw [h8] at this
    rw [← this]; cases p.zero <;> rfl
  unfold decodeCustom3
  simp only []
  rw [h2]
  show onlyIf (rmOk (fld W 25 3)) .codedField _ = _
  rw [h7, onlyIf_true h, h9, c, b, a, h4, h3, h1]

theorem rt_ltag (r : TagReg) (rs2 : Reg) (h : r.wf = true) : decodeWord (encR opCustom3 4 0x03 rs2 r.bits 0) = .ok (.ltag r rs2) := by
  obtain ⟨W, hW, h0, h1, h2, h3, h4, h5⟩ := encR_has opCustom3 4 0x03 rs2 r.bits 0
  rw [hW, custom3_of h0]
  have k : tagRegOf r.bits = some r := by
    cases r with
    | tile t => clear h hW h3; revert t; decide
    | mask k => clear hW h3; revert k; decide
  simp [decodeCustom3, h1, h2, h3, h4, h5, k]

theorem rt_lbr (k : KReg) (imm : BitVec 12) : decodeWord (encLb k imm) = .ok (.lbr k imm) := by
  obtain ⟨W, hW, h0, h1, h2, h3, h4, h5, h6, h7, h8⟩ := encLb_has k imm
  rw [hW, custom3_of h0]
  have e : fld W 31 1 ++ fld W 7 1 ++ fld W 25 6 ++ fld W 8 4 = imm := by
    rw [h1, h2, h7, h8]; exact branch_pieces imm
  unfold decodeCustom3
  simp only []
  rw [h3]
  show onlyIf _ .fixedField (.lbr (fld W 20 3) (fld W 31 1 ++ fld W 7 1 ++ fld W 25 6 ++ fld W 8 4)) = _
  rw [e, h5, onlyIf_true]
  rw [h4, h6]; rfl

theorem low2 {W : W32} {o : BitVec 7} (h : fld W 0 7 = o) (n : Nat) (k : (o.extractLsb' 2 5).toNat = n) (a : o.extractLsb' 0 2 = 3)
    (b : o.extractLsb' 2 3 ≠ 7) : fld W 0 2 = 3 ∧ ¬ (fld W 2 3 = 7#3) ∧ (fld W 2 5).toNat = n := by
  obtain ⟨x, y, z⟩ := decodeWord_of h
  rw [x, y, z]; exact ⟨a, b, k⟩


theorem rt_load (op : LoadOp) (rd rs1 : Reg) (imm : BitVec 12) : decodeWord (encLoad op rd rs1 imm) = .ok (.baseLoad op rd rs1 imm) := by
  have g : ∀ f3 : BitVec 3, ∀ op, loadOpOf f3.toNat = some op → decodeWord (encI opLoad f3 imm rs1 rd) = .ok (.baseLoad op rd rs1 imm) := by
    intro f3 op e
    obtain ⟨W, hW, h0, h1, h2, h3, h4⟩ := encI_has opLoad f3 imm rs1 rd
    obtain ⟨a, b, c⟩ := low2 h0 0 rfl rfl (by decide)
    rw [hW]; simp [decodeWord, a, b, c, h1, h2, h3, h4, e]
  cases op
  · exact g 0 _ rfl
  · exact g 1 _ rfl
  · exact g 2 _ rfl
  · exact g 3 _ rfl
  · exact g 4 _ rfl
  · exact g 5 _ rfl
  · exact g 6 _ rfl
  · obtain ⟨W, hW, h0, h1, h2, h3, h4⟩ := encI_has opLoadFp 2 imm rs1 rd
    obtain ⟨a, b, c⟩ := low2 h0 1 rfl rfl (by decide)
    simp only [encLoad]
    rw [hW]; simp [decodeWord, a, b, c, h1, h2, h3, h4]
  · obtain ⟨W, hW, h0, h1, h2, h3, h4⟩ := encI_has opLoadFp 3 imm rs1 rd
    obtain ⟨a, b, c⟩ := low2 h0 1 rfl rfl (by decide)
    simp only [encLoad]
    rw [hW]; simp [decodeWord, a, b, c, h1, h2, h3, h4, onlyIf]

theorem imm57 (imm : BitVec 12) : imm.extractLsb' 5 7 ++ imm.extractLsb' 0 5 = imm :=
  (joinExt imm 0 7 5).trans (fldAll imm)

theorem rt_store (op : StoreOp) (rs1 rs2 : Reg) (imm : BitVec 12) : decodeWord (encStore op rs1 rs2 imm) = .ok (.baseStore op rs1 rs2 imm) := by
  have g : ∀ f3 : BitVec 3, ∀ op, storeOpOf f3.toNat = some op → decodeWord (encS opStore f3 imm rs1 rs2) = .ok (.baseStore op rs1 rs2 imm) := by
    intro f3 op e
    obtain ⟨W, hW, h0, h1, h2, h3, h4, h5⟩ := encS_has opStore f3 imm rs1 rs2
    obtain ⟨a, b, c⟩ := low2 h0 8 rfl rfl (by decide)
    rw [hW]; simp [decodeWord, a, b, c, h1, h2, h3, h4, h5, e, imm57]
  cases op
  · exact g 0 _ rfl
  · exact g 1 _ rfl
  · exact g 2 _ rfl
  · exact g 3 _ rfl
  · obtain ⟨W, hW, h0, h1, h2, h3, h4, h5⟩ := encS_has opStoreFp 2 imm rs1 rs2
    obtain ⟨a, b, c⟩ := low2 h0 9 rfl rfl (by decide)
    simp only [encStore]
    rw [hW]; simp [decodeWord, a, b, c, h1, h2, h3, h4, h5, imm57]
  · obtain ⟨W, hW, h0, h1, h2, h3, h4, h5⟩ := encS_has opStoreFp 3 imm rs1 rs2
    obtain ⟨a, b, c⟩ := low2 h0 9 rfl rfl (by decide)
    simp only [encStore]
    rw [hW]; simp [decodeWord, a, b, c, h1, h2, h3, h4, h5, onlyIf, imm57]

theorem amo_bits (f5 : BitVec 5) (aq rl : Bool) : (f5 ++ BitVec.ofBool aq ++ BitVec.ofBool rl : BitVec 7).extractLsb' 2 5 = f5 ∧
    (f5 ++ BitVec.ofBool aq ++ BitVec.ofBool rl : BitVec 7).getLsbD 1 = aq ∧ (f5 ++ BitVec.ofBool aq ++ BitVec.ofBool rl : BitVec 7).getLsbD 0 = rl := by
  revert f5 aq rl; decide

theorem rt_amoWord (f5 : BitVec 5) (d aq rl : Bool) (rd rs1 rs2 : Reg) : ∃ W, encAmo f5 d aq rl rd rs1 rs2 = W ∧ decodeWord W = decodeAmo W ∧
    fld W 7 5 = rd ∧ fld W 15 5 = rs1 ∧ fld W 20 5 = rs2 ∧ W.getLsbD 26 = aq ∧ W.getLsbD 25 = rl ∧ (fld W 12 3 = 2 ∨ fld W 12 3 = 3) ∧
    W.getLsbD 12 = d ∧ fld W 27 5 = f5 := by
  obtain ⟨W, hW, h0, h1, h2, h3, h4, h5⟩ := encR_has opAmo (if d then 3 else 2) (f5 ++ BitVec.ofBool aq ++ BitVec.ofBool rl) rs2 rs1 rd
  obtain ⟨a, b, c⟩ := low2 h0 11 rfl rfl (by decide)
  obtain ⟨e1, e2, e3⟩ := amo_bits f5 aq rl
  refine ⟨W, hW, ?_, h1, h3, h4, ?_, ?_, ?_, ?_, ?_⟩
  · simp [decodeWord, a, b, c]
  · rw [← fld_bit W 25 7 1 (by decide), h5, e2]
  · rw [← fld_bit W 25 7 0 (by decide), h5, e3]
  · rw [h2]; cases d <;> simp
  · rw [← fld_bit W 12 3 0 (by decide), h2]; cases d <;> rfl
  · rw [← fld_fld W 25 7 2 5 (by decide), h5, e1]

theorem rt_amo (op : AmoOp) (d aq rl : Bool) (rd rs1 rs2 : Reg) :
    decodeWord (encAmo op.bits d aq rl rd rs1 rs2) = .ok (.amo op d aq rl rd rs1 rs2) := by
  obtain ⟨W, hW, hd, h1, h2, h3, h4, h5, h6, h7, h8⟩ := rt_amoWord op.bits d aq rl rd rs1 rs2
  rw [hW, hd]
  unfold decodeAmo
  simp only []
  rw [if_pos h6, h8, h7, h5, h4, h3, h2, h1]
  cases op <;> rfl

theorem rt_sc (d aq rl : Bool) (rd rs1 rs2 : Reg) :
    decodeWord (encAmo 0b00011 d aq rl rd rs1 rs2) = .ok (.sc d aq rl rd rs1 rs2) := by
  obtain ⟨W, hW, hd, h1, h2, h3, h4, h5, h6, h7, h8⟩ := rt_amoWord 3 d aq rl rd rs1 rs2
  rw [hW, hd]
  unfold decodeAmo
  simp only []
  rw [if_pos h6, h8, h7, h5, h4, h3, h2, h1]
  rfl

theorem rt_lr (d aq rl : Bool) (rd rs1 : Reg) :
    decodeWord (encAmo 0b00010 d aq rl rd rs1 0) = .ok (.lr d aq rl rd rs1) := by
  obtain ⟨W, hW, hd, h1, h2, h3, h4, h5, h6, h7, h8⟩ := rt_amoWord 2 d aq rl rd rs1 0
  rw [hW, hd]
  unfold decodeAmo
  simp only []
  rw [if_pos h6, h8, h7, h5, h4, h3, h2, h1]
  rfl

theorem rt_fence (fm p q : BitVec 4) (rs1 rd : Reg) :
    decodeWord (fm ++ p ++ q ++ rs1 ++ (0 : BitVec 3) ++ rd ++ opMiscMem) = .ok (.fence fm p q rs1 rd) := by
  obtain ⟨W, hW, h0, h1, h2, h3, h4, h5, h6⟩ := encFence_has fm p q rs1 rd
  obtain ⟨a, b, c⟩ := low2 h0 3 rfl rfl (by decide)
  rw [hW]; simp [decodeWord, a, b, c, h1, h2, h3, h4, h5, h6]

theorem rt_fenceI (imm : BitVec 12) (rs1 rd : Reg) : decodeWord (encI opMiscMem 1 imm rs1 rd) = .ok (.fenceI imm rs1 rd) := by
  obtain ⟨W, hW, h0, h1, h2, h3, h4⟩ := encI_has opMiscMem 1 imm rs1 rd
  obtain ⟨a, b, c⟩ := low2 h0 3 rfl rfl (by decide)
  rw [hW]; simp [decodeWord, a, b, c, h1, h2, h3, h4, onlyIf]

theorem system_of {W : W32} (h : fld W 0 7 = opSystem) : decodeWord W = decodeSystem W := by
  obtain ⟨a, b, c⟩ := low2 h 28 rfl rfl (by decide)
  simp [decodeWord, a, b, c]

theorem rt_system : decodeWord (encI opSystem 0 0x000 0 0) = .ok .ecall ∧ decodeWord (encI opSystem 0 0x001 0 0) = .ok .ebreak ∧
    decodeWord (encI opSystem 0 0x105 0 0) = .ok .wfi ∧ decodeWord (encI opSystem 0 0x102 0 0) = .ok .sret ∧
    decodeWord (encI opSystem 0 0x302 0 0) = .ok .mret := by decide

theorem rt_sfence (rs1 rs2 : Reg) : decodeWord (encR opSystem 0 0b0001001 rs2 rs1 0) = .ok (.sfenceVma rs1 rs2) := by
  obtain ⟨W, hW, h0, h1, h2, h3, h4, h5⟩ := encR_has opSystem 0 0b0001001 rs2 rs1 0
  rw [hW, system_of h0]; simp [decodeSystem, csrOpOf, h1, h2, h3, h4, h5]

theorem rt_csr (csr : BitVec 12) (f : CsrForm) : decodeWord (encCsr csr f) = .ok (csrInstr csr f) := by
  obtain ⟨W, hW, h0, h1, h2, h3, h4⟩ := encCsr_has csr f
  have e : csrOpOf f.f3.toNat = some (f.op, f.imm) := by
    obtain ⟨o, i, s, d⟩ := f
    cases o <;> cases i <;> rfl
  rw [hW, system_of h0]; simp [decodeSystem, h1, h2, h3, h4, e]

theorem rt_csrAccess (csr : BitVec 12) (f : CsrForm) (h : (!(ownWriteRow csr && f.writes)) = true) :
    decodeWord (encCsr csr f) = .ok (.csrAccess csr f) := by
  rw [rt_csr, csrInstr]
  by_cases w : f.writes = true
  · simp [w, ownWriteRow] at h
    simp [w, h]
  · simp [w]

theorem rt_csrOwn (f : CsrForm) (h : f.writes = true) :
    decodeWord (encCsr 0x800 f) = .ok (.stcolWrite f) ∧ decodeWord (encCsr 0x801 f) = .ok (.vrmWrite f) ∧
    (∀ n : BitVec 2, decodeWord (encCsr ((0x201 : BitVec 10) ++ n) f) = .ok (.mfmtWrite n f)) ∧
    decodeWord (encCsr 0x808 f) = .ok (.mgangWrite f) ∧ decodeWord (encCsr 0x180 f) = .ok (.satpWrite f) := by
  refine ⟨?_, ?_, ?_, ?_, ?_⟩
  · rw [rt_csr, csrInstr, if_pos h]; rfl
  · rw [rt_csr, csrInstr, if_pos h]; rfl
  · intro n
    rw [rt_csr, csrInstr, if_pos h]
    have : n = 0 ∨ n = 1 ∨ n = 2 ∨ n = 3 := by revert n; decide
    rcases this with rfl | rfl | rfl | rfl <;> rfl
  · rw [rt_csr, csrInstr, if_pos h]; rfl
  · rw [rt_csr, csrInstr, if_pos h]; rfl

theorem fp_f7 (f5 : BitVec 5) (d : Bool) : (f5 ++ (0 : BitVec 1) ++ BitVec.ofBool d : BitVec 7).extractLsb' 2 5 = f5 ∧
    (f5 ++ (0 : BitVec 1) ++ BitVec.ofBool d : BitVec 7).getLsbD 1 = false ∧
    (f5 ++ (0 : BitVec 1) ++ BitVec.ofBool d : BitVec 7).getLsbD 0 = d := by
  revert f5 d; decide

theorem rt_fp (f3 : BitVec 3) (f5 : BitVec 5) (d : Bool) (rs2 rs1 rd : Reg) :
    ∃ W, encR opFp f3 (f5 ++ (0 : BitVec 1) ++ BitVec.ofBool d) rs2 rs1 rd = W ∧ decodeWord W = decodeOpFp W ∧ fld W 7 5 = rd ∧
    fld W 15 5 = rs1 ∧ fld W 20 5 = rs2 ∧ fld W 12 3 = f3 ∧ W.getLsbD 25 = d ∧ W.getLsbD 26 = false ∧ fld W 27 5 = f5 := by
  obtain ⟨W, hW, h0, h1, h2, h3, h4, h5⟩ := encR_has opFp f3 (f5 ++ (0 : BitVec 1) ++ BitVec.ofBool d) rs2 rs1 rd
  obtain ⟨a, b, c⟩ := low2 h0 20 rfl rfl (by decide)
  obtain ⟨e1, e2, e3⟩ := fp_f7 f5 d
  refine ⟨W, hW, ?_, h1, h3, h4, h2, ?_, ?_, ?_⟩
  · simp [decodeWord, a, b, c]
  · rw [← fld_bit W 25 7 0 (by decide), h5, e3]
  · rw [← fld_bit W 25 7 1 (by decide), h5, e2]
  · rw [← fld_fld W 25 7 2 5 (by decide), h5, e1]

theorem rt_opFp (f3 : BitVec 3) (f5 : BitVec 5) (d : Bool) (rs2 rs1 rd : Reg) (i : Instr)
    (k : ∀ W : W32, fld W 7 5 = rd → fld W 15 5 = rs1 → fld W 20 5 = rs2 → fld W 12 3 = f3 → W.getLsbD 25 = d → W.getLsbD 26 = false →
      fld W 27 5 = f5 → decodeOpFp W = .ok i) :
    decodeWord (encR opFp f3 (f5 ++ (0 : BitVec 1) ++ BitVec.ofBool d) rs2 rs1 rd) = .ok i := by
  obtain ⟨W, hW, hd, h1, h2, h3, h4, h5, h6, h7⟩ := rt_fp f3 f5 d rs2 rs1 rd
  rw [hW, hd]; exact k W h1 h2 h3 h4 h5 h6 h7

theorem notB {b : Bool} (h : b = false) : ¬ (b = true) := by rw [h]; simp

theorem rt_fma (op : FmaOp) (d : Bool) (rd rs1 rs2 rs3 : Reg) (rm : BitVec 3) (h : rmOk rm = true) :
    decodeWord (IntOp.encode (.fma op d rd rs1 rs2 rs3 rm)) = .ok (.integerOp (.fma op d rd rs1 rs2 rs3 rm)) := by
  have g : ∀ (o : BitVec 7) (n : Nat) (op : FmaOp), o.extractLsb' 0 2 = 3 → o.extractLsb' 2 3 ≠ 7 → (o.extractLsb' 2 5).toNat = n →
      (∀ W : W32, fld W 0 2 = 3 → ¬ (fld W 2 3 = 7#3) → (fld W 2 5).toNat = n → decodeWord W = decodeFma W op) →
      decodeWord (encR o rm (rs3 ++ (0 : BitVec 1) ++ BitVec.ofBool d) rs2 rs1 rd) = .ok (.integerOp (.fma op d rd rs1 rs2 rs3 rm)) := by
    intro o n op x y z k
    obtain ⟨W, hW, h0, h1, h2, h3, h4, h5⟩ := encR_has o rm (rs3 ++ (0 : BitVec 1) ++ BitVec.ofBool d) rs2 rs1 rd
    obtain ⟨a, b, c⟩ := low2 h0 n z x y
    obtain ⟨e1, e2, e3⟩ := fp_f7 rs3 d
    rw [hW, k W a b c, decodeFma]
    rw [if_neg (notB (by rw [← fld_bit W 25 7 1 (by decide), h5, e2])), h2, onlyIf_true h, h1, h3, h4,
      ← fld_fld W 25 7 2 5 (by decide), ← fld_bit W 25 7 0 (by decide), h5, e1, e3]
  cases op
  · exact g opMadd 16 .madd rfl (by decide) rfl fun W a b c => by simp [decodeWord, a, b, c]
  · exact g opMsub 17 .msub rfl (by decide) rfl fun W a b c => by simp [decodeWord, a, b, c]
  · exact g opNmsub 18 .nmsub rfl (by decide) rfl fun W a b c => by simp [decodeWord, a, b, c]
  · exact g opNmadd 19 .nmadd rfl (by decide) rfl fun W a b c => by simp [decodeWord, a, b, c]

theorem rt_intOp (op : IntOp) (h : op.wf = true) : decodeWord op.encode = .ok (.integerOp op) := by
  cases op with
  | lui rd imm =>
    obtain ⟨W, hW, h0, h1, h2⟩ := encU_has opLui imm rd
    obtain ⟨a, b, c⟩ := low2 h0 13 rfl rfl (by decide)
    rw [IntOp.encode, hW]; simp [decodeWord, a, b, c, h1, h2]
  | auipc rd imm =>
    obtain ⟨W, hW, h0, h1, h2⟩ := encU_has opAuipc imm rd
    obtain ⟨a, b, c⟩ := low2 h0 5 rfl rfl (by decide)
    rw [IntOp.encode, hW]; simp [decodeWord, a, b, c, h1, h2]
  | jal rd imm =>
    obtain ⟨W, hW, h0, h1, h2, h3, h4, h5⟩ := encJ_has imm rd
    obtain ⟨a, b, c⟩ := low2 h0 27 rfl rfl (by decide)
    have e : fld W 31 1 ++ fld W 12 8 ++ fld W 20 1 ++ fld W 21 10 = imm := by rw [h2, h3, h4, h5]; exact jump_pieces imm
    rw [IntOp.encode, hW]
    have k : decodeWord W = .ok (.integerOp (.jal (fld W 7 5) (fld W 31 1 ++ fld W 12 8 ++ fld W 20 1 ++ fld W 21 10))) := by
      simp [decodeWord, a, b, c]
    rw [k, e, h1]
  | jalr rd rs1 imm =>
    obtain ⟨W, hW, h0, h1, h2, h3, h4⟩ := encI_has opJalr 0 imm rs1 rd
    obtain ⟨a, b, c⟩ := low2 h0 25 rfl rfl (by decide)
    rw [IntOp.encode, hW]; simp [decodeWord, a, b, c, h1, h2, h3, h4, onlyIf]
  | branch cnd rs1 rs2 imm =>
    obtain ⟨W, hW, h0, h1, h2, h3, h4, h5, h6, h7⟩ := encB_has cnd.bits imm rs1 rs2
    obtain ⟨a, b, c⟩ := low2 h0 24 rfl rfl (by decide)
    have e : fld W 31 1 ++ fld W 7 1 ++ fld W 25 6 ++ fld W 8 4 = imm := by rw [h1, h2, h6, h7]; exact branch_pieces imm
    have q : brCondOf cnd.bits.toNat = some cnd := by cases cnd <;> rfl
    rw [IntOp.encode, hW]
    have k : decodeWord W = decodeBranch W := by simp [decodeWord, a, b, c]
    rw [k, decodeBranch, h3, q]
    show Except.ok (Instr.integerOp (.branch cnd (fld W 15 5) (fld W 20 5) (fld W 31 1 ++ fld W 7 1 ++ fld W 25 6 ++ fld W 8 4))) = _
    rw [e, h4, h5]
  | aluI op rd rs1 imm =>
    have g : ∀ f3 : BitVec 3, ∀ i : Instr, (∀ W : W32, fld W 12 3 = f3 → fld W 7 5 = rd → fld W 15 5 = rs1 → fld W 20 12 = imm →
        decodeOpImm W = .ok i) → decodeWord (encI opImm f3 imm rs1 rd) = .ok i := by
      intro f3 i k
      obtain ⟨W, hW, h0, h1, h2, h3, h4⟩ := encI_has opImm f3 imm rs1 rd
      obtain ⟨a, b, c⟩ := low2 h0 4 rfl rfl (by decide)
      rw [hW, ← k W h2 h1 h3 h4]; simp [decodeWord, a, b, c]
    cases op <;> exact g _ _ fun W a b c d => by simp [decodeOpImm, a, b, c, d]
  | shiftI op rd rs1 sh =>
    have g : ∀ (f3 : BitVec 3) (hi : BitVec 6) (i : Instr), (∀ W : W32, fld W 12 3 = f3 → fld W 7 5 = rd → fld W 15 5 = rs1 →
        fld W 26 6 = hi → fld W 20 6 = sh → decodeOpImm W = .ok i) → decodeWord (encI opImm f3 (hi ++ sh) rs1 rd) = .ok i := by
      intro f3 hi i k
      obtain ⟨W, hW, h0, h1, h2, h3, h4⟩ := encI_has opImm f3 (hi ++ sh) rs1 rd
      obtain ⟨a, b, c⟩ := low2 h0 4 rfl rfl (by decide)
      have x : fld W 26 6 = hi := by
        rw [← fld_fld W 20 12 6 6 (by decide), h4]; exact fldPeel 6 6 (by decide) (fldAll _)
      have y : fld W 20 6 = sh := by
        rw [← fld_fld W 20 12 0 6 (by decide), h4]; exact fldKeep 6 6
      rw [hW, ← k W h2 h1 h3 x y]; simp [decodeWord, a, b, c]
    cases op <;> exact g _ _ _ fun W a b c d e => by simp [decodeOpImm, a, b, c, d, e, onlyIf]
  | addiw rd rs1 imm =>
    obtain ⟨W, hW, h0, h1, h2, h3, h4⟩ := encI_has opImm32 0 imm rs1 rd
    obtain ⟨a, b, c⟩ := low2 h0 6 rfl rfl (by decide)
    rw [IntOp.encode, hW]; simp [decodeWord, decodeOpImm32, a, b, c, h1, h2, h3, h4]
  | shiftIW op rd rs1 sh =>
    have g : ∀ (f3 : BitVec 3) (f7 : BitVec 7) (i : Instr), (∀ W : W32, fld W 12 3 = f3 → fld W 25 7 = f7 → fld W 7 5 = rd →
        fld W 15 5 = rs1 → fld W 20 5 = sh → decodeOpImm32 W = .ok i) → decodeWord (encR opImm32 f3 f7 sh rs1 rd) = .ok i := by
      intro f3 f7 i k
      obtain ⟨W, hW, h0, h1, h2, h3, h4, h5⟩ := encR_has opImm32 f3 f7 sh rs1 rd
      obtain ⟨a, b, c⟩ := low2 h0 6 rfl rfl (by decide)
      rw [hW, ← k W h2 h5 h1 h3 h4]; simp [decodeWord, a, b, c]
    cases op <;> exact g _ _ _ fun W a b c d e => by simp [decodeOpImm32, a, b, c, d, e]
  | alu op rd rs1 rs2 =>
    obtain ⟨W, hW, h0, h1, h2, h3, h4, h5⟩ := encR_has opOp op.f3f7.1 op.f3f7.2 rs2 rs1 rd
    obtain ⟨a, b, c⟩ := low2 h0 12 rfl rfl (by decide)
    have q : aluOpOf op.f3f7.1.toNat op.f3f7.2.toNat = some op := by cases op <;> rfl
    rw [IntOp.encode, hW]; simp [decodeWord, a, b, c, h1, h2, h3, h4, h5, q]
  | aluW op rd rs1 rs2 =>
    obtain ⟨W, hW, h0, h1, h2, h3, h4, h5⟩ := encR_has opOp32 op.f3f7.1 op.f3f7.2 rs2 rs1 rd
    obtain ⟨a, b, c⟩ := low2 h0 14 rfl rfl (by decide)
    have q : aluWOpOf op.f3f7.1.toNat op.f3f7.2.toNat = some op := by cases op <;> rfl
    rw [IntOp.encode, hW]; simp [decodeWord, a, b, c, h1, h2, h3, h4, h5, q]
  | fma op d rd rs1 rs2 rs3 rm => exact rt_fma op d rd rs1 rs2 rs3 rm h
  | fArith op d rd rs1 rs2 rm =>
    have h' : rmOk rm = true := h
    cases op <;> exact rt_opFp _ _ _ _ _ _ _ fun W a b c e f g i => by
      unfold decodeOpFp; simp only []; rw [if_neg (notB g), i, a, b, c, e, f]; exact onlyIf_true h'
  | fSgnj op d rd rs1 rs2 =>
    cases op <;> exact rt_opFp _ _ _ _ _ _ _ fun W a b c e f g i => by
      unfold decodeOpFp; simp only []; rw [if_neg (notB g), i, a, b, c, e, f]; rfl
  | fMinMax mx d rd rs1 rs2 =>
    cases mx <;> exact rt_opFp _ _ _ _ _ _ _ fun W a b c e f g i => by
      unfold decodeOpFp; simp only []; rw [if_neg (notB g), i, a, b, c, e, f]; rfl
  | fCmp op d rd rs1 rs2 =>
    cases op <;> exact rt_opFp _ _ _ _ _ _ _ fun W a b c e f g i => by
      unfold decodeOpFp; simp only []; rw [if_neg (notB g), i, a, b, c, e, f]; rfl
  | fClass d rd rs1 =>
    exact rt_opFp _ _ _ _ _ _ _ fun W a b c e f g i => by
      unfold decodeOpFp; simp only []; rw [if_neg (notB g), i, a, b, c, e, f]; rfl
  | fToInt ty d rd rs1 rm =>
    have h' : rmOk rm = true := h
    have q : intTyOf ty.bits = some ty := by cases ty <;> rfl
    exact rt_opFp _ _ _ _ _ _ _ fun W a b c e f g i => by
      unfold decodeOpFp; simp only []; rw [if_neg (notB g), i, a, b, c, e, f, q]; exact onlyIf_true h'
  | intToF ty d rd rs1 rm =>
    have h' : rmOk rm = true := h
    have q : intTyOf ty.bits = some ty := by cases ty <;> rfl
    exact rt_opFp _ _ _ _ _ _ _ fun W a b c e f g i => by
      unfold decodeOpFp; simp only []; rw [if_neg (notB g), i, a, b, c, e, f, q]; exact onlyIf_true h'
  | fToF toD rd rs1 rm =>
    have h' : rmOk rm = true := h
    cases toD <;> exact rt_opFp _ _ _ _ _ _ _ fun W a b c e f g i => by
      unfold decodeOpFp; simp only []; rw [if_neg (notB g), i, a, b, c, e, f]; exact onlyIf_true h'
  | fmvToX d rd rs1 =>
    exact rt_opFp _ _ _ _ _ _ _ fun W a b c e f g i => by
      unfold decodeOpFp; simp only []; rw [if_neg (notB g), i, a, b, c, e, f]; rfl
  | fmvToF d rd rs1 =>
    exact rt_opFp _ _ _ _ _ _ _ fun W a b c e f g i => by
      unfold decodeOpFp; simp only []; rw [if_neg (notB g), i, a, b, c, e, f]; rfl

theorem rt_fdivOp (op : FDivOp) (h : op.wf = true) : decodeWord op.encode = .ok (.fdivFsqrt op) := by
  cases op with
  | fdiv d rd rs1 rs2 rm =>
    have h' : rmOk rm = true := h
    exact rt_opFp _ _ _ _ _ _ _ fun W a b c e f g i => by
      unfold decodeOpFp; simp only []; rw [if_neg (notB g), i, a, b, c, e, f]; exact onlyIf_true h'
  | fsqrt d rd rs1 rm =>
    have h' : rmOk rm = true := h
    exact rt_opFp _ _ _ _ _ _ _ fun W a b c e f g i => by
      unfold decodeOpFp; simp only []; rw [if_neg (notB g), i, a, b, c, e, f]; exact onlyIf_true h'

end Sys2Proof
end

