-- ==== Sys2Proof/Laws/PerInstr.lean ====
section
/-! SUPPORT. Statements made of every instruction, one lemma per constructor. -/

namespace Sys2Proof.Laws.RoundTrip

/-- The word of a well-formed instruction decodes to it. -/
def Statement (i : Instr) : Prop := ∀ w : W32, i.wf = true → encode i = some w → decodeWord w = .ok i


theorem rcommit : Statement (.rcommit) := by
  intro w h e
  injection e with e
  subst e
  exact rt_rcommit 

theorem phase (rd rs1 : Reg) : Statement (.phase rd rs1) := by
  intro w h e
  injection e with e
  subst e
  exact rt_phase rd rs1

theorem bfx (rd rs1 rs2 : Reg) : Statement (.bfx rd rs1 rs2) := by
  intro w h e
  injection e with e
  subst e
  exact rt_bfx rd rs1 rs2

theorem bfi (rd rs1 rs2 : Reg) : Statement (.bfi rd rs1 rs2) := by
  intro w h e
  injection e with e
  subst e
  exact rt_bfi rd rs1 rs2

theorem xflush (rs1 rs2 : Reg) : Statement (.xflush rs1 rs2) := by
  intro w h e
  injection e with e
  subst e
  exact rt_xflush rs1 rs2

theorem cfence (mask : BitVec 8) (kind : FenceKind) (scope : BitVec 3) : Statement (.cfence mask kind scope) := by
  intro w h e
  injection e with e
  subst e
  exact rt_cfence mask kind scope

theorem samo (op : CaOp) (scope : BitVec 3) (rd rs1 rs2 : Reg) : Statement (.samo op scope rd rs1 rs2) := by
  intro w h e
  injection e with e
  subst e
  exact rt_samo op scope rd rs1 rs2

theorem scas (scope : BitVec 3) (rd rs1 rs2 : Reg) : Statement (.scas scope rd rs1 rs2) := by
  intro w h e
  injection e with e
  subst e
  exact rt_scas scope rd rs1 rs2

theorem barinit (rs1 rs2 : Reg) : Statement (.barinit rs1 rs2) := by
  intro w h e
  injection e with e
  subst e
  exact rt_barinit rs1 rs2

theorem barrive (rd rs1 : Reg) : Statement (.barrive rd rs1) := by
  intro w h e
  injection e with e
  subst e
  exact rt_barrive rd rs1

theorem barwait (rs1 rs2 : Reg) : Statement (.barwait rs1 rs2) := by
  intro w h e
  injection e with e
  subst e
  exact rt_barwait rs1 rs2

theorem barsync (rd rs1 : Reg) : Statement (.barsync rd rs1) := by
  intro w h e
  injection e with e
  subst e
  exact rt_barsync rd rs1

theorem semv (rs1 rs2 : Reg) : Statement (.semv rs1 rs2) := by
  intro w h e
  injection e with e
  subst e
  exact rt_semv rs1 rs2

theorem semp (rd rs1 rs2 : Reg) : Statement (.semp rd rs1 rs2) := by
  intro w h e
  injection e with e
  subst e
  exact rt_semp rd rs1 rs2

theorem msnd (rd rs1 rs2 : Reg) : Statement (.msnd rd rs1 rs2) := by
  intro w h e
  injection e with e
  subst e
  exact rt_msnd rd rs1 rs2

theorem mrcv (rd rs1 rs2 : Reg) : Statement (.mrcv rd rs1 rs2) := by
  intro w h e
  injection e with e
  subst e
  exact rt_mrcv rd rs1 rs2

theorem mpoll (rd rs1 : Reg) : Statement (.mpoll rd rs1) := by
  intro w h e
  injection e with e
  subst e
  exact rt_mpoll rd rs1

theorem messageArrive (core mbox : Nat) (nb : Bool) (d : Delivery) : Statement (.messageArrive core mbox nb d) := fun _ _ e => by cases e

theorem gsig (rd rs1 rs2 : Reg) : Statement (.gsig rd rs1 rs2) := by
  intro w h e
  injection e with e
  subst e
  exact rt_gsig rd rs1 rs2

theorem gwait (rd rs1 rs2 : Reg) : Statement (.gwait rd rs1 rs2) := by
  intro w h e
  injection e with e
  subst e
  exact rt_gwait rd rs1 rs2

theorem gpay (rd rs1 rs2 : Reg) : Statement (.gpay rd rs1 rs2) := by
  intro w h e
  injection e with e
  subst e
  exact rt_gpay rd rs1 rs2

theorem gtake (rd rs1 rs2 : Reg) : Statement (.gtake rd rs1 rs2) := by
  intro w h e
  injection e with e
  subst e
  exact rt_gtake rd rs1 rs2

theorem gopen (rs1 : Reg) : Statement (.gopen rs1) := by
  intro w h e
  injection e with e
  subst e
  exact rt_gopen rs1

theorem gclose (rs1 : Reg) : Statement (.gclose rs1) := by
  intro w h e
  injection e with e
  subst e
  exact rt_gclose rs1

theorem gateRequestArrive (r : GateRequest) : Statement (.gateRequestArrive r) := fun _ _ e => by cases e

theorem gateTokenAccrue (gate entry : Nat) : Statement (.gateTokenAccrue gate entry) := fun _ _ e => by cases e

theorem spawn (rd rs1 rs2 : Reg) : Statement (.spawn rd rs1 rs2) := by
  intro w h e
  injection e with e
  subst e
  exact rt_spawn rd rs1 rs2

theorem touch (rd rs1 : Reg) : Statement (.touch rd rs1) := by
  intro w h e
  injection e with e
  subst e
  exact rt_touch rd rs1

theorem tpoll (rd rs1 : Reg) : Statement (.tpoll rd rs1) := by
  intro w h e
  injection e with e
  subst e
  exact rt_tpoll rd rs1

theorem tany (rd rs1 rs2 : Reg) : Statement (.tany rd rs1 rs2) := by
  intro w h e
  injection e with e
  subst e
  exact rt_tany rd rs1 rs2

theorem promise (rd : Reg) : Statement (.promise rd) := by
  intro w h e
  injection e with e
  subst e
  exact rt_promise rd

theorem resolve (rd rs1 rs2 : Reg) : Statement (.resolve rd rs1 rs2) := by
  intro w h e
  injection e with e
  subst e
  exact rt_resolve rd rs1 rs2

theorem cancel (rd rs1 : Reg) : Statement (.cancel rd rs1) := by
  intro w h e
  injection e with e
  subst e
  exact rt_cancel rd rs1

theorem poison (rd rs1 rs2 : Reg) : Statement (.poison rd rs1 rs2) := by
  intro w h e
  injection e with e
  subst e
  exact rt_poison rd rs1 rs2

theorem texit (rs1 : Reg) : Statement (.texit rs1) := by
  intro w h e
  injection e with e
  subst e
  exact rt_texit rs1

theorem tyield : Statement (.tyield) := by
  intro w h e
  injection e with e
  subst e
  exact rt_tyield 

theorem frel (rs1 : Reg) : Statement (.frel rs1) := by
  intro w h e
  injection e with e
  subst e
  exact rt_frel rs1

theorem homeRequestArrive (r : HomeRequest) : Statement (.homeRequestArrive r) := fun _ _ e => by cases e

theorem stdef (rs1 rs2 : Reg) : Statement (.stdef rs1 rs2) := by
  intro w h e
  injection e with e
  subst e
  exact rt_stdef rs1 rs2

theorem starm (rd rs1 rs2 : Reg) : Statement (.starm rd rs1 rs2) := by
  intro w h e
  injection e with e
  subst e
  exact rt_starm rd rs1 rs2

theorem stwait (rd rs1 rs2 : Reg) : Statement (.stwait rd rs1 rs2) := by
  intro w h e
  injection e with e
  subst e
  exact rt_stwait rd rs1 rs2

theorem stgen (rd rs1 : Reg) : Statement (.stgen rd rs1) := by
  intro w h e
  injection e with e
  subst e
  exact rt_stgen rd rs1

theorem hoist (rd rs1 : Reg) : Statement (.hoist rd rs1) := by
  intro w h e
  injection e with e
  subst e
  exact rt_hoist rd rs1

theorem cpyin (rd rs1 rs2 : Reg) : Statement (.cpyin rd rs1 rs2) := by
  intro w h e
  injection e with e
  subst e
  exact rt_cpyin rd rs1 rs2

theorem cpyout (rd rs1 rs2 : Reg) : Statement (.cpyout rd rs1 rs2) := by
  intro w h e
  injection e with e
  subst e
  exact rt_cpyout rd rs1 rs2

theorem cpyx (rd rs1 rs2 : Reg) : Statement (.cpyx rd rs1 rs2) := by
  intro w h e
  injection e with e
  subst e
  exact rt_cpyx rd rs1 rs2

theorem cpygath (rd rs1 rs2 : Reg) : Statement (.cpygath rd rs1 rs2) := by
  intro w h e
  injection e with e
  subst e
  exact rt_cpygath rd rs1 rs2

theorem cpybc (rd rs1 rs2 : Reg) : Statement (.cpybc rd rs1 rs2) := by
  intro w h e
  injection e with e
  subst e
  exact rt_cpybc rd rs1 rs2

theorem cpwait (rd rs1 : Reg) : Statement (.cpwait rd rs1) := by
  intro w h e
  injection e with e
  subst e
  exact rt_cpwait rd rs1

theorem cpqry (rd rs1 : Reg) : Statement (.cpqry rd rs1) := by
  intro w h e
  injection e with e
  subst e
  exact rt_cpqry rd rs1

theorem cpcan (rd rs1 : Reg) : Statement (.cpcan rd rs1) := by
  intro w h e
  injection e with e
  subst e
  exact rt_cpcan rd rs1

theorem copyChannelStart (cluster : Nat) : Statement (.copyChannelStart cluster) := fun _ _ e => by cases e

theorem copyBeatWrite (c : Nat) (b : CopyBeat) : Statement (.copyBeatWrite c b) := fun _ _ e => by cases e

theorem mma (m : MtOps) : Statement (.mma m) := by
  intro w h e
  injection e with e
  subst e
  exact rt_mt 0 m h .mma (fun W k => by unfold decodeCustom2; simp only []; rw [k]; rfl)

theorem mms (m : MtOps) : Statement (.mms m) := by
  intro w h e
  injection e with e
  subst e
  exact rt_mt 1 m h .mms (fun W k => by unfold decodeCustom2; simp only []; rw [k]; rfl)

theorem mmz (m : MtOps) : Statement (.mmz m) := by
  intro w h e
  injection e with e
  subst e
  exact rt_mt 2 m h .mmz (fun W k => by unfold decodeCustom2; simp only []; rw [k]; rfl)

theorem mmak (m : MtOps) : Statement (.mmak m) := by
  intro w h e
  injection e with e
  subst e
  exact rt_mt 3 m h .mmak (fun W k => by unfold decodeCustom2; simp only []; rw [k]; rfl)

theorem mmag (m : MtOps) : Statement (.mmag m) := by
  intro w h e
  injection e with e
  subst e
  exact rt_mt 4 m h .mmag (fun W k => by unfold decodeCustom2; simp only []; rw [k]; rfl)

theorem mld (md : TileReg) (pad rs2 : Reg) : Statement (.mld md pad rs2) := by
  intro w h e
  injection e with e
  subst e
  exact rt_mld md pad rs2 h

theorem mst (md : TileReg) (pad : Reg) : Statement (.mst md pad) := by
  intro w h e
  injection e with e
  subst e
  exact rt_mst md pad h

theorem mzero (md : TileReg) (rs1 : Reg) : Statement (.mzero md rs1) := by
  intro w h e
  injection e with e
  subst e
  exact rt_mzero md rs1

theorem mcopy (md ms : TileReg) : Statement (.mcopy md ms) := by
  intro w h e
  injection e with e
  subst e
  exact rt_mcopy md ms

theorem mtrn (md ms : TileReg) : Statement (.mtrn md ms) := by
  intro w h e
  injection e with e
  subst e
  exact rt_mtrn md ms

theorem mcommit (rd : Reg) : Statement (.mcommit rd) := by
  intro w h e
  injection e with e
  subst e
  exact rt_mcommit rd

theorem mwait (rs1 : Reg) : Statement (.mwait rs1) := by
  intro w h e
  injection e with e
  subst e
  exact rt_mwait rs1

theorem mclrf (mt : TileReg) (rs2 : Reg) : Statement (.mclrf mt rs2) := by
  intro w h e
  injection e with e
  subst e
  exact rt_mclrf mt rs2

theorem mstat (rd : Reg) (mt : TileReg) : Statement (.mstat rd mt) := by
  intro w h e
  injection e with e
  subst e
  exact rt_mstat rd mt

theorem fmtw (rs1 rs2 : Reg) : Statement (.fmtw rs1 rs2) := by
  intro w h e
  injection e with e
  subst e
  exact rt_fmtw rs1 rs2

theorem fmtr (rd rs1 : Reg) : Statement (.fmtr rd rs1) := by
  intro w h e
  injection e with e
  subst e
  exact rt_fmtr rd rs1

theorem fmtwViewApply (pair ctx id : Nat) (entry : Word) : Statement (.fmtwViewApply pair ctx id entry) := fun _ _ e => by cases e

theorem tileOpStart (pair : Nat) : Statement (.tileOpStart pair) := fun _ _ e => by cases e

theorem kStepComplete (pair op : Nat) : Statement (.kStepComplete pair op) := fun _ _ e => by cases e

theorem operandFault (pair op : Nat) : Statement (.operandFault pair op) := fun _ _ e => by cases e

theorem tileOpComplete (pair op : Nat) : Statement (.tileOpComplete pair op) := fun _ _ e => by cases e

theorem gangRendezvous (cluster gid : Nat) : Statement (.gangRendezvous cluster gid) := fun _ _ e => by cases e

theorem tileEccError (pair tile : Nat) (corrected : Bool) : Statement (.tileEccError pair tile corrected) := fun _ _ e => by cases e

theorem vadd (td ta tb : TileReg) (xr : Reg) : Statement (.vadd td ta tb xr) := by
  intro w h e
  injection e with e
  subst e
  exact rt_vadd td ta tb xr

theorem vsub (td ta tb : TileReg) (xr : Reg) : Statement (.vsub td ta tb xr) := by
  intro w h e
  injection e with e
  subst e
  exact rt_vsub td ta tb xr

theorem vmul (td ta tb : TileReg) (xr : Reg) : Statement (.vmul td ta tb xr) := by
  intro w h e
  injection e with e
  subst e
  exact rt_vmul td ta tb xr

theorem vdiv (td ta tb : TileReg) (xr : Reg) : Statement (.vdiv td ta tb xr) := by
  intro w h e
  injection e with e
  subst e
  exact rt_vdiv td ta tb xr

theorem vfma (td ta tb : TileReg) (xr : Reg) : Statement (.vfma td ta tb xr) := by
  intro w h e
  injection e with e
  subst e
  exact rt_vfma td ta tb xr

theorem vmin (td ta tb : TileReg) (xr : Reg) : Statement (.vmin td ta tb xr) := by
  intro w h e
  injection e with e
  subst e
  exact rt_vmin td ta tb xr

theorem vmax (td ta tb : TileReg) (xr : Reg) : Statement (.vmax td ta tb xr) := by
  intro w h e
  injection e with e
  subst e
  exact rt_vmax td ta tb xr

theorem vsel (td ta tb : TileReg) (xr : Reg) : Statement (.vsel td ta tb xr) := by
  intro w h e
  injection e with e
  subst e
  exact rt_vsel td ta tb xr

theorem vcmpEq (kd : KReg) (ta tb : TileReg) (xr : Reg) : Statement (.vcmpEq kd ta tb xr) := by
  intro w h e
  injection e with e
  subst e
  exact rt_vcmpEq kd ta tb xr

theorem vcmpLt (kd : KReg) (ta tb : TileReg) (xr : Reg) : Statement (.vcmpLt kd ta tb xr) := by
  intro w h e
  injection e with e
  subst e
  exact rt_vcmpLt kd ta tb xr

theorem vcmpLe (kd : KReg) (ta tb : TileReg) (xr : Reg) : Statement (.vcmpLe kd ta tb xr) := by
  intro w h e
  injection e with e
  subst e
  exact rt_vcmpLe kd ta tb xr

theorem vperm (td ta tb : TileReg) (xr : Reg) : Statement (.vperm td ta tb xr) := by
  intro w h e
  injection e with e
  subst e
  exact rt_vperm td ta tb xr

theorem vmov (td ta : TileReg) (xr : Reg) : Statement (.vmov td ta xr) := by
  intro w h e
  injection e with e
  subst e
  exact rt_vmov td ta xr

theorem vneg (td ta : TileReg) (xr : Reg) : Statement (.vneg td ta xr) := by
  intro w h e
  injection e with e
  subst e
  exact rt_vneg td ta xr

theorem vabs (td ta : TileReg) (xr : Reg) : Statement (.vabs td ta xr) := by
  intro w h e
  injection e with e
  subst e
  exact rt_vabs td ta xr

theorem vsqrt (td ta : TileReg) (xr : Reg) : Statement (.vsqrt td ta xr) := by
  intro w h e
  injection e with e
  subst e
  exact rt_vsqrt td ta xr

theorem vrsq (td ta : TileReg) (xr : Reg) : Statement (.vrsq td ta xr) := by
  intro w h e
  injection e with e
  subst e
  exact rt_vrsq td ta xr

theorem vrcp (td ta : TileReg) (xr : Reg) : Statement (.vrcp td ta xr) := by
  intro w h e
  injection e with e
  subst e
  exact rt_vrcp td ta xr

theorem vexp2 (td ta : TileReg) (xr : Reg) : Statement (.vexp2 td ta xr) := by
  intro w h e
  injection e with e
  subst e
  exact rt_vexp2 td ta xr

theorem vlog2 (td ta : TileReg) (xr : Reg) : Statement (.vlog2 td ta xr) := by
  intro w h e
  injection e with e
  subst e
  exact rt_vlog2 td ta xr

theorem vtanh (td ta : TileReg) (xr : Reg) : Statement (.vtanh td ta xr) := by
  intro w h e
  injection e with e
  subst e
  exact rt_vtanh td ta xr

theorem viadd (td ta tb : TileReg) (xr : Reg) : Statement (.viadd td ta tb xr) := by
  intro w h e
  injection e with e
  subst e
  exact rt_viadd td ta tb xr

theorem visub (td ta tb : TileReg) (xr : Reg) : Statement (.visub td ta tb xr) := by
  intro w h e
  injection e with e
  subst e
  exact rt_visub td ta tb xr

theorem vimul (td ta tb : TileReg) (xr : Reg) : Statement (.vimul td ta tb xr) := by
  intro w h e
  injection e with e
  subst e
  exact rt_vimul td ta tb xr

theorem vand (td ta tb : TileReg) (xr : Reg) : Statement (.vand td ta tb xr) := by
  intro w h e
  injection e with e
  subst e
  exact rt_vand td ta tb xr

theorem vor (td ta tb : TileReg) (xr : Reg) : Statement (.vor td ta tb xr) := by
  intro w h e
  injection e with e
  subst e
  exact rt_vor td ta tb xr

theorem vxor (td ta tb : TileReg) (xr : Reg) : Statement (.vxor td ta tb xr) := by
  intro w h e
  injection e with e
  subst e
  exact rt_vxor td ta tb xr

theorem vshl (td ta tb : TileReg) (xr : Reg) : Statement (.vshl td ta tb xr) := by
  intro w h e
  injection e with e
  subst e
  exact rt_vshl td ta tb xr

theorem vsrl (td ta tb : TileReg) (xr : Reg) : Statement (.vsrl td ta tb xr) := by
  intro w h e
  injection e with e
  subst e
  exact rt_vsrl td ta tb xr

theorem vsra (td ta tb : TileReg) (xr : Reg) : Statement (.vsra td ta tb xr) := by
  intro w h e
  injection e with e
  subst e
  exact rt_vsra td ta tb xr

theorem vimin (td ta tb : TileReg) (xr : Reg) : Statement (.vimin td ta tb xr) := by
  intro w h e
  injection e with e
  subst e
  exact rt_vimin td ta tb xr

theorem vimax (td ta tb : TileReg) (xr : Reg) : Statement (.vimax td ta tb xr) := by
  intro w h e
  injection e with e
  subst e
  exact rt_vimax td ta tb xr

theorem vadds (tds : TileReg) (rs xr : Reg) : Statement (.vadds tds rs xr) := by
  intro w h e
  injection e with e
  subst e
  exact rt_vadds tds rs xr

theorem vsubs (tds : TileReg) (rs xr : Reg) : Statement (.vsubs tds rs xr) := by
  intro w h e
  injection e with e
  subst e
  exact rt_vsubs tds rs xr

theorem vmuls (tds : TileReg) (rs xr : Reg) : Statement (.vmuls tds rs xr) := by
  intro w h e
  injection e with e
  subst e
  exact rt_vmuls tds rs xr

theorem vmaxs (tds : TileReg) (rs xr : Reg) : Statement (.vmaxs tds rs xr) := by
  intro w h e
  injection e with e
  subst e
  exact rt_vmaxs tds rs xr

theorem vmins (tds : TileReg) (rs xr : Reg) : Statement (.vmins tds rs xr) := by
  intro w h e
  injection e with e
  subst e
  exact rt_vmins tds rs xr

theorem vbcast (tds : TileReg) (rs xr : Reg) : Statement (.vbcast tds rs xr) := by
  intro w h e
  injection e with e
  subst e
  exact rt_vbcast tds rs xr

theorem vext (rs : Reg) (tds : TileReg) (xr : Reg) : Statement (.vext rs tds xr) := by
  intro w h e
  injection e with e
  subst e
  exact rt_vext rs tds xr

theorem vins (tds : TileReg) (rs xr : Reg) : Statement (.vins tds rs xr) := by
  intro w h e
  injection e with e
  subst e
  exact rt_vins tds rs xr

theorem viota (tds : TileReg) (rs xr : Reg) : Statement (.viota tds rs xr) := by
  intro w h e
  injection e with e
  subst e
  exact rt_viota tds rs xr

theorem vrsum (rs : Reg) (tds : TileReg) (xr : Reg) : Statement (.vrsum rs tds xr) := by
  intro w h e
  injection e with e
  subst e
  exact rt_vrsum rs tds xr

theorem vrmax (rs : Reg) (tds : TileReg) (xr : Reg) : Statement (.vrmax rs tds xr) := by
  intro w h e
  injection e with e
  subst e
  exact rt_vrmax rs tds xr

theorem vrmin (rs : Reg) (tds : TileReg) (xr : Reg) : Statement (.vrmin rs tds xr) := by
  intro w h e
  injection e with e
  subst e
  exact rt_vrmin rs tds xr

theorem vcvt (td tds : TileReg) (p : BitVec 3) (xr : Reg) : Statement (.vcvt td tds p xr) := by
  intro w h e
  injection e with e
  subst e
  exact rt_vcvt td tds p xr

theorem vqmx (rs : Reg) (tds : TileReg) (scope : BitVec 3) (xr : Reg) : Statement (.vqmx rs tds scope xr) := by
  intro w h e
  injection e with e
  subst e
  exact rt_vqmx rs tds scope xr

theorem vld (td : TileReg) (rs1 : Reg) (off : BitVec 3) (xr : Reg) : Statement (.vld td rs1 off xr) := by
  intro w h e
  injection e with e
  subst e
  exact rt_vld td rs1 off xr

theorem vst (td : TileReg) (rs1 : Reg) (off : BitVec 3) (xr : Reg) : Statement (.vst td rs1 off xr) := by
  intro w h e
  injection e with e
  subst e
  exact rt_vst td rs1 off xr

theorem vpfx (p : Pfx) : Statement (.vpfx p) := by
  intro w h e
  injection e with e
  subst e
  exact rt_vpfx p h

theorem lift (rd rs1 rs2 : Reg) : Statement (.lift rd rs1 rs2) := by
  intro w h e
  injection e with e
  subst e
  exact rt_lift rd rs1 rs2

theorem lret (rs1 : Reg) : Statement (.lret rs1) := by
  intro w h e
  injection e with e
  subst e
  exact rt_lret rs1

theorem ltag (r : TagReg) (rs2 : Reg) : Statement (.ltag r rs2) := by
  intro w h e
  injection e with e
  subst e
  exact rt_ltag r rs2 h

theorem lred (md ms : TileReg) (rs2 : Reg) : Statement (.lred md ms rs2) := by
  intro w h e
  injection e with e
  subst e
  exact rt_lred md ms rs2

theorem laxis (rd rs1 : Reg) : Statement (.laxis rd rs1) := by
  intro w h e
  injection e with e
  subst e
  exact rt_laxis rd rs1

theorem lbr (k : KReg) (imm : BitVec 12) : Statement (.lbr k imm) := by
  intro w h e
  injection e with e
  subst e
  exact rt_lbr k imm

theorem illegalInstruction (word : W32) : Statement (.illegalInstruction word) := fun _ _ e => by cases e

theorem baseLoad (op : LoadOp) (rd rs1 : Reg) (imm : BitVec 12) : Statement (.baseLoad op rd rs1 imm) := by
  intro w h e
  injection e with e
  subst e
  exact rt_load op rd rs1 imm

theorem baseStore (op : StoreOp) (rs1 rs2 : Reg) (imm : BitVec 12) : Statement (.baseStore op rs1 rs2 imm) := by
  intro w h e
  injection e with e
  subst e
  exact rt_store op rs1 rs2 imm

theorem amo (op : AmoOp) (d aq rl : Bool) (rd rs1 rs2 : Reg) : Statement (.amo op d aq rl rd rs1 rs2) := by
  intro w h e
  injection e with e
  subst e
  exact rt_amo op d aq rl rd rs1 rs2

theorem lr (d aq rl : Bool) (rd rs1 : Reg) : Statement (.lr d aq rl rd rs1) := by
  intro w h e
  injection e with e
  subst e
  exact rt_lr d aq rl rd rs1

theorem sc (d aq rl : Bool) (rd rs1 rs2 : Reg) : Statement (.sc d aq rl rd rs1 rs2) := by
  intro w h e
  injection e with e
  subst e
  exact rt_sc d aq rl rd rs1 rs2

theorem fence (fm pred succ : BitVec 4) (rs1 rd : Reg) : Statement (.fence fm pred succ rs1 rd) := by
  intro w h e
  injection e with e
  subst e
  exact rt_fence fm pred succ rs1 rd

theorem fenceI (imm : BitVec 12) (rs1 rd : Reg) : Statement (.fenceI imm rs1 rd) := by
  intro w h e
  injection e with e
  subst e
  exact rt_fenceI imm rs1 rd

theorem ecall : Statement (.ecall) := by
  intro w h e
  injection e with e
  subst e
  exact rt_system.1

theorem ebreak : Statement (.ebreak) := by
  intro w h e
  injection e with e
  subst e
  exact rt_system.2.1

theorem wfi : Statement (.wfi) := by
  intro w h e
  injection e with e
  subst e
  exact rt_system.2.2.1

theorem sret : Statement (.sret) := by
  intro w h e
  injection e with e
  subst e
  exact rt_system.2.2.2.1

theorem mret : Statement (.mret) := by
  intro w h e
  injection e with e
  subst e
  exact rt_system.2.2.2.2

theorem sfenceVma (rs1 rs2 : Reg) : Statement (.sfenceVma rs1 rs2) := by
  intro w h e
  injection e with e
  subst e
  exact rt_sfence rs1 rs2

theorem csrAccess (csr : BitVec 12) (f : CsrForm) : Statement (.csrAccess csr f) := by
  intro w h e
  injection e with e
  subst e
  exact rt_csrAccess csr f h

theorem integerOp (op : IntOp) : Statement (.integerOp op) := by
  intro w h e
  injection e with e
  subst e
  exact rt_intOp op h

theorem fdivFsqrt (op : FDivOp) : Statement (.fdivFsqrt op) := by
  intro w h e
  injection e with e
  subst e
  exact rt_fdivOp op h

theorem hartResume (hart : Nat) (r : Option Reply) : Statement (.hartResume hart r) := fun _ _ e => by cases e

theorem storeDrainDone (hart : Nat) : Statement (.storeDrainDone hart) := fun _ _ e => by cases e

theorem interruptTake (hart : Nat) : Statement (.interruptTake hart) := fun _ _ e => by cases e

theorem stcolWrite (f : CsrForm) : Statement (.stcolWrite f) := by
  intro w h e
  injection e with e
  subst e
  exact (rt_csrOwn f h).1

theorem vrmWrite (f : CsrForm) : Statement (.vrmWrite f) := by
  intro w h e
  injection e with e
  subst e
  exact (rt_csrOwn f h).2.1

theorem mfmtWrite (n : BitVec 2) (f : CsrForm) : Statement (.mfmtWrite n f) := by
  intro w h e
  injection e with e
  subst e
  exact (rt_csrOwn f h).2.2.1 n

theorem mgangWrite (f : CsrForm) : Statement (.mgangWrite f) := by
  intro w h e
  injection e with e
  subst e
  exact (rt_csrOwn f h).2.2.2.1

theorem satpWrite (f : CsrForm) : Statement (.satpWrite f) := by
  intro w h e
  injection e with e
  subst e
  exact (rt_csrOwn f h).2.2.2.2

theorem errinjLink (arm : Bool) : Statement (.errinjLink arm) := fun _ _ e => by cases e

theorem errinjCore (arm : Bool) : Statement (.errinjCore arm) := fun _ _ e => by cases e

theorem errinjCopy (arm : Bool) : Statement (.errinjCopy arm) := fun _ _ e => by cases e

theorem errinjHbm (arm : Bool) : Statement (.errinjHbm arm) := fun _ _ e => by cases e

theorem errinjVault (arm : Bool) : Statement (.errinjVault arm) := fun _ _ e => by cases e

theorem errinjPad (arm : Bool) : Statement (.errinjPad arm) := fun _ _ e => by cases e

theorem errinjTmem (arm : Bool) : Statement (.errinjTmem arm) := fun _ _ e => by cases e

theorem errinjMpad (arm : Bool) : Statement (.errinjMpad arm) := fun _ _ e => by cases e

theorem scrubctlVault : Statement (.scrubctlVault) := fun _ _ e => by cases e

theorem scrubctlTiles : Statement (.scrubctlTiles) := fun _ _ e => by cases e

theorem scrubctlPad : Statement (.scrubctlPad) := fun _ _ e => by cases e

theorem supervisorScrubDone (cluster : Nat) : Statement (.supervisorScrubDone cluster) := fun _ _ e => by cases e

theorem registerWrite (r : HostReg) (v : Word) : Statement (.registerWrite r v) := fun _ _ e => by cases e

theorem fwSetAreas : Statement (.fwSetAreas) := fun _ _ e => by cases e

theorem fwRetryHeld : Statement (.fwRetryHeld) := fun _ _ e => by cases e

theorem fwRejectHeld : Statement (.fwRejectHeld) := fun _ _ e => by cases e

theorem fwReadReports : Statement (.fwReadReports) := fun _ _ e => by cases e

theorem fwEndHeldTask : Statement (.fwEndHeldTask) := fun _ _ e => by cases e

theorem fwRequeueLost : Statement (.fwRequeueLost) := fun _ _ e => by cases e

theorem fwFaultLost : Statement (.fwFaultLost) := fun _ _ e => by cases e

theorem fwUnknownCall : Statement (.fwUnknownCall) := fun _ _ e => by cases e

theorem notifyWrite (fn slot : Nat) (tail : BitVec 16) : Statement (.notifyWrite fn slot tail) := fun _ _ e => by cases e

theorem launchAccept (slot : Nat) : Statement (.launchAccept slot) := fun _ _ e => by cases e

theorem launchStart (launch : Nat) : Statement (.launchStart launch) := fun _ _ e => by cases e

theorem completionPost (launch : Nat) : Statement (.completionPost launch) := fun _ _ e => by cases e

theorem launchStall (fn : Nat) : Statement (.launchStall fn) := fun _ _ e => by cases e

theorem taskIntake (task : Word) : Statement (.taskIntake task) := fun _ _ e => by cases e

theorem taskRingRefill (cluster : Nat) : Statement (.taskRingRefill cluster) := fun _ _ e => by cases e

theorem prefetchArm (task : Word) (arg : Nat) : Statement (.prefetchArm task arg) := fun _ _ e => by cases e

theorem taskPrepared (task : Word) : Statement (.taskPrepared task) := fun _ _ e => by cases e

theorem prefetchStop (task : Word) : Statement (.prefetchStop task) := fun _ _ e => by cases e

theorem taskDispatch (hart : Nat) : Statement (.taskDispatch hart) := fun _ _ e => by cases e

theorem agePromotion (task : Word) : Statement (.agePromotion task) := fun _ _ e => by cases e

theorem tileReservation (task : Word) : Statement (.tileReservation task) := fun _ _ e => by cases e

theorem taskEndArrive (task : Word) (how : EndKind) : Statement (.taskEndArrive task how) := fun _ _ e => by cases e

theorem taskWake (task : Word) (outcome : Option Reply) : Statement (.taskWake task outcome) := fun _ _ e => by cases e

theorem homeChipLostTimeout (chip : Nat) : Statement (.homeChipLostTimeout chip) := fun _ _ e => by cases e

theorem remoteReplyTimeout (hart : Nat) : Statement (.remoteReplyTimeout hart) := fun _ _ e => by cases e

theorem stoppedRetry (hart : Nat) : Statement (.stoppedRetry hart) := fun _ _ e => by cases e

theorem coreLoss (core : Nat) : Statement (.coreLoss core) := fun _ _ e => by cases e

theorem reportPost (ring : Nat) : Statement (.reportPost ring) := fun _ _ e => by cases e

theorem ringAck (ring seq : Nat) : Statement (.ringAck ring seq) := fun _ _ e => by cases e

theorem windrowDrainStart (cluster : Nat) : Statement (.windrowDrainStart cluster) := fun _ _ e => by cases e

theorem windrowDrainTimeout (cluster : Nat) : Statement (.windrowDrainTimeout cluster) := fun _ _ e => by cases e

theorem windrowScanEnd (cluster : Nat) (pass : Bool) : Statement (.windrowScanEnd cluster pass) := fun _ _ e => by cases e

theorem flitCrcError (port : Nat) : Statement (.flitCrcError port) := fun _ _ e => by cases e

theorem linkPortLost (port : Nat) : Statement (.linkPortLost port) := fun _ _ e => by cases e

theorem ctxStopSavePreempt (part : Nat) : Statement (.ctxStopSavePreempt part) := fun _ _ e => by cases e

theorem ctxStopSaveMigrate (part : Nat) : Statement (.ctxStopSaveMigrate part) := fun _ _ e => by cases e

theorem ctxStopSaveDump (part : Nat) : Statement (.ctxStopSaveDump part) := fun _ _ e => by cases e

theorem ctxStop (part : Nat) : Statement (.ctxStop part) := fun _ _ e => by cases e

theorem ctxResumeInPlace (part : Nat) : Statement (.ctxResumeInPlace part) := fun _ _ e => by cases e

theorem ctxResumeSave (part : Nat) : Statement (.ctxResumeSave part) := fun _ _ e => by cases e

theorem ctxRestore (part : Nat) : Statement (.ctxRestore part) := fun _ _ e => by cases e

theorem ctxTeardown (part : Nat) : Statement (.ctxTeardown part) := fun _ _ e => by cases e

theorem ctxUnknownCommand (part : Nat) (code : BitVec 8) : Statement (.ctxUnknownCommand part code) := fun _ _ e => by cases e

theorem engineQuiesceDone (part : Nat) : Statement (.engineQuiesceDone part) := fun _ _ e => by cases e

theorem stopDeliveryDone (part : Nat) : Statement (.stopDeliveryDone part) := fun _ _ e => by cases e

theorem baleWriteDone (part : Nat) : Statement (.baleWriteDone part) := fun _ _ e => by cases e

theorem saveIncomplete (part : Nat) : Statement (.saveIncomplete part) := fun _ _ e => by cases e

theorem scrubDone (part : Nat) : Statement (.scrubDone part) := fun _ _ e => by cases e

theorem gateSourceFree (gate : Nat) : Statement (.gateSourceFree gate) := fun _ _ e => by cases e

theorem hcmdCreatePartition : Statement (.hcmdCreatePartition) := fun _ _ e => by cases e

theorem hcmdAssignClusters : Statement (.hcmdAssignClusters) := fun _ _ e => by cases e

theorem hcmdAssignVaults : Statement (.hcmdAssignVaults) := fun _ _ e => by cases e

theorem hcmdSetStage2Root : Statement (.hcmdSetStage2Root) := fun _ _ e => by cases e

theorem hcmdInvalidateStage2 : Statement (.hcmdInvalidateStage2) := fun _ _ e => by cases e

theorem hcmdLoadKey : Statement (.hcmdLoadKey) := fun _ _ e => by cases e

theorem hcmdZeroiseKey : Statement (.hcmdZeroiseKey) := fun _ _ e => by cases e

theorem hcmdWritePermissionTable : Statement (.hcmdWritePermissionTable) := fun _ _ e => by cases e

theorem hcmdCreateGate : Statement (.hcmdCreateGate) := fun _ _ e => by cases e

theorem hcmdSetAccessEntry : Statement (.hcmdSetAccessEntry) := fun _ _ e => by cases e

theorem hcmdFreeGate : Statement (.hcmdFreeGate) := fun _ _ e => by cases e

theorem hcmdCreateQueue (fn : Nat) : Statement (.hcmdCreateQueue fn) := fun _ _ e => by cases e

theorem hcmdDeleteQueue (fn : Nat) : Statement (.hcmdDeleteQueue fn) := fun _ _ e => by cases e

theorem hcmdSetRingWeight : Statement (.hcmdSetRingWeight) := fun _ _ e => by cases e

theorem hcmdDirtyTrackingOn : Statement (.hcmdDirtyTrackingOn) := fun _ _ e => by cases e

theorem hcmdDirtyReport : Statement (.hcmdDirtyReport) := fun _ _ e => by cases e

theorem hcmdDirtyTrackingOff : Statement (.hcmdDirtyTrackingOff) := fun _ _ e => by cases e

theorem hcmdReleaseHeldLaunch : Statement (.hcmdReleaseHeldLaunch) := fun _ _ e => by cases e

theorem hcmdDiscardHeldLaunch : Statement (.hcmdDiscardHeldLaunch) := fun _ _ e => by cases e

theorem hcmdUnknown (code : BitVec 8) : Statement (.hcmdUnknown code) := fun _ _ e => by cases e

theorem profileWind (v : BitVec 2) : Statement (.profileWind v) := fun _ _ e => by cases e

theorem profilePower (v : BitVec 2) : Statement (.profilePower v) := fun _ _ e => by cases e

theorem forecastUpdate (cluster : Nat) (v : BitVec 4) : Statement (.forecastUpdate cluster v) := fun _ _ e => by cases e

theorem functionLevelReset (fn : Nat) : Statement (.functionLevelReset fn) := fun _ _ e => by cases e

theorem atsInvalidationRequest (fn pasid addr : Nat) : Statement (.atsInvalidationRequest fn pasid addr) := fun _ _ e => by cases e

theorem bringupDone (steps : BitVec 7) : Statement (.bringupDone steps) := fun _ _ e => by cases e

theorem deviceReset : Statement (.deviceReset) := fun _ _ e => by cases e

theorem mladjaDLoss : Statement (.mladjaDLoss) := fun _ _ e => by cases e

theorem readyFiguresExchange : Statement (.readyFiguresExchange) := fun _ _ e => by cases e

end Sys2Proof.Laws.RoundTrip
end

