-- ==== Sys2Proof/Tests/Slice0.lean ====
section
/-! SUPPORT. Tests: ill-formed terms that WellFormed refuses, words that Decode reads, states that meet the hypotheses of the
statements, and single steps. Expected values come from the manual's tables and worked encodings, or are worked out by hand
from the rules cited. -/

open Sys2Proof Sys2Proof.Machine

namespace Sys2Proof.Tests

set_option Elab.async false

/-! ## Ill-formed terms, one for each check of WellFormed -/

/-- An MT word over two operands. -/
def mtWord (a b : MtOperand) : MtOps := { fslot := 0, stream := 0, fzi := false, fzo := false, a := a, b := b, md := 1 }
/-- A row prefix with this rounding mode and nothing else. -/
def pfxWith (rm : BitVec 3) : Pfx := { k := 0, zero := false, rm := rm, fzi := false, fzo := false, t4 := 0, td := 0, x4 := 0 }
/-- `csrrs rd, csr, x0`, which only reads, and `csrrw`. -/
def csrReads : CsrForm := { op := .rs, imm := false, src := 0, rd := 5 }
def csrWrites : CsrForm := { op := .rw, imm := false, src := 6, rd := 5 }

/-- R92: a pad pair starts at an even register other than x0. -/
theorem test_wf_mt_pad : (Instr.mma (mtWord (.pad 11) (.tile 2))).wf = false ∧ (Instr.mms (mtWord (.tile 2) (.pad 0))).wf = false ∧
    (Instr.mmz (mtWord (.pad 0) (.tile 2))).wf = false ∧ (Instr.mmak (mtWord (.pad 13) (.pad 12))).wf = false ∧
    (Instr.mmag (mtWord (.tile 1) (.pad 31))).wf = false ∧ (Instr.mma (mtWord (.pad 30) (.tile 2))).wf = true := by decide
theorem test_wf_pad_of_loads : (Instr.mld 1 11 5).wf = false ∧ (Instr.mst 1 0).wf = false := by decide
/-- R93: rounding modes 101 and 110 of a prefix are illegal. -/
theorem test_wf_prefix_rounding : (Instr.vpfx (pfxWith 5)).wf = false ∧ (Instr.vpfx (pfxWith 6)).wf = false ∧
    (Instr.vpfx (pfxWith 7)).wf = true := by decide
/-- R312: `ltag` does not name k0. -/
theorem test_wf_ltag_k0 : (Instr.ltag (.mask 0) 5).wf = false := by decide
/-- A write of a register whose write is a row of its own is not the row CSR_ACCESS, and a read is not that row. -/
theorem test_wf_csr_rows : (Instr.csrAccess 0x800 csrWrites).wf = false ∧ (Instr.csrAccess 0x800 csrReads).wf = true ∧
    (Instr.stcolWrite csrReads).wf = false ∧ (Instr.vrmWrite csrReads).wf = false ∧ (Instr.mfmtWrite 2 csrReads).wf = false ∧
    (Instr.mgangWrite csrReads).wf = false ∧ (Instr.satpWrite csrReads).wf = false := by decide
/-- The base F and D rounding modes 101 and 110 are reserved (R105). -/
theorem test_wf_base_rounding : (Instr.integerOp (.fArith .add true 1 2 3 5)).wf = false ∧
    (Instr.integerOp (.fma .madd false 1 2 3 4 6)).wf = false ∧ (Instr.integerOp (.fToInt .w true 1 2 5)).wf = false ∧
    (Instr.fdivFsqrt (.fdiv true 1 2 3 6)).wf = false ∧ (Instr.fdivFsqrt (.fsqrt false 1 2 5)).wf = false := by decide
/-- R10: the units that do not exist. -/
theorem test_wf_units : (Instr.messageArrive 1024 0 false ⟨⟨0, 0⟩, ⟨0, 0, 0⟩⟩).wf = false ∧ (Instr.messageArrive 0 4 false ⟨⟨0, 0⟩, ⟨0, 0, 0⟩⟩).wf = false ∧
    (Instr.copyChannelStart 128).wf = false ∧ (Instr.copyBeatWrite 0 (.own 256)).wf = false ∧ (Instr.tileOpStart 512).wf = false ∧
    (Instr.tileEccError 0 36 true).wf = false ∧ (Instr.gangRendezvous 128 0).wf = false ∧ (Instr.taskDispatch 8192).wf = false ∧
    (Instr.coreLoss 1024).wf = false ∧ (Instr.forecastUpdate 128 0).wf = false := by decide

/-! ## Decoding: words written out from the formats of R90 and the codes of R94 to R97, field by field -/

/-- R128 to R145 and R94, custom-0, funct3 000 to 100, with x5 = t0, x6 = t1, x10 = a0, x11 = a1. -/
theorem test_decode_hart_words :
    decodeWord 0b0000000_00000_00000_000_00000_0001011 = .ok .rcommit ∧
    decodeWord 0b0000010_00000_01011_000_01010_0001011 = .ok (.phase 10 11) ∧
    decodeWord 0b0000011_00110_01010_000_00101_0001011 = .ok (.bfx 5 10 6) ∧
    decodeWord 0b0000100_00110_00101_000_01010_0001011 = .ok (.bfi 10 5 6) ∧
    decodeWord 0b0010000_00110_00101_000_00000_0001011 = .ok (.xflush 5 6) ∧
    decodeWord 0b11111111_110_10_0000_001_00000_0001011 = .ok (.cfence 0xFF .acquire 6) ∧
    decodeWord 0b1001_011_00110_01010_010_00101_0001011 = .ok (.scas 3 5 10 6) ∧
    decodeWord 0b0000_000_00110_01010_010_00101_0001011 = .ok (.samo .add 0 5 10 6) := by decide
theorem test_decode_sync_words :
    decodeWord 0b0000000_00110_00101_011_00000_0001011 = .ok (.barinit 5 6) ∧
    decodeWord 0b0000001_00000_00101_011_00111_0001011 = .ok (.barrive 7 5) ∧
    decodeWord 0b0000010_00110_00101_011_00000_0001011 = .ok (.barwait 5 6) ∧
    decodeWord 0b0000011_00000_00101_011_00111_0001011 = .ok (.barsync 7 5) ∧
    decodeWord 0b0001000_00110_00101_011_00000_0001011 = .ok (.semv 5 6) ∧
    decodeWord 0b0001001_00110_00101_011_00111_0001011 = .ok (.semp 7 5 6) ∧
    decodeWord 0b0000000_00110_00101_100_00111_0001011 = .ok (.msnd 7 5 6) ∧
    decodeWord 0b0000001_00110_00101_100_00111_0001011 = .ok (.mrcv 7 5 6) ∧
    decodeWord 0b0000010_00000_00101_100_00111_0001011 = .ok (.mpoll 7 5) ∧
    decodeWord 0b0000000_01011_01010_101_00101_0001011 = .ok (.gsig 5 10 11) ∧
    decodeWord 0b0000011_01011_01010_101_00101_0001011 = .ok (.gtake 5 10 11) ∧
    decodeWord 0b0000100_00000_01010_101_00000_0001011 = .ok (.gopen 10) ∧
    decodeWord 0b0000101_00000_01010_101_00000_0001011 = .ok (.gclose 10) := by decide
/-- R95, custom-1. -/
theorem test_decode_task_words :
    decodeWord 0b0000000_01100_01011_000_01010_0101011 = .ok (.spawn 10 11 12) ∧
    decodeWord 0b0000010_00000_01010_000_01010_0101011 = .ok (.touch 10 10) ∧
    decodeWord 0b0000011_00000_01010_000_00101_0101011 = .ok (.tpoll 5 10) ∧
    decodeWord 0b0000100_01011_01010_000_00101_0101011 = .ok (.tany 5 10 11) ∧
    decodeWord 0b0000101_00000_00000_000_01000_0101011 = .ok (.promise 8) ∧
    decodeWord 0b0000110_01011_01000_000_00101_0101011 = .ok (.resolve 5 8 11) ∧
    decodeWord 0b0000111_00000_01010_000_00101_0101011 = .ok (.cancel 5 10) ∧
    decodeWord 0b0001000_01011_01010_000_00101_0101011 = .ok (.poison 5 10 11) ∧
    decodeWord 0b0001001_00000_01010_000_00000_0101011 = .ok (.texit 10) ∧
    decodeWord 0b0001010_00000_00000_000_00000_0101011 = .ok .tyield ∧
    decodeWord 0b0001011_00000_01010_000_00000_0101011 = .ok (.frel 10) := by decide
theorem test_decode_copy_words :
    decodeWord 0b0000000_01011_01010_001_00000_0101011 = .ok (.stdef 10 11) ∧
    decodeWord 0b0000001_01011_01010_001_00101_0101011 = .ok (.starm 5 10 11) ∧
    decodeWord 0b0000010_00101_01010_001_00101_0101011 = .ok (.stwait 5 10 5) ∧
    decodeWord 0b0000011_00000_01010_001_00101_0101011 = .ok (.stgen 5 10) ∧
    decodeWord 0b0000100_00000_01010_001_00101_0101011 = .ok (.hoist 5 10) ∧
    decodeWord 0b0000000_01011_01010_010_00101_0101011 = .ok (.cpyin 5 10 11) ∧
    decodeWord 0b0000100_01011_01010_010_00101_0101011 = .ok (.cpybc 5 10 11) ∧
    decodeWord 0b0001000_00000_01010_010_00101_0101011 = .ok (.cpwait 5 10) ∧
    decodeWord 0b0001001_00000_01010_010_00101_0101011 = .ok (.cpqry 5 10) ∧
    decodeWord 0b0001010_00000_01010_010_00101_0101011 = .ok (.cpcan 5 10) := by decide
/-- R96, custom-2: the MT, TR and CX formats. -/
theorem test_decode_matrix_words :
    decodeWord 0b00_00_0_0_1_01110_01100_010_0110_1_1011011 =
      .ok (.mmz { fslot := 0, stream := 0, fzi := false, fzo := false, a := .pad 12, b := .pad 14, md := 6 }) ∧
    decodeWord 0b11_10_1_0_0_00011_00010_001_0110_0_1011011 =
      .ok (.mms { fslot := 3, stream := 2, fzi := true, fzo := false, a := .tile 2, b := .tile 3, md := 6 }) ∧
    decodeWord 0b0000000_00110_01100_101_0011_0_1011011 = .ok (.mld 3 12 6) ∧
    decodeWord 0b0000001_00000_01100_101_0011_0_1011011 = .ok (.mst 3 12) ∧
    decodeWord 0b0000010_00000_00110_101_0011_0_1011011 = .ok (.mzero 3 6) ∧
    decodeWord 0b0000011_00000_00101_101_0011_0_1011011 = .ok (.mcopy 3 5) ∧
    decodeWord 0b0000100_00000_00101_101_0011_0_1011011 = .ok (.mtrn 3 5) ∧
    decodeWord 0b0000000_00000_00000_110_00101_1011011 = .ok (.mcommit 5) ∧
    decodeWord 0b0000011_00000_00111_110_00101_1011011 = .ok (.mstat 5 7) ∧
    decodeWord 0b0000100_00110_00101_110_00000_1011011 = .ok (.fmtw 5 6) ∧
    decodeWord 0b0000101_00000_00101_110_00111_1011011 = .ok (.fmtr 7 5) := by decide
/-- R97, custom-3: RowR with a mask destination, RowS, RowM, CX and LB. -/
theorem test_decode_row_words :
    decodeWord 0b01001_0011_0010_0001_000_01010_1111011 = .ok (.vcmpLt 1 2 3 10) ∧
    decodeWord 0b00110_0011_0010_0001_001_01010_1111011 = .ok (.vshl 1 2 3 10) ∧
    decodeWord 0b00000_00101_0010_100_010_01010_1111011 = .ok (.vmins 2 5 10) ∧
    decodeWord 0b01001_00101_0010_110_010_01010_1111011 = .ok (.vqmx 5 2 6 10) ∧
    decodeWord 0b00000_00101_0010_011_011_01010_1111011 = .ok (.vld 2 5 3 10) ∧
    decodeWord 0b00001_00101_0010_011_011_01010_1111011 = .ok (.vst 2 5 3 10) ∧
    decodeWord 0b0000000_00111_00110_100_00001_1111011 = .ok (.lift 1 6 7) ∧
    decodeWord 0b0000001_00000_00001_100_00000_1111011 = .ok (.lret 1) ∧
    decodeWord 0b0000100_00111_00110_100_00101_1111011 = .ok (.lred 5 6 7) ∧
    decodeWord 0b1_111111_00_010_00000_101_1100_1_1111011 = .ok (.lbr 2 (-4)) := by decide
/-- The base instruction set: the formats of the unprivileged specification (R105). -/
theorem test_decode_base_words :
    decodeWord 0b111111111111_00010_000_00001_0010011 = .ok (.integerOp (.aluI .addi 1 2 (-1))) ∧
    decodeWord 0b0100000_00011_00010_101_00001_0110011 = .ok (.integerOp (.alu .sra 1 2 3)) ∧
    decodeWord 0b0000001_00011_00010_110_00001_0111011 = .ok (.integerOp (.aluW .remw 1 2 3)) ∧
    decodeWord 0b010000_111111_00010_101_00001_0010011 = .ok (.integerOp (.shiftI .sra 1 2 63)) ∧
    decodeWord 0b0000000_00011_00010_011_01000_0100011 = .ok (.baseStore .sd 2 3 8) ∧
    decodeWord 0b00001_1_0_00011_00010_011_00001_0101111 = .ok (.amo .swap true true false 1 2 3) ∧
    decodeWord 0b0001101_00011_00010_111_00001_1010011 = .ok (.fdivFsqrt (.fdiv true 1 2 3 7)) ∧
    decodeWord 0b00100_01_00011_00010_000_00001_1000011 = .ok (.integerOp (.fma .madd true 1 2 3 4 0)) := by decide
theorem test_decode_system_words :
    decodeWord 0b000000000000_00000_000_00000_1110011 = .ok .ecall ∧
    decodeWord 0b000000000001_00000_000_00000_1110011 = .ok .ebreak ∧
    decodeWord 0b000100000010_00000_000_00000_1110011 = .ok .sret ∧
    decodeWord 0b001100000010_00000_000_00000_1110011 = .ok .mret ∧
    decodeWord 0b000100000101_00000_000_00000_1110011 = .ok .wfi ∧
    decodeWord 0b0001001_00110_00101_000_00000_1110011 = .ok (.sfenceVma 5 6) ∧
    decodeWord 0b100000000000_00110_001_00101_1110011 = .ok (.stcolWrite csrWrites) ∧
    decodeWord 0b001101000001_00000_010_00101_1110011 = .ok (.csrAccess 0x341 csrReads) := by decide
/-- Words that no table lists: custom-2 funct3 111, a used field that must be zero, an odd pad, tile number 16. -/
theorem test_decode_refuses :
    decodeWord 0b0000000_00000_00000_111_00000_1011011 = .error .unlisted ∧
    decodeWord 0b0000000_00001_00000_000_00000_0001011 = .error .fixedField ∧
    decodeWord 0b00_00_0_0_1_01101_00010_000_0110_0_1011011 = .error .codedField ∧
    decodeWord 0b00_00_0_0_0_10001_00010_000_0110_0_1011011 = .error .codedField := by decide

/-! ## Small states -/

/-- The result of a step, where it goes on. -/
def after (o : Host.Outcome State Fault Refusal) (f : State → Bool) : Bool :=
  match o with
  | .next t => f t
  | .fault _ | .refused _ => false

def isOk {E A : Type} (r : Except E A) : Bool :=
  match r with
  | .ok _ => true
  | .error _ => false

/-- A running task's future, and a promise in this state. -/
def runningFuture : Future := { (default : Future) with gen := 1, state := 2, hasTask := true }
def promiseIn (state : Nat) (value : Word) : Future := { (default : Future) with gen := 1, state := state, value := value }

/-- The handles of slots 5 and 6 of cluster 0, generation 1 (R147). -/
def me : Word := 9223372047592194474
def other : Word := 9223372049739678135
theorem test_handles : me = mkHandle 0 0 5 1 ∧ other = mkHandle 0 0 6 1 := by decide +kernel

/-- A task that runs, with two tiles of pair 0. -/
def task : Machine.Task :=
  { newTask { (default : Desc) with entry := 0x1000, tiles := 2 } 0 0 0 0 [] [] 0 false .any 1 with
    state := .running, pair := some 0, tiles := [0, 1] }

/-- Hart 0 in M mode at 0x1000, with x5 = v, x6 = w, x10 = a and x11 = b. -/
def machine (v w a b : Word) : State :=
  { State.reset with harts := [(0, { Hart.zero with
      pc := 0x1000, ctx := (((Ctx.zero.setXreg 5 v).setXreg 6 w).setXreg 10 a).setXreg 11 b })] }

/-- The same in U mode, where the hart runs the task `me` and a region is open. -/
def user (v w a b : Word) : State :=
  { (machine v w a b).modMe (fun x => { x with mode := .u, task := some me }) with
    tasks := [(me.toNat, task)], futures := [(5, runningFuture), (6, promiseIn 1 0)],
    pairs := [(0, { Pair.zero with tiles := [(0, { (default : Tile) with owner := some me }), (1, { (default : Tile) with owner := some me })] })] }

theorem test_user_starts : (user 0 0 0 0).me.waiting = none ∧ (user 0 0 0 0).me.pfx = none ∧
    (user 0 0 0 0).closed.ending? 0 = none ∧ (user 0 0 0 0).inRegion 0 = true := by decide +kernel
theorem test_user_rcommit : after (exec .rcommit (user 0 0 0 0)) (fun t => t.me.pc == 0x1004 &&
    (t.myTask.map fun k => k.region.rseq) == some 1) = true := by decide +kernel
theorem test_user_touch : after (exec (.touch 10 5) (user other 0 0 0)) (fun t => t.me.task == none) = true := by decide +kernel

/-! ## Witnesses: for each statement with hypotheses, a state and operands that meet them, clause by clause -/

/-- The hart of `s` in another mode, or with another machine status. -/
def inMode (mode : Mode) (s : State) : State := s.modMe fun x => { x with mode := mode }
def withStatus (v : Word) (s : State) : State := s.modMe fun x => { x with sys := { x.sys with mstatus := v } }
def m0 : State := machine 0x2000 3 0x3000 1
def u0 : State := user 0x2000 3 0x3000 1
/-- M mode with FS Initial. -/
def mFp : State := withStatus 0x2000 m0

theorem starts_of (s : State) (h : (s.me.waiting = none ∧ s.me.pfx = none)) : s.starts := h
theorem noEnd_of (s : State) (h : s.ending? s.cur = none) : s.noEnd := h

theorem m0_starts : m0.starts ∧ m0.closed.noEnd := ⟨starts_of _ (by decide +kernel), noEnd_of _ (by decide +kernel)⟩
theorem u0_starts : u0.starts ∧ u0.closed.noEnd := ⟨starts_of _ (by decide +kernel), noEnd_of _ (by decide +kernel)⟩

theorem witness_IntegerWordsWriteTheirResult : m0.me.waiting = none := by decide +kernel
/-- A target that is aligned and one that is not, a branch taken and one not taken. -/
theorem witness_ControlTransfersReachTheirTarget : m0.me.waiting = none ∧ (m0.me.pc + immJ 0x40).toNat % 4 = 0 ∧
    (m0.me.pc + immJ 1).toNat % 4 ≠ 0 ∧ branchTaken .ltu (m0.x 6) (m0.x 5) = true ∧
    branchTaken .ltu (m0.x 5) (m0.x 6) = false := by decide +kernel
theorem witness_FloatingPointWordsRoundTheExactResult : mFp.me.waiting = none ∧ fsOf mFp.me.sys.mstatus ≠ 0 ∧
    isOk (mFp.baseRm 4) = true ∧ isOk (mFp.baseRm 7) = true := by decide +kernel
theorem witness_FloatingPointOffIsIllegal : m0.me.waiting = none ∧ fsOf m0.me.sys.mstatus = 0 := by decide +kernel
theorem witness_LoadsWriteWhatTheyRead : m0.me.waiting = none ∧ mFp.me.waiting = none ∧ fsOf mFp.me.sys.mstatus ≠ 0 ∧
    isOk (m0.load (m0.x 5 + imm12 8) 8 8) = true ∧ isOk (mFp.load (mFp.x 5 + imm12 4) 4 4) = true ∧
    isOk (m0.baseAddr .load 5 8) = true ∧ isOk (mFp.baseAddr .load 5 4) = true ∧
    isOk ((machine (-1) 0 0 0).baseAddr .load 5 1) = false ∧ isOk ((machine 0 0 0 0).baseAddr .load 5 (-1)) = false ∧
    inWindows (m0.x 5) = false ∧ isOk (m0.load (m0.x 5) 8 8) = true ∧
    isOk (resolve m0 (m0.view .load) .load (m0.x 5) 8 8) = true := by decide +kernel
/-- The last word of HBM. -/
theorem witness_MachineModeLoadReadsMemory : let s := machine (BitVec.ofNat 64 (hbmSize - 8)) 0 0 0
    s.me.waiting = none ∧ s.me.mode = Mode.m ∧ bits s.me.sys.mstatus 17 1 = 0 ∧
    isOk (s.baseAddr .load 5 0) = true ∧ s.partOf (clusterOf s.cur) = none ∧
    (s.view .load).pmpAllows .m .load (s.x 5 + imm12 0).toNat 8 = true ∧
    (s.cluster (clusterOf s.cur)).errinj.getLsbD 4 = false ∧ (s.x 5 + imm12 0).toNat % LoadOp_size .ld = 0 ∧
    (s.x 5 + imm12 0).toNat + LoadOp_size .ld = hbmSize := by decide +kernel
theorem witness_MachineModeStoreWritesItsBytes : let s := machine (BitVec.ofNat 64 (hbmSize - 8)) 0 0 0
    s.me.waiting = none ∧ s.me.mode = Mode.m ∧ bits s.me.sys.mstatus 17 1 = 0 ∧ Memory.wf s.mem = true ∧
    isOk (s.baseAddr .store 5 0) = true ∧ s.partOf (clusterOf s.cur) = none ∧
    (s.view .store).pmpAllows .m .store (s.x 5 + imm12 0).toNat 8 = true ∧
    (s.x 5 + imm12 0).toNat % StoreOp_size .sd = 0 ∧ (s.x 5 + imm12 0).toNat + StoreOp_size .sd = hbmSize := by decide +kernel
/-- In a region, where the store joins the buffer, and outside one. -/
theorem witness_StoresReachTheBufferOrMemory : ∀ s ∈ [u0, m0], s.me.waiting = none ∧ isOk (s.baseAddr .store 5 8) = true ∧
    after (exec (.baseStore .sd 5 6 8) s) (fun t => t.me.pc == 0x1004) = true ∧
    (match resolve s (s.view .store) .store (s.x 5 + imm12 8) 8 8 with
      | .ok (t, ls) => isOk (storeUnits t t.cur (s.x 5 + imm12 8) ls (leBytes 8 (s.x 6).toNat))
      | .error _ => false) = true := by decide +kernel
theorem witness_AtomicsReadAndWriteInOneStep : u0.starts ∧ u0.closed.noEnd ∧
    isOk (u0.closed.rmw (u0.closed.x 5) 8 fun old => old) = true ∧ isOk (u0.closed.rmw (u0.closed.x 5) 4 fun old => old) = true :=
  ⟨u0_starts.1, u0_starts.2, by decide +kernel, by decide +kernel⟩
/-- With a reservation of the address and the width, and with none. -/
def reserved : State := m0.modMe fun x => { x with resv := some { line := 0x80, addr := 0x2000, width := 8 } }
theorem witness_StoreConditionalTestsTheReservation : (∀ s ∈ [m0, reserved], s.starts ∧ s.closedKeeping.noEnd) ∧
    inWindows (reserved.closedKeeping.x 5) = false ∧
    (∀ s ∈ [m0, reserved], (match resolve s.closedKeeping (s.closedKeeping.view .store) .store (s.closedKeeping.x 5) 8 8 with
      | .ok (v, _) => v.me.resv == s.me.resv
      | .error _ => false) = true) ∧ m0.me.resv = none ∧ reserved.me.resv ≠ none := by
  refine ⟨?_, by decide +kernel⟩
  unfold State.starts State.noEnd
  decide +kernel
/-- Outside a region, and inside one with room in its buffer. -/
theorem witness_FencesTakeTheirPlace : m0.me.waiting = none ∧ u0.me.waiting = none ∧ m0.inRegion m0.cur = false ∧
    u0.inRegion u0.cur = true ∧ (u0.myTask.map fun t => decide (t.region.buf.length < 512)) = some true := by decide +kernel
theorem witness_TrappingWordsTakeTheirTrap : (inMode .u m0).me.waiting = none ∧ (inMode .u m0).me.mode = Mode.u ∧
    m0.me.waiting = none ∧ m0.me.mode = Mode.m := by decide +kernel
/-- A cause that is delegated, and one that is not, from S mode. -/
theorem witness_TrapEntrySavesAndRedirects :
    let s := (inMode .s m0).modMe fun x => { x with sys := { x.sys with medeleg := 4 } }
    s.inRegion s.cur = false ∧ s.me.mode ≠ Mode.m ∧ s.me.sys.medeleg.getLsbD 2 = true ∧ s.me.sys.medeleg.getLsbD 8 = false ∧
    s.me.sys.mideleg.getLsbD 7 = false := by decide +kernel
theorem witness_TrapClosesTheRegionFirst : u0.inRegion u0.cur = true ∧ u0.myTask.isSome = true ∧ u0.starts ∧
    ((u0.closesOther u0.cur).closeRegion u0.cur 0 u0.me.epc false).noEnd :=
  ⟨by decide +kernel, by decide +kernel, u0_starts.1, noEnd_of _ (by decide +kernel)⟩
theorem witness_ReturnsRestoreTheSavedState : m0.me.waiting = none ∧ m0.me.mode = Mode.m ∧ m0.me.freeOnSret = false ∧
    (inMode .s m0).me.waiting = none ∧ (inMode .s m0).me.mode = Mode.s ∧ bits (inMode .s m0).me.sys.mstatus 22 1 = 0 ∧
    (inMode .u m0).me.waiting = none ∧ (inMode .u m0).me.mode = Mode.u := by decide +kernel
/-- With an enabled interrupt pending and without one; a canonical page and every page. -/
theorem witness_WaitAndFlushesOfThePrivilegedModes :
    let s := m0.modMe fun x => { x with sys := { x.sys with mie := 2, mip := 2 } }
    s.starts ∧ m0.starts ∧ s.mipOf s.cur &&& s.me.sys.mie ≠ 0 ∧ m0.mipOf m0.cur &&& m0.me.sys.mie = 0 ∧ m0.me.mode ≠ Mode.u ∧
    canonical (m0.x 5) = true ∧ bits ((machine 0 0x20000 0 0).x 6) 17 1 = 1 ∧ (inMode .u m0).starts ∧
    canonical ((machine 0x0100000000000000 0 0 0).x 5) = false ∧ m0.regionsThrough 0 (fun _ => true) (fun _ _ => true) = [] := by
  unfold State.starts
  decide +kernel
theorem witness_CsrWordsReadAndWriteTheirRegister : m0.me.waiting = none ∧
    (∀ n ∈ [0x340, 0x344, 0x800, 0x801, 0x804, 0x807, 0x808, 0x180, 0xF14], isOk (m0.csrRead n) = true) ∧
    (csrWrites.writes && csrReadOnly 0x340) = false ∧ (csrReads.writes && csrReadOnly 0xF14) = false := by decide +kernel
/-- Below the lowest mode, a write of a read-only number, and a number no table lists. -/
theorem witness_CsrAccessIsCheckedFirst : u0.me.waiting = none ∧ u0.me.mode.code < csrLevel 0x300 ∧ m0.me.waiting = none ∧
    csrWrites.writes = true ∧ csrReadOnly 0xF14 = true ∧ csrLevel 0x805 ≠ 3 ∧ m0.csrLow 0x8FF = none ∧ csrLevel 0x7C0 = 3 ∧
    m0.csrHigh 0x7C0 = none := by decide +kernel
/-- A cluster with no scrub, one that scrubs, and one whose partition owns the vault beneath it. -/
theorem witness_DetectorsAndScrubActOnTheirUnits :
    let p : Machine.Part := { (default : Machine.Part) with present := true, vaults := 1 }
    let s : State := { m0 with clusters := [(0, { Cluster.zero with scrubBusy := 5, part := some 3 })], parts := [(3, p)] }
    m0.myCluster.scrubBusy = 0 ∧ s.myCluster.scrubBusy ≠ 0 ∧ (s.cluster 0).scrubBusy.getLsbD 0 = true ∧
    (s.cluster 0).scrubBusy.getLsbD 2 = true ∧ (s.partOf 0).bind s.parts.find = some p ∧ p.vaults.getLsbD 0 = true ∧
    s.padFree 0 (padBase + 64) = true := by decide +kernel
theorem witness_RegionCommitPerformsAndCheckpoints : u0.starts ∧ u0.closed.noEnd ∧ (m0.starts ∧ m0.closed.noEnd ∧ m0.me.mode ≠ Mode.u) ∧
    u0.inRegion u0.cur = true ∧ u0.myTask.isSome = true ∧ u0.closed.goesOn.myTask.isSome = true :=
  ⟨u0_starts.1, u0_starts.2, ⟨m0_starts.1, m0_starts.2, by decide +kernel⟩, by decide +kernel, by decide +kernel, by decide +kernel⟩
/-- A launch record with two variants, of bounds 16 and 64. -/
def record2 : List Byte := [0, 0, 0, 2] ++ List.replicate 92 0 ++ leBytes 8 16 ++ leBytes 8 0x100 ++ leBytes 8 64 ++ leBytes 8 0x200
theorem witness_PhaseChoosesTheVariant : m0.me.waiting = none ∧ variants [] = [] ∧ variants record2 = [(16, 0x100), (64, 0x200)] ∧
    chooseVariant record2 17 = 0x200 ∧ chooseVariant record2 16 = 0x100 ∧ chooseVariant record2 65 = 0x200 := by decide +kernel
theorem witness_BitFieldsMoveTheirBits : m0.me.waiting = none ∧ bfxVal 0xFFFF 0x8404 = 0xFFFFFFFFFFFFFFFF ∧
    bfxVal 0xFFFF 0x0404 = 15 ∧ bfxVal (-1) 0x403F = 1 ∧ bfiVal 0 (-1) 0x403F = 0x8000000000000000 := by decide +kernel

/-- The barrier of hart 0's core with id 0, as x5 = 0x100 names it, in this state; x6 = `w`. -/
def atBarrier (w : Word) (count arrivals phase : BitVec 16) : State :=
  { user 0x100 w 0 0 with barriers := [(0x800000, { count := count, arrivals := arrivals, phase := phase })] }
theorem atBarrier_starts (w : Word) (s : State) (h : s = atBarrier w 3 0 0 ∨ s = atBarrier w 3 2 0) : s.starts ∧ s.noEnd := by
  unfold State.starts State.noEnd
  rcases h with rfl | rfl <;> exact ⟨⟨rfl, rfl⟩, rfl⟩
/-- Hart 1 of the core waits in `barsync` on phase 4 of an instance with two arrivals. -/
def syncing (count : BitVec 16) (r : Option Reply) : State :=
  (atBarrier 4 count 2 4).modHart 1 fun x =>
    { x with waiting := some { instr := .barsync 7 5, kind := .arrived 0x800000 4, reply := r } }
/-- No arrivals, one short of the count, both outcomes of `barwait`, and a `barsync` before and after its phase ends. -/
theorem witness_BarriersCountPhases : (atBarrier 4 3 0 0).starts ∧ (atBarrier 4 3 0 0).closed.noEnd ∧ (atBarrier 4 3 2 0).starts ∧
    (atBarrier 4 3 2 0).closed.noEnd ∧ (atBarrier 0 3 0 0).starts ∧ (atBarrier 0 3 0 0).noEnd ∧
    (∀ s ∈ [atBarrier 4 3 0 0, atBarrier 4 3 2 0, atBarrier 0 3 0 0], isOk (s.closed.myBarrier 5) = true ∧
      isOk (s.myBarrier 5) = true ∧ (s.closed.barrier 0x800000).count ≠ 0 ∧
      (∀ e ∈ s.closed.harts, s.closed.inBarwait e.1 e.2 0x800000 = false)) ∧
    ((atBarrier 4 3 0 0).closed.barrier 0x800000).arrivals = 0 ∧
    ((atBarrier 4 3 2 0).closed.barrier 0x800000).arrivals + 1 = 3 ∧
    ((atBarrier 4 3 0 0).barrier 0x800000).phase ≠ ((atBarrier 4 3 0 0).x 6).setWidth 16 ∧
    ((atBarrier 0 3 0 0).barrier 0x800000).phase = ((atBarrier 0 3 0 0).x 6).setWidth 16 ∧
    (syncing 3 none).closed.noEnd ∧ ((syncing 3 none).hart 1).waiting.map (fun w => (w.kind, w.reply)) = some (.arrived 0x800000 4, none) ∧
    ((syncing 3 none).barrier 0x800000).arrivals + 1 = ((syncing 3 none).barrier 0x800000).count ∧
    ((syncing 4 none).barrier 0x800000).arrivals + 1 ≠ ((syncing 4 none).barrier 0x800000).count ∧
    (let s := { syncing 3 (some (.value 4)) with cur := 1 }
     s.closed.noEnd ∧ s.noEnd ∧ s.me.waiting = some { instr := .barsync 7 5, kind := .arrived 0x800000 4, reply := some (.value 4) }) ∧
    (let w : Wait := { instr := .barwait 5 6, kind := .long, reply := none }
     let s := (atBarrier 4 3 2 4).modHart 1 fun x => { x with ctx := Ctx.zero.setXreg 5 0x100, waiting := some w }
     (s.hart 1).waiting = some w ∧ (s.barrierKey 1 ((s.hart 1).ctx.xreg 5)).toOption = some 0x800000) ∧
    (let w : Wait := { instr := .barwait 5 6, kind := .long, reply := some (.value 4) }
     let s := (atBarrier 4 3 2 5).modMe fun x => { x with waiting := some w }
     s.noEnd ∧ s.me.waiting = some w) := by
  unfold State.starts State.noEnd
  decide +kernel
/-- Each fault: an id of 48, a count of 0, arrivals at `barinit`, a barrier with no count, and the faults of semaphores. -/
theorem witness_BarrierFaultsNameTheirCondition : (∀ s ∈ [u0, user 48 0 0 0, atBarrier 0 3 0 0, atBarrier 4 3 2 0,
      atBarrier 4 0 0 0, user 15 0 0 0], s.starts ∧ s.closed.noEnd) ∧ bits ((user 48 0 0 0).x 5) 0 6 ≥ 48 ∧
    ((atBarrier 0 3 0 0).x 6).setWidth 16 = (0 : BitVec 16) ∧ ((atBarrier 4 3 2 0).closed.barrier 0x800000).arrivals ≠ 0 ∧
    ((atBarrier 4 0 0 0).closed.barrier 0x800000).count = 0 ∧ (u0.x 5).toNat ≥ 16 ∧ ((user 15 0 0 0).x 5).toNat < 16 ∧
    (user 15 0 0 0).closed.semAmount 6 = 0 ∧ (user 15 0x100000000 0 0).closed.semAmount 6 ≥ 2 ^ 32 ∧
    (let s := { user 15 1 0 0 with pairs := [(0, { Pair.zero with sems := [(15, 0xFFFFFFFF)] })] }
     (s.closed.sem 15).toNat + s.closed.semAmount 6 > 2 ^ 32 - 1) := by
  unfold State.starts State.noEnd
  decide +kernel
/-- Hart 1 of the pair waits in `semp` for an amount, on a count of 2. -/
def semWaiter (a : Word) : State :=
  { (user 15 2 0 0).modHart 1 (fun x => { x with
      ctx := Ctx.zero.setXreg 6 a, waiting := some { instr := .semp 7 5 6, kind := .queued, reply := none } }) with
    pairs := [(0, { Pair.zero with sems := [(15, 2)], semQ := [(15, [1])] })] }
/-- A count that suffices and one that does not, with nobody before and with a waiter that `semv` serves or not. -/
theorem witness_SemaphoresAddAndTake :
    let s := { user 15 2 0 0 with pairs := [(0, { Pair.zero with sems := [(15, 2)] })] }
    s.starts ∧ s.closed.noEnd ∧ (s.x 5).toNat = 15 ∧ (s.x 6).toNat = 2 ∧ s.closed.semQueue 15 = [] ∧ (s.closed.sem 15).toNat = 2 ∧
    (user 15 2 0 0).starts ∧ (user 15 2 0 0).closed.noEnd ∧ ((user 15 2 0 0).closed.sem 15).toNat < 2 ∧
    ((semWaiter 3).starts ∧ (semWaiter 3).closed.noEnd ∧ (semWaiter 3).closed.semQueue 15 = [1] ∧
      (semWaiter 3).closed.sem 15 = 2 ∧ ((semWaiter 3).closed.hart 1).semTake = 3) ∧
    (semWaiter 9).starts ∧ (semWaiter 9).closed.noEnd ∧ (semWaiter 9).closed.semQueue 15 = [1] ∧
      (semWaiter 9).closed.sem 15 = 2 ∧ ((semWaiter 9).closed.hart 1).semTake = 9 := by
  unfold State.starts State.noEnd
  decide +kernel
/-- Mailbox 0 of core 0 (x6 = 0, and x6 = 4 under nb): free, full, and of a sealed core. -/
def mail : Message := { dest := 0, sender := 0, data := 7 }
def mailState (w : Word) (n sealed : Nat) : State :=
  { user 0x2000 w 0 0 with mailboxes := [(0, { msgs := List.replicate n mail, senders := [], receivers := [] })],
                           clusters := [(0, { Cluster.zero with sealedCores := BitVec.ofNat 8 sealed })] }
theorem witness_MessagesReachTheirMailbox : (∀ s ∈ [mailState 0 2 0, mailState 0 8 0, mailState 4 8 0, mailState 0 2 1],
      (s.me.waiting = none ∧ s.me.pfx = none) ∧ s.closed.ending? s.closed.cur = none ∧ destZeros (s.x 6) = true ∧
      s.closed.permits 0 (destChip (s.x 6)) (destCluster (s.x 6)) = true ∧
      (match s.closed.operand64 .load (s.x 5) true with
        | .ok (.ok (u, ls)) => match u.read64 (s.x 5) ls with
          | .ok (v, _) => destChip (s.x 6) == u.chip && v.chip == u.chip && u.former.isEmpty &&
              v.sealed 0 == s.sealed 0 && (v.mailbox 0).msgs.length == (s.mailbox 0).msgs.length && (v.mailbox 0).senders.isEmpty
          | .error _ => false
        | _ => false) = true) ∧
    (mailState 0 2 0).sealed 0 = false ∧ (mailState 0 2 1).sealed 0 = true ∧ ((mailState 0 8 0).mailbox 0).msgs.length = 8 ∧
    destNb ((mailState 4 8 0).x 6) = true ∧ destNb ((mailState 0 8 0).x 6) = false := by decide +kernel
theorem witness_MessagesAreReceivedInOrder :
    (∀ n ∈ [0, 2], let s := { mailState 0x3000 n 0 with harts := (user 0 0x3000 0 0).harts }
      (s.me.waiting = none ∧ s.me.pfx = none) ∧ s.closed.ending? s.closed.cur = none ∧
      (match s.closed.operand64 .store (s.x 6) false with
        | .ok (.ok (u, _)) => (u.mailbox 0).msgs.length == n && (u.mailbox 0).receivers.isEmpty
        | _ => false) = true) ∧
    (mailState 0 2 0).refuses 0 = false ∧ (mailState 0 2 0).sealed 0 = false ∧ ((mailState 0 8 0).mailbox 0).msgs.length ≥ 8 ∧
    ((mailState 0 2 0).mailbox 0).senders = [] ∧ (mailState 0 2 0).arrivedBefore 0 { who := 9, count := 1 } = false ∧
    ((mailState 0 2 0).keepReply 0 { who := 9, count := 1 } (.value 1)).arrivedBefore 0 { who := 9, count := 1 } = true := by
  decide +kernel

/-- Gate 3 with an entry for partition 1 of this chip, and a request of that partition. -/
def entry (tokens : Nat) (policy : Bool) : Access :=
  { chip := 0, part := 1, rights := 3, rate := 1, burst := 4, policy := policy, tokens := tokens, valid := true }
def gate (opened : Bool) (access : List Access) : Gate :=
  { (default : Gate) with present := true, owner := 64, opened := opened, access := access, size := 4096 }
def withGate (g : Gate) (s : State) : State := { s with gates := [(3, g)] }
def gateAsk (op : GateOp) : GateRequest :=
  { handle := 3, chip := 0, part := 1, hart := none, task := 0, mark := { who := 9, count := 1 }, op := op }
/-- One gate for each check, which passes the checks before it. -/
theorem witness_GateChecksComeInOrder : m0.gate? 3 = none ∧
    (withGate { gate true [] with moved := some 77 } m0).gate? 3 = some { gate true [] with moved := some 77 } ∧
    (gate true []).moved = none ∧ (gate true []).allows 0 (gateAsk (.gsig 1)) = false ∧
    (gate false [entry 2 false]).allows 0 (gateAsk (.gsig 1)) = true ∧ administers (gateAsk (.gsig 0)).op = false ∧
    (gate true [entry 2 false]).allows 0 (gateAsk (.gsig 0)) = true ∧
    (gate true [entry 0 true]).bucket 0 (gateAsk (.gsig 1)) = some (entry 0 true) ∧
    (let g := { gate true [entry 2 false] with frozen := true, queue := List.replicate 16 (gateAsk (.gsig 1)) }
     g.allows 0 (gateAsk (.gsig 1)) = true ∧ g.bucket 0 (gateAsk (.gsig 1)) = some (entry 2 false) ∧ 16 ≤ g.queue.length) := by
  decide +kernel
/-- The owner's gate, open, with a counter of 5 that meets a threshold of 3 and not one of 9. -/
def gate5 (w : Word) : State := withGate { gate true [] with counter := 5 } (user 3 w 0 0)
def gate5kept (w : Word) : State := (gate5 w).closeRegion 0 0 0x1000 false
theorem witness_GateWordsActAtTheirHome : (gate5 9).me.waiting = none ∧ (gate5 9).me.pfx = none ∧
    (gate5 9).closed.ending? 0 = none ∧ (gate5kept 9).ending? 0 = none ∧
    (gate5 9).closed.gate? 3 = some { gate true [] with counter := 5 } ∧ (gate5 9).closed.partNum 0 = 64 ∧
    (gate5kept 9).gate? 3 = some { gate true [] with counter := 5 } ∧ (gate5kept 9).partNum 0 = 64 ∧ gateNum 3 = 3 ∧
    gateChip 3 = 0 := by decide +kernel
theorem witness_gate_payloads : isOk ((gate5 0x3000).closed.load 0x3000 64 64) = true ∧
    (match (gate5kept 0x3000).operand64 .store 0x3000 false with | .ok (.ok _) => true | _ => false) = true ∧
    (inMode .s m0).me.mode ≠ Mode.u := by decide +kernel
theorem witness_GateEventsApplyOnce : (withGate (gate true [entry 2 false]) m0).gates.find 3 = some (gate true [entry 2 false]) ∧
    (gate true [entry 2 false]).access[0]? = some (entry 2 false) ∧
    (let m : MarkRec := { mark := { who := 9, count := 1 }, reply := .value 0 }
     ({ m0 with gateMarks := [(9, m)] } : State).gateMarks.find (gateAsk (.gsig 1)).mark.who.toNat = some m ∧
     m.mark = (gateAsk (.gsig 1)).mark) ∧ m0.gateMarks.find 9 = none ∧ m0.gate? (gateAsk (.gsig 1)).handle = none ∧
    (gate true [entry 2 false]).stalled = [] := by
  decide +kernel
/-- A request of another chip at an open gate whose table has its entry, for each operation; and an amount of 0. -/
theorem witness_gate_requests :
    let g := { gate true [{ entry 2 false with chip := 5 }] with counter := 5 }
    let s := withGate g m0
    let ask := fun op => { gateAsk op with chip := 5 }
    s.gateMarks.find 9 = none ∧ s.gate? 3 = some g ∧ g.waiters ++ g.stalled = [] ∧ g.frozen = false ∧
    (∀ op ∈ [GateOp.gsig 1, .gwait 3, .gwait 9, .gpay 7, .gtake], s.gateFault (ask op) = none ∧
      (g.bucket s.chip (ask op)).all (fun a => a.tokens != 0) = true) ∧
    s.gateFault (ask (.gsig 0)) ≠ none ∧ (3 : Word) ≤ g.counter ∧ g.counter < 9 := by decide +kernel

/-! ### Tasks and futures -/

theorem allocFuture_of_free (s : State) (c n : Nat) (r : List Nat) (f : Future) (h : s.freeFuts c = n :: r) :
    (s.allocFuture c f).isSome = true := by
  unfold State.allocFuture State.takeSlot
  rw [h]
  rfl
theorem freeFuts_ne (s : State) (c n : Nat) (hn : n < 4096) (h : (s.futures.get (c * 4096 + n) default).state = 0) :
    ∃ m r, s.freeFuts c = m :: r := by
  have : n ∈ s.freeFuts c := by simp [State.freeFuts, hn, h]
  cases hr : s.freeFuts c with
  | nil => simp [hr] at this
  | cons m r => exact ⟨m, r, rfl⟩
/-- A descriptor of all zeros at 0x2000 passes the checks of R36, one with a reserved byte set does not, and a slot is free. -/
theorem witness_SpawnAndPromiseAllocateTheFuture : u0.starts ∧ u0.closed.noEnd ∧ u0.closed.me.task = some me ∧
    u0.closed.myTask.isSome = true ∧
    (match u0.closed.load (u0.x 5) 128 64 with
      | .ok (u, bs) => descFault (u.partClusters (u.partOf 0)) 0 bs == none && u.taskRoom 0 &&
          u.chooseCluster 0 (descOf bs) == 0
      | .error _ => false) = true ∧
    descFault (u0.partClusters none) 0 (List.replicate 127 0 ++ [1]) = some 0x10 ∧
    (u0.closed.allocFuture 0 (futureFor none 0 0)).isSome = true ∧ m0.starts ∧ m0.closed.noEnd ∧ m0.me.task = none :=
  ⟨u0_starts.1, u0_starts.2, by decide +kernel, by decide +kernel, by decide +kernel, by decide +kernel,
   (by
     obtain ⟨m, r, h⟩ := freeFuts_ne u0.closed 0 0 (by decide) (by decide +kernel)
     exact allocFuture_of_free _ 0 m r (futureFor none 0 0) h), m0_starts.1, m0_starts.2, by decide +kernel⟩

/-- The state in which x5 names the handle of slot 6, whose future is in this state. -/
def withFut (f : Future) : State := { user other 7 0x3000 1 with futures := [(5, runningFuture), (6, f)] }
theorem withFut_starts : (∀ n ∈ [1, 3, 4, 5], ((withFut (promiseIn n 9)).me.waiting = none ∧ (withFut (promiseIn n 9)).me.pfx = none) ∧
    (withFut (promiseIn n 9)).closed.ending? 0 = none) := by decide +kernel
/-- Each check, in states that pass the checks before it: null, a wrong crc, a home that is not permitted, the issuer's own
handle, and a slot that holds no future. -/
theorem witness_HandlesAreCheckedInOrder : (user 0 0 0 0).x 5 = 0 ∧ (user 1 0 0 0).x 5 ≠ 0 ∧ handleSane 1 = false ∧
    (let h := mkHandle 0 1 6 1
     h ≠ 0 ∧ handleSane h = true ∧ u0.permits 0 (handleChip h) (handleCluster h) = false) ∧
    isOk ((user me 0 0 0).closed.checkHandle 0 me) = true ∧ (user me 0 0 0).me.task = some me ∧
    (let s := { user other 0 0 0 with futures := [(5, runningFuture)] }
     isOk (s.closed.checkHandle 0 other) = true ∧ s.me.task ≠ some other ∧ s.closed.isHere other = true ∧
     (s.closed.fut? other).isNone = true ∧ (s.closed.findSpill other).isNone = true) := by decide +kernel
theorem witness_TouchEndsByTheOutcome :
    (∀ n ∈ [1, 3, 4, 5], isOk ((withFut (promiseIn n 9)).closed.checkHandle 0 other) = true ∧
      (withFut (promiseIn n 9)).closed.fut? other = some (promiseIn n 9) ∧ (withFut (promiseIn n 9)).closed.isHere other = true) ∧
    (withFut (promiseIn 1 9)).me.task = some me ∧ me ≠ other ∧
    ((withFut (promiseIn 1 9)).closed.addWaiter other me false 0 ((withFut (promiseIn 1 9)).closed.eprio me)).isSome = true ∧
    (inMode .s (withFut (promiseIn 1 9))).me.mode ≠ Mode.u ∧
    isOk ((withFut (promiseIn 3 9)).checkHandle 0 other) = true := by decide +kernel
/-- `tany` over two entries at 0x3000: a null one and the resolved future. -/
theorem witness_tany_entries : let s := { withFut (promiseIn 3 9) with mem := [] }
    (match ((s.setBytes 0x3008 (leBytes 8 other.toNat)).closed).modMe (fun x => { x with ctx := x.ctx.setXreg 6 2 }) with
      | c => match c.tanyHandles 10 6 with
        | .ok (u, hs) => hs == [0, other] && u.isHere other && (u.entryOutcomes hs [] == [none, some (3, 9, 0)])
        | .error _ => false) = true := by decide +kernel
theorem witness_TerminalFuturesHoldTheirOutcome : (withFut (promiseIn 1 0)).fut? other = some (promiseIn 1 0) ∧ 3 ≤ 4 ∧
    (withFut (promiseIn 4 0)).fut? other = some (promiseIn 4 0) ∧ 3 ≤ (promiseIn 4 0).state ∧ (promiseIn 1 0).once = false ∧
    (withFut (promiseIn 1 0)).waitersOf other = [] := by decide +kernel
/-- Pending, terminal and with a task; a mark seen before, and a request of a chip unknown so far. -/
theorem witness_FuturesEndByTheFirstOperation :
    (promiseIn 1 9).hasTask = false ∧ (promiseIn 1 9).state < 3 ∧ 3 ≤ (promiseIn 5 9).state ∧
    (withFut runningFuture).closed.fut? other = some runningFuture ∧ runningFuture.hasTask = true ∧
    isOk ((withFut runningFuture).closed.checkHandle 0 other) = true ∧
    (let r : HomeRequest := { mark := { who := 9, count := 1 }, handle := other, op := .cancel }
     let m : MarkRec := { mark := r.mark, reply := .value 0 }
     (({ u0 with clusters := [(0, { Cluster.zero with marks := [(9, m)] })] } : State).cluster (u0.homeOf other)).marks.find 9 = some m ∧
     (u0.cluster (u0.homeOf r.handle)).marks.find r.mark.who.toNat = none ∧ u0.refuses (u0.homeOf r.handle) = false ∧
     (u0.cluster (u0.homeOf r.handle)).heldRemote = []) := by
  decide +kernel
theorem witness_ExitAndYieldLeaveTheHart : u0.me.mode = Mode.u ∧ u0.closed.me.task = some me ∧ u0.closed.myTask.isSome = true ∧
    isOk (u0.opFaultAt fun _ => true) = true ∧ isOk (u0.closed.opFaultAt fun _ => true) = true ∧
    (u0.closed.myTask.map fun t => u0.closed.opsDone me t) = some true ∧ m0.me.mode ≠ Mode.u := by decide +kernel

/-! ### Stages and copies -/

/-- Stage 2 of cluster 0, of 4096 bytes at offset 0. -/
def stage (f : Stage → Stage) : Stage := f { newStage 4096 0 with gen := 4 }
def withStage (f : Stage → Stage) (s : State) : State := { s with clusters := [(0, { Cluster.zero with stages := [(2, stage f)] })] }
theorem witness_StagesCountAndHoist :
    (let t := (withStage (fun g => { g with count := 64 }) m0).stage 0 2
     t.count ≠ 128 ∧ t.count = 64 ∧ t.pins = 0) ∧
    (let t := (withStage (fun g => { g with count := 64, pins := 1, due := true }) m0).stage 0 2
     t.count = 64 ∧ t.pins ≠ 0 ∧ t.due = true ∧ t.pins = 1 ∧ t.hoisters = []) ∧
    (let t := (withStage (fun g => { g with pins := 1, hoisters := [0] }) m0).stage 0 2
     t.due = false ∧ t.pins = 1 ∧ t.lifts = 0 ∧ t.hoisters = [0]) ∧
    ((withStage (fun g => { g with pins := 2, due := true }) m0).stage 0 2).pins = 2 ∧
    (let t := (withStage (fun g => { g with armed := true, target := 127, count := 64 }) m0).stage 0 2
     t.defined = true ∧ 4032 + 64 ≤ t.size ∧ t.lifts = 0 ∧ t.armed = true ∧ t.target.toNat < t.count.toNat + 64) ∧
    ((withStage id m0).stage 0 2).armed = false ∧ Memory.wf (withStage id m0).mem = true := by decide +kernel
/-- x5 = 2 names the stage and x6 = 4096 is an extent; the same with x6 a geometry and with nothing defined. -/
theorem witness_StageWordsActOnTheTable :
    (let s := withStage id (user 2 4096 0 0)
     (s.me.waiting = none ∧ s.me.pfx = none) ∧ s.closed.ending? 0 = none ∧ (s.closed.stage 0 2).defined = true ∧ (s.closed.stage 0 2).lifts = 0 ∧
     (s.closed.stage 0 2).armed = false ∧ (s.closed.stage 0 2).prefetch = false ∧ (s.x 6).toNat % 64 = 0 ∧
     (s.x 6).toNat ≤ (s.closed.stage 0 2).size ∧ (s.closed.stage 0 2).count.toNat ≤ (s.x 6).toNat ∧ (s.closed.stage 0 2).pins = 0 ∧
     (s.stage 0 2).gen ≠ (s.x 6).setWidth 16) ∧
    (let s := withStage (fun g => { g with armed := true, pins := 1 }) (user 2 4 0 0)
     s.closed.ending? 0 = none ∧ (s.closed.stage 0 2).armed = true ∧ 0 < (s.closed.stage 0 2).pins ∧
     (s.stage 0 2).gen = (s.x 6).setWidth 16 ∧ s.ending? s.cur = none) ∧
    (let w : Wait := { instr := .hoist 5 6, kind := .queued, reply := some (.value 5) }
     let s := (withStage id (user 2 4 0 0)).modMe fun x => { x with waiting := some w }
     s.ending? s.cur = none ∧ s.me.waiting = some w) ∧
    (let s := user 2 0x100000002000 0 0
     s.closed.ending? 0 = none ∧ badGeometry (s.x 6) = false ∧ bits (s.x 6) 32 32 = 4096 ∧ badGeometry 0 = false ∧ bits (0 : Word) 32 32 = 0 ∧
     s.closed.stageBusy 0 2 = false ∧ s.closed.stwaiter 0 2 = false ∧ ((s.closed.cluster 0).stages.any fun e => e.1 != 2 && e.2.defined &&
          overlaps (bits (s.x 6) 0 22) (2 * bits (s.x 6) 32 32) e.2.base (2 * e.2.size)) = false ∧
     (s.closed.stage 0 2).defined = false ∧ (s.stage 0 2).defined = false) := by decide +kernel

/-- A copy word: this length in units of 64 bytes, offset 0, stage 2. -/
def copyWord (len : Nat) : Word := wordOf (len * 2 ^ 22 + 2)
def copier (a w : Word) : State := withStage id (user a w 0 0)
/-- A word whose checks pass for each kind, one for each check that fails, and a list of one gather entry of 64 bytes. -/
theorem witness_CopiesAreQueuedWithATicket : ((copier 0x4000 (copyWord 4)).me.waiting = none ∧ (copier 0x4000 (copyWord 4)).me.pfx = none) ∧
    (copier 0x4000 (copyWord 4)).closed.ending? 0 = none ∧ badFields .cpyin (copyWord 0) = true ∧
    (∀ k ∈ [CopyKind.cpyin, .cpyout, .cpyx], badFields k (copyWord 4) = false ∧ badWindow k 0x4000 = false ∧
      (copier 0x4000 (copyWord 4)).closed.copyTargets 0 k (copyWord 4) = some (if k = .cpyx then [0] else []) ∧
      (copier 0x4000 (copyWord 4)).closed.copyStageFault 0 k (copyWord 4) 0x4000 256 = none) ∧
    badFields .broadcast (copyWord 4 + 2 ^ 37) = false ∧
    (copier 0x4000 (copyWord 4 + 2 ^ 37)).closed.copyTargets 0 .broadcast (copyWord 4 + 2 ^ 37) = some [0] ∧
    canonicalRange 0x4000 256 = true ∧ (0x4010 : Word).toNat % 64 ≠ 0 ∧
    (copier 0x4000 0).closed.copyTargets 0 .cpyx (copyWord 4 + 2 ^ 45) = none ∧
    (copier 0x4000 0).closed.copyStageFault 0 .cpyin (copyWord 65) 0x4000 4160 = some 0x02 := by decide +kernel
theorem allocSlot_of_free (s : State) (c n : Nat) (r : List Nat) (x : CopySlot) (h : freeSlots (s.cluster c) = n :: r) :
    (s.allocSlot c x).isSome = true := by
  unfold State.allocSlot
  rw [h]
  rfl
theorem witness_free_slot : ((copier 0x4000 (copyWord 4)).closed.allocSlot 0 default).isSome = true := by
  have h : (freeSlots ((copier 0x4000 (copyWord 4)).closed.cluster 0)) ≠ [] := by decide +kernel
  cases hr : freeSlots ((copier 0x4000 (copyWord 4)).closed.cluster 0) with
  | nil => exact absurd hr h
  | cons n r => exact allocSlot_of_free _ 0 n r _ hr
theorem witness_gather_list : badFields .gather (copyWord 1) = false ∧ badWindow .gather 0x4000 = false ∧
    canonicalRange 0x4000 16 = true ∧
    (match ((copier 0x4000 (copyWord 1)).setBytes 0x4000 (leBytes 8 0x8000 ++ leBytes 8 64)).closed.load 0x4000 16 16 with
      | .ok (u, bs) => (match gatherList (gatherEntries 1 bs) with
          | .ok l => l == [(0x8000, 64)] && u.copyStageFault 0 .gather (copyWord 1) 0x4000 64 == none
          | .error _ => false)
      | .error _ => false) = true := by decide +kernel
/-- The ticket of slot 0 with sequence 3, whose command is in this state. -/
def ticketed (n : Nat) : State :=
  { user 0x80000300 0 0 0 with clusters := [(0, { Cluster.zero with slots := [(0, { (default : CopySlot) with seq := 3, state := n })] })] }
theorem witness_TicketsFollowTheirCommand : (∀ n ∈ [1, 2, 3, 4, 5, 6], ((ticketed n).me.waiting = none ∧ (ticketed n).me.pfx = none) ∧
      (ticketed n).closed.ending? 0 = none ∧ (ticketed n).ending? (ticketed n).cur = none ∧ ((ticketed n).slot 0 0).state = n) ∧
    (∀ n ∈ [1, 4, 5], (match (ticketed n).ticket 0x80000300 with | .ok (some 0) => true | _ => false) = true ∧
      (match (ticketed n).closed.ticket 0x80000300 with | .ok (some 0) => true | _ => false) = true ∧
      (match (ticketed n).ticket 0x80000200 with | .ok none => true | _ => false) = true ∧
      (match (ticketed n).closed.ticket 0x80000200 with | .ok none => true | _ => false) = true) ∧
    (0x300 : Word).getLsbD 31 = false ∧ (((ticketed 1).closed.slot 0 0).unfinished) = true := by decide +kernel
/-- A queued command with a free channel, an active one with 64 bytes left and one with more, and one that is not active. -/
def moving (total : Nat) : State :=
  { withStage id m0 with clusters := [(0, { Cluster.zero with
      stages := [(2, stage id)], copyQueue := [1],
      slots := [(0, { (default : CopySlot) with seq := 3, state := 2, total := total, kind := .cpyin, addr := 0x4000, word := copyWord 2, mode := .m })] })] }
theorem witness_CopyEngineMovesBeats : ((moving 64).cluster 0).copyQueue = [1] ∧ ((moving 64).cluster 0).channels.length < 16 ∧
    (moving 64).still 0 = false ∧ (moving 64).halting 0 = false ∧ (∀ n ∈ [64, 128], let x := (moving n).slot 0 0
      x.state = 2 ∧ x.out = false ∧ x.kind ≠ .fetch ∧ x.kind ≠ .gather ∧ x.leaves (moving n).chip = false ∧
      (match (moving n).readBeat 0 x with
        | (u, .ok bs) => (match u.writeBeat 0 x bs with
          | (v, .ok ()) => (v.slot 0 0).state == 2 && (v.slot 0 0).done == 0 && (v.slot 0 0).total == n
          | _ => false)
        | _ => false) = true) ∧ 0 + 64 < 128 ∧ 64 ≤ 0 + 64 ∧ ((moving 64).slot 0 1).state ≠ 2 := by decide +kernel
/-- A beat of another chip at a stage that is armed, at one that is not defined, and at a stopped partition; an answer. -/
theorem witness_beats_of_other_chips :
    (let s := withStage (fun g => { g with armed := true, target := 64 }) m0
     s.refuses 0 = false ∧ isOk (s.arrive 0 2 0 (leBytes 64 7)) = true ∧ isOk (s.arrive 0 3 0 (leBytes 64 7)) = false) ∧
    (let s := { m0 with parts := [(0, { (default : Machine.Part) with present := true, state := 2 })],
                        clusters := [(0, { Cluster.zero with part := some 0 })] }
     s.refuses 0 = true) ∧
    (let s := (moving 128).setSlot 0 0 { (moving 128).slot 0 0 with out := true }
     (s.slot 0 0).out = true ∧ (s.slot 0 0).seq = 3) := by decide +kernel

/-! ### Row words -/

/-- `rowReady` as a test. -/
def rowCheck (s : State) (reads : List TileReg) (d : RowDst) : Bool :=
  let named := (reads ++ d.tile.toList).map fun n => n.toNat
  isOk (s.opFaultOn named) && named.all (fun n => decide (n < s.tileCount)) &&
  !(named.any s.writer || (d.written.any fun n => s.user n.toNat)) &&
  match s.liftSet named (s.mods.k :: d.masks) with
  | .ok T => (match s.prepareRow d T (s.executions T) with
    | .ok u => u.spillFits
    | .error _ => false)
  | .error _ => false
theorem isOk_unit {E : Type} (r : Except E Unit) (h : isOk r = true) : r = .ok () := by
  cases r with
  | ok u => rfl
  | error e => simp [isOk] at h
theorem rowReady_of_check (s : State) (reads : List TileReg) (d : RowDst) (h : rowCheck s reads d = true) :
    ∃ us u, s.rowReady reads d us u := by
  simp only [rowCheck, Bool.and_eq_true, List.all_eq_true, decide_eq_true_eq, Bool.not_eq_true'] at h
  obtain ⟨⟨⟨h1, h2⟩, h3⟩, h4⟩ := h
  split at h4
  · rename_i T hT
    split at h4
    · rename_i u hu
      exact ⟨_, u, isOk_unit _ h1, h2, h3, h4, T, hT, rfl, hu⟩
    · simp at h4
  · simp at h4
def rowCheckOnce (s : State) (reads : List TileReg) (d : RowDst) : Bool :=
  let named := (reads ++ d.tile.toList).map fun n => n.toNat
  isOk (s.opFaultOn named) && named.all (fun n => decide (n < s.tileCount)) &&
  !(named.any s.writer || (d.written.any fun n => s.user n.toNat)) &&
  s.unionTags named (s.mods.k :: d.masks) == 0 &&
  match s.prepareRow d 0 [s.noTuple] with
  | .ok u => u.spillFits
  | .error _ => false
theorem rowReadyOnce_of_check (s : State) (reads : List TileReg) (d : RowDst) (h : rowCheckOnce s reads d = true) :
    ∃ u, s.rowReadyOnce reads d u := by
  simp only [rowCheckOnce, Bool.and_eq_true, List.all_eq_true, decide_eq_true_eq, Bool.not_eq_true', beq_iff_eq] at h
  obtain ⟨⟨⟨⟨h1, h2⟩, h3⟩, h5⟩, h4⟩ := h
  split at h4
  · rename_i u hu
    exact ⟨u, isOk_unit _ h1, h2, h3, h4, h5, hu⟩
  · simp at h4

/-- The task's two tiles with this format tag: 1 is fp32, 10 an 8-bit signed integer, 14 block-scaled. -/
def tagged (f : BitVec 5) (v w a b : Word) : State :=
  { user v w a b with pairs := [(0, { Pair.zero with tiles := [(0, { (default : Tile) with owner := some me, fmt := f }),
      (1, { (default : Tile) with owner := some me, fmt := f })] })] }
theorem witness_RowWordsWriteTheirElements : (∃ us u, (tagged 1 0 0 0 0).rowReady [0, 1] (.rows 1) us u) ∧
    (∃ us u, (tagged 1 0 0 0 0).rowReady [0, 1, 0] (.rows 0) us u) ∧ (∃ us u, (tagged 1 0 0 0 0).rowReady [0] (.rows 1) us u) ∧
    (∃ us u, (tagged 14 0 0 0 0).rowReady [] (.rows 1) us u) ∧ (tagged 1 0 0 0 0).rowTd 1 = 1 ∧
    (∀ f ∈ [1, 10, 14], (tagged f 0 0 0 0).sameTags [1, 0, 1] = true) ∧ ((tagged 1 0 0 0 0).tileLay 1).isFloat = true ∧
    ((tagged 10 0 0 0 0).tileLay 1).isInt = true ∧ ((tagged 14 0 0 0 0).tileLay 1).isBlock = true ∧
    ((tagged 1 0 0 0 0).tileLay 1).f.sign = true ∧ (tagged 1 0 0 0 0).mods.k = 0 ∧ (tagged 1 0 0 0 0).mods.t4 = 0 ∧
    (tagged 1 0 0 0 0).tag 1 = 1 ∧ ((tagged 14 0 0 0 0).tileLay 1).scale.isSome = true ∧ (tagged 1 0 0 0 0).me.waiting = none ∧
    isOk ((tagged 1 0 0 0 0).opFaultOn [0, 2, 1]) = true ∧ (tagged 1 0 0 0 0).tileCount ≤ (2 : TileReg).toNat :=
  ⟨rowReady_of_check _ _ _ (by decide +kernel), rowReady_of_check _ _ _ (by decide +kernel), rowReady_of_check _ _ _ (by decide +kernel),
   rowReady_of_check _ _ _ (by decide +kernel), by decide +kernel⟩
/-- Tile 0 holds 8-bit integers and tile 1 fp32: the tags of `vperm`, and tags that do not fit; `vcvt` to whole blocks. -/
def mixed : State :=
  { user 0 0 0 0 with pairs := [(0, { Pair.zero with tiles := [(0, { (default : Tile) with owner := some me, fmt := 10 }),
      (1, { (default : Tile) with owner := some me, fmt := 1 })] })] }
theorem witness_mixed_tags : mixed.sameTags [1, 0, 1] = false ∧ (mixed.tileLay 0).isInt = true ∧
    (mixed.tileLay 1).count ≤ (mixed.tileLay 0).count ∧ mixed.sameTags [1, 1] = true ∧
    (∃ us u, mixed.rowReady [1, 0] (.rows 1) us u) ∧ (tagged 14 0 0 0 0).tileLay 1 ≠ (tagged 1 0 0 0 0).tileLay 1 ∧
    wholeBlocks 32 (cvtPairs 64 480 0) = true :=
  ⟨by decide +kernel, by decide +kernel, by decide +kernel, by decide +kernel, rowReady_of_check _ _ _ (by decide +kernel),
   by decide +kernel, by decide +kernel⟩
theorem witness_MaskedRowsKeepInactiveElements : (State.reset.lay 1).scale = none ∧ 63 < (State.reset.lay 1).count ∧
    (∀ i : Nat, ((fun j : Nat => (j % 2, 0)) i).1 < 2 ^ (State.reset.lay 1).f.width) := by
  refine ⟨by decide +kernel, by decide +kernel, fun i => ?_⟩
  have h : (State.reset.lay 1).f.width = 32 := by decide +kernel
  rw [h]
  show i % 2 < 2 ^ 32
  omega
theorem witness_RowWordsReadTilesAndMemory :
    (∃ us u, (tagged 1 0x4000 0 0 0).rowReady [0, 1] (.mask 1 0) us u) ∧ (∃ u, (tagged 1 0x4000 0 0 0).rowReadyOnce [0] .nothing u) ∧
    (∃ u, (tagged 1 0x4000 0 0 0).rowReadyOnce [0] (.closing 0) u) ∧ (∃ u, (tagged 1 0x4000 0 0 0).closed.rowReadyOnce [0] (.closing 0) u) ∧
    (∃ us u, (tagged 1 0x4000 0 0 0).rowReady [] (.rows 0) us u) ∧ (∃ us u, (tagged 1 0x4000 0 0 0).rowReady [0] .nothing us u) ∧
    ((tagged 1 0x4000 0 0 0).tileLay 0).isNumber = true ∧ ((tagged 1 0x4000 0 0 0).tileLay 0).count ≤ 256 ∧
    ((tagged 1 0x4000 0 0 0).closed.tileLay 0).f.width = 32 ∧ (tagged 1 0x4000 0 0 0).closed.ending? 0 = none ∧
    isOk ((tagged 1 0x4000 0 0 0).opFaultAt fun f => f.tiles.contains 0) = true ∧
    isOk ((tagged 1 0x4000 0 0 0).load 0x4000 256 64) = true ∧
    (tagged 1 0x4000 0 0 0).rowSum 5 0 ((tagged 1 0x4000 0 0 0).noTuple) = 0x4000 ∧
    (tagged 1 (-1) 0 0 0).rowSum 5 1 ((tagged 1 (-1) 0 0 0).noTuple) ≥ 2 ^ 64 ∧
    isOk ((tagged 1 0x4000 0 0 0).rmw 0x4000 4 fun old => old) = true :=
  ⟨rowReady_of_check _ _ _ (by decide +kernel), rowReadyOnce_of_check _ _ _ (by decide +kernel), rowReadyOnce_of_check _ _ _ (by decide +kernel),
   rowReadyOnce_of_check _ _ _ (by decide +kernel), rowReady_of_check _ _ _ (by decide +kernel), rowReady_of_check _ _ _ (by decide +kernel),
   by decide +kernel⟩
/-- A prefix before `vadd`, at an address that is not the last word of its line, and at that word. -/
theorem witness_prefix_places : ((user 0 0 0 0).setBytes 0x1004 (leBytes 4 0x0190857B)).me.pc.toNat % 64 ≠ 60 ∧
    pfxFits (pfxWith 0) ((user 0 0 0 0).setBytes 0x1004 (leBytes 4 0x0190857B)).nextWord = true ∧
    (0x103C : Word).toNat % 64 = 60 ∧ pfxFits (pfxWith 0) (user 0 0 0 0).nextWord = false := by decide +kernel

/-! ### The tile engine -/

/-- Hart 8, of a compute core, in U mode with the task `me` and its four tiles; mfmt0 has A and B in bf16 or fp16 (entry 2) and the
accumulator in fp32 (entry 1); x12 and x13 are a pad in stage 2, which holds 16384 bytes; x5 = `v`. -/
def engine (v : Word) : State :=
  { State.reset with
    cur := 8,
    harts := [(8, { Hart.zero with
      pc := 0x1000, mode := .u, task := some me,
      ctx := { ((Ctx.zero.setXreg 5 v).setXreg 12 0x2010000000000) with mfmt := Vector.replicate 4 (2 + 2 * 32 + 1024) } })],
    tasks := [(me.toNat, { task with desc := { task.desc with tiles := 4 }, tiles := [0, 1, 2, 3] })], futures := [(5, runningFuture)],
    clusters := [(0, { Cluster.zero with stages := [(2, { newStage 16384 0 with gen := 4 })] })],
    pairs := [(0, { Pair.zero with tiles := (List.range 4).map fun n => (n, { (default : Tile) with owner := some me, fmt := if n < 2 then 2 else 1 }) })] }

/-- `opReady` as a test, for a destination that no operation in progress uses. -/
def opCheck (s : State) (o : Op) : Bool :=
  isOk (s.opFaultOn o.fields) && o.names.all (fun k => decide (k < s.tileCount)) && !s.user o.md.toNat && s.spillFits &&
  match s.checkLift o with
  | .ok T => (match s.prepareTile o.md.toNat T (s.executions T) with
    | .ok v => (match v.shadowTiles o.writes with
      | .ok u => u.spillFits && (s.executions T).length == 1 && !u.mustWait o
      | .error _ => false)
    | .error _ => false)
  | .error _ => false
theorem opReady_of_check (s : State) (o : Op) (hk : o.kind ≠ .mst) (h : opCheck s o = true) :
    ∃ us u, s.opReady o us u ∧ u.placesFor o us := by
  simp only [opCheck, Bool.and_eq_true, List.all_eq_true, decide_eq_true_eq, Bool.not_eq_true'] at h
  obtain ⟨⟨⟨⟨h1, h2⟩, h3⟩, -⟩, h4⟩ := h
  split at h4
  · rename_i T hT
    split at h4
    · rename_i v hv
      split at h4
      · rename_i u hu
        simp only [Bool.and_eq_true, beq_iff_eq, Bool.not_eq_true'] at h4
        refine ⟨s.executions T, u, ⟨isOk_unit _ h1, h2, T, hT, rfl, Or.inr ⟨hk, Or.inr h3, h4.1.1, v, hv, hu⟩⟩, ?_⟩
        intro k hk
        have : k = 0 := by omega
        subst this
        simpa [State.accepted] using h4.2
      · simp at h4
    · simp at h4
  · simp at h4
def ops1 : MtOps := { fslot := 0, stream := 0, fzi := false, fzo := false, a := .tile 0, b := .tile 1, md := 2 }
def opsPad : MtOps := { fslot := 0, stream := 0, fzi := false, fzo := false, a := .tile 0, b := .pad 12, md := 2 }
def o1 : Op := (engine 1).mtOp .mma 0 ops1
theorem witness_TileWordsAreAccepted : ((engine 1).me.waiting = none ∧ (engine 1).me.pfx = none) ∧ isCompute (engine 1).cur = true ∧
    isCompute u0.cur = false ∧ (∃ us u, (engine 1).opReady o1 us u ∧ u.placesFor o1 us) ∧ isOk ((engine 1).checkMt o1) = true ∧
    isOk ((engine 1).checkMt ((engine 1).mtOp .mms 0 opsPad)) = true ∧
    (let o := (engine 1).mtOp .mma 0 { ops1 with a := .tile 7 }
     isOk ((engine 1).opFaultOn o.fields) = true ∧ isOk ((engine 1).checkLift o) = true ∧ (engine 1).tileCount ≤ 7) ∧
    (let o := (engine 1).mtOp .mma 0 { ops1 with md := 1 }
     o.md.toNat ∈ tileNum o.a ++ tileNum o.b) ∧
    (let o := ({ engine 1 with harts := (machine 0 0 0 0).harts } : State).mtOp .mma 0 opsPad
     padBad false o.bPad = false) ∧ padBad false (0x1000000000000000, 0) = true :=
  ⟨by decide +kernel, by decide +kernel, by decide +kernel, opReady_of_check _ _ (by decide +kernel) (by decide +kernel),
   by decide +kernel, by decide +kernel, by decide +kernel, by decide +kernel, by decide +kernel, by decide +kernel⟩
/-- `mld`, `mst`, `mzero`, `mcopy` and `mtrn` on the same state. -/
theorem witness_tile_loads : padBad false ((engine 1).padOf (.pad 12)) = false ∧ (engine 1).padFault ((engine 1).padOf (.pad 12)) 64 1 0 false = none ∧
    (engine 1).idBad (bits ((engine 1).x 5) 0 5) = false ∧ (engine 1).trnBad ((engine 1).pendingTag 1) = false ∧
    256 ≤ padPitch ((engine 1).padOf (.pad 12)) ∧ (engine 1).padFault ((engine 1).padOf (.pad 12)) 64 1 0 true = none ∧
    (∀ k ∈ [OpKind.mld, .mzero, .mcopy, .mtrn], opCheck (engine 1) { (engine 1).baseOp k 0 2 with
      b := .pad 12, bPad := (engine 1).padOf (.pad 12),
      a := (if k = .mcopy ∨ k = .mtrn then .tile 1 else .pad 0), cf := 1 } = true) := by decide +kernel
/-- With one operation in progress, in group 0 of the task, whose open group is 1. -/
def busyEngine (f : Op → Op) : State :=
  { engine 0 with
    tasks := [(me.toNat, { task with desc := { task.desc with tiles := 4 }, tiles := [0, 1, 2, 3], group := 1, openGroups := [0] })],
    pairs := [(0, { Pair.zero with
      ops := [f { o1 with id := 9, total := 64 }],
      tiles := (List.range 4).map fun n => (n, { (default : Tile) with owner := some me, fmt := if n < 2 then 2 else 1 }) })] }
/-- No task, few live groups and 16; a group not closed, one complete and one in progress; a tile that is not written; a format
that passes its checks and one that does not, with translation on and off. -/
theorem witness_GroupsStatusAndFormatsAreKept : m0.me.task = none ∧ m0.myTask.isNone = true ∧ (engine 0).me.task = some me ∧
    ((engine 0).myTask.map fun t => (liveGroups t (engine 0).myOps).length) = some 0 ∧
    ((engine 0).myTask.map fun t => groupAge t 0) = some 0 ∧ ((busyEngine id).myTask.map fun t => groupAge t 0) = some 1 ∧
    isOk ((busyEngine id).opFaultAt fun _ => true) = true ∧ (busyEngine id).ending? 8 = none ∧
    ((busyEngine id).myOps.any fun o => o.group == 0) = true ∧ (engine 0).writer 1 = false ∧ (engine 0).tagsOf 1 = 0 ∧
    isOk ((engine 0).shadowTile 1) = true ∧ satpOn u0.me.sys.satp = false ∧ satpOn 0x8000000000000000 = true ∧
    entryFault (State.reset.look) 3 0 = some 0x07 ∧ entryFault (State.reset.look) 16 ((State.reset.look) 1) = none ∧
    entryFault (State.reset.look) 16 0x1000000000000000 = some 0x01 := by decide +kernel
theorem witness_TileEnginesRunTheirOperations :
    ((busyEngine id).pair 0).ops.find? (fun o => (busyEngine id).canStart 0 o) = some { o1 with id := 9, total := 64 } ∧
    (busyEngine fun o => { o with started := true }).canStart 0 { o1 with id := 9, total := 64, started := true } = false ∧
    (let s := busyEngine fun o => { o with started := true }
     s.op? 0 9 = some { o1 with id := 9, total := 64, started := true } ∧ (computing (s.pair 0).ops).map (fun q => q.id) = some 9 ∧
     (s.pair 0).errTmem = false ∧ ((s.pair 0).errMpad && o1.readsPad 0) = false ∧ (s.cluster 0).gangs = []) ∧
    (let s := busyEngine fun o => { o with started := true, steps := 64 }
     ((s.op? 0 9).map fun o => (o.started, o.computed)) = some (true, true)) ∧
    (let s := busyEngine fun o => { o with started := true, b := .pad 12 }
     ((s.op? 0 9).map fun o => (o.readsPad 0, o.blockDone, o.faults, s.gangOps 0 o == [(0, o)])) = some (true, false, 0, true)) ∧
    ((busyEngine id).tile 0 0).owner = some me ∧ ((busyEngine id).tile 0 9).owner = none ∧
    ((busyEngine id).task? me).isSome = true ∧ (busyEngine id).hartOf me = some 8 := by decide +kernel
/-- The members of a gang of pairs 0 and 1 have arrived: alike, and with different row blocks. -/
def gangState (second : BitVec 18) : State :=
  let op := { o1 with kind := .mmag, gang := 0x403 }
  { engine 0 with pairs := [(0, { Pair.zero with ops := [{ op with id := 9 }] }), (1, { Pair.zero with ops := [{ op with id := 10, gang := second }] })] }
/-- The entry that the operation of pair 0 opens, and the cluster with that entry. -/
def gangEntry : Gang := openGang 1 3 (0, 9)
def met (g : Gang) (second : BitVec 18) : State := (gangState second).modCluster 0 fun k => { k with gangs := [g] }
/-- The first arrival, at a table with room and at a full one; the second, which agrees and is the last, and which disagrees;
a gang that has started, in its row block and at its end. -/
theorem witness_gangs : (∀ j ∈ [0, 1, 2, 3], (m0.unarrived 0 1 j).isNone = true) ∧ ((gangState 0x403).cluster 0).gangs = [] ∧
    ((gangState 0x403).unarrived 0 1 0).map (fun o => (o.id, gangMembers o.gang)) = some (9, 3) ∧
    ((gangState 0x403).cluster 0).drain = none ∧ (List.replicate 8 gangEntry).length = 8 ∧ gangEntry.takes 1 0 12 = false ∧
    ((met gangEntry 0x403).unarrived 0 1 0).isNone = true ∧
    ((met gangEntry 0x403).unarrived 0 1 1).map (fun o => o.id) = some 10 ∧ gangEntry.takes 1 1 3 = true ∧
    gangEntry.started = false ∧ gangRb 0x403 ≠ gangRb 0x483 ∧ { gangEntry with arrivals := [(0, 9), (1, 10)] }.full 0 = true ∧
    { gangEntry with arrivals := [(0, 9)] }.full 0 = false ∧
    (((met gangEntry 0x403).op? 0 9).map fun o => (o.started, decide (o.block = o.lastBlock))) = some (false, true) ∧
    ((((met gangEntry 0x403).modPair 0 fun k => { k with ops := k.ops.map fun o =>
      { o with started := true, gang := 0x483, total := 64, steps := 64 } }).op? 0 9).map fun o =>
        (o.started, o.blockDone, decide (o.block ≠ o.lastBlock))) = some (true, true, true) := by decide +kernel

/-! ### Lift words -/

/-- The task `me` on hart 0 with these open axes, stage 2 as their spill stage; x5 = 0x2000, x6 = `w`. -/
def lifted (n : Nat) (w : Word) : State :=
  let s := withStage (fun g => { g with lifts := n }) (user 0x2000 w 0x4000 0)
  s.modTask me fun t => { t with lift := { Lift.zero with
    axes := List.replicate n { extent := 2, stride := 64, spill := 2, entry := 0x1000 }, active := BitVec.ofNat 256 (2 ^ 2 ^ n - 1) } }
/-- A lift descriptor at 0x4000: stride 64, extent `e`, spill stage 2, no tiles. -/
def describe (e : Nat) (s : State) : State := s.setBytes 0x4000 (leBytes 8 64 ++ [BitVec.ofNat 8 e, 2, 0, 0] ++ leBytes 4 0)
theorem witness_lift_words : (∀ n ∈ [0, 1, 4], ((lifted n 0).me.waiting = none ∧ (lifted n 0).me.pfx = none) ∧ (lifted n 0).inRegion 0 = true) ∧
    m0.inRegion m0.cur = false ∧ ((lifted 4 0).myLift.axes.length = 4) ∧
    (∀ e ∈ [0, 2, 65], (match (describe e (lifted 0 0)).load 0x4000 16 16 with
      | .ok (_, bs) => (liftDesc bs).extent == e
      | .error _ => false) = true) ∧
    (match (describe 2 (lifted 0 0)).load 0x4000 16 16 with
      | .ok (t, bs) => isOk (t.liftChecks 0x2000 (liftDesc bs)) && (maskedTiles (liftDesc bs).mask).isEmpty &&
          (gainAxis (t.openAxis 0x2000 (liftDesc bs)) 1 []).spillFits
      | .error _ => false) = true ∧
    256 < (lifted 3 0).myLift.count (lifted 3 0).myLift.all * 33 := by decide +kernel
theorem witness_LiftWordsKeepTheAxisState :
    (lifted 0 0).myLift.axes = [] ∧ (lifted 1 0).myLift.axes.getLast?.isSome = true ∧ (lifted 1 0).me.task = some me ∧
    (((List.range (lifted 1 0).tileCount).filter fun n => ((lifted 1 0).tagsOf n).getLsbD 0).any (lifted 1 0).user) = false ∧
    ((lifted 1 2).x 6).setWidth 4 &&& (lifted 1 2).myLift.all ≠ (((lifted 1 2).x 6).setWidth 4 : BitVec 4) ∧
    ((lifted 1 1).x 6).setWidth 4 &&& (lifted 1 1).myLift.all = (((lifted 1 1).x 6).setWidth 4 : BitVec 4) ∧
    (((lifted 1 1).shadowImages 17 ((lifted 1 1).myLift.maskTags 1) 1 ((lifted 1 1).myLift.tuples ((lifted 1 1).myLift.maskTags 1))).modLift
      fun l => l.retagMask 1 1).spillFits = true ∧ isOk ((lifted 1 1).opFaultOn [1]) = true ∧ 1 < (lifted 1 1).tileCount ∧
    (lifted 1 1).user 1 = false ∧ isOk ((lifted 1 1).shadowTile 1) = true ∧ (lifted 1 1).myLift.full = true ∧ (lifted 1 1).writer 0 = false := by
  decide +kernel
/-- A branch taken by all, by none, and by some, forward and backward, below the entry and at it. -/
theorem witness_lift_branches : (Lift.zero.takers 0) ≠ 0 ∧ Lift.zero.active &&& ~~~(Lift.zero.takers 0) = 0 ∧ (Lift.zero.takers 1) = 0 ∧
    (let l := { (lifted 1 0).myLift with masks := Vector.replicate 8 { tags := 1, images := [(0, 1)] } }
     l.takers 1 ≠ 0 ∧ l.active &&& ~~~(l.takers 1) ≠ 0 ∧ isOk (l.branch 1 0x1000 0x1040) = true ∧ isOk (l.branch 1 0x1000 0x1000) = true) ∧
    ((lifted 1 0).me.pc + immB (-0x40)).toNat < 0x1000 ∧ 0x1000 ≤ ((lifted 1 0).me.pc + immB 0x40).toNat := by decide +kernel

/-! ### Firmware and events -/

/-- Cluster 0's S-mode supervisor on hart 0, making this firmware call with a0 = `a`. -/
def calls (n : Nat) (a : Word) : State :=
  (inMode .s m0).modMe fun x => { x with ctx := ((x.ctx.setXreg 17 0x00535600).setXreg 16 (wordOf n)).setXreg 10 a }
theorem witness_HartsGoOnAndFirmwareAnswers : (∀ n ∈ [0, 1, 2, 3, 4, 5, 6, 7, 8], (calls n 0).fwNumber = some n) ∧
    m0.fwNumber ≠ some 1 ∧ ((calls 4 1).x a0).toNat % 64 ≠ 0 ∧ ((calls 4 64).x a0).toNat % 64 = 0 ∧
    (match resolve (calls 4 64) ((calls 4 64).view .store) .store 64 64 64 with | .ok _ => true | .error _ => false) = true ∧
    ((calls 4 64).cluster 0).oldestUnread = none ∧
    ({ Cluster.zero with reports := [mkReport m0 0 0 0 0 0], unread := 1 }).oldestUnread.isSome = true ∧
    (calls 5 0).me.task = none ∧ ((calls 5 0).modMe fun x => { x with task := some me }).me.task = some me ∧
    areaOk (calls 1 0) 1 0 = false ∧ (m0.hart 0).waiting = none ∧
    (let s := m0.modMe fun x => { x with waiting := some { instr := .wfi, kind := .long, reply := none } }
     (s.hart 0).waiting.isSome = true ∧ (s.hart 0).stopped = false ∧ (s.hart 0).inService = true ∧
     after (resumeWord .wfi { s with cur := 0 }) (fun _ => true) = true) ∧
    (let s := m0.modMe fun x => { x with
       waiting := some { instr := .wfi, kind := .long, reply := none }, sys := { x.sys with mie := 2, mip := 2 } }
     (s.hart 0).mode = Mode.m ∧ s.mipOf 0 &&& (s.hart 0).sys.mie ≠ 0) ∧ ((calls 2 0).cluster 0).heldRemote = [] ∧
    (u0.taskOf 0).map (fun t => t.region.undrained) = some [] ∧
    (let s := m0.modMe fun x => { x with sys := { x.sys with mie := 0x80, mip := 0x80, mstatus := 8 } }
     (s.interruptFor 0).isSome = true ∧ (s.hart 0).interruptible = true ∧ (s.hart 0).stopped = false ∧ (s.hart 0).inService = true) ∧
    m0.interruptFor 0 = none := by decide +kernel
/-- A task in this state, in cluster 0. -/
def tasked (st : TaskState) : State := { m0 with tasks := [(me.toNat, { task with state := st, tiles := [], pair := none })], futures := [(5, runningFuture)] }
theorem witness_TaskEngineMovesItsTasks :
    (∀ st ∈ [TaskState.flying, .ring, .preparing, .ready, .running, .parked, .stopping],
      ((tasked st).task? me).map (fun t => t.state) = some st ∧ (tasked st).tableUsed 0 < 1024) ∧
    (tasked .ring).ringHeadOf 0 = some me ∧
    ((tasked .preparing).task? me).map (fun t => (t.translated, firstFailure t.prefetch, isOk ((tasked .preparing).prepareRuns me t))) =
      some (false, none, true) ∧
    firstFailure [Prefetch.failed 31 2] ≠ none ∧
    (((tasked .running).runsOn me = false) ∧ u0.runsOn me = true) ∧
    (((tasked .ready).task? me).map fun t => (t.promo, t.ending)) = some (0, none) ∧ (tasked .ready).still 0 = false ∧
    (tasked .preparing).halting 0 = false ∧ (tasked .preparing).ringFull ringTerminal 0 = false := by decide +kernel
/-- A stage argument whose stage is undefined, too small, busy with another copy, over-full, and free. -/
theorem witness_prefetch_arms :
    (let g := (withStage id m0).stage 0 2
     (m0.stage 0 2).defined = false ∧ g.defined = true ∧ g.size < 8192 ∧ 4096 ≤ g.size ∧ (0x4000 : Word).toNat ≠ 0x7F4000000000 + 2 * 2 ^ 20 ∧
     (0x7F4000200000 : Word).toNat = 0x7F4000000000 + 2 * 2 ^ 20 ∧
     (g.armed || g.prefetch || decide (g.lifts > 0) || (withStage id m0).prefetchBefore 0 2 1 0) = false ∧ ¬ 4096 < g.count.toNat) ∧
    4032 < ((withStage (fun g => { g with count := 4096 }) m0).stage 0 2).count.toNat := by decide +kernel
/-- A free hart with a ready task, and a hart that is not free. -/
def dispatchable : State := { inMode .u m0 with tasks := [(me.toNat, { task with desc := { task.desc with tiles := 0 }, state := .ready, tiles := [], pair := none })] }
theorem witness_dispatch : dispatchable.hartFree 0 = true ∧ (dispatchable.candidate 0).map (fun e => e.2.1) = some me.toNat ∧
    (dispatchable.task? me).map (fun t => dispatchable.bestHart me t) = some (some 0) ∧ m0.hartFree 0 = false := by decide +kernel

/-! ### Launches, reports and the package -/

def queue8 (next tail : Nat) : Queue :=
  { deleted := false, fn := 0, pasid := 1, number := 0, base := 0x10000, log2 := 4, prio := 1, vector := 0, next := next, tail := tail, node := none,
    born := 0 }
def launchIn (st : LaunchState) : Launch := { (default : Launch) with pasid := 1, state := st, slot := 1 }
/-- Queue 1 of function 0, a launch under number 7, and partition 0 in service. -/
def front (q : Queue) (l : Launch) : State :=
  { m0 with queues := [(1, q)], launches := [(7, l)], parts := [(0, { (default : Machine.Part) with present := true })], serial := 20 }
theorem witness_LaunchesReportsAndUnitsGoOn : m0.queueAt 0 1 = none ∧ (front (queue8 0 0) (launchIn .waiting)).queueAt 0 1 = some (queue8 0 0) ∧
    (queue8 2 2).tail ≤ (queue8 2 2).next ∧ (queue8 2 3).deleted = false ∧ (queue8 2 3).next < (queue8 2 3).tail ∧
    ((front (queue8 2 3) (launchIn .waiting)).activeOf 0).length < 64 ∧ isNode [0x01, 0x80] = true ∧ isNode [0x01, 0x00] = false ∧
    (front (queue8 0 0) (launchIn .waiting)).unblocked (launchIn .waiting) = true ∧
    (front (queue8 0 0) (launchIn .running)).unblocked (launchIn .running) = false ∧
    (front (queue8 0 0) (launchIn .waiting)).outranked (launchIn .waiting) = false ∧
    (front (queue8 0 0) (launchIn .waiting)).prereqTainted (launchIn .waiting) = false ∧ (launchIn .waiting).predicate = none ∧
    (launchIn .running).heldOn = none ∧ (launchIn .running).rootsLive = 0 ∧
    (front (queue8 0 0) (launchIn .running)).partStill 0 = false ∧
    ((front (queue8 0 0) (launchIn .running)).launchTasks 7).isEmpty = true := by decide +kernel
/-- 64 launches of a function, all blocked by a partition that is out of service. -/
theorem witness_stall : let s := { m0 with launches := (List.range 64).map fun k => (k, launchIn .held) }
    (s.activeOf 0).length = 64 ∧ ((s.activeOf 0).all fun e => e.2.state == .held && !s.unblocked e.2) = true := by decide +kernel
theorem witness_rings : (m0.ring 3).held = [] ∧ (m0.ring 3).posted = [] ∧
    (let x : Ring := { m0.ring 3 with held := [mkReport m0 0 0 0 0 0] }
     x.held.isEmpty = false ∧ x.posted.length = 0 ∧ x.used < x.weight) ∧
    (([{ mkReport m0 0 0 0 0 0 with seq := 4 }] : List Report).find? fun z => z.seq == 4).isSome = true ∧
    m0.halting 0 = false ∧
    (let s := { m0 with parts := [(0, { (default : Machine.Part) with present := true, state := 1, stopStep := 1, command := 1 })],
                        clusters := [(0, { Cluster.zero with part := some 0 })] }
     s.halting 0 = true ∧ s.partOf 0 = some 0) := by decide +kernel
/-- Each phase of the windrow, with a core that is lost and one that is not. -/
theorem witness_windrow : (m0.cluster 0).drain = none ∧ (m0.nextDrain 0) = some 0 ∧
    (∀ ph ∈ [0, 1], (({ m0 with clusters := [(0, { Cluster.zero with drain := some (2, ph) })] } : State).cluster 0).drain = some (2, ph)) ∧
    m0.scanReady 2 = true ∧ (busyEngine fun o => { o with started := true }).scanReady 0 = false ∧
    (m0.cluster 0).lostCores.getLsbD 0 = false ∧ m0.stoppingPart 0 = none ∧
    ({ Cluster.zero with lostCores := 1 }).lostCores.getLsbD 0 = true := by decide +kernel
theorem witness_links :
    m0.ports.getLsbD 3 = false ∧ ({ m0 with ports := 8 } : State).ports.getLsbD 3 = true ∧
    (let s := { m0.modMe (fun x => { x with waiting := some { instr := .frel 5, kind := .sent [me], reply := none } }) with
        outgoing := [{ mark := m0.markOf 0, hart := 0, task := 0, timeout := .trap 51 5 0 }] }
     (s.outgoing.find? fun o => o.mark == s.markOf 0).isSome = true) ∧ (m0.hart 0).waiting = none ∧ (2 : BitVec 2) ≠ 3 := by decide +kernel

/-- Partition 0 with one cluster, in this state, with this step of a stop and this command. -/
def parted (st step cmd : Nat) : State :=
  { m0 with parts := [(0, { (default : Machine.Part) with present := true, state := st, stopStep := step, command := cmd, kind := 1, clusters := 1 })],
            clusters := [(0, { Cluster.zero with part := some 0 })] }
theorem witness_ContextCommandsStopSaveRestoreAndScrub :
    ((parted 1 2 1).parts.get 0 default).busy = true ∧ ((parted 0 0 0).parts.get 0 default).busy = false ∧
    (∀ n ∈ [0, 1, 2, 3, 4, 5, 6, 7], ((parted n 0 0).parts.get 0 default).state = n ∧ ((parted n 0 0).parts.get 0 default).present = true) ∧
    (m0.parts.get 0 default).present = false ∧ m0.parts.find 0 = none ∧
    ({ parted 0 0 0 with tasks := [(me.toNat, task)] } : State).liveTask 0 ((parted 0 0 0).parts.get 0 default) = true ∧
    (parted 0 0 0).liveTask 0 ((parted 0 0 0).parts.get 0 default) = false ∧
    ((parted 1 3 1).parts.find 0).map (fun x => x.stopStep) = some 3 ∧ (((parted 1 3 1).pairsOf 0).all fun q => ((parted 1 3 1).pair q).ops.isEmpty) = true ∧
    (parted 1 4 1).inFlight 0 = false ∧ ({ parted 1 4 1 with tasks := [(me.toNat, task)], pending := [.taskIntake me] } : State).inFlight 0 = true ∧
    ((default : Machine.Part).scrubProg.getLsbD 62 = false) ∧ (0x4000000000000000 : Word).getLsbD 62 = true ∧
    m0.gates.find 3 = none ∧ (withGate (gate true []) m0).gates.find 3 = some (gate true []) ∧ (gate true []).moved = none ∧
    ({ gate true [] with moved := some 9 }).moved ≠ none ∧
    (let x := (parted 6 0 7).parts.get 0 default
     x.state = 6 ∧ x.command = 7 ∧ x.busy = true ∧ (parted 6 0 7).pending.contains (.ctxRestore 0) = false) ∧
    ((parted 1 3 1).pending.any (engineWork ((parted 1 3 1).pairsOf 0))) = false ∧ engineWork [0] (.tileOpStart 0) = true ∧
    ((parted 1 3 1).cluster 0).slots = [] ∧ (busyEngine id).pairWorks 0 = true ∧ ((gangState 0x403).pairWorks 0) = false ∧
    (∀ n ∈ [1, 2, 3, 4, 5, 6, 7], let w := setBits (setBits (0 : Word) 59 4 (8 + n)) 0 48 0
      w.getLsbD 62 = true ∧ bits w 59 3 = n ∧ bits w 0 48 = 0 ∧ bits (setBits w 0 48 5) 0 48 ≠ 0) ∧
    (default : Machine.Part).acks = [] := by decide +kernel
/-- A host command with these arguments. -/
def asked (l : List Word) (s : State) : State := { s with hargs := Vector.ofFn fun i : Fin 8 => l.getD i.val 0 }
theorem witness_HostCommandsActAndAnswer :
    (64 ≤ (asked [64] m0).harg 0) ∧ (¬ (64 ≤ (asked [1, 2, 0x1000, 3] m0).harg 0 ∨ 64 ≤ (asked [1, 2, 0x1000, 3] m0).harg 1 ∨
      (asked [1, 2, 0x1000, 3] m0).harg 2 % 4096 ≠ 0 ∨ 512 ≤ (asked [1, 2, 0x1000, 3] m0).harg 3)) ∧ (m0.parts.get 1 default).present = false ∧
    ((parted 0 0 0).parts.find 0).isSome = true ∧ (asked [0, 3] m0).clusterFree 0 1 = true ∧ (parted 0 0 0).clusterFree 1 0 = false ∧
    (withGate (gate true []) (asked [3] m0)).gates.find 3 = some (gate true []) ∧ m0.gates.find 0 = none ∧ m0.freeGateNum 5 = some 5 ∧
    (withGate (gate true []) m0).freeGateNum 3 = none ∧ m0.heldLaunch = none ∧
    (asked [0, 1, 0] (front (queue8 0 0) { launchIn .held with seq := 0 })).heldLaunch.isSome = true ∧
    m0.ready.getLsbD 63 = false ∧ ({ m0 with ready := 0x8000000000000000 } : State).ready.getLsbD 63 = true ∧
    (front { queue8 0 0 with pasid := 1, number := 0 } (launchIn .held)).queues.find 1 = some (queue8 0 0) ∧
    findQueue (front (queue8 0 0) (launchIn .held)) 0 1 0 (probes 1 0) = some 1 ∧ findQueue m0 0 1 0 (probes 1 0) = none ∧
    bits m0.ready 62 2 = 0 ∧ bits (0x8000000000000000 : Word) 62 2 ≠ 0 ∧ m0.hbusy = false ∧
    ({ m0 with hstat := 0x8000000000000004 } : State).hbusy = true ∧ ((default : Machine.Part).scrubProg.getLsbD 62) = false := by decide +kernel
/-- Each way a slot goes: an event first, an interrupt, a wait, a dispatch, a word that decodes and one that does not, and a
package that stands still. -/
theorem witness_StepRunsTheDecodedInstruction : m0.halted = false ∧ m0.turns = [] ∧ m0.me.midPair = false ∧ m0.pending = [] ∧
    m0.me.stopped = false ∧ m0.me.inService = true ∧ m0.clockTick.haltAt m0.cur = none ∧ m0.me.waiting = none ∧
    m0.clockTick.clock % 2 = 1 ∧ ({ m0 with clock := 1 } : State).clockTick.clock % 2 = 0 ∧
    (m0.me.interruptible = true ∧ m0.clockTick.interruptFor m0.cur = none) ∧
    (let s := m0.modMe fun x => { x with sys := { x.sys with mie := 0x80, mip := 0x80, mstatus := 8 } }
     s.me.interruptible = true ∧ (s.clockTick.interruptFor s.cur).isSome = true) ∧
    (inMode .u m0).me.mode = Mode.u ∧ (inMode .u m0).me.task = none ∧
    (match (State.reset.withFetchWord 32 0x00108093).clockTick.popStack.fetchWord with
      | .ok (u, w, a) => w == 0x00108093 && a == 0 && !u.me.jumped && isOk (decodeWord w)
      | .error _ => false) = true ∧ isOk (decodeWord 0) = false ∧
    ({ m0 with halted := true, pending := [.deviceReset] } : State).pending.contains .deviceReset = true := by decide +kernel
/-- A word with operands in every field, and the bytes after it. -/
theorem witness_EncodedInstructionsDecode : (Instr.vfma 1 2 3 10).wf = true ∧ (encode (.vfma 1 2 3 10)).isSome = true := by decide +kernel
theorem witness_EveryStepKeepsMemoryCanonical : Memory.wf (State.reset.withFetchWord 32 0x00108093).mem = true ∧
    after (step (State.reset.withFetchWord 32 0x00108093)) (fun t => (t.hart 0).ctx.x[1] == 1 && (t.hart 0).pc == 4) = true := by decide +kernel

/-! ## One step of an instruction; the values expected are worked out by hand from the rules cited -/

/-- x[r] after the step. -/
def gives (o : Host.Outcome State Fault Refusal) (r : Reg) (v : Word) : Bool := after o fun t => t.x r == v && t.me.pc == 0x1004
/-- The cause register, value and pc of a trap taken in M mode. -/
def trapsTo (o : Host.Outcome State Fault Refusal) (cause tval : Word) : Bool :=
  after o fun t => t.me.mode == .m && t.me.sys.mcause == cause && t.me.sys.mtval == tval && t.me.pc == 0 && t.me.sys.mepc == 0x1000

/-- R105: the sum wraps; x0 discards; the high product; the quotient that overflows; a 32-bit shift of the sign. -/
theorem test_add_wraps : gives (exec (.integerOp (.alu .add 7 5 6)) (machine (-1) 2 0 0)) 7 1 = true ∧
    gives (exec (.integerOp (.alu .add 0 5 6)) (machine (-1) 2 0 0)) 0 0 = true := by decide +kernel
theorem test_mulh_div : gives (exec (.integerOp (.alu .mulh 7 5 6)) (machine (-1) 2 0 0)) 7 (-1) = true ∧
    gives (exec (.integerOp (.alu .div 7 5 6)) (machine 0x8000000000000000 (-1) 0 0)) 7 0x8000000000000000 = true := by decide +kernel
theorem test_sraw_addiw : gives (exec (.integerOp (.aluW .sraw 7 5 6)) (machine 0x80000000 36 0 0)) 7 0xFFFFFFFFF8000000 = true ∧
    gives (exec (.integerOp (.addiw 7 5 1)) (machine 0x7FFFFFFF 0 0 0)) 7 0xFFFFFFFF80000000 = true := by decide +kernel
theorem test_jalr_clears_bit_0 : after (exec (.integerOp (.jalr 5 5 1)) (machine 0x2000 0 0 0))
    (fun t => t.x 5 == 0x1004 && t.me.pc == 0x2000) = true := by decide +kernel
/-- 1.5 + 2.25 in double precision. -/
theorem test_fadd : after (exec (.integerOp (.fArith .add true 3 1 2 0))
    (mFp.modMe fun x => { x with ctx := { x.ctx with f := (x.ctx.f.set 1 0x3FF8000000000000).set 2 0x4002000000000000 } }))
    (fun t => t.f 3 == 0x400E000000000000 && t.me.ctx.fcsr == 0) = true := by decide +kernel
/-- 1 / 3 is inexact; 1 / 0 divides by zero. -/
theorem test_fdiv : after (exec (.fdivFsqrt (.fdiv true 3 1 2 0))
    (mFp.modMe fun x => { x with ctx := { x.ctx with f := (x.ctx.f.set 1 0x3FF0000000000000).set 2 0x4008000000000000 } }))
    (fun t => t.f 3 == 0x3FD5555555555555 && t.me.ctx.fcsr == 1) = true ∧
    after (exec (.fdivFsqrt (.fdiv true 3 1 2 0)) (mFp.modMe fun x => { x with ctx := { x.ctx with f := x.ctx.f.set 1 0x3FF0000000000000 } }))
    (fun t => t.f 3 == 0x7FF0000000000000 && t.me.ctx.fcsr == 8) = true := by decide +kernel
/-- R105: little-endian; a signed byte. -/
theorem test_sd_then_lb : after (exec (.baseStore .sd 5 6 0) (machine 0x2000 0x8877665544332211 0 0))
    (fun t => t.byte 0x2000 == 0x11 && t.byte 0x2007 == 0x88 && gives (exec (.baseLoad .lb 7 5 7) { t with harts := (machine 0x2000 0 0 0).harts }) 7 (-0x78)) = true := by
  decide +kernel
theorem test_misaligned_load : trapsTo (exec (.baseLoad .lw 7 5 1) (machine 0x2000 0 0 0)) 4 0x2001 = true := by decide +kernel
theorem test_amoadd_w : after (exec (.amo .add false false false 7 5 6) ((machine 0x2000 1 0 0).setBytes 0x2000 [0xFF, 0xFF, 0xFF, 0x7F]))
    (fun t => t.x 7 == 0x7FFFFFFF && t.bytes 0x2000 4 == [0, 0, 0, 0x80]) = true := by decide +kernel
/-- R403: without a reservation nothing is stored; with one the store succeeds. -/
theorem test_sc : after (exec (.sc true false false 7 5 6) m0) (fun t => t.x 7 == 1 && t.mem == []) = true ∧
    after (exec (.sc true false false 7 5 6) reserved) (fun t => t.x 7 == 0 && t.byte 0x2000 == 3 && t.me.resv == none) = true := by decide +kernel
theorem test_ecall_from_m : trapsTo (exec .ecall m0) 11 0 = true := by decide +kernel
theorem test_ebreak : trapsTo (exec .ebreak m0) 3 0x1000 = true := by decide +kernel
theorem test_illegal_word : trapsTo (exec (.illegalInstruction 0xFFFFFFFF) m0) 2 0xFFFFFFFF = true := by decide +kernel
theorem test_mret : after (exec .mret ((withStatus 0x80 m0).modMe fun x => { x with sys := { x.sys with mepc := 0x4000 } }))
    (fun t => t.me.mode == .u && t.me.pc == 0x4000 && bits t.me.sys.mstatus 3 1 == 1) = true := by decide +kernel
theorem test_sret_in_u : trapsTo (exec .sret (inMode .u m0)) 2 0x10200073 = true := by decide +kernel
/-- R103: `vrm` keeps its value when an illegal one is written; R75: `stcol` keeps three bits. -/
theorem test_vrm_write : after (exec (.vrmWrite csrWrites) (machine 0 5 0 0)) (fun t => t.me.ctx.vrm == 0) = true ∧
    after (exec (.stcolWrite csrWrites) (machine 0 0xFF 0 0)) (fun t => t.me.ctx.stcol == 7) = true := by decide +kernel
theorem test_mgang_write : after (exec (.mgangWrite csrWrites) (machine 0 (-1) 0 0)) (fun t => t.me.ctx.mgang == 0x3FF8F) = true := by decide +kernel
/-- R131: eight bits from bit 8, signed; inserted at bit 4. -/
theorem test_bfx : gives (exec (.bfx 7 5 6) (machine 0x80F0 0x8808 0 0)) 7 0xFFFFFFFFFFFFFF80 = true := by decide +kernel
theorem test_bfi : gives (exec (.bfi 10 5 6) (machine 0xFFF 0x804 0xF00F 0)) 10 0xFFFF = true := by decide +kernel
/-- R135: an unsigned maximum; R136: the compare fails. -/
theorem test_samo_maxu : after (exec (.samo .maxu 0 7 5 6) ((machine 0x2000 3 0 0).setBytes 0x2000 [9]))
    (fun t => t.x 7 == 9 && t.byte 0x2000 == 9) = true := by decide +kernel
theorem test_scas_fails : after (exec (.scas 0 10 5 6) ((machine 0x2000 3 8 0).setBytes 0x2000 [9]))
    (fun t => t.x 10 == 9 && t.byte 0x2000 == 9) = true := by decide +kernel
/-- R140: the last of three arrivals completes the phase and answers the old one. -/
theorem test_barsync_completes : after (exec (.barsync 7 5) (atBarrier 0 3 2 6))
    (fun t => t.x 7 == 6 && t.barrier 0x800000 == { count := 3, arrivals := 0, phase := 7 }) = true := by decide +kernel
theorem test_barwait_waits : after (exec (.barwait 5 6) (atBarrier 6 3 2 6)) (fun t => t.me.pc == 0x1000 && t.me.waiting.isSome) = true := by decide +kernel
/-- R145: the head waiter takes its 3 of 4 in the step of the `semv`, and an amount of 9 goes on waiting. -/
theorem test_semv_serves : after (exec (.semv 5 6) (semWaiter 3))
      (fun t => t.sem 15 == 1 && t.semQueue 15 == [] && (t.hart 1).waiting.any fun w => w.reply == some (.value 1)) = true ∧
    after (exec (.semv 5 6) (semWaiter 9)) (fun t => t.sem 15 == 4 && t.semQueue 15 == [1]) = true := by decide +kernel
/-- R141: the arrival that completes the phase releases the `barsync` of hart 1, which an interrupt no longer reaches. -/
theorem test_barrive_releases : after (exec (.barrive 7 5) (syncing 3 none))
    (fun t => !(t.hart 1).interruptible && t.barrier 0x800000 == { count := 3, arrivals := 0, phase := 5 }) = true := by decide +kernel
theorem test_semp_takes : after (exec (.semp 7 5 6) { machine 15 2 0 0 with pairs := [(0, { Pair.zero with sems := [(15, 5)] })] })
    (fun t => t.x 7 == 3 && t.sem 15 == 3) = true := by decide +kernel
/-- R332: a full mailbox under nb answers 0; a free slot answers 1. -/
theorem test_msnd : after (exec (.msnd 7 5 6) (mailState 4 8 0)) (fun t => t.x 7 == 0 && (t.mailbox 0).msgs.length == 8) = true ∧
    after (exec (.msnd 7 5 6) (mailState 0 2 0)) (fun t => t.x 7 == 1 && (t.mailbox 0).msgs.length == 3) = true := by decide +kernel
theorem test_mrcv : after (exec (.mrcv 7 5 6) { mailState 0x3000 2 0 with harts := (user 0 0x3000 0 0).harts })
    (fun t => t.byte 0x3000 == 7 && (t.mailbox 0).msgs.length == 1) = true := by decide +kernel
/-- R340: the counter saturates; an amount of 0 traps, 30, 0x08. -/
theorem test_gsig : after (exec (.gsig 7 5 6) (withGate { gate true [] with counter := -2 } (machine 3 5 0 0)))
    (fun t => t.x 7 == -1) = true ∧ trapsTo (exec (.gsig 7 5 6) (withGate (gate true []) (machine 3 0 0 0))) 0x81E 3 = true := by decide +kernel
/-- R177: a resolved future, a cancelled one, and a pending one, at which the task parks. -/
theorem test_touch : after (exec (.touch 7 5) (withFut (promiseIn 3 9))) (fun t => t.x 7 == 9) = true ∧
    after (exec (.touch 7 5) (withFut (promiseIn 1 0))) (fun t => t.me.task == none) = true := by decide +kernel
theorem test_touch_cancelled : trapsTo (exec (.touch 7 5) (withFut (promiseIn 4 0))) 0x118 0 = true := by decide +kernel
theorem test_resolve : after (exec (.resolve 7 5 6) (withFut (promiseIn 1 0)))
    (fun t => t.x 7 == 1 && (t.fut? other).map (fun f => (f.state, f.value)) == some (3, 7)) = true := by decide +kernel
theorem test_cancel_terminal : after (exec (.cancel 7 5) (withFut (promiseIn 3 9))) (fun t => t.x 7 == 0) = true := by decide +kernel
theorem test_frel : after (exec (.frel 5) (withFut (promiseIn 3 9))) (fun t => t.fut? other == none) = true := by decide +kernel
theorem test_texit : after (exec (.texit 6) u0) (fun t => t.me.task == none && (t.fut? me).map (fun f => (f.state, f.value)) == some (3, 3)) = true := by
  decide +kernel
/-- R207, R193: 4096 bytes are awaited and none have come; R211: a hoist with no pin. -/
theorem test_starm : after (exec (.starm 7 5 6) (withStage id (user 2 4096 0 0))) (fun t => t.x 7 == 4 && (t.stage 0 2).armed) = true := by decide +kernel
theorem test_hoist : after (exec (.hoist 7 5) (withStage id (user 2 0 0 0))) (fun t => t.x 7 == 5 && (t.stage 0 2).cur) = true := by decide +kernel
theorem test_stwait_undefined : trapsTo (exec (.stwait 7 5 6) (machine 2 0 0 0)) 0x11F 2 = true := by decide +kernel
theorem test_last_beat : after (exec (.copyBeatWrite 0 (.own 0)) (moving 64))
    (fun t => (t.stage 0 2).count == 64 && (t.slot 0 0).state == 4) = true := by decide +kernel
/-- Row 0 of tile 0 is 1.0, 2.0 in its first elements of fp32, and of tile 1 is 0.5, 0.25. -/
def floats : State :=
  { user 0 0 0 0 with pairs := [(0, { Pair.zero with
      tiles := [(0, { (default : Tile) with owner := some me, fmt := 1, rows := [(0, 0x400000003F800000)] }),
        (1, { (default : Tile) with owner := some me, fmt := 1, rows := [(0, 0x3E8000003F000000)] })] })] }
/-- The first two elements of row 0 of tile 1. -/
def pairOut (o : Host.Outcome State Fault Refusal) (v : Nat) : Bool := after o fun t => t.row 1 [] 0 % 2 ^ 64 == v
theorem test_vadd : pairOut (exec (.vadd 1 0 1 10) floats) 0x401000003FC00000 = true := by decide +kernel
theorem test_vmul : pairOut (exec (.vmul 1 0 1 10) floats) 0x3F0000003F000000 = true := by decide +kernel
theorem test_vneg : pairOut (exec (.vneg 1 0 10) floats) 0xC0000000BF800000 = true := by decide +kernel
theorem test_vmax : pairOut (exec (.vmax 1 0 1 10) floats) 0x400000003F800000 = true := by decide +kernel
theorem test_vext : gives (exec (.vext 7 0 10) { floats with harts := (user 0 0 0x100 0).harts }) 7 0x40000000 = true := by decide +kernel
theorem test_tile_number : after (exec (.vadd 1 0 2 10) floats) (fun t => t.me.sys.mcause == 0x11C && t.me.sys.mtval == 0x0100857B) = true := by
  decide +kernel
/-- R226, R268: `mzero` joins its stream and is not done yet. -/
theorem test_mzero_accepted : after (exec (.mzero 2 5) (engine 1)) (fun t => (t.pair 0).ops.length == 1 && t.me.pc == 0x1004) = true := by decide +kernel
theorem test_mt_on_stager : trapsTo (exec (.mma ops1) u0) 0x31 ((encode (.mma ops1)).getD 0 |>.setWidth 64) = true := by decide +kernel
theorem test_mcommit_no_task : gives (exec (.mcommit 7) m0) 7 0 = true := by decide +kernel
/-- R302: a fifth axis; R315: the axis state of one axis of extent 2, all active. -/
theorem test_lift_fifth_axis : after (exec (.lift 1 5 10) (lifted 4 0)) (fun t => t.me.sys.mcause == 0x11D) = true := by decide +kernel
theorem test_laxis : gives (exec (.laxis 7 6) (lifted 1 0)) 7 0x102 = true := by decide +kernel
/-- R159: call 5 without a task, and a number that no call has. -/
theorem test_fw_calls : after (exec .ecall (calls 5 0)) (fun t => t.x 10 == 1 && t.me.pc == 0x1004) = true ∧
    after (exec .ecall (calls 9 0)) (fun t => t.x 10 == -1) = true := by decide +kernel
/-- R373: a power profile; R392: a host argument; R398: bring-up that failed in step 2. -/
theorem test_profile : after (exec (.profilePower 2) State.reset) (fun t => t.profile == 6) = true := by decide +kernel
theorem test_harg : after (exec (.registerWrite (.harg 3) 9) State.reset) (fun t => t.hargs[3] == 9) = true := by decide +kernel
theorem test_unknown_hcmd : after (exec (.hcmdUnknown 0x99) State.reset) (fun t => t.hstat == 0x0199) = true := by decide +kernel
/-- R397: a package that stands still. -/
theorem test_stopped_package : (match step { State.reset with halted := true } with
    | .fault .packageStopped => true
    | _ => false) = true := by decide +kernel

end Sys2Proof.Tests
end

section
/-! PROOFS. The Zicsr words (R6, R102): the checks of an access, its effect after them, and what each word does by it. -/

namespace Sys2Proof.Machine

/-! ### Reading a control register -/

/-- The register that the tables of R102 list under a number, as its value, or none. -/
def State.csrFound (s : State) (n : Nat) : Option Word := if csrLevel n = 3 then s.csrHigh n else s.csrLow n

/-- Whether a read is refused before the tables are searched: by the mode (R6), by FS (R402), or, for `satp`, by TVM
(log 57). -/
def State.csrBarred (s : State) (n : Nat) : Prop :=
  s.me.mode.code < csrLevel n ∨ (n = 0x001 ∨ n = 0x002 ∨ n = 0x003) ∧ fsOf s.me.sys.mstatus = 0 ∨
    n = 0x180 ∧ s.me.mode = .s ∧ bits s.me.sys.mstatus 20 1 = 1

theorem State.csrRead_barred {s : State} {n : Nat} (h : s.csrBarred n) : s.csrRead n = .error .illegal := by
  unfold State.csrRead
  by_cases level : s.me.mode.code < csrLevel n
  · rw [if_pos level]; rfl
  rcases h.resolve_left level with ⟨fp, off⟩ | tvm
  · simp only [level, fp, s.needFs_off off, if_true, if_false]; rfl
  · have fp : ¬(n = 0x001 ∨ n = 0x002 ∨ n = 0x003) := by omega
    rw [if_neg level]
    dsimp only
    rw [if_neg fp, if_pos tvm]
    rfl

theorem State.csrRead_found {s : State} {n : Nat} (h : ¬s.csrBarred n) :
    s.csrRead n = (s.csrFound n).elim (.error .illegal) .ok := by
  obtain ⟨level, fs, tvm⟩ : ¬_ ∧ ¬_ ∧ ¬_ := by simpa only [State.csrBarred, not_or] using h
  unfold State.csrRead State.csrFound
  simp only [level, tvm, if_false]
  by_cases fp : n = 0x001 ∨ n = 0x002 ∨ n = 0x003
  · have on : fsOf s.me.sys.mstatus ≠ 0 := fun off => fs ⟨fp, off⟩
    simp only [fp, s.needFs_on on, if_true]
    cases (if csrLevel n = 3 then s.csrHigh n else s.csrLow n) <;> rfl
  · simp only [fp, if_false]
    cases (if csrLevel n = 3 then s.csrHigh n else s.csrLow n) <;> rfl

/-- The one way for a read to fail is the illegal instruction; a read that succeeds has passed the check of the mode and
has found the register. -/
theorem State.csrRead_cases (s : State) (n : Nat) :
    s.csrRead n = .error .illegal ∨
      ∃ v, s.csrRead n = .ok v ∧ csrLevel n ≤ s.me.mode.code ∧ s.csrFound n = some v := by
  by_cases barred : s.csrBarred n
  · exact .inl (State.csrRead_barred barred)
  · have read := State.csrRead_found barred
    cases found : s.csrFound n with
    | none => exact .inl (by rw [read, found]; rfl)
    | some v => exact .inr ⟨v, by rw [read, found]; rfl, Nat.not_lt.mp fun below => barred (.inl below), rfl⟩

/-! ### The effect of a Zicsr word -/

/-- The state after a permitted access: the new value in register `n` where the form writes, the old one in x[rd] (R6). -/
def State.csrDone (s : State) (n : Nat) (f : CsrForm) (old : Word) : State :=
  (if f.writes then s.csrSet n (csrNew f (s.csrBase n old) (s.csrSrc f)) else s).setX f.rd old

theorem State.csrEffect_permitted {s : State} {csr : BitVec 12} {f : CsrForm} {old : Word}
    (read : s.csrRead csr.toNat = .ok old) (may : (f.writes && csrReadOnly csr.toNat) = false) :
    s.csrEffect csr f = .ok (s.csrDone csr.toNat f old) := by
  simp only [State.csrEffect, read, may]
  rfl

theorem State.csrEffect_illegal_of_read {s : State} {csr : BitVec 12} (f : CsrForm)
    (read : s.csrRead csr.toNat = .error .illegal) : s.csrEffect csr f = .error .illegal := by
  simp only [State.csrEffect, read]
  rfl

theorem State.csrEffect_illegal_of_readOnly {s : State} {csr : BitVec 12} {f : CsrForm} {old : Word}
    (read : s.csrRead csr.toNat = .ok old) (ro : (f.writes && csrReadOnly csr.toNat) = true) :
    s.csrEffect csr f = .error .illegal := by
  simp only [State.csrEffect, read, ro]
  rfl

/-- R6, R102: whichever check refuses the access, its effect is the illegal instruction. -/
theorem State.csrEffect_illegal {s : State} {csr : BitVec 12} {f : CsrForm}
    (refused : s.me.mode.code < csrLevel csr.toNat ∨ f.writes = true ∧ csrReadOnly csr.toNat = true ∨
      s.csrFound csr.toNat = none) :
    s.csrEffect csr f = .error .illegal := by
  rcases s.csrRead_cases csr.toNat with read | ⟨old, read, level, found⟩
  · exact State.csrEffect_illegal_of_read f read
  · rcases refused with below | ⟨writes, ro⟩ | unlisted
    · exact absurd level (Nat.not_le.mpr below)
    · exact State.csrEffect_illegal_of_readOnly read (by simp [writes, ro])
    · exact absurd (found.symm.trans unlisted) (by simp)

/-! ### The words of single registers -/

theorem runOpen_csr {s : State} {csr : BitVec 12} {f : CsrForm} {old : Word} (i : Instr)
    (read : s.csrRead csr.toNat = .ok old) (may : (f.writes && csrReadOnly csr.toNat) = false) :
    runOpen i s (fun s => s.csrEffect csr f) = .next (s.csrDone csr.toNat f old).complete :=
  runOpen_ok (State.csrEffect_permitted read may)

/-- Only numbers from 0xC00 on are read-only as a whole (R6). -/
theorem csrReadOnly_below {n : Nat} (h : n < 0xC00) : csrReadOnly n = false := by
  simp only [csrReadOnly, beq_eq_false_iff_ne]
  omega

/-- A register below the read-only numbers may be read and written by every form. -/
theorem runOpen_csr_writable {s : State} {csr : BitVec 12} {f : CsrForm} {old : Word} (i : Instr)
    (low : csr.toNat < 0xC00) (read : s.csrRead csr.toNat = .ok old) :
    runOpen i s (fun s => s.csrEffect csr f) = .next (s.csrDone csr.toNat f old).complete :=
  runOpen_csr i read (by simp [csrReadOnly_below low])

/-- `mfmtN` is register 0x804 + N (R104). -/
theorem mfmt_number (n : BitVec 2) : ((0x201 : BitVec 10) ++ n).toNat = 0x804 + n.toNat := by
  revert n; decide

theorem exec_mfmtWrite_permitted {s : State} {f : CsrForm} {old : Word} (n : BitVec 2)
    (read : s.csrRead (0x804 + n.toNat) = .ok old) :
    exec (.mfmtWrite n f) s = .next (s.csrDone (0x804 + n.toNat) f old).complete := by
  rw [exec_mfmtWrite, execMfmtWrite, ← mfmt_number n]
  refine runOpen_csr_writable _ ?_ (by rwa [mfmt_number n])
  rw [mfmt_number n]
  omega

end Sys2Proof.Machine

open Sys2Proof Sys2Proof.Machine

/-- Settles O18: the read and the check of the read-only numbers having passed, each word ends in `State.csrDone`. -/
theorem csrWordsReadAndWriteTheirRegister : Obligations.CsrWordsReadAndWriteTheirRegister := by
  unfold Obligations.CsrWordsReadAndWriteTheirRegister
  intro s f old _
  refine ⟨fun csr read may => ?csrAccess, fun read => ?stcol, fun read => ?vrm, fun n read => ?mfmt,
    fun read => ?mgang, fun read => ?satp⟩
  case csrAccess => exact runOpen_csr (.csrAccess csr f) read may
  case stcol => exact runOpen_csr_writable (csr := 0x800) (.stcolWrite f) (by decide) read
  case vrm => exact runOpen_csr_writable (csr := 0x801) (.vrmWrite f) (by decide) read
  case mfmt => exact exec_mfmtWrite_permitted n read
  case mgang => exact runOpen_csr_writable (csr := 0x808) (.mgangWrite f) (by decide) read
  case satp => exact runOpen_csr_writable (csr := 0x180) (.satpWrite f) (by decide) read

/-- Settles O19: every check that refuses the access leaves the illegal instruction as its effect, and the hart, in no
wait, takes that trap. -/
theorem csrAccessIsCheckedFirst : Obligations.CsrAccessIsCheckedFirst := by
  unfold Obligations.CsrAccessIsCheckedFirst
  intro s csr f idle refused
  rw [exec_csrAccess, execCsrAccess, ← State.finish_illegal s idle]
  exact runOpen_error (State.csrEffect_illegal refused) (by simp)
end

section
/-! PROOFS. Base stores (R41, R69): where the bytes of a store go, and what M mode reads afterwards. -/

namespace Sys2Proof.Machine

/-- The register that a base store stores. -/
def State.storeSource (s : State) (op : StoreOp) (rs2 : Reg) : Word := if op = .fsw ∨ op = .fsd then s.f rs2 else s.x rs2

/-- A base store whose units could be written completes. -/
theorem exec_baseStore_stored {s u : State} {op : StoreOp} {rs1 : Reg} (rs2 : Reg) {i : BitVec 12} {a : Word}
    (fs : op = .fsw ∨ op = .fsd → fsOf s.me.sys.mstatus ≠ 0) (addr : s.baseAddr .store rs1 i = .ok a)
    (stored : s.store a (leBytes (StoreOp_size op) (s.storeSource op rs2).toNat) (StoreOp_size op) = .ok u) :
    exec (.baseStore op rs1 rs2 i) s = .next u.complete := by
  rw [exec_baseStore, execBaseStore]
  apply runOpen_ok
  cases op
  case fsw | fsd => simpa [s.needFs_on (fs (by simp)), addr, State.storeSource, bind, Except.bind] using stored
  all_goals simpa [addr, State.storeSource, bind, Except.bind, pure, Except.pure] using stored

/-- A store resolves its range, then stores unit by unit. -/
theorem State.store_resolved {s t : State} {a : Word} {bs : List Byte} {al : Nat} {ls : List (Loc × Nat)}
    (h : resolve s (s.view .store) .store a bs.length al = .ok (t, ls)) :
    s.store a bs al = storeUnits t t.cur a ls bs := by
  simp only [State.store, h, bind, Except.bind]

/-- Outside a region one unit is written at once. -/
theorem storeUnits_outside (s : State) (h : Nat) (out : s.inRegion h = false) (va : Word) (l : Loc) (bs : List Byte) :
    storeUnits s h va [(l, bs.length)] bs = .ok (s.perform (some h) (s.partOf (clusterOf h)) l.pa l.gpa bs) := by
  simp [storeUnits, storeUnit, out, bind, Except.bind]

theorem StoreOp_size_cases (op : StoreOp) :
    StoreOp_size op = 1 ∨ StoreOp_size op = 2 ∨ StoreOp_size op = 4 ∨ StoreOp_size op = 8 := by
  cases op <;> simp [StoreOp_size]

/-- An aligned M-mode store to HBM is one write that is performed at once. -/
theorem store_machine (s : State) (va : Word) (bs : List Byte) (m : s.me.mode = Mode.m)
    (p : bits s.me.sys.mstatus 17 1 = 0) (np : s.partOf (clusterOf s.cur) = none)
    (pm : (s.view .store).pmpAllows .m .store va.toNat bs.length = true)
    (hn : bs.length = 1 ∨ bs.length = 2 ∨ bs.length = 4 ∨ bs.length = 8) (al : va.toNat % bs.length = 0)
    (top : va.toNat + bs.length ≤ hbmSize) :
    s.store va bs bs.length = .ok (s.perform (some s.cur) none va.toNat noGuest bs) := by
  have mode : (s.view .store).mode = Mode.m := s.viewOf_mode_machine s.cur .store m p
  have out : s.inRegion s.cur = false := s.inRegion_mode s.cur (by rw [show (s.hart s.cur).mode = .m from m]; decide)
  rw [State.store_resolved (resolve_machine s _ .store va _ mode np pm hn al top), storeUnits_outside s _ out, np]

/-- Without a guest-physical page nothing is recorded as dirty. -/
theorem State.perform_none (s : State) (g : Option Nat) (a gpa : Nat) (bs : List Byte) :
    s.perform g none a gpa bs = s.write g none a bs := by
  simp [State.perform, State.markDirty]

/-! ### What a change of one hart leaves of memory as it is read -/

theorem State.setBytes_mem_congr (bs : List Byte) {s t : State} (e : t.mem = s.mem) (a : Nat) :
    (t.setBytes a bs).mem = (s.setBytes a bs).mem := by
  induction bs generalizing s t a with
  | nil => exact e
  | cons b r ih => exact ih (by simp [State.setByte, e]) (a + 1)

theorem State.rekey_withMe_mem (s : State) (x : Hart) (p : Option Nat) (a : Nat) :
    ((s.withMe x).rekey p a).mem = (s.rekey p a).mem := by
  have key : (s.withMe x).keyAt p a = s.keyAt p a := State.keyAt_congr rfl rfl rfl p rfl
  have unit : (s.withMe x).readNat (64 * (a / 64)) 64 = s.readNat (64 * (a / 64)) 64 :=
    congrArg leNat (State.bytes_congr rfl _ _)
  unfold State.rekey
  rw [key, unit]
  split
  · rfl
  · show (match s.unitKeys.find (a / 64) with | none => _ | some old => _ : State).mem = _
    cases s.unitKeys.find (a / 64) with
    | none => rfl
    | some old =>
      dsimp only
      split
      · rfl
      · rw [State.setUnit_mem, State.setUnit_mem]
        exact State.setBytes_mem_congr _ rfl _

theorem State.byteAs_withMe (s : State) (x : Hart) (p : Option Nat) (a : Nat) : (s.withMe x).byteAs p a = s.byteAs p a :=
  State.byte_congr (s.rekey_withMe_mem x p a) a

theorem State.readAs_withMe (s : State) (x : Hart) (p : Option Nat) (a n : Nat) :
    (s.withMe x).readAs p a n = s.readAs p a n :=
  State.bytes_congr (s.rekey_withMe_mem x p a) a n

/-- An aligned access of at most 8 bytes stays in its 64-byte unit. -/
theorem aligned_in_unit {a n : Nat} (hn : n = 1 ∨ n = 2 ∨ n = 4 ∨ n = 8) (al : a % n = 0) : a % 64 + n ≤ 64 := by
  rcases hn with rfl | rfl | rfl | rfl <;> omega

end Sys2Proof.Machine

open Sys2Proof Sys2Proof.Machine

/-- Settles O8: the store is one `State.write` at the address, whose bytes read back and which leaves every other byte. -/
theorem machineModeStoreWritesItsBytes : Obligations.MachineModeStoreWritesItsBytes := by
  unfold Obligations.MachineModeStoreWritesItsBytes
  intro s op rs1 rs2 i a addr idle mode mprv noFsw noFsd wf np pm al top
  have len := leBytes_length (StoreOp_size op) (s.x rs2).toNat
  have hn := StoreOp_size_cases op
  have inUnit := aligned_in_unit hn al
  generalize hbs : leBytes (StoreOp_size op) (s.x rs2).toNat = bs at *
  have source : s.storeSource op rs2 = s.x rs2 := by simp [State.storeSource, noFsw, noFsd]
  have stored : s.store a bs (StoreOp_size op) = .ok (s.perform (some s.cur) none a.toNat noGuest bs) := by
    rw [← len] at pm hn al top ⊢
    exact store_machine s a bs mode mprv np pm hn al top
  have keeps := (s.perform_touched (some s.cur) none a.toNat noGuest bs).keeps
  obtain ⟨r, me⟩ := keeps.me
  have done := State.complete_starts _ (keeps.waiting.trans idle)
  refine ⟨_, exec_baseStore_stored rs2 (by simp [noFsw, noFsd]) addr (by rw [source, hbs]; exact stored), rfl,
    ?bytes, ?frame, ?ctx, ?pc, ?wf⟩
  case bytes =>
    rw [done, State.readAs_withMe, State.perform_none, ← len, State.write_readAs _ _ _ _ _ wf (by omega), ← hbs,
      leNat_leBytes, leBytes_length]
  case frame =>
    intro b outside
    rw [done, State.byteAs_withMe, State.perform_none]
    exact s.write_byteAs _ _ _ _ _ wf (by omega) (by omega)
  case ctx => rw [State.complete_ctx, me]
  case pc => rw [State.complete_pc, me]
  case wf =>
    rw [State.MemOk, State.complete_mem]
    exact s.perform_wf _ _ _ _ _ wf

/-- Settles O9: the range is resolved, and its units are stored one by one. -/
theorem storesReachTheBufferOrMemory : Obligations.StoresReachTheBufferOrMemory := by
  unfold Obligations.StoresReachTheBufferOrMemory
  intro s op rs1 rs2 i a t u ls _ fs addr resolved stored
  refine exec_baseStore_stored rs2 fs addr ?_
  rw [State.store_resolved (by rwa [leBytes_length])]
  exact stored
end


section
/-! PROOFS. The choice of a schedule variant (R33): what holds of the better of two holds of the fold over all. -/

namespace Sys2Proof.Machine

/-- `c` stands in the list at the lowest index of its bound, and its bound is the smallest that suffices for the size, or
the largest where none does (R33). -/
def IsVariantFor (size : Word) (l : List (Word × Word)) (c : Word × Word) : Prop :=
  ∃ i : Nat, l[i]? = some c ∧ (∀ (j : Nat) w, l[j]? = some w → j < i → w.1 ≠ c.1) ∧
    ((∃ w ∈ l, size ≤ w.1) → size ≤ c.1 ∧ ∀ w ∈ l, size ≤ w.1 → c.1 ≤ w.1) ∧
    ((∀ w ∈ l, w.1 < size) → ∀ w ∈ l, w.1 ≤ c.1)

theorem isVariantFor_singleton (size : Word) (v : Word × Word) : IsVariantFor size [v] v :=
  ⟨0, rfl, fun _ _ _ below => absurd below (Nat.not_lt_zero _), by simp, by simp⟩

theorem betterVariant_eq (size : Word) (c w : Word × Word) : betterVariant size c w =
    if size ≤ w.1 ∧ (size ≤ c.1 → w.1 < c.1) ∨ c.1 < size ∧ w.1 < size ∧ c.1 < w.1 then w else c := by
  by_cases hc : size ≤ c.1
  · simp [betterVariant, hc, BitVec.not_lt.mpr hc]
  · by_cases hw : size ≤ w.1
    · simp [betterVariant, hc, hw]
    · simp [betterVariant, hc, hw, BitVec.not_le.mp hc, BitVec.not_le.mp hw]

/-- One more variant at the end of the list: the better of it and the choice so far is the choice. -/
theorem IsVariantFor.append {size : Word} {l : List (Word × Word)} {c : Word × Word} (h : IsVariantFor size l c)
    (w : Word × Word) : IsVariantFor size (l ++ [w]) (betterVariant size c w) := by
  obtain ⟨i, at_, first, least, most⟩ := h
  have mem : c ∈ l := List.mem_of_getElem? at_
  have inL : ∀ u ∈ l, u.1 < size ∧ u.1 ≤ c.1 ∨ size ≤ c.1 ∧ (size ≤ u.1 → c.1 ≤ u.1) := fun u hu => by
    by_cases some_ : ∃ w ∈ l, size ≤ w.1
    · exact .inr ⟨(least some_).1, (least some_).2 u hu⟩
    · have none_ : ∀ w ∈ l, w.1 < size := fun w hw => BitVec.not_le.mp fun q => some_ ⟨w, hw, q⟩
      exact .inl ⟨none_ u hu, most none_ u hu⟩
  have inAll : ∀ {P : Word × Word → Prop}, (∀ u ∈ l, P u) → P w → ∀ u ∈ l ++ [w], P u := fun hl hw u hu =>
    (List.mem_append.mp hu).elim (hl u) fun e => List.mem_singleton.mp e ▸ hw
  rw [betterVariant_eq]
  split
  case isTrue better =>
    refine ⟨l.length, by simp, fun j u hu below => ?_, fun ⟨x, hx, enough⟩ => ?_, fun below => ?_⟩
    · rw [List.getElem?_append_left below] at hu
      have := inL u (List.mem_of_getElem? hu)
      bv_omega
    · have suffices_ : size ≤ w.1 := (List.mem_append.mp hx).elim
        (fun hl => by have := inL x hl; bv_omega) fun e => List.mem_singleton.mp e ▸ enough
      exact ⟨suffices_, inAll (fun u hu _ => by have := inL u hu; bv_omega) fun _ => BitVec.le_refl _⟩
    · have := below w (by simp)
      exact inAll (fun u hu => by have := inL u hu; bv_omega) (BitVec.le_refl _)
  case isFalse worse =>
    have inside : i < l.length := (List.getElem?_eq_some_iff.mp at_).1
    refine ⟨i, by rw [List.getElem?_append_left inside, at_], fun j u hu below => ?_, fun ⟨x, hx, enough⟩ => ?_,
      fun below => ?_⟩
    · rw [List.getElem?_append_left (by omega)] at hu
      exact first j u hu below
    · have suffices_ : size ≤ c.1 := (List.mem_append.mp hx).elim
        (fun hl => (least ⟨x, hl, enough⟩).1) fun e => by rw [List.mem_singleton.mp e] at enough; bv_omega
      exact ⟨suffices_, inAll (fun u hu => (least ⟨c, mem, suffices_⟩).2 u hu) fun _ => by bv_omega⟩
    · have := below c (by simp [mem])
      have := below w (by simp)
      exact inAll (most fun u hu => below u (by simp [hu])) (by bv_omega)

theorem isVariantFor_foldl {size : Word} (vs : List (Word × Word)) {l : List (Word × Word)} {c : Word × Word}
    (h : IsVariantFor size l c) : IsVariantFor size (l ++ vs) (vs.foldl (betterVariant size) c) := by
  induction vs generalizing l c with
  | nil => simpa using h
  | cons w vs ih => simpa using ih (h.append w)

theorem chooseVariant_nil {r : List Byte} (size : Word) (none_ : variants r = []) :
    chooseVariant r size = recWord r 8 := by
  rw [chooseVariant, none_]

theorem chooseVariant_isVariantFor {r : List Byte} (size : Word) (some_ : variants r ≠ []) :
    ∃ v, chooseVariant r size = v.2 ∧ IsVariantFor size (variants r) v := by
  obtain ⟨v, vs, hv⟩ := List.exists_cons_of_ne_nil some_
  rw [chooseVariant, hv]
  exact ⟨_, rfl, isVariantFor_foldl vs (isVariantFor_singleton size v)⟩

end Sys2Proof.Machine

open Sys2Proof Sys2Proof.Machine

/-- Settles O23: the fold over the variants keeps the choice of R33 for the part of the list it has seen. -/
theorem phaseChoosesTheVariant : Obligations.PhaseChoosesTheVariant := by
  unfold Obligations.PhaseChoosesTheVariant
  refine ⟨fun s rd rs1 idle => ?writes, fun r size => chooseVariant_nil size, fun r size some_ => ?chooses⟩
  case writes =>
    rw [exec_phase, execPhase, ← State.wrote_eq s idle]
    exact runOpen_ok rfl
  case chooses =>
    obtain ⟨v, choice, i, at_, first, least, most⟩ := chooseVariant_isVariantFor size some_
    exact ⟨i, v, at_, choice, first, least, most⟩
end

section
/-! PROOFS. Firmware calls (R159, R160, R352, R356, R382), resumed harts (R117), and events at a boundary (R42, R119). -/

namespace Sys2Proof.Machine

/-! ### Firmware calls -/

theorem State.fwStep_made {s : State} {n : Nat} (f : State → State) (made : s.fwNumber = some n) :
    s.fwStep n f = .next (f s).complete := if_pos made

theorem State.fwStep_other {s : State} {n : Nat} (f : State → State) (other : s.fwNumber ≠ some n) :
    s.fwStep n f = .next s := if_neg other

theorem exec_ecall_firmware {s : State} {n : Nat} (made : s.fwNumber = some n) :
    exec .ecall s = .next (s.fwCall n).complete := by
  rw [exec_ecall, execEcall]
  exact runOpen_ok (by rw [made])

/-- A firmware call and the `ecall` that makes it have the same effect. -/
theorem fw_and_ecall {s t : State} {n : Nat} {i : Instr} {f : State → State} (made : s.fwNumber = some n)
    (arm : exec i s = s.fwStep n f) (call : s.fwCall n = f s) (effect : f s = t) :
    exec i s = .next t.complete ∧ exec .ecall s = .next t.complete := by
  rw [arm, State.fwStep_made f made, exec_ecall_firmware made, call, effect]
  exact ⟨rfl, rfl⟩

theorem State.fwCall_unknown (s : State) {n : Nat} (unknown : n = 0 ∨ 7 < n) : s.fwCall n = s.fwUnknown := by
  unfold State.fwCall
  split
  case h_8 => rfl
  all_goals omega

theorem exec_fwUnknownCall_made {s : State} {n : Nat} (made : s.fwNumber = some n) (unknown : n = 0 ∨ 7 < n) :
    exec .fwUnknownCall s = .next s.fwUnknown.complete := by
  simp only [exec_fwUnknownCall, execFwUnknownCall, made]
  exact if_pos unknown

/-- The state in which call 4 looks at its buffer: the count of overwritten reports read and cleared (R356). -/
def State.readingReports (s : State) : State :=
  (s.modCluster (clusterOf s.cur) fun k => { k with overwritten := 0 }).setX a1
    (wordOf (s.cluster (clusterOf s.cur)).overwritten)

theorem State.fwReadReports_misaligned {s : State} (al : (s.x a0).toNat % 64 ≠ 0) :
    s.fwReadReports = s.readingReports.setX a0 2 := if_pos al

theorem State.fwReadReports_empty {s u : State} {ls : List (Loc × Nat)} (al : (s.x a0).toNat % 64 = 0)
    (place : resolve s.readingReports (s.readingReports.view .store) .store (s.x a0) 64 64 = .ok (u, ls))
    (none_ : (s.cluster (clusterOf s.cur)).oldestUnread = none) : s.fwReadReports = u.setX a0 0 := by
  simp only [State.readingReports] at place
  simp only [State.fwReadReports, al, place, none_]
  rfl

theorem State.fwReadReports_oldest {s u : State} {ls : List (Loc × Nat)} {r : Report} (al : (s.x a0).toNat % 64 = 0)
    (place : resolve s.readingReports (s.readingReports.view .store) .store (s.x a0) 64 64 = .ok (u, ls))
    (some_ : (s.cluster (clusterOf s.cur)).oldestUnread = some r) :
    s.fwReadReports = ((performUnits u (some u.cur) (u.partOf (clusterOf s.cur)) ls r.bytes).modCluster
      (clusterOf s.cur) fun k => { k with unread := k.unread - 1 }).setX a0 1 := by
  simp only [State.readingReports] at place
  simp only [State.fwReadReports, al, place, some_]
  rfl

theorem State.fwEndHeld_none {s : State} (none_ : s.me.task = none) : s.fwEndHeld = s.setX a0 1 := by
  simp only [State.fwEndHeld, none_]

theorem State.fwEndHeld_some {s : State} {h : Word} (some_ : s.me.task = some h) :
    s.fwEndHeld = ((s.report ringTerminal { mkReport s 0 (bits s.me.sys.scause 0 8) (bits s.me.sys.scause 8 8)
        (clusterOf s.cur) h with loc := (hartloc s.chip s.cur).setWidth 32 }).1.endTask h
      (.faulted (faultWord (bits s.me.sys.scause 0 8) (bits s.me.sys.scause 8 8) (clusterOf s.cur) false))).setX a0 0 := by
  simp only [State.fwEndHeld, some_]

theorem State.setAreas_refused {s : State} {sb ss rb rs : Word} (c : Nat)
    (bad : areaOk s sb ss = false ∨ areaOk s rb rs = false) : s.setAreas c sb ss rb rs = (s, 1) := by
  rw [State.setAreas, if_pos (by simpa using bad)]

theorem State.retryHeld_local {s : State} {c : Nat} (none_ : (s.cluster c).heldRemote = []) :
    (s.retryHeld c).1 = s.modCluster c fun k => { k with heldReqs := [], heldRemote := [] } := by
  rw [State.retryHeld, none_]
  rfl

/-! ### Resumed harts -/

/-- A hart that may move makes the word of its wait again; one held on a page does not (R117, R401). -/
theorem exec_hartResume_moves {s t : State} {h : Nat} {w : Wait} (waits : (s.hart h).waiting = some w)
    (off : ∀ p q, w.kind ≠ .page p q) (runs : (s.hart h).stopped = false) (on : (s.hart h).inService = true)
    (again : resumeWord w.instr { s with cur := h } = .next t) :
    exec (.hartResume h none) s = .next { t with cur := s.cur } := by
  simp only [exec_hartResume, execHartResume, waits, runs, on, again, Bool.not_true, Bool.or_self, Bool.false_eq_true,
    if_false]

theorem exec_hartResume_idle {s : State} {h : Nat} (idle : (s.hart h).waiting = none) :
    exec (.hartResume h none) s = .next s := by
  simp only [exec_hartResume, execHartResume, idle]

theorem exec_hartResume_out {s : State} {h : Nat} (out : (s.hart h).stopped = true ∨ (s.hart h).inService = false) :
    exec (.hartResume h none) s = .next s := by
  have still : ((s.hart h).stopped || !(s.hart h).inService) = true := by simpa using out
  simp only [exec_hartResume, execHartResume, still, if_true]
  split
  · rfl
  · split <;> rfl

/-- `wfi` in M mode completes when an enabled interrupt is pending. -/
theorem execWfi_machine {s : State} (m : s.me.mode = .m) (on : s.mipOf s.cur &&& s.me.sys.mie ≠ 0) :
    execWfi s = .next s.complete := by
  refine runOpen_ok ?_
  rw [if_neg (by simp [m]), if_neg on]

/-! ### Events at a boundary -/

theorem exec_storeDrainDone_task {s : State} {h : Nat} {t : Task} (has : s.taskOf h = some t) :
    exec (.storeDrainDone h) s =
      .next (if t.region.undrained = [] then s else (s.drainTask h).checkpoint h (s.hart h).pc) := by
  simp only [exec_storeDrainDone, execStoreDrainDone, has, List.isEmpty_iff]
  split <;> rfl

theorem exec_interruptTake_taken {s : State} {h c : Nat} (int : s.interruptFor h = some c)
    (boundary : (s.hart h).interruptible = true) (runs : (s.hart h).stopped = false) (on : (s.hart h).inService = true) :
    exec (.interruptTake h) s = .next ((s.withdrawWait h).takeTrap h true c 0 0) := by
  simp [exec_interruptTake, execInterruptTake, int, boundary, runs, on]

theorem exec_interruptTake_none {s : State} {h : Nat} (none_ : s.interruptFor h = none) :
    exec (.interruptTake h) s = .next s := by
  simp only [exec_interruptTake, execInterruptTake, none_]

/-! ### Registers of the host's block -/

@[simp] theorem State.partReg_get (s : State) (p : Nat) (f : Part → Part) :
    (s.partReg p f).parts.get p default = f (s.parts.get p default) := by
  simp [State.partReg]

@[simp] theorem State.partReg_mem (s : State) (p : Nat) (f : Part → Part) : (s.partReg p f).mem = s.mem := rfl

@[simp] theorem State.ring_setRing (s : State) (r : Nat) (x : Ring) : (s.setRing r x).ring r = x := by
  simp [State.ring, State.setRing]

theorem State.ring_setRing_other (s : State) {r q : Nat} (x : Ring) (n : q ≠ r) : (s.setRing r x).ring q = s.ring q := by
  simp [State.ring, State.setRing, Table.get_put_other _ _ _ _ _ n]

end Sys2Proof.Machine

open Sys2Proof Sys2Proof.Machine

/-- Settles O51: each call is the effect that its number names; the other events are single equations. -/
theorem hartsGoOnAndFirmwareAnswers : Obligations.HartsGoOnAndFirmwareAnswers := by
  unfold Obligations.HartsGoOnAndFirmwareAnswers
  refine ⟨?calls, fun s sb ss rb rs c => State.setAreas_refused c, ?others, ?resumes, ?boundaries, ?registers⟩
  case calls =>
    intro s n made c done lost noted
    refine ⟨?setAreas, ?retry, ?reject, ?reports, ?endHeld, ?requeue, ?faultLost, ?unknown⟩
    case setAreas =>
      rintro _ rfl rfl
      exact fw_and_ecall made (exec_fwSetAreas s) rfl rfl
    case retry =>
      rintro _ rfl rfl
      obtain ⟨word, ecall⟩ := fw_and_ecall made (exec_fwRetryHeld s) rfl rfl
      exact ⟨word, rfl, State.retryHeld_local, ecall⟩
    case reject =>
      rintro _ rfl rfl
      obtain ⟨word, ecall⟩ := fw_and_ecall made (exec_fwRejectHeld s) rfl rfl
      exact ⟨word, rfl, ecall⟩
    case reports =>
      rintro rfl k t
      refine ⟨fun al => fw_and_ecall made (exec_fwReadReports s) rfl (State.fwReadReports_misaligned al),
        fun al u ls place => ⟨fun none_ => ?_, fun r some_ => ?_⟩⟩
      · exact (fw_and_ecall made (exec_fwReadReports s) rfl (State.fwReadReports_empty al place none_)).1
      · exact (fw_and_ecall made (exec_fwReadReports s) rfl (State.fwReadReports_oldest al place some_)).1
    case endHeld =>
      rintro rfl
      exact ⟨fun none_ => fw_and_ecall made (exec_fwEndHeldTask s) rfl (State.fwEndHeld_none none_),
        fun h some_ => fw_and_ecall made (exec_fwEndHeldTask s) rfl (State.fwEndHeld_some some_)⟩
    case requeue =>
      rintro _ rfl rfl
      exact fw_and_ecall made (exec_fwRequeueLost s) rfl rfl
    case faultLost =>
      rintro rfl
      exact fw_and_ecall made (exec_fwFaultLost s) rfl rfl
    case unknown =>
      intro unknown
      refine ⟨exec_fwUnknownCall_made made unknown, ?_⟩
      rw [exec_ecall_firmware made, State.fwCall_unknown s unknown]
      rfl
  case others =>
    rintro s i n (⟨rfl, rfl⟩ | ⟨rfl, rfl⟩ | ⟨rfl, rfl⟩ | ⟨rfl, rfl⟩ | ⟨rfl, rfl⟩ | ⟨rfl, rfl⟩ | ⟨rfl, rfl⟩) other
    all_goals exact State.fwStep_other _ other
  case resumes =>
    intro s t h
    refine ⟨exec_hartResume_idle, fun w waits off runs on again => exec_hartResume_moves waits off runs on again, ?_,
      exec_hartResume_out⟩
    intro w waits long word runs on m pending
    refine exec_hartResume_moves waits (by simp [long]) runs on ?_
    rw [word]
    exact execWfi_machine m pending
  case boundaries =>
    intro s h
    refine ⟨fun t has => ?_, fun c => exec_interruptTake_taken, exec_interruptTake_none⟩
    rw [exec_storeDrainDone_task has]
    exact ⟨fun empty => by rw [if_pos empty], fun some_ => by rw [if_neg some_]⟩
  case registers =>
    intro s v
    refine ⟨fun p hp => ?_, fun r hr => ?_, fun i => ?_, fun f i => ?_, fun o => ?_⟩
    · simp only [exec_registerWrite, execRegisterWrite, if_pos hp]
      exact ⟨⟨_, rfl, by simp⟩, ⟨_, rfl, by simp⟩, ⟨_, rfl, by simp⟩⟩
    · rw [exec_registerWrite, execRegisterWrite, if_pos hr]
      exact ⟨_, rfl, s.ring_setRing r _, fun q n => s.ring_setRing_other _ n⟩
    · rw [exec_registerWrite, execRegisterWrite, dif_pos i.isLt]
    · rw [exec_registerWrite, execRegisterWrite, dif_pos i.isLt]
      exact ⟨_, rfl, by simp⟩
    · rw [exec_registerWrite, execRegisterWrite]
end

section
/-! PROOFS. The task engine (R37, R155 to R163): intake, preparation, prefetches, dispatch, wakes and ends. -/

namespace Sys2Proof.Machine

/-! ### Events that only join those in flight -/

/-- `t` is `s` with more events in flight. -/
def Posts (s t : State) : Prop := ∃ l, t = { s with pending := s.pending ++ l }

theorem Posts.refl (s : State) : Posts s s := ⟨[], by simp⟩

theorem Posts.trans {s t u : State} : Posts s t → Posts t u → Posts s u := by
  rintro ⟨l, rfl⟩ ⟨m, rfl⟩
  exact ⟨l ++ m, by simp⟩

theorem posts_foldl {α : Type} (f : State → α → State) (h : ∀ s a, Posts s (f s a)) (l : List α) (s : State) :
    Posts s (l.foldl f s) := by
  induction l generalizing s with
  | nil => exact Posts.refl s
  | cons a r ih => exact (h s a).trans (ih _)

theorem State.post_posts (s : State) (i : Instr) : Posts s (s.post i) := ⟨[i], rfl⟩

theorem State.retryPrefetches_posts (s : State) (c : Nat) : Posts s (s.retryPrefetches c) := by
  refine posts_foldl _ (fun s e => ?_) _ _
  split
  · refine posts_foldl _ (fun s p => ?_) _ _
    split
    · exact s.post_posts _
    · exact Posts.refl s
  · exact Posts.refl s

/-! ### Intake and the start of preparation -/

/-- A task whose preparation starts (R155 step 3). -/
def Task.inPreparation (t : Task) (order : Nat) : Task :=
  { t with state := .preparing, order := order, translated := false,
           prefetch := t.desc.args.map fun a => if a.valid then .waiting else .done }

theorem State.startPrep_posts {s : State} {h : Word} {t : Task} (has : s.task? h = some t) :
    Posts ((s.tick.setTask h (t.inPreparation (s.serial + 1))).post (.taskPrepared h)) (s.startPrep h) := by
  have has' : s.tick.task? h = some t := has
  simp only [State.startPrep, has']
  exact State.retryPrefetches_posts _ _

theorem State.startPrep_starts {s : State} {h : Word} {t : Task} (has : s.task? h = some t) :
    (s.startPrep h).task? h = some (t.inPreparation (s.serial + 1)) ∧ .taskPrepared h ∈ (s.startPrep h).pending ∧
      (s.startPrep h).harts = s.harts ∧ (s.startPrep h).mem = s.mem := by
  obtain ⟨l, eq⟩ := State.startPrep_posts has
  rw [eq]
  exact ⟨State.task?_setTask _ _ _, by simp [State.post], rfl, rfl⟩

theorem State.pokeVia_touched (s : State) (v : View) (a : Word) (bs : List Byte) :
    Touched s ((s.pokeVia v a bs).getD s) := by
  unfold State.pokeVia
  split
  case h_1 t ls range => exact (resolve_touched _ _ _ _ _ _ _ _ range).trans (writeUnits_touched _ _ _ _)
  case h_2 => exact Touched.refl s

theorem State.intake_room {s : State} {h : Word} {t : Task} (has : s.task? h = some t) (flies : t.state = .flying)
    (room : s.tableUsed t.cluster < 1024) : s.intake h = s.startPrep h := by
  simp only [State.intake, has, flies, room, ne_eq, not_true_eq_false, if_false, if_true]

theorem State.intake_ring {s : State} {h : Word} {t : Task} (has : s.task? h = some t) (flies : t.state = .flying)
    (full : 1024 ≤ s.tableUsed t.cluster) :
    (s.intake h).task? h = some { t with state := .ring, order := s.serial + 1 } := by
  simp only [State.intake, has, flies, Nat.not_lt.mpr full, ne_eq, not_true_eq_false, if_false]
  rw [State.task?_setTask, State.modCluster_serial, (State.pokeVia_touched _ _ _ _).rest]
  rfl

theorem State.intake_other {s : State} {h : Word} {t : Task} (has : s.task? h = some t) (other : t.state ≠ .flying) :
    s.intake h = s := by
  simp only [State.intake, has, other, ne_eq, not_false_eq_true, if_true]

theorem execTaskRingRefill_head {s : State} {c : Nat} {h : Word} (head : s.ringHeadOf c = some h)
    (room : s.tableUsed c < 1024) : execTaskRingRefill c s =
      .next (((s.modCluster c fun k => { k with ringHead := k.ringHead + 1 }).startPrep h).post (.taskRingRefill c)) := by
  simp only [execTaskRingRefill, head, room, if_true]

/-! ### The end of preparation -/

section
variable {s : State} {h : Word} {t : Task} (has : s.task? h = some t) (prep : t.state = .preparing)
  (new : t.translated = false)
include has prep new

theorem State.prepared_untranslatable {f : PrepFault} (fails : s.prepareRuns h t = .error f)
    (room : s.ringFull ringTerminal t.cluster = false) : s.prepared h = s.prepFails h t.cluster f := by
  simp only [State.prepared, has, prep, new, fails, room, ne_eq, not_true_eq_false, Bool.false_eq_true, if_false]

variable {u : State} {rs ls : List Run} (runs : s.prepareRuns h t = .ok (u, rs, ls))
include runs

theorem State.prepared_failed {f : PrepFault} (fails : firstFailure t.prefetch = some f)
    (room : (u.modTask h fun t => { t with translated := true, runs := rs, logRuns := ls }).ringFull ringTerminal
      t.cluster = false) :
    s.prepared h = (u.modTask h fun t => { t with translated := true, runs := rs, logRuns := ls }).prepFails h
      t.cluster f := by
  simp only [State.prepared, has, prep, new, runs, fails, room, ne_eq, not_true_eq_false, Bool.false_eq_true, if_false]

theorem State.prepared_unfailed (fine : firstFailure t.prefetch = none) :
    s.prepared h = if t.prefetch.all fun p => p == .done
      then (u.modTask h fun t => { t with translated := true, runs := rs, logRuns := ls }).makeReady h
      else u.modTask h fun t => { t with translated := true, runs := rs, logRuns := ls } := by
  simp only [State.prepared, has, prep, new, runs, fine, ne_eq, not_true_eq_false, Bool.false_eq_true, if_false]

end

/-! ### Prefetches -/

section
variable {s : State} {h : Word} {t : Task} {i : Nat} (has : s.task? h = some t)
  (open_ : ¬(t.state ≠ .preparing ∨ t.prefetch.getD i .done ≠ .waiting ∨ s.halting t.cluster ∨ t.ending.isSome))
include has open_

theorem State.armPrefetch_undefined
    (none_ : (s.stage t.cluster (t.desc.args.getD i default).stage.toNat).defined = false) :
    s.armPrefetch h i = s.setPrefetch h i (.failed 31 0x01) := by
  simp only [State.armPrefetch, has, if_neg open_, none_, Bool.not_false, if_true]

variable (defined : (s.stage t.cluster (t.desc.args.getD i default).stage.toNat).defined = true)
include defined

theorem State.armPrefetch_tooLong
    (long : (s.stage t.cluster (t.desc.args.getD i default).stage.toNat).size < (t.desc.args.getD i default).length) :
    s.armPrefetch h i = s.setPrefetch h i (.failed 31 0x02) := by
  simp only [State.armPrefetch, has, if_neg open_, defined, long, Bool.not_true, Bool.false_eq_true, if_false, gt_iff_lt,
    if_true]

variable (fits : (t.desc.args.getD i default).length ≤
  (s.stage t.cluster (t.desc.args.getD i default).stage.toNat).size)
include fits

theorem State.armPrefetch_resident (resident : (t.desc.args.getD i default).source.toNat =
      0x7F4000000000 + (t.desc.args.getD i default).stage.toNat * 2 ^ 20) :
    s.armPrefetch h i = s.setPrefetch h i .done := by
  simp only [State.armPrefetch, has, if_neg open_, defined, Nat.not_lt.mpr fits, resident, Bool.not_true,
    Bool.false_eq_true, if_false, gt_iff_lt, if_true]

variable (elsewhere : (t.desc.args.getD i default).source.toNat ≠
    0x7F4000000000 + (t.desc.args.getD i default).stage.toNat * 2 ^ 20)
  (free : ((s.stage t.cluster (t.desc.args.getD i default).stage.toNat).armed ||
    (s.stage t.cluster (t.desc.args.getD i default).stage.toNat).prefetch ||
    decide ((s.stage t.cluster (t.desc.args.getD i default).stage.toNat).lifts > 0) ||
    s.prefetchBefore t.cluster (t.desc.args.getD i default).stage.toNat t.order i) = false)
include elsewhere free

theorem State.armPrefetch_overfull (more : (t.desc.args.getD i default).length <
      (s.stage t.cluster (t.desc.args.getD i default).stage.toNat).count.toNat) :
    s.armPrefetch h i = s.setPrefetch h i (.failed 31 0x04) := by
  simp only [State.armPrefetch, has, if_neg open_, defined, Nat.not_lt.mpr fits, elsewhere, free, more, Bool.not_true,
    Bool.false_eq_true, if_false, gt_iff_lt, if_true]

theorem State.armPrefetch_armed {u : State} {k : Nat}
    (room : (s.stage t.cluster (t.desc.args.getD i default).stage.toNat).count.toNat ≤
      (t.desc.args.getD i default).length)
    (slot : s.allocSlot t.cluster { (default : CopySlot) with
      state := 1, total := (t.desc.args.getD i default).length, kind := .fetch, task := h,
      hart := s.superHart t.cluster, word := prefetchWord (t.desc.args.getD i default),
      satp := (s.taskView h t.cluster).satp, mode := .u, addr := (t.desc.args.getD i default).source } = some (u, k)) :
    s.armPrefetch h i = ((u.modTask h fun t => { t with prefetch := t.prefetch.set i (.copying k) }).modStage t.cluster
      (t.desc.args.getD i default).stage.toNat fun g => { g with prefetch := true }).armStage t.cluster
      (t.desc.args.getD i default).stage.toNat (BitVec.ofNat 32 (t.desc.args.getD i default).length) := by
  simp only [State.armPrefetch, has, if_neg open_, defined, Nat.not_lt.mpr fits, elsewhere, free, Nat.not_lt.mpr room,
    Bool.not_true, Bool.false_eq_true, if_false, gt_iff_lt]
  split
  case h_1 none_ => exact absurd (none_.symm.trans slot) (by simp)
  case h_2 some_ =>
    obtain ⟨rfl, rfl⟩ : _ ∧ _ := by simpa using some_.symm.trans slot
    rfl

end

/-! ### Dispatch -/

@[simp] theorem giveTiles_harts (l : List Nat) (s : State) (p : Nat) (task : Word) :
    (giveTiles s p task l).harts = s.harts := by
  induction l generalizing s with
  | nil => rfl
  | cons t r ih => exact ih _

@[simp] theorem moveTiles_harts (l : List (Nat × Nat)) (s : State) (p q : Nat) :
    (moveTiles s p q l).harts = s.harts := by
  induction l generalizing s with
  | nil => rfl
  | cons e r ih => exact ih _

@[simp] theorem State.rebindTiles_harts (s : State) (h : Nat) (task : Word) (t : Task) (p : Nat) :
    (s.rebindTiles h task t p).harts = s.harts := by
  unfold State.rebindTiles
  extract_lets q ts s'
  split
  · simp
  · simp [s']

@[simp] theorem State.bindTiles_harts (s : State) (h : Nat) (task : Word) (t : Task) :
    (s.bindTiles h task t).harts = s.harts := by
  unfold State.bindTiles
  split_ifs <;> simp

@[simp] theorem State.useBy_harts (s : State) (l p : Nat) : (s.useBy l p).harts = s.harts := s.modLaunch_harts _ _

/-- The hart of a placed task holds its restart point (R32, R402); no other hart changes. -/
theorem State.place_hart {s : State} {task : Word} {t : Task} (n : Nat) (has : s.task? task = some t) :
    ∃ w, (s.place n task).harts = (s.modHart n fun x => { x with
      task := some task, pc := t.region.ckpt.pc, ctx := t.region.ckpt.ctx, mode := .u, jumped := true, waiting := w,
      resv := none, pfx := none, freeOnSret := false }).harts := by
  obtain ⟨u, hu⟩ : ∃ u, s.place n task = u := ⟨_, rfl⟩
  rw [hu]
  unfold State.place at hu
  split at hu
  case h_1 none_ => exact absurd (has.symm.trans none_) (by simp)
  rename_i t' has'
  obtain rfl : t = t' := by simpa using has.symm.trans has'
  extract_lets s1 reply away wait s2 s3 s4 at hu
  have harts : u.harts = s4.harts := by
    rw [← hu]
    split
    · split <;> rfl
    · rfl
  refine ⟨wait, ?_⟩
  rw [harts, State.modTask_harts, State.useBy_harts]
  simp only [s2, s1, State.modHart, State.setHart, State.hart, State.bindTiles_harts]

/-- A hart that takes a task gets its restart point; its own control registers and every other hart stay. -/
theorem exec_taskDispatch_takes {s : State} {n e k : Nat} {t : Task} (free : s.hartFree n = true)
    (first : s.candidate n = some (e, k, t)) (best : s.bestHart (wordOf k) t = some n)
    (has : s.task? (wordOf k) = some t) : ∃ u, exec (.taskDispatch n) s = .next u ∧
      (u.hart n).task = some (wordOf k) ∧ (u.hart n).pc = t.region.ckpt.pc ∧ (u.hart n).ctx = t.region.ckpt.ctx ∧
      (u.hart n).mode = .u ∧ (u.hart n).sys = (s.hart n).sys ∧ ∀ m, m ≠ n → u.hart m = s.hart m := by
  obtain ⟨w, harts⟩ := State.place_hart n has
  refine ⟨(s.place n (wordOf k)).markPassed (clusterOf n), ?_, ?_⟩
  · simp only [exec_taskDispatch, execTaskDispatch, free, first, best, if_true]
  · have hart : ∀ m, ((s.place n (wordOf k)).markPassed (clusterOf n)).hart m = _ := State.hart_congr harts
    simp only [hart, State.hart_modHart, true_and]
    exact fun m other => State.hart_modHart_other _ _ _ _ other

theorem exec_taskDispatch_busy {s : State} {n : Nat} (busy : s.hartFree n = false) :
    exec (.taskDispatch n) s = .next s := by
  simp only [exec_taskDispatch, execTaskDispatch, busy, Bool.false_eq_true, if_false]

/-! ### Readiness, promotion, reservation, wakes and ends -/

theorem State.task?_makeReady {s : State} {h : Word} {t : Task} (has : s.task? h = some t) : (s.makeReady h).task? h =
    some { t with state := .ready, order := s.serial + 1, promo := 0, passedOver := false } := by
  have has' : s.tick.task? h = some t := has
  simp only [State.makeReady, State.modTask, has', State.task?_setTask]
  rfl

theorem exec_agePromotion_of {s : State} {h : Word} {t : Task} (has : s.task? h = some t) :
    exec (.agePromotion h) s = .next (if t.state = .ready ∧ t.promo ≠ 3 ∧ !s.still t.cluster
      then s.setTask h { t with promo := t.promo + 1 } else s) := by
  simp only [exec_agePromotion, execAgePromotion, has]
  split <;> rfl

theorem State.reservePair_best {s : State} {h : Word} {t : Task} (has : s.task? h = some t) (ready : t.state = .ready)
    (top : s.eprio h = 3) (passed : t.passedOver = true) (none_ : t.pair = none)
    (new : ((s.cluster t.cluster).reserve.any fun e => e.2 == h) = false) {p : Nat} {r : List Nat}
    (free : (((List.range 4).map fun i => t.cluster * 4 + i).filter fun p =>
      (s.reservedFor p).isNone && !s.pairClosed p) = p :: r) :
    s.reservePair h = s.setCluster t.cluster { s.cluster t.cluster with reserve := (s.cluster t.cluster).reserve ++
      [(r.foldl (fun b p => if (s.freeTilesOf p).length > (s.freeTilesOf b).length then p else b) p, h)] } := by
  simp only [State.reservePair, has, ready, top, passed, none_, new, free, Bool.not_false, and_self, if_true]

theorem State.endArrives_running {s : State} {h : Word} {t : Task} (how : EndKind) (has : s.task? h = some t)
    (runs : t.state = .running) (on : s.runsOn h = true) :
    s.endArrives h how = s.setTask h { t with ending := some (t.ending.getD how) } := by
  simp only [State.endArrives, has, runs, on, and_self, if_true]

theorem State.endArrives_elsewhere {s : State} {h : Word} {t : Task} (how : EndKind) (has : s.task? h = some t)
    (off : t.state ≠ .running ∨ s.runsOn h = false) : s.endArrives h how = s.endTask h (t.ending.getD how) := by
  simp only [State.endArrives, has]
  exact if_neg (by rintro ⟨runs, on⟩; simp [runs, on] at off)

theorem State.wake_parked {s : State} {h : Word} {t : Task} (has : s.task? h = some t) (parked : t.state = .parked)
    (st : Nat) (v : Word) (vd : Nat) : s.wake h (some (.done st v vd)) =
      ((s.leaveWaits h).setTask h { t with wake := some (.outcome st v vd false none) }).makeReady h := by
  simp only [State.wake, has, parked, ne_eq, not_true_eq_false, if_false]

theorem State.wake_other {s : State} {h : Word} {t : Task} (has : s.task? h = some t) (other : t.state ≠ .parked)
    (o : Option Reply) : s.wake h o = s := by
  simp only [State.wake, has, other, ne_eq, not_false_eq_true, if_true]

end Sys2Proof.Machine

open Sys2Proof Sys2Proof.Machine

/-- Settles O52: an equation or a short list of facts for each event of the task engine. -/
theorem taskEngineMovesItsTasks : Obligations.TaskEngineMovesItsTasks := by
  unfold Obligations.TaskEngineMovesItsTasks
  refine ⟨?tasks, fun s n e k t => exec_taskDispatch_takes, fun s n => exec_taskDispatch_busy, fun s chip => rfl, ?figures⟩
  case figures =>
    refine fun s => ⟨_, rfl, rfl, rfl, fun c k has => ?_⟩
    rw [Table.find_mapVal, has]
    rfl
  case tasks =>
    intro s h t has prep
    refine ⟨fun other => congrArg _ (State.intake_other has other), ?intake, ?ring, ?refill, ?prepared, ?arm, ?stop,
      ?noStop, ?ages, ?noAge, ?reserve, fun how => ⟨?ending, ?ends⟩, ?wakes, ?noWake, State.task?_makeReady has⟩
    case intake =>
      intro flies room
      obtain ⟨task, posted, harts, mem⟩ := State.startPrep_starts has
      exact ⟨_, congrArg Host.Outcome.next (State.intake_room has flies room), task, posted, harts, mem⟩
    case ring => exact fun flies full => ⟨_, rfl, State.intake_ring has flies full⟩
    case refill =>
      intro c head room
      obtain ⟨task, -⟩ := State.startPrep_starts (s := s.modCluster c fun k => { k with ringHead := k.ringHead + 1 }) has
      exact ⟨_, execTaskRingRefill_head head room, task, by simp [State.post]⟩
    case prepared =>
      intro preparing new
      refine ⟨fun f fails room => congrArg _ (State.prepared_untranslatable has preparing new fails room), ?_⟩
      intro u rs ls runs v
      refine ⟨fun f fails room => congrArg _ (State.prepared_failed has preparing new runs fails room),
        fun fine all => ?_, fun fine some_ => ?_⟩
      · refine congrArg _ ((State.prepared_unfailed has preparing new runs fine).trans (if_pos ?_))
        simpa using all
      · refine congrArg _ ((State.prepared_unfailed has preparing new runs fine).trans (if_neg ?_))
        simpa using some_
    case arm =>
      intro preparing live moves i waits a n g fail
      have open_ : ¬(t.state ≠ .preparing ∨ t.prefetch.getD i .done ≠ .waiting ∨ s.halting t.cluster ∨
          t.ending.isSome) := by
        rw [preparing, waits, moves, live]
        simp
      refine ⟨fun none_ => congrArg _ (State.armPrefetch_undefined has open_ none_),
        fun defined long => congrArg _ (State.armPrefetch_tooLong has open_ defined long),
        fun defined fits here => congrArg _ (State.armPrefetch_resident has open_ defined fits here),
        fun defined fits elsewhere free => ⟨fun more => ?_, fun u k room slot => ?_⟩⟩
      · exact congrArg _ (State.armPrefetch_overfull has open_ defined fits elsewhere free more)
      · exact congrArg _ (State.armPrefetch_armed has open_ defined fits elsewhere free room slot)
    case stop => exact fun stops => by simp only [exec_prefetchStop, execPrefetchStop, has, stops, if_true]
    case noStop => exact fun other => by simp only [exec_prefetchStop, execPrefetchStop, has, other, if_false]
    case ages =>
      intro ready below moves
      rw [exec_agePromotion_of has, if_pos ⟨ready, below, by simp [moves]⟩]
    case noAge =>
      intro held
      rw [exec_agePromotion_of has, if_neg]
      rintro ⟨ready, below, moves⟩
      rcases held with other | top | still
      exacts [other ready, below top, by simp [still] at moves]
    case reserve =>
      intro ready top passed none_ k new p r free
      exact congrArg _ (State.reservePair_best has ready top passed none_ new free)
    case ending => exact fun runs on => congrArg _ (State.endArrives_running how has runs on)
    case ends => exact fun off => congrArg _ (State.endArrives_elsewhere how has off)
    case wakes => exact fun parked st v vd => congrArg _ (State.wake_parked has parked st v vd)
    case noWake => exact fun other o => congrArg _ (State.wake_other has other o)
end

section
/-! PROOFS. The front end (R386 to R391, R396), report rings (R354, R355), the windrow (R373 to R375, R381) and links. -/

namespace Sys2Proof.Machine

/-! ### Notifies -/

/-- A notify moves the tail forward, by less than a ring, to the index it gives (R396). -/
theorem tail_moves {n : Nat} (pos : 0 < n) (tail q : Nat) : (q + (tail % n + n - q % n) % n) % n = tail % n ∧
    q ≤ q + (tail % n + n - q % n) % n ∧ q + (tail % n + n - q % n) % n < q + n := by
  have := Nat.mod_lt q pos
  have sum : q + (tail % n + n - q % n) = tail % n + n * (q / n + 1) := by
    have := Nat.div_add_mod q n
    rw [Nat.mul_add]
    omega
  refine ⟨?_, Nat.le_add_right _ _, Nat.add_lt_add_left (Nat.mod_lt _ pos) q⟩
  rw [Nat.add_mod_mod, sum, Nat.add_mul_mod_self_left, Nat.mod_mod]

theorem execNotifyWrite_queue {s : State} {fn slot : Nat} {q : Queue} (tail : BitVec 16)
    (live : s.queueAt fn slot = some q) : execNotifyWrite fn slot tail s = .next ({ s with
      queues := s.queues.put slot { q with
        tail := q.tail + (tail.toNat % 2 ^ q.log2 + 2 ^ q.log2 - q.tail % 2 ^ q.log2) % 2 ^ q.log2 } }.post
        (.launchAccept slot)) := by
  simp only [execNotifyWrite, live]

theorem execNotifyWrite_drop {s : State} {fn slot : Nat} (tail : BitVec 16) (none_ : s.queueAt fn slot = none) :
    execNotifyWrite fn slot tail s = .next (s.countDrop fn) := by
  simp only [execNotifyWrite, none_]

theorem State.countDrop_get (s : State) (fn : Nat) : (s.countDrop fn).drops.get fn 0 =
    if s.drops.get fn 0 = -1 then -1 else s.drops.get fn 0 + 1 := by
  rw [State.countDrop, Table.get_put_same]
  split
  case isTrue full => exact full
  case isFalse => rfl

/-! ### Acceptance of entries -/

theorem State.fillAts_ats (s : State) (die fn : Nat) (pasid : Option Nat) (page : Nat) :
    ∃ a, s.fillAts die fn pasid page = { s with ats := a } := by
  unfold State.fillAts
  extract_lets e
  split
  · exact ⟨s.ats, rfl⟩
  · exact ⟨_, rfl⟩

/-- A translation of a host address changes nothing but the caches of the dies (R385). -/
theorem State.hostTranslate_ats (s : State) (die fn : Nat) (pasid : Option Nat) (a : Word) (n : Nat) :
    ∃ x, s.hostTranslate die fn pasid a n = { s with ats := x } := by
  unfold State.hostTranslate
  generalize List.range _ = l
  induction l generalizing s with
  | nil => exact ⟨s.ats, rfl⟩
  | cons i r ih =>
    obtain ⟨x, hx⟩ := s.fillAts_ats die fn pasid (a.toNat / 4096 + i)
    obtain ⟨y, hy⟩ := ih (s.fillAts die fn pasid (a.toNat / 4096 + i))
    rw [List.foldl_cons, hy, hx]
    exact ⟨y, rfl⟩

/-- Binding what waits for a launch changes prerequisites alone. -/
theorem State.find_bindPrereqs {s : State} {j : Nat} {x : Launch} (k : Nat) (l : Launch)
    (has : s.launches.find j = some x) : ∃ ps, (s.bindPrereqs k l).launches.find j = some { x with prereqs := ps } := by
  simp only [State.bindPrereqs, Table.find_mapVal, has, Option.map_some]
  split
  · exact ⟨_, rfl⟩
  · exact ⟨x.prereqs, rfl⟩

/-- Holding back what is tainted changes the state of waiting launches alone, to held. -/
theorem State.find_holdTainted {s : State} {j : Nat} {x : Launch} (has : s.launches.find j = some x) :
    ∃ st, s.holdTainted.launches.find j = some { x with state := st } ∧ (x.state ≠ .waiting → st = x.state) ∧
      (x.state = .waiting → st = .waiting ∨ st = .held) := by
  simp only [State.holdTainted, Table.find_mapVal, has, Option.map_some]
  split
  case isTrue tainted => exact ⟨.held, rfl, fun other => absurd tainted.1 other, fun _ => .inr rfl⟩
  case isFalse => exact ⟨x.state, rfl, fun _ => rfl, .inl⟩

/-- A launch that has just been accepted is as it was made, but for bound prerequisites and what taint holds back. -/
theorem State.find_admitted {s : State} {j : Nat} {l : Launch} (has : s.launches.find j = some l) (k : Nat) (m : Launch) :
    ∃ x : Launch, (s.bindPrereqs k m).holdTainted.launches.find j =
      some { l with prereqs := x.prereqs, state := x.state } ∧ (l.state ≠ .waiting → x.state = l.state) ∧
      (l.state = .waiting → x.state = .waiting ∨ x.state = .held) := by
  obtain ⟨ps, bound⟩ := State.find_bindPrereqs k m has
  obtain ⟨st, held, other, waiting⟩ := State.find_holdTainted bound
  exact ⟨{ l with prereqs := ps, state := st }, held, other, waiting⟩

theorem State.countLevels_queues (s : State) (p : Nat) (l : List Level) : (s.countLevels p l).queues = s.queues := by
  unfold State.countLevels
  split <;> simp

theorem State.countLevels_launches (s : State) (p : Nat) (l : List Level) : (s.countLevels p l).launches = s.launches := by
  unfold State.countLevels
  split <;> simp

theorem State.countLevels_serial (s : State) (p : Nat) (l : List Level) : (s.countLevels p l).serial = s.serial := by
  unfold State.countLevels
  split <;> simp

theorem State.acceptEntry_idle {s : State} {slot : Nat} {q : Queue} (has : s.queues.find slot = some q)
    (idle : q.deleted = true ∨ q.tail ≤ q.next ∨ 64 ≤ (s.activeOf q.fn).length) : s.acceptEntry slot = s := by
  simp only [State.acceptEntry, has]
  exact if_pos idle

section
variable {s u : State} {slot : Nat} {q : Queue} {a : Word} {r : List Byte} (has : s.queues.find slot = some q)
  (live : q.deleted = false) (ready : q.next < q.tail) (room : (s.activeOf q.fn).length < 64)
  (place : q.base + wordOf (256 * (q.next % 2 ^ q.log2)) = a) (entry : s.hostRead q.fn (some q.pasid) a 256 = r)
  (read : s.hostTranslate 0 q.fn (some q.pasid) a 256 = u)
include has live ready room place entry read

theorem State.acceptEntry_node (node : isNode r = true) : s.acceptEntry slot = ({ u with
    queues := u.queues.put slot { q with next := q.next + 1, node := some (r, !nodeOk r) } }.post
      (.launchAccept slot)) := by
  have open_ : ¬(q.deleted ∨ q.next ≥ q.tail ∨ (s.activeOf q.fn).length ≥ 64) := by simp [live, ready, room]
  simp only [State.acceptEntry, has, if_neg open_, place, entry, read, node, if_true]

/-- What an accepted record leaves: the queue goes on, and the launch stands under the next number. -/
theorem State.acceptEntry_record (record : isNode r = false) :
    let n := u.newLaunch q slot r
    let v := u.tick.countLevels n.1.part n.2
    s.acceptEntry slot = ((({ v with
      queues := v.queues.put slot { q with next := q.next + 1, node := none },
      launches := v.launches.put v.serial n.1 }.bindPrereqs v.serial n.1).holdTainted.post
      (if n.1.state = LaunchState.waiting then .launchStart v.serial else .completionPost v.serial)).post
      (.launchAccept slot)) := by
  have open_ : ¬(q.deleted ∨ q.next ≥ q.tail ∨ (s.activeOf q.fn).length ≥ 64) := by simp [live, ready, room]
  simp only [State.acceptEntry, has, if_neg open_, place, entry, read, record, Bool.false_eq_true, if_false]

/-- The new launch is as its record says, but for the prerequisites that were bound and what taint holds back (R387,
R388); its start or its rejection is on its way. -/
theorem State.acceptEntry_launch (record : isNode r = false) :
    let n := u.newLaunch q slot r
    (s.acceptEntry slot).queues.find slot = some { q with next := q.next + 1, node := none } ∧
    (∃ x : Launch, (s.acceptEntry slot).launches.find (s.serial + 1) = some { n.1 with prereqs := x.prereqs, state := x.state } ∧
      (n.1.state ≠ .waiting → x.state = n.1.state) ∧ (n.1.state = .waiting → x.state = .waiting ∨ x.state = .held)) ∧
    (n.1.state = .waiting → .launchStart (s.serial + 1) ∈ (s.acceptEntry slot).pending) ∧
    (n.1.state ≠ .waiting → .completionPost (s.serial + 1) ∈ (s.acceptEntry slot).pending) := by
  intro n
  have number : (u.tick.countLevels n.1.part n.2).serial = s.serial + 1 := by
    obtain ⟨x, ats⟩ := s.hostTranslate_ats 0 q.fn (some q.pasid) a 256
    rw [State.countLevels_serial, ← read, ats]
    rfl
  rw [State.acceptEntry_record has live ready room place entry read record, number]
  generalize u.tick.countLevels n.1.part n.2 = v
  refine ⟨Table.find_put_same _ _ _, State.find_admitted (Table.find_put_same _ _ _) _ _, fun start => ?_,
    fun rejected => ?_⟩
  · rw [if_pos start]
    simp [State.post]
  · rw [if_neg rejected]
    simp [State.post]

end

/-! ### Starts and completions -/

theorem State.tryStart_blocked {s : State} {k : Nat} {l : Launch} (has : s.launches.find k = some l)
    (blocked : s.unblocked l = false) : s.tryStart k = s := by
  simp only [State.tryStart, has, blocked, Bool.not_false, if_true]

section
variable {s : State} {k : Nat} {l : Launch} (has : s.launches.find k = some l) (free : s.unblocked l = true)
  (first : s.outranked l = false)
include has free first

theorem State.tryStart_tainted (taint : s.prereqTainted l = true) (kept : l.released = false) :
    s.tryStart k = s.modLaunch k fun l => { l with state := .held } := by
  simp only [State.tryStart, has, free, first, taint, kept, Bool.not_true, Bool.not_false, Bool.and_self,
    Bool.false_eq_true, if_false, if_true]

variable (clean : (s.prereqTainted l && !l.released) = false)
include clean

theorem State.tryStart_unconditional (plain : l.predicate = none) : s.tryStart k = s.startLaunch k l := by
  simp only [State.tryStart, has, free, first, clean, plain, Bool.not_true, Bool.false_eq_true, if_false]

theorem State.tryStart_conditional {a : Word} {u : State} {v : Word} (conditional : l.predicate = some a)
    (value : s.predicateValue l a = (u, v)) : s.tryStart k = if v = 0
      then (u.modLaunch k fun l => { l with state := .posting 3 0 }).post (.completionPost k)
      else u.startLaunch k l := by
  simp only [State.tryStart, has, free, first, clean, conditional, value, Bool.not_true, Bool.false_eq_true, if_false]

end

section
variable {s : State} {k : Nat} {l : Launch} (has : s.launches.find k = some l) (now : l.heldOn = none)
  (runs : s.partStill l.part = false)
include has now runs

theorem State.tryPost_running (running : l.state = .running) : s.tryPost k =
    if l.rootsLive = 0 ∧ (s.launchTasks k).isEmpty then s.postLaunch k l 1 0 else s := by
  simp only [State.tryPost, has, now, runs, running, Option.isSome_none, Bool.false_eq_true, or_self, if_false]

theorem State.tryPost_posting {a b : Nat} (posting : l.state = .posting a b) : s.tryPost k = s.postLaunch k l a b := by
  simp only [State.tryPost, has, now, runs, posting, Option.isSome_none, Bool.false_eq_true, or_self, if_false]

end

theorem execLaunchStall_full {s : State} {fn k : Nat} {l : Launch} {r : List (Nat × Launch)}
    (active : s.activeOf fn = (k, l) :: r) (full : 63 ≤ r.length)
    (stuck : ∀ e ∈ s.activeOf fn, e.2.state = .waiting ∨ e.2.state = .held)
    (blocked : ∀ e ∈ s.activeOf fn, s.unblocked e.2 = false ∨ s.prereqTainted e.2 = true) : execLaunchStall fn s =
      .next (s.report (ringOfFn fn) { mkReport s 5 0xFE 0x01 l.home 0 with part := l.part, info := l.seq }).1 := by
  have all : ((s.activeOf fn).all fun e => e.2.state == .waiting || e.2.state == .held) = true := by simpa using stuck
  have any : ((s.activeOf fn).any fun e => s.unblocked e.2 && !s.prereqTainted e.2) = false := by
    simpa [List.any_eq_false, ← Bool.not_eq_true, ← imp_iff_not_or] using blocked
  have len : (s.activeOf fn).length ≥ 64 := by rw [active, List.length_cons]; omega
  simp only [execLaunchStall, all, any, len, and_self, Bool.not_false, if_true]
  rw [active]
  rfl

/-! ### Report rings -/

theorem execReportPost_empty {s : State} {r : Nat} (none_ : (s.ring r).held = []) : execReportPost r s = .next s := by
  simp only [execReportPost, Ring.canPost, none_, List.isEmpty_nil, Bool.not_true, Bool.false_and, Bool.not_false, if_true]

theorem execReportPost_oldest {s : State} {r : Nat} {y : Report} {rest : List Report}
    (some_ : (s.ring r).held = y :: rest) (room : (s.ring r).posted.length ≤ Config.ringRoom)
    (round : (s.ring r).used < (s.ring r).weight) : execReportPost r s = .next (s.postOne r) := by
  simp only [execReportPost, Ring.canPost, some_, room, round, List.isEmpty_cons, Bool.not_false, decide_true,
    Bool.and_self, Bool.not_true, Bool.false_eq_true, if_false, if_true]

theorem execRingAck_unknown {s : State} {r seq : Nat} (none_ : ((s.ring r).posted.find? fun z => z.seq == seq) = none) :
    execRingAck r seq s = .next s := by
  simp only [execRingAck, State.ackPart, State.applyAck, none_]

theorem execRingAck_kept {s : State} {r seq p : Nat} {y : Report}
    (some_ : ((s.ring r).posted.find? fun z => z.seq == seq) = some y) (halts : s.halting y.origin = true)
    (part : s.partOf y.origin = some p) :
    execRingAck r seq s = .next (s.modPart p fun x => { x with acks := x.acks ++ [(r, seq)] }) := by
  simp only [execRingAck, State.ackPart, some_, halts, part, if_true]

theorem execRingAck_applied {s : State} {r seq : Nat} {y : Report}
    (some_ : ((s.ring r).posted.find? fun z => z.seq == seq) = some y) (runs : s.halting y.origin = false) :
    execRingAck r seq s = .next
      (let x := s.ring r
       let t := (s.setRing r { x with posted := x.posted.filter fun z => z.seq != seq }).post (.reportPost r)
       if r = ringTerminal then t
       else releaseAll r (((x.posted ++ x.held).filter fun z => samePage y z).map fun z => z.seq) t) := by
  simp only [execRingAck, State.ackPart, State.applyAck, some_, runs, Bool.false_eq_true, if_false]

/-! ### The windrow and lost cores -/

section
variable {s : State} {c : Nat}

theorem execWindrowDrainStart_next {i : Nat} (idle : (s.cluster c).drain = none) (next : s.nextDrain c = some i) :
    execWindrowDrainStart c s = .next (s.modCluster c fun k => { k with
      drain := some (c * 4 + i, 0), nextPair := if s.pairLost c i then k.nextPair else (i + 1) % 4 }) := by
  simp only [execWindrowDrainStart, idle, next]

theorem execWindrowDrainStart_busy (busy : (s.cluster c).drain ≠ none) : execWindrowDrainStart c s = .next s := by
  obtain ⟨d, hd⟩ := Option.ne_none_iff_exists'.mp busy
  simp only [execWindrowDrainStart, hd]

theorem execWindrowDrainTimeout_open {p : Nat} (draining : (s.cluster c).drain = some (p, 0)) :
    execWindrowDrainTimeout c s =
      .next (haltAll (hartsOfPair p) ((s.modCluster c fun k => { k with drain := some (p, 1) }).withdrawPair p)) := by
  simp only [execWindrowDrainTimeout, draining]

theorem execWindrowScanEnd_early {p : Nat} (draining : (s.cluster c).drain = some (p, 1)) (busy : s.scanReady p = false)
    (pass : Bool) : execWindrowScanEnd c pass s = .next s := by
  simp only [execWindrowScanEnd, draining, busy, Bool.false_eq_true, if_false]

theorem execWindrowScanEnd_done {p : Nat} (draining : (s.cluster c).drain = some (p, 1)) (ready : s.scanReady p = true)
    (pass : Bool) : execWindrowScanEnd c pass s = .next
      (((if pass then ((s.modCluster c fun k => { k with drain := none }).cover p).returnCores c (p % 4)
        else (s.modCluster c fun k => { k with drain := none }).scanFails c p).amend.post (.tileOpStart p)).retryGangs c) := by
  simp only [execWindrowScanEnd, draining, ready, if_true]

end

/-! ### Links -/

theorem execRemoteReplyTimeout_idle {s : State} {h : Nat} (idle : (s.hart h).waiting = none) :
    execRemoteReplyTimeout h s = .next s := by
  simp only [execRemoteReplyTimeout, idle]
  cases s.outgoing.find? _ <;> rfl

theorem execRemoteReplyTimeout_late {s : State} {h : Nat} {o : Outgoing} {x : Wait}
    (out : (s.outgoing.find? fun o => o.mark == s.markOf h) = some o) (waits : (s.hart h).waiting = some x)
    (sent : ∃ l, x.kind = .sent l) (open_ : x.reply = none) :
    execRemoteReplyTimeout h s = .next (s.deliverReply h o.timeout) := by
  obtain ⟨l, kind⟩ := sent
  have awaits : x.awaits = true := by simp [Wait.awaits, kind, open_]
  simp only [execRemoteReplyTimeout, out, waits, awaits, if_true]

end Sys2Proof.Machine

open Sys2Proof Sys2Proof.Machine

/-- Settles O53: each event is an equation, or for an accepted record the queue, the launch and what is on its way. -/
theorem launchesReportsAndUnitsGoOn : Obligations.LaunchesReportsAndUnitsGoOn := by
  unfold Obligations.LaunchesReportsAndUnitsGoOn
  refine ⟨?notify, ?accept, ?start, fun s fn k l r => execLaunchStall_full, ?rings, ?windrow, ?coreLoss, ?links⟩
  case notify =>
    refine fun s fn slot tail => ⟨fun none_ => ⟨_, execNotifyWrite_drop tail none_, s.countDrop_get fn, rfl⟩,
      fun q live => ?_⟩
    obtain ⟨index, above, below⟩ := tail_moves (Nat.two_pow_pos q.log2) tail.toNat q.tail
    exact ⟨_, _, execNotifyWrite_queue tail live, Table.find_put_same _ _ _, index, above, below, rfl⟩
  case accept =>
    refine fun s slot q has => ⟨fun idle => congrArg _ (State.acceptEntry_idle has idle), fun live ready room => ?_⟩
    intro a r u
    have place : q.base + wordOf (256 * (q.next % 2 ^ q.log2)) = a := rfl
    have entry : s.hostRead q.fn (some q.pasid) a 256 = r := rfl
    have read : s.hostTranslate 0 q.fn (some q.pasid) a 256 = u := rfl
    -- The entry and the state that has read it stay names: their 256 bytes are not for the kernel to compare.
    clear_value u r a
    exact ⟨fun node => congrArg _ (State.acceptEntry_node has live ready room place entry read node),
      fun record => ⟨_, rfl, State.acceptEntry_launch has live ready room place entry read record⟩⟩
  case start =>
    refine fun s k l has => ⟨fun blocked => congrArg _ (State.tryStart_blocked has blocked),
      fun free first => ⟨fun taint kept => congrArg _ (State.tryStart_tainted has free first taint kept), fun clean => ?_⟩,
      fun now runs => ⟨fun running none_ empty => ?_, fun running some_ => ?_, fun a b posting => ?_⟩⟩
    · have clean' : (s.prereqTainted l && !l.released) = false := by rcases clean with h | h <;> simp [h]
      refine ⟨fun plain => congrArg _ (State.tryStart_unconditional has free first clean' plain),
        fun a u v conditional value => ?_⟩
      have starts := State.tryStart_conditional has free first clean' conditional value
      exact ⟨fun zero => congrArg _ (starts.trans (if_pos zero)), fun some_ => congrArg _ (starts.trans (if_neg some_))⟩
    · exact congrArg _ ((State.tryPost_running has now runs running).trans (if_pos ⟨none_, by simp [empty]⟩))
    · exact congrArg _ ((State.tryPost_running has now runs running).trans (if_neg fun h => some_ h.1))
    · exact congrArg _ (State.tryPost_posting has now runs posting)
  case rings =>
    intro s r y rest x
    refine ⟨execReportPost_empty, fun some_ room round => ?_, fun seq => execRingAck_unknown,
      fun seq p => execRingAck_kept, fun seq some_ runs => ?_⟩
    · refine (execReportPost_oldest some_ room round).trans ?_
      rw [State.postOne, some_]
      rfl
    · have applied := execRingAck_applied some_ runs
      exact ⟨fun terminal => applied.trans (congrArg _ (if_pos terminal)),
        fun other => applied.trans (congrArg _ (if_neg other))⟩
  case windrow =>
    intro s c i p k
    refine ⟨execWindrowDrainStart_next, execWindrowDrainStart_busy, execWindrowDrainTimeout_open,
      fun idle => ⟨?_, fun pass => ?_⟩, fun draining => ⟨execWindrowScanEnd_early draining, fun ready => ?_⟩⟩
    · rw [exec_windrowDrainTimeout, execWindrowDrainTimeout, idle]
    · rw [exec_windrowScanEnd, execWindrowScanEnd, idle]
    · exact ⟨execWindrowScanEnd_done draining ready true, execWindrowScanEnd_done draining ready false⟩
  case coreLoss =>
    refine fun s core => ⟨fun lost => if_pos lost, fun serves => ?_⟩
    intro u goesOn
    simp only [exec_coreLoss, execCoreLoss, serves, Bool.false_eq_true, if_false]
    rw [goesOn]
  case links =>
    refine fun s port h c v w => ⟨rfl, fun lost => if_pos lost, fun serves => ?_, execRemoteReplyTimeout_idle,
      fun o x => execRemoteReplyTimeout_late, rfl, fun legal => ⟨?_, ?_⟩, ⟨rfl, rfl⟩, _, rfl,
      State.cluster_modCluster _ _ _, fun d other => State.cluster_modCluster_other _ _ _ _ other⟩
    · rw [exec_linkPortLost, execLinkPortLost, serves]
      rfl
    · rw [exec_profileWind, execProfileWind, if_neg legal]
    · rw [exec_profilePower, execProfilePower, if_neg legal]
end

section
/-! PROOFS. Base loads and `lr` (R48, R69, R403): what a load writes, and an address that no access forms. -/

namespace Sys2Proof.Machine

/-- A load into an x register: the address, then its bytes, then the write. -/
theorem execBaseLoad_x {s t : State} {op : LoadOp} {rd rs1 : Reg} {i : BitVec 12} {a : Word} {bs : List Byte}
    (noFlw : op ≠ .flw) (noFld : op ≠ .fld) (addr : s.baseAddr .load rs1 i = .ok a)
    (load : s.load a (LoadOp_size op) (LoadOp_size op) = .ok (t, bs)) :
    execBaseLoad op rd rs1 i s = .next (t.setX rd (extendLoad op (leNat bs))).complete := by
  rw [execBaseLoad]
  apply runOpen_ok
  cases op
  case flw => exact absurd rfl noFlw
  case fld => exact absurd rfl noFld
  all_goals simp only [addr, load, bind, Except.bind, pure, Except.pure]

/-- A load into an f register, which FS permits. -/
theorem execBaseLoad_f {s t : State} {op : LoadOp} {rd rs1 : Reg} {i : BitVec 12} {a : Word} {bs : List Byte}
    (fp : op = .flw ∨ op = .fld) (fs : fsOf s.me.sys.mstatus ≠ 0) (addr : s.baseAddr .load rs1 i = .ok a)
    (load : s.load a (LoadOp_size op) (LoadOp_size op) = .ok (t, bs)) :
    execBaseLoad op rd rs1 i s = .next (t.setF rd (extendLoad op (leNat bs))).complete := by
  rw [execBaseLoad]
  apply runOpen_ok
  rcases fp with rfl | rfl <;> simp only [s.needFs_on fs, addr, load, bind, Except.bind, pure, Except.pure]

/-- A load whose address cannot be formed ends as that error says. -/
theorem execBaseLoad_error {s : State} {op : LoadOp} (rd : Reg) {rs1 : Reg} {i : BitVec 12} {cause sub : Nat} {tval : Word}
    (idle : s.me.waiting = none) (fs : op = .flw ∨ op = .fld → fsOf s.me.sys.mstatus ≠ 0)
    (addr : s.baseAddr .load rs1 i = .error (.trap cause sub tval)) :
    execBaseLoad op rd rs1 i s = .next (s.takeTrap s.cur false cause sub tval) := by
  rw [execBaseLoad, ← s.finish_trap idle (.baseLoad op rd rs1 i)]
  refine runOpen_error ?_ (by simp)
  cases op
  case flw | fld => simp only [s.needFs_on (fs (by simp)), addr, bind, Except.bind]
  all_goals simp only [addr, bind, Except.bind]

/-- An address past either end of the address space is refused (R48, log 64). -/
theorem State.baseAddr_outside {s : State} {acc : Acc} {rs1 : Reg} {i : BitVec 12}
    (outside : ¬(0 ≤ ((s.x rs1).toNat : Int) + i.toInt ∧ ((s.x rs1).toNat : Int) + i.toInt < 2 ^ 64)) :
    s.baseAddr acc rs1 i = .error (.trap acc.faultCause 0 (s.x rs1 + imm12 i)) := if_neg outside

theorem LoadOp_size_cases (op : LoadOp) :
    LoadOp_size op = 1 ∨ LoadOp_size op = 2 ∨ LoadOp_size op = 4 ∨ LoadOp_size op = 8 := by
  cases op <;> simp [LoadOp_size]

end Sys2Proof.Machine

open Sys2Proof Sys2Proof.Machine

/-- Settles O6: the address and its bytes are read in turn, and the register is written; `lr` resolves its line again. -/
theorem loadsWriteWhatTheyRead : Obligations.LoadsWriteWhatTheyRead := by
  unfold Obligations.LoadsWriteWhatTheyRead
  refine fun s rd rs1 idle => ⟨fun op i a t bs addr noFlw noFld load => ?x, fun op i a t bs addr fp fs load => ?f,
    fun op i fs outside => ?outside, fun d aq rl t bs u ls noWindow load line => ?lr⟩
  case x => exact (exec_baseLoad ..).trans (execBaseLoad_x noFlw noFld addr load)
  case f => exact (exec_baseLoad ..).trans (execBaseLoad_f fp fs addr load)
  case outside => exact (exec_baseLoad ..).trans (execBaseLoad_error rd idle fs (State.baseAddr_outside outside))
  case lr =>
    rw [exec_lr, execLr]
    apply runOpen_ok
    simp only [noWindow, load, line, Bool.and_false, Bool.false_eq_true, if_false, bind, Except.bind, pure, Except.pure]

/-- Settles O7: without translation the bytes of the load are those of memory, and nothing but the hart changes. -/
theorem machineModeLoadReadsMemory : Obligations.MachineModeLoadReadsMemory := by
  unfold Obligations.MachineModeLoadReadsMemory
  intro s op rd rs1 i a addr idle mode mprv noError noFlw noFld np pm al top
  have load := load_machine s a (LoadOp_size op) mode mprv np pm noError (LoadOp_size_cases op) al top
  rw [exec_baseLoad, execBaseLoad_x noFlw noFld addr load, State.wrote_eq s idle]
end

section
/-! PROOFS. Reset (R54, R103, R347, R398, R402): the tables are empty, so each unit reads as its unlisted value. -/

namespace Sys2Proof.Machine

theorem State.reset_hart (h : Nat) : State.reset.hart h = Hart.zero := rfl
theorem State.reset_stage (c n : Nat) : State.reset.stage c n = default := rfl
theorem State.reset_tile (p t : Nat) : State.reset.tile p t = default := rfl
theorem State.reset_part (p : Nat) : State.reset.parts.get p default = default := rfl

theorem Stage.default_words : Stage.word0 default = 0 ∧ Stage.word1 default = 0 := by decide

theorem Tile.default_reads : Tile.status default = 0 ∧ ∀ r, (default : Tile).rows.get r 0 = 0 := ⟨by decide, fun _ => rfl⟩

/-- The registers of the reset context are 0 (R402; for x and f the model's choice, log 1). -/
theorem Ctx.zero_registers (r : Fin 32) : Ctx.zero.x[r] = 0 ∧ Ctx.zero.f[r] = 0 := by
  simp [Ctx.zero]

theorem Ctx.zero_mfmt (n : Fin 4) : Ctx.zero.mfmt[n] = 0 := by
  simp [Ctx.zero]

end Sys2Proof.Machine

open Sys2Proof Sys2Proof.Machine

/-- Settles O56: the units of the reset state are the unlisted ones, whose fields are read off. -/
theorem resetLeavesItsValues : Obligations.ResetLeavesItsValues := by
  unfold Obligations.ResetLeavesItsValues
  refine ⟨fun h => ?harts, fun c n => ?stages, fun p t => ?tiles, fun p i => rfl, fun k => rfl, fun k => rfl,
    fun p => ?parts, fun r => rfl, rfl, rfl, by decide, by decide, reset_mem_wf, fun a _ _ => rfl, fun h => ?registers,
    fun a => rfl⟩
  case harts =>
    rw [State.reset_hart]
    exact ⟨rfl, rfl, Ctx.zero_mfmt, rfl, rfl, rfl, rfl, rfl, rfl, rfl, rfl, rfl⟩
  case stages =>
    rw [State.reset_stage]
    exact Stage.default_words
  case tiles =>
    rw [State.reset_tile]
    exact Tile.default_reads
  case parts =>
    rw [State.reset_part]
    exact ⟨rfl, rfl, rfl, rfl, rfl⟩
  case registers =>
    rw [State.reset_hart]
    exact ⟨rfl, Ctx.zero_registers⟩
end

section
/-! PROOFS. Row words that read tiles into masks, registers or memory, and row loads and stores (R285, R289 to R300). -/

namespace Sys2Proof.Machine

/-! ### How the executions of a row word end it -/

section
variable {s u t : State} {reads : List TileReg} {d : RowDst} {us : List Tup} {ok : Bool} {i : Instr}
  {body : State → Except Exc State} {one : State → Tup → Except Exc State}

/-- Executions that all succeed, in order. -/
theorem runOpen_rows (ready : s.rowReady reads d us u) (fits : ok = true) (word : body s = s.rowWord reads d false ok one)
    (runs : us.foldlM one u = .ok t) : runOpen i s body = .next t.rowEnd := by
  refine runOpen_ok (t := t.checkTmem.useFresh) ?_
  rw [word]
  exact rowWord_ready ready fits (foldlM_runAll runs)

/-- The one execution of a word that never widens (R310). -/
theorem runOpen_once (ready : s.rowReadyOnce reads d u) (fits : ok = true) (word : body s = s.rowWord reads d true ok one)
    (run : one u s.noTuple = .ok t) : runOpen i s body = .next t.rowEnd := by
  refine runOpen_ok (t := t.checkTmem.useFresh) ?_
  rw [word]
  exact rowWord_once ready fits (by rw [runAll, run]; rfl)

/-- An error of the first execution ends the word. -/
theorem rowWord_first_error {w : Tup} {r : List Tup} {e : Exc} (ready : s.rowReady reads d (w :: r) u) (fits : ok = true)
    (fails : one u w = .error e) : s.rowWord reads d false ok one = .error e := by
  obtain ⟨fault, below, free, spill, T, lift, execs, prep⟩ := ready
  simp only [State.rowWord]
  rw [fault, State.tilesBelow_ok below]
  simp only [bind, Except.bind, fits, Bool.not_true, Bool.false_eq_true, ↓reduceIte, lift, free, ← execs,
    prep, State.spillCheck_ok spill, runAll, fails]

end

/-- A word that writes no tile and no mask executes in the state it finds. -/
theorem rowReadyOnce_same {s u : State} {reads : List TileReg} {d : RowDst} (ready : s.rowReadyOnce reads d u)
    (quiet : ∀ us, s.prepareRow d 0 us = .ok s) : u = s := by
  obtain ⟨-, -, -, -, -, prep⟩ := ready
  rw [quiet] at prep
  exact (Except.ok.inj prep).symm

theorem State.faultFirst_ok {s : State} {i : Instr} {hit : OpFault → Bool} (run : Result) (fault : s.opFaultAt hit = .ok ()) :
    s.faultFirst i hit run = run := by
  rw [State.faultFirst, fault, ite_self]

/-! ### Comparisons and reductions -/

theorem State.compare_fold {s u : State} {ta tb : TileReg} {kd : KReg} {us : List Tup} {i : Instr} {xr : Reg}
    {quiet : Bool} {f : Ordering → Bool} {body : State → Except Exc State}
    (ready : s.rowReady [ta, tb] (.mask kd ta) us u) (tags : s.sameTags [ta, tb] = true)
    (number : (s.tileLay ta).isNumber = true) (len : (s.tileLay ta).count ≤ 256)
    (word : body s = s.compare kd ta tb xr quiet f) :
    runOpen i s body = .next (us.foldl (fun t w =>
      let l := t.tileLay ta
      let v := cmpMask l.count (t.active w l.count) t.mods.zero (t.myLift.mask kd w) fun j =>
        let x := l.valueIn t.mods.fzi (t.row ta w (s.rowIdx xr)) j
        let y := l.valueIn t.mods.fzi (t.row tb w (s.rowIdx xr)) j
        match x.cmp y with
        | some o => (f o, 0)
        | none => (false, if !quiet || x.isSnan || y.isSnan then flagNv else 0)
      (t.modLift fun k => k.setMask kd w v.1).orFlagsOf ta v.2) u).rowEnd :=
  rowWord_fold _ ready (by simp [tags, number, len]) word

theorem State.reduce_once {s u : State} {rs xr : Reg} {ta : TileReg} {i : Instr} {f : Lay → List Num → Nat × Nat}
    {body : State → Except Exc State} (ready : s.rowReadyOnce [ta] (.flags ta) u)
    (number : (s.tileLay ta).isNumber = true) (word : body s = s.reduce rs ta xr f) :
    runOpen i s body = .next (
      let l := u.tileLay ta
      let v := f l (activeValues l u.mods.fzi (u.active s.noTuple l.count) (u.row ta s.noTuple (u.rowIdx xr)))
      ((u.setX rs (l.f.toReg v.1)).orFlagsOf ta v.2).rowEnd) :=
  runOpen_once ready number word rfl

/-! ### `vqmx` (R299) -/

/-- What follows the read-modify-write of `vqmx` takes no task off the hart. -/
theorem State.qmxEnd_task (t : State) (rs : Reg) (ta : TileReg) (v : Word) (flags n : Nat) :
    ((((t.modMe fun x => { x with resv := none }).setX rs v).orFlagsOf ta flags).countClamp n).checkTmem.useFresh.me.task =
      t.me.task := by
  rw [(useFresh_keeps _).task, (State.checkTmem_keeps _).task, State.countClamp_me, (State.orFlagsOf_keeps _ _ _).task,
    State.setX_task, State.me_modMe]

end Sys2Proof.Machine

open Sys2Proof Sys2Proof.Machine

/-- Settles O46: each word is one execution, or the executions of its tuples in order, in the state that its checks leave;
`vqmx` has closed its region before, and a sum outside the address space ends the first execution. -/
theorem rowWordsReadTilesAndMemory : Obligations.RowWordsReadTilesAndMemory := by
  unfold Obligations.RowWordsReadTilesAndMemory
  intro s u t td ta tb kd rs xr us i r m
  refine ⟨?compare, ?vext, ?reduce, ?vqmx, ?vld, ?vldOutside, ?vst,
    fun p => ⟨fun inside fits => ?pair, fun idle bad => ?misfit⟩⟩
  case compare =>
    rintro quiet f ready tags number len (⟨rfl, rfl, rfl⟩ | ⟨rfl, rfl, rfl⟩ | ⟨rfl, rfl, rfl⟩)
    · exact State.compare_fold ready tags number len rfl
    · exact State.compare_fold ready tags number len rfl
    · exact State.compare_fold ready tags number len rfl
  case vext =>
    intro ready plain l
    obtain rfl := rowReadyOnce_same ready fun _ => rfl
    exact runOpen_once ready (by simp [plain]) rfl rfl
  case reduce =>
    rintro f ready number l v (⟨rfl, rfl⟩ | ⟨rfl, rfl⟩ | ⟨rfl, rfl⟩)
    · exact State.reduce_once (f := fun l => sumCode l.f s.rm s.mods.fzo s.freshBase) ready number rfl
    · exact State.reduce_once (f := fun l => pickCode l.f true s.freshBase) ready number rfl
    · exact State.reduce_once (f := fun l => pickCode l.f false s.freshBase) ready number rfl
  case vqmx =>
    intro sc old idle noEnd fault c l xs v ready number width rmw
    obtain rfl : u = c := rowReadyOnce_same ready fun _ => rfl
    have fits : (l.isNumber && (l.f.width == 8 || l.f.width == 16 || l.f.width == 32 || l.f.width == 64)) = true := by
      simpa [number, or_assoc] using width
    rw [exec_vqmx, execVqmx, State.faultFirst_ok _ fault]
    refine runClosing_ok idle rfl noEnd (rowWord_once ready fits ?run) (.inl ?task)
    case run =>
      simp only [runAll, bind, Except.bind]
      rw [rmw]
      rfl
    case task => exact (State.qmxEnd_task ..).trans (State.rmw_keeps _ _ _ _ _ _ rmw).task
  case vld =>
    intro off d ready blocks runs
    rw [exec_vld, execVld]
    exact runOpen_rows ready (by simpa using blocks) rfl runs
  case vldOutside =>
    rintro off w r rfl idle d ready blocks outside
    rw [exec_vld, execVld, ← s.finish_trap idle (.vld td rs off xr)]
    refine runOpen_error (rowWord_first_error ready (by simpa using blocks) ?_) (by simp)
    have refused : ¬(0 ≤ u.rowSum rs off w ∧ u.rowSum rs off w < 2 ^ 64) := by omega
    simp only [State.rowPlace, if_neg refused]
    rfl
  case vst =>
    intro off ready blocks runs
    rw [exec_vst, execVst]
    exact runOpen_rows ready (by simpa using blocks) rfl runs
  case pair => exact if_neg (by simp [inside, fits])
  case misfit =>
    rw [← s.finish_illegal idle (.vpfx p)]
    exact if_pos (by simpa using bad)
end

section
/-! PROOFS. What the host does through its registers (R61, R328, R336, R369, R385 to R398): commands, resets, losses. -/

namespace Sys2Proof.Machine

/-! ### Commands on a partition -/

section
variable {s : State} {cmd : Nat}

theorem State.withPart_absent (f : Nat → Part → Result) (free : s.hbusy = false)
    (absent : (s.parts.get (s.harg 0) default).present = false) : s.withPart cmd f = .next (s.hdone cmd 1 0) := by
  rw [State.withPart, free, if_neg Bool.false_ne_true]
  split
  case h_1 p found =>
    rw [Table.get, found] at absent
    exact if_neg (by simpa using absent)
  case h_2 => rfl

theorem State.withPart_present {x : Part} (f : Nat → Part → Result) (free : s.hbusy = false)
    (found : s.parts.find (s.harg 0) = some x) (present : x.present = true) : s.withPart cmd f = f (s.harg 0) x := by
  rw [State.withPart, free, if_neg Bool.false_ne_true, found]
  exact if_pos present

theorem State.hagain_busy (again : Instr) (start : Result) (busy : s.hbusy = true) :
    s.hagain cmd again start = .next (if bits s.hstat 0 8 = cmd then s.hwaitFor cmd again s.hwait else s) := if_pos busy

theorem State.hagain_free (again : Instr) (start : Result) (free : s.hbusy = false) : s.hagain cmd again start = start :=
  if_neg (by simp [free])

theorem State.modPart_found {p : Nat} {x : Part} (f : Part → Part) (found : s.parts.find p = some x) :
    s.modPart p f = { s with parts := s.parts.put p (f x) } := by
  rw [State.modPart, found]

end

/-! ### Gates -/

/-- The arguments that command 0x30 refuses: no such gate, no such owner, or a window that is none (R336). -/
def State.badGate (s : State) : Prop :=
  (1024 ≤ s.harg 0 ∧ s.harg 0 ≠ 0xFFFF) ∨ (s.parts.get (s.harg 1) default).present = false ∨ s.harg 2 % 4096 ≠ 0 ∨
    s.harg 3 = 0 ∨ 2 ^ 18 < s.harg 3 ∨ 512 ≤ s.harg 4

section
variable {s : State} (free : s.hbusy = false)
include free

theorem execHcmdCreateGate_refused (bad : s.badGate) : execHcmdCreateGate s = .next (s.hdone 0x30 1 0) := by
  refine (if_neg (by simp [free])).trans (if_pos (bad.imp_right (Or.imp_left fun absent => ?_)))
  revert absent
  unfold Table.get
  cases s.parts.find (s.harg 1) <;> simp

theorem execHcmdCreateGate_accepted (fine : ¬s.badGate) {o : Option Nat} (place : s.freeGateNum (s.harg 0) = o) :
    execHcmdCreateGate s = o.elim (.next (s.hdone 0x30 3 0)) fun n => .next ((s.setGate n { (default : Gate) with
      present := true, owner := s.harg 1, base := wordOf (s.harg 2), size := wordOf (s.harg 3), key := s.harg 4 }).hdone
        0x30 0 (gateHandle s.chip n).toNat) := by
  refine (if_neg (by simp [free])).trans ((if_neg (mt (Or.imp_right (Or.imp_left fun absent => ?_)) fine)).trans ?_)
  · revert absent
    unfold Table.get
    cases s.parts.find (s.harg 1) with
    | none => exact fun _ => rfl
    | some p => simp
  · rw [place]
    cases o <;> rfl

end

/-! ### Resets and losses -/

/-- The word that BRINGUP_DONE leaves in DEVREADY: ready, or err, above the steps (R398). -/
def readyWord (steps : BitVec 7) : Word :=
  steps.setWidth 64 ||| (if steps = 127 then 0x8000000000000000 else 0x4000000000000000)

/-- One of the two top bits says how bring-up ended, and the steps stand below. -/
theorem readyWord_fields (steps : BitVec 7) : (readyWord steps).getLsbD 63 = decide (steps = 127) ∧
    (readyWord steps).getLsbD 62 = decide (steps ≠ 127) ∧ (readyWord steps).setWidth 62 = steps.setWidth 62 := by
  by_cases all : steps = 127
  · subst all
    decide
  · rw [readyWord, if_neg all, decide_eq_false all, decide_eq_true all]
    simp

theorem State.resetDevice_byte (s : State) (a : Nat) :
    s.resetDevice.byte a = if a < hbmSize ∨ hostBase ≤ a then s.byte a else Config.unwrittenByte := by
  have kept := cellRead_filter Config.unwrittenByte s.mem (fun a => decide (a < hbmSize) || decide (hostBase ≤ a)) a
  simp only [Bool.or_eq_true, decide_eq_true_eq] at kept
  exact kept

/-- A table that lists no entry under a key finds none. -/
theorem Table.find_none {α : Type} {t : Table α} {k : Nat} (none_ : ∀ e ∈ t, e.1 ≠ k) : Table.find t k = none := by
  induction t with
  | nil => rfl
  | cons e r ih =>
    obtain ⟨head, tail⟩ := List.forall_mem_cons.mp none_
    rw [Table.find, if_neg head, ih tail]

/-- A partition whose scrub does not run is gone after a device reset. -/
theorem State.resetDevice_part {s : State} {p : Nat}
    (still : ∀ e ∈ s.parts, e.1 = p → e.2.scrubProg.getLsbD 62 = false) : s.resetDevice.parts.find p = none := by
  refine Table.find_none fun e listed here => ?_
  obtain ⟨x, runs, rfl⟩ := List.mem_map.mp listed
  obtain ⟨old, scrubs⟩ := List.mem_filter.mp runs
  rw [still x old here] at scrubs
  exact Bool.false_ne_true scrubs

end Sys2Proof.Machine

open Sys2Proof Sys2Proof.Machine

/-- Settles O55: a command that finds HCMD idle takes the branch that its arguments choose; a reset or a loss is one new
state, whose memory and partitions are read off. -/
theorem hostCommandsActAndAnswer : Obligations.HostCommandsActAndAnswer := by
  unfold Obligations.HostCommandsActAndAnswer
  refine ⟨?commands, ?queues, ?resets⟩
  case commands =>
    intro s a ends mask
    refine ⟨fun code status result => rfl, fun busy => ⟨?ignored, fun code => if_pos busy, ?rootAgain, ?invalidateAgain⟩,
      fun cmd again l => rfl, fun free => ?free⟩
    case ignored =>
      -- Each of the commands tests `hbusy` before anything else.
      intro i command
      simp only [List.mem_cons, List.not_mem_nil, or_false] at command
      rcases command with rfl | rfl | rfl | rfl | rfl | rfl | rfl | rfl | rfl | rfl | rfl | rfl | rfl | rfl | rfl | rfl | rfl
      all_goals exact if_pos (by simp [busy])
    case rootAgain => exact State.hagain_busy _ _ busy
    case invalidateAgain => exact State.hagain_busy _ _ busy
    case free =>
      have idle : ¬(s.hbusy = true) := Bool.eq_false_iff.mp free
      refine ⟨fun code => if_neg idle, ?create, fun absent => ?absent, fun x found present => ?present, ?keys, ?permissions,
        ?createGate, ?noGate, ?access, if_neg idle, ?ring, ?noHeld, ?held⟩
      case create =>
        intro bad used
        have start := (exec_hcmdCreatePartition s).trans (if_neg idle)
        refine ⟨fun h => start.trans (if_pos h), fun fine present => start.trans ((if_neg fine).trans (if_pos present)),
          fun fine absent => ?_⟩
        have start := start.trans ((if_neg fine).trans (if_neg (Bool.eq_false_iff.mp absent)))
        exact ⟨fun h => start.trans (if_pos h), fun h => ⟨_, _, start.trans (if_neg (Bool.eq_false_iff.mp h)), rfl, rfl, rfl,
          rfl, rfl, rfl, rfl, rfl, rfl, rfl, rfl⟩⟩
      case absent =>
        exact ⟨(exec_hcmdAssignClusters s).trans (State.withPart_absent _ free absent),
          (exec_hcmdAssignVaults s).trans (State.withPart_absent _ free absent),
          (exec_hcmdSetStage2Root s).trans ((State.hagain_free _ _ free).trans (State.withPart_absent _ free absent)),
          (exec_hcmdInvalidateStage2 s).trans ((State.hagain_free _ _ free).trans (State.withPart_absent _ free absent)),
          (exec_hcmdDirtyTrackingOn s).trans (State.withPart_absent _ free absent),
          (exec_hcmdDirtyReport s).trans (State.withPart_absent _ free absent),
          (exec_hcmdDirtyTrackingOff s).trans (State.withPart_absent _ free absent)⟩
      case present =>
        have clusters := (exec_hcmdAssignClusters s).trans (State.withPart_present _ free found present)
        have vaults := (exec_hcmdAssignVaults s).trans (State.withPart_present _ free found present)
        have root := (exec_hcmdSetStage2Root s).trans
          ((State.hagain_free _ _ free).trans (State.withPart_present _ free found present))
        have invalidate := (exec_hcmdInvalidateStage2 s).trans
          ((State.hagain_free _ _ free).trans (State.withPart_present _ free found present))
        have trackOn := (exec_hcmdDirtyTrackingOn s).trans (State.withPart_present _ free found present)
        have report := (exec_hcmdDirtyReport s).trans (State.withPart_present _ free found present)
        have trackOff := (exec_hcmdDirtyTrackingOff s).trans (State.withPart_present _ free found present)
        refine ⟨⟨fun taken => clusters.trans (if_neg (Bool.eq_false_iff.mp taken)), fun each => clusters.trans (if_pos each)⟩,
          ⟨fun taken => vaults.trans (if_pos taken), fun each => ?vaults⟩,
          fun misaligned => root.trans (if_pos misaligned), fun aligned => ?root,
          fun misaligned => invalidate.trans (if_pos misaligned),
          fun aligned => invalidate.trans (if_neg (not_not.mpr aligned)), ?on, ?off,
          fun off => report.trans (if_pos (by simp [off])), fun on => ?report⟩
        case vaults =>
          exact (vaults.trans (if_neg (Bool.eq_false_iff.mp each))).trans (by rw [State.modPart_found _ found])
        case root => exact (root.trans (if_neg (not_not.mpr aligned))).trans (by rw [State.modPart_found _ found])
        case on => exact trackOn.trans (by rw [State.modPart_found _ found])
        case off => exact trackOff.trans (by rw [State.modPart_found _ found])
        case report =>
          have start := report.trans (if_neg (by simp [on]))
          exact ⟨fun small => start.trans (if_pos small), fun large => start.trans (if_neg (Nat.not_lt.mpr large))⟩
      case keys =>
        intro used
        refine ⟨fun big => ⟨(if_neg idle).trans (if_pos big), (if_neg idle).trans (if_pos big)⟩, fun small => ?_⟩
        have load := (exec_hcmdLoadKey s).trans ((if_neg idle).trans (if_neg (Nat.not_le.mpr small)))
        exact ⟨fun h => load.trans (if_pos h), fun h => load.trans (if_neg (Bool.eq_false_iff.mp h)),
          (if_neg idle).trans (if_neg (Nat.not_le.mpr small))⟩
      case permissions =>
        intro bs m u inside
        refine ⟨fun big => (if_neg idle).trans (if_pos big), fun small => ?_⟩
        have start := (exec_hcmdWritePermissionTable s).trans ((if_neg idle).trans (if_neg (Nat.not_le.mpr small)))
        exact ⟨fun h => start.trans (if_neg (Bool.eq_false_iff.mp h)), fun h => start.trans (if_pos h)⟩
      case createGate =>
        intro owner bad
        refine ⟨execHcmdCreateGate_refused free, fun fine => ⟨execHcmdCreateGate_accepted free fine, fun n place => ?_⟩⟩
        exact ⟨_, execHcmdCreateGate_accepted free fine place, rfl, rfl, rfl, rfl, rfl, rfl, rfl, rfl, rfl⟩
      case noGate =>
        intro (none_ : s.gates.find (s.harg 0) = none)
        refine (exec_hcmdSetAccessEntry s).trans ((if_neg idle).trans ?_)
        simp only [none_]
      case access =>
        intro g (found : s.gates.find (s.harg 0) = some g) w rate burst bad
        have start := (exec_hcmdSetAccessEntry s).trans (if_neg idle)
        simp only [found] at start
        exact ⟨fun h => start.trans (if_pos (by simpa [bad] using h)), fun h => start.trans (if_neg (by simpa [bad] using h))⟩
      case ring =>
        intro bad
        exact ⟨fun h => (if_neg idle).trans (if_pos h), fun fine => (if_neg idle).trans (if_neg fine)⟩
      case noHeld =>
        intro none_
        exact ⟨(if_neg idle).trans (by rw [none_]), (if_neg idle).trans (by rw [none_])⟩
      case held =>
        intro k l some_
        exact ⟨(if_neg idle).trans (by rw [some_]), (if_neg idle).trans (by rw [some_])⟩
  case queues =>
    intro s fn f pasid number w ends bad spot idle
    have create := (exec_hcmdCreateQueue (fn := fn) s).trans (if_neg idle)
    have delete := (exec_hcmdDeleteQueue (fn := fn) s).trans (if_neg idle)
    refine ⟨fun down => create.trans (if_pos down), fun up => ?create, fun none_ => delete.trans ?none,
      fun n some_ => delete.trans ?delete⟩
    case create =>
      have start := create.trans (if_neg (by simp [up]))
      refine ⟨fun h => start.trans (if_pos h), fun fine => ?_⟩
      have start := start.trans (if_neg fine)
      refine ⟨fun full => start.trans ?_, fun n place => start.trans ?_⟩
      · dsimp only
        split
        case h_1 => rfl
        case h_2 n place => exact nomatch full.symm.trans place
      · dsimp only
        split
        case h_1 full => exact nomatch place.symm.trans full
        case h_2 m first =>
          obtain rfl := Option.some.inj (place.symm.trans first)
          rfl
    case none =>
      dsimp only
      rw [none_]
    case delete =>
      dsimp only
      rw [some_]
  case resets =>
    intro s fn pasid addr steps
    refine ⟨rfl, rfl, fun set => if_pos set, fun new => ⟨_, if_neg (not_not.mpr new), readyWord_fields steps⟩,
      ⟨s.resetDevice, rfl, rfl, rfl, rfl, rfl, rfl, rfl, rfl, rfl, rfl, rfl, rfl, rfl, fun a kept => ?kept,
        fun a low high => ?lost, fun p => State.resetDevice_part⟩, ⟨_, rfl, rfl, fun p x found present => ?stopped⟩⟩
    case kept => rw [State.resetDevice_byte, if_pos kept]
    case lost => rw [State.resetDevice_byte, if_neg (by omega)]
    case stopped =>
      rw [Table.find_mapVal, found]
      exact congrArg some (if_pos present)
end

section
/-! PROOFS. Ordering on a hart (R74, R77, R132, R135, R403): read-modify-writes and fences; and what a write leaves in the
registers of the manual's tables (R75, R103, R104, R235). -/

namespace Sys2Proof.Machine

/-! ### Read-modify-writes -/

/-- The end of a `samo` or `scas` takes no task off the hart. -/
theorem State.rmw64End_task (u : State) (rd : Reg) (v : Word) (n : Nat) :
    (((u.modMe fun x => { x with resv := none }).setX rd v).countClamp n).me.task = u.me.task := by
  rw [State.countClamp_me, State.setX_task, State.me_modMe]

theorem State.rmw64_ok {s u : State} {old : List Byte} {rd rs1 : Reg} {scope : BitVec 3} {f : Word → Word}
    (read : s.rmw (s.x rs1) 8 (fun old => leBytes 8 (f (wordOf (leNat old))).toNat) = .ok (u, old)) :
    s.rmw64 rd rs1 scope f =
      .ok (((u.modMe fun x => { x with resv := none }).setX rd (wordOf (leNat old))).countClamp scope.toNat) := by
  rw [State.rmw64, read]
  rfl

/-- A word that is one scoped read-modify-write in the closed state (R135). -/
theorem runClosing_rmw64 {s u : State} {old : List Byte} {i : Instr} {rd rs1 : Reg} {scope : BitVec 3} {f : State → Word → Word}
    (starts : s.starts) (noEnd : s.closed.noEnd) (plain : isGateWait i = false)
    (read : s.closed.rmw (s.closed.x rs1) 8 (fun old => leBytes 8 (f s.closed (wordOf (leNat old))).toNat) = .ok (u, old)) :
    runClosing false i s (fun s => s.rmw64 rd rs1 scope (f s)) =
      .next (((u.modMe fun x => { x with resv := none }).setX rd (wordOf (leNat old))).countClamp scope.toNat).goesOn :=
  runClosing_ok starts.1 plain noEnd (State.rmw64_ok read)
    (.inl ((State.rmw64End_task ..).trans (State.rmw_keeps _ _ _ _ _ _ read).task))

/-! ### Fences -/

/-- A release-kind fence inside a region stands behind the stores of the buffer (R77). -/
theorem State.fenceEffect_region {s : State} {t : Task} {mask : BitVec 8} {k : FenceKind} (region : s.inRegion s.cur = true)
    (task : s.myTask = some t) (room : t.region.buf.length < 512) (kind : k ≠ .acquire) :
    s.fenceEffect mask k = .ok (s.modTaskOf s.cur fun t =>
      { t with region := { t.region with buf := t.region.buf ++ [.release mask] } }) := by
  have appended : s.appendEntry s.cur (.release mask) = .ok (s.modTaskOf s.cur fun t =>
      { t with region := { t.region with buf := t.region.buf ++ [.release mask] } }) := by
    rw [State.appendEntry, show s.taskOf s.cur = some t from task]
    exact if_pos room
  cases k
  case acquire => exact absurd rfl kind
  case release => exact (if_pos region).trans appended
  case both => exact (if_pos region).trans appended

theorem State.fenceEffect_outside {s : State} (mask : BitVec 8) (k : FenceKind) (outside : s.inRegion s.cur = false) :
    s.fenceEffect mask k = .ok s := by
  cases k
  case acquire => rfl
  case release => exact if_neg (Bool.eq_false_iff.mp outside)
  case both => exact if_neg (Bool.eq_false_iff.mp outside)

theorem execCfence_ok {s t : State} {mask : BitVec 8} {k : FenceKind} {scope : BitVec 3} (effect : s.fenceEffect mask k = .ok t) :
    execCfence mask k scope s = .next (t.countClamp scope.toNat).complete :=
  runOpen_ok (by rw [effect]; rfl)

/-! ### Control registers -/

theorem State.me_modCtx (s : State) (f : Ctx → Ctx) : (s.modCtx f).me = { s.me with ctx := f s.me.ctx } := State.me_modMe ..
theorem State.me_modSys (s : State) (f : SysCsrs → SysCsrs) : (s.modSys f).me = { s.me with sys := f s.me.sys } :=
  State.me_modMe ..

theorem State.csrSet_stcol (s : State) (v : Word) : s.csrSet 0x800 v = s.modCtx fun c => { c with stcol := v.setWidth 3 } := rfl
theorem State.csrSet_vrm (s : State) (v : Word) : s.csrSet 0x801 v = s.modCtx fun c => { c with vrm := vrmWrite c.vrm v } := rfl
theorem State.csrSet_mgang (s : State) (v : Word) : s.csrSet 0x808 v = s.modCtx fun c => { c with mgang := mgangWrite v } := rfl
theorem State.csrSet_satp (s : State) (v : Word) :
    s.csrSet 0x180 v = s.modSys fun y => { y with satp := satpWrite y.satp v } := rfl

/-- `mfmtN` is register 0x804 + N (R104). -/
theorem State.csrSet_mfmt (s : State) (v : Word) (n : Fin 4) : s.csrSet (0x804 + n.val) v =
    s.modCtx fun c => { c with mfmt := c.mfmt.set n.val (mfmtWrite c.mfmt[n.val] v) } := by
  have low : csrLevel (0x804 + n.val) ≠ 3 := by fin_cases n <;> decide
  have range : 0x804 ≤ 0x804 + n.val ∧ 0x804 + n.val < 0x808 := by omega
  have index : 0x804 + n.val - 0x804 = n.val := Nat.add_sub_cancel_left ..
  rw [State.csrSet, if_neg low, State.csrSetLow]
  repeat rw [if_neg (by omega)]
  rw [dif_pos range]
  simp only [index]

/-- Each register of the manual's tables is a field of the hart's context without x, or of its system registers. -/
theorem State.csrSet_tables {s : State} {n : Nat} (v : Word) (table : n = 0x800 ∨ n = 0x801 ∨ 0x804 ≤ n ∧ n ≤ 0x808 ∨ n = 0x180) :
    (∃ f : Ctx → Ctx, s.csrSet n v = s.modCtx f ∧ ∀ c, (f c).x = c.x) ∨ ∃ f, s.csrSet n v = s.modSys f := by
  rcases table with rfl | rfl | ⟨low, high⟩ | rfl
  · exact .inl ⟨_, s.csrSet_stcol v, fun _ => rfl⟩
  · exact .inl ⟨_, s.csrSet_vrm v, fun _ => rfl⟩
  · rcases Nat.lt_or_eq_of_le high with below | rfl
    · obtain ⟨k, rfl⟩ := Nat.exists_eq_add_of_le low
      exact .inl ⟨_, s.csrSet_mfmt v ⟨k, by omega⟩, fun _ => rfl⟩
    · exact .inl ⟨_, s.csrSet_mgang v, fun _ => rfl⟩
  · exact .inr ⟨_, s.csrSet_satp v⟩

end Sys2Proof.Machine

open Sys2Proof Sys2Proof.Machine

/-- Settles O10: in the closed state the read-modify-write answers the old value, and nothing after it takes the task off the
hart. -/
theorem atomicsReadAndWriteInOneStep : Obligations.AtomicsReadAndWriteInOneStep := by
  unfold Obligations.AtomicsReadAndWriteInOneStep
  intro s u rd rs1 rs2 old starts noEnd
  refine ⟨fun op d aq rl read => ?amo, fun op scope read => ?samo, fun scope read => ?scas⟩
  case amo =>
    refine (exec_amo s).trans (runClosing_ok starts.1 rfl noEnd ?effect (.inl ?task))
    case effect =>
      dsimp only
      rw [read]
      rfl
    case task => rw [State.setX_task, (State.rmw_keeps _ _ _ _ _ _ read).task]
  case samo =>
    exact (exec_samo s).trans (runClosing_rmw64 (f := fun s old => caNew op old (s.x rs2)) starts noEnd rfl read)
  case scas =>
    exact (exec_scas s).trans
      (runClosing_rmw64 (f := fun s old => if old = s.x rd then s.x rs2 else old) starts noEnd rfl read)

/-- Settles O12: the effect of a fence is none, or one entry at the end of the store buffer. -/
theorem fencesTakeTheirPlace : Obligations.FencesTakeTheirPlace := by
  unfold Obligations.FencesTakeTheirPlace
  intro s _
  refine ⟨fun imm rs1 rd => (exec_fenceI s).trans (runOpen_ok rfl), fun mask scope => (exec_cfence s).trans (execCfence_ok rfl),
    fun outside fm p q rs1 rd mask k scope => ⟨?fenceOutside, ?cfenceOutside⟩,
    fun t region task room => ⟨fun fm p q rs1 rd => ?fence, fun mask scope k kind => ?cfence⟩⟩
  case fenceOutside => exact (exec_fence s).trans (runOpen_ok (State.fenceEffect_outside _ _ outside))
  case cfenceOutside => exact (exec_cfence s).trans (execCfence_ok (State.fenceEffect_outside _ _ outside))
  case fence => exact (exec_fence s).trans (runOpen_ok (State.fenceEffect_region region task room (by decide)))
  case cfence => exact (exec_cfence s).trans (execCfence_ok (State.fenceEffect_region region task room kind))

/-- Settles O20: each write is one change of the context or of the system registers of the acting hart. -/
theorem controlRegisterWritesKeepTheirFields : Obligations.ControlRegisterWritesKeepTheirFields := by
  unfold Obligations.ControlRegisterWritesKeepTheirFields
  intro s v
  refine ⟨?stcol, ?vrm, fun n => ?mfmt, ?mgang, ?satp, fun n table => ?frame⟩
  case stcol => rw [State.csrSet_stcol, State.me_modCtx]
  case vrm => rw [State.csrSet_vrm, State.me_modCtx, vrmWrite]
  case mfmt =>
    rw [State.csrSet_mfmt, State.me_modCtx]
    rfl
  case mgang => rw [State.csrSet_mgang, State.me_modCtx, mgangWrite]
  case satp => rw [State.csrSet_satp, State.me_modSys, satpWrite]
  case frame =>
    obtain ⟨f, write, x⟩ | ⟨f, write⟩ := State.csrSet_tables v table
    · rw [write, State.me_modCtx]
      exact ⟨rfl, rfl, x _, rfl⟩
    · rw [write, State.me_modSys]
      exact ⟨rfl, rfl, rfl, rfl⟩
end

section
/-! PROOFS. The state's operations keep memory in its canonical form (R48, R67), from the single byte written up to the
end of an instruction. `f_memOk` says it of a state that `f` answers, `f_ends` of an operation that may not complete, and
`f_keeps` of an instruction. -/

namespace Sys2Proof.Machine

-- One proof after the other: hundreds of proofs elaborated at once ask for more threads than the check allows.
set_option Elab.async false

/-- The state that an exception carries, if it carries one, has its memory in canonical form. -/
def Exc.MemOk : Exc → Prop
  | .trapAfter t _ _ _ | .hold t _ | .endsAfter t => t.MemOk
  | _ => True

/-- An operation that completes ends in `P`, and one that does not leaves no state out of canonical form. -/
def Ends {α : Type} (x : Except Exc α) (P : α → Prop) : Prop :=
  match x with
  | .ok a => P a
  | .error e => e.MemOk

/-- An instruction goes on, if it does, in a state whose memory is in canonical form. -/
def Keeps (r : Result) : Prop :=
  match r with
  | .next t => t.MemOk
  | _ => True

@[simp] theorem keeps_next {s : State} : Keeps (.next s) ↔ s.MemOk := Iff.rfl

/-! ### Composition -/

section
variable {α β : Type} {P : α → Prop} {Q : β → Prop}

theorem Ends.map {x : Except Exc α} {f : α → β} (h : Ends x P) (g : ∀ a, P a → Q (f a)) : Ends (x.map f) Q := by
  cases x with
  | ok a => exact g a h
  | error e => exact h

theorem Ends.bind {x : Except Exc α} {f : α → Except Exc β} (h : Ends x P) (g : ∀ a, P a → Ends (f a) Q) :
    Ends (x >>= f) Q := by
  cases x with
  | ok a => exact g a h
  | error e => exact h

/-- A check in a `do` block: the exception of the check, or the rest. -/
theorem Ends.check {c : Prop} [Decidable c] {e : Exc} {f : Unit → Except Exc α} (h : Ends (f ()) P)
    (left : e.MemOk := by trivial) : Ends (if c then .error e >>= f else f ()) P := by
  split
  · exact left
  · exact h

end

section
variable {s t : State} {c : Prop} [Decidable c] {ε : Type}

theorem memOk_foldl {α : Type} {f : State → α → State} (h : ∀ s a, s.MemOk → (f s a).MemOk) (l : List α)
    (ok : s.MemOk) : (l.foldl f s).MemOk := by
  induction l generalizing s with
  | nil => exact ok
  | cons a r ih => exact ih (h s a ok)

theorem memOk_ite (h : s.MemOk) (k : t.MemOk) : (if c then s else t).MemOk := by
  split
  · exact h
  · exact k

theorem memOk_dite {f : c → State} {g : ¬c → State} (h : ∀ x, (f x).MemOk) (k : ∀ x, (g x).MemOk) :
    (if x : c then f x else g x).MemOk := by
  split
  · exact h _
  · exact k _

theorem memOk_of_ok (ok : s.MemOk) (done : (.ok s : Except ε State) = .ok t) : t.MemOk :=
  Except.ok.inj done ▸ ok

theorem memOk_of_guarded {e : ε} {x : Except ε State} (h : x = .ok t → t.MemOk)
    (done : (if c then .error e else x) = .ok t) : t.MemOk := by
  split at done
  · cases done
  · exact h done

end

/-! ### Named operations over the state -/

theorem State.setHart_memOk {s : State} {h x} (ok : s.MemOk) : (s.setHart h x).MemOk := ok
theorem State.modHart_memOk {s : State} {h f} (ok : s.MemOk) : (s.modHart h f).MemOk := ok
theorem State.modMe_memOk {s : State} {f} (ok : s.MemOk) : (s.modMe f).MemOk := ok
theorem State.setCluster_memOk {s : State} {c x} (ok : s.MemOk) : (s.setCluster c x).MemOk := ok
theorem State.modCluster_memOk {s : State} {c f} (ok : s.MemOk) : (s.modCluster c f).MemOk := ok
theorem State.sendFlit_memOk {s : State} {c} (ok : s.MemOk) : (s.sendFlit c).MemOk := ok
theorem State.modPair_memOk {s : State} {p f} (ok : s.MemOk) : (s.modPair p f).MemOk := ok
theorem State.setTask_memOk {s : State} {h t} (ok : s.MemOk) : (s.setTask h t).MemOk := ok

theorem State.modTask_memOk {s : State} {h f} (ok : s.MemOk) : (s.modTask h f).MemOk := by
  unfold State.modTask
  grind [State.setTask_memOk]

theorem State.dropTask_memOk {s : State} {h} (ok : s.MemOk) : (s.dropTask h).MemOk := ok

theorem State.modTaskOf_memOk {s : State} {h f} (ok : s.MemOk) : (s.modTaskOf h f).MemOk := by
  unfold State.modTaskOf
  grind [State.modTask_memOk]

theorem State.modPart_memOk {s : State} {p f} (ok : s.MemOk) : (s.modPart p f).MemOk := by
  unfold State.modPart
  grind [State.MemOk]

theorem State.tick_memOk {s : State} (ok : s.MemOk) : s.tick.MemOk := ok
theorem State.post_memOk {s : State} {i} (ok : s.MemOk) : (s.post i).MemOk := ok

/-- For any table: a proof about the table that an operation writes would make the kernel compare the two tables. -/
theorem State.putQueues_memOk {s : State} {q} (ok : s.MemOk) : State.MemOk { s with queues := q } := ok

theorem State.putQueues_launches_memOk {s : State} {q l} (ok : s.MemOk) :
    State.MemOk { s with queues := q, launches := l } := ok

theorem State.putKeys_memOk {s : State} {k} (ok : s.MemOk) : State.MemOk { s with keys := k } := ok
theorem State.unpost_memOk {s : State} {i} (ok : s.MemOk) : (s.unpost i).MemOk := ok
theorem State.useFresh_memOk {s : State} (ok : s.MemOk) : s.useFresh.MemOk := ok
theorem State.setX_memOk {s : State} {r v} (ok : s.MemOk) : (s.setX r v).MemOk := ok
theorem State.setF_memOk {s : State} {r v} (ok : s.MemOk) : (s.setF r v).MemOk := ok
theorem State.setFcsr_memOk {s : State} {v} (ok : s.MemOk) : (s.setFcsr v).MemOk := ok
theorem State.setPc_memOk {s : State} {v} (ok : s.MemOk) : (s.setPc v).MemOk := ok
theorem State.jumpTo_memOk {s : State} {v} (ok : s.MemOk) : (s.jumpTo v).MemOk := ok

/-- Memory changes by bytes written here, in blocks that become zero and in a device reset; the rest goes through these. -/
theorem State.setBytes_memOk {s : State} {a l} (ok : s.MemOk) : (s.setBytes a l).MemOk := State.setBytes_wf _ _ _ ok
theorem State.clearResv_memOk {s : State} {agent line} (ok : s.MemOk) : (s.clearResv agent line).MemOk := ok

theorem State.markDirty_memOk {s : State} {part gpa} (ok : s.MemOk) : (s.markDirty part gpa).MemOk := by
  unfold State.markDirty
  grind [State.modPart_memOk]

theorem State.keyUnit_memOk {s : State} {u k} (ok : s.MemOk) : (s.keyUnit u k).MemOk := ok

theorem State.setUnit_memOk {s : State} {u d k} (ok : s.MemOk) : (s.setUnit u d k).MemOk := by
  unfold State.setUnit
  grind [State.setBytes_memOk, State.keyUnit_memOk]

theorem State.rekey_memOk {s : State} {part a} (ok : s.MemOk) : (s.rekey part a).MemOk := by
  unfold State.rekey
  grind [State.setUnit_memOk]

theorem State.noteKey_memOk {s : State} {part a} (ok : s.MemOk) : (s.noteKey part a).MemOk := by
  unfold State.noteKey
  grind [State.keyUnit_memOk]

theorem State.write_memOk {s : State} {agent part a bs} (ok : s.MemOk) : (s.write agent part a bs).MemOk := by
  unfold State.write
  grind [State.setBytes_memOk, State.clearResv_memOk, State.rekey_memOk, State.noteKey_memOk]

theorem State.perform_memOk {s : State} {agent part a gpa bs} (ok : s.MemOk) :
    (s.perform agent part a gpa bs).MemOk := by
  unfold State.perform
  grind [State.markDirty_memOk, State.write_memOk]

theorem State.enterTrap_memOk {s : State} {h intr code sub tval epc} (ok : s.MemOk) :
    (s.enterTrap h intr code sub tval epc).MemOk := ok

/-! ### Where an address leads -/

theorem State.setStage_memOk {s : State} {c n x} (ok : s.MemOk) : (s.setStage c n x).MemOk := ok
theorem State.modStage_memOk {s : State} {c n f} (ok : s.MemOk) : (s.modStage c n f).MemOk := ok

theorem stageLoc_ends {t c o acc va} : Ends (stageLoc t c o acc va) fun _ => True := by
  unfold stageLoc
  grind [Ends, Exc.MemOk]

theorem resolveWindow_ends {s : State} {v acc va} : Ends (resolveWindow s v acc va) fun _ => True := by
  unfold resolveWindow
  extract_lets a fault o t held o2 c o3 assigned
  have refused : Ends fault fun _ => True := trivial
  split
  · exact refused
  · split
    · split
      · trivial
      · split
        · trivial
        · exact stageLoc_ends
    · split
      · split
        · exact refused
        · split <;> trivial
      · split
        · split
          · exact refused
          · split
            · exact stageLoc_ends
            · trivial
        · split
          · split
            · trivial
            · exact refused
          · exact refused

/-- The walk keeps what the translation of its own table addresses keeps. -/
theorem walk_ends {s : State} {tr : State → Nat → Except Exc (State × Nat)} {part vpn levels root}
    (h : ∀ (s : State) a, s.MemOk → Ends (tr s a) (·.1.MemOk)) (ok : s.MemOk) :
    Ends (walk part tr vpn levels s root) (·.1.MemOk) := by
  induction levels generalizing s root with
  | zero => exact ok
  | succ n ih =>
    simp only [walk, bind, Except.bind]
    grind [Ends]

theorem setAD_memOk {s : State} {part dirt l write} (ok : s.MemOk) : (setAD s part dirt l write).MemOk := by
  unfold setAD
  grind [State.markDirty_memOk, State.write_memOk]

theorem tableAt_ends {s : State} {orig va a} (ok : s.MemOk) : Ends (tableAt orig va s a) (·.1.MemOk) := by
  unfold tableAt
  grind [Ends, Exc.MemOk]

theorem stage2_ends {s : State} {part acc orig va gpa} (ok : s.MemOk) :
    Ends (stage2 s part acc orig va gpa) (·.1.MemOk) := by
  unfold stage2
  grind [Ends, Exc.MemOk, !walk_ends, setAD_memOk, !tableAt_ends]

theorem setAD1_ends {s : State} {v acc va l} (ok : s.MemOk) : Ends (setAD1 s v acc va l) State.MemOk := by
  unfold setAD1
  grind [Ends, Exc.MemOk, setAD_memOk, !stage2_ends]

theorem tableOf_ends {s : State} {v acc va g} (ok : s.MemOk) : Ends (tableOf v acc va s g) (·.1.MemOk) := by
  unfold tableOf
  grind [Ends, Exc.MemOk, !stage2_ends]

theorem translatePage_ends {s : State} {v acc va} (ok : s.MemOk) : Ends (translatePage s v acc va) (·.1.MemOk) := by
  unfold translatePage
  extract_lets tag vpn
  split
  · refine (walk_ends (fun s a ok => tableOf_ends ok) ok).bind fun (s, r) ok => ?_
    dsimp only
    split
    · trivial
    · split
      · exact (setAD1_ends ok).bind fun s ok => (stage2_ends ok).bind fun _ ok => ok
      · trivial
  · exact (stage2_ends ok).bind fun _ ok => ok

theorem State.fillTlbs_memOk {s : State} {v t} (ok : s.MemOk) : (s.fillTlbs v t).MemOk := ok

theorem lookupPage_ends {s : State} {v acc va} (ok : s.MemOk) : Ends (lookupPage s v acc va) (·.1.MemOk) := by
  unfold lookupPage
  grind [Ends, Exc.MemOk, !translatePage_ends, State.fillTlbs_memOk]

theorem hbmLoc_ends {acc va pa gpa} : Ends (hbmLoc acc va pa gpa) fun _ => True := by
  unfold hbmLoc
  grind [Ends, Exc.MemOk]

theorem resolveUnit_ends {s : State} {v acc va} (ok : s.MemOk) : Ends (resolveUnit s v acc va) (·.1.MemOk) := by
  unfold resolveUnit
  split
  · trivial
  · split
    · exact resolveWindow_ends.map fun _ _ => ok
    · split
      · exact hbmLoc_ends.map fun _ _ => ok
      · split
        · exact hbmLoc_ends.map fun _ _ => ok
        · have page := lookupPage_ends (v := v) (acc := acc) (va := va) ok
          split
          case h_1 found =>
            rw [found] at page
            exact hbmLoc_ends.map fun _ _ => page
          case h_2 fails =>
          rw [fails] at page
          exact page

theorem resolveUnits_ends {s : State} {v acc n a n2} (ok : s.MemOk) :
    Ends (resolveUnits v acc n s a n2) (·.1.MemOk) := by
  fun_induction resolveUnits v acc n s a n2 <;> grind [Ends, Exc.MemOk, !resolveUnit_ends]

theorem resolve_ends {s : State} {v acc va len align} (ok : s.MemOk) :
    Ends (resolve s v acc va len align) (·.1.MemOk) := by
  unfold resolve
  grind [Ends, Exc.MemOk, !resolveUnits_ends]

theorem resolve_memOk {s t : State} {ls : List (Loc × Nat)} {v acc va len al} (ok : s.MemOk)
    (found : resolve s v acc va len al = .ok (t, ls)) : t.MemOk := (resolve_touched _ _ _ _ _ _ _ _ found).wf ok

/-! ### Stages and arrival words -/

theorem State.retryPrefetches_memOk {s : State} {c} (ok : s.MemOk) : (s.retryPrefetches c).MemOk := by
  unfold State.retryPrefetches
  refine memOk_foldl (fun s e ok => ?_) _ ok
  split
  · exact memOk_foldl (by grind [State.post_memOk]) _ ok
  · exact ok

theorem State.prefetchesHoisted_memOk {s : State} {c n} (ok : s.MemOk) : (s.prefetchesHoisted c n).MemOk := by
  unfold State.prefetchesHoisted
  exact memOk_foldl (by grind [State.post_memOk, State.MemOk]) _ ok

theorem State.hoistStage_memOk {s : State} {c n} (ok : s.MemOk) : (s.hoistStage c n).MemOk := by
  unfold State.hoistStage
  grind [State.modStage_memOk, State.retryPrefetches_memOk, State.prefetchesHoisted_memOk]

theorem State.hoistIfDue_memOk {s : State} {c n} (ok : s.MemOk) : (s.hoistIfDue c n).MemOk := by
  unfold State.hoistIfDue
  grind [State.hoistStage_memOk]

theorem State.matchStage_memOk {s : State} {c n} (ok : s.MemOk) : (s.matchStage c n).MemOk := by
  unfold State.matchStage
  grind [State.modStage_memOk, State.hoistIfDue_memOk]

theorem State.armStage_memOk {s : State} {c n target} (ok : s.MemOk) : (s.armStage c n target).MemOk := by
  unfold State.armStage
  grind [State.modStage_memOk, State.matchStage_memOk]

theorem State.disarmStage_memOk {s : State} {c n} (ok : s.MemOk) : (s.disarmStage c n).MemOk := by
  unfold State.disarmStage
  grind [State.modStage_memOk, State.retryPrefetches_memOk]

theorem State.answer_memOk {s : State} {h r} (ok : s.MemOk) : (s.answer h r).MemOk := ok

theorem serveHoists_memOk {s : State} {c n l} (ok : s.MemOk) : (serveHoists c n l s).MemOk := by
  fun_induction serveHoists c n l s <;> grind [State.hoistStage_memOk, State.answer_memOk]

theorem State.releasePin_memOk {s : State} {c n} (ok : s.MemOk) : (s.releasePin c n).MemOk := by
  unfold State.releasePin
  grind [State.setStage_memOk, State.modStage_memOk, State.hoistIfDue_memOk, serveHoists_memOk]

theorem State.arrive_memOk {s t : State} {c n off bs} (ok : s.MemOk) (run : s.arrive c n off bs = .ok t) :
    t.MemOk := by
  unfold State.arrive at run
  grind [State.perform_memOk, State.modStage_memOk, State.matchStage_memOk]

theorem State.setSlot_memOk {s : State} {c n x} (ok : s.MemOk) : (s.setSlot c n x).MemOk := ok
theorem State.stopSlot_memOk {s : State} {c n state} (ok : s.MemOk) : (s.stopSlot c n state).MemOk := ok

theorem State.freeSlot_memOk {s : State} {c n} (ok : s.MemOk) : (s.freeSlot c n).MemOk := by
  unfold State.freeSlot
  grind [State.retryPrefetches_memOk, State.setSlot_memOk, State.stopSlot_memOk]

theorem dropLifts_memOk {s : State} {c l} (ok : s.MemOk) : (dropLifts s c l).MemOk := by
  fun_induction dropLifts s c l <;> grind [State.modStage_memOk, State.retryPrefetches_memOk]

theorem holdLifts_memOk {s : State} {c l} (ok : s.MemOk) : (holdLifts s c l).MemOk := by
  fun_induction holdLifts s c l <;> grind [State.modStage_memOk]

/-! ### Regions and the store buffer -/

theorem State.setTile_memOk {s : State} {p t x} (ok : s.MemOk) : (s.setTile p t x).MemOk := ok
theorem State.freeTile_memOk {s : State} {p t} (ok : s.MemOk) : (s.freeTile p t).MemOk := ok

theorem freeShadows_memOk {s : State} {p l} (ok : s.MemOk) : (freeShadows s p l).MemOk := by
  fun_induction freeShadows s p l <;> grind [State.freeTile_memOk]

theorem restoreShadows_memOk {s : State} {p t l} (ok : s.MemOk) : (restoreShadows s p t l).MemOk := by
  fun_induction restoreShadows s p t l <;> grind [State.setTile_memOk]

theorem releasePins_memOk {s : State} {c l} (ok : s.MemOk) : (releasePins s c l).MemOk := by
  fun_induction releasePins s c l <;> grind [State.releasePin_memOk]

theorem State.retryGangs_memOk {s : State} {c} (ok : s.MemOk) : (s.retryGangs c).MemOk := by
  unfold State.retryGangs
  exact memOk_foldl (by grind [State.post_memOk]) _ ok

theorem freeTiles_memOk {s : State} {p l} (ok : s.MemOk) : (freeTiles s p l).MemOk := by
  fun_induction freeTiles s p l <;> grind [State.freeTile_memOk]

theorem State.leaveTiles_memOk {s : State} {h} (ok : s.MemOk) : (s.leaveTiles h).MemOk := by
  unfold State.leaveTiles
  grind [State.dropTask_memOk, dropLifts_memOk, freeTiles_memOk]

theorem State.removeOp_memOk {s : State} {p o} (ok : s.MemOk) : (s.removeOp p o).MemOk := by
  unfold State.removeOp
  grind [State.modCluster_memOk, State.modPair_memOk, State.post_memOk, State.freeTile_memOk, releasePins_memOk,
    State.retryGangs_memOk, State.leaveTiles_memOk]

theorem removeOps_memOk {s : State} {p l} (ok : s.MemOk) : (removeOps s p l).MemOk := by
  fun_induction removeOps s p l <;> grind [State.removeOp_memOk]

theorem drain_memOk {s : State} {h l} (ok : s.MemOk) : (drain s h l).MemOk := by
  fun_induction drain s h l <;> grind [State.perform_memOk]

theorem State.drainTask_memOk {s : State} {h} (ok : s.MemOk) : (s.drainTask h).MemOk := by
  unfold State.drainTask
  grind [State.modTaskOf_memOk, drain_memOk]

theorem State.dropShadows_memOk {s : State} {h} (ok : s.MemOk) : (s.dropShadows h).MemOk := by
  unfold State.dropShadows
  grind [freeShadows_memOk]

theorem State.checkpoint_memOk {s : State} {h pc} (ok : s.MemOk) : (s.checkpoint h pc).MemOk := by
  unfold State.checkpoint
  grind [State.modTaskOf_memOk, State.dropShadows_memOk]

theorem State.commit_memOk {s : State} {h code} (ok : s.MemOk) : (s.commit h code).MemOk := by
  unfold State.commit
  grind [State.modTaskOf_memOk, State.dropShadows_memOk]

theorem State.closeRegion_memOk {s : State} {h code pc keepResv} (ok : s.MemOk) :
    (s.closeRegion h code pc keepResv).MemOk := by
  unfold State.closeRegion
  grind [State.modHart_memOk, State.drainTask_memOk, State.checkpoint_memOk, State.commit_memOk]

theorem State.rewindLifts_memOk {s : State} {t} (ok : s.MemOk) : (s.rewindLifts t).MemOk := by
  unfold State.rewindLifts
  grind [dropLifts_memOk, holdLifts_memOk]

theorem State.rewind_memOk {s : State} {h} (ok : s.MemOk) : (s.rewind h).MemOk := by
  unfold State.rewind
  grind [State.setTask_memOk, State.rewindLifts_memOk]

theorem State.abortTask_memOk {s : State} {h} (ok : s.MemOk) : (s.abortTask h).MemOk := by
  unfold State.abortTask
  grind [State.setTask_memOk, freeShadows_memOk, restoreShadows_memOk, removeOps_memOk, State.rewindLifts_memOk]

theorem State.freeHart_memOk {s : State} {h} (ok : s.MemOk) : (s.freeHart h).MemOk := ok

theorem State.appendEntry_ends {s : State} {h e} (ok : s.MemOk) : Ends (s.appendEntry h e) State.MemOk := by
  unfold State.appendEntry
  grind [Ends, Exc.MemOk, State.modTaskOf_memOk, State.write_memOk]

theorem State.modLaunch_memOk {s : State} {l f} (ok : s.MemOk) : (s.modLaunch l f).MemOk := by
  unfold State.modLaunch
  grind [State.MemOk]

theorem State.useBy_memOk {s : State} {l p} (ok : s.MemOk) : (s.useBy l p).MemOk := by
  unfold State.useBy
  grind [State.modLaunch_memOk]

theorem State.raiseVerdict_memOk {s : State} {h v} (ok : s.MemOk) : (s.raiseVerdict h v).MemOk := by
  unfold State.raiseVerdict
  grind [State.setTask_memOk, State.modLaunch_memOk]

theorem State.correct_memOk {s : State} {h} (ok : s.MemOk) : (s.correct h).MemOk := by
  unfold State.correct
  grind [State.raiseVerdict_memOk]

theorem State.detect_ends {s : State} {h va ls} (ok : s.MemOk) : Ends (s.detect h va ls) State.MemOk := by
  unfold State.detect
  grind [Ends, Exc.MemOk, State.setCluster_memOk, State.correct_memOk]

theorem State.loadOf_ends {s : State} {h va len align} (ok : s.MemOk) :
    Ends (s.loadOf h va len align) (·.1.MemOk) := by
  unfold State.loadOf
  simp only [bind, Except.bind, pure, Except.pure]
  grind [Ends, State.useFresh_memOk, !resolve_ends, !State.detect_ends]

theorem State.load_ends {s : State} {va len align} (ok : s.MemOk) : Ends (s.load va len align) (·.1.MemOk) := by
  unfold State.load
  grind [!State.loadOf_ends]

theorem storeUnit_ends {s : State} {h va l bs} (ok : s.MemOk) : Ends (storeUnit s h va l bs) State.MemOk := by
  unfold storeUnit
  grind [Ends, State.perform_memOk, !State.appendEntry_ends]

theorem storeUnits_ends {s : State} {h l va l2} (ok : s.MemOk) : Ends (storeUnits s h va l2 l) State.MemOk := by
  induction l2 generalizing s va l with
  | nil => exact ok
  | cons e r ih => exact (storeUnit_ends ok).bind fun _ ok => ih ok

theorem State.store_ends {s : State} {va bs align} (ok : s.MemOk) : Ends (s.store va bs align) State.MemOk := by
  unfold State.store
  simp only [bind, Except.bind]
  grind [Ends, !resolve_ends, !storeUnits_ends]

theorem performUnits_memOk {s : State} {agent part l l2} (ok : s.MemOk) : (performUnits s agent part l l2).MemOk := by
  fun_induction performUnits s agent part l l2 <;> grind [State.perform_memOk]

theorem writeUnits_memOk {s : State} {part l l2} (ok : s.MemOk) : (writeUnits s part l l2).MemOk := by
  fun_induction writeUnits s part l l2 <;> grind [State.write_memOk]

theorem State.rmw_ends {s : State} {va len f} (ok : s.MemOk) : Ends (s.rmw va len f) (·.1.MemOk) := by
  unfold State.rmw
  simp only [bind, Except.bind, pure, Except.pure]
  grind [Ends, !resolve_ends, !State.detect_ends, performUnits_memOk]

theorem State.countClamp_memOk {s : State} {scope} (ok : s.MemOk) : (s.countClamp scope).MemOk := by
  unfold State.countClamp
  grind [State.modPart_memOk]

/-! ### Fault reports -/

theorem State.report_memOk {s : State} {r x} (ok : s.MemOk) : (s.report r x).1.MemOk := by
  unfold State.report
  grind [State.modCluster_memOk, State.post_memOk, State.MemOk]

theorem State.pokeVia_memOk {s t : State} {v va bs} (ok : s.MemOk) (run : s.pokeVia v va bs = some t) : t.MemOk := by
  unfold State.pokeVia at run
  grind [Ends, !resolve_ends, writeUnits_memOk]

theorem State.pokeVia_getD_memOk {s : State} {v a bs} (ok : s.MemOk) : ((s.pokeVia v a bs).getD s).MemOk := by
  cases poked : s.pokeVia v a bs with
  | none => exact ok
  | some t => exact State.pokeVia_memOk ok poked

/-! ### Verdicts and completion records -/

theorem spreadTaint_memOk {s : State} {n} (ok : s.MemOk) : (spreadTaint n s).MemOk := by
  fun_induction spreadTaint n s <;> grind [State.modLaunch_memOk]

theorem State.holdTainted_memOk {s : State} (ok : s.MemOk) : s.holdTainted.MemOk := ok

theorem State.spread_memOk {s : State} (ok : s.MemOk) : s.spread.MemOk := by
  unfold State.spread
  grind [spreadTaint_memOk, State.holdTainted_memOk]

theorem State.settleVerdicts_memOk {s : State} (ok : s.MemOk) : s.settleVerdicts.MemOk := ok

theorem State.signal_memOk {s : State} {l} (ok : s.MemOk) : (s.signal l).MemOk := by
  unfold State.signal
  grind [State.MemOk]

theorem State.amendOne_memOk {s : State} {k l} (ok : s.MemOk) : (s.amendOne k l).MemOk := by
  unfold State.amendOne
  split
  · extract_lets n
    split
    · exact ok
    · split
      · exact State.signal_memOk (State.modLaunch_memOk (writeUnits_memOk (resolve_memOk ok ‹_›)))
      · exact ok
  · exact ok

theorem amendEach_memOk {s : State} {l} (ok : s.MemOk) : (amendEach l s).MemOk := by
  fun_induction amendEach l s <;> grind [State.amendOne_memOk]

theorem State.amend_memOk {s : State} (ok : s.MemOk) : s.amend.MemOk := by
  unfold State.amend
  grind [State.settleVerdicts_memOk, amendEach_memOk]

theorem State.addSource_memOk {s : State} {l src} (ok : s.MemOk) : (s.addSource l src).MemOk := by
  unfold State.addSource
  grind [State.modLaunch_memOk, State.spread_memOk]

/-! ### Futures at their home -/

theorem State.setFut_memOk {s : State} {h f} (ok : s.MemOk) : (s.setFut h f).MemOk := ok

theorem State.checkHandle_ends {s : State} {cluster h} : Ends (s.checkHandle cluster h) fun _ => True := by
  unfold State.checkHandle
  grind [Ends, Exc.MemOk]

theorem State.writeSpill_memOk {s : State} {c i bs} (ok : s.MemOk) :
    (s.writeSpill c i bs).MemOk := State.pokeVia_getD_memOk ok

theorem State.clearSpill_memOk {s : State} {c i} (ok : s.MemOk) : (s.clearSpill c i).MemOk := by
  unfold State.clearSpill
  grind [State.writeSpill_memOk]

theorem State.freeFut_memOk {s : State} {h f} (ok : s.MemOk) : (s.freeFut h f).MemOk := ok

theorem State.touchDone_memOk {s : State} {h woken} (ok : s.MemOk) : (s.touchDone h woken).MemOk := by
  unfold State.touchDone
  grind [State.setFut_memOk, State.clearSpill_memOk, State.freeFut_memOk]

theorem State.dropWaiters_memOk {s : State} {c p} (ok : s.MemOk) : (s.dropWaiters c p).MemOk := by
  unfold State.dropWaiters
  refine memOk_foldl ?_ _ ?_
  · grind [State.clearSpill_memOk]
  · grind [State.modCluster_memOk]

theorem State.leaveWaits_memOk {s : State} {task} (ok : s.MemOk) : (s.leaveWaits task).MemOk := by
  unfold State.leaveWaits
  exact memOk_foldl (by grind [State.dropWaiters_memOk]) _ ok

theorem State.sendWake_memOk {s : State} {task w} (ok : s.MemOk) : (s.sendWake task w).MemOk := by
  unfold State.sendWake
  grind [State.setTask_memOk, State.post_memOk, State.MemOk]

theorem wakeAll_memOk {s : State} {st value verdict once source l} (ok : s.MemOk) :
    (wakeAll s st value verdict once source l).MemOk := by
  fun_induction wakeAll s st value verdict once source l <;> grind [State.leaveWaits_memOk, State.sendWake_memOk]

theorem State.makeTerminal_memOk {s : State} {h st value verdict} (ok : s.MemOk) :
    (s.makeTerminal h st value verdict).MemOk := by
  unfold State.makeTerminal
  grind [State.tick_memOk, State.setFut_memOk, State.touchDone_memOk, State.dropWaiters_memOk, wakeAll_memOk]

theorem State.dropToucher_memOk {s : State} {task} (ok : s.MemOk) : (s.dropToucher task).MemOk := by
  unfold State.dropToucher
  exact memOk_foldl (by grind [State.MemOk]) _ ok

theorem State.dropPlaces_memOk {s : State} {task} (ok : s.MemOk) : (s.dropPlaces task).MemOk := ok

theorem quietPrefetches_memOk {s : State} {c l} (ok : s.MemOk) : (quietPrefetches s c l).MemOk := by
  fun_induction quietPrefetches s c l <;> grind [State.modStage_memOk]

theorem stopPrefetches_memOk {s : State} {c h l} (ok : s.MemOk) : (stopPrefetches s c h l).MemOk := by
  fun_induction stopPrefetches s c h l <;> grind [State.disarmStage_memOk, State.freeSlot_memOk]

theorem freeReported_memOk {s : State} {c h} (ok : s.MemOk) : (freeReported s c h).MemOk := by
  unfold freeReported
  exact memOk_foldl (by grind [State.freeSlot_memOk]) _ ok

theorem State.releaseHarts_memOk {s : State} {h} (ok : s.MemOk) : (s.releaseHarts h).MemOk := ok

theorem writeSlots_memOk {s : State} {v base n n2 l} (ok : s.MemOk) : (writeSlots v base n n2 l s).MemOk := by
  induction l generalizing n2 s with
  | nil => exact ok
  | cons t r ih => exact ih (State.pokeVia_getD_memOk ok)

theorem State.packRing_memOk {s : State} {c} (ok : s.MemOk) : (s.packRing c).MemOk := by
  unfold State.packRing
  grind [State.modCluster_memOk, writeSlots_memOk]

theorem State.removeTask_memOk {s : State} {h} (ok : s.MemOk) : (s.removeTask h).MemOk := by
  unfold State.removeTask
  grind [State.modCluster_memOk, State.setTask_memOk, State.dropTask_memOk, State.post_memOk, dropLifts_memOk,
    freeShadows_memOk, State.leaveTiles_memOk, State.leaveWaits_memOk, State.dropToucher_memOk,
    State.dropPlaces_memOk, quietPrefetches_memOk, freeReported_memOk, State.releaseHarts_memOk, State.packRing_memOk]

theorem State.countRoot_memOk {s : State} {t bad} (ok : s.MemOk) : (s.countRoot t bad).MemOk := by
  unfold State.countRoot
  grind [State.modLaunch_memOk]

theorem serveSem_memOk {s : State} {p i n} (ok : s.MemOk) : (serveSem p i n s).MemOk := by
  fun_induction serveSem p i n s <;> grind [State.modPair_memOk, State.answer_memOk]

theorem State.serveSem_memOk {s : State} {p i} (ok : s.MemOk) : (s.serveSem p i).MemOk := by
  unfold State.serveSem
  grind [serveSem_memOk]

theorem State.withdrawWait_memOk {s : State} {h} (ok : s.MemOk) : (s.withdrawWait h).MemOk := by
  unfold State.withdrawWait
  split
  · exact ok
  · extract_lets s1
    have ok : s1.MemOk := ok
    split
    case h_2 => exact memOk_foldl (fun s i ok => State.serveSem_memOk ok) _ ok
    all_goals grind [State.MemOk]

theorem State.afterEnd_memOk {s : State} {h t tree} (ok : s.MemOk) : (s.afterEnd h t tree).1.MemOk := by
  unfold State.afterEnd
  grind [State.post_memOk, State.modLaunch_memOk]

theorem State.endTaskNow_memOk {s : State} {h how} (ok : s.MemOk) : (s.endTaskNow h how).1.MemOk := by
  unfold State.endTaskNow
  grind [State.makeTerminal_memOk, State.removeTask_memOk, State.countRoot_memOk, State.withdrawWait_memOk,
    !State.afterEnd_memOk]

theorem State.endOne_memOk {s : State} {h how} (ok : s.MemOk) : (s.endOne h how).MemOk := by
  unfold State.endOne
  grind [State.setTask_memOk, State.post_memOk, State.makeTerminal_memOk, quietPrefetches_memOk]

theorem State.endMany_memOk {s : State} {l} (ok : s.MemOk) : (s.endMany l).MemOk := by
  unfold State.endMany
  exact memOk_foldl (by grind [State.endOne_memOk]) _ ok

theorem State.endTask_memOk {s : State} {h how} (ok : s.MemOk) : (s.endTask h how).MemOk := by
  unfold State.endTask
  grind [!State.endTaskNow_memOk, State.endMany_memOk]

theorem State.endArrives_memOk {s : State} {h how} (ok : s.MemOk) : (s.endArrives h how).MemOk := by
  unfold State.endArrives
  grind [State.setTask_memOk, State.endTask_memOk]

theorem State.exitTask_memOk {s : State} {h value} (ok : s.MemOk) : (s.exitTask h value).MemOk := by
  unfold State.exitTask
  grind [State.makeTerminal_memOk, State.removeTask_memOk, State.countRoot_memOk, !State.afterEnd_memOk,
    State.endMany_memOk]

theorem State.addWaiter_memOk {s t : State} {h task any index eprio} (ok : s.MemOk)
    (run : s.addWaiter h task any index eprio = some t) : t.MemOk := by
  unfold State.addWaiter at run
  grind [State.modCluster_memOk, State.writeSpill_memOk]

theorem State.homeTouch_memOk {s : State} {h task any index eprio} (ok : s.MemOk) :
    (s.homeTouch h task any index eprio).1.MemOk := by
  unfold State.homeTouch
  grind [→ State.addWaiter_memOk]

theorem State.homeApply_memOk {s : State} {h op} (ok : s.MemOk) : (s.homeApply h op).1.MemOk := by
  unfold State.homeApply
  grind [State.clearSpill_memOk, State.freeFut_memOk, State.dropWaiters_memOk, State.makeTerminal_memOk,
    State.endOne_memOk, !State.homeTouch_memOk]

theorem State.takesFrom_memOk {s : State} {task source} (ok : s.MemOk) : (s.takesFrom task source).MemOk := by
  unfold State.takesFrom
  grind [State.amend_memOk, State.addSource_memOk]

theorem State.completeTouch_memOk {s : State} {task h verdict woken source} (ok : s.MemOk) :
    (s.completeTouch task h verdict woken source).MemOk := by
  unfold State.completeTouch
  grind [State.raiseVerdict_memOk, State.touchDone_memOk, State.takesFrom_memOk]

theorem State.makeReady_memOk {s : State} {h} (ok : s.MemOk) : (s.makeReady h).MemOk := by
  unfold State.makeReady
  grind [State.modTask_memOk, State.tick_memOk]

theorem State.setAside_memOk {s : State} {h st} (ok : s.MemOk) : (s.setAside h st).MemOk := by
  unfold State.setAside
  grind [State.modTask_memOk, State.freeHart_memOk]

/-! ### How an instruction ends -/

theorem State.endHere_memOk {s : State} {h} (ok : s.MemOk) : (s.endHere h).MemOk := by
  unfold State.endHere
  grind [State.endTask_memOk]

theorem State.closesOther_memOk {s : State} {h} (ok : s.MemOk) : (s.closesOther h).MemOk := by
  unfold State.closesOther
  grind [State.dropPlaces_memOk]

theorem State.takeTrap_memOk {s : State} {h intr code sub tval} (ok : s.MemOk) :
    (s.takeTrap h intr code sub tval).MemOk := by
  unfold State.takeTrap
  grind [State.enterTrap_memOk, State.closeRegion_memOk, State.endHere_memOk, State.closesOther_memOk]

theorem State.faultTask_memOk {s : State} {h x} (ok : s.MemOk) : (s.faultTask h x).MemOk := by
  unfold State.faultTask
  grind [State.abortTask_memOk, !State.report_memOk, State.endTask_memOk]

theorem State.faultTaskOf_memOk {s : State} {t x} (ok : s.MemOk) : (s.faultTaskOf t x).MemOk := by
  unfold State.faultTaskOf
  grind [State.abortTask_memOk, !State.report_memOk, State.endTask_memOk, State.faultTask_memOk]

theorem State.restartTask_memOk {s : State} {h} (ok : s.MemOk) : (s.restartTask h).MemOk := by
  unfold State.restartTask
  grind [State.abortTask_memOk, State.makeReady_memOk, State.setAside_memOk]

theorem State.holdFault_memOk {s : State} {h i access} (ok : s.MemOk) : (s.holdFault h i access).MemOk := by
  unfold State.holdFault
  grind [State.modHart_memOk]

theorem State.translationFault_memOk {s : State} {h i stage denied access va gpa} (ok : s.MemOk) :
    (s.translationFault h i stage denied access va gpa).MemOk := by
  unfold State.translationFault
  grind [State.modHart_memOk, State.modTask_memOk, State.abortTask_memOk, !State.report_memOk, State.setAside_memOk,
    State.takeTrap_memOk, State.faultTask_memOk, State.holdFault_memOk]

theorem State.deliverOpFault_memOk {s : State} {h f} (ok : s.MemOk) : (s.deliverOpFault h f).MemOk := by
  unfold State.deliverOpFault
  grind [State.modTask_memOk, State.setTile_memOk, State.faultTask_memOk, State.restartTask_memOk]

theorem State.eccError_memOk {s : State} {h bit va} (ok : s.MemOk) : (s.eccError h bit va).MemOk := by
  unfold State.eccError
  grind [State.modCluster_memOk, State.modTask_memOk, State.takeTrap_memOk, State.faultTask_memOk,
    State.restartTask_memOk]

theorem State.countRemote_memOk {s : State} {h} (ok : s.MemOk) : (s.countRemote h).MemOk := by
  unfold State.countRemote
  grind [State.modHart_memOk, State.modTask_memOk]

/-- The exception carries the state that stays, so that state has to be canonical too. -/
theorem State.leave_memOk {s : State} {i e} (ok : s.MemOk) (left : e.MemOk) : (s.leave i e).MemOk := by
  cases e with
  | trapAfter t c b v => exact State.takeTrap_memOk (State.countRemote_memOk left)
  | hold t k => exact memOk_ite (State.endHere_memOk ok) left
  | endsAfter t => exact State.endHere_memOk left
  | trap c b v => exact State.takeTrap_memOk ok
  | illegal => exact State.takeTrap_memOk ok
  | trapWord c b => exact State.takeTrap_memOk ok
  | xlate g d a v p => exact State.translationFault_memOk ok
  | wait k => exact memOk_ite (State.endHere_memOk ok) ok
  | ends => exact State.endHere_memOk ok
  | opFault f => exact State.deliverOpFault_memOk ok
  | ecc b v => exact State.eccError_memOk ok
  | autoClose c => exact ok

theorem State.finishExc_memOk {s : State} {i e} (ok : s.MemOk) (left : e.MemOk) : (s.finishExc i e).MemOk := by
  unfold State.finishExc
  split
  · exact State.leave_memOk (State.withdrawWait_memOk (State.countRemote_memOk ok)) left
  · exact State.leave_memOk (State.withdrawWait_memOk (State.countRemote_memOk ok)) left
  · exact State.leave_memOk (State.withdrawWait_memOk (State.countRemote_memOk ok)) left
  · exact State.leave_memOk (State.withdrawWait_memOk ok) left
  · exact State.leave_memOk ok left

theorem State.retire_memOk {s : State} (ok : s.MemOk) : s.retire.MemOk := by
  unfold State.retire
  grind [State.modMe_memOk, State.countRemote_memOk]

theorem State.complete_memOk {s : State} (ok : s.MemOk) : s.complete.MemOk := by
  unfold State.complete
  grind [State.modMe_memOk, State.countRemote_memOk]

theorem State.autoClose_memOk {s : State} {code} (ok : s.MemOk) : (s.autoClose code).MemOk := by
  unfold State.autoClose
  grind [State.closeRegion_memOk, State.closesOther_memOk]

theorem Exc.after_memOk {s : State} {e} (ok : s.MemOk) (left : e.MemOk) : (Exc.after s e).MemOk := by
  cases e with
  | trap => exact ok
  | _ => exact left

/-- An instruction inside a region keeps memory canonical if its body does, also where it closes the region. -/
theorem runOpen_keeps {s : State} {body : State → Except Exc State} {i}
    (h : ∀ s : State, s.MemOk → Ends (body s) State.MemOk) (ok : s.MemOk) : Keeps (runOpen i s body) := by
  have h1 := h s ok
  have h2 := fun c => State.autoClose_memOk (code := c) ok
  unfold runOpen State.attempt
  grind [Keeps, Ends, State.complete_memOk, State.finishExc_memOk, Exc.MemOk]

/-- A jump inside a region keeps memory canonical if its body does. -/
theorem runJump_keeps {s : State} {body : State → Except Exc State} {i}
    (h : ∀ s : State, s.MemOk → Ends (body s) State.MemOk) (ok : s.MemOk) : Keeps (runJump i s body) := by
  have h1 := h s ok
  have h2 := fun c => State.autoClose_memOk (code := c) ok
  unfold runJump State.attempt
  grind [Keeps, Ends, State.retire_memOk, State.finishExc_memOk, Exc.MemOk]

/-- An instruction that closes the region first keeps memory canonical if its body does. -/
theorem runClosing_keeps {s : State} {body : State → Except Exc State} {k i}
    (h : ∀ s : State, s.MemOk → Ends (body s) State.MemOk) (ok : s.MemOk) : Keeps (runClosing k i s body) := by
  have h1 : (if s.me.waiting.isSome then s
    else (if isGateWait i then s else s.closesOther s.cur).closeRegion s.cur 0 s.me.epc k).MemOk := by
    grind [State.closesOther_memOk, State.closeRegion_memOk]
  unfold runClosing
  extract_lets s1
  have h2 : Ends (body s1) State.MemOk := h s1 h1
  split
  · exact State.endHere_memOk h1
  · split
    · grind [Keeps, Ends, State.complete_memOk, State.checkpoint_memOk]
    · exact State.finishExc_memOk h1 trivial
    · exact State.finishExc_memOk h1 (by grind [Ends])

/-! ### Operand forms -/

theorem State.baseAddr_ends {s : State} {acc rs1 i} : Ends (s.baseAddr acc rs1 i) fun _ => True := by
  unfold State.baseAddr
  grind [Ends, Exc.MemOk]

theorem State.needFs_ends {s : State} : Ends s.needFs fun _ => True := by
  unfold State.needFs
  grind [Ends, Exc.MemOk]

end Sys2Proof.Machine
end

section
/-! PROOFS. The instructions of the hart and the copy engine keep memory in its canonical form. -/

namespace Sys2Proof.Machine

-- One proof after the other: hundreds of proofs elaborated at once ask for more threads than the check allows.
set_option Elab.async false

/-! ### Base instructions that reach memory or the privileged state -/

@[simp] theorem execIllegalInstruction_keeps {s : State} {w} (ok : s.MemOk) : Keeps (execIllegalInstruction w s) := by
  unfold execIllegalInstruction
  refine runOpen_keeps (fun s ok => ?_) ok
  grind [Ends, Exc.MemOk]

@[simp] theorem execBaseLoad_keeps {s : State} {op rd rs1 imm} (ok : s.MemOk) :
    Keeps (execBaseLoad op rd rs1 imm s) := by
  unfold execBaseLoad
  refine runOpen_keeps (fun s ok => ?_) ok
  simp only [bind, Except.bind, pure, Except.pure]
  grind [Ends, State.setX_memOk, State.setF_memOk, !State.load_ends, !State.baseAddr_ends, !State.needFs_ends]

@[simp] theorem execBaseStore_keeps {s : State} {op rs1 rs2 imm} (ok : s.MemOk) :
    Keeps (execBaseStore op rs1 rs2 imm s) := by
  unfold execBaseStore
  refine runOpen_keeps (fun s ok => ?_) ok
  simp only [bind, Except.bind]
  grind [Ends, !State.store_ends, !State.baseAddr_ends, !State.needFs_ends]

@[simp] theorem execAmo_keeps {s : State} {op d aq rl rd rs1 rs2} (ok : s.MemOk) :
    Keeps (execAmo op d aq rl rd rs1 rs2 s) := by
  unfold execAmo
  refine runClosing_keeps (fun s ok => ?_) ok
  simp only [bind, Except.bind, pure, Except.pure]
  grind [Ends, State.setX_memOk, !State.rmw_ends]

@[simp] theorem execLr_keeps {s : State} {d aq rl rd rs1} (ok : s.MemOk) : Keeps (execLr d aq rl rd rs1 s) := by
  unfold execLr
  refine runOpen_keeps (fun s ok => ?_) ok
  simp only [bind, Except.bind, pure, Except.pure]
  grind [Ends, Exc.MemOk, State.modMe_memOk, State.setX_memOk, !resolve_ends, !State.load_ends]

@[simp] theorem execSc_keeps {s : State} {d aq rl rd rs1 rs2} (ok : s.MemOk) :
    Keeps (execSc d aq rl rd rs1 rs2 s) := by
  unfold execSc
  refine runClosing_keeps (fun s ok => ?_) ok
  simp only [bind, Except.bind, pure, Except.pure]
  grind [Ends, Exc.MemOk, State.modMe_memOk, State.setX_memOk, !resolve_ends, performUnits_memOk]

theorem State.fenceEffect_ends {s : State} {mask kind} (ok : s.MemOk) :
    Ends (s.fenceEffect mask kind) State.MemOk := by
  unfold State.fenceEffect
  grind [Ends, !State.appendEntry_ends]

@[simp] theorem execFence_keeps {s : State} {fm p q rs1 rd} (ok : s.MemOk) : Keeps (execFence fm p q rs1 rd s) := by
  unfold execFence
  refine runOpen_keeps (fun s ok => ?_) ok
  grind [!State.fenceEffect_ends]

@[simp] theorem execFenceI_keeps {s : State} {imm rs1 rd} (ok : s.MemOk) : Keeps (execFenceI imm rs1 rd s) := by
  unfold execFenceI
  refine runOpen_keeps (fun s ok => ?_) ok
  grind [Ends]

@[simp] theorem execEbreak_keeps {s : State} (ok : s.MemOk) : Keeps (execEbreak s) := by
  unfold execEbreak
  refine runOpen_keeps (fun s ok => ?_) ok
  grind [Ends, Exc.MemOk]

@[simp] theorem execWfi_keeps {s : State} (ok : s.MemOk) : Keeps (execWfi s) := by
  unfold execWfi
  refine runOpen_keeps (fun s ok => ?_) ok
  grind [Ends, Exc.MemOk]

theorem State.openAtReturn_memOk {s : State} (ok : s.MemOk) : s.openAtReturn.MemOk := by
  unfold State.openAtReturn
  grind [State.checkpoint_memOk]

@[simp] theorem execSret_keeps {s : State} (ok : s.MemOk) : Keeps (execSret s) := by
  unfold execSret
  refine runJump_keeps (fun s ok => ?_) ok
  grind [Ends, Exc.MemOk, State.modMe_memOk, State.freeHart_memOk, State.openAtReturn_memOk]

@[simp] theorem execMret_keeps {s : State} (ok : s.MemOk) : Keeps (execMret s) := by
  unfold execMret
  refine runJump_keeps (fun s ok => ?_) ok
  grind [Ends, Exc.MemOk, State.modMe_memOk, State.openAtReturn_memOk]

theorem State.flushCluster_memOk {s : State} {c f} (ok : s.MemOk) : (s.flushCluster c f).MemOk := ok

theorem flushClusters_memOk {s : State} {f l} (ok : s.MemOk) : (flushClusters s f l).MemOk := by
  fun_induction flushClusters s f l <;> grind [State.flushCluster_memOk]

theorem State.flushWait_ends {s : State} {cs : List Nat} {flush : State → State} {f} (flushed : (flush s).MemOk)
    (ok : s.MemOk) : Ends (s.flushWait f cs flush) State.MemOk := by
  unfold State.flushWait
  grind [Ends, Exc.MemOk]

@[simp] theorem execSfenceVma_keeps {s : State} {rs1 rs2} (ok : s.MemOk) : Keeps (execSfenceVma rs1 rs2 s) := by
  unfold execSfenceVma
  refine runOpen_keeps (fun s ok => ?_) ok
  grind [Ends, Exc.MemOk, flushClusters_memOk, !State.flushWait_ends]

/-! ### The copy engine -/

theorem State.allocSlot_memOk {s t : State} {c x r} (ok : s.MemOk) (run : s.allocSlot c x = some (t, r)) :
    t.MemOk := by
  unfold State.allocSlot at run
  grind [State.modCluster_memOk, State.post_memOk, State.useFresh_memOk, State.setSlot_memOk]

theorem State.startCopy_memOk {s : State} {c} (ok : s.MemOk) : (s.startCopy c).MemOk := by
  unfold State.startCopy
  grind [State.setCluster_memOk, State.post_memOk, State.setSlot_memOk]

@[simp] theorem execCopyChannelStart_keeps {s : State} {c} (ok : s.MemOk) : Keeps (execCopyChannelStart c s) := by
  unfold execCopyChannelStart
  grind [Keeps, State.startCopy_memOk]

theorem State.copyDetect_memOk {s : State} {c task vault global} (ok : s.MemOk) :
    (s.copyDetect c task vault global).1.MemOk := by
  unfold State.copyDetect
  grind [State.setCluster_memOk, State.correct_memOk]

theorem gatherRead_memOk {s t : State} {v n2 a n3 r} (ok : s.MemOk) (run : gatherRead v n2 s a n3 = .ok (t, r)) :
    t.MemOk := by
  induction n2 generalizing s a n3 t r with
  | zero => grind [gatherRead]
  | succ n ih =>
    unfold gatherRead at run
    grind [→ resolve_memOk]

theorem State.gatherIn_memOk {s : State} {c n x} (ok : s.MemOk) : (s.gatherIn c n x).1.MemOk := by
  unfold State.gatherIn
  grind [State.setSlot_memOk, → gatherRead_memOk]

theorem State.readBeat_memOk {s : State} {c x} (ok : s.MemOk) : (s.readBeat c x).1.MemOk := by
  unfold State.readBeat
  grind [Ends, !resolve_ends, !State.copyDetect_memOk]

theorem arriveAll_memOk {s : State} {n off bs l} (ok : s.MemOk) : (arriveAll s n off bs l).1.MemOk := by
  fun_induction arriveAll s n off bs l <;> grind [→ State.arrive_memOk]

theorem State.writeBeat_memOk {s : State} {c x bs} (ok : s.MemOk) : (s.writeBeat c x bs).1.MemOk := by
  unfold State.writeBeat
  grind [Ends, !resolve_ends, performUnits_memOk, !arriveAll_memOk]

theorem State.prefetchFails_memOk {s : State} {h slot cause sub} (ok : s.MemOk) :
    (s.prefetchFails h slot cause sub).MemOk := by
  unfold State.prefetchFails
  grind [State.modTask_memOk, State.post_memOk]

theorem State.copyFaults_memOk {s : State} {c n cause sub} (ok : s.MemOk) : (s.copyFaults c n cause sub).MemOk := by
  unfold State.copyFaults
  grind [State.disarmStage_memOk, State.setSlot_memOk, State.stopSlot_memOk, State.freeSlot_memOk,
    !State.report_memOk, State.prefetchFails_memOk]

theorem State.copyHolds_memOk {s : State} {c n stage access va gpa} (ok : s.MemOk) :
    (s.copyHolds c n stage access va gpa).MemOk := by
  unfold State.copyHolds
  grind [State.setSlot_memOk, !State.report_memOk]

theorem State.beatFails_memOk {s : State} {c n f} (ok : s.MemOk) : (s.beatFails c n f).MemOk := by
  unfold State.beatFails
  grind [State.post_memOk, State.copyFaults_memOk, State.copyHolds_memOk]

theorem State.copyDone_memOk {s : State} {c n} (ok : s.MemOk) : (s.copyDone c n).MemOk := by
  unfold State.copyDone
  grind [State.modStage_memOk, State.retryPrefetches_memOk, State.prefetchesHoisted_memOk, State.stopSlot_memOk]

theorem State.beatDone_memOk {s : State} {c n} (ok : s.MemOk) : (s.beatDone c n).MemOk := by
  unfold State.beatDone
  grind [State.post_memOk, State.setSlot_memOk, State.copyDone_memOk]

theorem State.sendBeat_memOk {s : State} {c n x bs} (ok : s.MemOk) : (s.sendBeat c n x bs).MemOk := ok

theorem State.copyBeat_memOk {s : State} {c n} (ok : s.MemOk) : (s.copyBeat c n).MemOk := by
  unfold State.copyBeat
  grind [!State.gatherIn_memOk, !State.readBeat_memOk, !State.writeBeat_memOk, State.beatFails_memOk,
    State.beatDone_memOk, State.sendBeat_memOk]

theorem State.beatArrives_memOk {s : State} {from_ c n off data} (ok : s.MemOk) :
    (s.beatArrives from_ c n off data).MemOk := by
  unfold State.beatArrives
  grind [State.sendFlit_memOk, → State.arrive_memOk, State.MemOk]

theorem State.beatAnswered_memOk {s : State} {c n seq o} (ok : s.MemOk) : (s.beatAnswered c n seq o).MemOk := by
  unfold State.beatAnswered
  grind [State.post_memOk, State.setSlot_memOk, State.copyFaults_memOk, State.beatDone_memOk]

@[simp] theorem execCopyBeatWrite_keeps {s : State} {c b} (ok : s.MemOk) : Keeps (execCopyBeatWrite c b s) := by
  unfold execCopyBeatWrite
  grind [Keeps, State.copyBeat_memOk, State.beatArrives_memOk, State.beatAnswered_memOk]

/-! ### Stage and copy instructions -/

@[simp] theorem execStdef_keeps {s : State} {rs1 rs2} (ok : s.MemOk) : Keeps (execStdef rs1 rs2 s) := by
  unfold execStdef
  refine runClosing_keeps (fun s ok => ?_) ok
  grind [Ends, Exc.MemOk, State.setStage_memOk, stageTrap]

@[simp] theorem execStarm_keeps {s : State} {rd rs1 rs2} (ok : s.MemOk) : Keeps (execStarm rd rs1 rs2 s) := by
  unfold execStarm
  refine runClosing_keeps (fun s ok => ?_) ok
  grind [Ends, Exc.MemOk, State.setX_memOk, State.armStage_memOk, stageTrap]

@[simp] theorem execStwait_keeps {s : State} {rd rs1 rs2} (ok : s.MemOk) : Keeps (execStwait rd rs1 rs2 s) := by
  unfold execStwait
  refine runOpen_keeps (fun s ok => ?_) ok
  grind [Ends, Exc.MemOk, State.setX_memOk, stageTrap]

@[simp] theorem execStgen_keeps {s : State} {rd rs1} (ok : s.MemOk) : Keeps (execStgen rd rs1 s) := by
  unfold execStgen
  refine runOpen_keeps (fun s ok => ?_) ok
  grind [Ends, State.setX_memOk]

@[simp] theorem execHoist_keeps {s : State} {rd rs1} (ok : s.MemOk) : Keeps (execHoist rd rs1 s) := by
  unfold execHoist
  refine runClosing_keeps (fun s ok => ?_) ok
  grind [Ends, Exc.MemOk, State.setX_memOk, State.modStage_memOk, State.retryPrefetches_memOk, stageTrap]

theorem State.readList_ends {s : State} {w a} (ok : s.MemOk) : Ends (s.readList w a) (·.1.MemOk) := by
  unfold State.readList
  simp only [bind, Except.bind, pure, Except.pure, throw, throwThe, MonadExceptOf.throw]
  grind [Ends, Exc.MemOk, !State.load_ends]

theorem State.issueCopy_ends {s : State} {k rd rs1 rs2} (ok : s.MemOk) :
    Ends (s.issueCopy k rd rs1 rs2) State.MemOk := by
  unfold State.issueCopy
  simp only [bind, Except.bind, pure, Except.pure, throw, throwThe, MonadExceptOf.throw]
  grind [Ends, Exc.MemOk, State.setX_memOk, → State.allocSlot_memOk, !State.readList_ends]

@[simp] theorem execCpyin_keeps {s : State} {rd rs1 rs2} (ok : s.MemOk) : Keeps (execCpyin rd rs1 rs2 s) := by
  unfold execCpyin
  refine runClosing_keeps (fun s ok => ?_) ok
  grind [!State.issueCopy_ends]

@[simp] theorem execCpyout_keeps {s : State} {rd rs1 rs2} (ok : s.MemOk) : Keeps (execCpyout rd rs1 rs2 s) := by
  unfold execCpyout
  refine runClosing_keeps (fun s ok => ?_) ok
  grind [!State.issueCopy_ends]

@[simp] theorem execCpyx_keeps {s : State} {rd rs1 rs2} (ok : s.MemOk) : Keeps (execCpyx rd rs1 rs2 s) := by
  unfold execCpyx
  refine runClosing_keeps (fun s ok => ?_) ok
  grind [!State.issueCopy_ends]

@[simp] theorem execCpygath_keeps {s : State} {rd rs1 rs2} (ok : s.MemOk) : Keeps (execCpygath rd rs1 rs2 s) := by
  unfold execCpygath
  refine runClosing_keeps (fun s ok => ?_) ok
  grind [!State.issueCopy_ends]

@[simp] theorem execCpybc_keeps {s : State} {rd rs1 rs2} (ok : s.MemOk) : Keeps (execCpybc rd rs1 rs2 s) := by
  unfold execCpybc
  refine runClosing_keeps (fun s ok => ?_) ok
  grind [!State.issueCopy_ends]

theorem State.ticket_ends {s : State} {t} : Ends (s.ticket t) fun _ => True := by
  unfold State.ticket
  grind [Ends, Exc.MemOk]

@[simp] theorem execCpwait_keeps {s : State} {rd rs1} (ok : s.MemOk) : Keeps (execCpwait rd rs1 s) := by
  unfold execCpwait
  refine runOpen_keeps (fun s ok => ?_) ok
  simp only [bind, Except.bind, pure, Except.pure, throw, throwThe, MonadExceptOf.throw]
  grind [Ends, Exc.MemOk, State.setX_memOk, State.freeSlot_memOk, !State.ticket_ends]

@[simp] theorem execCpqry_keeps {s : State} {rd rs1} (ok : s.MemOk) : Keeps (execCpqry rd rs1 s) := by
  unfold execCpqry
  refine runOpen_keeps (fun s ok => ?_) ok
  simp only [bind, Except.bind, pure, Except.pure]
  grind [Ends, State.setX_memOk, State.freeSlot_memOk, !State.ticket_ends]

@[simp] theorem execCpcan_keeps {s : State} {rd rs1} (ok : s.MemOk) : Keeps (execCpcan rd rs1 s) := by
  unfold execCpcan
  refine runClosing_keeps (fun s ok => ?_) ok
  simp only [bind, Except.bind, pure, Except.pure]
  grind [Ends, State.setX_memOk, State.stopSlot_memOk, State.freeSlot_memOk, !State.ticket_ends]

/-! ### Control registers -/

theorem State.armCluster_memOk {s : State} {bit arm} (ok : s.MemOk) : (s.armCluster bit arm).MemOk := ok
theorem State.armLink_memOk {s : State} {arm} (ok : s.MemOk) : (s.armLink arm).MemOk := ok

theorem State.armCore_memOk {s : State} {arm} (ok : s.MemOk) : (s.armCore arm).MemOk := by
  unfold State.armCore
  grind [State.modCluster_memOk, State.post_memOk, State.unpost_memOk]

theorem State.armCopy_memOk {s : State} {arm} (ok : s.MemOk) : (s.armCopy arm).MemOk := ok
theorem State.armHbm_memOk {s : State} {arm} (ok : s.MemOk) : (s.armHbm arm).MemOk := ok
theorem State.armVault_memOk {s : State} {arm} (ok : s.MemOk) : (s.armVault arm).MemOk := ok
theorem State.armPad_memOk {s : State} {arm} (ok : s.MemOk) : (s.armPad arm).MemOk := ok
theorem State.armTmem_memOk {s : State} {arm} (ok : s.MemOk) : (s.armTmem arm).MemOk := ok
theorem State.armMpad_memOk {s : State} {arm} (ok : s.MemOk) : (s.armMpad arm).MemOk := ok

theorem State.errinjWrite_memOk {s : State} {v} (ok : s.MemOk) : (s.errinjWrite v).MemOk := by
  unfold State.errinjWrite
  grind [State.armCluster_memOk, State.armLink_memOk, State.armCore_memOk, State.armCopy_memOk, State.armHbm_memOk,
    State.armVault_memOk, State.armPad_memOk, State.armTmem_memOk, State.armMpad_memOk]

theorem State.scrubStart_memOk {s : State} {units} (ok : s.MemOk) : (s.scrubStart units).MemOk := by
  unfold State.scrubStart
  grind [State.modCluster_memOk, State.post_memOk]

theorem State.csrRead_ends {s : State} {n} : Ends (s.csrRead n) fun _ => True := by
  unfold State.csrRead
  simp only [bind, Except.bind]
  grind [Ends, Exc.MemOk, !State.needFs_ends]

theorem State.csrSetLow_memOk {s : State} {n v} (ok : s.MemOk) : (s.csrSetLow n v).MemOk := by
  unfold State.csrSetLow
  iterate 16 refine memOk_ite ok ?_
  refine memOk_dite (fun _ => ok) fun _ => memOk_ite ok ?_
  exact memOk_ite (State.errinjWrite_memOk ok) (memOk_ite (State.scrubStart_memOk ok) ok)

theorem State.csrSetHigh_memOk {s : State} {n v} (ok : s.MemOk) : (s.csrSetHigh n v).MemOk := by
  unfold State.csrSetHigh
  iterate 13 refine memOk_ite ok ?_
  exact memOk_dite (fun _ => ok) fun _ => memOk_dite (fun _ => ok) fun _ => memOk_ite ok (memOk_ite ok ok)

theorem State.csrSet_memOk {s : State} {n v} (ok : s.MemOk) : (s.csrSet n v).MemOk := by
  unfold State.csrSet
  grind [State.csrSetLow_memOk, State.csrSetHigh_memOk]

theorem State.csrEffect_ends {s : State} {csr f} (ok : s.MemOk) : Ends (s.csrEffect csr f) State.MemOk := by
  unfold State.csrEffect
  simp only [bind, Except.bind, pure, Except.pure]
  grind [Ends, Exc.MemOk, State.setX_memOk, !State.csrRead_ends, State.csrSet_memOk]

@[simp] theorem execCsrAccess_keeps {s : State} {csr f} (ok : s.MemOk) : Keeps (execCsrAccess csr f s) := by
  unfold execCsrAccess
  refine runOpen_keeps (fun s ok => ?_) ok
  grind [!State.csrEffect_ends]

@[simp] theorem execStcolWrite_keeps {s : State} {f} (ok : s.MemOk) : Keeps (execStcolWrite f s) := by
  unfold execStcolWrite
  refine runOpen_keeps (fun s ok => ?_) ok
  grind [!State.csrEffect_ends]

@[simp] theorem execVrmWrite_keeps {s : State} {f} (ok : s.MemOk) : Keeps (execVrmWrite f s) := by
  unfold execVrmWrite
  refine runOpen_keeps (fun s ok => ?_) ok
  grind [!State.csrEffect_ends]

@[simp] theorem execMfmtWrite_keeps {s : State} {n f} (ok : s.MemOk) : Keeps (execMfmtWrite n f s) := by
  unfold execMfmtWrite
  refine runOpen_keeps (fun s ok => ?_) ok
  grind [!State.csrEffect_ends]

@[simp] theorem execMgangWrite_keeps {s : State} {f} (ok : s.MemOk) : Keeps (execMgangWrite f s) := by
  unfold execMgangWrite
  refine runOpen_keeps (fun s ok => ?_) ok
  grind [!State.csrEffect_ends]

@[simp] theorem execSatpWrite_keeps {s : State} {f} (ok : s.MemOk) : Keeps (execSatpWrite f s) := by
  unfold execSatpWrite
  refine runOpen_keeps (fun s ok => ?_) ok
  grind [!State.csrEffect_ends]

@[simp] theorem execErrinjLink_keeps {s : State} {arm} (ok : s.MemOk) : Keeps (execErrinjLink arm s) := by
  unfold execErrinjLink
  grind [Keeps, State.armLink_memOk]

@[simp] theorem execErrinjCore_keeps {s : State} {arm} (ok : s.MemOk) : Keeps (execErrinjCore arm s) := by
  unfold execErrinjCore
  grind [Keeps, State.armCore_memOk]

@[simp] theorem execErrinjCopy_keeps {s : State} {arm} (ok : s.MemOk) : Keeps (execErrinjCopy arm s) := by
  unfold execErrinjCopy
  grind [Keeps, State.armCopy_memOk]

@[simp] theorem execErrinjHbm_keeps {s : State} {arm} (ok : s.MemOk) : Keeps (execErrinjHbm arm s) := by
  unfold execErrinjHbm
  grind [Keeps, State.armHbm_memOk]

@[simp] theorem execErrinjVault_keeps {s : State} {arm} (ok : s.MemOk) : Keeps (execErrinjVault arm s) := by
  unfold execErrinjVault
  grind [Keeps, State.armVault_memOk]

@[simp] theorem execErrinjPad_keeps {s : State} {arm} (ok : s.MemOk) : Keeps (execErrinjPad arm s) := by
  unfold execErrinjPad
  grind [Keeps, State.armPad_memOk]

@[simp] theorem execErrinjTmem_keeps {s : State} {arm} (ok : s.MemOk) : Keeps (execErrinjTmem arm s) := by
  unfold execErrinjTmem
  grind [Keeps, State.armTmem_memOk]

@[simp] theorem execErrinjMpad_keeps {s : State} {arm} (ok : s.MemOk) : Keeps (execErrinjMpad arm s) := by
  unfold execErrinjMpad
  grind [Keeps, State.armMpad_memOk]

@[simp] theorem execScrubctlVault_keeps {s : State} (ok : s.MemOk) : Keeps (execScrubctlVault s) := by
  unfold execScrubctlVault
  grind [Keeps, State.scrubStart_memOk]

@[simp] theorem execScrubctlTiles_keeps {s : State} (ok : s.MemOk) : Keeps (execScrubctlTiles s) := by
  unfold execScrubctlTiles
  grind [Keeps, State.scrubStart_memOk]

@[simp] theorem execScrubctlPad_keeps {s : State} (ok : s.MemOk) : Keeps (execScrubctlPad s) := by
  unfold execScrubctlPad
  grind [Keeps, State.scrubStart_memOk]

/-! ### Hart instructions of custom-0 -/

@[simp] theorem execRcommit_keeps {s : State} (ok : s.MemOk) : Keeps (execRcommit s) := by
  unfold execRcommit
  refine runClosing_keeps (fun s ok => ?_) ok
  grind [Ends]

@[simp] theorem execPhase_keeps {s : State} {rd rs1} (ok : s.MemOk) : Keeps (execPhase rd rs1 s) := by
  unfold execPhase
  refine runOpen_keeps (fun s ok => ?_) ok
  grind [Ends, State.setX_memOk]

@[simp] theorem execBfx_keeps {s : State} {rd rs1 rs2} (ok : s.MemOk) : Keeps (execBfx rd rs1 rs2 s) := by
  unfold execBfx
  refine runOpen_keeps (fun s ok => ?_) ok
  grind [Ends, State.setX_memOk]

@[simp] theorem execBfi_keeps {s : State} {rd rs1 rs2} (ok : s.MemOk) : Keeps (execBfi rd rs1 rs2 s) := by
  unfold execBfi
  refine runOpen_keeps (fun s ok => ?_) ok
  grind [Ends, State.setX_memOk]

@[simp] theorem execCfence_keeps {s : State} {mask kind scope} (ok : s.MemOk) :
    Keeps (execCfence mask kind scope s) := by
  unfold execCfence
  refine runOpen_keeps (fun s ok => ?_) ok
  simp only [bind, Except.bind, pure, Except.pure]
  grind [Ends, State.countClamp_memOk, !State.fenceEffect_ends]

theorem State.rmw64_ends {s : State} {rd rs1 scope f} (ok : s.MemOk) : Ends (s.rmw64 rd rs1 scope f) State.MemOk := by
  unfold State.rmw64
  simp only [bind, Except.bind, pure, Except.pure]
  grind [Ends, State.modMe_memOk, State.setX_memOk, !State.rmw_ends, State.countClamp_memOk]

@[simp] theorem execSamo_keeps {s : State} {op scope rd rs1 rs2} (ok : s.MemOk) :
    Keeps (execSamo op scope rd rs1 rs2 s) := by
  unfold execSamo
  refine runClosing_keeps (fun s ok => ?_) ok
  grind [!State.rmw64_ends]

@[simp] theorem execScas_keeps {s : State} {scope rd rs1 rs2} (ok : s.MemOk) :
    Keeps (execScas scope rd rs1 rs2 s) := by
  unfold execScas
  refine runClosing_keeps (fun s ok => ?_) ok
  grind [!State.rmw64_ends]

theorem State.setBarrier_memOk {s : State} {k b} (ok : s.MemOk) : (s.setBarrier k b).MemOk := ok

theorem State.myBarrier_ends {s : State} {rs1} : Ends (s.myBarrier rs1) fun _ => True := by
  unfold State.myBarrier
  grind [Ends, Exc.MemOk]

theorem State.releaseBarrier_memOk {s : State} {k phase} (ok : s.MemOk) : (s.releaseBarrier k phase).MemOk := ok

theorem State.arriveAt_memOk {s : State} {k} (ok : s.MemOk) : (s.arriveAt k).MemOk := by
  unfold State.arriveAt
  grind [State.setBarrier_memOk, State.releaseBarrier_memOk]

@[simp] theorem execBarinit_keeps {s : State} {rs1 rs2} (ok : s.MemOk) : Keeps (execBarinit rs1 rs2 s) := by
  unfold execBarinit
  refine runClosing_keeps (fun s ok => ?_) ok
  simp only [bind, Except.bind, pure, Except.pure]
  grind [Ends, Exc.MemOk, State.countClamp_memOk, State.setBarrier_memOk, !State.myBarrier_ends]

@[simp] theorem execBarrive_keeps {s : State} {rd rs1} (ok : s.MemOk) : Keeps (execBarrive rd rs1 s) := by
  unfold execBarrive
  refine runClosing_keeps (fun s ok => ?_) ok
  simp only [bind, Except.bind, pure, Except.pure]
  grind [Ends, Exc.MemOk, State.setX_memOk, State.countClamp_memOk, !State.myBarrier_ends, State.arriveAt_memOk]

@[simp] theorem execBarwait_keeps {s : State} {rs1 rs2} (ok : s.MemOk) : Keeps (execBarwait rs1 rs2 s) := by
  unfold execBarwait
  refine runOpen_keeps (fun s ok => ?_) ok
  simp only [bind, Except.bind, pure, Except.pure]
  grind [Ends, Exc.MemOk, State.countClamp_memOk, !State.myBarrier_ends]

@[simp] theorem execBarsync_keeps {s : State} {rd rs1} (ok : s.MemOk) : Keeps (execBarsync rd rs1 s) := by
  unfold execBarsync
  refine runClosing_keeps (fun s ok => ?_) ok
  simp only [bind, Except.bind, pure, Except.pure]
  grind [Ends, Exc.MemOk, State.setX_memOk, State.countClamp_memOk, !State.myBarrier_ends, State.arriveAt_memOk]

theorem State.setSem_memOk {s : State} {i v} (ok : s.MemOk) : (s.setSem i v).MemOk := ok
theorem State.setSemQueue_memOk {s : State} {i q} (ok : s.MemOk) : (s.setSemQueue i q).MemOk := ok

theorem State.semOperands_ends {s : State} {rs1 rs2} : Ends (s.semOperands rs1 rs2) fun _ => True := by
  unfold State.semOperands
  grind [Ends, Exc.MemOk]

@[simp] theorem execSemv_keeps {s : State} {rs1 rs2} (ok : s.MemOk) : Keeps (execSemv rs1 rs2 s) := by
  unfold execSemv
  refine runClosing_keeps (fun s ok => ?_) ok
  simp only [bind, Except.bind, pure, Except.pure]
  grind [Ends, Exc.MemOk, serveSem_memOk, State.serveSem_memOk, State.setSem_memOk, !State.semOperands_ends]

@[simp] theorem execSemp_keeps {s : State} {rd rs1 rs2} (ok : s.MemOk) : Keeps (execSemp rd rs1 rs2 s) := by
  unfold execSemp
  refine runClosing_keeps (fun s ok => ?_) ok
  simp only [bind, Except.bind, pure, Except.pure]
  grind [Ends, Exc.MemOk, State.setX_memOk, State.setSem_memOk, State.setSemQueue_memOk, !State.semOperands_ends]

@[simp] theorem execXflush_keeps {s : State} {rs1 rs2} (ok : s.MemOk) : Keeps (execXflush rs1 rs2 s) := by
  unfold execXflush
  grind [Keeps, Ends, Exc.MemOk, State.finishExc_memOk, !runClosing_keeps, State.flushCluster_memOk,
    !State.flushWait_ends]

/-! ### Requests to homes on other chips -/

theorem State.sendOut_memOk {s : State} {timeout} (ok : s.MemOk) : (s.sendOut timeout).MemOk := ok

theorem State.remoteWith_ends {s : State} {timeout handles} (ok : s.MemOk) :
    Ends (s.remoteWith timeout handles) (·.1.MemOk) := by
  unfold State.remoteWith
  grind [Ends, Exc.MemOk, State.sendOut_memOk]

theorem State.remote_ends {s : State} {timeout} (ok : s.MemOk) : Ends (s.remote timeout) (·.1.MemOk) := by
  unfold State.remote
  grind [!State.remoteWith_ends]

theorem State.deliverReply_memOk {s : State} {h r} (ok : s.MemOk) : (s.deliverReply h r).MemOk := ok

@[simp] theorem execRemoteReplyTimeout_keeps {s : State} {h} (ok : s.MemOk) : Keeps (execRemoteReplyTimeout h s) := by
  unfold execRemoteReplyTimeout
  grind [Keeps, State.deliverReply_memOk]

theorem State.holdAt_memOk {s : State} {c sub desc handles} (ok : s.MemOk) :
    (s.holdAt c sub desc handles).MemOk := State.modCluster_memOk ok

theorem State.heldGate_ends {s : State} : Ends s.heldGate fun _ => True := by
  unfold State.heldGate
  grind [Ends, Exc.MemOk]

theorem State.acceptHandle_ends {s : State} {h} : Ends (s.acceptHandle h) fun _ => True := by
  unfold State.acceptHandle
  grind [Ends, !State.checkHandle_ends]

theorem State.keepReply_memOk {s : State} {c m r} (ok : s.MemOk) : (s.keepReply c m r).MemOk := ok

theorem State.applyRequest_memOk {s : State} {c r} (ok : s.MemOk) : (s.applyRequest c r).MemOk := by
  unfold State.applyRequest
  grind [State.modCluster_memOk, State.touchDone_memOk, !State.homeApply_memOk, State.keepReply_memOk]

theorem State.homeRequest_memOk {s : State} {r} (ok : s.MemOk) : (s.homeRequest r).MemOk := by
  unfold State.homeRequest
  grind [State.applyRequest_memOk]

theorem State.retryHeld_memOk {s : State} {c} (ok : s.MemOk) : (s.retryHeld c).1.MemOk := by
  unfold State.retryHeld
  refine memOk_foldl ?_ _ ?_
  · grind [State.applyRequest_memOk]
  · grind [State.modCluster_memOk]

theorem State.rejectHeld_memOk {s : State} {c} (ok : s.MemOk) : (s.rejectHeld c).1.MemOk := by
  unfold State.rejectHeld
  refine State.modCluster_memOk (memOk_foldl (fun s r ok => State.keepReply_memOk ok) _ ?_)
  exact memOk_foldl (fun s h ok => State.modHart_memOk ok) _ ok

theorem State.ask_ends {s : State} {h op} (ok : s.MemOk) : Ends (s.ask h op) (·.1.MemOk) := by
  unfold State.ask
  grind [Ends, Exc.MemOk, !State.homeApply_memOk, !State.remote_ends]

/-! ### Messages and mailboxes -/

theorem State.setMailbox_memOk {s : State} {k m} (ok : s.MemOk) : (s.setMailbox k m).MemOk := ok

theorem State.sent_memOk {s : State} {core who v} (ok : s.MemOk) : (s.sent core who v).MemOk := by
  unfold State.sent
  grind [State.answer_memOk, State.keepReply_memOk]

theorem grantSlots_memOk {s : State} {k n} (ok : s.MemOk) : (grantSlots k n s).MemOk := by
  fun_induction grantSlots k n s <;> grind [State.setMailbox_memOk, State.sent_memOk]

theorem State.sendError_memOk {s : State} {m} (ok : s.MemOk) : (s.sendError m).MemOk := by
  unfold State.sendError
  grind [State.setMailbox_memOk]

theorem sendErrors_memOk {s : State} {l} (ok : s.MemOk) : (sendErrors l s).MemOk := by
  fun_induction sendErrors l s <;> grind [State.sendError_memOk]

theorem State.deliver_memOk {s : State} {core mbox nb h m} (ok : s.MemOk) : (s.deliver core mbox nb h m).1.MemOk := by
  unfold State.deliver
  grind [State.setMailbox_memOk, State.sendError_memOk]

theorem sealBox_memOk {s : State} {k} (ok : s.MemOk) : (sealBox s k).MemOk := by
  unfold sealBox
  exact sendErrors_memOk (memOk_foldl (fun s e ok => State.sent_memOk ok) _ (State.setMailbox_memOk ok))

theorem State.sealCore_memOk {s : State} {core} (ok : s.MemOk) : (s.sealCore core).MemOk := by
  unfold State.sealCore
  refine memOk_foldl ?_ _ ?_
  · grind [sealBox_memOk]
  · grind [State.modCluster_memOk]

theorem State.operand64_ends {s : State} {acc a vault} (ok : s.MemOk) :
    Ends (s.operand64 acc a vault) fun r => Ends r (·.1.MemOk) := by
  have resolved := resolve_ends (v := s.view acc) (acc := acc) (va := a) (len := 64) (align := 64) ok
  unfold State.operand64
  grind [Ends, Exc.MemOk]

theorem State.read64_ends {s : State} {va ls} (ok : s.MemOk) : Ends (s.read64 va ls) (·.1.MemOk) := by
  unfold State.read64
  simp only [bind, Except.bind, pure, Except.pure]
  grind [Ends, State.useFresh_memOk, !State.detect_ends]

theorem State.msndReply_ends (s : State) : ∀ e, s.msndReply = some (.error e) → e.MemOk := by
  unfold State.msndReply
  grind [Exc.MemOk]

@[simp] theorem execMsnd_keeps {s : State} {rd rs1 rs2} (ok : s.MemOk) : Keeps (execMsnd rd rs1 rs2 s) := by
  unfold execMsnd
  refine runClosing_keeps (fun s ok => ?_) ok
  have replied := s.msndReply_ends
  split
  · exact replied _ ‹_›
  · exact State.setX_memOk ok
  · extract_lets a w
    split
    · trivial
    · refine (State.operand64_ends ok).bind fun r resolved => ?_
      split
      · trivial
      · refine resolved.bind fun (s, ls) ok => ?_
        dsimp only
        split
        · trivial
        · refine (State.read64_ends ok).bind fun (s, data) ok => ?_
          dsimp only
          split
          · simp only [pure, Except.pure]
            grind [Ends, Exc.MemOk, State.deliver_memOk, State.setX_memOk]
          · exact (State.remote_ends ok).bind fun _ ok => State.setX_memOk ok

@[simp] theorem execMrcv_keeps {s : State} {rd rs1 rs2} (ok : s.MemOk) : Keeps (execMrcv rd rs1 rs2 s) := by
  unfold execMrcv
  refine runClosing_keeps (fun s ok => ?_) ok
  refine (State.operand64_ends ok).bind fun r resolved => resolved.bind fun (s, ls) ok => ?_
  dsimp only
  split
  · exact State.setX_memOk (performUnits_memOk (grantSlots_memOk (State.setMailbox_memOk ok)))
  · exact State.setMailbox_memOk ok

@[simp] theorem execMpoll_keeps {s : State} {rd rs1} (ok : s.MemOk) : Keeps (execMpoll rd rs1 s) := by
  unfold execMpoll
  refine runOpen_keeps (fun s ok => ?_) ok
  grind [Ends, State.setX_memOk]

@[simp] theorem execMessageArrive_keeps {s : State} {core mbox nb d} (ok : s.MemOk) :
    Keeps (execMessageArrive core mbox nb d s) := by
  unfold execMessageArrive
  grind [Keeps, State.keepReply_memOk, !State.deliver_memOk]

/-! ### Gates -/

theorem State.setGate_memOk {s : State} {g x} (ok : s.MemOk) : (s.setGate g x).MemOk := ok

theorem State.answerGate_memOk {s : State} {r y} (ok : s.MemOk) : (s.answerGate r y).MemOk := by
  unfold State.answerGate
  grind [State.answer_memOk, State.MemOk]

theorem answerGates_memOk {s : State} {y l} (ok : s.MemOk) : (answerGates y l s).MemOk := by
  fun_induction answerGates y l s <;> grind [State.answerGate_memOk]

theorem State.wakeGate_memOk {s : State} {n} (ok : s.MemOk) : (s.wakeGate n).MemOk := by
  unfold State.wakeGate
  grind [State.setGate_memOk, answerGates_memOk]

theorem State.gateEffect_memOk {s : State} {n g r} (ok : s.MemOk) : (s.gateEffect n g r).1.MemOk := by
  unfold State.gateEffect
  split
  case h_6 =>
    split
    · exact memOk_foldl (fun s q ok => State.answerGate_memOk ok) _ (State.setGate_memOk ok)
    · exact ok
  all_goals grind [State.setGate_memOk, State.wakeGate_memOk]

theorem State.gateApply_memOk {s : State} {r} (ok : s.MemOk) : (s.gateApply r).1.MemOk := by
  unfold State.gateApply
  grind [State.setGate_memOk, !State.gateEffect_memOk]

theorem reapply_memOk {s : State} {l} (ok : s.MemOk) : (reapply l s).MemOk := by
  fun_induction reapply l s <;> grind [State.answerGate_memOk, !State.gateApply_memOk]

@[simp] theorem execGateTokenAccrue_keeps {s : State} {n i} (ok : s.MemOk) : Keeps (execGateTokenAccrue n i s) := by
  unfold execGateTokenAccrue
  grind [Keeps, State.setGate_memOk, reapply_memOk]

theorem State.applyGateRequest_memOk {s : State} {r} (ok : s.MemOk) : (s.applyGateRequest r).MemOk := by
  unfold State.applyGateRequest
  grind [State.answerGate_memOk, !State.gateApply_memOk]

@[simp] theorem execGateRequestArrive_keeps {s : State} {r} (ok : s.MemOk) : Keeps (execGateRequestArrive r s) := by
  unfold execGateRequestArrive
  grind [Keeps, State.applyGateRequest_memOk]

theorem State.leavePlaces_memOk {s : State} {op task} (ok : s.MemOk) : (s.leavePlaces op task).MemOk := by
  cases op
  case gwait t => exact State.dropPlaces_memOk ok
  case gtake => exact State.dropPlaces_memOk ok
  all_goals exact ok

theorem State.gateWord_ends {s : State} {h op} (ok : s.MemOk) : Ends (s.gateWord h op) (·.1.MemOk) := by
  unfold State.gateWord
  grind [Ends, Exc.MemOk, !State.remote_ends, !State.gateApply_memOk, State.leavePlaces_memOk]

@[simp] theorem execGsig_keeps {s : State} {rd rs1 rs2} (ok : s.MemOk) : Keeps (execGsig rd rs1 rs2 s) := by
  unfold execGsig
  refine runClosing_keeps (fun s ok => ?_) ok
  simp only [bind, Except.bind, pure, Except.pure]
  grind [Ends, State.setX_memOk, !State.gateWord_ends]

@[simp] theorem execGwait_keeps {s : State} {rd rs1 rs2} (ok : s.MemOk) : Keeps (execGwait rd rs1 rs2 s) := by
  unfold execGwait
  refine runClosing_keeps (fun s ok => ?_) ok
  simp only [bind, Except.bind, pure, Except.pure]
  grind [Ends, State.setX_memOk, !State.gateWord_ends]

@[simp] theorem execGpay_keeps {s : State} {rd rs1 rs2} (ok : s.MemOk) : Keeps (execGpay rd rs1 rs2 s) := by
  unfold execGpay
  refine runClosing_keeps (fun s ok => ?_) ok
  simp only [bind, Except.bind, pure, Except.pure]
  grind [Ends, State.setX_memOk, !State.load_ends, !State.gateWord_ends]

@[simp] theorem execGtake_keeps {s : State} {rd rs1 rs2} (ok : s.MemOk) : Keeps (execGtake rd rs1 rs2 s) := by
  unfold execGtake
  refine runClosing_keeps (fun s ok => ?_) ok
  refine (State.operand64_ends ok).bind fun r resolved => resolved.bind fun (s, ls) ok => ?_
  exact (State.gateWord_ends ok).bind fun _ ok => State.setX_memOk (performUnits_memOk ok)

@[simp] theorem execGopen_keeps {s : State} {rs1} (ok : s.MemOk) : Keeps (execGopen rs1 s) := by
  unfold execGopen
  simp only [bind, Except.bind, pure, Except.pure]
  grind [Keeps, Ends, Exc.MemOk, State.finishExc_memOk, !runClosing_keeps, !State.gateWord_ends]

@[simp] theorem execGclose_keeps {s : State} {rs1} (ok : s.MemOk) : Keeps (execGclose rs1 s) := by
  unfold execGclose
  simp only [bind, Except.bind, pure, Except.pure]
  grind [Keeps, Ends, Exc.MemOk, State.finishExc_memOk, !runClosing_keeps, !State.gateWord_ends]

theorem State.freezeGates_memOk {s : State} {p} (ok : s.MemOk) : (s.freezeGates p).MemOk := ok

theorem State.resumeGate_memOk {s : State} {n} (ok : s.MemOk) : (s.resumeGate n).MemOk := by
  unfold State.resumeGate
  grind [State.setGate_memOk, State.wakeGate_memOk, reapply_memOk]

theorem resumeGates_memOk {s : State} {l} (ok : s.MemOk) : (resumeGates l s).MemOk := by
  fun_induction resumeGates l s <;> grind [State.resumeGate_memOk]

theorem State.freeGate_memOk {s : State} {n} (ok : s.MemOk) : (s.freeGate n).MemOk := by
  unfold State.freeGate
  split
  · exact ok
  · exact memOk_foldl (fun s q ok => State.answerGate_memOk ok) _ ok

theorem freeGates_memOk {s : State} {l} (ok : s.MemOk) : (freeGates l s).MemOk := by
  fun_induction freeGates l s <;> grind [State.freeGate_memOk]

theorem State.forgetPart_memOk {s : State} {p} (ok : s.MemOk) : (s.forgetPart p).MemOk := ok

theorem State.moveGate_memOk {s : State} {n new} (ok : s.MemOk) : (s.moveGate n new).MemOk := by
  unfold State.moveGate
  grind [State.setGate_memOk, answerGates_memOk]

end Sys2Proof.Machine
end

section
/-! PROOFS. The task engine, the supervisor's services, the front end and the host's port keep memory in its canonical
form, and so does the choice of what moves next. -/

namespace Sys2Proof.Machine

-- One proof after the other: hundreds of proofs elaborated at once ask for more threads than the check allows.
set_option Elab.async false

/-! ### The task engine -/

theorem State.spillOne_memOk {s t : State} {c} (ok : s.MemOk) (run : s.spillOne c = some t) : t.MemOk := by
  unfold State.spillOne at run
  grind [State.modLaunch_memOk, State.writeSpill_memOk, State.freeFut_memOk]

theorem State.takeSlot_memOk {s t : State} {c f r} (ok : s.MemOk) (run : s.takeSlot c f = some (t, r)) : t.MemOk := by
  unfold State.takeSlot at run
  grind [State.tick_memOk, State.useFresh_memOk, State.MemOk]

theorem State.allocFuture_memOk {s t : State} {c f r} (ok : s.MemOk) (run : s.allocFuture c f = some (t, r)) :
    t.MemOk := by
  unfold State.allocFuture at run
  split at run
  · cases run
    exact State.takeSlot_memOk ok ‹_›
  · obtain ⟨u, spilt, taken⟩ := Option.bind_eq_some_iff.mp run
    exact State.takeSlot_memOk (State.spillOne_memOk ok spilt) taken

@[simp] theorem execReadyFiguresExchange_keeps {s : State} (ok : s.MemOk) : Keeps (execReadyFiguresExchange s) := by
  unfold execReadyFiguresExchange
  grind [Keeps, State.MemOk]

theorem State.startPrep_memOk {s : State} {h} (ok : s.MemOk) : (s.startPrep h).MemOk := by
  unfold State.startPrep
  grind [State.setTask_memOk, State.tick_memOk, State.post_memOk, State.retryPrefetches_memOk]

theorem State.intake_memOk {s : State} {h} (ok : s.MemOk) : (s.intake h).MemOk := by
  unfold State.intake
  split
  · exact ok
  · refine memOk_ite ok (memOk_ite (State.startPrep_memOk ok) ?_)
    exact State.setTask_memOk (State.modCluster_memOk (State.pokeVia_getD_memOk (State.tick_memOk ok)))

@[simp] theorem execTaskIntake_keeps {s : State} {h} (ok : s.MemOk) : Keeps (execTaskIntake h s) := by
  unfold execTaskIntake
  grind [Keeps, State.intake_memOk]

@[simp] theorem execTaskRingRefill_keeps {s : State} {c} (ok : s.MemOk) : Keeps (execTaskRingRefill c s) := by
  unfold execTaskRingRefill
  grind [Keeps, State.modCluster_memOk, State.post_memOk, State.startPrep_memOk]

theorem State.declaredPage_memOk {s t : State} {v r w va res} (ok : s.MemOk)
    (run : s.declaredPage v r w va = .ok (t, res)) : t.MemOk := by
  unfold State.declaredPage at run
  grind [Ends, !translatePage_ends]

theorem declaredRange_memOk {s t : State} {v r w most n a n2 l res} (ok : s.MemOk)
    (run : declaredRange v r w most n s a n2 l = .ok (t, res)) : t.MemOk := by
  fun_induction declaredRange v r w most n s a n2 l <;> grind [→ State.declaredPage_memOk]

theorem declaredAll_memOk {s t : State} {v l l2 r} (ok : s.MemOk) (run : declaredAll v l s l2 = .ok (t, r)) :
    t.MemOk := by
  fun_induction declaredAll v l s l2 <;> grind [→ declaredRange_memOk]

theorem State.prepareRuns_memOk {s u : State} {h t r} (ok : s.MemOk) (run : s.prepareRuns h t = .ok (u, r)) :
    u.MemOk := by
  unfold State.prepareRuns at run
  grind [→ declaredRange_memOk, → declaredAll_memOk]

theorem State.prepFails_memOk {s : State} {h c f} (ok : s.MemOk) : (s.prepFails h c f).MemOk := by
  unfold State.prepFails
  grind [!State.report_memOk, State.endTask_memOk]

theorem State.prepared_memOk {s : State} {h} (ok : s.MemOk) : (s.prepared h).MemOk := by
  unfold State.prepared
  grind [State.modTask_memOk, State.post_memOk, State.makeReady_memOk, → State.prepareRuns_memOk,
    State.prepFails_memOk]

@[simp] theorem execTaskPrepared_keeps {s : State} {h} (ok : s.MemOk) : Keeps (execTaskPrepared h s) := by
  unfold execTaskPrepared
  grind [Keeps, State.prepared_memOk]

theorem State.setPrefetch_memOk {s : State} {h i p} (ok : s.MemOk) : (s.setPrefetch h i p).MemOk := by
  unfold State.setPrefetch
  grind [State.modTask_memOk, State.post_memOk]

theorem State.armPrefetch_memOk {s : State} {h i} (ok : s.MemOk) : (s.armPrefetch h i).MemOk := by
  unfold State.armPrefetch
  grind [State.modTask_memOk, State.modStage_memOk, State.armStage_memOk, → State.allocSlot_memOk,
    State.setPrefetch_memOk]

@[simp] theorem execPrefetchArm_keeps {s : State} {h i} (ok : s.MemOk) : Keeps (execPrefetchArm h i s) := by
  unfold execPrefetchArm
  grind [Keeps, State.armPrefetch_memOk]

@[simp] theorem execPrefetchStop_keeps {s : State} {h} (ok : s.MemOk) : Keeps (execPrefetchStop h s) := by
  unfold execPrefetchStop
  grind [Keeps, State.dropTask_memOk, State.post_memOk, stopPrefetches_memOk]

@[simp] theorem execAgePromotion_keeps {s : State} {h} (ok : s.MemOk) : Keeps (execAgePromotion h s) := by
  unfold execAgePromotion
  grind [Keeps, State.setTask_memOk]

theorem giveTiles_memOk {s : State} {p task l} (ok : s.MemOk) : (giveTiles s p task l).MemOk := by
  fun_induction giveTiles s p task l <;> grind [State.setTile_memOk]

theorem moveTiles_memOk {s : State} {p q l} (ok : s.MemOk) : (moveTiles s p q l).MemOk := by
  fun_induction moveTiles s p q l <;> grind [State.setTile_memOk, State.freeTile_memOk]

theorem State.rebindTiles_memOk {s : State} {h task t p} (ok : s.MemOk) : (s.rebindTiles h task t p).MemOk := by
  unfold State.rebindTiles
  grind [State.modCluster_memOk, State.modTask_memOk, moveTiles_memOk]

theorem State.bindTiles_memOk {s : State} {h task t} (ok : s.MemOk) : (s.bindTiles h task t).MemOk := by
  unfold State.bindTiles
  grind [State.modCluster_memOk, State.modTask_memOk, giveTiles_memOk, State.rebindTiles_memOk]

theorem State.markPassed_memOk {s : State} {c} (ok : s.MemOk) : (s.markPassed c).MemOk := ok

theorem State.place_memOk {s : State} {h task} (ok : s.MemOk) : (s.place h task).MemOk := by
  unfold State.place
  grind [State.modHart_memOk, State.modTask_memOk, State.useBy_memOk, State.setFut_memOk, State.bindTiles_memOk]

@[simp] theorem execTaskDispatch_keeps {s : State} {h} (ok : s.MemOk) : Keeps (execTaskDispatch h s) := by
  unfold execTaskDispatch
  grind [Keeps, State.markPassed_memOk, State.place_memOk]

theorem State.reservePair_memOk {s : State} {h} (ok : s.MemOk) : (s.reservePair h).MemOk := by
  unfold State.reservePair
  grind [State.setCluster_memOk]

@[simp] theorem execTileReservation_keeps {s : State} {h} (ok : s.MemOk) : Keeps (execTileReservation h s) := by
  unfold execTileReservation
  grind [Keeps, State.reservePair_memOk]

theorem State.wake_memOk {s : State} {h o} (ok : s.MemOk) : (s.wake h o).MemOk := by
  unfold State.wake
  grind [State.setTask_memOk, State.leaveWaits_memOk, State.makeReady_memOk]

@[simp] theorem execTaskWake_keeps {s : State} {h o} (ok : s.MemOk) : Keeps (execTaskWake h o s) := by
  unfold execTaskWake
  grind [Keeps, State.wake_memOk]

@[simp] theorem execHomeChipLostTimeout_keeps {s : State} {chip} (ok : s.MemOk) :
    Keeps (execHomeChipLostTimeout chip s) := by
  unfold execHomeChipLostTimeout
  exact memOk_foldl (by grind [State.modTask_memOk, State.leaveWaits_memOk, State.makeReady_memOk]) _ ok

@[simp] theorem execTaskEndArrive_keeps {s : State} {h how} (ok : s.MemOk) : Keeps (execTaskEndArrive h how s) := by
  unfold execTaskEndArrive
  grind [Keeps, State.endArrives_memOk]

/-! ### Environment calls and the firmware's services -/

theorem State.fwStep_keeps {s : State} {f : State → State} {n} (h : (f s).MemOk) (ok : s.MemOk) :
    Keeps (s.fwStep n f) := by
  unfold State.fwStep
  split
  · exact State.complete_memOk h
  · exact ok

theorem State.placeRecord_memOk {s t : State} {c was bs} (ok : s.MemOk) (run : s.placeRecord c was bs = some t) :
    t.MemOk := by
  unfold State.placeRecord at run
  grind [State.modCluster_memOk, State.writeSpill_memOk]

theorem placeRecords_memOk {s t : State} {c l} (ok : s.MemOk) (run : placeRecords c l s = some t) : t.MemOk := by
  induction l generalizing s with
  | nil =>
    cases run
    exact ok
  | cons e r ih =>
    obtain ⟨u, placed, rest⟩ := Option.bind_eq_some_iff.mp run
    exact ih (State.placeRecord_memOk ok placed) rest

theorem clearArea_memOk {s : State} {v n2 a} (ok : s.MemOk) : (clearArea v n2 a s).MemOk := by
  induction n2 generalizing a s with
  | zero => exact ok
  | succ n ih => exact ih (State.pokeVia_getD_memOk ok)

theorem writeRing_memOk {s : State} {v l a} (ok : s.MemOk) : (writeRing v l a s).MemOk := by
  induction l generalizing a s with
  | nil => exact ok
  | cons t r ih => exact ih (State.pokeVia_getD_memOk ok)

theorem State.setAreas_memOk {s : State} {c sb ss rb rs} (ok : s.MemOk) : (s.setAreas c sb ss rb rs).1.MemOk := by
  unfold State.setAreas
  grind [State.modCluster_memOk, → placeRecords_memOk, clearArea_memOk, writeRing_memOk]

theorem State.fwSetAreas_memOk {s : State} (ok : s.MemOk) : s.fwSetAreas.MemOk := by
  unfold State.fwSetAreas
  grind [State.setX_memOk, !State.setAreas_memOk]

theorem State.fwRetryHeld_memOk {s : State} (ok : s.MemOk) : s.fwRetryHeld.MemOk := by
  unfold State.fwRetryHeld
  grind [State.setX_memOk, !State.retryHeld_memOk]

theorem State.fwRejectHeld_memOk {s : State} (ok : s.MemOk) : s.fwRejectHeld.MemOk := by
  unfold State.fwRejectHeld
  grind [State.setX_memOk, !State.rejectHeld_memOk]

theorem State.fwReadReports_memOk {s : State} (ok : s.MemOk) : s.fwReadReports.MemOk := by
  unfold State.fwReadReports
  grind [Ends, State.modCluster_memOk, State.setX_memOk, !resolve_ends, performUnits_memOk]

theorem State.fwEndHeld_memOk {s : State} (ok : s.MemOk) : s.fwEndHeld.MemOk := by
  unfold State.fwEndHeld
  grind [State.setX_memOk, !State.report_memOk, State.endTask_memOk]

theorem State.requeueLost_memOk {s : State} {c h} (ok : s.MemOk) : (s.requeueLost c h).1.MemOk := by
  unfold State.requeueLost
  grind [State.modTask_memOk, State.correct_memOk, State.endTask_memOk, State.makeReady_memOk]

theorem requeueAll_memOk {c l p} (ok : p.1.MemOk) : (requeueAll c l p).1.MemOk := by
  induction l generalizing p with
  | nil => exact ok
  | cons h t ih => exact ih (State.requeueLost_memOk ok)

theorem State.fwRequeueLost_memOk {s : State} (ok : s.MemOk) : s.fwRequeueLost.MemOk := by
  unfold State.fwRequeueLost
  grind [State.modCluster_memOk, State.setX_memOk, !requeueAll_memOk]

theorem State.fwFaultLost_memOk {s : State} (ok : s.MemOk) : s.fwFaultLost.MemOk := by
  unfold State.fwFaultLost
  refine memOk_foldl ?_ _ ?_
  · grind [State.endTask_memOk]
  · grind [State.modCluster_memOk]

theorem State.fwUnknown_memOk {s : State} (ok : s.MemOk) : s.fwUnknown.MemOk := ok

theorem State.fwCall_memOk {s : State} {n} (ok : s.MemOk) : (s.fwCall n).MemOk := by
  unfold State.fwCall
  grind [State.fwSetAreas_memOk, State.fwRetryHeld_memOk, State.fwRejectHeld_memOk, State.fwReadReports_memOk,
    State.fwEndHeld_memOk, State.fwRequeueLost_memOk, State.fwFaultLost_memOk, State.fwUnknown_memOk]

@[simp] theorem execEcall_keeps {s : State} (ok : s.MemOk) : Keeps (execEcall s) := by
  unfold execEcall
  refine runOpen_keeps (fun s ok => ?_) ok
  grind [Ends, Exc.MemOk, State.fwCall_memOk]

@[simp] theorem execFwSetAreas_keeps {s : State} (ok : s.MemOk) : Keeps (execFwSetAreas s) := by
  unfold execFwSetAreas
  grind [!State.fwStep_keeps, State.fwSetAreas_memOk]

@[simp] theorem execFwRetryHeld_keeps {s : State} (ok : s.MemOk) : Keeps (execFwRetryHeld s) := by
  unfold execFwRetryHeld
  grind [!State.fwStep_keeps, State.fwRetryHeld_memOk]

@[simp] theorem execFwRejectHeld_keeps {s : State} (ok : s.MemOk) : Keeps (execFwRejectHeld s) := by
  unfold execFwRejectHeld
  grind [!State.fwStep_keeps, State.fwRejectHeld_memOk]

@[simp] theorem execFwReadReports_keeps {s : State} (ok : s.MemOk) : Keeps (execFwReadReports s) := by
  unfold execFwReadReports
  grind [!State.fwStep_keeps, State.fwReadReports_memOk]

@[simp] theorem execFwEndHeldTask_keeps {s : State} (ok : s.MemOk) : Keeps (execFwEndHeldTask s) := by
  unfold execFwEndHeldTask
  grind [!State.fwStep_keeps, State.fwEndHeld_memOk]

@[simp] theorem execFwRequeueLost_keeps {s : State} (ok : s.MemOk) : Keeps (execFwRequeueLost s) := by
  unfold execFwRequeueLost
  grind [!State.fwStep_keeps, State.fwRequeueLost_memOk]

@[simp] theorem execFwFaultLost_keeps {s : State} (ok : s.MemOk) : Keeps (execFwFaultLost s) := by
  unfold execFwFaultLost
  grind [!State.fwStep_keeps, State.fwFaultLost_memOk]

@[simp] theorem execFwUnknownCall_keeps {s : State} (ok : s.MemOk) : Keeps (execFwUnknownCall s) := by
  unfold execFwUnknownCall
  grind [Keeps, State.complete_memOk, State.fwUnknown_memOk]

@[simp] theorem execStoreDrainDone_keeps {s : State} {h} (ok : s.MemOk) : Keeps (execStoreDrainDone h s) := by
  unfold execStoreDrainDone
  grind [Keeps, State.drainTask_memOk, State.checkpoint_memOk]

theorem State.zeroWhere_memOk {s : State} {p} (ok : s.MemOk) : (s.zeroWhere p).MemOk := s.zeroWhere_wf p ok

theorem State.scrubUnits_memOk {s : State} {c u} (ok : s.MemOk) : (s.scrubUnits c u).MemOk := by
  unfold State.scrubUnits
  grind [State.zeroWhere_memOk, State.MemOk]

@[simp] theorem execSupervisorScrubDone_keeps {s : State} {c} (ok : s.MemOk) :
    Keeps (execSupervisorScrubDone c s) := by
  unfold execSupervisorScrubDone
  grind [Keeps, State.modCluster_memOk, State.scrubUnits_memOk]

/-! ### Posting reports to the host -/

theorem State.setRing_memOk {s : State} {r x} (ok : s.MemOk) : (s.setRing r x).MemOk := ok

theorem State.fillAts_memOk {s : State} {die fn pasid page} (ok : s.MemOk) : (s.fillAts die fn pasid page).MemOk := by
  unfold State.fillAts
  grind [State.MemOk]

theorem State.hostTranslate_memOk {s : State} {die fn pasid a n} (ok : s.MemOk) :
    (s.hostTranslate die fn pasid a n).MemOk := by
  unfold State.hostTranslate
  exact memOk_foldl (by grind [State.fillAts_memOk]) _ ok

theorem State.hostWrite_memOk {s : State} {fn pasid a bs} (ok : s.MemOk) : (s.hostWrite fn pasid a bs).MemOk := by
  unfold State.hostWrite
  grind [State.setBytes_memOk]

theorem State.newRound_memOk {s : State} (ok : s.MemOk) : s.newRound.MemOk := ok

theorem State.postOne_memOk {s : State} {r} (ok : s.MemOk) : (s.postOne r).MemOk := by
  unfold State.postOne
  grind [State.setRing_memOk, State.hostTranslate_memOk, State.hostWrite_memOk]

@[simp] theorem execReportPost_keeps {s : State} {r} (ok : s.MemOk) : Keeps (execReportPost r s) := by
  unfold execReportPost
  grind [Keeps, State.post_memOk, State.newRound_memOk, State.postOne_memOk]

theorem releaseTasks_memOk {s : State} {r seqs l} (ok : s.MemOk) : (releaseTasks r seqs l s).MemOk := by
  fun_induction releaseTasks r seqs l s <;> grind [State.modTask_memOk, State.makeReady_memOk]

theorem releaseCopies_memOk {s : State} {r seqs c l} (ok : s.MemOk) : (releaseCopies r seqs c l s).MemOk := by
  fun_induction releaseCopies r seqs c l s <;> grind [State.post_memOk, State.setSlot_memOk]

theorem releaseHarts_memOk {s : State} {r seqs} (ok : s.MemOk) : (releaseHarts r seqs s).MemOk := ok

theorem releaseLaunches_memOk {s : State} {r seqs l} (ok : s.MemOk) : (releaseLaunches r seqs l s).MemOk := by
  fun_induction releaseLaunches r seqs l s <;> grind [State.post_memOk, State.modLaunch_memOk]

theorem releaseAll_memOk {s : State} {r seqs} (ok : s.MemOk) : (releaseAll r seqs s).MemOk := by
  unfold releaseAll
  refine releaseLaunches_memOk (releaseHarts_memOk ?_)
  exact memOk_foldl (fun s e ok => releaseCopies_memOk ok) _ (releaseTasks_memOk ok)

theorem State.applyAck_memOk {s : State} {r seq} (ok : s.MemOk) : (s.applyAck r seq).MemOk := by
  unfold State.applyAck
  grind [State.post_memOk, State.setRing_memOk, releaseAll_memOk]

@[simp] theorem execRingAck_keeps {s : State} {r seq} (ok : s.MemOk) : Keeps (execRingAck r seq s) := by
  unfold execRingAck
  grind [Keeps, State.modPart_memOk, State.applyAck_memOk]

theorem State.applyAcks_memOk {s : State} {p} (ok : s.MemOk) : (s.applyAcks p).MemOk := by
  unfold State.applyAcks
  split
  · exact ok
  · exact memOk_foldl (fun s a ok => State.applyAck_memOk ok) _ (State.modPart_memOk ok)

/-! ### Queues and launches -/

theorem State.countDrop_memOk {s : State} {fn} (ok : s.MemOk) : (s.countDrop fn).MemOk := ok

@[simp] theorem execNotifyWrite_keeps {s : State} {fn slot tail} (ok : s.MemOk) :
    Keeps (execNotifyWrite fn slot tail s) := by
  unfold execNotifyWrite
  grind [Keeps, State.post_memOk, State.countDrop_memOk, State.MemOk]

theorem State.bindPrereqs_memOk {s : State} {k l} (ok : s.MemOk) : (s.bindPrereqs k l).MemOk := ok

theorem State.countLevels_memOk {s : State} {part l} (ok : s.MemOk) : (s.countLevels part l).MemOk := by
  unfold State.countLevels
  grind [State.modPart_memOk]

theorem State.acceptEntry_memOk {s : State} {slot} (ok : s.MemOk) : (s.acceptEntry slot).MemOk := by
  unfold State.acceptEntry
  split
  · exact ok
  · split
    · exact ok
    · extract_lets a r s1 n s2 k s3 s4
      have read : s1.MemOk := State.hostTranslate_memOk ok
      split
      · exact State.post_memOk (State.putQueues_memOk read)
      · have counted : s2.MemOk := State.countLevels_memOk (State.tick_memOk read)
        have launched : s3.MemOk := State.putQueues_launches_memOk counted
        exact State.post_memOk (State.post_memOk (State.holdTainted_memOk (State.bindPrereqs_memOk launched)))

@[simp] theorem execLaunchAccept_keeps {s : State} {slot} (ok : s.MemOk) : Keeps (execLaunchAccept slot s) := by
  unfold execLaunchAccept
  grind [Keeps, State.acceptEntry_memOk]

theorem State.readPredicate_memOk {s : State} {l a} (ok : s.MemOk) : (s.readPredicate l a).1.MemOk := by
  unfold State.readPredicate
  grind [Ends, State.useFresh_memOk, !resolve_ends]

theorem State.predicateValue_memOk {s : State} {l a} (ok : s.MemOk) : (s.predicateValue l a).1.MemOk := by
  unfold State.predicateValue
  grind [!State.readPredicate_memOk]

theorem State.samplePredicate_memOk {s : State} {k} (ok : s.MemOk) : (s.samplePredicate k).MemOk := by
  unfold State.samplePredicate
  grind [State.modLaunch_memOk, !State.readPredicate_memOk]

theorem State.samplePredicates_memOk {s : State} (ok : s.MemOk) : s.samplePredicates.MemOk := by
  unfold State.samplePredicates
  exact memOk_foldl (by grind [State.samplePredicate_memOk]) _ ok

/-- By unfolding the recursion itself: the equation of `makeRoots` is too deep for Lean to generate. -/
theorem State.makeRoots_memOk {s t : State} {k r lv n l} (ok : s.MemOk) (run : s.makeRoots k r lv n l = some t) :
    t.MemOk := by
  delta State.makeRoots State.makeRoots._f at run
  induction l generalizing s n with
  | nil =>
    cases run
    exact ok
  | cons m rest ih =>
    dsimp only at run ih
    split at run
    · cases run
    · split at run
      · cases run
      next u h allocated =>
      have kept : u.MemOk := State.allocFuture_memOk ok allocated
      refine ih ?_ run
      exact State.post_memOk (State.setTask_memOk kept)

theorem State.startLaunch_memOk {s : State} {k l} (ok : s.MemOk) : (s.startLaunch k l).MemOk := by
  unfold State.startLaunch
  extract_lets lv ms
  split
  · exact ok
  · refine memOk_foldl (fun s src ok => State.addSource_memOk ok) _ (State.modLaunch_memOk ?_)
    exact State.makeRoots_memOk ok ‹_›

theorem State.tryStart_memOk {s : State} {k} (ok : s.MemOk) : (s.tryStart k).MemOk := by
  unfold State.tryStart
  grind [State.post_memOk, State.modLaunch_memOk, !State.predicateValue_memOk, State.startLaunch_memOk]

@[simp] theorem execLaunchStart_keeps {s : State} {k} (ok : s.MemOk) : Keeps (execLaunchStart k s) := by
  unfold execLaunchStart
  grind [Keeps, State.tryStart_memOk]

theorem State.freeFutures_memOk {s : State} {k} (ok : s.MemOk) : (s.freeFutures k).MemOk := ok

theorem clearSpills_memOk {s : State} {l} (ok : s.MemOk) : (clearSpills l s).MemOk := by
  fun_induction clearSpills l s <;> grind [State.clearSpill_memOk]

theorem State.afterPosting_memOk {s : State} {fn} (ok : s.MemOk) : (s.afterPosting fn).MemOk := by
  unfold State.afterPosting
  refine memOk_foldl (fun s e ok => State.post_memOk ok) _ (memOk_foldl (fun s e ok => State.post_memOk ok) _ ?_)
  exact State.samplePredicates_memOk ok

theorem State.dropForwards_memOk {s : State} {part} (ok : s.MemOk) : (s.dropForwards part).MemOk := by
  unfold State.dropForwards
  grind [State.MemOk]

theorem State.nowPosted_memOk {s : State} {k l status reason written w} (ok : s.MemOk) :
    (s.nowPosted k l status reason written w).MemOk := by
  unfold State.nowPosted
  grind [State.modLaunch_memOk, State.signal_memOk, State.amend_memOk, State.freeFutures_memOk, clearSpills_memOk,
    State.afterPosting_memOk, State.dropForwards_memOk]

theorem State.reportUnwritten_memOk {s : State} {l} (ok : s.MemOk) : (s.reportUnwritten l).MemOk := by
  unfold State.reportUnwritten
  grind [!State.report_memOk]

theorem State.postLaunch_memOk {s : State} {k l status reason} (ok : s.MemOk) :
    (s.postLaunch k l status reason).MemOk := by
  unfold State.postLaunch
  grind [Ends, Exc.MemOk, State.post_memOk, !resolve_ends, State.modLaunch_memOk,
    writeUnits_memOk, !State.report_memOk, State.nowPosted_memOk, State.reportUnwritten_memOk]

theorem State.tryPost_memOk {s : State} {k} (ok : s.MemOk) : (s.tryPost k).MemOk := by
  unfold State.tryPost
  grind [State.postLaunch_memOk]

@[simp] theorem execCompletionPost_keeps {s : State} {k} (ok : s.MemOk) : Keeps (execCompletionPost k s) := by
  unfold execCompletionPost
  grind [Keeps, State.tryPost_memOk]

@[simp] theorem execLaunchStall_keeps {s : State} {fn} (ok : s.MemOk) : Keeps (execLaunchStall fn s) := by
  unfold execLaunchStall
  grind [Keeps, !State.report_memOk]

/-! ### The host's commands -/

theorem State.partReg_memOk {s : State} {p f} (ok : s.MemOk) : (s.partReg p f).MemOk := ok

@[simp] theorem execRegisterWrite_keeps {s : State} {r v} (ok : s.MemOk) : Keeps (execRegisterWrite r v s) := by
  unfold execRegisterWrite
  grind [Keeps, State.setRing_memOk, State.partReg_memOk, State.MemOk]

theorem State.hdone_memOk {s : State} {cmd status result} (ok : s.MemOk) : (s.hdone cmd status result).MemOk := ok

theorem State.withPart_keeps {s : State} {f : Nat → Part → Result} {cmd} (h : ∀ p x, Keeps (f p x)) (ok : s.MemOk) :
    Keeps (s.withPart cmd f) := by
  unfold State.withPart
  grind [Keeps, State.hdone_memOk]

@[simp] theorem execHcmdCreatePartition_keeps {s : State} (ok : s.MemOk) : Keeps (execHcmdCreatePartition s) := by
  unfold execHcmdCreatePartition
  grind [Keeps, State.hdone_memOk, State.MemOk]

theorem State.vacate_memOk {s : State} {q c} (ok : s.MemOk) : (s.vacate q c).MemOk := by
  unfold State.vacate
  grind [State.modPart_memOk, State.MemOk]

theorem State.giveCluster_memOk {s : State} {p c} (ok : s.MemOk) : (s.giveCluster p c).MemOk := by
  unfold State.giveCluster
  grind [State.modCluster_memOk, State.vacate_memOk]

theorem giveClusters_memOk {s : State} {p l} (ok : s.MemOk) : (giveClusters p l s).MemOk := by
  fun_induction giveClusters p l s <;> grind [State.giveCluster_memOk]

@[simp] theorem execHcmdAssignClusters_keeps {s : State} (ok : s.MemOk) : Keeps (execHcmdAssignClusters s) := by
  unfold execHcmdAssignClusters
  grind [Keeps, State.modPart_memOk, State.hdone_memOk, !State.withPart_keeps, giveClusters_memOk]

@[simp] theorem execHcmdAssignVaults_keeps {s : State} (ok : s.MemOk) : Keeps (execHcmdAssignVaults s) := by
  unfold execHcmdAssignVaults
  grind [Keeps, State.modPart_memOk, State.hdone_memOk, !State.withPart_keeps]

theorem State.flushStage2_memOk {s : State} {p hit} (ok : s.MemOk) : (s.flushStage2 p hit).MemOk := ok

theorem State.hwaitFor_memOk {s : State} {cmd again l} (ok : s.MemOk) : (s.hwaitFor cmd again l).MemOk := by
  unfold State.hwaitFor
  grind [State.post_memOk, State.hdone_memOk, State.MemOk]

theorem State.hagain_keeps {s : State} {cmd again start} (h : Keeps start) (ok : s.MemOk) :
    Keeps (s.hagain cmd again start) := by
  unfold State.hagain
  split
  · exact memOk_ite (State.hwaitFor_memOk ok) ok
  · exact h

@[simp] theorem execHcmdSetStage2Root_keeps {s : State} (ok : s.MemOk) : Keeps (execHcmdSetStage2Root s) := by
  unfold execHcmdSetStage2Root
  grind [Keeps, State.modPart_memOk, State.hdone_memOk, !State.withPart_keeps, State.flushStage2_memOk,
    State.hwaitFor_memOk, !State.hagain_keeps]

@[simp] theorem execHcmdInvalidateStage2_keeps {s : State} (ok : s.MemOk) : Keeps (execHcmdInvalidateStage2 s) := by
  unfold execHcmdInvalidateStage2
  grind [Keeps, State.hdone_memOk, !State.withPart_keeps, State.flushStage2_memOk, State.hwaitFor_memOk,
    !State.hagain_keeps]

@[simp] theorem execHcmdLoadKey_keeps {s : State} (ok : s.MemOk) : Keeps (execHcmdLoadKey s) := by
  unfold execHcmdLoadKey
  split
  · exact ok
  · extract_lets k v s1
    have read : s1.MemOk := State.hostTranslate_memOk ok
    split
    · exact State.hdone_memOk ok
    · split
      · exact State.hdone_memOk ok
      · exact State.hdone_memOk (State.putKeys_memOk read)

@[simp] theorem execHcmdZeroiseKey_keeps {s : State} (ok : s.MemOk) : Keeps (execHcmdZeroiseKey s) := by
  unfold execHcmdZeroiseKey
  grind [Keeps, State.hdone_memOk, State.MemOk]

@[simp] theorem execHcmdWritePermissionTable_keeps {s : State} (ok : s.MemOk) :
    Keeps (execHcmdWritePermissionTable s) := by
  unfold execHcmdWritePermissionTable
  grind [Keeps, State.modCluster_memOk, State.hostTranslate_memOk, State.hdone_memOk]

@[simp] theorem execHcmdCreateGate_keeps {s : State} (ok : s.MemOk) : Keeps (execHcmdCreateGate s) := by
  unfold execHcmdCreateGate
  grind [Keeps, State.setGate_memOk, State.hdone_memOk]

@[simp] theorem execHcmdSetAccessEntry_keeps {s : State} (ok : s.MemOk) : Keeps (execHcmdSetAccessEntry s) := by
  unfold execHcmdSetAccessEntry
  grind [Keeps, State.setGate_memOk, State.hdone_memOk]

@[simp] theorem execHcmdFreeGate_keeps {s : State} (ok : s.MemOk) : Keeps (execHcmdFreeGate s) := by
  unfold execHcmdFreeGate
  grind [Keeps, State.freeGate_memOk, State.hdone_memOk]

theorem State.qdone_memOk {s : State} {fn cmd status result} (ok : s.MemOk) :
    (s.qdone fn cmd status result).MemOk := by
  unfold State.qdone
  grind [State.hdone_memOk, State.MemOk]

@[simp] theorem execHcmdCreateQueue_keeps {s : State} {fn} (ok : s.MemOk) : Keeps (execHcmdCreateQueue fn s) := by
  unfold execHcmdCreateQueue
  grind [Keeps, State.tick_memOk, State.qdone_memOk, State.MemOk]

theorem State.dropPrereqs_memOk {s : State} {fn pasid number} (ok : s.MemOk) :
    (s.dropPrereqs fn pasid number).MemOk := ok

@[simp] theorem execHcmdDeleteQueue_keeps {s : State} {fn} (ok : s.MemOk) : Keeps (execHcmdDeleteQueue fn s) := by
  unfold execHcmdDeleteQueue
  grind [Keeps, State.afterPosting_memOk, State.qdone_memOk, State.dropPrereqs_memOk, State.MemOk]

@[simp] theorem execHcmdSetRingWeight_keeps {s : State} (ok : s.MemOk) : Keeps (execHcmdSetRingWeight s) := by
  unfold execHcmdSetRingWeight
  grind [Keeps, State.setRing_memOk, State.hdone_memOk]

@[simp] theorem execHcmdDirtyTrackingOn_keeps {s : State} (ok : s.MemOk) : Keeps (execHcmdDirtyTrackingOn s) := by
  unfold execHcmdDirtyTrackingOn
  grind [Keeps, State.modPart_memOk, State.hdone_memOk, !State.withPart_keeps]

@[simp] theorem execHcmdDirtyTrackingOff_keeps {s : State} (ok : s.MemOk) : Keeps (execHcmdDirtyTrackingOff s) := by
  unfold execHcmdDirtyTrackingOff
  grind [Keeps, State.modPart_memOk, State.hdone_memOk, !State.withPart_keeps]

@[simp] theorem execHcmdDirtyReport_keeps {s : State} (ok : s.MemOk) : Keeps (execHcmdDirtyReport s) := by
  unfold execHcmdDirtyReport
  grind [Keeps, State.modPart_memOk, State.hostTranslate_memOk, State.hostWrite_memOk, State.hdone_memOk,
    !State.withPart_keeps]

@[simp] theorem execHcmdReleaseHeldLaunch_keeps {s : State} (ok : s.MemOk) : Keeps (execHcmdReleaseHeldLaunch s) := by
  unfold execHcmdReleaseHeldLaunch
  grind [Keeps, State.post_memOk, State.modLaunch_memOk, State.hdone_memOk]

@[simp] theorem execHcmdDiscardHeldLaunch_keeps {s : State} (ok : s.MemOk) : Keeps (execHcmdDiscardHeldLaunch s) := by
  unfold execHcmdDiscardHeldLaunch
  grind [Keeps, State.post_memOk, State.modLaunch_memOk, State.hdone_memOk]

@[simp] theorem execHcmdUnknown_keeps {s : State} {code} (ok : s.MemOk) : Keeps (execHcmdUnknown code s) := by
  unfold execHcmdUnknown
  grind [Keeps, State.hdone_memOk]

@[simp] theorem execProfileWind_keeps {s : State} {v} (ok : s.MemOk) : Keeps (execProfileWind v s) := by
  unfold execProfileWind
  grind [Keeps, State.MemOk]

@[simp] theorem execProfilePower_keeps {s : State} {v} (ok : s.MemOk) : Keeps (execProfilePower v s) := by
  unfold execProfilePower
  grind [Keeps, State.MemOk]

@[simp] theorem execForecastUpdate_keeps {s : State} {c v} (ok : s.MemOk) : Keeps (execForecastUpdate c v s) := by
  unfold execForecastUpdate
  grind [Keeps, State.modCluster_memOk]

theorem State.discardTask_memOk {s : State} {h} (ok : s.MemOk) : (s.discardTask h).MemOk := by
  unfold State.discardTask
  grind [State.abortTask_memOk, State.removeTask_memOk, State.withdrawWait_memOk]

theorem discardTasks_memOk {s : State} {l} (ok : s.MemOk) : (discardTasks l s).MemOk := by
  fun_induction discardTasks l s <;> grind [State.discardTask_memOk]

theorem State.discardLaunch_memOk {s : State} {k l} (ok : s.MemOk) : (s.discardLaunch k l).MemOk := by
  unfold State.discardLaunch
  grind [State.modLaunch_memOk, State.freeFutures_memOk, clearSpills_memOk, discardTasks_memOk]

theorem discardLaunches_memOk {s : State} {l} (ok : s.MemOk) : (discardLaunches l s).MemOk := by
  fun_induction discardLaunches l s <;> grind [State.discardLaunch_memOk]

@[simp] theorem execFunctionLevelReset_keeps {s : State} {fn} (ok : s.MemOk) :
    Keeps (execFunctionLevelReset fn s) := by
  unfold execFunctionLevelReset
  grind [Keeps, discardLaunches_memOk, State.MemOk]

@[simp] theorem execAtsInvalidationRequest_keeps {s : State} {fn pasid addr} (ok : s.MemOk) :
    Keeps (execAtsInvalidationRequest fn pasid addr s) := by
  unfold execAtsInvalidationRequest
  grind [Keeps, State.MemOk]

@[simp] theorem execBringupDone_keeps {s : State} {steps} (ok : s.MemOk) : Keeps (execBringupDone steps s) := by
  unfold execBringupDone
  grind [Keeps, State.MemOk]

theorem State.resetDevice_memOk {s : State} (ok : s.MemOk) : s.resetDevice.MemOk := cellsAbove_filter _ s.mem 0 _ ok

@[simp] theorem execDeviceReset_keeps {s : State} (ok : s.MemOk) : Keeps (execDeviceReset s) := by
  unfold execDeviceReset
  grind [Keeps, State.resetDevice_memOk]

@[simp] theorem execMladjaDLoss_keeps {s : State} (ok : s.MemOk) : Keeps (execMladjaDLoss s) := by
  unfold execMladjaDLoss
  grind [Keeps, State.MemOk]

/-! ### Halting at an instruction boundary -/

theorem State.stopHart_memOk {s : State} {h} (ok : s.MemOk) : (s.stopHart h).MemOk := by
  unfold State.stopHart
  grind [State.modHart_memOk, State.abortTask_memOk, State.withdrawWait_memOk]

theorem State.stopIfLast_memOk {s : State} {p} (ok : s.MemOk) : (s.stopIfLast p).MemOk := by
  unfold State.stopIfLast
  grind [State.modPart_memOk, State.post_memOk]

theorem State.drainHart_memOk {s : State} {h} (ok : s.MemOk) : (s.drainHart h).MemOk := by
  unfold State.drainHart
  grind [State.withdrawWait_memOk, State.restartTask_memOk]

theorem State.haltAt_memOk {s t : State} {h} (ok : s.MemOk) (run : s.haltAt h = some t) : t.MemOk := by
  unfold State.haltAt at run
  grind [State.stopHart_memOk, State.stopIfLast_memOk, State.drainHart_memOk]

theorem haltAll_memOk {s : State} {l} (ok : s.MemOk) : (haltAll l s).MemOk := by
  induction l generalizing s with
  | nil => exact ok
  | cons h r ih =>
    refine ih ?_
    cases halted : s.haltAt h with
    | none => exact ok
    | some t => exact State.haltAt_memOk ok halted

/-! ### Fetching, and what moves next -/

@[simp] theorem execInterruptTake_keeps {s : State} {h} (ok : s.MemOk) : Keeps (execInterruptTake h s) := by
  unfold execInterruptTake
  grind [Keeps, State.withdrawWait_memOk, State.takeTrap_memOk]

theorem State.popStack_memOk {s : State} (ok : s.MemOk) : s.popStack.MemOk := by
  unfold State.popStack
  grind [State.modTaskOf_memOk]

theorem State.fetchWord_ends {s : State} (ok : s.MemOk) : Ends s.fetchWord (·.1.MemOk) := by
  unfold State.fetchWord
  grind [Ends, !resolve_ends]

theorem State.slotMove_memOk {s : State} (ok : s.MemOk) : s.slotMove.1.MemOk := by
  unfold State.slotMove
  grind [Ends, State.finishExc_memOk, → State.haltAt_memOk, State.popStack_memOk, !State.fetchWord_ends]

theorem State.takeEvent_memOk {s t : State} {n r} (ok : s.MemOk) (run : s.takeEvent n = some (t, r)) : t.MemOk := by
  unfold State.takeEvent at run
  grind [State.MemOk]

theorem State.nextMove_memOk {s : State} (ok : s.MemOk) : s.nextMove.1.MemOk := by
  unfold State.nextMove
  split
  · exact State.slotMove_memOk ok
  · split
    · split
      next taken => 
        refine State.takeEvent_memOk ?_ taken
        exact ok
      next => exact ok
    · exact State.slotMove_memOk ok
    · split
      next taken => exact State.takeEvent_memOk ok (Option.ite_none_right_eq_some.mp taken).2
      next => exact State.slotMove_memOk ok

theorem State.advance_memOk {s : State} (ok : s.MemOk) : s.advance.MemOk := by
  unfold State.advance
  grind [State.MemOk]

theorem State.clockTick_memOk {s : State} (ok : s.MemOk) : s.clockTick.MemOk := ok

end Sys2Proof.Machine
end

section
/-! PROOFS. The tiles, the row instructions and the tile engine keep memory in its canonical form. -/

namespace Sys2Proof.Machine

-- One proof after the other: hundreds of proofs elaborated at once ask for more threads than the check allows.
set_option Elab.async false

/-! ### Tiles as a task's instructions see them -/

theorem State.setImage_memOk {s : State} {h n img rows ckpt} (ok : s.MemOk) :
    (s.setImage h n img rows ckpt).MemOk := by
  unfold State.setImage
  grind [State.setTask_memOk, State.setTile_memOk]

theorem State.modStatus_memOk {s : State} {h n f} (ok : s.MemOk) : (s.modStatus h n f).MemOk := by
  unfold State.modStatus
  grind [State.setTile_memOk]

theorem State.modLift_memOk {s : State} {f} (ok : s.MemOk) : (s.modLift f).MemOk := by
  unfold State.modLift
  grind [State.modTaskOf_memOk]

theorem State.retagTile_memOk {s : State} {n new} (ok : s.MemOk) : (s.retagTile n new).MemOk := by
  unfold State.retagTile
  grind [State.modStatus_memOk, State.modLift_memOk]

theorem State.spillCheck_ends {s before : State} (ok : s.MemOk) : Ends (s.spillCheck before) State.MemOk := by
  unfold State.spillCheck
  grind [Ends, Exc.MemOk]

theorem State.shadowImages_memOk {s : State} {reg tags granules us} (ok : s.MemOk) :
    (s.shadowImages reg tags granules us).MemOk := by
  unfold State.shadowImages
  refine memOk_ite (memOk_foldl (fun s u ok => ?_) _ ok) ok
  exact memOk_ite ok (State.modTaskOf_memOk ok)

theorem State.shadowTile_ends {s : State} {n} (ok : s.MemOk) : Ends (s.shadowTile n) State.MemOk := by
  unfold State.shadowTile
  grind [Ends, Exc.MemOk, State.modTask_memOk, State.setTile_memOk]

theorem State.shadowTiles_ends {s : State} {l} (ok : s.MemOk) : Ends (s.shadowTiles l) State.MemOk := by
  induction l generalizing s with
  | nil => exact ok
  | cons n r ih =>
    unfold State.shadowTiles
    grind [Ends, !State.shadowTile_ends]

theorem copyShadows_memOk {s : State} {h p l} (ok : s.MemOk) : (copyShadows h p l s).MemOk := by
  fun_induction copyShadows h p l s <;> grind [State.modTask_memOk, State.setTile_memOk]

theorem State.opFaultAt_ends {s : State} {hit} (ok : s.MemOk) : Ends (s.opFaultAt hit) fun _ => True := by
  unfold State.opFaultAt
  grind [Ends, Exc.MemOk, State.modTask_memOk]

theorem State.opFaultOn_ends {s : State} {tiles} (ok : s.MemOk) : Ends (s.opFaultOn tiles) fun _ => True := by
  unfold State.opFaultOn
  grind [!State.opFaultAt_ends]

theorem State.faultFirst_keeps {s : State} {hit : OpFault → Bool} {i run} (h : Keeps run) (ok : s.MemOk) :
    Keeps (s.faultFirst i hit run) := by
  have fault : Ends (s.opFaultAt hit) fun _ => True := State.opFaultAt_ends ok
  unfold State.faultFirst
  split
  · exact h
  · exact State.finishExc_memOk ok (by grind [Ends])

theorem State.tilesBelow_ends {s : State} {tiles} : Ends (s.tilesBelow tiles) fun _ => True := by
  unfold State.tilesBelow
  grind [Ends, Exc.MemOk]

theorem State.liftSet_ends {s : State} {tiles masks} : Ends (s.liftSet tiles masks) fun _ => True := by
  unfold State.liftSet
  grind [Ends, Exc.MemOk]

theorem State.liftNone_ends {s : State} {tiles masks sub} : Ends (s.liftNone tiles masks sub) fun _ => True := by
  unfold State.liftNone
  grind [Ends, Exc.MemOk]

theorem State.prepareTile_ends {s : State} {n T us} (ok : s.MemOk) : Ends (s.prepareTile n T us) State.MemOk := by
  unfold State.prepareTile
  grind [Ends, State.retagTile_memOk, State.shadowImages_memOk, !State.shadowTile_ends]

theorem State.prepareMask_memOk {s : State} {k T us} (ok : s.MemOk) : (s.prepareMask k T us).MemOk := by
  unfold State.prepareMask
  grind [State.modLift_memOk, State.shadowImages_memOk]

/-! ### Row instructions -/

theorem State.setRow_memOk {s : State} {n u r v flags} (ok : s.MemOk) : (s.setRow n u r v flags).MemOk := by
  unfold State.setRow
  grind [State.setImage_memOk, State.modStatus_memOk]

theorem State.orFlagsOf_memOk {s : State} {n flags} (ok : s.MemOk) : (s.orFlagsOf n flags).MemOk := by
  unfold State.orFlagsOf
  grind [State.modStatus_memOk]

theorem State.prepareRow_ends {s : State} {d T us} (ok : s.MemOk) : Ends (s.prepareRow d T us) State.MemOk := by
  cases d with
  | rows n => exact State.prepareTile_ends ok
  | flags n => exact State.shadowTile_ends ok
  | mask k n => exact (State.shadowTile_ends ok).map fun _ ok => State.prepareMask_memOk ok
  | closing => exact ok
  | nothing => exact ok

theorem runRest_ends {s : State} {one : State → Tup → Except Exc State} {l : List Tup}
    (h : ∀ s u, s.MemOk → Ends (one s u) State.MemOk) (ok : s.MemOk) : Ends (runRest one l s) State.MemOk := by
  induction l generalizing s with
  | nil => exact ok
  | cons u r ih =>
    have closed := fun c => State.autoClose_memOk (code := c) ok
    unfold runRest
    grind [Ends, Exc.MemOk, Exc.after_memOk]

theorem runAll_ends {s : State} {one : State → Tup → Except Exc State} {us : List Tup}
    (h : ∀ s u, s.MemOk → Ends (one s u) State.MemOk) (ok : s.MemOk) : Ends (runAll one us s) State.MemOk := by
  cases us with
  | nil => exact ok
  | cons u r =>
    have first := h s u ok
    have rest := fun (t : State) (ok : t.MemOk) => runRest_ends (l := r) h ok
    unfold runAll
    grind [Ends]

theorem State.checkTmem_memOk {s : State} (ok : s.MemOk) : s.checkTmem.MemOk := by
  unfold State.checkTmem
  grind [State.modPair_memOk, State.correct_memOk]

/-- A row word keeps memory canonical if each execution of it does. -/
theorem State.rowWord_ends {s : State} {reads : List TileReg} {one : State → Tup → Except Exc State}
    {d scalar tagsOk} (h : ∀ s u, s.MemOk → Ends (one s u) State.MemOk) (ok : s.MemOk) :
    Ends (s.rowWord reads d scalar tagsOk one) State.MemOk := by
  have executed : ∀ T us, Ends (do
      let t ← s.prepareRow d T us
      let t ← t.spillCheck s
      let t ← runAll one us t
      pure t.checkTmem.useFresh) State.MemOk := fun T us =>
    (State.prepareRow_ends ok).bind fun _ ok' => (State.spillCheck_ends ok').bind fun _ ok =>
      (runAll_ends h ok).bind fun _ ok => State.useFresh_memOk (State.checkTmem_memOk ok)
  unfold State.rowWord
  refine (State.opFaultOn_ends ok).bind fun _ _ => State.tilesBelow_ends.bind fun _ _ => ?_
  refine Ends.check ?_
  cases scalar with
  | true =>
    refine State.liftNone_ends.bind fun _ _ => ?_
    simp only [bind, Except.bind, pure, Except.pure, ↓reduceIte] at executed ⊢
    split
    · trivial
    · exact executed _ _
  | false =>
    refine State.liftSet_ends.bind fun _ _ => ?_
    beta_reduce
    exact Ends.check (executed _ _)

theorem State.rowCodes_ends {s : State} {td srcs r tagsOk f} (ok : s.MemOk) :
    Ends (s.rowCodes td srcs r tagsOk f) State.MemOk := by
  unfold State.rowCodes
  grind [Ends, State.setRow_memOk, !State.rowWord_ends]

theorem State.rowNums_ends {s : State} {td srcs r tagsOk f} (ok : s.MemOk) :
    Ends (s.rowNums td srcs r tagsOk f) State.MemOk := by
  unfold State.rowNums
  grind [!State.rowCodes_ends]

theorem State.rowPick_ends {s : State} {td srcs r tagsOk f} (ok : s.MemOk) :
    Ends (s.rowPick td srcs r tagsOk f) State.MemOk := by
  unfold State.rowPick
  grind [!State.rowCodes_ends]

theorem State.floatTwo_ends {s : State} {td ta tb xr f} (ok : s.MemOk) :
    Ends (s.floatTwo td ta tb xr f) State.MemOk := by
  unfold State.floatTwo
  grind [!State.rowNums_ends]

theorem State.floatPick_ends {s : State} {td ta tb xr max} (ok : s.MemOk) :
    Ends (s.floatPick td ta tb xr max) State.MemOk := by
  unfold State.floatPick
  grind [!State.rowPick_ends]

theorem State.floatOne_ends {s : State} {td ta xr f} (ok : s.MemOk) : Ends (s.floatOne td ta xr f) State.MemOk := by
  unfold State.floatOne
  grind [!State.rowNums_ends]

theorem State.floatTable_ends {s : State} {td ta xr f} (ok : s.MemOk) :
    Ends (s.floatTable td ta xr f) State.MemOk := by
  unfold State.floatTable
  grind [!State.rowCodes_ends]

@[simp] theorem execVadd_keeps {s : State} {td ta tb xr} (ok : s.MemOk) : Keeps (execVadd td ta tb xr s) := by
  unfold execVadd
  refine runOpen_keeps (fun s ok => ?_) ok
  grind [!State.floatTwo_ends]

@[simp] theorem execVsub_keeps {s : State} {td ta tb xr} (ok : s.MemOk) : Keeps (execVsub td ta tb xr s) := by
  unfold execVsub
  refine runOpen_keeps (fun s ok => ?_) ok
  grind [!State.floatTwo_ends]

@[simp] theorem execVmul_keeps {s : State} {td ta tb xr} (ok : s.MemOk) : Keeps (execVmul td ta tb xr s) := by
  unfold execVmul
  refine runOpen_keeps (fun s ok => ?_) ok
  grind [!State.floatTwo_ends]

@[simp] theorem execVdiv_keeps {s : State} {td ta tb xr} (ok : s.MemOk) : Keeps (execVdiv td ta tb xr s) := by
  unfold execVdiv
  refine runOpen_keeps (fun s ok => ?_) ok
  grind [!State.floatTwo_ends]

@[simp] theorem execVfma_keeps {s : State} {td ta tb xr} (ok : s.MemOk) : Keeps (execVfma td ta tb xr s) := by
  unfold execVfma
  refine runOpen_keeps (fun s ok => ?_) ok
  grind [!State.rowNums_ends]

@[simp] theorem execVmin_keeps {s : State} {td ta tb xr} (ok : s.MemOk) : Keeps (execVmin td ta tb xr s) := by
  unfold execVmin
  refine runOpen_keeps (fun s ok => ?_) ok
  grind [!State.floatPick_ends]

@[simp] theorem execVmax_keeps {s : State} {td ta tb xr} (ok : s.MemOk) : Keeps (execVmax td ta tb xr s) := by
  unfold execVmax
  refine runOpen_keeps (fun s ok => ?_) ok
  grind [!State.floatPick_ends]

@[simp] theorem execVsqrt_keeps {s : State} {td ta xr} (ok : s.MemOk) : Keeps (execVsqrt td ta xr s) := by
  unfold execVsqrt
  refine runOpen_keeps (fun s ok => ?_) ok
  grind [!State.floatOne_ends]

@[simp] theorem execVrsq_keeps {s : State} {td ta xr} (ok : s.MemOk) : Keeps (execVrsq td ta xr s) := by
  unfold execVrsq
  refine runOpen_keeps (fun s ok => ?_) ok
  grind [!State.floatOne_ends]

@[simp] theorem execVrcp_keeps {s : State} {td ta xr} (ok : s.MemOk) : Keeps (execVrcp td ta xr s) := by
  unfold execVrcp
  refine runOpen_keeps (fun s ok => ?_) ok
  grind [!State.floatOne_ends]

@[simp] theorem execVexp2_keeps {s : State} {td ta xr} (ok : s.MemOk) : Keeps (execVexp2 td ta xr s) := by
  unfold execVexp2
  refine runOpen_keeps (fun s ok => ?_) ok
  grind [!State.floatTable_ends]

@[simp] theorem execVlog2_keeps {s : State} {td ta xr} (ok : s.MemOk) : Keeps (execVlog2 td ta xr s) := by
  unfold execVlog2
  refine runOpen_keeps (fun s ok => ?_) ok
  grind [!State.floatTable_ends]

@[simp] theorem execVtanh_keeps {s : State} {td ta xr} (ok : s.MemOk) : Keeps (execVtanh td ta xr s) := by
  unfold execVtanh
  refine runOpen_keeps (fun s ok => ?_) ok
  grind [!State.floatTable_ends]

@[simp] theorem execVmov_keeps {s : State} {td ta xr} (ok : s.MemOk) : Keeps (execVmov td ta xr s) := by
  unfold execVmov
  refine runOpen_keeps (fun s ok => ?_) ok
  grind [Ends, State.setRow_memOk, !State.rowWord_ends, !State.rowCodes_ends]

theorem State.signWord_ends {s : State} {td ta xr f} (ok : s.MemOk) : Ends (s.signWord td ta xr f) State.MemOk := by
  unfold State.signWord
  grind [!State.rowCodes_ends]

@[simp] theorem execVneg_keeps {s : State} {td ta xr} (ok : s.MemOk) : Keeps (execVneg td ta xr s) := by
  unfold execVneg
  refine runOpen_keeps (fun s ok => ?_) ok
  grind [!State.signWord_ends]

@[simp] theorem execVabs_keeps {s : State} {td ta xr} (ok : s.MemOk) : Keeps (execVabs td ta xr s) := by
  unfold execVabs
  refine runOpen_keeps (fun s ok => ?_) ok
  grind [!State.signWord_ends]

@[simp] theorem execVperm_keeps {s : State} {td ta tb xr} (ok : s.MemOk) : Keeps (execVperm td ta tb xr s) := by
  unfold execVperm
  refine runOpen_keeps (fun s ok => ?_) ok
  grind [Ends, State.setRow_memOk, !State.rowWord_ends]

@[simp] theorem execVsel_keeps {s : State} {td ta tb xr} (ok : s.MemOk) : Keeps (execVsel td ta tb xr s) := by
  unfold execVsel
  refine runOpen_keeps (fun s ok => ?_) ok
  grind [Ends, State.setRow_memOk, !State.rowWord_ends]

theorem State.compare_ends {s : State} {kd ta tb xr quiet f} (ok : s.MemOk) :
    Ends (s.compare kd ta tb xr quiet f) State.MemOk := by
  unfold State.compare
  grind [Ends, State.modLift_memOk, State.orFlagsOf_memOk, !State.rowWord_ends]

@[simp] theorem execVcmpEq_keeps {s : State} {kd ta tb xr} (ok : s.MemOk) : Keeps (execVcmpEq kd ta tb xr s) := by
  unfold execVcmpEq
  refine runOpen_keeps (fun s ok => ?_) ok
  grind [!State.compare_ends]

@[simp] theorem execVcmpLt_keeps {s : State} {kd ta tb xr} (ok : s.MemOk) : Keeps (execVcmpLt kd ta tb xr s) := by
  unfold execVcmpLt
  refine runOpen_keeps (fun s ok => ?_) ok
  grind [!State.compare_ends]

@[simp] theorem execVcmpLe_keeps {s : State} {kd ta tb xr} (ok : s.MemOk) : Keeps (execVcmpLe kd ta tb xr s) := by
  unfold execVcmpLe
  refine runOpen_keeps (fun s ok => ?_) ok
  grind [!State.compare_ends]

theorem State.intTwo_ends {s : State} {td ta tb xr f} (ok : s.MemOk) : Ends (s.intTwo td ta tb xr f) State.MemOk := by
  unfold State.intTwo
  grind [!State.rowNums_ends]

theorem State.intCodes_ends {s : State} {td ta tb xr op} (ok : s.MemOk) :
    Ends (s.intCodes td ta tb xr op) State.MemOk := by
  unfold State.intCodes
  grind [!State.rowCodes_ends]

@[simp] theorem execViadd_keeps {s : State} {td ta tb xr} (ok : s.MemOk) : Keeps (execViadd td ta tb xr s) := by
  unfold execViadd
  refine runOpen_keeps (fun s ok => ?_) ok
  grind [!State.intTwo_ends]

@[simp] theorem execVisub_keeps {s : State} {td ta tb xr} (ok : s.MemOk) : Keeps (execVisub td ta tb xr s) := by
  unfold execVisub
  refine runOpen_keeps (fun s ok => ?_) ok
  grind [!State.intTwo_ends]

@[simp] theorem execVimul_keeps {s : State} {td ta tb xr} (ok : s.MemOk) : Keeps (execVimul td ta tb xr s) := by
  unfold execVimul
  refine runOpen_keeps (fun s ok => ?_) ok
  grind [!State.intTwo_ends]

@[simp] theorem execVand_keeps {s : State} {td ta tb xr} (ok : s.MemOk) : Keeps (execVand td ta tb xr s) := by
  unfold execVand
  refine runOpen_keeps (fun s ok => ?_) ok
  grind [!State.intCodes_ends]

@[simp] theorem execVor_keeps {s : State} {td ta tb xr} (ok : s.MemOk) : Keeps (execVor td ta tb xr s) := by
  unfold execVor
  refine runOpen_keeps (fun s ok => ?_) ok
  grind [!State.intCodes_ends]

@[simp] theorem execVxor_keeps {s : State} {td ta tb xr} (ok : s.MemOk) : Keeps (execVxor td ta tb xr s) := by
  unfold execVxor
  refine runOpen_keeps (fun s ok => ?_) ok
  grind [!State.intCodes_ends]

@[simp] theorem execVshl_keeps {s : State} {td ta tb xr} (ok : s.MemOk) : Keeps (execVshl td ta tb xr s) := by
  unfold execVshl
  refine runOpen_keeps (fun s ok => ?_) ok
  grind [!State.intCodes_ends]

@[simp] theorem execVsrl_keeps {s : State} {td ta tb xr} (ok : s.MemOk) : Keeps (execVsrl td ta tb xr s) := by
  unfold execVsrl
  refine runOpen_keeps (fun s ok => ?_) ok
  grind [!State.intCodes_ends]

@[simp] theorem execVsra_keeps {s : State} {td ta tb xr} (ok : s.MemOk) : Keeps (execVsra td ta tb xr s) := by
  unfold execVsra
  refine runOpen_keeps (fun s ok => ?_) ok
  grind [!State.intCodes_ends]

@[simp] theorem execVimin_keeps {s : State} {td ta tb xr} (ok : s.MemOk) : Keeps (execVimin td ta tb xr s) := by
  unfold execVimin
  refine runOpen_keeps (fun s ok => ?_) ok
  grind [!State.intCodes_ends]

@[simp] theorem execVimax_keeps {s : State} {td ta tb xr} (ok : s.MemOk) : Keeps (execVimax td ta tb xr s) := by
  unfold execVimax
  refine runOpen_keeps (fun s ok => ?_) ok
  grind [!State.intCodes_ends]

theorem State.scalarWord_ends {s : State} {tds rs xr f} (ok : s.MemOk) :
    Ends (s.scalarWord tds rs xr f) State.MemOk := by
  unfold State.scalarWord
  grind [!State.rowCodes_ends]

theorem State.scalarPick_ends {s : State} {tds rs xr max} (ok : s.MemOk) :
    Ends (s.scalarPick tds rs xr max) State.MemOk := by
  unfold State.scalarPick
  grind [!State.rowCodes_ends]

@[simp] theorem execVadds_keeps {s : State} {tds rs xr} (ok : s.MemOk) : Keeps (execVadds tds rs xr s) := by
  unfold execVadds
  refine runOpen_keeps (fun s ok => ?_) ok
  grind [!State.scalarWord_ends]

@[simp] theorem execVsubs_keeps {s : State} {tds rs xr} (ok : s.MemOk) : Keeps (execVsubs tds rs xr s) := by
  unfold execVsubs
  refine runOpen_keeps (fun s ok => ?_) ok
  grind [!State.scalarWord_ends]

@[simp] theorem execVmuls_keeps {s : State} {tds rs xr} (ok : s.MemOk) : Keeps (execVmuls tds rs xr s) := by
  unfold execVmuls
  refine runOpen_keeps (fun s ok => ?_) ok
  grind [!State.scalarWord_ends]

@[simp] theorem execVmaxs_keeps {s : State} {tds rs xr} (ok : s.MemOk) : Keeps (execVmaxs tds rs xr s) := by
  unfold execVmaxs
  refine runOpen_keeps (fun s ok => ?_) ok
  grind [!State.scalarPick_ends]

@[simp] theorem execVmins_keeps {s : State} {tds rs xr} (ok : s.MemOk) : Keeps (execVmins tds rs xr s) := by
  unfold execVmins
  refine runOpen_keeps (fun s ok => ?_) ok
  grind [!State.scalarPick_ends]

@[simp] theorem execVbcast_keeps {s : State} {tds rs xr} (ok : s.MemOk) : Keeps (execVbcast tds rs xr s) := by
  unfold execVbcast
  refine runOpen_keeps (fun s ok => ?_) ok
  grind [!State.rowCodes_ends]

@[simp] theorem execViota_keeps {s : State} {tds rs xr} (ok : s.MemOk) : Keeps (execViota tds rs xr s) := by
  unfold execViota
  refine runOpen_keeps (fun s ok => ?_) ok
  grind [!State.rowCodes_ends]

@[simp] theorem execVext_keeps {s : State} {rs tds xr} (ok : s.MemOk) : Keeps (execVext rs tds xr s) := by
  unfold execVext
  refine runOpen_keeps (fun s ok => ?_) ok
  grind [Ends, State.setX_memOk, !State.rowWord_ends]

@[simp] theorem execVins_keeps {s : State} {tds rs xr} (ok : s.MemOk) : Keeps (execVins tds rs xr s) := by
  unfold execVins
  refine runOpen_keeps (fun s ok => ?_) ok
  grind [Ends, State.setRow_memOk, !State.rowWord_ends]

theorem State.reduce_ends {s : State} {rs tds xr f} (ok : s.MemOk) : Ends (s.reduce rs tds xr f) State.MemOk := by
  unfold State.reduce
  grind [Ends, State.setX_memOk, State.orFlagsOf_memOk, !State.rowWord_ends]

@[simp] theorem execVrsum_keeps {s : State} {rs tds xr} (ok : s.MemOk) : Keeps (execVrsum rs tds xr s) := by
  unfold execVrsum
  refine runOpen_keeps (fun s ok => ?_) ok
  grind [!State.reduce_ends]

@[simp] theorem execVrmax_keeps {s : State} {rs tds xr} (ok : s.MemOk) : Keeps (execVrmax rs tds xr s) := by
  unfold execVrmax
  refine runOpen_keeps (fun s ok => ?_) ok
  grind [!State.reduce_ends]

@[simp] theorem execVrmin_keeps {s : State} {rs tds xr} (ok : s.MemOk) : Keeps (execVrmin rs tds xr s) := by
  unfold execVrmin
  refine runOpen_keeps (fun s ok => ?_) ok
  grind [!State.reduce_ends]

@[simp] theorem execVcvt_keeps {s : State} {td tds p xr} (ok : s.MemOk) : Keeps (execVcvt td tds p xr s) := by
  unfold execVcvt
  refine runOpen_keeps (fun s ok => ?_) ok
  grind [Ends, State.setRow_memOk, !State.rowWord_ends]

theorem Exc.ofRow_ends {α : Type} {P : α → Prop} {x : Except Exc α} {word} (h : Ends x P) :
    Ends (Exc.ofRow word x) P := by
  unfold Exc.ofRow
  split
  · trivial
  · exact h

@[simp] theorem execVqmx_keeps {s : State} {rs tds scope xr} (ok : s.MemOk) : Keeps (execVqmx rs tds scope xr s) := by
  unfold execVqmx
  refine State.faultFirst_keeps (runClosing_keeps (fun s ok => State.rowWord_ends (fun s u ok => ?_) ok) ok) ok
  refine (Exc.ofRow_ends (State.rmw_ends ok)).bind fun r ok => ?_
  exact State.countClamp_memOk (State.orFlagsOf_memOk (State.setX_memOk (State.modMe_memOk ok)))

theorem State.rowPlace_ends {s : State} {word acc rs1 off u} :
    Ends (s.rowPlace word acc rs1 off u) fun _ => True := by
  unfold State.rowPlace
  grind [Ends, Exc.MemOk]

@[simp] theorem execVld_keeps {s : State} {td rs1 off xr} (ok : s.MemOk) : Keeps (execVld td rs1 off xr s) := by
  unfold execVld
  refine runOpen_keeps (fun s ok => State.rowWord_ends (fun s u ok => ?_) ok) ok
  refine State.rowPlace_ends.bind fun a _ => (Exc.ofRow_ends (State.load_ends ok)).bind fun r ok => ?_
  exact State.setRow_memOk ok

theorem storeParts_ends {s : State} {ls h a l} (ok : s.MemOk) : Ends (storeParts ls h a l s) State.MemOk := by
  fun_induction storeParts ls h a l s <;> grind [Ends, !storeUnit_ends]

@[simp] theorem execVst_keeps {s : State} {td rs1 off xr} (ok : s.MemOk) : Keeps (execVst td rs1 off xr s) := by
  unfold execVst
  refine runOpen_keeps (fun s ok => State.rowWord_ends (fun s u ok => ?_) ok) ok
  refine State.rowPlace_ends.bind fun a _ => (Exc.ofRow_ends (resolve_ends ok)).bind fun r ok => ?_
  dsimp only
  split
  · exact storeUnits_ends ok
  · split
    · exact storeUnits_ends ok
    · exact storeParts_ends ok

@[simp] theorem execVpfx_keeps {s : State} {p} (ok : s.MemOk) : Keeps (execVpfx p s) := by
  unfold execVpfx
  split
  · exact State.finishExc_memOk ok trivial
  · exact State.modMe_memOk ok

/-! ### Words of the tile engine -/

theorem takePins_memOk {s : State} {c l} (ok : s.MemOk) : (takePins s c l).MemOk := by
  fun_induction takePins s c l <;> grind [State.modStage_memOk]

theorem State.enqueue_memOk {s : State} {o} (ok : s.MemOk) : (s.enqueue o).MemOk := by
  unfold State.enqueue
  grind [State.modPair_memOk, State.tick_memOk, State.post_memOk, takePins_memOk]

theorem acceptFrom_ends {s : State} {o l n} (ok : s.MemOk) : Ends (acceptFrom o l n s) State.MemOk := by
  fun_induction acceptFrom o l n s <;> grind [Ends, Exc.MemOk, State.enqueue_memOk]

theorem State.checkLift_ends {s : State} {o} (ok : s.MemOk) : Ends (s.checkLift o) fun _ => True := by
  unfold State.checkLift
  simp only [bind, Except.bind, pure, Except.pure]
  grind [Ends, Exc.MemOk, State.retagTile_memOk, !State.spillCheck_ends, State.shadowImages_memOk,
    !State.liftSet_ends, !State.liftNone_ends]

theorem State.acceptAll_ends {s : State} {o T} (ok : s.MemOk) : Ends (s.acceptAll o T) State.MemOk := by
  unfold State.acceptAll
  simp only [bind, Except.bind, pure, Except.pure]
  grind [Ends, Exc.MemOk, !State.spillCheck_ends, !State.shadowTiles_ends, !State.prepareTile_ends, !acceptFrom_ends]

theorem State.resumeAccept_ends {s : State} {done o} (ok : s.MemOk) : Ends (s.resumeAccept done o) State.MemOk := by
  unfold State.resumeAccept
  simp only [bind, Except.bind, pure, Except.pure]
  grind [Ends, !State.liftSet_ends, !acceptFrom_ends]

theorem State.needCompute_ends {s : State} : Ends s.needCompute fun _ => True := by
  unfold State.needCompute
  grind [Ends, Exc.MemOk]

theorem State.checkMt_ends {s : State} {o} : Ends (s.checkMt o) fun _ => True := by
  unfold State.checkMt
  refine State.tilesBelow_ends.bind fun _ _ => ?_
  refine Ends.check (Ends.check (Ends.check (Ends.check (Ends.check ?_))))
  dsimp only
  iterate 3
    split
    · trivial
  refine Ends.check ?_
  split <;> trivial

theorem State.matrixWord_ends {s : State} {kind i m} (ok : s.MemOk) : Ends (s.matrixWord kind i m) State.MemOk := by
  unfold State.matrixWord
  split
  · exact State.resumeAccept_ends ok
  · refine State.needCompute_ends.bind fun _ _ => (State.opFaultOn_ends ok).bind fun _ _ => ?_
    refine (State.checkLift_ends ok).bind fun _ _ => State.checkMt_ends.bind fun _ _ => ?_
    exact State.acceptAll_ends ok

@[simp] theorem execMma_keeps {s : State} {m} (ok : s.MemOk) : Keeps (execMma m s) := by
  unfold execMma
  refine runOpen_keeps (fun s ok => ?_) ok
  grind [!State.matrixWord_ends]

@[simp] theorem execMms_keeps {s : State} {m} (ok : s.MemOk) : Keeps (execMms m s) := by
  unfold execMms
  refine runOpen_keeps (fun s ok => ?_) ok
  grind [!State.matrixWord_ends]

@[simp] theorem execMmz_keeps {s : State} {m} (ok : s.MemOk) : Keeps (execMmz m s) := by
  unfold execMmz
  refine runOpen_keeps (fun s ok => ?_) ok
  grind [!State.matrixWord_ends]

@[simp] theorem execMmak_keeps {s : State} {m} (ok : s.MemOk) : Keeps (execMmak m s) := by
  unfold execMmak
  refine runOpen_keeps (fun s ok => ?_) ok
  grind [!State.matrixWord_ends]

@[simp] theorem execMmag_keeps {s : State} {m} (ok : s.MemOk) : Keeps (execMmag m s) := by
  unfold execMmag
  refine runOpen_keeps (fun s ok => ?_) ok
  grind [!State.matrixWord_ends]

theorem State.checkPads_ends {s : State} {o write l} : Ends (s.checkPads o write l) fun _ => True := by
  induction l with
  | nil => trivial
  | cons u r ih =>
    unfold State.checkPads
    split
    · trivial
    · exact ih

theorem State.dataWord_ends {s : State} {checks : BitVec 4 → Except Exc Unit} {o}
    (h : ∀ T, Ends (checks T) fun _ => True) (ok : s.MemOk) : Ends (s.dataWord o checks) State.MemOk := by
  unfold State.dataWord
  split
  · exact State.resumeAccept_ends ok
  · refine (State.opFaultOn_ends ok).bind fun _ _ => (State.checkLift_ends ok).bind fun T _ => ?_
    refine State.tilesBelow_ends.bind fun _ _ => (h T).bind fun _ _ => ?_
    exact State.acceptAll_ends ok

@[simp] theorem execMld_keeps {s : State} {md pad rs2} (ok : s.MemOk) : Keeps (execMld md pad rs2 s) := by
  unfold execMld
  refine runOpen_keeps (fun s ok => State.dataWord_ends (fun T => ?_) ok) ok
  refine Ends.check (State.checkPads_ends.bind fun _ _ => ?_)
  split <;> trivial

@[simp] theorem execMst_keeps {s : State} {md pad} (ok : s.MemOk) : Keeps (execMst md pad s) := by
  unfold execMst
  refine runOpen_keeps (fun s ok => State.dataWord_ends (fun T => ?_) ok) ok
  exact Ends.check State.checkPads_ends

@[simp] theorem execMzero_keeps {s : State} {md rs1} (ok : s.MemOk) : Keeps (execMzero md rs1 s) := by
  unfold execMzero
  refine runOpen_keeps (fun s ok => ?_) ok
  grind [Ends, Exc.MemOk, !State.dataWord_ends]

@[simp] theorem execMcopy_keeps {s : State} {md ms} (ok : s.MemOk) : Keeps (execMcopy md ms s) := by
  unfold execMcopy
  refine runOpen_keeps (fun s ok => ?_) ok
  grind [Ends, !State.dataWord_ends]

@[simp] theorem execMtrn_keeps {s : State} {md ms} (ok : s.MemOk) : Keeps (execMtrn md ms s) := by
  unfold execMtrn
  refine runOpen_keeps (fun s ok => ?_) ok
  grind [Ends, Exc.MemOk, !State.dataWord_ends]

@[simp] theorem execMcommit_keeps {s : State} {rd} (ok : s.MemOk) : Keeps (execMcommit rd s) := by
  unfold execMcommit
  refine runOpen_keeps (fun s ok => ?_) ok
  grind [Ends, Exc.MemOk, State.modTask_memOk, State.setX_memOk]

@[simp] theorem execMwait_keeps {s : State} {rs1} (ok : s.MemOk) : Keeps (execMwait rs1 s) := by
  unfold execMwait
  refine runOpen_keeps (fun s ok => ?_) ok
  simp only [bind, Except.bind, pure, Except.pure]
  grind [Ends, Exc.MemOk, !State.opFaultAt_ends]

theorem State.statusCheck_ends {s : State} {mt} (ok : s.MemOk) : Ends (s.statusCheck mt) fun _ => True := by
  unfold State.statusCheck
  simp only [bind, Except.bind, pure, Except.pure]
  grind [Ends, Exc.MemOk, !State.opFaultOn_ends, !State.tilesBelow_ends, !State.liftNone_ends]

@[simp] theorem execMclrf_keeps {s : State} {mt rs2} (ok : s.MemOk) : Keeps (execMclrf mt rs2 s) := by
  unfold execMclrf
  refine runOpen_keeps (fun s ok => ?_) ok
  simp only [bind, Except.bind, pure, Except.pure]
  grind [Ends, State.modStatus_memOk, !State.shadowTile_ends, !State.statusCheck_ends]

@[simp] theorem execMstat_keeps {s : State} {rd mt} (ok : s.MemOk) : Keeps (execMstat rd mt s) := by
  unfold execMstat
  refine runOpen_keeps (fun s ok => ?_) ok
  simp only [bind, Except.bind, pure, Except.pure]
  grind [Ends, State.setX_memOk, !State.statusCheck_ends]

theorem sendViews_memOk {s : State} {ctx id old new l} (ok : s.MemOk) : (sendViews ctx id old new l s).MemOk := by
  fun_induction sendViews ctx id old new l s <;> grind [State.modPair_memOk, State.post_memOk]

@[simp] theorem execFmtw_keeps {s : State} {rs1 rs2} (ok : s.MemOk) : Keeps (execFmtw rs1 rs2 s) := by
  unfold execFmtw
  refine runClosing_keeps (fun s ok => ?_) ok
  simp only []
  grind [Ends, Exc.MemOk, State.MemOk, sendViews_memOk]

@[simp] theorem execFmtwViewApply_keeps {s : State} {p ctx id _entry} (ok : s.MemOk) :
    Keeps (execFmtwViewApply p ctx id _entry s) := by
  unfold execFmtwViewApply
  grind [Keeps, State.modPair_memOk]

@[simp] theorem execFmtr_keeps {s : State} {rd rs1} (ok : s.MemOk) : Keeps (execFmtr rd rs1 s) := by
  unfold execFmtr
  refine runOpen_keeps (fun s ok => ?_) ok
  grind [Ends, Exc.MemOk, State.setX_memOk]

/-! ### The tile engine at work -/

theorem State.setOp_memOk {s : State} {p o} (ok : s.MemOk) : (s.setOp p o).MemOk := ok

theorem State.saveShadow_memOk {s : State} {p o} (ok : s.MemOk) : (s.saveShadow p o).MemOk := by
  unfold State.saveShadow
  grind [State.setTile_memOk, State.setOp_memOk]

theorem State.restoreShadow_memOk {s : State} {p o} (ok : s.MemOk) : (s.restoreShadow p o).MemOk := by
  unfold State.restoreShadow
  grind [State.setImage_memOk, State.modStatus_memOk, State.setOp_memOk]

theorem State.modGang_memOk {s : State} {c id f} (ok : s.MemOk) : (s.modGang c id f).MemOk := ok

theorem State.nextStep_memOk {s : State} {p} (ok : s.MemOk) : (s.nextStep p).MemOk := by
  unfold State.nextStep
  grind [State.post_memOk]

theorem State.startGang_memOk {s : State} {p o} (ok : s.MemOk) : (s.startGang p o).MemOk := by
  unfold State.startGang
  extract_lets c
  split
  · exact ok
  · split
    · exact ok
    · exact memOk_foldl (fun s a ok => State.post_memOk ok) _ (State.modGang_memOk ok)

theorem State.useOp_memOk {s : State} {p o} (ok : s.MemOk) : (s.useOp p o).MemOk := by
  unfold State.useOp
  grind [State.useBy_memOk]

@[simp] theorem execTileOpStart_keeps {s : State} {p} (ok : s.MemOk) : Keeps (execTileOpStart p s) := by
  unfold execTileOpStart
  grind [Keeps, State.post_memOk, State.setOp_memOk, State.saveShadow_memOk, State.nextStep_memOk,
    State.startGang_memOk, State.useOp_memOk]

theorem State.addFault_memOk {s : State} {o aborts cause sub} (ok : s.MemOk) :
    (s.addFault o aborts cause sub).MemOk := by
  unfold State.addFault
  grind [State.modTask_memOk]

theorem mstBeats_memOk {s t : State} {c n off l} (ok : s.MemOk) (run : mstBeats c n off l s = .ok t) : t.MemOk := by
  fun_induction mstBeats c n off l s <;> grind [→ State.arrive_memOk]

/-- A store of the tile engine that faults leaves the beats before it in memory. -/
theorem mstBeats_error_memOk {s t : State} {bs : List (List Byte)} {c n off cause sub} (ok : s.MemOk)
    (e : mstBeats c n off bs s = .error (cause, sub, t)) : t.MemOk := by
  induction bs generalizing s off with
  | nil => cases e
  | cons b r ih =>
    unfold mstBeats at e
    grind [→ State.arrive_memOk]

theorem State.writeDest_memOk {s : State} {o rows flags} (ok : s.MemOk) : (s.writeDest o rows flags).MemOk := by
  unfold State.writeDest
  grind [State.setImage_memOk, State.modStatus_memOk]

theorem State.opStep_memOk {s : State} {p o} (ok : s.MemOk) : (s.opStep p o).1.MemOk := by
  unfold State.opStep
  extract_lets c old
  split
  case h_2 =>
    split
    · exact mstBeats_memOk ok ‹_›
    · exact State.addFault_memOk (mstBeats_error_memOk ok ‹_›)
  all_goals grind [State.writeDest_memOk, State.useFresh_memOk]

theorem State.nextBlock_memOk {s : State} {p o} (ok : s.MemOk) : (s.nextBlock p o).MemOk := by
  unfold State.nextBlock
  grind [State.setOp_memOk, State.saveShadow_memOk]

theorem State.afterStep_memOk {s : State} {p o} (ok : s.MemOk) : (s.afterStep p o).MemOk := by
  unfold State.afterStep
  grind [State.post_memOk, State.setOp_memOk, State.saveShadow_memOk, State.nextBlock_memOk]

theorem State.replayOp_memOk {s : State} {p o} (ok : s.MemOk) : (s.replayOp p o).MemOk := by
  unfold State.replayOp
  grind [State.correct_memOk, State.modStatus_memOk, State.setOp_memOk, State.restoreShadow_memOk]

theorem replayAll_memOk {s : State} {l} (ok : s.MemOk) : (replayAll l s).MemOk := by
  fun_induction replayAll l s <;> grind [State.nextStep_memOk, State.replayOp_memOk]

theorem restoreAll_memOk {s : State} {p l} (ok : s.MemOk) : (restoreAll p l s).MemOk := by
  fun_induction restoreAll p l s <;> grind [State.restoreShadow_memOk]

theorem State.endMwait_memOk {s : State} {h} (ok : s.MemOk) : (s.endMwait h).MemOk := by
  unfold State.endMwait
  grind [State.setHart_memOk]

theorem State.settle_memOk {s : State} {p h} (ok : s.MemOk) : (s.settle p h).MemOk := by
  unfold State.settle
  grind [State.setTask_memOk, State.post_memOk, copyShadows_memOk, State.endMwait_memOk]

theorem State.persistFault_memOk {s : State} {p o} (ok : s.MemOk) : (s.persistFault p o).MemOk := by
  unfold State.persistFault
  grind [removeOps_memOk, State.modStatus_memOk, State.nextStep_memOk, State.addFault_memOk, restoreAll_memOk,
    State.settle_memOk]

theorem State.operandFault_memOk {s : State} {p o} (ok : s.MemOk) : (s.operandFault p o).MemOk := by
  unfold State.operandFault
  grind [replayAll_memOk, State.persistFault_memOk]

@[simp] theorem execOperandFault_keeps {s : State} {p id} (ok : s.MemOk) : Keeps (execOperandFault p id s) := by
  unfold execOperandFault
  grind [Keeps, State.nextStep_memOk, State.operandFault_memOk]

@[simp] theorem execKStepComplete_keeps {s : State} {p id} (ok : s.MemOk) : Keeps (execKStepComplete p id s) := by
  unfold execKStepComplete
  grind [Keeps, State.modPair_memOk, State.post_memOk, State.correct_memOk, State.setOp_memOk, State.nextStep_memOk,
    !State.opStep_memOk, State.afterStep_memOk, State.operandFault_memOk]

theorem State.writeTags_memOk {s : State} {o} (ok : s.MemOk) : (s.writeTags o).MemOk := by
  unfold State.writeTags
  exact memOk_foldl (by grind [State.modStatus_memOk]) _ ok

@[simp] theorem execTileOpComplete_keeps {s : State} {p id} (ok : s.MemOk) : Keeps (execTileOpComplete p id s) := by
  unfold execTileOpComplete
  grind [Keeps, State.removeOp_memOk, State.nextStep_memOk, State.settle_memOk, State.writeTags_memOk]

theorem State.putGang_memOk {s : State} {c old new} (ok : s.MemOk) : (s.putGang c old new).MemOk := ok

theorem discardArrivals_memOk {s : State} {l} (ok : s.MemOk) : (discardArrivals l s).MemOk := by
  fun_induction discardArrivals l s <;> grind [State.removeOp_memOk, State.addFault_memOk, State.settle_memOk]

theorem State.meet_memOk {s : State} {c g p o} (ok : s.MemOk) : (s.meet c g p o).MemOk := by
  unfold State.meet
  extract_lets mask all agrees g1 lead g2 s1
  have dropped : s1.MemOk := discardArrivals_memOk (State.putGang_memOk ok)
  refine memOk_ite (memOk_ite ?_ (State.putGang_memOk ok)) (memOk_ite (State.modCluster_memOk dropped) dropped)
  exact memOk_foldl (fun s a ok => State.post_memOk ok) _ (State.putGang_memOk ok)

theorem State.arriveGang_memOk {s : State} {c gid p} (ok : s.MemOk) : (s.arriveGang c gid p).MemOk := by
  unfold State.arriveGang
  grind [State.modCluster_memOk, State.meet_memOk]

theorem State.advanceGang_memOk {s : State} {c g} (ok : s.MemOk) : (s.advanceGang c g).MemOk := by
  unfold State.advanceGang
  extract_lets ms
  split
  · refine memOk_ite (memOk_foldl (fun s e ok => ?_) _ (State.modGang_memOk ok)) ok
    exact State.nextStep_memOk (State.nextBlock_memOk ok)
  · exact ok

@[simp] theorem execGangRendezvous_keeps {s : State} {c gid} (ok : s.MemOk) : Keeps (execGangRendezvous c gid s) := by
  unfold execGangRendezvous
  refine memOk_foldl (fun s p ok => State.arriveGang_memOk ok) _ ?_
  exact memOk_foldl (fun s g ok => State.advanceGang_memOk ok) _ ok

theorem State.saveError_memOk {s : State} {n c h} (ok : s.MemOk) : (s.saveError n c h).MemOk := by
  unfold State.saveError
  grind [State.modPart_memOk, !State.report_memOk]

@[simp] theorem execTileEccError_keeps {s : State} {p q corrected} (ok : s.MemOk) :
    Keeps (execTileEccError p q corrected s) := by
  unfold execTileEccError
  grind [Keeps, State.correct_memOk, State.faultTaskOf_memOk, State.restartTask_memOk, State.saveError_memOk]

end Sys2Proof.Machine
end

section
/-! PROOFS. The windrow, the context engine, the base arithmetic, the lifts, a restore and the task instructions keep memory
in its canonical form. -/

namespace Sys2Proof.Machine

-- One proof after the other: hundreds of proofs elaborated at once ask for more threads than the check allows.
set_option Elab.async false

/-! ### The windrow, core loss and link errors -/

@[simp] theorem execWindrowDrainStart_keeps {s : State} {c} (ok : s.MemOk) : Keeps (execWindrowDrainStart c s) := by
  unfold execWindrowDrainStart
  grind [Keeps, State.modCluster_memOk]

theorem State.withdrawPair_memOk {s : State} {p} (ok : s.MemOk) : (s.withdrawPair p).MemOk := by
  unfold State.withdrawPair
  exact memOk_foldl (by grind [State.modCluster_memOk]) _ ok

@[simp] theorem execWindrowDrainTimeout_keeps {s : State} {c} (ok : s.MemOk) :
    Keeps (execWindrowDrainTimeout c s) := by
  unfold execWindrowDrainTimeout
  grind [Keeps, State.modCluster_memOk, haltAll_memOk, State.withdrawPair_memOk]

theorem State.cover_memOk {s : State} {p} (ok : s.MemOk) : (s.cover p).MemOk := ok
theorem State.returnCores_memOk {s : State} {c i} (ok : s.MemOk) : (s.returnCores c i).MemOk := ok

theorem State.taintUses_memOk {s : State} {p} (ok : s.MemOk) : (s.taintUses p).MemOk := by
  unfold State.taintUses
  grind [State.spread_memOk, State.MemOk]

theorem retireHarts_memOk {s : State} {l} (ok : s.MemOk) : (retireHarts l s).MemOk := by
  fun_induction retireHarts l s <;> grind [State.modHart_memOk, State.freeHart_memOk, State.withdrawWait_memOk,
    State.makeReady_memOk, State.setAside_memOk]

theorem State.moveBound_memOk {s : State} {p} (ok : s.MemOk) : (s.moveBound p).MemOk := ok

theorem State.scanFails_memOk {s : State} {c p} (ok : s.MemOk) : (s.scanFails c p).MemOk := by
  unfold State.scanFails
  grind [State.modPair_memOk, removeOps_memOk, !State.report_memOk, State.taintUses_memOk, retireHarts_memOk,
    State.moveBound_memOk]

@[simp] theorem execWindrowScanEnd_keeps {s : State} {c pass} (ok : s.MemOk) :
    Keeps (execWindrowScanEnd c pass s) := by
  unfold execWindrowScanEnd
  grind [Keeps, State.modCluster_memOk, State.post_memOk, State.retryGangs_memOk, State.amend_memOk,
    State.cover_memOk, State.returnCores_memOk, State.scanFails_memOk]

theorem State.loseHart_memOk {s : State} {h} (ok : s.MemOk) : (s.loseHart h).MemOk := by
  unfold State.loseHart
  grind [State.modHart_memOk, State.modTask_memOk, State.rewind_memOk, State.abortTask_memOk, State.freeHart_memOk,
    State.withdrawWait_memOk, State.endTask_memOk, State.setAside_memOk]

theorem loseHarts_memOk {s : State} {l} (ok : s.MemOk) : (loseHarts l s).MemOk := by
  fun_induction loseHarts l s <;> grind [State.loseHart_memOk]

@[simp] theorem execCoreLoss_keeps {s : State} {core} (ok : s.MemOk) : Keeps (execCoreLoss core s) := by
  unfold execCoreLoss
  grind [Keeps, State.modCluster_memOk, State.unpost_memOk, State.sealCore_memOk, State.stopIfLast_memOk,
    loseHarts_memOk]

@[simp] theorem execFlitCrcError_keeps {s : State} {_port} (ok : s.MemOk) : Keeps (execFlitCrcError _port s) := by
  unfold execFlitCrcError
  grind [Keeps]

@[simp] theorem execLinkPortLost_keeps {s : State} {port} (ok : s.MemOk) : Keeps (execLinkPortLost port s) := by
  unfold execLinkPortLost
  grind [Keeps, !State.report_memOk, State.MemOk]

/-! ### The context engine -/

theorem State.setCode_memOk {s : State} {p code} (ok : s.MemOk) : (s.setCode p code).MemOk := ok

theorem State.ctxCommand_keeps {s : State} {allowed : Part → Bool} {f : Part → State} {p} (h : ∀ x, (f x).MemOk)
    (ok : s.MemOk) : Keeps (s.ctxCommand p allowed f) := by
  unfold State.ctxCommand
  grind [Keeps, State.setCode_memOk]

theorem State.ctxEnd_memOk {s : State} {p state code} (ok : s.MemOk) : (s.ctxEnd p state code).MemOk := by
  unfold State.ctxEnd
  grind [State.modPart_memOk]

theorem State.beginStop_memOk {s : State} {p command kind} (ok : s.MemOk) : (s.beginStop p command kind).MemOk := by
  unfold State.beginStop
  grind [State.modPart_memOk, State.stopIfLast_memOk, haltAll_memOk]

theorem State.stopCommand_keeps {s : State} {p command kind allowed} (ok : s.MemOk) :
    Keeps (s.stopCommand p command kind allowed) := by
  unfold State.stopCommand
  grind [Keeps, State.modPart_memOk, State.post_memOk, !State.ctxCommand_keeps, State.beginStop_memOk]

@[simp] theorem execCtxStopSavePreempt_keeps {s : State} {p} (ok : s.MemOk) : Keeps (execCtxStopSavePreempt p s) := by
  unfold execCtxStopSavePreempt
  grind [!State.stopCommand_keeps]

@[simp] theorem execCtxStopSaveMigrate_keeps {s : State} {p} (ok : s.MemOk) : Keeps (execCtxStopSaveMigrate p s) := by
  unfold execCtxStopSaveMigrate
  grind [!State.stopCommand_keeps]

@[simp] theorem execCtxStopSaveDump_keeps {s : State} {p} (ok : s.MemOk) : Keeps (execCtxStopSaveDump p s) := by
  unfold execCtxStopSaveDump
  grind [!State.stopCommand_keeps]

@[simp] theorem execCtxStop_keeps {s : State} {p} (ok : s.MemOk) : Keeps (execCtxStop p s) := by
  unfold execCtxStop
  grind [!State.stopCommand_keeps]

theorem dropWaitingGangs_memOk {s : State} {ps} (ok : s.MemOk) : (dropWaitingGangs ps s).MemOk := by
  unfold dropWaitingGangs
  exact memOk_foldl (by grind [removeOps_memOk]) _ ok

theorem quiesceAll_memOk {s : State} {l} (ok : s.MemOk) : (quiesceAll l s).MemOk := by
  fun_induction quiesceAll l s <;> grind [State.modCluster_memOk]

theorem State.drivePair_memOk {s : State} {p} (ok : s.MemOk) : (s.drivePair p).MemOk := by
  unfold State.drivePair
  grind [State.post_memOk, State.nextStep_memOk]

@[simp] theorem execEngineQuiesceDone_keeps {s : State} {p} (ok : s.MemOk) : Keeps (execEngineQuiesceDone p s) := by
  have driven := fun l => memOk_foldl (fun s q ok => State.drivePair_memOk (p := q) ok) l ok
  unfold execEngineQuiesceDone
  grind [Keeps, State.post_memOk, State.modPart_memOk, quiesceAll_memOk, dropWaitingGangs_memOk]

@[simp] theorem execStopDeliveryDone_keeps {s : State} {p} (ok : s.MemOk) : Keeps (execStopDeliveryDone p s) := by
  unfold execStopDeliveryDone
  grind [Keeps, State.modPart_memOk, State.post_memOk, State.freezeGates_memOk, State.ctxEnd_memOk]

theorem writeArea_memOk {s : State} {p base size n n2 l} (ok : s.MemOk) :
    (writeArea p base size n n2 l s).1.MemOk := by
  fun_induction writeArea p base size n n2 l s <;> grind [Ends, State.write_memOk, !stage2_ends]

theorem State.writeBale_memOk {s : State} {p x} (ok : s.MemOk) : (s.writeBale p x).1.MemOk := by
  unfold State.writeBale
  grind [!writeArea_memOk]

theorem State.keepSaved_memOk {s : State} {p} (ok : s.MemOk) : (s.keepSaved p).MemOk := by
  unfold State.keepSaved
  grind [State.modPart_memOk]

@[simp] theorem execBaleWriteDone_keeps {s : State} {p} (ok : s.MemOk) : Keeps (execBaleWriteDone p s) := by
  unfold execBaleWriteDone
  grind [Keeps, State.modPart_memOk, State.post_memOk, State.ctxEnd_memOk, !State.writeBale_memOk,
    State.keepSaved_memOk]

@[simp] theorem execSaveIncomplete_keeps {s : State} {p} (ok : s.MemOk) : Keeps (execSaveIncomplete p s) := by
  unfold execSaveIncomplete
  grind [Keeps, State.modPart_memOk, State.post_memOk, !State.report_memOk, State.ctxEnd_memOk,
    !State.writeBale_memOk]

@[simp] theorem execCtxResumeSave_keeps {s : State} {p} (ok : s.MemOk) : Keeps (execCtxResumeSave p s) := by
  unfold execCtxResumeSave
  grind [State.modPart_memOk, State.post_memOk, !State.ctxCommand_keeps]

theorem State.kickLaunch_memOk {s : State} {k l} (ok : s.MemOk) : (s.kickLaunch k l).MemOk := by
  unfold State.kickLaunch
  grind [State.post_memOk]

theorem State.kick_memOk {s : State} {p} (ok : s.MemOk) : (s.kick p).MemOk := by
  unfold State.kick
  refine memOk_foldl (fun s e ok => State.kickLaunch_memOk ok) _ ?_
  refine memOk_foldl (fun s e ok => memOk_ite (State.post_memOk ok) ok) _ ?_
  exact memOk_foldl (fun s c ok => State.post_memOk (State.retryPrefetches_memOk (State.post_memOk ok))) _ ok

theorem State.startHarts_memOk {s : State} {p} (ok : s.MemOk) : (s.startHarts p).MemOk := ok

@[simp] theorem execCtxResumeInPlace_keeps {s : State} {p} (ok : s.MemOk) : Keeps (execCtxResumeInPlace p s) := by
  unfold execCtxResumeInPlace
  grind [State.modPart_memOk, resumeGates_memOk, State.applyAcks_memOk, !State.ctxCommand_keeps, State.ctxEnd_memOk,
    State.kick_memOk, State.startHarts_memOk]

theorem State.dropGates_memOk {s : State} {p} (ok : s.MemOk) : (s.dropGates p).MemOk := by
  unfold State.dropGates
  grind [freeGates_memOk, State.forgetPart_memOk]

theorem State.stopHarts_memOk {s : State} {p} (ok : s.MemOk) : (s.stopHarts p).MemOk := ok

@[simp] theorem execCtxTeardown_keeps {s : State} {p} (ok : s.MemOk) : Keeps (execCtxTeardown p s) := by
  unfold execCtxTeardown
  grind [State.modPart_memOk, State.post_memOk, !State.ctxCommand_keeps, State.stopHarts_memOk]

theorem State.scrubCluster_memOk {s : State} {c} (ok : s.MemOk) : (s.scrubCluster c).MemOk := ok

theorem scrubClusters_memOk {s : State} {l} (ok : s.MemOk) : (scrubClusters l s).MemOk := by
  fun_induction scrubClusters l s <;> grind [State.scrubCluster_memOk]

theorem State.dropLaunches_memOk {s : State} {p} (ok : s.MemOk) : (s.dropLaunches p).MemOk := ok

theorem State.scrubStep_memOk {s : State} {p x step} (ok : s.MemOk) : (s.scrubStep p x step).1.MemOk := by
  unfold State.scrubStep
  grind [State.zeroWhere_memOk, State.applyAcks_memOk, State.dropGates_memOk, scrubClusters_memOk,
    State.dropLaunches_memOk, State.MemOk]

theorem State.scrubEnds_memOk {s : State} {p} (ok : s.MemOk) : (s.scrubEnds p).MemOk := by
  unfold State.scrubEnds
  grind [State.modPart_memOk]

theorem State.scrubNext_memOk {s : State} {p step} (ok : s.MemOk) : (s.scrubNext p step).MemOk := by
  unfold State.scrubNext
  grind [State.modPart_memOk, State.post_memOk, State.scrubEnds_memOk]

@[simp] theorem execScrubDone_keeps {s : State} {p} (ok : s.MemOk) : Keeps (execScrubDone p s) := by
  unfold execScrubDone
  grind [Keeps, State.modPart_memOk, State.post_memOk, !State.scrubStep_memOk, State.scrubNext_memOk]

@[simp] theorem execCtxUnknownCommand_keeps {s : State} {p _code} (ok : s.MemOk) :
    Keeps (execCtxUnknownCommand p _code s) := by
  unfold execCtxUnknownCommand
  grind [!State.ctxCommand_keeps]

@[simp] theorem execGateSourceFree_keeps {s : State} {n} (ok : s.MemOk) : Keeps (execGateSourceFree n s) := by
  unfold execGateSourceFree
  grind [Keeps, State.MemOk]

/-! ### Base F and D arithmetic -/

theorem State.accrue_memOk {s : State} {f} (ok : s.MemOk) : (s.accrue f).MemOk := by
  unfold State.accrue
  grind [State.setFcsr_memOk]

theorem State.baseRm_ends {s : State} {rm} : Ends (s.baseRm rm) fun _ => True := by
  unfold State.baseRm
  grind [Ends, Exc.MemOk]

theorem State.setFcode_memOk {s : State} {d r c} (ok : s.MemOk) : (s.setFcode d r c).MemOk := ok

theorem State.setFnum_memOk {s : State} {d r rm x} (ok : s.MemOk) : (s.setFnum d r rm x).MemOk := by
  unfold State.setFnum
  grind [State.accrue_memOk, State.setFcode_memOk]

/-! ### Base integer instructions -/

theorem State.transfer_ends {s : State} {target} (ok : s.MemOk) : Ends (s.transfer target) State.MemOk := by
  unfold State.transfer
  grind [Ends, Exc.MemOk, State.jumpTo_memOk]

theorem State.intEffect_ends {s : State} {x} (ok : s.MemOk) : Ends (s.intEffect x) State.MemOk := by
  unfold State.intEffect
  simp only [bind, Except.bind, pure, Except.pure]
  grind [Ends, State.setX_memOk, State.setF_memOk, State.setPc_memOk, !State.needFs_ends, State.accrue_memOk,
    !State.baseRm_ends, State.setFcode_memOk, State.setFnum_memOk, !State.transfer_ends]

@[simp] theorem execIntegerOp_keeps {s : State} {op} (ok : s.MemOk) : Keeps (execIntegerOp op s) := by
  unfold execIntegerOp
  grind [!runOpen_keeps, !runJump_keeps, !State.intEffect_ends]

@[simp] theorem execFdivFsqrt_keeps {s : State} {op} (ok : s.MemOk) : Keeps (execFdivFsqrt op s) := by
  unfold execFdivFsqrt
  refine runOpen_keeps (fun s ok => ?_) ok
  simp only [bind, Except.bind, pure, Except.pure]
  grind [Ends, !State.needFs_ends, !State.baseRm_ends, State.setFnum_memOk]

/-! ### Lift instructions -/

theorem State.needRegion_ends {s : State} : Ends s.needRegion fun _ => True := by
  unfold State.needRegion
  grind [Ends, Exc.MemOk]

theorem gainAxis_memOk {s : State} {bit l} (ok : s.MemOk) : (gainAxis s bit l).MemOk := by
  fun_induction gainAxis s bit l <;> grind [State.retagTile_memOk]

theorem State.liftChecks_ends {s : State} {entry d} (ok : s.MemOk) : Ends (s.liftChecks entry d) fun _ => True := by
  unfold State.liftChecks
  grind [Ends, Exc.MemOk, State.useFresh_memOk]

theorem State.openAxis_memOk {s : State} {entry d} (ok : s.MemOk) : (s.openAxis entry d).MemOk := by
  unfold State.openAxis
  grind [State.modStage_memOk, State.modLift_memOk]

@[simp] theorem execLift_keeps {s : State} {rd rs1 rs2} (ok : s.MemOk) : Keeps (execLift rd rs1 rs2 s) := by
  unfold execLift
  refine runJump_keeps (fun s ok => ?_) ok
  refine State.needRegion_ends.bind fun _ _ => Ends.check ?_
  refine (State.load_ends ok).bind fun (t, bs) loaded => (State.liftChecks_ends loaded).bind fun _ _ => Ends.check ?_
  refine (State.shadowTiles_ends loaded).bind fun _ ok' => ?_
  refine (State.spillCheck_ends (gainAxis_memOk (State.openAxis_memOk ok'))).bind fun _ ok => ?_
  exact State.jumpTo_memOk (State.setX_memOk ok)

theorem clearTiles_memOk {s : State} {h l} (ok : s.MemOk) : (clearTiles h l s).MemOk := by
  fun_induction clearTiles h l s <;> grind [State.modStatus_memOk, State.modLift_memOk]

@[simp] theorem execLret_keeps {s : State} {rs1} (ok : s.MemOk) : Keeps (execLret rs1 s) := by
  unfold execLret
  refine runJump_keeps (fun s ok => ?_) ok
  simp only [bind, Except.bind, pure, Except.pure]
  grind [Ends, Exc.MemOk, State.modTaskOf_memOk, State.jumpTo_memOk, dropLifts_memOk, State.modLift_memOk,
    !State.shadowTiles_ends, !State.needRegion_ends, clearTiles_memOk]

@[simp] theorem execLtag_keeps {s : State} {r rs2} (ok : s.MemOk) : Keeps (execLtag r rs2 s) := by
  unfold execLtag
  refine runOpen_keeps (fun s ok => ?_) ok
  refine State.needRegion_ends.bind fun _ _ => ?_
  cases r with
  | tile n =>
    refine (State.opFaultOn_ends ok).bind fun _ _ => State.tilesBelow_ends.bind fun _ _ => Ends.check (Ends.check ?_)
    exact (State.shadowTile_ends ok).bind fun _ ok' =>
      State.spillCheck_ends (State.retagTile_memOk (State.shadowImages_memOk ok'))
  | mask k => exact Ends.check (State.spillCheck_ends (State.modLift_memOk (State.shadowImages_memOk ok)))

theorem writeImages_memOk {s : State} {h n l tags l2} (ok : s.MemOk) : (writeImages h n l tags l2 s).MemOk := by
  fun_induction writeImages h n l tags l2 s <;> grind [State.setImage_memOk, State.modStatus_memOk]

@[simp] theorem execLred_keeps {s : State} {md ms rs2} (ok : s.MemOk) : Keeps (execLred md ms rs2 s) := by
  unfold execLred
  refine runOpen_keeps (fun s ok => ?_) ok
  refine State.needRegion_ends.bind fun _ _ => (State.opFaultOn_ends ok).bind fun _ _ => ?_
  refine State.tilesBelow_ends.bind fun _ _ => ?_
  refine Ends.check (Ends.check (Ends.check (Ends.check (Ends.check ?_))))
  split
  · trivial
  · refine (State.shadowTile_ends ok).bind fun _ ok' => ?_
    refine (State.spillCheck_ends ?_).bind fun _ ok => ?_
    · exact State.shadowImages_memOk (State.retagTile_memOk (State.shadowImages_memOk ok'))
    exact State.useFresh_memOk (State.modStatus_memOk (writeImages_memOk ok))

@[simp] theorem execLaxis_keeps {s : State} {rd rs1} (ok : s.MemOk) : Keeps (execLaxis rd rs1 s) := by
  unfold execLaxis
  refine runOpen_keeps (fun s ok => ?_) ok
  grind [Ends, State.setX_memOk]

theorem Lift.insert_ends {l target set} : Ends (Lift.insert l target set) fun _ => True := by
  unfold Lift.insert
  grind [Ends, Exc.MemOk]

theorem Lift.branch_ends {l k pc target} : Ends (Lift.branch l k pc target) fun _ => True := by
  have kept : ∀ (g : Lift → Lift × Word) a b, Ends ((l.insert a b).map g) fun _ => True :=
    fun g a b => Lift.insert_ends.map fun _ _ => trivial
  unfold Lift.branch
  grind [Ends]

@[simp] theorem execLbr_keeps {s : State} {k imm} (ok : s.MemOk) : Keeps (execLbr k imm s) := by
  unfold execLbr
  refine runJump_keeps (fun s ok => ?_) ok
  grind [Ends, Exc.MemOk, State.setPc_memOk, State.jumpTo_memOk, State.modLift_memOk, !State.spillCheck_ends,
    !Lift.branch_ends]

/-! ### Restoring a partition -/

/-- A fold that may fail keeps memory canonical if each step does. -/
theorem foldE_memOk {α : Type} {s u : State} {f : State → α → Except Nat State} {l : List α}
    (h : ∀ s a t, s.MemOk → f s a = .ok t → t.MemOk) (ok : s.MemOk) (run : foldE f l s = .ok u) : u.MemOk := by
  induction l generalizing s with
  | nil => grind [foldE]
  | cons x r ih =>
    unfold foldE at run
    grind

theorem Restore.partRecord_memOk {s : State} {k r} (ok : s.MemOk) : (Restore.partRecord k s r).MemOk := by
  unfold Restore.partRecord
  grind [State.modPart_memOk]

theorem Restore.formats_memOk {s : State} {e} (ok : s.MemOk) : (Restore.formats s e).MemOk := ok

theorem Restore.launch_memOk {s : State} {k r} (ok : s.MemOk) : (Restore.launch k s r).MemOk := by
  unfold Restore.launch
  grind [State.tick_memOk, State.useFresh_memOk, State.MemOk]

theorem Restore.hart_memOk {s t : State} {k c r} (ok : s.MemOk) (run : Restore.hart k c s r = .ok t) : t.MemOk := by
  unfold Restore.hart at run
  grind [State.modHart_memOk, State.setTask_memOk, State.tick_memOk]

theorem Restore.barriers_memOk {s t : State} {k c r} (ok : s.MemOk) (run : Restore.barriers k c s r = .ok t) :
    t.MemOk := by
  unfold Restore.barriers at run
  split at run
  · cases run
  · cases run
    exact memOk_foldl (fun s i ok => State.setBarrier_memOk ok) _ ok

theorem Restore.future_memOk {s : State} {k c r} (ok : s.MemOk) : (Restore.future k c s r).MemOk := ok

theorem Restore.generations_memOk {s : State} {k c bs} (ok : s.MemOk) : (Restore.generations k c s bs).MemOk := by
  unfold Restore.generations
  exact memOk_foldl (by grind [State.MemOk]) _ ok

theorem Restore.taskRecord_memOk {s t : State} {k c r} (ok : s.MemOk) (run : Restore.taskRecord k c s r = .ok t) :
    t.MemOk := by
  unfold Restore.taskRecord at run
  grind [State.setTask_memOk, State.tick_memOk]

theorem Restore.waiter_memOk {s : State} {k c r} (ok : s.MemOk) : (Restore.waiter k c s r).MemOk := by
  unfold Restore.waiter
  grind [State.modCluster_memOk, State.modTask_memOk]

theorem Restore.areas_memOk {s : State} {k c r} (ok : s.MemOk) : (Restore.areas k c s r).MemOk := ok
theorem Restore.stage_memOk {s : State} {k c e} (ok : s.MemOk) : (Restore.stage k c s e).MemOk := ok

theorem Restore.command_memOk {s u : State} {k c r} (ok : s.MemOk) (run : Restore.command k c s r = .ok u) :
    u.MemOk := by
  unfold Restore.command at run
  extract_lets t n g b same st w h src at run
  cases known : kindOf (byteAt r 0x10) with
  | none =>
    rw [known] at run
    cases run
  | some kind =>
    rw [known] at run
    refine memOk_of_guarded (fun run => ?_) run
    extract_lets word targets x s1 s2 at run
    have placed : s1.MemOk := State.setSlot_memOk ok
    have queued : s2.MemOk := memOk_ite (State.modCluster_memOk placed) placed
    split at run
    · exact memOk_of_ok (State.modTask_memOk (State.modStage_memOk queued)) run
    · exact memOk_of_ok queued run

theorem restoreStages_memOk {s : State} {g l l2} (ok : s.MemOk) : (restoreStages g l l2 s).MemOk := by
  fun_induction restoreStages g l l2 s <;> grind [State.perform_memOk]

theorem Restore.pairRecord_memOk {s t : State} {k c r} (ok : s.MemOk) (run : Restore.pairRecord k c s r = .ok t) :
    t.MemOk := by
  unfold Restore.pairRecord at run
  grind [State.modPair_memOk]

theorem Restore.tile_memOk {s t : State} {k c r} (ok : s.MemOk) (run : Restore.tile k c s r = .ok t) : t.MemOk := by
  unfold Restore.tile at run
  grind [State.setTile_memOk]

theorem State.setLift_memOk {s : State} {h l} (ok : s.MemOk) : (s.setLift h l).MemOk := by
  unfold State.setLift
  grind [State.modTask_memOk]

theorem Restore.mapRecord_memOk {s t : State} {k c r} (ok : s.MemOk) (run : Restore.mapRecord k c s r = .ok t) :
    t.MemOk := by
  unfold Restore.mapRecord at run
  grind [State.modTask_memOk, State.setLift_memOk]

theorem Restore.mail_memOk {s t : State} {k c r} (ok : s.MemOk) (run : Restore.mail k c s r = .ok t) : t.MemOk := by
  unfold Restore.mail at run
  refine memOk_of_guarded (fun run => ?_) run
  cases run
  exact memOk_foldl (fun s b ok => State.setMailbox_memOk ok) _ (State.modCluster_memOk ok)

theorem Restore.gate_memOk {s : State} {k e} (ok : s.MemOk) : (Restore.gate k s e).MemOk := by
  unfold Restore.gate
  grind [State.setGate_memOk, State.resumeGate_memOk, State.moveGate_memOk]

theorem Restore.gates_memOk {s : State} {k rs} (ok : s.MemOk) : (Restore.gates k s rs).MemOk := by
  unfold Restore.gates
  exact memOk_ite ok (memOk_foldl (fun s e ok => Restore.gate_memOk ok) _ ok)

theorem Restore.apply_memOk {s u : State} {k x bs} (ok : s.MemOk) (run : Restore.apply k x bs s = .ok u) :
    u.MemOk := by
  unfold Restore.apply at run
  extract_lets c at run
  refine memOk_of_guarded (fun run => memOk_of_guarded (fun run => ?_) run) run
  split at run
  case h_1 => exact memOk_of_ok (memOk_foldl (fun s r ok => Restore.partRecord_memOk ok) _ ok) run
  case h_2 => exact memOk_of_ok (memOk_foldl (fun s r ok => Restore.launch_memOk ok) _ ok) run
  case h_3 => exact memOk_of_ok (memOk_foldl (fun s r ok => Restore.formats_memOk ok) _ ok) run
  case h_4 => exact foldE_memOk (fun s r t ok done => Restore.hart_memOk ok done) ok run
  case h_5 => exact foldE_memOk (fun s r t ok done => Restore.barriers_memOk ok done) ok run
  case h_6 =>
    exact memOk_of_ok (Restore.generations_memOk (memOk_foldl (fun s r ok => Restore.future_memOk ok) _ ok)) run
  case h_7 => exact foldE_memOk (fun s r t ok done => Restore.taskRecord_memOk ok done) ok run
  case h_8 => exact memOk_of_ok (memOk_foldl (fun s r ok => Restore.waiter_memOk ok) _ ok) run
  case h_9 => exact memOk_of_ok (memOk_foldl (fun s r ok => Restore.areas_memOk ok) _ ok) run
  case h_10 => exact memOk_of_ok (memOk_foldl (fun s r ok => Restore.stage_memOk ok) _ ok) run
  case h_11 => exact foldE_memOk (fun s r t ok done => Restore.command_memOk ok done) ok run
  case h_12 => exact memOk_of_ok (restoreStages_memOk ok) run
  case h_13 => exact foldE_memOk (fun s r t ok done => Restore.pairRecord_memOk ok done) ok run
  case h_14 => exact foldE_memOk (fun s r t ok done => Restore.tile_memOk ok done) ok run
  case h_15 => exact foldE_memOk (fun s r t ok done => Restore.mapRecord_memOk ok done) ok run
  case h_16 => exact foldE_memOk (fun s r t ok done => Restore.mail_memOk ok done) ok run
  case h_17 => exact memOk_of_ok (Restore.gates_memOk ok) run
  case h_18 => exact memOk_of_ok (ok) run

theorem Restore.sections_memOk {s t : State} {k n l} (ok : s.MemOk) (run : Restore.sections k n l s = .ok t) :
    t.MemOk := by
  induction l generalizing n s with
  | nil => grind [Restore.sections]
  | cons x r ih =>
    unfold Restore.sections at run
    grind [→ Restore.apply_memOk]

theorem readArea_memOk {s : State} {p base n n2 n3} (ok : s.MemOk) : (readArea p base n n2 n3 s).1.MemOk := by
  fun_induction readArea p base n n2 n3 s <;> grind [Ends, !stage2_ends]

theorem readPart_memOk {s : State} {p base pos n} (ok : s.MemOk) : (readPart p base pos n s).1.MemOk := by
  unfold readPart
  grind [!readArea_memOk]

theorem readSects_memOk {s : State} {p base l} (ok : s.MemOk) : (readSects p base l s).1.MemOk := by
  fun_induction readSects p base l s <;> grind [!readPart_memOk]

theorem State.clearTarget_memOk {s : State} {c} (ok : s.MemOk) : (s.clearTarget c).MemOk := ok

theorem clearTargets_memOk {s : State} {l} (ok : s.MemOk) : (clearTargets l s).MemOk := by
  fun_induction clearTargets l s <;> grind [State.clearTarget_memOk]

theorem retranslate_memOk {s : State} {l} (ok : s.MemOk) : (retranslate l s).MemOk := by
  fun_induction retranslate l s <;> grind [State.modTask_memOk, → State.prepareRuns_memOk, State.prepFails_memOk]

theorem spillsOf_memOk {s : State} {c first l} (ok : s.MemOk) : (spillsOf c first l s).MemOk := by
  fun_induction spillsOf c first l s <;> grind [State.modCluster_memOk, State.modTask_memOk, State.modLaunch_memOk]

theorem Restore.strangeSpills_memOk {s : State} {k first l} (ok : s.MemOk) :
    (Restore.strangeSpills k first l s).MemOk := by
  induction l generalizing s with
  | nil => exact ok
  | cons e r ih => exact ih (memOk_ite ok (spillsOf_memOk ok))

theorem Restore.adopt_memOk {s : State} {k first h} (ok : s.MemOk) : (Restore.adopt k first s h).MemOk := by
  unfold Restore.adopt
  grind [State.modTask_memOk, State.setFut_memOk]

theorem Restore.adoptFutures_memOk {s : State} {k first} (ok : s.MemOk) : (Restore.adoptFutures k first s).MemOk := ok

theorem State.holdAll_memOk {s : State} {l} (ok : s.MemOk) : (s.holdAll l).MemOk := by
  induction l generalizing s with
  | nil => exact ok
  | cons h r ih =>
    unfold State.holdAll
    grind [holdLifts_memOk]

theorem takeGranule_memOk {s : State} {r} (ok : s.MemOk) : (takeGranule s r).MemOk := by
  unfold takeGranule
  grind [State.setLift_memOk]

theorem takeImage_memOk {s : State} {x bs} (ok : s.MemOk) : (takeImage s x bs).MemOk := by
  unfold takeImage
  grind [State.setLift_memOk]

theorem State.takeSpill_memOk {s : State} {g n} (ok : s.MemOk) : (s.takeSpill g n).MemOk := by
  unfold State.takeSpill
  extract_lets t size bs tiles
  split
  · exact ok
  · refine memOk_foldl (fun s x ok => takeImage_memOk ok) _ ?_
    exact memOk_foldl (fun s r ok => takeGranule_memOk ok) _ ok

theorem State.useHeld_memOk {s : State} {ts} (ok : s.MemOk) : (s.useHeld ts).MemOk := by
  unfold State.useHeld
  exact memOk_foldl (by grind [State.useBy_memOk]) _ ok

theorem Restore.rebuild_memOk {s : State} {k} (ok : s.MemOk) : (Restore.rebuild k s).MemOk := by
  unfold Restore.rebuild
  refine State.useHeld_memOk (retranslate_memOk (Restore.strangeSpills_memOk ?_))
  refine memOk_foldl (fun s h ok => Restore.adopt_memOk ok) _ (Restore.adoptFutures_memOk ?_)
  refine memOk_foldl (fun s g ok => memOk_foldl (fun s n ok => State.takeSpill_memOk ok) _ ok) _ ?_
  exact State.holdAll_memOk ok

theorem Restore.finish_memOk {s : State} {k} (ok : s.MemOk) : (Restore.finish k s).MemOk := by
  unfold Restore.finish
  grind [State.modPart_memOk, State.applyAcks_memOk, State.ctxEnd_memOk, State.kick_memOk, Restore.rebuild_memOk,
    State.MemOk]

theorem State.applyBale_memOk {s u : State} {p x h m xs} (ok : s.MemOk) (run : s.applyBale p x h m xs = .ok u) :
    u.MemOk := by
  unfold State.applyBale at run
  extract_lets k left at run
  cases applied : k.sections 0 xs (clearTargets (left ++ k.targets) s) with
  | error e =>
    rw [applied] at run
    cases run
  | ok t =>
    rw [applied] at run
    cases run
    exact Restore.finish_memOk (Restore.sections_memOk (clearTargets_memOk ok) applied)

theorem State.restore_memOk {s : State} {p x} (ok : s.MemOk) : (s.restore p x).1.MemOk := by
  unfold State.restore
  grind [!readPart_memOk, !readSects_memOk]

/-- The restored state comes from the state that has read the image. -/
theorem State.restore_ok_memOk {s r t : State} {p x} (ok : s.MemOk) (e : s.restore p x = (r, .ok t)) : t.MemOk := by
  unfold State.restore at e
  extract_lets base at e
  have header := readPart_memOk (p := p) (base := base) (pos := 0) (n := 64) ok
  split at e
  · cases e
  next u h found =>
  rw [found] at header
  split at e
  · cases e
  extract_lets n at e
  have directory := readPart_memOk (p := p) (base := base) (pos := natAt h 0x30 8) (n := 32 * n) header
  split at e
  · cases e
  next v dir found =>
  rw [found] at directory
  extract_lets ds at e
  split at e
  · cases e
  have sections := readSects_memOk (p := p) (base := base) (l := ds) directory
  split at e
  next w xs found =>
  rw [found] at sections
  split at e
  · cases e
  · extract_lets m at e
    split at e
    · cases e
    · exact State.applyBale_memOk sections (Prod.mk.inj e).2
  · exact State.applyBale_memOk sections (Prod.mk.inj e).2

theorem State.runRestore_memOk {s : State} {p x} (ok : s.MemOk) : (s.runRestore p x).MemOk := by
  have restored := State.restore_memOk (p := p) (x := x) ok
  unfold State.runRestore
  split
  case h_1 found => exact State.restore_ok_memOk ok found
  case h_2 failed =>
    rw [failed] at restored
    exact State.modPart_memOk restored

@[simp] theorem execCtxRestore_keeps {s : State} {p} (ok : s.MemOk) : Keeps (execCtxRestore p s) := by
  unfold execCtxRestore
  grind [Keeps, State.modPart_memOk, State.post_memOk, State.setCode_memOk, !State.ctxCommand_keeps,
    State.stopHarts_memOk, State.runRestore_memOk]

/-! ### Task instructions -/

theorem State.actingTask_ends {s : State} : Ends s.actingTask fun _ => True := by
  unfold State.actingTask
  grind [Ends, Exc.MemOk]

theorem State.notSelf_ends {s : State} {h} : Ends (s.notSelf h) fun _ => True := by
  unfold State.notSelf
  grind [Ends, Exc.MemOk]

theorem State.readDesc_ends {s : State} {a} (ok : s.MemOk) : Ends (s.readDesc a) (·.1.MemOk) := by
  unfold State.readDesc
  simp only [bind, Except.bind, pure, Except.pure, throw, throwThe, MonadExceptOf.throw]
  grind [Ends, Exc.MemOk, !State.load_ends]

theorem State.spawn_ends {s : State} {rd rs1 rs2} (ok : s.MemOk) : Ends (s.spawn rd rs1 rs2) State.MemOk := by
  unfold State.spawn
  refine State.actingTask_ends.bind fun (me, t) _ => State.heldGate_ends.bind fun _ _ => ?_
  refine (State.readDesc_ends ok).bind fun r ok => ?_
  dsimp only
  split
  · exact State.modCluster_memOk ok
  · have allocated := State.allocFuture_memOk ok ‹_›
    split
    · exact State.modCluster_memOk ok
    exact State.setX_memOk (State.post_memOk (State.setTask_memOk allocated))

@[simp] theorem execSpawn_keeps {s : State} {rd rs1 rs2} (ok : s.MemOk) : Keeps (execSpawn rd rs1 rs2 s) := by
  unfold execSpawn
  refine runClosing_keeps (fun s ok => ?_) ok
  grind [!State.spawn_ends]

@[simp] theorem execPromise_keeps {s : State} {rd} (ok : s.MemOk) : Keeps (execPromise rd s) := by
  unfold execPromise
  refine runClosing_keeps (fun s ok => ?_) ok
  refine State.actingTask_ends.bind fun (me, t) _ => State.heldGate_ends.bind fun _ _ => ?_
  dsimp only
  split
  · exact State.modCluster_memOk ok
  · exact State.setX_memOk (State.allocFuture_memOk ok ‹_›)

theorem outcomeValue_ends {st v} : Ends (outcomeValue st v) fun _ => True := by
  unfold outcomeValue
  grind [Ends, Exc.MemOk]

theorem State.park_memOk {s : State} {i handles} (ok : s.MemOk) : (s.park i handles).MemOk := by
  unfold State.park
  grind [State.modTask_memOk, State.setAside_memOk]

theorem State.touchAnswer_ends {s : State} {rd h woken source i x} (ok : s.MemOk) :
    Ends (s.touchAnswer rd h woken source i x) State.MemOk := by
  unfold State.touchAnswer
  simp only [bind, Except.bind, pure, Except.pure]
  grind [Ends, Exc.MemOk, State.setX_memOk, State.completeTouch_memOk, !outcomeValue_ends, State.park_memOk]

theorem State.touchHere_ends {s : State} {rd h i} (ok : s.MemOk) : Ends (s.touchHere rd h i) State.MemOk := by
  unfold State.touchHere
  split
  · have touched := State.homeTouch_memOk (h := h) (task := s.me.task.getD 0) (any := false) (index := 0)
      (eprio := s.eprio (s.me.task.getD 0)) ok
    grind [Ends, State.park_memOk, !State.touchAnswer_ends, State.holdAt_memOk]
  · have applied := State.homeApply_memOk (h := h) (op := .tanyCheck) ok
    grind [Ends, Exc.MemOk, !State.touchAnswer_ends]

theorem State.touch_ends {s : State} {rd rs1 i} (ok : s.MemOk) : Ends (s.touch rd rs1 i) State.MemOk := by
  unfold State.touch
  simp only [bind, Except.bind]
  grind [Ends, !State.remote_ends, !State.heldGate_ends, !State.acceptHandle_ends, !State.notSelf_ends,
    !State.touchAnswer_ends, !State.touchHere_ends]

@[simp] theorem execTouch_keeps {s : State} {rd rs1} (ok : s.MemOk) : Keeps (execTouch rd rs1 s) := by
  unfold execTouch
  refine runClosing_keeps (fun s ok => ?_) ok
  grind [!State.touch_ends]

@[simp] theorem execTpoll_keeps {s : State} {rd rs1} (ok : s.MemOk) : Keeps (execTpoll rd rs1 s) := by
  unfold execTpoll
  refine runOpen_keeps (fun s ok => ?_) ok
  simp only [bind, Except.bind, pure, Except.pure]
  grind [Ends, State.setX_memOk, !State.acceptHandle_ends, !State.ask_ends]

theorem State.checkEntry_ends {s : State} {h} : Ends (s.checkEntry h) fun _ => True := by
  unfold State.checkEntry
  simp only [bind, Except.bind]
  grind [Ends, Exc.MemOk, !State.checkHandle_ends, !State.notSelf_ends]

theorem State.checkEntries_ends {s : State} {all l} : Ends (s.checkEntries all l) fun _ => True := by
  induction l with
  | nil => trivial
  | cons h r ih =>
    refine State.checkEntry_ends.bind fun _ _ => ?_
    split
    · exact ih
    · trivial

theorem State.addRecords_memOk {s t : State} {task eprio n l} (ok : s.MemOk)
    (run : s.addRecords task eprio n l = .ok t) : t.MemOk := by
  induction l generalizing s n with
  | nil => exact memOk_of_ok ok run
  | cons h r ih =>
    unfold State.addRecords at run
    grind [→ State.addWaiter_memOk]

theorem State.tanySelect_ends {s : State} {rd hs away i} (ok : s.MemOk) :
    Ends (s.tanySelect rd hs away i) State.MemOk := by
  unfold State.tanySelect
  split
  · refine outcomeValue_ends.bind fun _ _ => ?_
    exact State.setX_memOk (State.takesFrom_memOk (State.raiseVerdict_memOk ok))
  · refine State.checkEntries_ends.bind fun _ _ => ?_
    split
    · split
      · exact State.park_memOk (State.addRecords_memOk ok ‹_›)
      · exact State.modCluster_memOk ok
    · trivial

theorem State.tanyHandles_ends {s : State} {rs1 rs2} (ok : s.MemOk) : Ends (s.tanyHandles rs1 rs2) (·.1.MemOk) := by
  unfold State.tanyHandles
  simp only [bind, Except.bind, pure, Except.pure, throw, throwThe, MonadExceptOf.throw]
  grind [Ends, Exc.MemOk, !State.load_ends, !State.checkEntries_ends]

theorem State.tany_ends {s : State} {rd rs1 rs2 i} (ok : s.MemOk) : Ends (s.tany rd rs1 rs2 i) State.MemOk := by
  unfold State.tany
  refine State.heldGate_ends.bind fun _ _ => (State.tanyHandles_ends ok).bind fun (s, hs) ok => ?_
  dsimp only
  split
  · exact State.tanySelect_ends ok
  · refine (State.remoteWith_ends ok).bind fun (s, r) ok => ?_
    exact State.checkEntries_ends.bind fun _ _ => State.tanySelect_ends ok

@[simp] theorem execTany_keeps {s : State} {rd rs1 rs2} (ok : s.MemOk) : Keeps (execTany rd rs1 rs2 s) := by
  unfold execTany
  refine runClosing_keeps (fun s ok => ?_) ok
  grind [!State.tany_ends]

@[simp] theorem execResolve_keeps {s : State} {rd rs1 rs2} (ok : s.MemOk) : Keeps (execResolve rd rs1 rs2 s) := by
  unfold execResolve
  refine runClosing_keeps (fun s ok => ?_) ok
  simp only [bind, Except.bind, pure, Except.pure]
  grind [Ends, State.setX_memOk, !State.acceptHandle_ends, !State.ask_ends, !State.notSelf_ends]

theorem State.endOther_ends {s : State} {rd h how op} (ok : s.MemOk) : Ends (s.endOther rd h how op) State.MemOk := by
  unfold State.endOther
  simp only [bind, Except.bind, pure, Except.pure]
  grind [Ends, State.setX_memOk, State.endTask_memOk, !State.acceptHandle_ends, !State.ask_ends]

@[simp] theorem execCancel_keeps {s : State} {rd rs1} (ok : s.MemOk) : Keeps (execCancel rd rs1 s) := by
  unfold execCancel
  refine runClosing_keeps (fun s ok => ?_) ok
  grind [!State.endOther_ends]

@[simp] theorem execPoison_keeps {s : State} {rd rs1 rs2} (ok : s.MemOk) : Keeps (execPoison rd rs1 rs2 s) := by
  unfold execPoison
  refine runClosing_keeps (fun s ok => ?_) ok
  grind [!State.endOther_ends]

@[simp] theorem execFrel_keeps {s : State} {rs1} (ok : s.MemOk) : Keeps (execFrel rs1 s) := by
  unfold execFrel
  refine runClosing_keeps (fun s ok => ?_) ok
  simp only [bind, Except.bind, pure, Except.pure]
  grind [Ends, !State.acceptHandle_ends, !State.ask_ends, !State.notSelf_ends]

theorem State.retireOn_memOk {s : State} {h} (ok : s.MemOk) : (s.retireOn h).MemOk := ok

@[simp] theorem execTexit_keeps {s : State} {rs1} (ok : s.MemOk) : Keeps (execTexit rs1 s) := by
  unfold execTexit
  split
  · exact State.finishExc_memOk ok trivial
  · refine State.faultFirst_keeps (runClosing_keeps (fun s ok => ?_) ok) ok
    refine (State.opFaultAt_ends ok).bind fun _ _ => State.actingTask_ends.bind fun (h, t) _ => ?_
    dsimp only
    split
    · exact State.retireOn_memOk (State.exitTask_memOk ok)
    · trivial

@[simp] theorem execTyield_keeps {s : State} (ok : s.MemOk) : Keeps (execTyield s) := by
  unfold execTyield
  refine runClosing_keeps (fun s ok => ?_) ok
  simp only [bind, Except.bind, pure, Except.pure, throw, throwThe, MonadExceptOf.throw]
  grind [Ends, Exc.MemOk, State.checkpoint_memOk, State.makeReady_memOk, State.setAside_memOk,
    !State.actingTask_ends, State.retireOn_memOk]

@[simp] theorem execHomeRequestArrive_keeps {s : State} {r} (ok : s.MemOk) : Keeps (execHomeRequestArrive r s) := by
  unfold execHomeRequestArrive
  grind [Keeps, State.homeRequest_memOk]

end Sys2Proof.Machine
end

section
/-! PROOFS. Every step keeps memory in its canonical form (O60). -/

namespace Sys2Proof.Machine

-- One proof after the other: hundreds of proofs elaborated at once ask for more threads than the check allows.
set_option Elab.async false

/-! ### The end of a wait -/

/-- The word that ends a wait is one of the instructions above. -/
@[simp] theorem resumeWord_keeps {i : Instr} {s : State} (ok : s.MemOk) : Keeps (resumeWord i s) := by
  unfold resumeWord
  cases i <;> simp [ok]

@[simp] theorem execHartResume_keeps {s : State} {h r} (ok : s.MemOk) : Keeps (execHartResume h r s) := by
  unfold execHartResume
  grind [Keeps, State.deliverReply_memOk, !resumeWord_keeps, State.MemOk]

@[simp] theorem execStoppedRetry_keeps {s : State} {h} (ok : s.MemOk) : Keeps (execStoppedRetry h s) := by
  unfold execStoppedRetry
  grind [Keeps, State.MemOk]

/-! ### The step -/

/-- Every instruction and every event, one lemma above for each. -/
theorem exec_keeps {i : Instr} {s : State} (ok : s.MemOk) : Keeps (exec i s) := by
  unfold exec
  cases i <;> simp [ok]

/-- A step is an event, or an instruction and the end of its turn, or an empty turn. -/
theorem step_keeps {s : State} (ok : s.MemOk) : Keeps (step s) := by
  have moved := State.nextMove_memOk (State.clockTick_memOk ok)
  unfold step
  split
  · split
    · exact exec_keeps ok
    · trivial
  · split
    next t i found =>
      rw [found] at moved
      exact exec_keeps moved
    next t i found =>
      rw [found] at moved
      have ran := exec_keeps (i := i) moved
      split
      next u done =>
        rw [done] at ran
        exact State.advance_memOk ran
      next => trivial
      next => trivial
    next t found =>
      rw [found] at moved
      exact State.advance_memOk moved

end Sys2Proof.Machine

open Sys2Proof Sys2Proof.Machine

/-- Settles O60: every operation that the step is made of keeps memory canonical, because it writes bytes through
`State.setBytes`, makes blocks zero, or leaves memory alone. -/
theorem everyStepKeepsMemoryCanonical : Obligations.EveryStepKeepsMemoryCanonical := by
  intro s t ok next
  have kept := step_keeps ok
  rw [next] at kept
  exact kept

end

section
/-! PROOFS. Encoding and decoding (R89 to R98): the word of every instruction that has one decodes to it. -/

namespace Sys2Proof

/-- Four bytes put together again are the word they were cut from (R3). -/
theorem wordOfBytes_fld (w : W32) : wordOfBytes (fld w 0 8) (fld w 8 8) (fld w 16 8) (fld w 24 8) = w := by
  have upper : fld w 24 8 ++ fld w 16 8 = fld w 16 16 := joinExt w 16 8 8
  have upper3 : fld w 16 16 ++ fld w 8 8 = fld w 8 24 := joinExt w 8 16 8
  have whole : fld w 8 24 ++ fld w 0 8 = fld w 0 32 := joinExt w 0 24 8
  rw [wordOfBytes, upper, upper3, whole]
  exact fldAll w

/-- The decoder reads the first word of the bytes and hands on the others. -/
theorem decode_bytesOfWord {w : W32} {i : Instr} (h : decodeWord w = .ok i) (rest : List Byte) :
    decode (bytesOfWord w ++ rest) = .ok (i, rest) := by
  rw [bytesOfWord, List.cons_append, List.cons_append, List.cons_append, List.cons_append, List.nil_append, decode,
    wordOfBytes_fld, h]

open Laws.RoundTrip in
/-- Each instruction that has a word decodes from it; the steps that `encode` gives no word have nothing to decode. -/
theorem decodeWord_encode (i : Instr) : Statement i := by
  cases i with
  -- custom-0: hart, message and gate words (R94)
  | rcommit => exact rcommit | phase => exact phase _ _ | bfx => exact bfx _ _ _ | bfi => exact bfi _ _ _
  | xflush => exact xflush _ _ | cfence => exact cfence _ _ _ | samo => exact samo _ _ _ _ _ | scas => exact scas _ _ _ _
  | barinit => exact barinit _ _ | barrive => exact barrive _ _ | barwait => exact barwait _ _
  | barsync => exact barsync _ _ | semv => exact semv _ _ | semp => exact semp _ _ _ | msnd => exact msnd _ _ _
  | mrcv => exact mrcv _ _ _ | mpoll => exact mpoll _ _ | gsig => exact gsig _ _ _ | gwait => exact gwait _ _ _
  | gpay => exact gpay _ _ _ | gtake => exact gtake _ _ _ | gopen => exact gopen _ | gclose => exact gclose _
  -- custom-1: task, stage and copy words (R95)
  | spawn => exact spawn _ _ _ | touch => exact touch _ _ | tpoll => exact tpoll _ _ | tany => exact tany _ _ _
  | promise => exact promise _ | resolve => exact resolve _ _ _ | cancel => exact cancel _ _
  | poison => exact poison _ _ _ | texit => exact texit _ | tyield => exact tyield | frel => exact frel _
  | stdef => exact stdef _ _ | starm => exact starm _ _ _ | stwait => exact stwait _ _ _ | stgen => exact stgen _ _
  | hoist => exact hoist _ _ | cpyin => exact cpyin _ _ _ | cpyout => exact cpyout _ _ _ | cpyx => exact cpyx _ _ _
  | cpygath => exact cpygath _ _ _ | cpybc => exact cpybc _ _ _ | cpwait => exact cpwait _ _ | cpqry => exact cpqry _ _
  | cpcan => exact cpcan _ _
  -- custom-2: tile-engine words (R96)
  | mma => exact mma _ | mms => exact mms _ | mmz => exact mmz _ | mmak => exact mmak _ | mmag => exact mmag _
  | mld => exact mld _ _ _ | mst => exact mst _ _ | mzero => exact mzero _ _ | mcopy => exact mcopy _ _
  | mtrn => exact mtrn _ _ | mcommit => exact mcommit _ | mwait => exact mwait _ | mclrf => exact mclrf _ _
  | mstat => exact mstat _ _ | fmtw => exact fmtw _ _ | fmtr => exact fmtr _ _
  -- custom-3: row and lift words (R97)
  | vadd => exact vadd _ _ _ _ | vsub => exact vsub _ _ _ _ | vmul => exact vmul _ _ _ _ | vdiv => exact vdiv _ _ _ _
  | vfma => exact vfma _ _ _ _ | vmin => exact vmin _ _ _ _ | vmax => exact vmax _ _ _ _ | vsel => exact vsel _ _ _ _
  | vcmpEq => exact vcmpEq _ _ _ _ | vcmpLt => exact vcmpLt _ _ _ _ | vcmpLe => exact vcmpLe _ _ _ _
  | vperm => exact vperm _ _ _ _ | vmov => exact vmov _ _ _ | vneg => exact vneg _ _ _ | vabs => exact vabs _ _ _
  | vsqrt => exact vsqrt _ _ _ | vrsq => exact vrsq _ _ _ | vrcp => exact vrcp _ _ _ | vexp2 => exact vexp2 _ _ _
  | vlog2 => exact vlog2 _ _ _ | vtanh => exact vtanh _ _ _ | viadd => exact viadd _ _ _ _ | visub => exact visub _ _ _ _
  | vimul => exact vimul _ _ _ _ | vand => exact vand _ _ _ _ | vor => exact vor _ _ _ _ | vxor => exact vxor _ _ _ _
  | vshl => exact vshl _ _ _ _ | vsrl => exact vsrl _ _ _ _ | vsra => exact vsra _ _ _ _ | vimin => exact vimin _ _ _ _
  | vimax => exact vimax _ _ _ _ | vadds => exact vadds _ _ _ | vsubs => exact vsubs _ _ _ | vmuls => exact vmuls _ _ _
  | vmaxs => exact vmaxs _ _ _ | vmins => exact vmins _ _ _ | vbcast => exact vbcast _ _ _ | vext => exact vext _ _ _
  | vins => exact vins _ _ _ | viota => exact viota _ _ _ | vrsum => exact vrsum _ _ _ | vrmax => exact vrmax _ _ _
  | vrmin => exact vrmin _ _ _ | vcvt => exact vcvt _ _ _ _ | vqmx => exact vqmx _ _ _ _ | vld => exact vld _ _ _ _
  | vst => exact vst _ _ _ _ | vpfx => exact vpfx _ | lift => exact lift _ _ _ | lret => exact lret _
  | ltag => exact ltag _ _ | lred => exact lred _ _ _ | laxis => exact laxis _ _ | lbr => exact lbr _ _
  -- the base instruction set (R105)
  | baseLoad => exact baseLoad _ _ _ _ | baseStore => exact baseStore _ _ _ _ | amo => exact amo _ _ _ _ _ _ _
  | lr => exact lr _ _ _ _ _ | sc => exact sc _ _ _ _ _ _ | fence => exact fence _ _ _ _ _ | fenceI => exact fenceI _ _ _
  | ecall => exact ecall | ebreak => exact ebreak | wfi => exact wfi | sret => exact sret | mret => exact mret
  | sfenceVma => exact sfenceVma _ _ | csrAccess => exact csrAccess _ _ | integerOp => exact integerOp _
  | fdivFsqrt => exact fdivFsqrt _ | stcolWrite => exact stcolWrite _ | vrmWrite => exact vrmWrite _
  | mfmtWrite => exact mfmtWrite _ _ | mgangWrite => exact mgangWrite _ | satpWrite => exact satpWrite _
  | _ => exact fun _ _ noWord => by cases noWord

end Sys2Proof

open Sys2Proof Sys2Proof.Machine

/-- Settles O59: cut into bytes and put together again, the word of the instruction is itself, and decodes to it. -/
theorem encodedInstructionsDecode : Obligations.EncodedInstructionsDecode := by
  unfold Obligations.EncodedInstructionsDecode
  intro i w rest wf encoded
  exact decode_bytesOfWord (decodeWord_encode i w wf encoded) rest

/-- Settles O58: each word is a closed term that the decoder evaluates. -/
theorem workedWordsDecode : Obligations.WorkedWordsDecode := by
  unfold Obligations.WorkedWordsDecode
  decide
end

section
/-! PROOFS. The base integer, floating-point and control-transfer words (R100, R105, R402): values, targets and flags. -/

namespace Sys2Proof.Machine

/-! ### Integer words and control transfers -/

/-- An integer word whose effect is one write of x[rd]. -/
theorem exec_intWrites {s : State} {op : IntOp} {rd : Reg} {v : Word} (idle : s.me.waiting = none)
    (stays : intOpJumps op = false) (effect : s.intEffect op = .ok (s.setX rd v)) :
    exec (.integerOp op) s = .next (s.wrote rd v) := by
  rw [exec_intOpen stays effect, State.wrote_eq s idle]

/-- A jump that links: to an aligned target with x[rd] written, or the trap of cause 0 with nothing written. -/
theorem exec_intLinks {s : State} {op : IntOp} {rd : Reg} {target link : Word} (idle : s.me.waiting = none)
    (jumps : intOpJumps op = true)
    (effect : s.intEffect op = s.transfer target >>= fun t => pure (t.setX rd link)) :
    exec (.integerOp op) s = if target.toNat % 4 = 0 then .next (s.went target true rd link)
      else .next (s.takeTrap s.cur false 0 0 target) := by
  split
  next aligned =>
    rw [← State.went_eq s idle]
    exact exec_intJump jumps (by rw [effect, s.transfer_aligned target aligned]; rfl)
  next misaligned =>
    exact exec_intJump_trap idle jumps (by rw [effect, s.transfer_misaligned target misaligned]; rfl)

theorem exec_branch_taken {s : State} {c : BrCond} {rs1 rs2 : Reg} {i : BitVec 12} (idle : s.me.waiting = none)
    (taken : branchTaken c (s.x rs1) (s.x rs2) = true) :
    exec (.integerOp (.branch c rs1 rs2 i)) s =
      if (s.me.pc + immB i).toNat % 4 = 0 then .next (s.went (s.me.pc + immB i) true 0 0)
      else .next (s.takeTrap s.cur false 0 0 (s.me.pc + immB i)) := by
  have effect : s.intEffect (.branch c rs1 rs2 i) = s.transfer (s.me.pc + immB i) := if_pos taken
  split
  next aligned =>
    rw [← State.jumped_eq s idle]
    exact exec_intJump rfl (effect.trans (s.transfer_aligned _ aligned))
  next misaligned => exact exec_intJump_trap idle rfl (effect.trans (s.transfer_misaligned _ misaligned))

theorem exec_branch_passed {s : State} {c : BrCond} {rs1 rs2 : Reg} {i : BitVec 12} (idle : s.me.waiting = none)
    (passed : ¬ branchTaken c (s.x rs1) (s.x rs2) = true) :
    exec (.integerOp (.branch c rs1 rs2 i)) s = .next (s.went (s.me.pc + 4) false 0 0) := by
  rw [← State.passed_eq s idle]
  exact exec_intJump rfl (if_neg passed)

/-! ### The corners of the integer values -/

/-- The low `n` bits of a shift amount are what is left of it modulo 2 ^ n. -/
theorem toNat_and_low (b : Word) {n : Nat} (small : 2 ^ n - 1 < 2 ^ 64) :
    (b &&& BitVec.ofNat 64 (2 ^ n - 1)).toNat = b.toNat % 2 ^ n := by
  rw [BitVec.toNat_and, BitVec.toNat_ofNat, Nat.mod_eq_of_lt small, Nat.and_two_pow_sub_one_eq_mod]

/-- The product of two words as a natural number is its high word before its low one. -/
theorem mulhu_mul (a b : Word) : (aluVal .mulhu a b).toNat * 2 ^ 64 + (aluVal .mul a b).toNat = a.toNat * b.toNat := by
  have high : a.toNat * b.toNat / 2 ^ 64 < 2 ^ 64 :=
    Nat.div_lt_of_lt_mul (Nat.mul_lt_mul_of_lt_of_lt a.isLt b.isLt)
  have hi : (aluVal .mulhu a b).toNat = a.toNat * b.toNat / 2 ^ 64 := Nat.mod_eq_of_lt high
  have lo : (aluVal .mul a b).toNat = a.toNat * b.toNat % 2 ^ 64 := BitVec.toNat_mul a b
  rw [hi, lo]
  exact Nat.div_add_mod' _ _

/-- The product of two signed words lies well inside 128 bits, so that its high half is a signed word. -/
theorem toInt_mul_bounds (a b : Word) : -2 ^ 126 ≤ a.toInt * b.toInt ∧ a.toInt * b.toInt ≤ 2 ^ 126 := by
  have ha : |a.toInt| ≤ 2 ^ 63 := abs_le.mpr ⟨BitVec.le_toInt a, (BitVec.toInt_lt (x := a)).le⟩
  have hb : |b.toInt| ≤ 2 ^ 63 := abs_le.mpr ⟨BitVec.le_toInt b, (BitVec.toInt_lt (x := b)).le⟩
  have product : |a.toInt * b.toInt| ≤ 2 ^ 63 * 2 ^ 63 := by
    rw [abs_mul]
    exact mul_le_mul ha hb (abs_nonneg _) (by norm_num)
  rw [← pow_add] at product
  exact abs_le.mp product

theorem mulh_mul (a b : Word) : (aluVal .mulh a b).toInt * 2 ^ 64 + (aluVal .mul a b).toNat = a.toInt * b.toInt := by
  obtain ⟨least, most⟩ := toInt_mul_bounds a b
  have hi : (aluVal .mulh a b).toInt = a.toInt * b.toInt / 2 ^ 64 := by
    show (BitVec.ofInt 64 (a.toInt * b.toInt / 2 ^ 64)).toInt = _
    rw [BitVec.toInt_ofInt]
    exact Int.bmod_eq_of_le (by omega) (by omega)
  have lo : ((aluVal .mul a b).toNat : Int) = a.toInt * b.toInt % 2 ^ 64 := by
    have low : a * b = BitVec.ofInt 64 (a.toInt * b.toInt) := by
      rw [BitVec.ofInt_mul, BitVec.ofInt_toInt, BitVec.ofInt_toInt]
    show ((a * b).toNat : Int) = _
    rw [low, BitVec.toNat_ofInt]
    exact Int.toNat_of_nonneg (Int.emod_nonneg _ (by norm_num))
  rw [hi, lo]
  exact Int.ediv_mul_add_emod _ _

/-- The high half of a sign-extended word repeats its bit 31. -/
theorem signExtend_high (r : BitVec 32) :
    (r.signExtend 64).extractLsb' 32 32 = if (r.signExtend 64).getLsbD 31 then BitVec.allOnes 32 else 0 := by
  have sign : (r.signExtend 64).getLsbD 31 = r.msb := by
    rw [BitVec.getLsbD_signExtend, if_pos (by decide), BitVec.msb_eq_getLsbD_last]
    rfl
  apply BitVec.eq_of_getLsbD_eq
  intro i hi
  rw [sign, BitVec.getLsbD_extractLsb', BitVec.getLsbD_signExtend, if_neg (by omega)]
  cases r.msb with
  | false => simp
  | true =>
    rw [if_pos rfl, BitVec.getLsbD_allOnes]
    simp only [hi, show 32 + i < 64 by omega, decide_true, Bool.and_true]

/-! ### Floating-point words -/

/-- With FS on, the check of FS leaves the rest of an effect. -/
theorem State.needFs_then {A : Type} {s : State} (on : fsOf s.me.sys.mstatus ≠ 0) (k : Unit → Except Exc A) :
    (s.needFs >>= k) = k () := by
  rw [s.needFs_on on]
  rfl

/-- With a legal rounding mode, the effect goes on in that mode. -/
theorem State.baseRm_then {A : Type} {s : State} {rm : BitVec 3} {r : Nat} (legal : s.baseRm rm = .ok r)
    (k : Nat → Except Exc A) : (s.baseRm rm >>= k) = k r := by
  rw [legal]
  rfl

end Sys2Proof.Machine

open Sys2Proof Sys2Proof.Machine

/-- Settles O1: the effect of each form is one write of x[rd]. -/
theorem integerWordsWriteTheirResult : Obligations.IntegerWordsWriteTheirResult := by
  unfold Obligations.IntegerWordsWriteTheirResult
  intro s idle
  refine ⟨?alu, ?aluW, ?aluI, ?addiw, ?shiftI, ?shiftIW, ?lui, ?auipc⟩
  all_goals intros; exact exec_intWrites idle rfl rfl

/-- Settles O2: the products are put together from quotient and remainder by 2 ^ 64; the rest is read off the values. -/
theorem integerCornersAreTheStandardOnes : Obligations.IntegerCornersAreTheStandardOnes := by
  unfold Obligations.IntegerCornersAreTheStandardOnes
  refine ⟨fun a => ⟨rfl, rfl, rfl, rfl⟩, ⟨by decide, by decide⟩, fun a b => ?shifts, mulhu_mul, mulh_mul,
    fun op a b => signExtend_high _⟩
  have six : (b &&& 63).toNat = b.toNat % 64 := toNat_and_low (n := 6) b (by decide)
  refine ⟨?sll, ?sra, ?sllw⟩
  case sll => simp only [aluVal, six, Nat.mod_mod]
  case sra => simp only [aluVal, six, Nat.mod_mod]
  case sllw =>
    have five : (b &&& 31).toNat = b.toNat % 32 := toNat_and_low (n := 5) b (by decide)
    have amount : ((b &&& 31).setWidth 32).toNat % 32 = (b.setWidth 32).toNat % 32 := by
      rw [BitVec.toNat_setWidth, BitVec.toNat_setWidth, five]
      omega
    simp only [aluWVal, amount]

/-- Settles O3: a transfer is taken by `State.transfer`, which looks at the alignment of the target. -/
theorem controlTransfersReachTheirTarget : Obligations.ControlTransfersReachTheirTarget := by
  unfold Obligations.ControlTransfersReachTheirTarget
  intro s idle
  refine ⟨fun rd i => exec_intLinks idle rfl rfl, fun rd rs1 i => exec_intLinks idle rfl rfl, fun c rs1 rs2 i => ?branch⟩
  case branch =>
    split
    next taken => exact exec_branch_taken idle taken
    next passed => exact exec_branch_passed idle passed

/-- Settles O4: with FS on and a legal mode the two checks of each word pass, and its effect is the one named. -/
theorem floatingPointWordsRoundTheExactResult : Obligations.FloatingPointWordsRoundTheExactResult := by
  unfold Obligations.FloatingPointWordsRoundTheExactResult
  intro s d rd rs1 rs2 rs3 rm r _ on legal
  refine ⟨fun op => ?fma, fun op => ?fArith, ?fdiv, ?fsqrt, ?fToF, fun ty => ?intToF, fun ty => ?fToInt, fun op => ?fSgnj,
    fun mx => ?fMinMax, fun op => ?fCmp, ?fClass, ?fmvToX, ?fmvToF⟩
  case fdiv | fsqrt =>
    exact (exec_fdivFsqrt s).trans (runOpen_ok ((State.needFs_then on _).trans (State.baseRm_then legal _)))
  case fma | fArith | fToF | intToF | fToInt =>
    exact exec_intOpen rfl ((State.needFs_then on _).trans (State.baseRm_then legal _))
  case fSgnj | fMinMax | fCmp | fClass | fmvToX | fmvToF => exact exec_intOpen rfl (State.needFs_then on _)
end

section
/-! PROOFS. Traps, returns, store-conditionals and flushes of the base (R61, R71, R98, R105, R119, R146, R403). -/

namespace Sys2Proof.Machine

/-! ### Modes -/

/-- A word that M mode may run, and S mode while this bit of the status is off, is not the one that the bit bars. -/
theorem not_barred {mode : Mode} {bit : Nat} (may : mode = .m ∨ mode = .s ∧ bit = 0) :
    ¬ (mode = .u ∨ mode = .s ∧ bit = 1) := by
  rcases may with rfl | ⟨rfl, rfl⟩ <;> simp

theorem not_user {mode : Mode} {p : Prop} (may : mode = .m ∨ mode = .s ∧ p) : mode ≠ .u := by
  rcases may with rfl | ⟨rfl, _⟩ <;> decide

/-- Outside U mode no end of a task is due. -/
theorem State.noEnd_above (s : State) (mode : s.me.mode ≠ .u) : s.noEnd := s.noEnd_outside (s.inRegion_mode s.cur mode)

/-! ### Words that end in their trap -/

/-- A word in no wait whose effect is a trap takes it. -/
theorem runOpen_traps {s : State} (idle : s.me.waiting = none) (i : Instr) {body : State → Except Exc State}
    {cause sub : Nat} {tval : Word} (trap : body s = .error (.trap cause sub tval)) :
    runOpen i s body = .next (s.takeTrap s.cur false cause sub tval) := by
  rw [runOpen_error trap (by simp), State.finish_trap s idle]

theorem runOpen_illegal {s : State} (idle : s.me.waiting = none) (i : Instr) {body : State → Except Exc State}
    (illegal : body s = .error .illegal) : runOpen i s body = .next (s.takeTrap s.cur false 2 0 (wordOfInstr i)) := by
  rw [runOpen_error illegal (by simp), State.finish_illegal s idle]

theorem runJump_illegal {s : State} (idle : s.me.waiting = none) (i : Instr) {body : State → Except Exc State}
    (illegal : body s = .error .illegal) : runJump i s body = .next (s.takeTrap s.cur false 2 0 (wordOfInstr i)) := by
  rw [runJump_error illegal (by simp), State.finish_illegal s idle]

/-- Firmware calls are made from S mode alone (R159). -/
theorem State.fwNumber_none {s : State} (mode : s.me.mode ≠ .s) : s.fwNumber = none := by
  simp [State.fwNumber, mode]

theorem exec_ecall_traps {s : State} (idle : s.me.waiting = none) (mode : s.me.mode ≠ .s) :
    exec .ecall s = .next (s.takeTrap s.cur false (ecallCause s.me.mode) 0 0) := by
  rw [exec_ecall, execEcall]
  exact runOpen_traps idle .ecall (by rw [State.fwNumber_none mode])

/-! ### Returns -/

theorem Hart.sret_freeOnSret (x : Hart) : x.sret.freeOnSret = x.freeOnSret := rfl

theorem exec_sret_returns {s : State} (may : s.me.mode = .m ∨ s.me.mode = .s ∧ bits s.me.sys.mstatus 22 1 = 0)
    (held : s.me.freeOnSret = false) : exec .sret s = .next (s.modMe fun x => x.sret).openAtReturn.retire := by
  have kept : ¬ (s.modMe fun x => x.sret).me.freeOnSret = true := by
    rw [State.me_modMe, Hart.sret_freeOnSret, held]
    decide
  rw [exec_sret, execSret]
  exact runJump_ok (by rw [if_neg (not_barred may)]; exact if_neg kept)

theorem exec_mret_returns {s : State} (mode : s.me.mode = .m) :
    exec .mret s = .next (s.modMe fun x => x.mret).openAtReturn.retire := by
  rw [exec_mret, execMret]
  exact runJump_ok (if_neg (by simp [mode]))

theorem exec_sret_user {s : State} (idle : s.me.waiting = none) (mode : s.me.mode = .u) :
    exec .sret s = .next (s.takeTrap s.cur false 2 0 (wordOfInstr .sret)) := by
  rw [exec_sret, execSret]
  exact runJump_illegal idle .sret (if_pos (.inl mode))

theorem exec_mret_below {s : State} (idle : s.me.waiting = none) (mode : s.me.mode ≠ .m) :
    exec .mret s = .next (s.takeTrap s.cur false 2 0 (wordOfInstr .mret)) := by
  rw [exec_mret, execMret]
  exact runJump_illegal idle .mret (if_pos mode)

/-- A field is below the power of two of its length. -/
theorem bits_mod (w : Word) (lo len : Nat) : bits w lo len % 2 ^ len = bits w lo len := Nat.mod_mod _ _

/-- SIE comes back from SPIE. -/
theorem Hart.sret_enable (x : Hart) : bits x.sret.sys.mstatus 1 1 = bits x.sys.mstatus 5 1 := by
  show bits (setBits (setBits (setBits (setBits x.sys.mstatus 1 1 (bits x.sys.mstatus 5 1)) 5 1 1) 8 1 0) 17 1 0) 1 1 = _
  rw [bits_setBits_other _ 17 _ _ _ _ (by decide), bits_setBits_other _ 8 _ _ _ _ (by decide),
    bits_setBits_other _ 5 _ _ _ _ (by decide), bits_setBits_same _ _ _ _ (by decide), bits_mod]

/-- MIE comes back from MPIE, whether MPRV is cleared or not. -/
theorem Hart.mret_enable (x : Hart) : bits x.mret.sys.mstatus 3 1 = bits x.sys.mstatus 7 1 := by
  have restored : bits (setBits (setBits (setBits x.sys.mstatus 3 1 (bits x.sys.mstatus 7 1)) 7 1 1) 11 2 0) 3 1 =
      bits x.sys.mstatus 7 1 := by
    rw [bits_setBits_other _ 11 _ _ _ _ (by decide), bits_setBits_other _ 7 _ _ _ _ (by decide),
      bits_setBits_same _ _ _ _ (by decide), bits_mod]
  simp only [Hart.mret]
  split
  next => exact restored
  next => rw [bits_setBits_other _ 17 _ _ _ _ (by decide), restored]

/-! ### Store-conditionals -/

/-- The end of an `sc` takes no task off the hart. -/
theorem State.scEnd_task (u : State) (rd : Reg) (v : Word) :
    ((u.modMe fun x => { x with resv := none }).setX rd v).me.task = u.me.task := by
  rw [State.setX_task, State.me_modMe]

/-- The test of the reservation, as `sc` makes it after its address is resolved (R403). -/
theorem exec_sc_tested {s v : State} {d aq rl won : Bool} {rd rs1 rs2 : Reg} {ls : List (Loc × Nat)} (starts : s.starts)
    (noEnd : s.closedKeeping.noEnd) (outside : inWindows (s.closedKeeping.x rs1) = false)
    (resolved : resolve s.closedKeeping (s.closedKeeping.view .store) .store (s.closedKeeping.x rs1) (if d then 8 else 4)
      (if d then 8 else 4) = .ok (v, ls))
    (test : v.me.resv.any (fun r => r.addr == s.closedKeeping.x rs1 && r.width == if d then 8 else 4) = won) :
    exec (.sc d aq rl rd rs1 rs2) s = .next (((if won then performUnits v (some v.cur) (v.partOf (clusterOf v.cur)) ls
      (leBytes (if d then 8 else 4) (v.x rs2).toNat) else v).modMe fun x => { x with resv := none }).setX rd
        (if won then 0 else 1)).goesOn := by
  refine (exec_sc s).trans (runClosing_keep_ok starts.1 rfl noEnd ?effect (.inl ?task))
  case effect =>
    dsimp only
    rw [outside, Bool.and_false, if_neg (by decide), resolved, ← test]
    simp only [bind, Except.bind, pure, Except.pure]
    cases v.me.resv <;> rfl
  case task =>
    have kept := (resolve_touched _ _ _ _ _ _ _ _ resolved).keeps.task
    rw [State.scEnd_task]
    cases won with
    | false => exact kept
    | true => exact (performUnits_task ..).trans kept

/-! ### Waits and flushes -/

/-- `wfi` where it may run goes on when an enabled interrupt is pending. -/
theorem exec_wfi_goesOn {s : State} (may : s.me.mode = .m ∨ s.me.mode = .s ∧ bits s.me.sys.mstatus 21 1 = 0)
    (on : s.mipOf s.cur &&& s.me.sys.mie ≠ 0) : exec .wfi s = .next s.complete := by
  rw [exec_wfi, execWfi]
  exact runOpen_ok (by rw [if_neg (not_barred may), if_neg on])

/-- Without one it waits at its place. -/
theorem exec_wfi_waits {s : State} (may : s.me.mode = .m ∨ s.me.mode = .s ∧ bits s.me.sys.mstatus 21 1 = 0)
    (quiet : s.mipOf s.cur &&& s.me.sys.mie = 0) : exec .wfi s =
      .next (s.modMe fun x => { x with waiting := some { instr := .wfi, kind := .long, reply := none } }) := by
  rw [exec_wfi, execWfi, ← State.finish_wait s .wfi .long (.inr (s.noEnd_above (not_user may)))]
  exact runOpen_error (by rw [if_neg (not_barred may), if_pos quiet]) (by simp)

/-- The regions that hold stores made through what a flush of these clusters removes (R61). -/
def State.flushThrough (s : State) (f : Flush) (cs : List Nat) : List (Word × BitVec 16 × BitVec 8) :=
  cs.flatMap fun c => s.regionsThrough c f.hitsTlb fun _ r => f.hitsRun r

/-- A flush that no store keeps open is made at once. -/
theorem State.flushWait_made {s : State} {f : Flush} {cs : List Nat} {flush : State → State} (idle : s.me.waiting = none)
    (free : s.flushThrough f cs = []) : s.flushWait f cs flush = .ok (flush s) := by
  rw [State.flushThrough] at free
  simp only [State.flushWait, idle, free]
  rfl

/-- A flush that some stores keep open is made, and the hart waits for their regions. -/
theorem State.flushWait_held {s : State} {f : Flush} {cs : List Nat} {flush : State → State} (idle : s.me.waiting = none)
    (busy : s.flushThrough f cs ≠ []) :
    s.flushWait f cs flush = .error (.hold (flush s) (.flushing (s.flushThrough f cs))) := by
  have some_ : (s.flushThrough f cs).isEmpty = false := by simpa using busy
  rw [State.flushThrough] at some_
  simp only [State.flushWait, idle, some_]
  rfl

/-- When the regions it waited for hold no store any more, a flush is complete. -/
theorem State.flushWait_drained {s : State} {i : Instr} {f : Flush} {cs : List Nat} {flush : State → State}
    {l : List (Word × BitVec 16 × BitVec 8)}
    (waits : s.me.waiting = some { instr := i, kind := .flushing l, reply := none }) (drained : s.regionsOpen l = false) :
    s.flushWait f cs flush = .ok s := by
  simp only [State.flushWait, waits, drained]
  rfl

/-- What `sfence.vma` matches, by its operands (R61). -/
def State.sfenceFlush (s : State) (rs1 rs2 : Reg) : Flush :=
  { page := if rs1 = 0 then none else some ((s.x rs1).toNat % 2 ^ 57 / 4096)
    asid := if rs2 = 0 then none else some ((s.x rs2).setWidth 16)
    global := false }

/-- The clusters that `sfence.vma` reaches: those of the hart's partition, or its own where there is none (R61). -/
def State.sfenceClusters (s : State) : List Nat :=
  match s.partOf (clusterOf s.cur) with
  | some p => s.clustersOf p
  | none => [clusterOf s.cur]

/-- `sfence.vma` where it may run is the flush of its clusters. -/
theorem execSfenceVma_may {s : State} (may : s.me.mode = .m ∨ s.me.mode = .s ∧ bits s.me.sys.mstatus 20 1 = 0)
    (rs1 rs2 : Reg) : execSfenceVma rs1 rs2 s = runOpen (.sfenceVma rs1 rs2) s fun s => s.flushWait (s.sfenceFlush rs1 rs2)
      s.sfenceClusters fun t => flushClusters t (s.sfenceFlush rs1 rs2) s.sfenceClusters := by
  simp only [execSfenceVma, runOpen, State.attempt, if_neg (not_barred may)]
  rfl

theorem exec_sfenceVma_user {s : State} (idle : s.me.waiting = none) (mode : s.me.mode = .u) (rs1 rs2 : Reg) :
    exec (.sfenceVma rs1 rs2) s = .next (s.takeTrap s.cur false 2 0 (wordOfInstr (.sfenceVma rs1 rs2))) := by
  rw [exec_sfenceVma, execSfenceVma]
  exact runOpen_illegal idle _ (if_pos (.inl mode))

theorem exec_sfenceVma_made {s : State} {rs1 rs2 : Reg} (idle : s.me.waiting = none)
    (may : s.me.mode = .m ∨ s.me.mode = .s ∧ bits s.me.sys.mstatus 20 1 = 0)
    (free : s.flushThrough (s.sfenceFlush rs1 rs2) s.sfenceClusters = []) :
    exec (.sfenceVma rs1 rs2) s = .next (flushClusters s (s.sfenceFlush rs1 rs2) s.sfenceClusters).complete := by
  rw [exec_sfenceVma, execSfenceVma_may may]
  exact runOpen_ok (State.flushWait_made idle free)

theorem exec_sfenceVma_held {s : State} {rs1 rs2 : Reg} (idle : s.me.waiting = none)
    (may : s.me.mode = .m ∨ s.me.mode = .s ∧ bits s.me.sys.mstatus 20 1 = 0)
    (busy : s.flushThrough (s.sfenceFlush rs1 rs2) s.sfenceClusters ≠ []) :
    exec (.sfenceVma rs1 rs2) s = .next ((flushClusters s (s.sfenceFlush rs1 rs2) s.sfenceClusters).modMe fun x =>
      { x with waiting := some { instr := .sfenceVma rs1 rs2, reply := none,
                                 kind := .flushing (s.flushThrough (s.sfenceFlush rs1 rs2) s.sfenceClusters) } }) := by
  rw [exec_sfenceVma, execSfenceVma_may may, ← State.finish_hold s _ _ _ (.inr (s.noEnd_above (not_user may)))]
  exact runOpen_error (State.flushWait_held idle busy) (by simp)

theorem exec_sfenceVma_drained {s : State} {rs1 rs2 : Reg} {l : List (Word × BitVec 16 × BitVec 8)}
    (may : s.me.mode = .m ∨ s.me.mode = .s ∧ bits s.me.sys.mstatus 20 1 = 0)
    (waits : s.me.waiting = some { instr := .sfenceVma rs1 rs2, kind := .flushing l, reply := none })
    (drained : s.regionsOpen l = false) : exec (.sfenceVma rs1 rs2) s = .next s.complete := by
  rw [exec_sfenceVma, execSfenceVma_may may]
  exact runOpen_ok (State.flushWait_drained waits drained)

/-- What `xflush` matches, by its operands (R146). -/
def State.xflushFlush (s : State) (rs1 rs2 : Reg) : Flush :=
  { page := if bits (s.x rs2) 17 1 == 1 then none else some ((s.x rs1).toNat % 2 ^ 57 / 4096)
    asid := if bits (s.x rs2) 16 1 = 1 then none else some ((s.x rs2).setWidth 16)
    global := true }

/-- The effect of `xflush`: the flush of its cluster, or none for a non-canonical address. -/
def State.xflushEffect (s : State) (rs1 rs2 : Reg) : Except Exc State :=
  if bits (s.x rs2) 17 1 == 1 || canonical (s.x rs1) then
    s.flushWait (s.xflushFlush rs1 rs2) [clusterOf s.cur] fun t => t.flushCluster (clusterOf s.cur) (s.xflushFlush rs1 rs2)
  else .ok s

/-- Outside U mode `xflush` has no region to close before its effect. -/
theorem exec_xflush_above {s : State} (mode : s.me.mode ≠ .u) (rs1 rs2 : Reg) :
    exec (.xflush rs1 rs2) s = runClosing false (.xflush rs1 rs2) s fun s => s.xflushEffect rs1 rs2 := by
  rw [exec_xflush, execXflush, if_neg mode]
  rfl

theorem exec_xflush_user {s : State} (idle : s.me.waiting = none) (mode : s.me.mode = .u) (rs1 rs2 : Reg) :
    exec (.xflush rs1 rs2) s = .next (s.takeTrap s.cur false 2 0 (wordOfInstr (.xflush rs1 rs2))) := by
  rw [exec_xflush, execXflush, if_pos mode, State.finish_illegal s idle]

theorem exec_xflush_ok {s t : State} {rs1 rs2 : Reg} (idle : s.me.waiting = none) (mode : s.me.mode ≠ .u)
    (effect : s.xflushEffect rs1 rs2 = .ok t) (kept : t.me.mode = s.me.mode) :
    exec (.xflush rs1 rs2) s = .next t.complete := by
  have closed := s.closed_outside (s.inRegion_mode s.cur mode)
  have above : t.me.mode ≠ .u := kept ▸ mode
  rw [exec_xflush_above mode, ← State.goesOn_mode t above]
  exact runClosing_ok idle rfl (by rw [closed]; exact s.noEnd_above mode) (by rw [closed]; exact effect) (.inr above)

theorem exec_xflush_made {s : State} {rs1 rs2 : Reg} (idle : s.me.waiting = none) (mode : s.me.mode ≠ .u)
    (matching : (bits (s.x rs2) 17 1 == 1 || canonical (s.x rs1)) = true)
    (free : s.flushThrough (s.xflushFlush rs1 rs2) [clusterOf s.cur] = []) :
    exec (.xflush rs1 rs2) s = .next (s.flushCluster (clusterOf s.cur) (s.xflushFlush rs1 rs2)).complete :=
  exec_xflush_ok idle mode ((if_pos matching).trans (State.flushWait_made idle free)) rfl

theorem exec_xflush_held {s : State} {rs1 rs2 : Reg} (idle : s.me.waiting = none) (mode : s.me.mode ≠ .u)
    (matching : (bits (s.x rs2) 17 1 == 1 || canonical (s.x rs1)) = true)
    (busy : s.flushThrough (s.xflushFlush rs1 rs2) [clusterOf s.cur] ≠ []) :
    exec (.xflush rs1 rs2) s = .next ((s.flushCluster (clusterOf s.cur) (s.xflushFlush rs1 rs2)).modMe fun x =>
      { x with waiting := some { instr := .xflush rs1 rs2, reply := none,
                                 kind := .flushing (s.flushThrough (s.xflushFlush rs1 rs2) [clusterOf s.cur]) } }) := by
  have closed := s.closed_outside (s.inRegion_mode s.cur mode)
  have effect : s.closed.xflushEffect rs1 rs2 = .error (.hold (s.flushCluster (clusterOf s.cur) (s.xflushFlush rs1 rs2))
      (.flushing (s.flushThrough (s.xflushFlush rs1 rs2) [clusterOf s.cur]))) := by
    rw [closed]
    exact (if_pos matching).trans (State.flushWait_held idle busy)
  have quiet : s.closed.noEnd := by
    rw [closed]
    exact s.noEnd_above mode
  rw [exec_xflush_above mode, runClosing_error idle rfl quiet effect (by simp), closed,
    State.finish_hold s _ _ _ (.inr (s.noEnd_above mode))]

theorem exec_xflush_misses {s : State} {rs1 rs2 : Reg} (idle : s.me.waiting = none) (mode : s.me.mode ≠ .u)
    (matching : (bits (s.x rs2) 17 1 == 1 || canonical (s.x rs1)) = false) :
    exec (.xflush rs1 rs2) s = .next s.complete :=
  exec_xflush_ok idle mode (if_neg (Bool.eq_false_iff.mp matching)) rfl

end Sys2Proof.Machine

open Sys2Proof Sys2Proof.Machine

/-- Settles O11: the effect of `sc` is the test of the reservation, whose two answers are the two cases. -/
theorem storeConditionalTestsTheReservation : Obligations.StoreConditionalTestsTheReservation := by
  unfold Obligations.StoreConditionalTestsTheReservation
  intro s v d aq rl rd rs1 rs2 ls starts noEnd outside resolved
  refine ⟨fun ⟨l, mine⟩ => ?won, fun other => ?lost⟩
  case won => exact exec_sc_tested (won := true) starts noEnd outside resolved (by simp [mine])
  case lost =>
    refine exec_sc_tested (won := false) starts noEnd outside resolved ?test
    cases found : v.me.resv with
    | none => rfl
    | some r => rcases other r found with addr | width <;> simp [*]

/-- Settles O13: the effect of each word is its trap, which a hart in no wait takes. -/
theorem trappingWordsTakeTheirTrap : Obligations.TrappingWordsTakeTheirTrap := by
  unfold Obligations.TrappingWordsTakeTheirTrap
  intro s idle
  refine ⟨fun w => ?illegal, ?ebreak, fun user => ?ecallUser, fun machine => ?ecallMachine⟩
  case illegal => exact (exec_illegalInstruction s).trans (runOpen_illegal idle (.illegalInstruction w) rfl)
  case ebreak => exact (exec_ebreak s).trans (runOpen_traps idle .ebreak rfl)
  case ecallUser => rw [exec_ecall_traps idle (by simp [user]), user, ecallCause]
  case ecallMachine => rw [exec_ecall_traps idle (by simp [machine]), machine, ecallCause]

/-- Settles O16: the effect of a return is `Hart.sret` or `Hart.mret`, and the check of the mode before it. -/
theorem returnsRestoreTheSavedState : Obligations.ReturnsRestoreTheSavedState := by
  unfold Obligations.ReturnsRestoreTheSavedState
  intro s idle
  refine ⟨exec_sret_returns, exec_mret_returns,
    fun user => ⟨exec_sret_user idle user, exec_mret_below idle (by simp [user])⟩,
    fun supervisor => exec_mret_below idle (by simp [supervisor]),
    fun x => ⟨rfl, rfl, rfl, rfl, rfl, rfl, x.sret_enable, x.mret_enable⟩⟩

/-- Settles O17: `wfi` looks at the pending interrupts; a flush is made at once, and its hart goes on when no region holds
stores that it must wait for. -/
theorem waitAndFlushesOfThePrivilegedModes : Obligations.WaitAndFlushesOfThePrivilegedModes := by
  unfold Obligations.WaitAndFlushesOfThePrivilegedModes
  intro through holds mayFence
  refine ⟨fun s starts => ?idle, fun s rs1 rs2 l may waits drained => exec_sfenceVma_drained may waits drained⟩
  have idle := starts.1
  refine ⟨fun may => ⟨exec_wfi_goesOn may, fun quiet => ⟨_, exec_wfi_waits may quiet, ?wfiPc, ?wfiWait⟩⟩,
    fun may rs1 rs2 => ⟨exec_sfenceVma_made idle may, exec_sfenceVma_held idle may⟩,
    fun mode rs1 rs2 matches_ => ⟨exec_xflush_made idle mode ?matching, exec_xflush_held idle mode ?matching⟩,
    fun mode rs1 rs2 address page => exec_xflush_misses idle mode (by simp [address, page]),
    fun mode rs1 rs2 => ⟨exec_sfenceVma_user idle mode rs1 rs2, exec_xflush_user idle mode rs1 rs2⟩⟩
  case wfiPc => rw [State.me_modMe]
  case wfiWait => rw [State.me_modMe]
  case matching => rcases matches_ with address | all <;> simp [*]
end

section
/-! PROOFS. The step (R98 to R101, R116, R120, R397): which move comes next, and what the step makes of it. -/

namespace Sys2Proof.Machine

/-! ### The step by its move -/

/-- The step is one execution of `i` from `u`: it goes on to the next hart, or stops as the instruction does. -/
def State.stepRuns (s u : State) (i : Instr) : Prop :=
  (∀ t, exec i u = .next t → step s = .next t.advance) ∧ (∀ f, exec i u = .fault f → step s = .fault f) ∧
    ∀ r, exec i u = .refused r → step s = .refused r

theorem step_of_slot {s u : State} {i : Instr} (runs : s.halted = false) (move : s.clockTick.nextMove = (u, .slot i)) :
    s.stepRuns u i := by
  refine ⟨fun t h => ?_, fun f h => ?_, fun r h => ?_⟩
  all_goals simp only [step, runs, move, h, Bool.false_eq_true, if_false]

theorem step_of_event {s u : State} {i : Instr} (runs : s.halted = false) (move : s.clockTick.nextMove = (u, .event i)) :
    step s = exec i u := by
  rw [step, if_neg (by simp [runs]), move]

/-! ### The move -/

/-- Without a schedule, at an even count, the oldest event in flight moves. -/
theorem State.nextMove_event {c : State} {i : Instr} {r : List Instr} (free : c.turns = []) (even : c.clock % 2 = 0)
    (whole : c.me.midPair = false) (oldest : c.pending = i :: r) : c.nextMove = ({ c with pending := r }, .event i) := by
  simp only [State.nextMove, whole, free, even, State.takeEvent, oldest]
  rfl

/-- Else the slot of the acting hart moves; between the words of a pair it does so in any case (R101). -/
theorem State.nextMove_slot {c : State} (free : c.turns = [])
    (slot : c.me.midPair = true ∨ c.pending = [] ∨ c.clock % 2 = 1) : c.nextMove = c.slotMove := by
  by_cases pair : c.me.midPair = true
  · rw [State.nextMove, if_pos pair]
  · have no : (if c.clock % 2 = 0 then c.takeEvent 0 else none) = none := by
      rcases slot.resolve_left pair with none_ | odd
      · simp [State.takeEvent, none_]
      · rw [if_neg (by omega)]
    simp only [State.nextMove, if_neg pair, free, no]

/-- The acting hart is in rotation, in service, and not about to be brought to a halt. -/
structure State.Acts (c : State) : Prop where
  moving : c.me.stopped = false
  inService : c.me.inService = true
  unhalted : c.haltAt c.cur = none

/-- The hart is at no boundary at which it has an interrupt to take (R120). -/
def State.Calm (c : State) : Prop := c.me.interruptible = true → c.interruptFor c.cur = none

theorem State.Calm.eq_false {c : State} (calm : c.Calm) :
    (c.me.interruptible && (c.interruptFor c.cur).isSome) = false := by
  cases boundary : c.me.interruptible with
  | false => rfl
  | true => rw [calm boundary]; rfl

theorem State.slotMove_interrupt {c : State} (acts : c.Acts) (boundary : c.me.interruptible = true)
    (due : (c.interruptFor c.cur).isSome = true) : c.slotMove = (c, .slot (.interruptTake c.cur)) := by
  simp [State.slotMove, acts.moving, acts.inService, acts.unhalted, boundary, due]

/-- A hart in a wait tries its instruction again, unless a page holds it (R117, R401): `off` picks the other branch. -/
theorem State.slotMove_waiting {c : State} {w : Wait} (acts : c.Acts) (calm : c.Calm) (waits : c.me.waiting = some w)
    (off : ∀ r q, w.kind ≠ .page r q) : c.slotMove = (c, .slot w.instr) := by
  simp only [State.slotMove, acts.moving, acts.inService, acts.unhalted, calm.eq_false, waits, Bool.not_true, Bool.or_self,
    Bool.false_eq_true, if_false]

/-- A hart of U mode without a task looks for one (R157). -/
theorem State.slotMove_dispatch {c : State} (acts : c.Acts) (calm : c.Calm) (idle : c.me.waiting = none)
    (mode : c.me.mode = .u) (free : c.me.task = none) : c.slotMove = (c, .slot (.taskDispatch c.cur)) := by
  simp only [State.slotMove, acts.moving, acts.inService, acts.unhalted, calm.eq_false, idle, mode, free]
  rfl

/-- Any other hart runs the word at its pc (R99). -/
theorem State.slotMove_fetch {c u : State} {w : W32} {a : Nat} (acts : c.Acts) (calm : c.Calm) (idle : c.me.waiting = none)
    (works : c.me.mode ≠ .u ∨ c.me.task ≠ none) (fetched : c.popStack.fetchWord = .ok (u, w, a)) :
    c.slotMove = (u, .slot (u.instrOf w a)) := by
  have busy : ¬ (c.me.mode = .u ∧ c.me.task = none) := fun ⟨mode, free⟩ => works.elim (· mode) (· free)
  simp only [State.slotMove, acts.moving, acts.inService, acts.unhalted, calm.eq_false, idle, if_neg busy, fetched]
  rfl

/-! ### The instruction of a fetched word (R98, R100) -/

theorem State.instrOf_refused {w : W32} {e : Reject} (u : State) (a : Nat) (refused : decodeWord w = .error e) :
    u.instrOf w a = .illegalInstruction w := by
  rw [State.instrOf, refused]

/-- A control transfer has reached a row word past its `vpfx` (R100). -/
def State.pastPrefix (u : State) (w : W32) (a : Nat) : Bool :=
  u.me.jumped && isRowWord w && u.me.pc.toNat % 64 != 0 &&
    isPfxWord (BitVec.ofNat 32 (leNat (u.ownUnits [({ pa := a - 4, gpa := 0, window := false, free := false }, 4)])))

theorem State.instrOf_listed {w : W32} {i : Instr} (u : State) (a : Nat) (listed : decodeWord w = .ok i) :
    u.instrOf w a = if u.pastPrefix w a then .illegalInstruction w else i := by
  rw [State.instrOf, listed]
  rfl

/-! ### A package that stands still (R397) -/

theorem step_halted {s : State} (halted : s.halted = true) :
    (s.pending.contains .deviceReset = false → step s = .fault .packageStopped) ∧
    (s.pending.contains .deviceReset = true →
      step s = exec .deviceReset { s with pending := s.pending.erase .deviceReset }) := by
  rw [step, if_pos halted]
  exact ⟨fun none_ => if_neg (Bool.eq_false_iff.mp none_), fun reset => if_pos reset⟩

end Sys2Proof.Machine

open Sys2Proof Sys2Proof.Machine

/-- Settles O57: the move of a step is the oldest event or the slot of the acting hart, and the slot is an interrupt, the
instruction of a wait, a dispatch, or the instruction of the fetched word. -/
theorem stepRunsTheDecodedInstruction : Obligations.StepRunsTheDecodedInstruction := by
  unfold Obligations.StepRunsTheDecodedInstruction
  refine ⟨fun s runs free => ⟨?event, ?slot⟩, fun s halted => step_halted halted⟩
  case event =>
    intro i r even whole oldest
    exact step_of_event runs (State.nextMove_event free even whole oldest)
  case slot =>
    intro slot moving service unhalted
    have acts : s.clockTick.Acts := ⟨moving, service, unhalted⟩
    have move := State.nextMove_slot (c := s.clockTick) free slot
    refine ⟨fun boundary due => step_of_slot runs (move.trans (State.slotMove_interrupt acts boundary due)), fun calm =>
      ⟨fun w waits off => step_of_slot runs (move.trans (State.slotMove_waiting acts calm waits off)), fun idle =>
        ⟨fun mode free => step_of_slot runs (move.trans (State.slotMove_dispatch acts calm idle mode free)), ?fetch⟩⟩⟩
    intro works u w a fetched
    have ran := step_of_slot runs (move.trans (State.slotMove_fetch acts calm idle works fetched))
    refine ⟨fun e refused => ?refused, fun i listed => ⟨fun past => ?listed, fun past => ?past⟩⟩
    case refused => rwa [State.instrOf_refused u a refused] at ran
    case listed => rwa [State.instrOf_listed u a listed, State.pastPrefix, past, if_neg (by decide)] at ran
    case past => rwa [State.instrOf_listed u a listed, State.pastPrefix, past, if_pos rfl] at ran
end

section
/-! PROOFS. Trap entry and the commit point before it (R119, R129, R350), and floating-point words with FS Off (R402). -/

namespace Sys2Proof.Machine

/-! ### Words that FS Off makes illegal -/

/-- With FS Off, an effect that checks FS first is the illegal instruction. -/
theorem State.needFs_stops {A : Type} {s : State} (off : fsOf s.me.sys.mstatus = 0) (k : Unit → Except Exc A) :
    (s.needFs >>= k) = .error .illegal := by
  rw [s.needFs_off off]
  rfl

/-- The words of the F and D extensions among the fixed-latency ones: arithmetic, sign injection, minimum and maximum,
comparison, classification, conversions and moves (R105). -/
def intOpFloats : IntOp → Bool
  | .fma .. | .fArith .. | .fSgnj .. | .fMinMax .. | .fCmp .. | .fClass .. | .fToInt .. | .intToF .. | .fToF ..
  | .fmvToX .. | .fmvToF .. => true
  | _ => false

/-- While FS is Off, all of them are the illegal instruction (R402). -/
theorem exec_floatOp_off {s : State} {op : IntOp} (idle : s.me.waiting = none) (off : fsOf s.me.sys.mstatus = 0)
    (floats : intOpFloats op = true) :
    exec (.integerOp op) s = .next (s.takeTrap s.cur false 2 0 (wordOfInstr (.integerOp op))) := by
  cases op
  case fma | fArith | fSgnj | fMinMax | fCmp | fClass | fToInt | intToF | fToF | fmvToX | fmvToF =>
    exact exec_intOpen_illegal idle rfl (State.needFs_stops off _)
  all_goals cases floats

theorem exec_fdivFsqrt_off {s : State} (idle : s.me.waiting = none) (off : fsOf s.me.sys.mstatus = 0) (op : FDivOp) :
    exec (.fdivFsqrt op) s = .next (s.takeTrap s.cur false 2 0 (wordOfInstr (.fdivFsqrt op))) :=
  (exec_fdivFsqrt s).trans (runOpen_illegal idle (.fdivFsqrt op) (State.needFs_stops off _))

theorem exec_baseLoad_off {s : State} {op : LoadOp} (idle : s.me.waiting = none) (off : fsOf s.me.sys.mstatus = 0)
    (floats : op = .flw ∨ op = .fld) (rd rs1 : Reg) (i : BitVec 12) :
    exec (.baseLoad op rd rs1 i) s = .next (s.takeTrap s.cur false 2 0 (wordOfInstr (.baseLoad op rd rs1 i))) := by
  refine (exec_baseLoad s).trans (runOpen_illegal idle (.baseLoad op rd rs1 i) ?effect)
  rcases floats with rfl | rfl
  all_goals exact State.needFs_stops off _

theorem exec_baseStore_off {s : State} {op : StoreOp} (idle : s.me.waiting = none) (off : fsOf s.me.sys.mstatus = 0)
    (floats : op = .fsw ∨ op = .fsd) (rs1 rs2 : Reg) (i : BitVec 12) :
    exec (.baseStore op rs1 rs2 i) s = .next (s.takeTrap s.cur false 2 0 (wordOfInstr (.baseStore op rs1 rs2 i))) := by
  refine (exec_baseStore s).trans (runOpen_illegal idle (.baseStore op rs1 rs2 i) ?effect)
  rcases floats with rfl | rfl
  all_goals exact State.needFs_stops off _

/-! ### What a hart taking a trap saves -/

/-- The status of a hart that enters S mode: SIE saved in SPIE and cleared, the mode it comes from in SPP. -/
def Hart.statusInS (x : Hart) : Word :=
  setBits (setBits (setBits x.sys.mstatus 5 1 (bits x.sys.mstatus 1 1)) 1 1 0) 8 1 (if x.mode = .s then 1 else 0)

/-- The status of a hart that enters M mode: MIE saved in MPIE and cleared, the mode it comes from in MPP. -/
def Hart.statusInM (x : Hart) : Word :=
  setBits (setBits (setBits x.sys.mstatus 7 1 (bits x.sys.mstatus 3 1)) 3 1 0) 11 2 x.mode.code

theorem Hart.statusInS_fields (x : Hart) : bits x.statusInS 1 1 = 0 ∧
    bits x.statusInS 5 1 = bits x.sys.mstatus 1 1 ∧ bits x.statusInS 8 1 = if x.mode = .s then 1 else 0 := by
  refine ⟨?sie, ?spie, ?spp⟩
  case sie =>
    rw [Hart.statusInS, bits_setBits_other _ 8 _ _ _ _ (by decide), bits_setBits_same _ _ _ _ (by decide), Nat.zero_mod]
  case spie =>
    rw [Hart.statusInS, bits_setBits_other _ 8 _ _ _ _ (by decide), bits_setBits_other _ 1 _ _ _ _ (by decide),
      bits_setBits_same _ _ _ _ (by decide), bits_mod]
  case spp =>
    rw [Hart.statusInS, bits_setBits_same _ _ _ _ (by decide)]
    split <;> rfl

theorem Hart.statusInM_fields (x : Hart) : bits x.statusInM 3 1 = 0 ∧
    bits x.statusInM 7 1 = bits x.sys.mstatus 3 1 ∧ bits x.statusInM 11 2 = x.mode.code := by
  refine ⟨?mie, ?mpie, ?mpp⟩
  case mie =>
    rw [Hart.statusInM, bits_setBits_other _ 11 _ _ _ _ (by decide), bits_setBits_same _ _ _ _ (by decide), Nat.zero_mod]
  case mpie =>
    rw [Hart.statusInM, bits_setBits_other _ 11 _ _ _ _ (by decide), bits_setBits_other _ 3 _ _ _ _ (by decide),
      bits_setBits_same _ _ _ _ (by decide), bits_mod]
  case mpp =>
    rw [Hart.statusInM, bits_setBits_same _ _ _ _ (by decide)]
    cases x.mode <;> rfl

/-- A delegated trap is entered in S mode. -/
theorem Hart.enterTrap_delegated {x : Hart} {intr : Bool} {code : Nat} (goes : delegated x intr code = true)
    (sub : Nat) (tval epc : Word) : x.enterTrap intr code sub tval epc =
      { x with resv := none, pfx := none, waiting := none, jumped := true, mode := .s, pc := vectorOf x.sys.stvec intr code,
               sys := { x.sys with mstatus := x.statusInS, sepc := epc, scause := causeWord intr code sub, stval := tval } } :=
  if_pos goes

/-- Any other trap is entered in M mode. -/
theorem Hart.enterTrap_undelegated {x : Hart} {intr : Bool} {code : Nat} (stays : delegated x intr code = false)
    (sub : Nat) (tval epc : Word) : x.enterTrap intr code sub tval epc =
      { x with resv := none, pfx := none, waiting := none, jumped := true, mode := .m, pc := vectorOf x.sys.mtvec intr code,
               sys := { x.sys with mstatus := x.statusInM, mepc := epc, mcause := causeWord intr code sub, mtval := tval } } :=
  if_neg (Bool.eq_false_iff.mp stays)

/-- In either mode the general registers stay, and no reservation, wait or `vpfx` is left. -/
theorem Hart.enterTrap_frame (x : Hart) (intr : Bool) (code sub : Nat) (tval epc : Word) :
    (x.enterTrap intr code sub tval epc).ctx = x.ctx ∧ (x.enterTrap intr code sub tval epc).resv = none ∧
      (x.enterTrap intr code sub tval epc).waiting = none ∧ (x.enterTrap intr code sub tval epc).pfx = none := by
  cases entry : delegated x intr code with
  | true => rw [Hart.enterTrap_delegated entry]; exact ⟨rfl, rfl, rfl, rfl⟩
  | false => rw [Hart.enterTrap_undelegated entry]; exact ⟨rfl, rfl, rfl, rfl⟩

/-! ### The commit point of a trap -/

/-- Where no end of the task is due at the commit point, a trap is that commit point and then the entry (R119, R163). -/
theorem State.takeTrap_noEnd {s : State} (quiet : s.closed.noEnd) (intr : Bool) (code sub : Nat) (tval : Word) :
    s.takeTrap s.cur intr code sub tval = s.closed.enterTrap s.cur intr code sub tval s.me.epc := by
  have none_ : s.closed.ending? s.cur = none := s.closed_cur ▸ quiet
  have unfolded : s.takeTrap s.cur intr code sub tval = match s.closed.ending? s.cur with
    | some _ => s.closed.endHere s.cur
    | none => s.closed.enterTrap s.cur intr code sub tval s.me.epc := rfl
  rw [unfolded, none_]

/-- With no region open a trap is the entry of the hart alone. -/
theorem State.takeTrap_outside {s : State} (outside : s.inRegion s.cur = false) (intr : Bool) (code sub : Nat) (tval : Word) :
    s.takeTrap s.cur intr code sub tval = s.modMe fun x => x.enterTrap intr code sub tval s.me.epc := by
  have closed := s.closed_outside outside
  rw [State.takeTrap_noEnd (by rw [closed]; exact s.noEnd_outside outside), closed]
  rfl

/-- The task after its region has closed comes from the task before: nothing is left to store, and one region more has
been counted (R42, R124). -/
theorem State.closed_myTask {s : State} {t : Task} (inside : s.inRegion s.cur = true) (after : s.closed.myTask = some t) :
    ∃ u, s.myTask = some u ∧ t.region.rseq = u.region.rseq + 1 ∧ t.region.buf = [] ∧ t.region.log = [] ∧
      t.region.undrained = [] ∧ t.region.close = 0 := by
  have before : (s.closesOther s.cur).taskOf s.cur = s.myTask := by
    rw [State.closesOther_rest]
    rfl
  obtain ⟨ckpt, closes⟩ := (s.closesOther s.cur).closeRegion_taskOf s.cur 0 s.me.epc false (by
    rw [State.closesOther_rest]
    exact inside)
  rw [before] at closes
  rw [State.myTask, s.closed_cur, State.closed, closes] at after
  obtain ⟨u, mine, rfl⟩ := Option.map_eq_some_iff.mp after
  exact ⟨u, mine, rfl, rfl, rfl, rfl, rfl⟩

/-- `rcommit` is the commit point, and goes on (R129). -/
theorem exec_rcommit_goesOn {s : State} (starts : s.starts) (quiet : s.closed.noEnd) :
    exec .rcommit s = .next s.closed.goesOn := by
  rw [exec_rcommit, execRcommit]
  exact closing_ok starts rfl quiet rfl rfl

end Sys2Proof.Machine

open Sys2Proof Sys2Proof.Machine

/-- Settles O5: each of these words checks FS before anything else of its effect. -/
theorem floatingPointOffIsIllegal : Obligations.FloatingPointOffIsIllegal := by
  unfold Obligations.FloatingPointOffIsIllegal
  intro s idle off
  exact ⟨exec_fdivFsqrt_off idle off,
    fun op d rd rs1 rs2 rs3 rm => exec_floatOp_off idle off rfl,
    fun op d rd rs1 rs2 rm => exec_floatOp_off idle off rfl,
    fun rd rs1 i => ⟨exec_baseLoad_off idle off (.inr rfl) rd rs1 i, exec_baseLoad_off idle off (.inl rfl) rd rs1 i⟩,
    fun rs1 rs2 i => ⟨exec_baseStore_off idle off (.inr rfl) rs1 rs2 i, exec_baseStore_off idle off (.inl rfl) rs1 rs2 i⟩⟩

/-- Settles O14: with no region open the trap is the entry of the hart, in S mode where it is delegated and else in M mode. -/
theorem trapEntrySavesAndRedirects : Obligations.TrapEntrySavesAndRedirects := by
  unfold Obligations.TrapEntrySavesAndRedirects
  intro s intr code sub tval outside t
  have entry : t = s.modMe fun x => x.enterTrap intr code sub tval s.me.epc :=
    State.takeTrap_outside outside intr code sub tval
  have hart : t.me = s.me.enterTrap intr code sub tval s.me.epc := by rw [entry, State.me_modMe]
  obtain ⟨ctx, resv, waiting, pfx⟩ := s.me.enterTrap_frame intr code sub tval s.me.epc
  refine ⟨by rw [entry, State.modMe_mem], by rw [entry, State.modMe_tasks], hart ▸ ctx, hart ▸ resv, hart ▸ waiting,
    hart ▸ pfx, fun ⟨below, bit⟩ => ?supervisor, fun other => ?machine⟩
  case supervisor =>
    have goes : delegated s.me intr code = true := by simp [delegated, below, bit]
    obtain ⟨sie, spie, spp⟩ := s.me.statusInS_fields
    rw [hart, Hart.enterTrap_delegated goes]
    exact ⟨rfl, rfl, rfl, rfl, rfl, sie, spie, spp, rfl⟩
  case machine =>
    have stays : delegated s.me intr code = false := by rcases other with mode | bit <;> simp [delegated, *]
    obtain ⟨mie, mpie, mpp⟩ := s.me.statusInM_fields
    rw [hart, Hart.enterTrap_undelegated stays]
    exact ⟨rfl, rfl, rfl, rfl, rfl, mie, mpie, mpp, rfl⟩

/-- Settles O15: the commit point of the trap is the closed state, in which `rcommit` has its effect too. -/
theorem trapClosesTheRegionFirst : Obligations.TrapClosesTheRegionFirst := by
  unfold Obligations.TrapClosesTheRegionFirst
  intro s intr code sub tval inside quiet
  refine ⟨State.takeTrap_noEnd quiet intr code sub tval, fun t after => ?committed⟩
  obtain ⟨v, mine, rseq, buf, log, undrained, close⟩ := State.closed_myTask inside after
  refine ⟨buf, log, undrained, close, fun u task => ?counted⟩
  obtain rfl : v = u := Option.some.inj (mine.symm.trans task)
  refine ⟨rseq, fun starts => ?rcommit⟩
  obtain ⟨w, next, pc, ctx, -, -, bufNext, -, -, -, rseqNext, ckpt, -⟩ := State.goesOn_region starts inside task
  exact ⟨s.closed.goesOn, w, exec_rcommit_goesOn starts quiet, next, pc, ctx, bufNext, rseqNext, ckpt⟩
end

section
/-! PROOFS. The commit point as a word (R129), and the bit fields (R131). -/

namespace Sys2Proof.Machine

/-- Outside U mode `rcommit` only goes on (R129). -/
theorem exec_rcommit_above {s : State} (starts : s.starts) (mode : s.me.mode ≠ .u) :
    exec .rcommit s = .next s.complete := by
  have closed := s.closed_outside (s.inRegion_mode s.cur mode)
  rw [exec_rcommit_goesOn starts (by rw [closed]; exact s.noEnd_above mode), closed, s.goesOn_mode mode]

/-! ### Bit fields -/

theorem exec_bfx_wrote {s : State} (idle : s.me.waiting = none) (rd rs1 rs2 : Reg) :
    exec (.bfx rd rs1 rs2) s = .next (s.wrote rd (bfxVal (s.x rs1) (s.x rs2))) := by
  rw [exec_bfx, execBfx, ← State.wrote_eq s idle]
  exact runOpen_ok rfl

theorem exec_bfi_wrote {s : State} (idle : s.me.waiting = none) (rd rs1 rs2 : Reg) :
    exec (.bfi rd rs1 rs2) s = .next (s.wrote rd (bfiVal (s.x rd) (s.x rs1) (s.x rs2))) := by
  rw [exec_bfi, execBfi, ← State.wrote_eq s idle]
  exact runOpen_ok rfl

theorem wordOf_getLsbD {i : Nat} (n : Nat) (below : i < 64) : (wordOf n).getLsbD i = n.testBit i := by
  rw [wordOf, BitVec.getLsbD_ofNat, decide_eq_true below, Bool.true_and]

/-- The top bit of a number of `n + 1` bits. -/
theorem testBit_top {v n : Nat} (fits : v < 2 ^ (n + 1)) : v.testBit n = decide (v / 2 ^ n = 1) := by
  have quotient : v / 2 ^ n < 2 := Nat.div_lt_of_lt_mul (by rwa [Nat.pow_succ] at fits)
  rw [Nat.testBit_eq_decide_div_mod_eq, Nat.mod_eq_of_lt quotient]

/-- A number of `n` bits with ones put above it, up to bit 63. -/
theorem testBit_onesAbove {v n i : Nat} (fits : v < 2 ^ n) (width : n ≤ 64) (below : i < 64) :
    (v + (2 ^ 64 - 2 ^ n)).testBit i = (decide (n ≤ i) || v.testBit i) := by
  have ones : v + (2 ^ 64 - 2 ^ n) = 2 ^ n * (2 ^ (64 - n) - 1) + v := by
    rw [Nat.mul_sub, ← Nat.pow_add, Nat.add_sub_cancel' width, Nat.mul_one, Nat.add_comm]
  rw [ones, Nat.testBit_two_pow_mul_add _ fits, Nat.testBit_two_pow_sub_one]
  split
  next inside => simp [Nat.not_le.mpr inside]
  next above =>
    have bit : i - n < 64 - n := by omega
    simp [bit, Nat.not_lt.mp above]

/-- A field never passes bit 63 (R131). -/
theorem fieldWidth_le (d : Word) : bits d 0 6 + fieldWidth d ≤ 64 := by
  have start : bits d 0 6 < 64 := Nat.mod_lt _ (by decide)
  rw [fieldWidth]
  omega

theorem bits_one_eq_one (w : Word) (i : Nat) : bits w i 1 = 1 ↔ w.getLsbD i = true := by
  rw [BitVec.getLsbD, Nat.testBit_eq_decide_div_mod_eq, decide_eq_true_iff, bits, Nat.shiftRight_eq_div_pow, Nat.pow_one]

theorem bfxVal_empty {d : Word} (a : Word) (empty : fieldWidth d = 0) : bfxVal a d = 0 := if_pos empty

/-- The top bit of a field that is not empty. -/
theorem bits_top {w : Word} {lo len : Nat} (some_ : len ≠ 0) :
    bits w lo len / 2 ^ (len - 1) = 1 ↔ w.getLsbD (lo + len - 1) = true := by
  obtain ⟨n, rfl⟩ := Nat.exists_eq_succ_of_ne_zero some_
  have top := testBit_top (v := bits w lo (n + 1)) (Nat.mod_lt _ (Nat.two_pow_pos _))
  rw [bits_testBit, decide_eq_true (Nat.lt_succ_self n), Bool.true_and] at top
  show bits w lo (n + 1) / 2 ^ n = 1 ↔ w.getLsbD (lo + n) = true
  rw [top, decide_eq_true_iff]

/-- The field, with its top bit repeated above it where bit 15 of the descriptor asks for it. -/
theorem bfxVal_getLsbD {d : Word} {i : Nat} (a : Word) (some_ : fieldWidth d ≠ 0) (below : i < 64) :
    (bfxVal a d).getLsbD i = if i < fieldWidth d then a.getLsbD (bits d 0 6 + i)
      else d.getLsbD 15 && a.getLsbD (bits d 0 6 + fieldWidth d - 1) := by
  have within := fieldWidth_le d
  have fits : bits a (bits d 0 6) (fieldWidth d) < 2 ^ fieldWidth d := Nat.mod_lt _ (Nat.two_pow_pos _)
  have sign : (bits d 15 1 = 1 ∧ bits a (bits d 0 6) (fieldWidth d) / 2 ^ (fieldWidth d - 1) = 1) ↔
      (d.getLsbD 15 && a.getLsbD (bits d 0 6 + fieldWidth d - 1)) = true := by
    rw [bits_one_eq_one, bits_top some_, Bool.and_eq_true]
  simp only [bfxVal, if_neg some_]
  split
  next negative =>
    rw [wordOf_getLsbD _ below, testBit_onesAbove fits (by omega) below, bits_testBit, sign.mp negative]
    by_cases inside : i < fieldWidth d
    · simp [inside]
    · simp [inside, Nat.not_lt.mp inside]
  next plain =>
    rw [wordOf_getLsbD _ below, bits_testBit, Bool.eq_false_iff.mpr (mt sign.mpr plain)]
    by_cases inside : i < fieldWidth d <;> simp [inside]

/-- The bits of the field come from the low bits of the source; the others stay. -/
theorem bfiVal_getLsbD {d : Word} {i : Nat} (old a : Word) (below : i < 64) :
    (bfiVal old a d).getLsbD i =
      if bits d 0 6 ≤ i ∧ i < bits d 0 6 + fieldWidth d then a.getLsbD (i - bits d 0 6) else old.getLsbD i := by
  rw [bfiVal]
  split
  next empty => rw [if_neg (by omega)]
  next =>
    rw [setBits_getLsbD _ _ _ _ _ below]
    split
    next inside =>
      have low : i - bits d 0 6 < fieldWidth d := by omega
      rw [bits_testBit, decide_eq_true low, Bool.true_and, Nat.zero_add]
    next => rfl

end Sys2Proof.Machine

open Sys2Proof Sys2Proof.Machine

/-- Settles O22: the word is the commit point of the closed state, which is the state itself outside U mode. -/
theorem regionCommitPerformsAndCheckpoints : Obligations.RegionCommitPerformsAndCheckpoints := by
  unfold Obligations.RegionCommitPerformsAndCheckpoints
  intro s starts quiet
  have commits := exec_rcommit_goesOn starts quiet
  refine ⟨commits, exec_rcommit_above starts, fun t inside task => ?region⟩
  obtain ⟨u, after⟩ := State.goesOn_region starts inside task
  exact ⟨s.closed.goesOn, u, commits, after⟩

/-- Settles O24: each word is one write of x[rd], and the bits of its value are read off the field of the descriptor. -/
theorem bitFieldsMoveTheirBits : Obligations.BitFieldsMoveTheirBits := by
  unfold Obligations.BitFieldsMoveTheirBits
  refine ⟨fun s rd rs1 rs2 idle => ⟨exec_bfx_wrote idle rd rs1 rs2, exec_bfi_wrote idle rd rs1 rs2⟩,
    fun old a d i below => ⟨?extract, bfiVal_getLsbD old a below⟩⟩
  case extract =>
    by_cases empty : fieldWidth d = 0
    · have none_ : min (bits d 8 7) (64 - bits d 0 6) = 0 := empty
      simp [bfxVal_empty a empty, none_]
    · have some_ : min (bits d 8 7) (64 - bits d 0 6) ≠ 0 := empty
      rw [bfxVal_getLsbD a empty below]
      simp [some_, fieldWidth]
end

section
/-! PROOFS. Named barriers (R137 to R142): what an arrival does to the barrier and to those that wait on it, and each word
on the barrier that its selector names, with its faults. -/

namespace Sys2Proof.Machine

/-! ### Faults of cause 52 -/

/-- The fault of a barrier or a semaphore: the trap of the closed state with cause 52, this subcode and the value x[rs1]
(R139, R144). -/
def State.syncFault (s : State) (sub : Nat) (rs1 : Reg) : Result :=
  .next (s.closed.takeTrap s.closed.cur false 52 sub (s.x rs1))

theorem closing_syncFault {i : Instr} {s : State} {body : State → Except Exc State} {sub : Nat} {rs1 : Reg}
    (starts : s.starts) (plain : isGateWait i = false) (quiet : s.closed.noEnd)
    (fault : body s.closed = .error (.trap 52 sub (s.closed.x rs1))) : runClosing false i s body = s.syncFault sub rs1 :=
  closing_trap starts plain quiet (by rw [fault, s.closed_x])

/-! ### Arrivals -/

theorem Barrier.arrive_last {b : Barrier} (last : b.arrivals + 1 = b.count) :
    b.arrive = { b with arrivals := 0, phase := b.phase + 1 } := if_pos last

theorem Barrier.arrive_before {b : Barrier} (before : b.arrivals + 1 ≠ b.count) :
    b.arrive = { b with arrivals := b.arrivals + 1 } := if_neg before

/-- The phase is complete when the arrival was the last of count, and only then. -/
theorem Barrier.arrive_phase (b : Barrier) : b.arrive.phase = b.phase ↔ b.arrivals + 1 ≠ b.count := by
  by_cases last : b.arrivals + 1 = b.count
  · rw [Barrier.arrive_last last]
    exact iff_of_false (by simp) (not_not_intro last)
  · rw [Barrier.arrive_before last]
    exact iff_of_true rfl last

theorem State.arriveAt_last {s : State} {k : Nat} (last : (s.barrier k).arrivals + 1 = (s.barrier k).count) :
    s.arriveAt k = (s.setBarrier k (s.barrier k).arrive).releaseBarrier k (s.barrier k).phase := if_pos last

theorem State.arriveAt_before {s : State} {k : Nat} (before : (s.barrier k).arrivals + 1 ≠ (s.barrier k).count) :
    s.arriveAt k = s.setBarrier k (s.barrier k).arrive := if_neg before

theorem State.releaseBarrier_barrier (s : State) (k : Nat) (p : BitVec 16) (j : Nat) :
    (s.releaseBarrier k p).barrier j = s.barrier j := rfl

theorem State.arriveAt_barrier (s : State) (k : Nat) : (s.arriveAt k).barrier k = (s.barrier k).arrive := by
  by_cases last : (s.barrier k).arrivals + 1 = (s.barrier k).count
  · rw [State.arriveAt_last last, State.releaseBarrier_barrier, State.barrier_setBarrier]
  · rw [State.arriveAt_before last, State.barrier_setBarrier]

/-! ### Release of those that wait -/

/-- A release takes no task off a hart. -/
theorem State.releaseBarrier_task (s : State) (k : Nat) (p : BitVec 16) (h : Nat) :
    ((s.releaseBarrier k p).hart h).task = (s.hart h).task := by
  simp only [State.hart, State.releaseBarrier, Table.get, Table.find_mapVal]
  cases s.harts.find h with
  | none => rfl
  | some x =>
    simp only [Option.map_some, Option.getD_some]
    split
    next w _ => split <;> rfl
    next => rfl

theorem State.arriveAt_task (s : State) (k : Nat) : (s.arriveAt k).me.task = s.me.task := by
  by_cases last : (s.barrier k).arrivals + 1 = (s.barrier k).count
  · rw [State.arriveAt_last last]
    exact State.releaseBarrier_task _ _ _ _
  · rw [State.arriveAt_before last, setBarrier_me]

theorem State.inBarwait_of_waits {s : State} {h k : Nat} {x : Hart} {w : Wait} {rs1 rs2 : Reg} (waits : x.waiting = some w)
    (instr : w.instr = .barwait rs1 rs2) (unanswered : w.reply = none) (named : s.barrierKey h (x.ctx.xreg rs1) = .ok k) :
    s.inBarwait h x k = true := by
  obtain ⟨i, kind, reply⟩ := w
  subst instr unanswered
  simp [State.inBarwait, waits, named, Except.toOption]

/-- A hart that waits on the phase of the barrier, or in `barwait` on it, has its answer (R138, R141). -/
theorem State.releaseBarrier_waiting {s : State} {h k : Nat} {p : BitVec 16} {w : Wait} (waits : (s.hart h).waiting = some w)
    (on : (w.kind = .arrived k p ∧ w.reply = none) ∨ s.inBarwait h (s.hart h) k = true) :
    ((s.releaseBarrier k p).hart h).waiting = some { w with reply := some (.value (p.setWidth 64)) } := by
  simp only [State.hart, State.releaseBarrier, Table.get, Table.find_mapVal] at waits on ⊢
  cases found : s.harts.find h with
  | none =>
    rw [found] at waits
    exact absurd waits (by simp [Hart.zero])
  | some x =>
    rw [found] at waits on
    simp only [Option.getD_some] at waits on
    simp only [Option.map_some, Option.getD_some, waits, on, if_true]

/-- The last arrival of a phase answers every `barsync` and `barwait` that waits on it. -/
theorem State.arriveAt_releases {s : State} {h k : Nat} {w : Wait} (last : (s.barrier k).arrivals + 1 = (s.barrier k).count)
    (waits : (s.hart h).waiting = some w)
    (on : (w.kind = .arrived k (s.barrier k).phase ∧ w.reply = none) ∨ s.inBarwait h (s.hart h) k = true) :
    ((s.arriveAt k).hart h).waiting = some { w with reply := some (.value ((s.barrier k).phase.setWidth 64)) } := by
  rw [State.arriveAt_last last]
  exact State.releaseBarrier_waiting (s := s.setBarrier k (s.barrier k).arrive) waits on

/-! ### The barrier of a selector -/

/-- No barrier has an id of 48 or more (R139). -/
theorem State.myBarrier_outOfRange {s : State} {rs1 : Reg} (id : bits (s.x rs1) 0 6 ≥ 48) :
    s.myBarrier rs1 = .error (.trap 52 0x01 (s.x rs1)) := by
  have key : s.barrierKey s.cur (s.x rs1) = .error 0x01 := if_pos id
  rw [State.myBarrier, key]

/-- With no hart in `barwait` on the barrier, `barinit` may set it (R139). -/
theorem State.barrierWaiter_eq_false {t : State} {k : Nat} (none_ : ∀ e ∈ t.harts, t.inBarwait e.1 e.2 k = false) :
    t.barrierWaiter k = false := by
  rw [State.barrierWaiter, List.any_eq_false]
  exact fun e mem => Bool.eq_false_iff.mp (none_ e mem)

section
variable {s : State} {rd rs1 rs2 : Reg} (starts : s.starts) (quiet : s.closed.noEnd)
include starts quiet

/-- Whatever fault the selector has, the words that arrive or initialise take it. -/
theorem exec_barrier_selectorFault {sub : Nat} (fault : s.closed.myBarrier rs1 = .error (.trap 52 sub (s.closed.x rs1))) :
    exec (.barinit rs1 rs2) s = s.syncFault sub rs1 ∧ exec (.barrive rd rs1) s = s.syncFault sub rs1 ∧
      exec (.barsync rd rs1) s = s.syncFault sub rs1 := by
  have idle : s.closed.me.waiting = none := s.closed_waiting.trans starts.1
  refine ⟨(exec_barinit s).trans (closing_syncFault starts rfl quiet ?init),
    (exec_barrive s).trans (closing_syncFault starts rfl quiet ?arrive),
    (exec_barsync s).trans (closing_syncFault starts rfl quiet ?sync)⟩
  case init => dsimp only; rw [fault]; rfl
  case arrive => dsimp only; rw [fault]; rfl
  case sync => dsimp only; rw [idle, fault]; rfl

/-! ### The words on a named barrier -/

/-- `barinit` on a named barrier: its three checks in order, then the write of count and arrivals (R139, R140). -/
theorem exec_barinit_named {k : Nat} (named : s.closed.myBarrier rs1 = .ok k) : exec (.barinit rs1 rs2) s =
    if (s.x rs2).setWidth 16 = (0 : BitVec 16) then s.syncFault 0x03 rs1
    else if (s.closed.barrier k).arrivals ≠ 0 ∨ s.closed.barrierWaiter k = true then s.syncFault 0x04 rs1
    else .next ((s.closed.setBarrier k { s.closed.barrier k with count := (s.x rs2).setWidth 16, arrivals := 0 }).countClamp
      (bits (s.x rs1) 8 3)).goesOn := by
  refine (exec_barinit s).trans ?_
  rw [execBarinit]
  split
  next zero => exact closing_syncFault starts rfl quiet (by simp only [named, s.closed_x]; exact if_pos zero)
  next some_ =>
    split
    next busy =>
      exact closing_syncFault starts rfl quiet (by
        simp only [named, s.closed_x]
        exact (if_neg some_).trans (if_pos busy))
    next free =>
      refine closing_ok starts rfl quiet ?effect ?task
      case effect =>
        simp only [named, s.closed_x]
        exact (if_neg some_).trans (if_neg free)
      case task => rw [State.countClamp_me, setBarrier_me]

/-- `barrive` on a named barrier: the fault of one without a count, or the arrival. -/
theorem exec_barrive_named {k : Nat} (named : s.closed.myBarrier rs1 = .ok k) : exec (.barrive rd rs1) s =
    if (s.closed.barrier k).count = 0 then s.syncFault 0x05 rs1
    else .next (((s.closed.arriveAt k).countClamp (bits (s.x rs1) 8 3)).setX rd
      ((s.closed.barrier k).phase.setWidth 64)).goesOn := by
  refine (exec_barrive s).trans ?_
  rw [execBarrive]
  split
  next zero => exact closing_syncFault starts rfl quiet (by simp only [named]; exact if_pos zero)
  next counts =>
    refine closing_ok starts rfl quiet ?effect ?task
    case effect =>
      simp only [named, s.closed_x]
      exact if_neg counts
    case task => rw [State.setX_task, State.countClamp_me, State.arriveAt_task]

/-- `barsync` on a named barrier: the fault, the answer of the arrival that completes the phase, or the wait for it. -/
theorem exec_barsync_named {k : Nat} (named : s.closed.myBarrier rs1 = .ok k) : exec (.barsync rd rs1) s =
    if (s.closed.barrier k).count = 0 then s.syncFault 0x05 rs1
    else if (s.closed.barrier k).arrivals + 1 = (s.closed.barrier k).count then
      .next (((s.closed.arriveAt k).countClamp (bits (s.x rs1) 8 3)).setX rd ((s.closed.barrier k).phase.setWidth 64)).goesOn
    else .next ((s.closed.arriveAt k).modMe fun x =>
      { x with waiting := some { instr := .barsync rd rs1, kind := .arrived k (s.closed.barrier k).phase, reply := none } }) := by
  have idle : s.closed.me.waiting = none := s.closed_waiting.trans starts.1
  have phase : ((s.closed.arriveAt k).barrier k).phase = (s.closed.barrier k).phase ↔
      (s.closed.barrier k).arrivals + 1 ≠ (s.closed.barrier k).count := by
    rw [State.arriveAt_barrier, Barrier.arrive_phase]
  refine (exec_barsync s).trans ?_
  rw [execBarsync]
  split
  next zero => exact closing_syncFault starts rfl quiet (by simp only [idle, named]; exact if_pos zero)
  next counts =>
    split
    next last =>
      refine closing_ok starts rfl quiet ?effect ?task
      case effect =>
        simp only [idle, named, s.closed_x]
        exact (if_neg counts).trans (if_neg fun same => phase.mp same last)
      case task => rw [State.setX_task, State.countClamp_me, State.arriveAt_task]
    next before =>
      exact closing_hold starts rfl quiet (by
        simp only [idle, named]
        exact (if_neg counts).trans (if_pos (phase.mpr before)))

end

/-! ### The words in a wait -/

/-- A word that closes the region and ends its wait here. -/
theorem runClosing_resumed {i : Instr} {s t : State} {body : State → Except Exc State} {w : Wait}
    (waits : s.me.waiting = some w) (quiet : s.noEnd) (effect : body s = .ok t) (task : t.me.task = s.me.task) :
    runClosing false i s body = .next t.goesOn := by
  have due : s.ending? s.cur = none := quiet
  unfold runClosing
  simp only [waits, Option.isSome_some, if_true, due, Option.isSome_none, Bool.false_eq_true, if_false, effect, task, true_or]
  rfl

/-- `barsync` whose phase has completed answers that phase (R140). -/
theorem exec_barsync_answered {s : State} {rd rs1 : Reg} {k : Nat} {p : BitVec 16} {v : Reply} (quiet : s.noEnd)
    (waits : s.me.waiting = some { instr := .barsync rd rs1, kind := .arrived k p, reply := some v }) :
    exec (.barsync rd rs1) s = .next ((s.countClamp (bits (s.x rs1) 8 3)).setX rd (p.setWidth 64)).goesOn := by
  refine (exec_barsync s).trans (runClosing_resumed waits quiet ?effect ?task)
  case effect => simp only [waits]
  case task => rw [State.setX_task, State.countClamp_me]

/-- `barwait` that a completion has released returns. -/
theorem exec_barwait_answered {s : State} {rs1 rs2 : Reg} {kind : WaitKind} {v : Reply}
    (waits : s.me.waiting = some { instr := .barwait rs1 rs2, kind := kind, reply := some v }) :
    exec (.barwait rs1 rs2) s = .next (s.countClamp (bits (s.x rs1) 8 3)).complete :=
  (exec_barwait s).trans (runOpen_ok (by simp only [waits]; rfl))

section
variable {s : State} {rs1 rs2 : Reg} {k : Nat} (idle : s.me.waiting = none) (named : s.myBarrier rs1 = .ok k)
  (counts : (s.barrier k).count ≠ 0)
include idle named counts

theorem exec_barwait_past (past : (s.barrier k).phase ≠ (s.x rs2).setWidth 16) :
    exec (.barwait rs1 rs2) s = .next (s.countClamp (bits (s.x rs1) 8 3)).complete :=
  (exec_barwait s).trans (runOpen_ok (by
    simp only [idle, named]
    exact (if_neg counts).trans (if_neg past)))

theorem exec_barwait_waits (same : (s.barrier k).phase = (s.x rs2).setWidth 16) (quiet : s.noEnd) :
    exec (.barwait rs1 rs2) s = .next
      (s.modMe fun x => { x with waiting := some { instr := .barwait rs1 rs2, kind := .long, reply := none } }) := by
  rw [← State.finish_wait s (.barwait rs1 rs2) .long (.inr quiet)]
  refine (exec_barwait s).trans (runOpen_error ?effect (by simp))
  simp only [idle, named]
  exact (if_neg counts).trans (if_pos same)

end

end Sys2Proof.Machine

open Sys2Proof Sys2Proof.Machine

/-- Settles O25: each word on a named barrier is one equation, and an arrival is one change of the barrier and, where it is the
last, of those that wait. -/
theorem barriersCountPhases : Obligations.BarriersCountPhases := by
  unfold Obligations.BarriersCountPhases
  intro s k quiet
  refine ⟨fun rs1 rs2 starts named some_ none_ nobody => ?barinit, fun rd rs1 starts named counts => ?barrive,
    fun rs1 rs2 starts named counts => ⟨fun p names past => ?past, fun same due => ?waits⟩,
    fun rd rs1 starts named counts => ⟨fun last => ?completes, fun before => ?holds⟩,
    fun rd rs1 p v due waits => exec_barsync_answered due waits,
    fun last => ⟨?phase, fun h w waits on => State.arriveAt_releases last waits (on.imp_right ?barwaits)⟩,
    fun rs1 rs2 v kd _ waits => exec_barwait_answered waits, fun before => ?counts⟩
  case barinit =>
    have free : ¬ ((s.closed.barrier k).arrivals ≠ 0 ∨ s.closed.barrierWaiter k = true) := by
      simp [none_, State.barrierWaiter_eq_false nobody]
    rw [exec_barinit_named starts quiet named, if_neg some_, if_neg free]
  case barrive => rw [exec_barrive_named starts quiet named, if_neg counts]
  case past => exact exec_barwait_past starts.1 named counts (names ▸ past)
  case waits => exact exec_barwait_waits starts.1 named counts same due
  case completes => rw [exec_barsync_named starts quiet named, if_neg counts, if_pos last]
  case holds => rw [exec_barsync_named starts quiet named, if_neg counts, if_neg before]
  case phase => rw [State.arriveAt_barrier, Barrier.arrive_last last]
  case barwaits => exact fun ⟨rs1, rs2, instr, unanswered, names⟩ => State.inBarwait_of_waits waits instr unanswered names
  case counts => rw [State.arriveAt_before before, Barrier.arrive_before before]
end

section
/-! PROOFS. Pair semaphores (R143 to R145): how the queue of a semaphore is served, and the words with their faults. -/

namespace Sys2Proof.Machine

/-! ### The count and the queue of a semaphore -/

@[simp] theorem State.sem_setSem (s : State) (i : Nat) (v : BitVec 32) : (s.setSem i v).sem i = v := by
  simp [State.sem, State.setSem]

@[simp] theorem State.semQueue_setSem (s : State) (i j : Nat) (v : BitVec 32) : (s.setSem i v).semQueue j = s.semQueue j := by
  simp [State.semQueue, State.setSem]

@[simp] theorem State.semQueue_setSemQueue (s : State) (i : Nat) (q : List Nat) : (s.setSemQueue i q).semQueue i = q := by
  simp [State.semQueue, State.setSemQueue]

@[simp] theorem State.semQueue_answer (s : State) (h : Nat) (r : Reply) (i : Nat) :
    (s.answer h r).semQueue i = s.semQueue i := rfl

@[simp] theorem State.setPair_setPair (s : State) (p : Nat) (x y : Pair) : (s.setPair p x).setPair p y = s.setPair p y := by
  simp [State.setPair]

@[simp] theorem State.modPair_modPair (s : State) (p : Nat) (f g : Pair → Pair) :
    (s.modPair p f).modPair p g = s.modPair p fun x => g (f x) := by
  simp [State.modPair]

/-! ### Serving the queue -/

theorem serveSem_nobody {s : State} {p i : Nat} (n : Nat) (nobody : (s.pair p).semQ.get i [] = []) : serveSem p i n s = s := by
  cases n with
  | zero => rfl
  | succ n => rw [serveSem, nobody]

/-- Serving waiters moves no task and not the acting hart. -/
theorem serveSem_task (p i n : Nat) (s : State) :
    (∀ j, ((serveSem p i n s).hart j).task = (s.hart j).task) ∧ (serveSem p i n s).cur = s.cur := by
  induction n generalizing s with
  | zero => exact ⟨fun _ => rfl, rfl⟩
  | succ n ih =>
    rw [serveSem]
    split
    next => exact ⟨fun _ => rfl, rfl⟩
    next h r _ =>
      dsimp only
      split
      next => exact ⟨fun j => ((ih _).1 j).trans (answer_task _ _ _ j), (ih _).2⟩
      next => exact ⟨fun _ => rfl, rfl⟩

theorem State.serveSem_task (s : State) (p i : Nat) : (s.serveSem p i).me.task = s.me.task := by
  obtain ⟨task, cur⟩ := Machine.serveSem_task p i 16 s
  rw [State.me, State.serveSem, cur, task, State.me]

theorem State.serveSem_nobody {s : State} {i : Nat} (nobody : s.semQueue i = []) : s.serveSem (pairOf s.cur) i = s :=
  Machine.serveSem_nobody 16 nobody

/-- A waiter at the head whose amount is not met keeps its place, and those behind it theirs (R145). -/
theorem State.serveSem_short {s : State} {i h : Nat} {r : List Nat} (queue : s.semQueue i = h :: r)
    (short : (s.sem i).toNat < (s.hart h).semTake) : s.serveSem (pairOf s.cur) i = s := by
  rw [State.serveSem, Machine.serveSem, show (s.pair (pairOf s.cur)).semQ.get i [] = h :: r from queue]
  exact if_neg (Nat.not_le.mpr short)

/-- A single waiter whose amount is met takes it and has its answer. -/
theorem State.serveSem_only {s : State} {i h : Nat} (queue : s.semQueue i = [h])
    (enough : (s.hart h).semTake ≤ (s.sem i).toNat) :
    s.serveSem (pairOf s.cur) i =
      ((s.setSem i (BitVec.ofNat 32 ((s.sem i).toNat - (s.hart h).semTake))).setSemQueue i []).answer h
        (.value (wordOf ((s.sem i).toNat - (s.hart h).semTake))) := by
  have taken (v : BitVec 32) : (s.setSem i v).setSemQueue i [] =
      s.modPair (pairOf s.cur) fun p => { p with sems := p.sems.put i v, semQ := p.semQ.put i [] } :=
    State.modPair_modPair ..
  rw [State.serveSem, Machine.serveSem, show (s.pair (pairOf s.cur)).semQ.get i [] = [h] from queue]
  refine (if_pos enough).trans ?_
  rw [State.sem, ← taken]
  exact Machine.serveSem_nobody 15 ((State.semQueue_answer _ h _ i).trans (State.semQueue_setSemQueue _ i []))

/-! ### The operands -/

theorem State.semOperands_index {s : State} {rs1 : Reg} (rs2 : Reg) (index : (s.x rs1).toNat ≥ 16) :
    s.semOperands rs1 rs2 = .error (.trap 52 0x11 (s.x rs1)) := if_pos index

theorem State.semOperands_amount {s : State} {rs1 rs2 : Reg} (index : (s.x rs1).toNat < 16)
    (amount : s.semAmount rs2 = 0 ∨ s.semAmount rs2 ≥ 2 ^ 32) :
    s.semOperands rs1 rs2 = .error (.trap 52 0x13 (s.x rs1)) :=
  (if_neg (Nat.not_le.mpr index)).trans (if_pos amount)

theorem State.semOperands_ok {s : State} {rs1 rs2 : Reg} (index : (s.x rs1).toNat < 16)
    (some_ : 0 < s.semAmount rs2) (fits : s.semAmount rs2 < 2 ^ 32) :
    s.semOperands rs1 rs2 = .ok ((s.x rs1).toNat, s.semAmount rs2) :=
  (if_neg (Nat.not_le.mpr index)).trans (if_neg (by omega))

theorem State.closed_semAmount (s : State) (rs2 : Reg) : s.closed.semAmount rs2 = s.semAmount rs2 := by
  rw [State.semAmount, State.semAmount, s.closed_x]

/-! ### The words -/

section
variable {s : State} {rd rs1 rs2 : Reg} (starts : s.starts) (quiet : s.closed.noEnd)
include starts quiet

/-- Both words take the fault of their operands (R144). -/
theorem exec_sem_operandFault {sub : Nat} (fault : s.closed.semOperands rs1 rs2 = .error (.trap 52 sub (s.closed.x rs1))) :
    exec (.semv rs1 rs2) s = s.syncFault sub rs1 ∧ exec (.semp rd rs1 rs2) s = s.syncFault sub rs1 := by
  have idle : s.closed.me.waiting = none := s.closed_waiting.trans starts.1
  refine ⟨(exec_semv s).trans (closing_syncFault starts rfl quiet ?v), (exec_semp s).trans (closing_syncFault starts rfl quiet ?p)⟩
  case v => simp only [fault]; rfl
  case p => simp only [idle, fault]; rfl

variable {i n : Nat} (operands : s.closed.semOperands rs1 rs2 = .ok (i, n))
include operands

/-- `semv` past its operands: the fault of a sum past the count, or the sum and the service of the queue. -/
theorem exec_semv_operands : exec (.semv rs1 rs2) s =
    if (s.closed.sem i).toNat + n > 2 ^ 32 - 1 then s.syncFault 0x12 rs1
    else .next ((s.closed.setSem i (BitVec.ofNat 32 ((s.closed.sem i).toNat + n))).serveSem (pairOf s.cur) i).goesOn := by
  refine (exec_semv s).trans ?_
  rw [execSemv]
  split
  next past => exact closing_syncFault starts rfl quiet (by simp only [operands]; exact if_pos past)
  next fits =>
    refine closing_ok starts rfl quiet ?effect ?task
    case effect =>
      simp only [operands, ← s.closed_cur]
      exact if_neg fits
    case task => rw [State.serveSem_task, setSem_me]

/-- `semp` past its operands: it takes its amount where nobody waits before it and the count suffices, and else joins the
queue. -/
theorem exec_semp_operands : exec (.semp rd rs1 rs2) s =
    if s.closed.semQueue i = [] ∧ n ≤ (s.closed.sem i).toNat then
      .next ((s.closed.setSem i (BitVec.ofNat 32 ((s.closed.sem i).toNat - n))).setX rd
        ((BitVec.ofNat 32 ((s.closed.sem i).toNat - n)).setWidth 64)).goesOn
    else .next ((s.closed.setSemQueue i (s.closed.semQueue i ++ [s.cur])).modMe fun x =>
      { x with waiting := some { instr := .semp rd rs1 rs2, kind := .queued, reply := none } }) := by
  have idle : s.closed.me.waiting = none := s.closed_waiting.trans starts.1
  refine (exec_semp s).trans ?_
  rw [execSemp]
  split
  next takes =>
    refine closing_ok starts rfl quiet ?effect ?task
    case effect =>
      simp only [idle, operands]
      exact if_pos takes
    case task => rw [State.setX_task, setSem_me]
  next waits =>
    exact closing_hold starts rfl quiet (by
      simp only [idle, operands, ← s.closed_cur]
      exact if_neg waits)

end

/-- What is left of a 32-bit count, as a word. -/
theorem setWidth_ofNat_count {n : Nat} (fits : n < 2 ^ 32) : (BitVec.ofNat 32 n).setWidth 64 = wordOf n := by
  apply BitVec.eq_of_toNat_eq
  simp [wordOf]
  omega

end Sys2Proof.Machine

open Sys2Proof Sys2Proof.Machine

/-- Settles O26: each word checks its selector, or its index and amount, before anything else, and then the barrier or the
count. -/
theorem barrierFaultsNameTheirCondition : Obligations.BarrierFaultsNameTheirCondition := by
  unfold Obligations.BarrierFaultsNameTheirCondition
  intro s rd rs1 rs2 starts quiet trap
  refine ⟨fun range => ?range, fun k named => ⟨fun zero => ?zero, fun some_ arrived => ?arrived, fun uncounted => ?uncounted⟩,
    fun index => ?index, fun index amount => ?amount, fun index some_ fits past => ?past⟩
  case range =>
    exact exec_barrier_selectorFault starts quiet (State.myBarrier_outOfRange (by rwa [s.closed_x]))
  case zero => rw [exec_barinit_named starts quiet named, if_pos zero]; rfl
  case arrived => rw [exec_barinit_named starts quiet named, if_neg some_, if_pos (.inl arrived)]; rfl
  case uncounted =>
    rw [exec_barrive_named starts quiet named, exec_barsync_named starts quiet named, if_pos uncounted, if_pos uncounted]
    exact ⟨rfl, rfl⟩
  case index =>
    exact exec_sem_operandFault starts quiet (State.semOperands_index rs2 (by rwa [s.closed_x]))
  case amount =>
    exact exec_sem_operandFault starts quiet (State.semOperands_amount (by rwa [s.closed_x]) amount)
  case past =>
    have operands := State.semOperands_ok (by rwa [s.closed_x]) some_ fits
    rw [s.closed_x] at operands
    rw [exec_semv_operands starts quiet operands, if_pos past]
    rfl

/-- Settles O27: past its operands each word is one equation, in which the queue that `semv` serves is empty, has a head
that asks for more than the count, or holds one waiter, which is served. -/
theorem semaphoresAddAndTake : Obligations.SemaphoresAddAndTake := by
  unfold Obligations.SemaphoresAddAndTake
  intro s rd rs1 rs2 starts quiet i n index some_ fits
  have amount : s.closed.semAmount rs2 = n := s.closed_semAmount rs2
  have operands : s.closed.semOperands rs1 rs2 = .ok (i, n) := by
    have ok := State.semOperands_ok (s := s.closed) (rs1 := rs1) (rs2 := rs2) (by rwa [s.closed_x]) (amount ▸ some_)
      (amount ▸ fits)
    rwa [s.closed_x, amount] at ok
  refine ⟨?semv, fun nobody enough => ?takes, fun q queue waits => ?waits⟩
  case semv =>
    intro below u
    have adds : exec (.semv rs1 rs2) s = .next (u.serveSem (pairOf s.cur) i).goesOn := by
      rw [exec_semv_operands starts quiet operands, if_neg (by omega)]
    have sum : (u.sem i).toNat = (s.closed.sem i).toNat + n := by
      rw [State.sem_setSem, BitVec.toNat_ofNat, Nat.mod_eq_of_lt below]
    have queues : u.semQueue i = s.closed.semQueue i := State.semQueue_setSem ..
    have cur : u.cur = s.cur := s.closed_cur
    refine ⟨adds, fun nobody => ?nobody, fun h r queue short => ?short, fun h queue enough => ?only⟩
    case nobody => rw [adds, ← cur, State.serveSem_nobody (queues.trans nobody)]
    case short => rw [adds, ← cur, State.serveSem_short (queues.trans queue) (sum ▸ short)]
    case only =>
      rw [adds, ← cur, State.serveSem_only (queues.trans queue) (sum ▸ enough), sum]
      rfl
  case takes =>
    have left : (s.closed.sem i).toNat - n < 2 ^ 32 := Nat.lt_of_le_of_lt (Nat.sub_le ..) (s.closed.sem i).isLt
    rw [exec_semp_operands starts quiet operands, if_pos ⟨nobody, enough⟩, setWidth_ofNat_count left]
  case waits =>
    subst queue
    rw [exec_semp_operands starts quiet operands, if_neg]
    exact fun ⟨nobody, enough⟩ => waits.elim (· nobody) (Nat.not_lt.mpr enough)
end

section
/-! PROOFS. The checks of a future's handle (R149, R174): which check fails first, and the trap of each word that names it. -/

namespace Sys2Proof.Machine

/-! ### The checks at the issuing hart -/

/-- A hart in no wait makes all three checks (R160, R328). -/
theorem State.acceptHandle_idle {s : State} (idle : s.me.waiting = none) (h : Word) :
    s.acceptHandle h = s.checkHandle (clusterOf s.cur) h := by
  rw [State.acceptHandle, idle]

/-- What a closed region leaves is what the checks look at. -/
theorem State.closed_checkHandle (s : State) (k : Nat) (h : Word) : s.closed.checkHandle k h = s.checkHandle k h := by
  simp only [State.checkHandle, closed_permits]

theorem State.closed_acceptHandle {s : State} (starts : s.starts) (h : Word) :
    s.closed.acceptHandle h = s.closed.checkHandle (clusterOf s.cur) h := by
  rw [State.acceptHandle_idle (s.closed_waiting.trans starts.1), s.closed_cur]

section
variable {s : State} {k : Nat} {h : Word}

theorem State.checkHandle_null (null : h = 0) : s.checkHandle k h = .error (.trap 48 0x02 h) := if_pos null

theorem State.checkHandle_insane (some_ : h ≠ 0) (insane : handleSane h = false) :
    s.checkHandle k h = .error (.trap 48 0x01 h) :=
  (if_neg some_).trans (if_pos (by rw [insane]; rfl))

theorem State.checkHandle_barred (some_ : h ≠ 0) (sane : handleSane h = true)
    (barred : s.permits k (handleChip h) (handleCluster h) = false) : s.checkHandle k h = .error (.trap 51 0 h) :=
  (if_neg some_).trans ((if_neg (by simp [sane])).trans (if_pos (by rw [barred]; rfl)))

end

theorem State.notSelf_own {s : State} {h : Word} (own : s.me.task = some h) : s.notSelf h = .error (.trap 48 0x03 h) :=
  if_pos own

theorem State.notSelf_other {s : State} {h : Word} (other : s.me.task ≠ some h) : s.notSelf h = .ok () := if_neg other

/-- A touch in no wait makes its checks, and then asks the home, on this chip or another (R177). -/
theorem State.touch_idle {s : State} (idle : s.me.waiting = none) (rd rs1 : Reg) (i : Instr) :
    s.touch rd rs1 i = (do
      s.acceptHandle (s.x rs1)
      s.notSelf (s.x rs1)
      if s.isHere (s.x rs1) then s.touchHere rd (s.x rs1) i
      else do
        let answer ← s.remote (.trap 48 0x05 (s.x rs1))
        answer.1.touchAnswer rd (s.x rs1) false none i answer.2) := by
  simp only [State.touch, idle, heldGate_ok idle]
  rfl

/-- A touch of a handle that its home does not know traps, whether it would park or wait (R149). -/
theorem State.touchHere_gone {s : State} {h : Word} (unknown : s.fut? h = none) (unspilled : s.findSpill h = none) (rd : Reg)
    (i : Instr) : s.touchHere rd h i = .error (.trap 48 0x04 h) := by
  obtain ⟨touched, checked, -⟩ := homeApply_gone unknown unspilled
  rw [State.touchHere]
  split
  case isTrue =>
    have asked : s.homeTouch h (s.me.task.getD 0) false 0 (s.eprio (s.me.task.getD 0)) = (s, some (.trap 48 0x04 h)) :=
      touched _ _
    simp only [asked]
    rfl
  case isFalse =>
    simp only [checked]
    rfl

/-- What a home on this chip answers to a request for a handle that it does not know. -/
theorem State.ask_gone {s : State} {h : Word} (here : s.isHere h = true) (unknown : s.fut? h = none)
    (unspilled : s.findSpill h = none) :
    (∀ v w, s.ask h (.resolve v w) = .error (.trap 48 0x04 h)) ∧ s.ask h .cancel = .error (.trap 48 0x04 h) ∧
      (∀ v, s.ask h (.poison v) = .error (.trap 48 0x04 h)) ∧ s.ask h .frel = .error (.trap 48 0x04 h) := by
  obtain ⟨-, -, resolve, cancel, poison, frel⟩ := homeApply_gone unknown unspilled
  exact ⟨fun v w => State.ask_trap _ _ _ _ _ _ _ here (resolve v w), State.ask_trap _ _ _ _ _ _ _ here cancel,
    fun v => State.ask_trap _ _ _ _ _ _ _ here (poison v), State.ask_trap _ _ _ _ _ _ _ here frel⟩

/-! ### The words that name a future -/

/-- The words that close the region and name the future in x[rs1]. -/
def IsFutureWord (rd rs1 rs2 : Reg) (i : Instr) : Prop :=
  i = .touch rd rs1 ∨ i = .resolve rd rs1 rs2 ∨ i = .cancel rd rs1 ∨ i = .poison rd rs1 rs2 ∨ i = .frel rs1

theorem exec_tpoll_refused {s : State} {rs1 : Reg} {cause sub : Nat} {v : Word} (idle : s.me.waiting = none)
    (refused : s.checkHandle (clusterOf s.cur) (s.x rs1) = .error (.trap cause sub v)) (rd : Reg) :
    exec (.tpoll rd rs1) s = .next (s.takeTrap s.cur false cause sub v) := by
  refine (exec_tpoll s).trans (runOpen_traps idle _ ?effect)
  simp only [State.acceptHandle_idle idle, refused]
  rfl

section
variable {s : State} {rs1 : Reg} {h : Word} (starts : s.starts) (quiet : s.closed.noEnd) (names : s.x rs1 = h)
include starts quiet names

/-- A failing check is the trap of each closing word that names the handle. -/
theorem exec_handleWord_refused {cause sub : Nat} {v : Word}
    (refused : s.closed.checkHandle (clusterOf s.cur) h = .error (.trap cause sub v)) (rd rs2 : Reg) :
    ∀ i, IsFutureWord rd rs1 rs2 i → exec i s = .next (s.closed.takeTrap s.closed.cur false cause sub v) := by
  have touch := State.touch_idle (s.closed_waiting.trans starts.1) rd rs1
  have accept := (State.closed_acceptHandle starts h).trans refused
  rw [← names, ← s.closed_x] at accept
  rintro i (rfl | rfl | rfl | rfl | rfl)
  case inl => exact (exec_touch s).trans (closing_trap starts rfl quiet (by rw [touch, accept]; rfl))
  case inr.inl => exact (exec_resolve s).trans (closing_trap starts rfl quiet (by simp only [accept]; rfl))
  case inr.inr.inl =>
    exact (exec_cancel s).trans (closing_trap starts rfl quiet (by simp only [State.endOther, accept]; rfl))
  case inr.inr.inr.inl =>
    exact (exec_poison s).trans (closing_trap starts rfl quiet (by simp only [State.endOther, accept]; rfl))
  case inr.inr.inr.inr => exact (exec_frel s).trans (closing_trap starts rfl quiet (by simp only [accept]; rfl))

variable (passed : s.closed.checkHandle (clusterOf s.cur) h = .ok ())
include passed

/-- The words that may not name their own task trap on it (R174). -/
theorem exec_handleWord_own (own : s.me.task = some h) (rd rs2 : Reg) :
    ∀ i, i = Instr.touch rd rs1 ∨ i = .resolve rd rs1 rs2 ∨ i = .frel rs1 →
      exec i s = .next (s.closed.takeTrap s.closed.cur false 48 0x03 h) := by
  have touch := State.touch_idle (s.closed_waiting.trans starts.1) rd rs1
  have named := (s.closed_x rs1).trans names
  have accept := (State.closed_acceptHandle starts h).trans passed
  have self := State.notSelf_own (s.closed_task.trans own)
  rintro i (rfl | rfl | rfl)
  case inl => exact (exec_touch s).trans (closing_trap starts rfl quiet (by rw [touch, named, accept, self]; rfl))
  case inr.inl => exact (exec_resolve s).trans (closing_trap starts rfl quiet (by simp only [named, accept, self]; rfl))
  case inr.inr => exact (exec_frel s).trans (closing_trap starts rfl quiet (by simp only [named, accept, self]; rfl))

/-- A handle that its home does not know is the trap of each word (R149 check 4). -/
theorem exec_handleWord_gone (other : s.me.task ≠ some h) (here : s.closed.isHere h = true) (unknown : s.closed.fut? h = none)
    (unspilled : s.closed.findSpill h = none) (rd rs2 : Reg) :
    ∀ i, IsFutureWord rd rs1 rs2 i → exec i s = .next (s.closed.takeTrap s.closed.cur false 48 0x04 h) := by
  have touch := State.touch_idle (s.closed_waiting.trans starts.1) rd rs1
  have named := (s.closed_x rs1).trans names
  have accept := (State.closed_acceptHandle starts h).trans passed
  have stranger : s.closed.me.task ≠ some h := s.closed_task ▸ other
  have notSelf := State.notSelf_other stranger
  obtain ⟨resolve, cancel, poison, frel⟩ := State.ask_gone here unknown unspilled
  rintro i (rfl | rfl | rfl | rfl | rfl)
  case inl =>
    refine (exec_touch s).trans (closing_trap starts rfl quiet ?_)
    rw [touch, named, accept, notSelf]
    exact (if_pos here).trans (State.touchHere_gone unknown unspilled rd _)
  case inr.inl =>
    exact (exec_resolve s).trans (closing_trap starts rfl quiet (by simp only [named, accept, notSelf, resolve]; rfl))
  case inr.inr.inl =>
    exact (exec_cancel s).trans (closing_trap starts rfl quiet (by
      simp only [named, State.endOther, accept, if_neg stranger, cancel]; rfl))
  case inr.inr.inr.inl =>
    exact (exec_poison s).trans (closing_trap starts rfl quiet (by
      simp only [named, State.endOther, accept, if_neg stranger, poison]; rfl))
  case inr.inr.inr.inr =>
    exact (exec_frel s).trans (closing_trap starts rfl quiet (by simp only [named, accept, notSelf, frel]; rfl))

end

end Sys2Proof.Machine

open Sys2Proof Sys2Proof.Machine

/-- Settles O34: each check that fails is the trap of every word that makes it, in its own state or the closed one. -/
theorem handlesAreCheckedInOrder : Obligations.HandlesAreCheckedInOrder := by
  unfold Obligations.HandlesAreCheckedInOrder
  intro s rd rs1 rs2 h starts quiet names
  have refuses {cause sub : Nat} (refused : s.checkHandle (clusterOf s.cur) h = .error (.trap cause sub h)) :
      exec (.tpoll rd rs1) s = .next (s.takeTrap s.cur false cause sub h) ∧
      ∀ i, IsFutureWord rd rs1 rs2 i → exec i s = .next (s.closed.takeTrap s.closed.cur false cause sub h) :=
    ⟨exec_tpoll_refused starts.1 (names ▸ refused) rd,
      exec_handleWord_refused starts quiet names ((s.closed_checkHandle _ _).trans refused) rd rs2⟩
  exact ⟨fun null => refuses (State.checkHandle_null null),
    fun some_ insane => refuses (State.checkHandle_insane some_ insane),
    fun some_ sane barred => refuses (State.checkHandle_barred some_ sane barred),
    fun passed own => exec_handleWord_own starts quiet names passed own rd rs2,
    fun passed other here unknown unspilled =>
      exec_handleWord_gone starts quiet names passed other here unknown unspilled rd rs2⟩
end

section
/-! PROOFS. Terminal transitions of a future (R150, R153, R161, R166): the future and the waiter records that one leaves. -/

namespace Sys2Proof.Machine

/-! ### A future in the table -/

/-- A handle finds its future in this package, in its slot, in use and of its generation (R148). -/
theorem State.fut?_some {s : State} {h : Word} {f : Future} (has : s.fut? h = some f) :
    s.isHere h = true ∧ f.state ≠ 0 ∧ f.gen = handleGen h := by
  rw [State.fut?] at has
  split at has
  next here =>
    split at has
    next g _ =>
      split at has
      next current =>
        obtain rfl := Option.some.inj has
        exact ⟨here, current⟩
      next => cases has
    next => cases has
  next => cases has

/-- A future of the handle's generation put into its slot is what the handle finds. -/
theorem State.fut?_setFut {s : State} {h : Word} {g : Future} (here : s.isHere h = true) (used : g.state ≠ 0)
    (current : g.gen = handleGen h) : (s.setFut h g).fut? h = some g := by
  have place : (s.setFut h g).futures.find ((s.setFut h g).futKey h) = some g := Table.find_put_same _ _ _
  rw [State.fut?, if_pos (show (s.setFut h g).isHere h = true from here), place]
  exact if_pos ⟨used, current⟩

/-! ### The transition -/

/-- The future as a terminal transition leaves it (R150, R153). -/
def State.endedFut (s : State) (h : Word) (f : Future) (st vd : Nat) (v : Word) : Future :=
  { f with state := st, value := v, verdict := if st = 3 then BitVec.ofNat 2 vd else f.verdict, resolvedAt := s.tick.serial,
           touchers := if st = 3 ∧ f.once then s.tick.touchersOf (s.waitersOf h) else [], touched := false }

/-- The transition without its waiter records, before any wake is sent (R161, R162). -/
def State.settled (s : State) (h : Word) (f : Future) (st vd : Nat) (v : Word) : State :=
  let t := s.tick.setFut h (s.endedFut h f st vd v)
  t.dropWaiters (t.homeOf h) fun w => w.future == h

/-- The state in which all waiters have been woken. -/
def State.awoken (s : State) (h : Word) (f : Future) (st vd : Nat) (v : Word) : State :=
  wakeAll (s.settled h f st vd v) st v ((s.settled h f st vd v).seenVerdict f.launch vd) (f.once && st == 3) f.launch
    (s.waitersOf h)

/-- Only the touch of another chip that completes with the transition comes after the wakes (R152, log 32). -/
theorem State.makeTerminal_of {s : State} {h : Word} {f : Future} (has : s.fut? h = some f) (st vd : Nat) (v : Word) :
    s.makeTerminal h st v vd =
      if st = 3 ∧ f.once ∧ ((s.waitersOf h).any fun w => !w.any && !(s.awoken h f st vd v).isHere w.task)
      then (s.awoken h f st vd v).touchDone h none else s.awoken h f st vd v := by
  rw [State.makeTerminal, has]
  rfl

theorem State.awoken_sameFuts (s : State) (h : Word) (f : Future) (st vd : Nat) (v : Word) :
    SameFuts (s.tick.setFut h (s.endedFut h f st vd v)) (s.awoken h f st vd v) :=
  (dropWaiters_futs _ _ _).trans (wakeAll_futs _ _ _ _ _ _ _)

/-- Wakes and the records that go leave the future as the transition made it. -/
theorem State.awoken_fut? {s : State} {h : Word} {f : Future} {st : Nat} (has : s.fut? h = some f) (terminal : 3 ≤ st)
    (vd : Nat) (v : Word) : (s.awoken h f st vd v).fut? h = some (s.endedFut h f st vd v) := by
  obtain ⟨here, -, current⟩ := State.fut?_some has
  rw [fut_congr (s.awoken_sameFuts h f st vd v)]
  exact State.fut?_setFut here (Nat.ne_of_gt (Nat.lt_of_lt_of_le (by decide) terminal)) current

theorem State.awoken_waitersOf (s : State) (h : Word) (f : Future) (st vd : Nat) (v : Word) :
    (s.awoken h f st vd v).waitersOf h = [] :=
  (wakeAll_fewer h _ _ _ _ _ _ _).2 (dropWaiters_none _ h)

theorem State.awoken_isHere (s : State) (h w : Word) (f : Future) (st vd : Nat) (v : Word) :
    (s.awoken h f st vd v).isHere w = s.isHere w := by
  obtain ⟨-, forwards, chip⟩ := s.awoken_sameFuts h f st vd v
  rw [State.isHere, chip, forwards]
  rfl

/-- A touch that completes adds no waiter record. -/
theorem State.touchDone_fewer (s : State) (h k : Word) (woken : Option Word) : Fewer h s (s.touchDone k woken) := by
  have cleared (c i : Nat) : Fewer h s (s.clearSpill c i) := by
    refine ⟨(clearSpill_futs _ _ _).2.1, fun none_ => ?_⟩
    rwa [State.waitersOf, homeOf_congr (clearSpill_futs _ _ _).2.1, clearSpill_waiters]
  rw [State.touchDone]
  split
  · split
    · extract_lets left
      split
      · exact fewer_of rfl rfl
      · exact fewer_of rfl rfl
    · exact Fewer.refl h s
  · split
    · split
      · exact cleared _ _
      · exact Fewer.refl h s
    · exact Fewer.refl h s

theorem State.makeTerminal_waitersOf {s : State} {h : Word} {f : Future} (has : s.fut? h = some f) (st vd : Nat) (v : Word) :
    (s.makeTerminal h st v vd).waitersOf h = [] := by
  have none_ := s.awoken_waitersOf h f st vd v
  rw [State.makeTerminal_of has]
  split
  next => exact (State.touchDone_fewer _ h h none).2 none_
  next => exact none_

/-- Unless a touch of another chip completes with it, the transition leaves the future with its outcome. -/
theorem State.makeTerminal_fut? {s : State} {h : Word} {f : Future} {st : Nat} (has : s.fut? h = some f) (terminal : 3 ≤ st)
    (stays : f.once = false ∨ st ≠ 3 ∨ ∀ w ∈ s.waitersOf h, w.any = true ∨ s.isHere w.task = true) (vd : Nat) (v : Word) :
    (s.makeTerminal h st v vd).fut? h = some (s.endedFut h f st vd v) := by
  rw [State.makeTerminal_of has, if_neg]
  · exact State.awoken_fut? has terminal vd v
  · rintro ⟨resolved, once, away⟩
    rcases stays with plain | other | home
    · exact absurd once (by simp [plain])
    · exact other resolved
    · obtain ⟨w, waits, gone⟩ := List.any_eq_true.mp away
      rw [State.awoken_isHere] at gone
      rcases home w waits with any | here <;> simp [*] at gone

/-! ### A terminal future changes no more (R166) -/

section
variable {s : State} {h : Word} {f : Future} (has : s.fut? h = some f) (terminal : 3 ≤ f.state)
include has terminal

theorem State.homeApply_resolve_terminal (v : Word) (w : Nat) : s.homeApply h (.resolve v w) =
    (s, some (if f.hasTask then .trap 48 0x06 h else .value 0)) := by
  simp only [State.homeApply, has, if_pos terminal]
  split <;> rfl

theorem State.homeApply_cancel_terminal : s.homeApply h .cancel = (s, some (.value 0)) := by
  simp only [State.homeApply, has, if_pos terminal]

theorem State.homeApply_poison_terminal (v : Word) : s.homeApply h (.poison v) = (s, some (.value 0)) := by
  simp only [State.homeApply, has, if_pos terminal]

end

end Sys2Proof.Machine

open Sys2Proof Sys2Proof.Machine

/-- Settles O36: the transition puts the ended future into its slot and removes its waiter records; wakes touch neither. -/
theorem terminalFuturesHoldTheirOutcome : Obligations.TerminalFuturesHoldTheirOutcome := by
  unfold Obligations.TerminalFuturesHoldTheirOutcome
  intro s h f st vd v has terminal
  refine ⟨State.makeTerminal_waitersOf has st vd v,
    fun stays => ⟨_, State.makeTerminal_fut? has terminal stays vd v, rfl, rfl, rfl, rfl⟩, fun ended v' w => ?changesNoMore⟩
  case changesNoMore =>
    exact ⟨State.homeApply_resolve_terminal has ended v' w, State.homeApply_cancel_terminal has ended,
      State.homeApply_poison_terminal has ended v'⟩
end

section
/-! PROOFS. Stages (R193 to R195): what arming, the release of a pin and an arriving beat make of a stage of the table. -/

namespace Sys2Proof.Machine

/-! ### A stage by itself -/

/-- A stage after its hoist; the hold of a prefetch ends with it (R158, R194). -/
def Stage.hoisted (t : Stage) : Stage := { t.hoist with prefetch := false }

/-- A hoist that is due takes place without a pin. -/
def Stage.hoistedIfDue (t : Stage) : Stage := if t.due ∧ t.pins = 0 then t.hoisted else t

/-- Where an armed stage's count equals its target the hoist falls due. -/
def Stage.matched (t : Stage) : Stage :=
  if t.armed ∧ t.count = t.target then { t with due := true }.hoistedIfDue else t

theorem Stage.hoistedIfDue_pinned {t : Stage} (pinned : t.pins ≠ 0) : t.hoistedIfDue = t := if_neg (pinned ·.2)

theorem Stage.hoistedIfDue_idle {t : Stage} (idle : t.due = false) : t.hoistedIfDue = t := if_neg (by simp [idle])

theorem Stage.hoistedIfDue_free {t : Stage} (due : t.due = true) (free : t.pins = 0) : t.hoistedIfDue = t.hoisted :=
  if_pos ⟨due, free⟩

/-! ### Its entry in the table -/

theorem State.stage_congr {s t : State} (same : t.clusters = s.clusters) (c n : Nat) : t.stage c n = s.stage c n := by
  rw [State.stage, State.cluster_congr same, State.stage]

theorem State.retryPrefetches_clusters (s : State) (c : Nat) : (s.retryPrefetches c).clusters = s.clusters := by
  obtain ⟨l, posted⟩ := s.retryPrefetches_posts c
  rw [posted]

theorem State.prefetchesHoisted_clusters (s : State) (c n : Nat) : (s.prefetchesHoisted c n).clusters = s.clusters := by
  rw [State.prefetchesHoisted]
  generalize s.tasks = l
  induction l generalizing s with
  | nil => rfl
  | cons e r ih =>
    rw [List.foldl_cons, ih]
    split <;> rfl

@[simp] theorem State.stage_hoistStage (s : State) (c n : Nat) : (s.hoistStage c n).stage c n = (s.stage c n).hoisted := by
  have hoisted : (s.modStage c n fun t => t.hoisted).stage c n = (s.stage c n).hoisted := s.stage_modStage c n _
  rw [← hoisted]
  refine State.stage_congr ?_ c n
  rw [State.hoistStage, State.retryPrefetches_clusters]
  split
  · exact State.prefetchesHoisted_clusters _ c n
  · rfl

@[simp] theorem State.stage_hoistIfDue (s : State) (c n : Nat) :
    (s.hoistIfDue c n).stage c n = (s.stage c n).hoistedIfDue := by
  rw [State.hoistIfDue, Stage.hoistedIfDue]
  split
  · exact s.stage_hoistStage c n
  · rfl

@[simp] theorem State.stage_matchStage (s : State) (c n : Nat) : (s.matchStage c n).stage c n = (s.stage c n).matched := by
  simp only [State.matchStage, Stage.matched]
  split
  · rw [State.stage_hoistIfDue, State.stage_modStage]
  · rfl

@[simp] theorem State.stage_armStage (s : State) (c n : Nat) (v : BitVec 32) :
    (s.armStage c n v).stage c n = { s.stage c n with target := v, armed := true }.matched := by
  rw [State.armStage, State.stage_matchStage, State.stage_modStage]

@[simp] theorem State.stage_answer (s : State) (h : Nat) (r : Reply) (c n : Nat) :
    (s.answer h r).stage c n = s.stage c n := rfl

/-! ### The release of a pin -/

/-- The stage when one pin has gone, and with it perhaps a hoist that was due. -/
def Stage.unpinned (t : Stage) : Stage := { t with pins := t.pins - 1 }.hoistedIfDue

theorem Stage.unpinned_due {t : Stage} (due : t.due = true) (last : t.pins = 1) :
    t.unpinned = { t with pins := 0 }.hoisted := by
  rw [Stage.unpinned, last]
  exact Stage.hoistedIfDue_free due rfl

theorem Stage.unpinned_idle {t : Stage} (idle : t.due = false) (last : t.pins = 1) : t.unpinned = { t with pins := 0 } := by
  rw [Stage.unpinned, last]
  exact Stage.hoistedIfDue_idle idle

theorem Stage.unpinned_more {t : Stage} (more : 2 ≤ t.pins) : t.unpinned = { t with pins := t.pins - 1 } :=
  Stage.hoistedIfDue_pinned (Nat.sub_ne_zero_of_lt more)

/-- What the release of a pin does before it looks at the hoists that wait. -/
def State.unpin (s : State) (c n : Nat) : State := (s.modStage c n fun t => { t with pins := t.pins - 1 }).hoistIfDue c n

theorem State.stage_unpin (s : State) (c n : Nat) : (s.unpin c n).stage c n = (s.stage c n).unpinned := by
  rw [State.unpin, State.stage_hoistIfDue, State.stage_modStage, Stage.unpinned]

theorem State.releasePin_eq (s : State) (c n : Nat) : s.releasePin c n =
    if (s.stage c n).unpinned.pins = 0 ∧ (s.stage c n).unpinned.lifts = 0 then
      serveHoists c n (s.stage c n).unpinned.hoisters ((s.unpin c n).setStage c n { (s.stage c n).unpinned with hoisters := [] })
    else s.unpin c n := by
  rw [← s.stage_unpin c n]
  rfl

theorem State.releasePin_pinned {s : State} {c n : Nat} (more : (s.stage c n).unpinned.pins ≠ 0) :
    (s.releasePin c n).stage c n = (s.stage c n).unpinned := by
  rw [State.releasePin_eq, if_neg (more ·.1), State.stage_unpin]

theorem State.releasePin_unwaited {s : State} {c n : Nat} (nobody : (s.stage c n).unpinned.hoisters = []) :
    (s.releasePin c n).stage c n = (s.stage c n).unpinned := by
  rw [State.releasePin_eq, nobody]
  split
  · rw [serveHoists, State.stage_setStage, ← nobody]
  · exact s.stage_unpin c n

/-- One hoist that waits takes place when the last pin goes (R195). -/
theorem State.releasePin_waited {s : State} {c n h : Nat} (last : (s.stage c n).unpinned.pins = 0)
    (free : (s.stage c n).unpinned.lifts = 0) (waits : (s.stage c n).unpinned.hoisters = [h]) :
    (s.releasePin c n).stage c n = { (s.stage c n).unpinned with hoisters := [] }.hoisted := by
  rw [State.releasePin_eq, if_pos ⟨last, free⟩, waits, serveHoists, serveHoists, State.stage_answer, State.stage_hoistStage,
    State.stage_setStage]

/-! ### An arriving beat -/

/-- The count of a stage after one beat more; it stays at its highest value (R193). -/
def Stage.countBeat (t : Stage) : BitVec 32 := BitVec.ofNat 32 (min (t.count.toNat + 64) (2 ^ 32 - 1))

/-- The beat written to the shadow half and counted. -/
def State.landBeat (s : State) (c n off : Nat) (bs : List Byte) : State :=
  (s.perform none none ((s.stage c n).shadow c off) 0 bs).modStage c n fun t => { t with count := t.countBeat }

theorem State.stage_landBeat (s : State) (c n off : Nat) (bs : List Byte) :
    (s.landBeat c n off bs).stage c n = { s.stage c n with count := (s.stage c n).countBeat } := by
  have same : (s.perform none none ((s.stage c n).shadow c off) 0 bs).stage c n = s.stage c n :=
    State.stage_congr (by rw [State.perform_rest]) c n
  rw [State.landBeat, State.stage_modStage, same]

/-- The bytes of a stage lie in a scratchpad, which no key covers: the beat is the bytes themselves (R48, R59). -/
theorem State.landBeat_byte (s : State) (c n off a : Nat) (bs : List Byte) :
    (s.landBeat c n off bs).byte a = (s.setBytes ((s.stage c n).shadow c off) bs).byte a := by
  have pad : hbmSize ≤ (s.stage c n).shadow c off := by
    have low : hbmSize ≤ padBase := Nat.pow_le_pow_right (by decide) (by decide)
    rw [Stage.shadow, padAddr, Nat.add_assoc]
    exact Nat.le_add_right_of_le low
  have plain : s.rekey none ((s.stage c n).shadow c off) = s := if_pos pad
  have mem := s.perform_mem none none ((s.stage c n).shadow c off) 0 bs
  rw [plain] at mem
  exact State.byte_congr ((State.modStage_mem ..).trans mem) a

section
variable {s : State} {c n off : Nat} {bs : List Byte} (defined : (s.stage c n).defined = true)
  (inside : off + 64 ≤ (s.stage c n).size) (free : (s.stage c n).lifts = 0)
include defined inside free

theorem State.arrive_admitted : s.arrive c n off bs =
    if (s.stage c n).armed ∧ (s.stage c n).target.toNat < (s.stage c n).count.toNat + 64 then .error (31, 0x04)
    else .ok ((s.landBeat c n off bs).matchStage c n) := by
  simp only [State.arrive, defined, free, Nat.not_lt.mpr inside, gt_iff_lt, Bool.not_true, Bool.false_eq_true,
    Nat.lt_irrefl, if_false]
  rfl

/-- At a stage that is not armed a beat only lands. -/
theorem State.arrive_unarmed (unarmed : (s.stage c n).armed = false) :
    s.arrive c n off bs = .ok (s.landBeat c n off bs) := by
  have none_ : (s.landBeat c n off bs).matchStage c n = s.landBeat c n off bs := by
    simp only [State.matchStage, s.stage_landBeat]
    exact if_neg (by simp [unarmed])
  rw [State.arrive_admitted defined inside free, if_neg (by simp [unarmed]), none_]

end

end Sys2Proof.Machine

open Sys2Proof Sys2Proof.Machine

/-- Settles O39: each operation makes of the entry of its stage what the hoist, the match and the release of a pin make of a
stage by itself, and a beat is its bytes written to the scratchpad. -/
theorem stagesCountAndHoist : Obligations.StagesCountAndHoist := by
  unfold Obligations.StagesCountAndHoist
  refine ⟨fun s c n v => ?arms, fun s c n due => ⟨fun last nobody => ?dueHoist, fun more => ?holds⟩,
    fun s c n h idle last free waits => ?served, fun s c n off bs defined inside free => ⟨fun armed past => ?past, ?lands⟩⟩
  case arms =>
    rw [State.stage_armStage, Stage.matched]
    exact ⟨fun differs => if_neg (differs ·.2),
      fun equals pinned => (if_pos ⟨rfl, equals⟩).trans (Stage.hoistedIfDue_pinned pinned),
      fun equals unpinned => (if_pos ⟨rfl, equals⟩).trans (Stage.hoistedIfDue_free rfl unpinned)⟩
  case dueHoist =>
    have hoists := Stage.unpinned_due due last
    rw [State.releasePin_unwaited (by rw [hoists]; exact nobody), hoists]
    rfl
  case holds =>
    have pinned := Stage.unpinned_more more
    rw [State.releasePin_pinned (by rw [pinned]; exact Nat.sub_ne_zero_of_lt more), pinned]
  case served =>
    have gone := Stage.unpinned_idle idle last
    rw [State.releasePin_waited (by rw [gone]) (by rw [gone]; exact free) (by rw [gone]; exact waits), gone]
    rfl
  case past => rw [State.arrive_admitted defined inside free, if_pos ⟨armed, past⟩]
  case lands =>
    intro unarmed
    have entry := s.stage_landBeat c n off bs
    refine ⟨_, State.arrive_unarmed defined inside free unarmed, by rw [entry, Stage.countBeat], by rw [entry],
      fun whole wf => ⟨fun i below => ?_, fun a outside => ?_⟩⟩
    · rw [State.landBeat_byte, State.byte_setBytes _ _ _ _ wf (whole ▸ below), List.getD_eq_getElem]
    · rw [State.landBeat_byte]
      exact State.byte_setBytes_other _ _ _ _ wf (whole ▸ outside)
end

section
/-! PROOFS. The lift words (R302 to R318): where each traps, what it makes of the axis state, and the active sets. -/

namespace Sys2Proof.Machine

/-! ### Checks that the words share -/

theorem State.needRegion_inside {s : State} (inside : s.inRegion s.cur = true) : s.needRegion = .ok () := if_pos inside

theorem State.needRegion_outside {s : State} (outside : s.inRegion s.cur = false) :
    s.needRegion = .error (.trapWord 29 0x0A) := if_neg (Bool.eq_false_iff.mp outside)

/-- A control transfer that traps with its own encoding. -/
theorem runJump_word {i : Instr} {s : State} {body : State → Except Exc State} {c b : Nat} (starts : s.starts)
    (traps : body s = .error (.trapWord c b)) : runJump i s body = .next (s.takeTrap s.cur false c b (wordOfInstr i)) := by
  rw [runJump_error traps (by simp), State.finish_word s i c b starts]

/-- Outside a region the axis state is frozen (R311). -/
theorem exec_liftWord_outside {s : State} (starts : s.starts) (outside : s.inRegion s.cur = false) (rd rs1 rs2 : Reg)
    (md ms : TileReg) (tr : TagReg) : ∀ i ∈ [Instr.lift rd rs1 rs2, .lret rs1, .ltag tr rs2, .lred md ms rs2],
      exec i s = .next (s.takeTrap s.cur false 29 0x0A (wordOfInstr i)) := by
  have frozen := State.needRegion_outside outside
  simp only [List.mem_cons, List.not_mem_nil, or_false]
  rintro i (rfl | rfl | rfl | rfl)
  case inl => exact (exec_lift s).trans (runJump_word starts (by simp only [frozen]; rfl))
  case inr.inl => exact (exec_lret s).trans (runJump_word starts (by simp only [frozen]; rfl))
  case inr.inr.inl => exact (exec_ltag s).trans (runOpen_word starts (by simp only [frozen]; rfl))
  case inr.inr.inr => exact (exec_lred s).trans (runOpen_word starts (by simp only [frozen]; rfl))

/-! ### `lift` (R302, R313) -/

section
variable {s : State} {rs1 rs2 : Reg} (rd : Reg) (inside : s.inRegion s.cur = true)
include inside

theorem exec_lift_fifth (starts : s.starts) (deep : s.myLift.axes.length = 4) : exec (.lift rd rs1 rs2) s =
    .next (s.takeTrap s.cur false 29 0x01 (wordOfInstr (.lift rd rs1 rs2))) := by
  have depth : s.depth = 4 := deep
  refine (exec_lift s).trans (runJump_word starts ?effect)
  simp only [State.needRegion_inside inside, depth]
  rfl

variable {t : State} {bs : List Byte} (room : s.myLift.axes.length ≠ 4) (read : s.load (s.x rs2) 16 16 = .ok (t, bs))
include room read

/-- A descriptor that fails a check is the trap of that check. -/
theorem exec_lift_refused {c b : Nat} (starts : s.starts)
    (refused : t.liftChecks (s.x rs1) (liftDesc bs) = .error (.trapWord c b)) : exec (.lift rd rs1 rs2) s =
      .next (s.takeTrap s.cur false c b (wordOfInstr (.lift rd rs1 rs2))) := by
  have depth : s.depth ≠ 4 := room
  refine (exec_lift s).trans (runJump_word starts ?effect)
  simp only [State.needRegion_inside inside, if_neg depth, read, bind, Except.bind, refused]

theorem exec_lift_opens {u : State} (checked : t.liftChecks (s.x rs1) (liftDesc bs) = .ok ())
    (free : (maskedTiles (liftDesc bs).mask).any t.user = false)
    (shadowed : t.shadowTiles (maskedTiles (liftDesc bs).mask) = .ok u) {v : State}
    (gains : v = gainAxis (u.openAxis (s.x rs1) (liftDesc bs)) (BitVec.ofNat 4 (2 ^ s.myLift.axes.length))
      (maskedTiles (liftDesc bs).mask)) (fits : v.spillFits = true) :
    exec (.lift rd rs1 rs2) s = .next ((v.setX rd (v.me.pc + 4)).jumpTo (s.x rs1)).retire := by
  have depth : s.depth ≠ 4 := room
  subst gains
  refine (exec_lift s).trans (runJump_ok ?effect)
  have spill := State.spillCheck_ok (b := s) fits
  simp only [State.needRegion_inside inside, if_neg depth, read, bind, Except.bind, checked, free, Bool.false_eq_true, if_false,
    shadowed, pure, Except.pure]
  rw [State.depth, spill]

end

theorem State.liftChecks_extent {t : State} (entry : Word) {d : LiftDesc} (bad : d.extent = 0 ∨ d.extent > 64) :
    t.liftChecks entry d = .error (.trapWord 29 0x02) := if_pos bad

theorem State.liftChecks_tuples {t : State} (entry : Word) {d : LiftDesc} (some_ : d.extent ≠ 0) (small : d.extent ≤ 64)
    (many : 256 < t.myLift.count t.myLift.all * d.extent) : t.liftChecks entry d = .error (.trapWord 29 0x03) :=
  (if_neg (by omega)).trans (if_pos many)

/-! ### `lret` (R314) -/

/-- The axis state of a task whose innermost axis has closed, its tiles cleared, and the shadows of its images gone. -/
def State.closeAxis (t : State) (h : Word) (ts : List Nat) (bit : Nat) : State :=
  let u := (clearTiles h ts (t.modLift (rejoinDepth t.depth))).modLift Lift.close
  u.modTaskOf u.cur fun x =>
    { x with region := { x.region with imgShadow := x.region.imgShadow.filter fun y => !y.tags.getLsbD bit } }

section
variable {s : State} {rs1 : Reg} (inside : s.inRegion s.cur = true)
include inside

theorem exec_lret_none (starts : s.starts) (none_ : s.myLift.axes = []) : exec (.lret rs1) s =
    .next (s.takeTrap s.cur false 29 0x09 (wordOfInstr (.lret rs1))) := by
  refine (exec_lret s).trans (runJump_word starts ?effect)
  simp only [State.needRegion_inside inside, none_]
  rfl

theorem exec_lret_closes {a : Axis} {h : Word} {ts : List Nat} {t : State} (innermost : s.myLift.axes.getLast? = some a)
    (task : s.me.task = some h)
    (tagged : ts = (List.range s.tileCount).filter fun n => (s.tagsOf n).getLsbD (s.myLift.axes.length - 1))
    (free : ts.any s.user = false) (shadowed : s.shadowTiles ts = .ok t) :
    let v := t.closeAxis h ts (s.myLift.axes.length - 1)
    exec (.lret rs1) s = .next ((dropLifts v (clusterOf v.cur) [a]).jumpTo (s.x rs1)).retire := by
  subst tagged
  refine (exec_lret s).trans (runJump_ok ?effect)
  simp only [State.needRegion_inside inside, innermost, task, State.depth, free, bind, Except.bind, shadowed, pure, Except.pure,
    Bool.false_eq_true, if_false]
  rfl

end

/-! ### `ltag` (R315) -/

section
variable {s : State} {rs2 : Reg} (inside : s.inRegion s.cur = true)
include inside

theorem exec_ltag_closed (k : KReg) (starts : s.starts)
    (closed : ((s.x rs2).setWidth 4 : BitVec 4) &&& s.myLift.all ≠ (s.x rs2).setWidth 4) : exec (.ltag (.mask k) rs2) s =
      .next (s.takeTrap s.cur false 29 0x09 (wordOfInstr (.ltag (.mask k) rs2))) := by
  refine (exec_ltag s).trans (runOpen_word starts ?effect)
  simp only [State.needRegion_inside inside, bind, Except.bind, bne_iff_ne, ne_eq, closed, not_false_eq_true, if_true]

variable {new : BitVec 4} (named : (s.x rs2).setWidth 4 = new) (open_ : new &&& s.myLift.all = new)
include named open_

theorem exec_ltag_mask {k : KReg} (fits : ((s.shadowImages (16 + k.toNat) (s.myLift.maskTags k) 1
      (s.myLift.tuples (s.myLift.maskTags k))).modLift fun l => l.retagMask k new).spillFits = true) :
    exec (.ltag (.mask k) rs2) s = .next ((s.shadowImages (16 + k.toNat) (s.myLift.maskTags k) 1
      (s.myLift.tuples (s.myLift.maskTags k))).modLift fun l => l.retagMask k new).complete := by
  subst named
  refine (exec_ltag s).trans (runOpen_ok ?effect)
  simp only [State.needRegion_inside inside, bind, Except.bind, bne_iff_ne, ne_eq, open_, not_true_eq_false, if_false,
    State.spillCheck_ok fits]

theorem exec_ltag_tile {md : TileReg} {t : State} (fault : s.opFaultOn [md.toNat] = .ok ()) (below : md.toNat < s.tileCount)
    (free : s.user md.toNat = false) (shadowed : s.shadowTile md.toNat = .ok t)
    (fits : ((t.shadowImages md.toNat (s.tagsOf md.toNat) 256 (s.myLift.tuples (s.tagsOf md.toNat))).retagTile md.toNat
      new).spillFits = true) :
    exec (.ltag (.tile md) rs2) s = .next ((t.shadowImages md.toNat (s.tagsOf md.toNat) 256
      (s.myLift.tuples (s.tagsOf md.toNat))).retagTile md.toNat new).complete := by
  subst named
  refine (exec_ltag s).trans (runOpen_ok ?effect)
  have tiles : s.tilesBelow [md.toNat] = .ok () := State.tilesBelow_ok (by simpa using below)
  simp only [State.needRegion_inside inside, bind, Except.bind, fault, tiles, bne_iff_ne, ne_eq, open_, not_true_eq_false,
    if_false, free, Bool.false_eq_true, shadowed, State.spillCheck_ok fits]

end

/-! ### `lred` (R316) -/

/-- The images of the result of `lred`, each for a tuple over the tag set without the axis. -/
def State.reducedImages (s : State) (h : Word) (ms : TileReg) (axis op idx : Nat) (new : BitVec 4) :
    List (Tup × Table Row × Nat) :=
  (s.myLift.tuples new).map fun w => (w, reduceImage (s.tileLay ms) op idx s.me.ctx.vrm.toNat s.freshBase
    ((List.range (s.myLift.exts.getD axis 0)).map fun i =>
      s.image h ms.toNat (s.myLift.flat (s.tagsOf ms.toNat) (withIndex w axis i))))

/-- The checks of `lred`, in their order, pass and no operation in progress holds its tiles (R316). -/
structure State.MayReduce (s : State) (md ms : TileReg) (axis op idx : Nat) : Prop where
  fault  : s.opFaultOn [md.toNat, ms.toNat] = .ok ()
  below  : md.toNat < s.tileCount ∧ ms.toNat < s.tileCount
  free   : s.writer ms.toNat = false ∧ s.user md.toNat = false
  opened : axis < s.myLift.axes.length
  tagged : (s.tagsOf ms.toNat).getLsbD axis = true
  full   : s.myLift.full = true
  number : op ≠ 3 → (s.tileLay ms).isNumber = true
  index  : op = 3 → idx < s.myLift.exts.getD axis 0

/-- `lred` past its checks, with the fields of x[rs2] given: the destination shadowed, tagged and written (R306, R316). -/
theorem exec_lred_reduces {s t u : State} {md ms : TileReg} {rs2 : Reg} {h : Word} {axis op idx : Nat} {new : BitVec 4}
    (inside : s.inRegion s.cur = true) (fields : bits (s.x rs2) 0 2 = axis ∧ bits (s.x rs2) 4 2 = op ∧ bits (s.x rs2) 8 8 = idx)
    (task : s.me.task = some h) (may : s.MayReduce md ms axis op idx) (shadowed : s.shadowTile md.toNat = .ok t)
    (loses : new = s.tagsOf ms.toNat &&& ~~~(BitVec.ofNat 4 (2 ^ axis)))
    (gains : u = ((t.shadowImages md.toNat (s.tagsOf md.toNat) 256 (s.myLift.tuples (s.tagsOf md.toNat))).retagTile md.toNat
      new).shadowImages md.toNat new 256 (s.myLift.tuples new)) (fits : u.spillFits = true) :
    exec (.lred md ms rs2) s = .next ((writeImages h md.toNat s.myLift new (s.reducedImages h ms axis op idx new) u).modStatus h
      md.toNat fun x => { x with fmt := BitVec.ofNat 5 (s.tag ms) }).useFresh.complete := by
  obtain ⟨rfl, rfl, rfl⟩ := fields
  obtain ⟨fault, below, ⟨unwritten, unused⟩, opened, tagged, full, number, index⟩ := may
  subst loses
  refine (exec_lred s).trans (runOpen_ok ?effect)
  have tiles : s.tilesBelow [md.toNat, ms.toNat] = .ok () := State.tilesBelow_ok (by simpa using below)
  have axes : ¬ (bits (s.x rs2) 0 2 ≥ s.depth ∨ (s.tagsOf ms.toNat).getLsbD (bits (s.x rs2) 0 2) = false) := by
    simp [tagged, State.depth, opened]
  have numbers : ¬ (bits (s.x rs2) 4 2 ≠ 3 ∧ (s.tileLay ms).isNumber = false) := fun ⟨sums, none_⟩ => by
    simp [number sums] at none_
  have indexed : ¬ (bits (s.x rs2) 4 2 = 3 ∧ bits (s.x rs2) 8 8 ≥ s.myLift.exts.getD (bits (s.x rs2) 0 2) 0) :=
    fun ⟨picks, past⟩ => absurd (index picks) (Nat.not_lt.mpr past)
  have spill := State.spillCheck_ok (b := s) fits
  subst gains
  simp only [State.needRegion_inside inside, bind, Except.bind, fault, tiles, unwritten, unused, Bool.or_self, Bool.false_eq_true,
    if_false, if_neg axes, full, Bool.not_true, if_neg numbers, if_neg indexed, task, shadowed, pure, Except.pure, spill]
  rfl

/-! ### `laxis` and `lbr` (R317, R318) -/

theorem exec_laxis_wrote {s : State} (idle : s.me.waiting = none) (rd rs1 : Reg) :
    exec (.laxis rd rs1) s = .next (s.wrote rd (laxisWord s.myLift (bits (s.x rs1) 0 2))) := by
  rw [exec_laxis, execLaxis, ← State.wrote_eq s idle]
  exact runOpen_ok rfl

/-- Without an axis that a region has open, `lbr` is a branch on image 0 of its mask (log 40). -/
theorem exec_lbr_plain {s : State} {k : KReg} (imm : BitVec 12) (idle : s.me.waiting = none)
    (plain : s.inRegion s.cur = false ∨ s.myLift.axes = []) : exec (.lbr k imm) s =
      .next (if s.myLift.mask k (s.myLift.axes.map fun _ => 0) ≠ 0 then s.went (s.me.pc + immB imm) true 0 0
        else s.went (s.me.pc + 4) false 0 0) := by
  have none_ : (if s.inRegion s.cur then s.myLift.axes.getLast? else none) = none := by
    rcases plain with outside | closed <;> simp [*]
  rw [← State.jumped_eq s idle, ← State.passed_eq s idle]
  refine (exec_lbr s).trans ((runJump_ok (by simp only [none_]; rfl)).trans ?_)
  simp only [bne_iff_ne]
  split <;> rfl

section
variable {s : State} {k : KReg} {imm : BitVec 12} {a : Axis} (inside : s.inRegion s.cur = true)
  (innermost : s.myLift.axes.getLast? = some a)
include inside innermost

theorem exec_lbr_below (starts : s.starts) (below : (s.me.pc + immB imm).toNat < a.entry.toNat) : exec (.lbr k imm) s =
    .next (s.takeTrap s.cur false 29 0x07 (wordOfInstr (.lbr k imm))) := by
  refine (exec_lbr s).trans (runJump_word starts ?effect)
  simp only [inside, if_true, innermost, below]

theorem exec_lbr_branches {m : Lift} {p : Word} (above : a.entry.toNat ≤ (s.me.pc + immB imm).toNat)
    (branches : s.myLift.branch k s.me.pc (s.me.pc + immB imm) = .ok (m, p)) (fits : (s.modLift fun _ => m).spillFits = true) :
    exec (.lbr k imm) s = .next (if p = s.me.pc + 4 then (s.modLift fun _ => m).setPc p
      else (s.modLift fun _ => m).jumpTo p).retire := by
  refine (exec_lbr s).trans (runJump_ok ?effect)
  simp only [inside, if_true, innermost, Nat.not_lt.mpr above, if_false, branches, State.spillCheck_ok fits]

end

/-! ### The batched branch -/

section
variable {l : Lift} {k : KReg} {pc target : Word}

theorem Lift.branch_none (none_ : l.takers k = 0) : l.branch k pc target = .ok (l, pc + 4) := if_pos none_

variable (some_ : l.takers k ≠ 0)
include some_

/-- All active tuples take the branch, and no waiting ones stand before its target. -/
theorem Lift.branch_all (all : l.active &&& ~~~(l.takers k) = 0) (clear : l.stack = [] ∨ target.toNat ≤ pc.toNat) :
    l.branch k pc target = .ok (l, target) := by
  refine (if_neg some_).trans ((if_pos all).trans ?_)
  rcases clear with empty | backward
  · rw [empty]
    cases decide (pc.toNat < target.toNat) <;> rfl
  · rw [decide_eq_false (Nat.not_lt.mpr backward)]

variable (others : l.active &&& ~~~(l.takers k) ≠ 0)
include others

theorem Lift.branch_forward (forward : pc.toNat < target.toNat) : l.branch k pc target =
    (l.insert target (l.takers k)).map fun m => ({ m with active := l.active &&& ~~~(l.takers k) }, pc + 4) :=
  (if_neg some_).trans ((if_neg others).trans (if_pos (decide_eq_true forward)))

theorem Lift.branch_backward (backward : target.toNat ≤ pc.toNat) : l.branch k pc target =
    (l.insert (pc + 4) (l.active &&& ~~~(l.takers k))).map fun m => ({ m with active := l.takers k }, target) :=
  (if_neg some_).trans ((if_neg others).trans (if_neg (by simpa using backward)))

end

/-! ### Active sets (R304) -/

/-- A mask that gathers one bit for each index that passes a test holds bit `j` where some index gives it. -/
theorem gather_getLsbD (p : Nat → Bool) (g : Nat → Nat) {j : Nat} (below : j < 256) (l : List Nat) (m : Mask) :
    (l.foldl (fun (m : Mask) i => if p i then m ||| BitVec.ofNat 256 (2 ^ g i) else m) m).getLsbD j = true ↔
      m.getLsbD j = true ∨ ∃ i ∈ l, p i = true ∧ g i = j := by
  induction l generalizing m with
  | nil => simp
  | cons i r ih =>
    rw [List.foldl_cons, ih]
    by_cases passes : p i = true
    · rw [if_pos passes, BitVec.getLsbD_or, bit256 _ _ below]
      simp [passes, or_assoc]
    · simp [passes]

theorem widenActive_getLsbD (a : Mask) (e : Nat) {j : Nat} (below : j < 256) :
    (widenActive a e).getLsbD j = a.getLsbD (j / e) := by
  rw [Bool.eq_iff_iff, widenActive, gather_getLsbD (fun i => a.getLsbD (i / e)) (fun i => i) below]
  simp [below]

theorem projectActive_getLsbD (a : Mask) (e : Nat) {j : Nat} (below : j < 256) :
    (projectActive a e).getLsbD j = true ↔ ∃ i, i < 256 ∧ a.getLsbD i = true ∧ i / e = j := by
  rw [projectActive, gather_getLsbD (fun i => a.getLsbD i) (fun i => i / e) below]
  simp

end Sys2Proof.Machine

open Sys2Proof Sys2Proof.Machine

/-- Settles O50: each word is one equation past its checks, or the trap of the check that fails first. -/
theorem liftWordsKeepTheAxisState : Obligations.LiftWordsKeepTheAxisState := by
  unfold Obligations.LiftWordsKeepTheAxisState
  intro s t u v rd rs1 rs2 md ms k tr imm bs i starts l word
  refine ⟨fun outside => exec_liftWord_outside starts outside rd rs1 rs2 md ms tr i, fun inside => ⟨?fifth, ?lift, ?lretNone,
    ?lret, ⟨?ltagClosed, fun open_ => ⟨?ltagMask, ?ltagTile⟩⟩, ?lred, fun a innermost => ⟨?lbrBelow, ?lbr⟩⟩,
    exec_laxis_wrote starts.1 rd rs1, exec_lbr_plain imm starts.1,
    fun pc to_ => ⟨Lift.branch_none, fun some_ all clear => Lift.branch_all some_ all clear,
      fun some_ others forward => Lift.branch_forward some_ others forward,
      fun some_ others backward => Lift.branch_backward some_ others backward⟩,
    fun a e j _ below => ⟨widenActive_getLsbD a e below, projectActive_getLsbD a e below⟩⟩
  case fifth =>
    rintro rfl deep
    exact exec_lift_fifth rd inside starts deep
  case lift =>
    rintro rfl room read
    refine ⟨fun bad => exec_lift_refused rd inside room read starts (State.liftChecks_extent _ bad),
      fun some_ small many => exec_lift_refused rd inside room read starts (State.liftChecks_tuples _ some_ small many), ?_⟩
    exact fun checked free shadowed gains fits => exec_lift_opens rd inside room read checked free shadowed gains fits
  case lretNone =>
    rintro rfl none_
    exact exec_lret_none inside starts none_
  case lret =>
    intro a h innermost task bit ts free shadowed closes drops
    subst closes drops
    exact exec_lret_closes inside innermost task rfl free shadowed
  case ltagClosed =>
    rintro closed rfl
    exact exec_ltag_closed inside k starts closed
  case ltagMask =>
    rintro rfl fits
    exact exec_ltag_mask inside rfl open_ fits
  case ltagTile =>
    rintro fault below free shadowed old rfl fits
    exact exec_ltag_tile inside rfl open_ fault below free shadowed fits
  case lred =>
    intro h w axis op idx old new e task fault belowD belowS opened tagged full number index writer user shadowed oldD gains fits
    have may : s.MayReduce md ms axis op idx :=
      ⟨fault, ⟨belowD, belowS⟩, ⟨writer, user⟩, opened, tagged, full, number, index⟩
    exact exec_lred_reduces inside ⟨rfl, rfl, rfl⟩ task may shadowed rfl gains fits
  case lbrBelow =>
    rintro rfl below
    exact exec_lbr_below inside innermost starts below
  case lbr =>
    rintro m p above branches rfl fits
    exact exec_lbr_branches inside innermost above branches fits
end

section
/-! PROOFS. The operations that end a future (R181, R182, R185): what its home makes of each, and how the word goes on; and
the requests of other chips, which a home applies once for each mark (R404). -/

namespace Sys2Proof.Machine

/-! ### At the home -/

section
variable {s : State} {h : Word} {f : Future} (has : s.fut? h = some f)
include has

theorem State.homeApply_resolve_task (owned : f.hasTask = true) (v : Word) (w : Nat) :
    s.homeApply h (.resolve v w) = (s, some (.trap 48 0x06 h)) := by
  simp only [State.homeApply, has, if_pos owned]

theorem State.homeApply_frel_terminal (terminal : 3 ≤ f.state) : s.homeApply h .frel = (s.freeFut h f, some (.value 0)) := by
  simp only [State.homeApply, has, if_pos terminal]

variable (live : f.state < 3)
include live

theorem State.homeApply_resolve_promise (promise : f.hasTask = false) (v : Word) (w : Nat) :
    s.homeApply h (.resolve v w) = (s.makeTerminal h 3 v w, some (.value 1)) := by
  simp only [State.homeApply, has, promise, Bool.false_eq_true, if_false, if_neg (Nat.not_le.mpr live)]

theorem State.homeApply_cancel_live : s.homeApply h .cancel = (s.endOne h .cancelled, some (.value 1)) := by
  simp only [State.homeApply, has, if_neg (Nat.not_le.mpr live)]

theorem State.homeApply_poison_live (w : Word) :
    s.homeApply h (.poison w) = (s.endOne h (.faulted w), some (.value 1)) := by
  simp only [State.homeApply, has, if_neg (Nat.not_le.mpr live)]

theorem State.homeApply_frel_live : s.homeApply h .frel = (s, some (.trap 48 0x07 h)) := by
  simp only [State.homeApply, has, if_neg (Nat.not_le.mpr live)]

end

/-- No operation at a home takes its task from the acting hart: an end of that task waits for its commit point (R163). -/
theorem State.homeApply_task {s t : State} {h : Word} {op : HomeOp} {r : Option Reply} (applied : s.homeApply h op = (t, r)) :
    t.me.task = s.me.task :=
  (congrArg (·.1.me.task) applied).symm.trans (s.homeApply_keeps h op).task

theorem State.ask_value {s t : State} {h v : Word} {op : HomeOp} (here : s.isHere h = true)
    (applied : s.homeApply h op = (t, some (.value v))) : s.ask h op = .ok (t, .value v) :=
  s.ask_here h op t _ here applied (fun _ _ _ => Reply.noConfusion)

/-! ### The words -/

section
variable {s t : State} {rs1 : Reg} {h : Word} (starts : s.starts) (quiet : s.closed.noEnd) (names : s.x rs1 = h)
  (passed : s.closed.checkHandle (clusterOf s.cur) h = .ok ()) (other : s.me.task ≠ some h) (here : s.closed.isHere h = true)
include starts names passed

/-- Past the checks of the hart (R149). -/
theorem State.closed_accepts : s.closed.x rs1 = h ∧ s.closed.acceptHandle h = .ok () :=
  ⟨(s.closed_x rs1).trans names, (State.closed_acceptHandle starts h).trans passed⟩

include other here

/-- `cancel` and `poison` of another's future are what its home answers. -/
theorem State.endOther_answered {op : HomeOp} {v : Word} (applied : s.closed.homeApply h op = (t, some (.value v)))
    (rd : Reg) (how : EndKind) : s.closed.endOther rd (s.closed.x rs1) how op = .ok (t.setX rd v) := by
  obtain ⟨named, accept⟩ := State.closed_accepts starts names passed
  have stranger : s.closed.me.task ≠ some h := s.closed_task.symm ▸ other
  have asked := State.ask_value here applied
  simp only [State.endOther, named, accept, if_neg stranger, asked, bind, Except.bind]
  rfl

include quiet

theorem exec_resolve_answered {rs2 : Reg} {v : Word}
    (applied : s.closed.homeApply h (.resolve (s.x rs2) s.closed.myVerdict) = (t, some (.value v))) (rd : Reg) :
    exec (.resolve rd rs1 rs2) s = .next (t.setX rd v).goesOn := by
  obtain ⟨named, accept⟩ := State.closed_accepts starts names passed
  have notSelf := State.notSelf_other (s.closed_task.symm ▸ other)
  have asked := State.ask_value here applied
  refine (exec_resolve s).trans (closing_ok starts rfl quiet ?effect ((t.setX_task rd v).trans (State.homeApply_task applied)))
  simp only [named, accept, notSelf, s.closed_x rs2, asked, bind, Except.bind]
  rfl

theorem exec_resolve_refused {rs2 : Reg} {cause sub : Nat} {w : Word}
    (applied : s.closed.homeApply h (.resolve (s.x rs2) s.closed.myVerdict) = (t, some (.trap cause sub w))) (rd : Reg) :
    exec (.resolve rd rs1 rs2) s = .next (s.closed.takeTrap s.closed.cur false cause sub w) := by
  obtain ⟨named, accept⟩ := State.closed_accepts starts names passed
  have notSelf := State.notSelf_other (s.closed_task.symm ▸ other)
  have asked := State.ask_trap _ _ _ _ _ _ _ here applied
  refine (exec_resolve s).trans (closing_trap starts rfl quiet ?effect)
  simp only [named, accept, notSelf, s.closed_x rs2, asked, bind, Except.bind]

theorem exec_cancel_answered {v : Word} (applied : s.closed.homeApply h .cancel = (t, some (.value v))) (rd : Reg) :
    exec (.cancel rd rs1) s = .next (t.setX rd v).goesOn :=
  (exec_cancel s).trans (closing_ok starts rfl quiet (State.endOther_answered starts names passed other here applied rd _)
    ((t.setX_task rd v).trans (State.homeApply_task applied)))

theorem exec_poison_answered {rs2 : Reg} {v : Word}
    (applied : s.closed.homeApply h (.poison (poisonWord (s.x rs2).toNat (clusterOf s.cur))) = (t, some (.value v))) (rd : Reg) :
    exec (.poison rd rs1 rs2) s = .next (t.setX rd v).goesOn := by
  rw [← s.closed_x rs2, ← s.closed_cur] at applied
  exact (exec_poison s).trans (closing_ok starts rfl quiet
    (State.endOther_answered starts names passed other here applied rd _)
    ((t.setX_task rd v).trans (State.homeApply_task applied)))

theorem exec_frel_answered {v : Word} (applied : s.closed.homeApply h .frel = (t, some (.value v))) :
    exec (.frel rs1) s = .next t.goesOn := by
  obtain ⟨named, accept⟩ := State.closed_accepts starts names passed
  have notSelf := State.notSelf_other (s.closed_task.symm ▸ other)
  have asked := State.ask_value here applied
  refine (exec_frel s).trans (closing_ok starts rfl quiet ?effect (State.homeApply_task applied))
  simp only [named, accept, notSelf, asked, bind, Except.bind]
  rfl

theorem exec_frel_refused {cause sub : Nat} {w : Word} (applied : s.closed.homeApply h .frel = (t, some (.trap cause sub w))) :
    exec (.frel rs1) s = .next (s.closed.takeTrap s.closed.cur false cause sub w) := by
  obtain ⟨named, accept⟩ := State.closed_accepts starts names passed
  have notSelf := State.notSelf_other (s.closed_task.symm ▸ other)
  have asked := State.ask_trap _ _ _ _ _ _ _ here applied
  refine (exec_frel s).trans (closing_trap starts rfl quiet ?effect)
  simp only [named, accept, notSelf, asked, bind, Except.bind]

end

/-! ### Requests of other chips -/

section
variable {s : State} {r : HomeRequest}

theorem State.homeRequest_again {m : MarkRec} (kept : (s.cluster (s.homeOf r.handle)).marks.find r.mark.who.toNat = some m)
    (again : m.mark = r.mark) : s.homeRequest r = s := by
  simp only [State.homeRequest, kept, if_pos again, ite_self]

theorem State.homeRequest_first (fresh : (s.cluster (s.homeOf r.handle)).marks.find r.mark.who.toNat = none)
    (open_ : s.refuses (s.homeOf r.handle) = false)
    (unheld : ∀ q ∈ (s.cluster (s.homeOf r.handle)).heldRemote, q.mark ≠ r.mark) :
    s.homeRequest r = s.applyRequest (s.homeOf r.handle) r := by
  have none_ : ((s.cluster (s.homeOf r.handle)).heldRemote.any fun q => q.mark == r.mark) = false := by
    simpa using unheld
  simp only [State.homeRequest, fresh, open_, none_, Bool.false_eq_true, or_self, if_false]

end

end Sys2Proof.Machine

open Sys2Proof Sys2Proof.Machine

/-- Settles O37: each word is what the home answers, and the home answers by the state of the future. -/
theorem futuresEndByTheFirstOperation : Obligations.FuturesEndByTheFirstOperation := by
  unfold Obligations.FuturesEndByTheFirstOperation
  intro s rd rs1 rs2 h f starts quiet names
  refine ⟨fun passed other here has => ⟨?promise, ?task, fun live => ?live, fun terminal => ?terminal⟩,
    fun r m kept again => congrArg _ (State.homeRequest_again kept again),
    fun r fresh open_ unheld => congrArg _ (State.homeRequest_first fresh open_ unheld)⟩
  case promise =>
    exact fun promise live => exec_resolve_answered starts quiet names passed other here
      (State.homeApply_resolve_promise has live promise _ _) rd
  case task =>
    exact fun owned => exec_resolve_refused starts quiet names passed other here (State.homeApply_resolve_task has owned _ _) rd
  case live =>
    exact ⟨exec_cancel_answered starts quiet names passed other here (State.homeApply_cancel_live has live) rd,
      exec_poison_answered starts quiet names passed other here (State.homeApply_poison_live has live _) rd,
      exec_frel_refused starts quiet names passed other here (State.homeApply_frel_live has live)⟩
  case terminal =>
    refine ⟨fun promise => ?resolve,
      exec_cancel_answered starts quiet names passed other here (State.homeApply_cancel_terminal has terminal) rd,
      exec_poison_answered starts quiet names passed other here (State.homeApply_poison_terminal has terminal _) rd,
      exec_frel_answered starts quiet names passed other here (State.homeApply_frel_terminal has terminal)⟩
    have applied := State.homeApply_resolve_terminal has terminal (s.x rs2) s.closed.myVerdict
    rw [promise] at applied
    exact exec_resolve_answered starts quiet names passed other here applied rd
end

section
/-! PROOFS. Touches of a future of this chip (R173, R177 to R179): how `touch` goes on by the state of the future, what
`tpoll` reads, and which entry `tany` selects. -/

namespace Sys2Proof.Machine

/-! ### `touch` -/

section
variable {s : State} {h : Word} {f : Future} (has : s.fut? h = some f)
include has

theorem State.sourceOf_fut : s.sourceOf h = some f.launch := by
  rw [State.sourceOf, has]

/-- The check of an entry of `tany`, and of a touch in S and M mode, leaves the future and tells its state (log 29). -/
theorem State.homeApply_tanyCheck_fut : s.homeApply h .tanyCheck =
    (s, some (.done f.state f.value (s.seenVerdict f.launch f.verdict.toNat))) := by
  simp only [State.homeApply, has]

/-- A terminal future answers a touch of any mode with its outcome. -/
theorem State.touchHere_terminal (terminal : 3 ≤ f.state) (rd : Reg) (i : Instr) : s.touchHere rd h i =
    s.touchAnswer rd h false (some f.launch) i (.done f.state f.value (s.seenVerdict f.launch f.verdict.toNat)) := by
  have source := State.sourceOf_fut has
  rw [State.touchHere]
  split
  case isTrue =>
    have touched (w : Word) (e : Nat) : s.homeTouch h w false 0 e =
        (s, some (.done f.state f.value (s.seenVerdict f.launch f.verdict.toNat))) := by
      simp only [State.homeTouch, has, if_pos terminal]
    simp only [touched, source]
  case isFalse => simp only [State.homeApply_tanyCheck_fut has, if_neg (Nat.not_lt.mpr terminal), source]

variable (live : f.state < 3)
include live

/-- In U mode the touch of a future that is not terminal leaves a waiter record, and its task parks. -/
theorem State.touchHere_parks {t : State} {w : Word} (mode : s.me.mode = .u) (task : s.me.task = some w)
    (added : s.addWaiter h w false 0 (s.eprio w) = some t) (rd : Reg) (i : Instr) :
    s.touchHere rd h i = .ok (t.park i [h]) := by
  have touched : s.homeTouch h w false 0 (s.eprio w) = (t, none) := by
    simp only [State.homeTouch, has, if_neg (Nat.not_le.mpr live), added]
  rw [State.touchHere, if_pos mode, task, Option.getD_some, touched]

/-- In S and M mode it takes no record, and the hart waits. -/
theorem State.touchHere_waits (mode : s.me.mode ≠ .u) (rd : Reg) (i : Instr) :
    s.touchHere rd h i = .error (.wait .long) := by
  simp only [State.touchHere, if_neg mode, State.homeApply_tanyCheck_fut has, if_pos live]

end

section
variable {s : State} {rs1 : Reg} {h : Word} (starts : s.starts) (names : s.x rs1 = h)
  (passed : s.closed.checkHandle (clusterOf s.cur) h = .ok ()) (other : s.me.task ≠ some h) (here : s.closed.isHere h = true)
include starts names passed other here

/-- Past the checks the touch of a future of this chip is an operation at its home. -/
theorem State.closed_touch (rd : Reg) (i : Instr) : s.closed.touch rd rs1 i = s.closed.touchHere rd h i := by
  obtain ⟨named, accept⟩ := State.closed_accepts starts names passed
  have notSelf := State.notSelf_other (s.closed_task.symm ▸ other)
  rw [State.touch_idle (s.closed_waiting.trans starts.1), named, accept, notSelf]
  exact if_pos here

variable (quiet : s.closed.noEnd) {f : Future} (has : s.closed.fut? h = some f)
include quiet has

theorem exec_touch_resolved (resolved : f.state = 3) (rd : Reg) : exec (.touch rd rs1) s =
    .next ((s.closed.completeTouch (s.me.task.getD 0) h (s.closed.seenVerdict f.launch f.verdict.toNat) false
      (some f.launch)).setX rd f.value).goesOn := by
  refine (exec_touch s).trans (closing_ok starts rfl quiet ?effect
    ((State.setX_task ..).trans (State.completeTouch_keeps ..).task))
  rw [State.closed_touch starts names passed other here, State.touchHere_terminal has (Nat.le_of_eq resolved.symm), resolved,
    ← s.closed_task]
  rfl

theorem exec_touch_cancelled (cancelled : f.state = 4) (rd : Reg) :
    exec (.touch rd rs1) s = .next (s.closed.takeTrap s.closed.cur false 24 0x01 0) := by
  refine (exec_touch s).trans (closing_trap starts rfl quiet ?effect)
  rw [State.closed_touch starts names passed other here, State.touchHere_terminal has (by omega), cancelled]
  rfl

theorem exec_touch_faulted (faulted : f.state = 5) (rd : Reg) : exec (.touch rd rs1) s =
    .next (s.closed.takeTrap s.closed.cur false 24 (if f.value.getLsbD 16 then 0x03 else 0x02) f.value) := by
  refine (exec_touch s).trans (closing_trap starts rfl quiet ?effect)
  rw [State.closed_touch starts names passed other here, State.touchHere_terminal has (by omega), faulted]
  rfl

variable (live : f.state < 3)
include live

theorem exec_touch_parks {t : State} {w : Word} (mode : s.me.mode = .u) (task : s.me.task = some w)
    (added : s.closed.addWaiter h w false 0 (s.closed.eprio w) = some t) (rd : Reg) :
    exec (.touch rd rs1) s = .next (t.park (.touch rd rs1) [h]) := by
  have before : s.closed.me.task = some w := s.closed_task.trans task
  have kept : t.me.task = some w := (State.addWaiter_keeps _ _ _ _ _ _ _ added).task.trans before
  refine (exec_touch s).trans (closing_leaves starts rfl quiet ?effect ?left (park_mode _ _ _ w kept))
  case effect =>
    rw [State.closed_touch starts names passed other here]
    exact State.touchHere_parks has live (s.closed_mode.trans mode) before added rd _
  case left =>
    rw [park_task _ _ _ w kept, before]
    exact nofun

theorem exec_touch_waits (mode : s.me.mode ≠ .u) (rd : Reg) : exec (.touch rd rs1) s = .next (s.closed.modMe fun x =>
    { x with waiting := some { instr := .touch rd rs1, kind := .long, reply := none } }) := by
  refine (exec_touch s).trans (closing_wait starts rfl quiet ?effect)
  rw [State.closed_touch starts names passed other here]
  exact State.touchHere_waits has live (s.closed_mode.symm ▸ mode) rd _

end

/-! ### `tpoll` -/

theorem exec_tpoll_status {s : State} {rs1 : Reg} {f : Future} (idle : s.me.waiting = none)
    (passed : s.checkHandle (clusterOf s.cur) (s.x rs1) = .ok ()) (here : s.isHere (s.x rs1) = true)
    (has : s.fut? (s.x rs1) = some f) (rd : Reg) :
    exec (.tpoll rd rs1) s = .next (s.wrote rd (s.statusOf (s.x rs1) f)) := by
  have applied : s.homeApply (s.x rs1) .tpoll = (s, some (.value (s.statusOf (s.x rs1) f))) := by
    simp only [State.homeApply, has]
  rw [← State.wrote_eq s idle]
  refine (exec_tpoll s).trans (runOpen_ok ?effect)
  simp only [State.acceptHandle_idle idle, passed, State.ask_value here applied, bind, Except.bind]
  rfl

/-! ### `tany` -/

/-- The lowest terminal entry ends the selection; a resolved one with its index (R179). -/
theorem State.tanySelect_resolved {s : State} {hs : List Word} {away : List (Option (Nat × Word × Nat))} {i vd : Nat} {v : Word}
    (resolved : (s.entryOutcomes hs away)[i]? = some (some (3, v, vd)))
    (lowest : ∀ j < i, (s.entryOutcomes hs away)[j]? = some none) (rd : Reg) (word : Instr) :
    s.tanySelect rd hs away word = .ok (((s.raiseVerdict (s.me.task.getD 0) vd).takesFrom (s.me.task.getD 0)
      (s.sourceOf (hs.getD i 0))).setX rd (wordOf i)) := by
  have selected : firstOutcome 0 (s.entryOutcomes hs away) = some (i, 3, v, vd) := by
    rw [firstOutcome_at _ i 0 _ resolved lowest, Nat.zero_add]
  simp only [State.tanySelect, selected]
  rfl

/-- With every entry on this chip the selection needs no answer from elsewhere. -/
theorem State.tany_here {s u : State} {rs1 rs2 : Reg} {hs : List Word} (idle : s.me.waiting = none)
    (read : s.tanyHandles rs1 rs2 = .ok (u, hs)) (here : ∀ w ∈ hs, w ≠ 0 → u.isHere w = true) (rd : Reg) (word : Instr) :
    s.tany rd rs1 rs2 word = u.tanySelect rd hs [] word := by
  have all : (hs.all fun w => w == 0 || u.isHere w) = true := by
    simpa [List.all_eq_true, or_iff_not_imp_left] using here
  simp only [State.tany, heldGate_ok idle, read, bind, Except.bind, if_pos all]

theorem exec_tany_selects {s u : State} {rs1 rs2 : Reg} {hs : List Word} {i vd : Nat} {v : Word} (starts : s.starts)
    (quiet : s.closed.noEnd) (read : s.closed.tanyHandles rs1 rs2 = .ok (u, hs))
    (here : ∀ w ∈ hs, w ≠ 0 → u.isHere w = true) (resolved : (u.entryOutcomes hs [])[i]? = some (some (3, v, vd)))
    (lowest : ∀ j < i, (u.entryOutcomes hs [])[j]? = some none) (rd : Reg) : exec (.tany rd rs1 rs2) s =
    .next (((u.raiseVerdict (s.me.task.getD 0) vd).takesFrom (s.me.task.getD 0) (u.sourceOf (hs.getD i 0))).setX rd
      (wordOf i)).goesOn := by
  have idle : s.closed.me.waiting = none := s.closed_waiting.trans starts.1
  have kept := (tanyHandles_keeps idle read).task
  refine (exec_tany s).trans (closing_ok starts rfl quiet ?effect ((State.setX_task ..).trans
    (((State.raiseVerdict_keeps ..).trans (State.takesFrom_keeps ..)).task.trans kept)))
  rw [State.tany_here idle read here, State.tanySelect_resolved resolved lowest, kept, s.closed_task]

end Sys2Proof.Machine

open Sys2Proof Sys2Proof.Machine

/-- Settles O35: the home answers by the state of the future, and each word goes on, traps, parks or waits by the answer. -/
theorem touchEndsByTheOutcome : Obligations.TouchEndsByTheOutcome := by
  unfold Obligations.TouchEndsByTheOutcome
  intro s rd rs1 rs2 h f starts quiet names
  refine ⟨fun passed other here has => ⟨?resolved, ?cancelled, ?faulted, ?parks, ?waits⟩, ?tpoll, ?tany⟩
  case resolved => exact fun resolved => exec_touch_resolved starts names passed other here quiet has resolved rd
  case cancelled => exact fun cancelled => exec_touch_cancelled starts names passed other here quiet has cancelled rd
  case faulted => exact fun faulted => exec_touch_faulted starts names passed other here quiet has faulted rd
  case parks =>
    exact fun t w live mode task added => exec_touch_parks starts names passed other here quiet has live mode task added rd
  case waits => exact fun live mode => exec_touch_waits starts names passed other here quiet has live mode rd
  case tpoll =>
    subst names
    exact fun passed here has => exec_tpoll_status starts.1 passed here has rd
  case tany =>
    exact fun u hs i v vd read here resolved lowest => exec_tany_selects starts quiet read here resolved lowest rd
end

section
/-! PROOFS. `spawn` and `promise` (R175, R180): the future that each allocates, and the child that `spawn` hands to its
engine; the fault of a descriptor (R36) and of a hart without a task (R172). -/

namespace Sys2Proof.Machine

section
variable {s u : State} {bs : List Byte} {a : Word} (idle : s.me.waiting = none) (loads : s.load a 128 64 = .ok (u, bs))
include idle loads

theorem State.readDesc_passes (passes : descFault (u.partClusters (u.partOf (clusterOf s.cur))) (clusterOf s.cur) bs = none) :
    s.readDesc a = .ok (u, bs) := by
  rw [← (State.load_keeps _ _ _ _ _ _ loads).cur] at passes
  simp only [State.readDesc, idle, loads, passes, bind, Except.bind]
  rfl

theorem State.readDesc_fails {sub : Nat}
    (fails : descFault (u.partClusters (u.partOf (clusterOf s.cur))) (clusterOf s.cur) bs = some sub) :
    s.readDesc a = .error (.trap 48 sub a) := by
  rw [← (State.load_keeps _ _ _ _ _ _ loads).cur] at fails
  simp only [State.readDesc, idle, loads, fails, bind, Except.bind]
  rfl

end

/-- The child that `spawn` makes of a descriptor: its future's handle, the issuer its parent, and the issuer's launch and
lifted ids its own (R155, R175). -/
def State.spawned (v : State) (k : Nat) (d : Desc) (arg me h : Word) (t : Task) : State :=
  (v.setTask h (newTask d arg 0 t.launch me t.lid t.lcnt (v.chooseCluster k d) false .any v.serial)).post (.taskIntake h)

theorem State.spawned_keeps (v : State) (k : Nat) (d : Desc) (arg me h : Word) (t : Task) :
    KeepsHarts v (v.spawned k d arg me h t) :=
  (v.setTask_keeps _ _).trans (State.post_keeps _ _)

section
variable {s : State} {me : Word} {t : Task} (starts : s.starts) (quiet : s.closed.noEnd)
  (task : s.closed.me.task = some me) (mine : s.closed.myTask = some t)
include starts quiet task mine

theorem exec_promise_allocates {v : State} {h : Word}
    (allocates : s.closed.allocFuture (clusterOf s.cur) (futureFor none 0 t.launch) = some (v, h)) (rd : Reg) :
    exec (.promise rd) s = .next (v.setX rd h).goesOn := by
  have held := heldGate_ok (s.closed_waiting.trans starts.1)
  refine (exec_promise s).trans (closing_ok starts rfl quiet ?effect
    ((v.setX_task rd h).trans (State.allocFuture_keeps _ _ _ _ _ allocates).task))
  simp only [actingTask_ok task mine, held, s.closed_cur, allocates, bind, Except.bind]
  rfl

variable {u : State} {bs : List Byte} {rs1 : Reg} (loads : s.closed.load (s.x rs1) 128 64 = .ok (u, bs))
include loads

theorem exec_spawn_hands {v : State} {h : Word}
    (passes : descFault (u.partClusters (u.partOf (clusterOf s.cur))) (clusterOf s.cur) bs = none)
    (allocates : u.allocFuture (clusterOf s.cur) (futureFor (some (descOf bs)) me t.launch) = some (v, h))
    (room : v.taskRoom (v.chooseCluster (clusterOf s.cur) (descOf bs)) = true) (rd rs2 : Reg) :
    exec (.spawn rd rs1 rs2) s =
      .next ((v.spawned (clusterOf s.cur) (descOf bs) (s.x rs2) me h t).setX rd h).goesOn := by
  have idle : s.closed.me.waiting = none := s.closed_waiting.trans starts.1
  rw [← s.closed_cur] at passes
  have read := State.readDesc_passes idle loads passes
  have kept := (State.load_keeps _ _ _ _ _ _ loads).trans ((State.allocFuture_keeps _ _ _ _ _ allocates).trans
    (v.spawned_keeps (clusterOf s.cur) (descOf bs) (s.x rs2) me h t))
  refine (exec_spawn s).trans (closing_ok starts rfl quiet ?effect ((State.setX_task ..).trans kept.task))
  simp only [State.spawn, actingTask_ok task mine, heldGate_ok idle, s.closed_x, s.closed_cur, read, allocates, room,
    bind, Except.bind]
  rfl

theorem exec_spawn_descFault {sub : Nat}
    (fails : descFault (u.partClusters (u.partOf (clusterOf s.cur))) (clusterOf s.cur) bs = some sub) (rd rs2 : Reg) :
    exec (.spawn rd rs1 rs2) s = .next (s.closed.takeTrap s.closed.cur false 48 sub (s.x rs1)) := by
  have idle : s.closed.me.waiting = none := s.closed_waiting.trans starts.1
  rw [← s.closed_cur] at fails
  refine (exec_spawn s).trans (closing_trap starts rfl quiet ?effect)
  simp only [State.spawn, actingTask_ok task mine, heldGate_ok idle, s.closed_x, State.readDesc_fails idle loads fails,
    bind, Except.bind]

end

section
variable {s : State} (starts : s.starts) (quiet : s.closed.noEnd) (taskless : s.me.task = none)
include starts quiet taskless

theorem exec_spawn_taskless (rd rs1 rs2 : Reg) : exec (.spawn rd rs1 rs2) s =
    .next (s.closed.takeTrap s.closed.cur false 2 0 (wordOfInstr (.spawn rd rs1 rs2))) := by
  refine (exec_spawn s).trans (closing_illegal starts rfl quiet ?effect)
  simp only [State.spawn, actingTask_none (s.closed_task.trans taskless), bind, Except.bind]

theorem exec_promise_taskless (rd : Reg) : exec (.promise rd) s =
    .next (s.closed.takeTrap s.closed.cur false 2 0 (wordOfInstr (.promise rd))) := by
  refine (exec_promise s).trans (closing_illegal starts rfl quiet ?effect)
  simp only [actingTask_none (s.closed_task.trans taskless), bind, Except.bind]

end

end Sys2Proof.Machine

open Sys2Proof Sys2Proof.Machine

/-- Settles O33: past the task and the descriptor, each word is its allocation, and `spawn` adds the child. -/
theorem spawnAndPromiseAllocateTheFuture : Obligations.SpawnAndPromiseAllocateTheFuture := by
  unfold Obligations.SpawnAndPromiseAllocateTheFuture
  intro s u v rd rs1 rs2 bs me h t starts quiet
  refine ⟨fun task mine => ⟨fun loads => ⟨?spawns, ?descFault⟩, ?promises⟩, fun taskless =>
    ⟨exec_spawn_taskless starts quiet taskless rd rs1 rs2, exec_promise_taskless starts quiet taskless rd⟩⟩
  case spawns =>
    exact fun passes allocates room => exec_spawn_hands starts quiet task mine loads passes allocates room rd rs2
  case descFault => exact fun sub fails => exec_spawn_descFault starts quiet task mine loads fails rd rs2
  case promises => exact fun allocates => exec_promise_allocates starts quiet task mine allocates rd
end

section
/-! PROOFS. `texit` and `tyield` (R183, R184): the hart that each leaves, and their modes (R172). -/

namespace Sys2Proof.Machine

theorem State.makeReady_keeps (s : State) (h : Word) : KeepsHarts s (s.makeReady h) :=
  KeepsHarts.trans (t := s.tick) (KeepsHarts.of_harts rfl rfl) (State.modTask_keeps _ _ _)

theorem State.checkpoint_keeps (s : State) (h : Nat) (pc : Word) : KeepsHarts s (s.checkpoint h pc) := by
  rw [State.checkpoint_rest]
  exact KeepsHarts.of_harts rfl rfl

theorem KeepsHarts.mode {s t : State} (a : KeepsHarts s t) : t.me.mode = s.me.mode := by
  obtain ⟨_, me⟩ := a.me
  rw [me]

/-- The acting hart is in U mode and runs no task. -/
structure State.IsLeft (s : State) : Prop where
  task : s.me.task = none
  mode : s.me.mode = Mode.u

theorem State.IsLeft.of_keeps {s t : State} (left : s.IsLeft) (kept : KeepsHarts s t) : t.IsLeft :=
  ⟨kept.task.trans left.task, kept.mode.trans left.mode⟩

/-- The word that leaves is still counted on its hart. -/
theorem State.IsLeft.retireOn {s : State} (left : s.IsLeft) : (s.retireOn s.cur).IsLeft :=
  ⟨(retireOn_me s).1.trans left.task, (retireOn_me s).2.trans left.mode⟩

/-- A closing word whose effect leaves its hart ends there. -/
theorem runClosing_left {i : Instr} {s u : State} {body : State → Except Exc State} {me : Word} (starts : s.starts)
    (quiet : s.closed.noEnd) (task : s.closed.me.task = some me) (gateless : isGateWait i = false)
    (effect : body s.closed = .ok u) (left : u.IsLeft) : runClosing false i s body = .next u := by
  refine closing_leaves starts gateless quiet effect ?_ left.mode
  rw [left.task, task]
  exact nofun

/-- The task put at the tail of its ready queue, with the checkpoint after its `tyield` (R184). -/
def State.yielded (s : State) (me : Word) : State :=
  ((s.checkpoint s.cur (s.me.pc + 4)).setAside s.cur .ready).makeReady me

section
variable {s : State} {me : Word} (task : s.me.task = some me)
include task

theorem State.yielded_left : (s.yielded me).IsLeft ∧ (s.yielded me).cur = s.cur := by
  have saved := s.checkpoint_keeps s.cur (s.me.pc + 4)
  obtain ⟨left, mode, cur⟩ := setAside_me _ me .ready (saved.task.trans task)
  rw [saved.cur] at left mode cur
  have ready := State.makeReady_keeps ((s.checkpoint s.cur (s.me.pc + 4)).setAside s.cur .ready) me
  exact ⟨State.IsLeft.of_keeps ⟨left, mode⟩ ready, ready.cur.trans cur⟩

theorem State.exitTask_left {t : Task} (mine : s.myTask = some t) (mode : s.me.mode = .u) (value : Word) :
    (s.exitTask me value).IsLeft ∧ (s.exitTask me value).cur = s.cur := by
  have has : s.task? me = some t := by
    rw [← mine, State.myTask, State.taskOf, show (s.hart s.cur).task = some me from task]
    rfl
  obtain ⟨left, user, cur⟩ := s.exitTask_me me value t has task mode
  exact ⟨⟨left, user⟩, cur⟩

end

section
variable {s : State} {me : Word} {t : Task} (starts : s.starts) (quiet : s.closed.noEnd) (mode : s.me.mode = .u)
  (task : s.closed.me.task = some me) (mine : s.closed.myTask = some t)
include starts quiet mode task mine

theorem exec_texit_leaves {rs1 : Reg} (faultless : s.opFaultAt (fun _ => true) = .ok ())
    (still : s.closed.opFaultAt (fun _ => true) = .ok ()) (done : s.closed.opsDone me t = true) :
    exec (.texit rs1) s = .next ((s.closed.exitTask me (s.x rs1)).retireOn s.cur) ∧
      ((s.closed.exitTask me (s.x rs1)).retireOn s.cur).IsLeft := by
  obtain ⟨left, cur⟩ := State.exitTask_left task mine (s.closed_mode.trans mode) (s.x rs1)
  have retired := left.retireOn
  rw [cur, s.closed_cur] at retired
  refine ⟨(exec_texit s).trans ((if_neg (not_not.mpr mode)).trans ((State.faultFirst_ok _ faultless).trans
    (runClosing_left starts quiet task rfl ?effect retired))), retired⟩
  simp only [still, actingTask_ok task mine, done, s.closed_x, s.closed_cur, bind, Except.bind, if_true]
  rfl

theorem exec_tyield_leaves : exec .tyield s = .next ((s.closed.yielded me).retireOn s.cur) ∧
    ((s.closed.yielded me).retireOn s.cur).IsLeft := by
  obtain ⟨left, cur⟩ := State.yielded_left task
  have retired := left.retireOn
  rw [cur, s.closed_cur] at retired
  refine ⟨(exec_tyield s).trans (runClosing_left starts quiet task rfl ?effect retired), retired⟩
  have saved := (s.closed.checkpoint_keeps s.cur (s.closed.me.pc + 4)).cur.trans s.closed_cur
  simp only [s.closed_mode, mode, ne_eq, not_true_eq_false, if_false, actingTask_ok task mine, State.yielded, s.closed_cur,
    saved, bind, Except.bind]
  rfl

end

section
variable {s : State} (starts : s.starts) (mode : s.me.mode ≠ .u)
include starts mode

theorem exec_tyield_illegal : exec .tyield s = .next (s.takeTrap s.cur false 2 0 (wordOfInstr .tyield)) := by
  have same := s.closed_outside (s.inRegion_mode s.cur mode)
  have quiet : s.closed.noEnd := same.symm ▸ s.noEnd_above mode
  have trapped := (exec_tyield s).trans (closing_illegal starts rfl quiet (by simp only [s.closed_mode, if_pos mode]; rfl))
  rwa [same] at trapped

theorem exec_texit_illegal (rs1 : Reg) :
    exec (.texit rs1) s = .next (s.takeTrap s.cur false 2 0 (wordOfInstr (.texit rs1))) :=
  (exec_texit s).trans ((if_pos mode).trans (congrArg _ (s.finish_illegal starts.1 _)))

end

end Sys2Proof.Machine

open Sys2Proof Sys2Proof.Machine

/-- Settles O38: the effect of each word leaves its hart without a task, so the word ends there; outside U mode it has none. -/
theorem exitAndYieldLeaveTheHart : Obligations.ExitAndYieldLeaveTheHart := by
  unfold Obligations.ExitAndYieldLeaveTheHart
  intro s rs1 me t starts quiet
  refine ⟨fun mode task mine => ⟨fun faultless still done => ?texit, ?tyield⟩,
    fun mode => ⟨exec_tyield_illegal starts mode, exec_texit_illegal starts mode rs1⟩⟩
  case texit =>
    obtain ⟨exits, left⟩ := exec_texit_leaves starts quiet mode task mine (rs1 := rs1) faultless still done
    exact ⟨exits, left.task⟩
  case tyield =>
    obtain ⟨yields, left⟩ := exec_tyield_leaves starts quiet mode task mine
    rw [State.yielded, s.closed_cur, s.closed_pc] at yields left
    exact ⟨yields, left.task⟩
end

section
/-! PROOFS. The words on a stage of the table (R196, R206 to R211): where each acts, where it waits, and the trap of a stage
that is not defined. -/

namespace Sys2Proof.Machine

/-! ### Words that leave the region open -/

/-- A word that leaves the region open and begins a wait stays where it is. -/
theorem runOpen_wait {i : Instr} {s : State} {k : WaitKind} {body : State → Except Exc State} (quiet : s.noEnd)
    (wait : body s = .error (.wait k)) :
    runOpen i s body = .next (s.modMe fun x => { x with waiting := some { instr := i, kind := k, reply := none } }) := by
  rw [runOpen_error wait (by simp), State.finish_wait _ _ _ (.inr quiet)]

section
variable {s : State} {rs1 : Reg} {t : Stage} (named : s.stage s.here (stageNo (s.x rs1)) = t)
include named

theorem exec_stgen_wrote (idle : s.me.waiting = none) (rd : Reg) : exec (.stgen rd rs1) s =
    .next (s.wrote rd (if (s.x rs1).getLsbD 8 then t.word1 else t.word0)) := by
  rw [exec_stgen, execStgen, ← State.wrote_eq s idle]
  exact runOpen_ok (by rw [← named])

theorem exec_stwait_undefined (idle : s.me.waiting = none) (undefined : t.defined = false) (rd rs2 : Reg) :
    exec (.stwait rd rs1 rs2) s = .next (s.takeTrap s.cur false 31 0x01 (s.x rs1)) :=
  (exec_stwait s).trans (runOpen_traps idle _ (by simp only [named, undefined]; rfl))

variable {rs2 : Reg} (defined : t.defined = true)
include defined

theorem exec_stwait_wrote (idle : s.me.waiting = none) (moved : t.gen ≠ (s.x rs2).setWidth 16) (rd : Reg) :
    exec (.stwait rd rs1 rs2) s = .next (s.wrote rd (t.gen.setWidth 64)) := by
  rw [exec_stwait, execStwait, ← State.wrote_eq s idle]
  exact runOpen_ok (by simp only [named, defined, Bool.not_true, Bool.false_eq_true, if_false, if_neg moved])

theorem exec_stwait_waits (quiet : s.noEnd) (still : t.gen = (s.x rs2).setWidth 16) (rd : Reg) :
    exec (.stwait rd rs1 rs2) s = .next (s.modMe fun x =>
      { x with waiting := some { instr := .stwait rd rs1 rs2, kind := .long, reply := none } }) :=
  (exec_stwait s).trans (runOpen_wait quiet (by
    simp only [named, defined, Bool.not_true, Bool.false_eq_true, if_false, if_pos still]))

end

/-! ### Words that close the region -/

theorem State.closed_here (s : State) : s.closed.here = clusterOf s.cur := congrArg clusterOf s.closed_cur

/-- A hoist without a pin: the stage is published and its hart has its place no more (R195). -/
def State.hoistNow (s : State) (c n : Nat) : State :=
  (s.modStage c n fun t => { t.hoist with hoisters := t.hoisters.erase s.cur }).retryPrefetches c

theorem State.hoistNow_gen (s : State) (c n : Nat) : ((s.hoistNow c n).stage c n).gen = (s.stage c n).gen + 1 := by
  rw [State.hoistNow, State.stage_congr (State.retryPrefetches_clusters ..), State.stage_modStage]
  rfl

theorem State.hoistNow_keeps (s : State) (c n : Nat) : KeepsHarts s (s.hoistNow c n) :=
  (s.modStage_keeps c n _).trans (State.retryPrefetches_keeps _ _)

/-- A `hoist` that the release of the last pin has answered returns the new generation (R195). -/
theorem exec_hoist_answered {s : State} {rd rs1 : Reg} {v : Word} (quiet : s.noEnd)
    (waits : s.me.waiting = some { instr := .hoist rd rs1, kind := .queued, reply := some (.value v) }) :
    exec (.hoist rd rs1) s = .next (s.setX rd v).goesOn :=
  (exec_hoist s).trans (runClosing_resumed waits quiet (by simp only [waits]) (State.setX_task ..))

section
variable {s : State} {rs1 : Reg} {t : Stage} (starts : s.starts) (quiet : s.closed.noEnd)
  (named : s.closed.stage (clusterOf s.cur) (stageNo (s.x rs1)) = t)
include starts quiet named

/-- `stdef` of a geometry that passes its checks, at a stage that is not in use: an undefined stage where the size is 0. -/
theorem exec_stdef_defines {rs2 : Reg} (fits : badGeometry (s.x rs2) = false) (free : t.lifts = 0)
    (idle : s.closed.stageBusy (clusterOf s.cur) (stageNo (s.x rs1)) = false)
    (unwaited : s.closed.stwaiter (clusterOf s.cur) (stageNo (s.x rs1)) = false)
    (apart : bits (s.x rs2) 32 32 ≠ 0 → ((s.closed.cluster (clusterOf s.cur)).stages.any fun e =>
      e.1 != stageNo (s.x rs1) && e.2.defined &&
        overlaps (bits (s.x rs2) 0 22) (2 * bits (s.x rs2) 32 32) e.2.base (2 * e.2.size)) = false) :
    exec (.stdef rs1 rs2) s = .next (s.closed.setStage (clusterOf s.cur) (stageNo (s.x rs1))
      (if bits (s.x rs2) 32 32 = 0 then newStage 0 0 else newStage (bits (s.x rs2) 32 32) (bits (s.x rs2) 0 22))).goesOn := by
  refine (exec_stdef s).trans (closing_ok starts rfl quiet ?effect (KeepsHarts.of_harts rfl rfl).task)
  simp only [s.closed_here, s.closed_x, named, fits, free, idle, unwaited, Bool.or_self, Bool.false_eq_true, if_false, gt_iff_lt,
    Nat.lt_irrefl]
  exact if_neg fun ⟨some_, laps⟩ => Bool.eq_false_iff.mp (apart some_) laps

theorem exec_starm_undefined (undefined : t.defined = false) (rd rs2 : Reg) :
    exec (.starm rd rs1 rs2) s = .next (s.closed.takeTrap s.closed.cur false 31 0x01 (s.x rs1)) :=
  (exec_starm s).trans (closing_trap starts rfl quiet (by
    simp only [s.closed_here, s.closed_x, named, undefined]
    rfl))

theorem exec_hoist_undefined (undefined : t.defined = false) (rd : Reg) :
    exec (.hoist rd rs1) s = .next (s.closed.takeTrap s.closed.cur false 31 0x01 (s.x rs1)) := by
  have idle : s.closed.me.waiting = none := s.closed_waiting.trans starts.1
  refine (exec_hoist s).trans (closing_trap starts rfl quiet ?effect)
  simp only [idle, s.closed_here, s.closed_x, named, undefined]
  rfl

variable (defined : t.defined = true) (free : t.lifts = 0)
include defined free

theorem exec_starm_waits {rs2 : Reg} (held : t.armed = true ∨ t.prefetch = true) (rd : Reg) :
    exec (.starm rd rs1 rs2) s = .next (s.closed.modMe fun x =>
      { x with waiting := some { instr := .starm rd rs1 rs2, kind := .long, reply := none } }) := by
  have taken : (t.armed || t.prefetch) = true := by rwa [Bool.or_eq_true]
  refine (exec_starm s).trans (closing_wait starts rfl quiet ?effect)
  simp only [s.closed_here, s.closed_x, named, defined, free, taken, Bool.not_true, Bool.false_eq_true, if_false, gt_iff_lt,
    Nat.lt_irrefl, if_true]

theorem exec_starm_arms {rs2 : Reg} (unarmed : t.armed = false) (unheld : t.prefetch = false) (some_ : s.x rs2 ≠ 0)
    (whole : (s.x rs2).toNat % 64 = 0) (fits : (s.x rs2).toNat ≤ t.size) (below : t.count.toNat ≤ (s.x rs2).toNat) (rd : Reg) :
    exec (.starm rd rs1 rs2) s = .next ((s.closed.setX rd (t.gen.setWidth 64)).armStage (clusterOf s.cur) (stageNo (s.x rs1))
      ((s.x rs2).setWidth 32)).goesOn := by
  have extent : ¬ (s.x rs2 = 0 ∨ (s.x rs2).toNat % 64 ≠ 0 ∨ (s.x rs2).toNat > t.size) := by
    rintro (zero | part | past)
    exacts [some_ zero, part whole, Nat.not_lt.mpr fits past]
  refine (exec_starm s).trans (closing_ok starts rfl quiet ?effect
    ((State.armStage_keeps ..).task.trans (State.setX_task ..)))
  simp only [s.closed_here, s.closed_x, named, defined, free, unarmed, unheld, Bool.or_self, Bool.not_true, Bool.false_eq_true,
    if_false, gt_iff_lt, Nat.lt_irrefl] at extent ⊢
  rw [if_neg extent, if_neg (Nat.not_lt.mpr below)]

theorem exec_hoist_hoists (unpinned : t.pins = 0) (rd : Reg) : exec (.hoist rd rs1) s =
    .next ((s.closed.hoistNow (clusterOf s.cur) (stageNo (s.x rs1))).setX rd ((t.gen + 1).setWidth 64)).goesOn := by
  have idle : s.closed.me.waiting = none := s.closed_waiting.trans starts.1
  have gen := s.closed.hoistNow_gen (clusterOf s.cur) (stageNo (s.x rs1))
  refine (exec_hoist s).trans (closing_ok starts rfl quiet ?effect
    ((State.setX_task ..).trans (State.hoistNow_keeps ..).task))
  rw [← named, ← gen]
  simp only [idle, s.closed_here, s.closed_x, named, defined, free, unpinned, Bool.not_true, Bool.false_eq_true, if_false,
    gt_iff_lt, Nat.lt_irrefl]
  rfl

theorem exec_hoist_waits (pinned : 0 < t.pins) (rd : Reg) : exec (.hoist rd rs1) s =
    .next ((s.closed.modStage (clusterOf s.cur) (stageNo (s.x rs1)) fun t =>
      { t with hoisters := if t.hoisters.contains s.cur then t.hoisters else t.hoisters ++ [s.cur] }).modMe fun x =>
      { x with waiting := some { instr := .hoist rd rs1, kind := .queued, reply := none } }) := by
  have idle : s.closed.me.waiting = none := s.closed_waiting.trans starts.1
  refine (exec_hoist s).trans (closing_hold starts rfl quiet ?effect)
  simp only [idle, s.closed_here, s.closed_cur, s.closed_x, named, defined, free, pinned, Bool.not_true, Bool.false_eq_true,
    if_false, gt_iff_lt, Nat.lt_irrefl, if_true]

end

end Sys2Proof.Machine

open Sys2Proof Sys2Proof.Machine

/-- Settles O40: past the stage that x[rs1] names each word is one equation, its wait, or the trap of a stage that is not
defined. -/
theorem stageWordsActOnTheTable : Obligations.StageWordsActOnTheTable := by
  unfold Obligations.StageWordsActOnTheTable
  intro s rd rs1 rs2 starts
  refine ⟨fun quiet fits free idle unwaited => ⟨fun zero => ?undefines, fun some_ apart => ?defines⟩,
    fun quiet defined free => ⟨?arms, ?armWaits, ?hoists, ?hoistWaits⟩, fun v quiet waits => exec_hoist_answered quiet waits,
    fun quiet undefined => ⟨exec_starm_undefined starts quiet rfl undefined rd rs2,
      exec_hoist_undefined starts quiet rfl undefined rd⟩,
    fun defined moved => exec_stwait_wrote rfl defined starts.1 moved rd,
    fun defined still quiet => exec_stwait_waits rfl defined quiet still rd,
    fun undefined => exec_stwait_undefined rfl starts.1 undefined rd rs2, exec_stgen_wrote rfl starts.1 rd⟩
  case undefines =>
    have runs := exec_stdef_defines starts quiet rfl fits free idle unwaited fun some_ => absurd zero some_
    rwa [if_pos zero] at runs
  case defines =>
    have runs := exec_stdef_defines starts quiet rfl fits free idle unwaited fun _ => apart
    rwa [if_neg some_] at runs
  case arms =>
    exact fun unarmed unheld some_ whole size below =>
      exec_starm_arms starts quiet rfl defined free unarmed unheld some_ whole size below rd
  case armWaits => exact fun held => exec_starm_waits starts quiet rfl defined free held rd
  case hoists =>
    intro unpinned
    have runs := exec_hoist_hoists starts quiet rfl defined free unpinned rd
    rwa [State.hoistNow, s.closed_cur] at runs
  case hoistWaits => exact fun pinned => exec_hoist_waits starts quiet rfl defined free pinned rd
end

section
/-! PROOFS. The issue of copies (R188, R189, R212 to R215): the checks of a copy word in their order, and the slot and the
ticket of the command that it queues. -/

namespace Sys2Proof.Machine

/-! ### Slots and tickets -/

/-- A slot in which a new command is queued, its sequence one higher (R189). -/
def State.enqueueCopy (s : State) (c n : Nat) (x : CopySlot) : State :=
  ((s.useFresh.setSlot c n { x with seq := (s.slot c n).seq + 1, state := 1 }).modCluster c fun k =>
    { k with copyQueue := k.copyQueue ++ [n] }).post (.copyChannelStart c)

/-- What an allocation can do: it queues the command in one of the free slots. -/
theorem State.allocSlot_some {s u : State} {c n : Nat} {x : CopySlot} (queued : s.allocSlot c x = some (u, n)) :
    n ∈ freeSlots (s.cluster c) ∧ u = s.enqueueCopy c n x := by
  unfold State.allocSlot at queued
  split at queued
  next => cases queued
  next m r free =>
    obtain ⟨rfl, rfl⟩ := Prod.mk.inj (Option.some.inj queued)
    refine ⟨?_, rfl⟩
    have within : Config.freeSlot s.fresh % (r.length + 1) < (m :: r).length := Nat.mod_lt _ (Nat.succ_pos _)
    rw [free, List.getD_eq_getElem _ _ within]
    exact List.getElem_mem within

theorem mem_freeSlots {k : Cluster} {n : Nat} : n ∈ freeSlots k ↔ n < 256 ∧ (k.slots.get n default).isFree = true := by
  rw [freeSlots, List.mem_filter, List.mem_range]

theorem State.slot_enqueueCopy (s : State) (c n : Nat) (x : CopySlot) :
    (s.enqueueCopy c n x).slot c n = { x with seq := (s.slot c n).seq + 1, state := 1 } := by
  rw [State.enqueueCopy, State.slot_post, State.slot_eq, State.cluster_modCluster]
  exact State.slot_setSlot ..

theorem State.copyQueue_enqueueCopy (s : State) (c n : Nat) (x : CopySlot) :
    ((s.enqueueCopy c n x).cluster c).copyQueue = (s.cluster c).copyQueue ++ [n] := by
  rw [State.enqueueCopy, State.cluster_post, State.cluster_modCluster, State.cluster_setSlot]
  rfl

theorem State.enqueueCopy_keeps (s : State) (c n : Nat) (x : CopySlot) : KeepsHarts s (s.enqueueCopy c n x) :=
  KeepsHarts.of_harts rfl rfl

/-- The fields of a ticket: valid, the sequence, the slot's number (R189). -/
theorem CopySlot.ticket_fields (x : CopySlot) {n : Nat} (slot : n < 256) :
    bits (x.ticket n) 31 1 = 1 ∧ bits (x.ticket n) 8 16 = x.seq.toNat ∧ bits (x.ticket n) 0 8 = n := by
  have seq := x.seq.isLt
  simp only [bits, CopySlot.ticket, wordOf, BitVec.toNat_ofNat, Nat.shiftRight_eq_div_pow]
  refine ⟨?_, ?_, ?_⟩ <;> omega

/-! ### The checks of a copy word (R215) -/

/-- Checks 3 and 4, the hold of a prefetch and the allocation: what a copy word does past its fields and addresses and the
reading of its list. -/
def State.queueCopy (s : State) (c : Nat) (k : CopyKind) (rd : Reg) (w a : Word) (list : List (Word × Nat)) (total : Nat) :
    Except Exc State :=
  match s.copyTargets c k w with
  | none => .error (.trap 50 0x01 w)
  | some ds =>
    if ds.any s.former.contains then .error (.trap 50 0x08 w)
    else match s.copyStageFault c k w a total with
      | some sub => .error (.trap 31 sub w)
      | none =>
        if localDest s c k w && (s.stage c (copyStage w)).prefetch && !(freeSlots (s.cluster c)).isEmpty then
          .error (.wait (k.waits list))
        else match s.allocSlot c (s.copyCommand k w a list ds total) with
          | none => .error (.wait (k.waits list))
          | some (u, n) => .ok (u.setX rd ((u.slot c n).ticket n))

section
variable {s : State} {c : Nat} {k : CopyKind} {w : Word}

theorem State.queueCopy_refused (refused : s.copyTargets c k w = none) (rd : Reg) (a : Word) (l : List (Word × Nat))
    (total : Nat) : s.queueCopy c k rd w a l total = .error (.trap 50 0x01 w) := by
  simp only [State.queueCopy, refused]

variable {ds : List Nat} {a : Word} {l : List (Word × Nat)} {total : Nat} (targets : s.copyTargets c k w = some ds)
  (present : ds.any s.former.contains = false)
include targets present

theorem State.queueCopy_stageFault {sub : Nat} (fault : s.copyStageFault c k w a total = some sub) (rd : Reg) :
    s.queueCopy c k rd w a l total = .error (.trap 31 sub w) := by
  simp only [State.queueCopy, targets, present, fault, Bool.false_eq_true, if_false]

theorem State.queueCopy_queues {u : State} {n : Nat} (passed : s.copyStageFault c k w a total = none)
    (unheld : (localDest s c k w && (s.stage c (copyStage w)).prefetch && !(freeSlots (s.cluster c)).isEmpty) = false)
    (queued : s.allocSlot c (s.copyCommand k w a l ds total) = some (u, n)) (rd : Reg) :
    s.queueCopy c k rd w a l total = .ok (u.setX rd ((u.slot c n).ticket n)) := by
  simp only [State.queueCopy, targets, present, passed, unheld, queued, Bool.false_eq_true, if_false]

end

section
variable {s : State} {k : CopyKind} {rs1 rs2 : Reg}

theorem State.issueCopy_fields (bad : badFields k (s.x rs2) = true ∨ badWindow k (s.x rs1) = true) (rd : Reg) :
    s.issueCopy k rd rs1 rs2 = .error (.trap 50 0x06 (s.x rs2)) := by
  have refused : (badFields k (s.x rs2) || badWindow k (s.x rs1)) = true := by rwa [Bool.or_eq_true]
  simp only [State.issueCopy, refused, if_true]
  rfl

variable (fields : badFields k (s.x rs2) = false) (window : badWindow k (s.x rs1) = false)
include fields window

section
variable (plain : k ≠ .gather)
include plain

theorem State.issueCopy_address (bad : canonicalRange (s.x rs1) (copyLen (s.x rs2) * 64) = false ∨ (s.x rs1).toNat % 64 ≠ 0)
    (rd : Reg) : s.issueCopy k rd rs1 rs2 = .error (.trap 50 0x02 (s.x rs2)) := by
  have refused : k ≠ .gather ∧ (!canonicalRange (s.x rs1) (copyLen (s.x rs2) * 64) ∨ (s.x rs1).toNat % 64 ≠ 0) :=
    ⟨plain, by simpa using bad⟩
  simp only [State.issueCopy, fields, window, Bool.or_self, Bool.false_eq_true, if_false, if_pos refused]
  rfl

theorem State.issueCopy_plain (range : canonicalRange (s.x rs1) (copyLen (s.x rs2) * 64) = true)
    (aligned : (s.x rs1).toNat % 64 = 0) (rd : Reg) :
    s.issueCopy k rd rs1 rs2 = s.queueCopy s.here k rd (s.x rs2) (s.x rs1) [] (copyLen (s.x rs2) * 64) := by
  have accepted : ¬ (badFields k (s.x rs2) || badWindow k (s.x rs1)) = true := by simp [fields, window]
  have placed : ¬ (k ≠ .gather ∧ (!canonicalRange (s.x rs1) (copyLen (s.x rs2) * 64) ∨ (s.x rs1).toNat % 64 ≠ 0)) := by
    simp [range, aligned]
  have unlisted (p : Prop) : ¬ (k = .gather ∧ p) := (plain ·.1)
  simp only [State.issueCopy, if_neg accepted, if_neg placed, if_neg (unlisted _), if_neg plain]
  rfl

end

theorem State.issueCopy_gather {u : State} {l : List (Word × Nat)} (gather : k = .gather)
    (range : canonicalRange (s.x rs1) (copyLen (s.x rs2) * 16) = true) (aligned : (s.x rs1).toNat % 16 = 0)
    (read : s.readList (s.x rs2) (s.x rs1) = .ok (u, l)) (rd : Reg) :
    s.issueCopy k rd rs1 rs2 = u.queueCopy s.here k rd (s.x rs2) (s.x rs1) l (sumLens l) := by
  have accepted : ¬ (badFields k (s.x rs2) || badWindow k (s.x rs1)) = true := by simp [fields, window]
  have placed : ¬ (k = .gather ∧ (!canonicalRange (s.x rs1) (copyLen (s.x rs2) * 16) ∨ (s.x rs1).toNat % 16 ≠ 0)) := by
    simp [range, aligned]
  have listed (p : Prop) : ¬ (k ≠ .gather ∧ p) := (absurd gather ·.1)
  simp only [State.issueCopy, if_neg accepted, if_neg placed, if_neg (listed _), if_pos gather, read]
  rfl

end

/-- The list of a `cpygath` that starts here is read from memory and passes its own checks (R214). -/
theorem State.readList_loads {s u : State} {w a : Word} {bs : List Byte} {l : List (Word × Nat)} (idle : s.me.waiting = none)
    (loads : s.load a (copyLen w * 16) 16 = .ok (u, bs)) (listed : gatherList (gatherEntries (copyLen w) bs) = .ok l) :
    s.readList w a = .ok (u, l) := by
  simp only [State.readList, idle, loads, bind, Except.bind, listed]
  rfl

/-! ### The copy words -/

/-- Each copy word but `cpygath` is the issue of its kind of command (R212). -/
theorem exec_copyWord {i : Instr} {k : CopyKind} {rd rs1 rs2 : Reg}
    (word : i = .cpyin rd rs1 rs2 ∧ k = .cpyin ∨ i = .cpyout rd rs1 rs2 ∧ k = .cpyout ∨ i = .cpyx rd rs1 rs2 ∧ k = .cpyx ∨
      i = .cpybc rd rs1 rs2 ∧ k = .broadcast) (s : State) :
    (exec i s = runClosing false i s fun u => u.issueCopy k rd rs1 rs2) ∧ isGateWait i = false ∧ k ≠ .gather := by
  rcases word with ⟨rfl, rfl⟩ | ⟨rfl, rfl⟩ | ⟨rfl, rfl⟩ | ⟨rfl, rfl⟩
  · exact ⟨exec_cpyin s, rfl, nofun⟩
  · exact ⟨exec_cpyout s, rfl, nofun⟩
  · exact ⟨exec_cpyx s, rfl, nofun⟩
  · exact ⟨exec_cpybc s, rfl, nofun⟩

/-- A command that is queued leaves its hart the task. -/
theorem closing_queues {i : Instr} {s u v : State} {body : State → Except Exc State} {c n : Nat} {x : CopySlot} {rd : Reg}
    {r : Word} (starts : s.starts) (plain : isGateWait i = false) (quiet : s.closed.noEnd) (kept : KeepsHarts s.closed u)
    (queued : u.allocSlot c x = some (v, n)) (issued : body s.closed = .ok (v.setX rd r)) :
    runClosing false i s body = .next (v.setX rd r).goesOn := by
  obtain ⟨-, rfl⟩ := State.allocSlot_some queued
  exact closing_ok starts plain quiet issued ((State.setX_task ..).trans (kept.trans (State.enqueueCopy_keeps ..)).task)

end Sys2Proof.Machine

open Sys2Proof Sys2Proof.Machine

/-- Settles O41: past its fields, its addresses and its list a copy word is `State.queueCopy`, and an allocation queues the
command in one of the free slots. -/
theorem copiesAreQueuedWithATicket : Obligations.CopiesAreQueuedWithATicket := by
  unfold Obligations.CopiesAreQueuedWithATicket
  refine ⟨?copies, ?gathers, fun s u c n x queued => ?allocates⟩
  case copies =>
    intro s u rd rs1 rs2 i k ds n starts quiet word
    obtain ⟨runs, gateless, plain⟩ := exec_copyWord word s
    simp only [← s.closed_x rs1, ← s.closed_x rs2, ← s.closed_here]
    have traps {b c : Nat} {v : Word} (trap : s.closed.issueCopy k rd rs1 rs2 = .error (.trap b c v)) :
        exec i s = .next (s.closed.takeTrap s.closed.cur false b c v) := runs.trans (closing_trap starts gateless quiet trap)
    refine ⟨fun bad => traps (State.issueCopy_fields bad rd), fun fields window =>
      ⟨fun bad => traps (State.issueCopy_address fields window plain bad rd), fun range aligned => ?_⟩⟩
    have issues := State.issueCopy_plain fields window plain range aligned rd
    refine ⟨fun refused => traps (issues.trans (State.queueCopy_refused refused ..)), fun targets present =>
      ⟨fun sub fault => traps (issues.trans (State.queueCopy_stageFault targets present fault rd)),
        fun passed unheld queued => runs.trans (closing_queues starts gateless quiet (KeepsHarts.refl _) queued
          (issues.trans (State.queueCopy_queues targets present passed unheld queued rd)))⟩⟩
  case gathers =>
    intro s u v rd rs1 rs2 bs l n starts quiet
    simp only [← s.closed_x rs1, ← s.closed_x rs2, ← s.closed_here]
    intro fields window range aligned loads listed passed unheld queued
    have read := State.readList_loads (s.closed_waiting.trans starts.1) loads listed
    exact (exec_cpygath s).trans (closing_queues starts rfl quiet (State.load_keeps _ _ _ _ _ _ loads) queued
      ((State.issueCopy_gather fields window rfl range aligned read rd).trans
        (State.queueCopy_queues rfl rfl passed unheld queued rd)))
  case allocates =>
    obtain ⟨free, rfl⟩ := State.allocSlot_some queued
    obtain ⟨small, isFree⟩ := mem_freeSlots.mp free
    obtain ⟨valid, seq, number⟩ := ((s.enqueueCopy c n x).slot c n).ticket_fields small
    refine ⟨isFree, s.slot_enqueueCopy c n x, s.copyQueue_enqueueCopy c n x, small, valid, ?_, number⟩
    rw [seq, s.slot_enqueueCopy]
end

section
/-! PROOFS. The words that follow a command by its ticket (R190, R198, R216, R217), by the state of its slot. -/

namespace Sys2Proof.Machine

/-! ### Words that leave the region open -/

/-- A trap that leaves the effect made before it (R198). -/
theorem runOpen_trapAfter {i : Instr} {s t : State} {body : State → Except Exc State} {cause sub : Nat} {tval : Word}
    (idle : t.me.waiting = none) (trap : body s = .error (.trapAfter t cause sub tval)) :
    runOpen i s body = .next (t.takeTrap t.cur false cause sub tval) := by
  rw [runOpen_error trap (by simp)]
  show Host.Outcome.next ((t.countRemote t.cur).takeTrap t.cur false cause sub tval) = _
  rw [State.countRemote_starts t t.cur idle]

theorem State.ticket_invalid {s : State} {w : Word} (invalid : w.getLsbD 31 = false) :
    s.ticket w = .error (.trap 50 0x07 w) := if_pos (.inl invalid)

section
variable {s : State} {rs1 : Reg} (idle : s.me.waiting = none)
include idle

/-- A word with bit 31 clear is no ticket: both words trap (R216). -/
theorem exec_ticketWord_invalid (invalid : (s.x rs1).getLsbD 31 = false) (rd : Reg) :
    exec (.cpwait rd rs1) s = .next (s.takeTrap s.cur false 50 0x07 (s.x rs1)) ∧
      exec (.cpqry rd rs1) s = .next (s.takeTrap s.cur false 50 0x07 (s.x rs1)) := by
  have refused := State.ticket_invalid (s := s) invalid
  exact ⟨(exec_cpwait s).trans (runOpen_traps idle _ (by simp only [refused]; rfl)),
    (exec_cpqry s).trans (runOpen_traps idle _ (by simp only [refused]; rfl))⟩

/-- A command whose slot holds a later one was done: both words answer that (R190). -/
theorem exec_ticketWord_reclaimed (reclaimed : s.ticket (s.x rs1) = .ok none) (rd : Reg) :
    exec (.cpwait rd rs1) s = .next (s.wrote rd 4) ∧ exec (.cpqry rd rs1) s = .next (s.wrote rd 4) := by
  rw [← State.wrote_eq s idle]
  exact ⟨(exec_cpwait s).trans (runOpen_ok (by simp only [reclaimed]; rfl)),
    (exec_cpqry s).trans (runOpen_ok (by simp only [reclaimed]; rfl))⟩

end

section
variable {s : State} {rs1 : Reg} {n : Nat} {x : CopySlot} (names : s.ticket (s.x rs1) = .ok (some n))
  (slot : s.slot s.here n = x)
include names slot

theorem exec_cpwait_done (idle : s.me.waiting = none) (done : x.state = 4) (rd : Reg) :
    exec (.cpwait rd rs1) s = .next (s.wrote rd x.status) := by
  rw [exec_cpwait, execCpwait, ← State.wrote_eq s idle]
  exact runOpen_ok (by simp only [names, bind, Except.bind, slot, done]; rfl)

theorem exec_cpwait_waits (quiet : s.noEnd) (unfinished : x.state = 1 ∨ x.state = 2 ∨ x.state = 3) (rd : Reg) :
    exec (.cpwait rd rs1) s = .next (s.modMe fun y =>
      { y with waiting := some { instr := .cpwait rd rs1, kind := .long, reply := none } }) := by
  refine (exec_cpwait s).trans (runOpen_wait quiet ?_)
  rcases unfinished with state | state | state
  all_goals
    simp only [names, bind, Except.bind, slot, state]
    rfl

/-- The slot of a faulted command is freed, and the trap is that of its fault (R198). -/
theorem exec_cpwait_faulted (idle : s.me.waiting = none) (faulted : x.state = 5) (rd : Reg) :
    exec (.cpwait rd rs1) s = .next ((s.freeSlot s.here n).takeTrap s.cur false x.cause x.sub (s.x rs1)) := by
  have kept := s.freeSlot_keeps s.here n
  refine (exec_cpwait s).trans (kept.cur ▸ runOpen_trapAfter (kept.waiting.trans idle) ?_)
  simp only [names, bind, Except.bind, slot, faulted]
  rfl

theorem exec_cpqry_wrote (idle : s.me.waiting = none) (kept : ¬ (x.state = 5 ∨ x.state = 6)) (rd : Reg) :
    exec (.cpqry rd rs1) s = .next (s.wrote rd x.status) := by
  rw [exec_cpqry, execCpqry, ← State.wrote_eq s idle]
  exact runOpen_ok (by simp only [names, bind, Except.bind, slot, if_neg kept]; rfl)

/-- The query of a faulted or a cancelled command frees its slot (R217). -/
theorem exec_cpqry_frees (ended : x.state = 5 ∨ x.state = 6) (rd : Reg) :
    exec (.cpqry rd rs1) s = .next ((s.freeSlot s.here n).setX rd x.status).complete :=
  (exec_cpqry s).trans (runOpen_ok (by simp only [names, bind, Except.bind, slot, if_pos ended]; rfl))

end

/-! ### `cpcan` -/

section
variable {s : State} {rs1 : Reg} (starts : s.starts) (quiet : s.closed.noEnd)
include starts quiet

theorem exec_cpcan_reclaimed (reclaimed : s.closed.ticket (s.x rs1) = .ok none) (rd : Reg) :
    exec (.cpcan rd rs1) s = .next (s.closed.setX rd 0).goesOn :=
  (exec_cpcan s).trans (closing_ok starts rfl quiet (by simp only [s.closed_x, reclaimed]; rfl) (State.setX_task ..))

variable {n : Nat} {x : CopySlot} (names : s.closed.ticket (s.x rs1) = .ok (some n))
  (slot : s.closed.slot (clusterOf s.cur) n = x)
include names slot

theorem exec_cpcan_cancels (unfinished : x.unfinished = true) (rd : Reg) :
    exec (.cpcan rd rs1) s = .next ((s.closed.stopSlot (clusterOf s.cur) n 6).setX rd 1).goesOn := by
  refine (exec_cpcan s).trans (closing_ok starts rfl quiet ?effect
    ((State.setX_task ..).trans (State.stopSlot_keeps ..).task))
  simp only [s.closed_x, names, bind, Except.bind, s.closed_here, slot, unfinished, if_true]
  rfl

theorem exec_cpcan_done (done : x.state = 4) (rd : Reg) :
    exec (.cpcan rd rs1) s = .next (s.closed.setX rd 0).goesOn := by
  have finished : ¬ x.unfinished = true := by simp [CopySlot.unfinished, done]
  have kept : ¬ (x.state = 5 ∨ x.state = 6) := by omega
  refine (exec_cpcan s).trans (closing_ok starts rfl quiet ?effect (State.setX_task ..))
  simp only [s.closed_x, names, bind, Except.bind, s.closed_here, slot, if_neg finished, if_neg kept]
  rfl

end

end Sys2Proof.Machine

open Sys2Proof Sys2Proof.Machine

/-- Settles O42: past its ticket each word is one equation for each state of the slot, or its wait or trap. -/
theorem ticketsFollowTheirCommand : Obligations.TicketsFollowTheirCommand := by
  unfold Obligations.TicketsFollowTheirCommand
  intro s rd rs1 starts
  refine ⟨fun reclaimed => exec_ticketWord_reclaimed starts.1 reclaimed rd,
    fun n names => ⟨fun done => ?done, fun unfinished => ?unfinished,
      fun faulted => exec_cpwait_faulted names rfl starts.1 faulted rd, fun ended => exec_cpqry_frees names rfl ended rd⟩,
    fun quiet => ⟨fun reclaimed => exec_cpcan_reclaimed starts quiet reclaimed rd, fun n names =>
      ⟨fun unfinished => exec_cpcan_cancels starts quiet names rfl unfinished rd,
        fun done => exec_cpcan_done starts quiet names rfl done rd⟩⟩,
    fun invalid => exec_ticketWord_invalid starts.1 invalid rd⟩
  case done =>
    have kept : ¬ ((s.slot s.here n).state = 5 ∨ (s.slot s.here n).state = 6) := fun ended => by
      rw [State.here, done] at ended
      omega
    exact ⟨exec_cpwait_done names rfl starts.1 done rd, exec_cpqry_wrote names rfl starts.1 kept rd⟩
  case unfinished =>
    have kept : ¬ ((s.slot s.here n).state = 5 ∨ (s.slot s.here n).state = 6) := by
      rw [State.here]
      omega
    exact ⟨exec_cpqry_wrote names rfl starts.1 kept rd, fun quiet => exec_cpwait_waits names rfl quiet unfinished rd⟩
end

section
/-! PROOFS. The copy engine (R188, R190 to R193, R200, R360): how a channel takes a command, how a beat of a command of this
chip moves, and the beats that come from and go to another chip. -/

namespace Sys2Proof.Machine

/-! ### Channels -/

/-- The oldest queued command taken by a channel (R188). -/
def State.takeCommand (s : State) (c n : Nat) (r : List Nat) : State :=
  (((s.setCluster c { s.cluster c with copyQueue := r, channels := (s.cluster c).channels ++ [n] }).setSlot c n
    { s.slot c n with state := 2 }).post (.copyBeatWrite c (.own n))).post (.copyChannelStart c)

theorem State.startCopy_takes {s : State} {c n : Nat} {r : List Nat} (queue : (s.cluster c).copyQueue = n :: r)
    (idle : (s.cluster c).channels.length < 16) (moves : s.still c = false)
    (fetches : (s.slot c n).kind = .fetch → s.halting c = false) : s.startCopy c = s.takeCommand c n r := by
  have may : (s.cluster c).channels.length < 16 ∧ !s.still c ∧ !((s.slot c n).kind == .fetch && s.halting c) :=
    ⟨idle, by simp [moves], by simpa [← imp_iff_not_or] using fetches⟩
  have same (k : Cluster) (slots : k.slots = (s.cluster c).slots) : (s.setCluster c k).slot c n = s.slot c n := by
    rw [State.slot_eq, State.cluster_setCluster, slots, State.slot_eq]
  simp only [State.startCopy, queue, if_pos may, State.takeCommand, same]

section
variable (s : State) (c n : Nat) (r : List Nat)

theorem State.cluster_takeCommand : (s.takeCommand c n r).cluster c = { s.cluster c with
    copyQueue := r, channels := (s.cluster c).channels ++ [n],
    slots := (s.cluster c).slots.put n { s.slot c n with state := 2 } } := by
  simp only [State.takeCommand, State.cluster_post, State.cluster_setSlot, State.cluster_setCluster]

theorem State.slot_takeCommand : (s.takeCommand c n r).slot c n = { s.slot c n with state := 2 } := by
  simp only [State.takeCommand, State.slot_post, State.slot_setSlot]

theorem State.pending_takeCommand :
    (s.takeCommand c n r).pending = s.pending ++ [.copyBeatWrite c (.own n), .copyChannelStart c] :=
  List.append_assoc s.pending [_] [_]

end

/-! ### Beats of a command of this chip -/

theorem State.raiseVerdict_chip (s : State) (h : Word) (v : Nat) : (s.raiseVerdict h v).chip = s.chip := by
  rw [State.raiseVerdict]
  split
  next => rfl
  next =>
    split
    next => rw [State.modLaunch_chip, State.setTask_chip]
    next => rfl

theorem State.copyDetect_chip (s : State) (c : Nat) (task : Word) (vault global : Bool) :
    (s.copyDetect c task vault global).1.chip = s.chip := by
  simp only [State.copyDetect]
  split
  next => rfl
  next =>
    split
    next => exact State.raiseVerdict_chip ..
    next => rfl

theorem Touched.chip {s t : State} (touched : Touched s t) : t.chip = s.chip := by rw [touched.rest]

/-- The read of a source beat does not change which chip this is. -/
theorem State.readBeat_chip (s : State) (c : Nat) (x : CopySlot) : (s.readBeat c x).1.chip = s.chip := by
  simp only [State.readBeat]
  split
  next =>
    split
    next => rfl
    next =>
      split
      next => rfl
      next => exact s.copyDetect_chip ..
  next =>
    split
    next => rfl
    next resolved => exact (State.copyDetect_chip ..).trans (resolve_touched _ _ _ _ _ _ _ _ resolved).chip

theorem State.gatherIn_read {s : State} {c n : Nat} {x : CopySlot} (listed : x.kind = .gather → x.gather ≠ []) :
    s.gatherIn c n x = (s, .ok x) :=
  if_neg fun ⟨gather, empty⟩ => listed gather (List.isEmpty_iff.mp empty)

/-- A command that is not active, whose beat is out, or whose engine stands still moves nothing (R200). -/
theorem State.copyBeat_stands {s : State} {c n : Nat}
    (stands : (s.slot c n).state ≠ 2 ∨ (s.slot c n).out = true ∨ s.still c = true) : s.copyBeat c n = s :=
  if_pos (by
    rcases stands with idle | out | still
    exacts [.inl idle, .inr (.inl out), .inr (.inr (.inl still))])

/-- A beat whose source and destination, on this chip, go through is written (R193). -/
theorem State.copyBeat_moves {s u v : State} {c n : Nat} {bs : List Byte} (active : (s.slot c n).state = 2)
    (home : (s.slot c n).out = false) (moves : s.still c = false) (fetches : (s.slot c n).kind = .fetch → s.halting c = false)
    (listed : (s.slot c n).kind = .gather → (s.slot c n).gather ≠ []) (stays : (s.slot c n).leaves s.chip = false)
    (read : s.readBeat c (s.slot c n) = (u, .ok bs)) (written : u.writeBeat c (s.slot c n) bs = (v, .ok ())) :
    s.copyBeat c n = v.beatDone c n := by
  have may : ¬ ((s.slot c n).state ≠ 2 ∨ (s.slot c n).out ∨ s.still c ∨ ((s.slot c n).kind = .fetch ∧ s.halting c)) := by
    rintro (idle | out | still | ⟨fetch, halts⟩)
    exacts [idle active, Bool.eq_false_iff.mp home out, Bool.eq_false_iff.mp moves still,
      Bool.eq_false_iff.mp (fetches fetch) halts]
  have chip : u.chip = s.chip := by
    have same := s.readBeat_chip c (s.slot c n)
    rwa [read] at same
  simp only [State.copyBeat, if_neg may, State.gatherIn_read listed, read, chip, stays, written, Bool.false_eq_true, if_false]

section
variable {s : State} {c n : Nat} (active : (s.slot c n).state = 2)
include active

theorem State.beatDone_more (more : (s.slot c n).done + 64 < (s.slot c n).total) : s.beatDone c n =
    (s.setSlot c n { s.slot c n with done := (s.slot c n).done + 64 }).post (.copyBeatWrite c (.own n)) :=
  (if_neg (not_not.mpr active)).trans (if_neg (Nat.not_le.mpr more))

theorem State.beatDone_last (last : (s.slot c n).total ≤ (s.slot c n).done + 64) : s.beatDone c n =
    (s.setSlot c n { s.slot c n with done := (s.slot c n).done + 64 }).copyDone c n :=
  (if_neg (not_not.mpr active)).trans (if_pos last)

end

/-! ### Beats of another chip (R192, R360; the answer that departs is log 56) -/

section
variable {s : State} {c : Nat}

theorem State.beatArrives_stopped (refuses : s.refuses c = true) (f : Word) (n off : Nat) (data : BitVec 512) :
    s.beatArrives f c n off data = { s.sendFlit c with departed := s.departed ++ [.answer f .stopped] } := by
  simp only [State.beatArrives, refuses, if_true]

variable {n off : Nat} {data : BitVec 512} (takes : s.refuses c = false)
include takes

theorem State.beatArrives_written {u : State} (arrives : s.arrive c n off (leBytes 64 data.toNat) = .ok u) (f : Word) :
    s.beatArrives f c n off data = { u.sendFlit c with departed := u.departed ++ [.answer f .written] } := by
  simp only [State.beatArrives, takes, arrives, Bool.false_eq_true, if_false]

theorem State.beatArrives_fault {a b : Nat} (faults : s.arrive c n off (leBytes 64 data.toNat) = .error (a, b)) (f : Word) :
    s.beatArrives f c n off data = { s.sendFlit c with departed := s.departed ++ [.answer f (.fault a b)] } := by
  simp only [State.beatArrives, takes, faults, Bool.false_eq_true, if_false]

end

section
variable {s : State} {c n : Nat} {q : BitVec 16}

/-- An answer that no beat of this command awaits changes nothing. -/
theorem State.beatAnswered_stale (stale : (s.slot c n).out = false ∨ (s.slot c n).seq ≠ q) (o : BeatOutcome) :
    s.beatAnswered c n q o = s := by
  have unawaited : (s.slot c n).seq ≠ q ∨ (!(s.slot c n).out) = true := by
    rcases stale with home | other
    exacts [.inr (by rw [home]; rfl), .inl other]
  exact if_pos unawaited

variable (out : (s.slot c n).out = true) (seq : (s.slot c n).seq = q)
include out seq

theorem State.beatAnswered_written :
    s.beatAnswered c n q .written = (s.setSlot c n { s.slot c n with out := false }).beatDone c n := by
  simp only [State.beatAnswered, out, seq, ne_eq, not_true_eq_false, Bool.not_true, Bool.false_eq_true, or_self, if_false]

theorem State.beatAnswered_stopped : s.beatAnswered c n q .stopped =
    (s.setSlot c n { s.slot c n with out := false }).post (.copyBeatWrite c (.own n)) := by
  simp only [State.beatAnswered, out, seq, ne_eq, not_true_eq_false, Bool.not_true, Bool.false_eq_true, or_self, if_false]

end

end Sys2Proof.Machine

open Sys2Proof Sys2Proof.Machine

/-- Settles O43: each event of the engine is one equation, by the state of the command, of its engine and of the stage. -/
theorem copyEngineMovesBeats : Obligations.CopyEngineMovesBeats := by
  unfold Obligations.CopyEngineMovesBeats
  refine ⟨fun s c n r queue idle moves fetches => ?channel,
    fun s u v c n bs active home moves fetches listed stays read written => ?beat,
    fun s c n stands => congrArg _ (State.copyBeat_stands stands),
    fun s f c n off data => ⟨fun refuses => congrArg _ (State.beatArrives_stopped refuses f n off data),
      fun takes => ⟨fun u arrives => congrArg _ (State.beatArrives_written takes arrives f),
        fun a b faults => congrArg _ (State.beatArrives_fault takes faults f)⟩⟩,
    fun s c n q => ⟨fun out seq => ⟨congrArg _ (State.beatAnswered_written out seq),
      congrArg _ (State.beatAnswered_stopped out seq)⟩, fun stale o => congrArg _ (State.beatAnswered_stale stale o)⟩⟩
  case channel =>
    have cluster := s.cluster_takeCommand c n r
    exact ⟨s.takeCommand c n r, congrArg _ (State.startCopy_takes queue idle moves fetches), by rw [cluster], by rw [cluster],
      s.slot_takeCommand c n r, rfl, rfl, s.pending_takeCommand c n r⟩
  case beat =>
    have goes : exec (.copyBeatWrite c (.own n)) s = .next (v.beatDone c n) :=
      congrArg _ (State.copyBeat_moves active home moves fetches listed stays read written)
    exact ⟨fun active more => goes.trans (congrArg _ (State.beatDone_more active more)),
      fun active last => goes.trans (congrArg _ (State.beatDone_last active last))⟩
end

section
/-! PROOFS. The words of the tile engine (R225, R226, R261 to R273): an MT word past its checks or at the one that fails first,
the words on tile data past theirs, and what the entry of an operation into its stream changes. -/

namespace Sys2Proof.Machine

/-! ### MT words (R225, R261 to R265) -/

/-- The MT words share one effect; each gives it its own kind of operation. -/
theorem exec_matrixWord {i : Instr} {kind : OpKind} {m : MtOps}
    (form : i = .mma m ∧ kind = .mma ∨ i = .mms m ∧ kind = .mms ∨ i = .mmz m ∧ kind = .mmz ∨ i = .mmak m ∧ kind = .mmak ∨
      i = .mmag m ∧ kind = .mmag) (s : State) :
    exec i s = runOpen i s fun s => s.matrixWord kind i m := by
  rcases form with ⟨rfl, rfl⟩ | ⟨rfl, rfl⟩ | ⟨rfl, rfl⟩ | ⟨rfl, rfl⟩ | ⟨rfl, rfl⟩
  exacts [exec_mma s, exec_mms s, exec_mmz s, exec_mmak s, exec_mmag s]

section
variable {s : State} {o : Op}

theorem State.checkMt_number (past : ∃ n ∈ o.md.toNat :: (tileNum o.a ++ tileNum o.b), s.tileCount ≤ n) :
    s.checkMt o = .error (.trapWord 28 0x01) := by
  simp only [State.checkMt, State.tilesBelow_bad past]
  rfl

variable (below : ∀ n ∈ o.md.toNat :: (tileNum o.a ++ tileNum o.b), n < s.tileCount) (kind : o.kind ≠ .mmag)
include below kind

theorem State.checkMt_operand (twice : o.md.toNat ∈ tileNum o.a ++ tileNum o.b) :
    s.checkMt o = .error (.trapWord 28 0x08) := by
  have same : (tileNum o.a ++ tileNum o.b).contains o.md.toNat = true := List.contains_iff_mem.mpr twice
  simp only [State.checkMt, State.tilesBelow_ok below, kind, false_and, if_false, same, if_true]
  rfl

theorem State.checkMt_pad (apart : o.md.toNat ∉ tileNum o.a ++ tileNum o.b) {r : Reg} (pad : o.b = .pad r)
    (bad : padBad (o.kind == .mmak) o.bPad = true) : s.checkMt o = .error (.trapWord 28 0x05) := by
  have other : ¬ (tileNum o.a ++ tileNum o.b).contains o.md.toNat = true := mt List.contains_iff_mem.mp apart
  rw [pad] at below other
  simp only [State.checkMt, pad, State.tilesBelow_ok below, kind, false_and, if_false, if_neg other, bad, Bool.and_self,
    Bool.or_true, if_true]
  rfl

end

/-! ### The stream (R226) -/

/-- An operation joins the end of the stream of its pair: no hart, task or byte changes. -/
theorem State.enqueue_joins (s : State) (o : Op) : let p := pairOf s.cur; let t := s.enqueue o
    t.mem = s.mem ∧ t.harts = s.harts ∧ t.tasks = s.tasks ∧ t.serial = s.serial + 1 ∧
    (t.pair p).ops = (s.pair p).ops ++ [{ o with id := s.serial, total := o.steps?, pins := o.stages (o.leads p) }] ∧
    .tileOpStart p ∈ t.pending := by
  intro p t
  obtain ⟨clusters, pending, entered, posted⟩ := s.enqueue_eq o
  have joined : t = _ := entered
  rw [joined]
  exact ⟨rfl, rfl, rfl, rfl, congrArg Pair.ops (Table.get_put_same ..), posted⟩

/-! ### Words on tile data (R271 to R273) -/

/-- The pad of an operation is in range for each of its executions (R307). -/
theorem State.checkPads_all {s : State} {T : BitVec 4} {us : List Tup} {d : Word × Word} {write : Bool}
    (all : us = s.executions T) (inside : ∀ w ∈ us, s.padFault d 64 1 (s.myLift.offset w) write = none) {o : Op} (pad : o.bPad = d) :
    s.checkPads o write (s.executions T) = .ok () := by
  rw [← all]
  exact checkPads_ok (by rwa [pad])

end Sys2Proof.Machine

open Sys2Proof Sys2Proof.Machine

/-- Settles O47: past its checks each word is the acceptance of its executions, and an MT word stops at the check that fails
first. -/
theorem tileWordsAreAccepted : Obligations.TileWordsAreAccepted := by
  unfold Obligations.TileWordsAreAccepted
  refine ⟨fun s u m i kind us form starts => ?matrix, fun s u md ms pad rs us starts => ?data, State.enqueue_joins⟩
  case matrix =>
    have runs := exec_matrixWord form s
    refine ⟨fun stager => runs.trans (runOpen_word starts (matrixWord_stager starts.1 stager)),
      fun compute ready checks places => runs.trans (runOpen_ok (matrixWord_ok starts.1 compute ready checks places)),
      fun T compute noFault lifts => ?traps⟩
    have traps {b : Nat} (fails : s.checkMt (s.mtOp kind ((encode i).getD 0) m) = .error (.trapWord 28 b)) :
        exec i s = .next (s.takeTrap s.cur false 28 b (wordOfInstr i)) :=
      runs.trans (runOpen_word starts (matrixWord_bad starts.1 compute noFault lifts fails))
    exact ⟨fun past => traps (State.checkMt_number past), fun other below =>
      ⟨fun twice => traps (State.checkMt_operand below other twice),
        fun apart r pad bad => traps (State.checkMt_pad below other apart pad bad)⟩⟩
  case data =>
    refine ⟨fun ready sound inside valid places => (exec_mld s).trans (runOpen_ok (dataWord_ok starts.1 ready ?mld places)),
      fun ready sound pitch inside places => (exec_mst s).trans (runOpen_ok (dataWord_ok starts.1 ready ?mst places)),
      fun ready valid places => (exec_mzero s).trans (runOpen_ok (dataWord_ok starts.1 ready ?mzero places)),
      fun ready places => (exec_mcopy s).trans (runOpen_ok (dataWord_ok starts.1 ready (fun _ _ => rfl) places)),
      fun ready valid places => (exec_mtrn s).trans (runOpen_ok (dataWord_ok starts.1 ready ?mtrn places))⟩
    case mld =>
      intro T all
      simp only [sound, valid, State.checkPads_all all inside]
      rfl
    case mst =>
      intro T all
      simp only [sound, Nat.not_lt.mpr pitch, State.checkPads_all all inside]
      rfl
    case mzero => exact fun _ _ => if_neg (Bool.eq_false_iff.mp valid)
    case mtrn => exact fun _ _ => if_neg (Bool.eq_false_iff.mp valid)
end

section
/-! PROOFS. Commit groups, tile status and the format table (R229, R266, R274 to R278): each word past its checks, where it
waits and where it traps. -/

namespace Sys2Proof.Machine

theorem State.task?_of_myTask {s : State} {h : Word} {t : Task} (runs : s.me.task = some h) (mine : s.myTask = some t) :
    s.task? h = some t := by
  rwa [State.myTask, State.taskOf, ← State.me, runs] at mine

/-! ### Commit groups (R229, R266, R274, R275) -/

section
variable {s : State} {t : Task}

theorem exec_mcommit_idle (starts : s.starts) (idle : s.me.task = none) (rd : Reg) :
    exec (.mcommit rd) s = .next (s.wrote rd 0) := by
  rw [exec_mcommit, execMcommit, ← State.wrote_eq s starts.1]
  exact runOpen_ok (by simp only [idle])

theorem exec_mcommit_closes {h : Word} (runs : s.me.task = some h) (mine : s.myTask = some t)
    (room : (liveGroups t s.myOps).length < 16) (rd : Reg) : exec (.mcommit rd) s = .next ((s.setTask h { t with
      group := t.group + 1,
      openGroups := liveGroups t s.myOps ++ if s.myOps.any fun o => o.group == t.group then [t.group] else [] }).setX rd
      (t.group.setWidth 64)).complete := by
  refine (exec_mcommit s).trans (runOpen_ok ?effect)
  simp only [runs, mine, if_neg (Nat.not_le.mpr room), State.modTask, State.task?_of_myTask runs mine]

theorem exec_mcommit_waits {h : Word} (runs : s.me.task = some h) (mine : s.myTask = some t)
    (full : 16 ≤ (liveGroups t s.myOps).length) (rd : Reg) : exec (.mcommit rd) s = .next (s.modMe fun x =>
      { x with waiting := some { instr := .mcommit rd, kind := .short, reply := none } }) := by
  rw [exec_mcommit, execMcommit, ← State.finish_wait s _ .short (.inl rfl)]
  exact runOpen_error (by simp only [runs, mine, if_pos full]) (by simp)

theorem exec_mwait_idle (starts : s.starts) (idle : s.myTask = none) (rs1 : Reg) :
    exec (.mwait rs1) s = .next (s.takeTrap s.cur false 28 0x07 (wordOfInstr (.mwait rs1))) :=
  (exec_mwait s).trans (runOpen_word starts (by simp only [idle]))

variable {rs1 : Reg} {d : Nat} (mine : s.myTask = some t) (age : groupAge t ((s.x rs1).setWidth 16) = d)
include mine age

/-- A group that is open, or that no `mcommit` has closed yet (R275). -/
theorem exec_mwait_open (starts : s.starts) (unclosed : d = 0 ∨ 2 ^ 15 ≤ d) :
    exec (.mwait rs1) s = .next (s.takeTrap s.cur false 28 0x07 (wordOfInstr (.mwait rs1))) := by
  refine (exec_mwait s).trans (runOpen_word starts ?effect)
  simp only [mine, age, ge_iff_le, if_pos unclosed]
  rfl

variable (closed : d ≠ 0 ∧ d < 2 ^ 15)
include closed

theorem exec_mwait_goesOn (done : ∀ o ∈ s.myOps, groupAge t o.group < d)
    (noFault : s.opFaultAt (fun f => decide (d ≤ groupAge t f.group)) = .ok ()) :
    exec (.mwait rs1) s = .next s.complete := by
  have known : ¬ (d = 0 ∨ 2 ^ 15 ≤ d) := by omega
  have complete : (s.myOps.any fun o => decide (d ≤ groupAge t o.group)) = false := by
    simpa only [List.any_eq_false, decide_eq_true_eq, Nat.not_le] using done
  refine (exec_mwait s).trans (runOpen_ok ?effect)
  simp only [mine, age, ge_iff_le, if_neg known, complete, Bool.false_eq_true, if_false, noFault]
  rfl

theorem exec_mwait_waits (incomplete : ∃ o ∈ s.myOps, d ≤ groupAge t o.group) (quiet : s.noEnd) :
    exec (.mwait rs1) s = .next (s.modMe fun x =>
      { x with waiting := some { instr := .mwait rs1, kind := .long, reply := none } }) := by
  have known : ¬ (d = 0 ∨ 2 ^ 15 ≤ d) := by omega
  have some_ : (s.myOps.any fun o => decide (d ≤ groupAge t o.group)) = true := by
    simpa only [List.any_eq_true, decide_eq_true_eq] using incomplete
  refine (exec_mwait s).trans (runOpen_wait quiet ?effect)
  simp only [mine, age, ge_iff_le, if_neg known, some_, if_true]
  rfl

end

/-! ### Tile status (R223, R276) -/

/-- The checks of a status word, in their order, pass. -/
structure State.MayRead (s : State) (mt : TileReg) : Prop where
  fault     : s.opFaultOn [mt.toNat] = .ok ()
  below     : mt.toNat < s.tileCount
  untagged  : s.tagsOf mt.toNat = 0
  unwritten : s.writer mt.toNat = false

section
variable {s : State} {mt : TileReg} {h : Word} {t : Task} {p : Nat} (may : s.MayRead mt) 
include may

theorem State.statusCheck_ok : s.statusCheck mt = .ok () := by
  have tiles : s.tilesBelow [mt.toNat] = .ok () := State.tilesBelow_ok (by simpa using may.below)
  have none_ : s.unionTags [mt.toNat] [] = 0 := by simp [State.unionTags, may.untagged]
  simp only [State.statusCheck, may.fault, tiles, State.liftNone, none_, may.unwritten, Bool.false_eq_true, if_false]
  split <;> rfl

theorem exec_mstat_wrote (starts : s.starts) (mine : s.myTask = some t) (pair : t.pair = some p) (rd : Reg) :
    exec (.mstat rd mt) s = .next (s.wrote rd (s.tile p (t.phys mt.toNat)).status) := by
  rw [exec_mstat, execMstat, ← State.wrote_eq s starts.1]
  refine runOpen_ok ?effect
  simp only [State.statusCheck_ok may, mine, Option.bind_some, pair, Option.map_some]
  rfl

theorem exec_mclrf_clears {u : State} (runs : s.me.task = some h) (mine : s.myTask = some t) (pair : t.pair = some p)
    (shadow : s.shadowTile mt.toNat = .ok u) (rs2 : Reg) : exec (.mclrf mt rs2) s =
      .next (u.setTile p (t.phys mt.toNat) { u.tile p (t.phys mt.toNat) with
        flags := (u.tile p (t.phys mt.toNat)).flags &&& ~~~(if rs2 = 0 then 0xFF else (s.x rs2).setWidth 8) }).complete := by
  have task : u.me.task = some h := (State.shadowTile_keeps shadow).task.trans runs
  obtain ⟨region, has⟩ := State.shadowTile_task runs (State.task?_of_myTask runs mine) shadow
  refine (exec_mclrf s).trans (runOpen_ok ?effect)
  simp only [State.statusCheck_ok may, bind, Except.bind, shadow, task, State.modStatus, has, Option.bind_some, pair,
    Option.map_some]
  rfl

end

/-! ### The format table (R247, R259, R277, R278) -/

section
variable {s : State} {rd rs1 rs2 : Reg}

theorem exec_fmtr_illegal (starts : s.starts) (off : satpOn s.me.sys.satp = false) :
    exec (.fmtr rd rs1) s = .next (s.takeTrap s.cur false 2 0 (wordOfInstr (.fmtr rd rs1))) :=
  (exec_fmtr s).trans (runOpen_illegal starts.1 _ (by simp only [off]; rfl))

theorem exec_fmtr_wrote (starts : s.starts) (on : satpOn s.me.sys.satp = true) :
    exec (.fmtr rd rs1) s = .next (s.wrote rd (s.look (bits (s.x rs1) 0 5))) := by
  rw [exec_fmtr, execFmtr, ← State.wrote_eq s starts.1]
  exact runOpen_ok (by simp only [on]; rfl)

/-- The state in which a write of entry `id` of the acting hart's context has left for the views (R259). -/
def State.sendEntry (s : State) (id : Nat) (w : Word) : State :=
  let ctx := s.ctxOf s.cur
  let key := ctx * 32 + id
  sendViews ctx id (s.fmts.get key 0, s.fmtVers.get key 0) w (s.viewPairs ctx)
    { s with fmts := s.fmts.put key w, fmtVers := s.fmtVers.put key (s.fmtVers.get key 0 + 1) }

section
variable (starts : s.starts) (quiet : s.closed.noEnd)
include starts quiet

theorem exec_fmtw_illegal (off : satpOn s.closed.me.sys.satp = false) :
    exec (.fmtw rs1 rs2) s = .next (s.closed.takeTrap s.closed.cur false 2 0 (wordOfInstr (.fmtw rs1 rs2))) :=
  (exec_fmtw s).trans (closing_illegal starts rfl quiet (by simp only [off]; rfl))

variable (on : satpOn s.closed.me.sys.satp = true)
include on

theorem exec_fmtw_traps {sub : Nat} (bad : entryFault s.closed.look (bits (s.x rs1) 0 5) (s.x rs2) = some sub) :
    exec (.fmtw rs1 rs2) s = .next (s.closed.takeTrap s.closed.cur false 26 sub (s.x rs2)) := by
  have idle : s.closed.me.waiting = none := s.closed_waiting.trans starts.1
  refine (exec_fmtw s).trans (closing_trap starts rfl quiet ?effect)
  simp only [on, idle, s.closed_x, bad]
  rfl

theorem exec_fmtw_sends (sound : entryFault s.closed.look (bits (s.x rs1) 0 5) (s.x rs2) = none)
    (captured : ((s.closed.viewPairs (s.closed.ctxOf s.closed.cur)).any fun p =>
      s.closed.holdsOld p (s.closed.ctxOf s.closed.cur) (bits (s.x rs1) 0 5)) = false)
    (applied : s.closed.viewStale (s.closed.ctxOf s.closed.cur * 32 + bits (s.x rs1) 0 5) = false) :
    exec (.fmtw rs1 rs2) s = .next ((s.closed.sendEntry (bits (s.x rs1) 0 5) (s.x rs2)).modMe fun x =>
      { x with waiting := some { instr := .fmtw rs1 rs2, kind := .applied, reply := none } }) := by
  have idle : s.closed.me.waiting = none := s.closed_waiting.trans starts.1
  refine (exec_fmtw s).trans (closing_hold starts rfl quiet ?effect)
  simp only [on, idle, s.closed_x, sound, captured, applied, Bool.not_true, Bool.false_eq_true, if_false]
  rfl

end

/-- `fmtw` completes when every view has its entry. -/
theorem exec_fmtw_applied {r : Option Reply} (quiet : s.noEnd) (on : satpOn s.me.sys.satp = true)
    (waits : s.me.waiting = some { instr := .fmtw rs1 rs2, kind := .applied, reply := r })
    (applied : s.viewStale (s.ctxOf s.cur * 32 + bits (s.x rs1) 0 5) = false) :
    exec (.fmtw rs1 rs2) s = .next s.goesOn := by
  refine (exec_fmtw s).trans (runClosing_resumed waits quiet ?effect rfl)
  simp only [on, waits, applied, Bool.not_true, Bool.false_eq_true, if_false]

section
variable (s : State) (w : Option Wait)

/-- The acting hart in a wait, all else as it was. -/
def State.waits : State := s.withMe { s.me with waiting := w }

theorem State.me_waits : (s.waits w).me = { s.me with waiting := w } := Table.get_put_same ..

theorem State.x_waits (r : Reg) : (s.waits w).x r = s.x r := congrArg (fun x => x.ctx.xreg r) (s.me_waits w)

/-- A hart works in the same context while it waits (R60). -/
theorem State.ctxOf_waits : (s.waits w).ctxOf (s.waits w).cur = s.ctxOf s.cur := by
  have satp : ((s.waits w).hart s.cur).sys.satp = (s.hart s.cur).sys.satp := congrArg (fun x => x.sys.satp) (s.me_waits w)
  have cur : (s.waits w).cur = s.cur := rfl
  rw [cur, State.ctxOf, satp]
  rfl

end

/-- A pair whose view has the write reads the entry of the table. -/
theorem State.entryAt_viewApplied (s : State) {p ctx id : Nat} (written : 16 ≤ id) :
    (s.modPair p fun k => { k with views := k.views.drop (ctx * 32 + id) }).entryAt p ctx id = s.fmts.get (ctx * 32 + id) 0 := by
  rw [State.entryAt, State.versionAt, if_neg (Nat.not_lt.mpr written), State.pair_modPair, Table.find_drop_same]
  rfl

end

end Sys2Proof.Machine

open Sys2Proof Sys2Proof.Machine

/-- Settles O48: past its checks each word is one equation, or its wait; a check that fails is its trap. -/
theorem groupsStatusAndFormatsAreKept : Obligations.GroupsStatusAndFormatsAreKept := by
  unfold Obligations.GroupsStatusAndFormatsAreKept
  intro s u rd rs1 rs2 mt h t starts
  refine ⟨fun idle => exec_mcommit_idle starts idle rd, fun idle => exec_mwait_idle starts idle rs1,
    fun runs mine => ⟨fun room => exec_mcommit_closes runs mine room rd, fun full => exec_mcommit_waits runs mine full rd,
      ⟨fun unclosed => exec_mwait_open mine rfl starts unclosed, fun some_ recent =>
        ⟨fun done noFault => exec_mwait_goesOn mine rfl ⟨some_, recent⟩ done noFault,
          fun incomplete quiet => exec_mwait_waits mine rfl ⟨some_, recent⟩ incomplete quiet⟩⟩,
      fun p pair fault below untagged unwritten => ?status⟩,
    fun off => exec_fmtr_illegal starts off, fun on => exec_fmtr_wrote starts on,
    fun quiet off => exec_fmtw_illegal starts quiet off,
    fun quiet on => ⟨fun sub bad => exec_fmtw_traps starts quiet on bad,
      fun sound captured applied => exec_fmtw_sends starts quiet on sound captured applied⟩,
    fun r on applied quiet => ?resumed,
    fun p e written => ⟨_, rfl, s.entryAt_viewApplied written, rfl, rfl⟩⟩
  case status =>
    have may : s.MayRead mt := ⟨fault, below, untagged, unwritten⟩
    exact ⟨exec_mstat_wrote may starts mine pair rd, fun shadow => exec_mclrf_clears may runs mine pair shadow rs2⟩
  case resumed =>
    have me := s.me_waits (some { instr := .fmtw rs1 rs2, kind := .applied, reply := r })
    refine exec_fmtw_applied quiet (by rw [← State.waits, me]; exact on) (by rw [← State.waits, me]) ?applied
    rw [← State.waits, State.ctxOf_waits, State.x_waits]
    exact applied
end

section
/-! PROOFS. The operations of a tile engine (R226 to R232, R267, R271 to R273): how one starts, makes its K-steps, ends, and is
replayed. -/

namespace Sys2Proof.Machine

/-! ### The operations of an engine -/

theorem foldl_post_quiet {α : Type} (i : α → Instr) (l : List α) (s : State) :
    Quiet s (l.foldl (fun s a => s.post (i a)) s) := quiet_foldl (fun s a => s.post (i a)) (fun _ _ => ⟨rfl, rfl, rfl⟩) l s

/-- An operation in the list is found by its number, it or one before it. -/
theorem State.op?_of_mem {s : State} {p : Nat} {o : Op} (listed : o ∈ (s.pair p).ops) : ∃ q, s.op? p o.id = some q :=
  Option.isSome_iff_exists.mp (List.find?_isSome.mpr ⟨o, listed, beq_self_eq_true _⟩)

theorem State.saveShadow_none {s : State} {p : Nat} {o : Op} (unshadowed : o.shadow = none) : s.saveShadow p o = s := by
  simp only [State.saveShadow, unshadowed]

/-- A checkpoint changes the number of saved steps at most. -/
theorem State.op?_saveShadow {s : State} {p : Nat} {o : Op} (found : s.op? p o.id = some o) :
    ∃ v, (s.saveShadow p o).op? p o.id = some { o with saved := v } := by
  rw [State.saveShadow]
  split
  next q _ => exact ⟨o.steps, State.setOp_op (o := { o with saved := o.steps }) ((State.setTile_op ..).trans found)⟩
  next => exact ⟨o.saved, found⟩

theorem State.saveShadow_kept (s : State) (p : Nat) (o : Op) :
    (s.saveShadow p o).mem = s.mem ∧ (s.saveShadow p o).harts = s.harts := by
  rw [State.saveShadow]
  split <;> exact ⟨rfl, rfl⟩

/-- A second request for the next K-step of an engine asks for nothing. -/
theorem State.nextStep_nextStep (s : State) (p : Nat) : (s.nextStep p).nextStep p = s.nextStep p := by
  match next : computing (s.pair p).ops with
  | none => simp only [State.nextStep, next]
  | some o =>
    cases asked : s.stepPending p with
    | true => simp only [State.nextStep, next, asked, if_true]
    | false =>
      have now : (s.post (.kStepComplete p o.id)).stepPending p = true := by simp [State.stepPending, State.post]
      have same : (s.post (.kStepComplete p o.id)).pair p = s.pair p := rfl
      simp only [State.nextStep, next, asked, Bool.false_eq_true, if_false, same, now, if_true]

/-! ### The start of an operation (R226 to R228, R236) -/

/-- An operation that enters the array, with its operation shadow. -/
def State.entering (s : State) (p : Nat) (o : Op) : Op :=
  { o with started := true, shadow := if o.shadowed p then s.freeOf p 32 4 else none }

/-- The state in which an operation has entered the array. -/
def State.startOp (s : State) (p : Nat) (o : Op) : State :=
  let q := s.entering p o
  (((((s.useOp p q).setOp p q).saveShadow p q).startGang p q).nextStep p).post (.tileOpStart p)

theorem exec_tileOpStart_none {s : State} {p : Nat} (bars : ∀ o ∈ (s.pair p).ops, s.canStart p o = false) :
    exec (.tileOpStart p) s = .next s := by
  have none_ : (s.pair p).ops.find? (fun o => s.canStart p o) = none :=
    List.find?_eq_none.mpr fun o listed => Bool.eq_false_iff.mp (bars o listed)
  simp only [exec_tileOpStart, execTileOpStart, none_]

theorem exec_tileOpStart_first {s : State} {p : Nat} {o : Op} (first : (s.pair p).ops.find? (fun o => s.canStart p o) = some o) :
    exec (.tileOpStart p) s = .next (s.startOp p o) := by
  simp only [exec_tileOpStart, execTileOpStart, first]
  rfl

theorem State.useOp_quiet (s : State) (p : Nat) (o : Op) : Quiet s (s.useOp p o) := by
  rw [State.useOp]
  split
  next =>
    rw [State.useBy, State.modLaunch]
    split
    exacts [⟨rfl, rfl, rfl⟩, Quiet.refl s]
  next => exact Quiet.refl s

theorem State.startGang_quiet (s : State) (p : Nat) (o : Op) : Quiet s (s.startGang p o) := by
  rw [State.startGang]
  split
  next => exact Quiet.refl s
  next =>
    split
    next => exact Quiet.refl s
    next => exact Quiet.trans (t := s.modGang ..) ⟨rfl, rfl, rfl⟩ (foldl_post_quiet ..)

section
variable (s : State) (p : Nat) (o : Op)

/-- Once the shadow is saved, a start changes no memory, no hart and no engine. -/
theorem State.startOp_quiet : Quiet (((s.useOp p (s.entering p o)).setOp p (s.entering p o)).saveShadow p (s.entering p o))
    (s.startOp p o) :=
  ((State.startGang_quiet ..).trans (State.nextStep_quiet ..)).trans ⟨rfl, rfl, rfl⟩

theorem State.startOp_kept : (s.startOp p o).mem = s.mem ∧ (s.startOp p o).harts = s.harts := by
  have used := s.useOp_quiet p (s.entering p o)
  have saved := State.saveShadow_kept ((s.useOp p (s.entering p o)).setOp p (s.entering p o)) p (s.entering p o)
  have started := s.startOp_quiet p o
  exact ⟨started.mem.trans (saved.1.trans used.mem), started.harts.trans (saved.2.trans used.harts)⟩

theorem State.pending_startOp : .tileOpStart p ∈ (s.startOp p o).pending := List.mem_append_right _ List.mem_cons_self

end

section
variable {s : State} {p : Nat} {o : Op} (listed : o ∈ (s.pair p).ops)
include listed

theorem State.op?_entering : ((s.useOp p (s.entering p o)).setOp p (s.entering p o)).op? p o.id = some (s.entering p o) := by
  obtain ⟨q, found⟩ := State.op?_of_mem listed
  exact State.setOp_op (o := s.entering p o) (((s.useOp_quiet p _).op p o.id).trans found)

theorem State.op?_startOp : ((s.startOp p o).op? p o.id).map Op.started = some true := by
  have entered := State.op?_entering listed
  obtain ⟨v, saved⟩ := State.op?_saveShadow (o := s.entering p o) entered
  rw [(s.startOp_quiet p o).op p o.id]
  exact congrArg (Option.map Op.started) saved

theorem State.op?_startOp_unshadowed (unshadowed : o.shadowed p = false) :
    (s.startOp p o).op? p o.id = some { o with started := true, shadow := none } := by
  have enters : s.entering p o = { o with started := true, shadow := none } := by
    simp only [State.entering, unshadowed, Bool.false_eq_true, if_false]
  rw [(s.startOp_quiet p o).op p o.id, State.saveShadow_none (by rw [enters]), State.op?_entering listed, enters]

end

/-! ### K-steps (R228, R267, R271, R272) -/

section
variable {s : State} {p : Nat} {o : Op}

theorem State.opStep_mzero (kind : o.kind = .mzero) :
    s.opStep p o = (s.writeDest o ((s.image o.task o.dest o.img).drop o.steps) 0, false) := by
  simp only [State.opStep, kind]

theorem State.opStep_mcopy {n : TileReg} (kind : o.kind = .mcopy) (source : o.a = .tile n) :
    s.opStep p o = (s.writeDest o (putRow (s.image o.task o.dest o.img) o.steps ((s.image o.task n.toNat o.aImg).get o.steps 0))
      (s.sourceFlags o n), false) := by
  simp only [State.opStep, kind, source]

theorem State.opStep_mtrn_last {n : TileReg} (kind : o.kind = .mtrn) (last : o.steps = 63) (source : o.a = .tile n) :
    s.opStep p o = (s.writeDest o (transposeRows o.lc.f.width (s.image o.task n.toNat o.aImg)) (s.sourceFlags o n), false) := by
  simp only [State.opStep, kind, source, last, if_true]

theorem State.opStep_mtrn_before (kind : o.kind = .mtrn) (before : o.steps ≠ 63) : s.opStep p o = (s, false) := by
  simp only [State.opStep, kind, before, if_false]
  cases o.a <;> rfl

theorem State.opStep_mld (kind : o.kind = .mld) : s.opStep p o = (s.writeDest o (putRow (s.image o.task o.dest o.img)
    ((2 * padRot o.bPad + o.steps) % 64) (BitVec.ofNat 2048 (o.lc.trim (s.padRead (clusterOfPair p) o.bPad
      ((2 * padRot o.bPad + o.steps) % 64) 0 o.offset)))) 0, false) := by
  simp only [State.opStep, kind]

/-- The beats of the row that `mst` stores at its step (R272). -/
def State.storeRow (s : State) (p : Nat) (o : Op) : Except (Nat × Nat × State) State :=
  mstBeats (clusterOfPair p) (padStage o.bPad) (padRow o.bPad o.steps 0 o.offset).toNat
    (cut64 4 (leBytes 256 ((s.image o.task o.dest o.img).get o.steps 0).toNat)) s

theorem State.opStep_mst_stored {u : State} (kind : o.kind = .mst) (stored : s.storeRow p o = .ok u) :
    s.opStep p o = (u, false) := by
  rw [State.storeRow] at stored
  simp only [State.opStep, kind, stored]

theorem State.opStep_mst_faults {u : State} {cause sub : Nat} (kind : o.kind = .mst)
    (faults : s.storeRow p o = .error (cause, sub, u)) : s.opStep p o = (u.addFault o false cause sub, true) := by
  rw [State.storeRow] at faults
  simp only [State.opStep, kind, faults]

theorem State.opStep_matrix (kind : o.kind ∈ [.mma, .mms, .mmz, .mmak, .mmag]) :
    let v := o.matrixStep (o.steps % o.perMacro) s.freshBase (s.rowsOfA p o (o.steps / o.perMacro))
      (s.operandRows (clusterOfPair p) o.b o.bImg o.task o.bPad 0 (columns o.cf) (o.steps / o.perMacro))
      (s.image o.task o.dest o.img)
    s.opStep p o = ((s.writeDest o v.1 v.2).useFresh, false) := by
  simp only [List.mem_cons, List.not_mem_nil, or_false] at kind
  rcases kind with kind | kind | kind | kind | kind <;> simp only [State.opStep, kind]

section
variable (found : s.op? p o.id = some o) (next : (computing (s.pair p).ops).map (fun q => q.id) = some o.id)
  (noTmem : (s.pair p).errTmem = false) (noMpad : ((s.pair p).errMpad && o.readsPad p) = false)
include found next noTmem noMpad

/-- Without an armed detector the K-step is made. -/
theorem exec_kStepComplete_steps : exec (.kStepComplete p o.id) s = if (s.opStep p o).2
    then .next ((((s.opStep p o).1.setOp p { o with steps := o.total }).post (.tileOpComplete p o.id)).nextStep p)
    else .next (((s.opStep p o).1.afterStep p o).nextStep p) := by
  simp only [exec_kStepComplete, execKStepComplete, found, next, if_true, noMpad, noTmem, Bool.false_eq_true, if_false]

theorem exec_kStepComplete_goesOn {t : State} (step : s.opStep p o = (t, false)) :
    exec (.kStepComplete p o.id) s = .next ((t.afterStep p o).nextStep p) := by
  rw [exec_kStepComplete_steps found next noTmem noMpad, step]
  rfl

theorem exec_kStepComplete_ends {t : State} (step : s.opStep p o = (t, true)) : exec (.kStepComplete p o.id) s =
    .next (((t.setOp p { o with steps := o.total }).post (.tileOpComplete p o.id)).nextStep p) := by
  rw [exec_kStepComplete_steps found next noTmem noMpad, step]
  rfl

end

/-! ### After a K-step (R228, R231, R236) -/

/-- The K-step counted, with a checkpoint at a multiple of 16. -/
def State.countStep (s : State) (p : Nat) (o : Op) : State :=
  let o := { o with steps := o.steps + 1 }
  if o.steps % 16 = 0 then (s.setOp p o).saveShadow p o else s.setOp p o

/-- The count decides how the operation goes on: the steps that a checkpoint saves do not. -/
theorem State.afterStep_eq : ∃ v, let q := { o with steps := o.steps + 1, saved := v }
    s.afterStep p o = if q.blockDone then
      if q.block = q.lastBlock then (s.countStep p o).post (.tileOpComplete p q.id)
      else if q.alone p then (s.countStep p o).nextBlock p q
      else (s.countStep p o).post (.gangRendezvous (clusterOfPair p) (gangId q.gang))
    else s.countStep p o := by
  have counted : ∃ v, (if (o.steps + 1) % 16 = 0 ∧ o.shadow.isSome then { o with steps := o.steps + 1, saved := o.steps + 1 }
      else { o with steps := o.steps + 1 }) = { o with steps := o.steps + 1, saved := v } := by
    split
    exacts [⟨_, rfl⟩, ⟨_, rfl⟩]
  obtain ⟨v, counted⟩ := counted
  refine ⟨v, ?_⟩
  rw [← counted]
  rfl

theorem State.afterStep_more (more : o.steps + 1 ≠ o.total) : s.afterStep p o = s.countStep p o := by
  obtain ⟨v, after⟩ := State.afterStep_eq (s := s) (p := p) (o := o)
  exact after.trans (if_neg fun done => more (beq_iff_eq.mp done))

theorem State.afterStep_last (last : o.steps + 1 = o.total) (block : o.block = o.lastBlock) :
    s.afterStep p o = (s.countStep p o).post (.tileOpComplete p o.id) := by
  obtain ⟨v, after⟩ := State.afterStep_eq (s := s) (p := p) (o := o)
  exact after.trans ((if_pos (beq_iff_eq.mpr last)).trans (if_pos block))

theorem State.op?_countStep {q : Op} (found : s.op? p o.id = some q) :
    ∃ v, (s.countStep p o).op? p o.id = some { o with steps := o.steps + 1, saved := v } := by
  have counted : (s.setOp p { o with steps := o.steps + 1 }).op? p o.id = some { o with steps := o.steps + 1 } :=
    State.setOp_op (o := { o with steps := o.steps + 1 }) found
  rw [State.countStep]
  split
  next => exact State.op?_saveShadow counted
  next => exact ⟨o.saved, counted⟩

end

/-! ### Completion and operand faults (R229, R231, R232, R236) -/

theorem State.modStatus_calm (s : State) (h : Word) (n : Nat) (f : Tile → Tile) : Machine.Calm s (s.modStatus h n f) := by
  rw [State.modStatus]
  split
  next => exact Calm.of_harts rfl (fun _ _ => State.modPair_op _ _ _ rfl _ _) rfl
  next => exact Calm.refl s

theorem State.writeTags_calm (s : State) (o : Op) : Machine.Calm s (s.writeTags o) :=
  calm_foldl _ (fun _ _ => State.modStatus_calm ..) _ s

/-- The state in which a completed operation has left its engine. -/
def State.endOp (s : State) (p : Nat) (o : Op) : State := (((s.writeTags o).removeOp p o).settle p o.task).nextStep p

theorem State.endOp_leaves (s : State) (p : Nat) (o : Op) : (s.endOp p o).op? p o.id = none ∧ (s.endOp p o).mem = s.mem ∧
    ∀ h, ((s.endOp p o).hart h).ctx = (s.hart h).ctx ∧ ((s.endOp p o).hart h).pc = (s.hart h).pc := by
  have tags := s.writeTags_calm o
  obtain ⟨gone, mem, harts⟩ := (s.writeTags o).removeOp_op p o
  have rest : Machine.Calm ((s.writeTags o).removeOp p o) (s.endOp p o) :=
    (State.settle_calm _ p o.task).trans (State.nextStep_quiet _ p).calm
  refine ⟨(rest.ops p o.id).trans gone, rest.mem.trans (mem.trans tags.mem), fun h => ?_⟩
  obtain ⟨restCtx, restPc⟩ := rest.harts h
  obtain ⟨goneCtx, gonePc⟩ := harts h
  obtain ⟨tagsCtx, tagsPc⟩ := tags.harts h
  exact ⟨restCtx.trans (goneCtx.trans tagsCtx), restPc.trans (gonePc.trans tagsPc)⟩

section
variable {s : State} {p : Nat} {o : Op} (found : s.op? p o.id = some o)
include found

theorem exec_tileOpComplete_ends (started : o.started = true) (computed : o.computed = true) :
    exec (.tileOpComplete p o.id) s = .next (s.endOp p o) := by
  simp only [exec_tileOpComplete, execTileOpComplete, found, started, computed, Bool.and_self, if_true]
  rfl

theorem exec_tileOpComplete_stays (computes : o.computed = false) : exec (.tileOpComplete p o.id) s = .next s := by
  simp only [exec_tileOpComplete, execTileOpComplete, found, computes, Bool.and_false, Bool.false_eq_true, if_false]

theorem exec_operandFault_stays (stays : o.started = false ∨ o.readsPad p = false ∨ o.blockDone = true) :
    exec (.operandFault p o.id) s = .next s := by
  have unread : (o.started && o.readsPad p && !o.blockDone) = false := by
    rcases stays with idle | tiles | done <;> simp [*]
  simp only [exec_operandFault, execOperandFault, found, unread, Bool.false_eq_true, if_false]

variable (started : o.started = true) (reads : o.readsPad p = true) (computes : o.blockDone = false)
include started reads computes

theorem exec_operandFault_faults : exec (.operandFault p o.id) s = .next ((s.operandFault p o).nextStep p) := by
  simp only [exec_operandFault, execOperandFault, found, started, reads, computes, Bool.not_false, Bool.and_self, if_true]

theorem exec_operandFault_replays (first : o.faults = 0) (single : s.gangOps p o = [(p, o)]) :
    exec (.operandFault p o.id) s = .next ((s.replayOp p o).nextStep p) := by
  rw [exec_operandFault_faults found started reads computes, State.operandFault, if_pos first, single, replayAll, replayAll,
    State.nextStep_nextStep]

theorem exec_operandFault_persists (again : o.faults ≠ 0) : exec (.operandFault p o.id) s = .next (s.persistFault p o) := by
  rw [exec_operandFault_faults found started reads computes, State.operandFault, if_neg again, State.persistFault,
    State.nextStep_nextStep]

end

end Sys2Proof.Machine
end

section
/-! PROOFS. Gangs (R236) and errors of tile memory (R233, R234, R372): how the operations of a gang meet and go on together,
and what an error does to the owner of the tile. -/

namespace Sys2Proof.Machine

/-! ### The rendezvous -/

/-- A fold whose steps all leave its state alone. -/
theorem foldl_stays {α : Type} {f : State → α → State} {s : State} :
    ∀ {l : List α}, (∀ a ∈ l, f s a = s) → l.foldl f s = s
  | [], _ => rfl
  | a :: r, stays => by
    rw [List.foldl_cons, stays a List.mem_cons_self]
    exact foldl_stays fun b after => stays b (List.mem_cons_of_mem a after)

/-- The gangs of an id that can begin their next row block do so. -/
def State.advanceGangs (s : State) (c gid : Nat) : State :=
  ((s.cluster c).gangs.filter fun g => g.gid.toNat == gid).foldl (fun s g => s.advanceGang c g) s

/-- The next operations of a gang at these pairs of a cluster arrive. -/
def State.arriveGangs (s : State) (c gid : Nat) (l : List Nat) : State :=
  l.foldl (fun s i => s.arriveGang c gid (c * 4 + i)) s

theorem exec_gangRendezvous_eq (s : State) (c gid : Nat) :
    exec (.gangRendezvous c gid) s = .next ((s.advanceGangs c gid).arriveGangs c gid (List.range 4)) := by
  rw [exec_gangRendezvous, execGangRendezvous, State.arriveGangs, List.foldl_map]
  rfl

section
variable {s : State} {c gid : Nat}

theorem State.arriveGang_none {p : Nat} (arrived : s.unarrived c gid p = none) : s.arriveGang c gid p = s := by
  simp only [State.arriveGang, arrived]

theorem State.arriveGangs_none {l : List Nat} (arrived : ∀ i ∈ l, s.unarrived c gid (c * 4 + i) = none) :
    s.arriveGangs c gid l = s := foldl_stays fun i listed => State.arriveGang_none (arrived i listed)

/-- No pair before the `i`-th has an operation that has not arrived: the first that may arrive is at that pair. -/
theorem State.arriveGangs_from {i : Nat} (pair : i < 4) (before : ∀ j < i, s.unarrived c gid (c * 4 + j) = none) :
    s.arriveGangs c gid (List.range 4) =
      (s.arriveGang c gid (c * 4 + i)).arriveGangs c gid (List.range' (i + 1) (3 - i)) := by
  have members : List.range 4 = List.range i ++ i :: List.range' (i + 1) (3 - i) := by
    have split : i + (3 - i + 1) = 4 := by omega
    rw [← List.range'_succ, List.range_eq_range', List.range_eq_range', ← split, ← List.range'_append_1, Nat.zero_add]
  rw [members, State.arriveGangs, List.foldl_append]
  change ((s.arriveGangs c gid (List.range i)).arriveGangs c gid _) = _
  rw [State.arriveGangs_none fun j listed => before j (List.mem_range.mp listed)]
  rfl

/-- The operation of a pair arrives, and none can arrive after it. -/
theorem exec_gangRendezvous_arrives {t : State} {i : Nat} (still : s.advanceGangs c gid = s) (pair : i < 4)
    (before : ∀ j < i, s.unarrived c gid (c * 4 + j) = none) (arrives : s.arriveGang c gid (c * 4 + i) = t)
    (after : ∀ j < 4, i + 1 ≤ j → t.unarrived c gid (c * 4 + j) = none) : exec (.gangRendezvous c gid) s = .next t := by
  rw [exec_gangRendezvous_eq, still, State.arriveGangs_from pair before, arrives, State.arriveGangs_none]
  intro j listed
  have bounds := List.mem_range'_1.mp listed
  exact after j (by omega) bounds.1

theorem exec_gangRendezvous_advances {t : State} (advances : s.advanceGangs c gid = t)
    (after : ∀ j < 4, 0 ≤ j → t.unarrived c gid (c * 4 + j) = none) : exec (.gangRendezvous c gid) s = .next t := by
  rw [exec_gangRendezvous_eq, advances, State.arriveGangs_none fun j listed => after j (List.mem_range.mp listed) (Nat.zero_le j)]

/-! ### An arrival -/

section
variable {p : Nat} {o : Op} (next : s.unarrived c gid p = some o) (drains : (s.cluster c).drain ≠ some (p, 1))
include next drains

theorem State.arriveGang_meets {g : Gang}
    (takes : (s.cluster c).gangs.find? (fun g => g.takes gid p (gangMembers o.gang)) = some g) :
    s.arriveGang c gid p = s.meet c g p o := by
  simp only [State.arriveGang, next, if_neg drains, takes]

variable (new : (s.cluster c).gangs.find? (fun g => g.takes gid p (gangMembers o.gang)) = none)
include new

theorem State.arriveGang_waits (full : 8 ≤ (s.cluster c).gangs.length) : s.arriveGang c gid p = s := by
  simp only [State.arriveGang, next, if_neg drains, new, ge_iff_le, if_pos full]

theorem State.arriveGang_opens (room : (s.cluster c).gangs.length < 8) : s.arriveGang c gid p = s.modCluster c fun k =>
    { k with gangs := k.gangs ++ [openGang gid (gangMembers o.gang) (p, o.id)] } := by
  simp only [State.arriveGang, next, if_neg drains, new, ge_iff_le, if_neg (Nat.not_le.mpr room)]

end

section
variable (s) (g : Gang) (p : Nat) (o : Op)

/-- The operation names the members and the row blocks that those before it named. -/
def State.agrees : Bool := !g.bad && g.mask == gangMembers o.gang &&
  g.arrivals.all fun a => (s.op? a.1 a.2).any fun q => gangRb q.gang == gangRb o.gang

/-- The entry with one more arrival. -/
def Gang.withArrival : Gang := { g with arrivals := g.arrivals ++ [(p, o.id)] }

/-- The entry of a gang whose members disagree: it remembers which pairs have come. -/
def Gang.spoiled : Gang :=
  { g with mask := g.mask ||| gangMembers o.gang, bad := true, arrivals := [], seen := g.pairs ++ [p] }

end

section
variable {g : Gang} {p : Nat} {o : Op}

section
variable (agrees : s.agrees g o = true)
include agrees

theorem State.meet_waits (lacking : (g.withArrival p o).full c = false) :
    s.meet c g p o = s.putGang c g (g.withArrival p o) :=
  (if_pos agrees).trans (if_neg (Bool.eq_false_iff.mp lacking))

theorem State.meet_starts (full : (g.withArrival p o).full c = true) : s.meet c g p o =
    (g.withArrival p o).arrivals.foldl (fun s a => s.post (.tileOpStart a.1)) (s.putGang c g { g.withArrival p o with
      started := true, lead := (leadArrival (g.withArrival p o).arrivals).bind fun b => s.op? b.1 b.2 }) :=
  (if_pos agrees).trans (if_pos full)

end

section
variable (disagrees : s.agrees g o = false)
include disagrees

/-- The operations that have come are discarded, and the entry stays for those that come later (log 71, a design choice). -/
theorem State.meet_discards (lacking : (g.spoiled p o).full c = false) :
    s.meet c g p o = discardArrivals (g.withArrival p o).arrivals (s.putGang c g (g.spoiled p o)) :=
  (if_neg (Bool.eq_false_iff.mp disagrees)).trans (if_neg (Bool.eq_false_iff.mp lacking))

theorem State.meet_closes (full : (g.spoiled p o).full c = true) : s.meet c g p o =
    (discardArrivals (g.withArrival p o).arrivals (s.putGang c g (g.spoiled p o))).modCluster c fun k =>
      { k with gangs := k.gangs.filter fun x => x != g.spoiled p o } :=
  (if_neg (Bool.eq_false_iff.mp disagrees)).trans (if_pos full)

end

end

/-! ### The next row block -/

theorem State.advanceGang_unstarted {g : Gang} (waits : g.started = false) : s.advanceGang c g = s := by
  simp only [State.advanceGang, waits, Bool.false_and, Bool.false_eq_true, if_false]
  split <;> rfl

theorem State.advanceGangs_unstarted (waits : ∀ g ∈ (s.cluster c).gangs, g.gid.toNat = gid → g.started = false) :
    s.advanceGangs c gid = s := foldl_stays fun g named => by
  obtain ⟨listed, id⟩ := List.mem_filter.mp named
  exact State.advanceGang_unstarted (waits g listed (beq_iff_eq.mp id))

theorem State.advanceGangs_single {g : Gang} (only : (s.cluster c).gangs = [g]) (id : g.gid.toNat = gid) :
    s.advanceGangs c gid = s.advanceGang c g := by
  have named : (g.gid.toNat == gid) = true := beq_iff_eq.mpr id
  simp only [State.advanceGangs, only, List.filter_cons, named, if_true, List.filter_nil, List.foldl_cons, List.foldl_nil]

section
variable {g : Gang} {lead : Op} {m : Nat × Op} {r : List (Nat × Op)} (leads : g.lead = some lead)
  (members : (g.arrivals.filterMap fun a => (s.op? a.1 a.2).map fun o => (a.1, o)) = m :: r)
include leads members

theorem State.advanceGang_stays
    (stays : (∃ e ∈ m :: r, e.2.started = false ∨ e.2.blockDone = false) ∨ m.2.block = m.2.lastBlock) :
    s.advanceGang c g = s := by
  have may : (g.started && ((m :: r).all fun e => e.2.started && e.2.blockDone) && m.2.block != m.2.lastBlock) = false := by
    rcases stays with ⟨e, member, computes⟩ | last
    · have some_ : ((m :: r).all fun e => e.2.started && e.2.blockDone) = false :=
        List.all_eq_false.mpr ⟨e, member, by rcases computes with idle | computes <;> simp [*]⟩
      rw [some_, Bool.and_false, Bool.false_and]
    · rw [bne_eq_false_iff_eq.mpr last, Bool.and_false]
  simp only [State.advanceGang, members, List.head?_cons, leads, may, Bool.false_eq_true, if_false]

theorem State.advanceGang_goesOn (started : g.started = true)
    (done : ∀ e ∈ m :: r, e.2.started = true ∧ e.2.blockDone = true) (more : m.2.block ≠ m.2.lastBlock) :
    s.advanceGang c g = (m :: r).foldl (fun s e => (s.nextBlock e.1 e.2).nextStep e.1)
      (s.modGang c m.2.id fun g => { g with rows := some (s.streamRows c lead (m.2.block + 1)) }) := by
  have all : ((m :: r).all fun e => e.2.started && e.2.blockDone) = true :=
    List.all_eq_true.mpr fun e member => Bool.and_eq_true_iff.mpr (done e member)
  simp only [State.advanceGang, members, List.head?_cons, leads, started, all, bne_iff_ne.mpr more, Bool.and_self, if_true]

end

end

/-! ### Errors of tile memory (R233, R234, R372) -/

section
variable {s : State} {p q : Nat} {h : Word}

theorem exec_tileEccError_eq (s : State) (p q : Nat) (corrected : Bool) :
    exec (.tileEccError p q corrected) s = execTileEccError p q corrected s := rfl

theorem exec_tileEccError_free {corrected : Bool} (free : (s.tile p q).owner = none) :
    exec (.tileEccError p q corrected) s = .next s := by
  simp only [exec_tileEccError_eq, execTileEccError, free]

variable (owned : (s.tile p q).owner = some h)
include owned

theorem exec_tileEccError_corrected : exec (.tileEccError p q true) s = .next (s.correct h) := by
  simp only [exec_tileEccError_eq, execTileEccError, owned, if_true]

section
variable (stopped : s.refuses (clusterOfPair p) = true)
include stopped

/-- In a stopped partition nothing but a save reads the tile (R372; its step is log 51). -/
theorem exec_tileEccError_saving {n : Nat} (saves : s.savingPart (clusterOfPair p) = some n) :
    exec (.tileEccError p q false) s = .next (s.saveError n (clusterOfPair p) h) := by
  simp only [exec_tileEccError_eq, execTileEccError, owned, stopped, saves, Bool.false_eq_true, if_false, if_true]

theorem exec_tileEccError_stopped (unsaved : s.savingPart (clusterOfPair p) = none) :
    exec (.tileEccError p q false) s = .next s := by
  simp only [exec_tileEccError_eq, execTileEccError, owned, stopped, unsaved, Bool.false_eq_true, if_false, if_true]

end

section
variable {t : Task} (runs : s.refuses (clusterOfPair p) = false) (has : s.task? h = some t)
include runs has

theorem exec_tileEccError_restarts {n : Nat} (shadow : shadowed t q = true) (hart : s.hartOf h = some n) :
    exec (.tileEccError p q false) s = .next (s.restartTask n) := by
  simp only [exec_tileEccError_eq, execTileEccError, owned, runs, has, shadow, hart, Bool.false_eq_true, if_false]

theorem exec_tileEccError_faults (lost : shadowed t q = false ∨ s.hartOf h = none) : exec (.tileEccError p q false) s =
    .next (s.faultTaskOf h (mkReport s 3 28 0x20 t.cluster h)) := by
  simp only [exec_tileEccError_eq, execTileEccError, owned, runs, has, Bool.false_eq_true, if_false]
  rcases lost with plain | away
  · rw [plain]
  · rw [away]
    cases shadowed t q <;> rfl

end

end

end Sys2Proof.Machine

open Sys2Proof Sys2Proof.Machine

/-- Settles O49: each event is one equation for each state of the operation, of its gang or of the tile; a step, a start and
an end of an operation leave of it what its engine finds under its number. -/
theorem tileEnginesRunTheirOperations : Obligations.TileEnginesRunTheirOperations := by
  unfold Obligations.TileEnginesRunTheirOperations
  refine ⟨fun s p => ⟨exec_tileOpStart_none, fun o first => ?start⟩,
    fun s p o found next noTmem noMpad => ?step, fun s p o q found => ?after, fun s p o found => ?ends,
    fun s c gid => ⟨fun waits => ?meets, fun g lead m r only id started leads members => ?advances⟩,
    fun s p q corrected => ⟨exec_tileEccError_free, fun h owned => ?error⟩⟩
  case start =>
    have listed := List.mem_of_find?_eq_some first
    obtain ⟨mem, harts⟩ := s.startOp_kept p o
    exact ⟨s.startOp p o, exec_tileOpStart_first first, mem, harts, State.op?_startOp listed,
      State.op?_startOp_unshadowed listed, s.pending_startOp p o⟩
  case step =>
    have goesOn {t : State} := exec_kStepComplete_goesOn (t := t) found next noTmem noMpad
    have ends {t : State} := exec_kStepComplete_ends (t := t) found next noTmem noMpad
    exact ⟨fun kind => goesOn (State.opStep_mzero kind), fun kind n source => goesOn (State.opStep_mcopy kind source),
      fun kind last n source => goesOn (State.opStep_mtrn_last kind last source),
      fun kind before => goesOn (State.opStep_mtrn_before kind before), fun kind => goesOn (State.opStep_mld kind),
      fun kind => ⟨fun u stored => goesOn (State.opStep_mst_stored kind stored),
        fun x b u faults => ends (State.opStep_mst_faults kind faults)⟩, fun kind => goesOn (State.opStep_matrix kind)⟩
  case after =>
    refine ⟨fun last block => ?last, fun more between => ?between, fun more checkpoint => ?checkpoint⟩
    case last =>
      obtain ⟨v, counted⟩ := State.op?_countStep found
      rw [last] at counted
      rw [State.afterStep_last last block]
      exact ⟨List.mem_append_right _ List.mem_cons_self, v, counted⟩
    case between => exact (State.afterStep_more more).trans (if_neg between)
    case checkpoint => exact (State.afterStep_more more).trans (if_pos checkpoint)
  case ends =>
    exact ⟨fun started computed => ⟨s.endOp p o, exec_tileOpComplete_ends found started computed, s.endOp_leaves p o⟩,
      exec_tileOpComplete_stays found, fun started reads computes =>
        ⟨exec_operandFault_replays found started reads computes, exec_operandFault_persists found started reads computes⟩,
      exec_operandFault_stays found⟩
  case meets =>
    have still := State.advanceGangs_unstarted waits
    refine ⟨exec_gangRendezvous_advances still, fun i o pair before next drains => ?_⟩
    have arrives {t : State} := exec_gangRendezvous_arrives (t := t) still pair before
    refine ⟨fun new => ⟨fun full => arrives (State.arriveGang_waits next drains new full),
      fun room => arrives (State.arriveGang_opens next drains new room)⟩, fun g takes => ?_⟩
    have meets {t : State} (meet : s.meet c g (c * 4 + i) o = t) :=
      arrives ((State.arriveGang_meets next drains takes).trans meet)
    exact ⟨fun agrees lacking => meets (State.meet_waits agrees lacking),
      fun agrees full => meets (State.meet_starts agrees full), fun disagrees =>
        ⟨fun lacking => meets (State.meet_discards disagrees lacking),
          fun full => meets (State.meet_closes disagrees full)⟩⟩
  case advances =>
    have single := State.advanceGangs_single only id
    exact ⟨fun stays => exec_gangRendezvous_advances (single.trans (State.advanceGang_stays leads members stays)),
      fun done more => exec_gangRendezvous_advances (single.trans (State.advanceGang_goesOn leads members started done more))⟩
  case error =>
    refine ⟨?corrected, ?stopped, ?task⟩
    case corrected =>
      rintro rfl
      exact exec_tileEccError_corrected owned
    case stopped =>
      rintro rfl stopped
      exact ⟨fun n => exec_tileEccError_saving owned stopped, exec_tileEccError_stopped owned stopped⟩
    case task =>
      rintro t rfl runs has
      exact ⟨fun n => exec_tileEccError_restarts owned runs has, exec_tileEccError_faults owned runs has⟩
end

section
/-! PROOFS. Messages (R329 to R335, R360, R404): how a message comes to its mailbox, from a hart or from another chip, and how
it is received. -/

namespace Sys2Proof.Machine

/-! ### A message at its mailbox -/

section
variable {s : State} {core mbox : Nat} {m : Message}

theorem State.deliver_sealed (lost : s.sealed core = true) (nb : Bool) (h : Sender) :
    s.deliver core mbox nb h m = (s.sendError m, some 2) := if_pos lost

variable (takes : s.sealed core = false)
include takes

theorem State.deliver_room (room : (s.mailbox (mailKey core mbox)).msgs.length < 8)
    (first : (s.mailbox (mailKey core mbox)).senders = []) (nb : Bool) (h : Sender) : s.deliver core mbox nb h m =
      (s.setMailbox (mailKey core mbox) { s.mailbox (mailKey core mbox) with
        msgs := (s.mailbox (mailKey core mbox)).msgs ++ [m] }, some 1) := by
  simp [State.deliver, takes, room, first]

variable (full : ¬ ((s.mailbox (mailKey core mbox)).msgs.length < 8 ∧ (s.mailbox (mailKey core mbox)).senders = []))
include full

theorem State.deliver_full (h : Sender) : s.deliver core mbox true h m = (s, some 0) := by
  simp [State.deliver, takes, full]

theorem State.deliver_queued (h : Sender) : s.deliver core mbox false h m =
    (s.setMailbox (mailKey core mbox) { s.mailbox (mailKey core mbox) with
      senders := (s.mailbox (mailKey core mbox)).senders ++ [(h, m)] }, none) := by
  simp [State.deliver, takes, full]

end

theorem State.sendError_me (s : State) (m : Message) : (s.sendError m).me = s.me := by
  unfold State.sendError
  split
  · dsimp only
    split <;> rfl
  · rfl

theorem State.deliver_me (s : State) (core mbox : Nat) (nb : Bool) (h : Sender) (m : Message) :
    (s.deliver core mbox nb h m).1.me = s.me := by
  unfold State.deliver
  dsimp only
  split
  · exact s.sendError_me m
  · split
    · rfl
    · split <;> rfl

/-! ### `msnd` (R332, R335) -/

theorem State.msndReply_idle {s : State} (idle : s.me.waiting = none) : s.msndReply = none := by
  rw [State.msndReply, idle]

section
variable {s u v t : State} {rd rs1 rs2 : Reg} {ls : List (Loc × Nat)} {data : BitVec 512} (starts : s.starts)
  (quiet : s.closed.noEnd) (zeros : destZeros (s.x rs2) = true)
  (operand : s.closed.operand64 .load (s.x rs1) true = .ok (.ok (u, ls)))
  (permits : s.closed.permits (clusterOf s.cur) (destChip (s.x rs2)) (destCluster (s.x rs2)) = true)
  (here : destChip (s.x rs2) = u.chip) (stayed : u.former.contains (destCluster (s.x rs2)) = false)
  (read : u.read64 (s.x rs1) ls = .ok (v, data))
include starts quiet zeros operand permits here stayed read

/-- A send whose checks pass has the outcome of the mailbox: the answer that it gives. -/
theorem exec_msnd_answered {n : Nat} (outcome : v.deliver (destCore (s.x rs2)) (destMbox (s.x rs2)) (destNb (s.x rs2))
      (.hart v.cur) { dest := s.x rs2, sender := v.senderWord, data := data } = (t, some n)) :
    exec (.msnd rd rs1 rs2) s = .next (t.setX rd (wordOf n)).goesOn := by
  have idle : s.closed.me.waiting = none := s.closed_waiting.trans starts.1
  have chip : destChip (s.x rs2) = v.chip := here.trans (read64_chip read).symm
  refine (exec_msnd s).trans (closing_ok starts rfl quiet ?effect ?task)
  case effect =>
    simp only [State.msndReply_idle idle, s.closed_x, s.closed_cur, zeros, permits, operand, bind, Except.bind]
    simp only [Bool.not_true, Bool.false_eq_true, if_false, here, stayed, and_false, read, (read64_chip read), if_true, outcome]
    rfl
  case task =>
    have me := v.deliver_me (destCore (s.x rs2)) (destMbox (s.x rs2)) (destNb (s.x rs2)) (.hart v.cur)
      { dest := s.x rs2, sender := v.senderWord, data := data }
    rw [outcome] at me
    rw [State.setX_task, me, (read64_keeps read).task, (operand64_keeps operand).keeps.task]

/-- With no outcome yet, the hart waits in the sender queue. -/
theorem exec_msnd_queued (outcome : v.deliver (destCore (s.x rs2)) (destMbox (s.x rs2)) (destNb (s.x rs2))
      (.hart v.cur) { dest := s.x rs2, sender := v.senderWord, data := data } = (t, none)) :
    exec (.msnd rd rs1 rs2) s = .next (t.modMe fun x =>
      { x with waiting := some { instr := .msnd rd rs1 rs2, kind := .queued, reply := none } }) := by
  have idle : s.closed.me.waiting = none := s.closed_waiting.trans starts.1
  refine (exec_msnd s).trans (closing_hold starts rfl quiet ?effect)
  simp only [State.msndReply_idle idle, s.closed_x, s.closed_cur, zeros, permits, operand, bind, Except.bind]
  simp only [Bool.not_true, Bool.false_eq_true, if_false, here, stayed, and_false, read, (read64_chip read), if_true, outcome]

end

/-! ### `mrcv` and `mpoll` (R333, R334) -/

theorem State.keepReply_partOf (s : State) (c : Nat) (m : Mark) (r : Reply) (d : Nat) :
    (s.keepReply c m r).partOf d = s.partOf d := by
  by_cases same : d = c
  · subst same
    rw [State.partOf, State.keepReply, State.cluster_modCluster]
    rfl
  · exact congrArg Cluster.part (s.cluster_modCluster_other _ _ _ same)

theorem State.sent_partOf (s : State) (core : Nat) (who : Sender) (v d : Nat) : (s.sent core who v).partOf d = s.partOf d := by
  cases who with
  | hart h => rfl
  | chip m => exact s.keepReply_partOf ..

/-- A grant of slots leaves every cluster with its partition. -/
theorem grantSlots_partOf (k n : Nat) (s : State) (d : Nat) : (grantSlots k n s).partOf d = s.partOf d := by
  induction n generalizing s with
  | zero => rfl
  | succ n ih =>
    unfold grantSlots
    dsimp only
    split
    · rfl
    · split
      · rfl
      · rw [ih, State.sent_partOf]
        rfl

section
variable {s u : State} {rd rs1 rs2 : Reg} {ls : List (Loc × Nat)} {k : Nat} (named : mailKey (coreOf s.cur) (bits (s.x rs1) 0 2) = k)
include named

theorem exec_mpoll_wrote (idle : s.me.waiting = none) (rd : Reg) : exec (.mpoll rd rs1) s =
    .next (s.wrote rd (if s.sealed (coreOf s.cur) then 0 else wordOf (min 8 (s.mailbox k).msgs.length))) := by
  rw [exec_mpoll, execMpoll, ← State.wrote_eq s idle, ← named]
  exact runOpen_ok rfl

variable (starts : s.starts) (quiet : s.closed.noEnd)
  (operand : s.closed.operand64 .store (s.x rs2) false = .ok (.ok (u, ls)))
include starts quiet operand

/-- The oldest message, for a hart that no receiver is before. -/
theorem exec_mrcv_takes {m : Message} {rest : List Message} (oldest : (u.mailbox k).msgs = m :: rest)
    (first : (u.mailbox k).receivers = []) : exec (.mrcv rd rs1 rs2) s =
    .next ((performUnits (grantSlots k 8 (u.setMailbox k { u.mailbox k with msgs := rest, receivers := [] }))
      (some s.cur) (u.partOf (clusterOf s.cur)) ls (leBytes 64 m.data.toNat)).setX rd m.sender).goesOn := by
  have cur : u.cur = s.cur := (operand64_keeps operand).keeps.cur.trans s.closed_cur
  have granted := grantSlots_task k 8 (u.setMailbox k { u.mailbox k with msgs := rest, receivers := [] })
  refine (exec_mrcv s).trans (closing_ok starts rfl quiet ?effect ?task)
  case effect =>
    simp only [s.closed_cur, s.closed_x, named, operand, bind, Except.bind, oldest, first, cur]
    have queue : (if ([] : List Nat).contains s.cur = true then [] else [] ++ [s.cur]) = [s.cur] := by simp
    simp only [queue, List.head?_cons, BEq.rfl, List.drop_one, List.tail_cons, granted.2, grantSlots_partOf, setMailbox_cur, cur]
    rfl
  case task =>
    rw [State.setX_task, performUnits_task, State.me, granted.2, granted.1]
    exact (operand64_keeps operand).keeps.task

/-- With no message the hart joins the receiver queue. -/
theorem exec_mrcv_waits (none_ : (u.mailbox k).msgs = []) (new : (u.mailbox k).receivers.contains s.cur = false) :
    exec (.mrcv rd rs1 rs2) s =
    .next ((u.setMailbox k { u.mailbox k with receivers := (u.mailbox k).receivers ++ [s.cur] }).modMe fun x =>
      { x with waiting := some { instr := .mrcv rd rs1 rs2, kind := .queued, reply := none } }) := by
  have cur : u.cur = s.cur := (operand64_keeps operand).keeps.cur.trans s.closed_cur
  refine (exec_mrcv s).trans (closing_hold starts rfl quiet ?effect)
  simp only [s.closed_cur, s.closed_x, named, operand, bind, Except.bind, none_, new, cur]
  rfl

end

/-! ### Messages of other chips (R360, R404) -/

section
variable {s : State} {core mbox : Nat} {mark : Mark} {m : Message}

theorem exec_messageArrive_ignored (ignored : s.refuses (clusterOfCore core) = true ∨ s.arrivedBefore core mark = true) (nb : Bool) :
    exec (.messageArrive core mbox nb ⟨mark, m⟩) s = .next s := by
  rw [exec_messageArrive, execMessageArrive, if_pos (by simpa using ignored)]

variable (taken : s.refuses (clusterOfCore core) = false) (fresh : s.arrivedBefore core mark = false)
include taken fresh

theorem exec_messageArrive_answered {nb : Bool} {t : State} {n : Nat} (outcome : s.deliver core mbox nb (.chip mark) m = (t, some n)) :
    exec (.messageArrive core mbox nb ⟨mark, m⟩) s = .next (t.keepReply (clusterOfCore core) mark (.value (wordOf n))) := by
  rw [exec_messageArrive, execMessageArrive, if_neg (by simp [taken, fresh]), outcome]

theorem exec_messageArrive_queued {nb : Bool} {t : State} (outcome : s.deliver core mbox nb (.chip mark) m = (t, none)) :
    exec (.messageArrive core mbox nb ⟨mark, m⟩) s = .next t := by
  rw [exec_messageArrive, execMessageArrive, if_neg (by simp [taken, fresh]), outcome]

end

end Sys2Proof.Machine

open Sys2Proof Sys2Proof.Machine

/-- Settles O28: a send whose checks pass has the outcome of its mailbox, which is sealed, has room or is full. -/
theorem messagesReachTheirMailbox : Obligations.MessagesReachTheirMailbox := by
  unfold Obligations.MessagesReachTheirMailbox
  intro s u v rd rs1 rs2 ls data starts quiet w k b m zeros operand permits here stayed read
  refine ⟨read64_chip read, fun takes room first => ?room, fun lost => ?lost,
    fun takes full => ⟨fun nb => ?full, fun nb => ?queued⟩⟩
  case room =>
    exact exec_msnd_answered starts quiet zeros operand permits here stayed read (State.deliver_room takes room first ..)
  case lost =>
    exact exec_msnd_answered starts quiet zeros operand permits here stayed read (State.deliver_sealed lost ..)
  case full =>
    refine exec_msnd_answered (n := 0) starts quiet zeros operand permits here stayed read ?_
    rw [nb]
    exact State.deliver_full takes full _
  case queued =>
    refine exec_msnd_queued starts quiet zeros operand permits here stayed read ?_
    rw [nb]
    exact State.deliver_queued takes full _

/-- Settles O29: a receiver takes the oldest message or its place, and a message of another chip has the outcome of its
mailbox unless it is refused or has come before. -/
theorem messagesAreReceivedInOrder : Obligations.MessagesAreReceivedInOrder := by
  unfold Obligations.MessagesAreReceivedInOrder
  intro s u rd rs1 rs2 ls k
  refine ⟨fun starts quiet operand => ⟨fun m rest oldest first => ?takes, fun none_ new => ?waits⟩,
    fun idle => exec_mpoll_wrote rfl idle rd,
    fun core mbox nb mark m => ⟨fun ignored => exec_messageArrive_ignored ignored nb, fun taken fresh takes => ⟨fun room first => ?room, fun full => ?full⟩⟩⟩
  case takes => exact exec_mrcv_takes rfl starts quiet operand oldest first
  case waits => exact exec_mrcv_waits rfl starts quiet operand none_ new
  case room => exact exec_messageArrive_answered taken fresh (State.deliver_room takes room first ..)
  case full =>
    have full' : ¬ ((s.mailbox (mailKey core mbox)).msgs.length < 8 ∧ (s.mailbox (mailKey core mbox)).senders = []) :=
      fun ⟨room, _⟩ => Nat.not_lt.mpr full room
    exact ⟨exec_messageArrive_answered taken fresh (State.deliver_full takes full' _),
      exec_messageArrive_queued taken fresh (State.deliver_queued takes full' _)⟩
end

section
/-! PROOFS. Gates (R336 to R345): the checks of a request in their order, its effect at its home, and the words and events
that bring one. -/

namespace Sys2Proof.Machine

/-! ### The checks of R337 -/

section
variable {s : State} {r : GateRequest}

theorem State.gateFault_gone (gone : s.gate? r.handle = none) : s.gateFault r = some (0x06, r.handle) := by
  rw [State.gateFault, gone]

theorem State.gateApply_refused {sub : Nat} {v : Word} (fault : s.gateFault r = some (sub, v)) :
    s.gateApply r = (s, some (.trap 30 sub v)) := by
  rw [State.gateApply, fault]
  rfl

variable {g : Gate} (found : s.gate? r.handle = some g)
include found

theorem State.gateFault_moved {h : Word} (moved : g.moved = some h) : s.gateFault r = some (0x05, h) := by
  simp only [State.gateFault, found, moved]

variable (stays : g.moved = none)
include stays

theorem State.gateFault_right (barred : g.allows s.chip r = false) : s.gateFault r = some (0x01, r.handle) := by
  simp only [State.gateFault, found, stays, barred]
  rfl

variable (allowed : g.allows s.chip r = true)
include allowed

theorem State.gateFault_closed (closed : g.opened = false) (uses : administers r.op = false) :
    s.gateFault r = some (0x03, r.handle) := by
  simp only [State.gateFault, found, stays, allowed, closed, uses]
  rfl

variable (opened : g.opened = true)
include opened

theorem State.gateFault_operand (zero : r.op = .gsig 0) : s.gateFault r = some (0x08, r.handle) := by
  simp only [State.gateFault, found, stays, allowed, opened, zero]
  rfl

omit found stays allowed opened in
theorem refusedOperand_of_ne {op : GateOp} (some_ : op ≠ .gsig 0) : refusedOperand op = false := by
  cases op with
  | gsig v => exact beq_false_of_ne fun zero => some_ (congrArg _ zero)
  | gwait v => rfl
  | gpay d => rfl
  | gtake => rfl
  | gopen => rfl
  | gclose => rfl

theorem State.gateFault_tokens (a : Access) (some_ : r.op ≠ .gsig 0) (bucket : g.bucket s.chip r = some a) (dry : a.tokens = 0)
    (refuses : a.policy = true) : s.gateFault r = some (0x02, r.handle) := by
  simp only [State.gateFault, found, stays, allowed, opened, refusedOperand_of_ne some_, bucket, dry, refuses]
  rfl

theorem State.gateFault_queue (v : Word) (signal : r.op = .gsig v) (some_ : v ≠ 0)
    (token : ∀ a, g.bucket s.chip r = some a → a.tokens ≠ 0 ∨ a.policy = false) (frozen : g.frozen = true)
    (full : 16 ≤ g.queue.length) : s.gateFault r = some (0x04, r.handle) := by
  have operand : refusedOperand r.op = false := refusedOperand_of_ne (by simpa [signal] using some_)
  simp only [State.gateFault, found, stays, allowed, opened, operand]
  cases bucket : g.bucket s.chip r with
  | none => simp [signal, frozen, full]
  | some a =>
    have holds : ¬ (a.tokens = 0 ∧ a.policy = true) := fun ⟨dry, refuses⟩ =>
      (token a bucket).elim (· dry) fun waits => Bool.false_ne_true (waits.symm.trans refuses)
    simp only [Bool.not_true, Bool.false_and, Bool.false_eq_true, if_false, if_neg holds, signal, frozen]
    exact if_pos ⟨trivial, full, rfl⟩

end

end Sys2Proof.Machine

open Sys2Proof Sys2Proof.Machine

/-- Settles O30: with the checks before it passed, each check that fails gives its own subcode, and the request is answered
by it. -/
theorem gateChecksComeInOrder : Obligations.GateChecksComeInOrder := by
  unfold Obligations.GateChecksComeInOrder
  exact fun s r => ⟨State.gateFault_gone, fun g found => ⟨fun h => State.gateFault_moved found, State.gateFault_right found,
    State.gateFault_closed found, State.gateFault_operand found, fun a stays allowed opened => State.gateFault_tokens found stays allowed opened a,
    fun v stays allowed opened => State.gateFault_queue found stays allowed opened v⟩, fun sub v => State.gateApply_refused⟩
end

section
/-! PROOFS. Requests of other chips at a gate, and its tokens (R338, R340, R404). -/

namespace Sys2Proof.Machine

/-! ### A token accrues (R338) -/

/-- The gate after a token of its entry `i`, with nothing stalled. -/
def Gate.accrued (g : Gate) (i : Nat) (a : Access) : Gate :=
  { g with access := g.access.set i { a with tokens := min a.burst (a.tokens + 1) }, stalled := [] }

theorem exec_gateTokenAccrue_accrues {s : State} {n i : Nat} {g : Gate} {a : Access} (found : s.gates.find n = some g)
    (entry : g.access[i]? = some a) :
    exec (.gateTokenAccrue n i) s = .next (reapply g.stalled (s.setGate n (g.accrued i a))) := by
  rw [exec_gateTokenAccrue, execGateTokenAccrue, found]
  simp only [entry]
  rfl

theorem Gate.accrued_clear {g : Gate} (clear : g.stalled = []) (i : Nat) (a : Access) : g.accrued i a =
    { g with access := g.access.set i { a with tokens := min a.burst (a.tokens + 1) } } := by
  rw [Gate.accrued, ← clear]

/-! ### What a request takes of the gate -/

section
variable {s : State} {g : Gate} {r : GateRequest}

theorem Gate.bucket_none {home : BitVec 12} (other : signals r.op = false) : g.bucket home r = none := by
  simp [Gate.bucket, other]

theorem Gate.takeToken_none {home : BitVec 12} (other : signals r.op = false) : g.takeToken home r = g := by
  rw [Gate.takeToken, Gate.bucket_none other]

theorem Gate.takeToken_frozen (g : Gate) (home : BitVec 12) (r : GateRequest) : (g.takeToken home r).frozen = g.frozen := by
  unfold Gate.takeToken
  split <;> rfl

/-- A request that passes the checks has its effect, where its bucket is not dry and the gate is not frozen. -/
theorem State.gateApply_effect (found : s.gate? r.handle = some g) (passes : s.gateFault r = none) (thawed : g.frozen = false)
    (token : ∀ a, g.bucket s.chip r = some a → a.tokens ≠ 0) :
    s.gateApply r = s.gateEffect (gateNum r.handle) (g.takeToken s.chip r) r := by
  rw [State.gateApply, passes]
  simp only [found, thawed, Bool.false_and, Bool.or_false]
  refine if_neg fun dry => ?_
  split at dry
  next a bucket => exact token a bucket (eq_of_beq dry)
  next => cases dry

/-! ### The effect at the home (R340, R342) -/

variable {n : Nat}

theorem State.gateEffect_gsig {v : Word} (op : r.op = .gsig v) (thawed : g.frozen = false) : s.gateEffect n g r =
    ((s.setGate n { g with counter := addSat g.counter v }).wakeGate n, some (.value (addSat g.counter v))) := by
  simp only [State.gateEffect, op, thawed]
  rfl

theorem State.gateEffect_gwait_met {v : Word} (op : r.op = .gwait v) (thawed : g.frozen = false) (met : v ≤ g.counter) :
    s.gateEffect n g r = (s, some (.value g.counter)) := by
  simp only [State.gateEffect, op, thawed]
  exact if_pos ⟨rfl, met⟩

theorem State.gateEffect_gwait_joins {v : Word} (op : r.op = .gwait v) (below : g.counter < v) : s.gateEffect n g r =
    (s.setGate n { g with waiters := joinWaiters s.chip r g.waiters }, none) := by
  simp only [State.gateEffect, op]
  exact if_neg fun ⟨_, met⟩ => Nat.not_le.mpr below met

theorem State.gateEffect_gpay {d : BitVec 512} (op : r.op = .gpay d) : s.gateEffect n g r =
    (s.setGate n { g with payload := d, paySeq := g.paySeq + 1 }, some (.value (g.paySeq + 1))) := by
  simp only [State.gateEffect, op]

theorem State.gateEffect_gtake (op : r.op = .gtake) : s.gateEffect n g r =
    (s.setGate n { g with waiters := g.waiters.filter fun q => !(isPlace s.chip q && q.task == r.task) },
      some (.payload g.paySeq g.payload)) := by
  simp only [State.gateEffect, op]

theorem State.gateEffect_gopen (op : r.op = .gopen) : s.gateEffect n g r =
    (s.setGate n { g with opened := true }, some (.value 0)) := by
  simp only [State.gateEffect, op]

theorem State.gateEffect_gclose (op : r.op = .gclose) (opened : g.opened = true) (nobody : g.waiters = [])
    (clear : g.stalled = []) : s.gateEffect n g r =
    (s.setGate n { g with opened := false, waiters := [], stalled := [] }, some (.value 0)) := by
  simp only [State.gateEffect, op, opened, nobody, clear]
  rfl

end

/-! ### Requests of other chips (R404) -/

section
variable {s : State} {r : GateRequest}

theorem exec_gateRequestArrive_again {m : MarkRec} (kept : s.gateMarks.find r.mark.who.toNat = some m) (same : m.mark = r.mark) :
    exec (.gateRequestArrive r) s = .next s := by
  rw [exec_gateRequestArrive, execGateRequestArrive]
  simp [kept, same]

/-- The state in which the reply of a request of another chip is kept with its mark. -/
def State.keepGateReply (s : State) (m : Mark) (y : Reply) : State :=
  { s with gateMarks := s.gateMarks.put m.who.toNat { mark := m, reply := y } }

variable (first : ∀ m, s.gateMarks.find r.mark.who.toNat = some m → m.mark ≠ r.mark)
  (new : ∀ g, s.gate? r.handle = some g → ((g.waiters ++ g.stalled).any fun p => p.hart.isNone && p.mark == r.mark) = false)
include first new

/-- The first time a request is applied as it is, without a hart of this package. -/
theorem exec_gateRequestArrive_first :
    exec (.gateRequestArrive r) s = .next (s.applyGateRequest { r with hart := none }) := by
  rw [exec_gateRequestArrive, execGateRequestArrive]
  refine congrArg Host.Outcome.next (if_neg fun again => ?_)
  rcases Bool.or_eq_true .. |>.mp again with kept | held
  · split at kept
    next m has => exact first m has (eq_of_beq kept)
    next => cases kept
  · split at held
    next g found => exact Bool.false_ne_true ((new g found).symm.trans held)
    next => cases held

theorem exec_gateRequestArrive_answered {t : State} {y : Reply}
    (applied : s.gateApply { r with hart := none } = (t, some y)) :
    exec (.gateRequestArrive r) s = .next (t.keepGateReply r.mark y) := by
  rw [exec_gateRequestArrive_first first new, State.applyGateRequest, applied]
  rfl

theorem exec_gateRequestArrive_waits {t : State} (applied : s.gateApply { r with hart := none } = (t, none)) :
    exec (.gateRequestArrive r) s = .next t := by
  rw [exec_gateRequestArrive_first first new, State.applyGateRequest, applied]

end

end Sys2Proof.Machine

open Sys2Proof Sys2Proof.Machine

/-- Settles O32: a request of another chip is applied the first time only, and has the effect of its operation or the trap of
the check that it fails; a token lets what has stalled be applied again. -/
theorem gateEventsApplyOnce : Obligations.GateEventsApplyOnce := by
  unfold Obligations.GateEventsApplyOnce
  refine ⟨fun s n i g a found entry => ⟨exec_gateTokenAccrue_accrues found entry, fun clear => ?clear⟩, ?arrives,
    fun s r m kept same => exec_gateRequestArrive_again kept same, fun s r unkept gone => ?gone⟩
  case clear =>
    refine ⟨s.setGate n (g.accrued i a), ?_, rfl, rfl, ?_⟩
    · rw [exec_gateTokenAccrue_accrues found entry, clear]
      rfl
    · rw [← Gate.accrued_clear clear]
      exact Table.find_put_same ..
  case arrives =>
    intro s r g n q next h first found new
    have held : ∀ x, s.gate? r.handle = some x →
        ((x.waiters ++ x.stalled).any fun p => p.hart.isNone && p.mark == r.mark) = false :=
      fun x has => Option.some.inj (found.symm.trans has) ▸ new
    refine ⟨fun sub v fault => exec_gateRequestArrive_answered first held (State.gateApply_refused fault),
      fun passes thawed token => ?_⟩
    have effect : s.gateApply q = s.gateEffect n h q := State.gateApply_effect found passes thawed token
    have still : h.frozen = false := (g.takeToken_frozen ..).trans thawed
    refine ⟨fun v op => ?gsig, fun v op met => ?met, fun v op below => ?joins, fun d op => ?gpay, fun op => ?gtake⟩
    case gsig => exact exec_gateRequestArrive_answered first held (effect.trans (State.gateEffect_gsig op still))
    case met =>
      have same : h = g := Gate.takeToken_none (by simp only [q, op]; rfl)
      rw [same] at effect
      exact exec_gateRequestArrive_answered first held (effect.trans (State.gateEffect_gwait_met op thawed met))
    case joins =>
      have same : h = g := Gate.takeToken_none (by simp only [q, op]; rfl)
      rw [same] at effect
      exact exec_gateRequestArrive_waits first held (effect.trans (State.gateEffect_gwait_joins op below))
    case gpay => exact exec_gateRequestArrive_answered first held (effect.trans (State.gateEffect_gpay op))
    case gtake =>
      have same : h = g := Gate.takeToken_none (by simp only [q, op]; rfl)
      rw [same] at effect
      exact exec_gateRequestArrive_answered first held (effect.trans (State.gateEffect_gtake op))
  case gone =>
    exact exec_gateRequestArrive_answered (fun m kept => by rw [unkept] at kept; cases kept)
      (fun g found => by rw [gone] at found; cases found) (State.gateApply_refused (State.gateFault_gone gone))
end

section
/-! PROOFS. The gate words on a gate of this chip that its owner uses (R337, R340, R342, R345). -/

namespace Sys2Proof.Machine

/-! ### A request of the owner -/

/-- The handle names a gate of this chip that the partition of the acting hart owns, and nothing stands before a request
there. -/
structure State.OwnsGate (s : State) (h : Word) (g : Gate) : Prop where
  here   : gateChip h = s.chip
  found  : s.gate? h = some g
  stays  : g.moved = none
  owner  : g.owner = s.partNum (clusterOf s.cur)
  thawed : g.frozen = false
  clear  : g.stalled = []

section
variable {s : State} {h : Word} {g : Gate} (owns : s.OwnsGate h g) (idle : s.me.waiting = none)
include owns idle

theorem State.gateWord_gsig {v : Word} (opened : g.opened = true) (some_ : v ≠ 0) : s.gateWord h (.gsig v) =
    .ok ((s.setGate (gateNum h) { g with counter := addSat g.counter v }).wakeGate (gateNum h),
      .value (addSat g.counter v)) := by
  obtain ⟨r, -, op, -, -, word⟩ := own_word s h (.gsig v) g idle owns.here owns.found owns.stays owns.owner owns.thawed
    owns.clear (.inl opened) (beq_false_of_ne some_)
  rw [word, State.gateEffect_gsig op owns.thawed]
  rfl

theorem State.gateWord_gwait_met {v : Word} (opened : g.opened = true) (met : v ≤ g.counter) : s.gateWord h (.gwait v) =
    .ok (s.dropPlaces (s.me.task.getD 0), .value g.counter) := by
  obtain ⟨r, -, op, -, -, word⟩ := own_word s h (.gwait v) g idle owns.here owns.found owns.stays owns.owner owns.thawed
    owns.clear (.inl opened) rfl
  rw [word, State.gateEffect_gwait_met op owns.thawed met]
  rfl

theorem State.gateWord_gwait_joins {v : Word} (opened : g.opened = true) (below : g.counter < v) :
    ∃ r : GateRequest, r.op = .gwait v ∧ r.hart = some s.cur ∧ s.gateWord h (.gwait v) =
      .error (.hold ((s.setGate (gateNum h) { g with waiters := joinWaiters s.chip r g.waiters }).dropPlaces
        (s.me.task.getD 0)) .queued) := by
  obtain ⟨r, -, op, hart, -, word⟩ := own_word s h (.gwait v) g idle owns.here owns.found owns.stays owns.owner owns.thawed
    owns.clear (.inl opened) rfl
  refine ⟨r, op, hart, ?_⟩
  rw [word, State.gateEffect_gwait_joins op below]
  rfl

theorem State.gateWord_gpay (d : BitVec 512) (opened : g.opened = true) : s.gateWord h (.gpay d) =
    .ok (s.setGate (gateNum h) { g with payload := d, paySeq := g.paySeq + 1 }, .value (g.paySeq + 1)) := by
  obtain ⟨r, -, op, -, -, word⟩ := own_word s h (.gpay d) g idle owns.here owns.found owns.stays owns.owner owns.thawed
    owns.clear (.inl opened) rfl
  rw [word, State.gateEffect_gpay op]
  rfl

theorem State.gateWord_gtake (opened : g.opened = true) : s.gateWord h .gtake =
    .ok ((s.setGate (gateNum h) { g with waiters := g.waiters.filter fun q =>
      !(isPlace s.chip q && q.task == s.me.task.getD 0) }).dropPlaces (s.me.task.getD 0), .payload g.paySeq g.payload) := by
  obtain ⟨r, -, op, -, task, word⟩ := own_word s h .gtake g idle owns.here owns.found owns.stays owns.owner owns.thawed
    owns.clear (.inl opened) rfl
  rw [word, State.gateEffect_gtake op, task]
  rfl

theorem State.gateWord_gopen : s.gateWord h .gopen = .ok (s.setGate (gateNum h) { g with opened := true }, .value 0) := by
  obtain ⟨r, -, op, -, -, word⟩ := own_word s h .gopen g idle owns.here owns.found owns.stays owns.owner owns.thawed
    owns.clear (.inr rfl) rfl
  rw [word, State.gateEffect_gopen op]
  rfl

theorem State.gateWord_gclose (opened : g.opened = true) (nobody : g.waiters = []) : s.gateWord h .gclose =
    .ok (s.setGate (gateNum h) { g with opened := false, waiters := [], stalled := [] }, .value 0) := by
  obtain ⟨r, -, op, -, -, word⟩ := own_word s h .gclose g idle owns.here owns.found owns.stays owns.owner owns.thawed
    owns.clear (.inr rfl) rfl
  rw [word, State.gateEffect_gclose op opened nobody owns.clear]
  rfl

end

theorem State.hasAsked_idle {s : State} (idle : s.me.waiting = none) : s.hasAsked = false := by
  simp [State.hasAsked, State.hasSent, idle]

theorem KeepsHarts.x {s t : State} (a : KeepsHarts s t) (r : Reg) : t.x r = s.x r := by
  obtain ⟨v, me⟩ := a.me
  exact congrArg (fun h => h.ctx.xreg r) me

theorem KeepsHarts.pc {s t : State} (a : KeepsHarts s t) : t.me.pc = s.me.pc := by
  obtain ⟨v, me⟩ := a.me
  rw [me]

/-! ### Words that close the region by themselves -/

section
variable {s : State} {rd rs1 rs2 : Reg} {g : Gate} (starts : s.starts) (quiet : s.closed.noEnd)
include starts quiet

theorem exec_gsig_adds (owns : s.closed.OwnsGate (s.x rs1) g) (opened : g.opened = true) (some_ : s.x rs2 ≠ 0) :
    exec (.gsig rd rs1 rs2) s = .next
      (((s.closed.setGate (gateNum (s.x rs1)) { g with counter := addSat g.counter (s.x rs2) }).wakeGate
        (gateNum (s.x rs1))).setX rd (addSat g.counter (s.x rs2))).goesOn := by
  have idle : s.closed.me.waiting = none := s.closed_waiting.trans starts.1
  refine (exec_gsig s).trans (closing_ok starts rfl quiet ?effect ?task)
  case effect =>
    simp only [s.closed_x, State.gateWord_gsig owns idle opened some_]
    rfl
  case task => rw [State.setX_task, wakeGate_task, setGate_me]

theorem exec_gpay_replaces {u : State} {bs : List Byte} (loads : s.closed.load (s.x rs2) 64 64 = .ok (u, bs))
    (owns : u.OwnsGate (s.x rs1) g) (opened : g.opened = true) :
    exec (.gpay rd rs1 rs2) s = .next ((u.setGate (gateNum (s.x rs1))
      { g with payload := BitVec.ofNat 512 (leNat bs), paySeq := g.paySeq + 1 }).setX rd (g.paySeq + 1)).goesOn := by
  have idle : s.closed.me.waiting = none := s.closed_waiting.trans starts.1
  have keeps : KeepsHarts s.closed u := State.load_keeps _ _ _ _ _ _ loads
  have x : u.x rs1 = s.x rs1 := (keeps.x rs1).trans (s.closed_x rs1)
  refine (exec_gpay s).trans (closing_ok starts rfl quiet ?effect ?task)
  case effect =>
    simp only [State.hasAsked_idle idle, s.closed_x, loads, bind, Except.bind, x,
      State.gateWord_gpay owns (keeps.waiting.trans idle) _ opened]
    rfl
  case task => rw [State.setX_task, setGate_me, keeps.task]

/-- Outside U mode, where no region is open, `gopen` only opens the gate and goes on. -/
theorem exec_gopen_opens (owns : s.closed.OwnsGate (s.x rs1) g) (mode : s.me.mode ≠ .u) : exec (.gopen rs1) s =
    .next (s.closed.setGate (gateNum (s.x rs1)) { g with opened := true }).complete := by
  have idle : s.closed.me.waiting = none := s.closed_waiting.trans starts.1
  rw [← State.goesOn_mode _ (by rwa [setGate_me, s.closed_mode]), exec_gopen, execGopen, if_neg mode]
  refine closing_ok starts rfl quiet ?effect (by rw [setGate_me])
  simp only [s.closed_x, State.gateWord_gopen owns idle]
  rfl

theorem exec_gclose_closes (owns : s.closed.OwnsGate (s.x rs1) g) (mode : s.me.mode ≠ .u) (opened : g.opened = true)
    (nobody : g.waiters = []) : exec (.gclose rs1) s =
    .next (s.closed.setGate (gateNum (s.x rs1)) { g with opened := false, waiters := [], stalled := [] }).complete := by
  have idle : s.closed.me.waiting = none := s.closed_waiting.trans starts.1
  rw [← State.goesOn_mode _ (by rwa [setGate_me, s.closed_mode]), exec_gclose, execGclose, if_neg mode]
  refine closing_ok starts rfl quiet ?effect (by rw [setGate_me])
  simp only [s.closed_x, State.gateWord_gclose owns idle opened nobody]
  rfl

end

/-! ### Words that keep their place at the gate while they close the region (R345) -/

section
variable {s c : State} {rd rs1 rs2 : Reg} {g : Gate} (starts : s.starts)
  (closes : s.closeRegion s.cur 0 s.me.epc false = c) (quiet : c.noEnd)
include starts closes quiet

theorem exec_gwait_met (owns : c.OwnsGate (s.x rs1) g) (opened : g.opened = true) (met : s.x rs2 ≤ g.counter) :
    exec (.gwait rd rs1 rs2) s = .next ((c.dropPlaces (s.me.task.getD 0)).setX rd g.counter).goesOn := by
  subst closes
  have keeps := s.closeRegion_keeps s.cur 0 s.me.epc false
  refine (exec_gwait s).trans (gclosing_ok starts rfl quiet ?effect ?task)
  case effect =>
    simp only [keeps.x, State.gateWord_gwait_met owns (keeps.waiting.trans starts.1) opened met, keeps.task]
    rfl
  case task => rw [State.setX_task, (State.dropPlaces_keeps _ _).task, keeps.task]

/-- A `gwait` below its threshold joins the waiters of the gate, and the hart waits. -/
theorem exec_gwait_joins (owns : c.OwnsGate (s.x rs1) g) (opened : g.opened = true) (below : g.counter < s.x rs2) :
    ∃ r : GateRequest, r.op = .gwait (s.x rs2) ∧ r.hart = some s.cur ∧ exec (.gwait rd rs1 rs2) s =
      .next (((c.setGate (gateNum (s.x rs1)) { g with waiters := joinWaiters c.chip r g.waiters }).dropPlaces
        (s.me.task.getD 0)).modMe fun x =>
          { x with waiting := some { instr := .gwait rd rs1 rs2, kind := .queued, reply := none } }) := by
  subst closes
  have keeps := s.closeRegion_keeps s.cur 0 s.me.epc false
  obtain ⟨r, op, hart, word⟩ := State.gateWord_gwait_joins owns (keeps.waiting.trans starts.1) opened below
  refine ⟨r, op, hart.trans (congrArg some keeps.cur), (exec_gwait s).trans (gclosing_hold starts rfl quiet ?_)⟩
  simp only [keeps.x, word, keeps.task]
  rfl

theorem exec_gtake_takes {u : State} {ls : List (Loc × Nat)}
    (operand : c.operand64 .store (s.x rs2) false = .ok (.ok (u, ls))) (owns : u.OwnsGate (s.x rs1) g)
    (opened : g.opened = true) : exec (.gtake rd rs1 rs2) s =
    .next ((performUnits ((u.setGate (gateNum (s.x rs1)) { g with waiters := g.waiters.filter fun q =>
        !(isPlace u.chip q && q.task == s.me.task.getD 0) }).dropPlaces (s.me.task.getD 0))
      (some s.cur) (u.partOf (clusterOf s.cur)) ls (leBytes 64 g.payload.toNat)).setX rd g.paySeq).goesOn := by
  subst closes
  have closing := s.closeRegion_keeps s.cur 0 s.me.epc false
  have keeps : KeepsHarts s u := closing.trans (operand64_keeps operand).keeps
  refine (exec_gtake s).trans (gclosing_ok starts rfl quiet ?effect ?task)
  case effect =>
    simp only [closing.x, operand, bind, Except.bind, keeps.x,
      State.gateWord_gtake owns (keeps.waiting.trans starts.1) opened, keeps.task]
    rw [← keeps.cur]
    rfl
  case task => rw [State.setX_task, performUnits_task, (State.dropPlaces_keeps _ _).task, setGate_me, keeps.task]

end

end Sys2Proof.Machine

open Sys2Proof Sys2Proof.Machine

/-- Settles O31: past the checks that the owner of an open gate passes, each word is the effect of its request, in the state
in which its region is closed. -/
theorem gateWordsActAtTheirHome : Obligations.GateWordsActAtTheirHome := by
  unfold Obligations.GateWordsActAtTheirHome
  intro s rd rs1 rs2 g n starts c c' me own
  have owns : ∀ t : State, t.cur = s.cur → own t → t.OwnsGate (s.x rs1) g ∧ gateNum (s.x rs1) = n :=
    fun t cur ⟨here, number, found, stays, owner, thawed, clear⟩ => ⟨⟨here, found, stays, cur ▸ owner, thawed, clear⟩, number⟩
  have closing : KeepsHarts s c' := s.closeRegion_keeps s.cur 0 s.me.epc false
  refine ⟨fun has quiet opened some_ => ?gsig, fun has quiet opened => ⟨fun met => ?met, fun below => ?joins⟩,
    fun u bs has quiet opened loads => ?gpay, fun u ls has quiet opened operand => ?gtake,
    fun has quiet mode => ⟨?gopen, fun opened nobody => ?gclose⟩, fun mode => ⟨?gopenU, ?gcloseU⟩⟩
  case gsig =>
    obtain ⟨owned, rfl⟩ := owns c s.closed_cur has
    exact exec_gsig_adds starts quiet owned opened some_
  case met =>
    obtain ⟨owned, -⟩ := owns c' closing.cur has
    exact exec_gwait_met starts rfl quiet owned opened met
  case joins =>
    obtain ⟨owned, rfl⟩ := owns c' closing.cur has
    obtain ⟨r, op, hart, waits⟩ := exec_gwait_joins starts rfl quiet owned opened below
    exact ⟨_, r, waits, op, hart, rfl, by rw [State.me_modMe]; exact closing.pc, by rw [State.me_modMe]⟩
  case gpay =>
    obtain ⟨owned, rfl⟩ := owns u ((State.load_keeps _ _ _ _ _ _ loads).cur.trans s.closed_cur) has
    exact exec_gpay_replaces starts quiet loads owned opened
  case gtake =>
    obtain ⟨owned, rfl⟩ := owns u ((operand64_keeps operand).keeps.cur.trans closing.cur) has
    exact exec_gtake_takes starts rfl quiet operand owned opened
  case gopen =>
    obtain ⟨owned, rfl⟩ := owns c s.closed_cur has
    exact exec_gopen_opens starts quiet owned mode
  case gclose =>
    obtain ⟨owned, rfl⟩ := owns c s.closed_cur has
    exact exec_gclose_closes starts quiet owned mode opened nobody
  case gopenU =>
    rw [exec_gopen, execGopen, if_pos mode, s.finish_illegal starts.1]
  case gcloseU =>
    rw [exec_gclose, execGclose, if_pos mode, s.finish_illegal starts.1]
end


section
/-! PROOFS. The row words that write a row of a tile (R281 to R298): the element-wise words by the codes that they compute, and
the others execution by execution. -/

namespace Sys2Proof.Machine

/-! ### Element-wise words -/

section
variable {s u : State} {d : TileReg} {srcs : List (TileReg × Nat)} {r : Nat} {us : List Tup} {ok : Bool} {i : Instr}
  {body : State → Except Exc State} (ready : s.rowReady (srcs.map fun e => e.1) (.rows d) us u) (fits : ok = true)
include ready fits

/-- A word that computes codes from the codes of its source rows. -/
theorem runOpen_rowCodes {f : Lay → Nat → List Nat → Nat × Nat} (word : body s = s.rowCodes d srcs r ok f) :
    runOpen i s body = .next (u.rowResult d r us fun t w l j =>
      f l j (srcs.map fun e => l.code (t.row e.1 w e.2) j)) := by
  rw [State.rowCodes] at word
  simp only [List.map_map, Function.comp_def] at word
  exact rowWord_fold _ ready fits word

/-- A word that computes with the values of its source rows, rounded once into the tag. -/
theorem runOpen_rowNums {f : List Num → NumF} (word : body s = s.rowNums d srcs r ok f) :
    runOpen i s body = .next (u.rowResult d r us fun t w l j => l.rounded s.rm s.mods.fzo (s.freshBase + j)
      (f (srcs.map fun e => l.elem s.mods.fzi (t.row e.1 w e.2) j))) := by
  have codes := runOpen_rowCodes (i := i) ready fits word
  simp only [List.map_map, Function.comp_def] at codes
  exact codes

/-- A word that selects one of its inputs, which FZO leaves (log 33). -/
theorem runOpen_rowPick {f : List Num → NumF} (word : body s = s.rowPick d srcs r ok f) :
    runOpen i s body = .next (u.rowResult d r us fun t w l j => l.rounded s.rm false (s.freshBase + j)
      (f (srcs.map fun e => l.elem s.mods.fzi (t.row e.1 w e.2) j))) := by
  have codes := runOpen_rowCodes (i := i) ready fits word
  simp only [List.map_map, Function.comp_def] at codes
  exact codes

end

section
variable {s u : State} {td ta tb : TileReg} {rs xr : Reg} {us : List Tup} {i : Instr} {body : State → Except Exc State}

section
variable (ready : s.rowReady [ta, tb] (.rows (s.rowTd td)) us u) (tags : s.sameTags [s.rowTd td, ta, tb] = true)
include ready tags

theorem runOpen_floatTwo {f : Nat → Num → Num → NumF} (float : (s.tileLay (s.rowTd td)).isFloat = true)
    (word : body s = s.floatTwo td ta tb xr f) :
    runOpen i s body = .next (u.rowResult (s.rowTd td) (s.rowIdx xr) us fun t w l j =>
      l.rounded s.rm s.mods.fzo (s.freshBase + j)
        (f s.rm (l.elem s.mods.fzi (t.row ta w (s.rowIdx xr)) j) (l.elem s.mods.fzi (t.row tb w (s.rowIdx xr)) j))) := by
  rw [State.floatTwo] at word
  have result := runOpen_rowNums (i := i) (srcs := [(ta, s.rowIdx xr), (tb, s.rowIdx xr)]) ready
    (by simp only [tags, float, Bool.and_self]) word
  simpa only [List.map_cons, List.map_nil, at1, at2, List.getD_cons_zero, List.getD_cons_succ] using result

theorem runOpen_floatPick {max : Bool} (float : (s.tileLay (s.rowTd td)).isFloat = true)
    (word : body s = s.floatPick td ta tb xr max) :
    runOpen i s body = .next (u.rowResult (s.rowTd td) (s.rowIdx xr) us fun t w l j =>
      l.rounded s.rm false (s.freshBase + j)
        ((l.elem s.mods.fzi (t.row ta w (s.rowIdx xr)) j).pick max (l.elem s.mods.fzi (t.row tb w (s.rowIdx xr)) j))) := by
  rw [State.floatPick] at word
  have result := runOpen_rowPick (i := i) (srcs := [(ta, s.rowIdx xr), (tb, s.rowIdx xr)]) ready
    (by simp only [tags, float, Bool.and_self]) word
  simpa only [List.map_cons, List.map_nil, at1, at2, List.getD_cons_zero, List.getD_cons_succ] using result

theorem runOpen_intTwo {f : Num → Num → NumF} (int : (s.tileLay (s.rowTd td)).isInt = true)
    (word : body s = s.intTwo td ta tb xr f) :
    runOpen i s body = .next (u.rowResult (s.rowTd td) (s.rowIdx xr) us fun t w l j =>
      l.rounded s.rm s.mods.fzo (s.freshBase + j)
        (f (l.elem s.mods.fzi (t.row ta w (s.rowIdx xr)) j) (l.elem s.mods.fzi (t.row tb w (s.rowIdx xr)) j))) := by
  rw [State.intTwo] at word
  have result := runOpen_rowNums (i := i) (srcs := [(ta, s.rowIdx xr), (tb, s.rowIdx xr)]) ready
    (by simp only [State.intOk, tags, int, Bool.and_self]) word
  simpa only [List.map_cons, List.map_nil, at1, at2, List.getD_cons_zero, List.getD_cons_succ] using result

theorem runOpen_intCodes {op : CodeOp} (int : (s.tileLay (s.rowTd td)).isInt = true)
    (word : body s = s.intCodes td ta tb xr op) :
    runOpen i s body = .next (u.rowResult (s.rowTd td) (s.rowIdx xr) us fun t w l j =>
      (l.f.codeOp op (l.code (t.row ta w (s.rowIdx xr)) j) (l.code (t.row tb w (s.rowIdx xr)) j), 0)) := by
  rw [State.intCodes] at word
  have result := runOpen_rowCodes (i := i) (srcs := [(ta, s.rowIdx xr), (tb, s.rowIdx xr)]) ready
    (by simp only [State.intOk, tags, int, Bool.and_self]) word
  simpa only [List.map_cons, List.map_nil, List.getD_cons_zero, List.getD_cons_succ] using result

end

section
variable (ready : s.rowReady [ta] (.rows (s.rowTd td)) us u)
include ready

theorem runOpen_floatOne {f : Num → NumF} (tags : s.sameTags [s.rowTd td, ta] = true)
    (float : (s.tileLay (s.rowTd td)).isFloat = true) (word : body s = s.floatOne td ta xr f) :
    runOpen i s body = .next (u.rowResult (s.rowTd td) (s.rowIdx xr) us fun t w l j =>
      l.rounded s.rm s.mods.fzo (s.freshBase + j) (f (l.elem s.mods.fzi (t.row ta w (s.rowIdx xr)) j))) := by
  rw [State.floatOne] at word
  have result := runOpen_rowNums (i := i) (srcs := [(ta, s.rowIdx xr)]) ready
    (by simp only [tags, float, Bool.and_self]) word
  simpa only [List.map_cons, List.map_nil, at1, List.getD_cons_zero] using result

theorem runOpen_signWord {f : Nat → Nat → Nat} (tags : s.sameTags [s.rowTd td, ta] = true)
    (float : (s.tileLay (s.rowTd td)).isFloat = true) (signed : (s.tileLay (s.rowTd td)).f.sign = true)
    (word : body s = s.signWord td ta xr f) :
    runOpen i s body = .next (u.rowResult (s.rowTd td) (s.rowIdx xr) us fun t w l j =>
      (f (signPlace l.f) (l.code (t.row ta w (s.rowIdx xr)) j), 0)) := by
  rw [State.signWord] at word
  have result := runOpen_rowCodes (i := i) (srcs := [(ta, s.rowIdx xr)]) ready
    (by simp only [tags, float, signed, Bool.and_self]) word
  simpa only [List.map_cons, List.map_nil, List.headD_cons] using result

theorem runOpen_floatTable {f : Nat → Bool → Num → Nat × Nat} (tagD : s.tag (s.rowTd td) = 1) (tagA : s.tag ta = 1)
    (word : body s = s.floatTable td ta xr f) :
    runOpen i s body = .next (u.rowResult (s.rowTd td) (s.rowIdx xr) us fun t w l j =>
      f s.rm s.mods.fzo (l.elem s.mods.fzi (t.row ta w (s.rowIdx xr)) j)) := by
  rw [State.floatTable] at word
  have result := runOpen_rowCodes (i := i) (srcs := [(ta, s.rowIdx xr)]) ready
    (by simp only [tagD, tagA, BEq.rfl, Bool.and_self]) word
  simpa only [List.map_cons, List.map_nil, List.headD_cons, Lay.elem] using result

end

section
variable (ready : s.rowReady [ta] (.rows (s.rowTd ta)) us u) (tags : s.sameTags [s.rowTd ta, ta] = true)
  (number : (s.tileLay (s.rowTd ta)).isNumber = true)
include ready tags number

theorem runOpen_scalarWord {f : Nat → Num → Num → NumF} (word : body s = s.scalarWord ta rs xr f) :
    runOpen i s body = .next (u.rowResult (s.rowTd ta) (s.rowIdx xr) us fun t w l j =>
      l.rounded s.rm s.mods.fzo (s.freshBase + j) (f s.rm (l.elem s.mods.fzi (t.row ta w (s.rowIdx xr)) j)
        (l.f.flushIn s.mods.fzi (l.f.decode (l.f.scalar (s.x rs)))))) := by
  rw [State.scalarWord] at word
  have result := runOpen_rowCodes (i := i) (srcs := [(ta, s.rowIdx xr)]) ready
    (by simp only [tags, number, Bool.and_self]) word
  simpa only [List.map_cons, List.map_nil, List.headD_cons, Lay.elem, Lay.rounded] using result

theorem runOpen_scalarPick {max : Bool} (word : body s = s.scalarPick ta rs xr max) :
    runOpen i s body = .next (u.rowResult (s.rowTd ta) (s.rowIdx xr) us fun t w l j =>
      l.rounded s.rm false (s.freshBase + j) ((l.elem s.mods.fzi (t.row ta w (s.rowIdx xr)) j).pick max
        (l.f.flushIn s.mods.fzi (l.f.decode (l.f.scalar (s.x rs)))))) := by
  rw [State.scalarPick] at word
  have result := runOpen_rowCodes (i := i) (srcs := [(ta, s.rowIdx xr)]) ready
    (by simp only [tags, number, Bool.and_self]) word
  simpa only [List.map_cons, List.map_nil, List.headD_cons, Lay.elem, Lay.rounded] using result

end

/-- The word with an addend (R286): the row `c` is the destination's, or the one that the prefix names. -/
theorem runOpen_floatThree {c : TileReg × Nat} (ready : s.rowReady [ta, tb, c.1] (.rows (s.rowTd td)) us u)
    (tags : s.sameTags [s.rowTd td, ta, tb, c.1] = true) (float : (s.tileLay (s.rowTd td)).isFloat = true)
    (word : body s = s.rowNums (s.rowTd td) [(ta, s.rowIdx xr), (tb, s.rowIdx xr), c] (s.rowIdx xr)
      (s.sameTags [s.rowTd td, ta, tb, c.1] && (s.tileLay (s.rowTd td)).isFloat) fun l => (at1 l).fma s.rm (at2 l) (at3 l)) :
    runOpen i s body = .next (u.rowResult (s.rowTd td) (s.rowIdx xr) us fun t w l j =>
      l.rounded s.rm s.mods.fzo (s.freshBase + j)
        ((l.elem s.mods.fzi (t.row ta w (s.rowIdx xr)) j).fma s.rm (l.elem s.mods.fzi (t.row tb w (s.rowIdx xr)) j)
          (l.elem s.mods.fzi (t.row c.1 w c.2) j))) := by
  have result := runOpen_rowNums (i := i) (srcs := [(ta, s.rowIdx xr), (tb, s.rowIdx xr), c]) ready
    (by simp only [tags, float, Bool.and_self]) word
  simpa only [List.map_cons, List.map_nil, at1, at2, at3, List.getD_cons_zero, List.getD_cons_succ] using result

/-! ### Checks that a word fails (R285) -/

/-- A word of two source rows whose tiles differ in tag, or whose number is too high. -/
theorem runOpen_rowWord_traps {d : TileReg} {ok : Bool} {one : State → Tup → Except Exc State} (idle : s.me.waiting = none)
    (fault : s.opFaultOn [ta.toNat, tb.toNat, d.toNat] = .ok ()) (tagged : ok = true → s.sameTags [d, ta, tb] = true)
    (word : body s = s.rowWord [ta, tb] (.rows d) false ok one) :
    ((∃ n ∈ [ta, tb, d], s.tileCount ≤ n.toNat) → runOpen i s body = .next (s.takeTrap s.cur false 28 0x01 (wordOfInstr i))) ∧
    ((∀ n ∈ [ta, tb, d], n.toNat < s.tileCount) → s.sameTags [d, ta, tb] = false →
      runOpen i s body = .next (s.takeTrap s.cur false 28 0x04 (wordOfInstr i))) := by
  refine ⟨fun past => runOpen_trapWord idle ?number, fun below differ => runOpen_trapWord idle ?tags⟩
  case number =>
    rw [word]
    exact rowWord_below fault (by simpa [RowDst.tile] using past)
  case tags =>
    obtain rfl : ok = false := Bool.eq_false_iff.mpr fun fits => Bool.false_ne_true (differ.symm.trans (tagged fits))
    rw [word]
    exact rowWord_tags fault (by simpa [RowDst.tile] using below)

section
variable (idle : s.me.waiting = none) (fault : s.opFaultOn [ta.toNat, tb.toNat, (s.rowTd td).toNat] = .ok ())
include idle fault

theorem runOpen_floatTwo_traps {f : Nat → Num → Num → NumF} (word : body s = s.floatTwo td ta tb xr f) :
    ((∃ n ∈ [ta, tb, s.rowTd td], s.tileCount ≤ n.toNat) →
      runOpen i s body = .next (s.takeTrap s.cur false 28 0x01 (wordOfInstr i))) ∧
    ((∀ n ∈ [ta, tb, s.rowTd td], n.toNat < s.tileCount) → s.sameTags [s.rowTd td, ta, tb] = false →
      runOpen i s body = .next (s.takeTrap s.cur false 28 0x04 (wordOfInstr i))) := by
  rw [State.floatTwo, State.rowNums, State.rowCodes] at word
  exact runOpen_rowWord_traps idle fault (fun fits => (Bool.and_eq_true_iff.mp fits).1) word

theorem runOpen_floatPick_traps {max : Bool} (word : body s = s.floatPick td ta tb xr max) :
    ((∃ n ∈ [ta, tb, s.rowTd td], s.tileCount ≤ n.toNat) →
      runOpen i s body = .next (s.takeTrap s.cur false 28 0x01 (wordOfInstr i))) ∧
    ((∀ n ∈ [ta, tb, s.rowTd td], n.toNat < s.tileCount) → s.sameTags [s.rowTd td, ta, tb] = false →
      runOpen i s body = .next (s.takeTrap s.cur false 28 0x04 (wordOfInstr i))) := by
  rw [State.floatPick, State.rowPick, State.rowCodes] at word
  exact runOpen_rowWord_traps idle fault (fun fits => (Bool.and_eq_true_iff.mp fits).1) word

theorem runOpen_intTwo_traps {f : Num → Num → NumF} (word : body s = s.intTwo td ta tb xr f) :
    ((∃ n ∈ [ta, tb, s.rowTd td], s.tileCount ≤ n.toNat) →
      runOpen i s body = .next (s.takeTrap s.cur false 28 0x01 (wordOfInstr i))) ∧
    ((∀ n ∈ [ta, tb, s.rowTd td], n.toNat < s.tileCount) → s.sameTags [s.rowTd td, ta, tb] = false →
      runOpen i s body = .next (s.takeTrap s.cur false 28 0x04 (wordOfInstr i))) := by
  rw [State.intTwo, State.rowNums, State.rowCodes] at word
  exact runOpen_rowWord_traps idle fault (fun fits => (Bool.and_eq_true_iff.mp fits).1) word

theorem runOpen_intCodes_traps {op : CodeOp} (word : body s = s.intCodes td ta tb xr op) :
    ((∃ n ∈ [ta, tb, s.rowTd td], s.tileCount ≤ n.toNat) →
      runOpen i s body = .next (s.takeTrap s.cur false 28 0x01 (wordOfInstr i))) ∧
    ((∀ n ∈ [ta, tb, s.rowTd td], n.toNat < s.tileCount) → s.sameTags [s.rowTd td, ta, tb] = false →
      runOpen i s body = .next (s.takeTrap s.cur false 28 0x04 (wordOfInstr i))) := by
  rw [State.intCodes, State.rowCodes] at word
  exact runOpen_rowWord_traps idle fault (fun fits => (Bool.and_eq_true_iff.mp fits).1) word

end

end

end Sys2Proof.Machine

open Sys2Proof Sys2Proof.Machine

/-- Settles O44: every word is an execution of `rowWord`, whose executions that cannot fail fold over the tuples; the elements
of a computing word are those of `rowCodes` with the codes of its source rows. That vmin, vmax, vmins and vmaxs are not flushed
under FZO is the model's choice (log 33). -/
theorem rowWordsWriteTheirElements : Obligations.RowWordsWriteTheirElements := by
  unfold Obligations.RowWordsWriteTheirElements
  intro s u td ta tb rs xr us i
  dsimp only
  refine ⟨fun ready tags => ⟨?nums, ?codes, ?vsel⟩, ?vperm, ?vfma, fun ready tags => ⟨?one, ?sign, ?vmov, ?vmovBlock, ?scalar⟩,
    ?table, fun ready => ⟨?vbcast, ?viota, ?vins⟩, ?vcvt, ?traps⟩
  case nums =>
    rintro f z (⟨float, ⟨rfl, rfl, rfl⟩ | ⟨rfl, rfl, rfl⟩ | ⟨rfl, rfl, rfl⟩ | ⟨rfl, rfl, rfl⟩ |
        ⟨rfl, rfl, rfl⟩ | ⟨rfl, rfl, rfl⟩⟩ |
      ⟨int, rfl, ⟨rfl, rfl⟩ | ⟨rfl, rfl⟩ | ⟨rfl, rfl⟩⟩)
    · rw [exec_vadd, execVadd]
      exact runOpen_floatTwo (f := fun rm a b => a.add rm b) ready tags float rfl
    · rw [exec_vsub, execVsub]
      exact runOpen_floatTwo (f := fun rm a b => a.add rm b.neg) ready tags float rfl
    · rw [exec_vmul, execVmul]
      exact runOpen_floatTwo (f := fun _ a b => a.mul b) ready tags float rfl
    · rw [exec_vdiv, execVdiv]
      exact runOpen_floatTwo (f := fun _ a b => a.div b) ready tags float rfl
    · rw [exec_vmin, execVmin]
      exact runOpen_floatPick ready tags float rfl
    · rw [exec_vmax, execVmax]
      exact runOpen_floatPick ready tags float rfl
    · rw [exec_viadd, execViadd]
      exact runOpen_intTwo (f := fun a b => a.add 0 b) ready tags int rfl
    · rw [exec_visub, execVisub]
      exact runOpen_intTwo (f := fun a b => a.add 0 b.neg) ready tags int rfl
    · rw [exec_vimul, execVimul]
      exact runOpen_intTwo (f := Machine.Num.mul) ready tags int rfl
  case codes =>
    rintro op int (⟨rfl, rfl⟩ | ⟨rfl, rfl⟩ | ⟨rfl, rfl⟩ | ⟨rfl, rfl⟩ | ⟨rfl, rfl⟩ | ⟨rfl, rfl⟩ | ⟨rfl, rfl⟩ | ⟨rfl, rfl⟩)
    · exact (exec_vand s).trans (runOpen_intCodes (op := .and) ready tags int rfl)
    · exact (exec_vor s).trans (runOpen_intCodes (op := .or) ready tags int rfl)
    · exact (exec_vxor s).trans (runOpen_intCodes (op := .xor) ready tags int rfl)
    · exact (exec_vshl s).trans (runOpen_intCodes (op := .shl) ready tags int rfl)
    · exact (exec_vsrl s).trans (runOpen_intCodes (op := .srl) ready tags int rfl)
    · exact (exec_vsra s).trans (runOpen_intCodes (op := .sra) ready tags int rfl)
    · exact (exec_vimin s).trans (runOpen_intCodes (op := .min) ready tags int rfl)
    · exact (exec_vimax s).trans (runOpen_intCodes (op := .max) ready tags int rfl)
  case vsel =>
    intro plain
    rw [exec_vsel, execVsel]
    exact rowWord_fold _ ready (by simp only [tags, plain, Bool.not_false, Bool.and_self]) rfl
  case vperm =>
    intro ready tags plain int len
    rw [exec_vperm, execVperm]
    exact rowWord_fold _ ready (by simp only [tags, plain, int, len, Bool.not_false, Bool.and_self, decide_true]) rfl
  case vfma =>
    intro ready tags float
    rw [exec_vfma, execVfma]
    exact runOpen_floatThree ready tags float rfl
  case one =>
    rintro f float (⟨rfl, rfl⟩ | ⟨rfl, rfl⟩ | ⟨rfl, rfl⟩)
    · exact (exec_vsqrt s).trans (runOpen_floatOne (f := Machine.Num.sqrt) ready tags float rfl)
    · exact (exec_vrsq s).trans (runOpen_floatOne (f := Machine.Num.rsqrt) ready tags float rfl)
    · exact (exec_vrcp s).trans (runOpen_floatOne (f := fun a => Machine.Num.one.div a) ready tags float rfl)
  case sign =>
    intro float signed
    constructor
    · rw [exec_vneg, execVneg]
      exact runOpen_signWord (f := fun b c => if c < b then c + b else c - b) ready tags float signed rfl
    · rw [exec_vabs, execVabs]
      exact runOpen_signWord (f := fun b c => c % b) ready tags float signed rfl
  case vmov =>
    intro plain
    rw [exec_vmov, execVmov]
    exact runOpen_rowCodes (srcs := [(ta, s.rowIdx xr)]) (ok := true) (f := fun _ _ cs => (cs.headD 0, 0)) ready rfl
      (by simp only [tags, plain, Bool.not_false, Bool.true_or, Bool.and_self, Bool.false_eq_true, ↓reduceIte])
  case vmovBlock =>
    intro block unmasked
    rw [exec_vmov, execVmov]
    exact rowWord_fold (ok := true) _ ready rfl
      (by simp only [tags, block, unmasked, BEq.rfl, Bool.or_true, Bool.and_self, ↓reduceIte])
  case scalar =>
    rintro f z number (⟨rfl, rfl, rfl⟩ | ⟨rfl, rfl, rfl⟩ | ⟨rfl, rfl, rfl⟩ | ⟨rfl, rfl, rfl⟩ | ⟨rfl, rfl, rfl⟩) rfl
    · rw [exec_vadds, execVadds]
      exact runOpen_scalarWord (f := fun rm a b => a.add rm b) ready tags number rfl
    · rw [exec_vsubs, execVsubs]
      exact runOpen_scalarWord (f := fun rm a b => a.add rm b.neg) ready tags number rfl
    · rw [exec_vmuls, execVmuls]
      exact runOpen_scalarWord (f := fun _ a b => a.mul b) ready tags number rfl
    · rw [exec_vmaxs, execVmaxs]
      exact runOpen_scalarPick ready tags number rfl
    · rw [exec_vmins, execVmins]
      exact runOpen_scalarPick ready tags number rfl
  case table =>
    rintro ready tagD tagA f (⟨rfl, rfl⟩ | ⟨rfl, rfl⟩ | ⟨rfl, rfl⟩)
    · exact (exec_vexp2 s).trans (runOpen_floatTable (f := exp2Of) ready tagD tagA rfl)
    · exact (exec_vlog2 s).trans (runOpen_floatTable (f := log2Of) ready tagD tagA rfl)
    · exact (exec_vtanh s).trans (runOpen_floatTable (f := tanhOf) ready tagD tagA rfl)
  case vbcast =>
    intro plain
    rw [exec_vbcast, execVbcast]
    exact runOpen_rowCodes (srcs := []) (f := fun l _ _ => (l.f.scalar (s.x rs), 0)) ready
      (by simp only [plain, Bool.not_false]) rfl
  case viota =>
    intro number
    rw [exec_viota, execViota]
    exact runOpen_rowCodes (srcs := [])
      (f := fun l j _ => l.f.round s.rm s.mods.fzo (s.freshBase + j) (Machine.Num.ofInt ((s.x rs).toInt + j))) ready number rfl
  case vins =>
    intro plain
    rw [exec_vins, execVins]
    simp only [← apply_ite]
    exact rowWord_fold _ ready (by simp only [plain, Bool.not_false]) rfl
  case vcvt =>
    intro p ready srcNumber dstNumber
    constructor
    · intro plain
      have none : (s.tileLay (s.rowTd td)).scale = none := Option.isSome_eq_false_iff.mp plain |> Option.isNone_iff_eq_none.mp
      rw [exec_vcvt, execVcvt]
      exact rowWord_fold (ok := true) _ ready rfl
        (by simp only [bne_iff_ne.mpr srcNumber, bne_iff_ne.mpr dstNumber, plain, none, Bool.not_false, Bool.true_or, Bool.and_self])
    · intro g scale unmasked whole
      have block : (s.tileLay (s.rowTd td)).isBlock = true := by simp only [Lay.isBlock, scale, Option.isSome_some]
      rw [exec_vcvt, execVcvt]
      exact rowWord_fold (ok := true) _ ready rfl
        (by simp only [bne_iff_ne.mpr srcNumber, bne_iff_ne.mpr dstNumber, unmasked, whole, scale, BEq.rfl, Bool.or_true,
          Bool.and_self])
  case traps =>
    rintro idle fault (rfl | rfl | rfl | rfl | rfl | rfl | rfl | rfl | rfl)
    · rw [exec_vadd, execVadd]
      exact runOpen_floatTwo_traps idle fault rfl
    · rw [exec_vsub, execVsub]
      exact runOpen_floatTwo_traps idle fault rfl
    · rw [exec_vmul, execVmul]
      exact runOpen_floatTwo_traps idle fault rfl
    · rw [exec_vdiv, execVdiv]
      exact runOpen_floatTwo_traps idle fault rfl
    · rw [exec_vmin, execVmin]
      exact runOpen_floatPick_traps idle fault rfl
    · rw [exec_vmax, execVmax]
      exact runOpen_floatPick_traps idle fault rfl
    · rw [exec_vsel, execVsel]
      exact runOpen_rowWord_traps idle fault (fun fits => (Bool.and_eq_true_iff.mp fits).1) rfl
    · rw [exec_viadd, execViadd]
      exact runOpen_intTwo_traps idle fault rfl
    · rw [exec_vand, execVand]
      exact runOpen_intCodes_traps idle fault rfl
end

section
/-! PROOFS. The elements of a row that is written under a mask (R281, R282). -/

namespace Sys2Proof.Machine

/-- A mask bit governs the run of elements that holds it. -/
theorem elemActive_of_run {n k : Nat} (run : max 1 (maskRun n) = k) (mask : Mask) (j : Nat) :
    elemActive mask n j = mask.getLsbD (j / k) := by
  rw [elemActive, run]

theorem maskRun_short {n : Nat} (short : n ≤ 256) : max 1 (maskRun n) = 1 := by
  rw [maskRun]
  omega

end Sys2Proof.Machine

open Sys2Proof Sys2Proof.Machine

/-- Settles O45: the elements by `mapElems_code`, the mask of a comparison by `cmpMask_bit`, and the run of each mask bit. -/
theorem maskedRowsKeepInactiveElements : Obligations.MaskedRowsKeepInactiveElements := by
  unfold Obligations.MaskedRowsKeepInactiveElements
  refine ⟨fun l act zero f old j scale below codes => ?elements, fun mask n j => ⟨fun short => ?one, ?two, ?eight⟩, cmpMask_bit⟩
  case elements => rw [mapElems_code scale act zero f old below, Nat.mod_eq_of_lt (codes j)]
  case one => rw [elemActive_of_run (maskRun_short short), Nat.div_one]
  case two =>
    rintro rfl
    exact elemActive_of_run rfl mask j
  case eight =>
    rintro rfl
    exact elemActive_of_run rfl mask j
end

section
/-! PROOFS. The latches of `errinj` as they read back, and the scrub of a cluster's units (R348, R383). -/

namespace Sys2Proof.Machine

/-! ### The bits of `errinj` -/

/-- The four parts that `errinj` is read from: the core's and the pair's latches stand among the cluster's. -/
theorem bits_latches {e : Word} {core tmem mpad : Bool} {v : Word} (read : v = wordOf (e.toNat % 512 / 128 * 128 +
    (if core then 64 else 0) + e.toNat % 64 / 4 * 4 + (if tmem then 2 else 0) + (if mpad then 1 else 0))) :
    bits v 0 1 = mpad.toNat ∧ bits v 1 1 = tmem.toNat ∧ bits v 2 1 = bits e 2 1 ∧ bits v 3 1 = bits e 3 1 ∧
      bits v 4 1 = bits e 4 1 ∧ bits v 5 1 = bits e 5 1 ∧ bits v 6 1 = core.toNat ∧ bits v 7 1 = bits e 7 1 := by
  have number : v.toNat = e.toNat % 512 / 128 * 128 + core.toNat * 64 + e.toNat % 64 / 4 * 4 + tmem.toNat * 2 + mpad.toNat := by
    have c := core.toNat_le
    have t := tmem.toNat_le
    have m := mpad.toNat_le
    have cores : (if core then 64 else 0) = core.toNat * 64 := by cases core <;> rfl
    have tmems : (if tmem then 2 else 0) = tmem.toNat * 2 := by cases tmem <;> rfl
    have mpads : (if mpad then 1 else 0) = mpad.toNat := by cases mpad <;> rfl
    rw [read, cores, tmems, mpads, wordOf, BitVec.toNat_ofNat, Nat.mod_eq_of_lt (by omega)]
  have c := core.toNat_le
  have t := tmem.toNat_le
  have m := mpad.toNat_le
  simp only [bits, Nat.shiftRight_eq_div_pow, number]
  omega

theorem State.errinjRead_latches (s : State) : let k := s.myCluster; let p := s.pair (pairOf s.cur)
    bits s.errinjRead 0 1 = p.errMpad.toNat ∧ bits s.errinjRead 1 1 = p.errTmem.toNat ∧
      bits s.errinjRead 2 1 = bits k.errinj 2 1 ∧ bits s.errinjRead 3 1 = bits k.errinj 3 1 ∧
      bits s.errinjRead 4 1 = bits k.errinj 4 1 ∧ bits s.errinjRead 5 1 = bits k.errinj 5 1 ∧
      bits s.errinjRead 6 1 = (k.errCore.getLsbD (coreOf s.cur % 8)).toNat ∧ bits s.errinjRead 7 1 = bits k.errinj 7 1 :=
  bits_latches rfl

/-- A latch reads as what was written. -/
theorem latch_toNat {latch arm : Bool} (written : latch = arm) : latch.toNat = if arm then 1 else 0 := by
  rw [written]
  cases arm <;> rfl

/-- A latch of the cluster holds what was written. -/
theorem State.armCluster_latch (s : State) {bit : Nat} (below : bit < 64) (arm : Bool) :
    bits (s.armCluster bit arm).myCluster.errinj bit 1 = if arm then 1 else 0 := by
  have same : (s.armCluster bit arm).myCluster = { s.myCluster with
      errinj := setBits s.myCluster.errinj bit 1 (if arm then 1 else 0) } := State.cluster_modCluster s _ _
  rw [same, bits_setBits_same _ _ _ _ below]
  cases arm <;> rfl

/-- The core's latch in the byte of its cluster. -/
theorem coreLatch_getLsbD (e : BitVec 8) {k : Nat} (below : k < 8) (arm : Bool) :
    (if arm then e ||| BitVec.ofNat 8 (2 ^ k) else e &&& ~~~(BitVec.ofNat 8 (2 ^ k))).getLsbD k = arm := by
  have one : (BitVec.ofNat 8 (2 ^ k)).getLsbD k = true := by
    rw [BitVec.getLsbD_ofNat, Nat.testBit_two_pow_self, decide_eq_true below, Bool.and_self]
  cases arm
  · simp only [Bool.false_eq_true, ↓reduceIte, BitVec.getLsbD_and, BitVec.getLsbD_not, one, Bool.not_true, Bool.and_false]
  · simp only [↓reduceIte, BitVec.getLsbD_or, one, Bool.or_true]

/-- A core's latch set in, or taken out of, the byte of its cluster. -/
def coreLatch (arm : Bool) (k : Nat) (c : Cluster) : Cluster :=
  { c with errCore := if arm then c.errCore ||| BitVec.ofNat 8 (2 ^ k) else c.errCore &&& ~~~(BitVec.ofNat 8 (2 ^ k)) }

theorem State.armCore_latch (s : State) (arm : Bool) :
    (s.armCore arm).myCluster.errCore.getLsbD (coreOf (s.armCore arm).cur % 8) = arm := by
  have cur : (s.armCore arm).cur = s.cur := by cases arm <;> rfl
  have cluster : (s.armCore arm).myCluster = coreLatch arm (coreOf s.cur % 8) s.myCluster := by
    have written := s.cluster_modCluster (clusterOf s.cur) (coreLatch arm (coreOf s.cur % 8))
    cases arm <;> exact written
  rw [cluster, cur]
  exact coreLatch_getLsbD _ (Nat.mod_lt _ (by decide)) arm

theorem State.armCore_quiet (s : State) (arm : Bool) : (s.armCore arm).harts = s.harts ∧ (s.armCore arm).mem = s.mem ∧
    (s.armCore arm).pending = (s.pending.filter fun i => i != .coreLoss (coreOf s.cur)) ++
      (if arm then [.coreLoss (coreOf s.cur)] else []) := by
  cases arm
  · exact ⟨rfl, rfl, (List.append_nil _).symm⟩
  · exact ⟨rfl, rfl, rfl⟩

/-! ### The scrub of a cluster's units -/

theorem State.scrubStart_idle {s : State} {u : BitVec 3} (idle : s.myCluster.scrubBusy = 0) (named : u ≠ 0) :
    s.scrubStart u = (s.modCluster (clusterOf s.cur) fun k => { k with scrubBusy := u }).post
      (.supervisorScrubDone (clusterOf s.cur)) :=
  if_neg (not_or.mpr ⟨fun busy => busy idle, named⟩)

/-- A write that names one unit starts its scrub where none runs, and is ignored where one does. -/
theorem State.scrubStart_result (s : State) {u : BitVec 3} (named : u ≠ 0) :
    (s.myCluster.scrubBusy = 0 → (s.scrubStart u).myCluster.scrubBusy = u ∧
      (s.scrubStart u).pending = s.pending ++ [.supervisorScrubDone (clusterOf s.cur)] ∧ (s.scrubStart u).mem = s.mem ∧
      (s.scrubStart u).harts = s.harts) ∧
    (s.myCluster.scrubBusy ≠ 0 → s.scrubStart u = s) := by
  refine ⟨fun idle => ?starts, fun busy => if_pos (.inl busy)⟩
  rw [State.scrubStart_idle idle named]
  have busy := State.cluster_modCluster s (clusterOf s.cur) fun k => { k with scrubBusy := u }
  exact ⟨congrArg Cluster.scrubBusy busy, rfl, rfl, rfl⟩

theorem State.zeroWhere_byte (s : State) (p : Nat → Bool) (a : Nat) :
    (s.zeroWhere p).byte a = if p a then Config.unwrittenByte else s.byte a := by
  have read := cellRead_filter Config.unwrittenByte s.mem (fun b => !p b) a
  refine read.trans ?_
  cases p a <;> rfl

/-- The vault beneath a cluster is its partition's. -/
def State.ownsVault (s : State) (c : Nat) : Bool :=
  match (s.partOf c).bind s.parts.find with
  | some p => p.vaults.getLsbD c
  | none => false

theorem State.ownsVault_congr {s t : State} (clusters : t.clusters = s.clusters) (parts : t.parts = s.parts) (c : Nat) :
    t.ownsVault c = s.ownsVault c := by
  unfold State.ownsVault State.partOf State.cluster
  rw [clusters, parts]

/-- The vault beneath a cluster. -/
def inVault (c a : Nat) : Bool := vaultAddr c 0 ≤ a && a < vaultAddr c vaultSize

/-- The places that a scrub of the units `u` zeroes. -/
def State.scrubbed (s : State) (c : Nat) (u : BitVec 3) (a : Nat) : Bool :=
  (u.getLsbD 0 && s.padFree c a) || (u.getLsbD 2 && s.ownsVault c && inVault c a)

/-- The scratchpad's part of a scrub. -/
def State.scrubPad (s : State) (c : Nat) (on : Bool) : State := if on then s.zeroWhere (s.padFree c) else s

/-- The tiles' part, which touches no memory. -/
def State.scrubTiles (s : State) (c : Nat) (on : Bool) : State :=
  if on then
    { s with pairs := s.pairs.mapVal fun p x =>
        if clusterOfPair p = c then { x with tiles := x.tiles.filter fun e => e.2.owner.isSome || e.1 ≥ 16 } else x }
  else s

/-- The vault's part. -/
def State.scrubVault (s : State) (c : Nat) (on : Bool) : State :=
  if on && s.ownsVault c then s.zeroWhere (inVault c) else s

theorem State.scrubUnits_eq (s : State) (c : Nat) (u : BitVec 3) : s.scrubUnits c u =
    ((s.scrubPad c (u.getLsbD 0)).scrubTiles c (u.getLsbD 1)).scrubVault c (u.getLsbD 2) := rfl

theorem State.scrubPad_rest (s : State) (c : Nat) (on : Bool) :
    (s.scrubPad c on).clusters = s.clusters ∧ (s.scrubPad c on).parts = s.parts ∧ (s.scrubPad c on).harts = s.harts := by
  cases on <;> exact ⟨rfl, rfl, rfl⟩

theorem State.scrubTiles_rest (s : State) (c : Nat) (on : Bool) : (s.scrubTiles c on).clusters = s.clusters ∧
    (s.scrubTiles c on).parts = s.parts ∧ (s.scrubTiles c on).harts = s.harts ∧ (s.scrubTiles c on).mem = s.mem := by
  cases on <;> exact ⟨rfl, rfl, rfl, rfl⟩

theorem State.scrubPad_byte (s : State) (c : Nat) (on : Bool) (a : Nat) :
    (s.scrubPad c on).byte a = if on && s.padFree c a then Config.unwrittenByte else s.byte a := by
  cases on
  · rw [Bool.false_and, if_neg Bool.false_ne_true, State.scrubPad, if_neg Bool.false_ne_true]
  · rw [Bool.true_and, State.scrubPad, if_pos rfl, State.zeroWhere_byte]

theorem State.scrubVault_byte (s : State) (c : Nat) (on : Bool) (a : Nat) :
    (s.scrubVault c on).byte a = if on && s.ownsVault c && inVault c a then Config.unwrittenByte else s.byte a := by
  rw [State.scrubVault]
  generalize (on && s.ownsVault c) = zeroes
  cases zeroes
  · rw [Bool.false_and, if_neg Bool.false_ne_true, if_neg Bool.false_ne_true]
  · rw [Bool.true_and, if_pos rfl, State.zeroWhere_byte]

theorem State.scrubUnits_byte (s : State) (c : Nat) (u : BitVec 3) (a : Nat) :
    (s.scrubUnits c u).byte a = if s.scrubbed c u a then Config.unwrittenByte else s.byte a := by
  obtain ⟨padClusters, padParts, -⟩ := s.scrubPad_rest c (u.getLsbD 0)
  obtain ⟨clusters, parts, -, mem⟩ := (s.scrubPad c (u.getLsbD 0)).scrubTiles_rest c (u.getLsbD 1)
  rw [State.scrubUnits_eq, State.scrubVault_byte, State.ownsVault_congr (clusters.trans padClusters) (parts.trans padParts),
    State.byte_congr mem, State.scrubPad_byte, State.scrubbed, Bool.or_comm]
  by_cases vault : (u.getLsbD 2 && s.ownsVault c && inVault c a) = true
  · rw [if_pos vault, vault]
    rfl
  · rw [if_neg vault, Bool.eq_false_iff.mpr vault, Bool.false_or]

theorem State.scrubUnits_harts (s : State) (c : Nat) (u : BitVec 3) : (s.scrubUnits c u).harts = s.harts := by
  obtain ⟨-, -, pad⟩ := s.scrubPad_rest c (u.getLsbD 0)
  obtain ⟨-, -, tiles, -⟩ := (s.scrubPad c (u.getLsbD 0)).scrubTiles_rest c (u.getLsbD 1)
  have vault (t : State) (on : Bool) : (t.scrubVault c on).harts = t.harts := by
    rw [State.scrubVault]
    split <;> rfl
  rw [State.scrubUnits_eq, vault, tiles, pad]

end Sys2Proof.Machine

open Sys2Proof Sys2Proof.Machine

/-- Settles O21: each latch is read from the part of `errinj` that its write sets (`State.errinjRead_latches`), and a scrub
zeroes the places of the units it names (`State.scrubUnits_byte`). -/
theorem detectorsAndScrubActOnTheirUnits : Obligations.DetectorsAndScrubActOnTheirUnits := by
  unfold Obligations.DetectorsAndScrubActOnTheirUnits
  refine ⟨fun s arm => ?latches, fun s => ⟨?start, ?done⟩⟩
  case latches =>
    obtain ⟨coreHarts, coreMem, corePending⟩ := s.armCore_quiet arm
    obtain ⟨-, -, -, -, -, -, -, link⟩ := (s.armLink arm).errinjRead_latches
    obtain ⟨-, -, -, -, -, copy, -, -⟩ := (s.armCopy arm).errinjRead_latches
    obtain ⟨-, -, -, -, hbm, -, -, -⟩ := (s.armHbm arm).errinjRead_latches
    obtain ⟨-, -, -, vault, -, -, -, -⟩ := (s.armVault arm).errinjRead_latches
    obtain ⟨-, -, pad, -, -, -, -, -⟩ := (s.armPad arm).errinjRead_latches
    obtain ⟨mpad, -, -, -, -, -, -, -⟩ := (s.armMpad arm).errinjRead_latches
    obtain ⟨-, tmem, -, -, -, -, -, -⟩ := (s.armTmem arm).errinjRead_latches
    obtain ⟨-, -, -, -, -, -, core, -⟩ := (s.armCore arm).errinjRead_latches
    refine ⟨⟨_, exec_errinjLink s, ?_, rfl, rfl, rfl⟩, ⟨_, exec_errinjCopy s, ?_, rfl, rfl, rfl⟩,
      ⟨_, exec_errinjHbm s, ?_, rfl, rfl, rfl⟩, ⟨_, exec_errinjVault s, ?_, rfl, rfl, rfl⟩,
      ⟨_, exec_errinjPad s, ?_, rfl, rfl, rfl⟩, ⟨_, exec_errinjMpad s, ?_, rfl, rfl, rfl⟩,
      ⟨_, exec_errinjTmem s, ?_, rfl, rfl, rfl⟩, ⟨_, exec_errinjCore s, ?_, coreHarts, coreMem, corePending⟩⟩
    · exact link.trans (s.armCluster_latch (by decide) arm)
    · exact copy.trans (s.armCluster_latch (by decide) arm)
    · exact hbm.trans (s.armCluster_latch (by decide) arm)
    · exact vault.trans (s.armCluster_latch (by decide) arm)
    · exact pad.trans (s.armCluster_latch (by decide) arm)
    · exact mpad.trans (latch_toNat (congrArg Pair.errMpad (s.pair_modPair _ fun p => { p with errMpad := arm })))
    · exact tmem.trans (latch_toNat (congrArg Pair.errTmem (s.pair_modPair _ fun p => { p with errTmem := arm })))
    · exact core.trans (latch_toNat (s.armCore_latch arm))
  case start =>
    rintro i u (⟨rfl, rfl⟩ | ⟨rfl, rfl⟩ | ⟨rfl, rfl⟩)
    · obtain ⟨starts, ignored⟩ := s.scrubStart_result (u := 1) (by decide)
      exact ⟨fun idle => ⟨_, exec_scrubctlPad s, starts idle⟩,
        fun busy => (exec_scrubctlPad s).trans (congrArg _ (ignored busy))⟩
    · obtain ⟨starts, ignored⟩ := s.scrubStart_result (u := 2) (by decide)
      exact ⟨fun idle => ⟨_, exec_scrubctlTiles s, starts idle⟩,
        fun busy => (exec_scrubctlTiles s).trans (congrArg _ (ignored busy))⟩
    · obtain ⟨starts, ignored⟩ := s.scrubStart_result (u := 4) (by decide)
      exact ⟨fun idle => ⟨_, exec_scrubctlVault s, starts idle⟩,
        fun busy => (exec_scrubctlVault s).trans (congrArg _ (ignored busy))⟩
  case done =>
    intro c
    have byte := s.scrubUnits_byte c (s.cluster c).scrubBusy
    refine ⟨_, exec_supervisorScrubDone s, ?busy, s.scrubUnits_harts c _, fun pad a free => ?pad,
      fun vault p own named a low high => ?vault, fun none a => ?none⟩
    case busy => exact congrArg Cluster.scrubBusy (State.cluster_modCluster _ c _)
    case pad =>
      refine (byte a).trans (if_pos ?_)
      rw [State.scrubbed, pad, free]
      rfl
    case vault =>
      refine (byte a).trans (if_pos ?_)
      simp only [State.scrubbed, vault, State.ownsVault, own, inVault, named, low, high, decide_true, Bool.and_self, Bool.or_true]
    case none =>
      refine (byte a).trans (if_neg ?_)
      rw [State.scrubbed, none]
      exact Bool.false_ne_true
end

section
/-! PROOFS. The context engine (R345 to R347, R358, R359, R366 to R368, R372, R395): its commands, and the steps of a stop, a save
and a teardown. -/

namespace Sys2Proof.Machine

/-! ### Commands (R359, R395) -/

section
variable {s : State} {p : Nat} {allowed : Part → Bool} {f : Part → State}

theorem State.ctxCommand_busy (busy : (s.parts.get p default).busy = true) :
    s.ctxCommand p allowed f = .next (s.setCode p 5) := if_pos busy

section
variable (free : (s.parts.get p default).busy = false)
include free

theorem State.ctxCommand_free : s.ctxCommand p allowed f =
    if (s.parts.get p default).present && allowed (s.parts.get p default) then .next (f (s.parts.get p default))
    else .next (s.setCode p 4) := if_neg (Bool.not_eq_true _ ▸ free)

theorem State.ctxCommand_allowed (present : (s.parts.get p default).present = true)
    (fits : allowed (s.parts.get p default) = true) : s.ctxCommand p allowed f = .next (f (s.parts.get p default)) := by
  rw [State.ctxCommand_free free, present, fits, Bool.and_self, if_pos rfl]

theorem State.ctxCommand_refused
    (unfit : (s.parts.get p default).present = true → allowed (s.parts.get p default) = false) :
    s.ctxCommand p allowed f = .next (s.setCode p 4) := by
  rw [State.ctxCommand_free free, if_neg]
  intro fits
  obtain ⟨present, fits⟩ := Bool.and_eq_true_iff.mp fits
  exact Bool.false_ne_true ((unfit present).symm.trans fits)

end

/-! ### Stops (R358, R372) -/

variable {command kind : Nat}

theorem State.stopCommand_joins (stopping : (s.parts.get p default).state = 1) :
    s.stopCommand p command kind allowed = .next s := if_pos stopping

theorem State.stopCommand_busy (still : (s.parts.get p default).state ≠ 1) (busy : (s.parts.get p default).busy = true) :
    s.stopCommand p command kind allowed = .next (s.setCode p 5) := by
  rw [State.stopCommand, if_neg still, State.ctxCommand_busy busy]

theorem State.stopCommand_refused (still : (s.parts.get p default).state ≠ 1) (free : (s.parts.get p default).busy = false)
    (unfit : (s.parts.get p default).present = true → allowed (s.parts.get p default) = false) :
    s.stopCommand p command kind allowed = .next (s.setCode p 4) := by
  rw [State.stopCommand, if_neg still, State.ctxCommand_refused free unfit]

/-- A stop of a partition that runs begins with its steps. -/
theorem State.stopCommand_begins (runs : (s.parts.get p default).state = 0) (free : (s.parts.get p default).busy = false)
    (present : (s.parts.get p default).present = true) (fits : allowed (s.parts.get p default) = true) :
    s.stopCommand p command kind allowed = .next (s.beginStop p command kind) := by
  rw [State.stopCommand, if_neg (by rw [runs]; decide), State.ctxCommand_allowed free present fits,
    if_neg (by rw [runs]; decide)]

/-- A stop of a stopped partition saves it again. -/
theorem State.stopCommand_saves (stopped : (s.parts.get p default).state = 2) (free : (s.parts.get p default).busy = false)
    (present : (s.parts.get p default).present = true) (fits : allowed (s.parts.get p default) = true) :
    s.stopCommand p command kind allowed = .next ((s.modPart p fun x => { x with
      state := 3, command := command, kind := kind, baleAt := 0,
      damaged := x.damaged.filter fun e => e.1 != x.saveBase }).post (.baleWriteDone p)) := by
  rw [State.stopCommand, if_neg (by rw [stopped]; decide), State.ctxCommand_allowed free present fits, if_pos stopped]

end

/-- A command that stops a partition: the states that allow it are 0, and 2 where `again` says so. -/
def stopsPartition (s : State) (p : Nat) (i : Instr) (again : Bool) : Prop :=
  ∃ command kind allowed, exec i s = s.stopCommand p command kind allowed ∧
    ∀ x : Part, x.state ≠ 0 → (again = true → x.state ≠ 2) → allowed x = false

theorem stopsPartition_all (s : State) (p : Nat) :
    ∀ i ∈ [Instr.ctxStopSavePreempt p, .ctxStopSaveMigrate p, .ctxStop p, .ctxStopSaveDump p], stopsPartition s p i true := by
  have running (x : Part) (n : x.state ≠ 0) : (x.state == 0) = false := beq_eq_false_iff_ne.mpr n
  intro i listed
  simp only [List.mem_cons, List.not_mem_nil, or_false] at listed
  rcases listed with rfl | rfl | rfl | rfl
  · exact ⟨1, 1, _, exec_ctxStopSavePreempt s, fun x n _ => running x n⟩
  · exact ⟨2, 2, _, exec_ctxStopSaveMigrate s, fun x n _ => running x n⟩
  · exact ⟨4, 0, _, exec_ctxStop s, fun x n _ => running x n⟩
  · exact ⟨3, 3, _, exec_ctxStopSaveDump s, fun x n m => by
      rw [running x n, Bool.false_or]
      exact beq_eq_false_iff_ne.mpr (m rfl)⟩

theorem stopsPartition_running (s : State) (p : Nat) :
    ∀ i ∈ [Instr.ctxStopSavePreempt p, .ctxStopSaveMigrate p, .ctxStop p], stopsPartition s p i false := by
  have running (x : Part) (n : x.state ≠ 0) : (x.state == 0) = false := beq_eq_false_iff_ne.mpr n
  intro i listed
  simp only [List.mem_cons, List.not_mem_nil, or_false] at listed
  rcases listed with rfl | rfl | rfl
  · exact ⟨1, 1, _, exec_ctxStopSavePreempt s, fun x n _ => running x n⟩
  · exact ⟨2, 2, _, exec_ctxStopSaveMigrate s, fun x n _ => running x n⟩
  · exact ⟨4, 0, _, exec_ctxStop s, fun x n _ => running x n⟩

section
variable {s : State} {p : Nat} {i : Instr} {again : Bool} (stop : stopsPartition s p i again)
include stop

theorem stopsPartition_joins (stopping : (s.parts.get p default).state = 1) : exec i s = .next s := by
  obtain ⟨command, kind, allowed, word, -⟩ := stop
  exact word.trans (State.stopCommand_joins stopping)

variable (still : (s.parts.get p default).state ≠ 1)
include still

theorem stopsPartition_busy (busy : (s.parts.get p default).busy = true) : exec i s = .next (s.setCode p 5) := by
  obtain ⟨command, kind, allowed, word, -⟩ := stop
  exact word.trans (State.stopCommand_busy still busy)

theorem stopsPartition_refused (free : (s.parts.get p default).busy = false)
    (unfit : (s.parts.get p default).present = false ∨ (if again then 3 else 2) ≤ (s.parts.get p default).state) :
    exec i s = .next (s.setCode p 4) := by
  obtain ⟨command, kind, allowed, word, fits⟩ := stop
  refine word.trans (State.stopCommand_refused still free fun present => ?_)
  rcases unfit with absent | late
  · exact absurd (absent.symm.trans present) Bool.false_ne_true
  · cases again
    · have two : 2 ≤ (s.parts.get p default).state := late
      exact fits _ (by omega) (fun no => absurd no Bool.false_ne_true)
    · have three : 3 ≤ (s.parts.get p default).state := late
      exact fits _ (by omega) (fun _ => by omega)

end

/-! ### Restore (R359, R366) -/

section
variable {s : State} {p : Nat}

/-- Where no restore runs, a busy engine or a live task refuses another. -/
theorem execCtxRestore_busy
    (idle : ¬ ((s.parts.get p default).state = 6 ∧ (s.parts.get p default).command = 7))
    (busy : (s.parts.get p default).busy = true ∨ s.liveTask p (s.parts.get p default) = true) :
    execCtxRestore p s = .next (s.setCode p 5) := by
  rw [execCtxRestore, if_neg idle, if_pos (Bool.or_eq_true_iff.mpr busy)]

/-- One that comes while a restore is to begin is refused. -/
theorem execCtxRestore_again (runs : (s.parts.get p default).state = 6 ∧ (s.parts.get p default).command = 7)
    (begins : s.pending.contains (.ctxRestore p) = true) : execCtxRestore p s = .next (s.setCode p 5) := by
  rw [execCtxRestore, if_pos runs, if_pos begins]

theorem execCtxRestore_runs (runs : (s.parts.get p default).state = 6 ∧ (s.parts.get p default).command = 7)
    (began : s.pending.contains (.ctxRestore p) = false) :
    execCtxRestore p s = .next (s.runRestore p (s.parts.get p default)) := by
  rw [execCtxRestore, if_pos runs, if_neg (Bool.not_eq_true _ ▸ began)]

theorem Part.command_of_idle {x : Part} (free : x.busy = false) : x.command = 0 := by
  obtain ⟨idle, -⟩ := Bool.or_eq_false_iff.mp free
  exact not_not.mp (bne_iff_ne.not.mp (Bool.not_eq_true _ ▸ idle))

theorem execCtxRestore_free (free : (s.parts.get p default).busy = false)
    (quiet : s.liveTask p (s.parts.get p default) = false) : execCtxRestore p s =
      s.ctxCommand p (fun x => x.state != 5) fun _ =>
        ((s.stopHarts p).modPart p fun y => { y with state := 6, command := 7 }).post (.ctxRestore p) := by
  have idle := Part.command_of_idle free
  rw [execCtxRestore, if_neg (by rw [idle]; exact fun runs => absurd runs.2 (by decide)), if_neg (by rw [free, quiet]; decide)]

end

end Sys2Proof.Machine

namespace Sys2Proof.Machine

/-! ### Resume (R366) -/

/-- A partition that is stopped, or saved with its clusters still its own, goes on in place. -/
theorem resumesInPlace_iff (x : Part) : (x.state == 2 || (x.state == 4 && x.clusters == x.savedMask)) = true ↔
    x.state = 2 ∨ x.state = 4 ∧ x.clusters = x.savedMask := by
  rw [Bool.or_eq_true, Bool.and_eq_true, beq_iff_eq, beq_iff_eq, beq_iff_eq]

/-! ### The steps of a stop (R358) -/

section
variable {s : State} {p : Nat} {x : Part} (found : s.parts.find p = some x)
include found

theorem execEngineQuiesceDone_other (step : x.stopStep ≠ 3) : execEngineQuiesceDone p s = .next s := by
  simp only [execEngineQuiesceDone, found]
  rw [if_pos step]

section
variable (step : x.stopStep = 3)
include step

theorem execEngineQuiesceDone_step : execEngineQuiesceDone p s =
    if (s.pending.any (engineWork (s.pairsOf p))) || (s.clustersOf p).any (fun c => (s.cluster c).slots.any fun e => e.2.out) then
      .next (s.post (.engineQuiesceDone p))
    else if (s.pairsOf p).all fun q => (s.pair q).ops.isEmpty then
      .next (((quiesceAll (s.clustersOf p) s).modPart p fun x => { x with stopStep := 4 }).post (.stopDeliveryDone p))
    else if (s.pairsOf p).any s.pairWorks then
      .next (((s.pairsOf p).foldl State.drivePair s).post (.engineQuiesceDone p))
    else .next ((dropWaitingGangs (s.pairsOf p) s).post (.engineQuiesceDone p)) := by
  simp only [execEngineQuiesceDone, found]
  rw [if_neg (not_not.mpr step)]

theorem execEngineQuiesceDone_waits (works : ((s.pending.any (engineWork (s.pairsOf p))) ||
    (s.clustersOf p).any (fun c => (s.cluster c).slots.any fun e => e.2.out)) = true) :
    execEngineQuiesceDone p s = .next (s.post (.engineQuiesceDone p)) := by
  rw [execEngineQuiesceDone_step found step, if_pos works]

variable (rests : ((s.pending.any (engineWork (s.pairsOf p))) ||
  (s.clustersOf p).any (fun c => (s.cluster c).slots.any fun e => e.2.out)) = false)
include rests

theorem execEngineQuiesceDone_ends (empty : ∀ q ∈ s.pairsOf p, (s.pair q).ops = []) : execEngineQuiesceDone p s =
    .next (((quiesceAll (s.clustersOf p) s).modPart p fun x => { x with stopStep := 4 }).post (.stopDeliveryDone p)) := by
  rw [execEngineQuiesceDone_step found step, if_neg (Bool.not_eq_true _ ▸ rests),
    if_pos (List.all_eq_true.mpr fun q listed => List.isEmpty_iff.mpr (empty q listed))]

variable (held : ∃ q ∈ s.pairsOf p, (s.pair q).ops ≠ [])
include held

theorem execEngineQuiesceDone_held : execEngineQuiesceDone p s =
    if (s.pairsOf p).any s.pairWorks then .next (((s.pairsOf p).foldl State.drivePair s).post (.engineQuiesceDone p))
    else .next ((dropWaitingGangs (s.pairsOf p) s).post (.engineQuiesceDone p)) := by
  obtain ⟨q, listed, ops⟩ := held
  rw [execEngineQuiesceDone_step found step, if_neg (Bool.not_eq_true _ ▸ rests),
    if_neg fun all => ops (List.isEmpty_iff.mp (List.all_eq_true.mp all q listed))]

theorem execEngineQuiesceDone_drives (works : ∃ q ∈ s.pairsOf p, s.pairWorks q = true) : execEngineQuiesceDone p s =
    .next (((s.pairsOf p).foldl State.drivePair s).post (.engineQuiesceDone p)) := by
  rw [execEngineQuiesceDone_held found step rests held, if_pos (List.any_eq_true.mpr works)]

theorem execEngineQuiesceDone_withdraws (stuck : ∀ q ∈ s.pairsOf p, s.pairWorks q = false) : execEngineQuiesceDone p s =
    .next ((dropWaitingGangs (s.pairsOf p) s).post (.engineQuiesceDone p)) := by
  rw [execEngineQuiesceDone_held found step rests held, if_neg fun some_ => by
    obtain ⟨q, listed, works⟩ := List.any_eq_true.mp some_
    exact Bool.false_ne_true ((stuck q listed).symm.trans works)]

end

theorem execStopDeliveryDone_other (step : x.stopStep ≠ 4) : execStopDeliveryDone p s = .next s := by
  simp only [execStopDeliveryDone, found]
  rw [if_pos step]

section
variable (step : x.stopStep = 4)
include step

theorem execStopDeliveryDone_waits (flies : s.inFlight p = true) :
    execStopDeliveryDone p s = .next (s.post (.stopDeliveryDone p)) := by
  simp only [execStopDeliveryDone, found]
  rw [if_neg (not_not.mpr step), if_pos flies]

theorem execStopDeliveryDone_ends (delivered : s.inFlight p = false) : execStopDeliveryDone p s =
    if x.command = 4 then .next ((if x.command = 2 then s.freezeGates p else s).ctxEnd p 2 0)
    else .next (((if x.command = 2 then s.freezeGates p else s).modPart p fun x =>
      { x with state := 2, stopStep := 0, baleAt := 0 }).post (.baleWriteDone p)) := by
  simp only [execStopDeliveryDone, found]
  rw [if_neg (not_not.mpr step), if_neg (Bool.not_eq_true _ ▸ delivered)]

end

/-! ### The steps of a save (R366, R367) -/

theorem execBaleWriteDone_starts (stopped : x.state = 2) (runs : x.command ≠ 0) : execBaleWriteDone p s =
    .next ((s.modPart p fun x => { x with state := 3 }).post (.baleWriteDone p)) := by
  simp only [execBaleWriteDone, found]
  rw [if_pos ⟨stopped, runs⟩]

theorem execBaleWriteDone_other (saved : x.state ≠ 3) (idle : x.state ≠ 2 ∨ x.command = 0) :
    execBaleWriteDone p s = .next s := by
  simp only [execBaleWriteDone, found]
  rw [if_neg fun both => idle.elim (fun n => n both.1) both.2, if_pos saved]

theorem execSaveIncomplete_other (saved : x.state ≠ 3) : execSaveIncomplete p s = .next s := by
  simp only [execSaveIncomplete, found]
  rw [if_pos saved]

section
variable (saves : x.state = 3)
include saves

theorem execBaleWriteDone_whole {t : State} (whole : s.writeBale p x = (t, none)) : execBaleWriteDone p s =
    .next (((t.keepSaved p).ctxEnd p 4 0).modPart p fun x => { x with released := x.kind != 3, baleAt := 0 }) := by
  simp only [execBaleWriteDone, found]
  rw [if_neg fun both => absurd (saves.symm.trans both.1) (by decide), if_neg (not_not.mpr saves), whole]

theorem execBaleWriteDone_stops {t : State} {e : Nat × Bool} (stops : s.writeBale p x = (t, some e)) :
    execBaleWriteDone p s = .next (s.post (.saveIncomplete p)) := by
  simp only [execBaleWriteDone, found]
  rw [if_neg fun both => absurd (saves.symm.trans both.1) (by decide), if_neg (not_not.mpr saves), stops]

theorem execSaveIncomplete_whole {t : State} (whole : s.writeBale p x = (t, none)) :
    execSaveIncomplete p s = .next (s.post (.baleWriteDone p)) := by
  simp only [execSaveIncomplete, found]
  rw [if_neg (not_not.mpr saves), whole]

/-- A save that stops where no byte can be written marks the header, posts a report and ends in state 5. -/
theorem execSaveIncomplete_stops {t : State} {pos : Nat} {fault : Bool} (stops : s.writeBale p x = (t, some (pos, fault))) :
    let l := baleSects s p x
    let spot := baleSpot pos 0 (placed l)
    execSaveIncomplete p s = .next (((t.report ringTerminal
      { mkReport t 5 15 0x02 ((s.clustersOf p).headD 0) 0 with
        part := p, stage := 2, access := 1, gpa := wordOf (x.saveBase.toNat + pos),
        info := wordOf (((l[spot.1]?).map fun y => y.type).getD 0 + spot.2 * 2 ^ 16) }).1.ctxEnd p 5
          (if fault then 1 else 2)).modPart p fun x => { x with sect := BitVec.ofNat 16 spot.1, baleAt := pos }) := by
  simp only [execSaveIncomplete, found]
  rw [if_neg (not_not.mpr saves), stops]

end

/-! ### The steps of a teardown (R346, R347) -/

theorem execScrubDone_idle (idle : x.scrubProg.getLsbD 62 = false) : execScrubDone p s = .next s := by
  simp only [execScrubDone, found]
  rw [if_pos idle]

section
variable (runs : x.scrubProg.getLsbD 62 = true)
include runs

theorem execScrubDone_counted (counted : bits x.scrubProg 0 48 ≠ 0) :
    execScrubDone p s = .next (s.scrubNext p (bits x.scrubProg 59 3)) := by
  simp only [execScrubDone, found]
  rw [if_neg (by rw [runs]; decide), if_pos counted]

theorem execScrubDone_works (fresh : bits x.scrubProg 0 48 = 0) {z : State} {n : Nat}
    (work : s.scrubStep p x (bits x.scrubProg 59 3) = (z, n)) : execScrubDone p s =
      .next (if n = 0 then z.scrubNext p (bits x.scrubProg 59 3)
        else (z.modPart p fun y => { y with scrubProg := setBits y.scrubProg 0 48 n }).post (.scrubDone p)) := by
  simp only [execScrubDone, found]
  rw [if_neg (by rw [runs]; decide), if_neg (not_not.mpr fresh), work, apply_ite Host.Outcome.next]

end

end

theorem State.scrubNext_begins (s : State) (p : Nat) {step : Nat} (more : step ≠ 7) : s.scrubNext p step =
    (s.modPart p fun y => { y with scrubProg := setBits (setBits y.scrubProg 59 3 (step + 1)) 0 48 0 }).post (.scrubDone p) :=
  if_neg more

/-- A step that scrubs `n` units: they are counted first, and without any the next step begins. -/
theorem execScrubDone_counts {s : State} {p : Nat} {x : Part} (found : s.parts.find p = some x)
    (runs : x.scrubProg.getLsbD 62 = true) (fresh : bits x.scrubProg 0 48 = 0) (more : bits x.scrubProg 59 3 ≠ 7) {z : State}
    {n : Nat} (work : s.scrubStep p x (bits x.scrubProg 59 3) = (z, n)) : execScrubDone p s = .next (if n = 0 then
      (z.modPart p fun y => { y with
        scrubProg := setBits (setBits y.scrubProg 59 3 (bits x.scrubProg 59 3 + 1)) 0 48 0 }).post (.scrubDone p)
      else (z.modPart p fun y => { y with scrubProg := setBits y.scrubProg 0 48 n }).post (.scrubDone p)) := by
  rw [execScrubDone_works found runs fresh work, State.scrubNext_begins z p more]

/-- The tiles of a cluster that the sixth step zeroes. -/
def State.withoutTiles (s : State) (cs : List Nat) : State :=
  { s with pairs := s.pairs.mapVal fun q k => if cs.contains (clusterOfPair q) then { k with tiles := [] } else k }

theorem State.withoutTiles_tile (s : State) {cs : List Nat} {q : Nat} (among : clusterOfPair q ∈ cs) (t : Nat) :
    (s.withoutTiles cs).tile q t = default := by
  have pair : (s.withoutTiles cs).pair q = { s.pair q with tiles := [] } := by
    have found := Table.get_mapVal s.pairs (fun q k => if cs.contains (clusterOfPair q) then { k with tiles := [] } else k) q
      Pair.zero (ite_self _)
    exact found.trans (if_pos (List.contains_iff_mem.mpr among))
  rw [State.tile, pair]
  rfl

/-! ### What the last step leaves of a cluster -/

theorem scrubClusters_rest (l : List Nat) (s : State) : (scrubClusters l s).mem = s.mem ∧ (scrubClusters l s).parts = s.parts := by
  induction l generalizing s with
  | nil => exact ⟨rfl, rfl⟩
  | cons c r ih => exact ih (s.scrubCluster c)

theorem State.scrubCluster_partOf (s : State) (c d : Nat) : (s.scrubCluster c).partOf d = if d = c then none else s.partOf d := by
  by_cases same : d = c
  · subst same
    rw [if_pos rfl]
    exact congrArg Cluster.part (Table.get_put_same s.clusters d (s.cluster d).bare Cluster.zero)
  · rw [if_neg same]
    exact congrArg Cluster.part (Table.get_put_other s.clusters c d (s.cluster c).bare Cluster.zero same)

theorem scrubClusters_partOf (l : List Nat) (s : State) (c : Nat) :
    (scrubClusters l s).partOf c = if c ∈ l then none else s.partOf c := by
  induction l generalizing s with
  | nil => rw [if_neg List.not_mem_nil, scrubClusters]
  | cons d r ih =>
    rw [scrubClusters, ih, State.scrubCluster_partOf]
    by_cases later : c ∈ r
    · rw [if_pos later, if_pos (List.mem_cons_of_mem d later)]
    · simp only [later, List.mem_cons, or_false, if_false]

/-- A task that is still there was there, and on none of the clusters. -/
theorem scrubClusters_tasks (l : List Nat) (s : State) {e : Nat × Task} (left : e ∈ (scrubClusters l s).tasks) :
    e ∈ s.tasks ∧ e.2.cluster ∉ l := by
  induction l generalizing s with
  | nil => exact ⟨left, List.not_mem_nil⟩
  | cons c r ih =>
    obtain ⟨there, off⟩ := ih (s.scrubCluster c) left
    obtain ⟨was, other⟩ := List.mem_filter.mp there
    exact ⟨was, List.not_mem_cons_of_ne_of_not_mem (bne_iff_ne.mp other) off⟩

theorem Table.mem_of_find {α : Type} {t : Table α} {k : Nat} {v : α} (found : t.find k = some v) : (k, v) ∈ t := by
  induction t with
  | nil => cases found
  | cons e r ih =>
    obtain ⟨j, w⟩ := e
    rw [Table.find] at found
    split at found
    case isTrue same =>
      obtain rfl := same
      obtain rfl := Option.some.inj found
      exact List.mem_cons_self
    case isFalse => exact List.mem_cons_of_mem _ (ih found)

theorem State.applyAcks_none {s : State} {p : Nat} {x : Part} (found : s.parts.find p = some x) (none_ : x.acks = []) :
    s.applyAcks p = { s with parts := s.parts.put p x } := by
  have same : { x with acks := [] } = x := by rw [← none_]
  simp only [State.applyAcks, found, none_, List.foldl_nil]
  rw [State.modPart_found _ found, same]

/-- The state without the barriers and the formats of the partition itself. -/
def State.withoutShared (s : State) (p : Nat) : State :=
  { s with
    barriers := s.barriers.filter fun e => !(e.1 / (64 * 128 * 1024) == 4 && e.1 / 64 % 128 == p + 1),
    fmts := s.fmts.filter fun e => e.1 / 32 / 2 ^ 64 != p + 1 }

section
variable (s : State) (p : Nat) (x : Part)

theorem State.scrubStep_key : s.scrubStep p x 1 = ({ s with keys := s.keys.drop x.key }, 0) := rfl

theorem State.scrubStep_gates : s.scrubStep p x 2 = (s.dropGates p, 0) := rfl

theorem State.scrubStep_hbm : s.scrubStep p x 3 =
    (s.zeroWhere (s.scrubsHbm p (s.leavesOf p x)), (s.leavesOf p x).foldl (fun n e => n + e.2.2) 0) := rfl

theorem State.scrubStep_vaults : s.scrubStep p x 4 =
    (s.zeroWhere (scrubsVault x), (maskList x.vaults).length * (vaultSize / 4096)) := rfl

theorem State.scrubStep_pads : s.scrubStep p x 5 =
    (s.zeroWhere (scrubsPad (s.clustersOf p)), (s.clustersOf p).length * (padSize / 4096)) := rfl

theorem State.scrubStep_tiles : s.scrubStep p x 6 =
    (s.withoutTiles (s.clustersOf p), (s.clustersOf p).length * tileUnits) := rfl

theorem State.scrubStep_rest : s.scrubStep p x 7 =
    ((scrubClusters (s.clustersOf p) ((s.applyAcks p).withoutShared p)).dropLaunches p, 0) := rfl

end

/-- The last step answers what waits, and leaves nothing of the partition's clusters. -/
theorem State.scrubStep_last {s : State} {p : Nat} {x : Part} (found : s.parts.find p = some x) (none_ : x.acks = []) :
    ∃ z, s.scrubStep p x 7 = (z, 0) ∧ z.mem = s.mem ∧ z.parts.find p = some x ∧
      ∀ c < 128, s.partOf c = some p → z.partOf c = none ∧ ∀ e ∈ z.tasks, e.2.cluster ≠ c := by
  obtain ⟨mem, parts⟩ := scrubClusters_rest (s.clustersOf p) ((s.applyAcks p).withoutShared p)
  have acks := State.applyAcks_none found none_
  refine ⟨_, s.scrubStep_rest p x, ?mem, ?part, fun c low own => ?cluster⟩
  case mem =>
    refine mem.trans ?_
    rw [acks]
    rfl
  case part =>
    refine (congrArg (fun t => Table.find t p) parts).trans ?_
    rw [acks]
    exact Table.find_put_same s.parts p x
  case cluster =>
    have among : c ∈ s.clustersOf p := List.mem_filter.mpr ⟨List.mem_range.mpr low, beq_iff_eq.mpr own⟩
    refine ⟨(scrubClusters_partOf _ _ c).trans (if_pos among), fun e left same => ?_⟩
    obtain ⟨-, off⟩ := scrubClusters_tasks (s.clustersOf p) ((s.applyAcks p).withoutShared p) (e := e) left
    exact off (same ▸ among)

end Sys2Proof.Machine

open Sys2Proof Sys2Proof.Machine

/-- Settles O54: the commands by what `State.ctxCommand` and `State.stopCommand` allow, and each event by the step that the
partition's fields name. That a stop joins a stop and the codes meanwhile (log 48), the two steps of a save (log 49) and of a
restore (log 50), and the units of the scrub (log 73) are the model's choice. -/
theorem contextCommandsStopSaveRestoreAndScrub : Obligations.ContextCommandsStopSaveRestoreAndScrub := by
  unfold Obligations.ContextCommandsStopSaveRestoreAndScrub
  refine ⟨fun s p => ?commands, fun s p => ⟨?absent, fun x found => ?steps⟩, fun s n => ?source⟩
  case commands =>
    dsimp only
    refine ⟨fun _ => rfl, fun busy => ⟨?busyWords, ?busyRestore, ?busyUnknown, ?busyStops⟩, ?joins, fun free =>
      ⟨?unknown, ?stops, ?dumps, ?begins, ?saves, ?resume, ?noResume, ?resumeSave, ?noResumeSave, ?teardown, ?noTeardown, ?live,
        fun quiet => ⟨?noRestore, ?restore⟩⟩, fun state command began => ⟨?restored, ?damaged⟩⟩
    case busyWords =>
      intro i listed
      simp only [List.mem_cons, List.not_mem_nil, or_false] at listed
      rcases listed with rfl | rfl | rfl
      · exact (exec_ctxResumeInPlace s).trans (State.ctxCommand_busy busy)
      · exact (exec_ctxResumeSave s).trans (State.ctxCommand_busy busy)
      · exact (exec_ctxTeardown s).trans (State.ctxCommand_busy busy)
    case busyRestore =>
      rintro late i listed
      obtain rfl := List.mem_singleton.mp listed
      rw [exec_ctxRestore]
      by_cases runs : (s.parts.get p default).state = 6 ∧ (s.parts.get p default).command = 7
      · exact execCtxRestore_again runs ((late.resolve_left (not_not.mpr runs.1)).resolve_left (not_not.mpr runs.2))
      · exact execCtxRestore_busy runs (.inl busy)
    case busyUnknown => exact fun n => (exec_ctxUnknownCommand s).trans (State.ctxCommand_busy busy)
    case busyStops => exact fun still i listed => stopsPartition_busy (stopsPartition_all s p i listed) still busy
    case joins => exact fun stopping i listed => stopsPartition_joins (stopsPartition_all s p i listed) stopping
    case unknown => exact fun n => (exec_ctxUnknownCommand s).trans (State.ctxCommand_refused free fun _ => rfl)
    case stops => exact fun unfit still i listed => stopsPartition_refused (stopsPartition_running s p i listed) still free unfit
    case dumps => exact fun unfit still i listed => stopsPartition_refused (stopsPartition_all s p i listed) still free unfit
    case begins =>
      intro present runs
      have zero : ((s.parts.get p default).state == 0) = true := beq_iff_eq.mpr runs
      exact ⟨(exec_ctxStopSavePreempt s).trans (State.stopCommand_begins runs free present zero),
        (exec_ctxStopSaveMigrate s).trans (State.stopCommand_begins runs free present zero),
        (exec_ctxStopSaveDump s).trans (State.stopCommand_begins runs free present (Bool.or_eq_true_iff.mpr (.inl zero))),
        (exec_ctxStop s).trans (State.stopCommand_begins runs free present zero)⟩
    case saves =>
      exact fun present stopped => (exec_ctxStopSaveDump s).trans
        (State.stopCommand_saves stopped free present (Bool.or_eq_true_iff.mpr (.inr (beq_iff_eq.mpr stopped))))
    case resume =>
      exact fun ⟨present, state⟩ => (exec_ctxResumeInPlace s).trans
        (State.ctxCommand_allowed free present ((resumesInPlace_iff _).mpr state))
    case noResume =>
      rintro unfit i listed
      obtain rfl := List.mem_singleton.mp listed
      exact (exec_ctxResumeInPlace s).trans (State.ctxCommand_refused free fun present =>
        Bool.eq_false_iff.mpr fun fits => unfit ⟨present, (resumesInPlace_iff _).mp fits⟩)
    case resumeSave =>
      exact fun present state => (exec_ctxResumeSave s).trans (State.ctxCommand_allowed free present (beq_iff_eq.mpr state))
    case noResumeSave =>
      rintro unfit i listed
      obtain rfl := List.mem_singleton.mp listed
      exact (exec_ctxResumeSave s).trans (State.ctxCommand_refused free fun present =>
        beq_eq_false_iff_ne.mpr (unfit.resolve_left (ne_false_of_eq_true present)))
    case teardown =>
      exact fun present state => (exec_ctxTeardown s).trans (State.ctxCommand_allowed free present (bne_iff_ne.mpr state))
    case noTeardown =>
      rintro unfit i listed
      obtain rfl := List.mem_singleton.mp listed
      exact (exec_ctxTeardown s).trans (State.ctxCommand_refused free fun present =>
        bne_eq_false_iff_eq.mpr (unfit.resolve_left (ne_false_of_eq_true present)))
    case live =>
      rintro live i listed
      obtain rfl := List.mem_singleton.mp listed
      have idle := Part.command_of_idle free
      exact (exec_ctxRestore s).trans (execCtxRestore_busy (fun runs => absurd (idle.symm.trans runs.2) (by decide)) (.inr live))
    case noRestore =>
      rintro unfit i listed
      obtain rfl := List.mem_singleton.mp listed
      rw [exec_ctxRestore, execCtxRestore_free free quiet]
      exact State.ctxCommand_refused free fun present =>
        bne_eq_false_iff_eq.mpr (unfit.resolve_left (ne_false_of_eq_true present))
    case restore =>
      intro present state
      rw [exec_ctxRestore, execCtxRestore_free free quiet]
      exact State.ctxCommand_allowed free present (bne_iff_ne.mpr state)
    case restored =>
      intro u t result
      rw [exec_ctxRestore, execCtxRestore_runs ⟨state, command⟩ began, State.runRestore, result]
    case damaged =>
      intro u code sect result
      rw [exec_ctxRestore, execCtxRestore_runs ⟨state, command⟩ began, State.runRestore, result]
  case absent =>
    intro none_ i listed
    simp only [List.mem_cons, List.not_mem_nil, or_false] at listed
    rcases listed with rfl | rfl | rfl | rfl | rfl
    · simp only [exec_engineQuiesceDone, execEngineQuiesceDone, none_]
    · simp only [exec_stopDeliveryDone, execStopDeliveryDone, none_]
    · simp only [exec_baleWriteDone, execBaleWriteDone, none_]
    · simp only [exec_saveIncomplete, execSaveIncomplete, none_]
    · simp only [exec_scrubDone, execScrubDone, none_]
  case steps =>
    dsimp only
    refine ⟨execEngineQuiesceDone_other found, fun step => ⟨execEngineQuiesceDone_waits found step, fun rests =>
      ⟨execEngineQuiesceDone_ends found step rests, fun held => ⟨execEngineQuiesceDone_drives found step rests held,
        execEngineQuiesceDone_withdraws found step rests held⟩⟩⟩,
      execStopDeliveryDone_other found, fun step => ⟨execStopDeliveryDone_waits found step, fun delivered =>
        ⟨fun stop => ?stopEnds, fun migrate => ?migrateEnds, fun other notStop => ?saveEnds⟩⟩,
      execBaleWriteDone_starts found, fun saves => ⟨fun t whole => ⟨execBaleWriteDone_whole found saves whole,
        execSaveIncomplete_whole found saves whole⟩,
        fun t pos fault stops => ⟨execBaleWriteDone_stops found saves stops, ?incomplete⟩⟩,
      fun saved => ⟨execSaveIncomplete_other found saved, execBaleWriteDone_other found saved⟩,
      execScrubDone_idle found, fun runs => ⟨fun counted more => ?counted, fun fresh =>
        ⟨fun one => ?key, fun two => ?gates, fun three => ?hbm, fun four => ?vaults, fun five => ?pads, fun six => ?tiles,
          fun seven acks => ?last⟩⟩⟩
    case stopEnds =>
      rw [exec_stopDeliveryDone, execStopDeliveryDone_ends found step delivered, if_pos stop, if_neg (by rw [stop]; decide)]
    case migrateEnds =>
      rw [exec_stopDeliveryDone, execStopDeliveryDone_ends found step delivered, if_pos migrate, if_neg (by rw [migrate]; decide)]
    case saveEnds =>
      rw [exec_stopDeliveryDone, execStopDeliveryDone_ends found step delivered, if_neg other, if_neg notStop]
    case incomplete => exact execSaveIncomplete_stops found saves stops
    case counted =>
      rw [exec_scrubDone, execScrubDone_counted found runs counted, State.scrubNext_begins s p more]
    case key =>
      rw [exec_scrubDone, execScrubDone_counts found runs fresh (by rw [one]; decide)
        ((congrArg (s.scrubStep p x) one).trans (s.scrubStep_key p x)), if_pos rfl]
    case gates =>
      rw [exec_scrubDone, execScrubDone_counts found runs fresh (by rw [two]; decide)
        ((congrArg (s.scrubStep p x) two).trans (s.scrubStep_gates p x)), if_pos rfl]
    case hbm =>
      exact ⟨_, (exec_scrubDone s).trans (execScrubDone_counts found runs fresh (by rw [three]; decide)
        ((congrArg (s.scrubStep p x) three).trans (s.scrubStep_hbm p x))), rfl,
        s.zeroWhere_byte _⟩
    case vaults =>
      exact ⟨_, (exec_scrubDone s).trans (execScrubDone_counts found runs fresh (by rw [four]; decide)
        ((congrArg (s.scrubStep p x) four).trans (s.scrubStep_vaults p x))), rfl,
        s.zeroWhere_byte _⟩
    case pads =>
      exact ⟨_, (exec_scrubDone s).trans (execScrubDone_counts found runs fresh (by rw [five]; decide)
        ((congrArg (s.scrubStep p x) five).trans (s.scrubStep_pads p x))), rfl,
        s.zeroWhere_byte _⟩
    case tiles =>
      exact ⟨s.withoutTiles (s.clustersOf p), (exec_scrubDone s).trans
        (execScrubDone_counts found runs fresh (by rw [six]; decide)
        ((congrArg (s.scrubStep p x) six).trans (s.scrubStep_tiles p x))), rfl, rfl, fun q t among => s.withoutTiles_tile among t⟩
    case last =>
      obtain ⟨z, work, mem, part, clusters⟩ := State.scrubStep_last found acks
      rw [← seven] at work
      refine ⟨_, (exec_scrubDone s).trans (execScrubDone_works found runs fresh work), ?_⟩
      rw [if_pos rfl, seven, State.scrubNext, if_pos rfl, State.scrubEnds, State.modPart_found _ part]
      refine ⟨mem, fun c low own => ?_, Table.find_put_same z.parts p _⟩
      obtain ⟨free, gone⟩ := clusters c low own
      exact ⟨free, fun k y there => gone (k, y) (Table.mem_of_find there)⟩
  case source =>
    refine ⟨fun none_ => ?absentGate, fun g found => ⟨fun still => ?still, fun moved => ?moved⟩⟩
    case absentGate => simp only [exec_gateSourceFree, execGateSourceFree, none_]
    case still =>
      simp only [exec_gateSourceFree, execGateSourceFree, found, still, Option.isSome_none, Bool.false_eq_true, ↓reduceIte]
    case moved => simp only [exec_gateSourceFree, execGateSourceFree, found, Option.isSome_iff_ne_none.mpr moved, ↓reduceIte]
end
